-- ==== Sys2Proof/Word.lean ====
section
/-! DEFINITION. The bit-vector widths of the GX1640 and the plainest arithmetic on them. -/

namespace Sys2Proof

abbrev Byte := BitVec 8
/-- A register word, an IFA-32 word, the data of a stream word. -/
abbrev Word := BitVec 32
/-- A position count (R26). -/
abbrev Pos48 := BitVec 48
/-- The time base (R19) and other 64-bit values. -/
abbrev Dword := BitVec 64
/-- A time in 1/64 ns: 64 bits of ns, 6 bits of fraction (R257). -/
abbrev Time70 := BitVec 70

/-- One bit of a truth value. -/
def b2n (b : Bool) : Nat := if b then 1 else 0

/-- `w` bits of `x` from bit `lo` up. -/
def bitsOf (x lo w : Nat) : Nat := x / 2 ^ lo % 2 ^ w

/-- `num / den` rounded to the nearest whole number, ties upwards; 0 when `den` is 0. -/
def roundDiv (num den : Nat) : Nat := (2 * num + den) / (2 * den)

/-- `a − b` modulo 2³². -/
def sub32 (a b : Nat) : Nat := (BitVec.ofNat 32 a - BitVec.ofNat 32 b).toNat

/-- `⌈num / den⌉`. -/
def ceilDiv (num den : Nat) : Nat := (num + den - 1) / den

end Sys2Proof
end

