-- ==== Sys2Proof/Syntax.lean ====
section
/-! DEFINITION. The commands of the GX1640 with their operands: register writes and reads, events of
pins, links and clocks, packets and frames that arrive, and the instructions of the control cores. -/

namespace Sys2Proof

/-- A stream word: data and the sideband bits E, P and M. -/
structure SWord where
  d : Word
  e : Bool
  p : Bool
  m : Bool
  deriving DecidableEq, Repr

/-- A packet of the Ridge network (R218–R221): its header fields and its payload, by type. -/
structure Packet where
  dst : Nat
  dport : Nat
  src : Nat
  sport : Nat
  vn : Nat
  typ : Nat
  tag : Nat := 0
  addr : Nat := 0
  /-- SIZE: bytes, or words, minus one. -/
  size : Nat := 0
  status : Nat := 0
  spmask : Nat := 0
  /-- Bytes of a memory access, each with its byte enable. -/
  data : List (Byte × Bool) := []
  pmask : Nat := 0
  /-- Register data and its P bit. -/
  word : Word := 0
  wordP : Bool := false
  /-- Words of STREAM and MIRROR packets. -/
  stream : List SWord := []
  /-- Words of Summit packets and reports. -/
  words : List Word := []
  deriving DecidableEq, Repr


/-- A stream queue of a massif, or a lane receive queue. -/
inductive QueueRef where
  | massif (m : Fin 64) (q : Fin 32)
  | lane (l : Fin 256)
  deriving DecidableEq, Repr

/-! Records of the pair link (R279, R286–R288). -/

/-- Queue record of an EPOCH_END (R286). -/
structure QueueRec where
  massif : Nat
  queue : Nat
  wpk : Nat
  rpk : Nat
  rlk : Nat
  mkv : Bool
  mkk : Nat
  deriving DecidableEq, Repr

/-- Sequencer record of an EPOCH_END (R287). -/
structure SeqRec where
  massif : Nat
  step : Nat
  slot : Nat
  swcnt : Nat
  deriving DecidableEq, Repr

/-- A posted checkpoint (R288): slot, address, and its words with their P bits. -/
structure CkptRec where
  slot : Nat
  addr : Nat
  words : List (Word × Bool)
  deriving DecidableEq, Repr

/-- An EPOCH_END record (R279). -/
structure EpochEnd where
  epoch : Nat
  queues : List QueueRec
  seqs : List SeqRec
  ckpts : List CkptRec
  dline : Nat
  digests : List (Nat × Dword)
  deriving DecidableEq, Repr

/-- Pixel formats as R362 names them; any other one with the bits that a pixel of it takes. -/
inductive PixelFormat where
  | mono8 | mono10 | mono12 | mono14 | mono16 | mono10p | mono12p | mono14p
  | other (bits : Byte)
  deriving DecidableEq, Repr

/-- What a CXP stream packet carries (R362–R364): the header of an image, which names its pixel format; the start of a
line, a payload byte of it, its end. -/
inductive CxpItem where
  | image (f : PixelFormat)
  | start
  | byte (b : Byte)
  | eol
  deriving DecidableEq, Repr

/-- A GVSP packet of the Image payload type (R371): a leader with the pixel format and the pixels of a line; a payload
packet with its bytes; a trailer. -/
inductive GvspBody where
  | leader (f : PixelFormat) (width : Nat)
  | payload (bytes : List Byte)
  | trailer
  deriving DecidableEq, Repr

/-- What resets a PCIe endpoint (R383): its PERST pin falls; a hot reset; the link goes down; a Function Level Reset. The pin
also rises again (R403). -/
inductive EndpointReset where
  | perst (asserted : Bool)
  | hot
  | linkDown
  | function
  deriving DecidableEq, Repr

/-- What the host does with the MSI-X table and the controls that mask its vectors (R379, R382): a write or a read of one
DW of BAR4; MSI-X Enable and Function Mask; Bus Master Enable; D3hot or D0. -/
inductive MsixAccess where
  | write (off : BitVec 13) (d : Word)
  | read (tag : BitVec 10) (off : BitVec 13)
  | control (enable mask : Bool)
  | busMaster (on : Bool)
  | power (d3hot : Bool)
  deriving DecidableEq, Repr

/-- What the receiver of a lane has seen since the last such report: whether there is signal now, and code violations
(R361, R375). -/
structure LaneSignal where
  on : Bool
  violations : Word
  deriving DecidableEq, Repr

/-- The checks of a received frame: its FCS, and the RS-FEC codewords since the frame before it that were corrected, and
that could not be (R370, R377). -/
structure FrameCheck where
  fcs : Bool
  corrected : Word
  uncorrectable : Word
  deriving DecidableEq, Repr

/-- The level of an input after its synchroniser, and on how many consecutive cycles it has been sampled (R21). -/
structure InputSample where
  level : Bool
  held : Nat
  deriving DecidableEq, Repr

/-- What a Tempo port receives that is no frame of another command (R257, R276): what stood between an SOF and an EOF, if
anything did, and the code violations. -/
structure PortNoise where
  frame : Option (List Byte)
  violations : Byte
  deriving DecidableEq, Repr

/-- The second read of a locked group (R199): the channel, and the on-die reports of the bursts read. -/
structure LockedRead where
  chan : Fin 32
  od : List (Fin 3)
  deriving DecidableEq, Repr

/-- The commands of the block: one constructor per row of the opcode table. -/
inductive Instr where
  /-- R22. A filtered A/B change on an enabled encoder channel is decoded and counted per ENC_CTL.MODE. -/
  | encoderTransition (n : Fin 16) (a b : InputSample)
  /-- R24. A recognised rising edge of Z sets ZSEEN and acts per ZMODE. -/
  | zEdge (n : Fin 16) (z : InputSample)
  /-- R25. Writing ENC_CTL.LOAD loads the position from ENC_PRESET at the next TBCLK edge. -/
  | encLoad (n : Fin 16)
  /-- R25. A write of ENC_POS_LO loads the low position bits as a software load. -/
  | encPosWrite (n : Fin 16) (v : Word)
  /-- R499. A write of ENC_CTL.EN starts or stops decoding, the first sample after enabling counting nothing. -/
  | encEnable (n : Fin 16) (v : Word)
  /-- R28. Writing SNAP.CAPTURE copies TB and all sixteen positions into the snapshot registers in one cycle. -/
  | snapCapture
  /-- R31. TB reaches the due time of a pended line beat, which is emitted and NEXT advanced. -/
  | pendedBeatDue (c : Fin 64)
  /-- R35. TB equals a time channel's TIME; a beat is emitted and PERIOD added, or the channel finishes. -/
  | timeBeat (c : Fin 64)
  /-- R36. A write of BC_ARG3 pushes an entry into a kind 3 channel's schedule queue, or is refused. -/
  | schedPush (c : Fin 64) (v : Word)
  /-- R36. A schedule queue entry falls due by position or time and fires, one per cycle in queue order. -/
  | schedEntryDue (c : Fin 64)
  /-- R48. A write of BC_CTL enables, disables or restores a beat channel according to EN before and after. -/
  | bcCtlWrite (c : Fin 64) (v : Word)
  /-- R38. A beat held by the 8 ns spacing is emitted late, keeping its due time and counting BC_LATE. -/
  | lateBeatEmit (c : Fin 64)
  /-- R39. A beat waiting behind others enters the beat tree, one per TBCLK cycle in emission order. -/
  | beatTreeEntry
  /-- R40. The beat tree delivers a beat record to all 64 beat stubs, and each massif acts on it at its next edge. -/
  | beatDelivery
  /-- R42. The scheduled instant arrives and the beat output pin drives its active edge or toggles. -/
  | beatOutputEdge (o : Fin 64)
  /-- R43. A pulse-mode output returns to its inactive level after the width of the latest overlapping pulse. -/
  | pulseEnd (o : Fin 64)
  /-- R45. A write of BO_CTL changes output enable; EN 1 to 0 resets the toggle state and discards held firings. -/
  | boCtlWrite (o : Fin 64) (v : Word)
  /-- R258. Every 100 µs a port sends an ANNOUNCE frame. -/
  | announceSend (p : Fin 4)
  /-- R254. A received ANNOUNCE frame updates root candidacy, upstream port and port roles. -/
  | announce (p : Fin 4) (id rootId : BitVec 14) (rootPri : Fin 16) (parent : Bool) (depth : Fin 8) (rootSeq : Byte) (lead : Word)
  /-- R258. Every 8 µs a parent port sends a SYNC frame stamped with its SOF time. -/
  | syncSend (p : Fin 4) (frac : BitVec 6)
  /-- R261. A received SYNC on the upstream port yields the offset o and drives TB correction and lock state. `age`: how
  long before the end of the present TBCLK cycle its SOF crossed the ball, in 1/64 ns (R260). -/
  | sync (p : Fin 4) (ts : Time70) (age : BitVec 16)
  /-- R262. Every 64 TBCLK cycles the TBCLK phase moves by 1/64 ns toward zero offset. -/
  | phaseSlewStep
  /-- R258. Every 1,024 µs a child sends DREQ upstream. -/
  | dreqSend (p : Fin 4) (frac : BitVec 6)
  /-- R261. A parent receiving DREQ answers with DRESP carrying its receive and send times; `age` as at SYNC. -/
  | dreq (p : Fin 4) (seq : BitVec 16) (age : BitVec 16) (frac : BitVec 6)
  /-- R261. A child receiving DRESP computes the one-way delay into TP_DELAY; `age` as at SYNC. -/
  | dresp (p : Fin 4) (seq : BitVec 16) (t2 t3 : Time70) (age : BitVec 16)
  /-- R265. Every INT µs a publishing device sends a POS frame for its TPC. -/
  | posSend (c : Fin 16)
  /-- R265. A received POS frame is accepted as a sample for the followers of its TPC, or discarded as older. -/
  | pos (p : Fin 4) (origin : BitVec 14) (c : Fin 16) (loadSeq : Byte) (pn tn : Pos48) (vel : Word) (ts : Pos48)
  /-- R267. TB reaches TS + LEAD and a position sample takes effect on the followers. -/
  | sampleEffect (c : Fin 16)
  /-- R266. A follower's extrapolated position crosses a count and one transition is counted. -/
  | followerTransition (n : Fin 16)
  /-- R266. No new sample within 2 × INT holds the follower and sets STALE. -/
  | stale (n : Fin 16)
  /-- R270. A received BEAT frame matching a map pushes an entry due at TIME + LEAD. -/
  | beatFrame (p : Fin 4) (origin : BitVec 14) (ch : Fin 64) (act : Fin 16) (tfrac : Fin 8) (seq : BitVec 16) (pos time : Pos48)
  /-- R269. A received SCHED frame for an enabled TSQ is pushed into its kind 3 channel. -/
  | schedFrame (p : Fin 4) (origin : BitVec 14) (tsq : Fin 16) (byTime : Bool) (act : Fin 16) (value : Dword)
  /-- R420. A received RELEASE_AT CTRL frame writes CFG_REL_POS on a matching armed device. -/
  | releaseAt (p : Fin 4) (origin : BitVec 14) (group : Byte) (tpc : Fin 16) (pos : Pos48)
  /-- R420. Writing CFG_RELSEND.GO floods a RELEASE_AT frame. -/
  | releaseAtSend
  /-- R295. A root receiving a PAIR_CLAIM floods a PAIR_GRANT naming the first claimant. -/
  | pairClaim (p : Fin 4) (origin : BitVec 14) (arg : Dword)
  /-- R295. A pair member receiving a PAIR_GRANT takes over, stays, or fences accordingly. -/
  | pairGrant (p : Fin 4) (origin : BitVec 14) (arg : Dword)
  /-- R257. A frame with a bad CRC, length or code is discarded and counted in TP_CRCERR. -/
  | tempoFrameDiscard (p : Fin 4) (noise : PortNoise)
  /-- R271. A Tempo port loses lock, sees code violations or misses ANNOUNCE and goes down. -/
  | linkDown (p : Fin 4)
  /-- R271. A down port returns to service after clean symbols and two valid ANNOUNCE frames. -/
  | linkUp (p : Fin 4)
  /-- R272. ROOTSEQ unchanged for 300 µs makes the best remaining candidate root. -/
  | rootLost
  /-- R76. A tile's function unit fires, consuming its ports and issuing its operation. -/
  | firing (m : Fin 64) (t : Fin 256)
  /-- R69. A marker word at a named port is forwarded or discarded in place of a data firing. -/
  | markerFiring (m : Fin 64) (t : Fin 256)
  /-- R79. A firing's results enter the output buffer and registers L cycles after issue, updating flags. -/
  | resultWriteback (m : Fin 64) (ty tx : Fin 16)
  /-- R82. A word captured into a word segment becomes available at the landing tile one cycle later. -/
  | wordHop (m : Fin 64) (t : Fin 256) (g : Fin 28)
  /-- R92. A word crossing a massif boundary is presented at the receiving tile after the col queue delay. -/
  | colQueueDelivery (m : Fin 64) (face : Fin 4) (place : Fin 16) (track : Fin 4) (bad : Bool)
  /-- R99. Writing CQ_STAT.HWCLR resets HIGHWATER to the present greatest occupancy. -/
  | hwclr (m : Fin 64) (face : Fin 4)
  /-- R96. A lane receive queue head word is carried through the feed switch to a feed queue and entry tile. -/
  | feedDelivery (p : Fin 32) (f : Fin 8) (laneBad feedBad : Bool)
  /-- R98. A write of FEED_CTL enables, stops or reselects a feed port. -/
  | feedCtlWrite (p : Fin 32) (v : Word)
  /-- R98. A pending SEL change takes effect on a track at its next packet boundary. -/
  | feedSelChange (p : Fin 32) (f : Fin 8)
  /-- R111. A tile finds its active slot's parity failing; the massif stops or logs per PARITY_ACT. -/
  | slotParityError (m : Fin 64) (t : Fin 256) (flip : Option (Fin 320))
  /-- R104. LD_CTL.GO with OP = LOAD starts loading a library entry into a slot, or is refused. -/
  | load (m : Fin 64) (v : Word)
  /-- R107. A LOAD finishes its checks and sets SLOT_VALID and DONE, or reports FIGURE_FAULT. -/
  | loadDone (m : Fin 64) (slot : Fin 16)
  /-- R109. LD_CTL.GO with OP = VERIFY starts checking a slot's parity in every tile. -/
  | verify (m : Fin 64) (v : Word)
  /-- R109. VERIFY ends, reporting SLOT_PARITY and invalidating an idle failing slot. -/
  | verifyDone (m : Fin 64)
  /-- R116. N + 1 massif cycles pass since a COUNT step became current and its trigger fires. -/
  | countTrigger (m : Fin 64)
  /-- R116. A QUEUE step's condition on its stream queue becomes true and the trigger fires. -/
  | queueTrigger (m : Fin 64)
  /-- R116. The named cell output equals POL and a FLAG step fires, or stops the massif if poisoned. -/
  | flagTrigger (m : Fin 64)
  /-- R118. Writing SEQ_CMD.GO satisfies a current CALLER step or is ignored. -/
  | go (m : Fin 64)
  /-- R115. The last input reaches its packet boundary and the massif's inputs are held for draining. -/
  | cleanSwitchHold (m : Fin 64)
  /-- R115. The boundary wait reaches SEQ_BTIMEOUT and every open input is held at once. -/
  | boundaryTimeout (m : Fin 64)
  /-- R112. The switch edge makes the new slot active, discards words in flight and releases inputs. -/
  | switchEdge (m : Fin 64) (last : List (Fin 256))
  /-- R118. Writing SEQ_CTL.RUN = 1 starts a halted sequencer at SEQ_STAT.STEP. -/
  | seqRun (m : Fin 64) (v : Word)
  /-- R121. Writing SEQ_CTL.RUN = 0 halts the sequencer after any triggered switch. -/
  | seqHalt (m : Fin 64) (v : Word)
  /-- R121. Writing SEQ_CMD.FORCE switches a halted sequencer to FORCE_SLOT, or is refused. -/
  | force (m : Fin 64) (slot : Fin 16) (clean : Bool)
  /-- R136. A writer presents a word to a stream queue, which stores, holds or drops it. -/
  | queueWrite (m : Fin 64) (q : Fin 32)
  /-- R141. A pending cairn is written at WP in the first cycle with two free words. -/
  | cairnCommit (r : QueueRef)
  /-- R134. A queue's reader takes the word at RP, advancing RP and releasing under FIFO. -/
  | queueRead (m : Fin 64) (q : Fin 32) (bad : Bool)
  /-- R132. A write of SQ_CTL is judged whole and enables, disables or reconfigures a queue, or is refused. -/
  | sqCtlWrite (m : Fin 64) (q : Fin 32) (v : Word)
  /-- R131. A write of SQ_BIND binds the queue's taps or is refused. -/
  | sqBindWrite (m : Fin 64) (q : Fin 32) (v : Word)
  /-- R128. A write of SQ_QUOTA sets quota and reserve or is refused. -/
  | sqQuotaWrite (m : Fin 64) (q : Fin 32) (v : Word)
  /-- R134. Writing SQ_CTL.CLEAR while disabled empties the queue and returns its granules. -/
  | queueClear (m : Fin 64) (q : Fin 32) (v : Word)
  /-- R143. The MARK command sets MK := RP and validates the mark. -/
  | mark (m : Fin 64) (q : Fin 32)
  /-- R143. The REWIND command sets RP := MK, or is refused with the mark invalid. -/
  | rewind (m : Fin 64) (q : Fin 32)
  /-- R143. The RELEASE_READ command sets RL := RP. -/
  | releaseRead (m : Fin 64) (q : Fin 32)
  /-- R143. The RELEASE_MARK command sets RL := MK. -/
  | releaseMark (m : Fin 64) (q : Fin 32)
  /-- R143. The RELEASE_PKT command releases up to the first E word at or after RL. -/
  | releasePkt (m : Fin 64) (q : Fin 32)
  /-- R146. A queue's tail timer expires, setting TAIL_TIMEOUT and taking TAILACT. -/
  | tailTimeout (r : QueueRef)
  /-- R147. The cycle after a timeout with FORCE_END sets E on the last written word and may queue a cairn. -/
  | forceEnd (r : QueueRef)
  /-- R149. A write of SQ_PUT stores a word from a register master, or is refused. -/
  | put (m : Fin 64) (q : Fin 32) (v : Word)
  /-- R149. A read of SQ_GET takes the word at RP and latches its sideband. -/
  | get (m : Fin 64) (q : Fin 32) (bad : Bool)
  /-- R150. A queue with RSINK = RIDGE sends its words as a VN3 STREAM packet. -/
  | streamSend (m : Fin 64) (q : Fin 32) (bad : List (Fin 128))
  /-- R154. A queue with RSINK = COLLECTOR forms and sends a report while holding a credit. -/
  | reportForm (m : Fin 64) (bad : List (Fin 18))
  /-- R155. The collector selects one eligible head report per cycle by round robin or position order. -/
  | collectorSelect (bad : List (Fin 20))
  /-- R158. The output stage passes a report to its DMA or Ethernet sink. -/
  | collectorOutput (bytes : List Byte) (bad : List (Fin 20))
  /-- R152. A protocol engine writes a word into its lane receive queue, dropping with cairns when full. -/
  | laneQueueWrite (l : Fin 256) (w : SWord)
  /-- R165. A shelf bank is granted to the highest-priority requester and the access is made. -/
  | shelfGrant (m : Fin 64) (bank : Fin 16)
  /-- R170. A fabric shelf port in READ mode takes an address word and issues a read. -/
  | shelfPortRequest (m : Fin 64) (p : Fin 4)
  /-- R170. A shelf port in WRITE mode takes address and data words together and writes. -/
  | shelfPortWrite (m : Fin 64) (p : Fin 4)
  /-- R172. A completed shelf read is captured into the response segment in request order. -/
  | shelfPortResponse (m : Fin 64) (p : Fin 4)
  /-- R173. Writing SH_CTL.CLEAR starts clearing the shelf's valid column over 64 cycles. -/
  | shelfClear (m : Fin 64)
  /-- R173. The shelf clear completes and raises its interrupt. -/
  | shelfClearDone (m : Fin 64)
  /-- R177. A write of BM_CFG sets a block memory's aspect, or is refused while in use. -/
  | bmCfgWrite (m : Fin 64) (k : Fin 24) (v : Word)
  /-- R179. Writing BM_ACC_CTL.GO starts a block memory access on a free port, or is refused. -/
  | bmAccess (m : Fin 64) (v : Word)
  /-- R179. Two cycles after GO the access completes and BUSY clears. -/
  | bmAccessDone (m : Fin 64)
  /-- R183. A write of HBM_MAP sets the address map, or is refused while HBM is enabled. -/
  | hbmMapWrite (v : Word)
  /-- R187. A channel admits a waiting request by weighted round robin within class limits. -/
  | hbmAdmit (c : Fin 32)
  /-- R186. An HBM controller completes an admitted access and returns its response. -/
  | hbmComplete (c : Fin 32) (i : Fin 64) (od : List (Fin 3))
  /-- R199. An uncorrectable HBM group is re-read locked and written as poison if still bad. -/
  | hbmLockedReread (r : LockedRead)
  /-- R189. A request reaching a channel in self-refresh wakes the stack. -/
  | hbmSelfrefWake (c : Fin 32)
  /-- R202. A shelf scrubber's interval expires and the next valid word is requested or skipped. -/
  | scrubDue (m : Fin 64)
  /-- R203. The scrubber acts on a read word's syndrome, writing back or poisoning it. -/
  | scrubWriteback (m : Fin 64)
  /-- R203. The scrubber serves the oldest repair-queue index ahead of its walk. -/
  | repairRequest (m : Fin 64)
  /-- R204. Writing HSCRUB_CTL.INIT starts an initialisation pass writing zeros to the channel. -/
  | hbmInit (c : Fin 32)
  /-- R204. An initialisation pass ends and sets IRQ_STAT[9]. -/
  | hbmInitDone (c : Fin 32)
  /-- R204. The HBM scrub interval expires and the next block is scrubbed locked. -/
  | hbmScrubDue (c : Fin 32)
  /-- R209. A read of SH_CELOG returns and removes the oldest corrected-error entry. -/
  | celogRead (m : Fin 64)
  /-- R392. The SMC starts its own repair commit once the mailbox is free and unclaimed. -/
  | selfRepairCommit (m : Fin 64) (bank : Fin 16) (prow : Byte)
  /-- R223. A source NI injects a packet on a virtual network holding a token and credit. -/
  | inject (n : Fin 96) (v : Fin 5)
  /-- R223. A router forwards a flit from an input to an output link with a credit. -/
  | flitForward (r : Fin 96) (inp : Fin 7) (v : Fin 5) (err : BitVec 512) (chk : BitVec 36)
  /-- R245. A SUMMIT_WR packet is written into the destination shelf. -/
  | summitWr (p : Packet)
  /-- R317. A SUMMIT_BELL packet ORs its word into a core's doorbell. -/
  | summitBell (p : Packet)
  /-- R221. A MEM_RD request reaches an HBM or shelf endpoint. -/
  | memRd (p : Packet)
  /-- R221. A MEM_WR request reaches an HBM or shelf endpoint. -/
  | memWr (p : Packet)
  /-- R498. A REG_RD reaches endpoint 3 of a router and reads a register. -/
  | regRd (p : Packet) (bad : Bool)
  /-- R498. A REG_WR reaches endpoint 3 of a router and writes a register. -/
  | regWr (p : Packet)
  /-- R221. A MEM_RDRESP completes an outstanding read at its requester. -/
  | memRdresp (p : Packet)
  /-- R221. A MEM_WRACK completes an outstanding write. -/
  | memWrack (p : Packet)
  /-- R221. A REG_RDRESP returns register data to its requester. -/
  | regRdresp (p : Packet)
  /-- R221. A REG_WRACK acknowledges a register write. -/
  | regWrack (p : Packet)
  /-- R150. A STREAM packet delivers words into its destination queue. -/
  | stream (p : Packet)
  /-- R153. A REPORT packet enters its massif's collector input. -/
  | report (p : Packet)
  /-- R221. A posted BULK_WR writes HBM without response. -/
  | bulkWr (p : Packet)
  /-- R221. A MIRROR packet carries pair traffic to or from the pair block. -/
  | mirror (p : Packet)
  /-- R316. An IRQ_MSG sets a remote interrupt line at a core to the distributor's OR. -/
  | irqMsg (c : Fin 68) (line : Fin 32)
  /-- R221. An ERR_RECORD delivers an error record to the SMC. -/
  | errRecord (p : Packet)
  /-- R221. A VN4 POSTED_WR writes a register without acknowledgement. -/
  | postedWr (p : Packet)
  /-- R234. A packet for a reserved or absent endpoint is answered ADDR_ERR or discarded. -/
  | packetDiscard (p : Packet)
  /-- R235. A response matching no outstanding tag is discarded and counted. -/
  | lateResponse (p : Packet)
  /-- R235. A VN1 request unanswered for RQ_TIMEOUT completes with STATUS = TIMEOUT. -/
  | requestTimeout (n : Fin 96) (tag : Fin 64) (read : Bool) (size : Byte)
  /-- R225. A head flit waiting beyond RT_STALL_LIM sets the stall status. -/
  | stall (n : Fin 96) (v : Fin 5)
  /-- R229. An NI regulator counter reaches PERIOD and adds one token. -/
  | tokenAdd (n : Fin 96) (v : Fin 5)
  /-- R229. A write of RG_CFG sets the regulator and resets its counter. -/
  | rgCfgWrite (n : Fin 96) (v : Fin 5) (w : Word)
  /-- R228. RT_ACT.GO checks shadow tables and stops injection on the named networks. -/
  | activation (v : Word)
  /-- R228. Once the named networks drain, shadow tables become active in every router. -/
  | activationSwap
  /-- R228. The drain limit expires and the activation is abandoned. -/
  | activationAbort
  /-- R437. Writing PWR_CTL.GATE requests or withdraws gating of a massif. -/
  | gate (m : Fin 64) (gate : Bool)
  /-- R236. With no wait condition holding, the massif closes its NI and begins power-down. -/
  | gateClose (m : Fin 64)
  /-- R437. The massif reaches GATED after closing. -/
  | gated (m : Fin 64)
  /-- R439. A wake event starts powering up a gated massif. -/
  | wake (m : Fin 64)
  /-- R439. Power-up and tile clearing complete and the massif becomes ACTIVE. -/
  | wakeActive (m : Fin 64)
  /-- R123. Slots named in SEQ_WAKE are reloaded and the waking beat is acted on. -/
  | wakeReloadDone (m : Fin 64)
  /-- R327. The Caller code copy from the shelf completes and the Caller leaves reset. -/
  | callerWakeCopy (m : Fin 64)
  /-- R339. Integer add of two registers. -/
  | addR (c : Fin 68) (rd ra rb : Fin 32)
  /-- R339. Integer subtract. -/
  | subR (c : Fin 68) (rd ra rb : Fin 32)
  /-- R339. Bitwise AND. -/
  | andR (c : Fin 68) (rd ra rb : Fin 32)
  /-- R339. Bitwise OR. -/
  | orR (c : Fin 68) (rd ra rb : Fin 32)
  /-- R339. Bitwise XOR. -/
  | xorR (c : Fin 68) (rd ra rb : Fin 32)
  /-- R339. AND with complement. -/
  | andn (c : Fin 68) (rd ra rb : Fin 32)
  /-- R339. Shift left by rb[4:0]. -/
  | shl (c : Fin 68) (rd ra rb : Fin 32)
  /-- R339. Logical shift right. -/
  | shr (c : Fin 68) (rd ra rb : Fin 32)
  /-- R339. Arithmetic shift right. -/
  | sra (c : Fin 68) (rd ra rb : Fin 32)
  /-- R339. Rotate left. -/
  | rol (c : Fin 68) (rd ra rb : Fin 32)
  /-- R339. Set if less than, signed. -/
  | slt (c : Fin 68) (rd ra rb : Fin 32)
  /-- R339. Set if less than, unsigned. -/
  | sltu (c : Fin 68) (rd ra rb : Fin 32)
  /-- R339. Signed minimum. -/
  | minR (c : Fin 68) (rd ra rb : Fin 32)
  /-- R339. Signed maximum. -/
  | maxR (c : Fin 68) (rd ra rb : Fin 32)
  /-- R339. Unsigned minimum. -/
  | minu (c : Fin 68) (rd ra rb : Fin 32)
  /-- R339. Unsigned maximum. -/
  | maxu (c : Fin 68) (rd ra rb : Fin 32)
  /-- R339. Count leading zeros. -/
  | clz (c : Fin 68) (rd ra : Fin 32)
  /-- R339. Population count. -/
  | popc (c : Fin 68) (rd ra : Fin 32)
  /-- R339. Low 32 bits of the product. -/
  | mulR (c : Fin 68) (rd ra rb : Fin 32)
  /-- R339. High 32 bits of the signed product. -/
  | mulh (c : Fin 68) (rd ra rb : Fin 32)
  /-- R339. High 32 bits of the unsigned product. -/
  | mulhu (c : Fin 68) (rd ra rb : Fin 32)
  /-- R340. Signed division that never traps. -/
  | divR (c : Fin 68) (rd ra rb : Fin 32)
  /-- R340. Unsigned division. -/
  | divu (c : Fin 68) (rd ra rb : Fin 32)
  /-- R340. Signed remainder. -/
  | rem (c : Fin 68) (rd ra rb : Fin 32)
  /-- R340. Unsigned remainder. -/
  | remu (c : Fin 68) (rd ra rb : Fin 32)
  /-- R341. Add sign-extended immediate. -/
  | addi (c : Fin 68) (rd ra : Fin 32) (i : BitVec 16)
  /-- R341. AND zero-extended immediate. -/
  | andi (c : Fin 68) (rd ra : Fin 32) (i : BitVec 16)
  /-- R341. OR zero-extended immediate. -/
  | ori (c : Fin 68) (rd ra : Fin 32) (i : BitVec 16)
  /-- R341. XOR zero-extended immediate. -/
  | xori (c : Fin 68) (rd ra : Fin 32) (i : BitVec 16)
  /-- R341. Set if less than immediate, signed. -/
  | slti (c : Fin 68) (rd ra : Fin 32) (i : BitVec 16)
  /-- R341. Set if less than immediate, unsigned. -/
  | sltui (c : Fin 68) (rd ra : Fin 32) (i : BitVec 16)
  /-- R341. Load upper immediate. -/
  | lui (c : Fin 68) (rd : Fin 32) (i : BitVec 16)
  /-- R341. Shift left by immediate. -/
  | shli (c : Fin 68) (rd ra n : Fin 32)
  /-- R341. Logical shift right by immediate. -/
  | shri (c : Fin 68) (rd ra n : Fin 32)
  /-- R341. Arithmetic shift right by immediate. -/
  | srai (c : Fin 68) (rd ra n : Fin 32)
  /-- R341. Rotate left by immediate. -/
  | roli (c : Fin 68) (rd ra n : Fin 32)
  /-- R342. Load word. -/
  | lw (c : Fin 68) (rd ra : Fin 32) (i : BitVec 16) (tmo bad : Bool)
  /-- R342. Load halfword, sign-extended. -/
  | lh (c : Fin 68) (rd ra : Fin 32) (i : BitVec 16) (tmo bad : Bool)
  /-- R342. Load halfword, zero-extended. -/
  | lhu (c : Fin 68) (rd ra : Fin 32) (i : BitVec 16) (tmo bad : Bool)
  /-- R342. Load byte, sign-extended. -/
  | lb (c : Fin 68) (rd ra : Fin 32) (i : BitVec 16) (tmo bad : Bool)
  /-- R342. Load byte, zero-extended. -/
  | lbu (c : Fin 68) (rd ra : Fin 32) (i : BitVec 16) (tmo bad : Bool)
  /-- R342. Store word. -/
  | sw (c : Fin 68) (rs ra : Fin 32) (i : BitVec 16)
  /-- R342. Store halfword. -/
  | sh (c : Fin 68) (rs ra : Fin 32) (i : BitVec 16)
  /-- R342. Store byte. -/
  | sb (c : Fin 68) (rs ra : Fin 32) (i : BitVec 16)
  /-- R343. Store registers named by a mask to consecutive words. -/
  | stm (c : Fin 68) (base : Fin 8) (mask : BitVec 24) (n : Fin 25)
  /-- R343. Load registers named by a mask, base register last. -/
  | ldm (c : Fin 68) (base : Fin 8) (mask : BitVec 24) (n : Fin 25) (tmo bad : Bool)
  /-- R344. Branch if equal. -/
  | beq (c : Fin 68) (ra rb : Fin 32) (off : BitVec 16)
  /-- R344. Branch if not equal. -/
  | bne (c : Fin 68) (ra rb : Fin 32) (off : BitVec 16)
  /-- R344. Branch if less, signed. -/
  | blt (c : Fin 68) (ra rb : Fin 32) (off : BitVec 16)
  /-- R344. Branch if greater or equal, signed. -/
  | bge (c : Fin 68) (ra rb : Fin 32) (off : BitVec 16)
  /-- R344. Branch if less, unsigned. -/
  | bltu (c : Fin 68) (ra rb : Fin 32) (off : BitVec 16)
  /-- R344. Branch if greater or equal, unsigned. -/
  | bgeu (c : Fin 68) (ra rb : Fin 32) (off : BitVec 16)
  /-- R344. Branch if PSW.RESUMED = 1. -/
  | bres (c : Fin 68) (off : BitVec 16)
  /-- R344. PC-relative jump. -/
  | j (c : Fin 68) (off : BitVec 26)
  /-- R344. Caller call writing LR. -/
  | call (c : Fin 68) (off : BitVec 26)
  /-- R318. Windowed call advancing CWP and writing the new frame's link word. -/
  | callw (c : Fin 68) (off : BitVec 26)
  /-- R344. Jump to register. -/
  | jr (c : Fin 68) (ra : Fin 32)
  /-- R344. Call to register writing LR. -/
  | callr (c : Fin 68) (ra : Fin 32)
  /-- R344. Windowed call to register. -/
  | callwr (c : Fin 68) (ra : Fin 32)
  /-- R318. Windowed return through the link word, moving CWP back. -/
  | retw (c : Fin 68)
  /-- R312. Return from exception, restoring PC, PSW and LSM_DONE. -/
  | rfe (c : Fin 68)
  /-- R315. Return from fast interrupt. -/
  | rff (c : Fin 68)
  /-- R346. Take the SYSCALL exception. -/
  | syscall (c : Fin 68) (code : BitVec 10)
  /-- R346. Take the BREAK exception. -/
  | break (c : Fin 68) (code : BitVec 10)
  /-- R346. Halt the core with HALT_INSTR. -/
  | halt (c : Fin 68)
  /-- R346. Stop fetching until a line is pending. -/
  | wfi (c : Fin 68)
  /-- R346. Wait until every posted store is acknowledged. -/
  | fence (c : Fin 68)
  /-- R324. Save the lower context half into a free save area. -/
  | savectxLo (c : Fin 68) (ra : Fin 32)
  /-- R324. Save the vector registers into a free save area. -/
  | savectxHi (c : Fin 68) (ra : Fin 32)
  /-- R324. Restore the lower context and continue at the restored PC. -/
  | loadctxLo (c : Fin 68) (ra : Fin 32)
  /-- R324. Restore the vector registers from a save area. -/
  | loadctxHi (c : Fin 68) (ra : Fin 32)
  /-- R354. Invalidate an L1 instruction cache line. -/
  | icinv (c : Fin 68) (ra : Fin 32)
  /-- R354. Invalidate an L1 data cache line. -/
  | dcinv (c : Fin 68) (ra : Fin 32)
  /-- R354. Write a modified L2 line to HBM and keep it. -/
  | l2flush (c : Fin 68) (ra : Fin 32)
  /-- R354. Discard an L2 line without writing it. -/
  | l2inv (c : Fin 68) (ra : Fin 32)
  /-- R354. Write a modified L2 line and discard it. -/
  | l2flinv (c : Fin 68) (ra : Fin 32)
  /-- R347. Move from control register. -/
  | mfc (c : Fin 68) (rd : Fin 32) (idx : BitVec 12)
  /-- R347. Move to control register. -/
  | mtc (c : Fin 68) (rs : Fin 32) (idx : BitVec 12)
  /-- R321. Writing SPILL_CTL.RESUME clears STOPPED and retries the spill store. -/
  | spillResume (i : Fin 4)
  /-- R352. Vector lane add. -/
  | vadd (c : Fin 68) (vd va vb : Fin 8) (dm : Fin 3) (sgn sat : Bool)
  /-- R352. Vector lane subtract. -/
  | vsub (c : Fin 68) (vd va vb : Fin 8) (dm : Fin 3) (sgn sat : Bool)
  /-- R352. Vector lane multiply. -/
  | vmul (c : Fin 68) (vd va vb : Fin 8) (dm : Fin 3) (sgn sat : Bool)
  /-- R352. Vector lane minimum. -/
  | vmin (c : Fin 68) (vd va vb : Fin 8) (dm : Fin 3) (sgn : Bool)
  /-- R352. Vector lane maximum. -/
  | vmax (c : Fin 68) (vd va vb : Fin 8) (dm : Fin 3) (sgn : Bool)
  /-- R352. Vector absolute difference. -/
  | vabsd (c : Fin 68) (vd va vb : Fin 8) (dm : Fin 3) (sgn : Bool)
  /-- R352. Vector AND. -/
  | vand (c : Fin 68) (vd va vb : Fin 8)
  /-- R352. Vector OR. -/
  | vor (c : Fin 68) (vd va vb : Fin 8)
  /-- R352. Vector XOR. -/
  | vxor (c : Fin 68) (vd va vb : Fin 8)
  /-- R352. Vector compare equal. -/
  | vcmpeq (c : Fin 68) (vd va vb : Fin 8) (dm : Fin 3)
  /-- R352. Vector compare less. -/
  | vcmplt (c : Fin 68) (vd va vb : Fin 8) (dm : Fin 3) (sgn : Bool)
  /-- R352. Vector shift left. -/
  | vshl (c : Fin 68) (vd va : Fin 8) (r : Fin 32) (dm : Fin 3) (sgn sat : Bool)
  /-- R352. Vector shift right. -/
  | vshr (c : Fin 68) (vd va : Fin 8) (r : Fin 32) (dm : Fin 3) (sgn : Bool)
  /-- R352. Broadcast a register into every lane. -/
  | vsplat (c : Fin 68) (vd : Fin 8) (r : Fin 32) (dm : Fin 3)
  /-- R352. Extract one lane into a register. -/
  | vext (c : Fin 68) (va : Fin 8) (r : Fin 32) (dm : Fin 3) (sgn : Bool) (idx : Fin 16)
  /-- R352. Insert a register into one lane. -/
  | vins (c : Fin 68) (vd : Fin 8) (r : Fin 32) (dm : Fin 3) (idx : Fin 16)
  /-- R353. Load a 16-byte vector. -/
  | vld (c : Fin 68) (v : Fin 8) (ra : Fin 32) (off : BitVec 16) (tmo bad : Bool)
  /-- R353. Store a 16-byte vector. -/
  | vst (c : Fin 68) (v : Fin 8) (ra : Fin 32) (off : BitVec 16)
  /-- R348. Fabric instruction writing SEQ_CMD with FORCE. -/
  | fsw (c : Fin 68) (rm : Fin 32) (slot : Fin 16) (clean : Bool)
  /-- R348. Fabric instruction writing SEQ_CMD with GO only. -/
  | fswGo (c : Fin 68) (rm : Fin 32)
  /-- R348. Fabric instruction writing LD_CTL with GO. -/
  | fld (c : Fin 68) (rm : Fin 32) (slot : Fin 16) (verify hbm : Bool)
  /-- R348. Fabric instruction writing SQ_PUTSB then SQ_PUT. -/
  | qput (c : Fin 68) (rd rm q : Fin 32) (epm : BitVec 3)
  /-- R348. Fabric instruction reading SQ_GET then SQ_GETSB. -/
  | qget (c : Fin 68) (rd rs rm q : Fin 32) (tmo bad : Bool)
  /-- R348. Fabric instruction writing SQ_CMD.OP. -/
  | qcmd (c : Fin 68) (rm q : Fin 32) (op : Fin 5)
  /-- R348. Beat schedule instruction writing BC_ARG0 to BC_ARG3. -/
  | bsch (c : Fin 68) (act lo hi : Fin 32) (ch : Fin 64)
  /-- R350. Wait for beat: wait while STUB_SEQ equals the operand. -/
  | wfb (c : Fin 68) (rd seq rm : Fin 32) (ch : Fin 64) (tmo : Bool)
  /-- R350. STUB_SEQ differs from the operand and WFB returns it. -/
  | wfbReturn (c : Fin 68)
  /-- R336. A reserved encoding takes the ILLEGAL exception. -/
  | illegalInstruction (c : Fin 68) (w : Word)
  /-- R315. The lowest pending normal line is taken at an instruction boundary. -/
  | interruptEntry (c : Fin 68)
  /-- R315. A pending fast line enters the fast interrupt with bank 1. -/
  | fastInterrupt (c : Fin 68)
  /-- R315. TB reaches TIMECMP and raises line 48. -/
  | timecmpMatch (c : Fin 68)
  /-- R310. A posted store acknowledged with an error raises the imprecise BUS_ERR. -/
  | busErr (c : Fin 68)
  /-- R319. The spill engine stores frame BOT to keep two frames free. -/
  | spill (i : Fin 4)
  /-- R320. The spill engine loads the frame below BOT for a RETW or in advance. -/
  | fill (i : Fin 4)
  /-- R327. Writing CL_CTL.RUN releases the Caller from reset. -/
  | callerRun (m : Fin 64)
  /-- R328. Writing CL_CTL.HALTREQ halts the Caller with DEBUG. -/
  | callerHaltreq (m : Fin 64)
  /-- R328. Writing CL_CTL.STEP executes one instruction of a halted Caller. -/
  | callerStep (m : Fin 64) (tmo bad : Bool)
  /-- R328. Writing CL_CTL.RESUME continues a halted Caller. -/
  | callerResume (m : Fin 64)
  /-- R328. Writing LEAD_CTL.HALTREQ halts the Lead Caller with DEBUG. -/
  | leadHaltreq (i : Fin 4)
  /-- R328. Writing LEAD_CTL.STEP executes one instruction. -/
  | leadStep (i : Fin 4) (tmo bad : Bool)
  /-- R328. Writing LEAD_CTL.RESUME continues a halted Lead Caller. -/
  | leadResume (i : Fin 4)
  /-- R328. Writing LEAD_CTL.RESTART restarts a halted Lead Caller at LEAD_BOOT.PC. -/
  | leadRestart (i : Fin 4)
  /-- R328. A write of DBG_DATA writes the selected register of a halted core. -/
  | dbgDataWrite (c : Fin 68) (v : Word)
  /-- R329. A write of TDBG_DATA writes a tile register or accumulator half, or is refused. -/
  | tileWindowWrite (m : Fin 64) (v : Word) (lost : Bool)
  /-- R326. Writing SUM_HDR.GO hands a Summit packet to the NI, or is refused. -/
  | summitSend (c : Fin 68)
  /-- R282. A member in HELLO sends HELLO every 10 µs. -/
  | helloSend
  /-- R282. A received HELLO pairs the members and assigns roles, or flags a mismatch. -/
  | hello (pairId : BitVec 10) (tmpId : BitVec 14) (st : Fin 6) (pref : Bool) (digest : BitVec 384) (epoch : Word)
  /-- R282. No HELLO within PAIR_HELLOTO makes a ROLE_PREF = 0 member ACTIVE if PAIR_ARB is high. -/
  | helloTimeout (arbHigh : Bool)
  /-- R279. Every PAIR_HB.PERIOD a member sends HEARTBEAT. -/
  | heartbeatSend
  /-- R279. A received HEARTBEAT refreshes the partner's state and epoch. -/
  | heartbeat (st : Fin 6) (ready : Bool)
  /-- R293. No heartbeat for PAIR_HB.LOSS declares the partner lost and arbitrates. -/
  | heartbeatLoss (arbHigh : Bool)
  /-- R295. No grant within PAIR_ARBTO sets ARB_TIMEOUT and claims again. -/
  | arbTimeout
  /-- R285. A received MWR record is staged in the standby's mirror buffer. -/
  | mwr (m : Fin 64) (w : BitVec 18) (words : List (Word × Bool)) (epoch : Word)
  /-- R286. A received EPOCH_END record completes an epoch's data for commit and digest comparison. -/
  | epochEnd (e : EpochEnd)
  /-- R289. The standby commits an epoch, writing staged records and aligning queues, sequencers and checkpoints. -/
  | commit
  /-- R292. The follower position passes POS_j+1 + LAG and line j's digest closes. -/
  | digestClose (line : Word)
  /-- R296. At the epoch beat after a takeover decision the standby becomes ACTIVE. -/
  | takeoverBeat
  /-- R298. PAIR_CMD.SWAP hands the active role to the ready partner at the next epoch beats. -/
  | swap (received : Bool)
  /-- R298. PAIR_CMD.TAKEOVER takes over at the next epoch beat whatever the arbitration. -/
  | takeover
  /-- R298. PAIR_CMD.STEPDOWN fences the active at the next epoch beat. -/
  | stepdown
  /-- R298. PAIR_CMD.RESYNC enters SYNCING and sends RESYNC_REQ. -/
  | resync
  /-- R298. A STEPDOWN CONTROL record received over the link acts as STEPDOWN. -/
  | stepdownRecord
  /-- R291. A received RESYNC_REQ discards the broken epoch and starts resynchronisation. -/
  | resyncReq
  /-- R297. A received RESYNC_DONE ends the full region copy. -/
  | resyncDone
  /-- R288. Writing CKPT_CTL.POST copies a checkpoint into the mirror buffer, or is refused. -/
  | ckptPost (k : Fin 68)
  /-- R288. A checkpoint copy ends and DONE is set. -/
  | ckptDone (k : Fin 68)
  /-- R278. Lane training fails or a cell is retransmitted 16 times and the pair link goes down. -/
  | pairLinkDown
  /-- R278. A cell failing CRC or sequence is retransmitted from the replay buffer. -/
  | cellRetransmit (again : Bool)
  /-- R356. A write of GRP_CTL sets a lane group's protocol and enable, or is refused. -/
  | grpCtlWrite (g : Fin 32) (v : Word)
  /-- R361. Writing GRP_CTL.LP = 1 puts a lane group in low power. -/
  | lowPower (g : Fin 32)
  /-- R361. A packet at a low-power group's NI wakes the group. -/
  | groupWake (g : Fin 32)
  /-- R358. A lane's CDR locks and adaptation converges, setting READY. -/
  | laneReady (g : Fin 32) (f : Fin 8)
  /-- R358. A lane loses signal or lock and sets LOS. -/
  | laneLos (g : Fin 32) (f : Fin 8)
  /-- R364. A CXP stream packet is unpacked into lane receive queues or marked with cairns. -/
  | cxpStreamPacket (g : Fin 32) (j : Fin 8) (id tag : Byte) (crcBad : Bool) (missing : Option (BitVec 16)) (items : List CxpItem)
  /-- R366. A write of CXP_LINK enables or configures a link, or is refused. -/
  | cxpLinkWrite (g : Fin 32) (j : Fin 8) (v : Word)
  /-- R366. A SPEED write on an enabled link changes every lane's rate. -/
  | cxpSpeedChange (g : Fin 32) (j : Fin 8) (speed : Fin 8)
  /-- R366. Every lane of the link is READY again and SPDCHG clears. -/
  | speedChangeDone (g : Fin 32) (j : Fin 8)
  /-- R367. CXP_CCCTL.GO sends a control packet on the link's master connection. -/
  | cxpControlSend (g : Fin 32) (v : Word)
  /-- R367. The last character of a control packet leaves and BUSY falls. -/
  | cxpControlSent (g : Fin 32)
  /-- R367. A received acknowledgement, event, heartbeat or trigger acknowledgement enters the ring. -/
  | cxpControlReceive (g : Fin 32) (j : Fin 8) (kind : Fin 4) (good : Bool) (payload : List Word)
  /-- R368. A trigger packet starts at an up-link character boundary with its delay field. -/
  | triggerPacket (g : Fin 32) (j : Fin 8)
  /-- R369. A write of ETH_CTL sets a cluster's mode, or is refused. -/
  | ethCtlWrite (c : Fin 8) (v : Word)
  /-- R370. A received frame is dropped, steered to GVSP, or placed in the receive ring. -/
  | ethFrameReceive (c : Fin 8) (p : Fin 4) (check : FrameCheck) (udp : Option (BitVec 16 × Word)) (image : Bool) (bytes : List Byte)
  /-- R371. A steered GVSP packet is unpacked into lane receive queues. -/
  | gvspPacket (c : Fin 8) (j : Fin 4) (id : Word) (resend : Bool) (body : GvspBody)
  /-- R372. The cluster sends the transmit-ring slot at HEAD. -/
  | xtxSend (c : Fin 8)
  /-- R373. Collector reports are sent as a UDP datagram when the next would exceed MAXLEN. -/
  | reportDatagram (c : Fin 8)
  /-- R373. HOLD ns after the first report of a frame, the datagram is sent. -/
  | datagramHoldExpiry (c : Fin 8)
  /-- R374. Writing PHC_STEP adds a signed nanosecond count to the PTP clock. -/
  | phcStep (c : Fin 8) (v : Word)
  /-- R374. Writing PHC_CTL.LOAD applies the staged time. -/
  | phcLoad (c : Fin 8)
  /-- R374. Reading PHC_NS latches the seconds. -/
  | phcRead (c : Fin 8)
  /-- R380. A BAR0 TLP becomes a REG_RD or REG_WR or is refused. -/
  | bar0Request (e : Fin 2) (tag : BitVec 10) (write : Bool) (addr : BitVec 26) (d : Word) (ep bad : Bool)
  /-- R381. A BAR2 TLP is split into HBM MEM_RD or MEM_WR packets. -/
  | bar2Request (e : Fin 2) (tag : BitVec 10) (write : Bool) (addr : BitVec 35) (bytes : List (Byte × Bool)) (ep : Bool)
  /-- R382. A vector's source OR rises and an MSI-X message is sent or made pending. -/
  | msixMessage (e : Fin 2) (v : Fin 256) (masked : Unit)
  /-- R382. Unmasking a pending vector sends one message. -/
  | msixUnmask (e : Fin 2) (a : MsixAccess)
  /-- R383. PERST, hot reset, link down or FLR resets one endpoint and its DMA. -/
  | endpointReset (e : Fin 2) (kind : EndpointReset)
  /-- R384. Advancing DMA_TAIL gives the channel descriptors to process. -/
  | dmaTailWrite (e : Fin 2) (c : Fin 16) (v : Word)
  /-- R385. A DMA channel completes a descriptor and writes it back. -/
  | dmaDescriptor (e : Fin 2) (c : Fin 16) (err : Fin 4) (bytes : List Byte) (data : List (Byte × Bool))
  /-- R386. Writing DMA_CTL.EN 0 to 1 restarts a stopped channel at HEAD. -/
  | dmaEnable (e : Fin 2) (c : Fin 16) (v : Word)
  /-- R385. DMA_HOLD ns after its first report a COLLECTOR buffer is closed. -/
  | dmaBufferHold (e : Fin 2) (c : Fin 16)
  /-- R387. The management port returns its status byte. -/
  | rdsr
  /-- R387. The management port writes consecutive register words. -/
  | mgmtWrite (a : Word) (words : List Word)
  /-- R388. The management port reads a register and returns it after 0x5A. -/
  | mgmtRead (a : Word) (waits : Bool)
  /-- R387. An unknown command byte is ignored and counted in MGMT_ERR. -/
  | mgmtUnknown
  /-- R390. Writing MBX_OWN.CLAIM while free sets OWNER to the writer. -/
  | claim (who : Fin 71)
  /-- R390. Writing MBX_OWN.RELEASE by the owner frees the mailbox. -/
  | mbxRelease (who : Fin 71)
  /-- R397. Command copying a settings page into the staging buffer. -/
  | settingsRead (who : Fin 71)
  /-- R397. Command writing the staging buffer to a settings page pair. -/
  | store (who : Fin 71)
  /-- R211. Command adding an entry to the field repair map. -/
  | repairCommit (who : Fin 71)
  /-- R426. Command performing a cold reset. -/
  | coldReset (who : Fin 71)
  /-- R422. Command authenticating an image without changing the device. -/
  | imageAuth (who : Fin 71)
  /-- R417. Command authenticating and loading a whole-device image. -/
  | imageLoad (who : Option (Fin 71)) (flash : Option (List Byte))
  /-- R421. Command reloading one massif from an image section. -/
  | massifReload (who : Fin 71)
  /-- R424. Command writing a signed attestation report. -/
  | attest (who : Fin 71)
  /-- R415. Command revoking a key slot. -/
  | keyRevoke (who : Fin 71)
  /-- R415. Command advancing the anti-rollback counter. -/
  | rollbackAdvance (who : Fin 71)
  /-- R400. Command erasing application pages, shelves and HBM, then cold reset. -/
  | zeroise (who : Fin 71)
  /-- R391. An unlisted CMD.CODE completes with BAD_CMD. -/
  | badCmd (who : Fin 71) (code : Byte)
  /-- R391. A long command ends, writing results and DONE and clearing BUSY. -/
  | commandComplete (flash : Option (List Byte)) (crcOk abort : Bool)
  /-- R405. After power-on or cold reset the SMC runs the boot chain. -/
  | boot (container : Option (List Byte))
  /-- R418. An armed load's release position is reached and the device is released in one cycle. -/
  | release
  /-- R418. Writing CFG_REL.MODE = 0 releases an armed load at once. -/
  | cfgRelWrite (v : Word)
  /-- R423. A write to the load window writes HBM at CFG_WIN, or is dropped. -/
  | loadWindowWrite (j : Fin 512) (v : Word)
  /-- R427. A supply rising or brownout reset starts a power-on reset. -/
  | powerOn (vaux hot : Bool)
  /-- R428. A filtered low pulse on RESET_N starts a cold reset. -/
  | resetNLow (ns : Nat) (taken : Bool)
  /-- R426. Writing RST_CTL.COLD with the key starts a cold reset. -/
  | cold (v : Word)
  /-- R429. Writing RST_CTL.WARM with the key requests a warm reset. -/
  | warm (v : Word)
  /-- R429. A deferred warm reset starts when the SMC command ends. -/
  | warmDeferredStart
  /-- R430. The network drains or the drain limit expires, ending quiesce. -/
  | warmDrainDone
  /-- R430. L2 write-back ends and the stacks enter self-refresh. -/
  | writeBackDone
  /-- R430. W-cleared state is cleared and domains are released. -/
  | clearDone
  /-- R430. Stacks leave self-refresh and the warm reset ends. -/
  | warmResumeDone
  /-- R432. Writing MRST_CTL.MASSIF resets a massif and its Caller. -/
  | massifReset (m : Fin 64)
  /-- R432. Writing MRST_CTL.CALLER resets only the Caller. -/
  | callerReset (m : Fin 64)
  /-- R433. Writing a bit of RST_LG resets a lane group, or is refused for PCIE. -/
  | laneGroupReset (g : Fin 32)
  /-- R433. The lane group reset ends and training proceeds. -/
  | laneGroupResetDone (g : Fin 32)
  /-- R443. Two samples below BO_WARN start a brownout warning. -/
  | warningStart (a b : BitVec 10)
  /-- R443. VCORE recovers for RECOV µs and the warning ends, resuming NVM writes. -/
  | warningEnd (low mv : BitVec 10)
  /-- R445. Two samples below BO_RESET cause a power-on reset. -/
  | brownoutReset (a b : BitVec 10)
  /-- R486. A thermal threshold is crossed and THERMTRIP_N falls. -/
  | thermtrip
  /-- R473. An HBM rail leaves its range and both stacks lose their contents. -/
  | hbmRailLoss
  /-- R440. Writing REST_CTL.ENTER requests gating of every massif. -/
  | restEnter
  /-- R440. All massifs gated and Leads idle: clocks stop, HBM self-refreshes, STATE = REST. -/
  | restEntryProceed
  /-- R440. REST_TO expires before entry proceeds and entry is abandoned. -/
  | restTimeout
  /-- R441. REST_CTL.EXIT or a wake beat starts leaving Rest. -/
  | restExit
  /-- R441. PLLs, HBM and woken massifs are ready and STATE becomes ACTIVE. -/
  | restExitDone
  /-- R449. An accepted MCLK write holds the massif and switches its clock. -/
  | mclkWrite (m : Fin 64) (v : Word)
  /-- R449. The new clock's first edge ends the hold. -/
  | clockSwitchDone (m : Fin 64)
  /-- R448. A write of FPLL.FREQ relocks a fabric PLL, or is refused. -/
  | fpllWrite (k : Fin 4) (v : Word)
  /-- R448. A fabric PLL achieves lock. -/
  | pllLock (k : Fin 4)
  /-- R459. Writing LOCK.SET locks a page's RWL fields. -/
  | lockSet (addr : BitVec 26)
  /-- R457. Writing IRQ_FORCE sets IRQ_STAT bits as a hardware cause would. -/
  | irqForce (addr : BitVec 26) (v : Word)
  /-- R462. A write to a register with no behaviour of its own takes effect per its access type. -/
  | registerWrite (who : Fin 72) (addr : BitVec 26) (v : Word)
  /-- R403. A PCIe endpoint's link completes training and enters L0, setting PCI_STAT.LINKUP, GEN and WIDTH; BAR0 is served from then on. -/
  | pcieLinkUp (e : Fin 2) (gen : Fin 8) (width : Fin 32)
  /-- R500. A stack finishes training and HBM_STAT.READY0 or READY1 rises, so an image load with HBM DATA records can go on. -/
  | hbmTrainingDone (stack : Fin 2)
  /-- R377. A MAC port gains or loses block lock and alignment or FEC lock, changing ETH_STAT.LINK and raising IRQ_STAT[p]; report frames wait while the link is down. -/
  | ethLinkChange (c : Fin 8) (p : Fin 4) (up : Bool)
  /-- R278. Bonded lane training of LG31 succeeds and PAIR_STAT.LINK rises, so records flow again and RESYNC becomes possible. -/
  | pairLinkUp
  /-- R454. A fabric PLL loses lock while massifs select it, and IRQ_STAT[1 + k] of the clock page is set. -/
  | pllLockLoss (k : Fin 4)
  /-- R472. VAUX, and with it the device's supplies, falls and the device enters Off, with every output high-impedance. -/
  | powerDown
  /-- R473. VLANE_09 or VLANE_12 leaves its range, clearing READY on every lane until the rail returns and the lanes retrain. -/
  | laneRailLoss
  /-- R499. A filtered A, B or Z level of a disabled encoder channel changes and ENC_STAT shows it without any count. -/
  | inputLevelChange (n : Fin 16) (a b z : InputSample)
  /-- R432. The 64-cycle hold of a massif reset ends: credits of cleared col queue words are returned, waiting packets are delivered and a pending gating request is evaluated again. -/
  | massifResetDone (m : Fin 64)
  /-- R189. A stack woken by a request leaves self-refresh, HBM_STAT.READY returns to 1 and the held request is admitted. -/
  | selfRefreshExit (stack : Fin 2)
  /-- R280. A write of PAIR_CFG.EN moves a member between OFF and the pair states. -/
  | pairEnable (v : Word)
  /-- R168. A write of SHP_CTL, SHP_BIND or SHP_BASE is judged whole, enabling, disabling or binding a shelf port, or is refused with CFG_REFUSED. -/
  | shelfPortConfigWrite (m : Fin 64) (p : Fin 4) (reg : Fin 5) (v : Word)
  /-- R361. Signal appears at or leaves a lane's receiver and GRP_STAT.SIGDET changes, even in low power, without waking the group. -/
  | signalDetect (g : Fin 32) (f : Fin 8) (seen : LaneSignal)
  deriving DecidableEq, Repr

end Sys2Proof
end

