-- ==== Sys2Proof/Decode.lean ====
section
/-! DEFINITION. The command that a word spells by the bits of spec/opcode_table.json. No row of the table gives
bits: a command of this block is not a word, so no word spells one. -/

namespace Sys2Proof

/-- The command spelt by a word `w` of `nbits` bits. -/
def decodeTableWord (_nbits _w : Nat) : Option Instr := none

end Sys2Proof
end

