-- ==== Sys2Proof/Config.lean ====
section
/-! DEFINITION. What one part or one implementation fixes, and the free values: constants with no
body, so that a claim that holds of the model holds whatever they are. -/

namespace Sys2Proof.Config

/-- Speed grade 2 (R1); false is grade 1. Factory trim of the part. -/
opaque grade2 : Bool
/-- Temperature grade I (R3); false is grade E. -/
opaque gradeI : Bool

/-- A value the spec leaves undefined or unstated, numbered by the state's free-value counter. -/
opaque freeWord : Nat → Word
opaque freeNat : Nat → Nat
opaque freeBit : Nat → Bool

/-- Level of a pin that the device does not drive (BO_STAT.PIN of a high-impedance output, R45),
by output, whether the device's weak pull-down is on (R416), and TB: set by the board. -/
opaque padLevel : Nat → Bool → Nat → Bool

/-- Factory content of settings pages 0–3: word `i` of a page (R394). -/
opaque factoryWord : Nat → Nat → Word
/-- Physical rows that the factory fuse map replaces, in its order: (massif·16 + bank)·256 + PROW (R210). -/
opaque factoryRows : List Nat
/-- Hash of the provisioning key in slot 0 of each kind: word `i` of the 12; kind 0 ECDSA, 1 LMS (R412). -/
opaque factoryKey : Nat → Nat → Word

/-- The reports of the stack's on-die error correction with the bursts that a scrub of one block reads: 1 corrected, 2
uncorrected, anything else none (R199). -/
opaque odReports : Nat → List Nat
/-- The flash on the xSPI port declares 8D-8D-8D reads in its SFDP (R406). -/
opaque flash8D : Bool

/-- Device ID, subsystem IDs and class code of endpoint `e` as the settings records give them (R378). -/
opaque pciIds : Nat → List (Word × Word × Word) → Nat

/-- SHA-384 of a string of bytes, byte i in bits 8i + 7 to 8i (R407, R408; FIPS 180-4). -/
opaque sha384 : List Byte → BitVec 384
/-- A CXP control packet with the framing and CRC of a version of the standard: 0 1.1.1, 1 2.0, 2 2.1 (R367). -/
opaque cxpPacket : Nat → List Word → List Word
/-- The ECDSA signature verifies: public key, signature, image digest (R413; FIPS 186-5). -/
opaque ecdsaVerify : List Byte → List Byte → BitVec 384 → Bool
/-- The LMS signature verifies: public key, signature, message (R413; RFC 8554). -/
opaque lmsVerify : List Byte → List Byte → BitVec 384 → Bool
/-- The device's signature over an attestation report: 24 words (R424). -/
opaque deviceSign : BitVec 384 → Nat → Word
/-- The key hash belongs to an SMC firmware key that the ROM holds (R405). -/
opaque romKey : Nat → BitVec 384 → Bool
/-- VERSION of the firmware built into the ROM (R405). -/
opaque romVersion : Dword

end Sys2Proof.Config
end

