-- ==== Sys2Proof/Machine/SMap.lean ====
section
/-! DEFINITION. Sparse data by a key: a list of key and value pairs, keys strictly rising, in which
no entry equals the value that an unlisted key reads as. Registers, memories and the hidden state
of repeated blocks are held this way, so equal contents are equal data. -/

namespace Sys2Proof.Machine

/-- A sparse map from keys to values. -/
abbrev SMap (α : Type) := List (Nat × α)

/-- The entry listed under `k`, if any. -/
def SMap.find {α : Type} : SMap α → Nat → Option α
  | [], _ => none
  | (a, v) :: m, k => if a = k then some v else SMap.find m k

/-- The value under `k`; `d` is what an unlisted key reads as. -/
def SMap.get {α : Type} (m : SMap α) (k : Nat) (d : α) : α := (m.find k).getD d

/-- Drops the entry under `k`. -/
def SMap.erase {α : Type} (m : SMap α) (k : Nat) : SMap α := m.filter (fun e => e.1 != k)

/-- Puts an entry at its place in the order of keys; `k` is not listed. -/
def SMap.insert {α : Type} : SMap α → Nat → α → SMap α
  | [], k, v => [(k, v)]
  | (a, w) :: m, k, v => if k < a then (k, v) :: (a, w) :: m else (a, w) :: SMap.insert m k v

/-- Writes `v` under `k`; writing what an unlisted key reads as removes the entry. -/
def SMap.set {α : Type} [DecidableEq α] (m : SMap α) (k : Nat) (v d : α) : SMap α :=
  if v = d then m.erase k else (m.erase k).insert k v

/-- Drops every entry whose key satisfies `p`: those keys then read as unlisted. -/
def SMap.clear {α : Type} (m : SMap α) (p : Nat → Bool) : SMap α := m.filter (fun e => !p e.1)

/-- Keys strictly rise. -/
def SMap.sorted {α : Type} : SMap α → Bool
  | [] => true
  | [_] => true
  | (a, _) :: (b, w) :: m => decide (a < b) && SMap.sorted ((b, w) :: m)

/-- The canonical form: keys strictly rise and no entry equals the unlisted value. -/
def SMap.wf {α : Type} [DecidableEq α] (m : SMap α) (d : α) : Bool :=
  m.sorted && m.all (fun e => e.2 != d)

end Sys2Proof.Machine
end

