-- ==== Sys2Proof/Machine/Fld.lean ====
section
/-! DEFINITION. A register field, and a register file: a sparse map from fields to values in which
an unlisted field reads its reset value. -/

namespace Sys2Proof.Machine

/-- A field of a register table: BAR0 offset of its word, lowest bit, width, reset value, and the
*Cleared by* letters as a mask (P 1, C 2, W 4, F 8, M 16, K 32, G 64). -/
structure Fld where
  addr : Nat
  lo : Nat
  w : Nat
  rst : Nat
  clr : Nat
  deriving DecidableEq, Repr

/-- The key of a field: no two fields of the device share a word and a lowest bit. -/
def Fld.key (f : Fld) : Nat := f.addr * 32 + f.lo

/-- The part of a written word that belongs to the field. -/
def Fld.of (f : Fld) (v : Nat) : Nat := bitsOf v f.lo f.w

/-- Greatest value of the field. -/
def Fld.max (f : Fld) : Nat := 2 ^ f.w - 1

/-- A field that does not hold its reset value. -/
structure RegCell where
  fld : Fld
  val : Nat
  deriving DecidableEq, Repr

/-- The register file: cells by the key of their field. -/
abbrev RegFile := SMap RegCell

/-- Value of a field. -/
def RegFile.get (r : RegFile) (f : Fld) : Nat :=
  match SMap.find r f.key with
  | some c => c.val
  | none => f.rst

/-- Sets a field to `v`, cut to its width; a field at its reset value is not listed. -/
def RegFile.put (r : RegFile) (f : Fld) (v : Nat) : RegFile :=
  if v % 2 ^ f.w = f.rst then SMap.erase r f.key
  else SMap.insert (SMap.erase r f.key) f.key ⟨f, v % 2 ^ f.w⟩

/-- Returns every field that `p` selects to its reset value. -/
def RegFile.resetWhere (r : RegFile) (p : Fld → Bool) : RegFile := r.filter (fun e => !p e.2.fld)

/-- Canonical form of the register file: keys rise, each entry stands under its field's key, and no
listed value is the reset value or exceeds the width. -/
def RegFile.wf (r : RegFile) : Bool :=
  SMap.sorted r && r.all (fun e => e.1 == e.2.fld.key && e.2.val != e.2.fld.rst && decide (e.2.val < 2 ^ e.2.fld.w))

end Sys2Proof.Machine
end

