-- ==== Sys2Proof/Machine/Topology.lean ====
section
/-! DEFINITION. The fixed geometry of the device: massif coordinates, edge routers and their
massifs, feed ports, and the dimension-order route (R9, R10, R216, R226). -/

namespace Sys2Proof.Machine

/-- Column of massif `m = my·8 + mx`. -/
def mxOf (m : Nat) : Nat := m % 8
/-- Row of massif `m`. -/
def myOf (m : Nat) : Nat := m / 8

/-- Massif to which router `r` is attached (R9): itself for r < 64; the massif its edge router
stands at otherwise. -/
def routerMassif (r : Nat) : Nat :=
  if r < 64 then r
  else if r < 72 then r - 64
  else if r < 80 then 56 + (r - 72)
  else if r < 88 then 8 * (r - 80)
  else 8 * (r - 88) + 7

/-- Port code of the link from an edge massif's router to edge router `r` (R216): 5 EDGE_NS for the
north and south sides, 6 EDGE_WE for the west and east sides. -/
def edgePort (r : Nat) : Nat := if r < 80 then 5 else 6

/-- R226: the port by which a packet for router `d` leaves massif router `r`, X first (port codes of
R216: 0 LOCAL, 1 N, 2 E, 3 S, 4 W, 5 EDGE_NS, 6 EDGE_WE). -/
def xyPort (r d : Nat) : Nat :=
  let m := routerMassif d
  if mxOf r < mxOf m then 2
  else if mxOf m < mxOf r then 4
  else if myOf r < myOf m then 1
  else if myOf m < myOf r then 3
  else if d = r then 0 else edgePort d

end Sys2Proof.Machine
end

