-- ==== Sys2Proof/Machine/RegFields.lean ====
section
/-! DEFINITION. Every field of every register table of the spec as a `Fld` (address, lowest bit,
width, reset value, Cleared by letters), under the name REG_FIELD, by page in the order of the
chapters. A page with instances, and a register with an index, take them as arguments. The
common page header (R457) stands at the end. -/

namespace Sys2Proof.Machine

open Sys2Proof

/-- The word of `RT_SHADOW(v, j)` and `RT_ACTIVE(v, j)` of router `n` that holds the XY routes of
R226 (power-on value of both tables, R227). Edge router pages have no table (R242). -/
def xyRouteWord (n j : Nat) : Nat :=
  if n < 64 then
    (List.range 8).foldl (fun acc i => acc + xyPort n (8 * j + i) * 16 ^ i) 0
  else 0

namespace F

/-! posGlobal page (R47) -/
def TB_LO_VALUE : Fld := ⟨0x00100040, 0, 32, 0x00000000, 3⟩
def TB_HI_VALUE : Fld := ⟨0x00100044, 0, 32, 0x00000000, 3⟩
def SNAP_CAPTURE : Fld := ⟨0x00100048, 0, 1, 0, 0⟩
def TB_SNAP_LO_VALUE : Fld := ⟨0x00100050, 0, 32, 0x00000000, 3⟩
def TB_SNAP_HI_VALUE : Fld := ⟨0x00100054, 0, 32, 0x00000000, 3⟩
def ENC_SNAP_LO_VALUE (n : Nat) : Fld := ⟨0x00100080 + 0x8 * n, 0, 32, 0x00000000, 3⟩
def ENC_SNAP_HI_VALUE (n : Nat) : Fld := ⟨0x00100084 + 0x8 * n, 0, 16, 0x0000, 3⟩

/-! encoder page (R47) -/
def ENC_CTL_EN (n : Nat) : Fld := ⟨0x00101040 + 0x40 * n, 0, 1, 0, 3⟩
def ENC_CTL_MODE (n : Nat) : Fld := ⟨0x00101040 + 0x40 * n, 1, 2, 0, 3⟩
def ENC_CTL_DIR_INV (n : Nat) : Fld := ⟨0x00101040 + 0x40 * n, 3, 1, 0, 3⟩
def ENC_CTL_FILT (n : Nat) : Fld := ⟨0x00101040 + 0x40 * n, 4, 4, 0, 3⟩
def ENC_CTL_ZMODE (n : Nat) : Fld := ⟨0x00101040 + 0x40 * n, 8, 2, 0, 3⟩
def ENC_CTL_ZGATE (n : Nat) : Fld := ⟨0x00101040 + 0x40 * n, 10, 1, 0, 3⟩
def ENC_CTL_LOAD (n : Nat) : Fld := ⟨0x00101040 + 0x40 * n, 11, 1, 0, 0⟩
def ENC_CTL_INSEL (n : Nat) : Fld := ⟨0x00101040 + 0x40 * n, 12, 1, 0, 3⟩
def ENC_STAT_A (n : Nat) : Fld := ⟨0x00101044 + 0x40 * n, 0, 1, 0, 3⟩
def ENC_STAT_B (n : Nat) : Fld := ⟨0x00101044 + 0x40 * n, 1, 1, 0, 3⟩
def ENC_STAT_Z (n : Nat) : Fld := ⟨0x00101044 + 0x40 * n, 2, 1, 0, 3⟩
def ENC_STAT_DIR (n : Nat) : Fld := ⟨0x00101044 + 0x40 * n, 3, 1, 0, 3⟩
def ENC_STAT_ILLEGAL (n : Nat) : Fld := ⟨0x00101044 + 0x40 * n, 4, 1, 0, 3⟩
def ENC_STAT_OVERSPEED (n : Nat) : Fld := ⟨0x00101044 + 0x40 * n, 5, 1, 0, 3⟩
def ENC_STAT_HOMED (n : Nat) : Fld := ⟨0x00101044 + 0x40 * n, 6, 1, 0, 3⟩
def ENC_STAT_ZSEEN (n : Nat) : Fld := ⟨0x00101044 + 0x40 * n, 7, 1, 0, 3⟩
def ENC_POS_LO_VALUE (n : Nat) : Fld := ⟨0x00101048 + 0x40 * n, 0, 32, 0x00000000, 3⟩
def ENC_POS_HI_VALUE (n : Nat) : Fld := ⟨0x0010104C + 0x40 * n, 0, 16, 0x0000, 3⟩
def ENC_ZLATCH_LO_VALUE (n : Nat) : Fld := ⟨0x00101050 + 0x40 * n, 0, 32, 0x00000000, 3⟩
def ENC_ZLATCH_HI_VALUE (n : Nat) : Fld := ⟨0x00101054 + 0x40 * n, 0, 16, 0x0000, 3⟩
def ENC_PRESET_LO_VALUE (n : Nat) : Fld := ⟨0x00101058 + 0x40 * n, 0, 32, 0x00000000, 3⟩
def ENC_PRESET_HI_VALUE (n : Nat) : Fld := ⟨0x0010105C + 0x40 * n, 0, 16, 0x0000, 3⟩
def ENC_PERIOD_VALUE (n : Nat) : Fld := ⟨0x00101060 + 0x40 * n, 0, 32, 0xFFFFFFFF, 3⟩
def ENC_ERRCNT_VALUE (n : Nat) : Fld := ⟨0x00101064 + 0x40 * n, 0, 32, 0x00000000, 3⟩

/-! beatChannel page (R47, R48) -/
def BC_CTL_KIND (c : Nat) : Fld := ⟨0x00102040 + 0x20 * c, 0, 2, 0, 3⟩
def BC_CTL_EN (c : Nat) : Fld := ⟨0x00102040 + 0x20 * c, 2, 1, 0, 3⟩
def BC_CTL_ENC (c : Nat) : Fld := ⟨0x00102040 + 0x20 * c, 3, 4, 0, 3⟩
def BC_CTL_DIR (c : Nat) : Fld := ⟨0x00102040 + 0x20 * c, 7, 2, 0, 3⟩
def BC_CTL_VAVG (c : Nat) : Fld := ⟨0x00102040 + 0x20 * c, 9, 3, 0, 3⟩
def BC_CTL_ACT (c : Nat) : Fld := ⟨0x00102040 + 0x20 * c, 12, 4, 0, 3⟩
def BC_CTL_TREE (c : Nat) : Fld := ⟨0x00102040 + 0x20 * c, 16, 1, 0, 3⟩
def BC_CTL_TEMPO (c : Nat) : Fld := ⟨0x00102040 + 0x20 * c, 17, 1, 0, 3⟩
def BC_CTL_BYTIME (c : Nat) : Fld := ⟨0x00102040 + 0x20 * c, 18, 1, 0, 3⟩
def BC_STAT_ACTIVE (c : Nat) : Fld := ⟨0x00102044 + 0x20 * c, 0, 1, 0, 3⟩
def BC_STAT_LATE (c : Nat) : Fld := ⟨0x00102044 + 0x20 * c, 1, 1, 0, 3⟩
def BC_STAT_SCHED_FULL (c : Nat) : Fld := ⟨0x00102044 + 0x20 * c, 2, 1, 0, 3⟩
def BC_STAT_SCHED_REFUSED (c : Nat) : Fld := ⟨0x00102044 + 0x20 * c, 3, 1, 0, 3⟩
def BC_STAT_DONE (c : Nat) : Fld := ⟨0x00102044 + 0x20 * c, 4, 1, 0, 3⟩
def BC_STAT_BADARG (c : Nat) : Fld := ⟨0x00102044 + 0x20 * c, 5, 1, 0, 3⟩
def BC_STAT_HELD (c : Nat) : Fld := ⟨0x00102044 + 0x20 * c, 6, 1, 0, 3⟩
def BC_STAT_CFGPEND (c : Nat) : Fld := ⟨0x00102044 + 0x20 * c, 7, 1, 0, 3⟩
def BC_STAT_DEPTH (c : Nat) : Fld := ⟨0x00102044 + 0x20 * c, 8, 5, 0, 3⟩
def BC_ARG0_VALUE (c : Nat) : Fld := ⟨0x00102048 + 0x20 * c, 0, 32, 0x00000000, 3⟩
def BC_ARG1_VALUE (c : Nat) : Fld := ⟨0x0010204C + 0x20 * c, 0, 32, 0x00000000, 3⟩
def BC_ARG2_VALUE (c : Nat) : Fld := ⟨0x00102050 + 0x20 * c, 0, 32, 0x00000000, 3⟩
def BC_ARG3_VALUE (c : Nat) : Fld := ⟨0x00102054 + 0x20 * c, 0, 32, 0x00000000, 3⟩
def BC_COUNT_VALUE (c : Nat) : Fld := ⟨0x00102058 + 0x20 * c, 0, 32, 0x00000000, 3⟩
def BC_LATE_VALUE (c : Nat) : Fld := ⟨0x0010205C + 0x20 * c, 0, 32, 0x00000000, 3⟩
def BC_SEQMOD_MOD (c : Nat) : Fld := ⟨0x00102840 + 0x4 * c, 0, 16, 0x0000, 3⟩
def BC_SEQ_VALUE (c : Nat) : Fld := ⟨0x00102940 + 0x4 * c, 0, 16, 0x0000, 3⟩

/-! beatOutput page (R48) -/
def BO_CTL_EN (o : Nat) : Fld := ⟨0x00103040 + 0x10 * o, 0, 1, 0, 3⟩
def BO_CTL_OE (o : Nat) : Fld := ⟨0x00103040 + 0x10 * o, 1, 1, 0, 3⟩
def BO_CTL_POL (o : Nat) : Fld := ⟨0x00103040 + 0x10 * o, 2, 1, 0, 3⟩
def BO_CTL_MODE (o : Nat) : Fld := ⟨0x00103040 + 0x10 * o, 3, 2, 0, 3⟩
def BO_CTL_SRC (o : Nat) : Fld := ⟨0x00103040 + 0x10 * o, 5, 6, 0, 3⟩
def BO_CTL_DIV (o : Nat) : Fld := ⟨0x00103040 + 0x10 * o, 12, 4, 0, 3⟩
def BO_CTL_PHASE (o : Nat) : Fld := ⟨0x00103040 + 0x10 * o, 16, 4, 0, 3⟩
def BO_CTL_ACTVAL (o : Nat) : Fld := ⟨0x00103040 + 0x10 * o, 20, 4, 0, 3⟩
def BO_CTL_ACTEN (o : Nat) : Fld := ⟨0x00103040 + 0x10 * o, 24, 1, 0, 3⟩
def BO_DLY_DELAY (o : Nat) : Fld := ⟨0x00103044 + 0x10 * o, 0, 20, 0x00000, 3⟩
def BO_DLY_FINE (o : Nat) : Fld := ⟨0x00103044 + 0x10 * o, 20, 3, 0, 3⟩
def BO_WID_WIDTH (o : Nat) : Fld := ⟨0x00103048 + 0x10 * o, 0, 24, 0x000004, 3⟩
def BO_STAT_OVERRUN (o : Nat) : Fld := ⟨0x0010304C + 0x10 * o, 0, 16, 0x0000, 3⟩
def BO_STAT_MERGE (o : Nat) : Fld := ⟨0x0010304C + 0x10 * o, 16, 1, 0, 3⟩
def BO_STAT_PIN (o : Nat) : Fld := ⟨0x0010304C + 0x10 * o, 17, 1, 0, 3⟩
def BO_STAT_LATE (o : Nat) : Fld := ⟨0x0010304C + 0x10 * o, 18, 1, 0, 3⟩

/-! colQueue page (R99) -/
def CQ_STAT_NONEMPTY (m f : Nat) : Fld := ⟨0x0100A040 + 0x10000 * m + 0x10 * f, 0, 1, 0, 31⟩
def CQ_STAT_SYNC (m f : Nat) : Fld := ⟨0x0100A040 + 0x10000 * m + 0x10 * f, 1, 1, 0, 31⟩
def CQ_STAT_FULLSEEN (m f : Nat) : Fld := ⟨0x0100A040 + 0x10000 * m + 0x10 * f, 2, 1, 0, 31⟩
def CQ_STAT_PARITY (m f : Nat) : Fld := ⟨0x0100A040 + 0x10000 * m + 0x10 * f, 3, 1, 0, 31⟩
def CQ_STAT_HIGHWATER (m f : Nat) : Fld := ⟨0x0100A040 + 0x10000 * m + 0x10 * f, 4, 4, 0x0, 31⟩
def CQ_STAT_HWCLR (m f : Nat) : Fld := ⟨0x0100A040 + 0x10000 * m + 0x10 * f, 8, 1, 0, 0⟩
def CQ_PARCNT_VALUE (m f : Nat) : Fld := ⟨0x0100A044 + 0x10000 * m + 0x10 * f, 0, 32, 0x00000000, 31⟩
def CQ_FULLCNT_VALUE (m f : Nat) : Fld := ⟨0x0100A048 + 0x10000 * m + 0x10 * f, 0, 32, 0x00000000, 31⟩

/-! feedSwitch page (R100) -/
def FEED_CTL_EN (p : Nat) : Fld := ⟨0x03040040 + 0x10 * p, 0, 1, 0, 7⟩
def FEED_CTL_SEL (p : Nat) : Fld := ⟨0x03040040 + 0x10 * p, 1, 5, 0x00, 7⟩
def FEED_CTL_TRACKEN (p : Nat) : Fld := ⟨0x03040040 + 0x10 * p, 8, 8, 0xFF, 7⟩
def FEED_STAT_PENDING (p : Nat) : Fld := ⟨0x03040044 + 0x10 * p, 0, 8, 0x00, 7⟩
def FEED_STAT_MIDPKT (p : Nat) : Fld := ⟨0x03040044 + 0x10 * p, 8, 8, 0x00, 7⟩
def FEED_CNT_VALUE (p : Nat) : Fld := ⟨0x03040048 + 0x10 * p, 0, 32, 0x00000000, 7⟩

/-! sequencer page (R126) -/
def SEQ_CTL_RUN (m : Nat) : Fld := ⟨0x01000040 + 0x10000 * m, 0, 1, 0, 31⟩
def SEQ_CTL_INIT_STEP (m : Nat) : Fld := ⟨0x01000040 + 0x10000 * m, 4, 6, 0x00, 11⟩
def SEQ_CTL_INIT_SLOT (m : Nat) : Fld := ⟨0x01000040 + 0x10000 * m, 10, 4, 0x0, 11⟩
def SEQ_CTL_PARITY_ACT (m : Nat) : Fld := ⟨0x01000040 + 0x10000 * m, 14, 1, 0, 11⟩
def SEQ_STAT_STEP (m : Nat) : Fld := ⟨0x01000044 + 0x10000 * m, 0, 6, 0, 31⟩
def SEQ_STAT_ACTIVE_SLOT (m : Nat) : Fld := ⟨0x01000044 + 0x10000 * m, 6, 4, 0, 31⟩
def SEQ_STAT_SWITCHING (m : Nat) : Fld := ⟨0x01000044 + 0x10000 * m, 10, 1, 0, 31⟩
def SEQ_STAT_PENDING (m : Nat) : Fld := ⟨0x01000044 + 0x10000 * m, 11, 1, 0, 31⟩
def SEQ_STAT_RUNNING (m : Nat) : Fld := ⟨0x01000044 + 0x10000 * m, 12, 1, 0, 31⟩
def SEQ_STAT_HALT_CAUSE (m : Nat) : Fld := ⟨0x01000044 + 0x10000 * m, 13, 3, 0, 31⟩
def SEQ_STAT_GO_IGNORED (m : Nat) : Fld := ⟨0x01000044 + 0x10000 * m, 16, 1, 0, 31⟩
def SEQ_STAT_FORCE_REFUSED (m : Nat) : Fld := ⟨0x01000044 + 0x10000 * m, 17, 1, 0, 31⟩
def SEQ_STAT_LATE_BEAT (m : Nat) : Fld := ⟨0x01000044 + 0x10000 * m, 18, 1, 0, 31⟩
def SEQ_STAT_BTIMEOUT (m : Nat) : Fld := ⟨0x01000044 + 0x10000 * m, 19, 1, 0, 31⟩
def SEQ_CMD_GO (m : Nat) : Fld := ⟨0x01000048 + 0x10000 * m, 0, 1, 0, 0⟩
def SEQ_CMD_FORCE (m : Nat) : Fld := ⟨0x01000048 + 0x10000 * m, 1, 1, 0, 0⟩
def SEQ_CMD_FORCE_SLOT (m : Nat) : Fld := ⟨0x01000048 + 0x10000 * m, 2, 4, 0x0, 0⟩
def SEQ_CMD_FORCE_MODE (m : Nat) : Fld := ⟨0x01000048 + 0x10000 * m, 6, 1, 0, 0⟩
def SEQ_DISCARD_VALUE (m : Nat) : Fld := ⟨0x0100004C + 0x10000 * m, 0, 32, 0x00000000, 31⟩
def SEQ_SWCNT_VALUE (m : Nat) : Fld := ⟨0x01000050 + 0x10000 * m, 0, 32, 0x00000000, 31⟩
def SEQ_MISS_VALUE (m : Nat) : Fld := ⟨0x01000054 + 0x10000 * m, 0, 32, 0x00000000, 31⟩
def SEQ_LASTBEAT_SEQ (m : Nat) : Fld := ⟨0x01000058 + 0x10000 * m, 0, 16, 0x0000, 31⟩
def SEQ_LASTBEAT_CH (m : Nat) : Fld := ⟨0x01000058 + 0x10000 * m, 16, 6, 0x00, 31⟩
def SLOT_VALID_BITS (m : Nat) : Fld := ⟨0x0100005C + 0x10000 * m, 0, 16, 0x0000, 11⟩
def SEQ_WAKE_RELOAD (m : Nat) : Fld := ⟨0x01000060 + 0x10000 * m, 0, 16, 0x0000, 11⟩
def SEQ_BTIMEOUT_CYCLES (m : Nat) : Fld := ⟨0x01000064 + 0x10000 * m, 0, 16, 0x1000, 11⟩
def MASSIF_STAT_CONTROL_POISON (m : Nat) : Fld := ⟨0x01000070 + 0x10000 * m, 0, 1, 0, 31⟩
def MASSIF_STAT_SLOT_PARITY (m : Nat) : Fld := ⟨0x01000070 + 0x10000 * m, 1, 1, 0, 31⟩
def MASSIF_STAT_STOPPED (m : Nat) : Fld := ⟨0x01000070 + 0x10000 * m, 2, 1, 0, 31⟩
def STEP_LO_VALUE (m s : Nat) : Fld := ⟨0x01000200 + 0x10000 * m + 0x8 * s, 0, 32, 0x00000000, 11⟩
def STEP_HI_VALUE (m s : Nat) : Fld := ⟨0x01000204 + 0x10000 * m + 0x8 * s, 0, 32, 0x00000000, 11⟩

/-! loader page (R126) -/
def LD_CTL_GO (m : Nat) : Fld := ⟨0x01001040 + 0x10000 * m, 0, 1, 0, 0⟩
def LD_CTL_OP (m : Nat) : Fld := ⟨0x01001040 + 0x10000 * m, 1, 2, 0, 31⟩
def LD_CTL_SLOT (m : Nat) : Fld := ⟨0x01001040 + 0x10000 * m, 3, 4, 0x0, 31⟩
def LD_CTL_SRC (m : Nat) : Fld := ⟨0x01001040 + 0x10000 * m, 7, 1, 0, 31⟩
def LD_ADDR_LO_VALUE (m : Nat) : Fld := ⟨0x01001044 + 0x10000 * m, 0, 32, 0x00000000, 31⟩
def LD_ADDR_HI_VALUE (m : Nat) : Fld := ⟨0x01001048 + 0x10000 * m, 0, 3, 0x0, 31⟩
def LD_STAT_BUSY (m : Nat) : Fld := ⟨0x0100104C + 0x10000 * m, 0, 1, 0, 31⟩
def LD_STAT_DONE (m : Nat) : Fld := ⟨0x0100104C + 0x10000 * m, 1, 1, 0, 31⟩
def LD_STAT_FAULT (m : Nat) : Fld := ⟨0x0100104C + 0x10000 * m, 2, 1, 0, 31⟩
def LD_STAT_CODE (m : Nat) : Fld := ⟨0x0100104C + 0x10000 * m, 3, 4, 0x0, 31⟩
def LD_STAT_REFUSED (m : Nat) : Fld := ⟨0x0100104C + 0x10000 * m, 7, 1, 0, 31⟩
def LD_FAULT_TILE (m : Nat) : Fld := ⟨0x01001050 + 0x10000 * m, 0, 8, 0x00, 31⟩
def LD_FAULT_TV (m : Nat) : Fld := ⟨0x01001050 + 0x10000 * m, 8, 1, 0, 31⟩
def SLOT_ID_VALUE (m s : Nat) : Fld := ⟨0x01001080 + 0x10000 * m + 0x4 * s, 0, 32, 0x00000000, 11⟩
def SLOT_SRC_SRC (m s : Nat) : Fld := ⟨0x010010C0 + 0x10000 * m + 0x4 * s, 0, 1, 0, 11⟩
def SLOT_SRC_ADDR (m s : Nat) : Fld := ⟨0x010010C0 + 0x10000 * m + 0x4 * s, 1, 29, 0x00000000, 11⟩
def SLOT_INFO_DRAIN (m s : Nat) : Fld := ⟨0x01001100 + 0x10000 * m + 0x4 * s, 0, 8, 0x00, 11⟩

/-! queue page (R159) -/
def POOL_STAT_FREE (m : Nat) : Fld := ⟨0x01002040 + 0x10000 * m, 0, 11, 0x400, 31⟩
def POOL_STAT_RSVSUM (m : Nat) : Fld := ⟨0x01002040 + 0x10000 * m, 16, 11, 0x000, 11⟩
def SQ_CTL_EN (m q : Nat) : Fld := ⟨0x01002100 + 0x10000 * m + 0x40 * q, 0, 1, 0, 11⟩
def SQ_CTL_FULL (m q : Nat) : Fld := ⟨0x01002100 + 0x10000 * m + 0x40 * q, 1, 1, 0, 11⟩
def SQ_CTL_RELMODE (m q : Nat) : Fld := ⟨0x01002100 + 0x10000 * m + 0x40 * q, 2, 2, 0, 11⟩
def SQ_CTL_WSRC (m q : Nat) : Fld := ⟨0x01002100 + 0x10000 * m + 0x40 * q, 4, 2, 0, 11⟩
def SQ_CTL_RSINK (m q : Nat) : Fld := ⟨0x01002100 + 0x10000 * m + 0x40 * q, 6, 2, 0, 11⟩
def SQ_CTL_TAILACT (m q : Nat) : Fld := ⟨0x01002100 + 0x10000 * m + 0x40 * q, 8, 1, 0, 11⟩
def SQ_CTL_FMARK (m q : Nat) : Fld := ⟨0x01002100 + 0x10000 * m + 0x40 * q, 9, 1, 0, 11⟩
def SQ_CTL_CLEAR (m q : Nat) : Fld := ⟨0x01002100 + 0x10000 * m + 0x40 * q, 10, 1, 0, 0⟩
def SQ_BIND_WTILE (m q : Nat) : Fld := ⟨0x01002104 + 0x10000 * m + 0x40 * q, 0, 8, 0x00, 11⟩
def SQ_BIND_WDIR (m q : Nat) : Fld := ⟨0x01002104 + 0x10000 * m + 0x40 * q, 8, 2, 0, 11⟩
def SQ_BIND_WTRK (m q : Nat) : Fld := ⟨0x01002104 + 0x10000 * m + 0x40 * q, 10, 2, 0, 11⟩
def SQ_BIND_WEN (m q : Nat) : Fld := ⟨0x01002104 + 0x10000 * m + 0x40 * q, 12, 1, 0, 11⟩
def SQ_BIND_RTILE (m q : Nat) : Fld := ⟨0x01002104 + 0x10000 * m + 0x40 * q, 16, 8, 0x00, 11⟩
def SQ_BIND_RDIR (m q : Nat) : Fld := ⟨0x01002104 + 0x10000 * m + 0x40 * q, 24, 2, 0, 11⟩
def SQ_BIND_RTRK (m q : Nat) : Fld := ⟨0x01002104 + 0x10000 * m + 0x40 * q, 26, 2, 0, 11⟩
def SQ_BIND_REN (m q : Nat) : Fld := ⟨0x01002104 + 0x10000 * m + 0x40 * q, 28, 1, 0, 11⟩
def SQ_QUOTA_GRAN (m q : Nat) : Fld := ⟨0x01002108 + 0x10000 * m + 0x40 * q, 0, 11, 0x020, 11⟩
def SQ_QUOTA_RSV (m q : Nat) : Fld := ⟨0x01002108 + 0x10000 * m + 0x40 * q, 16, 11, 0x000, 11⟩
def SQ_STAT_EMPTY (m q : Nat) : Fld := ⟨0x0100210C + 0x10000 * m + 0x40 * q, 0, 1, 1, 31⟩
def SQ_STAT_FULL (m q : Nat) : Fld := ⟨0x0100210C + 0x10000 * m + 0x40 * q, 1, 1, 0, 31⟩
def SQ_STAT_OVER_QUOTA (m q : Nat) : Fld := ⟨0x0100210C + 0x10000 * m + 0x40 * q, 2, 1, 0, 31⟩
def SQ_STAT_MARK_VALID (m q : Nat) : Fld := ⟨0x0100210C + 0x10000 * m + 0x40 * q, 3, 1, 0, 31⟩
def SQ_STAT_CAIRN_PENDING (m q : Nat) : Fld := ⟨0x0100210C + 0x10000 * m + 0x40 * q, 4, 1, 0, 31⟩
def SQ_STAT_BIND_CONFLICT (m q : Nat) : Fld := ⟨0x0100210C + 0x10000 * m + 0x40 * q, 5, 1, 0, 31⟩
def SQ_STAT_DROPPED (m q : Nat) : Fld := ⟨0x0100210C + 0x10000 * m + 0x40 * q, 8, 1, 0, 31⟩
def SQ_STAT_MARK_LOST (m q : Nat) : Fld := ⟨0x0100210C + 0x10000 * m + 0x40 * q, 9, 1, 0, 31⟩
def SQ_STAT_REWIND_ERR (m q : Nat) : Fld := ⟨0x0100210C + 0x10000 * m + 0x40 * q, 10, 1, 0, 31⟩
def SQ_STAT_CMD_ERR (m q : Nat) : Fld := ⟨0x0100210C + 0x10000 * m + 0x40 * q, 11, 1, 0, 31⟩
def SQ_STAT_CFG_REFUSED (m q : Nat) : Fld := ⟨0x0100210C + 0x10000 * m + 0x40 * q, 12, 1, 0, 31⟩
def SQ_STAT_TAIL_TIMEOUT (m q : Nat) : Fld := ⟨0x0100210C + 0x10000 * m + 0x40 * q, 13, 1, 0, 31⟩
def SQ_STAT_PARITY (m q : Nat) : Fld := ⟨0x0100210C + 0x10000 * m + 0x40 * q, 14, 1, 0, 31⟩
def SQ_STAT_PUT_REFUSED (m q : Nat) : Fld := ⟨0x0100210C + 0x10000 * m + 0x40 * q, 15, 1, 0, 31⟩
def SQ_FILL_WORDS (m q : Nat) : Fld := ⟨0x01002110 + 0x10000 * m + 0x40 * q, 0, 15, 0x0000, 31⟩
def SQ_FILL_GRAN (m q : Nat) : Fld := ⟨0x01002110 + 0x10000 * m + 0x40 * q, 16, 11, 0x000, 31⟩
def SQ_PKT_COUNT (m q : Nat) : Fld := ⟨0x01002114 + 0x10000 * m + 0x40 * q, 0, 16, 0x0000, 31⟩
def SQ_PKT_FORCED (m q : Nat) : Fld := ⟨0x01002114 + 0x10000 * m + 0x40 * q, 16, 16, 0x0000, 31⟩
def SQ_DEST_ROUTER (m q : Nat) : Fld := ⟨0x01002118 + 0x10000 * m + 0x40 * q, 0, 7, 0x00, 11⟩
def SQ_DEST_QUEUE (m q : Nat) : Fld := ⟨0x01002118 + 0x10000 * m + 0x40 * q, 8, 5, 0x00, 11⟩
def SQ_DROP_VALUE (m q : Nat) : Fld := ⟨0x0100211C + 0x10000 * m + 0x40 * q, 0, 32, 0x00000000, 31⟩
def SQ_PARCNT_VALUE (m q : Nat) : Fld := ⟨0x01002120 + 0x10000 * m + 0x40 * q, 0, 32, 0x00000000, 31⟩
def SQ_TAIL_CYCLES (m q : Nat) : Fld := ⟨0x01002124 + 0x10000 * m + 0x40 * q, 0, 24, 0x000000, 11⟩
def SQ_TAIL_SCALE (m q : Nat) : Fld := ⟨0x01002124 + 0x10000 * m + 0x40 * q, 24, 2, 0, 11⟩
def SQ_AUX_WIN_N (m q : Nat) : Fld := ⟨0x01002128 + 0x10000 * m + 0x40 * q, 0, 5, 0x02, 11⟩
def SQ_AUX_STAMPSRC (m q : Nat) : Fld := ⟨0x01002128 + 0x10000 * m + 0x40 * q, 8, 1, 0, 11⟩
def SQ_AUX_STAMPCH (m q : Nat) : Fld := ⟨0x01002128 + 0x10000 * m + 0x40 * q, 10, 6, 0x00, 11⟩
def SQ_CMD_OP (m q : Nat) : Fld := ⟨0x0100212C + 0x10000 * m + 0x40 * q, 0, 3, 0, 0⟩
def SQ_PUTSB_EPM (m q : Nat) : Fld := ⟨0x01002130 + 0x10000 * m + 0x40 * q, 0, 3, 0, 31⟩
def SQ_PUT_D (m q : Nat) : Fld := ⟨0x01002134 + 0x10000 * m + 0x40 * q, 0, 32, 0, 0⟩
def SQ_GET_D (m q : Nat) : Fld := ⟨0x01002138 + 0x10000 * m + 0x40 * q, 0, 32, 0x00000000, 31⟩
def SQ_GETSB_VEPM (m q : Nat) : Fld := ⟨0x0100213C + 0x10000 * m + 0x40 * q, 0, 4, 0x0, 31⟩
def SQ_WP_VALUE (m q : Nat) : Fld := ⟨0x01002A00 + 0x10000 * m + 0x20 * q, 0, 32, 0x00000000, 31⟩
def SQ_RP_VALUE (m q : Nat) : Fld := ⟨0x01002A04 + 0x10000 * m + 0x20 * q, 0, 32, 0x00000000, 31⟩
def SQ_RL_VALUE (m q : Nat) : Fld := ⟨0x01002A08 + 0x10000 * m + 0x20 * q, 0, 32, 0x00000000, 31⟩
def SQ_MK_VALUE (m q : Nat) : Fld := ⟨0x01002A0C + 0x10000 * m + 0x20 * q, 0, 32, 0x00000000, 31⟩
def SQ_LASTFORCED_VALUE (m q : Nat) : Fld := ⟨0x01002A10 + 0x10000 * m + 0x20 * q, 0, 32, 0x00000000, 31⟩

/-! laneRxQueue page (R160) -/
def LRQ_STAT_EMPTY (g f : Nat) : Fld := ⟨0x02003040 + 0x10000 * g + 0x20 * f, 0, 1, 1, 71⟩
def LRQ_STAT_FULL (g f : Nat) : Fld := ⟨0x02003040 + 0x10000 * g + 0x20 * f, 1, 1, 0, 71⟩
def LRQ_STAT_CAIRN_PENDING (g f : Nat) : Fld := ⟨0x02003040 + 0x10000 * g + 0x20 * f, 2, 1, 0, 71⟩
def LRQ_STAT_DROPPED (g f : Nat) : Fld := ⟨0x02003040 + 0x10000 * g + 0x20 * f, 8, 1, 0, 71⟩
def LRQ_STAT_TAIL_TIMEOUT (g f : Nat) : Fld := ⟨0x02003040 + 0x10000 * g + 0x20 * f, 9, 1, 0, 71⟩
def LRQ_STAT_PARITY (g f : Nat) : Fld := ⟨0x02003040 + 0x10000 * g + 0x20 * f, 10, 1, 0, 71⟩
def LRQ_FILL_WORDS (g f : Nat) : Fld := ⟨0x02003044 + 0x10000 * g + 0x20 * f, 0, 13, 0x0000, 71⟩
def LRQ_FILL_HIGHWATER (g f : Nat) : Fld := ⟨0x02003044 + 0x10000 * g + 0x20 * f, 16, 13, 0x0000, 71⟩
def LRQ_DROP_VALUE (g f : Nat) : Fld := ⟨0x02003048 + 0x10000 * g + 0x20 * f, 0, 32, 0x00000000, 71⟩
def LRQ_PARCNT_VALUE (g f : Nat) : Fld := ⟨0x0200304C + 0x10000 * g + 0x20 * f, 0, 32, 0x00000000, 71⟩
def LRQ_TAIL_CYCLES (g f : Nat) : Fld := ⟨0x02003050 + 0x10000 * g + 0x20 * f, 0, 24, 0x000000, 3⟩
def LRQ_TAIL_SCALE (g f : Nat) : Fld := ⟨0x02003050 + 0x10000 * g + 0x20 * f, 24, 2, 0, 3⟩
def LRQ_TAIL_TAILACT (g f : Nat) : Fld := ⟨0x02003050 + 0x10000 * g + 0x20 * f, 26, 1, 0, 3⟩
def LRQ_TAIL_FMARK (g f : Nat) : Fld := ⟨0x02003050 + 0x10000 * g + 0x20 * f, 27, 1, 0, 3⟩

/-! collector page (R161) -/
def COL_CTL_EN : Fld := ⟨0x03050040, 0, 1, 0, 7⟩
def COL_CTL_ORDER : Fld := ⟨0x03050040, 1, 1, 0, 7⟩
def COL_CTL_SINK : Fld := ⟨0x03050040, 2, 2, 0, 7⟩
def COL_CTL_SINKCH : Fld := ⟨0x03050040, 4, 4, 0x0, 7⟩
def COL_CTL_ETHCL : Fld := ⟨0x03050040, 8, 3, 0, 7⟩
def COL_ORDER_ENC : Fld := ⟨0x03050044, 0, 4, 0x0, 7⟩
def COL_LAG_VALUE : Fld := ⟨0x03050048, 0, 32, 0x00000000, 7⟩
def COL_STAT_ORDER_VIOL : Fld := ⟨0x0305004C, 0, 1, 0, 7⟩
def COL_STAT_OUTFULL : Fld := ⟨0x0305004C, 1, 1, 0, 7⟩
def COL_STAT_OUTOCC : Fld := ⟨0x0305004C, 16, 9, 0x000, 7⟩
def COL_INEN_LO_BITS : Fld := ⟨0x03050050, 0, 32, 0xFFFFFFFF, 7⟩
def COL_INEN_HI_BITS : Fld := ⟨0x03050054, 0, 32, 0xFFFFFFFF, 7⟩
def COL_OUTCNT_VALUE : Fld := ⟨0x03050058, 0, 32, 0x00000000, 7⟩
def COL_POISONCNT_VALUE : Fld := ⟨0x0305005C, 0, 32, 0x00000000, 7⟩
def COL_LATECNT_VALUE : Fld := ⟨0x03050060, 0, 32, 0x00000000, 7⟩
def COL_OCC_VALUE (j : Nat) : Fld := ⟨0x03050080 + 0x4 * j, 0, 32, 0x00000000, 7⟩

/-! shelf page (R190) -/
def SH_CTL_CLEAR (m : Nat) : Fld := ⟨0x01003040 + 0x10000 * m, 0, 1, 0, 0⟩
def SH_STAT_CLEARING (m : Nat) : Fld := ⟨0x01003044 + 0x10000 * m, 0, 1, 0, 3⟩
def SH_STAT_CFG_REFUSED (m : Nat) : Fld := ⟨0x01003044 + 0x10000 * m, 1, 1, 0, 31⟩
def SH_STAT_MARKER (m : Nat) : Fld := ⟨0x01003044 + 0x10000 * m, 2, 1, 0, 31⟩
def SH_WAIT_LD_VALUE (m : Nat) : Fld := ⟨0x01003048 + 0x10000 * m, 0, 32, 0x00000000, 7⟩
def SH_WAIT_CALLER_VALUE (m : Nat) : Fld := ⟨0x0100304C + 0x10000 * m, 0, 32, 0x00000000, 7⟩
def SH_WAIT_RIDGE_VALUE (m : Nat) : Fld := ⟨0x01003050 + 0x10000 * m, 0, 32, 0x00000000, 7⟩
def SH_WAIT_SCRUB_VALUE (m : Nat) : Fld := ⟨0x01003054 + 0x10000 * m, 0, 32, 0x00000000, 7⟩
def SCRUB_OVERDUE_VALUE (m : Nat) : Fld := ⟨0x01003058 + 0x10000 * m, 0, 32, 0x00000000, 7⟩
def SHP_CTL_EN (m p : Nat) : Fld := ⟨0x01003100 + 0x10000 * m + 0x20 * p, 0, 1, 0, 11⟩
def SHP_CTL_MODE (m p : Nat) : Fld := ⟨0x01003100 + 0x10000 * m + 0x20 * p, 1, 2, 0, 11⟩
def SHP_BIND_QTILE (m p : Nat) : Fld := ⟨0x01003104 + 0x10000 * m + 0x20 * p, 0, 8, 0x00, 11⟩
def SHP_BIND_QDIR (m p : Nat) : Fld := ⟨0x01003104 + 0x10000 * m + 0x20 * p, 8, 2, 0, 11⟩
def SHP_BIND_QTRK (m p : Nat) : Fld := ⟨0x01003104 + 0x10000 * m + 0x20 * p, 10, 2, 0, 11⟩
def SHP_BIND_QEN (m p : Nat) : Fld := ⟨0x01003104 + 0x10000 * m + 0x20 * p, 12, 1, 0, 11⟩
def SHP_BIND_DTILE (m p : Nat) : Fld := ⟨0x01003108 + 0x10000 * m + 0x20 * p, 0, 8, 0x00, 11⟩
def SHP_BIND_DDIR (m p : Nat) : Fld := ⟨0x01003108 + 0x10000 * m + 0x20 * p, 8, 2, 0, 11⟩
def SHP_BIND_DTRK (m p : Nat) : Fld := ⟨0x01003108 + 0x10000 * m + 0x20 * p, 10, 2, 0, 11⟩
def SHP_BIND_DEN (m p : Nat) : Fld := ⟨0x01003108 + 0x10000 * m + 0x20 * p, 12, 1, 0, 11⟩
def SHP_BIND_RTILE (m p : Nat) : Fld := ⟨0x0100310C + 0x10000 * m + 0x20 * p, 0, 8, 0x00, 11⟩
def SHP_BIND_RDIR (m p : Nat) : Fld := ⟨0x0100310C + 0x10000 * m + 0x20 * p, 8, 2, 0, 11⟩
def SHP_BIND_RTRK (m p : Nat) : Fld := ⟨0x0100310C + 0x10000 * m + 0x20 * p, 10, 2, 0, 11⟩
def SHP_BIND_REN (m p : Nat) : Fld := ⟨0x0100310C + 0x10000 * m + 0x20 * p, 12, 1, 0, 11⟩
def SHP_BASE_WORD (m p : Nat) : Fld := ⟨0x01003110 + 0x10000 * m + 0x20 * p, 0, 18, 0x00000, 11⟩
def SHP_STAT_OUTST (m p : Nat) : Fld := ⟨0x01003114 + 0x10000 * m + 0x20 * p, 0, 4, 0x0, 31⟩
def SHP_STAT_BIND_CONFLICT (m p : Nat) : Fld := ⟨0x01003114 + 0x10000 * m + 0x20 * p, 4, 1, 0, 31⟩
def SHP_CNT_VALUE (m p : Nat) : Fld := ⟨0x01003118 + 0x10000 * m + 0x20 * p, 0, 32, 0x00000000, 31⟩

/-! blockMem page (R191) -/
def BM_CFG_ASPECT (m k : Nat) : Fld := ⟨0x01004040 + 0x10000 * m + 0x4 * k, 0, 2, 0, 11⟩
def BM_USE_BITS (m : Nat) : Fld := ⟨0x010040A0 + 0x10000 * m, 0, 24, 0x000000, 11⟩
def BM_ACTA_BITS (m : Nat) : Fld := ⟨0x010040A4 + 0x10000 * m, 0, 24, 0x000000, 31⟩
def BM_ACTB_BITS (m : Nat) : Fld := ⟨0x010040A8 + 0x10000 * m, 0, 24, 0x000000, 31⟩
def BM_ACC_CTL_GO (m : Nat) : Fld := ⟨0x010040B0 + 0x10000 * m, 0, 1, 0, 0⟩
def BM_ACC_CTL_WRITE (m : Nat) : Fld := ⟨0x010040B0 + 0x10000 * m, 1, 1, 0, 31⟩
def BM_ACC_CTL_BUSY (m : Nat) : Fld := ⟨0x010040B0 + 0x10000 * m, 2, 1, 0, 31⟩
def BM_ACC_CTL_PORT (m : Nat) : Fld := ⟨0x010040B0 + 0x10000 * m, 3, 1, 0, 31⟩
def BM_ACC_ADDR_ADDR (m : Nat) : Fld := ⟨0x010040B4 + 0x10000 * m, 0, 13, 0x0000, 31⟩
def BM_ACC_ADDR_MEM (m : Nat) : Fld := ⟨0x010040B4 + 0x10000 * m, 16, 5, 0x00, 31⟩
def BM_ACC_DLO_VALUE (m : Nat) : Fld := ⟨0x010040B8 + 0x10000 * m, 0, 32, 0x00000000, 31⟩
def BM_ACC_DHI_VALUE (m : Nat) : Fld := ⟨0x010040BC + 0x10000 * m, 0, 32, 0x00000000, 31⟩
def BM_ACC_SB_EPM (m : Nat) : Fld := ⟨0x010040C0 + 0x10000 * m, 0, 3, 0, 31⟩
def BM_STAT_CFG_REFUSED (m : Nat) : Fld := ⟨0x010040C4 + 0x10000 * m, 0, 1, 0, 31⟩
def BM_STAT_ACC_REFUSED (m : Nat) : Fld := ⟨0x010040C4 + 0x10000 * m, 1, 1, 0, 31⟩
def BM_STAT_COLLIDE (m : Nat) : Fld := ⟨0x010040C4 + 0x10000 * m, 2, 1, 0, 31⟩
def BM_PARCNT_VALUE (m : Nat) : Fld := ⟨0x010040C8 + 0x10000 * m, 0, 32, 0x00000000, 31⟩
def BM_COLLCNT_VALUE (m : Nat) : Fld := ⟨0x010040CC + 0x10000 * m, 0, 32, 0x00000000, 31⟩

/-! hbmGlobal page (R192) -/
def HBM_CTL_EN : Fld := ⟨0x03020040, 0, 1, 0, 3⟩
def HBM_MAP_MODE : Fld := ⟨0x03020044, 0, 1, 0, 3⟩
def HBM_STAT_READY0 : Fld := ⟨0x03020048, 0, 1, 0, 3⟩
def HBM_STAT_READY1 : Fld := ⟨0x03020048, 1, 1, 0, 3⟩
def HBM_STAT_CFG_REFUSED : Fld := ⟨0x03020048, 2, 1, 0, 7⟩
/-- The class of router 8·j + i in HBM_CLASSMAP(j); the bit above it is reserved. -/
def HBM_CLASSMAP_CLASS (i j : Nat) : Fld := ⟨0x03020080 + 0x4 * j, 4 * i, 3, 0, 3⟩

/-! hbmChannel page (R192, R214) -/
def HBM_SHARE_OUTST (c k : Nat) : Fld := ⟨0x03000040 + 0x1000 * c + 0x4 * k, 0, 7, 0x08, 3⟩
def HBM_SHARE_WEIGHT (c k : Nat) : Fld := ⟨0x03000040 + 0x1000 * c + 0x4 * k, 8, 4, 0x1, 3⟩
def HBM_CLSTAT_ADMITTED (c k : Nat) : Fld := ⟨0x03000060 + 0x1000 * c + 0x4 * k, 0, 7, 0x00, 7⟩
def HBM_CLSTAT_OVER_QUOTA (c k : Nat) : Fld := ⟨0x03000060 + 0x1000 * c + 0x4 * k, 8, 1, 0, 7⟩
def HBM_CH_STAT_OCC (c : Nat) : Fld := ⟨0x03000080 + 0x1000 * c, 0, 7, 0x00, 7⟩
def HBM_CH_STAT_SELFREF (c : Nat) : Fld := ⟨0x03000080 + 0x1000 * c, 8, 1, 0, 3⟩
def HBM_RDCNT_VALUE (c : Nat) : Fld := ⟨0x03000084 + 0x1000 * c, 0, 32, 0x00000000, 7⟩
def HBM_WRCNT_VALUE (c : Nat) : Fld := ⟨0x03000088 + 0x1000 * c, 0, 32, 0x00000000, 7⟩
def HBM_RMWCNT_VALUE (c : Nat) : Fld := ⟨0x0300008C + 0x1000 * c, 0, 32, 0x00000000, 7⟩
def HSCRUB_CTL_EN (c : Nat) : Fld := ⟨0x030000C0 + 0x1000 * c, 0, 1, 0, 3⟩
def HSCRUB_CTL_INIT (c : Nat) : Fld := ⟨0x030000C0 + 0x1000 * c, 1, 1, 0, 3⟩
def HSCRUB_INT_NS (c : Nat) : Fld := ⟨0x030000C4 + 0x1000 * c, 0, 24, 0x000400, 3⟩
def HSCRUB_PTR_BLOCK (c : Nat) : Fld := ⟨0x030000C8 + 0x1000 * c, 0, 24, 0x000000, 3⟩
def HBM_CECNT_VALUE (c : Nat) : Fld := ⟨0x030000CC + 0x1000 * c, 0, 32, 0x00000000, 3⟩
def HBM_POISONRD_VALUE (c : Nat) : Fld := ⟨0x030000D0 + 0x1000 * c, 0, 32, 0x00000000, 3⟩
def HBM_ODECNT_CORR (c : Nat) : Fld := ⟨0x030000D4 + 0x1000 * c, 0, 16, 0x0000, 3⟩
def HBM_ODECNT_UNCORR (c : Nat) : Fld := ⟨0x030000D4 + 0x1000 * c, 16, 16, 0x0000, 3⟩
def HSCRUB_OVERDUE_VALUE (c : Nat) : Fld := ⟨0x030000D8 + 0x1000 * c, 0, 32, 0x00000000, 3⟩

/-! shelfInt page (R213) -/
def SCRUB_CTL_EN (m : Nat) : Fld := ⟨0x01005040 + 0x10000 * m, 0, 1, 1, 3⟩
def SCRUB_INT_CYCLES (m : Nat) : Fld := ⟨0x01005044 + 0x10000 * m, 0, 24, 0x000400, 3⟩
def SCRUB_PTR_WORD (m : Nat) : Fld := ⟨0x01005048 + 0x10000 * m, 0, 18, 0x00000, 3⟩
def SCRUB_PASSCNT_VALUE (m : Nat) : Fld := ⟨0x0100504C + 0x10000 * m, 0, 32, 0x00000000, 3⟩
def SH_CECNT_VALUE (m : Nat) : Fld := ⟨0x01005050 + 0x10000 * m, 0, 32, 0x00000000, 3⟩
def SH_POISONRD_VALUE (m : Nat) : Fld := ⟨0x01005054 + 0x10000 * m, 0, 32, 0x00000000, 3⟩
def SCRUB_POISON_VALUE (m : Nat) : Fld := ⟨0x01005058 + 0x10000 * m, 0, 32, 0x00000000, 3⟩
def SH_CELOG_WORD (m : Nat) : Fld := ⟨0x0100505C + 0x10000 * m, 0, 18, 0x00000, 3⟩
def SH_CELOG_SYND (m : Nat) : Fld := ⟨0x0100505C + 0x10000 * m, 18, 7, 0x00, 3⟩
def SH_CELOG_REQ (m : Nat) : Fld := ⟨0x0100505C + 0x10000 * m, 25, 3, 0, 3⟩
def SH_CELOG_OVERFLOW (m : Nat) : Fld := ⟨0x0100505C + 0x10000 * m, 30, 1, 0, 3⟩
def SH_CELOG_VALID (m : Nat) : Fld := ⟨0x0100505C + 0x10000 * m, 31, 1, 0, 3⟩

/-! integrity page (R215) -/
def REPAIR_CTL_AUTO : Fld := ⟨0x00005040, 0, 1, 1, 3⟩
def REPAIR_CTL_THRESH : Fld := ⟨0x00005040, 8, 8, 0x10, 3⟩
def REPAIR_STAT_USED : Fld := ⟨0x00005044, 0, 9, 0, 3⟩
def REPAIR_STAT_PENDING : Fld := ⟨0x00005044, 16, 1, 0, 3⟩
def REPAIR_STAT_MAP_FULL : Fld := ⟨0x00005044, 17, 1, 0, 3⟩
def REPAIR_STAT_NO_SPARE : Fld := ⟨0x00005044, 18, 1, 0, 3⟩
def REPAIR_STAT_SKIPPED : Fld := ⟨0x00005044, 24, 8, 0x00, 3⟩
def REPAIR_LAST_ENTRY : Fld := ⟨0x00005048, 0, 32, 0x00000000, 3⟩
def REPAIR_MAP_ENTRY (i : Nat) : Fld := ⟨0x00005100 + 0x4 * i, 0, 32, 0, 3⟩
def SPARE_FREE_LO_BITS (m : Nat) : Fld := ⟨0x00005500 + 0x8 * m, 0, 32, 0x44444444, 3⟩
def SPARE_FREE_HI_BITS (m : Nat) : Fld := ⟨0x00005504 + 0x8 * m, 0, 32, 0x44444444, 3⟩

/-! ridgeGlobal page (R241) -/
def RT_ORDER_SH_MODE : Fld := ⟨0x00200040, 0, 8, 0x00, 3⟩
def RT_ORDER_MODE : Fld := ⟨0x00200044, 0, 8, 0x00, 3⟩
def RT_ACT_VNMASK : Fld := ⟨0x00200048, 0, 4, 0x0, 0⟩
def RT_ACT_GO : Fld := ⟨0x00200048, 8, 1, 0, 0⟩
def RT_ACTSTAT_BUSY : Fld := ⟨0x0020004C, 0, 1, 0, 7⟩
def RT_ACTSTAT_DONE : Fld := ⟨0x0020004C, 1, 1, 0, 7⟩
def RT_ACTSTAT_ABORT : Fld := ⟨0x0020004C, 2, 1, 0, 7⟩
def RT_ACTSTAT_BAD : Fld := ⟨0x0020004C, 3, 1, 0, 7⟩
def RT_ACTSTAT_WR_REFUSED : Fld := ⟨0x0020004C, 4, 1, 0, 7⟩
def RT_ACTSTAT_BADROUTER : Fld := ⟨0x0020004C, 5, 7, 0x00, 7⟩
def RT_ACTSTAT_BADVN : Fld := ⟨0x0020004C, 12, 2, 0, 7⟩
def RT_ACTSTAT_BADDEST : Fld := ⟨0x0020004C, 14, 7, 0x00, 7⟩
def RT_DRAIN_LIM_CYCLES : Fld := ⟨0x00200050, 0, 32, 0x00100000, 3⟩
def RT_STALL_LIM_CYCLES : Fld := ⟨0x00200054, 0, 32, 0x00010000, 3⟩
def RQ_TIMEOUT_CYCLES : Fld := ⟨0x00200058, 0, 32, 0x00400000, 3⟩
def RIDGE_STAT_SUMMIT_NONCONF : Fld := ⟨0x0020005C, 0, 1, 0, 7⟩
def RIDGE_STAT_STALL : Fld := ⟨0x0020005C, 1, 1, 0, 7⟩

/-! router page (R242) -/
def RG_CFG_PERIOD (n v : Nat) : Fld := ⟨0x00201040 + 0x1000 * n + 0x8 * v, 0, 16, (if v = 0 then 0x10 else 0), 3⟩
def RG_CFG_BURST (n v : Nat) : Fld := ⟨0x00201040 + 0x1000 * n + 0x8 * v, 16, 4, (if v = 0 then 2 else 4), 3⟩
def RG_STAT_TOKENS (n v : Nat) : Fld := ⟨0x00201044 + 0x1000 * n + 0x8 * v, 0, 4, (if v = 0 then 2 else 4), 7⟩
def RG_STAT_OVER_QUOTA (n v : Nat) : Fld := ⟨0x00201044 + 0x1000 * n + 0x8 * v, 8, 1, 0, 7⟩
def RG_STAT_NONCONF (n v : Nat) : Fld := ⟨0x00201044 + 0x1000 * n + 0x8 * v, 9, 1, 0, 7⟩
def NI_OUTST_LIMIT (n : Nat) : Fld := ⟨0x00201068 + 0x1000 * n, 0, 7, 0x10, 3⟩
def NI_STAT_OUTST (n : Nat) : Fld := ⟨0x0020106C + 0x1000 * n, 0, 7, 0x00, 7⟩
def NI_STAT_OVER_QUOTA (n : Nat) : Fld := ⟨0x0020106C + 0x1000 * n, 8, 1, 0, 7⟩
def RT_CECNT_VALUE (n : Nat) : Fld := ⟨0x00201070 + 0x1000 * n, 0, 32, 0x00000000, 7⟩
def RT_UECNT_VALUE (n : Nat) : Fld := ⟨0x00201074 + 0x1000 * n, 0, 32, 0x00000000, 7⟩
def RT_DISCARD_VALUE (n : Nat) : Fld := ⟨0x00201078 + 0x1000 * n, 0, 32, 0x00000000, 7⟩
def RT_TIMEOUTCNT_VALUE (n : Nat) : Fld := ⟨0x0020107C + 0x1000 * n, 0, 32, 0x00000000, 7⟩
def RT_LATERESP_VALUE (n : Nat) : Fld := ⟨0x00201080 + 0x1000 * n, 0, 32, 0x00000000, 7⟩
def RT_STALLSTAT_VN (n : Nat) : Fld := ⟨0x00201084 + 0x1000 * n, 0, 5, 0x00, 7⟩
def RT_SHADOW1_ENTRIES (n j : Nat) : Fld := ⟨0x00201100 + 0x1000 * n + 0x4 * j, 0, 32, xyRouteWord n j, 3⟩
def RT_SHADOW2_ENTRIES (n j : Nat) : Fld := ⟨0x00201140 + 0x1000 * n + 0x4 * j, 0, 32, xyRouteWord n j, 3⟩
def RT_SHADOW3_ENTRIES (n j : Nat) : Fld := ⟨0x00201180 + 0x1000 * n + 0x4 * j, 0, 32, xyRouteWord n j, 3⟩
def RT_SHADOW4_ENTRIES (n j : Nat) : Fld := ⟨0x002011C0 + 0x1000 * n + 0x4 * j, 0, 32, xyRouteWord n j, 3⟩
def RT_ACTIVE1_ENTRIES (n j : Nat) : Fld := ⟨0x00201200 + 0x1000 * n + 0x4 * j, 0, 32, xyRouteWord n j, 3⟩
def RT_ACTIVE2_ENTRIES (n j : Nat) : Fld := ⟨0x00201240 + 0x1000 * n + 0x4 * j, 0, 32, xyRouteWord n j, 3⟩
def RT_ACTIVE3_ENTRIES (n j : Nat) : Fld := ⟨0x00201280 + 0x1000 * n + 0x4 * j, 0, 32, xyRouteWord n j, 3⟩
def RT_ACTIVE4_ENTRIES (n j : Nat) : Fld := ⟨0x002012C0 + 0x1000 * n + 0x4 * j, 0, 32, xyRouteWord n j, 3⟩

/-! tempoGlobal page (R275) -/
def TMP_ID_ID : Fld := ⟨0x00104040, 0, 14, 0, 3⟩
def TMP_CFG_ROOTPRI : Fld := ⟨0x00104044, 0, 4, 0xF, 3⟩
def TMP_CFG_EN : Fld := ⟨0x00104044, 4, 1, 0, 3⟩
def TMP_CFG_PTPDISC : Fld := ⟨0x00104044, 5, 1, 0, 3⟩
def TMP_CFG_PTPCL : Fld := ⟨0x00104044, 6, 3, 0, 3⟩
def TMP_LEAD_NS : Fld := ⟨0x00104048, 0, 20, 0x04E20, 3⟩
def TMP_STEPLIM_NS : Fld := ⟨0x0010404C, 0, 20, 0x003E8, 3⟩
def TMP_STAT_STATE : Fld := ⟨0x00104050, 0, 3, 0, 3⟩
def TMP_STAT_DEPTH : Fld := ⟨0x00104050, 3, 3, 0, 3⟩
def TMP_STAT_UPPORT : Fld := ⟨0x00104050, 6, 2, 0, 3⟩
def TMP_STAT_UPVALID : Fld := ⟨0x00104050, 8, 1, 0, 3⟩
def TMP_STAT_DUPID : Fld := ⟨0x00104050, 9, 1, 0, 3⟩
def TMP_STAT_TOO_DEEP : Fld := ⟨0x00104050, 10, 1, 0, 3⟩
def TMP_STAT_STEPPED : Fld := ⟨0x00104050, 11, 1, 0, 3⟩
def TMP_STAT_LATE_SAMPLE : Fld := ⟨0x00104050, 12, 1, 0, 3⟩
def TMP_STAT_TB_AHEAD : Fld := ⟨0x00104050, 13, 1, 0, 3⟩
def TMP_STAT_REROOT : Fld := ⟨0x00104050, 14, 1, 0, 3⟩
def TMP_STAT_NOPOS : Fld := ⟨0x00104050, 15, 1, 0, 3⟩
def TMP_ROOT_ROOTID : Fld := ⟨0x00104054, 0, 14, 0x0000, 3⟩
def TMP_ROOT_ROOTPRI : Fld := ⟨0x00104054, 16, 4, 0xF, 3⟩
def TMP_OFFSET_VALUE : Fld := ⟨0x00104058, 0, 32, 0x00000000, 3⟩
def TMP_LATECNT_VALUE : Fld := ⟨0x0010405C, 0, 32, 0x00000000, 3⟩

/-! tempoPort page (R276) -/
def TP_CTL_EN (p : Nat) : Fld := ⟨0x00105040 + 0x1000 * p, 0, 1, 0, 3⟩
def TP_CTL_MODE (p : Nat) : Fld := ⟨0x00105040 + 0x1000 * p, 1, 1, 0, 3⟩
def TP_CTL_V1ROLE (p : Nat) : Fld := ⟨0x00105040 + 0x1000 * p, 2, 1, 0, 3⟩
def TP_CTL_FEED (p : Nat) : Fld := ⟨0x00105040 + 0x1000 * p, 3, 1, 0, 3⟩
def TP_CTL_TAP (p : Nat) : Fld := ⟨0x00105040 + 0x1000 * p, 4, 1, 0, 3⟩
def TP_STAT_LINK (p : Nat) : Fld := ⟨0x00105044 + 0x1000 * p, 0, 1, 0, 3⟩
def TP_STAT_ROLE (p : Nat) : Fld := ⟨0x00105044 + 0x1000 * p, 1, 2, 0, 3⟩
def TP_STAT_LOSS (p : Nat) : Fld := ⟨0x00105044 + 0x1000 * p, 3, 1, 0, 3⟩
def TP_STAT_ONEWAY (p : Nat) : Fld := ⟨0x00105044 + 0x1000 * p, 4, 1, 0, 3⟩
def TP_NBR_ID (p : Nat) : Fld := ⟨0x00105048 + 0x1000 * p, 0, 14, 0x0000, 3⟩
def TP_NBR_DEPTH (p : Nat) : Fld := ⟨0x00105048 + 0x1000 * p, 16, 3, 0, 3⟩
def TP_DELAY_VALUE (p : Nat) : Fld := ⟨0x0010504C + 0x1000 * p, 0, 32, 0x00000000, 3⟩
def TP_ASYM_VALUE (p : Nat) : Fld := ⟨0x00105050 + 0x1000 * p, 0, 16, 0x0000, 3⟩
def TP_CRCERR_VALUE (p : Nat) : Fld := ⟨0x00105054 + 0x1000 * p, 0, 32, 0x00000000, 3⟩
def TP_CODEERR_VALUE (p : Nat) : Fld := ⟨0x00105058 + 0x1000 * p, 0, 32, 0x00000000, 3⟩
def TP_TAPDLY_VALUE (p : Nat) : Fld := ⟨0x0010505C + 0x1000 * p, 0, 32, 0x00000000, 3⟩

/-! tempoMap page (R277) -/
def TMP_PUB_EN (c : Nat) : Fld := ⟨0x00109040 + 0x4 * c, 0, 1, 0, 3⟩
def TMP_PUB_ENC (c : Nat) : Fld := ⟨0x00109040 + 0x4 * c, 1, 4, 0x0, 3⟩
def TMP_PUB_INT (c : Nat) : Fld := ⟨0x00109040 + 0x4 * c, 8, 8, 0x0A, 3⟩
def TMP_FOLLOW_EN (n : Nat) : Fld := ⟨0x00109080 + 0x4 * n, 0, 1, 0, 3⟩
def TMP_FOLLOW_TPC (n : Nat) : Fld := ⟨0x00109080 + 0x4 * n, 1, 4, 0x0, 3⟩
def TMP_FOLLOW_STALE (n : Nat) : Fld := ⟨0x00109080 + 0x4 * n, 8, 1, 0, 3⟩
def TMP_SMAP_CH (j : Nat) : Fld := ⟨0x001090C0 + 0x4 * j, 0, 6, 0x00, 3⟩
def TMP_SMAP_EN (j : Nat) : Fld := ⟨0x001090C0 + 0x4 * j, 8, 1, 0, 3⟩
def TMP_SMAP_PUB (j : Nat) : Fld := ⟨0x001090C0 + 0x4 * j, 9, 1, 0, 3⟩
def TMP_BMAP_EN (k : Nat) : Fld := ⟨0x00109100 + 0x4 * k, 0, 1, 0, 3⟩
def TMP_BMAP_ORIGIN (k : Nat) : Fld := ⟨0x00109100 + 0x4 * k, 1, 14, 0x0000, 3⟩
def TMP_BMAP_SRCCH (k : Nat) : Fld := ⟨0x00109100 + 0x4 * k, 15, 6, 0x00, 3⟩
def TMP_BMAP_LOCALCH (k : Nat) : Fld := ⟨0x00109100 + 0x4 * k, 21, 6, 0x00, 3⟩
def TMP_BMAP_GAP (k : Nat) : Fld := ⟨0x00109100 + 0x4 * k, 27, 1, 0, 3⟩

/-! pair page (R300) -/
def PAIR_CFG_EN : Fld := ⟨0x00308040, 0, 1, 0, 3⟩
def PAIR_CFG_ROLE_PREF : Fld := ⟨0x00308040, 1, 1, 0, 3⟩
def PAIR_CFG_ARB : Fld := ⟨0x00308040, 2, 2, 0, 3⟩
def PAIR_CFG_CMP : Fld := ⟨0x00308040, 4, 1, 0, 3⟩
def PAIR_CFG_TAKE_UNREADY : Fld := ⟨0x00308040, 5, 1, 1, 3⟩
def PAIR_CFG_PAIRID : Fld := ⟨0x00308040, 16, 10, 0, 3⟩
def PAIR_EPOCH_CH : Fld := ⟨0x00308044, 0, 6, 0x00, 3⟩
def PAIR_HB_PERIOD : Fld := ⟨0x00308048, 0, 16, 0x07D0, 3⟩
def PAIR_HB_LOSS : Fld := ⟨0x00308048, 16, 16, 0x0014, 3⟩
def PAIR_ARBTO_US : Fld := ⟨0x0030804C, 0, 16, 0x0064, 3⟩
def PAIR_HELLOTO_MS : Fld := ⟨0x00308050, 0, 16, 0x000A, 3⟩
def PAIR_LISTEN_LG : Fld := ⟨0x00308054, 0, 32, 0x7FFCFFFC, 3⟩
def PAIR_MBUF_LO_ADDR : Fld := ⟨0x00308058, 6, 26, 0x0000000, 3⟩
def PAIR_MBUF_HI_ADDR : Fld := ⟨0x0030805C, 0, 3, 0, 3⟩
def PAIR_MBUF_SZ_MIB : Fld := ⟨0x00308060, 0, 16, 0x0040, 3⟩
def PAIR_HOLD_LO_ADDR : Fld := ⟨0x00308064, 6, 26, 0x0000000, 3⟩
def PAIR_HOLD_HI_ADDR : Fld := ⟨0x00308068, 0, 3, 0, 3⟩
def PAIR_HOLD_SZ_MIB : Fld := ⟨0x0030806C, 0, 16, 0x0010, 3⟩
def PAIR_CMP_LAG : Fld := ⟨0x00308070, 0, 32, 0x00000000, 3⟩
def PAIR_CMP_ACT : Fld := ⟨0x00308074, 0, 1, 0, 3⟩
def PAIR_CMD_SWAP : Fld := ⟨0x00308078, 0, 1, 0, 0⟩
def PAIR_CMD_TAKEOVER : Fld := ⟨0x00308078, 1, 1, 0, 0⟩
def PAIR_CMD_STEPDOWN : Fld := ⟨0x00308078, 2, 1, 0, 0⟩
def PAIR_CMD_RESYNC : Fld := ⟨0x00308078, 3, 1, 0, 0⟩
def PAIR_STAT_STATE : Fld := ⟨0x00308080, 0, 3, 0, 7⟩
def PAIR_STAT_PARTNER_READY : Fld := ⟨0x00308080, 3, 1, 0, 7⟩
def PAIR_STAT_LINK : Fld := ⟨0x00308080, 4, 1, 0, 7⟩
def PAIR_STAT_HBLOSS : Fld := ⟨0x00308080, 8, 1, 0, 7⟩
def PAIR_STAT_SPLIT : Fld := ⟨0x00308080, 9, 1, 0, 7⟩
def PAIR_STAT_ARB_TIMEOUT : Fld := ⟨0x00308080, 10, 1, 0, 7⟩
def PAIR_STAT_DIVERGE : Fld := ⟨0x00308080, 11, 1, 0, 7⟩
def PAIR_STAT_MIRROR_OVF : Fld := ⟨0x00308080, 12, 1, 0, 7⟩
def PAIR_STAT_HOLD_OVF : Fld := ⟨0x00308080, 13, 1, 0, 7⟩
def PAIR_STAT_QSKEW : Fld := ⟨0x00308080, 14, 1, 0, 7⟩
def PAIR_STAT_SEQSKEW : Fld := ⟨0x00308080, 15, 1, 0, 7⟩
def PAIR_STAT_IMG_MISMATCH : Fld := ⟨0x00308080, 16, 1, 0, 7⟩
def PAIR_STAT_EPOCH_SKEW : Fld := ⟨0x00308080, 17, 1, 0, 7⟩
def PAIR_STAT_CMD_REFUSED : Fld := ⟨0x00308080, 18, 1, 0, 7⟩
def PAIR_STAT_DEGRADED : Fld := ⟨0x00308080, 19, 1, 0, 7⟩
def PAIR_EPSTAT_EPOCH : Fld := ⟨0x00308084, 0, 32, 0x00000000, 7⟩
def PAIR_DLINE_LINE : Fld := ⟨0x00308088, 0, 32, 0x00000000, 7⟩
def PAIR_DIVLINE_LINE : Fld := ⟨0x0030808C, 0, 32, 0x00000000, 7⟩
def PAIR_DIVCNT_VALUE : Fld := ⟨0x00308090, 0, 32, 0x00000000, 7⟩
def PAIR_MOVFCNT_VALUE : Fld := ⟨0x00308094, 0, 32, 0x00000000, 7⟩
def PAIR_FOCNT_VALUE : Fld := ⟨0x00308098, 0, 32, 0x00000000, 3⟩
def PAIR_QSKIP_VALUE : Fld := ⟨0x0030809C, 0, 32, 0x00000000, 7⟩
def PAIR_CMPLATE_VALUE : Fld := ⟨0x003080A0, 0, 32, 0x00000000, 7⟩
def PAIR_SKEWM_MASSIF : Fld := ⟨0x003080A4, 0, 6, 0x00, 7⟩

/-! pairRegion page (R301) -/
def PAIR_REG_EN (r : Nat) : Fld := ⟨0x00309040 + 0x8 * r, 0, 1, 0, 3⟩
def PAIR_REG_MASSIF (r : Nat) : Fld := ⟨0x00309040 + 0x8 * r, 1, 6, 0x00, 3⟩
def PAIR_REG_BASE (r : Nat) : Fld := ⟨0x00309040 + 0x8 * r, 16, 14, 0x0000, 3⟩
def PAIR_REG_LEN (r : Nat) : Fld := ⟨0x00309044 + 0x8 * r, 0, 15, 0x0000, 3⟩
def PAIR_QMASK_BITS (m : Nat) : Fld := ⟨0x00309240 + 0x4 * m, 0, 32, 0x00000000, 3⟩

/-! checkpoint page (R302) -/
def CKPT_SRC_LO_ADDR (s : Nat) : Fld := ⟨0x0030A040 + 0x10 * s, 0, 32, 0x00000000, 3⟩
def CKPT_SRC_HI_ADDR (s : Nat) : Fld := ⟨0x0030A044 + 0x10 * s, 0, 3, 0, 3⟩
def CKPT_LEN_BYTES (s : Nat) : Fld := ⟨0x0030A048 + 0x10 * s, 0, 13, 0x0000, 3⟩
def CKPT_CTL_POST (s : Nat) : Fld := ⟨0x0030A04C + 0x10 * s, 0, 1, 0, 0⟩
def CKPT_CTL_DONE (s : Nat) : Fld := ⟨0x0030A04C + 0x10 * s, 1, 1, 0, 7⟩
def CKPT_CTL_BUSY (s : Nat) : Fld := ⟨0x0030A04C + 0x10 * s, 2, 1, 0, 7⟩
def CKPT_CTL_REFUSED (s : Nat) : Fld := ⟨0x0030A04C + 0x10 * s, 3, 1, 0, 7⟩
def CKPT_CTL_RCVD (s : Nat) : Fld := ⟨0x0030A04C + 0x10 * s, 4, 1, 0, 7⟩

/-! caller page (R330) -/
def CL_CTL_RUN (m : Nat) : Fld := ⟨0x01006040 + 0x10000 * m, 0, 1, 0, 63⟩
def CL_CTL_HALTREQ (m : Nat) : Fld := ⟨0x01006040 + 0x10000 * m, 1, 1, 0, 0⟩
def CL_CTL_STEP (m : Nat) : Fld := ⟨0x01006040 + 0x10000 * m, 2, 1, 0, 0⟩
def CL_CTL_RESUME (m : Nat) : Fld := ⟨0x01006040 + 0x10000 * m, 3, 1, 0, 0⟩
def CL_STAT_RUNNING (m : Nat) : Fld := ⟨0x01006044 + 0x10000 * m, 0, 1, 0, 63⟩
def CL_STAT_HALTED (m : Nat) : Fld := ⟨0x01006044 + 0x10000 * m, 1, 1, 0, 63⟩
def CL_STAT_HELD (m : Nat) : Fld := ⟨0x01006044 + 0x10000 * m, 2, 1, 0, 63⟩
def CL_HALT_CODE (m : Nat) : Fld := ⟨0x01006048 + 0x10000 * m, 0, 3, 0, 63⟩
def CL_PC_VALUE (m : Nat) : Fld := ⟨0x0100604C + 0x10000 * m, 0, 32, 0x00000000, 63⟩
def DBG_SEL_REG (m : Nat) : Fld := ⟨0x01006050 + 0x10000 * m, 0, 8, 0x00, 63⟩
def DBG_SEL_CIDX (m : Nat) : Fld := ⟨0x01006050 + 0x10000 * m, 8, 12, 0x000, 63⟩
def DBG_DATA_VALUE (m : Nat) : Fld := ⟨0x01006054 + 0x10000 * m, 0, 32, 0x00000000, 63⟩
def CL_DOORBELL_BITS (m : Nat) : Fld := ⟨0x01006058 + 0x10000 * m, 0, 32, 0x00000000, 63⟩
def CL_DOORBELL_P (m : Nat) : Fld := ⟨0x0100605C + 0x10000 * m, 0, 1, 0, 63⟩
def CL_WAKE_ADDR (m : Nat) : Fld := ⟨0x01006060 + 0x10000 * m, 0, 20, 0x00000, 11⟩
def CL_WAKE_LEN (m : Nat) : Fld := ⟨0x01006064 + 0x10000 * m, 0, 17, 0x00000, 11⟩
def SUM_HDR_DST (m : Nat) : Fld := ⟨0x01006068 + 0x10000 * m, 0, 7, 0x00, 63⟩
def SUM_HDR_DPORT (m : Nat) : Fld := ⟨0x01006068 + 0x10000 * m, 7, 3, 0, 63⟩
def SUM_HDR_TYPE (m : Nat) : Fld := ⟨0x01006068 + 0x10000 * m, 10, 1, 0, 63⟩
def SUM_HDR_SIZE (m : Nat) : Fld := ⟨0x01006068 + 0x10000 * m, 11, 4, 0x0, 63⟩
def SUM_HDR_GO (m : Nat) : Fld := ⟨0x01006068 + 0x10000 * m, 16, 1, 0, 0⟩
def SUM_ADDR_ADDR (m : Nat) : Fld := ⟨0x0100606C + 0x10000 * m, 0, 20, 0x00000, 63⟩
def SUM_STAT_BUSY (m : Nat) : Fld := ⟨0x01006070 + 0x10000 * m, 0, 1, 0, 63⟩
def SUM_STAT_REFUSED (m : Nat) : Fld := ⟨0x01006070 + 0x10000 * m, 1, 1, 0, 63⟩
def TDBG_SEL_TILE (m : Nat) : Fld := ⟨0x01006074 + 0x10000 * m, 0, 8, 0x00, 31⟩
def TDBG_SEL_ITEM (m : Nat) : Fld := ⟨0x01006074 + 0x10000 * m, 8, 4, 0x0, 31⟩
def TDBG_DATA_VALUE (m : Nat) : Fld := ⟨0x01006078 + 0x10000 * m, 0, 32, 0x00000000, 31⟩
def TDBG_P_P (m : Nat) : Fld := ⟨0x0100607C + 0x10000 * m, 0, 1, 0, 31⟩
def TDBG_STAT_REFUSED (m : Nat) : Fld := ⟨0x0100607C + 0x10000 * m, 8, 1, 0, 31⟩
def TDBG_STAT_LOST (m : Nat) : Fld := ⟨0x0100607C + 0x10000 * m, 9, 1, 0, 31⟩
def STUB_SEL_CH (m : Nat) : Fld := ⟨0x01006080 + 0x10000 * m, 0, 6, 0x00, 3⟩
def STUB_REC_BITS (m i : Nat) : Fld := ⟨0x01006084 + 0x10000 * m + 0x4 * i, 0, 32, 0x00000000, 3⟩
def SUM_W_VALUE (m j : Nat) : Fld := ⟨0x01006100 + 0x10000 * m + 0x4 * j, 0, 32, 0x00000000, 63⟩
def STUB_SEQ_SEQ (m j : Nat) : Fld := ⟨0x01006400 + 0x10000 * m + 0x4 * j, 0, 32, 0x00000000, 3⟩

/-! lead page (R331) -/
def LEAD_CTL_HALTREQ (i : Nat) : Fld := ⟨0x00300040 + 0x1000 * i, 0, 1, 0, 0⟩
def LEAD_CTL_STEP (i : Nat) : Fld := ⟨0x00300040 + 0x1000 * i, 1, 1, 0, 0⟩
def LEAD_CTL_RESUME (i : Nat) : Fld := ⟨0x00300040 + 0x1000 * i, 2, 1, 0, 0⟩
def LEAD_CTL_RESTART (i : Nat) : Fld := ⟨0x00300040 + 0x1000 * i, 3, 1, 0, 0⟩
def LEAD_STAT_RUNNING (i : Nat) : Fld := ⟨0x00300044 + 0x1000 * i, 0, 1, 0, 7⟩
def LEAD_STAT_HALTED (i : Nat) : Fld := ⟨0x00300044 + 0x1000 * i, 1, 1, 0, 7⟩
def LEAD_HALT_CODE (i : Nat) : Fld := ⟨0x00300048 + 0x1000 * i, 0, 3, 0, 7⟩
def LEAD_PC_VALUE (i : Nat) : Fld := ⟨0x0030004C + 0x1000 * i, 0, 32, 0x00000000, 7⟩
def LEAD_BOOT_PC (i : Nat) : Fld := ⟨0x00300050 + 0x1000 * i, 0, 32, 0x00000000, 3⟩
def LEAD_BOOT_HBM (i : Nat) : Fld := ⟨0x00300054 + 0x1000 * i, 0, 7, 0x00, 3⟩
def LEAD_DBG_SEL_REG (i : Nat) : Fld := ⟨0x00300058 + 0x1000 * i, 0, 8, 0x00, 7⟩
def LEAD_DBG_SEL_CIDX (i : Nat) : Fld := ⟨0x00300058 + 0x1000 * i, 8, 12, 0x000, 7⟩
def LEAD_DBG_DATA_VALUE (i : Nat) : Fld := ⟨0x0030005C + 0x1000 * i, 0, 32, 0x00000000, 7⟩
def LEAD_DOORBELL_BITS (i : Nat) : Fld := ⟨0x00300060 + 0x1000 * i, 0, 32, 0x00000000, 7⟩
def LEAD_DOORBELL_P (i : Nat) : Fld := ⟨0x00300064 + 0x1000 * i, 0, 1, 0, 7⟩
def LEAD_SUM_HDR_DST (i : Nat) : Fld := ⟨0x00300068 + 0x1000 * i, 0, 7, 0, 7⟩
def LEAD_SUM_HDR_DPORT (i : Nat) : Fld := ⟨0x00300068 + 0x1000 * i, 7, 3, 0, 7⟩
def LEAD_SUM_HDR_TYPE (i : Nat) : Fld := ⟨0x00300068 + 0x1000 * i, 10, 1, 0, 7⟩
def LEAD_SUM_HDR_SIZE (i : Nat) : Fld := ⟨0x00300068 + 0x1000 * i, 11, 4, 0, 7⟩
def LEAD_SUM_HDR_GO (i : Nat) : Fld := ⟨0x00300068 + 0x1000 * i, 16, 1, 0, 0⟩
def LEAD_SUM_ADDR_ADDR (i : Nat) : Fld := ⟨0x0030006C + 0x1000 * i, 0, 20, 0, 7⟩
def LEAD_SUM_STAT_BUSY (i : Nat) : Fld := ⟨0x00300070 + 0x1000 * i, 0, 1, 0, 7⟩
def LEAD_SUM_STAT_REFUSED (i : Nat) : Fld := ⟨0x00300070 + 0x1000 * i, 1, 1, 0, 7⟩
def LEAD_SUM_W_VALUE (i j : Nat) : Fld := ⟨0x00300100 + 0x1000 * i + 0x4 * j, 0, 32, 0, 7⟩

/-! l2 page (R332) -/
def L2_CTL_EN : Fld := ⟨0x00304040, 0, 1, 0, 7⟩
def L2_CECNT_VALUE : Fld := ⟨0x00304044, 0, 32, 0x00000000, 7⟩
def L2_POISONRD_VALUE : Fld := ⟨0x00304048, 0, 32, 0x00000000, 7⟩

/-! distributor page (R333) -/
def DIST_CTL_EN : Fld := ⟨0x00006040, 0, 1, 0, 7⟩
def DIST_CTL_HALTVEC : Fld := ⟨0x00006040, 8, 8, 0x00, 7⟩
def DIST_LEVEL_BITS (j : Nat) : Fld := ⟨0x00006100 + 0x4 * j, 0, 32, 0x00000000, 7⟩
def DIST_ROUTE_ENTRIES (j : Nat) : Fld := ⟨0x00006400 + 0x4 * j, 0, 32, 0x00000000, 7⟩

/-! laneGroup page (R375) -/
def GRP_CTL_PROTO (g : Nat) : Fld := ⟨0x02000040 + 0x10000 * g, 0, 3, 0, 3⟩
def GRP_CTL_EN (g : Nat) : Fld := ⟨0x02000040 + 0x10000 * g, 3, 1, 0, 3⟩
def GRP_CTL_LP (g : Nat) : Fld := ⟨0x02000040 + 0x10000 * g, 4, 1, 0, 67⟩
def GRP_STAT_RINGLOCK (g : Nat) : Fld := ⟨0x02000044 + 0x10000 * g, 0, 1, 0, 67⟩
def GRP_STAT_LCLOCK (g : Nat) : Fld := ⟨0x02000044 + 0x10000 * g, 1, 1, 0, 67⟩
def GRP_STAT_CFG_REFUSED (g : Nat) : Fld := ⟨0x02000044 + 0x10000 * g, 2, 1, 0, 71⟩
def GRP_STAT_WOKEN (g : Nat) : Fld := ⟨0x02000044 + 0x10000 * g, 3, 1, 0, 71⟩
def GRP_STAT_SIGDET (g : Nat) : Fld := ⟨0x02000044 + 0x10000 * g, 8, 8, 0x00, 67⟩
def GRP_STAT_READY (g : Nat) : Fld := ⟨0x02000044 + 0x10000 * g, 16, 8, 0x00, 67⟩
def LN_CTL_ADAPT (g f : Nat) : Fld := ⟨0x02000100 + 0x10000 * g + 0x20 * f, 0, 1, 1, 3⟩
def LN_CTL_RXINV (g f : Nat) : Fld := ⟨0x02000100 + 0x10000 * g + 0x20 * f, 1, 1, 0, 3⟩
def LN_CTL_TXINV (g f : Nat) : Fld := ⟨0x02000100 + 0x10000 * g + 0x20 * f, 2, 1, 0, 3⟩
def LN_TXFIR_PRE (g f : Nat) : Fld := ⟨0x02000104 + 0x10000 * g + 0x20 * f, 0, 4, 0x0, 3⟩
def LN_TXFIR_POST (g f : Nat) : Fld := ⟨0x02000104 + 0x10000 * g + 0x20 * f, 8, 5, 0x00, 3⟩
def LN_TXFIR_MAIN (g f : Nat) : Fld := ⟨0x02000104 + 0x10000 * g + 0x20 * f, 16, 6, 0x3F, 3⟩
def LN_EQ_CTLE (g f : Nat) : Fld := ⟨0x02000108 + 0x10000 * g + 0x20 * f, 0, 5, 0x00, 67⟩
def LN_EQ_DFE1 (g f : Nat) : Fld := ⟨0x02000108 + 0x10000 * g + 0x20 * f, 8, 6, 0x00, 67⟩
def LN_STAT_READY (g f : Nat) : Fld := ⟨0x0200010C + 0x10000 * g + 0x20 * f, 0, 1, 0, 67⟩
def LN_STAT_LOS (g f : Nat) : Fld := ⟨0x0200010C + 0x10000 * g + 0x20 * f, 1, 1, 0, 71⟩
def LN_CODEERR_VALUE (g f : Nat) : Fld := ⟨0x02000110 + 0x10000 * g + 0x20 * f, 0, 32, 0x00000000, 71⟩

/-! cxpEngine page (R376) -/
def CXP_CCCTL_LINK (g : Nat) : Fld := ⟨0x03080040 + 0x1000 * g, 0, 3, 0, 71⟩
def CXP_CCCTL_LEN (g : Nat) : Fld := ⟨0x03080040 + 0x1000 * g, 3, 7, 0x00, 71⟩
def CXP_CCCTL_GO (g : Nat) : Fld := ⟨0x03080040 + 0x1000 * g, 16, 1, 0, 0⟩
def CXP_CCCTL_BUSY (g : Nat) : Fld := ⟨0x03080040 + 0x1000 * g, 17, 1, 0, 71⟩
def CXP_RXPTR_HEAD (g : Nat) : Fld := ⟨0x03080044 + 0x1000 * g, 0, 2, 0, 71⟩
def CXP_RXPTR_TAIL (g : Nat) : Fld := ⟨0x03080044 + 0x1000 * g, 8, 2, 0, 71⟩
def CXP_RXPTR_RXOVF (g : Nat) : Fld := ⟨0x03080044 + 0x1000 * g, 16, 1, 0, 71⟩
def CXP_CCERR_VALUE (g : Nat) : Fld := ⟨0x03080048 + 0x1000 * g, 0, 32, 0x00000000, 71⟩
def CXP_LINK_EN (g j : Nat) : Fld := ⟨0x03080100 + 0x1000 * g + 0x40 * j, 0, 1, 0, 3⟩
def CXP_LINK_SIZE (g j : Nat) : Fld := ⟨0x03080100 + 0x1000 * g + 0x40 * j, 1, 2, 0, 3⟩
def CXP_LINK_VER (g j : Nat) : Fld := ⟨0x03080100 + 0x1000 * g + 0x40 * j, 3, 2, 0, 3⟩
def CXP_LINK_SPEED (g j : Nat) : Fld := ⟨0x03080100 + 0x1000 * g + 0x40 * j, 5, 3, 0, 3⟩
def CXP_LINK_PACK (g j : Nat) : Fld := ⟨0x03080100 + 0x1000 * g + 0x40 * j, 8, 2, 0, 3⟩
def CXP_LINK_CRCACT (g j : Nat) : Fld := ⟨0x03080100 + 0x1000 * g + 0x40 * j, 10, 1, 1, 3⟩
def CXP_LINK_STREAMID (g j : Nat) : Fld := ⟨0x03080100 + 0x1000 * g + 0x40 * j, 16, 8, 0x00, 3⟩
def CXP_LINEW_WORDS (g j : Nat) : Fld := ⟨0x03080104 + 0x1000 * g + 0x40 * j, 0, 24, 0x000000, 3⟩
def CXP_TRIG_EN (g j : Nat) : Fld := ⟨0x03080108 + 0x1000 * g + 0x40 * j, 0, 1, 0, 3⟩
def CXP_TRIG_SRC (g j : Nat) : Fld := ⟨0x03080108 + 0x1000 * g + 0x40 * j, 1, 6, 0x00, 3⟩
def CXP_TRIG_DIV (g j : Nat) : Fld := ⟨0x03080108 + 0x1000 * g + 0x40 * j, 7, 4, 0x0, 3⟩
def CXP_TRIG_PHASE (g j : Nat) : Fld := ⟨0x03080108 + 0x1000 * g + 0x40 * j, 11, 4, 0x0, 3⟩
def CXP_TRIG_ACTEN (g j : Nat) : Fld := ⟨0x03080108 + 0x1000 * g + 0x40 * j, 15, 1, 0, 3⟩
def CXP_TRIG_ACTVAL (g j : Nat) : Fld := ⟨0x03080108 + 0x1000 * g + 0x40 * j, 16, 4, 0x0, 3⟩
def CXP_TRIG_PULSE (g j : Nat) : Fld := ⟨0x03080108 + 0x1000 * g + 0x40 * j, 20, 1, 0, 3⟩
def CXP_TDLY_DLY (g j : Nat) : Fld := ⟨0x0308010C + 0x1000 * g + 0x40 * j, 0, 20, 0x00000, 3⟩
def CXP_TWID_WIDTH (g j : Nat) : Fld := ⟨0x03080110 + 0x1000 * g + 0x40 * j, 0, 16, 0x0000, 3⟩
def CXP_STAT_LINKUP (g j : Nat) : Fld := ⟨0x03080114 + 0x1000 * g + 0x40 * j, 0, 1, 0, 71⟩
def CXP_STAT_SPDCHG (g j : Nat) : Fld := ⟨0x03080114 + 0x1000 * g + 0x40 * j, 1, 1, 0, 71⟩
def CXP_STAT_LOST (g j : Nat) : Fld := ⟨0x03080114 + 0x1000 * g + 0x40 * j, 2, 1, 0, 71⟩
def CXP_STAT_CFG_REFUSED (g j : Nat) : Fld := ⟨0x03080114 + 0x1000 * g + 0x40 * j, 3, 1, 0, 71⟩
def CXP_CRCERR_VALUE (g j : Nat) : Fld := ⟨0x03080118 + 0x1000 * g + 0x40 * j, 0, 32, 0x00000000, 71⟩
def CXP_TRIGSTAT_LATE (g j : Nat) : Fld := ⟨0x0308011C + 0x1000 * g + 0x40 * j, 0, 16, 0x0000, 71⟩
def CXP_TRIGSTAT_DROP (g j : Nat) : Fld := ⟨0x0308011C + 0x1000 * g + 0x40 * j, 16, 16, 0x0000, 71⟩
def CXP_PADCNT_VALUE (g j : Nat) : Fld := ⟨0x03080120 + 0x1000 * g + 0x40 * j, 0, 32, 0x00000000, 71⟩
def CXP_OTHERID_VALUE (g j : Nat) : Fld := ⟨0x03080124 + 0x1000 * g + 0x40 * j, 0, 32, 0x00000000, 71⟩
def CXP_CCTX_WORD (g i : Nat) : Fld := ⟨0x03080400 + 0x1000 * g + 0x4 * i, 0, 32, 0, 71⟩
def CXP_RXRING_WORD (g i : Nat) : Fld := ⟨0x03080800 + 0x1000 * g + 0x4 * i, 0, 32, 0, 71⟩

/-! ethernet page (R377) -/
def ETH_CTL_MODE (c : Nat) : Fld := ⟨0x03060040 + 0x1000 * c, 0, 2, 0, 3⟩
def ETH_CTL_FEC (c : Nat) : Fld := ⟨0x03060040 + 0x1000 * c, 2, 1, 0, 3⟩
def ETH_CTL_PORTEN (c : Nat) : Fld := ⟨0x03060040 + 0x1000 * c, 4, 4, 0x0, 3⟩
def ETH_STAT_LINK (c : Nat) : Fld := ⟨0x03060044 + 0x1000 * c, 0, 4, 0x0, 67⟩
def ETH_STAT_CFG_REFUSED (c : Nat) : Fld := ⟨0x03060044 + 0x1000 * c, 8, 1, 0, 71⟩
def ETH_RXFRM_VALUE (c : Nat) : Fld := ⟨0x03060048 + 0x1000 * c, 0, 32, 0x00000000, 71⟩
def ETH_RXERR_VALUE (c : Nat) : Fld := ⟨0x0306004C + 0x1000 * c, 0, 32, 0x00000000, 71⟩
def ETH_FECCORR_VALUE (c : Nat) : Fld := ⟨0x03060050 + 0x1000 * c, 0, 32, 0x00000000, 71⟩
def ETH_FECUNC_VALUE (c : Nat) : Fld := ⟨0x03060054 + 0x1000 * c, 0, 32, 0x00000000, 71⟩
def GV_EN (c j : Nat) : Fld := ⟨0x03060060 + 0x1000 * c + 0x10 * j, 0, 1, 0, 3⟩
def GV_PORT (c j : Nat) : Fld := ⟨0x03060060 + 0x1000 * c + 0x10 * j, 1, 2, 0, 3⟩
def GV_BASE (c j : Nat) : Fld := ⟨0x03060060 + 0x1000 * c + 0x10 * j, 3, 2, 0, 3⟩
def GV_LOG2N (c j : Nat) : Fld := ⟨0x03060060 + 0x1000 * c + 0x10 * j, 5, 2, 0, 3⟩
def GV_UDPPORT (c j : Nat) : Fld := ⟨0x03060064 + 0x1000 * c + 0x10 * j, 0, 16, 0x0000, 3⟩
def GV_SRCIP (c j : Nat) : Fld := ⟨0x03060068 + 0x1000 * c + 0x10 * j, 0, 32, 0x00000000, 3⟩
def GV_STAT_ORDER (c j : Nat) : Fld := ⟨0x0306006C + 0x1000 * c + 0x10 * j, 0, 16, 0x0000, 71⟩
def GV_STAT_PAD (c j : Nat) : Fld := ⟨0x0306006C + 0x1000 * c + 0x10 * j, 16, 15, 0x0000, 71⟩
def GV_STAT_FMTRAW (c j : Nat) : Fld := ⟨0x0306006C + 0x1000 * c + 0x10 * j, 31, 1, 0, 71⟩
def XRX_BASE_LO_ADDR (c : Nat) : Fld := ⟨0x030600A0 + 0x1000 * c, 14, 18, 0x00000, 3⟩
def XRX_BASE_HI_ADDR (c : Nat) : Fld := ⟨0x030600A4 + 0x1000 * c, 0, 3, 0, 3⟩
def XRX_RING_SLOTS (c : Nat) : Fld := ⟨0x030600A8 + 0x1000 * c, 0, 13, 0x0000, 3⟩
def XRX_PTR_HEAD (c : Nat) : Fld := ⟨0x030600AC + 0x1000 * c, 0, 12, 0x000, 71⟩
def XRX_PTR_TAIL (c : Nat) : Fld := ⟨0x030600AC + 0x1000 * c, 16, 12, 0x000, 71⟩
def XRX_DROP_VALUE (c : Nat) : Fld := ⟨0x030600B0 + 0x1000 * c, 0, 32, 0x00000000, 71⟩
def ETH_TXU_EN (c : Nat) : Fld := ⟨0x030600E0 + 0x1000 * c, 0, 1, 0, 3⟩
def ETH_TXU_PORT (c : Nat) : Fld := ⟨0x030600E0 + 0x1000 * c, 1, 2, 0, 3⟩
def ETH_TXU_MAXLEN_BYTES (c : Nat) : Fld := ⟨0x030600E4 + 0x1000 * c, 0, 14, 0x05C0, 3⟩
def ETH_TXU_HOLD_NS (c : Nat) : Fld := ⟨0x030600E8 + 0x1000 * c, 0, 20, 0x02710, 3⟩
def ETH_TXU_SIP_ADDR (c : Nat) : Fld := ⟨0x03060100 + 0x1000 * c, 0, 32, 0x00000000, 3⟩
def ETH_TXU_DIP_ADDR (c : Nat) : Fld := ⟨0x03060104 + 0x1000 * c, 0, 32, 0x00000000, 3⟩
def ETH_TXU_PORTS_SPORT (c : Nat) : Fld := ⟨0x03060108 + 0x1000 * c, 0, 16, 0x0000, 3⟩
def ETH_TXU_PORTS_DPORT (c : Nat) : Fld := ⟨0x03060108 + 0x1000 * c, 16, 16, 0x0000, 3⟩
def ETH_TXU_SEQ_VALUE (c : Nat) : Fld := ⟨0x0306010C + 0x1000 * c, 0, 32, 0x00000000, 71⟩
def ETH_STOMPCNT_VALUE (c : Nat) : Fld := ⟨0x03060110 + 0x1000 * c, 0, 32, 0x00000000, 71⟩
def PHC_NS_VALUE (c : Nat) : Fld := ⟨0x03060140 + 0x1000 * c, 0, 30, 0x00000000, 3⟩
def PHC_S_LO_VALUE (c : Nat) : Fld := ⟨0x03060144 + 0x1000 * c, 0, 32, 0x00000000, 3⟩
def PHC_S_HI_VALUE (c : Nat) : Fld := ⟨0x03060148 + 0x1000 * c, 0, 16, 0x0000, 3⟩
def PHC_ADJ_VALUE (c : Nat) : Fld := ⟨0x0306014C + 0x1000 * c, 0, 32, 0x00000000, 3⟩
def PHC_STEP_NS (c : Nat) : Fld := ⟨0x03060150 + 0x1000 * c, 0, 32, 0, 0⟩
def PHC_CTL_LOAD (c : Nat) : Fld := ⟨0x03060154 + 0x1000 * c, 0, 1, 0, 0⟩
def XTX_BASE_LO_ADDR (c : Nat) : Fld := ⟨0x030600C0 + 0x1000 * c, 14, 18, 0, 3⟩
def XTX_BASE_HI_ADDR (c : Nat) : Fld := ⟨0x030600C4 + 0x1000 * c, 0, 3, 0, 3⟩
def XTX_RING_SLOTS (c : Nat) : Fld := ⟨0x030600C8 + 0x1000 * c, 0, 13, 0, 3⟩
def XTX_PTR_HEAD (c : Nat) : Fld := ⟨0x030600CC + 0x1000 * c, 0, 12, 0, 71⟩
def XTX_PTR_TAIL (c : Nat) : Fld := ⟨0x030600CC + 0x1000 * c, 16, 12, 0, 71⟩
def ETH_TXU_DMAC_LO_ADDR (c : Nat) : Fld := ⟨0x030600EC + 0x1000 * c, 0, 32, 0, 3⟩
def ETH_TXU_DMAC_HI_ADDR (c : Nat) : Fld := ⟨0x030600F0 + 0x1000 * c, 0, 16, 0, 3⟩
def ETH_TXU_SMAC_LO_ADDR (c : Nat) : Fld := ⟨0x030600F4 + 0x1000 * c, 0, 32, 0, 3⟩
def ETH_TXU_SMAC_HI_ADDR (c : Nat) : Fld := ⟨0x030600F8 + 0x1000 * c, 0, 16, 0, 3⟩

/-! smc page (R401) -/
def CMD_CODE : Fld := ⟨0x00002040, 0, 8, 0x00, 3⟩
def ARG_VALUE (i : Nat) : Fld := ⟨0x00002044 + 0x4 * i, 0, 32, 0x00000000, 3⟩
def CMD_STAT_BUSY : Fld := ⟨0x00002064, 0, 1, 0, 3⟩
def CMD_STAT_DONE : Fld := ⟨0x00002064, 1, 1, 0, 3⟩
def CMD_STAT_RESULT : Fld := ⟨0x00002064, 4, 4, 0x0, 3⟩
def CMD_STAT_READY : Fld := ⟨0x00002064, 8, 1, 0, 3⟩
def CMD_STAT_SELF : Fld := ⟨0x00002064, 9, 1, 0, 3⟩
def CMD_REFUSED_VALUE : Fld := ⟨0x00002068, 0, 32, 0x00000000, 3⟩
def MBX_OWN_OWNER : Fld := ⟨0x0000206C, 0, 7, 0x00, 3⟩
def MBX_OWN_CLAIM : Fld := ⟨0x0000206C, 8, 1, 0, 0⟩
def MBX_OWN_RELEASE : Fld := ⟨0x0000206C, 9, 1, 0, 0⟩
def MGMT_ERR_VALUE : Fld := ⟨0x00002070, 0, 32, 0x00000000, 3⟩

/-! nvm page (R402) -/
def NVM_STAT_LOST : Fld := ⟨0x00003040, 0, 1, 0, 3⟩
def NVM_STAT_WEAR : Fld := ⟨0x00003040, 1, 1, 0, 3⟩
def NVM_STAT_SUSPENDED : Fld := ⟨0x00003040, 2, 1, 0, 3⟩
def NVM_STAT_SKIPPED : Fld := ⟨0x00003040, 16, 16, 0x0000, 3⟩
def NVM_LOSTPG_PAGE : Fld := ⟨0x00003044, 0, 12, 0x000, 3⟩
def NVM_STORECNT_VALUE : Fld := ⟨0x00003048, 0, 32, 0x00000000, 3⟩
def STAGE_VALUE (i : Nat) : Fld := ⟨0x00003400 + 0x4 * i, 0, 32, 0x00000000, 3⟩

/-! pcie page (R403) -/
def PCI_CTL_EN (e : Nat) : Fld := ⟨0x03030040 + 0x8000 * e, 0, 1, 1, 3⟩
def PCI_CTL_MAXGEN (e : Nat) : Fld := ⟨0x03030040 + 0x8000 * e, 1, 3, 5, 3⟩
def PCI_CTL_MAXW (e : Nat) : Fld := ⟨0x03030040 + 0x8000 * e, 4, 5, 0x10, 3⟩
def PCI_STAT_LINKUP (e : Nat) : Fld := ⟨0x03030044 + 0x8000 * e, 0, 1, 0, 3⟩
def PCI_STAT_GEN (e : Nat) : Fld := ⟨0x03030044 + 0x8000 * e, 1, 3, 0, 3⟩
def PCI_STAT_WIDTH (e : Nat) : Fld := ⟨0x03030044 + 0x8000 * e, 4, 5, 0x00, 3⟩
def PCI_STAT_PERST (e : Nat) : Fld := ⟨0x03030044 + 0x8000 * e, 9, 1, 0, 3⟩
def PCI_BADREQ_VALUE (e : Nat) : Fld := ⟨0x03030048 + 0x8000 * e, 0, 32, 0x00000000, 7⟩
def PCI_POISONTX_VALUE (e : Nat) : Fld := ⟨0x0303004C + 0x8000 * e, 0, 32, 0x00000000, 7⟩
def PCI_POISONRX_VALUE (e : Nat) : Fld := ⟨0x03030050 + 0x8000 * e, 0, 32, 0x00000000, 7⟩
def PCI_RSTCNT_VALUE (e : Nat) : Fld := ⟨0x03030054 + 0x8000 * e, 0, 32, 0x00000000, 3⟩

/-! dma page (R404) -/
def DMA_CTL_EN (e c : Nat) : Fld := ⟨0x03031100 + 0x8000 * e + 0x40 * c, 0, 1, 0, 7⟩
def DMA_CTL_DIR (e c : Nat) : Fld := ⟨0x03031100 + 0x8000 * e + 0x40 * c, 1, 2, 0, 7⟩
def DMA_RBASE_LO_ADDR (e c : Nat) : Fld := ⟨0x03031104 + 0x8000 * e + 0x40 * c, 6, 26, 0x0000000, 7⟩
def DMA_RBASE_HI_ADDR (e c : Nat) : Fld := ⟨0x03031108 + 0x8000 * e + 0x40 * c, 0, 32, 0x00000000, 7⟩
def DMA_RSIZE_LOG2 (e c : Nat) : Fld := ⟨0x0303110C + 0x8000 * e + 0x40 * c, 0, 5, 0x02, 7⟩
def DMA_HEAD_INDEX (e c : Nat) : Fld := ⟨0x03031110 + 0x8000 * e + 0x40 * c, 0, 16, 0x0000, 7⟩
def DMA_TAIL_INDEX (e c : Nat) : Fld := ⟨0x03031114 + 0x8000 * e + 0x40 * c, 0, 16, 0x0000, 7⟩
def DMA_STAT_ACTIVE (e c : Nat) : Fld := ⟨0x03031118 + 0x8000 * e + 0x40 * c, 0, 1, 0, 7⟩
def DMA_STAT_STOPPED (e c : Nat) : Fld := ⟨0x03031118 + 0x8000 * e + 0x40 * c, 1, 1, 0, 7⟩
def DMA_STAT_ERR (e c : Nat) : Fld := ⟨0x03031118 + 0x8000 * e + 0x40 * c, 2, 1, 0, 7⟩
def DMA_STAT_POISON (e c : Nat) : Fld := ⟨0x03031118 + 0x8000 * e + 0x40 * c, 3, 1, 0, 7⟩
def DMA_STAT_ERRCODE (e c : Nat) : Fld := ⟨0x03031118 + 0x8000 * e + 0x40 * c, 4, 4, 0x0, 7⟩
def DMA_HOLD_NS (e c : Nat) : Fld := ⟨0x0303111C + 0x8000 * e + 0x40 * c, 0, 20, 0x02710, 7⟩
def DMA_BYTES_VALUE (e c : Nat) : Fld := ⟨0x03031120 + 0x8000 * e + 0x40 * c, 0, 32, 0x00000000, 7⟩

/-! configuration page (R425) -/
def BOOT_CFG_AUTO : Fld := ⟨0x00004040, 0, 1, 1, 3⟩
def BOOT_CFG_OFFA : Fld := ⟨0x00004040, 8, 8, 0x01, 3⟩
def BOOT_CFG_OFFB : Fld := ⟨0x00004040, 16, 8, 0x21, 3⟩
def BOOT_CFG_XMODE : Fld := ⟨0x00004040, 24, 1, 0, 3⟩
def BOOT_STAT_SMCFW : Fld := ⟨0x00004044, 0, 1, 0, 3⟩
def BOOT_STAT_SLOT : Fld := ⟨0x00004044, 1, 2, 0, 3⟩
def CFG_STAT_STATE : Fld := ⟨0x00004048, 0, 3, 0, 3⟩
def CFG_STAT_REL_LATE : Fld := ⟨0x00004048, 4, 1, 0, 3⟩
def CFG_STAT_MRARMED : Fld := ⟨0x00004048, 5, 1, 0, 3⟩
def CFG_STAT_SECT : Fld := ⟨0x00004048, 8, 8, 0x00, 3⟩
def CFG_STAT_CODE : Fld := ⟨0x00004048, 16, 4, 0x0, 3⟩
def CFG_STAT_KEYSKIP : Fld := ⟨0x00004048, 20, 8, 0x00, 3⟩
def CFG_REL_MODE : Fld := ⟨0x0000404C, 0, 1, 0, 3⟩
def CFG_REL_ENC : Fld := ⟨0x0000404C, 4, 4, 0x0, 3⟩
def CFG_REL_GROUP : Fld := ⟨0x0000404C, 8, 8, 0x00, 3⟩
def CFG_REL_POS_LO_VALUE : Fld := ⟨0x00004050, 0, 32, 0x00000000, 3⟩
def CFG_REL_POS_HI_VALUE : Fld := ⟨0x00004054, 0, 16, 0x0000, 3⟩
def CFG_RELSEND_GO : Fld := ⟨0x00004058, 0, 1, 0, 0⟩
def IO_CFG_LOADPD_BO : Fld := ⟨0x0000405C, 0, 1, 0, 3⟩
def IO_CFG_LOADPD_GPIO : Fld := ⟨0x0000405C, 1, 1, 0, 3⟩
def CFG_VERSION_LO_VALUE : Fld := ⟨0x00004060, 0, 32, 0x00000000, 3⟩
def CFG_VERSION_HI_VALUE : Fld := ⟨0x00004064, 0, 32, 0x00000000, 3⟩
def CFG_LOADCNT_VALUE : Fld := ⟨0x00004068, 0, 32, 0x00000000, 3⟩
def CFG_RELOADCNT_VALUE : Fld := ⟨0x0000406C, 0, 32, 0x00000000, 3⟩
def KEY_STAT_EFILLED : Fld := ⟨0x00004070, 0, 4, 1, 3⟩
def KEY_STAT_EREVOKED : Fld := ⟨0x00004070, 4, 4, 0, 3⟩
def KEY_STAT_LFILLED : Fld := ⟨0x00004070, 8, 4, 1, 3⟩
def KEY_STAT_LREVOKED : Fld := ⟨0x00004070, 12, 4, 0, 3⟩
def KEY_STAT_ESLOT : Fld := ⟨0x00004070, 16, 2, 0, 3⟩
def KEY_STAT_LSLOT : Fld := ⟨0x00004070, 18, 2, 0, 3⟩
def ROLLBACK_LO_VALUE : Fld := ⟨0x00004074, 0, 32, 0, 3⟩
def ROLLBACK_HI_VALUE : Fld := ⟨0x00004078, 0, 32, 0, 3⟩
def CFG_DIGEST_VALUE (i : Nat) : Fld := ⟨0x00004080 + 0x4 * i, 0, 32, 0x00000000, 3⟩
def CFG_WIN_LO_ADDR : Fld := ⟨0x000040C0, 11, 21, 0x000000, 3⟩
def CFG_WIN_HI_ADDR : Fld := ⟨0x000040C4, 0, 3, 0, 3⟩
def CFG_WINDAT_VALUE (j : Nat) : Fld := ⟨0x00004800 + 0x4 * j, 0, 32, 0, 0⟩

/-! reset page (R452) -/
def RST_CTL_WARM : Fld := ⟨0x00001040, 0, 1, 0, 0⟩
def RST_CTL_COLD : Fld := ⟨0x00001040, 1, 1, 0, 0⟩
def RST_CTL_KEY : Fld := ⟨0x00001040, 8, 8, 0x00, 0⟩
def RST_STAT_WARM_BUSY : Fld := ⟨0x00001044, 0, 1, 0, 3⟩
def RST_STAT_DEFERRED : Fld := ⟨0x00001044, 1, 1, 0, 3⟩
def RST_STAT_DRAIN_TO : Fld := ⟨0x00001044, 2, 1, 0, 3⟩
def RST_STAT_BADKEY : Fld := ⟨0x00001044, 3, 1, 0, 3⟩
def RST_STAT_LG_REFUSED : Fld := ⟨0x00001044, 4, 1, 0, 3⟩
def RST_CAUSE_LAST : Fld := ⟨0x00001048, 0, 4, 1, 0⟩
def RST_WARMCNT_VALUE : Fld := ⟨0x0000104C, 0, 32, 0x00000000, 3⟩
def RST_DRAINLIM_NS : Fld := ⟨0x00001050, 0, 32, 0x000186A0, 3⟩
def RST_LG_BITS : Fld := ⟨0x00001054, 0, 32, 0x00000000, 3⟩

/-! power page (R453) -/
def REST_CTL_ENTER : Fld := ⟨0x00007040, 0, 1, 0, 0⟩
def REST_CTL_EXIT : Fld := ⟨0x00007040, 1, 1, 0, 0⟩
def REST_CFG_SCRUB : Fld := ⟨0x00007044, 0, 1, 1, 3⟩
def REST_CFG_WAKEBEAT : Fld := ⟨0x00007044, 1, 1, 0, 3⟩
def REST_CFG_WAKECH : Fld := ⟨0x00007044, 2, 6, 0x00, 3⟩
def REST_TO_US : Fld := ⟨0x00007048, 0, 24, 0x002710, 3⟩
def REST_STAT_STATE : Fld := ⟨0x0000704C, 0, 2, 0, 3⟩
def REST_STAT_ABORTED : Fld := ⟨0x0000704C, 2, 1, 0, 3⟩
def REST_STAT_REFUSED : Fld := ⟨0x0000704C, 3, 1, 0, 3⟩
def REST_WAKEMASK_LO_BITS : Fld := ⟨0x00007050, 0, 32, 0xFFFFFFFF, 3⟩
def REST_WAKEMASK_HI_BITS : Fld := ⟨0x00007054, 0, 32, 0xFFFFFFFF, 3⟩
def BO_WARN_MV : Fld := ⟨0x00007060, 0, 10, 0x2BC, 3⟩
def BO_RESET_MV : Fld := ⟨0x00007064, 0, 10, 0x28A, 3⟩
def BO_HYST_MV : Fld := ⟨0x00007068, 0, 6, 0x14, 3⟩
def BO_CTL_THROTTLE_ON_WARN : Fld := ⟨0x0000706C, 0, 1, 0, 3⟩
def BO_CTL_RECOV : Fld := ⟨0x0000706C, 8, 8, 0x0A, 3⟩
def BO_STAT_WARN : Fld := ⟨0x00007070, 0, 1, 0, 3⟩
def BO_STAT_THROTTLED : Fld := ⟨0x00007070, 1, 1, 0, 3⟩
def BO_STAT_CFG_REFUSED : Fld := ⟨0x00007070, 2, 1, 0, 3⟩
def BO_CNT_VALUE : Fld := ⟨0x00007074, 0, 32, 0, 0⟩
def BO_MIN_MV : Fld := ⟨0x00007078, 0, 10, 0x3FF, 0⟩
def BO_DUR_US : Fld := ⟨0x0000707C, 0, 32, 0, 0⟩
def VCORE_MV_VALUE : Fld := ⟨0x00007080, 0, 10, 0x000, 3⟩

/-! clock page (R454) -/
def FPLL_FREQ (k : Nat) : Fld := ⟨0x00008040 + 0x8 * k, 0, 9, (if k = 0 then (if Config.grade2 then 0x0C8 else 0x0A0) else 0), 3⟩
def FPLL_LOCK (k : Nat) : Fld := ⟨0x00008040 + 0x8 * k, 16, 1, 0, 3⟩
def FPLL_USERS (k : Nat) : Fld := ⟨0x00008044 + 0x8 * k, 0, 7, (if k = 0 then 0x40 else 0), 3⟩
def RIDGE_CLK_FREQ : Fld := ⟨0x00008080, 0, 9, (if Config.grade2 then 0x140 else 0x0F0), 3⟩
def CLK_STAT_CFG_REFUSED : Fld := ⟨0x00008084, 0, 1, 0, 3⟩
def CLK_STAT_TBSRC : Fld := ⟨0x00008084, 1, 2, 0, 3⟩

/-! massifPower page (R455) -/
def PWR_CTL_GATE (m : Nat) : Fld := ⟨0x01007040 + 0x10000 * m, 0, 1, 0, 3⟩
def PWR_STAT_STATE (m : Nat) : Fld := ⟨0x01007044 + 0x10000 * m, 0, 3, 0, 3⟩
def PWR_STAT_GATE_ABORTED (m : Nat) : Fld := ⟨0x01007044 + 0x10000 * m, 3, 1, 0, 3⟩
def PWR_STAT_REFUSED (m : Nat) : Fld := ⟨0x01007044 + 0x10000 * m, 4, 1, 0, 3⟩
def PWR_STAT_WAITFOR (m : Nat) : Fld := ⟨0x01007044 + 0x10000 * m, 8, 3, 0x0, 3⟩
def MRST_CTL_MASSIF (m : Nat) : Fld := ⟨0x01007048 + 0x10000 * m, 0, 1, 0, 0⟩
def MRST_CTL_CALLER (m : Nat) : Fld := ⟨0x01007048 + 0x10000 * m, 1, 1, 0, 0⟩
def MRST_STAT_REFUSED (m : Nat) : Fld := ⟨0x0100704C + 0x10000 * m, 0, 1, 0, 7⟩
def MCLK_SEL (m : Nat) : Fld := ⟨0x01007050 + 0x10000 * m, 0, 2, 0, 3⟩
def MCLK_DIV (m : Nat) : Fld := ⟨0x01007050 + 0x10000 * m, 8, 4, 0x0, 3⟩
def MCLK_SWITCHING (m : Nat) : Fld := ⟨0x01007050 + 0x10000 * m, 16, 1, 0, 3⟩
def PWR_WAKECNT_VALUE (m : Nat) : Fld := ⟨0x01007054 + 0x10000 * m, 0, 32, 0x00000000, 3⟩
def PWR_LASTWAKE_NS (m : Nat) : Fld := ⟨0x01007058 + 0x10000 * m, 0, 20, 0x00000, 3⟩

/-! global page (R465) -/
def DEV_ID_PART : Fld := ⟨0x00000040, 0, 16, 0x1640, 0⟩
def DEV_ID_STEP : Fld := ⟨0x00000040, 16, 8, 0xB1, 0⟩
def DEV_ID_SGRADE : Fld := ⟨0x00000040, 24, 2, (if Config.grade2 then 2 else 1), 0⟩
def DEV_ID_TGRADE : Fld := ⟨0x00000040, 26, 1, (if Config.gradeI then 1 else 0), 0⟩
def DEV_UID_VALUE (i : Nat) : Fld := ⟨0x00000044 + 0x4 * i, 0, 32, 0, 0⟩
def MASSIF_GATED_LO_BITS : Fld := ⟨0x00000060, 0, 32, 0x00000000, 3⟩
def MASSIF_GATED_HI_BITS : Fld := ⟨0x00000064, 0, 32, 0x00000000, 3⟩

/-! Common page header of every page (R457, R460); `b` is the page's base. -/

/-- R460: the letters that clear the header fields of the page at base `b`. Pages of the position
block and of Tempo: P and C alone (R20, survival table of R435; DEDUCED). -/
def hdrClr (b : Nat) : Nat :=
  if 0x00100000 ≤ b ∧ b < 0x00200000 then 3
  else if 0x01000000 ≤ b ∧ b < 0x01400000 then 31
  else if 0x02000000 ≤ b ∧ b < 0x02200000 then 71
  else 7

/-- The letters that clear the header's error fields: P and C on a shelf integrity page (R213),
R460 elsewhere. -/
def errClr (b : Nat) : Nat :=
  if 0x01000000 ≤ b ∧ b < 0x01400000 ∧ b % 0x10000 = 0x5000 then 3 else hdrClr b

def BLK_CTL_SCRATCH (b : Nat) : Fld := ⟨b + 0x008, 0, 32, 0, hdrClr b⟩
def IRQ_STAT_BITS (b : Nat) : Fld := ⟨b + 0x010, 0, 32, 0, hdrClr b⟩
def IRQ_EN_BITS (b : Nat) : Fld := ⟨b + 0x014, 0, 32, 0, hdrClr b⟩
def IRQ_FORCE_BITS (b : Nat) : Fld := ⟨b + 0x018, 0, 32, 0, 0⟩
def ERR_STAT_CORR (b : Nat) : Fld := ⟨b + 0x01C, 0, 1, 0, errClr b⟩
def ERR_STAT_UNCORR (b : Nat) : Fld := ⟨b + 0x01C, 1, 1, 0, errClr b⟩
def ERR_STAT_POISON (b : Nat) : Fld := ⟨b + 0x01C, 2, 1, 0, errClr b⟩
def ERR_ADDR_LO_VALUE (b : Nat) : Fld := ⟨b + 0x020, 0, 32, 0, errClr b⟩
def ERR_ADDR_HI_VALUE (b : Nat) : Fld := ⟨b + 0x024, 0, 32, 0, errClr b⟩
def ERR_CNT_VALUE (b : Nat) : Fld := ⟨b + 0x028, 0, 32, 0, errClr b⟩
def LOCK_SET (b : Nat) : Fld := ⟨b + 0x02C, 0, 1, 0, 3⟩

end F

end Sys2Proof.Machine
end

