-- ==== Sys2Proof/Machine/RegTable.lean ====
section
/-! DEFINITION. The page index of R466 (every page, its kind and instance) and, for every kind of
page, its register table as rows: where the field's register lies in the page, how it is accessed
(R462), and which `Fld` it is. Reads and writes by address go through these rows. -/

namespace Sys2Proof.Machine

open Sys2Proof

/-- Access types of R462. `w1ca` is a W1C field that a 1 in any of its bits clears whole. -/
inductive Access where
  | ro | rw | w1c | w1ca | w1s | wo | rwl
  deriving DecidableEq, Repr

/-- One row of a register table: offset of its first register in the page, stride and number of
the registers it is repeated in, its access type, and the field of instance `a`, index `b`. -/
structure RegRow where
  off : Nat
  stride : Nat
  count : Nat
  acc : Access
  fld : Nat → Nat → Fld

/-- The kinds of page of R466. -/
inductive Page where
  | posGlobal
  | encoder
  | beatChannel
  | beatOutput
  | colQueue
  | feedSwitch
  | sequencer
  | loader
  | queue
  | laneRxQueue
  | collector
  | shelf
  | blockMem
  | hbmGlobal
  | hbmChannel
  | shelfInt
  | integrity
  | ridgeGlobal
  | router
  | tempoGlobal
  | tempoPort
  | tempoMap
  | pair
  | pairRegion
  | checkpoint
  | caller
  | lead
  | l2
  | distributor
  | laneGroup
  | cxpEngine
  | ethernet
  | smc
  | nvm
  | pcie
  | dma
  | configuration
  | reset
  | power
  | clock
  | massifPower
  | global_
  deriving DecidableEq, Repr

def rows_posGlobal : List RegRow :=
  [⟨0x40, 0x4, 1, .ro, fun _ _ => F.TB_LO_VALUE⟩,
   ⟨0x44, 0x4, 1, .ro, fun _ _ => F.TB_HI_VALUE⟩,
   ⟨0x48, 0x4, 1, .wo, fun _ _ => F.SNAP_CAPTURE⟩,
   ⟨0x50, 0x4, 1, .ro, fun _ _ => F.TB_SNAP_LO_VALUE⟩,
   ⟨0x54, 0x4, 1, .ro, fun _ _ => F.TB_SNAP_HI_VALUE⟩,
   ⟨0x80, 0x8, 16, .ro, fun _ n => F.ENC_SNAP_LO_VALUE n⟩,
   ⟨0x84, 0x8, 16, .ro, fun _ n => F.ENC_SNAP_HI_VALUE n⟩]

def rows_encoder : List RegRow :=
  [⟨0x40, 0x40, 16, .rw, fun _ n => F.ENC_CTL_EN n⟩,
   ⟨0x40, 0x40, 16, .rw, fun _ n => F.ENC_CTL_MODE n⟩,
   ⟨0x40, 0x40, 16, .rw, fun _ n => F.ENC_CTL_DIR_INV n⟩,
   ⟨0x40, 0x40, 16, .rw, fun _ n => F.ENC_CTL_FILT n⟩,
   ⟨0x40, 0x40, 16, .rw, fun _ n => F.ENC_CTL_ZMODE n⟩,
   ⟨0x40, 0x40, 16, .rw, fun _ n => F.ENC_CTL_ZGATE n⟩,
   ⟨0x40, 0x40, 16, .wo, fun _ n => F.ENC_CTL_LOAD n⟩,
   ⟨0x40, 0x40, 16, .rw, fun _ n => F.ENC_CTL_INSEL n⟩,
   ⟨0x44, 0x40, 16, .ro, fun _ n => F.ENC_STAT_A n⟩,
   ⟨0x44, 0x40, 16, .ro, fun _ n => F.ENC_STAT_B n⟩,
   ⟨0x44, 0x40, 16, .ro, fun _ n => F.ENC_STAT_Z n⟩,
   ⟨0x44, 0x40, 16, .ro, fun _ n => F.ENC_STAT_DIR n⟩,
   ⟨0x44, 0x40, 16, .w1c, fun _ n => F.ENC_STAT_ILLEGAL n⟩,
   ⟨0x44, 0x40, 16, .w1c, fun _ n => F.ENC_STAT_OVERSPEED n⟩,
   ⟨0x44, 0x40, 16, .w1c, fun _ n => F.ENC_STAT_HOMED n⟩,
   ⟨0x44, 0x40, 16, .w1c, fun _ n => F.ENC_STAT_ZSEEN n⟩,
   ⟨0x48, 0x40, 16, .rw, fun _ n => F.ENC_POS_LO_VALUE n⟩,
   ⟨0x4C, 0x40, 16, .ro, fun _ n => F.ENC_POS_HI_VALUE n⟩,
   ⟨0x50, 0x40, 16, .ro, fun _ n => F.ENC_ZLATCH_LO_VALUE n⟩,
   ⟨0x54, 0x40, 16, .ro, fun _ n => F.ENC_ZLATCH_HI_VALUE n⟩,
   ⟨0x58, 0x40, 16, .rw, fun _ n => F.ENC_PRESET_LO_VALUE n⟩,
   ⟨0x5C, 0x40, 16, .rw, fun _ n => F.ENC_PRESET_HI_VALUE n⟩,
   ⟨0x60, 0x40, 16, .ro, fun _ n => F.ENC_PERIOD_VALUE n⟩,
   ⟨0x64, 0x40, 16, .w1ca, fun _ n => F.ENC_ERRCNT_VALUE n⟩]

def rows_beatChannel : List RegRow :=
  [⟨0x40, 0x20, 64, .rw, fun _ c => F.BC_CTL_KIND c⟩,
   ⟨0x40, 0x20, 64, .rw, fun _ c => F.BC_CTL_EN c⟩,
   ⟨0x40, 0x20, 64, .rw, fun _ c => F.BC_CTL_ENC c⟩,
   ⟨0x40, 0x20, 64, .rw, fun _ c => F.BC_CTL_DIR c⟩,
   ⟨0x40, 0x20, 64, .rw, fun _ c => F.BC_CTL_VAVG c⟩,
   ⟨0x40, 0x20, 64, .rw, fun _ c => F.BC_CTL_ACT c⟩,
   ⟨0x40, 0x20, 64, .rw, fun _ c => F.BC_CTL_TREE c⟩,
   ⟨0x40, 0x20, 64, .rw, fun _ c => F.BC_CTL_TEMPO c⟩,
   ⟨0x40, 0x20, 64, .rw, fun _ c => F.BC_CTL_BYTIME c⟩,
   ⟨0x44, 0x20, 64, .ro, fun _ c => F.BC_STAT_ACTIVE c⟩,
   ⟨0x44, 0x20, 64, .w1c, fun _ c => F.BC_STAT_LATE c⟩,
   ⟨0x44, 0x20, 64, .ro, fun _ c => F.BC_STAT_SCHED_FULL c⟩,
   ⟨0x44, 0x20, 64, .w1c, fun _ c => F.BC_STAT_SCHED_REFUSED c⟩,
   ⟨0x44, 0x20, 64, .w1c, fun _ c => F.BC_STAT_DONE c⟩,
   ⟨0x44, 0x20, 64, .ro, fun _ c => F.BC_STAT_BADARG c⟩,
   ⟨0x44, 0x20, 64, .ro, fun _ c => F.BC_STAT_HELD c⟩,
   ⟨0x44, 0x20, 64, .ro, fun _ c => F.BC_STAT_CFGPEND c⟩,
   ⟨0x44, 0x20, 64, .ro, fun _ c => F.BC_STAT_DEPTH c⟩,
   ⟨0x48, 0x20, 64, .rw, fun _ c => F.BC_ARG0_VALUE c⟩,
   ⟨0x4C, 0x20, 64, .rw, fun _ c => F.BC_ARG1_VALUE c⟩,
   ⟨0x50, 0x20, 64, .rw, fun _ c => F.BC_ARG2_VALUE c⟩,
   ⟨0x54, 0x20, 64, .rw, fun _ c => F.BC_ARG3_VALUE c⟩,
   ⟨0x58, 0x20, 64, .ro, fun _ c => F.BC_COUNT_VALUE c⟩,
   ⟨0x5C, 0x20, 64, .w1ca, fun _ c => F.BC_LATE_VALUE c⟩,
   ⟨0x840, 0x4, 64, .rw, fun _ c => F.BC_SEQMOD_MOD c⟩,
   ⟨0x940, 0x4, 64, .ro, fun _ c => F.BC_SEQ_VALUE c⟩]

def rows_beatOutput : List RegRow :=
  [⟨0x40, 0x10, 64, .rw, fun _ o => F.BO_CTL_EN o⟩,
   ⟨0x40, 0x10, 64, .rw, fun _ o => F.BO_CTL_OE o⟩,
   ⟨0x40, 0x10, 64, .rw, fun _ o => F.BO_CTL_POL o⟩,
   ⟨0x40, 0x10, 64, .rw, fun _ o => F.BO_CTL_MODE o⟩,
   ⟨0x40, 0x10, 64, .rw, fun _ o => F.BO_CTL_SRC o⟩,
   ⟨0x40, 0x10, 64, .rw, fun _ o => F.BO_CTL_DIV o⟩,
   ⟨0x40, 0x10, 64, .rw, fun _ o => F.BO_CTL_PHASE o⟩,
   ⟨0x40, 0x10, 64, .rw, fun _ o => F.BO_CTL_ACTVAL o⟩,
   ⟨0x40, 0x10, 64, .rw, fun _ o => F.BO_CTL_ACTEN o⟩,
   ⟨0x44, 0x10, 64, .rw, fun _ o => F.BO_DLY_DELAY o⟩,
   ⟨0x44, 0x10, 64, .rw, fun _ o => F.BO_DLY_FINE o⟩,
   ⟨0x48, 0x10, 64, .rw, fun _ o => F.BO_WID_WIDTH o⟩,
   ⟨0x4C, 0x10, 64, .w1ca, fun _ o => F.BO_STAT_OVERRUN o⟩,
   ⟨0x4C, 0x10, 64, .w1c, fun _ o => F.BO_STAT_MERGE o⟩,
   ⟨0x4C, 0x10, 64, .ro, fun _ o => F.BO_STAT_PIN o⟩,
   ⟨0x4C, 0x10, 64, .w1c, fun _ o => F.BO_STAT_LATE o⟩]

def rows_colQueue : List RegRow :=
  [⟨0x40, 0x10, 4, .ro, fun m f => F.CQ_STAT_NONEMPTY m f⟩,
   ⟨0x40, 0x10, 4, .ro, fun m f => F.CQ_STAT_SYNC m f⟩,
   ⟨0x40, 0x10, 4, .w1c, fun m f => F.CQ_STAT_FULLSEEN m f⟩,
   ⟨0x40, 0x10, 4, .w1c, fun m f => F.CQ_STAT_PARITY m f⟩,
   ⟨0x40, 0x10, 4, .ro, fun m f => F.CQ_STAT_HIGHWATER m f⟩,
   ⟨0x40, 0x10, 4, .wo, fun m f => F.CQ_STAT_HWCLR m f⟩,
   ⟨0x44, 0x10, 4, .w1ca, fun m f => F.CQ_PARCNT_VALUE m f⟩,
   ⟨0x48, 0x10, 4, .w1ca, fun m f => F.CQ_FULLCNT_VALUE m f⟩]

def rows_feedSwitch : List RegRow :=
  [⟨0x40, 0x10, 32, .rw, fun _ p => F.FEED_CTL_EN p⟩,
   ⟨0x40, 0x10, 32, .rw, fun _ p => F.FEED_CTL_SEL p⟩,
   ⟨0x40, 0x10, 32, .rw, fun _ p => F.FEED_CTL_TRACKEN p⟩,
   ⟨0x44, 0x10, 32, .ro, fun _ p => F.FEED_STAT_PENDING p⟩,
   ⟨0x44, 0x10, 32, .w1c, fun _ p => F.FEED_STAT_MIDPKT p⟩,
   ⟨0x48, 0x10, 32, .ro, fun _ p => F.FEED_CNT_VALUE p⟩]

def rows_sequencer : List RegRow :=
  [⟨0x40, 0x4, 1, .rw, fun m _ => F.SEQ_CTL_RUN m⟩,
   ⟨0x40, 0x4, 1, .rw, fun m _ => F.SEQ_CTL_INIT_STEP m⟩,
   ⟨0x40, 0x4, 1, .rw, fun m _ => F.SEQ_CTL_INIT_SLOT m⟩,
   ⟨0x40, 0x4, 1, .rw, fun m _ => F.SEQ_CTL_PARITY_ACT m⟩,
   ⟨0x44, 0x4, 1, .ro, fun m _ => F.SEQ_STAT_STEP m⟩,
   ⟨0x44, 0x4, 1, .ro, fun m _ => F.SEQ_STAT_ACTIVE_SLOT m⟩,
   ⟨0x44, 0x4, 1, .ro, fun m _ => F.SEQ_STAT_SWITCHING m⟩,
   ⟨0x44, 0x4, 1, .ro, fun m _ => F.SEQ_STAT_PENDING m⟩,
   ⟨0x44, 0x4, 1, .ro, fun m _ => F.SEQ_STAT_RUNNING m⟩,
   ⟨0x44, 0x4, 1, .ro, fun m _ => F.SEQ_STAT_HALT_CAUSE m⟩,
   ⟨0x44, 0x4, 1, .w1c, fun m _ => F.SEQ_STAT_GO_IGNORED m⟩,
   ⟨0x44, 0x4, 1, .w1c, fun m _ => F.SEQ_STAT_FORCE_REFUSED m⟩,
   ⟨0x44, 0x4, 1, .w1c, fun m _ => F.SEQ_STAT_LATE_BEAT m⟩,
   ⟨0x44, 0x4, 1, .w1c, fun m _ => F.SEQ_STAT_BTIMEOUT m⟩,
   ⟨0x48, 0x4, 1, .wo, fun m _ => F.SEQ_CMD_GO m⟩,
   ⟨0x48, 0x4, 1, .wo, fun m _ => F.SEQ_CMD_FORCE m⟩,
   ⟨0x48, 0x4, 1, .wo, fun m _ => F.SEQ_CMD_FORCE_SLOT m⟩,
   ⟨0x48, 0x4, 1, .wo, fun m _ => F.SEQ_CMD_FORCE_MODE m⟩,
   ⟨0x4C, 0x4, 1, .w1ca, fun m _ => F.SEQ_DISCARD_VALUE m⟩,
   ⟨0x50, 0x4, 1, .ro, fun m _ => F.SEQ_SWCNT_VALUE m⟩,
   ⟨0x54, 0x4, 1, .w1ca, fun m _ => F.SEQ_MISS_VALUE m⟩,
   ⟨0x58, 0x4, 1, .ro, fun m _ => F.SEQ_LASTBEAT_SEQ m⟩,
   ⟨0x58, 0x4, 1, .ro, fun m _ => F.SEQ_LASTBEAT_CH m⟩,
   ⟨0x5C, 0x4, 1, .ro, fun m _ => F.SLOT_VALID_BITS m⟩,
   ⟨0x60, 0x4, 1, .rw, fun m _ => F.SEQ_WAKE_RELOAD m⟩,
   ⟨0x64, 0x4, 1, .rw, fun m _ => F.SEQ_BTIMEOUT_CYCLES m⟩,
   ⟨0x70, 0x4, 1, .ro, fun m _ => F.MASSIF_STAT_CONTROL_POISON m⟩,
   ⟨0x70, 0x4, 1, .ro, fun m _ => F.MASSIF_STAT_SLOT_PARITY m⟩,
   ⟨0x70, 0x4, 1, .ro, fun m _ => F.MASSIF_STAT_STOPPED m⟩,
   ⟨0x200, 0x8, 64, .rw, fun m s => F.STEP_LO_VALUE m s⟩,
   ⟨0x204, 0x8, 64, .rw, fun m s => F.STEP_HI_VALUE m s⟩]

def rows_loader : List RegRow :=
  [⟨0x40, 0x4, 1, .wo, fun m _ => F.LD_CTL_GO m⟩,
   ⟨0x40, 0x4, 1, .rw, fun m _ => F.LD_CTL_OP m⟩,
   ⟨0x40, 0x4, 1, .rw, fun m _ => F.LD_CTL_SLOT m⟩,
   ⟨0x40, 0x4, 1, .rw, fun m _ => F.LD_CTL_SRC m⟩,
   ⟨0x44, 0x4, 1, .rw, fun m _ => F.LD_ADDR_LO_VALUE m⟩,
   ⟨0x48, 0x4, 1, .rw, fun m _ => F.LD_ADDR_HI_VALUE m⟩,
   ⟨0x4C, 0x4, 1, .ro, fun m _ => F.LD_STAT_BUSY m⟩,
   ⟨0x4C, 0x4, 1, .w1c, fun m _ => F.LD_STAT_DONE m⟩,
   ⟨0x4C, 0x4, 1, .w1c, fun m _ => F.LD_STAT_FAULT m⟩,
   ⟨0x4C, 0x4, 1, .ro, fun m _ => F.LD_STAT_CODE m⟩,
   ⟨0x4C, 0x4, 1, .w1c, fun m _ => F.LD_STAT_REFUSED m⟩,
   ⟨0x50, 0x4, 1, .ro, fun m _ => F.LD_FAULT_TILE m⟩,
   ⟨0x50, 0x4, 1, .ro, fun m _ => F.LD_FAULT_TV m⟩,
   ⟨0x80, 0x4, 16, .ro, fun m s => F.SLOT_ID_VALUE m s⟩,
   ⟨0xC0, 0x4, 16, .ro, fun m s => F.SLOT_SRC_SRC m s⟩,
   ⟨0xC0, 0x4, 16, .ro, fun m s => F.SLOT_SRC_ADDR m s⟩,
   ⟨0x100, 0x4, 16, .ro, fun m s => F.SLOT_INFO_DRAIN m s⟩]

def rows_queue_0 : List RegRow :=
  [⟨0x40, 0x4, 1, .ro, fun m _ => F.POOL_STAT_FREE m⟩,
   ⟨0x40, 0x4, 1, .ro, fun m _ => F.POOL_STAT_RSVSUM m⟩,
   ⟨0x100, 0x40, 32, .rw, fun m q => F.SQ_CTL_EN m q⟩,
   ⟨0x100, 0x40, 32, .rw, fun m q => F.SQ_CTL_FULL m q⟩,
   ⟨0x100, 0x40, 32, .rw, fun m q => F.SQ_CTL_RELMODE m q⟩,
   ⟨0x100, 0x40, 32, .rw, fun m q => F.SQ_CTL_WSRC m q⟩,
   ⟨0x100, 0x40, 32, .rw, fun m q => F.SQ_CTL_RSINK m q⟩,
   ⟨0x100, 0x40, 32, .rw, fun m q => F.SQ_CTL_TAILACT m q⟩,
   ⟨0x100, 0x40, 32, .rw, fun m q => F.SQ_CTL_FMARK m q⟩,
   ⟨0x100, 0x40, 32, .wo, fun m q => F.SQ_CTL_CLEAR m q⟩,
   ⟨0x104, 0x40, 32, .rw, fun m q => F.SQ_BIND_WTILE m q⟩,
   ⟨0x104, 0x40, 32, .rw, fun m q => F.SQ_BIND_WDIR m q⟩,
   ⟨0x104, 0x40, 32, .rw, fun m q => F.SQ_BIND_WTRK m q⟩,
   ⟨0x104, 0x40, 32, .rw, fun m q => F.SQ_BIND_WEN m q⟩,
   ⟨0x104, 0x40, 32, .rw, fun m q => F.SQ_BIND_RTILE m q⟩,
   ⟨0x104, 0x40, 32, .rw, fun m q => F.SQ_BIND_RDIR m q⟩,
   ⟨0x104, 0x40, 32, .rw, fun m q => F.SQ_BIND_RTRK m q⟩,
   ⟨0x104, 0x40, 32, .rw, fun m q => F.SQ_BIND_REN m q⟩,
   ⟨0x108, 0x40, 32, .rw, fun m q => F.SQ_QUOTA_GRAN m q⟩,
   ⟨0x108, 0x40, 32, .rw, fun m q => F.SQ_QUOTA_RSV m q⟩,
   ⟨0x10C, 0x40, 32, .ro, fun m q => F.SQ_STAT_EMPTY m q⟩,
   ⟨0x10C, 0x40, 32, .ro, fun m q => F.SQ_STAT_FULL m q⟩,
   ⟨0x10C, 0x40, 32, .ro, fun m q => F.SQ_STAT_OVER_QUOTA m q⟩,
   ⟨0x10C, 0x40, 32, .ro, fun m q => F.SQ_STAT_MARK_VALID m q⟩,
   ⟨0x10C, 0x40, 32, .ro, fun m q => F.SQ_STAT_CAIRN_PENDING m q⟩,
   ⟨0x10C, 0x40, 32, .ro, fun m q => F.SQ_STAT_BIND_CONFLICT m q⟩,
   ⟨0x10C, 0x40, 32, .w1c, fun m q => F.SQ_STAT_DROPPED m q⟩,
   ⟨0x10C, 0x40, 32, .w1c, fun m q => F.SQ_STAT_MARK_LOST m q⟩,
   ⟨0x10C, 0x40, 32, .w1c, fun m q => F.SQ_STAT_REWIND_ERR m q⟩,
   ⟨0x10C, 0x40, 32, .w1c, fun m q => F.SQ_STAT_CMD_ERR m q⟩,
   ⟨0x10C, 0x40, 32, .w1c, fun m q => F.SQ_STAT_CFG_REFUSED m q⟩,
   ⟨0x10C, 0x40, 32, .w1c, fun m q => F.SQ_STAT_TAIL_TIMEOUT m q⟩,
   ⟨0x10C, 0x40, 32, .w1c, fun m q => F.SQ_STAT_PARITY m q⟩,
   ⟨0x10C, 0x40, 32, .w1c, fun m q => F.SQ_STAT_PUT_REFUSED m q⟩,
   ⟨0x110, 0x40, 32, .ro, fun m q => F.SQ_FILL_WORDS m q⟩,
   ⟨0x110, 0x40, 32, .ro, fun m q => F.SQ_FILL_GRAN m q⟩,
   ⟨0x114, 0x40, 32, .ro, fun m q => F.SQ_PKT_COUNT m q⟩,
   ⟨0x114, 0x40, 32, .w1ca, fun m q => F.SQ_PKT_FORCED m q⟩,
   ⟨0x118, 0x40, 32, .rw, fun m q => F.SQ_DEST_ROUTER m q⟩,
   ⟨0x118, 0x40, 32, .rw, fun m q => F.SQ_DEST_QUEUE m q⟩]

def rows_queue_1 : List RegRow :=
  [⟨0x11C, 0x40, 32, .w1ca, fun m q => F.SQ_DROP_VALUE m q⟩,
   ⟨0x120, 0x40, 32, .w1ca, fun m q => F.SQ_PARCNT_VALUE m q⟩,
   ⟨0x124, 0x40, 32, .rw, fun m q => F.SQ_TAIL_CYCLES m q⟩,
   ⟨0x124, 0x40, 32, .rw, fun m q => F.SQ_TAIL_SCALE m q⟩,
   ⟨0x128, 0x40, 32, .rw, fun m q => F.SQ_AUX_WIN_N m q⟩,
   ⟨0x128, 0x40, 32, .rw, fun m q => F.SQ_AUX_STAMPSRC m q⟩,
   ⟨0x128, 0x40, 32, .rw, fun m q => F.SQ_AUX_STAMPCH m q⟩,
   ⟨0x12C, 0x40, 32, .wo, fun m q => F.SQ_CMD_OP m q⟩,
   ⟨0x130, 0x40, 32, .rw, fun m q => F.SQ_PUTSB_EPM m q⟩,
   ⟨0x134, 0x40, 32, .wo, fun m q => F.SQ_PUT_D m q⟩,
   ⟨0x138, 0x40, 32, .ro, fun m q => F.SQ_GET_D m q⟩,
   ⟨0x13C, 0x40, 32, .ro, fun m q => F.SQ_GETSB_VEPM m q⟩,
   ⟨0xA00, 0x20, 32, .ro, fun m q => F.SQ_WP_VALUE m q⟩,
   ⟨0xA04, 0x20, 32, .ro, fun m q => F.SQ_RP_VALUE m q⟩,
   ⟨0xA08, 0x20, 32, .ro, fun m q => F.SQ_RL_VALUE m q⟩,
   ⟨0xA0C, 0x20, 32, .ro, fun m q => F.SQ_MK_VALUE m q⟩,
   ⟨0xA10, 0x20, 32, .ro, fun m q => F.SQ_LASTFORCED_VALUE m q⟩]

def rows_laneRxQueue : List RegRow :=
  [⟨0x40, 0x20, 8, .ro, fun g f => F.LRQ_STAT_EMPTY g f⟩,
   ⟨0x40, 0x20, 8, .ro, fun g f => F.LRQ_STAT_FULL g f⟩,
   ⟨0x40, 0x20, 8, .ro, fun g f => F.LRQ_STAT_CAIRN_PENDING g f⟩,
   ⟨0x40, 0x20, 8, .w1c, fun g f => F.LRQ_STAT_DROPPED g f⟩,
   ⟨0x40, 0x20, 8, .w1c, fun g f => F.LRQ_STAT_TAIL_TIMEOUT g f⟩,
   ⟨0x40, 0x20, 8, .w1c, fun g f => F.LRQ_STAT_PARITY g f⟩,
   ⟨0x44, 0x20, 8, .ro, fun g f => F.LRQ_FILL_WORDS g f⟩,
   ⟨0x44, 0x20, 8, .w1ca, fun g f => F.LRQ_FILL_HIGHWATER g f⟩,
   ⟨0x48, 0x20, 8, .w1ca, fun g f => F.LRQ_DROP_VALUE g f⟩,
   ⟨0x4C, 0x20, 8, .w1ca, fun g f => F.LRQ_PARCNT_VALUE g f⟩,
   ⟨0x50, 0x20, 8, .rw, fun g f => F.LRQ_TAIL_CYCLES g f⟩,
   ⟨0x50, 0x20, 8, .rw, fun g f => F.LRQ_TAIL_SCALE g f⟩,
   ⟨0x50, 0x20, 8, .rw, fun g f => F.LRQ_TAIL_TAILACT g f⟩,
   ⟨0x50, 0x20, 8, .rw, fun g f => F.LRQ_TAIL_FMARK g f⟩]

def rows_collector : List RegRow :=
  [⟨0x40, 0x4, 1, .rw, fun _ _ => F.COL_CTL_EN⟩,
   ⟨0x40, 0x4, 1, .rw, fun _ _ => F.COL_CTL_ORDER⟩,
   ⟨0x40, 0x4, 1, .rw, fun _ _ => F.COL_CTL_SINK⟩,
   ⟨0x40, 0x4, 1, .rw, fun _ _ => F.COL_CTL_SINKCH⟩,
   ⟨0x40, 0x4, 1, .rw, fun _ _ => F.COL_CTL_ETHCL⟩,
   ⟨0x44, 0x4, 1, .rw, fun _ _ => F.COL_ORDER_ENC⟩,
   ⟨0x48, 0x4, 1, .rw, fun _ _ => F.COL_LAG_VALUE⟩,
   ⟨0x4C, 0x4, 1, .w1c, fun _ _ => F.COL_STAT_ORDER_VIOL⟩,
   ⟨0x4C, 0x4, 1, .ro, fun _ _ => F.COL_STAT_OUTFULL⟩,
   ⟨0x4C, 0x4, 1, .ro, fun _ _ => F.COL_STAT_OUTOCC⟩,
   ⟨0x50, 0x4, 1, .rw, fun _ _ => F.COL_INEN_LO_BITS⟩,
   ⟨0x54, 0x4, 1, .rw, fun _ _ => F.COL_INEN_HI_BITS⟩,
   ⟨0x58, 0x4, 1, .ro, fun _ _ => F.COL_OUTCNT_VALUE⟩,
   ⟨0x5C, 0x4, 1, .w1ca, fun _ _ => F.COL_POISONCNT_VALUE⟩,
   ⟨0x60, 0x4, 1, .w1ca, fun _ _ => F.COL_LATECNT_VALUE⟩,
   ⟨0x80, 0x4, 16, .ro, fun _ j => F.COL_OCC_VALUE j⟩]

def rows_shelf : List RegRow :=
  [⟨0x40, 0x4, 1, .wo, fun m _ => F.SH_CTL_CLEAR m⟩,
   ⟨0x44, 0x4, 1, .ro, fun m _ => F.SH_STAT_CLEARING m⟩,
   ⟨0x44, 0x4, 1, .w1c, fun m _ => F.SH_STAT_CFG_REFUSED m⟩,
   ⟨0x44, 0x4, 1, .w1c, fun m _ => F.SH_STAT_MARKER m⟩,
   ⟨0x48, 0x4, 1, .w1ca, fun m _ => F.SH_WAIT_LD_VALUE m⟩,
   ⟨0x4C, 0x4, 1, .w1ca, fun m _ => F.SH_WAIT_CALLER_VALUE m⟩,
   ⟨0x50, 0x4, 1, .w1ca, fun m _ => F.SH_WAIT_RIDGE_VALUE m⟩,
   ⟨0x54, 0x4, 1, .w1ca, fun m _ => F.SH_WAIT_SCRUB_VALUE m⟩,
   ⟨0x58, 0x4, 1, .w1ca, fun m _ => F.SCRUB_OVERDUE_VALUE m⟩,
   ⟨0x100, 0x20, 4, .rw, fun m p => F.SHP_CTL_EN m p⟩,
   ⟨0x100, 0x20, 4, .rw, fun m p => F.SHP_CTL_MODE m p⟩,
   ⟨0x104, 0x20, 4, .rw, fun m p => F.SHP_BIND_QTILE m p⟩,
   ⟨0x104, 0x20, 4, .rw, fun m p => F.SHP_BIND_QDIR m p⟩,
   ⟨0x104, 0x20, 4, .rw, fun m p => F.SHP_BIND_QTRK m p⟩,
   ⟨0x104, 0x20, 4, .rw, fun m p => F.SHP_BIND_QEN m p⟩,
   ⟨0x108, 0x20, 4, .rw, fun m p => F.SHP_BIND_DTILE m p⟩,
   ⟨0x108, 0x20, 4, .rw, fun m p => F.SHP_BIND_DDIR m p⟩,
   ⟨0x108, 0x20, 4, .rw, fun m p => F.SHP_BIND_DTRK m p⟩,
   ⟨0x108, 0x20, 4, .rw, fun m p => F.SHP_BIND_DEN m p⟩,
   ⟨0x10C, 0x20, 4, .rw, fun m p => F.SHP_BIND_RTILE m p⟩,
   ⟨0x10C, 0x20, 4, .rw, fun m p => F.SHP_BIND_RDIR m p⟩,
   ⟨0x10C, 0x20, 4, .rw, fun m p => F.SHP_BIND_RTRK m p⟩,
   ⟨0x10C, 0x20, 4, .rw, fun m p => F.SHP_BIND_REN m p⟩,
   ⟨0x110, 0x20, 4, .rw, fun m p => F.SHP_BASE_WORD m p⟩,
   ⟨0x114, 0x20, 4, .ro, fun m p => F.SHP_STAT_OUTST m p⟩,
   ⟨0x114, 0x20, 4, .ro, fun m p => F.SHP_STAT_BIND_CONFLICT m p⟩,
   ⟨0x118, 0x20, 4, .ro, fun m p => F.SHP_CNT_VALUE m p⟩]

def rows_blockMem : List RegRow :=
  [⟨0x40, 0x4, 24, .rw, fun m k => F.BM_CFG_ASPECT m k⟩,
   ⟨0xA0, 0x4, 1, .ro, fun m _ => F.BM_USE_BITS m⟩,
   ⟨0xA4, 0x4, 1, .ro, fun m _ => F.BM_ACTA_BITS m⟩,
   ⟨0xA8, 0x4, 1, .ro, fun m _ => F.BM_ACTB_BITS m⟩,
   ⟨0xB0, 0x4, 1, .wo, fun m _ => F.BM_ACC_CTL_GO m⟩,
   ⟨0xB0, 0x4, 1, .rw, fun m _ => F.BM_ACC_CTL_WRITE m⟩,
   ⟨0xB0, 0x4, 1, .ro, fun m _ => F.BM_ACC_CTL_BUSY m⟩,
   ⟨0xB0, 0x4, 1, .ro, fun m _ => F.BM_ACC_CTL_PORT m⟩,
   ⟨0xB4, 0x4, 1, .rw, fun m _ => F.BM_ACC_ADDR_ADDR m⟩,
   ⟨0xB4, 0x4, 1, .rw, fun m _ => F.BM_ACC_ADDR_MEM m⟩,
   ⟨0xB8, 0x4, 1, .rw, fun m _ => F.BM_ACC_DLO_VALUE m⟩,
   ⟨0xBC, 0x4, 1, .rw, fun m _ => F.BM_ACC_DHI_VALUE m⟩,
   ⟨0xC0, 0x4, 1, .rw, fun m _ => F.BM_ACC_SB_EPM m⟩,
   ⟨0xC4, 0x4, 1, .w1c, fun m _ => F.BM_STAT_CFG_REFUSED m⟩,
   ⟨0xC4, 0x4, 1, .w1c, fun m _ => F.BM_STAT_ACC_REFUSED m⟩,
   ⟨0xC4, 0x4, 1, .w1c, fun m _ => F.BM_STAT_COLLIDE m⟩,
   ⟨0xC8, 0x4, 1, .w1ca, fun m _ => F.BM_PARCNT_VALUE m⟩,
   ⟨0xCC, 0x4, 1, .w1ca, fun m _ => F.BM_COLLCNT_VALUE m⟩]

def rows_hbmGlobal : List RegRow :=
  [⟨0x40, 0x4, 1, .rw, fun _ _ => F.HBM_CTL_EN⟩,
   ⟨0x44, 0x4, 1, .rw, fun _ _ => F.HBM_MAP_MODE⟩,
   ⟨0x48, 0x4, 1, .ro, fun _ _ => F.HBM_STAT_READY0⟩,
   ⟨0x48, 0x4, 1, .ro, fun _ _ => F.HBM_STAT_READY1⟩,
   ⟨0x48, 0x4, 1, .w1c, fun _ _ => F.HBM_STAT_CFG_REFUSED⟩,
   ⟨0x80, 0x4, 12, .rw, fun _ j => F.HBM_CLASSMAP_CLASS 0 j⟩,
   ⟨0x80, 0x4, 12, .rw, fun _ j => F.HBM_CLASSMAP_CLASS 1 j⟩,
   ⟨0x80, 0x4, 12, .rw, fun _ j => F.HBM_CLASSMAP_CLASS 2 j⟩,
   ⟨0x80, 0x4, 12, .rw, fun _ j => F.HBM_CLASSMAP_CLASS 3 j⟩,
   ⟨0x80, 0x4, 12, .rw, fun _ j => F.HBM_CLASSMAP_CLASS 4 j⟩,
   ⟨0x80, 0x4, 12, .rw, fun _ j => F.HBM_CLASSMAP_CLASS 5 j⟩,
   ⟨0x80, 0x4, 12, .rw, fun _ j => F.HBM_CLASSMAP_CLASS 6 j⟩,
   ⟨0x80, 0x4, 12, .rw, fun _ j => F.HBM_CLASSMAP_CLASS 7 j⟩]

def rows_hbmChannel : List RegRow :=
  [⟨0x40, 0x4, 8, .rw, fun c k => F.HBM_SHARE_OUTST c k⟩,
   ⟨0x40, 0x4, 8, .rw, fun c k => F.HBM_SHARE_WEIGHT c k⟩,
   ⟨0x60, 0x4, 8, .ro, fun c k => F.HBM_CLSTAT_ADMITTED c k⟩,
   ⟨0x60, 0x4, 8, .ro, fun c k => F.HBM_CLSTAT_OVER_QUOTA c k⟩,
   ⟨0x80, 0x4, 1, .ro, fun c _ => F.HBM_CH_STAT_OCC c⟩,
   ⟨0x80, 0x4, 1, .ro, fun c _ => F.HBM_CH_STAT_SELFREF c⟩,
   ⟨0x84, 0x4, 1, .ro, fun c _ => F.HBM_RDCNT_VALUE c⟩,
   ⟨0x88, 0x4, 1, .ro, fun c _ => F.HBM_WRCNT_VALUE c⟩,
   ⟨0x8C, 0x4, 1, .ro, fun c _ => F.HBM_RMWCNT_VALUE c⟩,
   ⟨0xC0, 0x4, 1, .rw, fun c _ => F.HSCRUB_CTL_EN c⟩,
   ⟨0xC0, 0x4, 1, .w1s, fun c _ => F.HSCRUB_CTL_INIT c⟩,
   ⟨0xC4, 0x4, 1, .rw, fun c _ => F.HSCRUB_INT_NS c⟩,
   ⟨0xC8, 0x4, 1, .ro, fun c _ => F.HSCRUB_PTR_BLOCK c⟩,
   ⟨0xCC, 0x4, 1, .w1ca, fun c _ => F.HBM_CECNT_VALUE c⟩,
   ⟨0xD0, 0x4, 1, .w1ca, fun c _ => F.HBM_POISONRD_VALUE c⟩,
   ⟨0xD4, 0x4, 1, .w1ca, fun c _ => F.HBM_ODECNT_CORR c⟩,
   ⟨0xD4, 0x4, 1, .w1ca, fun c _ => F.HBM_ODECNT_UNCORR c⟩,
   ⟨0xD8, 0x4, 1, .w1ca, fun c _ => F.HSCRUB_OVERDUE_VALUE c⟩]

def rows_shelfInt : List RegRow :=
  [⟨0x40, 0x4, 1, .rw, fun m _ => F.SCRUB_CTL_EN m⟩,
   ⟨0x44, 0x4, 1, .rw, fun m _ => F.SCRUB_INT_CYCLES m⟩,
   ⟨0x48, 0x4, 1, .ro, fun m _ => F.SCRUB_PTR_WORD m⟩,
   ⟨0x4C, 0x4, 1, .ro, fun m _ => F.SCRUB_PASSCNT_VALUE m⟩,
   ⟨0x50, 0x4, 1, .w1ca, fun m _ => F.SH_CECNT_VALUE m⟩,
   ⟨0x54, 0x4, 1, .w1ca, fun m _ => F.SH_POISONRD_VALUE m⟩,
   ⟨0x58, 0x4, 1, .w1ca, fun m _ => F.SCRUB_POISON_VALUE m⟩,
   ⟨0x5C, 0x4, 1, .ro, fun m _ => F.SH_CELOG_WORD m⟩,
   ⟨0x5C, 0x4, 1, .ro, fun m _ => F.SH_CELOG_SYND m⟩,
   ⟨0x5C, 0x4, 1, .ro, fun m _ => F.SH_CELOG_REQ m⟩,
   ⟨0x5C, 0x4, 1, .ro, fun m _ => F.SH_CELOG_OVERFLOW m⟩,
   ⟨0x5C, 0x4, 1, .ro, fun m _ => F.SH_CELOG_VALID m⟩]

def rows_integrity : List RegRow :=
  [⟨0x40, 0x4, 1, .rw, fun _ _ => F.REPAIR_CTL_AUTO⟩,
   ⟨0x40, 0x4, 1, .rw, fun _ _ => F.REPAIR_CTL_THRESH⟩,
   ⟨0x44, 0x4, 1, .ro, fun _ _ => F.REPAIR_STAT_USED⟩,
   ⟨0x44, 0x4, 1, .ro, fun _ _ => F.REPAIR_STAT_PENDING⟩,
   ⟨0x44, 0x4, 1, .w1c, fun _ _ => F.REPAIR_STAT_MAP_FULL⟩,
   ⟨0x44, 0x4, 1, .w1c, fun _ _ => F.REPAIR_STAT_NO_SPARE⟩,
   ⟨0x44, 0x4, 1, .ro, fun _ _ => F.REPAIR_STAT_SKIPPED⟩,
   ⟨0x48, 0x4, 1, .ro, fun _ _ => F.REPAIR_LAST_ENTRY⟩,
   ⟨0x100, 0x4, 256, .ro, fun _ i => F.REPAIR_MAP_ENTRY i⟩,
   ⟨0x500, 0x8, 64, .ro, fun _ m => F.SPARE_FREE_LO_BITS m⟩,
   ⟨0x504, 0x8, 64, .ro, fun _ m => F.SPARE_FREE_HI_BITS m⟩]

def rows_ridgeGlobal : List RegRow :=
  [⟨0x40, 0x4, 1, .rw, fun _ _ => F.RT_ORDER_SH_MODE⟩,
   ⟨0x44, 0x4, 1, .ro, fun _ _ => F.RT_ORDER_MODE⟩,
   ⟨0x48, 0x4, 1, .wo, fun _ _ => F.RT_ACT_VNMASK⟩,
   ⟨0x48, 0x4, 1, .wo, fun _ _ => F.RT_ACT_GO⟩,
   ⟨0x4C, 0x4, 1, .ro, fun _ _ => F.RT_ACTSTAT_BUSY⟩,
   ⟨0x4C, 0x4, 1, .w1c, fun _ _ => F.RT_ACTSTAT_DONE⟩,
   ⟨0x4C, 0x4, 1, .w1c, fun _ _ => F.RT_ACTSTAT_ABORT⟩,
   ⟨0x4C, 0x4, 1, .w1c, fun _ _ => F.RT_ACTSTAT_BAD⟩,
   ⟨0x4C, 0x4, 1, .w1c, fun _ _ => F.RT_ACTSTAT_WR_REFUSED⟩,
   ⟨0x4C, 0x4, 1, .ro, fun _ _ => F.RT_ACTSTAT_BADROUTER⟩,
   ⟨0x4C, 0x4, 1, .ro, fun _ _ => F.RT_ACTSTAT_BADVN⟩,
   ⟨0x4C, 0x4, 1, .ro, fun _ _ => F.RT_ACTSTAT_BADDEST⟩,
   ⟨0x50, 0x4, 1, .rw, fun _ _ => F.RT_DRAIN_LIM_CYCLES⟩,
   ⟨0x54, 0x4, 1, .rw, fun _ _ => F.RT_STALL_LIM_CYCLES⟩,
   ⟨0x58, 0x4, 1, .rw, fun _ _ => F.RQ_TIMEOUT_CYCLES⟩,
   ⟨0x5C, 0x4, 1, .ro, fun _ _ => F.RIDGE_STAT_SUMMIT_NONCONF⟩,
   ⟨0x5C, 0x4, 1, .w1c, fun _ _ => F.RIDGE_STAT_STALL⟩]

def rows_router : List RegRow :=
  [⟨0x40, 0x8, 5, .rw, fun n v => F.RG_CFG_PERIOD n v⟩,
   ⟨0x40, 0x8, 5, .rw, fun n v => F.RG_CFG_BURST n v⟩,
   ⟨0x44, 0x8, 5, .ro, fun n v => F.RG_STAT_TOKENS n v⟩,
   ⟨0x44, 0x8, 5, .ro, fun n v => F.RG_STAT_OVER_QUOTA n v⟩,
   ⟨0x44, 0x8, 5, .ro, fun n v => F.RG_STAT_NONCONF n v⟩,
   ⟨0x68, 0x4, 1, .rw, fun n _ => F.NI_OUTST_LIMIT n⟩,
   ⟨0x6C, 0x4, 1, .ro, fun n _ => F.NI_STAT_OUTST n⟩,
   ⟨0x6C, 0x4, 1, .ro, fun n _ => F.NI_STAT_OVER_QUOTA n⟩,
   ⟨0x70, 0x4, 1, .w1ca, fun n _ => F.RT_CECNT_VALUE n⟩,
   ⟨0x74, 0x4, 1, .w1ca, fun n _ => F.RT_UECNT_VALUE n⟩,
   ⟨0x78, 0x4, 1, .w1ca, fun n _ => F.RT_DISCARD_VALUE n⟩,
   ⟨0x7C, 0x4, 1, .w1ca, fun n _ => F.RT_TIMEOUTCNT_VALUE n⟩,
   ⟨0x80, 0x4, 1, .w1ca, fun n _ => F.RT_LATERESP_VALUE n⟩,
   ⟨0x84, 0x4, 1, .w1c, fun n _ => F.RT_STALLSTAT_VN n⟩,
   ⟨0x100, 0x4, 12, .rw, fun n j => F.RT_SHADOW1_ENTRIES n j⟩,
   ⟨0x140, 0x4, 12, .rw, fun n j => F.RT_SHADOW2_ENTRIES n j⟩,
   ⟨0x180, 0x4, 12, .rw, fun n j => F.RT_SHADOW3_ENTRIES n j⟩,
   ⟨0x1C0, 0x4, 12, .rw, fun n j => F.RT_SHADOW4_ENTRIES n j⟩,
   ⟨0x200, 0x4, 12, .ro, fun n j => F.RT_ACTIVE1_ENTRIES n j⟩,
   ⟨0x240, 0x4, 12, .ro, fun n j => F.RT_ACTIVE2_ENTRIES n j⟩,
   ⟨0x280, 0x4, 12, .ro, fun n j => F.RT_ACTIVE3_ENTRIES n j⟩,
   ⟨0x2C0, 0x4, 12, .ro, fun n j => F.RT_ACTIVE4_ENTRIES n j⟩]

def rows_tempoGlobal : List RegRow :=
  [⟨0x40, 0x4, 1, .ro, fun _ _ => F.TMP_ID_ID⟩,
   ⟨0x44, 0x4, 1, .rw, fun _ _ => F.TMP_CFG_ROOTPRI⟩,
   ⟨0x44, 0x4, 1, .rw, fun _ _ => F.TMP_CFG_EN⟩,
   ⟨0x44, 0x4, 1, .rw, fun _ _ => F.TMP_CFG_PTPDISC⟩,
   ⟨0x44, 0x4, 1, .rw, fun _ _ => F.TMP_CFG_PTPCL⟩,
   ⟨0x48, 0x4, 1, .rw, fun _ _ => F.TMP_LEAD_NS⟩,
   ⟨0x4C, 0x4, 1, .rw, fun _ _ => F.TMP_STEPLIM_NS⟩,
   ⟨0x50, 0x4, 1, .ro, fun _ _ => F.TMP_STAT_STATE⟩,
   ⟨0x50, 0x4, 1, .ro, fun _ _ => F.TMP_STAT_DEPTH⟩,
   ⟨0x50, 0x4, 1, .ro, fun _ _ => F.TMP_STAT_UPPORT⟩,
   ⟨0x50, 0x4, 1, .ro, fun _ _ => F.TMP_STAT_UPVALID⟩,
   ⟨0x50, 0x4, 1, .w1c, fun _ _ => F.TMP_STAT_DUPID⟩,
   ⟨0x50, 0x4, 1, .ro, fun _ _ => F.TMP_STAT_TOO_DEEP⟩,
   ⟨0x50, 0x4, 1, .w1c, fun _ _ => F.TMP_STAT_STEPPED⟩,
   ⟨0x50, 0x4, 1, .w1c, fun _ _ => F.TMP_STAT_LATE_SAMPLE⟩,
   ⟨0x50, 0x4, 1, .ro, fun _ _ => F.TMP_STAT_TB_AHEAD⟩,
   ⟨0x50, 0x4, 1, .w1c, fun _ _ => F.TMP_STAT_REROOT⟩,
   ⟨0x50, 0x4, 1, .ro, fun _ _ => F.TMP_STAT_NOPOS⟩,
   ⟨0x54, 0x4, 1, .ro, fun _ _ => F.TMP_ROOT_ROOTID⟩,
   ⟨0x54, 0x4, 1, .ro, fun _ _ => F.TMP_ROOT_ROOTPRI⟩,
   ⟨0x58, 0x4, 1, .ro, fun _ _ => F.TMP_OFFSET_VALUE⟩,
   ⟨0x5C, 0x4, 1, .w1ca, fun _ _ => F.TMP_LATECNT_VALUE⟩]

def rows_tempoPort : List RegRow :=
  [⟨0x40, 0x4, 1, .rw, fun p _ => F.TP_CTL_EN p⟩,
   ⟨0x40, 0x4, 1, .rw, fun p _ => F.TP_CTL_MODE p⟩,
   ⟨0x40, 0x4, 1, .rw, fun p _ => F.TP_CTL_V1ROLE p⟩,
   ⟨0x40, 0x4, 1, .rw, fun p _ => F.TP_CTL_FEED p⟩,
   ⟨0x40, 0x4, 1, .rw, fun p _ => F.TP_CTL_TAP p⟩,
   ⟨0x44, 0x4, 1, .ro, fun p _ => F.TP_STAT_LINK p⟩,
   ⟨0x44, 0x4, 1, .ro, fun p _ => F.TP_STAT_ROLE p⟩,
   ⟨0x44, 0x4, 1, .w1c, fun p _ => F.TP_STAT_LOSS p⟩,
   ⟨0x44, 0x4, 1, .ro, fun p _ => F.TP_STAT_ONEWAY p⟩,
   ⟨0x48, 0x4, 1, .ro, fun p _ => F.TP_NBR_ID p⟩,
   ⟨0x48, 0x4, 1, .ro, fun p _ => F.TP_NBR_DEPTH p⟩,
   ⟨0x4C, 0x4, 1, .ro, fun p _ => F.TP_DELAY_VALUE p⟩,
   ⟨0x50, 0x4, 1, .rw, fun p _ => F.TP_ASYM_VALUE p⟩,
   ⟨0x54, 0x4, 1, .w1ca, fun p _ => F.TP_CRCERR_VALUE p⟩,
   ⟨0x58, 0x4, 1, .w1ca, fun p _ => F.TP_CODEERR_VALUE p⟩,
   ⟨0x5C, 0x4, 1, .rw, fun p _ => F.TP_TAPDLY_VALUE p⟩]

def rows_tempoMap : List RegRow :=
  [⟨0x40, 0x4, 16, .rw, fun _ c => F.TMP_PUB_EN c⟩,
   ⟨0x40, 0x4, 16, .rw, fun _ c => F.TMP_PUB_ENC c⟩,
   ⟨0x40, 0x4, 16, .rw, fun _ c => F.TMP_PUB_INT c⟩,
   ⟨0x80, 0x4, 16, .rw, fun _ n => F.TMP_FOLLOW_EN n⟩,
   ⟨0x80, 0x4, 16, .rw, fun _ n => F.TMP_FOLLOW_TPC n⟩,
   ⟨0x80, 0x4, 16, .ro, fun _ n => F.TMP_FOLLOW_STALE n⟩,
   ⟨0xC0, 0x4, 16, .rw, fun _ j => F.TMP_SMAP_CH j⟩,
   ⟨0xC0, 0x4, 16, .rw, fun _ j => F.TMP_SMAP_EN j⟩,
   ⟨0xC0, 0x4, 16, .rw, fun _ j => F.TMP_SMAP_PUB j⟩,
   ⟨0x100, 0x4, 32, .rw, fun _ k => F.TMP_BMAP_EN k⟩,
   ⟨0x100, 0x4, 32, .rw, fun _ k => F.TMP_BMAP_ORIGIN k⟩,
   ⟨0x100, 0x4, 32, .rw, fun _ k => F.TMP_BMAP_SRCCH k⟩,
   ⟨0x100, 0x4, 32, .rw, fun _ k => F.TMP_BMAP_LOCALCH k⟩,
   ⟨0x100, 0x4, 32, .w1c, fun _ k => F.TMP_BMAP_GAP k⟩]

def rows_pair_0 : List RegRow :=
  [⟨0x40, 0x4, 1, .rw, fun _ _ => F.PAIR_CFG_EN⟩,
   ⟨0x40, 0x4, 1, .rw, fun _ _ => F.PAIR_CFG_ROLE_PREF⟩,
   ⟨0x40, 0x4, 1, .rw, fun _ _ => F.PAIR_CFG_ARB⟩,
   ⟨0x40, 0x4, 1, .rw, fun _ _ => F.PAIR_CFG_CMP⟩,
   ⟨0x40, 0x4, 1, .rw, fun _ _ => F.PAIR_CFG_TAKE_UNREADY⟩,
   ⟨0x40, 0x4, 1, .rw, fun _ _ => F.PAIR_CFG_PAIRID⟩,
   ⟨0x44, 0x4, 1, .rw, fun _ _ => F.PAIR_EPOCH_CH⟩,
   ⟨0x48, 0x4, 1, .rw, fun _ _ => F.PAIR_HB_PERIOD⟩,
   ⟨0x48, 0x4, 1, .rw, fun _ _ => F.PAIR_HB_LOSS⟩,
   ⟨0x4C, 0x4, 1, .rw, fun _ _ => F.PAIR_ARBTO_US⟩,
   ⟨0x50, 0x4, 1, .rw, fun _ _ => F.PAIR_HELLOTO_MS⟩,
   ⟨0x54, 0x4, 1, .rw, fun _ _ => F.PAIR_LISTEN_LG⟩,
   ⟨0x58, 0x4, 1, .rw, fun _ _ => F.PAIR_MBUF_LO_ADDR⟩,
   ⟨0x5C, 0x4, 1, .rw, fun _ _ => F.PAIR_MBUF_HI_ADDR⟩,
   ⟨0x60, 0x4, 1, .rw, fun _ _ => F.PAIR_MBUF_SZ_MIB⟩,
   ⟨0x64, 0x4, 1, .rw, fun _ _ => F.PAIR_HOLD_LO_ADDR⟩,
   ⟨0x68, 0x4, 1, .rw, fun _ _ => F.PAIR_HOLD_HI_ADDR⟩,
   ⟨0x6C, 0x4, 1, .rw, fun _ _ => F.PAIR_HOLD_SZ_MIB⟩,
   ⟨0x70, 0x4, 1, .rw, fun _ _ => F.PAIR_CMP_LAG⟩,
   ⟨0x74, 0x4, 1, .rw, fun _ _ => F.PAIR_CMP_ACT⟩,
   ⟨0x78, 0x4, 1, .wo, fun _ _ => F.PAIR_CMD_SWAP⟩,
   ⟨0x78, 0x4, 1, .wo, fun _ _ => F.PAIR_CMD_TAKEOVER⟩,
   ⟨0x78, 0x4, 1, .wo, fun _ _ => F.PAIR_CMD_STEPDOWN⟩,
   ⟨0x78, 0x4, 1, .wo, fun _ _ => F.PAIR_CMD_RESYNC⟩,
   ⟨0x80, 0x4, 1, .ro, fun _ _ => F.PAIR_STAT_STATE⟩,
   ⟨0x80, 0x4, 1, .ro, fun _ _ => F.PAIR_STAT_PARTNER_READY⟩,
   ⟨0x80, 0x4, 1, .ro, fun _ _ => F.PAIR_STAT_LINK⟩,
   ⟨0x80, 0x4, 1, .w1c, fun _ _ => F.PAIR_STAT_HBLOSS⟩,
   ⟨0x80, 0x4, 1, .w1c, fun _ _ => F.PAIR_STAT_SPLIT⟩,
   ⟨0x80, 0x4, 1, .w1c, fun _ _ => F.PAIR_STAT_ARB_TIMEOUT⟩,
   ⟨0x80, 0x4, 1, .w1c, fun _ _ => F.PAIR_STAT_DIVERGE⟩,
   ⟨0x80, 0x4, 1, .w1c, fun _ _ => F.PAIR_STAT_MIRROR_OVF⟩,
   ⟨0x80, 0x4, 1, .w1c, fun _ _ => F.PAIR_STAT_HOLD_OVF⟩,
   ⟨0x80, 0x4, 1, .w1c, fun _ _ => F.PAIR_STAT_QSKEW⟩,
   ⟨0x80, 0x4, 1, .w1c, fun _ _ => F.PAIR_STAT_SEQSKEW⟩,
   ⟨0x80, 0x4, 1, .w1c, fun _ _ => F.PAIR_STAT_IMG_MISMATCH⟩,
   ⟨0x80, 0x4, 1, .w1c, fun _ _ => F.PAIR_STAT_EPOCH_SKEW⟩,
   ⟨0x80, 0x4, 1, .w1c, fun _ _ => F.PAIR_STAT_CMD_REFUSED⟩,
   ⟨0x80, 0x4, 1, .w1c, fun _ _ => F.PAIR_STAT_DEGRADED⟩,
   ⟨0x84, 0x4, 1, .ro, fun _ _ => F.PAIR_EPSTAT_EPOCH⟩]

def rows_pair_1 : List RegRow :=
  [⟨0x88, 0x4, 1, .ro, fun _ _ => F.PAIR_DLINE_LINE⟩,
   ⟨0x8C, 0x4, 1, .ro, fun _ _ => F.PAIR_DIVLINE_LINE⟩,
   ⟨0x90, 0x4, 1, .w1ca, fun _ _ => F.PAIR_DIVCNT_VALUE⟩,
   ⟨0x94, 0x4, 1, .w1ca, fun _ _ => F.PAIR_MOVFCNT_VALUE⟩,
   ⟨0x98, 0x4, 1, .ro, fun _ _ => F.PAIR_FOCNT_VALUE⟩,
   ⟨0x9C, 0x4, 1, .w1ca, fun _ _ => F.PAIR_QSKIP_VALUE⟩,
   ⟨0xA0, 0x4, 1, .w1ca, fun _ _ => F.PAIR_CMPLATE_VALUE⟩,
   ⟨0xA4, 0x4, 1, .ro, fun _ _ => F.PAIR_SKEWM_MASSIF⟩]

def rows_pairRegion : List RegRow :=
  [⟨0x40, 0x8, 64, .rw, fun _ r => F.PAIR_REG_EN r⟩,
   ⟨0x40, 0x8, 64, .rw, fun _ r => F.PAIR_REG_MASSIF r⟩,
   ⟨0x40, 0x8, 64, .rw, fun _ r => F.PAIR_REG_BASE r⟩,
   ⟨0x44, 0x8, 64, .rw, fun _ r => F.PAIR_REG_LEN r⟩,
   ⟨0x240, 0x4, 64, .rw, fun _ m => F.PAIR_QMASK_BITS m⟩]

def rows_checkpoint : List RegRow :=
  [⟨0x40, 0x10, 68, .rw, fun _ s => F.CKPT_SRC_LO_ADDR s⟩,
   ⟨0x44, 0x10, 68, .rw, fun _ s => F.CKPT_SRC_HI_ADDR s⟩,
   ⟨0x48, 0x10, 68, .rw, fun _ s => F.CKPT_LEN_BYTES s⟩,
   ⟨0x4C, 0x10, 68, .wo, fun _ s => F.CKPT_CTL_POST s⟩,
   ⟨0x4C, 0x10, 68, .w1c, fun _ s => F.CKPT_CTL_DONE s⟩,
   ⟨0x4C, 0x10, 68, .ro, fun _ s => F.CKPT_CTL_BUSY s⟩,
   ⟨0x4C, 0x10, 68, .w1c, fun _ s => F.CKPT_CTL_REFUSED s⟩,
   ⟨0x4C, 0x10, 68, .w1c, fun _ s => F.CKPT_CTL_RCVD s⟩]

def rows_caller : List RegRow :=
  [⟨0x40, 0x4, 1, .rw, fun m _ => F.CL_CTL_RUN m⟩,
   ⟨0x40, 0x4, 1, .wo, fun m _ => F.CL_CTL_HALTREQ m⟩,
   ⟨0x40, 0x4, 1, .wo, fun m _ => F.CL_CTL_STEP m⟩,
   ⟨0x40, 0x4, 1, .wo, fun m _ => F.CL_CTL_RESUME m⟩,
   ⟨0x44, 0x4, 1, .ro, fun m _ => F.CL_STAT_RUNNING m⟩,
   ⟨0x44, 0x4, 1, .ro, fun m _ => F.CL_STAT_HALTED m⟩,
   ⟨0x44, 0x4, 1, .ro, fun m _ => F.CL_STAT_HELD m⟩,
   ⟨0x48, 0x4, 1, .ro, fun m _ => F.CL_HALT_CODE m⟩,
   ⟨0x4C, 0x4, 1, .ro, fun m _ => F.CL_PC_VALUE m⟩,
   ⟨0x50, 0x4, 1, .rw, fun m _ => F.DBG_SEL_REG m⟩,
   ⟨0x50, 0x4, 1, .rw, fun m _ => F.DBG_SEL_CIDX m⟩,
   ⟨0x54, 0x4, 1, .rw, fun m _ => F.DBG_DATA_VALUE m⟩,
   ⟨0x58, 0x4, 1, .w1c, fun m _ => F.CL_DOORBELL_BITS m⟩,
   ⟨0x5C, 0x4, 1, .ro, fun m _ => F.CL_DOORBELL_P m⟩,
   ⟨0x60, 0x4, 1, .rw, fun m _ => F.CL_WAKE_ADDR m⟩,
   ⟨0x64, 0x4, 1, .rw, fun m _ => F.CL_WAKE_LEN m⟩,
   ⟨0x68, 0x4, 1, .rw, fun m _ => F.SUM_HDR_DST m⟩,
   ⟨0x68, 0x4, 1, .rw, fun m _ => F.SUM_HDR_DPORT m⟩,
   ⟨0x68, 0x4, 1, .rw, fun m _ => F.SUM_HDR_TYPE m⟩,
   ⟨0x68, 0x4, 1, .rw, fun m _ => F.SUM_HDR_SIZE m⟩,
   ⟨0x68, 0x4, 1, .wo, fun m _ => F.SUM_HDR_GO m⟩,
   ⟨0x6C, 0x4, 1, .rw, fun m _ => F.SUM_ADDR_ADDR m⟩,
   ⟨0x70, 0x4, 1, .ro, fun m _ => F.SUM_STAT_BUSY m⟩,
   ⟨0x70, 0x4, 1, .w1c, fun m _ => F.SUM_STAT_REFUSED m⟩,
   ⟨0x74, 0x4, 1, .rw, fun m _ => F.TDBG_SEL_TILE m⟩,
   ⟨0x74, 0x4, 1, .rw, fun m _ => F.TDBG_SEL_ITEM m⟩,
   ⟨0x78, 0x4, 1, .rw, fun m _ => F.TDBG_DATA_VALUE m⟩,
   ⟨0x7C, 0x4, 1, .rw, fun m _ => F.TDBG_P_P m⟩,
   ⟨0x7C, 0x4, 1, .w1c, fun m _ => F.TDBG_STAT_REFUSED m⟩,
   ⟨0x7C, 0x4, 1, .w1c, fun m _ => F.TDBG_STAT_LOST m⟩,
   ⟨0x80, 0x4, 1, .rw, fun m _ => F.STUB_SEL_CH m⟩,
   ⟨0x84, 0x4, 4, .ro, fun m i => F.STUB_REC_BITS m i⟩,
   ⟨0x100, 0x4, 12, .rw, fun m j => F.SUM_W_VALUE m j⟩,
   ⟨0x400, 0x4, 32, .ro, fun m j => F.STUB_SEQ_SEQ m j⟩]

def rows_lead : List RegRow :=
  [⟨0x40, 0x4, 1, .wo, fun i _ => F.LEAD_CTL_HALTREQ i⟩,
   ⟨0x40, 0x4, 1, .wo, fun i _ => F.LEAD_CTL_STEP i⟩,
   ⟨0x40, 0x4, 1, .wo, fun i _ => F.LEAD_CTL_RESUME i⟩,
   ⟨0x40, 0x4, 1, .wo, fun i _ => F.LEAD_CTL_RESTART i⟩,
   ⟨0x44, 0x4, 1, .ro, fun i _ => F.LEAD_STAT_RUNNING i⟩,
   ⟨0x44, 0x4, 1, .ro, fun i _ => F.LEAD_STAT_HALTED i⟩,
   ⟨0x48, 0x4, 1, .ro, fun i _ => F.LEAD_HALT_CODE i⟩,
   ⟨0x4C, 0x4, 1, .ro, fun i _ => F.LEAD_PC_VALUE i⟩,
   ⟨0x50, 0x4, 1, .rw, fun i _ => F.LEAD_BOOT_PC i⟩,
   ⟨0x54, 0x4, 1, .rw, fun i _ => F.LEAD_BOOT_HBM i⟩,
   ⟨0x58, 0x4, 1, .rw, fun i _ => F.LEAD_DBG_SEL_REG i⟩,
   ⟨0x58, 0x4, 1, .rw, fun i _ => F.LEAD_DBG_SEL_CIDX i⟩,
   ⟨0x5C, 0x4, 1, .rw, fun i _ => F.LEAD_DBG_DATA_VALUE i⟩,
   ⟨0x60, 0x4, 1, .w1c, fun i _ => F.LEAD_DOORBELL_BITS i⟩,
   ⟨0x64, 0x4, 1, .ro, fun i _ => F.LEAD_DOORBELL_P i⟩,
   ⟨0x68, 0x4, 1, .rw, fun i _ => F.LEAD_SUM_HDR_DST i⟩,
   ⟨0x68, 0x4, 1, .rw, fun i _ => F.LEAD_SUM_HDR_DPORT i⟩,
   ⟨0x68, 0x4, 1, .rw, fun i _ => F.LEAD_SUM_HDR_TYPE i⟩,
   ⟨0x68, 0x4, 1, .rw, fun i _ => F.LEAD_SUM_HDR_SIZE i⟩,
   ⟨0x68, 0x4, 1, .wo, fun i _ => F.LEAD_SUM_HDR_GO i⟩,
   ⟨0x6C, 0x4, 1, .rw, fun i _ => F.LEAD_SUM_ADDR_ADDR i⟩,
   ⟨0x70, 0x4, 1, .ro, fun i _ => F.LEAD_SUM_STAT_BUSY i⟩,
   ⟨0x70, 0x4, 1, .w1c, fun i _ => F.LEAD_SUM_STAT_REFUSED i⟩,
   ⟨0x100, 0x4, 12, .rw, fun i j => F.LEAD_SUM_W_VALUE i j⟩]

def rows_l2 : List RegRow :=
  [⟨0x40, 0x4, 1, .rw, fun _ _ => F.L2_CTL_EN⟩,
   ⟨0x44, 0x4, 1, .w1ca, fun _ _ => F.L2_CECNT_VALUE⟩,
   ⟨0x48, 0x4, 1, .w1ca, fun _ _ => F.L2_POISONRD_VALUE⟩]

def rows_distributor : List RegRow :=
  [⟨0x40, 0x4, 1, .rw, fun _ _ => F.DIST_CTL_EN⟩,
   ⟨0x40, 0x4, 1, .rw, fun _ _ => F.DIST_CTL_HALTVEC⟩,
   ⟨0x100, 0x4, 48, .ro, fun _ j => F.DIST_LEVEL_BITS j⟩,
   ⟨0x400, 0x4, 768, .rw, fun _ j => F.DIST_ROUTE_ENTRIES j⟩]

def rows_laneGroup : List RegRow :=
  [⟨0x40, 0x4, 1, .rw, fun g _ => F.GRP_CTL_PROTO g⟩,
   ⟨0x40, 0x4, 1, .rw, fun g _ => F.GRP_CTL_EN g⟩,
   ⟨0x40, 0x4, 1, .rw, fun g _ => F.GRP_CTL_LP g⟩,
   ⟨0x44, 0x4, 1, .ro, fun g _ => F.GRP_STAT_RINGLOCK g⟩,
   ⟨0x44, 0x4, 1, .ro, fun g _ => F.GRP_STAT_LCLOCK g⟩,
   ⟨0x44, 0x4, 1, .w1c, fun g _ => F.GRP_STAT_CFG_REFUSED g⟩,
   ⟨0x44, 0x4, 1, .w1c, fun g _ => F.GRP_STAT_WOKEN g⟩,
   ⟨0x44, 0x4, 1, .ro, fun g _ => F.GRP_STAT_SIGDET g⟩,
   ⟨0x44, 0x4, 1, .ro, fun g _ => F.GRP_STAT_READY g⟩,
   ⟨0x100, 0x20, 8, .rw, fun g f => F.LN_CTL_ADAPT g f⟩,
   ⟨0x100, 0x20, 8, .rw, fun g f => F.LN_CTL_RXINV g f⟩,
   ⟨0x100, 0x20, 8, .rw, fun g f => F.LN_CTL_TXINV g f⟩,
   ⟨0x104, 0x20, 8, .rw, fun g f => F.LN_TXFIR_PRE g f⟩,
   ⟨0x104, 0x20, 8, .rw, fun g f => F.LN_TXFIR_POST g f⟩,
   ⟨0x104, 0x20, 8, .ro, fun g f => F.LN_TXFIR_MAIN g f⟩,
   ⟨0x108, 0x20, 8, .ro, fun g f => F.LN_EQ_CTLE g f⟩,
   ⟨0x108, 0x20, 8, .ro, fun g f => F.LN_EQ_DFE1 g f⟩,
   ⟨0x10C, 0x20, 8, .ro, fun g f => F.LN_STAT_READY g f⟩,
   ⟨0x10C, 0x20, 8, .w1c, fun g f => F.LN_STAT_LOS g f⟩,
   ⟨0x110, 0x20, 8, .w1ca, fun g f => F.LN_CODEERR_VALUE g f⟩]

def rows_cxpEngine : List RegRow :=
  [⟨0x40, 0x4, 1, .rw, fun g _ => F.CXP_CCCTL_LINK g⟩,
   ⟨0x40, 0x4, 1, .rw, fun g _ => F.CXP_CCCTL_LEN g⟩,
   ⟨0x40, 0x4, 1, .wo, fun g _ => F.CXP_CCCTL_GO g⟩,
   ⟨0x40, 0x4, 1, .ro, fun g _ => F.CXP_CCCTL_BUSY g⟩,
   ⟨0x44, 0x4, 1, .ro, fun g _ => F.CXP_RXPTR_HEAD g⟩,
   ⟨0x44, 0x4, 1, .rw, fun g _ => F.CXP_RXPTR_TAIL g⟩,
   ⟨0x44, 0x4, 1, .w1c, fun g _ => F.CXP_RXPTR_RXOVF g⟩,
   ⟨0x48, 0x4, 1, .w1ca, fun g _ => F.CXP_CCERR_VALUE g⟩,
   ⟨0x100, 0x40, 8, .rw, fun g j => F.CXP_LINK_EN g j⟩,
   ⟨0x100, 0x40, 8, .rw, fun g j => F.CXP_LINK_SIZE g j⟩,
   ⟨0x100, 0x40, 8, .rw, fun g j => F.CXP_LINK_VER g j⟩,
   ⟨0x100, 0x40, 8, .rw, fun g j => F.CXP_LINK_SPEED g j⟩,
   ⟨0x100, 0x40, 8, .rw, fun g j => F.CXP_LINK_PACK g j⟩,
   ⟨0x100, 0x40, 8, .rw, fun g j => F.CXP_LINK_CRCACT g j⟩,
   ⟨0x100, 0x40, 8, .rw, fun g j => F.CXP_LINK_STREAMID g j⟩,
   ⟨0x104, 0x40, 8, .rw, fun g j => F.CXP_LINEW_WORDS g j⟩,
   ⟨0x108, 0x40, 8, .rw, fun g j => F.CXP_TRIG_EN g j⟩,
   ⟨0x108, 0x40, 8, .rw, fun g j => F.CXP_TRIG_SRC g j⟩,
   ⟨0x108, 0x40, 8, .rw, fun g j => F.CXP_TRIG_DIV g j⟩,
   ⟨0x108, 0x40, 8, .rw, fun g j => F.CXP_TRIG_PHASE g j⟩,
   ⟨0x108, 0x40, 8, .rw, fun g j => F.CXP_TRIG_ACTEN g j⟩,
   ⟨0x108, 0x40, 8, .rw, fun g j => F.CXP_TRIG_ACTVAL g j⟩,
   ⟨0x108, 0x40, 8, .rw, fun g j => F.CXP_TRIG_PULSE g j⟩,
   ⟨0x10C, 0x40, 8, .rw, fun g j => F.CXP_TDLY_DLY g j⟩,
   ⟨0x110, 0x40, 8, .rw, fun g j => F.CXP_TWID_WIDTH g j⟩,
   ⟨0x114, 0x40, 8, .ro, fun g j => F.CXP_STAT_LINKUP g j⟩,
   ⟨0x114, 0x40, 8, .ro, fun g j => F.CXP_STAT_SPDCHG g j⟩,
   ⟨0x114, 0x40, 8, .w1c, fun g j => F.CXP_STAT_LOST g j⟩,
   ⟨0x114, 0x40, 8, .w1c, fun g j => F.CXP_STAT_CFG_REFUSED g j⟩,
   ⟨0x118, 0x40, 8, .w1ca, fun g j => F.CXP_CRCERR_VALUE g j⟩,
   ⟨0x11C, 0x40, 8, .w1ca, fun g j => F.CXP_TRIGSTAT_LATE g j⟩,
   ⟨0x11C, 0x40, 8, .w1ca, fun g j => F.CXP_TRIGSTAT_DROP g j⟩,
   ⟨0x120, 0x40, 8, .w1ca, fun g j => F.CXP_PADCNT_VALUE g j⟩,
   ⟨0x124, 0x40, 8, .w1ca, fun g j => F.CXP_OTHERID_VALUE g j⟩,
   ⟨0x400, 0x4, 64, .rw, fun g i => F.CXP_CCTX_WORD g i⟩,
   ⟨0x800, 0x4, 256, .ro, fun g i => F.CXP_RXRING_WORD g i⟩]

def rows_ethernet_0 : List RegRow :=
  [⟨0x40, 0x4, 1, .rw, fun c _ => F.ETH_CTL_MODE c⟩,
   ⟨0x40, 0x4, 1, .rw, fun c _ => F.ETH_CTL_FEC c⟩,
   ⟨0x40, 0x4, 1, .rw, fun c _ => F.ETH_CTL_PORTEN c⟩,
   ⟨0x44, 0x4, 1, .ro, fun c _ => F.ETH_STAT_LINK c⟩,
   ⟨0x44, 0x4, 1, .w1c, fun c _ => F.ETH_STAT_CFG_REFUSED c⟩,
   ⟨0x48, 0x4, 1, .ro, fun c _ => F.ETH_RXFRM_VALUE c⟩,
   ⟨0x4C, 0x4, 1, .w1ca, fun c _ => F.ETH_RXERR_VALUE c⟩,
   ⟨0x50, 0x4, 1, .w1ca, fun c _ => F.ETH_FECCORR_VALUE c⟩,
   ⟨0x54, 0x4, 1, .w1ca, fun c _ => F.ETH_FECUNC_VALUE c⟩,
   ⟨0x60, 0x10, 4, .rw, fun c j => F.GV_EN c j⟩,
   ⟨0x60, 0x10, 4, .rw, fun c j => F.GV_PORT c j⟩,
   ⟨0x60, 0x10, 4, .rw, fun c j => F.GV_BASE c j⟩,
   ⟨0x60, 0x10, 4, .rw, fun c j => F.GV_LOG2N c j⟩,
   ⟨0x64, 0x10, 4, .rw, fun c j => F.GV_UDPPORT c j⟩,
   ⟨0x68, 0x10, 4, .rw, fun c j => F.GV_SRCIP c j⟩,
   ⟨0x6C, 0x10, 4, .w1ca, fun c j => F.GV_STAT_ORDER c j⟩,
   ⟨0x6C, 0x10, 4, .w1ca, fun c j => F.GV_STAT_PAD c j⟩,
   ⟨0x6C, 0x10, 4, .w1c, fun c j => F.GV_STAT_FMTRAW c j⟩,
   ⟨0xA0, 0x4, 1, .rw, fun c _ => F.XRX_BASE_LO_ADDR c⟩,
   ⟨0xA4, 0x4, 1, .rw, fun c _ => F.XRX_BASE_HI_ADDR c⟩,
   ⟨0xA8, 0x4, 1, .rw, fun c _ => F.XRX_RING_SLOTS c⟩,
   ⟨0xAC, 0x4, 1, .ro, fun c _ => F.XRX_PTR_HEAD c⟩,
   ⟨0xAC, 0x4, 1, .rw, fun c _ => F.XRX_PTR_TAIL c⟩,
   ⟨0xB0, 0x4, 1, .w1ca, fun c _ => F.XRX_DROP_VALUE c⟩,
   ⟨0xE0, 0x4, 1, .rw, fun c _ => F.ETH_TXU_EN c⟩,
   ⟨0xE0, 0x4, 1, .rw, fun c _ => F.ETH_TXU_PORT c⟩,
   ⟨0xE4, 0x4, 1, .rw, fun c _ => F.ETH_TXU_MAXLEN_BYTES c⟩,
   ⟨0xE8, 0x4, 1, .rw, fun c _ => F.ETH_TXU_HOLD_NS c⟩,
   ⟨0x100, 0x4, 1, .rw, fun c _ => F.ETH_TXU_SIP_ADDR c⟩,
   ⟨0x104, 0x4, 1, .rw, fun c _ => F.ETH_TXU_DIP_ADDR c⟩,
   ⟨0x108, 0x4, 1, .rw, fun c _ => F.ETH_TXU_PORTS_SPORT c⟩,
   ⟨0x108, 0x4, 1, .rw, fun c _ => F.ETH_TXU_PORTS_DPORT c⟩,
   ⟨0x10C, 0x4, 1, .ro, fun c _ => F.ETH_TXU_SEQ_VALUE c⟩,
   ⟨0x110, 0x4, 1, .w1ca, fun c _ => F.ETH_STOMPCNT_VALUE c⟩,
   ⟨0x140, 0x4, 1, .rw, fun c _ => F.PHC_NS_VALUE c⟩,
   ⟨0x144, 0x4, 1, .rw, fun c _ => F.PHC_S_LO_VALUE c⟩,
   ⟨0x148, 0x4, 1, .rw, fun c _ => F.PHC_S_HI_VALUE c⟩,
   ⟨0x14C, 0x4, 1, .rw, fun c _ => F.PHC_ADJ_VALUE c⟩,
   ⟨0x150, 0x4, 1, .wo, fun c _ => F.PHC_STEP_NS c⟩,
   ⟨0x154, 0x4, 1, .wo, fun c _ => F.PHC_CTL_LOAD c⟩]

def rows_ethernet_1 : List RegRow :=
  [⟨0xC0, 0x4, 1, .rw, fun c _ => F.XTX_BASE_LO_ADDR c⟩,
   ⟨0xC4, 0x4, 1, .rw, fun c _ => F.XTX_BASE_HI_ADDR c⟩,
   ⟨0xC8, 0x4, 1, .rw, fun c _ => F.XTX_RING_SLOTS c⟩,
   ⟨0xCC, 0x4, 1, .ro, fun c _ => F.XTX_PTR_HEAD c⟩,
   ⟨0xCC, 0x4, 1, .rw, fun c _ => F.XTX_PTR_TAIL c⟩,
   ⟨0xEC, 0x4, 1, .rw, fun c _ => F.ETH_TXU_DMAC_LO_ADDR c⟩,
   ⟨0xF0, 0x4, 1, .rw, fun c _ => F.ETH_TXU_DMAC_HI_ADDR c⟩,
   ⟨0xF4, 0x4, 1, .rw, fun c _ => F.ETH_TXU_SMAC_LO_ADDR c⟩,
   ⟨0xF8, 0x4, 1, .rw, fun c _ => F.ETH_TXU_SMAC_HI_ADDR c⟩]

def rows_smc : List RegRow :=
  [⟨0x40, 0x4, 1, .rw, fun _ _ => F.CMD_CODE⟩,
   ⟨0x44, 0x4, 8, .rw, fun _ i => F.ARG_VALUE i⟩,
   ⟨0x64, 0x4, 1, .ro, fun _ _ => F.CMD_STAT_BUSY⟩,
   ⟨0x64, 0x4, 1, .w1c, fun _ _ => F.CMD_STAT_DONE⟩,
   ⟨0x64, 0x4, 1, .ro, fun _ _ => F.CMD_STAT_RESULT⟩,
   ⟨0x64, 0x4, 1, .ro, fun _ _ => F.CMD_STAT_READY⟩,
   ⟨0x64, 0x4, 1, .ro, fun _ _ => F.CMD_STAT_SELF⟩,
   ⟨0x68, 0x4, 1, .w1ca, fun _ _ => F.CMD_REFUSED_VALUE⟩,
   ⟨0x6C, 0x4, 1, .ro, fun _ _ => F.MBX_OWN_OWNER⟩,
   ⟨0x6C, 0x4, 1, .wo, fun _ _ => F.MBX_OWN_CLAIM⟩,
   ⟨0x6C, 0x4, 1, .wo, fun _ _ => F.MBX_OWN_RELEASE⟩,
   ⟨0x70, 0x4, 1, .w1ca, fun _ _ => F.MGMT_ERR_VALUE⟩]

def rows_nvm : List RegRow :=
  [⟨0x40, 0x4, 1, .w1c, fun _ _ => F.NVM_STAT_LOST⟩,
   ⟨0x40, 0x4, 1, .w1c, fun _ _ => F.NVM_STAT_WEAR⟩,
   ⟨0x40, 0x4, 1, .ro, fun _ _ => F.NVM_STAT_SUSPENDED⟩,
   ⟨0x40, 0x4, 1, .ro, fun _ _ => F.NVM_STAT_SKIPPED⟩,
   ⟨0x44, 0x4, 1, .ro, fun _ _ => F.NVM_LOSTPG_PAGE⟩,
   ⟨0x48, 0x4, 1, .ro, fun _ _ => F.NVM_STORECNT_VALUE⟩,
   ⟨0x400, 0x4, 256, .rw, fun _ i => F.STAGE_VALUE i⟩]

def rows_pcie : List RegRow :=
  [⟨0x40, 0x4, 1, .rwl, fun e _ => F.PCI_CTL_EN e⟩,
   ⟨0x40, 0x4, 1, .rwl, fun e _ => F.PCI_CTL_MAXGEN e⟩,
   ⟨0x40, 0x4, 1, .rwl, fun e _ => F.PCI_CTL_MAXW e⟩,
   ⟨0x44, 0x4, 1, .ro, fun e _ => F.PCI_STAT_LINKUP e⟩,
   ⟨0x44, 0x4, 1, .ro, fun e _ => F.PCI_STAT_GEN e⟩,
   ⟨0x44, 0x4, 1, .ro, fun e _ => F.PCI_STAT_WIDTH e⟩,
   ⟨0x44, 0x4, 1, .ro, fun e _ => F.PCI_STAT_PERST e⟩,
   ⟨0x48, 0x4, 1, .w1ca, fun e _ => F.PCI_BADREQ_VALUE e⟩,
   ⟨0x4C, 0x4, 1, .w1ca, fun e _ => F.PCI_POISONTX_VALUE e⟩,
   ⟨0x50, 0x4, 1, .w1ca, fun e _ => F.PCI_POISONRX_VALUE e⟩,
   ⟨0x54, 0x4, 1, .ro, fun e _ => F.PCI_RSTCNT_VALUE e⟩]

def rows_dma : List RegRow :=
  [⟨0x100, 0x40, 16, .rw, fun e c => F.DMA_CTL_EN e c⟩,
   ⟨0x100, 0x40, 16, .rw, fun e c => F.DMA_CTL_DIR e c⟩,
   ⟨0x104, 0x40, 16, .rw, fun e c => F.DMA_RBASE_LO_ADDR e c⟩,
   ⟨0x108, 0x40, 16, .rw, fun e c => F.DMA_RBASE_HI_ADDR e c⟩,
   ⟨0x10C, 0x40, 16, .rw, fun e c => F.DMA_RSIZE_LOG2 e c⟩,
   ⟨0x110, 0x40, 16, .ro, fun e c => F.DMA_HEAD_INDEX e c⟩,
   ⟨0x114, 0x40, 16, .rw, fun e c => F.DMA_TAIL_INDEX e c⟩,
   ⟨0x118, 0x40, 16, .ro, fun e c => F.DMA_STAT_ACTIVE e c⟩,
   ⟨0x118, 0x40, 16, .ro, fun e c => F.DMA_STAT_STOPPED e c⟩,
   ⟨0x118, 0x40, 16, .w1c, fun e c => F.DMA_STAT_ERR e c⟩,
   ⟨0x118, 0x40, 16, .w1c, fun e c => F.DMA_STAT_POISON e c⟩,
   ⟨0x118, 0x40, 16, .ro, fun e c => F.DMA_STAT_ERRCODE e c⟩,
   ⟨0x11C, 0x40, 16, .rw, fun e c => F.DMA_HOLD_NS e c⟩,
   ⟨0x120, 0x40, 16, .ro, fun e c => F.DMA_BYTES_VALUE e c⟩]

def rows_configuration : List RegRow :=
  [⟨0x40, 0x4, 1, .rwl, fun _ _ => F.BOOT_CFG_AUTO⟩,
   ⟨0x40, 0x4, 1, .rwl, fun _ _ => F.BOOT_CFG_OFFA⟩,
   ⟨0x40, 0x4, 1, .rwl, fun _ _ => F.BOOT_CFG_OFFB⟩,
   ⟨0x40, 0x4, 1, .rwl, fun _ _ => F.BOOT_CFG_XMODE⟩,
   ⟨0x44, 0x4, 1, .ro, fun _ _ => F.BOOT_STAT_SMCFW⟩,
   ⟨0x44, 0x4, 1, .ro, fun _ _ => F.BOOT_STAT_SLOT⟩,
   ⟨0x48, 0x4, 1, .ro, fun _ _ => F.CFG_STAT_STATE⟩,
   ⟨0x48, 0x4, 1, .w1c, fun _ _ => F.CFG_STAT_REL_LATE⟩,
   ⟨0x48, 0x4, 1, .ro, fun _ _ => F.CFG_STAT_MRARMED⟩,
   ⟨0x48, 0x4, 1, .ro, fun _ _ => F.CFG_STAT_SECT⟩,
   ⟨0x48, 0x4, 1, .ro, fun _ _ => F.CFG_STAT_CODE⟩,
   ⟨0x48, 0x4, 1, .ro, fun _ _ => F.CFG_STAT_KEYSKIP⟩,
   ⟨0x4C, 0x4, 1, .rw, fun _ _ => F.CFG_REL_MODE⟩,
   ⟨0x4C, 0x4, 1, .rw, fun _ _ => F.CFG_REL_ENC⟩,
   ⟨0x4C, 0x4, 1, .rw, fun _ _ => F.CFG_REL_GROUP⟩,
   ⟨0x50, 0x4, 1, .rw, fun _ _ => F.CFG_REL_POS_LO_VALUE⟩,
   ⟨0x54, 0x4, 1, .rw, fun _ _ => F.CFG_REL_POS_HI_VALUE⟩,
   ⟨0x58, 0x4, 1, .wo, fun _ _ => F.CFG_RELSEND_GO⟩,
   ⟨0x5C, 0x4, 1, .rwl, fun _ _ => F.IO_CFG_LOADPD_BO⟩,
   ⟨0x5C, 0x4, 1, .rwl, fun _ _ => F.IO_CFG_LOADPD_GPIO⟩,
   ⟨0x60, 0x4, 1, .ro, fun _ _ => F.CFG_VERSION_LO_VALUE⟩,
   ⟨0x64, 0x4, 1, .ro, fun _ _ => F.CFG_VERSION_HI_VALUE⟩,
   ⟨0x68, 0x4, 1, .ro, fun _ _ => F.CFG_LOADCNT_VALUE⟩,
   ⟨0x6C, 0x4, 1, .ro, fun _ _ => F.CFG_RELOADCNT_VALUE⟩,
   ⟨0x70, 0x4, 1, .ro, fun _ _ => F.KEY_STAT_EFILLED⟩,
   ⟨0x70, 0x4, 1, .ro, fun _ _ => F.KEY_STAT_EREVOKED⟩,
   ⟨0x70, 0x4, 1, .ro, fun _ _ => F.KEY_STAT_LFILLED⟩,
   ⟨0x70, 0x4, 1, .ro, fun _ _ => F.KEY_STAT_LREVOKED⟩,
   ⟨0x70, 0x4, 1, .ro, fun _ _ => F.KEY_STAT_ESLOT⟩,
   ⟨0x70, 0x4, 1, .ro, fun _ _ => F.KEY_STAT_LSLOT⟩,
   ⟨0x74, 0x4, 1, .ro, fun _ _ => F.ROLLBACK_LO_VALUE⟩,
   ⟨0x78, 0x4, 1, .ro, fun _ _ => F.ROLLBACK_HI_VALUE⟩,
   ⟨0x80, 0x4, 12, .ro, fun _ i => F.CFG_DIGEST_VALUE i⟩,
   ⟨0xC0, 0x4, 1, .rw, fun _ _ => F.CFG_WIN_LO_ADDR⟩,
   ⟨0xC4, 0x4, 1, .rw, fun _ _ => F.CFG_WIN_HI_ADDR⟩,
   ⟨0x800, 0x4, 512, .wo, fun _ j => F.CFG_WINDAT_VALUE j⟩]

def rows_reset : List RegRow :=
  [⟨0x40, 0x4, 1, .wo, fun _ _ => F.RST_CTL_WARM⟩,
   ⟨0x40, 0x4, 1, .wo, fun _ _ => F.RST_CTL_COLD⟩,
   ⟨0x40, 0x4, 1, .wo, fun _ _ => F.RST_CTL_KEY⟩,
   ⟨0x44, 0x4, 1, .ro, fun _ _ => F.RST_STAT_WARM_BUSY⟩,
   ⟨0x44, 0x4, 1, .ro, fun _ _ => F.RST_STAT_DEFERRED⟩,
   ⟨0x44, 0x4, 1, .w1c, fun _ _ => F.RST_STAT_DRAIN_TO⟩,
   ⟨0x44, 0x4, 1, .w1c, fun _ _ => F.RST_STAT_BADKEY⟩,
   ⟨0x44, 0x4, 1, .w1c, fun _ _ => F.RST_STAT_LG_REFUSED⟩,
   ⟨0x48, 0x4, 1, .ro, fun _ _ => F.RST_CAUSE_LAST⟩,
   ⟨0x4C, 0x4, 1, .ro, fun _ _ => F.RST_WARMCNT_VALUE⟩,
   ⟨0x50, 0x4, 1, .rw, fun _ _ => F.RST_DRAINLIM_NS⟩,
   ⟨0x54, 0x4, 1, .w1s, fun _ _ => F.RST_LG_BITS⟩]

def rows_power : List RegRow :=
  [⟨0x40, 0x4, 1, .wo, fun _ _ => F.REST_CTL_ENTER⟩,
   ⟨0x40, 0x4, 1, .wo, fun _ _ => F.REST_CTL_EXIT⟩,
   ⟨0x44, 0x4, 1, .rw, fun _ _ => F.REST_CFG_SCRUB⟩,
   ⟨0x44, 0x4, 1, .rw, fun _ _ => F.REST_CFG_WAKEBEAT⟩,
   ⟨0x44, 0x4, 1, .rw, fun _ _ => F.REST_CFG_WAKECH⟩,
   ⟨0x48, 0x4, 1, .rw, fun _ _ => F.REST_TO_US⟩,
   ⟨0x4C, 0x4, 1, .ro, fun _ _ => F.REST_STAT_STATE⟩,
   ⟨0x4C, 0x4, 1, .w1c, fun _ _ => F.REST_STAT_ABORTED⟩,
   ⟨0x4C, 0x4, 1, .w1c, fun _ _ => F.REST_STAT_REFUSED⟩,
   ⟨0x50, 0x4, 1, .rw, fun _ _ => F.REST_WAKEMASK_LO_BITS⟩,
   ⟨0x54, 0x4, 1, .rw, fun _ _ => F.REST_WAKEMASK_HI_BITS⟩,
   ⟨0x60, 0x4, 1, .rw, fun _ _ => F.BO_WARN_MV⟩,
   ⟨0x64, 0x4, 1, .rw, fun _ _ => F.BO_RESET_MV⟩,
   ⟨0x68, 0x4, 1, .rw, fun _ _ => F.BO_HYST_MV⟩,
   ⟨0x6C, 0x4, 1, .rw, fun _ _ => F.BO_CTL_THROTTLE_ON_WARN⟩,
   ⟨0x6C, 0x4, 1, .rw, fun _ _ => F.BO_CTL_RECOV⟩,
   ⟨0x70, 0x4, 1, .ro, fun _ _ => F.BO_STAT_WARN⟩,
   ⟨0x70, 0x4, 1, .ro, fun _ _ => F.BO_STAT_THROTTLED⟩,
   ⟨0x70, 0x4, 1, .w1c, fun _ _ => F.BO_STAT_CFG_REFUSED⟩,
   ⟨0x74, 0x4, 1, .w1ca, fun _ _ => F.BO_CNT_VALUE⟩,
   ⟨0x78, 0x4, 1, .w1ca, fun _ _ => F.BO_MIN_MV⟩,
   ⟨0x7C, 0x4, 1, .w1ca, fun _ _ => F.BO_DUR_US⟩,
   ⟨0x80, 0x4, 1, .ro, fun _ _ => F.VCORE_MV_VALUE⟩]

def rows_clock : List RegRow :=
  [⟨0x40, 0x8, 4, .rw, fun _ k => F.FPLL_FREQ k⟩,
   ⟨0x40, 0x8, 4, .ro, fun _ k => F.FPLL_LOCK k⟩,
   ⟨0x44, 0x8, 4, .ro, fun _ k => F.FPLL_USERS k⟩,
   ⟨0x80, 0x4, 1, .rw, fun _ _ => F.RIDGE_CLK_FREQ⟩,
   ⟨0x84, 0x4, 1, .w1c, fun _ _ => F.CLK_STAT_CFG_REFUSED⟩,
   ⟨0x84, 0x4, 1, .ro, fun _ _ => F.CLK_STAT_TBSRC⟩]

def rows_massifPower : List RegRow :=
  [⟨0x40, 0x4, 1, .rw, fun m _ => F.PWR_CTL_GATE m⟩,
   ⟨0x44, 0x4, 1, .ro, fun m _ => F.PWR_STAT_STATE m⟩,
   ⟨0x44, 0x4, 1, .w1c, fun m _ => F.PWR_STAT_GATE_ABORTED m⟩,
   ⟨0x44, 0x4, 1, .w1c, fun m _ => F.PWR_STAT_REFUSED m⟩,
   ⟨0x44, 0x4, 1, .ro, fun m _ => F.PWR_STAT_WAITFOR m⟩,
   ⟨0x48, 0x4, 1, .wo, fun m _ => F.MRST_CTL_MASSIF m⟩,
   ⟨0x48, 0x4, 1, .wo, fun m _ => F.MRST_CTL_CALLER m⟩,
   ⟨0x4C, 0x4, 1, .w1c, fun m _ => F.MRST_STAT_REFUSED m⟩,
   ⟨0x50, 0x4, 1, .rw, fun m _ => F.MCLK_SEL m⟩,
   ⟨0x50, 0x4, 1, .rw, fun m _ => F.MCLK_DIV m⟩,
   ⟨0x50, 0x4, 1, .ro, fun m _ => F.MCLK_SWITCHING m⟩,
   ⟨0x54, 0x4, 1, .ro, fun m _ => F.PWR_WAKECNT_VALUE m⟩,
   ⟨0x58, 0x4, 1, .ro, fun m _ => F.PWR_LASTWAKE_NS m⟩]

def rows_global : List RegRow :=
  [⟨0x40, 0x4, 1, .ro, fun _ _ => F.DEV_ID_PART⟩,
   ⟨0x40, 0x4, 1, .ro, fun _ _ => F.DEV_ID_STEP⟩,
   ⟨0x40, 0x4, 1, .ro, fun _ _ => F.DEV_ID_SGRADE⟩,
   ⟨0x40, 0x4, 1, .ro, fun _ _ => F.DEV_ID_TGRADE⟩,
   ⟨0x44, 0x4, 4, .ro, fun _ i => F.DEV_UID_VALUE i⟩,
   ⟨0x60, 0x4, 1, .ro, fun _ _ => F.MASSIF_GATED_LO_BITS⟩,
   ⟨0x64, 0x4, 1, .ro, fun _ _ => F.MASSIF_GATED_HI_BITS⟩]

/-- The common header (R457) of the page at base `b`, less its identity words. -/
def rowsHeader (b : Nat) : List RegRow :=
  [⟨0x008, 4, 1, .rw, fun _ _ => F.BLK_CTL_SCRATCH b⟩,
   ⟨0x010, 4, 1, .w1c, fun _ _ => F.IRQ_STAT_BITS b⟩,
   ⟨0x014, 4, 1, .rw, fun _ _ => F.IRQ_EN_BITS b⟩,
   ⟨0x018, 4, 1, .wo, fun _ _ => F.IRQ_FORCE_BITS b⟩,
   ⟨0x01C, 4, 1, .w1c, fun _ _ => F.ERR_STAT_CORR b⟩,
   ⟨0x01C, 4, 1, .w1c, fun _ _ => F.ERR_STAT_UNCORR b⟩,
   ⟨0x01C, 4, 1, .w1c, fun _ _ => F.ERR_STAT_POISON b⟩,
   ⟨0x020, 4, 1, .ro, fun _ _ => F.ERR_ADDR_LO_VALUE b⟩,
   ⟨0x024, 4, 1, .ro, fun _ _ => F.ERR_ADDR_HI_VALUE b⟩,
   ⟨0x028, 4, 1, .w1ca, fun _ _ => F.ERR_CNT_VALUE b⟩,
   ⟨0x02C, 4, 1, .w1s, fun _ _ => F.LOCK_SET b⟩]

/-- The register table of a kind of page. -/
def Page.rows : Page → List RegRow
  | .posGlobal => rows_posGlobal
  | .encoder => rows_encoder
  | .beatChannel => rows_beatChannel
  | .beatOutput => rows_beatOutput
  | .colQueue => rows_colQueue
  | .feedSwitch => rows_feedSwitch
  | .sequencer => rows_sequencer
  | .loader => rows_loader
  | .queue => rows_queue_0 ++ rows_queue_1
  | .laneRxQueue => rows_laneRxQueue
  | .collector => rows_collector
  | .shelf => rows_shelf
  | .blockMem => rows_blockMem
  | .hbmGlobal => rows_hbmGlobal
  | .hbmChannel => rows_hbmChannel
  | .shelfInt => rows_shelfInt
  | .integrity => rows_integrity
  | .ridgeGlobal => rows_ridgeGlobal
  | .router => rows_router
  | .tempoGlobal => rows_tempoGlobal
  | .tempoPort => rows_tempoPort
  | .tempoMap => rows_tempoMap
  | .pair => rows_pair_0 ++ rows_pair_1
  | .pairRegion => rows_pairRegion
  | .checkpoint => rows_checkpoint
  | .caller => rows_caller
  | .lead => rows_lead
  | .l2 => rows_l2
  | .distributor => rows_distributor
  | .laneGroup => rows_laneGroup
  | .cxpEngine => rows_cxpEngine
  | .ethernet => rows_ethernet_0 ++ rows_ethernet_1
  | .smc => rows_smc
  | .nvm => rows_nvm
  | .pcie => rows_pcie
  | .dma => rows_dma
  | .configuration => rows_configuration
  | .reset => rows_reset
  | .power => rows_power
  | .clock => rows_clock
  | .massifPower => rows_massifPower
  | .global_ => rows_global

/-! ### The page index (R463, R466, R498) -/

/-- The page at a page-aligned BAR0 offset, with its instance; none for a page that the index does not list. -/
def pageAt (base : Nat) : Option (Page × Nat) :=
  let k := base / 0x1000
  if base < 0x00009000 then match k with
    | 0 => some (.global_, 0)
    | 1 => some (.reset, 0)
    | 2 => some (.smc, 0)
    | 3 => some (.nvm, 0)
    | 4 => some (.configuration, 0)
    | 5 => some (.integrity, 0)
    | 6 => some (.distributor, 0)
    | 7 => some (.power, 0)
    | _ => some (.clock, 0)
  else if 0x100 ≤ k && k ≤ 0x109 then match k - 0x100 with
    | 0 => some (.posGlobal, 0)
    | 1 => some (.encoder, 0)
    | 2 => some (.beatChannel, 0)
    | 3 => some (.beatOutput, 0)
    | 4 => some (.tempoGlobal, 0)
    | 9 => some (.tempoMap, 0)
    | n => some (.tempoPort, n - 5)
  else if 0x200 ≤ k && k ≤ 0x260 then (if k == 0x200 then some (.ridgeGlobal, 0) else some (.router, k - 0x201))
  else if 0x300 ≤ k && k ≤ 0x30A then match k - 0x300 with
    | 4 => some (.l2, 0)
    | 8 => some (.pair, 0)
    | 9 => some (.pairRegion, 0)
    | 10 => some (.checkpoint, 0)
    | n => if n < 4 then some (.lead, n) else none
  else if 0x1000 ≤ k && k < 0x1400 then match k % 16 with
    | 0 => some (.sequencer, (k - 0x1000) / 16)
    | 1 => some (.loader, (k - 0x1000) / 16)
    | 2 => some (.queue, (k - 0x1000) / 16)
    | 3 => some (.shelf, (k - 0x1000) / 16)
    | 4 => some (.blockMem, (k - 0x1000) / 16)
    | 5 => some (.shelfInt, (k - 0x1000) / 16)
    | 6 => some (.caller, (k - 0x1000) / 16)
    | 7 => some (.massifPower, (k - 0x1000) / 16)
    | 10 => some (.colQueue, (k - 0x1000) / 16)
    | _ => none
  else if 0x2000 ≤ k && k < 0x2200 then match k % 16 with
    | 0 => some (.laneGroup, (k - 0x2000) / 16)
    | 3 => some (.laneRxQueue, (k - 0x2000) / 16)
    | _ => none
  else if 0x3000 ≤ k && k < 0x3020 then some (.hbmChannel, k - 0x3000)
  else if k == 0x3020 then some (.hbmGlobal, 0)
  else if k == 0x3030 || k == 0x3038 then some (.pcie, (k - 0x3030) / 8)
  else if k == 0x3031 || k == 0x3039 then some (.dma, (k - 0x3031) / 8)
  else if k == 0x3040 then some (.feedSwitch, 0)
  else if k == 0x3050 then some (.collector, 0)
  else if 0x3060 ≤ k && k < 0x3068 then some (.ethernet, k - 0x3060)
  else if 0x3080 ≤ k && k < 0x30A0 then some (.cxpEngine, k - 0x3080)
  else none

/-- BLK_ID.TYPE of a kind of page (R466). -/
def Page.typ : Page → Nat
  | .global_ => 0x001 | .reset => 0x002 | .smc => 0x003 | .nvm => 0x004 | .configuration => 0x005
  | .integrity => 0x006 | .distributor => 0x007 | .power => 0x008 | .clock => 0x009
  | .posGlobal => 0x010 | .encoder => 0x011 | .beatChannel => 0x012 | .beatOutput => 0x013
  | .tempoGlobal => 0x014 | .tempoPort => 0x015 | .tempoMap => 0x016
  | .ridgeGlobal => 0x020 | .router => 0x021
  | .lead => 0x030 | .l2 => 0x031 | .pair => 0x032 | .pairRegion => 0x033 | .checkpoint => 0x034
  | .sequencer => 0x040 | .loader => 0x041 | .queue => 0x042 | .shelf => 0x043 | .blockMem => 0x044
  | .shelfInt => 0x045 | .caller => 0x046 | .massifPower => 0x047 | .colQueue => 0x048
  | .laneGroup => 0x050 | .laneRxQueue => 0x051
  | .hbmChannel => 0x060 | .hbmGlobal => 0x061 | .pcie => 0x062 | .dma => 0x063 | .feedSwitch => 0x064
  | .collector => 0x065 | .ethernet => 0x066 | .cxpEngine => 0x067

/-- Router whose endpoint 3 serves a page of instance `i` (R498). -/
def Page.server (p : Page) (i : Nat) : Nat :=
  match p with
  | .sequencer | .loader | .queue | .shelf | .blockMem | .shelfInt | .caller | .massifPower | .colQueue => i
  | .laneGroup | .laneRxQueue | .cxpEngine => if i < 16 then 64 + i / 2 else 72 + (i - 16) / 2
  | .ethernet => if i < 4 then 68 else 76
  | .pcie | .dma => if i == 0 then 64 else 72
  | .posGlobal | .encoder | .beatChannel | .beatOutput | .tempoGlobal | .tempoPort | .tempoMap => 67
  | .lead => if i < 2 then 83 else 84
  | .l2 => 84
  | .pair | .pairRegion | .checkpoint => 79
  | .hbmChannel => if i < 16 then 80 + i / 2 else 88 + (i - 16) / 2
  | .collector => 92
  | .global_ | .reset | .smc | .nvm | .configuration | .integrity | .distributor | .power | .clock
  | .ridgeGlobal | .router | .feedSwitch | .hbmGlobal => 91

/-- The router that serves a BAR0 offset, if its page is listed. -/
def servingRouter (addr : Nat) : Option Nat :=
  (pageAt (addr / 0x1000 * 0x1000)).map fun e => e.1.server e.2

end Sys2Proof.Machine
end

