-- ==== Sys2Proof/Machine/State.lean ====
section
/-! DEFINITION. The state of the GX1640 as plain data: every register (one register file), the
hidden state of every block the spec gives one, the time base, the queue of waiting commands, the
log of what left the device; and the state after reset. -/

namespace Sys2Proof.Machine

open Sys2Proof


/-! ### Position block (R19–R48) -/

/-- The beat record of the beat tree and of the beat stubs (128 bits, table before R40). -/
structure BeatRec where
  ch : Nat
  kind : Nat
  act : Nat
  tfrac : Nat
  seq : Nat
  pos : Pos48
  time : Nat
  deriving DecidableEq, Repr

/-- A beat that has fallen due and waits to leave its channel (R38): the record without its SEQ,
which the emission gives it. -/
structure HeldBeat where
  act : Nat
  pos : Pos48
  due8 : Nat
  deriving DecidableEq, Repr

/-- An entry of a kind 3 schedule queue (R36): value, whether it is a time, action, fraction of a
mapped BEAT frame, and the instant in 1/8 ns at which it fell due, if it has. -/
structure SchedEnt where
  byTime : Bool
  value : Dword
  act : Nat
  tfrac : Nat
  dueAt : Option Nat
  late : Bool
  deriving DecidableEq, Repr

/-- What beat channel c latched at its enable and keeps while it runs (R29–R38, R48). -/
structure BeatCh where
  kind : Nat := 0
  enc : Nat := 0
  dir : Nat := 0
  vavg : Nat := 0
  byTime : Bool := false
  pitch : Pos48 := 0
  next : BitVec 72 := 0
  target : Pos48 := 0
  step : Word := 0
  time : Dword := 0
  period : Word := 0
  modulus : Nat := 65536
  /-- Stamps of the transitions of the present run in the channel's direction, latest first. -/
  stamps : List Nat := []
  /-- Instant t_b of the pended line beat, in 1/8 ns. -/
  pend : Option Nat := none
  /-- Cycle of the last emission. -/
  lastEmit : Option Nat := none
  /-- Cycle at which a scheduled entry last left the queue. -/
  lastFire : Option Nat := none
  held : List HeldBeat := []
  sched : List SchedEnt := []
  deriving DecidableEq, Repr

/-- A beat waiting to enter the beat tree: its emission TB, and whether BC_LATE counted it. -/
structure TreeWait where
  emitted : Nat
  counted : Bool
  beat : BeatRec
  deriving DecidableEq, Repr

/-- What an encoder channel did in one TBCLK cycle, for what else falls in it (R24): its cycle, and whether a Z edge
copied or loaded the position. -/
structure EncCycle where
  cycle : Nat := 0
  zCopy : Bool := false
  zLoad : Bool := false
  deriving DecidableEq, Repr

/-- Hidden state of an encoder channel: stamp of the last counted transition, what its present cycle holds, the value of
a software load that waits for the next TBCLK edge with the signs of the counts that fall in its cycle (R25), whether ZMODE = 3 still waits for its first Z, and the count of loads (R24–R27, R265). -/
structure EncCh where
  stamp : Option Nat := none
  cyc : EncCycle := {}
  soft : Option Pos48 := none
  held : List Bool := []
  zArmed : Bool := true
  loadSeq : Nat := 0
  /-- Stamps of the run of counts in one direction, latest first, at most five (R30 with K = 4). -/
  hist : List Nat := []
  lastUp : Bool := true
  deriving DecidableEq, Repr

/-- Hidden state of a beat output (R42–R45): edge instants still to come in 1/8 ns, the toggle
state, and the end of the pulse that is running. -/
structure BeatOut where
  edges : List Nat := []
  toggle : Bool := false
  pulseEnd : Option Nat := none
  deriving DecidableEq, Repr

/-- Hidden state of the position block. -/
structure Position where
  enc : SMap EncCh := []
  bc : SMap BeatCh := []
  bo : SMap BeatOut := []
  treeWait : List TreeWait := []
  treeLast : Option Nat := none
  /-- Records in the tree with the cycle at which they entered. -/
  treeFly : List (Nat × BeatRec) := []
  /-- The last record of every channel, as every beat stub keeps it (R12, R40). -/
  stub : SMap (Option BeatRec) := []
  deriving DecidableEq, Repr

/-! ### Tempo (R252–R277) -/

/-- A Tempo frame as sent or received (R258). -/
inductive TempoFrame where
  | announce (id rootId rootPri : Nat) (parent locked : Bool) (depth rootSeq lead : Nat)
  | sync (ts : Time70) (seq : Nat)
  | dreq (seq : Nat) (t1 : Time70)
  | dresp (seq : Nat) (t2 t3 : Time70)
  | pos (origin tpc loadSeq : Nat) (pn : Pos48) (tn : Nat) (vel : Word) (ts : Nat)
  | beat (origin ch act tfrac seq : Nat) (pos : Pos48) (time : Nat)
  | sched (origin tsq : Nat) (byTime : Bool) (act : Nat) (value : Dword)
  | ctrl (origin code : Nat) (arg : Dword)
  deriving DecidableEq, Repr

/-- A position sample (R265–R267). -/
structure Sample where
  origin : Nat
  loadSeq : Nat
  pn : Pos48
  tn : Nat
  vel : Word
  ts : Nat
  deriving DecidableEq, Repr

/-- What a port knows of its neighbour from ANNOUNCE frames, and its delay exchange. -/
structure TempoPort where
  /-- Valid ANNOUNCE frames since the link was last down. -/
  announces : Nat := 0
  nbrId : Nat := 0
  nbrDepth : Nat := 0
  rootId : Nat := 0
  rootPri : Nat := 15
  nbrParent : Bool := false
  lastAnnounce : Nat := 0
  lead : Nat := 0
  dreqT1 : Option (Nat × Time70) := none
  dreqSeq : Nat := 0
  syncSeq : Nat := 0
  measured : Bool := false
  /-- ROOTSEQ of the last ANNOUNCE, the cycle at which it was last seen to change, and whether the root that the neighbour
  announces counts as lost (R272). -/
  rootSeq : Nat := 0
  seqAt : Nat := 0
  lost : Bool := false
  /-- Frames that wait for the port, oldest first, and TBCLK cycles left of the frame in transmission (R259). -/
  waiting : List TempoFrame := []
  busy : Nat := 0
  deriving DecidableEq, Repr

/-- The samples of one Tempo position channel. -/
structure TpcState where
  pending : List Sample := []
  cur : Option Sample := none
  /-- Cycle at which the last sample took effect. -/
  effAt : Nat := 0
  /-- Publisher whose samples are taken (R265). -/
  lastOrigin : Option Nat := none
  deriving DecidableEq, Repr

/-- Hidden state of the Tempo block outside its ports. -/
structure Tempo where
  port : SMap TempoPort := []
  tpc : SMap TpcState := []
  rootSeq : Nat := 0
  rootSeqAt : Nat := 0
  rootLead : Nat := 20000
  /-- Phase of TBCLK within the ns, and phase still to be corrected, in 1/64 ns. -/
  phase : Int := 0
  owed : Int := 0
  /-- TB counts still to be withheld (negative) or added (positive) by the slew. -/
  tbSkew : Int := 0
  goodSyncs : Nat := 0
  badSyncs : Nat := 0
  /-- TBCLK cycles until the phase may move again (R262). -/
  slewWait : Nat := 0
  mapSeq : SMap (Option Nat) := []
  /-- Another device announced this device's own ID (R253). -/
  dupOwn : Bool := false
  /-- The last cycles at which TB moved by other than one, newest first, and by how much more (R260, R262). -/
  shifts : List (Nat × Int) := []
  deriving DecidableEq, Repr

/-! ### PTP hardware clocks (R374) -/

/-- The clock of one Ethernet cluster: seconds, ns within the second, fraction of a ns accumulated by
the rate adjustment, the seconds that a read of PHC_NS latched, and the staged load. -/
structure Phc where
  sec : Nat := 0
  ns : Nat := 0
  frac : Nat := 0
  latched : Nat := 0
  stageNs : Nat := 0
  stageSec : Nat := 0
  deriving DecidableEq, Repr

/-! ### Tiles, word tracks, bit tracks, col queues (R49–R100) -/

/-- A local register u0–u7: data and P. -/
structure UReg where
  d : Word := 0
  p : Bool := false
  deriving DecidableEq, Repr

/-- An accumulator: 48 bits and P. -/
structure Acc where
  v : BitVec 48 := 0
  p : Bool := false
  deriving DecidableEq, Repr

/-- A bit signal: value and poison (R74). -/
structure Sig where
  v : Bool := false
  p : Bool := false
  deriving DecidableEq, Repr

/-- An operand as a firing read it: data, sideband bits, and whether it is a port word. -/
structure Opnd where
  d : Word
  p : Bool
  e : Bool
  port : Bool
  deriving DecidableEq, Repr

/-- A firing in the function-unit pipeline: what it read at issue, whether its predicate is true, the OR
of the E bits of its port words, and the marker word of a marker firing. -/
structure Firing where
  a : Opnd
  b : Opnd
  c : Opnd
  pred : Bool
  eOr : Bool
  /-- A saturation of the transform T applied to an accumulator operand (R72). -/
  sat : Bool
  marker : Option SWord
  deriving DecidableEq, Repr

/-- The state of one tile apart from its segments and output buffers (R49, R80). -/
structure Tile where
  u : SMap UReg := []
  acc0 : Acc := {}
  acc1 : Acc := {}
  tf : Sig := {}
  zf : Sig := {}
  nf : Sig := {}
  vf : Sig := {}
  ef : Bool := false
  cells : SMap Sig := []
  fa : Option SWord := none
  fb : Option SWord := none
  fc : Option SWord := none
  pipe : List Firing := []
  deriving DecidableEq, Repr

/-- A destination of a word source within a massif (R83): an outgoing segment or loop-back stage, an
input port, a queue's write tap, a shelf port's request or data tap, or the neighbour's col queue. -/
inductive Dest where
  | seg (t g : Nat)
  | port (t p : Nat)
  | queue (q : Nat)
  | shelfReq (p : Nat)
  | shelfData (p : Nat)
  | col
  deriving DecidableEq, Repr

/-- An elastic store of words with the destinations that have taken its head word (R82, R83). -/
structure Stage where
  words : List SWord := []
  taken : List Dest := []
  deriving DecidableEq, Repr

/-- A figure switch in progress (R112–R115): target slot, whether it came from a step or a FORCE,
mode and boundary wait, and whether the inputs are held. -/
structure Switch where
  slot : Nat
  forced : Bool
  clean : Bool
  boundary : Bool
  held : Bool
  deriving DecidableEq, Repr

/-- Hidden state of a massif's sequencer and of the massif's own holds. -/
structure Massif where
  /-- The step that is current, latched when it became so (R116). -/
  step : Dword := 0
  switch : Option Switch := none
  heldBeat : Option BeatRec := none
  /-- A second beat arrived while one was held: halt once the first has taken effect (R119). -/
  overrun : Bool := false
  /-- Held by a massif reset, a reload, or a load of the device. -/
  held : Bool := false
  /-- Held by a clock switch (R449). -/
  clockHold : Bool := false
  /-- Massif reset in its 64-cycle hold (R432). -/
  resetHold : Bool := false
  /-- Inputs whose last word delivered since the last switch had E = 0 (R115), by their key: they hold a
  boundary wait open. -/
  midPacket : List Nat := []
  /-- The beat that woke the massif, until it is acted on (R123). -/
  wakeBeat : Option BeatRec := none
  /-- Slots still to be reloaded on wake (R123). -/
  wakeSlots : List Nat := []
  /-- The Caller code copy of a wake is still to be made (R327), and the 8-byte parts of it that have been. -/
  callerCopy : Bool := false
  copied : Nat := 0
  /-- The cycle in which the present step became current, and whether a step before it had its trigger: the
  step is evaluated from the next cycle on (R118, R119). -/
  curAt : Option (Nat × Bool) := none
  /-- Beats that reached the stub while the massif's clock switched, or while it woke (R12, R123). -/
  beats : List BeatRec := []
  /-- The cycle in which ERR_CNT last counted a slot parity failure (R111). -/
  parityAt : Option Nat := none
  /-- Cycle of the stop of the massif, in whose cycle other tiles still fire and report (R71). -/
  stopAt : Option Nat := none
  /-- Credits of cleared words that inbound col queues and feed queues keep back, by input key (R94). -/
  withheld : SMap Nat := []
  deriving DecidableEq, Repr

/-- The loader's operation in progress: VERIFY or LOAD, target slot, source and address, and for a LOAD the
values of the tap bindings at its start (R133), the next 64-byte block to ask for, and the blocks read, each byte
with its P (R107); whether it is the reload of a wake (R123), and the number of the operation. -/
structure LoadOp where
  verify : Bool
  slot : Nat
  hbm : Bool
  addr : Nat
  binds : List Nat := []
  next : Nat := 0
  got : SMap (List (Byte × Bool)) := []
  wake : Bool := false
  gen : Nat := 0
  deriving DecidableEq, Repr

/-- A word stored in a stream queue with the stamp of its packet (R154), and whether its parity check fails (R148). -/
structure QWord where
  w : SWord
  stamp : Pos48
  bad : Bool := false
  deriving DecidableEq, Repr

/-- A pending cairn: its count and cause. -/
structure Cairn where
  count : Nat
  cause : Nat
  deriving DecidableEq, Repr

/-- Hidden state of a stream queue: the words from RL up to WP, the pending drop cairn and
forced-end cairn, the window's k and s1, a forced end to take, the stamp of the packet being
written, and the packet being reported (R127–R154). -/
structure Queue where
  words : List QWord := []
  cairn : Option Cairn := none
  forcedCairn : Bool := false
  force : Bool := false
  winK : Nat := 0
  winS1 : Word := 0
  stamp : Pos48 := 0
  /-- The last word written had E = 0, so the next belongs to its packet. -/
  inPkt : Bool := false
  /-- Reports sent since the state was last cleared. -/
  rseq : Nat := 0
  /-- E words released since the queue was last cleared, and the E counts at WP, RP and RL when the queue was
  enabled (R286). -/
  ecount : Nat := 0
  /-- RL stands at a packet boundary: the word before it carried E, or none stands before it (R286). -/
  relE : Bool := true
  enW : Nat := 0
  enR : Nat := 0
  enL : Nat := 0
  /-- Words of the packet at RP that were read already, two at most: its stamp words, for STAMPSRC = 1 (R154). -/
  rhead : List SWord := []
  deriving DecidableEq, Repr

/-- Hidden state of a lane receive queue (R152). -/
structure LaneQueue where
  words : List SWord := []
  /-- Feed ports that have taken the head word (R97). -/
  taken : List Nat := []
  cairn : Option Cairn := none
  forcedCairn : Bool := false
  force : Bool := false
  /-- The last word taken had E = 1, or none was taken. -/
  boundary : Bool := true
  deriving DecidableEq, Repr

/-- Hidden state of one track of a feed port: the lane group in use until a packet boundary, and
whether the last word passed carried E (R98). -/
structure FeedTrack where
  sel : Nat := 0
  boundary : Bool := true
  deriving DecidableEq, Repr

/-- A collector report (R154): the four header words and the payload words. -/
structure Report where
  h0 : Word
  h1 : Word
  stamp : Pos48
  rseq : Nat
  payload : List Word
  deriving DecidableEq, Repr

/-- The collector (R153–R158): reports by input, the output queue, the round-robin pointer, the last
stamp emitted, and the credits of every massif (an unlisted massif holds 32). -/
structure Collector where
  inputs : SMap (List Report) := []
  outq : List Report := []
  pointer : Nat := 0
  lastStamp : Option Pos48 := none
  credits : SMap Nat := []
  /-- Queue from which massif m looks for its next report (R150). -/
  rr : SMap Nat := []
  deriving DecidableEq, Repr

/-- The fabric. -/
structure Fabric where
  /-- Tile slots: 320 bits under (m·16 + slot)·256 + t (R101). -/
  slots : SMap (BitVec 320) := []
  tiles : SMap Tile := []
  /-- Word segments, loop-back stages and output buffers under (m·256 + t)·32 + g. -/
  segs : SMap Stage := []
  /-- Bit tracks driven by a tile under (m·256 + t)·32 + 8·d + k. -/
  bits : SMap Sig := []
  /-- Inbound col queues under ((m·4 + face)·16 + place)·4 + track. -/
  cols : SMap Stage := []
  /-- Feed queues under p·8 + f. -/
  feeds : SMap Stage := []
  feedTracks : SMap FeedTrack := []
  massifs : SMap Massif := []
  loaders : SMap (Option LoadOp) := []
  /-- LOADs accepted so far, which number the operations (R107). -/
  loads : Nat := 0
  queues : SMap Queue := []
  lanes : SMap LaneQueue := []
  deriving DecidableEq, Repr

/-! ### Shelves, block memories and HBM (R162–R215) -/

/-- A request of a fabric shelf port that has not left it (R170–R172): the word index, E and P of its
response, and the response once granted; a marker has its response at once. -/
structure ShelfPortReq where
  word : Nat
  e : Bool
  done : Option SWord
  /-- Data and P of a write; none for a read. -/
  write : Option (Word × Bool) := none
  deriving DecidableEq, Repr

/-- A Ridge bulk access to a shelf, served word by word (R165, R166): the packet, the word indices still
to be granted, the words already read, and the stored word that a partial write of the next index merges with
(R164). -/
structure ShelfBulk where
  pkt : Packet
  todo : List Nat
  got : List (Nat × Word × Bool)
  merge : Option (Word × Bool) := none
  deriving DecidableEq, Repr

/-- A corrected-error log entry (R209). -/
structure CeEntry where
  word : Nat
  synd : Nat
  req : Nat
  overflow : Bool
  deriving DecidableEq, Repr

/-- A write-back that the scrubber requests: word index and the codeword to store (R203). -/
structure ScrubRead where
  word : Nat
  stored : BitVec 40
  deriving DecidableEq, Repr

/-- Hidden state of a massif's shelf: ports, bulk accesses, the scrubber's read request and write-back, its
repair queue, the corrected-error log, and the clear in progress (R163–R173, R202–R209). -/
structure Shelf where
  ports : SMap (List ShelfPortReq) := []
  bulk : List ShelfBulk := []
  scrubReq : Option Nat := none
  scrubRead : Option ScrubRead := none
  repair : List Nat := []
  celog : List CeEntry := []
  ceLost : Bool := false
  /-- Next row group of a clear in progress (R173). -/
  clearK : Nat := 0
  /-- Word index of the Caller's partial write that has made its read, and what it read (R164). -/
  merge : Option (Nat × Word × Bool) := none
  /-- The cycle that SH_WAIT_LD counted last. -/
  ldWait : Option Nat := none
  /-- Banks that the Caller lost and still wants (R165, R166). -/
  want : List Nat := []
  /-- The cycle in which Summit deliveries wrote last, and the banks they took in it (R245). -/
  summit : Nat × List Nat := (0, [])
  deriving DecidableEq, Repr

/-- A BM_ACC access in progress (R179): memory, aspect address, and whether it writes. -/
structure BmAcc where
  mem : Nat
  addr : Nat
  write : Bool
  /-- The data and sideband of a write, as GO found them. -/
  data : Nat
  sb : Nat
  deriving DecidableEq, Repr

/-- A write through a port of a block memory (R178): its cycle, the aspect address, the entry's bits before that
cycle, and whether it was a BINC's. -/
structure BmWrote where
  cycle : Nat
  addr : Nat
  old : Nat
  binc : Bool
  deriving DecidableEq, Repr

/-- Hidden state of an HBM channel (R187, R188, R199, R204): waiting requests by class, admitted
requests with their class, the class whose turn it is with its admissions left, a group that is
re-read locked, and a scrub block that awaits admission. -/
structure HbmChannel where
  waiting : SMap (List Packet) := []
  admitted : List (Nat × Packet) := []
  turn : Nat := 0
  left : Nat := 1
  locked : List Nat := []
  scrubWait : Option Nat := none
  /-- Self-refresh was left unwoken by a request that waits (R189). -/
  waking : Bool := false
  deriving DecidableEq, Repr

/-- The memories. -/
structure Memories where
  /-- Shelf words under m·2¹⁸ + word: data [31:0], check bits [38:32], valid [39] (R163, R194). -/
  shelf : SMap (BitVec 40) := []
  shelves : SMap Shelf := []
  /-- Block memory rows under (m·24 + k)·1024 + row (R175). -/
  bm : SMap (BitVec 72) := []
  bmAcc : SMap (Option BmAcc) := []
  /-- Under (m·24 + k)·2 + port. -/
  bmWrote : SMap (List BmWrote) := []
  /-- HBM groups under channel·2²⁷ + offset/8: data [63:0], check bits [71:64] (R182, R194). -/
  hbm : SMap (BitVec 72) := []
  channels : SMap HbmChannel := []
  /-- Spare rows fitted: physical rows, under (m·16 + bank)·256 + prow, moved to their last spare. -/
  fitted : SMap Nat := []
  /-- Physical rows that the repair map names since its last fitting (R211). -/
  unfitted : List Nat := []
  /-- Corrected errors counted by the SMC per physical row since the last cold reset (R211). -/
  rowCount : SMap Nat := []
  /-- Repair commits that the SMC is to run, oldest first: physical row and CAUSE (R211, R392). -/
  repairDue : List (Nat × Nat) := []
  deriving DecidableEq, Repr

/-! ### The Ridge network (R216–R250) -/

/-- A flit in a router buffer (R218): its packet, the packet's serial number, its number in it, and the stored data
and check bits that differ from those that were sent (nine check bits to each 128-bit quarter). -/
structure Flit where
  id : Nat
  pkt : Packet
  idx : Nat
  err : BitVec 512 := 0
  chk : BitVec 36 := 0
  deriving DecidableEq, Repr

/-- Who waits for the response to a VN1 request (R232). -/
inductive TagOwner where
  /-- A BAR0 request of endpoint `e` with the TLP's tag; a write completes without a TLP. -/
  | bar0 (e tlpTag : Nat) (write : Bool)
  /-- Part `k` of a BAR2 request of endpoint `e`. -/
  | bar2 (e tlpTag : Nat) (write : Bool) (k : Nat)
  /-- The management port; for a read, whether the transaction still waits for the data (R388); for a write, whether it
  was refused (R390). -/
  | mgmt (waits : Bool)
  /-- Block `k` of the entry that operation `gen` of the loader of massif `m` reads (R107). -/
  | loader (m k gen : Nat)
  /-- A posted store of core `c` to address `a` (R310). -/
  | core (c a : Nat)
  /-- Request `i` of operation `gen` of requester `k` (`Wire`). -/
  | wire (k i gen : Nat)
  /-- The L2 takes in HBM line `line`, or has written it back (R309, R354). -/
  | l2 (line : Nat)
  | l2Back (line : Nat)
  /-- Any other requester at that endpoint code. -/
  | endpoint (sport : Nat)
  deriving DecidableEq, Repr

/-- An outstanding VN1 request of an NI. -/
structure OutReq where
  tag : Nat
  owner : TagOwner
  /-- Timed out: the tag stays reserved until the late response arrives (R235). -/
  expired : Bool
  deriving DecidableEq, Repr

/-- What the response to a VN1 request brings (R222): STATUS, the bytes of a memory read with the P of their words, and
the word of a register read with its P. -/
structure VnReply where
  status : Nat := 0
  bytes : List (Byte × Bool) := []
  word : Word := 0
  poison : Bool := false
  deriving DecidableEq, Repr

/-- The VN1 requests of an operation that waits for its answers before it goes on: an instruction of a core, a store or
fill of the spill engine, a DMA descriptor, a frame of an Ethernet ring, an SMC command, a checkpoint. Each time it is
tried again the operation meets the answers that have come, from the first on. -/
structure Wire where
  /-- Number of the operation: answers to an earlier one find nobody. -/
  gen : Nat := 0
  /-- Requests of the operation that the present trial has passed. -/
  cur : Nat := 0
  /-- The requests issued, with what came back. -/
  reqs : List (Option VnReply) := []
  /-- What the operation is, where its requester has more than one kind. -/
  op : Option (Bool × Nat) := none
  deriving DecidableEq, Repr

/-- Hidden state of the Ridge network. -/
structure Ridge where
  /-- Packets that wait at their source NI, under n·8 + v. -/
  ni : SMap (List Packet) := []
  /-- Flits in router input buffers, under (n·8 + input port)·8 + v. -/
  buf : SMap (List Flit) := []
  /-- Input port that holds an output on VN1–VN4 from head to tail, with the packet's serial number, under
  (n·8 + output)·8 + v. -/
  lock : SMap (Option (Nat × Nat)) := []
  /-- Round-robin pointers (R223): of an NI over VN1–VN4, under n; of an output over VN1–VN4, under n·8 + output; of
  an output over its inputs on VN(v), under (n·8 + output)·8 + v. -/
  rrNi : SMap Nat := []
  rrVn : SMap Nat := []
  rrIn : SMap Nat := []
  /-- Packets delivered to the NI of router n and not yet taken by their endpoint. -/
  inbox : SMap (List Packet) := []
  /-- Cycle of the last register access that reached router n, and how many came in that cycle (R11). -/
  regAt : SMap (Nat × Nat) := []
  /-- Outstanding VN1 requests of NI n. -/
  out : SMap (List OutReq) := []
  /-- The operations that wait for answers, by requester (R232). -/
  wires : SMap Wire := []
  /-- Serial number of the packet that NI n is injecting on network v, and flits of it injected, under n·8 + v (R223). -/
  sending : SMap (Option (Nat × Nat)) := []
  /-- Wake buffer of massif m (R236–R238). -/
  wake : SMap (List Packet) := []
  /-- Networks that an activation has stopped, as a mask of VN(v) in bit v − 1 (R228). -/
  stopped : Nat := 0
  /-- The last activation that was started has ended: with the swap, or with an abort (R228). -/
  acted : Option Bool := none
  /-- Counters of the regulators, under n·8 + v (R229). -/
  counters : SMap Nat := []
  /-- Serial number of the next injected packet. -/
  nextId : Nat := 0
  deriving DecidableEq, Repr

/-! ### Power and resets (R425–R455) -/

/-- Hidden state of resets, gating, Rest, brownout and clocks. -/
structure Power where
  /-- Cycle at which the wake of massif m began (R439). -/
  wakeAt : SMap (Option Nat) := []
  /-- Massifs that Rest entry asked to gate (R440). -/
  restAsked : List Nat := []
  /-- Massifs that Rest exit woke (R441). -/
  restWoken : List Nat := []
  /-- Cycle at which the present warning began (R443). -/
  warnAt : Option Nat := none
  /-- Phase of the warm reset in progress: 0 none, 1 quiesce, 2 write-back, 3 clear, 4 resume. -/
  warmPhase : Nat := 0
  /-- Cycle at which the warm reset's quiesce began (R430). -/
  warmAt : Nat := 0
  /-- A warm reset asked for in Rest starts once the device has left Rest (R429). -/
  warmAfterRest : Bool := false
  /-- Lane groups that Rest entry put into low power (R440). -/
  restGroups : List Nat := []
  /-- Cycle at which Rest entry began (R440). -/
  restAt : Nat := 0
  /-- Stacks trained since the last power-on or cold reset, and whether an HBM rail has left its range since
  (R473). -/
  trained : List Nat := []
  hbmRailLost : Bool := false
  /-- THERMTRIP_N is low (R486). -/
  thermTrip : Bool := false
  /-- The device is Off (R436, R472). -/
  off : Bool := false
  /-- I/O banks, of B2 to B6, whose supply the board leaves absent: no command changes it (R476; DESIGN CHOICE,
  log 125). -/
  banksOff : List Nat := []
  deriving DecidableEq, Repr

/-! ### The redundant pair (R278–R302) -/

/-- A mirror record (R285): massif, first word index, 1–16 words with their P bits, epoch. -/
structure MwrRec where
  massif : Nat
  word : Nat
  words : List (Word × Bool)
  epoch : Nat
  deriving DecidableEq, Repr

/-- A record that waits to be sent: a mirror record, or the end of an epoch, which no record of its epoch may follow
(R279). -/
inductive MirrorItem where
  | mwr (r : MwrRec)
  | epochEnd (r : EpochEnd)
  deriving DecidableEq, Repr

/-- Records of the pair link as sent (R279). -/
inductive PairRec where
  | hello (pairId tmpId state : Nat) (pref : Bool) (digest : List Nat) (epoch : Nat)
  | heartbeat (state epoch : Nat) (ready : Bool)
  | swap | stepdown | resyncReq | resyncDone
  | mwr (r : MwrRec)
  | epochEnd (e : EpochEnd)
  deriving DecidableEq, Repr

/-- A commanded or decided change of role that waits for the next epoch beat (R294–R298). -/
inductive PairPlan where
  | none | takeover | swap | stepdown
  deriving DecidableEq, Repr

/-- Hidden state of the pair block. -/
structure Pair where
  /-- Cycle at which HELLO was entered, and of the last HEARTBEAT received. -/
  helloAt : Nat := 0
  lastHb : Nat := 0
  /-- State and readiness that the partner last reported. -/
  partner : Nat := 0
  /-- A loss is declared and no HEARTBEAT has come since. -/
  lost : Bool := false
  /-- PAIR_ARB has been sampled for this loss (R294). -/
  sampled : Bool := false
  /-- A HELLO has arrived since HELLO was entered (R282). -/
  helloSeen : Bool := false
  plan : PairPlan := .none
  /-- The cycle in which the plan was made, and the last epoch whose beat it does not act on (R296). -/
  planAt : Nat := 0
  planEpoch : Nat := 0
  /-- Cycle of the last claim, while no grant has come (R295). -/
  claimAt : Option Nat := none
  /-- Grants that this device gave as root, by PAIRID: TB and argument (R295). -/
  grants : SMap (Nat × Dword) := []
  /-- Epoch beats acted on: count and POS, latest first (R284). -/
  beats : List (Nat × Pos48) := []
  /-- Active: records waiting in the mirror buffer, the checkpoints of this epoch, whether the epoch is
  broken, and whether a SYNCING partner has been sent its full copy. -/
  mirror : List MirrorItem := []
  ckpts : List CkptRec := []
  broken : Bool := false
  copied : Bool := false
  /-- Blocks of the full copy still to be read and sent, as massif and first word, the epoch whose commit writes them,
  and whether RESYNC_DONE is to follow (R297). -/
  copyTodo : List (Nat × Nat) := []
  copyEpoch : Nat := 0
  copyDone : Bool := false
  /-- Next byte of the rings in HBM: the mirror buffer (R285) and the hold ring (R290). -/
  mbufPos : Nat := 0
  holdPos : Nat := 0
  /-- Standby: staged records, EPOCH_ENDs that arrived, the last committed epoch, and the epoch in which a
  full copy ended. -/
  staged : List MwrRec := []
  arrived : List EpochEnd := []
  committed : Option Nat := none
  copyEnd : Option Nat := none
  /-- Standby: the epoch whose shelf writes are under way (R289). -/
  commit : Option EpochEnd := none
  /-- Its shelf writes are made, and its checkpoints are being written (R288, R289). -/
  commitCkpts : Bool := false
  /-- Standby: fit to take over, as its heartbeats say (R290, R292). -/
  ready : Bool := true
  /-- The hold ring (R290): reports with their lines, oldest first. -/
  hold : List (Nat × Report) := []
  /-- Digest sums of open and closed lines, and the partner's closed digests (R292). -/
  digests : SMap Dword := []
  closed : List (Nat × Dword) := []
  theirs : List (Nat × Dword) := []
  /-- Closed digests that the active has sent, or that are not its to send. -/
  sent : Nat := 0
  /-- Standby: its own sequencers' records as taken at the beat that ended each epoch (R287). -/
  ownSeqs : List (Nat × List SeqRec) := []
  /-- Consecutive retransmissions of the present cell (R278). -/
  retries : Nat := 0
  deriving DecidableEq, Repr


/-! ### Callers and Lead Callers (R303–R332) -/

/-- The registers of a control core (R303–R324). Cores 0–63 are the Callers, 64–67 Lead Callers 0–3. A
Caller's w0–w15 are `w`; a Lead Caller's frames are `frames` under f·8 + i; `w1` is the bank of the fast
interrupt of both. -/
structure Core where
  k : SMap Word := []
  w : SMap Word := []
  w1 : SMap Word := []
  frames : SMap Word := []
  links : SMap Word := []
  v : SMap (BitVec 128) := []
  pc : Word := 0
  lr : Word := 0
  psw : Word := 0
  epc : Word := 0
  epsw : Word := 0
  ecause : Word := 0
  eaddr : Word := 0
  /-- XSTAT.LSM_DONE. -/
  lsm : BitVec 24 := 0
  vbase : Word := 0
  fepc : Word := 0
  fepsw : Word := 0
  irqEn : Dword := 0
  irqFast : Dword := 0
  timecmp : Dword := 0xFFFFFFFFFFFFFFFF
  /-- TB_HI as the last read of TB_LO latched it (R306). -/
  tbHi : Word := 0
  hbmwin : Nat := 0
  spillPtr : Word := 0
  spillLim : Word := 0
  /-- SPILL_CTL.STOPPED and REASON; a stop whose WINDOW_SPILL has not been taken yet (R319, R321). -/
  stopped : Bool := false
  reason : Bool := false
  spillDue : Bool := false
  ctxFree : Word := 0
  /-- LD_WIN(w), bits [12:0]. -/
  ldWin : SMap Nat := []
  /-- Oldest resident frame (R318). -/
  bot : Nat := 0
  /-- Calls made in reserve mode that have not returned: for each, the windowed calls open above it (R322). -/
  rsvCalls : List Nat := []
  /-- Remote lines 16–47 (R316). -/
  remote : BitVec 32 := 0
  /-- In WFI, with fetching stopped (R346). -/
  wfi : Bool := false
  /-- A wait for beat that waits: rd, the operand, the massif and the channel (R350). -/
  wfb : Option (Nat × Word × Nat × Nat) := none
  /-- Address of the posted store whose acknowledgement carried an error (R310). -/
  busErr : Option Word := none
  /-- STEP was written to the halted core and the instruction is still to run (R328). -/
  stepReq : Bool := false
  /-- Posted stores of the last instruction that wait for a tag: address and packet (R232, R310). -/
  toPost : List (Nat × Packet) := []
  /-- HALTREQ was written while an instruction was under way (R328). -/
  haltReq : Bool := false
  /-- The last RETW left CWP = BOT: the engine may fill the frame below in advance (R320). -/
  fillNext : Bool := false
  deriving DecidableEq, Repr

/-- A line of the L2 (R309): its eight groups as stored, and whether it has been modified. -/
structure L2Line where
  groups : List (BitVec 72)
  dirty : Bool
  deriving DecidableEq, Repr

/-- The control cores with their memories. -/
structure Cores where
  core : SMap Core := []
  /-- Caller local RAM under m·2¹⁴ + word: data [31:0], check bits [38:32] (R194, R307). -/
  ram : SMap (BitVec 39) := []
  /-- Lines of the L2 by HBM address / 64. -/
  l2 : SMap (Option L2Line) := []
  /-- Write-backs of the L2 that wait for a tag: the line and its packet (R232, R354). -/
  l2Post : List (Nat × Packet) := []
  /-- Lines of the L1 instruction caches, and of the L1 data caches, under i·2²⁹ + HBM address / 64: sixteen words
  with their check bits (R193, R309). -/
  l1i : SMap (Option (List (BitVec 39))) := []
  l1d : SMap (Option (List (BitVec 39))) := []
  /-- Staged low half of an accumulator write through the tile window, under m·2 + accumulator (R329). -/
  tdbg : SMap Word := []
  deriving DecidableEq, Repr


/-! ### Lanes, CoaXPress and Ethernet (R356–R377) -/

/-- A line being unpacked into lane receive queues (R362–R364): words of the present line placed so far
(lost ones included), the words held back until it is known whether they are the line's last, the pixels or
bytes of an incomplete word, whether a line is in progress, words beyond CXP_LINEW, and whether words are
discarded until the next line start (R431). -/
structure LineSrc where
  idx : Nat := 0
  tail : List (Nat × SWord) := []
  sub : List (BitVec 16) := []
  /-- Bits of a pixel that is not complete, and how many there are. -/
  acc : Nat := 0
  accN : Nat := 0
  /-- A pixel of the incomplete word came from a packet with a bad CRC. -/
  subP : Bool := false
  inLine : Bool := false
  long : Nat := 0
  skip : Bool := false
  deriving DecidableEq, Repr

/-- A stream packet of a CXP link: its tag, whether it fails its CRC, the words lost before it if its tag skips, and what it
carries. -/
structure CxpPkt where
  tag : Nat
  crcBad : Bool
  missing : Option Nat
  items : List CxpItem
  deriving DecidableEq, Repr

/-- Hidden state of a CXP link: its line, the pixel format of the image, the packet tag expected, packets of a camera with
several connections that came ahead of their turn, and trigger edges still to be sent as (instant in 1/8 ns, rising), in
the order of their instants (R362, R366, R368). -/
structure CxpLink where
  src : LineSrc := {}
  format : PixelFormat := .mono8
  nextTag : Option Nat := none
  ahead : List CxpPkt := []
  trig : List (Nat × Bool) := []
  deriving DecidableEq, Repr

/-- Hidden state of a GVSP steering entry (R371): its line, the packet ID expected, the block's pixel format, items (pixels,
or bytes of a RAW block) per line of the block, items of the present line so far, whether a block whose leader came is in
progress, and bytes of the last payload packet. -/
structure GvSrc where
  src : LineSrc := {}
  expected : Option Nat := none
  format : PixelFormat := .mono8
  lineItems : Nat := 0
  place : Nat := 0
  inBlock : Bool := false
  pktBytes : Option Nat := none
  deriving DecidableEq, Repr

/-- A frame that is to be written into a receive ring: port, bytes, and the time of its arrival in ns and seconds (R372). -/
structure RxFrame where
  port : Nat
  bytes : List Byte
  ns : Nat
  sec : Nat
  deriving DecidableEq, Repr

/-- Hidden state of an Ethernet cluster (R370–R373): frames on their way into the receive ring, steering entries whose
packets wait, reports of the datagram being filled and the cycle of the first. -/
structure EthCl where
  rx : List RxFrame := []
  /-- Steering entries that have taken a frame whose GVSP packet is still to be unpacked (R370). -/
  steered : List Nat := []
  reports : List Report := []
  firstAt : Option Nat := none
  /-- Ports whose last frame was a datagram of reports (R373). -/
  lastReport : List Nat := []
  deriving DecidableEq, Repr

/-- Hidden state of the lane groups' engines. -/
structure Lanes where
  /-- Under g·8 + j. -/
  cxp : SMap CxpLink := []
  /-- Under c·4 + j. -/
  gv : SMap GvSrc := []
  eth : SMap EthCl := []
  /-- Lanes, as 8g + f, whose equaliser has converged since the last reset of their group (R358). -/
  trained : List Nat := []
  /-- Events of CXP links, as group and link, whose acknowledgement waits until the transmitters run (R360, R367). -/
  acks : List (Nat × Nat) := []
  deriving DecidableEq, Repr


/-! ### Host, management port, SMC and settings store (R378–R404) -/

/-- A DMA descriptor as the channel reads it from host memory (R384). -/
structure DmaBuf where
  hostAddr : Dword
  len : Nat
  irq : Bool
  deriving DecidableEq, Repr

/-- A descriptor that a DMA channel works on (R384, R385): its addresses, length and IRQ, whether the channel reads host
memory, and the host data with the EP of each byte and the ERRCODE that ended it. -/
structure DmaWork where
  hostAddr : Dword
  devAddr : Nat
  len : Nat
  irq : Bool
  fromHost : Bool
  data : List (Byte × Bool)
  err : Nat
  deriving DecidableEq, Repr

/-- Hidden state of a DMA channel (R385): the descriptor that it works on, the open COLLECTOR buffer, bytes written into it, whether one of
them was poisoned, and the cycle of its first report. -/
structure DmaChan where
  work : Option DmaWork := none
  buf : Option DmaBuf := none
  used : Nat := 0
  poison : Bool := false
  firstAt : Option Nat := none
  /-- The reports in the open buffer: not yet written, for R290. -/
  reports : List Report := []
  deriving DecidableEq, Repr

/-- One copy of a settings page (R393): generation, write count, 256 words (a word not listed is 0), and
whether its CRC matches. -/
structure NvmCopy where
  gen : Nat := 0
  writes : Nat := 0
  data : SMap Word := []
  valid : Bool := true
  deriving DecidableEq, Repr

/-- What an authenticated image says of itself (R407, R408): VERSION, image digest, and key slots. -/
structure ImgInfo where
  version : Dword
  digest : List Word
  eslot : Nat
  lslot : Nat
  deriving DecidableEq, Repr

/-- A record of a section: its kind, INDEX, DEST and payload (R409). -/
structure Rec where
  typ : Nat
  index : Nat
  dest : Nat
  payload : List Byte
  deriving DecidableEq, Repr

/-- How far an image command has got with the sections of its image (R409–R417). -/
structure LoadProg where
  /-- Sections applied in full. -/
  sect : Nat := 0
  /-- The present section has been read; its digest matches. -/
  fetched : Option Bool := none
  /-- Its records still to apply. -/
  recs : List Rec := []
  /-- The activation that ends a RIDGE section has been started (R228). -/
  acting : Bool := false
  /-- Massifs to run, Callers to release and Lead Callers to start at the release. -/
  runs : List Nat := []
  callers : List Nat := []
  starts : List Nat := []
  /-- KEY records: kind, slot and hash (R414). -/
  keys : List (Nat × Nat × List Byte) := []
  deriving DecidableEq, Repr

/-- The command that the SMC runs: its code, whether the SMC itself started it (R392, R405), ARG0–ARG7 and, for a
STORE, the staging buffer as the SMC read them at the start (R391, R397), the entry of a repair commit of its
own, and what an image command has authenticated: the header bytes and what they say (R413). -/
structure SmcRun where
  code : Nat
  self : Bool := false
  args : List Word := []
  stage : SMap Word := []
  entry : Word := 0
  authed : Option (ImgInfo × List Byte) := none
  /-- The result, when it is settled before the command ends. -/
  settled : Option Nat := none
  /-- How far the sections of an authenticated image have been applied. -/
  prog : LoadProg := {}
  deriving DecidableEq, Repr

/-- A load that waits for its release (R418–R421): the image; the massif of a MASSIF_RELOAD; massifs whose STEPS
record set RUN and whose CALLERFW record asked for RUN; Lead Callers with START = 1. -/
structure Staged where
  info : ImgInfo
  massif : Option Nat := none
  runs : List Nat := []
  callers : List Nat := []
  starts : List Nat := []
  deriving DecidableEq, Repr

/-- What the SMC keeps of loads: the load in progress or armed, VERSION of the released image, the START bits of
the last release (R431), the reload log, newest first (R424), and the image slot that the boot chain tries
(R405: 0 none, 1 OFFA, 2 OFFB). -/
structure Loads where
  staged : Option Staged := none
  starts : List Nat := []
  log : List (Nat × Word × List Word) := []
  bootSlot : Nat := 0
  /-- The boot chain has still to run (R405). -/
  bootDue : Bool := true
  deriving DecidableEq, Repr

/-- A part of a BAR2 request that waits for a tag: its owner and its packet (R381). -/
structure Bar2Part where
  owner : TagOwner
  pkt : Packet
  deriving DecidableEq, Repr

/-- A BAR2 read of endpoint `e`: its parts, how many of them have been completed, and what the responses that came ahead
of their turn brought: an error, the bytes, and their poison (R381). -/
structure Bar2Read where
  e : Nat
  tag : Nat
  parts : Nat
  sent : Nat := 0
  got : SMap (Option (Bool × List Byte × Bool)) := []
  deriving DecidableEq, Repr

/-- An entry of an endpoint's MSI-X table (R379): message address and data, and the vector control, whose bit 0 masks the
vector. -/
structure MsixEntry where
  addr : Dword := 0
  data : Word := 0
  control : Word := 1
  deriving DecidableEq, Repr

/-- What an endpoint keeps beside its page (R378, R382, R403): MSI-X Enable, Function Mask, Bus Master Enable, D3hot, the
width that MAXW last set for its groups, and its device ID, subsystem IDs and class code. -/
structure PciFn where
  enable : Bool := false
  mask : Bool := false
  busMaster : Bool := false
  d3hot : Bool := false
  width : Nat := 16
  ids : Nat := 0
  deriving DecidableEq, Repr

/-- Hidden state of the host side. -/
structure HostIf where
  /-- Parts of BAR2 requests of endpoint `e` that wait for a tag (R232, R381). -/
  bar2Parts : SMap (List Bar2Part) := []
  /-- BAR2 reads whose completions have not all left (R381). -/
  bar2Reads : List Bar2Read := []
  /-- Pending bits, and the OR of each vector's sources as last seen, under e·256 + v (R382). -/
  msixPend : SMap Bool := []
  msixOr : SMap Bool := []
  /-- MSI-X table of each endpoint, under e·256 + v. -/
  msixTab : SMap MsixEntry := []
  fn : SMap PciFn := []
  /-- A Lead Caller halt still to be delivered to endpoint e's HALTVEC (R313). -/
  haltMsi : SMap Bool := []
  dma : SMap DmaChan := []
  /-- Status byte bits ERR and POISON of the management port (R387). -/
  mgmtErr : Bool := false
  mgmtPoison : Bool := false
  /-- Accesses of the management port that wait for a tag: address, the word of a write, and whether a read's
  transaction still waits (R387, R388). -/
  mgmtWait : List (Nat × Option Word × Bool) := []
  /-- Writes of the load window that wait for a tag of the SMC's NI (R232, R423). -/
  winWait : List Packet := []
  smc : Option SmcRun := none
  loads : Loads := {}
  /-- Copies of the settings pages under page·2 + copy (R393). -/
  nvm : SMap NvmCopy := []
  deriving DecidableEq, Repr


/-- What leaves the device. -/
inductive Emit where
  | tempo (port : Nat) (f : TempoFrame)
  | pair (r : PairRec)
  /-- An Ethernet frame without its FCS, which is complemented where the frame is stomped (R207, R372, R373). -/
  | ethFrame (cluster port : Nat) (bytes : List Byte) (stomped : Bool)
  /-- A CXP control packet as it is sent, with the framing and CRC of the link's version, and the acknowledgement of an
  event (R367). -/
  | cxpControl (group link : Nat) (packet : List Word)
  | cxpEventAck (group link : Nat)
  /-- A trigger packet: rising edge, and its delay field in 1/8 ns (R368). -/
  | cxpTrigger (group link : Nat) (rising : Bool) (delay8 : Nat)
  /-- A PCIe completion of endpoint `e`: tag, Unsupported Request, data, and EP. -/
  | completion (e tag : Nat) (ur : Bool) (data : List Byte) (ep : Bool)
  /-- An MSI-X message of vector `v`: a write of `data` at `addr` (R382). -/
  | msix (e v : Nat) (addr : Dword) (data : Word)
  /-- A read of host memory by a DMA channel: a descriptor, or the data of an H2D transfer (R384, R385). -/
  | dmaRead (e c : Nat) (addr : Dword) (len : Nat)
  /-- Memory writes of a DMA channel: host address and bytes, each with its P bit (its TLP has EP set). -/
  | dmaWrite (e c : Nat) (addr : Dword) (data : List (Byte × Bool))
  /-- The writeback of a descriptor: the host address of its bytes 20–27, STATUS and COUNT (R384). -/
  | dmaStatus (e c : Nat) (addr : Dword) (status count : Word)
  /-- A read of the xSPI flash from an offset, in 8D-8D-8D or in 1S-1S-1S (R406). -/
  | flashRead (octal : Bool) (off : Nat)
  /-- Bytes that the management port shifts out (R387). -/
  | mgmt (bytes : List Byte)
  deriving DecidableEq, Repr


/-- The stops of a step. No command of the spec's table ends in one. -/
inductive Fault where
  /-- Raised by no meaning: the spec names no condition that stops the block. Safe. -/
  | stopped
  deriving DecidableEq, Repr

/-- Why a command has no meaning. -/
inductive Refusal where
  /-- Raised by an arm of `exec` whose meaning is not written yet, with its mnemonic. Safe. -/
  | notModelled (mnemonic : String)
  deriving DecidableEq, Repr

/-- The state of the device. -/
structure State where
  regs : RegFile := []
  /-- The time base TB (R19). -/
  tb : Dword := 0
  /-- TBCLK cycles since the power-on: the model's own count, which no step of TB changes (no register of the spec). -/
  cycle : Nat := 0
  /-- The register fields as the present TBCLK cycle found them (R461); none before the first tick. -/
  was : Option RegFile := none
  pos : Position := {}
  phc : SMap Phc := []
  tempo : Tempo := {}
  fab : Fabric := {}
  col : Collector := {}
  mem : Memories := {}
  ridge : Ridge := {}
  power : Power := {}
  pair : Pair := {}
  lanes : Lanes := {}
  cores : Cores := {}
  host : HostIf := {}
  /-- What left the device, latest first. -/
  out : List Emit := []
  /-- The model's own counter of free values taken (no register of the spec). -/
  freeCtr : Nat := 0
  /-- Commands that wait, first in, first out. -/
  pending : List Instr := []
  deriving DecidableEq, Repr

/-- The state after reset. -/
def State.reset : State := {}

end Sys2Proof.Machine
end

