-- ==== Sys2Proof/Machine/Ops.lean ====
section
/-! DEFINITION. The named operations on registers and on the common parts of the state that every
block uses. -/

namespace Sys2Proof.Machine

open Sys2Proof

/-- Little-endian number of a list of bytes. -/
def leNat (l : List Byte) : Nat := l.foldr (fun b acc => b.toNat + 256 * acc) 0

/-- The low `n` bytes of a number, little-endian. -/
def leBytes (n v : Nat) : List Byte := (List.range n).map fun i => BitVec.ofNat 8 (v / 2 ^ (8 * i))

/-- What a meaning answers. -/
abbrev Result := Host.Outcome State Fault Refusal

namespace State

/-- Value of a register field. -/
def get (s : State) (f : Fld) : Nat := s.regs.get f

/-- A one-bit field as a truth value. -/
def flag (s : State) (f : Fld) : Bool := s.get f != 0

/-- Sets a register field; the value is cut to the field's width. -/
def put (s : State) (f : Fld) (v : Nat) : State := { s with regs := s.regs.put f v }

/-- Bits of a field that are set now and were not when this TBCLK cycle began. -/
def fresh (s : State) (f : Fld) : Nat :=
  match s.was with
  | some r => s.get f &&& (f.max - r.get f)
  | none => 0

/-- What a count has grown by in this TBCLK cycle. -/
def grown (s : State) (f : Fld) : Nat :=
  match s.was with
  | some r => s.get f - r.get f
  | none => 0

/-- Sets a one-bit field. -/
def putB (s : State) (f : Fld) (b : Bool) : State := s.put f (b2n b)

/-- Takes a field from a word written to its register. -/
def load (s : State) (f : Fld) (v : Word) : State := s.put f (f.of v.toNat)

/-- Takes each field of a list from a written word. -/
def loadAll (s : State) (v : Word) : List Fld → State
  | [] => s
  | f :: fs => (s.load f v).loadAll v fs

/-- Adds `n` to a saturating counter field. -/
def count (s : State) (f : Fld) (n : Nat) : State := s.put f (min (s.get f + n) f.max)

/-- Applies `f` when the condition holds. -/
def when (s : State) (b : Bool) (f : State → State) : State := if b then f s else s

/-- Sets bit `i` of IRQ_STAT of the page at `base` (R457, R458). -/
def irq (s : State) (base i : Nat) : State :=
  s.put (F.IRQ_STAT_BITS base) (s.get (F.IRQ_STAT_BITS base) ||| 2 ^ i)

/-- Sets a status bit and, when it was 0, bit `i` of IRQ_STAT of its page: a summary bit that software cleared stays 0
while the bit below it is still 1 (DESIGN CHOICE, log 143). -/
def setIrq (s : State) (f : Fld) (base i : Nat) : State :=
  ((s.put f 1).when (!s.flag f) fun t => t.irq base i)

/-- Interrupt level of a page (R458). -/
def level (s : State) (base : Nat) : Bool :=
  s.get (F.IRQ_STAT_BITS base) &&& s.get (F.IRQ_EN_BITS base) != 0

/-- Records what leaves the device. -/
def emit (s : State) (e : Emit) : State := { s with out := e :: s.out }

/-- Two fields as one value, `hi` above the 32 bits of `lo`. -/
def get2 (s : State) (lo hi : Fld) : Nat := s.get lo + 2 ^ 32 * s.get hi

/-- Writes a value over a low word and a high field. -/
def put2 (s : State) (lo hi : Fld) (v : Nat) : State := (s.put lo (v % 2 ^ 32)).put hi (v / 2 ^ 32)

/-- Folds an action over the numbers below `n`, in ascending order. -/
def each (s : State) (n : Nat) (f : Nat → State → State) : State :=
  (List.range n).foldl (fun t i => f i t) s

/-- Takes the next free value's number. -/
def nextFree (s : State) : Nat × State := (s.freeCtr, { s with freeCtr := s.freeCtr + 1 })

/-- The load hold of R416: every state of CFG_STAT.STATE but RELEASED. -/
def loadHold (s : State) : Bool := s.get F.CFG_STAT_STATE != 3

/-- A member of a pair that is neither OFF nor ACTIVE (R280). -/
def pairQuiet (s : State) : Bool := s.get F.PAIR_STAT_STATE != 0 && s.get F.PAIR_STAT_STATE != 2

/-- A listen-only group (R281). -/
def listens (s : State) (g : Nat) : Bool := s.pairQuiet && (s.get F.PAIR_LISTEN_LG).testBit g

/-- The transmitters of lane group `g` are idle: a load, listen-only, or low power (R281, R360, R361). -/
def txIdle (s : State) (g : Nat) : Bool :=
  s.loadHold || s.listens g || s.flag (F.GRP_CTL_LP g)

/-- R278, R281: the pair link carries records to the partner: it is up, and its group's transmitters are not idle. -/
def pairSends (s : State) : Bool := s.flag F.PAIR_STAT_LINK && !s.txIdle 31

end State

/-- Base of massif `m`'s pages (R463). -/
abbrev massifBase (m : Nat) : Nat := 0x01000000 + 0x10000 * m

end Sys2Proof.Machine
end

