-- ==== Sys2Proof/Machine/Net.lean ====
section
/-! DEFINITION. Sending on the Ridge network: which router serves what, the shape of packets, and
handing a packet to a source NI (R216–R222, R498). -/

namespace Sys2Proof.Machine

open Sys2Proof

/-- Router of HBM channel `c` and its endpoint code (R217). -/
def hbmRouter (c : Nat) : Nat := if c < 16 then 80 + c / 2 else 88 + (c - 16) / 2
def hbmPort (c : Nat) : Nat := c % 2
/-- Router of lane group `g` (R217). -/
def laneRouter (g : Nat) : Nat := if g < 16 then 64 + g / 2 else 72 + (g - 16) / 2
/-- HBM channel behind endpoint `ep` of router `n`. -/
def channelAt (n ep : Nat) : Option Nat :=
  if 80 ≤ n ∧ n < 88 ∧ ep < 2 then some (2 * (n - 80) + ep)
  else if 88 ≤ n ∧ n < 96 ∧ ep < 2 then some (16 + 2 * (n - 88) + ep)
  else none

/-- An endpoint code that router `n` serves (R217). -/
def endpointExists (n ep : Nat) : Bool :=
  if n < 64 then ep ≤ 4
  else if ep < 2 then true
  else if ep = 2 then n == 64 || n == 67 || n == 72 || n == 79 || n == 83 || n == 84 || n == 91 || n == 92
  else ep == 3

/-- R221: an NI refuses a packet whose TYPE is reserved for its network or whose SIZE and ADDR break
R220. -/
def packetOk (p : Packet) : Bool :=
  match p.vn with
  | 0 => match p.typ with
    | 0 => p.dst < 64 && p.dport == 0 && p.size < 12 && p.addr % 4 == 0
        && p.addr % 64 + 4 * (p.size + 1) ≤ 64 && p.addr < 2 ^ 20
    | 1 => p.size == 0 &&
        ((p.dst < 64 && p.dport == 2) || (p.dport == 2 && (p.dst == 83 || p.dst == 84)))
    | _ => false
  | 1 => match p.typ with
    | 0 | 1 => p.size < 256 && p.addr % 256 + p.size + 1 ≤ 256
    | 2 | 3 => true
    | _ => false
  | 2 => p.typ < 4
  | 3 => match p.typ with
    | 0 | 3 => p.size < 128
    | 1 => p.size < 16
    | 2 => p.size < 256 && p.addr % 256 + p.size + 1 ≤ 256
    | _ => false
  | 4 => p.typ < 3
  | _ => false

/-- Number of flits of a packet (R218, R220). -/
def packetFlits (p : Packet) : Nat :=
  match p.vn, p.typ with
  | 1, 1 | 2, 0 | 3, 2 => 1 + ceilDiv (p.size + 1) 64
  | 3, 0 | 3, 3 => ceilDiv (128 + 35 * (p.size + 1)) 512
  | 3, 1 => ceilDiv (128 + 32 * (4 + p.size + 1)) 512
  | _, _ => 1

namespace State

def niQueue (s : State) (n v : Nat) : List Packet := s.ridge.ni.get (n * 8 + v) []
def setNiQueue (s : State) (n v : Nat) (l : List Packet) : State :=
  { s with ridge := { s.ridge with ni := s.ridge.ni.set (n * 8 + v) l [] } }
def inbox (s : State) (n : Nat) : List Packet := s.ridge.inbox.get n []
def setInbox (s : State) (n : Nat) (l : List Packet) : State :=
  { s with ridge := { s.ridge with inbox := s.ridge.inbox.set n l [] } }
def outReqs (s : State) (n : Nat) : List OutReq := s.ridge.out.get n []
def setOutReqs (s : State) (n : Nat) (l : List OutReq) : State :=
  ({ s with ridge := { s.ridge with out := s.ridge.out.set n l [] } }).put (F.NI_STAT_OUTST n) l.length
def wakeBuf (s : State) (m : Nat) : List Packet := s.ridge.wake.get m []
def setWakeBuf (s : State) (m : Nat) (l : List Packet) : State :=
  { s with ridge := { s.ridge with wake := s.ridge.wake.set m l [] } }

end State

/-- Hands a packet to its source NI, behind those that wait there on its network. The NI refuses a packet that breaks
R221, and nothing enters the network. -/
def niSend (p : Packet) (s : State) : State :=
  s.when (packetOk p) fun t => t.setNiQueue p.src p.vn (t.niQueue p.src p.vn ++ [p])

/-- Flits of one network that an NI holds for its endpoints before it takes no further packet, and flits of stream
packets that it holds for its router before a queue sends no further one: the six stages of its pipeline (R13, R223,
R224; DESIGN CHOICE, log 119). -/
def niDepth : Nat := 6

/-- Flits of some packets. -/
def flitsOf (l : List Packet) : Nat := l.foldl (fun acc p => acc + packetFlits p) 0

/-- The response to a request: source and destination change places, and the TAG is copied (R219). -/
def response (p : Packet) (typ status : Nat) : Packet :=
  { dst := p.src, dport := p.sport, src := p.dst, sport := p.dport, vn := 2, typ := typ, tag := p.tag,
    status := status }

/-- The lowest tag of 64 that no outstanding request of NI `n` holds, when the limit allows one more
request (R232). -/
def freeTag (s : State) (n : Nat) : Option Nat :=
  let l := s.outReqs n
  let lim := max 1 (s.get (F.NI_OUTST_LIMIT n))
  if lim ≤ l.length then none
  else (List.range 64).find? fun t => l.all fun r => r.tag != t

/-- Issues a VN1 request under a free tag; without one the request waits in its endpoint and nothing
is sent. A request that breaks R221 is refused and takes no tag. -/
def niRequest (owner : TagOwner) (p : Packet) (s : State) : State :=
  match freeTag s p.src with
  | some t =>
    s.when (packetOk { p with vn := 1 }) fun u =>
      niSend { p with tag := t, vn := 1 } (u.setOutReqs p.src (u.outReqs p.src ++ [⟨t, owner, false⟩]))
  | none => s

/-- A request is a write-back of the L2 (R354). -/
def writesBack (s : State) (p : Packet) : Bool :=
  p.vn == 1 && p.src == 84 && (s.outReqs 84).any fun r => r.tag == p.tag && match r.owner with
    | .l2Back _ => true
    | _ => false

/-! ### Operations that wait for their answers

Every VN1 access of a core, a DMA channel, an Ethernet ring, the SMC and the pair block is a request packet; the
operation that made it goes on in a later command, once the answer has come (DESIGN CHOICE, log 120). -/

namespace State

def wire (s : State) (k : Nat) : Wire := s.ridge.wires.get k {}
def setWire (s : State) (k : Nat) (w : Wire) : State := { s with ridge := { s.ridge with wires := s.ridge.wires.set k w {} } }

/-- An operation of requester `k` is under way. -/
def waits (s : State) (k : Nat) : Bool := !(s.wire k).reqs.isEmpty

end State

/-- The operation of requester `k` is tried again from its start. -/
def wireRewind (k : Nat) (s : State) : State := s.when (s.waits k) fun t => t.setWire k { t.wire k with cur := 0 }

/-- The operation is over, done or given up: answers still to come find nobody. -/
def wireEnd (k : Nat) (s : State) : State := s.when (s.waits k) fun t => t.setWire k { gen := (t.wire k).gen + 1 }

/-- Requests `i` and up of the operation of `k` that it has not made yet are issued, as far as tags allow (R232). -/
def wireIssue (k : Nat) : Nat → List Packet → State → State
  | _, [], s => s
  | i, p :: l, s =>
    let w := s.wire k
    if i < w.reqs.length then wireIssue k (i + 1) l s
    else match freeTag s p.src with
      | none => s
      | some _ => wireIssue k (i + 1) l (niRequest (.wire k i w.gen) p (s.setWire k { w with reqs := w.reqs ++ [none] }))

/-- The operation of `k` makes the requests `ps`; once all of them have been answered it goes on with the answers. -/
def wireAsk (k : Nat) (ps : List Packet) (s : State) : Option (List VnReply) × State :=
  let base := (s.wire k).cur
  let s1 := wireIssue k base ps s
  let w := s1.wire k
  let got := ((w.reqs.drop base).take ps.length).filterMap id
  if got.length == ps.length then (some got, s1.setWire k { w with cur := base + ps.length }) else (none, s1)

/-- The answer to request `i` of operation `gen` of `k` has come. -/
def wireReply (k i gen : Nat) (a : VnReply) (s : State) : State :=
  let w := s.wire k
  s.when (w.gen == gen && w.reqs[i]? == some none) fun t => t.setWire k { w with reqs := w.reqs.set i (some a) }

/-- The bytes of an answered memory read of `n` bytes, each with the P of its word: zeros where it failed, poisoned where it
timed out (R222). -/
def replyBytes (n : Nat) (a : VnReply) : List (Byte × Bool) :=
  if a.status == 0 then a.bytes else List.replicate n (0, a.status == 3)

/-- Words of little-endian bytes, each with its P. -/
def bytesWords (l : List (Byte × Bool)) : List (Word × Bool) :=
  (List.range (l.length / 4)).map fun i =>
    let b := (l.drop (4 * i)).take 4
    (BitVec.ofNat 32 (leNat (b.map (·.1))), b.any (·.2))

/-- R220: an access of `len` bytes at address `a` in packets of at most 256 bytes, none across a 256-byte boundary:
offset from `a`, and length. -/
def memParts (a len : Nat) : List (Nat × Nat) :=
  (List.range ((a + len + 255) / 256 - a / 256)).map fun i =>
    let lo := max a (256 * (a / 256 + i))
    (lo - a, min (a + len) (256 * (a / 256 + i + 1)) - lo)

/-- Takes the first copy of a packet out of its destination's inbox. -/
def takeInbox (p : Packet) (s : State) : State := s.setInbox p.dst ((s.inbox p.dst).erase p)

/-- An access of a register page: a request for endpoint 3 (R217, R221). -/
def regAccess (p : Packet) : Bool := p.dport == 3 && ((p.vn == 1 && 2 ≤ p.typ) || (p.vn == 4 && p.typ == 2))

/-- Accesses of register pages that wait at router `n`: those of earlier cycles, and those that came in this one. -/
def regsAt (s : State) (n : Nat) : List Packet × List Packet :=
  let (at0, k) := s.ridge.regAt.get n (0, 0)
  let regs := (s.inbox n).filter regAccess
  let old := regs.length - (if at0 == s.cycle then k else 0)
  (regs.take old, regs.drop old)

/-- Two packets at one NI that are taken in the order of their arrival: register accesses of one router, from every
master (R7, R11); packets of one endpoint and network other than VN3 (R245); on VN3, those of one source too (R240). -/
def sameLine (p q : Packet) : Bool :=
  if regAccess p then regAccess q
  else q.dport == p.dport && q.vn == p.vn && !regAccess q && (p.vn != 3 || (q.src == p.src && q.sport == p.sport))

/-- R11, R240, R245: the packet is the oldest of its line that waits at its NI; the NI of a massif under reset keeps its
packets (R432, R451). -/
def here (s : State) (p : Packet) : Bool :=
  (s.inbox p.dst).find? (sameLine p) == some p && !(decide (p.dst < 64) && (s.fab.massifs.get p.dst {}).resetHold)

/-- R11: rank of the master of a register access among those of one cycle: Lead Callers, Callers, the endpoints, the
management port, the SMC. -/
def masterRank (s : State) (p : Packet) : Nat :=
  match (s.outReqs p.src).find? fun r => r.tag == p.tag with
  | some r => match r.owner with
    | .core c _ => if 64 ≤ c then c - 64 else 4 + c
    | .bar0 e _ _ => 68 + e
    | .mgmt _ => 70
    | .wire k _ _ => if k < 64 then 4 + k else if k < 68 then k - 64 else 71
    | .bar2 _ _ _ _ | .endpoint _ | .loader _ _ _ | .l2 _ | .l2Back _ => 71
  | none => 71

/-- `l` with `p` before the first access of a greater rank. -/
def placeByRank (rank : Packet → Nat) (p : Packet) : List Packet → List Packet
  | [] => [p]
  | q :: l => if rank p < rank q then p :: q :: l else q :: placeByRank rank p l

/-- R240: two packets whose order of injection is that of their delivery. -/
def samePath (p q : Packet) : Bool := q.src == p.src && q.sport == p.sport && q.dport == p.dport && q.vn == p.vn

/-- `l`, the accesses of one cycle, with `p` at its place of R11, behind those of its own path (R240). -/
def joinCycle (rank : Packet → Nat) (p : Packet) (l : List Packet) : List Packet :=
  let later := (l.reverse.takeWhile fun q => !samePath p q).reverse
  l.take (l.length - later.length) ++ placeByRank rank p later

/-- A packet joins those that wait at its destination's NI. Register accesses that arrive in one cycle stand in the
order of R11. -/
def joinInbox (p : Packet) (s : State) : State :=
  let n := p.dst
  let l := s.inbox n
  if !regAccess p then s.setInbox n (l ++ [p])
  else
    let (old, now) := regsAt s n
    let s1 := s.setInbox n (l.filter (fun q => !regAccess q) ++ old ++ joinCycle (masterRank s) p now)
    { s1 with ridge := { s1.ridge with regAt := s1.ridge.regAt.set n (s.cycle, now.length + 1) (0, 0) } }

/-- R7, R11: before a direct access of register `addr` by a master of rank `rank` comes another one of its page that
waits at router `n`: it arrived in an earlier cycle, or in this one from a master of a lower rank. -/
def regsBefore (s : State) (n rank addr : Nat) : Bool :=
  let (old, now) := regsAt s n
  let page := fun (q : Packet) => q.addr / 0x1000 == addr / 0x1000
  old.any page || now.any fun q => page q && decide (masterRank s q < rank)

end Sys2Proof.Machine
end

