-- ==== Sys2Proof/Machine/Secded.lean ====
section
/-! DEFINITION. The extended Hamming codes of R194–R196: check bits, classification of a read, and
the poison pattern. -/

namespace Sys2Proof.Machine

open Sys2Proof

/-- A SECDED code: data bits, low check bits, highest position. -/
structure Code where
  n : Nat
  c : Nat
  top : Nat

/-- The (39,32) code. -/
def code39 : Code := ⟨32, 6, 38⟩
/-- The (72,64) code. -/
def code72 : Code := ⟨64, 7, 71⟩

/-- The (137,128) code of a flit quarter (R218). -/
def code137 : Code := ⟨128, 8, 136⟩

/-- Positions of the data bits in ascending order: those that are no power of two (R194). -/
def dataPositions (top : Nat) : List Nat := (List.range (top + 1)).filter (fun p => p &&& (p - 1) != 0)

/-- The low check bits: C[j] is the XOR of the data bits whose position has bit j set, so together they
are the XOR of the positions of the data bits that are 1. -/
def lowCheck (k : Code) (d : Nat) : Nat :=
  ((dataPositions k.top).zip (List.range k.n)).foldl (fun a e => if d.testBit e.2 then a ^^^ e.1 else a) 0

/-- Parity of the low `w` bits of `x`. -/
def parityOf (w x : Nat) : Bool := (List.range w).foldl (fun a i => a != x.testBit i) false

/-- All check bits of a data word; the last makes the parity of all stored bits even. -/
def checkBits (k : Code) (d : Nat) : Nat :=
  let low := lowCheck k d
  low + 2 ^ k.c * b2n (parityOf k.n d != parityOf k.c low)

/-- Check bits of a word written as poison (R196). -/
def poisonBits (k : Code) (d : Nat) : Nat :=
  checkBits k d ^^^ (if k.c = 6 then 0x3F else 0xFF)

/-- R195: what a read of a stored word shows. -/
inductive Check where
  | clean
  /-- The overall check bit is in error; the data is correct. -/
  | overall
  /-- A single error at that position. -/
  | single (pos : Nat)
  | poison
  | bad
  deriving DecidableEq, Repr

/-- The low syndrome and the overall check of stored data and check bits. -/
def syndrome (k : Code) (d chk : Nat) : Nat × Bool :=
  (lowCheck k d ^^^ (chk % 2 ^ k.c), parityOf k.n d != parityOf (k.c + 1) chk)

/-- The syndrome as one number, the overall check on top. -/
def syndromeNat (k : Code) (d chk : Nat) : Nat :=
  (syndrome k d chk).1 + 2 ^ k.c * b2n (syndrome k d chk).2

/-- R195: the classification. -/
def classify (k : Code) (d chk : Nat) : Check :=
  match syndrome k d chk with
  | (0, false) => .clean
  | (0, true) => .overall
  | (s, true) => if s ≤ k.top then .single s else .bad
  | (s, false) => if s = 2 ^ k.c - 1 then .poison else .bad

/-- The data after a single error at position `pos` is inverted back. -/
def correctData (k : Code) (d pos : Nat) : Nat :=
  match (dataPositions k.top).findIdx? (· == pos) with
  | some i => d ^^^ 2 ^ i
  | none => d

end Sys2Proof.Machine
end

