-- ==== Sys2Proof/Machine/Memories.lean ====
section
/-! DEFINITION. Shelves, block memories and HBM with their codes, scrubbers and logs
(R162–R204, R209). -/

namespace Sys2Proof.Machine

open Sys2Proof

abbrev shelfPage (m : Nat) : Nat := massifBase m + 0x3000
abbrev bmPage (m : Nat) : Nat := massifBase m + 0x4000
abbrev shelfIntPage (m : Nat) : Nat := massifBase m + 0x5000
abbrev hbmGlobalPage : Nat := 0x03020000
abbrev hbmPage (c : Nat) : Nat := 0x03000000 + 0x1000 * c

namespace State

def shelf (s : State) (m : Nat) : Shelf := s.mem.shelves.get m {}
def setShelf (s : State) (m : Nat) (h : Shelf) : State :=
  { s with mem := { s.mem with shelves := s.mem.shelves.set m h {} } }
def shelfCell (s : State) (m w : Nat) : BitVec 40 := s.mem.shelf.get (2 ^ 18 * m + w) 0
def setShelfCell (s : State) (m w : Nat) (v : BitVec 40) : State :=
  { s with mem := { s.mem with shelf := s.mem.shelf.set (2 ^ 18 * m + w) v 0 } }
def hbmCell (s : State) (c g : Nat) : BitVec 72 := s.mem.hbm.get (2 ^ 27 * c + g) 0
def setHbmCell (s : State) (c g : Nat) (v : BitVec 72) : State :=
  { s with mem := { s.mem with hbm := s.mem.hbm.set (2 ^ 27 * c + g) v 0 } }
def chan (s : State) (c : Nat) : HbmChannel := s.mem.channels.get c {}
def setChan (s : State) (c : Nat) (h : HbmChannel) : State :=
  { s with mem := { s.mem with channels := s.mem.channels.set c h {} } }
def bmRow (s : State) (m k r : Nat) : BitVec 72 := s.mem.bm.get ((m * 24 + k) * 1024 + r) 0
def setBmRow (s : State) (m k r : Nat) (v : BitVec 72) : State :=
  { s with mem := { s.mem with bm := s.mem.bm.set ((m * 24 + k) * 1024 + r) v 0 } }

/-- Records an uncorrectable error in a page's header (R209). -/
def errUncorr (s : State) (base lo hi : Nat) : State :=
  ((((s.put (F.ERR_STAT_UNCORR base) 1).put (F.ERR_ADDR_LO_VALUE base) lo).put
    (F.ERR_ADDR_HI_VALUE base) hi).count (F.ERR_CNT_VALUE base) 1)

end State

/-! ### Shelves -/

/-- A stored shelf word: data, check bits, valid (R163, R194, R196). -/
def shelfStored (d : Word) (poison : Bool) : BitVec 40 :=
  BitVec.ofNat 40 (2 ^ 39 + d.toNat
    + 2 ^ 32 * (if poison then poisonBits code39 d.toNat else checkBits code39 d.toNat))

def storedData (v : BitVec 40) : Nat := v.toNat % 2 ^ 32
def storedCheck (v : BitVec 40) : Nat := bitsOf v.toNat 32 7
def storedValid (v : BitVec 40) : Bool := v.getLsbD 39

/-- R203: a word index enters the scrubber's four-entry repair queue; one that finds it full is
dropped. -/
def queueRepair (m w : Nat) (s : State) : State :=
  let h := s.shelf m
  s.when (decide (h.repair.length < 4)) fun t => t.setShelf m { h with repair := h.repair ++ [w] }

/-- R211, R392: with REPAIR_CTL.AUTO = 1 the SMC is to add an entry for a physical row that the map does not hold: its commit
waits for the mailbox. -/
def repairNeeds (row cause : Nat) (s : State) : State :=
  s.when (s.flag F.REPAIR_CTL_AUTO && !s.mem.unfitted.contains row && s.mem.repairDue.all fun r => r.1 != row) fun t =>
    { t with mem := { t.mem with repairDue := t.mem.repairDue ++ [(row, cause)] } }

/-- R211: with REPAIR_CTL.AUTO = 1 the SMC, which reads every log in time (DESIGN CHOICE, log 81), counts the corrected errors of up to 1,024 physical rows; a new row
that finds the table full takes the place of the row with the lowest count. -/
def smcRowCount (row : Nat) (s : State) : State :=
  if !s.flag F.REPAIR_CTL_AUTO then s
  else
    let l := s.mem.rowCount
    let low := l.foldl (fun (acc : Option (Nat × Nat)) e => match acc with
      | some b => if e.2 < b.2 then some e else some b
      | none => some e) none
    let l1 := if l.any (fun e => e.1 == row) || l.length < 1024 then l else match low with
      | some b => SMap.erase l b.1
      | none => l
    let s1 := { s with mem := { s.mem with rowCount := SMap.set l1 row (l1.get row 0 + 1) 0 } }
    s1.when (decide (s.get F.REPAIR_CTL_THRESH < l1.get row 0 + 1)) (repairNeeds row 0)

/-- R197, R209: a corrected error of word `w` found by the requester of priority `req`. -/
def shelfCorrected (m w synd req : Nat) (s : State) : State :=
  let s1 := (s.count (F.SH_CECNT_VALUE m) 1).put (F.ERR_STAT_CORR (shelfIntPage m)) 1
  let h := s1.shelf m
  smcRowCount ((m * 16 + w % 16) * 256 + w / 1024)
    (if h.celog.length < 8 then s1.setShelf m { h with celog := h.celog ++ [⟨w, synd, req, false⟩] }
    else (s1.setShelf m { h with ceLost := true }).irq (shelfIntPage m) 1)

/-- R197, R209, R211: an uncorrectable word found by the requester of priority `req`. -/
def shelfUncorrectable (m w synd req : Nat) (s : State) : State :=
  repairNeeds ((m * 16 + w % 16) * 256 + w / 1024) 1 ((s.errUncorr (shelfIntPage m) w (synd + 2 ^ 8 * req)).irq (shelfIntPage m) 0)

/-- R163, R197: a read of word `w` by the requester of priority `req`. -/
def shelfRead (m w req : Nat) (s : State) : Word × Bool × State :=
  let v := s.shelfCell m w
  let d := storedData v
  if !storedValid v then (0, false, s)
  else
    let synd := syndromeNat code39 d (storedCheck v)
    match classify code39 d (storedCheck v) with
    | .clean => (BitVec.ofNat 32 d, false, s)
    | .overall => (BitVec.ofNat 32 d, false, queueRepair m w (shelfCorrected m w synd req s))
    | .single p =>
      (BitVec.ofNat 32 (correctData code39 d p), false, queueRepair m w (shelfCorrected m w synd req s))
    | .bad => (BitVec.ofNat 32 d, true, queueRepair m w (shelfUncorrectable m w synd req s))
    | .poison =>
      (BitVec.ofNat 32 d, true,
        (s.count (F.SH_POISONRD_VALUE m) 1).put (F.ERR_STAT_POISON (shelfIntPage m)) 1)

/-- Beats of the epoch channel that are still on their way through the beat tree (R40). -/
def epochsUnderWay (s : State) : Nat :=
  let c := s.get F.PAIR_EPOCH_CH
  (s.pos.treeWait.filter fun w => w.beat.ch == c).length + (s.pos.treeFly.filter fun f => f.2.ch == c).length

/-- The epoch a member is in: BC_COUNT of the last beat of its epoch channel that it has acted on (R284). -/
def epochNow (s : State) : Nat := sub32 (s.get (F.BC_COUNT_VALUE (s.get F.PAIR_EPOCH_CH))) (epochsUnderWay s)

/-- The epoch that massif `m` is in: it has yet to act on the beats kept for its first new edge (R12, R284). -/
def epochAt (s : State) (m : Nat) : Nat :=
  sub32 (epochNow s) ((s.fab.massifs.get m {}).beats.filter fun b => b.ch == s.get F.PAIR_EPOCH_CH).length

/-- `a` is behind `b`, both modulo 2³². -/
def behind (a b : Nat) : Bool := let d := sub32 b a; d != 0 && decide (d < 2 ^ 31)

/-- R285: word `w` of massif `m` lies in an enabled region. -/
def mirrored (s : State) (m w : Nat) : Bool :=
  (List.range 64).any fun r =>
    s.flag (F.PAIR_REG_EN r) && s.get (F.PAIR_REG_MASSIF r) == m && decide (s.get (F.PAIR_REG_BASE r) ≤ w / 16)
      && decide (w / 16 < s.get (F.PAIR_REG_BASE r) + min (s.get (F.PAIR_REG_LEN r)) 16384)

/-- Bytes of checkpoints in the mirror buffer. -/
def ckptBytes (l : List CkptRec) : Nat := l.foldl (fun acc c => acc + 8 + 4 * c.words.length) 0

/-- Bytes that a record holds of the mirror buffer (R291). -/
def mirrorItemBytes : MirrorItem → Nat
  | .mwr r => 8 + 4 * r.words.length
  | .epochEnd r => ckptBytes r.ckpts

/-- Bytes of the mirror buffer in use: records and checkpoints (R288, R291). -/
def mirrorBytes (s : State) : Nat :=
  s.pair.mirror.foldl (fun acc r => acc + mirrorItemBytes r) 0 + ckptBytes s.pair.ckpts

/-- R291: a record outlives the breaking of epoch `e`: it belongs to another epoch. -/
def outlives (e : Nat) : MirrorItem → Bool
  | .mwr r => r.epoch != e
  | .epochEnd _ => true

/-- R291: the epoch is broken: its records go, and the partner is asked to resynchronise. -/
def mirrorBreak (s : State) : State :=
  let s1 := (s.setIrq F.PAIR_STAT_MIRROR_OVF 0x00308000 4).count F.PAIR_MOVFCNT_VALUE 1
  let s2 := { s1 with pair := { s1.pair with
    mirror := s1.pair.mirror.filter (outlives (epochNow s)), ckpts := [], broken := true, copied := false
    copyTodo := [], copyDone := false } }
  s2.when (s.pairSends) fun t => t.emit (.pair .resyncReq)

/-- R183: channel and channel offset of a device HBM address. -/
def hbmMap (s : State) (a : Nat) : Nat × Nat :=
  if s.get F.HBM_MAP_MODE == 1 then (bitsOf a 30 5, a % 2 ^ 30)
  else (bitsOf a 8 5 ^^^ bitsOf a 13 5, bitsOf a 13 22 * 256 + a % 256)

/-- PMASK of bytes, each with its P (R220). -/
def maskOf (l : List (Byte × Bool)) : Nat :=
  ((List.range l.length).zip l).foldl (fun acc (i, _, p) => if p then acc ||| 2 ^ (i / 4) else acc) 0

/-- R220, R221: an access of memory by the requester at endpoint `sport` of router `src`: the shelf of massif `m`, or HBM. -/
def requestOf (s : State) (m : Option Nat) (src sport typ a n : Nat) : Packet :=
  let c := (hbmMap s (a % 2 ^ 35)).1
  { dst := m.getD (hbmRouter c), dport := if m.isSome then 0 else hbmPort c, src := src, sport := sport, vn := 1, typ := typ
    addr := if m.isSome then a else a % 2 ^ 35, size := n - 1 }

/-- The requests of a read of `n` bytes. -/
def readRequests (s : State) (m : Option Nat) (src sport a n : Nat) : List Packet :=
  (memParts a n).map fun (off, k) => requestOf s m src sport 0 (a + off) k

/-- The requests of a write of bytes, each with its P. -/
def writeRequests (s : State) (m : Option Nat) (src sport a : Nat) (l : List (Byte × Bool)) : List Packet :=
  (memParts a l.length).map fun (off, k) =>
    let b := (l.drop off).take k
    { requestOf s m src sport 1 (a + off) k with data := b.map fun x => (x.1, true), pmask := maskOf b }

/-! #### The rings of the pair block in HBM (R285, R290) -/

/-- R217: the router of the pair block. -/
def pairRouter : Nat := 79

/-- A BULK_WR packet of the pair block: words from HBM address `a` up. -/
def ringPacket (s : State) (a : Nat) (ws : List (Word × Bool)) : Packet :=
  let c := (hbmMap s a).1
  { dst := hbmRouter c, dport := hbmPort c, src := pairRouter, sport := 2, vn := 3, typ := 2, addr := a, size := 4 * ws.length - 1
    data := ws.flatMap fun (d, _) => (List.range 4).map fun i => ((d >>> (8 * i)).truncate 8, true)
    pmask := ((List.range ws.length).zip ws).foldl (fun acc (i, _, p) => if p then acc ||| 2 ^ i else acc) 0 }

/-- Words stored at byte `pos` of a ring of `size` bytes at HBM address `base`, in packets that cross neither the ring's end
nor a 256-byte boundary. -/
def ringStore (base size : Nat) : Nat → Nat → List (Word × Bool) → State → State
  | 0, _, _, s => s
  | n + 1, pos, ws, s =>
    if size == 0 || ws.isEmpty then s
    else
      let a := (base + pos % size) % 2 ^ 35
      let k := min ws.length (min ((size - pos % size) / 4) (64 - a % 256 / 4))
      ringStore base size n (pos + 4 * k) (ws.drop k) (niSend (ringPacket s a (ws.take k)) s)

/-- R285: words stored in the mirror buffer, behind a record header where they begin a record. The spec gives no layout of
the header's eight bytes, which are free values (log 149). -/
def mbufStore (header : Bool) (ws : List (Word × Bool)) (s : State) : State :=
  let base := 2 ^ 6 * s.get F.PAIR_MBUF_LO_ADDR + 2 ^ 32 * s.get F.PAIR_MBUF_HI_ADDR
  let (h, s1) := if header then ([(Config.freeWord s.freeCtr, false), (Config.freeWord (s.freeCtr + 1), false)],
    { s with freeCtr := s.freeCtr + 2 }) else ([], s)
  let l := h ++ ws
  let s2 := ringStore base (2 ^ 20 * s.get F.PAIR_MBUF_SZ_MIB) (l.length + 1) s.pair.mbufPos l s1
  { s2 with pair := { s2.pair with mbufPos := s2.pair.mbufPos + 4 * l.length } }

/-- R285: appends a word to the mirror records, merged into the last of them if it follows it. -/
def mirrorAppend (m w : Nat) (d : Word) (p : Bool) (e : Nat) : List MirrorItem → List MirrorItem
  | [] => [.mwr ⟨m, w, [(d, p)], e⟩]
  | [.mwr r] =>
    if r.massif == m && r.word + r.words.length == w && decide (r.words.length < 16) && r.epoch == e then
      [.mwr { r with words := r.words ++ [(d, p)] }]
    else [.mwr r, .mwr ⟨m, w, [(d, p)], e⟩]
  | x :: l => x :: mirrorAppend m w d p e l

/-- R285: the ACTIVE member mirrors a shelf write. -/
def mirrorWrite (m w : Nat) (d : Word) (p : Bool) (s : State) : State :=
  if s.get F.PAIR_STAT_STATE == 2 && !s.pair.broken && mirrored s m w then
    let l := mirrorAppend m w d p (epochAt s m) s.pair.mirror
    let s1 := { s with pair := { s.pair with mirror := l } }
    if 2 ^ 20 * s.get F.PAIR_MBUF_SZ_MIB < mirrorBytes s1 then mirrorBreak s
    else mbufStore (decide (s.pair.mirror.length < l.length)) [(d, p)] s1
  else s

/-- R164: a bulk access whose merge of word `w` another write overtakes discards it. -/
def ShelfBulk.dropMerge (w : Nat) (b : ShelfBulk) : ShelfBulk := if b.todo.head? == some w then { b with merge := none } else b

/-- R164, R203: what a write of word `w` makes void: a scrubber write-back of it, and the merges of read-modify-writes
that have read it. -/
def Shelf.overtake (w : Nat) (h : Shelf) : Shelf :=
  { h with
    scrubRead := if h.scrubRead.any (·.word == w) then none else h.scrubRead
    merge := if h.merge.any (·.1 == w) then none else h.merge
    bulk := h.bulk.map (·.dropMerge w) }

/-- R163, R198: a write of a whole word; P = 1 stores poison. -/
def shelfWrite (m w : Nat) (d : Word) (p : Bool) (s : State) : State :=
  let s1 := mirrorWrite m w d p (s.setShelfCell m w (shelfStored d p))
  s1.setShelf m ((s1.shelf m).overtake w)

/-- Byte `i` of a word. -/
def byteOf (d : Word) (i : Nat) : Byte := (d >>> (8 * i)).truncate 8

/-- A word with byte `i` replaced. -/
def setByte (d : Word) (i : Nat) (b : Byte) : Word :=
  (d &&& ~~~((0xFF : Word) <<< (8 * i))) ||| ((b.zeroExtend 32) <<< (8 * i))

/-- A write of bytes (byte number, value) covers its word. -/
def wholeWord (bs : List (Nat × Byte)) : Bool := (List.range 4).all fun i => bs.any fun b => b.1 == i

/-- R164: bytes merged into a word. -/
def mergeBytes (bs : List (Nat × Byte)) (old : Word) : Word := bs.foldl (fun acc b => setByte acc b.1 b.2) old

/-- R164, R198: a write of some bytes of a word (byte number, value); all four make a whole write, fewer
are merged into the stored word, which keeps its poison. -/
def shelfWriteBytes (m w req : Nat) (bs : List (Nat × Byte)) (p : Bool) (s : State) : State :=
  if bs.isEmpty then s
  else
    let (old, oldP, s1) := if wholeWord bs then ((0 : Word), false, s) else shelfRead m w req s
    shelfWrite m w (mergeBytes bs old) (p || oldP) s1

/-- Reads of `n` consecutive words from word `w`. -/
def shelfReadWords (m req : Nat) : Nat → Nat → State → List (Word × Bool) × State
  | _, 0, s => ([], s)
  | w, n + 1, s =>
    let (d, p, s1) := shelfRead m (w % 2 ^ 18) req s
    let (l, s2) := shelfReadWords m req (w + 1) n s1
    ((d, p) :: l, s2)

/-- A read of `n` consecutive bytes from byte address `a`, each with its word's P. -/
def shelfReadBytes (m req a n : Nat) (s : State) : List (Byte × Bool) × State :=
  let (l, s1) := shelfReadWords m req (a / 4) ((a + n + 3) / 4 - a / 4) s
  ((List.range n).map fun i => match l[(a + i) / 4 - a / 4]? with
    | some (d, p) => (byteOf d ((a + i) % 4), p)
    | none => (0, false), s1)

/-- R173: the valid bits of row group `k` (bits [13:8] of the row) are cleared in all banks. -/
def shelfClearGroup (m k : Nat) (s : State) : State :=
  { s with mem := { s.mem with shelf := s.mem.shelf.clear fun key =>
      key / 2 ^ 18 == m && key % 2 ^ 18 / 4096 == k } }

/-- R173: writing SH_CTL.CLEAR starts, or restarts, the clear at row group 0. -/
def shelfClear (m : Nat) (s : State) : State :=
  (s.setShelf m { s.shelf m with clearK := 0 }).put (F.SH_STAT_CLEARING m) 1

/-- R173: one cycle of a clear in progress. -/
def shelfClearStep (m : Nat) (s : State) : State :=
  let k := (s.shelf m).clearK
  if s.flag (F.SH_STAT_CLEARING m) && decide (k < 64) then
    let s1 := shelfClearGroup m k s
    s1.setShelf m { s1.shelf m with clearK := k + 1 }
  else s

/-- R173, R190: the clear completes: the row groups left are cleared and the interrupt is raised. -/
def shelfClearDone (m : Nat) (s : State) : State :=
  if s.flag (F.SH_STAT_CLEARING m) then
    let k := (s.shelf m).clearK
    let s1 := s.each 64 fun i t => t.when (decide (k ≤ i)) (shelfClearGroup m i)
    let s2 := (s1.setShelf m { s1.shelf m with clearK := 0 }).put (F.SH_STAT_CLEARING m) 0
    s2.irq (shelfPage m) 1
  else s

/-! ### The shelf scrubber (R202, R203) -/

/-- The clock of massif `m` runs (R447, R449). -/
def massifClock (s : State) (m : Nat) : Bool :=
  !(s.fab.massifs.get m {}).clockHold && (s.get F.REST_STAT_STATE != 2 || s.flag F.REST_CFG_SCRUB)

/-- R202: the scrubber of massif `m` runs. -/
def scrubRuns (s : State) (m : Nat) : Bool := s.flag (F.SCRUB_CTL_EN m) && massifClock s m

/-- A request of the scrubber, a read or a write-back, waits for its grant (R202, R203). -/
def Shelf.scrubWaits (h : Shelf) : Bool := h.scrubReq.isSome || h.scrubRead.isSome

/-- R203: with no request waiting, the scrubber requests the oldest index of its repair queue. -/
def repairRequest (m : Nat) (s : State) : State :=
  let h := s.shelf m
  match h.repair with
  | w :: rest => s.when (scrubRuns s m && !h.scrubWaits) fun t => t.setShelf m { h with repair := rest, scrubReq := some w }
  | [] => s

/-- R202: the walk's next word falls due: an invalid word is skipped, a valid one is requested, and one
that finds a request still waiting is counted overdue. The repair queue goes first (R203). -/
def scrubDue (m : Nat) (s0 : State) : State :=
  if !scrubRuns s0 m then s0
  else
    let s := repairRequest m s0
    let w := s.get (F.SCRUB_PTR_WORD m)
    let h := s.shelf m
    let step := fun (t : State) =>
      if w == 2 ^ 18 - 1 then
        ((t.put (F.SCRUB_PTR_WORD m) 0).put (F.SCRUB_PASSCNT_VALUE m)
          (t.get (F.SCRUB_PASSCNT_VALUE m) + 1)).irq (shelfIntPage m) 2
      else t.put (F.SCRUB_PTR_WORD m) (w + 1)
    if !storedValid (s.shelfCell m w) then step s
    else if h.scrubWaits then s.count (F.SCRUB_OVERDUE_VALUE m) 1
    else step (s.setShelf m { h with scrubReq := some w })

/-- R203: the scrubber's granted read: the error is counted and logged, and a write-back is requested. -/
def scrubGrant (m : Nat) (s : State) : State :=
  match (s.shelf m).scrubReq with
  | none => s
  | some w =>
    let s1 := s.setShelf m { s.shelf m with scrubReq := none }
    let v := s.shelfCell m w
    let d := storedData v
    let synd := syndromeNat code39 d (storedCheck v)
    let back := fun (x : Nat) (p : Bool) (t : State) =>
      t.setShelf m { t.shelf m with scrubRead := some ⟨w, shelfStored (BitVec.ofNat 32 x) p⟩ }
    if !storedValid v then s1
    else match classify code39 d (storedCheck v) with
      | .clean => s1
      | .overall => back d false (shelfCorrected m w synd 6 s1)
      | .single p => back (correctData code39 d p) false (shelfCorrected m w synd 6 s1)
      | .bad => back d true (shelfUncorrectable m w synd 6 s1)
      | .poison => s1.count (F.SCRUB_POISON_VALUE m) 1

/-- A stored shelf word holds the poison pattern. -/
def storedPoison (v : BitVec 40) : Bool := classify code39 (storedData v) (storedCheck v) == .poison

/-- R203: a granted write-back is made, unless the word's valid bit has been cleared since its read; it is a shelf
write like any other to the pair's mirror (R285). -/
def scrubStore (m : Nat) (s : State) : State :=
  match (s.shelf m).scrubRead with
  | none => s
  | some r =>
    let s1 := s.setShelf m { s.shelf m with scrubRead := none }
    s1.when (storedValid (s.shelfCell m r.word)) fun t =>
      let t1 := mirrorWrite m r.word (BitVec.ofNat 32 (storedData r.stored)) (storedPoison r.stored)
        (t.setShelfCell m r.word r.stored)
      t1.setShelf m ((t1.shelf m).overtake r.word)

/-- R209: the oldest corrected-error entry as SH_CELOG shows it. -/
def ceWord (s : State) (m : Nat) : Nat :=
  match (s.shelf m).celog with
  | e :: _ => e.word + 2 ^ 18 * e.synd + 2 ^ 25 * e.req + 2 ^ 30 * b2n (s.shelf m).ceLost + 2 ^ 31
  | [] => 0

/-- R209: reading SH_CELOG removes the oldest entry. -/
def ceRead (m : Nat) (s : State) : State :=
  let h := s.shelf m
  match h.celog with
  | _ :: rest => s.setShelf m { h with celog := rest, ceLost := false }
  | [] => s

/-! ### Block memories (R175–R180) -/

/-- log2 of the entries per row of an aspect: 2K×36, 4K×18, 8K×9, 1K×72. -/
def aspectSplit (asp : Nat) : Nat := match asp with
  | 0 => 1
  | 1 => 2
  | 2 => 3
  | _ => 0

/-- Data width of an aspect. -/
def aspectData (asp : Nat) : Nat := match asp with
  | 0 => 32
  | 1 => 16
  | 2 => 8
  | _ => 64

/-- Depth of an aspect. -/
def aspectDepth (asp : Nat) : Nat := 1024 * 2 ^ aspectSplit asp

/-- Stored width of an entry. -/
def aspectWidth (asp : Nat) : Nat := 72 / 2 ^ aspectSplit asp

/-- An entry as stored: data, sideband bits (2K×36), parity or check bits; a poisoned value of the
other aspects is stored with its parity, or its SECDED check, inverted (R66, R198). -/
def bmEntry (asp : Nat) (d : Nat) (e p m : Bool) : Nat :=
  match asp with
  | 0 =>
    let x := d % 2 ^ 32 + 2 ^ 32 * b2n e + 2 ^ 33 * b2n p + 2 ^ 34 * b2n m
    x + 2 ^ 35 * b2n (parityOf 35 x)
  | 1 =>
    let d := d % 2 ^ 16
    d + 2 ^ 16 * b2n (parityOf 8 d != p) + 2 ^ 17 * b2n (parityOf 8 (d / 256) != p)
  | 2 => d % 256 + 2 ^ 8 * b2n (parityOf 8 d != p)
  | _ =>
    let d := d % 2 ^ 64
    d + 2 ^ 64 * (if p then poisonBits code72 d else checkBits code72 d)

/-- What a read of an entry gives: data, E, P, M. -/
structure BmRead where
  d : Nat
  e : Bool
  p : Bool
  m : Bool
  deriving DecidableEq, Repr

/-- Replaces `w` bits of a row from bit `lo`. -/
def setRowBits (row : BitVec 72) (lo w x : Nat) : BitVec 72 :=
  let mask : BitVec 72 := BitVec.ofNat 72 ((2 ^ w - 1) * 2 ^ lo)
  (row &&& ~~~mask) ||| BitVec.ofNat 72 (x % 2 ^ w * 2 ^ lo)

/-- R175: the row and lowest bit of entry `a`. -/
def bmPlace (asp a : Nat) : Nat × Nat :=
  let k := 2 ^ aspectSplit asp
  (a % aspectDepth asp / k, a % k * aspectWidth asp)

/-- R180, R209: a failed check. -/
def bmFail (m k a : Nat) (s : State) : State :=
  ((s.count (F.BM_PARCNT_VALUE m) 1).errUncorr (bmPage m) (a + 2 ^ 16 * k) 0).irq (bmPage m) 0

/-- The stored bits of entry `a` of memory `k`. -/
def bmBits (s : State) (m k a : Nat) : Nat :=
  let asp := s.get (F.BM_CFG_ASPECT m k)
  let (r, lo) := bmPlace asp a
  bitsOf (s.bmRow m k r).toNat lo (aspectWidth asp)

/-- R65, R180, R196, R200: the bits `x` of entry `a` of memory `k` as a read gives them; a poison read is no new
error. -/
def bmCheck (m k a x : Nat) (s : State) : BmRead × State :=
  match s.get (F.BM_CFG_ASPECT m k) with
  | 0 =>
    let badPar := parityOf 36 x
    (⟨x % 2 ^ 32, x.testBit 32, x.testBit 33 || badPar, x.testBit 34⟩, s.when badPar (bmFail m k a))
  | 1 =>
    let bad := parityOf 8 x != x.testBit 16 || parityOf 8 (x / 256) != x.testBit 17
    (⟨x % 2 ^ 16, false, bad, false⟩, s.when bad (bmFail m k a))
  | 2 =>
    let bad := parityOf 9 x
    (⟨x % 256, false, bad, false⟩, s.when bad (bmFail m k a))
  | _ =>
    let d := x % 2 ^ 64
    match classify code72 d (x / 2 ^ 64) with
    | .clean => (⟨d, false, false, false⟩, s)
    | .overall => (⟨d, false, false, false⟩, (s.count (F.ERR_CNT_VALUE (bmPage m)) 1).put (F.ERR_STAT_CORR (bmPage m)) 1)
    | .single p => (⟨correctData code72 d p, false, false, false⟩,
        (s.count (F.ERR_CNT_VALUE (bmPage m)) 1).put (F.ERR_STAT_CORR (bmPage m)) 1)
    | .bad => (⟨d, false, true, false⟩, bmFail m k a s)
    | .poison => (⟨d, false, true, false⟩, s.put (F.ERR_STAT_POISON (bmPage m)) 1)

/-- R66, R175: a write of entry `a` of memory `k`. -/
def bmWrite (m k a : Nat) (d : Nat) (e p mk : Bool) (s : State) : State :=
  let asp := s.get (F.BM_CFG_ASPECT m k)
  let (r, lo) := bmPlace asp a
  s.setBmRow m k r (setRowBits (s.bmRow m k r) lo (aspectWidth asp) (bmEntry asp d e p mk))

/-! #### Two ports in one cycle (R178)

Massif cycles are TB cycles here (DESIGN CHOICE, log 126). -/

/-- Writes of this cycle and the last through a port of memory `k`, latest first. -/
def bmWrites (s : State) (m k port : Nat) : List BmWrote :=
  (s.mem.bmWrote.get ((m * 24 + k) * 2 + port) []).filter fun r => decide (s.cycle ≤ r.cycle + 1)

/-- Those of them that went to entry `a` through the other port in the last `back` cycles or in this one. -/
def bmMet (s : State) (m k port a back : Nat) : List BmWrote :=
  (bmWrites s m k (1 - port)).filter fun r =>
    r.addr == a % aspectDepth (s.get (F.BM_CFG_ASPECT m k)) && decide (s.cycle ≤ r.cycle + back)

/-- The bits of entry `a` before the first of some writes to it. -/
def bmBefore (s : State) (m k a : Nat) (l : List BmWrote) : Nat := (l.getLast?.map (·.old)).getD (bmBits s m k a)

/-- R178: a read through a port finds the entry as it was before the cycle. -/
def bmPortRead (m k port a : Nat) (s : State) : BmRead × State := bmCheck m k a (bmBefore s m k a (bmMet s m k port a 0)) s

/-- R66, R178: the bin that a BINC through a port adds to: it was read in the cycle before, and holds the increment of
the port's own BINC of that cycle, which overwrote the other port's writes. -/
def bmBin (m k port a : Nat) (s : State) : BmRead × State :=
  let own := (bmWrites s m k port).find? fun r => r.binc && r.addr == a % aspectDepth (s.get (F.BM_CFG_ASPECT m k))
  let met := (bmMet s m k port a 1).filter fun r => match own with
    | some o => decide (o.cycle < r.cycle)
    | none => true
  bmCheck m k a (bmBefore s m k a met) s

/-- R178: a write collision is counted. -/
def bmCollide (m : Nat) (s : State) : State :=
  (s.setIrq (F.BM_STAT_COLLIDE m) (bmPage m) 1).count (F.BM_COLLCNT_VALUE m) 1

/-- R178: of two writes to one entry, the one of a later cycle is stored, then a BINC's, then port A's. -/
def bmWins (tb port : Nat) (binc : Bool) (r : BmWrote) : Bool :=
  r.cycle != tb || (if binc != r.binc then binc else port == 0)

/-- R178: a write through a port; `binc`: it is the write of a BINC, which the other port's write collides with in the
cycle of its read too. -/
def bmPortWrite (m k port a : Nat) (binc : Bool) (d : Nat) (e p mk : Bool) (s : State) : State :=
  let met := bmMet s m k port a (b2n binc)
  let wrote : BmWrote := ⟨s.cycle, a % aspectDepth (s.get (F.BM_CFG_ASPECT m k)), bmBefore s m k a (bmMet s m k port a 0), binc⟩
  let l := wrote :: bmWrites s m k port
  let s1 := { s with mem := { s.mem with bmWrote := s.mem.bmWrote.set ((m * 24 + k) * 2 + port) l [] } }
  (met.foldl (fun t _ => bmCollide m t) s1).when (met.all (bmWins s.cycle port binc)) (bmWrite m k a d e p mk)

/-- R177: a write of BM_CFG(k), refused while a valid slot names the memory. -/
def bmCfgWrite (m k : Nat) (v : Word) (s : State) : State :=
  if (s.get (F.BM_USE_BITS m)).testBit k then (s.setIrq (F.BM_STAT_CFG_REFUSED m) (bmPage m) 2)
  else s.load (F.BM_CFG_ASPECT m k) v

/-- R179: the port a BM_ACC access uses, if it is free: 0 A, 1 B. -/
def bmAccPort (s : State) (m k : Nat) (write : Bool) : Option Nat :=
  let a := (s.get (F.BM_ACTA_BITS m)).testBit k
  let b := (s.get (F.BM_ACTB_BITS m)).testBit k
  if s.get (F.BM_CFG_ASPECT m k) == 3 then
    if write then (if a then none else some 0) else (if b then none else some 1)
  else if !a then some 0 else if !b then some 1 else none

/-- R179: a write of BM_ACC_CTL; GO starts an access on a free port, or is refused. -/
def bmAccess (m : Nat) (v : Word) (s : State) : State :=
  let go := v.getLsbD 0
  let s1 := s.load (F.BM_ACC_CTL_WRITE m) v
  if !go then s1
  else
    let k := s.get (F.BM_ACC_ADDR_MEM m)
    let port := if k < 24 then bmAccPort s m k (v.getLsbD 1) else none
    match s.flag (F.BM_ACC_CTL_BUSY m), port with
    | false, some p =>
      let acc : BmAcc := ⟨k, s.get (F.BM_ACC_ADDR_ADDR m), v.getLsbD 1,
        s.get (F.BM_ACC_DLO_VALUE m) + 2 ^ 32 * s.get (F.BM_ACC_DHI_VALUE m), s.get (F.BM_ACC_SB_EPM m)⟩
      ({ s1 with mem := { s1.mem with bmAcc := s1.mem.bmAcc.set m (some acc) none } }.put
        (F.BM_ACC_CTL_BUSY m) 1).put (F.BM_ACC_CTL_PORT m) p
    | _, _ => s.setIrq (F.BM_STAT_ACC_REFUSED m) (bmPage m) 2

/-- R179: the access completes. -/
def bmAccessDone (m : Nat) (s : State) : State :=
  match s.mem.bmAcc.get m none with
  | none => s
  | some a =>
    let s1 := { s with mem := { s.mem with bmAcc := s.mem.bmAcc.set m none none } }.put (F.BM_ACC_CTL_BUSY m) 0
    let port := s.get (F.BM_ACC_CTL_PORT m)
    if a.write then
      bmPortWrite m a.mem port a.addr false a.data (a.sb.testBit 0) (a.sb.testBit 1) (a.sb.testBit 2) s1
    else
      let (r, s2) := bmPortRead m a.mem port a.addr s1
      ((s2.put (F.BM_ACC_DLO_VALUE m) (r.d % 2 ^ 32)).put (F.BM_ACC_DHI_VALUE m) (r.d / 2 ^ 32)).put
        (F.BM_ACC_SB_EPM m) (b2n r.e + 2 * b2n r.p + 4 * b2n r.m)

/-! ### HBM (R182–R189, R198, R199, R204) -/

/-- A stored group: data and check bits. -/
def hbmStored (d : Nat) (poison : Bool) : BitVec 72 :=
  BitVec.ofNat 72 (d % 2 ^ 64 + 2 ^ 64 * (if poison then poisonBits code72 (d % 2 ^ 64) else checkBits code72 (d % 2 ^ 64)))

def groupData (v : BitVec 72) : Nat := v.toNat % 2 ^ 64
def groupCheck (v : BitVec 72) : Nat := v.toNat / 2 ^ 64

/-- R199, R209: a read of group `g` of channel `c`; an uncorrectable group is marked for its locked
re-read. -/
def hbmGroupRead (c g : Nat) (s : State) : Nat × Bool × State :=
  let v := s.hbmCell c g
  let d := groupData v
  let p := hbmPage c
  match classify code72 d (groupCheck v) with
  | .clean => (d, false, s)
  | .overall => (d, false, (s.count (F.HBM_CECNT_VALUE c) 1).put (F.ERR_STAT_CORR p) 1)
  | .single i => (correctData code72 d i, false, (s.count (F.HBM_CECNT_VALUE c) 1).put (F.ERR_STAT_CORR p) 1)
  | .poison => (d, true, (s.count (F.HBM_POISONRD_VALUE c) 1).put (F.ERR_STAT_POISON p) 1)
  | .bad =>
    let s1 := (s.errUncorr p (8 * g) 0).irq p 8
    (d, true, s1.setChan c { s1.chan c with locked := (s1.chan c).locked ++ [g] })

/-- Reads of groups `g` up to `g + n - 1` of channel `c`. -/
def hbmGroups (c g : Nat) : Nat → State → List (Nat × Bool) × State
  | 0, s => ([], s)
  | n + 1, s =>
    let (l, s1) := hbmGroups c g n s
    let (d, p, s2) := hbmGroupRead c (g + n) s1
    (l ++ [(d, p)], s2)

/-- A wrapping count. -/
def State.tally (s : State) (f : Fld) (n : Nat) : State := s.put f (s.get f + n)

/-- R185, R192: the unit of access: aligned 64-byte block `b` of the device address space is read. -/
def hbmBlockRead (b : Nat) (s : State) : List (Nat × Bool) × State :=
  let (c, off) := hbmMap s (64 * b)
  let (l, s1) := hbmGroups c (off / 8) 8 s
  (l, s1.tally (F.HBM_RDCNT_VALUE c) 1)

/-- The blocks that `n` bytes from device address `a` lie in. -/
def blockList (a n : Nat) : List Nat := (List.range ((a + n + 63) / 64 - a / 64)).map (a / 64 + ·)

/-- Reads of blocks, one after another. -/
def hbmBlocks : List Nat → State → List (Nat × Bool) × State
  | [], s => ([], s)
  | b :: bs, s =>
    let (l, s1) := hbmBlockRead b s
    let (k, s2) := hbmBlocks bs s1
    (l ++ k, s2)

/-- R185: a read of `n` bytes at device address `a`, each with its group's P: the blocks are read, and the bytes
asked for are returned. -/
def hbmReadBytes (a n : Nat) (s : State) : List (Byte × Bool) × State :=
  let (l, s1) := hbmBlocks (blockList a n) s
  ((List.range n).map fun i => match l[(a + i) / 8 - 8 * (a / 64)]? with
    | some (d, p) => (BitVec.ofNat 8 (d / 2 ^ (8 * ((a + i) % 8))), p)
    | none => (0, false), s1)

/-- A stored group as a read gives it: data, corrected, and P (R195). -/
def groupDecode (v : BitVec 72) : Nat × Bool :=
  let d := groupData v
  match classify code72 d (groupCheck v) with
  | .clean | .overall => (d, false)
  | .single i => (correctData code72 d i, false)
  | .poison | .bad => (d, true)

/-- Written bytes (place, value, P) cover their group. -/
def wholeGroup (bs : List (Nat × Byte × Bool)) : Bool := (List.range 8).all fun i => bs.any fun b => b.1 == i

/-- R185, R198: one group is written: whole, with its P, or merged into what it holds, which keeps
poison. `bs` gives each written byte's place, value and P. -/
def hbmGroupWrite (c g : Nat) (bs : List (Nat × Byte × Bool)) (s : State) : State :=
  if bs.isEmpty then s
  else
    let (old, oldP) := if wholeGroup bs then (0, false) else groupDecode (s.hbmCell c g)
    let d := bs.foldl (fun acc b =>
      acc - bitsOf acc (8 * b.1) 8 * 2 ^ (8 * b.1) + b.2.1.toNat * 2 ^ (8 * b.1)) old
    s.setHbmCell c g (hbmStored d (oldP || bs.any fun b => b.2.2))

/-- The written bytes of an access at `a` that lie in group `g`, by their place in it. -/
def bytesIn (a : Nat) (data : List (Byte × Bool × Bool)) (g : Nat) : List (Nat × Byte × Bool) :=
  ((List.range data.length).filter fun i => (a + i) / 8 == g).filterMap fun i => match data[i]? with
    | some (b, en, p) => if en then some ((a + i) % 8, b, p) else none
    | none => none

/-- R185: bytes are written into block `b`; a group written in part makes it a read-modify-write, which reads the
block. -/
def hbmBlockWrite (a : Nat) (data : List (Byte × Bool × Bool)) (b : Nat) (s : State) : State :=
  let (c, off) := hbmMap s (64 * b)
  let parts := (List.range 8).map fun i => bytesIn a data (8 * b + i)
  let rmw := parts.any fun bs => !bs.isEmpty && !wholeGroup bs
  let s1 := s.when rmw fun t => ((hbmGroups c (off / 8) 8 t).2).tally (F.HBM_RMWCNT_VALUE c) 1
  (((List.range 8).zip parts).foldl (fun t e => hbmGroupWrite c (off / 8 + e.1) e.2 t) s1).tally (F.HBM_WRCNT_VALUE c) 1

/-- A write of bytes from device address `a`: value, byte enable, P. -/
def hbmWriteBytes (a : Nat) (data : List (Byte × Bool × Bool)) (s : State) : State :=
  (blockList a data.length).foldl (fun t b => hbmBlockWrite a data b t) s

/-- R183: a write of HBM_MAP, refused while HBM_CTL.EN = 1. -/
def hbmMapWrite (v : Word) (s : State) : State :=
  if s.flag F.HBM_CTL_EN then s.setIrq F.HBM_STAT_CFG_REFUSED hbmGlobalPage 0
  else s.load F.HBM_MAP_MODE v

/-- The READY field of the stack of channel `c`. -/
def hbmReady (s : State) (c : Nat) : Bool :=
  if c < 16 then s.flag F.HBM_STAT_READY0 else s.flag F.HBM_STAT_READY1

/-- R187: share class of the source router of a request. -/
def hbmClass (s : State) (n : Nat) : Nat := s.get (F.HBM_CLASSMAP_CLASS (n % 8) (n / 8))

def classAdmitted (h : HbmChannel) (k : Nat) : Nat := (h.admitted.filter fun e => e.1 == k).length

/-- R187, R188: the status fields that show what channel `c` has admitted. -/
def hbmRefresh (c : Nat) (s : State) : State :=
  let h := s.chan c
  (s.put (F.HBM_CH_STAT_OCC c) h.admitted.length).each 8 fun k t =>
    let n := classAdmitted h k
    let past := decide (min 64 (t.get (F.HBM_SHARE_OUTST c k)) < n)
    let t1 := t.put (F.HBM_CLSTAT_ADMITTED c k) n
    (t1.putB (F.HBM_CLSTAT_OVER_QUOTA c k) past).when (past && !t.flag (F.HBM_CLSTAT_OVER_QUOTA c k))
      fun u => u.irq (hbmPage c) k

/-- R187: class `k` may admit its oldest waiting request. -/
def classReady (s : State) (c k : Nat) : Bool :=
  let h := s.chan c
  !(h.waiting.get k []).isEmpty && decide (classAdmitted h k < min 64 (s.get (F.HBM_SHARE_OUTST c k)))

/-- R187: the class that admits next and the admissions left to it after this one. -/
def hbmTurn (s : State) (c : Nat) : Option (Nat × Nat) :=
  let h := s.chan c
  let w := fun k => max 1 (s.get (F.HBM_SHARE_WEIGHT c k))
  if 0 < h.left && classReady s c h.turn then some (h.turn, h.left - 1)
  else
    match ((List.range 8).map fun i => (h.turn + 1 + i) % 8).find? (classReady s c) with
    | some k => some (k, w k - 1)
    | none => none

/-- R199, R214: the stack's on-die report with a read burst: 1 corrected, 2 uncorrected. -/
def onDieReport (c od : Nat) (s : State) : State :=
  match od with
  | 1 => s.count (F.HBM_ODECNT_CORR c) 1
  | 2 => (s.count (F.HBM_ODECNT_UNCORR c) 1).irq (hbmPage c) 10
  | _ => s

def onDieReports (c : Nat) (l : List Nat) (s : State) : State := l.foldl (fun t od => onDieReport c od t) s

/-- R199, R204: the scrubber's locked operation on one group. -/
def hbmScrubGroup (c g : Nat) (s : State) : State :=
  let (d, _, s1) := hbmGroupRead c g s
  let v := s.hbmCell c g
  match classify code72 (groupData v) (groupCheck v) with
  | .overall => s1.setHbmCell c g (hbmStored d false)
  | .single _ => s1.setHbmCell c g (hbmStored d false)
  | .bad =>
    let s2 := s1.setChan c { s1.chan c with locked := (s.chan c).locked }
    s2.setHbmCell c g (hbmStored d true)
  | _ => s1

/-- R199: a group of block `b` (channel offset / 64) is under a locked operation. -/
def blockLocked (h : HbmChannel) (b : Nat) : Bool := h.locked.any fun g => g / 8 == b

/-- R204: the waiting block is admitted, and scrubbed, when no class has a request waiting and the channel has a
free entry; it pauses in self-refresh, and waits for a locked operation on the block (R199). -/
def hbmScrubAdmit (c : Nat) (s : State) : State :=
  let h := s.chan c
  match h.scrubWait with
  | none => s
  | some b =>
    if hbmReady s c && !s.flag (F.HBM_CH_STAT_SELFREF c) && !s.flag (F.HSCRUB_CTL_INIT c)
        && !h.waiting.any (fun e => !e.2.isEmpty) && decide (h.admitted.length < 64) && !blockLocked h b then
      let (n, s0) := s.nextFree
      let s1 := onDieReports c (Config.odReports n) (s0.setChan c { h with scrubWait := none })
      (s1.each 8 fun i t => hbmScrubGroup c (8 * b + i) t).put (F.HSCRUB_PTR_BLOCK c) (b + 1)
    else s

/-- R204: the next block falls due; one due while the previous has not been admitted is overdue. -/
def hbmScrubDue (c : Nat) (s : State) : State :=
  let h := s.chan c
  if s.flag (F.HSCRUB_CTL_EN c) && hbmReady s c && !s.flag (F.HBM_CH_STAT_SELFREF c)
      && !s.flag (F.HSCRUB_CTL_INIT c) then
    match h.scrubWait with
    | some _ => hbmScrubAdmit c (s.count (F.HSCRUB_OVERDUE_VALUE c) 1)
    | none => hbmScrubAdmit c (s.setChan c { h with scrubWait := some (s.get (F.HSCRUB_PTR_BLOCK c)) })
  else s

/-- R187, R189, R204: channel `c` admits one request by weighted round robin. -/
def hbmAdmit (c : Nat) (s : State) : State :=
  let h := s.chan c
  if s.flag F.HBM_CTL_EN && hbmReady s c && !s.flag (F.HBM_CH_STAT_SELFREF c)
      && !s.flag (F.HSCRUB_CTL_INIT c) && decide (h.admitted.length < 64) then
    match hbmTurn s c with
    | some (k, left) =>
      match h.waiting.get k [] with
      | p :: rest =>
        hbmScrubAdmit c (hbmRefresh c (s.setChan c { h with
          waiting := h.waiting.set k rest [], admitted := h.admitted ++ [(k, p)], turn := k, left := left }))
      | [] => s
    | none => s
  else s

/-- Two accesses touch a common byte. -/
def overlaps (p q : Packet) : Bool :=
  p.addr % 2 ^ 35 ≤ q.addr % 2 ^ 35 + q.size && q.addr % 2 ^ 35 ≤ p.addr % 2 ^ 35 + p.size

/-- The request is a read. -/
def memReads (p : Packet) : Bool := p.vn == 1 && p.typ == 0

/-- R186: `p` must not complete before `q`, which reached the channel earlier: they come from one source and touch a
common byte, and either they share a network or `p` reads what `q` writes. -/
def ordered (q p : Packet) : Bool :=
  q.src == p.src && q.sport == p.sport && overlaps q p && (q.vn == p.vn || (memReads p && !memReads q))

/-- R186, R199: admitted request `i` may complete: no earlier one holds it back, and no block of it is under a locked
operation. -/
def mayComplete (h : HbmChannel) (s : State) (i : Nat) (p : Packet) : Bool :=
  (h.admitted.take i).all (fun e => !ordered e.2 p)
  && (blockList (p.addr % 2 ^ 35) (p.size + 1)).all fun b => !blockLocked h ((hbmMap s (64 * b)).2 / 64)

/-- Bytes of a memory packet with enable and the P of their 32-bit word. -/
def packetBytes (p : Packet) : List (Byte × Bool × Bool) :=
  ((List.range p.data.length).zip p.data).map fun (i, b, en) => (b, en, p.pmask.testBit (i / 4))

/-- R185, R186: an admitted access is made and its response leaves; a BULK_WR has none. `od`: the stack's on-die
reports with the bursts read (R199). -/
def hbmComplete (c i : Nat) (od : List Nat) (s : State) : State :=
  let h := s.chan c
  match h.admitted[i]? with
  | none => s
  | some (_, p) =>
    if !mayComplete h s i p then s
    else
      let s1 := onDieReports c od (s.setChan c { h with admitted := h.admitted.eraseIdx i })
      let a := p.addr % 2 ^ 35
      hbmScrubAdmit c <| hbmRefresh c <|
        if memReads p then
          let (l, s2) := hbmReadBytes a (p.size + 1) s1
          niSend { response p 0 0 with size := p.size, addr := p.addr,
                                        data := l.map fun b => (b.1, true), pmask := maskOf l } s2
        else (hbmWriteBytes a (packetBytes p) s1).when (p.vn == 1) (niSend (response p 1 0))

/-- R187: a memory request reaches channel `c`: it joins its class's input queue of eight, or waits in
the NI while the queue is full, and in phases 2 to 4 of a warm reset, which only the write-back of the L2 passes (R430). -/
def hbmArrive (c : Nat) (p : Packet) (s : State) : State :=
  let h := s.chan c
  let k := hbmClass s p.src
  let l := h.waiting.get k []
  if l.length < 8 && (s.power.warmPhase < 2 || writesBack s p) then
    takeInbox p (s.setChan c { h with waiting := h.waiting.set k (l ++ [p]) [] })
  else s

/-- R189: a request that waits at a channel in self-refresh wakes its stack. -/
def hbmSelfRefWake (c : Nat) (s : State) : State :=
  let h := s.chan c
  s.when (s.power.warmPhase == 0 && s.flag (F.HBM_CH_STAT_SELFREF c) && h.waiting.any (fun e => !e.2.isEmpty)) fun t =>
    t.setChan c { h with waking := true }

/-- R189, R430, R440: a trained stack enters self-refresh, and its READY falls. -/
def hbmSelfRefEnter (stack : Nat) (s : State) : State :=
  if s.power.trained.contains stack then
    let s1 := s.each 32 fun c t => t.when (c / 16 == stack) fun u => u.put (F.HBM_CH_STAT_SELFREF c) 1
    s1.put (if stack == 0 then F.HBM_STAT_READY0 else F.HBM_STAT_READY1) 0
  else s

/-- A stack has left self-refresh: its channels serve again and READY returns, unless it has lost a rail. -/
def hbmSelfRefLeave (stack : Nat) (s : State) : State :=
  let s1 := s.each 32 fun c t =>
    t.when (c / 16 == stack) fun u => (u.setChan c { u.chan c with waking := false }).put (F.HBM_CH_STAT_SELFREF c) 0
  let s2 := s1.when (s.power.trained.contains stack && !s.power.hbmRailLost) fun t =>
    t.put (if stack == 0 then F.HBM_STAT_READY0 else F.HBM_STAT_READY1) 1
  -- A scrub block that waited is tried again (R204).
  s2.each 32 fun c t => t.when (c / 16 == stack) (hbmScrubAdmit c)

/-- R189: a stack that a waiting request wakes leaves self-refresh. -/
def hbmSelfRefExit (stack : Nat) (s : State) : State :=
  s.when ((List.range 32).any fun c => c / 16 == stack && s.flag (F.HBM_CH_STAT_SELFREF c) && (s.chan c).waking)
    (hbmSelfRefLeave stack)

/-- R199: the oldest uncorrectable group of channel `c` is read again, locked, and written as poison if
it is still uncorrectable. `od`: the on-die reports of the bursts read. -/
def hbmReread (c : Nat) (od : List Nat) (s : State) : State :=
  let h := s.chan c
  match h.locked with
  | [] => s
  | g :: rest =>
    let s1 := onDieReports c od (s.setChan c { h with locked := rest })
    let v := s.hbmCell c g
    hbmScrubAdmit c (match classify code72 (groupData v) (groupCheck v) with
      | .bad => s1.setHbmCell c g (hbmStored (groupData v) true)
      | _ => s1)

/-- R204: writing HSCRUB_CTL.INIT = 1 while the stack reports READY starts an initialisation pass. -/
def hbmInit (c : Nat) (s : State) : State := s.when (hbmReady s c) fun t => t.put (F.HSCRUB_CTL_INIT c) 1

/-- R204: the pass, which pauses in self-refresh, ends: every block of the channel holds zero with correct check bits. -/
def hbmInitDone (c : Nat) (s : State) : State :=
  if s.flag (F.HSCRUB_CTL_INIT c) && s.fresh (F.HSCRUB_CTL_INIT c) == 0 && !s.flag (F.HBM_CH_STAT_SELFREF c) then
    let s1 := { s with mem := { s.mem with hbm := s.mem.hbm.clear fun k => k / 2 ^ 27 == c } }
    hbmScrubAdmit c ((s1.put (F.HSCRUB_CTL_INIT c) 0).irq (hbmPage c) 9)
  else s

/-- R405, R473, R500: a stack finishes the training that the boot chain's third step began, once since power-on
or cold reset, and only while the HBM rails have stayed in range. -/
def hbmTrained (stack : Nat) (s : State) : State :=
  if s.flag F.CMD_STAT_READY && !s.power.hbmRailLost && !s.power.trained.contains stack then
    let s1 := { s with power := { s.power with trained := stack :: s.power.trained } }
    s1.put (if stack == 0 then F.HBM_STAT_READY0 else F.HBM_STAT_READY1) 1
  else s

/-- R473, R192: both stacks lose their contents, and READY falls. -/
def hbmContentsLost (s : State) : State :=
  let s1 := { s with mem := { s.mem with hbm := [] }, power := { s.power with hbmRailLost := true } }
  let quiet := s.get F.REST_STAT_STATE == 2 || s.flag F.RST_STAT_WARM_BUSY
  let fall := fun (i : Nat) (f : Fld) (t : State) =>
    t.when (t.flag f) fun u => (u.put f 0).when (!quiet) fun v => v.irq hbmGlobalPage (1 + i)
  fall 1 F.HBM_STAT_READY1 (fall 0 F.HBM_STAT_READY0 s1)

/-! ### The meanings -/

def execShelfClear (m : Fin 64) (s : State) : Result := .next (shelfClear m s)
def execShelfClearDone (m : Fin 64) (s : State) : Result := .next (shelfClearDone m s)
def execScrubDue (m : Fin 64) (s : State) : Result := .next (scrubDue m s)
def execRepairRequest (m : Fin 64) (s : State) : Result := .next (repairRequest m s)
def execCelogRead (m : Fin 64) (s : State) : Result := .next (ceRead m s)
def execBmCfgWrite (m : Fin 64) (k : Fin 24) (v : Word) (s : State) : Result := .next (bmCfgWrite m k v s)
def execBmAccess (m : Fin 64) (v : Word) (s : State) : Result := .next (bmAccess m v s)
def execBmAccessDone (m : Fin 64) (s : State) : Result := .next (bmAccessDone m s)
def execHbmMapWrite (v : Word) (s : State) : Result := .next (hbmMapWrite v s)
def execHbmAdmit (c : Fin 32) (s : State) : Result := .next (hbmAdmit c s)
def execHbmComplete (c : Fin 32) (i : Fin 64) (od : List (Fin 3)) (s : State) : Result :=
  .next (hbmComplete c i (od.map (·.val)) s)
def execHbmLockedReread (r : LockedRead) (s : State) : Result := .next (hbmReread r.chan (r.od.map (·.val)) s)
def execHbmSelfrefWake (c : Fin 32) (s : State) : Result := .next (hbmSelfRefWake c s)
def execSelfRefreshExit (stack : Fin 2) (s : State) : Result := .next (hbmSelfRefExit stack s)
def execHbmInit (c : Fin 32) (s : State) : Result := .next (hbmInit c s)
def execHbmInitDone (c : Fin 32) (s : State) : Result := .next (hbmInitDone c s)
def execHbmScrubDue (c : Fin 32) (s : State) : Result := .next (hbmScrubDue c s)
def execHbmTrainingDone (stack : Fin 2) (s : State) : Result := .next (hbmTrained stack s)

end Sys2Proof.Machine
end

