-- ==== Sys2Proof/Machine/Ridge.lean ====
section
/-! DEFINITION. The Ridge network: regulators, injection, routers, delivery with the wake buffers,
activations of routing tables, discards and time-outs (R216–R242). -/

namespace Sys2Proof.Machine

open Sys2Proof

abbrev ridgePage : Nat := 0x00200000
abbrev routerPage (n : Nat) : Nat := 0x00201000 + 0x1000 * n
abbrev pwrPage (m : Nat) : Nat := massifBase m + 0x7000

namespace State

def rbuf (s : State) (n port v : Nat) : List Flit := s.ridge.buf.get ((n * 8 + port) * 8 + v) []
def setRbuf (s : State) (n port v : Nat) (l : List Flit) : State :=
  { s with ridge := { s.ridge with buf := s.ridge.buf.set ((n * 8 + port) * 8 + v) l [] } }
def lockOf (s : State) (n out v : Nat) : Option (Nat × Nat) := s.ridge.lock.get ((n * 8 + out) * 8 + v) none
def setLock (s : State) (n out v : Nat) (o : Option (Nat × Nat)) : State :=
  { s with ridge := { s.ridge with lock := s.ridge.lock.set ((n * 8 + out) * 8 + v) o none } }

/-- Massif `m` is ACTIVE or WAITING, so its endpoints take packets (R437). -/
def massifUp (s : State) (m : Nat) : Bool := s.get (F.PWR_STAT_STATE m) < 2

/-- R236: a VN1 request of NI `n` has had no response. -/
def outstanding (s : State) (n : Nat) : Bool := (s.outReqs n).any fun r => !r.expired

def massif (s : State) (m : Nat) : Massif := s.fab.massifs.get m {}
def setMassif (s : State) (m : Nat) (x : Massif) : State :=
  { s with fab := { s.fab with massifs := s.fab.massifs.set m x {} } }

end State

/-! ### Gating requests and wakes, as far as packets need them (R236–R238, R437–R439) -/

/-- R236, R438: a packet cancels a close, and the wake buffer is delivered. -/
def gateAbort (m : Nat) (s : State) : State :=
  if s.get (F.PWR_STAT_STATE m) == 2 then
    let s0 := (s.setInbox m (s.inbox m ++ s.wakeBuf m)).setWakeBuf m []
    let s1 := ((s0.put (F.PWR_STAT_STATE m) 0).put (F.PWR_CTL_GATE m) 0).put (F.PWR_STAT_GATE_ABORTED m) 1
    s1.irq (pwrPage m) 2
  else s

/-- R439: a wake event starts powering up a gated massif; the hardware clears GATE. -/
def wakeStart (m : Nat) (s : State) : State :=
  if s.get (F.PWR_STAT_STATE m) == 3 then
    let s1 := (s.put (F.PWR_STAT_STATE m) 4).put (F.PWR_CTL_GATE m) 0
    { s1 with power := { s1.power with wakeAt := s1.power.wakeAt.set m (some s.cycle) none } }
  else s

/-! ### Regulators (R229–R231) -/

/-- R230, R231: OVER_QUOTA and NONCONF of a bucket. -/
def bucketStatus (n v : Nat) (s : State) : State :=
  let burst := s.get (F.RG_CFG_BURST n v)
  let tok := s.get (F.RG_STAT_TOKENS n v)
  let conf := burst == 0 || (16 ≤ s.get (F.RG_CFG_PERIOD n 0) && burst ≤ 2 && decide (tok ≤ 2))
  (s.putB (F.RG_STAT_OVER_QUOTA n v) (decide (burst < tok))).when (v == 0) fun t => t.putB (F.RG_STAT_NONCONF n 0) (!conf)

/-- R230: the device-wide summary of NONCONF. -/
def summitStatus (s : State) : State :=
  let any := (List.range 96).any fun i => s.flag (F.RG_STAT_NONCONF i 0)
  (s.putB F.RIDGE_STAT_SUMMIT_NONCONF any).when (any && !s.flag F.RIDGE_STAT_SUMMIT_NONCONF) fun t => t.irq ridgePage 2

/-- R230, R231: what follows from a bucket's fields. -/
def regulatorStatus (n v : Nat) (s : State) : State :=
  if v == 0 then summitStatus (bucketStatus n v s) else bucketStatus n v s

/-- R229, R242: after a reset that keeps RG_CFG, every bucket starts full. -/
def bucketsFill (s : State) : State :=
  summitStatus (s.each 96 fun n t => t.each 5 fun v u =>
    bucketStatus n v (u.put (F.RG_STAT_TOKENS n v) (u.get (F.RG_CFG_BURST n v))))

/-- R229: a write of RG_CFG sets the regulator and returns its counter to zero. -/
def rgCfgWrite (n v : Nat) (w : Word) (s : State) : State :=
  let s1 := s.loadAll w [F.RG_CFG_PERIOD n v, F.RG_CFG_BURST n v]
  regulatorStatus n v { s1 with ridge := { s1.ridge with counters := s1.ridge.counters.set (n * 8 + v) 0 0 } }

/-- R229: the counter of a regulated bucket below its depth reaches PERIOD and adds a token. -/
def tokenAdd (n v : Nat) (s : State) : State :=
  let tok := s.get (F.RG_STAT_TOKENS n v)
  if s.get (F.RG_CFG_PERIOD n v) != 0 && decide (tok < s.get (F.RG_CFG_BURST n v)) then
    regulatorStatus n v (s.put (F.RG_STAT_TOKENS n v) (tok + 1))
  else s

/-- R229: what an injection on network `v` takes from the bucket of NI `n`, if it may inject: PERIOD = 0
removes regulation, BURST = 0 admits nothing. -/
def takeToken (n v : Nat) (s : State) : Option State :=
  if s.get (F.RG_CFG_BURST n v) == 0 then none
  else if s.get (F.RG_CFG_PERIOD n v) == 0 then some s
  else if s.get (F.RG_STAT_TOKENS n v) == 0 then none
  else some (regulatorStatus n v (s.put (F.RG_STAT_TOKENS n v) (s.get (F.RG_STAT_TOKENS n v) - 1)))

/-- Depth in flits of a router input buffer (R223). -/
def bufDepth (v : Nat) : Nat := if v == 0 then 2 else 9

/-- R228: an activation has stopped new packets on network `v`. -/
def vnStopped (s : State) (v : Nat) : Bool := v != 0 && s.ridge.stopped.testBit (v - 1)

/-- R430: during a warm reset an NI starts responses only, the accesses of the PCIe endpoints, the management
port and the SMC, and the write-back of the L2. -/
def warmHolds (s : State) (p : Packet) : Bool :=
  s.power.warmPhase != 0 && p.vn != 2 && !(p.sport == 2 && (p.src == 64 || p.src == 72 || p.src == 91)) && !writesBack s p

/-- R223: the network that goes next: VN0 first, otherwise the first of VN1–VN4 that is ready, from the pointer on. -/
def vnChoice (ready : Nat → Bool) (ptr : Nat) : Option Nat :=
  if ready 0 then some 0 else ((List.range 4).map fun i => (ptr + i) % 4 + 1).find? ready

/-- The packet that NI `n` is injecting on network `v`: its serial number, and its flits that have entered the router. -/
def State.sendingOf (s : State) (n v : Nat) : Option (Nat × Nat) := s.ridge.sending.get (n * 8 + v) none

/-- R223, R228, R229: NI `n` can inject the next flit of its oldest packet on network `v`: there is room for it in the
router's local input buffer, and a head has a token and nothing that holds it. -/
def niReady (s : State) (n v : Nat) : Bool :=
  match s.niQueue n v with
  | [] => false
  | p :: _ => decide ((s.rbuf n 0 v).length < bufDepth v)
      && ((s.sendingOf n v).isSome || (!vnStopped s v && !warmHolds s p && (takeToken n v s).isSome))

/-- The pointer over VN1–VN4 after network `v` went. -/
def vnNext (v ptr : Nat) : Nat := if v == 0 then ptr else v % 4

/-- Flit `i` of packet `id`, the oldest of NI `n` on network `v`, enters the router's local input buffer; with its last
flit the packet leaves the NI. -/
def injectFlit (n v id i : Nat) (p : Packet) (s : State) : State :=
  let tail := i + 1 == packetFlits p
  let s1 := s.setRbuf n 0 v (s.rbuf n 0 v ++ [{ id := id, pkt := p, idx := i }])
  let s2 := s1.when tail fun t => t.setNiQueue n v ((t.niQueue n v).drop 1)
  { s2 with ridge := { s2.ridge with
      sending := s2.ridge.sending.set (n * 8 + v) (if tail then none else some (id, i + 1)) none
      rrNi := s2.ridge.rrNi.set n (vnNext v (s2.ridge.rrNi.get n 0)) 0 } }

/-- R223, R229: NI `n` injects the next flit of its oldest packet on network `v`, when it is that network's turn; a head
takes a token. -/
def inject (n v : Nat) (s : State) : State :=
  if vnChoice (niReady s n) (s.ridge.rrNi.get n 0) != some v then s
  else match s.niQueue n v, s.sendingOf n v with
    | p :: _, some (id, i) => injectFlit n v id i p s
    | p :: _, none =>
      let s1 := (takeToken n v s).getD s
      injectFlit n v s1.ridge.nextId 0 p { s1 with ridge := { s1.ridge with nextId := s1.ridge.nextId + 1 } }
    | [], _ => s

/-! ### Routing (R226, R227) -/

/-- R227: the active table entry of massif router `r` for destination `d` on VN(v). -/
def tableEntry (s : State) (active : Bool) (r v d : Nat) : Nat :=
  let f := match active, v with
    | true, 1 => F.RT_ACTIVE1_ENTRIES r (d / 8)
    | true, 2 => F.RT_ACTIVE2_ENTRIES r (d / 8)
    | true, 3 => F.RT_ACTIVE3_ENTRIES r (d / 8)
    | true, _ => F.RT_ACTIVE4_ENTRIES r (d / 8)
    | false, 1 => F.RT_SHADOW1_ENTRIES r (d / 8)
    | false, 2 => F.RT_SHADOW2_ENTRIES r (d / 8)
    | false, 3 => F.RT_SHADOW3_ENTRIES r (d / 8)
    | false, _ => F.RT_SHADOW4_ENTRIES r (d / 8)
  bitsOf (s.get f) (4 * (d % 8)) 4

/-- The output port by which a packet of network `v` for router `d` leaves router `r`: an edge router
sends what is not its own to its attached massif (R216, R226). -/
def routePort (s : State) (r v d : Nat) : Nat :=
  if r < 64 then (if v == 0 then xyPort r d else tableEntry s true r v d)
  else if d == r then 0 else 5

/-- The router and input port at the far end of an output link; an input port is numbered as the output
that leads back. -/
def farEnd (r out : Nat) : Nat × Nat :=
  if 64 ≤ r then (routerMassif r, edgePort r)
  else match out with
    | 1 => (r + 8, 3)
    | 2 => (r + 1, 4)
    | 3 => (r - 8, 1)
    | 4 => (r - 1, 2)
    | 5 => (if myOf r = 0 then 64 + mxOf r else 72 + mxOf r, 5)
    | _ => (if mxOf r = 0 then 80 + myOf r else 88 + myOf r, 5)

/-! ### Errors on the way (R233) -/

/-- Packet types that bear data in a quarter other than the header's (R233). -/
def bearsData (p : Packet) : Bool :=
  match p.vn, p.typ with
  | 0, _ | 1, 1 | 2, 0 | 2, 2 | 3, _ => true
  | _, _ => false

/-- Indices below `n` whose bits [lo + w·j, lo + w·j + w − 1] meet [b, b + 127]. -/
def wordsHit (n lo w b : Nat) : List Nat :=
  (List.range n).filter fun j => lo + w * j < b + 128 && b ≤ lo + w * j + w - 1

def maskUnion (m : Nat) (l : List Nat) : Nat := l.foldl (fun acc j => acc ||| 2 ^ j) m

/-- R220, R233: an uncorrectable error in data quarter `q` of flit `i` sets P on every word that has a bit in that
quarter. In the head flit of memory data, quarters 1 and 2 hold the enables of the bytes of the aligned 256-byte block,
and quarter 3 the P bits. -/
def poisonQuarter (p : Packet) (i q : Nat) : Packet :=
  let b := 512 * i + 128 * q
  match p.vn, p.typ with
  | 0, _ => { p with spmask := maskUnion p.spmask (wordsHit (p.size + 1) 128 32 b) }
  | 3, 0 | 3, 3 =>
    let hit := wordsHit p.stream.length 128 35 b
    { p with stream := ((List.range p.stream.length).zip p.stream).map fun (j, w) =>
        if hit.contains j then { w with p := true } else w }
  | 3, 1 =>
    let hit := (wordsHit p.words.length 128 32 b).filter fun j => 4 ≤ j
    { p with words := ((List.range p.words.length).zip p.words).map fun (j, w) =>
        if j == 0 then w ||| 0x20
        else if j == 1 then w ||| BitVec.ofNat 32 (maskUnion 0 (hit.map (· - 4))) else w }
  | 2, 2 => if q == 1 then { p with wordP := true } else p
  | _, _ =>
    let n := ceilDiv (p.size + 1) 4
    if i == 0 then
      if q == 3 then { p with pmask := maskUnion p.pmask (List.range n) }
      else { p with pmask := maskUnion p.pmask ((List.range n).filter fun j => (List.range 4).any fun k =>
        4 * j + k ≤ p.size && (p.addr % 256 + 4 * j + k) / 128 == q - 1) }
    else { p with pmask := maskUnion p.pmask ((List.range n).filter fun j =>
      16 * (i - 1) + 4 * q ≤ j && j < 16 * (i - 1) + 4 * q + 4) }

/-- The header as stored, bits [63:0] (R219). -/
def headerLow (p : Packet) : Nat :=
  (p.dst + 2 ^ 7 * p.dport + 2 ^ 10 * p.src + 2 ^ 17 * p.sport + 2 ^ 20 * p.vn
    + 2 ^ 23 * (packetFlits p - 1) + 2 ^ 27 * p.typ + 2 ^ 31 * p.tag + 2 ^ 39 * p.addr) % 2 ^ 64

/-- R233, R234: router `n` discards a packet with stored header bits `h`: counted, the header recorded, IRQ_STAT[1]
raised. -/
def discardHeader (n h : Nat) (s : State) : State :=
  let b := routerPage n
  (((((s.count (F.RT_DISCARD_VALUE n) 1).count (F.ERR_CNT_VALUE b) 1).put (F.ERR_ADDR_LO_VALUE b)
    (h % 2 ^ 32)).put (F.ERR_ADDR_HI_VALUE b) (h / 2 ^ 32)).irq b 1)

def discardAt (n : Nat) (p : Packet) (s : State) : State := discardHeader n (headerLow p) s

/-- R234: a response that matches no outstanding request is discarded and counted. -/
def lateResponse (p : Packet) (s : State) : State :=
  let n := p.dst
  let b := routerPage n
  let l := s.outReqs n
  let s1 := takeInbox p s
  let s2 := ((s1.count (F.RT_LATERESP_VALUE n) 1).count (F.ERR_CNT_VALUE b) 1)
  let s3 := ((s2.put (F.ERR_ADDR_LO_VALUE b) (headerLow p % 2 ^ 32)).put (F.ERR_ADDR_HI_VALUE b)
    (headerLow p / 2 ^ 32)).irq b 1
  s3.setOutReqs n (l.filter fun r => !(r.tag == p.tag && r.expired))

/-- A response matches a request that has not timed out. -/
def matchReq (s : State) (p : Packet) : Option OutReq :=
  (s.outReqs p.dst).find? fun r => r.tag == p.tag && !r.expired

/-- R221, R222, R234: a packet for a reserved or absent endpoint: a request is answered ADDR_ERR,
anything else is discarded. -/
def packetDiscard (p : Packet) (s : State) : State :=
  let s1 := takeInbox p s
  if endpointExists p.dst p.dport || !here s p then s
  else if p.vn == 1 then
    niSend { response p p.typ 1 with size := p.size } s1
  else discardAt p.dst p s1

/-! ### Delivery (R236–R239) -/

/-- R237, R238: a packet for massif `n`'s NI is served while the massif sleeps: Summit packets, and VN1
accesses of its shelf. -/
def servedAsleep (p : Packet) : Bool := p.vn == 0 || (p.vn == 1 && p.dport == 0)

/-- R236–R238: a packet reaches the NI of its destination router. A massif that closes still takes it while a request is
outstanding (step 1); afterwards it takes it in its wake buffer and does not power down. A gated one wakes, unless the
packet is a shelf access. -/
def deliver (p : Packet) (s : State) : State :=
  let n := p.dst
  let st := s.get (F.PWR_STAT_STATE n)
  if 64 ≤ n then joinInbox p s
  else if st < 2 || (st == 2 && s.outstanding n) then joinInbox p s
  else if st == 2 then gateAbort n (s.setWakeBuf n (s.wakeBuf n ++ [p]))
  else if p.vn == 0 then wakeStart n (joinInbox p s)
  else if servedAsleep p then joinInbox p s
  else wakeStart n (s.setWakeBuf n (s.wakeBuf n ++ [p]))

/-- The destination NI can take one more packet. While a massif is down and its wake buffer of four is full, it takes
none on VN1–VN4 (R237). Requests and bulk packets that their endpoint has not taken hold the NI's room; responses,
Summit and maintenance packets are sunk at once (R13, R224). -/
def niTakes (s : State) (p : Packet) : Bool :=
  let n := p.dst
  !(n < 64 && 2 ≤ s.get (F.PWR_STAT_STATE n) && p.vn != 0 && 4 ≤ (s.wakeBuf n).length)
    && !((p.vn == 1 || p.vn == 3) && niDepth ≤ flitsOf ((s.inbox n).filter fun q => q.vn == p.vn))

/-- The far input has room for a flit: a credit is held (R218, R223). -/
def hasCredit (s : State) (r out v : Nat) : Bool :=
  let (r', i) := farEnd r out
  decide ((s.rbuf r' i v).length < bufDepth v)

/-- The R195 result of quarter `q` of a flit: the check bits recompute to what the upset bits alone give, since the
code is linear. -/
def quarterCheck (f : Flit) (q : Nat) : Check :=
  if f.err == 0 && f.chk == 0 then .clean
  else classify code137 (bitsOf f.err.toNat (128 * q) 128) (bitsOf f.chk.toNat (9 * q) 9)

/-- The result is an error that the read corrects. -/
def Check.corrected (c : Check) : Bool :=
  match c with
  | .overall | .single _ => true
  | _ => false

def Check.uncorrectable (c : Check) : Bool := c == .poison || c == .bad

/-- A list with its `i`-th element changed. -/
def changeAt {α : Type} (l : List α) (i : Nat) (f : α → α) : List α := match l[i]? with
  | some x => l.set i (f x)
  | none => l

/-- The word that bit `k` of a 35-bit stream word belongs to, with that bit inverted (R220). -/
def flipStream (k : Nat) (w : SWord) : SWord :=
  if k < 32 then { w with d := w.d ^^^ ((1 : Word) <<< k) }
  else if k == 32 then { w with e := !w.e }
  else if k == 33 then { w with p := !w.p }
  else { w with m := !w.m }

/-- A header with bit `b` inverted (R219). VN, LEN, TYPE and SIZE, which give a packet its shape, stay (DESIGN CHOICE,
log 148). -/
def flipHeader (p : Packet) (b : Nat) : Packet :=
  if b < 7 then { p with dst := p.dst ^^^ 2 ^ b }
  else if b < 10 then { p with dport := p.dport ^^^ 2 ^ (b - 7) }
  else if b < 17 then { p with src := p.src ^^^ 2 ^ (b - 10) }
  else if b < 20 then { p with sport := p.sport ^^^ 2 ^ (b - 17) }
  else if b < 31 then p
  else if b < 39 then { p with tag := p.tag ^^^ 2 ^ (b - 31) }
  else if b < 74 then { p with addr := p.addr ^^^ 2 ^ (b - 39) }
  else if b < 82 then p
  else if b < 86 then { p with status := p.status ^^^ 2 ^ (b - 82) }
  else if b < 98 then { p with spmask := p.spmask ^^^ 2 ^ (b - 86) }
  else p

/-- R219, R220: a packet with bit `b` of its stored flits inverted. -/
def flipBit (p : Packet) (b : Nat) : Packet :=
  let flipWord := fun (k : Nat) (w : Word) => w ^^^ ((1 : Word) <<< k)
  if b < 128 then flipHeader p b
  else match p.vn, p.typ with
    | 0, _ | 3, 1 => { p with words := changeAt p.words ((b - 128) / 32) (flipWord ((b - 128) % 32)) }
    | 3, 0 | 3, 3 => { p with stream := changeAt p.stream ((b - 128) / 35) (flipStream ((b - 128) % 35)) }
    | 1, 3 | 2, 2 | 4, 2 =>
      if b < 160 then { p with word := flipWord (b - 128) p.word }
      else if b == 160 then { p with wordP := !p.wordP } else p
    | _, _ =>
      if b < 384 then { p with data := changeAt p.data (b - 128 - p.addr % 256) fun x =>
        if p.addr % 256 ≤ b - 128 then (x.1, !x.2) else x }
      else if b < 448 then { p with pmask := p.pmask ^^^ 2 ^ (b - 384) }
      else if b < 512 then p
      else { p with data := changeAt p.data ((b - 512) / 8) fun x => (x.1 ^^^ ((1 : Byte) <<< (b % 8)), x.2) }

/-- Upset data bits of quarter `q` of a flit that its read does not set right: a single error inverts one bit (R195). -/
def upsetLeft (f : Flit) (q : Nat) : Nat :=
  let x := bitsOf f.err.toNat (128 * q) 128
  match quarterCheck f q with
  | .single p => correctData code137 x p
  | _ => x

/-- The packet of a flit as its read leaves it, before the P bits of R233. -/
def upsetPacket (f : Flit) : Packet :=
  if f.err == 0 then f.pkt
  else (List.range 4).foldl (fun p q =>
    let x := upsetLeft f q
    ((List.range 128).filter x.testBit).foldl (fun p b => flipBit p (512 * f.idx + 128 * q + b)) p) f.pkt

/-- R233: what a read of a flit from a router buffer shows: the packet as it travels on, if it does. -/
def flitRead (n : Nat) (f : Flit) (s : State) : Option Packet × State :=
  let bad := (List.range 4).filter fun q => (quarterCheck f q).uncorrectable
  let fixed := ((List.range 4).filter fun q => (quarterCheck f q).corrected).length
  let s1 := s.when (decide (0 < fixed)) fun t => t.count (F.RT_CECNT_VALUE n) fixed
  if bad.isEmpty then (some (upsetPacket f), s1)
  else if (f.idx == 0 && bad.contains 0) || !bearsData f.pkt then (none, s1)
  else
    (some (bad.foldl (fun p q => poisonQuarter p f.idx q) (upsetPacket f)),
      (s1.count (F.RT_UECNT_VALUE n) bad.length).irq (routerPage n) 0)

/-- R223: the head flit of input `inp` on network `v` can leave router `r` by output `out`: the output is free and it
is a head, or this input holds it; and the far end, or the NI, takes it. -/
def flitReady (s : State) (r out v inp : Nat) : Bool :=
  match s.rbuf r inp v with
  | [] => false
  | f :: _ =>
    routePort s r v f.pkt.dst == out
      && (match s.lockOf r out v with
          | some (i, _) => i == inp
          | none => v == 0 || f.idx == 0)
      && (if out == 0 then niTakes s f.pkt else hasCredit s r out v)

/-- R223: the input that output `out` of router `r` serves next on network `v`, in round-robin order of input port. -/
def inputChoice (s : State) (r out v : Nat) : Option Nat :=
  let ptr := s.ridge.rrIn.get ((r * 8 + out) * 8 + v) 0
  ((List.range 7).map fun i => (ptr + i) % 7).find? (flitReady s r out v)

/-- R223: the flit that output `out` of router `r` sends next: its network and input port. -/
def linkChoice (s : State) (r out : Nat) : Option (Nat × Nat) :=
  (vnChoice (fun v => (inputChoice s r out v).isSome) (s.ridge.rrVn.get (r * 8 + out) 0)).bind fun v =>
    (inputChoice s r out v).map fun i => (v, i)

/-- The pointers of output `out` of router `r` after it sent the flit `f` of input `inp` on network `v`; an input's turn
passes with its packet's tail. -/
def linkSent (r out v inp : Nat) (tail : Bool) (s : State) : State :=
  let k := r * 8 + out
  { s with ridge := { s.ridge with
      rrVn := s.ridge.rrVn.set k (vnNext v (s.ridge.rrVn.get k 0)) 0,
      rrIn := if tail then s.ridge.rrIn.set (k * 8 + v) ((inp + 1) % 7) 0 else s.ridge.rrIn } }

/-- NI and network, as n·8 + v, that still inject packet `id`. -/
def injecting (s : State) (id : Nat) : Option Nat :=
  (s.ridge.sending.find? fun e => match e.2 with
    | some (i, _) => i == id
    | none => false).map (·.1)

/-- The flits of packet `id` in every buffer, and those that its NI has still to inject, take on what the packet has
become. -/
def repaint (id : Nat) (p : Packet) (s : State) : State :=
  let ni := match injecting s id with
    | some k => s.ridge.ni.set k (p :: (s.ridge.ni.get k []).drop 1) []
    | none => s.ridge.ni
  { s with ridge := { s.ridge with
      ni := ni
      buf := s.ridge.buf.map fun e => (e.1, e.2.map fun g => if g.id == id then { g with pkt := p } else g) } }

/-- The flits of packet `id` leave every buffer and its NI, and the outputs that it holds are free: the packet is consumed
to its tail. -/
def consume (id : Nat) (s : State) : State :=
  let (ni, sending) := match injecting s id with
    | some k => (s.ridge.ni.set k ((s.ridge.ni.get k []).drop 1) [], s.ridge.sending.set k none none)
    | none => (s.ridge.ni, s.ridge.sending)
  { s with ridge := { s.ridge with
      ni := ni, sending := sending
      buf := (s.ridge.buf.map fun e => (e.1, e.2.filter fun g => g.id != id)).filter fun e => !e.2.isEmpty,
      lock := s.ridge.lock.filter fun e => match e.2 with
        | some (_, i) => i != id
        | none => true } }

/-- R218, R223, R233: router `r` forwards the head flit `f` of input `inp` on network `v` by output `out`; at the
destination's own router the packet's tail hands it to the NI. -/
def forwardFlit (r out inp v : Nat) (f : Flit) (rest : List Flit) (s : State) : State :=
  match flitRead r f s with
  | (none, s1) => discardHeader r (headerLow f.pkt ^^^ bitsOf f.err.toNat 0 64) (consume f.id s1)
  | (some p, s1) =>
    let s2 := (s1.setRbuf r inp v rest).when (p != f.pkt) (repaint f.id p)
    let tail := f.idx + 1 == packetFlits p
    let s3 := linkSent r out v inp tail (if v == 0 then s2 else s2.setLock r out v (if tail then none else some (inp, f.id)))
    if out == 0 then (if tail then deliver p s3 else s3)
    else
      let (r', i) := farEnd r out
      s3.setRbuf r' i v (s3.rbuf r' i v ++ [{ id := f.id, pkt := p, idx := f.idx }])

/-- R223: router `r` forwards the head flit of input `inp` on network `v`, when it is that flit's turn at its output.
`err` and `chk`: bits of the stored flit that were upset since it came (R233). -/
def flitForward (r inp v : Nat) (err : BitVec 512) (chk : BitVec 36) (s : State) : State :=
  match s.rbuf r inp v with
  | [] => s
  | f :: rest =>
    let out := routePort s r v f.pkt.dst
    if linkChoice s r out != some (v, inp) then s
    else forwardFlit r out inp v { f with err := f.err ^^^ err, chk := f.chk ^^^ chk } rest s

/-- R225: a head flit has waited at one input for more than the stall limit. -/
def stall (n v : Nat) (s : State) : State :=
  let b := s.get (F.RT_STALLSTAT_VN n)
  if (List.range 7).any fun i => match s.rbuf n i v with
      | f :: _ => f.idx == 0
      | [] => false
  then
    let s1 := (s.put (F.RT_STALLSTAT_VN n) (b ||| 2 ^ v)).when (!b.testBit v) fun t => t.irq (routerPage n) (3 + v)
    s1.setIrq F.RIDGE_STAT_STALL ridgePage 1
  else s

/-! ### Activation (R227, R228) -/

/-- The order of VN(v) in a mode word (R241); 3 is treated as 0. -/
def orderOf (mode v : Nat) : Nat := let o := bitsOf mode (2 * (v - 1)) 2; if o == 3 then 0 else o

/-- R226 with the Y comparison first. -/
def yxPort (r d : Nat) : Nat :=
  let m := routerMassif d
  if myOf r < myOf m then 1 else if myOf m < myOf r then 3
  else if mxOf r < mxOf m then 2 else if mxOf m < mxOf r then 4
  else if d = r then 0 else edgePort d

/-- R227: entry `e` of router `r` for destination `d` obeys an order. -/
def entryOk (order r d e : Nat) : Bool :=
  let m := routerMassif d
  match order with
  | 0 => e == xyPort r d
  | 1 => e == yxPort r d
  | _ =>
    if m == r then e == xyPort r d
    else (mxOf r < mxOf m && e == 2) || (mxOf m < mxOf r && e == 4)
      || (myOf r < myOf m && e == 1) || (myOf m < myOf r && e == 3)

/-- R228: the lowest failing entry of the named networks: router, network, destination. -/
def badEntry (s : State) (mask : Nat) : Option (Nat × Nat × Nat) :=
  (List.range 64).findSome? fun r =>
    [1, 2, 3, 4].findSome? fun v =>
      if mask.testBit (v - 1) then
        ((List.range 96).find? fun d =>
          !entryOk (orderOf (s.get F.RT_ORDER_SH_MODE) v) r d (tableEntry s false r v d)).map fun d => (r, v, d)
      else none

/-- R228: a write of RT_ACT: refused while BUSY; with GO and a named network the shadow tables are
checked, and injection on the named networks stops. -/
def activation (v : Word) (s : State) : State :=
  if s.flag F.RT_ACTSTAT_BUSY then s.put F.RT_ACTSTAT_WR_REFUSED 1
  else
    let mask := v.toNat % 16
    if !v.getLsbD 8 || mask == 0 then s
    else match badEntry s mask with
      | some (r, vn, d) =>
        ((((s.put F.RT_ACTSTAT_BAD 1).put F.RT_ACTSTAT_BADROUTER r).put F.RT_ACTSTAT_BADVN (vn - 1)).put
          F.RT_ACTSTAT_BADDEST d).irq ridgePage 0
      | none => { s.put F.RT_ACTSTAT_BUSY 1 with ridge := { s.ridge with stopped := mask, acted := none } }

/-- R228: every buffer of the stopped networks is empty, and no NI has a packet of theirs half injected. -/
def drained (s : State) : Bool :=
  (s.ridge.buf.all fun e => e.2.isEmpty || !vnStopped s (e.1 % 8))
    && s.ridge.sending.all fun e => e.2.isNone || !vnStopped s (e.1 % 8)

/-- R228: copies the shadow table of VN(v) of router `r` into its active table. -/
def swapTable (r v : Nat) (s : State) : State :=
  s.each 12 fun j t => match v with
    | 1 => t.put (F.RT_ACTIVE1_ENTRIES r j) (t.get (F.RT_SHADOW1_ENTRIES r j))
    | 2 => t.put (F.RT_ACTIVE2_ENTRIES r j) (t.get (F.RT_SHADOW2_ENTRIES r j))
    | 3 => t.put (F.RT_ACTIVE3_ENTRIES r j) (t.get (F.RT_SHADOW3_ENTRIES r j))
    | _ => t.put (F.RT_ACTIVE4_ENTRIES r j) (t.get (F.RT_SHADOW4_ENTRIES r j))

/-- The order field of VN(v) is copied from the shadow order. -/
def swapOrder (v : Nat) (s : State) : State :=
  let old := s.get F.RT_ORDER_MODE
  let sh := s.get F.RT_ORDER_SH_MODE
  s.put F.RT_ORDER_MODE (old - bitsOf old (2 * (v - 1)) 2 * 4 ^ (v - 1) + bitsOf sh (2 * (v - 1)) 2 * 4 ^ (v - 1))

/-- R228: the named networks have drained: the shadow tables and orders become active in every router,
and injection resumes. -/
def activationSwap (s : State) : State :=
  if s.flag F.RT_ACTSTAT_BUSY && drained s then
    let mask := s.ridge.stopped
    let s1 := s.each 4 fun i t =>
      t.when (mask.testBit i) fun u => (u.each 64 fun r w => swapTable r (i + 1) w) |> swapOrder (i + 1)
    let s2 := { s1 with ridge := { s1.ridge with stopped := 0, acted := some true } }
    ((s2.put F.RT_ACTSTAT_BUSY 0).put F.RT_ACTSTAT_DONE 1).irq ridgePage 0
  else s

/-- R228: the drain limit passes first: injection resumes under the old tables. -/
def activationAbort (s : State) : State :=
  if s.flag F.RT_ACTSTAT_BUSY then
    let s2 := { s with ridge := { s.ridge with stopped := 0, acted := some false } }
    ((s2.put F.RT_ACTSTAT_BUSY 0).put F.RT_ACTSTAT_ABORT 1).irq ridgePage 0
  else s

/-! ### The meanings -/

def execInject (n : Fin 96) (v : Fin 5) (s : State) : Result := .next (inject n v s)
def execFlitForward (r : Fin 96) (inp : Fin 7) (v : Fin 5) (err : BitVec 512) (chk : BitVec 36) (s : State) : Result :=
  .next (flitForward r inp v err chk s)
def execPacketDiscard (p : Packet) (s : State) : Result := .next (packetDiscard p s)
def execLateResponse (p : Packet) (s : State) : Result :=
  .next (if (matchReq s p).isSome || !here s p || p.vn != 2 then s else lateResponse p s)
def execStall (n : Fin 96) (v : Fin 5) (s : State) : Result := .next (stall n v s)
def execTokenAdd (n : Fin 96) (v : Fin 5) (s : State) : Result := .next (tokenAdd n v s)
def execRgCfgWrite (n : Fin 96) (v : Fin 5) (w : Word) (s : State) : Result := .next (rgCfgWrite n v w s)
def execActivation (v : Word) (s : State) : Result := .next (activation v s)
def execActivationSwap (s : State) : Result := .next (activationSwap s)
def execActivationAbort (s : State) : Result := .next (activationAbort s)

end Sys2Proof.Machine
end

