-- ==== Sys2Proof/Machine/Operands.lean ====
section
/-! DEFINITION. The fields of a tile slot (R50, R84, R101), the operand forms of a tile (R51–R53), and the
lane arithmetic that its operations share (R54–R56, R62). -/

namespace Sys2Proof.Machine

open Sys2Proof

namespace State

def tile (s : State) (m t : Nat) : Tile := s.fab.tiles.get (m * 256 + t) {}
def setTile (s : State) (m t : Nat) (x : Tile) : State :=
  { s with fab := { s.fab with tiles := s.fab.tiles.set (m * 256 + t) x {} } }
def stage (s : State) (m t g : Nat) : Stage := s.fab.segs.get ((m * 256 + t) * 32 + g) {}
def setStage (s : State) (m t g : Nat) (x : Stage) : State :=
  { s with fab := { s.fab with segs := s.fab.segs.set ((m * 256 + t) * 32 + g) x {} } }
/-- The 320 bits of tile `t` in slot `i` of massif `m` (R101). -/
def slotBits (s : State) (m i t : Nat) : BitVec 320 := s.fab.slots.get ((m * 16 + i) * 256 + t) 0
def setSlotBits (s : State) (m i t : Nat) (v : BitVec 320) : State :=
  { s with fab := { s.fab with slots := s.fab.slots.set ((m * 16 + i) * 256 + t) v 0 } }
/-- The active slot's bits of tile `t`. -/
def active (s : State) (m t : Nat) : BitVec 320 := s.slotBits m (s.get (F.SEQ_STAT_ACTIVE_SLOT m)) t

end State

/-! ### Slot fields (R101) -/

/-- `w` bits of a slot from bit `lo`. -/
def slotField (v : BitVec 320) (lo w : Nat) : Nat := bitsOf v.toNat lo w

def slotImm (v : BitVec 320) : Nat := slotField v 0 32
def slotDm (v : BitVec 320) : Nat := slotField v 38 2
def slotSgn (v : BitVec 320) : Bool := v.getLsbD 40
def slotSat (v : BitVec 320) : Bool := v.getLsbD 41
/-- Source of operand `i` (A, B, C). -/
def slotSrc (v : BitVec 320) (i : Nat) : Nat := slotField v (42 + 4 * i) 4
/-- Consume rule of operand `i`. -/
def slotCon (v : BitVec 320) (i : Nat) : Nat := slotField v (54 + 2 * i) 2
def slotXw (v : BitVec 320) : Nat := slotField v 60 4
def slotYw (v : BitVec 320) : Nat := slotField v 64 4
def slotXo (v : BitVec 320) : Bool := v.getLsbD 68
def slotYo (v : BitVec 320) : Bool := v.getLsbD 69
def slotPred (v : BitVec 320) : Nat := slotField v 70 3
def slotPinv (v : BitVec 320) : Bool := v.getLsbD 73
def slotPass (v : BitVec 320) : Bool := v.getLsbD 74
def slotEmode (v : BitVec 320) : Nat := slotField v 75 2
def slotMpol (v : BitVec 320) : Nat := slotField v 77 2
def slotAccsel (v : BitVec 320) : Nat := slotField v 79 1
def slotAccmode (v : BitVec 320) : Nat := slotField v 80 2
def slotSh (v : BitVec 320) : Nat := slotField v 82 6
def slotBmsel (v : BitVec 320) : Nat := slotField v 88 2
/-- `w` bits of the switch field from bit `lo` (R84). -/
def switchField (v : BitVec 320) (lo w : Nat) : Nat := slotField v (96 + lo) w
/-- Truth table of cell `k`. -/
def slotTable (v : BitVec 320) (k : Nat) : Nat := slotField v (256 + 16 * k) 16

/-- Operations of R57 by code; every other code is reserved. -/
def opKnown (op : Nat) : Bool :=
  (1 ≤ op && op ≤ 0x1E) || (0x20 ≤ op && op ≤ 0x27) || (0x30 ≤ op && op ≤ 0x32)

/-- Column 3 or 11 (port A), column 4 or 12 (port B) of the block memories (R64): the memory and port
that tile `t` with a BMSEL uses. -/
def bmPort (t bmsel : Nat) : Option (Nat × Nat) :=
  let b := t / 16 / 4
  if bmsel == 3 then none
  else match t % 16 with
    | 3 => some (3 * b + bmsel, 0)
    | 4 => some (3 * b + bmsel, 1)
    | 11 => some (12 + 3 * b + bmsel, 0)
    | 12 => some (12 + 3 * b + bmsel, 1)
    | _ => none

/-- LUT, BMW and BINC. -/
def opMemory (op : Nat) : Bool := 0x30 ≤ op && op ≤ 0x32

/-- The operation that a slot carries out. A code that R50 or R52 refuses at the loader, seen after an
upset, is carried out as NOP (DESIGN CHOICE, log 30). -/
def slotOp (v : BitVec 320) (t : Nat) : Nat :=
  let op := slotField v 32 6
  if !opKnown op || (opMemory op && (bmPort t (slotBmsel v)).isNone) then 0 else op

/-- The data mode; 3, reserved, is carried out as W32 after an upset (DESIGN CHOICE, log 30). -/
def slotMode (v : BitVec 320) : Nat := if slotDm v == 3 then 0 else slotDm v

/-! ### Operands (R51–R53, R57) -/

/-- Aspect of the block memory that tile `t` uses. -/
def tileAspect (s : State) (m t : Nat) (v : BitVec 320) : Nat :=
  match bmPort t (slotBmsel v) with
  | some (k, _) => s.get (F.BM_CFG_ASPECT m k)
  | none => 0

/-- The operation uses operand `i` (R57, R66, R75). -/
def opUses (op aspect pred : Nat) (i : Nat) : Bool :=
  match i with
  | 0 => op != 0 && op != 0x1C && op != 0x1E
  | 1 => (0x03 ≤ op && op ≤ 0x12) || (0x14 ≤ op && op ≤ 0x17) || op == 0x1A || (0x20 ≤ op && op ≤ 0x27)
      || op == 0x31 || op == 0x32
  | _ => op == 0x05 || op == 0x09 || op == 0x14 || op == 0x22 || (op == 0x31 && aspect == 3)
      || (op != 0 && (pred == 5 || pred == 6))

/-- The used operands of tile `t`'s operation. -/
def usesOf (s : State) (m t : Nat) (v : BitVec 320) (i : Nat) : Bool :=
  opUses (slotOp v t) (tileAspect s m t v) (slotPred v) i

/-- The head word of port `p`. -/
def portHead (x : Tile) (p : Nat) : Option SWord :=
  match p with
  | 0 => x.fa
  | 1 => x.fb
  | _ => x.fc

def setPortHead (x : Tile) (p : Nat) (w : Option SWord) : Tile :=
  match p with
  | 0 => { x with fa := w }
  | 1 => { x with fb := w }
  | _ => { x with fc := w }

/-- Ports named by the operation (R52). -/
def namedPorts (s : State) (m t : Nat) (v : BitVec 320) : List Nat :=
  [0, 1, 2].filter fun p => [0, 1, 2].any fun i => usesOf s m t v i && slotSrc v i == p

/-- R53: the firing removes the head of port `p`. -/
def portConsumed (s : State) (m t : Nat) (v : BitVec 320) (x : Tile) (p : Nat) : Bool :=
  let aPort := usesOf s m t v 0 && slotSrc v 0 < 3
  let aE := aPort && match portHead x (slotSrc v 0) with
    | some w => w.e
    | none => false
  let rule := if usesOf s m t v 1 && slotSrc v 1 == p then slotCon v 1
    else if usesOf s m t v 2 && slotSrc v 2 == p then slotCon v 2 else slotCon v 0
  if aPort && slotSrc v 0 == p then slotCon v 0 != 2
  else match rule with
    | 0 => true
    | 1 => aE
    | _ => false

/-! ### Lanes (R54–R56) -/

/-- Lane width of a data mode. -/
def laneWidth (dm : Nat) : Nat := match dm with
  | 1 => 16
  | 2 => 8
  | _ => 32

/-- A `w`-bit value as an integer (R55). -/
def asInt (w : Nat) (sgn : Bool) (x : Nat) : Int :=
  if sgn && 2 ^ (w - 1) ≤ x then (x : Int) - 2 ^ w else x

/-- Lane `i` of a word, read by SGN. -/
def lane (w : Nat) (sgn : Bool) (d : Word) (i : Nat) : Int := asInt w sgn (bitsOf d.toNat (w * i) w)

/-- The low `w` bits of an integer. -/
def lowBits (w : Nat) (v : Int) : Nat := (v % (2 ^ w : Int)).toNat

/-- R55: brings an exact result into `w` bits; the second part tells a saturation. -/
def narrow (w : Nat) (sgn sat : Bool) (v : Int) : Nat × Bool :=
  let lo : Int := if sgn then -(2 ^ (w - 1) : Int) else 0
  let hi : Int := if sgn then 2 ^ (w - 1) - 1 else 2 ^ w - 1
  if !sat || (lo ≤ v && v ≤ hi) then (lowBits w v, false)
  else (lowBits w (if v < lo then lo else hi), true)

/-- R56: the rounding shift; a shift of 48 or more gives 0 or −1. -/
def roundShift (v : Int) (n : Nat) : Int :=
  if n == 0 then v else if 48 ≤ n then (if v < 0 then -1 else 0) else (v + 2 ^ (n - 1)) / 2 ^ n

/-- Lane results packed into a word, with the OR of their saturations. -/
def packLanes (w : Nat) (f : Nat → Nat × Bool) : Word × Bool :=
  (List.range (32 / w)).foldl (fun (acc : Word × Bool) i =>
    (acc.1 ||| BitVec.ofNat 32 ((f i).1 % 2 ^ w * 2 ^ (w * i)), acc.2 || (f i).2)) (0, false)

/-- R62: the output transform to `w` bits of an accumulator value. -/
def accOut (v : BitVec 320) (w : Nat) (a : BitVec 48) : Nat × Bool :=
  narrow w (slotSgn v) (slotSat v) (roundShift (asInt 48 (slotSgn v) a.toNat) (slotSh v))

/-- {T16(ACC1), T16(ACC0)} (R61, R62). -/
def accPair (v : BitVec 320) (a0 a1 : BitVec 48) : Word × Bool :=
  let x0 := accOut v 16 a0
  let x1 := accOut v 16 a1
  (BitVec.ofNat 32 (x0.1 + 2 ^ 16 * x1.1), x0.2 || x1.2)

def ureg (x : Tile) (i : Nat) : UReg := x.u.get i {}
def setUreg (x : Tile) (i : Nat) (r : UReg) : Tile := { x with u := x.u.set i r {} }

/-- The value of an operand source (R51) with the saturation of a transform. The reserved source 0xE
reads as zero after an upset (DESIGN CHOICE, log 30). -/
def readSource (v : BitVec 320) (x : Tile) (src : Nat) : Opnd × Bool :=
  if src < 3 then
    match portHead x src with
    | some w => (⟨w.d, w.p, w.e, true⟩, false)
    | none => (⟨0, false, false, true⟩, false)
  else if src == 3 then (⟨BitVec.ofNat 32 (slotImm v), false, false, false⟩, false)
  else if src < 0xC then
    let r := ureg x (src - 4)
    (⟨r.d, r.p, false, false⟩, false)
  else if src < 0xE then
    let a := if src == 0xC then x.acc0 else x.acc1
    let o := accOut v 32 a.v
    (⟨BitVec.ofNat 32 o.1, a.p, false, false⟩, o.2)
  else (⟨0, false, false, false⟩, false)

/-! ### Who may act (R76) -/

/-- Massif `m`'s active slot is valid. -/
def slotActiveValid (s : State) (m : Nat) : Bool :=
  (s.get (F.SLOT_VALID_BITS m)).testBit (s.get (F.SEQ_STAT_ACTIVE_SLOT m))

/-- The massif is up and clocked: not held, reloading, in a reset or a clock switch, or gated (R14, R449). -/
def massifLive (s : State) (m : Nat) : Bool :=
  let x := s.massif m
  !s.loadHold && s.massifUp m && !x.held && !x.clockHold && !x.resetHold && s.power.warmPhase == 0

/-- The tile array of the massif is clocked under a valid figure. What a stop leaves running goes on: bit
cells (R73), firings already issued (R79) and words on their way to outputs (R14). While the active slot is not valid
no tile fires (R125), and bit tracks and words on segments stand still too (DESIGN CHOICE, log 141). -/
def clocked (s : State) (m : Nat) : Bool := slotActiveValid s m && massifLive s m

/-- The massif is running (R76, R125): its tile array is clocked and it is not stopped. -/
def runs (s : State) (m : Nat) : Bool := clocked s m && !s.flag (F.MASSIF_STAT_STOPPED m)

/-- R71: tiles of the massif may fire: it is running, or it was stopped in this very TB cycle (DESIGN CHOICE,
log 126: the massif cycle of a stop is the TB cycle). -/
def mayFire (s : State) (m : Nat) : Bool :=
  clocked s m && (!s.flag (F.MASSIF_STAT_STOPPED m) || (s.massif m).stopAt == some s.cycle)


end Sys2Proof.Machine
end

