-- ==== Sys2Proof/Machine/Flags.lean ====
section
/-! DEFINITION. A tile's bit signals: flags (R72), bit cells (R73, R74, R87), the predicate (R75), end marks
(R68), and the bit network of a massif. -/

namespace Sys2Proof.Machine

open Sys2Proof

/-- The tile adjacent to `t` on side `d` (0 north, 1 east, 2 south, 3 west), within the massif. -/
def adjacent (t d : Nat) : Option Nat :=
  match d with
  | 0 => if t / 16 < 15 then some (t + 16) else none
  | 1 => if t % 16 < 15 then some (t + 1) else none
  | 2 => if 0 < t / 16 then some (t - 16) else none
  | _ => if 0 < t % 16 then some (t - 1) else none

/-- The direction opposite to `d`. -/
def opposite (d : Nat) : Nat := (d + 2) % 4

/-- R87, R88: incoming bit track `k` of tile `t` arriving from side `d`; 0, unpoisoned, on a boundary. -/
def bitIn (s : State) (m t d k : Nat) : Sig :=
  match adjacent t d with
  | some t' => s.fab.bits.get ((m * 256 + t') * 32 + 8 * opposite d + k) {}
  | none => {}

/-- Flag AV: port FA holds a head word. -/
def flagAv (x : Tile) : Bool := x.fa.isSome
/-- Flag AE: that word has E = 1. -/
def flagAe (x : Tile) : Bool :=
  match x.fa with
  | some w => w.e
  | none => false

/-- Input i0 of a cell by its code (R87). -/
def cellIn0 (x : Tile) (code : Nat) : Sig :=
  match code with
  | 1 => x.tf
  | 2 => x.zf
  | 3 => x.nf
  | 4 => x.vf
  | 5 => ⟨x.ef, false⟩
  | 6 => ⟨flagAv x, false⟩
  | 7 => ⟨flagAe x, false⟩
  | _ => {}

/-- Input i1 of cell `k`: 1, a registered output, or the current output of a lower cell. A code that names
no lower cell, seen after an upset, reads as 0 (DESIGN CHOICE, log 30). -/
def cellIn1 (x : Tile) (below : List Sig) (k code : Nat) : Sig :=
  if code == 0 then ⟨true, false⟩
  else if code ≤ 4 then x.cells.get (code - 1) {}
  else if code - 4 ≤ k then (below[k - (code - 4)]?).getD {} else {}

/-- R73, R74: the output of a cell with truth table `tt`; it is poisoned when a poisoned input can change
it for some setting of the others. -/
def cellOut (tt : Nat) (i0 i1 i2 i3 : Sig) : Sig :=
  let idx := b2n i0.v + 2 * b2n i1.v + 4 * b2n i2.v + 8 * b2n i3.v
  let dep := fun (b : Nat) => (List.range 16).any fun j => tt.testBit j != tt.testBit (j ^^^ 2 ^ b)
  ⟨tt.testBit idx, (i0.p && dep 0) || (i1.p && dep 1) || (i2.p && dep 2) || (i3.p && dep 3)⟩

/-- The current output of cell `k`, given those of the cells below it. -/
def cellCur (s : State) (m t : Nat) (v : BitVec 320) (x : Tile) (below : List Sig) (k : Nat) : Sig :=
  let c := switchField v (116 + 10 * k) 10
  cellOut (slotTable v k) (cellIn0 x (bitsOf c 0 3)) (cellIn1 x below k (bitsOf c 3 3))
    (bitIn s m t (bitsOf c 6 2) k) (bitIn s m t (bitsOf c 8 2) (k + 4))

/-- The current outputs of L0 to L3. -/
def cellOutputs (s : State) (m t : Nat) : List Sig :=
  let v := s.active m t
  let x := s.tile m t
  (List.range 4).foldl (fun acc k => acc ++ [cellCur s m t v x acc k]) []

/-- R87: the value of outgoing bit track `k` in direction `d` of tile `t`. -/
def bitOut (s : State) (m t : Nat) (v : BitVec 320) (cur : List Sig) (d k : Nat) : Sig :=
  if switchField v (84 + 8 * d + k) 1 == 1 then (cur[k % 4]?).getD {} else bitIn s m t (opposite d) k

/-- One massif cycle of the bit network: every bit track and every cell register takes its source's
value of the cycle before (R73, R74, R87). The cells of a stopped massif are evaluated too: R71 stops its firings and its
sequencer only (DESIGN CHOICE, log 141). -/
def bitCycle (m : Nat) (s : State) : State :=
  if !clocked s m then s
  else
    let s1 := s.each 256 fun t w =>
      let cur := cellOutputs s m t
      let x := w.tile m t
      w.setTile m t { x with cells := (List.range 4).foldl (fun c k => c.set k ((cur[k]?).getD {}) {}) x.cells }
    s1.each 256 fun t w =>
      let v := s.active m t
      let cur := cellOutputs s m t
      { w with fab := { w.fab with bits := (List.range 32).foldl (fun b j =>
          b.set ((m * 256 + t) * 32 + j) (bitOut s m t v cur (j / 8) (j % 8)) {}) w.fab.bits } }

/-! ### Predicate and end mark (R68, R75) -/

/-- R75: the predicate and its poison. -/
def predicate (s : State) (m t : Nat) (v : BitVec 320) (x : Tile) (c : Opnd) : Bool × Bool :=
  match slotPred v with
  | 0 => (true, false)
  | 5 => (c.d.getLsbD 0 != slotPinv v, c.p)
  | 6 => (c.d.getLsbD 31 != slotPinv v, c.p)
  | 7 => (flagAe x != slotPinv v, false)
  | k =>
    let o := ((cellOutputs s m t)[k - 1]?).getD {}
    (o.v != slotPinv v, o.p)

/-- R68: E of a produced word. -/
def endMark (v : BitVec 320) (f : Firing) : Bool :=
  match slotEmode v with
  | 0 => f.eOr
  | 1 => f.a.port && f.a.e
  | 2 => false
  | _ => true

/-! ### Flags (R72) -/

/-- The compare operations. -/
def opCompare (op : Nat) : Bool := 0x0B ≤ op && op ≤ 0x0E

/-- R72: TF, ZF and NF when X is produced. -/
def flagsOfX (op dm : Nat) (x : Word) (p : Bool) (t : Tile) : Tile :=
  { t with
    tf := ⟨if opCompare op then bitsOf x.toNat 0 (laneWidth dm) != 0 else x.getLsbD 0, p⟩
    zf := ⟨x == 0, p⟩
    nf := ⟨x.getLsbD 31, p⟩ }

/-- R72: VF at a firing's completion. Where the firing has no result, its P is the OR of the operands' P
(DESIGN CHOICE, log 127). -/
def flagVf (sat p : Bool) (t : Tile) : Tile := { t with vf := ⟨sat, p⟩ }

end Sys2Proof.Machine
end

