-- ==== Sys2Proof/Machine/Tiles.lean ====
section
/-! DEFINITION. The function unit: the operations (R57–R66), firing (R69, R76, R77), results (R67, R79), and
the stop of a massif (R71, R121). -/

namespace Sys2Proof.Machine

open Sys2Proof

abbrev seqPage (m : Nat) : Nat := massifBase m

/-! ### Stops (R71, R121) -/

/-- The sequencer halts with a cause; a beat held is dropped (R121). -/
def seqHalt (m cause : Nat) (s : State) : State :=
  let was := s.flag (F.SEQ_STAT_RUNNING m)
  let s1 := ((s.put (F.SEQ_STAT_RUNNING m) 0).put (F.SEQ_STAT_HALT_CAUSE m) cause).put (F.SEQ_STAT_PENDING m) 0
  (s1.setMassif m { s1.massif m with heldBeat := none, overrun := false }).when was fun t => t.irq (seqPage m) 1

/-- R71, R121: the massif stops: from the next cycle no tile fires; the sequencer halts, a switch that was
triggered is abandoned, and the tile's ID is recorded, the lowest of those that report in one cycle (DESIGN
CHOICE, log 126: in one TB cycle). -/
def massifStop (m : Nat) (why : Fld) (tile : Nat) (s : State) : State :=
  let id := m * 256 + tile
  let again := s.flag (F.MASSIF_STAT_STOPPED m) && (s.massif m).stopAt == some s.cycle
  let s1 := ((s.setIrq why (seqPage m) 2).put (F.MASSIF_STAT_STOPPED m) 1).put (F.ERR_ADDR_LO_VALUE (seqPage m))
    (if again then min id (s.get (F.ERR_ADDR_LO_VALUE (seqPage m))) else id)
  let s2 := s1.setMassif m { s1.massif m with switch := none, stopAt := some s.cycle }
  seqHalt m 5 (s2.put (F.SEQ_STAT_SWITCHING m) 0)

/-- R71: control poison reported by a tile. -/
def controlPoison (m tile : Nat) (s : State) : State :=
  massifStop m (F.MASSIF_STAT_CONTROL_POISON m) tile s

/-! ### What a firing does, as known at issue -/

/-- Multiply-accumulate and the sums (R61). -/
def opAccumulates (op : Nat) : Bool := 0x23 ≤ op && op ≤ 0x27

/-- Latency of an operation (R57). -/
def latency (op : Nat) : Nat :=
  if 0x20 ≤ op && op ≤ 0x27 then 3 else if op == 0x30 || op == 0x32 then 2 else 1

/-- Initiation interval of an operation (R57). -/
def interval (op dm : Nat) : Nat := if 0x20 ≤ op && op ≤ 0x25 && dm == 0 then 2 else 1

/-- R62: the accumulating firing emits, from ACCMODE and the E of A's port word. -/
def accEmits (v : BitVec 320) (a : Opnd) : Bool :=
  match slotAccmode v with
  | 0 => false
  | 2 => true
  | _ => a.port && a.e

/-- The firing produces X; it produces Y. -/
def firingX (op : Nat) (v : BitVec 320) (f : Firing) : Bool :=
  f.marker.isNone && f.pred && op != 0x1D && op != 0x1E && op != 0x31 && (!opAccumulates op || accEmits v f.a)
def firingY (op aspect : Nat) (f : Firing) : Bool :=
  f.marker.isNone && f.pred &&
    (op == 0x02 || op == 0x0A || op == 0x1B || op == 0x20 || (op == 0x30 && aspect == 3))

/-- Words of a firing bound for OX and for OY (R67, R69, R75). -/
def boundX (op : Nat) (v : BitVec 320) (f : Firing) : Bool :=
  slotXo v && (f.marker.isSome || (!f.pred) || firingX op v f)
def boundY (op aspect : Nat) (v : BitVec 320) (f : Firing) : Bool :=
  slotYo v && (f.marker.isSome || firingY op aspect f)

/-- R61: the accumulators that an operation writes, as (ACC0, ACC1). -/
def accWrites (op dm : Nat) (v : BitVec 320) : Bool × Bool :=
  let one := (slotAccsel v == 0, slotAccsel v == 1)
  if op == 0x1D || op == 0x1E || op == 0x23 || op == 0x24 then (if dm == 0 then one else (true, true))
  else if 0x25 ≤ op && op ≤ 0x27 then one
  else (false, false)

/-- R77: the pipeline holds a firing whose write this issue must wait for. -/
def interlocked (s : State) (m t : Nat) (v : BitVec 320) (x : Tile) : Bool :=
  let op := slotOp v t
  let dm := slotMode v
  let asp := tileAspect s m t v
  let regs := (List.range 8).filter fun r => [0, 1, 2].any fun i => usesOf s m t v i && slotSrc v i == 4 + r
  let readsAcc := fun k => [0, 1, 2].any fun i => usesOf s m t v i && slotSrc v i == 0xC + k
  let w := accWrites op dm v
  x.pipe.any fun f =>
    f.marker.isNone && f.pred &&
      (regs.any (fun r => (slotXw v == 8 + r && firingX op v f) || (slotYw v == 8 + r && firingY op asp f))
        || (readsAcc 0 && w.1) || (readsAcc 1 && w.2) || ((op == 0x1D || op == 0x1E) && (w.1 || w.2)))

/-- R76: the output buffers that the firing will write have room. -/
def hasRoom (s : State) (m t : Nat) (v : BitVec 320) (x : Tile) (f : Firing) : Bool :=
  let op := slotOp v t
  let asp := tileAspect s m t v
  (!boundX op v f || (s.stage m t 26).words.length + (x.pipe.filter (boundX op v)).length < 4)
    && (!boundY op asp v f || (s.stage m t 27).words.length + (x.pipe.filter (boundY op asp v)).length < 4)

/-- The pipeline takes one more firing (R57: at most L firings, II cycles apart, are under way). -/
def pipeFree (op dm : Nat) (x : Tile) : Bool := decide (x.pipe.length < ceilDiv (latency op) (interval op dm))

/-! ### Issue (R53, R69, R75, R76) -/

/-- R69: the lowest-lettered named port with a marker at its head, when markers are not data. -/
def markerPort (s : State) (m t : Nat) (v : BitVec 320) (x : Tile) : Option Nat :=
  if 2 ≤ slotMpol v then none
  else (namedPorts s m t v).find? fun p =>
    match portHead x p with
    | some w => w.m
    | none => false

/-- R69: a marker firing. -/
def markerFiring (m t : Nat) (s : State) : State :=
  let v := s.active m t
  let x := s.tile m t
  let op := slotOp v t
  match (if mayFire s m && op != 0 then markerPort s m t v x else none) with
  | none => s
  | some p =>
    let o : Opnd := ⟨0, false, false, false⟩
    let f : Firing := ⟨o, o, o, true, false, false, portHead x p⟩
    let x1 := setPortHead x p none
    if slotMpol v == 1 then s.setTile m t x1
    else if hasRoom s m t v x f && pipeFree op (slotMode v) x then
      s.setTile m t { x1 with pipe := if slotXo v || slotYo v then x.pipe ++ [f] else x.pipe }
    else s

/-- R75: operand A of a PASS; its value and its P are open when the operation uses no operand A and A names a
port (DESIGN CHOICE, log 31: free values). -/
def passOperand (s : State) (m t : Nat) (v : BitVec 320) (a : Opnd) : Opnd × State :=
  if slotPass v && !usesOf s m t v 0 && slotSrc v 0 < 3 then
    let (n, s1) := s.nextFree
    let (k, s2) := s1.nextFree
    (⟨Config.freeWord n, (Config.freeWord k).getLsbD 0, false, false⟩, s2)
  else (a, s)

/-- R52: operand A as the firing holds it: the port that an unused operand's source field names is no port of
the firing. -/
def namedA (used : Bool) (a : Opnd) : Opnd := if used then a else { a with e := false, port := false }

/-- R71: the firing would act on a poisoned control value. -/
def poisonedControl (op : Nat) (pred predP : Bool) (a c : Opnd) : Bool :=
  predP || (pred && ((op == 0x14 && c.p) || ((op == 0x31 || op == 0x32) && a.p)))

/-- R76: the function unit fires: it reads its operands, consumes its ports and enters the pipeline; a
poisoned control value stops the massif instead. -/
def firing (m t : Nat) (s : State) : State :=
  let v := s.active m t
  let x := s.tile m t
  let op := slotOp v t
  let named := namedPorts s m t v
  if !(mayFire s m && op != 0 && named.all (fun p => (portHead x p).isSome) && (markerPort s m t v x).isNone
      && !interlocked s m t v x && pipeFree op (slotMode v) x) then s
  else
    let (a0, satA) := readSource v x (slotSrc v 0)
    let a := namedA (usesOf s m t v 0) a0
    let (b, satB) := readSource v x (slotSrc v 1)
    let (c, satC) := readSource v x (slotSrc v 2)
    let use := usesOf s m t v
    let (pred, predP) := predicate s m t v x c
    let eOr := named.any fun p =>
      match portHead x p with
      | some w => w.e
      | none => false
    let (a', s1) := if pred then (a, s) else passOperand s m t v a
    let f : Firing := ⟨a', b, c, pred, eOr, (use 0 && satA) || (use 1 && satB) || (use 2 && satC), none⟩
    if !(if pred || slotPass v then hasRoom s m t v x f else true) then s
    else if poisonedControl op pred predP a c then controlPoison m t s
    else
      let x1 := named.foldl (fun y p => if portConsumed s m t v x p then setPortHead y p none else y) x
      s1.setTile m t { x1 with pipe := if pred || (slotPass v && slotXo v) then x.pipe ++ [f] else x.pipe }

/-! ### Operations (R57–R63) -/

/-- Results of an operation: X, Y, their P, and a saturation. -/
structure OpResult where
  x : Option Word := none
  y : Option Word := none
  p : Bool := false
  sat : Bool := false
  deriving DecidableEq, Repr

/-- Ones of a `w`-bit value; its leading zeros. -/
def popCount (w x : Nat) : Nat := ((List.range w).filter x.testBit).length
def leadingZeros (w x : Nat) : Nat := if x == 0 then w else w - 1 - Nat.log2 x

/-- The result of a one-result lane operation on lane `i` (R55, R57, R59). -/
def laneOp (op w : Nat) (v : BitVec 320) (a b c : Word) (i : Nat) : Nat × Bool :=
  let sgn := slotSgn v
  let nar := narrow w sgn (slotSat v)
  let la := lane w sgn a i
  let lb := lane w sgn b i
  let lc := lane w sgn c i
  let ua := bitsOf a.toNat (w * i) w
  let n := bitsOf b.toNat (w * i) w % w
  let exact := fun (x : Int) => (lowBits w x, false)
  let mask := fun (q : Bool) => (if q then 2 ^ w - 1 else 0, false)
  match op with
  | 0x03 => nar (la + lb)
  | 0x04 => nar (la - lb)
  | 0x05 => nar (la + lb + lc)
  | 0x06 => exact (la - lb).natAbs
  | 0x07 => exact (min la lb)
  | 0x08 => exact (max la lb)
  | 0x09 => exact (min (max la lb) lc)
  | 0x0A => exact (min la lb)
  | 0x0B => mask (la == lb)
  | 0x0C => mask (la != lb)
  | 0x0D => mask (decide (la < lb))
  | 0x0E => mask (decide (la ≤ lb))
  | 0x14 => exact (if lc != 0 then la else lb)
  | 0x15 => nar (la * 2 ^ n)
  | 0x16 => exact (la / 2 ^ n)
  | 0x17 => ((ua * 2 ^ n + ua / 2 ^ (w - n)) % 2 ^ w, false)
  | 0x18 => (popCount w ua, false)
  | 0x19 => (leadingZeros w ua, false)
  | 0x20 => nar (la * lb)
  | 0x21 => nar (roundShift (la * lb) (slotSh v))
  | 0x22 => nar (roundShift (la * lb) (slotSh v) + lc)
  | _ => (ua, false)

/-- R60: PACK: A then B narrowed from lanes of twice the width. -/
def packOp (v : BitVec 320) (a b : Word) : Word × Bool :=
  let w := laneWidth (slotMode v)
  let half := 16 / w
  packLanes w fun i =>
    let d := if i < half then a else b
    narrow w (slotSgn v) (slotSat v) (lane (2 * w) (slotSgn v) d (i % half))

/-- R60: UNPK: the lanes of the half that starts at lane `from`, widened. -/
def unpackOp (v : BitVec 320) (a : Word) (start : Nat) : Word :=
  let w := laneWidth (slotMode v)
  (packLanes (2 * w) fun i => (lowBits (2 * w) (lane w (slotSgn v) a (start + i)), false)).1

/-- R58: P of SEL's result. -/
def selPoison (w : Nat) (a b : Opnd) (c : Word) : Bool :=
  let fromA := (List.range (32 / w)).map fun i => bitsOf c.toNat (w * i) w != 0
  if fromA.all id then a.p else if fromA.all (!·) then b.p else a.p || b.p

/-- The result of an operation that reads its operands only. -/
def plainOp (op : Nat) (v : BitVec 320) (f : Firing) (p : Bool) : OpResult :=
  let w := laneWidth (slotMode v)
  let a := f.a.d
  let b := f.b.d
  let one := fun (r : Word × Bool) => (⟨some r.1, none, p, r.2⟩ : OpResult)
  match op with
  | 0x02 => ⟨some a, some a, p, false⟩
  | 0x0A =>
    ⟨some (packLanes w (laneOp 0x07 w v a b 0)).1, some (packLanes w (laneOp 0x08 w v a b 0)).1, p, false⟩
  | 0x0F => one (a &&& b, false)
  | 0x10 => one (a ||| b, false)
  | 0x11 => one (a ^^^ b, false)
  | 0x12 => one (a &&& ~~~b, false)
  | 0x13 => one (~~~a, false)
  | 0x14 => { one (packLanes w (laneOp op w v a b f.c.d)) with p := selPoison w f.a f.b f.c.d }
  | 0x1A => if slotMode v == 0 then one (a, false) else one (packOp v a b)
  | 0x1B =>
    if slotMode v == 0 then ⟨some a, some a, p, false⟩
    else ⟨some (unpackOp v a 0), some (unpackOp v a (16 / w)), p, false⟩
  | 0x20 =>
    let r := packLanes w (laneOp op w v a b 0)
    let hi := packLanes w fun i => (lowBits w (lane w (slotSgn v) a i * lane w (slotSgn v) b i / 2 ^ w), false)
    ⟨some r.1, some hi.1, p, r.2⟩
  | _ => one (packLanes w (laneOp op w v a b f.c.d))

/-- The amount that an accumulating operation adds into ACC0 and ACC1, by accumulator (R61). -/
def accAmount (op : Nat) (v : BitVec 320) (f : Firing) (k : Nat) : Int :=
  let dm := slotMode v
  let w := laneWidth dm
  let la := lane w (slotSgn v) f.a.d
  let lb := lane w (slotSgn v) f.b.d
  let sum := fun (l : List Nat) (g : Nat → Int) => l.foldl (fun acc i => acc + g i) 0
  let lanes := List.range (32 / w)
  match op with
  | 0x23 | 0x24 =>
    let mine := if dm == 0 then [0] else if dm == 1 then [k] else [2 * k, 2 * k + 1]
    let pr := sum mine fun i => la i * lb i
    if op == 0x24 then -pr else pr
  | 0x25 => sum lanes fun i => la i * lb i
  | 0x26 => sum lanes fun i => ((la i - lb i).natAbs : Int)
  | _ => sum lanes fun i => (la i - lb i) * (la i - lb i)

/-- R61: an accumulator after an update. -/
def accUpdate (v : BitVec 320) (a : Acc) (amount : Int) (p : Bool) : Acc × Bool :=
  let r := narrow 48 (slotSgn v) (slotSat v) (asInt 48 (slotSgn v) a.v.toNat + amount)
  (⟨BitVec.ofNat 48 r.1, a.p || p⟩, r.2)

/-- R61, R62: the T of the accumulators that an operation involves, with its P and saturation. -/
def accRead (v : BitVec 320) (both : Bool) (x : Tile) : Word × Bool × Bool :=
  if both then
    let r := accPair v x.acc0.v x.acc1.v
    (r.1, x.acc0.p || x.acc1.p, r.2)
  else
    let a := if slotAccsel v == 0 then x.acc0 else x.acc1
    let r := accOut v 32 a.v
    (BitVec.ofNat 32 r.1, a.p, r.2)

/-- Sets the accumulators that an operation writes to zero (R61, R62). -/
def accClear (w : Bool × Bool) (x : Tile) : Tile :=
  { x with acc0 := if w.1 then {} else x.acc0, acc1 := if w.2 then {} else x.acc1 }

/-- R61–R63, R70: the accumulator operations on a tile. -/
def accOp (op : Nat) (v : BitVec 320) (f : Firing) (p : Bool) (x : Tile) : OpResult × Tile :=
  let dm := slotMode v
  let w := accWrites op dm v
  match op with
  | 0x1C =>
    let r := accRead v (dm != 0) x
    (⟨some r.1, none, r.2.1 || p, r.2.2⟩, x)
  | 0x1D =>
    let ext := fun (wd : Nat) (d : Nat) => (⟨BitVec.ofNat 48 (lowBits 48 (asInt wd (slotSgn v) d)), p⟩ : Acc)
    let a := f.a.d.toNat
    let x1 := if dm == 0 then
        { x with acc0 := if w.1 then ext 32 a else x.acc0, acc1 := if w.2 then ext 32 a else x.acc1 }
      else { x with acc0 := ext 16 (a % 2 ^ 16), acc1 := ext 16 (a / 2 ^ 16) }
    (⟨none, none, p, false⟩, x1)
  | 0x1E => (⟨none, none, p, false⟩, accClear w x)
  | _ =>
    let both := (op == 0x23 || op == 0x24) && dm != 0
    let u0 := if w.1 then accUpdate v x.acc0 (accAmount op v f 0) p else (x.acc0, false)
    let u1 := if w.2 then accUpdate v x.acc1 (accAmount op v f 1) p else (x.acc1, false)
    let x1 := { x with acc0 := u0.1, acc1 := u1.1 }
    if accEmits v f.a then
      let r := accRead v both x1
      (⟨some r.1, none, r.2.1, u0.2 || u1.2 || r.2.2⟩,
        if slotAccmode v == 1 then accClear w x1 else x1)
    else (⟨none, none, p, u0.2 || u1.2⟩, x1)

/-! ### Block memory operations (R64–R66, R178) -/

/-- R65: the address of a memory operation. -/
def memAddr (v : BitVec 320) (asp : Nat) (a : Word) : Nat :=
  (slotImm v % 2 ^ 16 + a.toNat / 2 ^ slotSh v) % aspectDepth asp

/-- R65, R66: the memory operation of a completing firing. -/
def memOp (m t op : Nat) (v : BitVec 320) (f : Firing) (p : Bool) (s : State) : OpResult × State :=
  match bmPort t (slotBmsel v) with
  | none => ({}, s)
  | some (k, port) =>
    let asp := s.get (F.BM_CFG_ASPECT m k)
    let ad := memAddr v asp f.a.d
    let ext := fun (d : Nat) => if asp == 0 then BitVec.ofNat 32 d
      else BitVec.ofNat 32 (lowBits 32 (asInt (aspectData asp) (slotSgn v) d))
    match op with
    | 0x30 =>
      if f.a.p then (⟨some 0, if asp == 3 then some 0 else none, true, false⟩, s)
      else
        let (r, s1) := bmPortRead m k port ad s
        if asp == 3 then (⟨some (BitVec.ofNat 32 r.d), some (BitVec.ofNat 32 (r.d / 2 ^ 32)), r.p, false⟩, s1)
        else (⟨some (ext r.d), none, r.p, false⟩, s1)
    | 0x31 =>
      let d := if asp == 3 then f.b.d.toNat + 2 ^ 32 * f.c.d.toNat else f.b.d.toNat
      let pw := f.b.p || (asp == 3 && f.c.p)
      (⟨none, none, p, false⟩, bmPortWrite m k port ad false d f.b.e pw false s)
    | _ =>
      let w := aspectData asp
      let (r, s1) := bmBin m k port ad s
      let sum := narrow w (slotSgn v) (slotSat v) (asInt w (slotSgn v) r.d + asInt 32 (slotSgn v) f.b.d.toNat)
      (⟨some (ext sum.1), none, p || r.p, sum.2⟩, bmPortWrite m k port ad true sum.1 r.e (p || r.p) r.m s1)

/-! ### Completion (R67–R69, R72, R75, R79) -/

/-- Places a word in output buffer `g` (26 OX, 27 OY); EF takes its E (R72). -/
def intoBuffer (m t g : Nat) (w : SWord) (s : State) : State :=
  let st := s.stage m t g
  (s.setStage m t g { st with words := st.words ++ [w] }).setTile m t { s.tile m t with ef := w.e }

/-- R67: writes a result to the register that a write field enables. -/
def writeU (field : Nat) (r : Option Word) (p : Bool) (x : Tile) : Tile :=
  match r with
  | some d => if 8 ≤ field then setUreg x (field - 8) ⟨d, p⟩ else x
  | none => x

/-- The outcome of an operation on the state: its results, and the tile and memories after it. -/
def operate (m t : Nat) (v : BitVec 320) (f : Firing) (s : State) : OpResult × State :=
  let op := slotOp v t
  let use := usesOf s m t v
  let p := (use 0 && f.a.p) || (use 1 && f.b.p) || (use 2 && f.c.p)
  if opMemory op then memOp m t op v f p s
  else if (0x1C ≤ op && op ≤ 0x1E) || opAccumulates op then
    let (r, x) := accOp op v f p (s.tile m t)
    (r, s.setTile m t x)
  else (plainOp op v f p, s)

/-- The registers, accumulators, flags and memories that a data firing writes at its completion; its
results are answered for the output buffers. -/
def complete (m t : Nat) (v : BitVec 320) (f : Firing) (s : State) : OpResult × State :=
  let (r, s1) := operate m t v f s
  let x := s1.tile m t
  let x1 := match r.x with
    | some d => flagsOfX (slotOp v t) (slotMode v) d r.p x
    | none => x
  let x2 := flagVf (r.sat || f.sat) r.p x1
  (r, s1.setTile m t (writeU (slotYw v) r.y r.p (writeU (slotXw v) r.x r.p x2)))

/-- The words that a firing places on OX and OY. -/
def firingWords (v : BitVec 320) (f : Firing) (r : OpResult) : Option SWord × Option SWord :=
  match f.marker with
  | some w => (if slotXo v then some w else none, if slotYo v then some w else none)
  | none =>
    let e := endMark v f
    if !f.pred then (if slotXo v then some ⟨f.a.d, e, f.a.p, false⟩ else none, none)
    else
      (if slotXo v then r.x.map fun d => ⟨d, e, r.p, false⟩ else none,
       if slotYo v then r.y.map fun d => ⟨d, e, r.p, false⟩ else none)

/-- A firing leaves the pipeline: what it writes besides the buffers, and its words. -/
def retire (m t : Nat) (v : BitVec 320) (f : Firing) (s : State) :
    (Option SWord × Option SWord) × State :=
  if f.marker.isSome || !f.pred then (firingWords v f {}, s)
  else
    let (r, s1) := complete m t v f s
    (firingWords v f r, s1)

def putWord (m t g : Nat) (w : Option SWord) (s : State) : State :=
  match w with
  | some x => intoBuffer m t g x s
  | none => s

/-- R79: the oldest firing completes, in a stopped massif too: R71 stops no result (DESIGN CHOICE, log 142). -/
def resultWriteback (m t : Nat) (s : State) : State :=
  let x := s.tile m t
  match (if clocked s m then x.pipe else []) with
  | [] => s
  | f :: rest =>
    let v := s.active m t
    let (w, s1) := retire m t v f (s.setTile m t { x with pipe := rest })
    putWord m t 27 w.2 (putWord m t 26 w.1 s1)

/-! ### The meanings -/

def execFiring (m : Fin 64) (t : Fin 256) (s : State) : Result := .next (firing m t s)
def execMarkerFiring (m : Fin 64) (t : Fin 256) (s : State) : Result := .next (markerFiring m t s)
def execResultWriteback (m : Fin 64) (ty tx : Fin 16) (s : State) : Result := .next (resultWriteback m (16 * ty + tx) s)

end Sys2Proof.Machine
end

