-- ==== Sys2Proof/Machine/Routing.lean ====
section
/-! DEFINITION. Word tracks, col queues and feed ports (R81–R100): where a word goes from each place that
holds one, the hop, the col queue between two massifs, and the feed switch. -/

namespace Sys2Proof.Machine

open Sys2Proof

abbrev cqPage (m : Nat) : Nat := massifBase m + 0xA000
abbrev feedPage : Nat := 0x03040000
abbrev lrqPage (g : Nat) : Nat := 0x02003000 + 0x10000 * g

namespace State

def colq (s : State) (k : Nat) : Stage := s.fab.cols.get k {}
def setColq (s : State) (k : Nat) (x : Stage) : State :=
  { s with fab := { s.fab with cols := s.fab.cols.set k x {} } }
def feedq (s : State) (p f : Nat) : Stage := s.fab.feeds.get (p * 8 + f) {}
def setFeedq (s : State) (p f : Nat) (x : Stage) : State :=
  { s with fab := { s.fab with feeds := s.fab.feeds.set (p * 8 + f) x {} } }
def feedTrack (s : State) (p f : Nat) : FeedTrack := s.fab.feedTracks.get (p * 8 + f) {}
def setFeedTrack (s : State) (p f : Nat) (x : FeedTrack) : State :=
  { s with fab := { s.fab with feedTracks := s.fab.feedTracks.set (p * 8 + f) x {} } }
def lane (s : State) (l : Nat) : LaneQueue := s.fab.lanes.get l {}
def setLane (s : State) (l : Nat) (x : LaneQueue) : State :=
  { s with fab := { s.fab with lanes := s.fab.lanes.set l x {} } }

end State

/-! ### Segments (R81, R84–R90)

Stages of tile `t`: 4·d + i is single track i travelling d, 16 + 2·d + j express track j travelling d, 24
and 25 the loop-back stages of OX and OY, 26 and 27 the output buffers OX and OY. -/

def leftOf (d : Nat) : Nat := (d + 3) % 4
def rightOf (d : Nat) : Nat := (d + 1) % 4

/-- Direction of travel of a segment. -/
def segDir (g : Nat) : Nat := if g < 16 then g / 4 else (g - 16) / 2
/-- Track number of a segment. -/
def segTrack (g : Nat) : Nat := if g < 16 then g % 4 else (g - 16) % 2

/-- The enable bits of segment `g`, source 0 lowest (R84, R85). -/
def segMask (v : BitVec 320) (g : Nat) : Nat :=
  let d := segDir g
  let i := segTrack g
  if 16 ≤ g then switchField v (56 + 2 * (2 * d + i)) 2
  else if i < 2 then switchField v (4 * (2 * d + i)) 4
  else switchField v (32 + 3 * (2 * d + (i - 2))) 3

/-- R90: the source that drives segment `g`: the lowest-numbered enabled one. -/
def segSource (v : BitVec 320) (g : Nat) : Option Nat := (List.range 4).find? (segMask v g).testBit

/-- Source code of port `p`; 15 reads as 0 (R90). -/
def portCode (v : BitVec 320) (p : Nat) : Nat :=
  let c := switchField v (72 + 4 * p) 4
  if c == 15 then 0 else c

/-- R85, R86: the destinations at tile `t` of a word on single track `i` that travels `d` into it. -/
def landSingle (v : BitVec 320) (t d i : Nat) : List Dest :=
  let from1 := opposite d
  let ports := [0, 1, 2].filter fun p =>
    (i == p && portCode v p == 1 + from1) || (i == p + 1 && portCode v p == 5 + from1)
  let straight := if segSource v (4 * d + i) == some 1 then [Dest.seg t (4 * d + i)] else []
  let d2 := if i < 2 then leftOf d else rightOf d
  let turn := if segSource v (4 * d2 + i) == some 2 then [Dest.seg t (4 * d2 + i)] else []
  ports.map (Dest.port t) ++ straight ++ turn

/-- R85, R86: the destinations at tile `t` of a word on express track `j` that travels `d` and lands. -/
def landExpress (v : BitVec 320) (t d j : Nat) : List Dest :=
  let ports := [0, 1, 2].filter fun p => p % 2 == j && portCode v p == 9 + opposite d
  let cont := if segSource v (16 + 2 * d + j) == some 1 then [Dest.seg t (16 + 2 * d + j)] else []
  let land := if segSource v (4 * d + j) == some 3 then [Dest.seg t (4 * d + j)] else []
  ports.map (Dest.port t) ++ cont ++ land

/-- The tile `n` positions from `t` in direction `d`, within the massif. -/
def tileAhead (t d : Nat) : Nat → Option Nat
  | 0 => some t
  | n + 1 =>
    match adjacent t d with
    | some u => tileAhead u d n
    | none => none

/-- The massif beyond face `d` of massif `m`. -/
def neighbour (m d : Nat) : Option Nat :=
  match d with
  | 0 => if myOf m < 7 then some (m + 8) else none
  | 1 => if mxOf m < 7 then some (m + 1) else none
  | 2 => if 0 < myOf m then some (m - 8) else none
  | _ => if 0 < mxOf m then some (m - 1) else none

/-- Key of the col queue of massif `m` on `face`, at `place`, `track`. -/
def colKey (m face place track : Nat) : Nat := ((m * 4 + face) * 16 + place) * 4 + track

/-- Place of tile `t` along face `d`. -/
def placeOn (t d : Nat) : Nat := if d % 2 == 0 then t % 16 else t / 16

/-- The tile at a place of a face. -/
def tileAt (face place : Nat) : Nat :=
  match face with
  | 0 => 240 + place
  | 1 => place * 16 + 15
  | 2 => place
  | _ => place * 16

/-- The col queue into which the boundary segment `g` of tile `t` writes (R91). -/
def boundaryQueue (m t g : Nat) : Option Nat :=
  let d := segDir g
  if 16 ≤ g || (adjacent t d).isSome then none
  else (neighbour m d).map fun n => colKey n (opposite d) (placeOn t d) (segTrack g)

/-- R131: queues whose write tap is on segment `g` of tile `t`. -/
def tapQueues (s : State) (m t g : Nat) : List Nat :=
  if 16 ≤ g then []
  else (List.range 32).filter fun q =>
    s.flag (F.SQ_BIND_WEN m q) && s.get (F.SQ_BIND_WTILE m q) == t && s.get (F.SQ_BIND_WDIR m q) == segDir g
      && s.get (F.SQ_BIND_WTRK m q) == segTrack g && s.get (F.SQ_CTL_WSRC m q) % 3 == 0

/-- R168: shelf ports whose request tap, or data tap, is on segment `g` of tile `t`. -/
def tapRequests (s : State) (m t g : Nat) : List Nat :=
  if 16 ≤ g then []
  else (List.range 4).filter fun p =>
    s.flag (F.SHP_BIND_QEN m p) && s.get (F.SHP_BIND_QTILE m p) == t && s.get (F.SHP_BIND_QDIR m p) == segDir g
      && s.get (F.SHP_BIND_QTRK m p) == segTrack g
def tapData (s : State) (m t g : Nat) : List Nat :=
  if 16 ≤ g then []
  else (List.range 4).filter fun p =>
    s.flag (F.SHP_BIND_DEN m p) && s.get (F.SHP_BIND_DTILE m p) == t && s.get (F.SHP_BIND_DDIR m p) == segDir g
      && s.get (F.SHP_BIND_DTRK m p) == segTrack g

/-- Destinations, in a figure `cfg`, of the words that stage `g` of tile `t` holds, within the tiles and at
the massif's boundary (R83, R85, R86). -/
def figureDests (cfg : Nat → BitVec 320) (m t g : Nat) : List Dest :=
  let v := cfg t
  let d := segDir g
  let i := segTrack g
  if g < 16 then
    match adjacent t d with
    | some u => landSingle (cfg u) u d i
    | none => if (boundaryQueue m t g).isSome then [Dest.col] else []
  else if g < 24 then
    match tileAhead t d 4 with
    | some u => landExpress (cfg u) u d i
    | none => []
  else if g < 26 then
    ([0, 1, 2].filter fun p => portCode v p == 13 + (g - 24)).map (Dest.port t)
  else
    let odd := g - 26
    let single := ((List.range 16).filter fun k => k % 2 == odd && segSource v k == some 0).map (Dest.seg t)
    let expr := ((List.range 8).filter fun k => k % 2 == odd && segSource v (16 + k) == some 0).map fun k => Dest.seg t (16 + k)
    let loop := if [0, 1, 2].any fun p => portCode v p == 13 + odd then [Dest.seg t (24 + odd)] else []
    single ++ expr ++ loop

/-- Destinations of the words that stage `g` of tile `t` holds under the active figure, taps among them
(R131, R168). -/
def stageDests (s : State) (m t g : Nat) : List Dest :=
  figureDests (s.active m) m t g ++ (tapQueues s m t g).map Dest.queue ++ (tapRequests s m t g).map Dest.shelfReq
    ++ (tapData s m t g).map Dest.shelfData

/-! ### Moving a word -/

/-- CQ_STAT.NONEMPTY of a face (R99). -/
def cqRefresh (m face : Nat) (s : State) : State :=
  s.putB (F.CQ_STAT_NONEMPTY m face)
    ((List.range 64).any fun i => !(s.colq (colKey m face 0 0 + i)).words.isEmpty)

/-- R91, R99: a word enters a col queue. -/
def colWrite (k : Nat) (w : SWord) (s : State) : State :=
  let m := k / 256
  let face := k / 64 % 4
  let q := s.colq k
  let n := q.words.length + 1
  let s1 := (s.setColq k { q with words := q.words ++ [w] }).put (F.CQ_STAT_NONEMPTY m face) 1
  (s1.put (F.CQ_STAT_HIGHWATER m face) (max (s1.get (F.CQ_STAT_HIGHWATER m face)) n)).when (n == 8)
    fun t => t.put (F.CQ_STAT_FULLSEEN m face) 1

/-- Credits of an eight-word queue into massif `m` that its sender holds (R13, R94): places neither taken nor
withheld with the words that a reset or a reload cleared. -/
def queueCredits (s : State) (m key len : Nat) : Nat := 8 - (len + (s.massif m).withheld.get key 0)

/-- Credits of col queue `k`. -/
def colCredits (s : State) (k : Nat) : Nat := queueCredits s (k / 256) (k % 256) (s.colq k).words.length

/-- Words of a stage that its col queue has not taken. -/
def uncrossed (st : Stage) : Nat := st.words.length - b2n (st.taken.contains .col)

/-- Segment `g` of tile `t` is ready for a word. A boundary segment is so only while its col queue can take what it
holds and one word more (R93). -/
def segReady (s : State) (m t g : Nat) : Bool :=
  let st := s.stage m t g
  decide (st.words.length < 2) && match boundaryQueue m t g with
    | some k => decide (uncrossed st < colCredits s k)
    | none => true

/-- A destination within the tiles, or a col queue, has room for a word. -/
def destRoom (s : State) (m : Nat) (col : Option Nat) (d : Dest) : Bool :=
  match d with
  | .seg t g => segReady s m t g
  | .port t p => (portHead (s.tile m t) p).isNone
  | .col => match col with
    | some k => decide (0 < colCredits s k)
    | none => false
  | _ => false

/-- A destination takes a word. -/
def destTake (m : Nat) (col : Option Nat) (w : SWord) (d : Dest) (s : State) : State :=
  match d with
  | .seg t g => s.setStage m t g { s.stage m t g with words := (s.stage m t g).words ++ [w] }
  | .port t p => s.setTile m t (setPortHead (s.tile m t) p (some w))
  | .col => match col with
    | some k => colWrite k w s
    | none => s
  | _ => s

/-- R83: the head word of a source is taken by every destination that has room and has not had it; the
source drops the word when all have it. A source without destinations keeps its word (DESIGN CHOICE,
log 32). -/
def offer (m : Nat) (col : Option Nat) (ds : List Dest) (st : Stage) (s : State) : Stage × State :=
  match st.words with
  | [] => (st, s)
  | w :: rest =>
    let (tk, s1) := ds.foldl (fun (acc : List Dest × State) d =>
      if !acc.1.contains d && destRoom acc.2 m col d then (d :: acc.1, destTake m col w d acc.2) else acc)
      (st.taken, s)
    if !ds.isEmpty && ds.all tk.contains then (⟨rest, []⟩, s1) else ({ st with taken := tk }, s1)

/-- A tap has taken the head word of stage `g` of tile `t`; the word is dropped if all have it. -/
def tapTook (m t g : Nat) (d : Dest) (s : State) : State :=
  let st := s.stage m t g
  let tk := d :: st.taken
  if (stageDests s m t g).all tk.contains then s.setStage m t g ⟨st.words.tail, []⟩
  else s.setStage m t g { st with taken := tk }

/-- R82: the head word of a stage moves on. -/
def wordHop (m t g : Nat) (s : State) : State :=
  if !clocked s m then s
  else
    let (st, s1) := offer m (boundaryQueue m t g) (stageDests s m t g) (s.stage m t g) s
    s1.setStage m t g st

/-! ### Inputs of a massif (R114, R115)

An input's key: (face·16 + place)·4 + track for a col queue, 256 + 8·p + f for a feed queue, 512 + q for a
stream queue's read tap, 544 + p for a shelf port's response tap. -/

/-- R114, R115: the input is held by a clean switch. -/
def inputHeld (s : State) (m key : Nat) : Bool :=
  let x := s.massif m
  match x.switch with
  | some sw => sw.clean && (sw.held || (sw.boundary && !x.midPacket.contains key))
  | none => false

/-- R115: an input has delivered a word. -/
def noteInput (m key : Nat) (e : Bool) (s : State) : State :=
  let x := s.massif m
  let l := x.midPacket.filter (· != key)
  s.setMassif m { x with midPacket := if e then l else key :: l }

/-- A word as a failed parity check delivers it (R93, R148). -/
def parityHead (bad : Bool) (st : Stage) : Stage :=
  match st.words with
  | w :: rest => if bad && st.taken.isEmpty then { st with words := { w with p := true } :: rest } else st
  | [] => st

/-- R92, R93: the head word of a col queue is presented at its tile; `bad`: its parity check fails. A word that some of
its destinations took before a clean switch holds the input is not offered to the others meanwhile (DESIGN CHOICE,
log 145). -/
def colDelivery (m face place track : Nat) (bad : Bool) (s : State) : State :=
  let k := colKey m face place track
  let q := s.colq k
  let key := (face * 16 + place) * 4 + track
  match q.words with
  | [] => s
  | w :: _ =>
    if !runs s m || inputHeld s m key then s
    else
      let fail := bad && q.taken.isEmpty
      let s0 := if fail then
          (s.count (F.CQ_PARCNT_VALUE m face) 1).setIrq (F.CQ_STAT_PARITY m face) (cqPage m) face
        else s
      let t := tileAt face place
      let (st, s1) := offer m none (landSingle (s.active m t) t (opposite face) track) (parityHead bad q) s0
      let s2 := s1.setColq k st
      if st.words.length < q.words.length then noteInput m key w.e (cqRefresh m face s2) else s2

/-- R99: HIGHWATER takes the present greatest occupancy of the face. -/
def hwClr (m face : Nat) (s : State) : State :=
  s.put (F.CQ_STAT_HIGHWATER m face)
    ((List.range 64).foldl (fun acc i => max acc (s.colq (colKey m face 0 0 + i)).words.length) 0)

/-- R99: one receiver cycle, of a massif whose clock runs, in which a queue of a face is full. -/
def colCycle (s : State) : State :=
  (s.fab.cols.filter fun e => e.2.words.length == 8 && massifClock s (e.1 / 256)).foldl (fun (acc : List Nat × State) e =>
    if acc.1.contains (e.1 / 64) then acc
    else (e.1 / 64 :: acc.1, acc.2.count (F.CQ_FULLCNT_VALUE (e.1 / 256) (e.1 / 64 % 4)) 1)) ([], s) |>.2

/-! ### Lane receive queues, as their reader needs them (R97, R152, R160) -/

/-- The status fields of a lane receive queue that follow from its contents (R160). -/
def laneRefresh (l : Nat) (s : State) : State :=
  let q := s.lane l
  let g := l / 8
  let f := l % 8
  let n := q.words.length
  let s1 := ((s.putB (F.LRQ_STAT_EMPTY g f) (n == 0)).putB (F.LRQ_STAT_FULL g f) (decide (4095 ≤ n))).putB
    (F.LRQ_STAT_CAIRN_PENDING g f) q.cairn.isSome
  (s1.put (F.LRQ_FILL_WORDS g f) n).put (F.LRQ_FILL_HIGHWATER g f) (max (s1.get (F.LRQ_FILL_HIGHWATER g f)) n)

/-- R95–R97: feed port `p` takes the words of lane `l` on track `f`. -/
def feedTakes (s : State) (l p : Nat) : Bool :=
  s.power.warmPhase == 0 && s.flag (F.FEED_CTL_EN p) && (s.get (F.FEED_CTL_TRACKEN p)).testBit (l % 8)
    && (s.feedTrack p (l % 8)).sel == l / 8

/-- R97: the head word of lane `l` is freed when a port has taken it and every port that takes the lane has. -/
def laneSettle (l : Nat) (s : State) : State :=
  let q := s.lane l
  match q.words with
  | [] => s
  | w :: rest =>
    if !q.taken.isEmpty && (List.range 32).all (fun i => !feedTakes s l i || q.taken.contains i) then
      laneRefresh l (s.setLane l { q with words := rest, taken := [], boundary := w.e })
    else s

/-- The massif that feed port `p` enters, and the face (R9, R95). -/
def feedMassif (p : Nat) : Nat := routerMassif (64 + p)
def feedFace (p : Nat) : Nat := match p / 8 with
  | 0 => 2
  | 1 => 0
  | 2 => 3
  | _ => 1

/-- R98: a SEL change of track `f` of port `p` waits, and the track stands at a packet boundary: it takes no
further word of its old lane group. -/
def feedTurning (s : State) (p f : Nat) : Bool :=
  (s.get (F.FEED_STAT_PENDING p)).testBit f && (s.feedTrack p f).boundary

/-- R96–R98: the head word of the lane receive queue that track `f` of port `p` carries enters its feed
queue; it leaves the lane queue when the last enabled port has it. -/
def feedIntake (p f : Nat) (bad : Bool) (s : State) : State :=
  let tr := s.feedTrack p f
  let l := 8 * tr.sel + f
  let q := s.lane l
  match q.words with
  | [] => s
  | w :: rest =>
    if !feedTakes s l p || feedTurning s p f || q.taken.contains p
        || queueCredits s (feedMassif p) (256 + 8 * p + f) (s.feedq p f).words.length == 0 then s
    else
      let fail := bad && q.taken.isEmpty
      let w1 := if fail then { w with p := true } else w
      let s0 := if fail then
          (s.count (F.LRQ_PARCNT_VALUE (l / 8) f) 1).setIrq (F.LRQ_STAT_PARITY (l / 8) f) (lrqPage (l / 8)) f
        else s
      let fq := s0.feedq p f
      let s1 := (s0.setFeedq p f { fq with words := fq.words ++ [w1] }).setFeedTrack p f { tr with boundary := w.e }
      let s2 := s1.put (F.FEED_CNT_VALUE p) (s1.get (F.FEED_CNT_VALUE p) + 1)
      laneSettle l (laneRefresh l (s2.setLane l { q with words := w1 :: rest, taken := p :: q.taken }))

/-- R96: the head word of a feed queue is presented at its entry tile; one that fails its parity check has P = 1,
and no register shows it, since those of a face on the die edge read zero (R99). -/
def feedPresent (p f : Nat) (bad : Bool) (s : State) : State :=
  let m := feedMassif p
  let q := s.feedq p f
  let key := 256 + 8 * p + f
  match q.words with
  | [] => s
  | w :: _ =>
    if !runs s m || inputHeld s m key then s
    else
      let face := feedFace p
      let t := tileAt face (2 * f)
      let (st, s1) := offer m none (landSingle (s.active m t) t (opposite face) 0) (parityHead bad q) s
      let s2 := s1.setFeedq p f st
      if st.words.length < q.words.length then noteInput m key w.e s2 else s2

/-- R96: feed delivery on track `f` of port `p`. -/
def feedDelivery (p f : Nat) (laneBad feedBad : Bool) (s : State) : State :=
  feedIntake p f laneBad (feedPresent p f feedBad s)

/-- R97, R98: track `f` of port `p` takes its new lane group, which may stand within a packet; the old lane's
head word no longer waits for the port. -/
def feedSwitch (p f : Nat) (s : State) : State :=
  let sel := s.get (F.FEED_CTL_SEL p)
  let s0 := (s.setFeedTrack p f { s.feedTrack p f with sel := sel, boundary := true }).put (F.FEED_STAT_PENDING p)
    (s.get (F.FEED_STAT_PENDING p) &&& (255 - 2 ^ f))
  let s1 := laneSettle (8 * (s.feedTrack p f).sel + f) s0
  if (s.lane (8 * sel + f)).boundary then s1
  else
    let old := s1.get (F.FEED_STAT_MIDPKT p)
    (s1.put (F.FEED_STAT_MIDPKT p) (old ||| 2 ^ f)).when (!old.testBit f) fun t => t.irq feedPage p

/-- R98: a pending SEL change of a track takes effect at a packet boundary. -/
def feedSelChange (p f : Nat) (s : State) : State :=
  if (s.get (F.FEED_STAT_PENDING p)).testBit f && (s.feedTrack p f).boundary then feedSwitch p f s else s

/-- R97, R98: a write of FEED_CTL: each track whose lane group changes takes it at once at a packet boundary, or
waits for one. A head word that waited only for a track now disabled is freed. -/
def feedCtlWrite (p : Nat) (v : Word) (s : State) : State :=
  let s1 := s.loadAll v [F.FEED_CTL_EN p, F.FEED_CTL_SEL p, F.FEED_CTL_TRACKEN p]
  s1.each 8 fun f u =>
    let t := laneSettle (8 * (u.feedTrack p f).sel + f) u
    let pend := t.get (F.FEED_STAT_PENDING p)
    if (t.feedTrack p f).sel == t.get (F.FEED_CTL_SEL p) then t.put (F.FEED_STAT_PENDING p) (pend &&& (255 - 2 ^ f))
    else if (t.feedTrack p f).boundary then feedSwitch p f t
    else t.put (F.FEED_STAT_PENDING p) (pend ||| 2 ^ f)

/-! ### The meanings -/

def execWordHop (m : Fin 64) (t : Fin 256) (g : Fin 28) (s : State) : Result := .next (wordHop m t g s)
def execColQueueDelivery (m : Fin 64) (face : Fin 4) (place : Fin 16) (track : Fin 4) (bad : Bool) (s : State) : Result :=
  .next (colDelivery m face place track bad s)
def execHwclr (m : Fin 64) (face : Fin 4) (s : State) : Result := .next (hwClr m face s)
def execFeedDelivery (p : Fin 32) (f : Fin 8) (laneBad feedBad : Bool) (s : State) : Result :=
  .next (feedDelivery p f laneBad feedBad s)
def execFeedCtlWrite (p : Fin 32) (v : Word) (s : State) : Result := .next (feedCtlWrite p v s)
def execFeedSelChange (p : Fin 32) (f : Fin 8) (s : State) : Result := .next (feedSelChange p f s)

end Sys2Proof.Machine
end

