-- ==== Sys2Proof/Machine/Queues.lean ====
section
/-! DEFINITION. Stream queues and lane receive queues (R127–R152): the pool, pointers, full policies and
cairns, mark and release, stranded tails, puts and gets, and the packets that leave for Ridge queues. -/

namespace Sys2Proof.Machine

open Sys2Proof

abbrev sqPage (m : Nat) : Nat := massifBase m + 0x2000

namespace State

def queue (s : State) (m q : Nat) : Queue := s.fab.queues.get (m * 32 + q) {}
def setQueue (s : State) (m q : Nat) (x : Queue) : State :=
  { s with fab := { s.fab with queues := s.fab.queues.set (m * 32 + q) x {} } }

end State

/-! ### The pool (R127–R130) -/

/-- Granules that a queue holds: those of the words from the granule of RL up to WP. The granule of a
released and partly written block stays held (DESIGN CHOICE, log 33). -/
def granules (s : State) (m q : Nat) : Nat :=
  ceilDiv (s.get (F.SQ_RL_VALUE m q) % 16 + (s.queue m q).words.length) 16

/-- Free granules of the pool. -/
def poolFree (s : State) (m : Nat) : Nat :=
  1024 - (List.range 32).foldl (fun acc q => acc + granules s m q) 0

/-- Sum over the queues of each reserve not yet in use. -/
def reserveUnused (s : State) (m : Nat) : Nat :=
  (List.range 32).foldl (fun acc q => acc + (s.get (F.SQ_QUOTA_RSV m q) - granules s m q)) 0

/-- R128: the queue would obtain a new granule now. -/
def canObtain (s : State) (m q : Nat) : Bool :=
  let h := granules s m q
  decide (h < s.get (F.SQ_QUOTA_GRAN m q)) && decide (0 < poolFree s m) &&
    (decide (h < s.get (F.SQ_QUOTA_RSV m q)) || decide (reserveUnused s m < poolFree s m))

/-- Words that the queue could store now, counting at most one new granule. -/
def freeWords (s : State) (m q : Nat) : Nat :=
  16 * granules s m q - (s.get (F.SQ_RL_VALUE m q) % 16 + (s.queue m q).words.length)
    + (if canObtain s m q then 16 else 0)

/-- Free words without which the next data word is held or dropped: its own, and one for a cairn under DROP_CAIRN
(R139) or while a cairn is pending, which is stored before it (R141, R147). -/
def wordsNeeded (s : State) (m q : Nat) : Nat :=
  if s.flag (F.SQ_CTL_FULL m q) || (s.queue m q).forcedCairn || (s.queue m q).cairn.isSome then 2 else 1

/-- SQ_STAT.FULL: the next data word would be held or dropped (R138, R139). -/
def queueFull (s : State) (m q : Nat) : Bool := decide (freeWords s m q < wordsNeeded s m q)

/-- Index of RP among the words held. -/
def readIndex (s : State) (m q : Nat) : Nat :=
  sub32 (s.get (F.SQ_RP_VALUE m q)) (s.get (F.SQ_RL_VALUE m q))

/-- The words from RP up to WP. -/
def unread (s : State) (m q : Nat) : List QWord := (s.queue m q).words.drop (readIndex s m q)

/-- The read-only fields that follow from a queue's contents (R135, R137, R159). -/
def queueRefresh (m q : Nat) (s : State) : State :=
  let x := s.queue m q
  let u := unread s m q
  let s1 := (((s.putB (F.SQ_STAT_EMPTY m q) u.isEmpty).putB (F.SQ_STAT_CAIRN_PENDING m q) x.cairn.isSome).put
    (F.SQ_FILL_WORDS m q) x.words.length).put (F.SQ_FILL_GRAN m q) (granules s m q)
  ((s1.put (F.SQ_PKT_COUNT m q) (min (u.filter fun w => w.w.e).length 0xFFFF)).putB (F.SQ_STAT_OVER_QUOTA m q)
    (decide (s.get (F.SQ_QUOTA_GRAN m q) < granules s m q))).put (F.POOL_STAT_FREE m) (poolFree s m)

/-- A status bit that also raises the queue's interrupt (R159). -/
def queueErr (f : Fld) (m q : Nat) (s : State) : State := s.setIrq f (sqPage m) q

/-! ### Writing (R136, R138–R141) -/

/-- The cairn word of R140. -/
def cairnWord (count cause qid : Nat) : SWord :=
  ⟨BitVec.ofNat 32 (count % 2 ^ 16 + 2 ^ 16 * cause + 2 ^ 20 * qid + 2 ^ 28), true, false, true⟩

/-- R154: the stamp that a packet takes when its first word is written. -/
def stubStamp (s : State) (m q : Nat) : Pos48 :=
  match s.pos.stub.get (s.get (F.SQ_AUX_STAMPCH m q)) none with
  | some r => r.pos
  | none => 0

/-- Stores a word at WP. -/
def queueStore (m q : Nat) (w : SWord) (s : State) : State :=
  let x := s.queue m q
  let st := if x.inPkt then x.stamp else stubStamp s m q
  let s1 := (s.setQueue m q { x with words := x.words ++ [{ w := w, stamp := st }], stamp := st, inPkt := !w.e }).put
    (F.SQ_WP_VALUE m q) (s.get (F.SQ_WP_VALUE m q) + 1)
  queueRefresh m q s1

/-- R139: a word is dropped; the gap's cairn takes it. -/
def queueDrop (m q : Nat) (s : State) : State :=
  let x := s.queue m q
  let cause := if s.get (F.SQ_QUOTA_GRAN m q) ≤ granules s m q then 1 else 2
  let c := match x.cairn with
    | some c => { c with count := min (c.count + 1) 0xFFFF }
    | none => ⟨1, cause⟩
  let s1 := (s.setQueue m q { x with cairn := some c }).count (F.SQ_DROP_VALUE m q) 1
  queueRefresh m q (queueErr (F.SQ_STAT_DROPPED m q) m q s1)

/-- R134, R136, R138, R139: the write side meets a word: it is stored or dropped (true), or its writer is
held (false). A cairn or a forced end that is due comes first. -/
def queueWrite (m q : Nat) (w : SWord) (s : State) : Bool × State :=
  let x := s.queue m q
  let free := freeWords s m q
  if !s.flag (F.SQ_CTL_EN m q) || x.force then (false, s)
  else if (x.cairn.isSome || x.forcedCairn) && 2 ≤ free then (false, s)
  else if wordsNeeded s m q ≤ free then (true, queueStore m q w s)
  else if s.flag (F.SQ_CTL_FULL m q) then (true, queueDrop m q s)
  else (false, s)

/-- R141, R147: the pending cairn is written at WP once two words are free; a forced-end cairn first. It, a tail timeout
and a forced end act on a disabled queue too (DESIGN CHOICE, log 146). -/
def cairnCommit (m q : Nat) (s : State) : State :=
  let x := s.queue m q
  if x.force || freeWords s m q < 2 then s
  else if x.forcedCairn then
    queueStore m q (cairnWord 0 3 q) (s.setQueue m q { x with forcedCairn := false })
  else match x.cairn with
    | some c => queueStore m q (cairnWord c.count c.cause q) (s.setQueue m q { x with cairn := none })
    | none => s

/-- The write tap of queue `q` takes the head word of its segment (R131, R134). -/
def queueTap (m q : Nat) (s : State) : State :=
  let t := s.get (F.SQ_BIND_WTILE m q)
  let g := 4 * s.get (F.SQ_BIND_WDIR m q) + s.get (F.SQ_BIND_WTRK m q)
  let st := s.stage m t g
  match st.words with
  | [] => s
  | w :: _ =>
    if clocked s m && s.flag (F.SQ_BIND_WEN m q) && s.get (F.SQ_CTL_WSRC m q) % 3 == 0
        && !st.taken.contains (.queue q) then
      match queueWrite m q w s with
      | (true, s1) => tapTook m t g (.queue q) s1
      | (false, _) => s
    else s

/-! ### Reading and release (R134–R137, R142–R145, R148) -/

/-- Words with E = 1 in a list. -/
def eWords (l : List QWord) : Nat := (l.filter (·.w.e)).length

/-- E words that position `i` among the words held has passed since the queue was last cleared (R286). -/
def eCountAt (s : State) (m q i : Nat) : Nat := (s.queue m q).ecount + eWords ((s.queue m q).words.take i)

/-- Moves RL forward to index `i` among the words held; a mark left behind is lost (R143). -/
def release (m q i : Nat) (s : State) : State :=
  let x := s.queue m q
  let rl := s.get (F.SQ_RL_VALUE m q)
  let mk := sub32 (s.get (F.SQ_MK_VALUE m q)) rl
  let lost := s.flag (F.SQ_STAT_MARK_VALID m q) && decide (mk < i)
  let y := { x with words := x.words.drop i, ecount := x.ecount + eWords (x.words.take i)
                    relE := ((x.words.take i).getLast?.map (·.w.e)).getD x.relE }
  let s1 := (s.setQueue m q y).put
    (F.SQ_RL_VALUE m q) (rl + i)
  queueRefresh m q (s1.when lost fun t => queueErr (F.SQ_STAT_MARK_LOST m q) m q (t.put (F.SQ_STAT_MARK_VALID m q) 0))

/-- N of the window (R145). -/
def windowN (s : State) (m q : Nat) : Nat := min 16 (max 2 (s.get (F.SQ_AUX_WIN_N m q)))

/-- R145: what the read of a word with E = 1 does in WINDOW mode. -/
def windowRead (m q : Nat) (s : State) : State :=
  let x := s.queue m q
  let rp := s.get (F.SQ_RP_VALUE m q)
  let k := x.winK + 1
  let s1 := if k == 1 then BitVec.ofNat 32 rp else x.winS1
  if k == windowN s m q then
    let i := sub32 s1.toNat (s.get (F.SQ_RL_VALUE m q))
    let t := ((s.setQueue m q { x with winK := 0, winS1 := s1 }).put (F.SQ_MK_VALUE m q) s1.toNat).put
      (F.SQ_RP_VALUE m q) s1.toNat
    release m q i t
  else s.setQueue m q { x with winK := k, winS1 := s1 }

/-- Upsets strike the stored words at the listed distances from RP: their parity checks fail from then on (R148). -/
def queueStrike (m q : Nat) (l : List Nat) (s : State) : State :=
  let x := s.queue m q
  let r := readIndex s m q
  let strike := fun (e : QWord × Nat) => if decide (r ≤ e.2) && l.contains (e.2 - r) then { e.1 with bad := true } else e.1
  s.when (!l.isEmpty) fun t => t.setQueue m q { x with words := x.words.zipIdx.map strike }

/-- The word at RP as the reader gets it: with P = 1 where its parity check fails (R148). -/
def queueHead (s : State) (m q : Nat) : Option QWord :=
  (unread s m q).head?.map fun x => { x with w := { x.w with p := x.w.p || x.bad } }

/-- The reader has taken the word at RP: RP advances, and the release mode acts. A failed check is counted (R148). -/
def queueTake (m q : Nat) (x : QWord) (s : State) : State :=
  let w := x.w
  let s0 := s.when x.bad fun t => queueErr (F.SQ_STAT_PARITY m q) m q (t.count (F.SQ_PARCNT_VALUE m q) 1)
  let y := s0.queue m q
  let s1 := (s0.setQueue m q { y with rhead := if w.e then [] else (y.rhead ++ [w]).take 2 }).put (F.SQ_RP_VALUE m q)
    (s0.get (F.SQ_RP_VALUE m q) + 1)
  match s.get (F.SQ_CTL_RELMODE m q) with
  | 1 => queueRefresh m q s1
  | 2 => queueRefresh m q (if w.e then windowRead m q s1 else s1)
  | _ => release m q (readIndex s1 m q) s1

/-- The read tap's segment of queue `q`. -/
def readSeg (s : State) (m q : Nat) : Nat × Nat :=
  (s.get (F.SQ_BIND_RTILE m q), 4 * s.get (F.SQ_BIND_RDIR m q) + s.get (F.SQ_BIND_RTRK m q))

/-- R133: the active figure drives the segment of the queue's read tap. -/
def readConflict (s : State) (m q : Nat) : Bool :=
  let (t, g) := readSeg s m q
  s.flag (F.SQ_BIND_REN m q) && (segSource (s.active m t) g).isSome

/-- R131, R134: the word at RP goes onto the read tap's segment, which has room. `bad`: an upset strikes it first. -/
def queueRead (m q : Nat) (bad : Bool) (s : State) : State :=
  let (t, g) := readSeg s m q
  let st := s.stage m t g
  if runs s m && s.flag (F.SQ_CTL_EN m q) && s.get (F.SQ_CTL_RSINK m q) == 0 && s.flag (F.SQ_BIND_REN m q)
      && !readConflict s m q && !inputHeld s m (512 + q) && segReady s m t g then
    let s0 := queueStrike m q (if bad then [0] else []) s
    match queueHead s0 m q with
    | none => s
    | some x => noteInput m (512 + q) x.w.e (queueTake m q x (s0.setStage m t g { st with words := st.words ++ [x.w] }))
  else s

/-! ### Configuration (R128, R131–R134, R142) -/

/-- Taps stand in tile columns 3, 4, 11 and 12. -/
def tapColumn (t : Nat) : Bool := t % 16 == 3 || t % 16 == 4 || t % 16 == 11 || t % 16 == 12

def cfgRefused (m q : Nat) (s : State) : State := s.put (F.SQ_STAT_CFG_REFUSED m q) 1

/-- R134: CLEAR empties a disabled queue. -/
def queueEmpty (m q : Nat) (s : State) : State :=
  let x := s.queue m q
  let s1 := s.setQueue m q { x with words := [], cairn := none, forcedCairn := false, force := false, inPkt := false,
                                    winK := 0, winS1 := 0, ecount := 0, relE := true, enW := 0, enR := 0, enL := 0,
                                    rhead := [] }
  let s2 := (((s1.put (F.SQ_WP_VALUE m q) 0).put (F.SQ_RP_VALUE m q) 0).put (F.SQ_RL_VALUE m q) 0).put
    (F.SQ_MK_VALUE m q) 0
  queueRefresh m q (s2.put (F.SQ_STAT_MARK_VALID m q) 0)

/-- R133, R169: BIND_CONFLICT of every queue and shelf port of a massif. -/
def conflictRefresh (m : Nat) (s : State) : State :=
  let s1 := s.each 32 fun q t => t.putB (F.SQ_STAT_BIND_CONFLICT m q) (readConflict t m q)
  s1.each 4 fun p t =>
    let c := t.flag (F.SHP_BIND_REN m p) && (segSource (t.active m (t.get (F.SHP_BIND_RTILE m p)))
      (4 * t.get (F.SHP_BIND_RDIR m p) + t.get (F.SHP_BIND_RTRK m p))).isSome
    if c then t.setIrq (F.SHP_STAT_BIND_CONFLICT m p) (shelfPage m) (4 + p)
    else t.put (F.SHP_STAT_BIND_CONFLICT m p) 0

def sqCtlFields (m q : Nat) : List Fld :=
  [F.SQ_CTL_EN m q, F.SQ_CTL_FULL m q, F.SQ_CTL_RELMODE m q, F.SQ_CTL_WSRC m q, F.SQ_CTL_RSINK m q,
   F.SQ_CTL_TAILACT m q, F.SQ_CTL_FMARK m q]

/-- The fields of SQ_CTL that are fixed while EN = 1 (R131, R132). -/
def sqLocked (m q : Nat) : List Fld :=
  [F.SQ_CTL_FULL m q, F.SQ_CTL_RELMODE m q, F.SQ_CTL_WSRC m q, F.SQ_CTL_RSINK m q]

/-- A written word leaves the listed fields at their values. -/
def keeps (s : State) (v : Word) (l : List Fld) : Bool := l.all fun f => f.of v.toNat == s.get f

/-- R132, R134, R142: a write of SQ_CTL, judged whole. A change of RELMODE moves no pointer: words read and not released
are released with the next word read in FIFO mode (DESIGN CHOICE, log 146). -/
def sqCtlWrite (m q : Nat) (v : Word) (s : State) : State :=
  let en := (F.SQ_CTL_EN m q).of v.toNat == 1
  if s.flag (F.SQ_CTL_EN m q) then
    if keeps s v (sqLocked m q) then s.loadAll v (sqCtlFields m q) else cfgRefused m q s
  else
    let sink := (F.SQ_CTL_RSINK m q).of v.toNat
    let rel := (F.SQ_CTL_RELMODE m q).of v.toNat % 3
    if en && (sink == 1 || sink == 2) && rel != 0 then cfgRefused m q s
    else
      let s0 := (s.when (v.getLsbD 10) (queueEmpty m q)).loadAll v (sqCtlFields m q)
      let s1 := s0.when en fun t => t.setQueue m q
        { t.queue m q with enW := eCountAt t m q (t.queue m q).words.length, enR := eCountAt t m q (readIndex t m q),
                           enL := (t.queue m q).ecount }
      if en && rel == 2 then
        let s2 := s1.setQueue m q { s1.queue m q with winK := 0 }
        (s2.put (F.SQ_MK_VALUE m q) (s2.get (F.SQ_RP_VALUE m q))).put (F.SQ_STAT_MARK_VALID m q) 1
      else s1

def sqBindFields (m q : Nat) : List Fld :=
  [F.SQ_BIND_WTILE m q, F.SQ_BIND_WDIR m q, F.SQ_BIND_WTRK m q, F.SQ_BIND_WEN m q, F.SQ_BIND_RTILE m q,
   F.SQ_BIND_RDIR m q, F.SQ_BIND_RTRK m q, F.SQ_BIND_REN m q]

/-- R131, R132: a write of SQ_BIND, judged whole. -/
def sqBindWrite (m q : Nat) (v : Word) (s : State) : State :=
  let rd := fun (f : Fld) => f.of v.toNat
  let wBad := rd (F.SQ_BIND_WEN m q) == 1 && !tapColumn (rd (F.SQ_BIND_WTILE m q))
  let ren := rd (F.SQ_BIND_REN m q) == 1
  let rBad := ren && (!tapColumn (rd (F.SQ_BIND_RTILE m q)) ||
    (List.range 32).any fun o => o != q && s.flag (F.SQ_BIND_REN m o)
      && readSeg s m o == (rd (F.SQ_BIND_RTILE m q), 4 * rd (F.SQ_BIND_RDIR m q) + rd (F.SQ_BIND_RTRK m q)))
  if s.flag (F.SQ_CTL_EN m q) then
    if keeps s v (sqBindFields m q) then s else cfgRefused m q s
  else if wBad || rBad then cfgRefused m q s
  else conflictRefresh m (s.loadAll v (sqBindFields m q))

/-- R128: a write of SQ_QUOTA. -/
def sqQuotaWrite (m q : Nat) (v : Word) (s : State) : State :=
  let gran := (F.SQ_QUOTA_GRAN m q).of v.toNat
  let rsv := (F.SQ_QUOTA_RSV m q).of v.toNat
  let sum := (List.range 32).foldl (fun acc o => acc + (if o == q then rsv else s.get (F.SQ_QUOTA_RSV m o))) 0
  if 1024 < sum || gran < rsv then cfgRefused m q s
  else queueRefresh m q ((s.loadAll v [F.SQ_QUOTA_GRAN m q, F.SQ_QUOTA_RSV m q]).put (F.POOL_STAT_RSVSUM m) sum)

/-! ### Commands (R143, R144) -/

/-- Commands act in COMMAND mode of an enabled queue; otherwise CMD_ERR is set (R143). -/
def inCommand (m q : Nat) (f : State → State) (s : State) : State :=
  if s.flag (F.SQ_CTL_EN m q) && s.get (F.SQ_CTL_RELMODE m q) == 1 then f s
  else queueErr (F.SQ_STAT_CMD_ERR m q) m q s

def qMark (m q : Nat) (s : State) : State :=
  inCommand m q (fun t => (t.put (F.SQ_MK_VALUE m q) (t.get (F.SQ_RP_VALUE m q))).put (F.SQ_STAT_MARK_VALID m q) 1) s

/-- The first words of the packet at RP among the words held, as a move of RP leaves them (R154). -/
def packetHead (m q : Nat) (s : State) : State :=
  let x := s.queue m q
  let l := ((x.words.take (readIndex s m q)).reverse.takeWhile fun w => !w.w.e).reverse
  s.setQueue m q { x with rhead := (l.take 2).map (·.w) }

def qRewind (m q : Nat) (s : State) : State :=
  inCommand m q (fun t =>
    if t.flag (F.SQ_STAT_MARK_VALID m q) then
      queueRefresh m q (packetHead m q (t.put (F.SQ_RP_VALUE m q) (t.get (F.SQ_MK_VALUE m q))))
    else queueErr (F.SQ_STAT_REWIND_ERR m q) m q t) s

def qReleaseRead (m q : Nat) (s : State) : State := inCommand m q (fun t => release m q (readIndex t m q) t) s

def qReleaseMark (m q : Nat) (s : State) : State :=
  inCommand m q (fun t =>
    if t.flag (F.SQ_STAT_MARK_VALID m q) then
      release m q ((sub32 (t.get (F.SQ_MK_VALUE m q)) (t.get (F.SQ_RL_VALUE m q)))) t
    else queueErr (F.SQ_STAT_CMD_ERR m q) m q t) s

def qReleasePkt (m q : Nat) (s : State) : State :=
  inCommand m q (fun t =>
    match (t.queue m q).words.findIdx? fun w => w.w.e with
    | some i => if i < readIndex t m q then release m q (i + 1) t else queueErr (F.SQ_STAT_CMD_ERR m q) m q t
    | none => queueErr (F.SQ_STAT_CMD_ERR m q) m q t) s

/-- A write of SQ_CMD.OP; 0, 6 and 7 are ignored (R143). -/
def sqCmdWrite (m q op : Nat) (s : State) : State :=
  match op with
  | 1 => qMark m q s
  | 2 => qRewind m q s
  | 3 => qReleaseRead m q s
  | 4 => qReleaseMark m q s
  | 5 => qReleasePkt m q s
  | _ => s

/-! ### Stranded tails (R146, R147) -/

/-- R146: the tail timer of a queue expires. -/
def tailTimeout (m q : Nat) (s : State) : State :=
  if s.get (F.SQ_TAIL_CYCLES m q) == 0 || (unread s m q).isEmpty then s
  else
    let s1 := queueErr (F.SQ_STAT_TAIL_TIMEOUT m q) m q s
    s1.when (s.flag (F.SQ_CTL_TAILACT m q)) fun t => t.setQueue m q { t.queue m q with force := true }

/-- R147: the cycle after a timeout with FORCE_END. -/
def forceEnd (m q : Nat) (s : State) : State :=
  let x := s.queue m q
  if !x.force then s
  else match x.words.getLast? with
    | some w =>
      if w.w.e then s.setQueue m q { x with force := false }
      else
        let s1 := s.setQueue m q { x with force := false, inPkt := false, forcedCairn := x.forcedCairn || s.flag (F.SQ_CTL_FMARK m q),
                                          words := x.words.dropLast ++ [{ w with w := { w.w with e := true } }] }
        queueRefresh m q ((s1.count (F.SQ_PKT_FORCED m q) 1).put (F.SQ_LASTFORCED_VALUE m q)
          ((sub32 (s.get (F.SQ_WP_VALUE m q)) 1)))
    | none => s.setQueue m q { x with force := false }

/-! ### Puts and gets (R149) -/

/-- A forced end that is due, and the cairns that have room, are written before the next word (R141, R147). -/
def queueSettle (m q : Nat) (s : State) : State := cairnCommit m q (cairnCommit m q (forceEnd m q s))

/-- R149: a write of SQ_PUT. A word that meets a due cairn or forced end waits the cycle that this takes (R141). While
only one word is free and a cairn is pending for it, a put under BACKPRESSURE finds no free word (DEDUCED, log 133). -/
def queuePut (m q : Nat) (v : Word) (s : State) : State :=
  let sb := s.get (F.SQ_PUTSB_EPM m q)
  let w : SWord := ⟨v, sb.testBit 0, sb.testBit 1, sb.testBit 2⟩
  if s.get (F.SQ_CTL_WSRC m q) == 2 && s.flag (F.SQ_CTL_EN m q) then
    match queueWrite m q w (queueSettle m q s) with
    | (true, s1) => s1
    | (false, s1) => s1.put (F.SQ_STAT_PUT_REFUSED m q) 1
  else s.put (F.SQ_STAT_PUT_REFUSED m q) 1

/-- R149: a read of SQ_GET: the word's D and P, and the latched sideband. -/
def queueGet (m q : Nat) (bad : Bool) (s : State) : Word × Bool × State :=
  let s0 := queueStrike m q (if bad then [0] else []) s
  match (if s.flag (F.SQ_CTL_EN m q) && s.get (F.SQ_CTL_RSINK m q) == 3 then queueHead s0 m q else none) with
  | some x =>
    let s1 := (queueTake m q x s0).put (F.SQ_GETSB_VEPM m q) (1 + 2 * b2n x.w.e + 4 * b2n x.w.p + 8 * b2n x.w.m)
    (x.w.d, x.w.p, s1.put (F.SQ_GET_D m q) x.w.d.toNat)
  | none => (0, false, (s.put (F.SQ_GETSB_VEPM m q) 0).put (F.SQ_GET_D m q) 0)

/-! ### Ridge sink (R150) -/

/-- The words of the packet that the queue's unread words make up: to the first E, at most `n`; none while
neither is there. -/
def packetReady (l : List QWord) (n : Nat) : Option (List QWord) :=
  match (l.take n).findIdx? fun w => w.w.e with
  | some i => some (l.take (i + 1))
  | none => if n ≤ l.length then some (l.take n) else none

/-- Takes the first `n` unread words. -/
def takeMany (m q : Nat) : Nat → State → List SWord × State
  | 0, s => ([], s)
  | n + 1, s =>
    match queueHead s m q with
    | none => ([], s)
    | some x =>
      let (l, s1) := takeMany m q n (queueTake m q x s)
      (x.w :: l, s1)

/-- R13, R150: queues of massif `m` send: it is up and not stopped, with or without a figure, and its NI has room for
one more stream packet. -/
def sinksRun (s : State) (m : Nat) : Bool :=
  massifLive s m && !s.flag (F.MASSIF_STAT_STOPPED m) && decide (flitsOf (s.niQueue m 3) < niDepth)

/-- R150: the queue sends a STREAM packet to the queue that SQ_DEST names. `bad`: upsets strike these words of it
first. -/
def streamSend (m q : Nat) (bad : List Nat) (s : State) : State :=
  if !(sinksRun s m && s.flag (F.SQ_CTL_EN m q) && s.get (F.SQ_CTL_RSINK m q) == 1) then s
  else match packetReady (unread s m q) 128 with
    | none => s
    | some l =>
      let (ws, s1) := takeMany m q l.length (queueStrike m q bad s)
      niSend { dst := s.get (F.SQ_DEST_ROUTER m q), dport := 1, src := m, sport := 1, vn := 3, typ := 0,
               addr := s.get (F.SQ_DEST_QUEUE m q), size := ws.length - 1, stream := ws } s1

/-- R150, R138: a STREAM packet delivers its words; those that the queue cannot take wait at the NI. -/
def streamWords (m q : Nat) : List SWord → State → List SWord × State
  | [], s => ([], s)
  | w :: l, s =>
    match queueWrite m q w s with
    | (true, s1) => streamWords m q l s1
    | (false, _) => (w :: l, s)

/-! ### Lane receive queues (R152) -/

/-- Stores a word in a lane receive queue. -/
def laneStore (l : Nat) (w : SWord) (s : State) : State :=
  s.setLane l { s.lane l with words := (s.lane l).words ++ [w] }

/-- The forced end that is due, and then the cairns that have room, are written (R141, R147). -/
def laneForce (l : Nat) (s : State) : State :=
  let q := s.lane l
  if !q.force then s
  else match q.words.getLast? with
    | some w =>
      if w.e then s.setLane l { q with force := false }
      else s.setLane l { q with force := false, forcedCairn := q.forcedCairn || s.flag (F.LRQ_TAIL_FMARK (l / 8) (l % 8)),
                                words := q.words.dropLast ++ [{ w with e := true }] }
    | none => s.setLane l { q with force := false }

def laneForcedCairn (l : Nat) (s : State) : State :=
  let q := s.lane l
  if q.forcedCairn && !q.force && q.words.length + 2 ≤ 4096 then
    laneStore l (cairnWord 0 3 l) (s.setLane l { q with forcedCairn := false })
  else s

def laneCairn (l : Nat) (s : State) : State :=
  let q := s.lane l
  match q.cairn with
  | some c =>
    if !q.force && !q.forcedCairn && q.words.length + 2 ≤ 4096 then
      laneStore l (cairnWord c.count c.cause l) (s.setLane l { q with cairn := none })
    else s
  | none => s

def laneCommit (l : Nat) (s : State) : State := laneRefresh l (laneCairn l (laneForcedCairn l s))

/-- R139, R152: the protocol engine writes a word: what is due before it is written, then it is stored, or
dropped into the gap's cairn. The engine of a group in low power writes nothing (R361). -/
def laneWrite (l : Nat) (w : SWord) (s : State) : State :=
  if s.flag (F.GRP_CTL_LP (l / 8)) then s else
  let s1 := laneCairn l (laneForcedCairn l (laneForce l s))
  let q := s1.lane l
  if q.words.length + 2 ≤ 4096 && !q.forcedCairn && q.cairn.isNone then laneRefresh l (laneStore l w s1)
  else
    let c := match q.cairn with
      | some c => { c with count := min (c.count + 1) 0xFFFF }
      | none => ⟨1, 1⟩
    let s2 := (s1.setLane l { q with cairn := some c }).count (F.LRQ_DROP_VALUE (l / 8) (l % 8)) 1
    laneRefresh l (s2.setIrq (F.LRQ_STAT_DROPPED (l / 8) (l % 8)) (lrqPage (l / 8)) (l % 8))

/-- R146: the tail timer of a lane receive queue expires. -/
def laneTimeout (l : Nat) (s : State) : State :=
  let g := l / 8
  let f := l % 8
  if s.get (F.LRQ_TAIL_CYCLES g f) == 0 || (s.lane l).words.isEmpty then s
  else
    let s1 := s.setIrq (F.LRQ_STAT_TAIL_TIMEOUT g f) (lrqPage g) f
    s1.when (s.flag (F.LRQ_TAIL_TAILACT g f)) fun t => t.setLane l { t.lane l with force := true }

/-! ### The meanings -/

def execQueueWrite (m : Fin 64) (q : Fin 32) (s : State) : Result := .next (queueTap m q s)
def execCairnCommit (r : QueueRef) (s : State) : Result :=
  match r with
  | .massif m q => .next (cairnCommit m q s)
  | .lane l => .next (laneCommit l s)
def execQueueRead (m : Fin 64) (q : Fin 32) (bad : Bool) (s : State) : Result := .next (queueRead m q bad s)
def execSqCtlWrite (m : Fin 64) (q : Fin 32) (v : Word) (s : State) : Result := .next (sqCtlWrite m q v s)
def execSqBindWrite (m : Fin 64) (q : Fin 32) (v : Word) (s : State) : Result := .next (sqBindWrite m q v s)
def execSqQuotaWrite (m : Fin 64) (q : Fin 32) (v : Word) (s : State) : Result := .next (sqQuotaWrite m q v s)
/-- `v` is the word written, with CLEAR set. -/
def execQueueClear (m : Fin 64) (q : Fin 32) (v : Word) (s : State) : Result :=
  .next (sqCtlWrite m q (v ||| 0x400) s)
def execMark (m : Fin 64) (q : Fin 32) (s : State) : Result := .next (qMark m q s)
def execRewind (m : Fin 64) (q : Fin 32) (s : State) : Result := .next (qRewind m q s)
def execReleaseRead (m : Fin 64) (q : Fin 32) (s : State) : Result := .next (qReleaseRead m q s)
def execReleaseMark (m : Fin 64) (q : Fin 32) (s : State) : Result := .next (qReleaseMark m q s)
def execReleasePkt (m : Fin 64) (q : Fin 32) (s : State) : Result := .next (qReleasePkt m q s)
def execTailTimeout (r : QueueRef) (s : State) : Result :=
  match r with
  | .massif m q => .next (tailTimeout m q s)
  | .lane l => .next (laneTimeout l s)
def execForceEnd (r : QueueRef) (s : State) : Result :=
  match r with
  | .massif m q => .next (forceEnd m q s)
  | .lane l => .next (laneRefresh l (laneForce l s))
def execPut (m : Fin 64) (q : Fin 32) (v : Word) (s : State) : Result := .next (queuePut m q v s)
def execGet (m : Fin 64) (q : Fin 32) (bad : Bool) (s : State) : Result := .next (queueGet m q bad s).2.2
def execStreamSend (m : Fin 64) (q : Fin 32) (bad : List (Fin 128)) (s : State) : Result :=
  .next (streamSend m q (bad.map (·.val)) s)
def execLaneQueueWrite (l : Fin 256) (w : SWord) (s : State) : Result := .next (laneWrite l w s)

end Sys2Proof.Machine
end

