-- ==== Sys2Proof/Machine/ShelfPorts.lean ====
section
/-! DEFINITION. Fabric shelf ports, Ridge bulk accesses to a shelf, and the arbitration of a shelf's banks
(R164–R172). -/

namespace Sys2Proof.Machine

open Sys2Proof

/-! ### Ports (R168–R172) -/

def portReqs (s : State) (m p : Nat) : List ShelfPortReq := (s.shelf m).ports.get p []
def setPortReqs (m p : Nat) (l : List ShelfPortReq) (s : State) : State :=
  (s.setShelf m { s.shelf m with ports := (s.shelf m).ports.set p l [] }).put (F.SHP_STAT_OUTST m p) l.length

/-- The port writes (MODE 1; 2 and 3 are treated as 0, R170). -/
def portWrites (s : State) (m p : Nat) : Bool := s.get (F.SHP_CTL_MODE m p) == 1

def reqSeg (s : State) (m p : Nat) : Nat × Nat :=
  (s.get (F.SHP_BIND_QTILE m p), 4 * s.get (F.SHP_BIND_QDIR m p) + s.get (F.SHP_BIND_QTRK m p))
def dataSeg (s : State) (m p : Nat) : Nat × Nat :=
  (s.get (F.SHP_BIND_DTILE m p), 4 * s.get (F.SHP_BIND_DDIR m p) + s.get (F.SHP_BIND_DTRK m p))
def respSeg (s : State) (m p : Nat) : Nat × Nat :=
  (s.get (F.SHP_BIND_RTILE m p), 4 * s.get (F.SHP_BIND_RDIR m p) + s.get (F.SHP_BIND_RTRK m p))

/-- The word that a tap of port `p` would take from a segment, if it has not had it. -/
def tapHead (s : State) (m : Nat) (seg : Nat × Nat) (d : Dest) : Option SWord :=
  let st := s.stage m seg.1 seg.2
  if st.taken.contains d then none else st.words.head?

/-- The word at the request tap, and at the data tap, of an enabled port. -/
def reqHead (s : State) (m p : Nat) : Option SWord :=
  if s.flag (F.SHP_BIND_QEN m p) then tapHead s m (reqSeg s m p) (.shelfReq p) else none
def dataHead (s : State) (m p : Nat) : Option SWord :=
  if s.flag (F.SHP_BIND_DEN m p) then tapHead s m (dataSeg s m p) (.shelfData p) else none

/-- R170: the word index of an access. -/
def portIndex (s : State) (m p : Nat) (w : SWord) : Nat :=
  (s.get (F.SHP_BASE_WORD m p) + w.d.toNat % 2 ^ 18) % 2 ^ 18

/-- Takes the head word of the request tap; of the data tap. -/
def takeReq (m p : Nat) (s : State) : State := tapTook m (reqSeg s m p).1 (reqSeg s m p).2 (.shelfReq p) s
def takeData (m p : Nat) (s : State) : State := tapTook m (dataSeg s m p).1 (dataSeg s m p).2 (.shelfData p) s

/-- A marker is discarded (R170). -/
def markerGone (m : Nat) (s : State) : State := s.put (F.SH_STAT_MARKER m) 1

/-- R170–R172: the request tap takes a marker, or in READ mode an address word. -/
def shelfPortRequest (m p : Nat) (s : State) : State :=
  match (if clocked s m && s.flag (F.SHP_CTL_EN m p) then reqHead s m p else none) with
  | none => s
  | some w =>
    let l := portReqs s m p
    if 8 ≤ l.length then s
    else if w.m then
      if portWrites s m p then markerGone m (takeReq m p s)
      else setPortReqs m p (l ++ [⟨0, w.e, some w, none⟩]) (takeReq m p s)
    else if portWrites s m p then s
    else if w.p then controlPoison m (reqSeg s m p).1 s
    else setPortReqs m p (l ++ [⟨portIndex s m p w, w.e, none, none⟩]) (takeReq m p s)

/-- R170: in WRITE mode the taps take an address word and a data word together; a marker on the data tap is
discarded. -/
def shelfPortWrite (m p : Nat) (s : State) : State :=
  if !(clocked s m && s.flag (F.SHP_CTL_EN m p) && portWrites s m p) then s
  else match reqHead s m p, dataHead s m p with
    | a, some d =>
      if d.m then markerGone m (takeData m p s)
      else match a with
        | none => s
        | some a =>
          let l := portReqs s m p
          if a.m || 8 ≤ l.length then s
          else if a.p then controlPoison m (reqSeg s m p).1 s
          else setPortReqs m p (l ++ [⟨portIndex s m p a, a.e, none, some (d.d, d.p)⟩])
            (takeData m p (takeReq m p s))
    | _, none => s

/-- R170, R172: the oldest completed read, or marker, of the port goes onto the response segment. Responses of a port
whose response tap is not enabled stay with it (DESIGN CHOICE, log 147). -/
def shelfPortResponse (m p : Nat) (s : State) : State :=
  match portReqs s m p with
  | ⟨_, _, some w, _⟩ :: rest =>
    let (t, g) := respSeg s m p
    let st := s.stage m t g
    if runs s m && s.flag (F.SHP_BIND_REN m p) && (segSource (s.active m t) g).isNone && !inputHeld s m (544 + p)
        && segReady s m t g then
      let s1 := setPortReqs m p rest (s.setStage m t g { st with words := st.words ++ [w] })
      noteInput m (544 + p) w.e (if w.m then s1 else s1.put (F.SHP_CNT_VALUE m p) (s1.get (F.SHP_CNT_VALUE m p) + 1))
    else s
  | _ => s

/-- The oldest request of a port that awaits its grant, with its place in the port's list. -/
def portWants (s : State) (m p : Nat) : Option (Nat × ShelfPortReq) :=
  let l := portReqs s m p
  match l.findIdx? fun r => r.done.isNone with
  | some i => l[i]?.map fun r => (i, r)
  | none => none

/-- A port's granted access is made. Requests that EN = 0 finds outstanding are granted too, and answered under the binding
that then stands (DESIGN CHOICE, log 147). -/
def portGrant (m p i : Nat) (r : ShelfPortReq) (s : State) : State :=
  let l := portReqs s m p
  match r.write with
  | some (d, pz) =>
    let s1 := setPortReqs m p (l.eraseIdx i) (shelfWrite m r.word d pz s)
    s1.put (F.SHP_CNT_VALUE m p) (s1.get (F.SHP_CNT_VALUE m p) + 1)
  | none =>
    let (d, pz, s1) := shelfRead m r.word 2 s
    setPortReqs m p (l.set i { r with done := some ⟨d, r.e, pz, false⟩ }) s1

/-! ### Ridge bulk accesses (R164–R166, R221) -/

/-- Words of the shelf that a memory request touches; of a write, those with an enabled byte. -/
def bulkWords (p : Packet) : List Nat :=
  let first := p.addr % 2 ^ 20 / 4
  let n := (p.addr % 2 ^ 20 + p.size) / 4 + 1 - first
  ((List.range n).map (first + ·)).filter fun w =>
    p.typ == 0 || ((List.range p.data.length).zip p.data).any fun (i, _, en) => en && (p.addr % 2 ^ 20 + i) / 4 == w

/-- The response of a completed bulk access: an acknowledgement, or the bytes read. A posted write has none. -/
def bulkRespond (b : ShelfBulk) (s : State) : State :=
  let p := b.pkt
  if p.typ == 0 then
    let bytes := (List.range (p.size + 1)).map fun i =>
      let a := p.addr % 2 ^ 20 + i
      match b.got.find? fun g => g.1 == a / 4 with
      | some g => (byteOf g.2.1 (a % 4), g.2.2)
      | none => ((0 : Byte), false)
    niSend { response p 0 0 with size := p.size, addr := p.addr, data := bytes.map fun x => (x.1, true),
                                 pmask := maskOf bytes } s
  else s.when (p.vn == 1) (niSend (response p 1 0))

/-- A memory request reaches a shelf; one beyond its 1 MiB is answered ADDR_ERR (R222). -/
def shelfArrive (m : Nat) (p : Packet) (s : State) : State :=
  if 2 ^ 20 ≤ p.addr + p.size then niSend { response p p.typ 1 with size := p.size } s
  else
    let b : ShelfBulk := { pkt := p, todo := bulkWords p, got := [] }
    if b.todo.isEmpty then bulkRespond b s
    else s.setShelf m { s.shelf m with bulk := (s.shelf m).bulk ++ [b] }

/-- R167: the first access in the list that wants the bank, is the oldest of its source on its network, and
has that word next. -/
def bulkWants (s : State) (m bank : Nat) : Option Nat :=
  let l := (s.shelf m).bulk
  (List.range l.length).find? fun i =>
    match l[i]? with
    | some b => b.todo.head?.map (· % 16) == some bank
        && (l.take i).all fun o => !(o.pkt.src == b.pkt.src && o.pkt.sport == b.pkt.sport && o.pkt.vn == b.pkt.vn)
    | none => false

/-- The enabled bytes of a write that lie in word `w`, by their number in it, and whether one is poisoned. -/
def bulkBytes (p : Packet) (w : Nat) : List (Nat × Byte) × Bool :=
  let l := (((List.range p.data.length).zip (packetBytes p)).filter fun (j, _, en, _) =>
    en && (p.addr % 2 ^ 20 + j) / 4 == w)
  (l.map fun (j, x, _, _) => ((p.addr + j) % 4, x), l.any fun (_, _, _, pz) => pz)

/-- One access of bulk access `b` to its next word `w` is granted: a read, a whole write, or the read or the write of
a read-modify-write (R164). -/
def bulkAccess (m w : Nat) (rest : List Nat) (b : ShelfBulk) (s : State) : ShelfBulk × State :=
  if b.pkt.typ == 0 then
    let (d, pz, t) := shelfRead m w 5 s
    ({ b with todo := rest, got := (w, d, pz) :: b.got }, t)
  else
    let (bs, pz) := bulkBytes b.pkt w
    match (if wholeWord bs then some (0, false) else b.merge) with
    | some (old, oldP) => ({ b with todo := rest, merge := none }, shelfWrite m w (mergeBytes bs old) (pz || oldP) s)
    | none =>
      let (d, p, t) := shelfRead m w 5 s
      ({ b with merge := some (d, p) }, t)

/-- One access of bulk access `i` is granted. -/
def bulkGrant (m i : Nat) (s : State) : State :=
  match (s.shelf m).bulk[i]? with
  | some b =>
    match b.todo with
    | w :: rest =>
      let (b1, s1) := bulkAccess m w rest b s
      let l := (s1.shelf m).bulk
      if b1.todo.isEmpty then bulkRespond b1 (s1.setShelf m { s1.shelf m with bulk := l.eraseIdx i })
      else s1.setShelf m { s1.shelf m with bulk := l.set i b1 }
    | [] => s
  | none => s

/-! ### The loader (R107, R165, R166) -/

/-- R103: 64-byte blocks of a library entry. -/
def entryBlocks : Nat := 161

def loader (s : State) (m : Nat) : Option LoadOp := s.fab.loaders.get m none
def setLoader (m : Nat) (o : Option LoadOp) (s : State) : State :=
  { s with fab := { s.fab with loaders := s.fab.loaders.set m o none } }

/-- R107: the next block that the loader wants from the shelf. -/
def loaderWants (s : State) (m : Nat) : Option (LoadOp × Nat) :=
  match loader s m with
  | some o => if !o.verify && !o.hbm && decide (o.next < entryBlocks) then some (o, o.next) else none
  | none => none

/-- R107: all 16 banks are granted to the loader for a cycle: it reads its next 64 bytes. -/
def loaderGrant (m : Nat) (o : LoadOp) (k : Nat) (s : State) : State :=
  let (l, s1) := shelfReadBytes m 3 (o.addr + 64 * k) 64 s
  setLoader m (some { o with next := k + 1, got := o.got.set k l [] }) s1

/-- R166, R190: a cycle in which the loader is not granted all its banks. -/
def loaderWait (m : Nat) (s : State) : State :=
  s.when ((loaderWants s m).isSome && (s.shelf m).ldWait != some s.cycle) fun t =>
    (t.count (F.SH_WAIT_LD_VALUE m) 1).setShelf m { t.shelf m with ldWait := some t.cycle }

/-- The scrubber's request wants the bank. -/
def scrubWants (s : State) (m bank : Nat) : Bool := scrubRuns s m && (s.shelf m).scrubReq.any fun w => w % 16 == bank

/-- R165: the shelf port, with its request, that wins the bank. -/
def portWins (s : State) (m bank : Nat) : Option (Nat × Nat × ShelfPortReq) :=
  [0, 1, 2, 3].findSome? fun p =>
    match portWants s m p with
    | some (i, r) => if r.word % 16 == bank then some (p, i, r) else none
    | none => none

/-- A shelf port wants some bank. -/
def portsWant (s : State) (m : Nat) : Bool := [0, 1, 2, 3].any fun p => (portWants s m p).isSome

/-- R165: a requester of a higher priority than the Caller's wants the bank: a shelf port, or the loader, which is
granted every bank at once or none. -/
def aboveCaller (s : State) (m bank : Nat) : Bool :=
  (portWins s m bank).isSome || ((loaderWants s m).isSome && !portsWant s m)

/-- R165, R166: the Caller, or the copy of its code, lost the bank before and wants it again. -/
def callerWants (s : State) (m bank : Nat) : Bool :=
  (s.shelf m).want.contains bank && (s.flag (F.CL_STAT_RUNNING m) || (s.massif m).callerCopy)

/-- The banks that the Caller of massif `m` wants again. -/
def setWant (m : Nat) (l : List Nat) (s : State) : State := s.setShelf m { s.shelf m with want := l }

/-- R165, R190: the losers of a bank's cycle are counted. -/
def countWaits (m bank : Nat) (bulkLost : Bool) (s : State) : State :=
  (s.when (bulkLost && (bulkWants s m bank).isSome) fun t => t.count (F.SH_WAIT_RIDGE_VALUE m) 1).when
    (scrubWants s m bank) fun t => t.count (F.SH_WAIT_SCRUB_VALUE m) 1

/-- R165, R166: bank `bank` is granted to the highest-priority requester that wants it; the loader takes all banks in
a cycle in which no shelf port wants one. Summit deliveries take their banks in their own command, and the Caller in
that of its instruction or of its copy (log 34). -/
def shelfGrant (m bank : Nat) (s : State) : State :=
  match portWins s m bank with
  | some (p, i, r) => portGrant m p i r (countWaits m bank true (loaderWait m s))
  | none =>
    match (if portsWant s m then none else loaderWants s m) with
    | some (o, k) => loaderGrant m o k (countWaits m bank true s)
    | none =>
      let s0 := loaderWait m s
      if callerWants s0 m bank then countWaits m bank true s0
      else match bulkWants s0 m bank with
        | some i => bulkGrant m i (countWaits m bank false s0)
        | none => if scrubWants s0 m bank then scrubGrant m s0 else s0

/-- R203: the scrubber's write-back is granted its bank, or loses it and waits. -/
def scrubWriteback (m : Nat) (s : State) : State :=
  match (s.shelf m).scrubRead with
  | some r =>
    let bank := r.word % 16
    if !scrubRuns s m then s
    else if aboveCaller s m bank || callerWants s m bank || (bulkWants s m bank).isSome then s.count (F.SH_WAIT_SCRUB_VALUE m) 1
    else scrubStore m s
  | none => s

/-- R165, R245: a Summit delivery takes a bank for its cycle; those who want it lose it. Deliveries of one cycle are
merged into one write per bank. -/
def summitBank (m bank : Nat) (s : State) : State :=
  let (c, l) := (s.shelf m).summit
  let banks := if c == s.cycle then l else []
  if banks.contains bank then s
  else
    let t := countWaits m bank true (loaderWait m s)
    t.setShelf m { t.shelf m with summit := (s.cycle, bank :: banks) }

/-! ### Configuration (R168) -/

/-- Fields of a port register: 0 SHP_CTL, 1 to 3 the three words of SHP_BIND, 4 SHP_BASE. -/
def shpFields (m p reg : Nat) : List Fld :=
  match reg with
  | 0 => [F.SHP_CTL_EN m p, F.SHP_CTL_MODE m p]
  | 1 => [F.SHP_BIND_QTILE m p, F.SHP_BIND_QDIR m p, F.SHP_BIND_QTRK m p, F.SHP_BIND_QEN m p]
  | 2 => [F.SHP_BIND_DTILE m p, F.SHP_BIND_DDIR m p, F.SHP_BIND_DTRK m p, F.SHP_BIND_DEN m p]
  | 3 => [F.SHP_BIND_RTILE m p, F.SHP_BIND_RDIR m p, F.SHP_BIND_RTRK m p, F.SHP_BIND_REN m p]
  | _ => [F.SHP_BASE_WORD m p]

/-- A binding word names a tile, a segment and an enable. -/
def bindWord (v : Word) : Nat × Nat × Bool :=
  (bitsOf v.toNat 0 8, 4 * bitsOf v.toNat 8 2 + bitsOf v.toNat 10 2, v.getLsbD 12)

/-- R168: a write of a port register, judged whole. -/
def shpWrite (m p reg : Nat) (v : Word) (s : State) : State :=
  let refuse := s.setIrq (F.SH_STAT_CFG_REFUSED m) (shelfPage m) 0
  let fields := shpFields m p reg
  let locked := if reg == 0 then [F.SHP_CTL_MODE m p] else fields
  let (t, g, en) := bindWord v
  let isBind := 1 ≤ reg && reg ≤ 3
  let badTile := isBind && en && !(t % 16 == 7 || t % 16 == 8)
  let badResp := reg == 3 && [0, 1, 2, 3].any fun o => o != p && s.flag (F.SHP_BIND_REN m o)
    && respSeg s m o == (t, g)
  if s.flag (F.SHP_CTL_EN m p) then
    if keeps s v locked then s.loadAll v fields else refuse
  else if badTile || badResp then refuse
  else conflictRefresh m (s.loadAll v fields)

/-! ### The meanings -/

def execScrubWriteback (m : Fin 64) (s : State) : Result := .next (scrubWriteback m s)
def execShelfPortRequest (m : Fin 64) (p : Fin 4) (s : State) : Result := .next (shelfPortRequest m p s)
def execShelfPortWrite (m : Fin 64) (p : Fin 4) (s : State) : Result := .next (shelfPortWrite m p s)
def execShelfPortResponse (m : Fin 64) (p : Fin 4) (s : State) : Result := .next (shelfPortResponse m p s)
def execShelfPortConfigWrite (m : Fin 64) (p : Fin 4) (reg : Fin 5) (v : Word) (s : State) : Result :=
  .next (shpWrite m p reg v s)

end Sys2Proof.Machine
end

