-- ==== Sys2Proof/Machine/Figures.lean ====
section
/-! DEFINITION. Figures: slot parity, the figure loader and its checks (R101–R111), switches (R112–R115), and
the sequencer (R116–R123). -/

namespace Sys2Proof.Machine

open Sys2Proof

abbrev ldPage (m : Nat) : Nat := massifBase m + 0x1000

/-! ### Slot parity and block memory use (R102, R177) -/

/-- The slot bits of parity group `i`, and its parity bit (R102). -/
def parityGroup (i : Nat) : Nat × Nat × Nat :=
  match i with
  | 0 => (0, 32, 90) | 1 => (32, 32, 91) | 2 => (64, 26, 92) | 3 => (96, 32, 93) | 4 => (128, 32, 94)
  | 5 => (160, 32, 95) | 6 => (192, 32, 252) | 7 => (224, 28, 253) | 8 => (256, 32, 254) | _ => (288, 32, 255)

/-- R102: every parity group of a slot is even. -/
def slotParityOk (v : BitVec 320) : Bool :=
  (List.range 10).all fun i =>
    let (lo, w, p) := parityGroup i
    parityOf w (slotField v lo w) == v.getLsbD p

/-- The memory and port that a slot gives tile `t`, if its operation uses one. -/
def slotMemory (v : BitVec 320) (t : Nat) : Option (Nat × Nat) :=
  if opMemory (slotOp v t) then bmPort t (slotBmsel v) else none

/-- R177, R191: BM_USE, BM_ACTA and BM_ACTB of a massif. -/
def bmRefresh (m : Nat) (s : State) : State :=
  let valid := s.get (F.SLOT_VALID_BITS m)
  let act := s.get (F.SEQ_STAT_ACTIVE_SLOT m)
  let mine := s.fab.slots.filter fun e => e.1 / 4096 == m && valid.testBit (e.1 / 256 % 16)
  let uses := fun (l : SMap (BitVec 320)) (q : Nat → Bool) => l.foldl (fun acc e =>
    match slotMemory e.2 (e.1 % 256) with
    | some (k, p) => if q p then acc ||| 2 ^ k else acc
    | none => acc) 0
  let live := mine.filter fun e => e.1 / 256 % 16 == act
  ((s.put (F.BM_USE_BITS m) (uses mine fun _ => true)).put (F.BM_ACTA_BITS m) (uses live (· == 0))).put
    (F.BM_ACTB_BITS m) (uses live (· == 1))

/-! ### The loader's checks (R50, R52, R60, R64, R89, R133, R169, R176) -/

/-- A segment is bound as an enabled read tap or response tap. -/
def boundSource (s : State) (m t g : Nat) : Bool :=
  g < 16 && ((List.range 32).any (fun q => s.flag (F.SQ_BIND_REN m q) && readSeg s m q == (t, g))
    || (List.range 4).any fun p => s.flag (F.SHP_BIND_REN m p) && respSeg s m p == (t, g))

/-- A segment carries an enabled write, request or data tap. -/
def tapped (s : State) (m t g : Nat) : Bool :=
  g < 16 && ((List.range 32).any (fun q => s.flag (F.SQ_BIND_WEN m q) && s.get (F.SQ_BIND_WTILE m q) == t
      && 4 * s.get (F.SQ_BIND_WDIR m q) + s.get (F.SQ_BIND_WTRK m q) == g)
    || (List.range 4).any fun p => (s.flag (F.SHP_BIND_QEN m p) && reqSeg s m p == (t, g))
      || (s.flag (F.SHP_BIND_DEN m p) && dataSeg s m p == (t, g)))

def segs : List Nat := List.range 24

/-- CONTENTION of tile `t` (R64, R89, R133, R169). -/
def contention (s : State) (m : Nat) (img : Nat → BitVec 320) (t : Nat) : Bool :=
  let v := img t
  segs.any (fun g =>
    let k := segMask v g
    (decide (1 < popCount 4 k)) || (k != 0 && boundSource s m t g))
  || match slotMemory v t with
    | some b => (List.range 256).any fun u => u != t && slotMemory (img u) u == some b
    | none => false

/-- ILLEGAL_OP of tile `t` (R50, R52, R60, R176); the source and consume fields of an operand that the operation
does not use are ignored (R52). -/
def illegalOp (s : State) (m : Nat) (v : BitVec 320) (t : Nat) : Bool :=
  let op := slotField v 32 6
  let asp := tileAspect s m t v
  let use := opUses op asp (slotPred v)
  let port := bmPort t (slotBmsel v)
  (op != 0 && !opKnown op) || slotDm v == 3 || slotMpol v == 3 || slotBmsel v == 3
    || [0, 1, 2].any (fun i => use i && (slotSrc v i == 0xE || slotCon v i == 3))
    || [(0, 1), (0, 2), (1, 2)].any (fun (i, j) =>
        use i && use j && slotSrc v i == slotSrc v j && decide (slotSrc v i < 3) && slotCon v i != slotCon v j)
    || (opMemory op && port.isNone)
    || ((op == 0x1A || op == 0x1B) && slotDm v == 0)
    || (opMemory op && asp == 3 && match port with
        | some (_, p) => (op == 0x30 && p == 0) || (op == 0x31 && p == 1) || op == 0x32
        | none => false)

/-- R57: the operation has a Y column; YO and YW are ignored for the others. -/
def opHasY (op : Nat) : Bool := op == 0x02 || op == 0x0A || op == 0x1B || op == 0x20 || op == 0x30

/-- ILLEGAL_ROUTE of tile `t` (R57, R89). -/
def illegalRoute (s : State) (m : Nat) (img : Nat → BitVec 320) (t : Nat) : Bool :=
  let v := img t
  let asp := tileAspect s m t v
  let named := fun p => [0, 1, 2].any fun i => opUses (slotField v 32 6) asp (slotPred v) i && slotSrc v i == p
  [0, 1, 2].any (fun p => switchField v (72 + 4 * p) 4 == 15 || (named p && switchField v (72 + 4 * p) 4 == 0))
    || segs.any (fun g => segMask v g != 0 &&
        (if 16 ≤ g && (tileAhead t (segDir g) 4).isNone then true
         else (figureDests img m t g).isEmpty && !tapped s m t g))
    || (slotXo v && (figureDests img m t 26).isEmpty) || (slotYo v && opHasY (slotField v 32 6)
        && (figureDests img m t 27).isEmpty)
    || (List.range 4).any fun k =>
        let c := switchField v (116 + 10 * k + 3) 3
        4 < c && k < c - 4

/-- R108: the fault of the lowest tile, its lowest code first. -/
def imageFault (s : State) (m : Nat) (img : Nat → BitVec 320) : Option (Nat × Nat) :=
  (List.range 256).findSome? fun t =>
    if contention s m img t then some (1, t)
    else if illegalOp s m (img t) t then some (2, t)
    else if illegalRoute s m img t then some (3, t)
    else none

/-- One byte of the CRC-32 of IEEE 802.3, reflected. -/
def crcByte (c : Nat) (b : Byte) : Nat :=
  (List.range 8).foldl (fun x _ => if x % 2 == 1 then (x / 2) ^^^ 0xEDB88320 else x / 2) (c ^^^ b.toNat)

/-- CRC-32 with initial value 0xFFFF_FFFF and final inversion (R103). -/
def crc32 (l : List Byte) : Nat := (l.foldl crcByte 0xFFFFFFFF) ^^^ 0xFFFFFFFF

/-- A little-endian field of a list of bytes. -/
def leField (l : List Byte) (at1 n : Nat) : Nat := leNat ((l.drop at1).take n)

/-- R103, R108: a figure header is right. -/
def headerOk (h : List Byte) : Bool :=
  leField h 0 2 == 0x9F1C && leField h 2 1 == 1 && leField h 3 1 == 0 && leField h 9 3 == 0
    && (h.drop 0x14).all (· == 0)

/-- The image of tile slots in 10,240 bytes (R101). -/
def imageSlot (img : List Byte) (t : Nat) : BitVec 320 := BitVec.ofNat 320 (leField img (40 * t) 40)

/-- R107, R108: what a library entry read as bytes with their P gives: a fault code with its tile, or the
header and image. -/
def entryCheck (s : State) (m : Nat) (l : List (Byte × Bool)) : Sum (Nat × Option Nat) (List Byte) :=
  let hd := l.take 64
  let bytes := l.map (·.1)
  if hd.any (·.2) then .inl (6, none)
  else if !headerOk (bytes.take 64) then .inl (4, none)
  else if l.any (·.2) then .inl (6, none)
  else if crc32 (bytes.drop 64) != leField bytes 0x0C 4 then .inl (5, none)
  else
    let slots := (List.range 256).map fun t => imageSlot (bytes.drop (64 + 0)) t
    match imageFault s m fun t => slots.getD t 0 with
    | some (c, t) => .inl (c, some t)
    | none => .inr bytes

/-- Writes the 256 tile slots of slot `i` (R101). -/
def writeImage (m i : Nat) (img : Nat → BitVec 320) (s : State) : State :=
  s.each 256 fun t u => u.setSlotBits m i t (img t)

/-- R108: after a fault of an accepted LOAD the slot holds unspecified bits: free values. -/
def scrambleSlot (m i : Nat) (s : State) : State :=
  let n := s.freeCtr
  writeImage m i (fun t => BitVec.ofNat 320 (Config.freeNat (n + t))) { s with freeCtr := n + 256 }

/-- R108, R126: FIGURE_FAULT. -/
def figureFault (m code : Nat) (tile : Option Nat) (s : State) : State :=
  let s1 := ((s.put (F.LD_STAT_FAULT m) 1).put (F.LD_STAT_CODE m) code).putB (F.LD_FAULT_TV m) tile.isSome
  (s1.when tile.isSome fun t => t.put (F.LD_FAULT_TILE m) (tile.getD 0)).irq (ldPage m) 1

/-- R108: the operation ends in a fault, and its slot stays invalid. -/
def loadFault (m code : Nat) (tile : Option Nat) (o : LoadOp) (s : State) : State :=
  figureFault m code tile (scrambleSlot m o.slot (setLoader m none (s.put (F.LD_STAT_BUSY m) 0)))

/-- R108: faults that abort as the data arrives: a wrong header, a poisoned word. -/
def loadCheck (m : Nat) (s : State) : State :=
  match loader s m with
  | some o =>
    let hd := o.got.get 0 []
    if o.wake then s
    else if !hd.isEmpty && !hd.any (·.2) && !headerOk (hd.map (·.1)) then loadFault m 4 none o s
    else s.when (o.got.any fun e => e.2.any (·.2)) (loadFault m 6 none o)
  | none => s

/-- R107, R108: a response brings block `k` of the entry, or an error, to operation `gen` of the loader; one of an
operation that has ended is dropped. -/
def loaderAnswer (m k gen : Nat) (err : Bool) (data : List (Byte × Bool)) (s : State) : State :=
  match loader s m with
  | some o =>
    if o.verify || !o.hbm || o.gen != gen || !(decide (k < o.next)) then s
    else if err then loadFault m 7 none o s
    else loadCheck m (setLoader m (some { o with got := o.got.set k data [] }) s)
  | none => s

/-- R107: slot `i` becomes valid from an entry at an address. -/
def slotLoaded (m i : Nat) (hbm : Bool) (addr : Nat) (bytes : List Byte) (s : State) : State :=
  let s1 := writeImage m i (imageSlot (bytes.drop 64)) s
  let s2 := s1.put (F.SLOT_VALID_BITS m) (s1.get (F.SLOT_VALID_BITS m) ||| 2 ^ i)
  let s3 := ((s2.put (F.SLOT_INFO_DRAIN m i) (leField bytes 8 1)).put (F.SLOT_ID_VALUE m i) (leField bytes 4 4))
  bmRefresh m ((s3.putB (F.SLOT_SRC_SRC m i) hbm).put (F.SLOT_SRC_ADDR m i) (addr / 64))

/-- Clears SLOT_VALID of slot `i`. -/
def slotInvalid (m i : Nat) (s : State) : State :=
  let v := s.get (F.SLOT_VALID_BITS m)
  bmRefresh m (s.put (F.SLOT_VALID_BITS m) (if v.testBit i then v - 2 ^ i else v))

/-- R107, R217: the 64-byte read of block `k` of an entry in HBM. -/
def loaderRead (s : State) (m : Nat) (o : LoadOp) : Packet :=
  let a := o.addr + 64 * o.next
  let c := (hbmMap s a).1
  { dst := hbmRouter c, dport := hbmPort c, src := m, sport := 4, vn := 1, typ := 0, addr := a, size := 63 }

/-- R107: reads of the loader that have had no response. -/
def loaderReads (s : State) (m : Nat) : Nat := ((s.outReqs m).filter fun r => match r.owner with
  | .loader _ _ _ => !r.expired
  | _ => false).length

/-- R107: the loader issues its next read of HBM, while it has fewer than 16 outstanding and finds a tag. -/
def loaderIssue (m : Nat) (s : State) : State :=
  match loader s m with
  | some o =>
    if !o.verify && o.hbm && decide (o.next < entryBlocks) && decide (loaderReads s m < 16) && (freeTag s m).isSome then
      niRequest (.loader m o.next o.gen) (loaderRead s m o) (setLoader m (some { o with next := o.next + 1 }) s)
    else s
  | none => s

/-- R107: up to 16 reads outstanding. -/
def loaderPump (m : Nat) (s : State) : State := (List.range 16).foldl (fun t _ => loaderIssue m t) s

/-- The bytes that a LOAD has read, in order of address. -/
def entryBytes (o : LoadOp) : List (Byte × Bool) := (List.range entryBlocks).flatMap fun k => o.got.get k []

/-- The fields of the tap bindings of a massif (R131, R169). -/
def bindFields (m : Nat) : List Fld :=
  (List.range 32).flatMap (sqBindFields m) ++ (List.range 4).flatMap fun p => [1, 2, 3].flatMap fun r => shpFields m p r

/-- R133: the state with the bindings that a LOAD found at its start. -/
def boundAsAtStart (m : Nat) (o : LoadOp) (s : State) : State :=
  ((bindFields m).zip o.binds).foldl (fun t (f, v) => t.put f v) s

/-- R106: the slot is active, or the target of a switch that has been triggered. -/
def slotBusy (s : State) (m i : Nat) : Bool :=
  s.get (F.SEQ_STAT_ACTIVE_SLOT m) == i || (s.massif m).switch.any fun w => w.slot == i

/-- R104–R107, R109: a write of LD_CTL. DONE and FAULT of earlier operations stay until software clears them (DESIGN
CHOICE, log 145). A LOAD that both R104 and R106 refuse reports SOURCE_ERROR (DESIGN CHOICE,
log 129). -/
def ldCtlWrite (m : Nat) (v : Word) (s : State) : State :=
  let fields := [F.LD_CTL_OP m, F.LD_CTL_SLOT m, F.LD_CTL_SRC m]
  if !v.getLsbD 0 then s.loadAll v fields
  else if s.flag (F.LD_STAT_BUSY m) then (s.put (F.LD_STAT_REFUSED m) 1).irq (ldPage m) 2
  else
    let s1 := s.loadAll v fields
    let op := s1.get (F.LD_CTL_OP m)
    let slot := s1.get (F.LD_CTL_SLOT m)
    let hbm := s1.flag (F.LD_CTL_SRC m)
    let addr := s1.get (F.LD_ADDR_LO_VALUE m) + (if hbm then 2 ^ 32 * s1.get (F.LD_ADDR_HI_VALUE m) else 0)
    if 2 ≤ op then figureFault m 4 none s1
    else if op == 1 then setLoader m (some { verify := true, slot := slot, hbm := false, addr := 0 }) (s1.put (F.LD_STAT_BUSY m) 1)
    else if addr % 64 != 0 || (if hbm then 2 ^ 35 else 2 ^ 20) < addr + 10304 then figureFault m 7 none s1
    else if slotBusy s1 m slot then figureFault m 8 none s1
    else
      let o : LoadOp := { verify := false, slot := slot, hbm := hbm, addr := addr, binds := (bindFields m).map s1.get, gen := s1.fab.loads }
      let s2 := { s1 with fab := { s1.fab with loads := s1.fab.loads + 1 } }
      loaderPump m (slotInvalid m slot (setLoader m (some o) (s2.put (F.LD_STAT_BUSY m) 1)))

/-- The whole entry has been read. -/
def entryRead (o : LoadOp) : Bool := (List.range entryBlocks).all fun k => !(o.got.get k []).isEmpty

/-- R107, R108: with the whole entry read, the LOAD of slot `i` in progress finishes its checks and reports. -/
def loadDone (m i : Nat) (s : State) : State :=
  match loader s m with
  | some o =>
    if o.verify || o.wake || o.slot != i || !entryRead o then s
    else match entryCheck (boundAsAtStart m o s) m (entryBytes o) with
      | .inl (c, t) => loadFault m c t o s
      | .inr bytes =>
        ((slotLoaded m o.slot o.hbm o.addr bytes (setLoader m none (s.put (F.LD_STAT_BUSY m) 0))).put
          (F.LD_STAT_DONE m) 1).irq (ldPage m) 0
  | none => s

/-! ### The shelf's cycle (R107, R165) -/

/-- R123: the loader, which is busy with it, starts the reload of the lowest slot still to be reloaded on wake. -/
def wakeLoad (m : Nat) (s : State) : State :=
  match (s.massif m).wakeSlots with
  | [] => s
  | i :: _ =>
    setLoader m (some { verify := false, slot := i, hbm := false, addr := 64 * s.get (F.SLOT_SRC_ADDR m i),
                        binds := (bindFields m).map s.get, wake := true }) (s.put (F.LD_STAT_BUSY m) 1)

/-- R123: with the whole entry of a wake's reload read, the slot is valid, or stays invalid where the entry faults; the
next reload starts. -/
def wakeSlotDone (m : Nat) (s : State) : State :=
  match loader s m with
  | some o =>
    if !o.wake || !entryRead o then s
    else
      let s1 := setLoader m none (s.put (F.LD_STAT_BUSY m) 0)
      let s2 := conflictRefresh m (match entryCheck (boundAsAtStart m o s) m (entryBytes o) with
        | .inl _ => scrambleSlot m o.slot s1
        | .inr bytes => slotLoaded m o.slot false o.addr bytes s1)
      wakeLoad m (s2.setMassif m { s2.massif m with wakeSlots := (s2.massif m).wakeSlots.drop 1 })
  | none => s

/-- R165: a bank of the shelf is granted; a block that the loader has read is checked as it arrives. -/
def shelfCycle (m bank : Nat) (s : State) : State := wakeSlotDone m (loadCheck m (shelfGrant m bank s))

/-! ### Slot parity at run time (R111) -/

/-- R111: the active slot of tile `t` fails its parity. With PARITY_ACT = 1 a cycle with a failure counts once. -/
def slotParityFail (m t : Nat) (s : State) : State :=
  let act := s.get (F.SEQ_STAT_ACTIVE_SLOT m)
  let s1 := s.put (F.ERR_ADDR_HI_VALUE (seqPage m)) act
  if s.flag (F.SEQ_CTL_PARITY_ACT m) then
    let s2 := (s1.setIrq (F.MASSIF_STAT_SLOT_PARITY m) (seqPage m) 2).put (F.ERR_ADDR_LO_VALUE (seqPage m)) (m * 256 + t)
    s2.when ((s2.massif m).parityAt != some s.cycle) fun u =>
      (u.count (F.ERR_CNT_VALUE (seqPage m)) 1).setMassif m { u.massif m with parityAt := some s.cycle }
  else massifStop m (F.MASSIF_STAT_SLOT_PARITY m) t s1

/-- R111: an upset flips a bit of tile `t`'s active slot (none: a further cycle of the same failure), and the
tile's check finds the slot wrong. -/
def slotParityError (m t : Nat) (flip : Option Nat) (s : State) : State :=
  let act := s.get (F.SEQ_STAT_ACTIVE_SLOT m)
  let v := s.slotBits m act t
  let v1 := match flip with
    | some b => v ^^^ (1#320 <<< b)
    | none => v
  let s1 := conflictRefresh m (bmRefresh m (s.setSlotBits m act t v1))
  if slotParityOk v1 || !clocked s m then s1 else slotParityFail m t s1

/-- R109: VERIFY ends. -/
def verifyDone (m : Nat) (s : State) : State :=
  match loader s m with
  | some o =>
    if !o.verify then s
    else
      let s0 := setLoader m none (s.put (F.LD_STAT_BUSY m) 0)
      match (List.range 256).find? fun t => !slotParityOk (s0.slotBits m o.slot t) with
      | none => (s0.put (F.LD_STAT_DONE m) 1).irq (ldPage m) 0
      | some t =>
        let s1 := figureFault m 9 (some t) s0
        if s.get (F.SEQ_STAT_ACTIVE_SLOT m) == o.slot then slotParityFail m t s1 else slotInvalid m o.slot s1
  | none => s

/-! ### Steps (R116, R117) -/

def stepBits (v : Dword) (lo w : Nat) : Nat := bitsOf v.toNat lo w
def stepArg (v : Dword) (lo w : Nat) : Nat := bitsOf v.toNat (32 + lo) w
def stepNosw (v : Dword) : Bool := v.getLsbD 5
def stepTrig (v : Dword) : Nat := stepBits v 12 3

/-- Step `i` of the table. -/
def stepEntry (s : State) (m i : Nat) : Dword :=
  BitVec.ofNat 64 (s.get (F.STEP_LO_VALUE m i) + 2 ^ 32 * s.get (F.STEP_HI_VALUE m i))

/-- R117: a step that halts the sequencer when it becomes current. -/
def badStep (v : Dword) : Bool :=
  stepBits v 18 14 != 0 || match stepTrig v with
    | 0 => stepArg v 19 13 != 0
    | 1 => false
    | 2 => stepArg v 5 2 == 3 || stepArg v 7 9 != 0
    | 3 => stepArg v 0 32 != 0
    | 4 => stepArg v 11 21 != 0
    | _ => true

/-- R116: a beat record satisfies a BEAT step. -/
def beatSatisfies (v : Dword) (b : BeatRec) : Bool :=
  stepTrig v == 0 && b.ch == stepArg v 0 6 && b.seq % (stepArg v 11 4 + 1) == stepArg v 15 4
    && (stepArg v 10 1 == 0 || b.act == stepArg v 6 4)

/-! ### Switches and steps (R112–R119) -/

/-- The sequencer's logic runs: its massif is powered and not held. -/
def seqUp (s : State) (m : Nat) : Bool :=
  let x := s.massif m
  !s.loadHold && s.get (F.PWR_STAT_STATE m) < 3 && !x.held && !x.clockHold && !x.resetHold

/-- The step in SEQ_STAT.STEP becomes current in the cycle of TB = `at0` (R116–R118; massif cycles are TB cycles,
log 126). `after`: a step before it has had its trigger. -/
def seqLatch (m at0 : Nat) (after : Bool) (s : State) : State :=
  let v := stepEntry s m (s.get (F.SEQ_STAT_STEP m))
  let s1 := s.setMassif m { s.massif m with step := v, curAt := some (at0, after) }
  if badStep v then seqHalt m 6 s1 else s1

/-- R115–R117: the current step's trigger has fired: a switch begins, unless its slot is not valid. -/
def seqSwitch (m : Nat) (v : Dword) (s : State) : State :=
  let slot := stepBits v 0 4
  if !(s.get (F.SLOT_VALID_BITS m)).testBit slot then seqHalt m 3 s
  else
    let clean := stepBits v 4 1 == 1
    let bnd := clean && stepBits v 17 1 == 1
    (s.setMassif m { s.massif m with switch := some ⟨slot, false, clean, bnd, clean && !bnd⟩ }).put
      (F.SEQ_STAT_SWITCHING m) 1

/-- R116, R118: the step is done: NEXT is shown, IRQ raised, and the sequencer halts or goes on to it, at the switch
edge or, after a step with NOSW = 1, in the next cycle. Where both the step's HALT and RUN = 0 halt it, HALT_CAUSE is
that of the step (DESIGN CHOICE, log 145). -/
def seqNext (m : Nat) (v : Dword) (s : State) : State :=
  let s1 := (s.put (F.SEQ_STAT_STEP m) (stepBits v 6 6)).when (stepBits v 16 1 == 1) fun t => t.irq (seqPage m) 0
  if stepBits v 15 1 == 1 then seqHalt m 2 s1
  else if !s1.flag (F.SEQ_CTL_RUN m) then seqHalt m 1 s1
  else seqLatch m (s.cycle + b2n (stepNosw v)) true s1

/-- SEQ_LASTBEAT (R126). -/
def lastBeat (m : Nat) (b : BeatRec) (s : State) : State :=
  (s.put (F.SEQ_LASTBEAT_SEQ m) b.seq).put (F.SEQ_LASTBEAT_CH m) b.ch

/-- R118: the cycle in which the step became current is past, and the step is evaluated. -/
def seqEvaluated (s : State) (m : Nat) : Bool :=
  match (s.massif m).curAt with
  | some (t, _) => decide (t < s.cycle)
  | none => true

/-- R119: in the cycle after the switch edge, the held beat satisfies the step that became current there. -/
def seqHeld (m : Nat) (s : State) : State :=
  let x := s.massif m
  match (if s.flag (F.SEQ_STAT_RUNNING m) && seqUp s m && x.switch.isNone && seqEvaluated s m then x.heldBeat else none) with
  | none => s
  | some b =>
    let s1 := (s.setMassif m { x with heldBeat := none }).put (F.SEQ_STAT_PENDING m) 0
    if !beatSatisfies x.step b then s1.when x.overrun (seqHalt m 4)
    else
      let s2 := lastBeat m b s1
      if stepNosw x.step then
        let s3 := seqNext m x.step s2
        if x.overrun && s3.flag (F.SEQ_STAT_RUNNING m) then seqHalt m 4 s3 else s3
      else seqSwitch m x.step s2

/-- R116–R119: a step has taken effect. An overrun halts once the held beat's own step has. -/
def seqAdvance (m : Nat) (v : Dword) (s : State) : State :=
  let x := s.massif m
  let s1 := seqNext m v s
  if x.overrun && x.heldBeat.isNone && s1.flag (F.SEQ_STAT_RUNNING m) then seqHalt m 4 s1 else s1

/-- The current step's trigger fires. -/
def seqTrigger (m : Nat) (s : State) : State :=
  let v := (s.massif m).step
  if stepNosw v then seqAdvance m v s else seqSwitch m v s

/-- The sequencer evaluates its current step, whose trigger is `trig` (R118). A step made current while a FORCE
switch is in progress waits for that switch's edge (DESIGN CHOICE, log 130). -/
def seqWaits (s : State) (m trig : Nat) : Bool :=
  s.flag (F.SEQ_STAT_RUNNING m) && seqUp s m && (s.massif m).switch.isNone && seqEvaluated s m
    && stepTrig (s.massif m).step == trig

/-- R119: the step that a beat of this cycle would be held for: the next one while a step's switch is in progress,
and the current one in the cycle in which a step before it made it current. -/
def stepAwaited (s : State) (m : Nat) : Option Dword :=
  let x := s.massif m
  if !(s.flag (F.SEQ_STAT_RUNNING m) && seqUp s m) then none
  else match x.switch with
    | some w => if w.forced then none else some (stepEntry s m (stepBits x.step 6 6))
    | none => match x.curAt with
      | some (_, true) => if seqEvaluated s m then none else some x.step
      | _ => none

/-- R119: a beat that satisfies the step awaited is held; a second one overruns. -/
def beatHold (m : Nat) (b : BeatRec) (s : State) : State :=
  let x := s.massif m
  match stepAwaited s m with
  | some v =>
    if !beatSatisfies v b then s
    else if x.heldBeat.isNone then
      if x.overrun then s else (s.setMassif m { x with heldBeat := some b }).put (F.SEQ_STAT_PENDING m) 1
    else (s.setMassif m { x with overrun := true }).count (F.SEQ_MISS_VALUE m) 1
  | none => s

/-- R118, R119: a massif acts on a beat. -/
def beatAct (m : Nat) (b : BeatRec) (s : State) : State :=
  if seqWaits s m 0 then
    if beatSatisfies (s.massif m).step b then seqTrigger m (lastBeat m b s) else s
  else beatHold m b s

/-- R116: N + 1 cycles have passed since a COUNT step became current (the cycles are not counted, log 3). -/
def countTrigger (m : Nat) (s : State) : State := s.when (seqWaits s m 1) (seqTrigger m)

/-- R116: the condition of a QUEUE step. -/
def queueCond (s : State) (m : Nat) (v : Dword) : Bool :=
  let q := stepArg v 0 5
  match stepArg v 5 2 with
  | 0 => stepArg v 16 16 ≤ s.get (F.SQ_PKT_COUNT m q)
  | 1 => (unread s m q).isEmpty
  | _ => s.flag (F.SQ_STAT_TAIL_TIMEOUT m q)

def queueTrigger (m : Nat) (s : State) : State :=
  s.when (seqWaits s m 2 && queueCond s m (s.massif m).step) (seqTrigger m)

/-- R116, R120: a FLAG step reads its cell; a poisoned output stops the massif. -/
def flagTrigger (m : Nat) (s : State) : State :=
  let v := (s.massif m).step
  let t := stepArg v 0 8
  let o := ((cellOutputs s m t)[stepArg v 8 2]?).getD {}
  if !seqWaits s m 4 then s
  else if o.p then controlPoison m t s
  else s.when (b2n o.v == stepArg v 10 1) (seqTrigger m)

/-- R118: GO. -/
def seqGo (m : Nat) (s : State) : State :=
  if seqWaits s m 3 then seqTrigger m s else s.put (F.SEQ_STAT_GO_IGNORED m) 1

/-- R121: FORCE. -/
def seqForce (m slot : Nat) (clean : Bool) (s : State) : State :=
  if s.flag (F.SEQ_STAT_RUNNING m) || (s.massif m).switch.isSome || !(s.get (F.SLOT_VALID_BITS m)).testBit slot then
    s.put (F.SEQ_STAT_FORCE_REFUSED m) 1
  else (s.setMassif m { s.massif m with switch := some ⟨slot, true, clean, false, clean⟩ }).put
    (F.SEQ_STAT_SWITCHING m) 1

/-- A write of SEQ_CMD (R118, R121); GO is acted on before FORCE (DESIGN CHOICE, log 131). -/
def seqCmdWrite (m : Nat) (v : Word) (s : State) : State :=
  let s1 := s.when (v.getLsbD 0) (seqGo m)
  s1.when (v.getLsbD 1) (seqForce m (bitsOf v.toNat 2 4) (v.getLsbD 6))

/-- R118: the sequencer starts at SEQ_STAT.STEP. -/
def seqStart (m : Nat) (s : State) : State :=
  let s1 := s.setMassif m { s.massif m with heldBeat := none, overrun := false }
  seqLatch m (s.cycle + 1) false ((s1.put (F.SEQ_STAT_RUNNING m) 1).put (F.SEQ_STAT_HALT_CAUSE m) 0)

/-- R118, R121: a write of SEQ_CTL. RUN = 1 written before the halt of an earlier RUN = 0 has come, which a switch
delays, finds the sequencer running and leaves it so (DESIGN CHOICE, log 132). -/
def seqCtlWrite (m : Nat) (v : Word) (s : State) : State :=
  let s1 := s.loadAll v [F.SEQ_CTL_RUN m, F.SEQ_CTL_INIT_STEP m, F.SEQ_CTL_INIT_SLOT m, F.SEQ_CTL_PARITY_ACT m]
  if v.getLsbD 0 then
    if s.flag (F.SEQ_STAT_RUNNING m) then s1
    else if s.flag (F.MASSIF_STAT_STOPPED m) then s1.put (F.SEQ_STAT_HALT_CAUSE m) 5
    else seqStart m s1
  else if !s.flag (F.SEQ_STAT_RUNNING m) then s1
  else if (s.massif m).switch.isSome then
    (s1.setMassif m { s1.massif m with heldBeat := none, overrun := false }).put (F.SEQ_STAT_PENDING m) 0
  else seqHalt m 1 s1

/-- R115: the last open input has reached its packet boundary. -/
def cleanHold (m : Nat) (s : State) : State :=
  let x := s.massif m
  match x.switch with
  | some sw =>
    if sw.clean && sw.boundary && !sw.held && x.midPacket.isEmpty && seqUp s m then
      s.setMassif m { x with switch := some { sw with held := true } }
    else s
  | none => s

/-- R115: the boundary wait reaches its limit. -/
def boundaryTimeout (m : Nat) (s : State) : State :=
  let x := s.massif m
  match x.switch with
  | some sw =>
    if sw.clean && sw.boundary && !sw.held && !x.midPacket.isEmpty && seqUp s m then
      (s.setMassif m { x with switch := some { sw with held := true } }).put (F.SEQ_STAT_BTIMEOUT m) 1
    else s
  | none => s

/-- Words that a firing would have placed in an output buffer (R112). -/
def boundWords (s : State) (m t : Nat) (f : Firing) : Nat :=
  let v := s.active m t
  b2n (boundX (slotOp v t) v f) + b2n (boundY (slotOp v t) (tileAspect s m t v) v f)

/-- R112: words of tile `t` that a switch edge discards. -/
def tileWords (s : State) (m t : Nat) : Nat :=
  let x := s.tile m t
  b2n x.fa.isSome + b2n x.fb.isSome + b2n x.fc.isSome + (x.pipe.map (boundWords s m t)).foldl (· + ·) 0

/-- R112: the oldest firing of a tile completes at the edge: what it writes besides the buffers is kept. -/
def completeAtEdge (m t : Nat) (s : State) : State :=
  match (s.tile m t).pipe with
  | f :: _ => if f.marker.isSome || !f.pred then s else (complete m t (s.active m t) f s).2
  | [] => s

/-- Empties ports and pipeline of tile `t`. -/
def tileFlush (m t : Nat) (s : State) : State :=
  s.setTile m t { s.tile m t with fa := none, fb := none, fc := none, pipe := [] }

/-- Empties every segment, loop-back stage and output buffer of a massif. -/
def segsFlush (m : Nat) (s : State) : State :=
  { s with fab := { s.fab with segs := s.fab.segs.clear fun k => k / 8192 == m } }

/-- A word still held by an inbound col queue or feed queue is offered afresh to the new figure (DESIGN
CHOICE, log 35). -/
def inputsFresh (m : Nat) (s : State) : State :=
  { s with fab := { s.fab with
      cols := s.fab.cols.map fun e => if e.1 / 256 == m then (e.1, { e.2 with taken := [] }) else e
      feeds := s.fab.feeds.map fun e => if feedMassif (e.1 / 8) == m then (e.1, { e.2 with taken := [] }) else e } }

/-- R112: the switch edge. `last`: the tiles whose oldest firing completes at the edge. -/
def switchEdge (m : Nat) (last : List Nat) (s : State) : State :=
  let x := s.massif m
  match (if seqUp s m then x.switch else none) with
  | none => s
  | some sw =>
    if sw.clean && !sw.held then s
    else
      let n := (List.range 256).foldl (fun acc t => acc + tileWords s m t) 0
        + (s.fab.segs.filter fun e => e.1 / 8192 == m).foldl (fun acc e => acc + e.2.words.length) 0
      let s1 := s.each 256 fun t u => tileFlush m t (u.when (last.contains t) (completeAtEdge m t))
      let s2 := inputsFresh m ((segsFlush m s1).count (F.SEQ_DISCARD_VALUE m) n)
      let s3 := s2.setMassif m { s2.massif m with switch := none, midPacket := [] }
      let s4 := ((s3.put (F.SEQ_STAT_SWITCHING m) 0).put (F.SEQ_STAT_ACTIVE_SLOT m) sw.slot).put
        (F.SEQ_SWCNT_VALUE m) (s.get (F.SEQ_SWCNT_VALUE m) + 1)
      let s5 := conflictRefresh m (bmRefresh m s4)
      if !sw.forced then seqAdvance m x.step s5
      else s5.when (s5.flag (F.SEQ_STAT_RUNNING m) && !s5.flag (F.SEQ_CTL_RUN m)) (seqHalt m 1)

/-! ### Waking on a beat (R40, R123) -/

/-- R40: a record reaches a gated massif whose running sequencer waits on its channel. -/
def beatWake (m : Nat) (b : BeatRec) (s : State) : State :=
  let x := s.massif m
  if s.get (F.PWR_STAT_STATE m) == 3 && s.flag (F.SEQ_STAT_RUNNING m) && stepTrig x.step == 0 && b.ch == stepArg x.step 0 6 then
    wakeStart m (s.setMassif m { x with wakeBeat := some b })
  else s

/-! ### The meanings -/

def execSlotParityError (m : Fin 64) (t : Fin 256) (flip : Option (Fin 320)) (s : State) : Result :=
  .next (slotParityError m t (flip.map fun b => b.val) s)
/-- `v` is the word written to LD_CTL, with GO set and OP = LOAD. -/
def execLoad (m : Fin 64) (v : Word) (s : State) : Result := .next (ldCtlWrite m ((v &&& ~~~6) ||| 1) s)
def execLoadDone (m : Fin 64) (slot : Fin 16) (s : State) : Result := .next (loadDone m slot s)
def execShelfGrant (m : Fin 64) (bank : Fin 16) (s : State) : Result := .next (shelfCycle m bank s)
/-- `v` is the word written to LD_CTL, with GO set and OP = VERIFY. -/
def execVerify (m : Fin 64) (v : Word) (s : State) : Result := .next (ldCtlWrite m ((v &&& ~~~6) ||| 3) s)
def execVerifyDone (m : Fin 64) (s : State) : Result := .next (verifyDone m s)
def execCountTrigger (m : Fin 64) (s : State) : Result := .next (countTrigger m s)
def execQueueTrigger (m : Fin 64) (s : State) : Result := .next (queueTrigger m s)
def execFlagTrigger (m : Fin 64) (s : State) : Result := .next (flagTrigger m s)
def execGo (m : Fin 64) (s : State) : Result := .next (seqGo m s)
def execCleanSwitchHold (m : Fin 64) (s : State) : Result := .next (cleanHold m s)
def execBoundaryTimeout (m : Fin 64) (s : State) : Result := .next (boundaryTimeout m s)
def execSwitchEdge (m : Fin 64) (last : List (Fin 256)) (s : State) : Result :=
  .next (switchEdge m (last.map (·.val)) s)
/-- `v` is the word written to SEQ_CTL, with RUN set. -/
def execSeqRun (m : Fin 64) (v : Word) (s : State) : Result := .next (seqCtlWrite m (v ||| 1) s)
/-- `v` is the word written to SEQ_CTL, with RUN clear. -/
def execSeqHalt (m : Fin 64) (v : Word) (s : State) : Result := .next (seqCtlWrite m (v &&& ~~~1) s)
def execForce (m : Fin 64) (slot : Fin 16) (clean : Bool) (s : State) : Result := .next (seqForce m slot clean s)

end Sys2Proof.Machine
end

