-- ==== Sys2Proof/Machine/Position.lean ====
section
/-! DEFINITION. The position block: encoder channels, beat channels, the beat tree's entry and the
beat outputs (R19–R48, R499), with the publication of beats over Tempo (R269, R270). -/

namespace Sys2Proof.Machine

open Sys2Proof

/-- Base of the encoder page. -/
abbrev encPage : Nat := 0x00101000
/-- Base of the beat channel page. -/
abbrev bcPage : Nat := 0x00102000
/-- Base of the beat output page. -/
abbrev boPage : Nat := 0x00103000

namespace State

def enc (s : State) (n : Nat) : EncCh := s.pos.enc.get n {}
def setEnc (s : State) (n : Nat) (e : EncCh) : State :=
  { s with pos := { s.pos with enc := s.pos.enc.set n e {} } }
def bc (s : State) (c : Nat) : BeatCh := s.pos.bc.get c {}
def setBc (s : State) (c : Nat) (b : BeatCh) : State :=
  { s with pos := { s.pos with bc := s.pos.bc.set c b {} } }
def bo (s : State) (o : Nat) : BeatOut := s.pos.bo.get o {}
def setBo (s : State) (o : Nat) (b : BeatOut) : State :=
  { s with pos := { s.pos with bo := s.pos.bo.set o b {} } }

/-- Position of encoder channel `n` (R26). -/
def encPos (s : State) (n : Nat) : Pos48 :=
  BitVec.ofNat 48 (s.get2 (F.ENC_POS_LO_VALUE n) (F.ENC_POS_HI_VALUE n))
def setEncPos (s : State) (n : Nat) (p : Pos48) : State :=
  s.put2 (F.ENC_POS_LO_VALUE n) (F.ENC_POS_HI_VALUE n) p.toNat
def encPreset (s : State) (n : Nat) : Pos48 :=
  BitVec.ofNat 48 (s.get2 (F.ENC_PRESET_LO_VALUE n) (F.ENC_PRESET_HI_VALUE n))

/-- Encoder channel `n` follows a Tempo position channel (R266). -/
def follows (s : State) (n : Nat) : Bool := s.flag (F.TMP_FOLLOW_EN n)

/-- TB in 1/8 ns. -/
def tb8 (s : State) : Nat := 8 * s.tb.toNat

end State

/-- R26: `a` has reached `b` counting forward, by the sign of the 48-bit difference. -/
def reached (a b : Pos48) : Bool := !(a - b).msb

/-! ### Beat outputs (R41–R45) -/

/-- T_OUT, 15.25 ns, in 1/8 ns (R42). -/
def tOut8 : Nat := 122

/-- Inserts an instant in ascending order. -/
def insertEdge : List Nat → Nat → List Nat
  | [], e => [e]
  | a :: l, e => if e < a then e :: a :: l else a :: insertEdge l e

/-- R41: output `o` fires on a beat of channel `c` with `seq` and `act`. -/
def boFires (s : State) (o c seq act : Nat) : Bool :=
  s.flag (F.BO_CTL_EN o) && s.get (F.BO_CTL_SRC o) == c
    && seq % (s.get (F.BO_CTL_DIV o) + 1) == s.get (F.BO_CTL_PHASE o)
    && (!s.flag (F.BO_CTL_ACTEN o) || act == s.get (F.BO_CTL_ACTVAL o))

/-- R42, R44: the instant of the edge of a beat due at `due8` and emitted now. -/
def boEdgeAt (s : State) (o due8 : Nat) : Nat :=
  max due8 s.tb8 + 8 * s.get (F.BO_DLY_DELAY o) + s.get (F.BO_DLY_FINE o) + tOut8

/-- R43, R44: output `o` takes a firing; a fifth one still to come is dropped and counted. -/
def boFire (o due8 : Nat) (s : State) : State :=
  let b := s.bo o
  if b.edges.length < 4 then
    (s.setBo o { b with edges := insertEdge b.edges (boEdgeAt s o due8) }).when
      (decide (due8 < s.tb8)) fun t => t.put (F.BO_STAT_LATE o) 1
  else (s.count (F.BO_STAT_OVERRUN o) 1).irq boPage 0

/-- R476: the I/O bank of output `o` has its supply. -/
def boBank (s : State) (o : Nat) : Bool := !s.power.banksOff.contains (4 + o / 32)
/-- R476: the I/O bank of encoder `n` has its supply. -/
def encBank (s : State) (n : Nat) : Bool := !s.power.banksOff.contains (2 + n / 8)

/-- R45, R476: the pin of output `o` is high-impedance. -/
def boHighZ (s : State) (o : Nat) : Bool := !s.flag (F.BO_CTL_OE o) || s.pairQuiet || s.loadHold || !boBank s o

/-- R20, R416: the weak pull-down of a beat output is on: in the load hold, where IO_CFG.LOADPD_BO asks for it. -/
def boPull (s : State) : Bool := s.loadHold && s.flag F.IO_CFG_LOADPD_BO

/-- R416: the weak pull-down of the general-purpose I/O balls, which are high-impedance in every state. -/
def gpioPull (s : State) : Bool := s.loadHold && s.flag F.IO_CFG_LOADPD_GPIO

/-- Level at the pin of output `o` (BO_STAT.PIN), 0 where its bank has no supply (R476); what a board does to a pin the
device does not drive is no part of the device (`Config.padLevel`). -/
def boPin (s : State) (o : Nat) : Bool :=
  if !boBank s o then false
  else if boHighZ s o then Config.padLevel o (boPull s) s.tb.toNat
  else
    let active := s.flag (F.BO_CTL_EN o) &&
      (if s.get (F.BO_CTL_MODE o) == 1 then (s.bo o).toggle else (s.bo o).pulseEnd.isSome)
    active != s.flag (F.BO_CTL_POL o)

/-- The earliest edge of output `o`, when its instant falls in the present TBCLK cycle or has passed,
within the ±0.25 ns of T_OUT. -/
def boEdgeDue (s : State) (o : Nat) : Option Nat :=
  match (s.bo o).edges with
  | e :: _ => if e < s.tb8 + 10 then some e else none
  | [] => none

/-- R42, R43: the edge is driven: a pulse starts or is prolonged, a toggle output changes state. -/
def boEdge (o : Nat) (s : State) : State :=
  match boEdgeDue s o with
  | none => s
  | some e =>
    let b := { s.bo o with edges := (s.bo o).edges.tail }
    if s.get (F.BO_CTL_MODE o) == 1 then s.setBo o { b with toggle := !b.toggle }
    else
      let at8 := max e s.tb8
      let end8 := at8 + 8 * max (s.get (F.BO_WID_WIDTH o)) 4
      match b.pulseEnd with
      | some pe =>
        (s.setBo o { b with pulseEnd := some (max pe end8) }).when (decide (at8 < pe))
          fun t => t.put (F.BO_STAT_MERGE o) 1
      | none => s.setBo o { b with pulseEnd := some end8 }

/-- R43: the pulse of output `o` ends. -/
def boPulseEnd (o : Nat) (s : State) : State :=
  match (s.bo o).pulseEnd with
  | some pe => if pe < s.tb8 + 10 then s.setBo o { s.bo o with pulseEnd := none } else s
  | none => s

/-- The fields of BO_CTL. -/
def boCtlFields (o : Nat) : List Fld :=
  [F.BO_CTL_EN o, F.BO_CTL_OE o, F.BO_CTL_POL o, F.BO_CTL_MODE o, F.BO_CTL_SRC o, F.BO_CTL_DIV o,
   F.BO_CTL_PHASE o, F.BO_CTL_ACTVAL o, F.BO_CTL_ACTEN o]

/-- R45: a write of BO_CTL. EN 1 to 0 returns the toggle state to 0 and discards held firings. -/
def boCtlWrite (o : Nat) (v : Word) (s : State) : State :=
  let s' := s.loadAll v (boCtlFields o)
  if s.flag (F.BO_CTL_EN o) && !s'.flag (F.BO_CTL_EN o) then s'.setBo o {} else s'

/-! ### Tempo links, as far as publication needs them (R256, R259, R273) -/

/-- Port `p` runs as a tap port: the lowest-numbered one with TAP set, in v2 mode (R256). -/
def isTap (s : State) (p : Nat) : Bool :=
  let tap := fun q => s.flag (F.TP_CTL_EN q) && s.flag (F.TP_CTL_TAP q) && !s.flag (F.TP_CTL_MODE q)
  tap p && (List.range p).all (fun q => !tap q)

/-- The device is a tap (R256). -/
def isTapDevice (s : State) : Bool := (List.range 4).any (isTap s)

/-- Port `p` runs as a feed port (R256): FEED without TAP, v2 mode, of a LOCKED or ROOT device; a tap holds its other
ports off. -/
def isFeed (s : State) (p : Nat) : Bool :=
  s.flag (F.TP_CTL_EN p) && s.flag (F.TP_CTL_FEED p) && !s.flag (F.TP_CTL_TAP p)
    && !s.flag (F.TP_CTL_MODE p) && !isTapDevice s
    && (s.get F.TMP_STAT_STATE == 2 || s.get F.TMP_STAT_STATE == 4)

/-- A v1 port carries only SYNC, DREQ, DRESP and BEAT from an ORIGIN below 1,024 (R273). -/
def v1Carries : TempoFrame → Bool
  | .sync .. => true
  | .dreq .. => true
  | .dresp .. => true
  | .beat origin .. => decide (origin < 1024)
  | _ => false

/-- A timestamp as a v1 port carries it: whole ns, 48 bits (R273). -/
def v1Stamp (t : Time70) : Time70 := BitVec.ofNat 70 (64 * (t.toNat / 64 % 2 ^ 48))

/-- What a v1 port sends of a frame: the fraction is sent as zero (R273). -/
def v1Form : TempoFrame → TempoFrame
  | .beat origin ch act _ seq pos time => .beat origin ch act 0 seq pos time
  | .sync ts seq => .sync (v1Stamp ts) seq
  | .dreq seq t1 => .dreq seq (v1Stamp t1)
  | .dresp seq t2 t3 => .dresp seq (v1Stamp t2) (v1Stamp t3)
  | f => f

/-! The wire form of v2 frames (R257, R258). -/

/-- TYPE of a frame. -/
def frameType : TempoFrame → Nat
  | .announce .. => 1
  | .sync .. => 2
  | .dreq .. => 3
  | .dresp .. => 4
  | .pos .. => 5
  | .beat .. => 6
  | .sched .. => 7
  | .ctrl .. => 8

/-- A time with nine bytes: TB[63:0], then the fraction. -/
def stampBytes (t : Time70) : List Byte := leBytes 8 (t.toNat / 64) ++ leBytes 1 (t.toNat % 64)

/-- Payload bytes of a frame, its fields in order. -/
def framePayload : TempoFrame → List Byte
  | .announce id rootId rootPri parent locked depth rootSeq lead =>
    leBytes 2 id ++ leBytes 2 rootId ++ leBytes 1 (rootPri + 16 * b2n parent + 32 * b2n locked) ++ leBytes 1 depth
      ++ leBytes 1 rootSeq ++ leBytes 4 lead
  | .sync ts seq => stampBytes ts ++ leBytes 2 seq
  | .dreq seq t1 => leBytes 2 seq ++ stampBytes t1
  | .dresp seq t2 t3 => leBytes 2 seq ++ stampBytes t2 ++ stampBytes t3
  | .pos origin tpc loadSeq pn tn vel ts =>
    leBytes 2 origin ++ leBytes 1 tpc ++ leBytes 1 loadSeq ++ leBytes 6 pn.toNat ++ leBytes 6 tn ++ leBytes 4 vel.toNat
      ++ leBytes 6 ts
  | .beat origin ch act tfrac seq pos time =>
    leBytes 2 origin ++ leBytes 1 ch ++ leBytes 1 (act + 16 * tfrac) ++ leBytes 2 seq ++ leBytes 6 pos.toNat ++ leBytes 6 time
  | .sched origin tsq byTime act value =>
    leBytes 2 origin ++ leBytes 1 tsq ++ leBytes 1 (b2n byTime + 16 * act) ++ leBytes 8 value.toNat
  | .ctrl origin code arg => leBytes 2 origin ++ leBytes 1 code ++ leBytes 8 arg.toNat

/-- One byte of the CRC-16 with polynomial 0x1021. -/
def crc16Byte (c : Nat) (b : Byte) : Nat :=
  (List.range 8).foldl (fun x _ => if 0x8000 ≤ x then ((2 * x) % 65536) ^^^ 0x1021 else 2 * x) (c ^^^ (256 * b.toNat))

/-- R257: the CRC-16 over TYPE and payload. -/
def crc16 (l : List Byte) : Nat := l.foldl crc16Byte 0xFFFF

/-- A frame between its SOF and EOF symbols. -/
def frameWire (f : TempoFrame) : List Byte :=
  let body := leBytes 1 (frameType f) ++ framePayload f
  body ++ leBytes 2 (crc16 body)

/-- R258: payload length of a TYPE. -/
def payloadLen (typ : Nat) : Option Nat :=
  match typ with
  | 1 | 2 | 3 | 8 => some 11
  | 4 => some 20
  | 5 => some 26
  | 6 => some 18
  | 7 => some 12
  | _ => none

/-- R257: what stands between SOF and EOF is a frame: a known TYPE, its length and a right CRC. -/
def frameOk (b : List Byte) : Bool :=
  match b with
  | [] => false
  | t :: rest => match payloadLen t.toNat with
    | some n => rest.length == n + 2 && crc16 (t :: rest.take n) == leNat (rest.drop n)
    | none => false

/-! Sending (R259, R260). -/

namespace State

def tport (s : State) (p : Nat) : TempoPort := s.tempo.port.get p {}
def setTport (s : State) (p : Nat) (t : TempoPort) : State :=
  { s with tempo := { s.tempo with port := s.tempo.port.set p t {} } }

end State

/-- R259: the send priority of a frame, 0 first. -/
def sendClass : TempoFrame → Nat
  | .sync .. | .dreq .. | .dresp .. => 0
  | .sched .. => 1
  | .beat .. => 2
  | .pos .. => 3
  | .ctrl .. => 4
  | .announce .. => 5

/-- R259: the waiting frame that a port sends next: the oldest of the first priority. -/
def nextFrame (l : List TempoFrame) : Option TempoFrame :=
  (List.range 6).findSome? fun k => l.find? fun f => sendClass f == k

/-- R260: the timestamp of a frame's own SOF is inserted as it is sent; its fraction is the one it carries. -/
def stampFrame (s : State) (f : TempoFrame) : TempoFrame :=
  let now := fun (t : Time70) => (BitVec.ofNat 70 (64 * s.tb.toNat + t.toNat % 64) : Time70)
  match f with
  | .sync ts seq => .sync (now ts) seq
  | .dreq seq t1 => .dreq seq (now t1)
  | .dresp seq t2 t3 => .dresp seq t2 (now t3)
  | g => g

/-- TBCLK cycles that a frame takes: 8 ns for each byte with SOF and EOF on a v2 link (R258), twice that at the bit rate
of a v1 link, whose frames are taken to be as long (DESIGN CHOICE, log 135). -/
def frameTime (v1 : Bool) (f : TempoFrame) : Nat := (if v1 then 16 else 8) * ((frameWire f).length + 2)

/-- R259: a port that is not sending starts its next waiting frame. -/
def tempoPump (p : Nat) (s : State) : State :=
  let t := s.tport p
  match (if t.busy == 0 then nextFrame t.waiting else none) with
  | none => s
  | some f =>
    let v1 := s.flag (F.TP_CTL_MODE p)
    let g := stampFrame s f
    let t1 := { t with waiting := t.waiting.erase f, busy := frameTime v1 g }
    (s.setTport p (match g with
      | .dreq seq at0 => { t1 with dreqT1 := some (seq, at0) }
      | _ => t1)).emit (.tempo p (if v1 then v1Form g else g))

/-- R259: one TBCLK cycle of port `p`. -/
def tempoCycle (p : Nat) (s : State) : State :=
  let t := s.tport p
  tempoPump p (s.when (t.busy != 0) fun u => u.setTport p { t with busy := t.busy - 1 })

/-- A frame is ready for port `p`; a v1 port carries what R273 says. -/
def tempoSend (p : Nat) (f : TempoFrame) (s : State) : State :=
  s.when (!s.flag (F.TP_CTL_MODE p) || v1Carries f) fun t =>
    tempoPump p (t.setTport p { t.tport p with waiting := (t.tport p).waiting ++ [f] })

/-- Port `p` carries flooded frames outward: UP or DOWN, and not a tap port (R256, R259). -/
def floodsOn (s : State) (p : Nat) : Bool :=
  (s.get (F.TP_STAT_ROLE p) == 1 || s.get (F.TP_STAT_ROLE p) == 2 || isFeed s p) && !isTap s p

/-- R259: a flooded frame goes out on every UP and DOWN port but the one it arrived on. -/
def flood (f : TempoFrame) (except : Option Nat) (s : State) : State :=
  s.each 4 fun p t => t.when (floodsOn s p && except != some p) (tempoSend p f)

/-- The device may send flooded frames of its own: Tempo runs, and it is no tap (R256). -/
def mayFlood (s : State) : Bool := s.flag F.TMP_CFG_EN && !isTapDevice s

/-- The device may publish positions, beats and schedule entries: no device with its own ID was seen either (R253). -/
def mayPublish (s : State) : Bool := mayFlood s && !s.tempo.dupOwn

/-! ### Beats leave their channel (R29, R37–R39) -/

/-- Orders the waiting beats by emission cycle, then by channel (R39). -/
def insertWait : List TreeWait → TreeWait → List TreeWait
  | [], w => [w]
  | a :: l, w =>
    if w.emitted < a.emitted || (w.emitted == a.emitted && decide (w.beat.ch < a.beat.ch))
    then w :: a :: l else a :: insertWait l w

/-- R41, R366, R368: link `j` of group `g`, which is enabled, triggers on a beat of channel `c`. -/
def cxpFires (s : State) (g j c seq act : Nat) : Bool :=
  s.flag (F.CXP_TRIG_EN g j) && s.flag (F.CXP_LINK_EN g j) && s.get (F.GRP_CTL_PROTO g) == 1 && s.flag (F.GRP_CTL_EN g) && s.get (F.CXP_TRIG_SRC g j) == c
    && seq % (s.get (F.CXP_TRIG_DIV g j) + 1) == s.get (F.CXP_TRIG_PHASE g j)
    && (!s.flag (F.CXP_TRIG_ACTEN g j) || act == s.get (F.CXP_TRIG_ACTVAL g j))

/-- Trigger edges in the order of their instants, with one more. -/
def insertTrigger (e : Nat × Bool) : List (Nat × Bool) → List (Nat × Bool)
  | [] => [e]
  | x :: l => if e.1 < x.1 then e :: x :: l else x :: insertTrigger e l

/-- R360, R368: a trigger falls due: it is queued for its packet, or dropped while the transmitters are
idle. -/
def cxpTrigger (g j due8 : Nat) (s : State) : State :=
  if s.txIdle g then (s.count (F.CXP_TRIGSTAT_DROP g j) 1).irq (0x03080000 + 0x1000 * g) j
  else
    let at8 := due8 + 8 * (s.get (F.CXP_TDLY_DLY g j) + 1000)
    let l := s.lanes.cxp.get (g * 8 + j) {}
    let t0 := insertTrigger (at8, true) l.trig
    let t1 := if s.flag (F.CXP_TRIG_PULSE g j) then insertTrigger (at8 + 8 * s.get (F.CXP_TWID_WIDTH g j), false) t0 else t0
    { s with lanes := { s.lanes with cxp := s.lanes.cxp.set (g * 8 + j) { l with trig := t1 } {} } }

/-- POS of a beat's record: of a time beat, the source position at its emission. -/
def beatPos (s : State) (c : Nat) (h : HeldBeat) : Pos48 :=
  if (s.bc c).kind == 2 then s.encPos (s.bc c).enc else h.pos

/-- R29, R37–R44: channel `c` emits a beat now: the record takes BC_SEQ, BC_COUNT and BC_SEQ advance,
the record joins the tree when TREE = 1, and the outputs of the channel fire. `counted` says that
R38 counted it late already. -/
def emitBeat (c : Nat) (h : HeldBeat) (counted : Bool) (s : State) : State :=
  let b := s.bc c
  let seq := s.get (F.BC_SEQ_VALUE c)
  let act := if b.kind == 3 then h.act else s.get (F.BC_CTL_ACT c)
  let rec_ : BeatRec := ⟨c, b.kind, act, h.due8 % 8, seq, beatPos s c h, h.due8 / 8 % 2 ^ 48⟩
  let s1 := (s.put (F.BC_COUNT_VALUE c) (s.get (F.BC_COUNT_VALUE c) + 1)).put
    (F.BC_SEQ_VALUE c) ((seq + 1) % b.modulus)
  let s2 := s1.setBc c { b with lastEmit := some s.cycle }
  let s3 := s2.when (s.flag (F.BC_CTL_TREE c)) fun t =>
    { t with pos := { t.pos with treeWait := insertWait t.pos.treeWait ⟨s.cycle, counted, rec_⟩ } }
  let s4 := s3.each 64 fun o t => t.when (boFires s o c seq act) (boFire o h.due8)
  s4.each 256 fun l t => t.when (cxpFires s (l / 8) (l % 8) c seq act) (cxpTrigger (l / 8) (l % 8) h.due8)

/-- R38: the channel may emit: 8 ns have passed since its last beat. -/
def spaced (b : BeatCh) (cycle : Nat) : Bool :=
  match b.lastEmit with
  | some e => decide (e + 8 ≤ cycle)
  | none => true

/-- R38: a beat falls due: it leaves now, or is held when another left less than 8 ns ago or waits. -/
def dueBeat (emit : Nat → HeldBeat → Bool → State → State) (c : Nat) (h : HeldBeat) (s : State) : State :=
  let b := s.bc c
  if b.held.isEmpty && spaced b s.cycle then emit c h false s
  else s.setBc c { b with held := b.held ++ [h] }

/-! ### Scheduled channels (R36) -/

/-- BYTIME, DIR and ENC as the channel uses them: latched while EN = 1, stored while EN = 0. -/
def schedMode (s : State) (c : Nat) : Bool × Nat × Nat :=
  if s.flag (F.BC_CTL_EN c) then ((s.bc c).byTime, (s.bc c).dir, (s.bc c).enc)
  else (s.flag (F.BC_CTL_BYTIME c), s.get (F.BC_CTL_DIR c), s.get (F.BC_CTL_ENC c))

/-- KIND as R36 uses it for a push. -/
def schedKind (s : State) (c : Nat) : Nat :=
  if s.flag (F.BC_CTL_EN c) then (s.bc c).kind else s.get (F.BC_CTL_KIND c)

/-- DIR = 3 is treated as 0. -/
def dirOf (d : Nat) : Nat := if d == 3 then 0 else d

/-- R36: a position entry of value `v` is due at position `p` in direction `dir` (0 or 1). -/
def posDue (dir : Nat) (p v : Pos48) : Bool := if dir == 1 then reached v p else reached p v

/-- R36: entry `a` keeps its place before a new entry `e`: due values compared against the present
position or as times; equal values and DIR = 2 stay in push order. A timed and a positional entry of one queue have no
common value to compare: they stay in push order (DESIGN CHOICE, log 122). -/
def schedBefore (dir : Nat) (p : Pos48) (a e : SchedEnt) : Bool :=
  if a.byTime != e.byTime then true
  else if a.byTime then decide (8 * a.value.toNat + a.tfrac ≤ 8 * e.value.toNat + e.tfrac)
  else if dir == 2 then true
  else
    let key := fun (x : SchedEnt) =>
      let d := (x.value.truncate 48 : Pos48) - p
      if dir == 1 then -d.toInt else d.toInt
    decide (key a ≤ key e)

def insertSched (dir : Nat) (p : Pos48) : List SchedEnt → SchedEnt → List SchedEnt
  | [], e => [e]
  | a :: l, e => if schedBefore dir p a e then a :: insertSched dir p l e else e :: a :: l

/-- Replaces the schedule queue and the status fields that show it. -/
def setSched (c : Nat) (l : List SchedEnt) (s : State) : State :=
  ((s.setBc c { s.bc c with sched := l }).put (F.BC_STAT_DEPTH c) l.length).putB
    (F.BC_STAT_SCHED_FULL c) (l.length == 16)

/-- Sets BC_STAT.LATE of channel `c`. -/
def setLate (c : Nat) (s : State) : State := s.setIrq (F.BC_STAT_LATE c) bcPage 0

/-- R36, R263: the first due entry of a queue, whether it is late, its due instant in 1/8 ns, and the
rest of the queue. -/
def takeDue (tb : Nat) : List SchedEnt → Option (SchedEnt × Bool × Nat × List SchedEnt)
  | [] => none
  | e :: l =>
    let skip := (takeDue tb l).map fun (x, f, d, r) => (x, f, d, e :: r)
    if e.byTime then
      if e.value.toNat ≤ tb then
        some (e, e.late || decide (e.value.toNat < tb), 8 * e.value.toNat + e.tfrac, l)
      else skip
    else
      match e.dueAt with
      | some d => some (e, e.late, d, l)
      | none => skip

/-- R36: the first due entry of kind 3 channel `c` fires, one per cycle. -/
def schedFire (c : Nat) (s : State) : State :=
  let b := s.bc c
  if s.flag (F.BC_CTL_EN c) && b.kind == 3 && b.lastFire != some s.cycle then
    match takeDue s.tb.toNat b.sched with
    | none => s
    | some (e, late, due8, rest) =>
      let s1 := setSched c rest s
      let s2 := s1.setBc c { s1.bc c with lastFire := some s.cycle }
      let (k, s3) := if e.byTime then s2.nextFree else (0, s2)
      let p : Pos48 := if e.byTime then BitVec.ofNat 48 (Config.freeNat k) else e.value.truncate 48
      dueBeat emitBeat c ⟨e.act, p, due8⟩ (s3.when late (setLate c))
  else s

/-- R36: a push into a kind 3 channel's queue; refused when full; fires at once, with LATE, when
already due. -/
def schedPush (c : Nat) (byTime : Bool) (value : Dword) (act tfrac : Nat) (s : State) : State :=
  let (_, dir0, e) := schedMode s c
  let dir := dirOf dir0
  let b := s.bc c
  if 16 ≤ b.sched.length then s.setIrq (F.BC_STAT_SCHED_REFUSED c) bcPage 1
  else
    let p := s.encPos e
    let en := s.flag (F.BC_CTL_EN c)
    let already := en && (if byTime then decide (value.toNat ≤ s.tb.toNat)
      else dir != 2 && posDue dir p (value.truncate 48))
    let ent : SchedEnt := ⟨byTime, value, act, tfrac, if already then some s.tb8 else none, already⟩
    (setSched c (insertSched dir p b.sched ent) s).when already (schedFire c)

/-- R36: after the position of encoder `n` changed, entries of DIR 0 or 1 that it has reached fall
due; those a load carried are late. A counted transition (`counted`) makes DIR = 2 entries of
equal value due. -/
def markDue (n : Nat) (counted : Bool) (s : State) : State :=
  s.each 64 fun c t =>
    let b := t.bc c
    if t.flag (F.BC_CTL_EN c) && b.kind == 3 && b.enc == n then
      let p := t.encPos n
      let dir := dirOf b.dir
      let mark := fun (e : SchedEnt) =>
        let due := if dir == 2 then counted && e.value.truncate 48 == p
          else posDue dir p (e.value.truncate 48)
        if !e.byTime && e.dueAt.isNone && due then { e with dueAt := some s.tb8, late := e.late || !counted } else e
      t.setBc c { b with sched := b.sched.map mark }
    else t

/-! ### Publication of a beat over Tempo (R270) -/

/-- The 64-bit time nearest `tb` with low 48 bits `t` (R257). -/
def expandTime (tb : Nat) (t : Nat) : Nat :=
  let base := 2 ^ 48 * (tb / 2 ^ 48) + t % 2 ^ 48
  if 2 ^ 47 + tb < base ∧ 2 ^ 48 ≤ base then base - 2 ^ 48
  else if 2 ^ 47 + base < tb then 2 ^ 48 + base
  else base

/-- LEAD in force: the root's, as carried in ANNOUNCE; the device's own when it is root (R267). -/
def leadNow (s : State) : Nat :=
  if s.get F.TMP_STAT_STATE == 4 then s.get F.TMP_LEAD_NS else s.tempo.rootLead

/-- R270: a BEAT frame is taken by every enabled map that names its origin and channel; the map's
channel must be of kind 3 with BYTIME = 1, and a SEQ gap is shown. -/
def mapBeat (origin ch act tfrac seq time : Nat) (s : State) : State :=
  s.each 32 fun k t =>
    if t.flag (F.TMP_BMAP_EN k) && t.get (F.TMP_BMAP_ORIGIN k) == origin
        && t.get (F.TMP_BMAP_SRCCH k) == ch then
      let c := t.get (F.TMP_BMAP_LOCALCH k)
      let gap := match t.tempo.mapSeq.get k none with
        | some q => seq != 0 && seq != (q + 1) % 65536
        | none => false
      let t1 := { t with tempo := { t.tempo with mapSeq := t.tempo.mapSeq.set k (some seq) none } }
      let t2 := t1.when gap fun u => u.setIrq (F.TMP_BMAP_GAP k) 0x00109000 1
      if schedKind t2 c == 3 && (schedMode t2 c).1 then
        schedPush c true (BitVec.ofNat 64 (expandTime t2.tb.toNat time + leadNow t2)) act tfrac t2
      else t2.setIrq (F.BC_STAT_SCHED_REFUSED c) bcPage 1
    else t

/-- R39, R270: channel `c` emits a beat; kinds 0 to 2 with TEMPO = 1 publish it as a BEAT frame,
which the device's own maps take at that moment. -/
def emitAndPublish (c : Nat) (h : HeldBeat) (counted : Bool) (s : State) : State :=
  let seq := s.get (F.BC_SEQ_VALUE c)
  let act := s.get (F.BC_CTL_ACT c)
  let id := s.get F.TMP_ID_ID
  (emitBeat c h counted s).when
    (s.flag (F.BC_CTL_TEMPO c) && decide ((s.bc c).kind < 3) && mayPublish s) fun t =>
    mapBeat id c act (h.due8 % 8) seq (h.due8 / 8 % 2 ^ 48)
      (flood (.beat id c act (h.due8 % 8) seq (beatPos s c h) (h.due8 / 8 % 2 ^ 48)) none t)

/-- R38: a beat of a channel of kind 0, 1 or 2 falls due. -/
def beatDue (c : Nat) (h : HeldBeat) (s : State) : State := dueBeat emitAndPublish c h s

/-- Single-shot end: DONE is set and EN and ACTIVE clear. -/
def bcDone (c : Nat) (s : State) : State :=
  ((s.setIrq (F.BC_STAT_DONE c) bcPage 2).put (F.BC_CTL_EN c) 0).put (F.BC_STAT_ACTIVE c) 0

/-- R34, R35: the channel emits one beat: a compare channel with STEP = 0, which DIR = 2 implies, or a time channel
with PERIOD = 0. -/
def isSingle (b : BeatCh) : Bool :=
  (b.kind == 1 && (b.step == 0 || dirOf b.dir == 2)) || (b.kind == 2 && b.period == 0)

/-! ### Line channels (R30–R33) -/

/-- K of R30. -/
def kOf (vavg : Nat) : Nat := 2 ^ min vavg 4

/-- Distance from position `p` to NEXT in the channel's direction, in 2⁻²⁴ counts. -/
def ahead (b : BeatCh) (p : Pos48) : BitVec 72 :=
  let q : BitVec 72 := (p.zeroExtend 72) <<< 24
  if b.dir == 1 then q - b.next else b.next - q

def nextStep (b : BeatCh) : BitVec 72 :=
  if b.dir == 1 then b.next - b.pitch.zeroExtend 72 else b.next + b.pitch.zeroExtend 72

/-- R31: pends the beat that falls inside the coming count interval, when interpolation is active. -/
def armLine (b : BeatCh) (p : Pos48) : BeatCh :=
  let k := kOf b.vavg
  let d := (ahead b p).toNat
  match b.stamps, b.stamps[k]? with
  | tn :: _, some tk =>
    if b.pitch != 0 && 0 < d && d < 2 ^ 24 then
      { b with pend := some (8 * tn + roundDiv (d * (tn - tk) * 8) (2 ^ 24 * k)) }
    else { b with pend := none }
  | _, _ => { b with pend := none }

/-- Integer part of NEXT. -/
def nextInt (b : BeatCh) : Pos48 := (b.next >>> 24).truncate 48

/-- The beat of a line channel at NEXT, due at an instant. -/
def lineHeld (s : State) (c due8 : Nat) : HeldBeat := ⟨s.get (F.BC_CTL_ACT c), nextInt (s.bc c), due8⟩

/-- NEXT advances, and a beat of the channel clears HELD (R31, R32). -/
def lineAdvance (c : Nat) (s : State) : State :=
  (s.setBc c { s.bc c with next := nextStep (s.bc c) }).put (F.BC_STAT_HELD c) 0

/-- R31: one catch-up beat, due now. -/
def lineBeat (c due8 : Nat) (s : State) : State := beatDue c (lineHeld s c due8) (lineAdvance c s)

/-- R31: beats for every NEXT at or before the present count. -/
def catchUp (c : Nat) (p : Pos48) : Nat → State → State
  | 0, s => s
  | fuel + 1, s =>
    let d := ahead (s.bc c) p
    if d == 0 || d.msb then catchUp c p fuel (lineBeat c s.tb8 s) else s

/-- Number of catch-up beats of R31. -/
def catchUpCount (b : BeatCh) (p : Pos48) : Nat := (0 - ahead b p).toNat / b.pitch.toNat + 1

/-- R31, R32: a counted transition at line channel `c`; `fwd` is the sign of the count. -/
def lineTransition (c : Nat) (fwd : Bool) (s : State) : State :=
  let b := s.bc c
  let p := s.encPos b.enc
  if b.pitch == 0 then s
  else if fwd == (b.dir != 1) then
    let s1 := s.setBc c { b with stamps := (s.tb.toNat :: b.stamps).take 17, pend := none }
    let s2 := if (ahead b p) == 0 || (ahead b p).msb then catchUp c p (catchUpCount b p) s1 else s1
    s2.setBc c (armLine (s2.bc c) p)
  else (s.setBc c { b with stamps := [], pend := none }).put (F.BC_STAT_HELD c) 1

/-- R31, R38: the pended beat of channel `c` is due, and the channel may emit. -/
def pendedDue (s : State) (c : Nat) : Option Nat :=
  let b := s.bc c
  match b.pend with
  | some t8 =>
    if s.flag (F.BC_CTL_EN c) && decide (t8 / 8 ≤ s.tb.toNat) && b.held.isEmpty && spaced b s.cycle then some t8 else none
  | none => none

/-- R38: a beat due at `t8` waited for the 8 ns after the channel's last one. -/
def spacedLate (s : State) (b : BeatCh) (t8 : Nat) : Bool :=
  match b.lastEmit with
  | some e => decide (t8 / 8 + s.cycle < e + 8 + s.tb.toNat)
  | none => false

/-- R38: BC_LATE counts a late beat of channel `c` and BC_STAT.LATE is set. -/
def countLate (c : Nat) (s : State) : State := setLate c (s.count (F.BC_LATE_VALUE c) 1)

/-- R31, R38: the pended line beat is emitted and the next one inside the interval is pended. Until the channel may
emit, the beat stays pended. -/
def pendedBeat (c : Nat) (s : State) : State :=
  match pendedDue s c with
  | none => s
  | some t8 =>
    let late := spacedLate s (s.bc c) t8
    let s1 := (lineAdvance c (s.setBc c { s.bc c with pend := none })).when late (countLate c)
    let s2 := emitAndPublish c (lineHeld s c t8) late s1
    s2.setBc c (armLine (s2.bc c) (s2.encPos (s2.bc c).enc))

/-- R38: the oldest held beat of a channel leaves it, late; or the pended beat of a line channel that waited. -/
def lateEmit (c : Nat) (s : State) : State :=
  let b := s.bc c
  match b.held with
  | h :: rest =>
    if s.flag (F.BC_CTL_EN c) && spaced b s.cycle then
      let s1 := countLate c (s.setBc c { b with held := rest })
      (if b.kind == 3 then emitBeat c h true s1 else emitAndPublish c h true s1).when (isSingle b) (bcDone c)
    else s
  | [] => s.when (match b.pend with
    | some t8 => spacedLate s b t8
    | none => false) (pendedBeat c)

/-! ### Compare and time channels (R34, R35) -/

/-- R34: a counted transition at compare channel `c`. -/
def compareTransition (c : Nat) (fwd : Bool) (s : State) : State :=
  let b := s.bc c
  let dir := dirOf b.dir
  let p := s.encPos b.enc
  if p == b.target && (dir == 2 || fwd == (dir == 0)) && !(isSingle b && !b.held.isEmpty) then
    let t' := if dir == 1 then b.target - b.step.zeroExtend 48 else b.target + b.step.zeroExtend 48
    let s1 := beatDue c ⟨s.get (F.BC_CTL_ACT c), b.target, s.tb8⟩
      (s.setBc c { b with target := if isSingle b then b.target else t' })
    s1.when (isSingle b && (s1.bc c).held.isEmpty) (bcDone c)
  else s

/-- First TIME + i·PERIOD later than TB (R35). -/
def nextTime (time period tb : Nat) : Nat := time + period * ((tb - time) / period + 1)

/-- R35, R263: time channel `c` emits its beat; a TIME already passed makes it late. -/
def timeBeat (c : Nat) (s : State) : State :=
  let b := s.bc c
  if s.flag (F.BC_CTL_EN c) && b.kind == 2 && decide (b.time.toNat ≤ s.tb.toNat) && !(isSingle b && !b.held.isEmpty) then
    let s1 := s.when (decide (b.time.toNat < s.tb.toNat)) (setLate c)
    let next := if b.period == 0 then b.time
      else BitVec.ofNat 64 (nextTime b.time.toNat b.period.toNat s.tb.toNat)
    let s2 := s1.setBc c { b with time := next }
    let s3 := beatDue c ⟨s.get (F.BC_CTL_ACT c), s.encPos b.enc, 8 * b.time.toNat⟩ s2
    s3.when (isSingle b && (s3.bc c).held.isEmpty) (bcDone c)
  else s

/-! ### Transitions and loads (R22–R28, R33) -/

/-- A counted transition of encoder `n` reaches every beat channel that uses it. -/
def channelsSee (n : Nat) (fwd : Bool) (s : State) : State :=
  markDue n true <| s.each 64 fun c t =>
    let b := t.bc c
    if t.flag (F.BC_CTL_EN c) && b.enc == n then
      match b.kind with
      | 0 => lineTransition c fwd t
      | 1 => compareTransition c fwd t
      | _ => t
    else t

/-- What the present TBCLK cycle of channel `n` holds. -/
def encCycle (s : State) (n : Nat) : EncCycle :=
  let c := (s.enc n).cyc
  if c.cycle == s.cycle then c else { cycle := s.cycle }

/-- R22–R27: one count of ±1 on channel `n`, stamped TB. A Z copy of the same cycle takes it in (R24). A Z load of the
same cycle takes its place: the position stays as loaded and the beat channels see no count; the stamp, the direction and
OVERSPEED follow the transition (DESIGN CHOICE, log 123). -/
def encApply (n : Nat) (fwd : Bool) (s : State) : State :=
  let e := s.enc n
  let cyc := encCycle s n
  let tb := s.tb.toNat
  let d : Pos48 := if fwd then 1 else -1
  let s0 := s.when (cyc.zCopy || cyc.zLoad) fun t =>
    t.put2 (F.ENC_ZLATCH_LO_VALUE n) (F.ENC_ZLATCH_HI_VALUE n)
      (BitVec.ofNat 48 (t.get2 (F.ENC_ZLATCH_LO_VALUE n) (F.ENC_ZLATCH_HI_VALUE n)) + d).toNat
  let s1 := if cyc.zLoad then s0 else s0.setEncPos n (s.encPos n + d)
  let s2 := match e.stamp with
    | some t0 =>
      (s1.put (F.ENC_PERIOD_VALUE n) (min (tb - t0) 0xFFFFFFFF)).when
        (decide (tb - t0 < 20) && !s.follows n) fun t => t.setIrq (F.ENC_STAT_OVERSPEED n) encPage n
    | none => s1
  let run := if fwd == e.lastUp then e.hist else []
  let s3 := (s2.putB (F.ENC_STAT_DIR n) (!fwd)).setEnc n
    { e with stamp := some tb, hist := (tb :: run).take 5, lastUp := fwd }
  s3.when (!cyc.zLoad) (channelsSee n fwd)

/-- R25: a count in the cycle of a software load waits for the load, and is applied to the loaded value. -/
def encCount (n : Nat) (fwd : Bool) (s : State) : State :=
  let e := s.enc n
  if e.soft.isSome then s.setEnc n { e with held := e.held ++ [fwd] } else encApply n fwd s

/-- R33: the position of channel `n` becomes `new`; line channels on it are rebased, and no beat is emitted, skipped or
moved. -/
def encSetPosition (n : Nat) (new : Pos48) (s : State) : State :=
  let delta : BitVec 72 := ((new - s.encPos n).zeroExtend 72) <<< 24
  let s1 := (s.setEncPos n new).each 64 fun c t =>
    let b := t.bc c
    t.when (t.flag (F.BC_CTL_EN c) && b.kind == 0 && b.enc == n) fun u =>
      u.setBc c { b with next := b.next + delta }
  markDue n false s1

/-- R265: a load under R24 or R25 counts. -/
def loadCounted (n : Nat) (s : State) : State := s.setEnc n { s.enc n with loadSeq := ((s.enc n).loadSeq + 1) % 256 }

/-- R25: a software load, which is made at the next TBCLK edge; ignored by a follower. Its cycle reaches from the write
to that edge (DEDUCED, log 123); of two writes in it the later one loads. -/
def encSoftLoad (n : Nat) (new : Pos48) (s : State) : State :=
  if s.follows n then s else s.setEnc n { s.enc n with soft := some new }

/-- The software load of channel `n` waits no more, and the counts of its cycle `after` what takes its place. -/
def encSettle (n : Nat) (after : State → State) (s : State) : State :=
  let e := s.enc n
  e.held.foldl (fun t fwd => encApply n fwd t) (after (s.setEnc n { e with soft := none, held := [] }))

/-- R25, R33: the TBCLK edge at which a software load is made; the counts of its cycle are applied to the loaded value. -/
def encEdge (n : Nat) (s : State) : State :=
  match (s.enc n).soft with
  | none => s
  | some new => encSettle n (fun t => if t.follows n then t else encSetPosition n new (loadCounted n t)) s

/-- Writing ENC_CTL.LOAD = 1 (R25). -/
def encLoad (n : Nat) (s : State) : State := encSoftLoad n (s.encPreset n) s

/-- A write of ENC_POS_LO (R25). -/
def encPosWrite (n : Nat) (v : Word) (s : State) : State :=
  encSoftLoad n (BitVec.ofNat 48 (v.toNat + 2 ^ 32 * s.get (F.ENC_POS_HI_VALUE n))) s

def encCtlFields (n : Nat) : List Fld :=
  [F.ENC_CTL_EN n, F.ENC_CTL_MODE n, F.ENC_CTL_DIR_INV n, F.ENC_CTL_FILT n, F.ENC_CTL_ZMODE n,
   F.ENC_CTL_ZGATE n, F.ENC_CTL_INSEL n]

/-- A write of ENC_CTL (R24, R25, R499): every field takes its value, ZMODE = 3 waits for its first
Z again, and LOAD = 1 loads. -/
def encCtlWrite (n : Nat) (v : Word) (s : State) : State :=
  let s1 := s.loadAll v (encCtlFields n)
  let s2 := s1.setEnc n { s1.enc n with zArmed := true }
  s2.when (v.getLsbD 11) (encLoad n)

/-- R22: the count of a legal sample from (a, b) to (a', b') in a mode: none, or its sign. -/
def decodeCount (mode : Nat) (a b a' b' : Bool) : Option Bool :=
  match mode with
  | 0 =>
    if a != a' then some (b != a')
    else if b != b' then some (a == b')
    else none
  | 1 => if a != a' then some (b' != a') else none
  | 2 => if a != a' && !b' then some a' else none
  | _ => if !a && a' then some (!b') else none

/-- R21: the level of an input of channel `n` behind its glitch filter, which takes a new one once it has been sampled on
FILT + 1 consecutive cycles; the inputs of an unpowered bank read 0 (R476). -/
def filtered (s : State) (n : Nat) (old : Bool) (x : InputSample) : Bool :=
  if s.get (F.ENC_CTL_FILT n) < x.held then x.level && encBank s n else old

/-- R22, R499: a change of A or B that the filter accepts. -/
def encoderTransition (n : Nat) (x y : InputSample) (s : State) : State :=
  let a := s.flag (F.ENC_STAT_A n)
  let b := s.flag (F.ENC_STAT_B n)
  let a' := filtered s n a x
  let b' := filtered s n b y
  let s1 := (s.putB (F.ENC_STAT_A n) a').putB (F.ENC_STAT_B n) b'
  if !s.flag (F.ENC_CTL_EN n) || s.follows n then s1
  else if a != a' && b != b' then
    (s1.setIrq (F.ENC_STAT_ILLEGAL n) encPage n).count (F.ENC_ERRCNT_VALUE n) 1
  else match decodeCount (s.get (F.ENC_CTL_MODE n)) a b a' b' with
    | some up => encCount n (up != s.flag (F.ENC_CTL_DIR_INV n)) s1
    | none => s1

/-- R24: the position as the copy into ENC_ZLATCH takes it. Where a software load falls in the same cycle it takes the
loaded value, to which the counts of the cycle are added (DEDUCED, log 123); a Z load drops that load (R25). -/
def zCopyOf (n : Nat) (load : Bool) (s : State) : State :=
  let cyc := encCycle s n
  let p := if load then s.encPos n else (s.enc n).soft.getD (s.encPos n)
  (s.put2 (F.ENC_ZLATCH_LO_VALUE n) (F.ENC_ZLATCH_HI_VALUE n) p.toNat).setEnc n
    { s.enc n with cyc := { cyc with zCopy := true, zLoad := cyc.zLoad || load } }

/-- R24, R25: a Z load: the copy, then the load. A software load of the same cycle is dropped; the counts that waited for
it go into ENC_ZLATCH only. -/
def zLoad (n : Nat) (s : State) : State :=
  encSettle n (fun t => encSetPosition n (t.encPreset n) (loadCounted n (zCopyOf n true t))) s

/-- R24: the action of a recognised Z edge. -/
def zAction (n : Nat) (s : State) : State :=
  match s.get (F.ENC_CTL_ZMODE n) with
  | 0 => s
  | 1 => zCopyOf n false s
  | 2 => zLoad n s
  | _ =>
    if (s.enc n).zArmed then
      let t := (zLoad n s).put (F.ENC_STAT_HOMED n) 1
      t.setEnc n { t.enc n with zArmed := false }
    else zCopyOf n false s

/-- R24: a Z level that the filter accepts; a rising edge is recognised when the channel is enabled and ZGATE allows. -/
def zEdge (n : Nat) (z : InputSample) (s : State) : State :=
  let old := s.flag (F.ENC_STAT_Z n)
  let level := filtered s n old z
  let s1 := s.putB (F.ENC_STAT_Z n) level
  let seen := level && !old && s.flag (F.ENC_CTL_EN n) && !s.follows n
    && (!s.flag (F.ENC_CTL_ZGATE n) || (s.flag (F.ENC_STAT_A n) && s.flag (F.ENC_STAT_B n)))
  s1.when seen fun t => zAction n (t.setIrq (F.ENC_STAT_ZSEEN n) encPage (16 + n))

/-- R21, R499: levels of a disabled channel that its filter accepts change, and only ENC_STAT shows it. -/
def inputLevels (n : Nat) (a b z : InputSample) (s : State) : State :=
  let shows := fun (f : Fld) (x : InputSample) (t : State) => t.putB f (filtered s n (s.flag f) x)
  if s.flag (F.ENC_CTL_EN n) then s
  else shows (F.ENC_STAT_Z n) z (shows (F.ENC_STAT_B n) b (shows (F.ENC_STAT_A n) a s))

/-- R28: TB and all sixteen positions are copied in one cycle. -/
def snapCapture (s : State) : State :=
  (s.put2 F.TB_SNAP_LO_VALUE F.TB_SNAP_HI_VALUE s.tb.toNat).each 16 fun n t =>
    t.put2 (F.ENC_SNAP_LO_VALUE n) (F.ENC_SNAP_HI_VALUE n) (s.encPos n).toNat

/-! ### Beat channel registers (R29, R48) -/

/-- What channel `c` latches at its enable. -/
def bcLatch (s : State) (c : Nat) : BeatCh :=
  let a0 := s.get (F.BC_ARG0_VALUE c)
  let a1 := s.get (F.BC_ARG1_VALUE c)
  let a2 := s.get (F.BC_ARG2_VALUE c)
  let a3 := s.get (F.BC_ARG3_VALUE c)
  let arg48 : Pos48 := BitVec.ofNat 48 (a0 + 2 ^ 32 * (a1 % 2 ^ 16))
  let start : Pos48 := BitVec.ofNat 48 (a2 + 2 ^ 32 * (a3 % 2 ^ 16))
  let m := s.get (F.BC_SEQMOD_MOD c)
  let kind := s.get (F.BC_CTL_KIND c)
  let dir := s.get (F.BC_CTL_DIR c)
  { kind := kind, enc := s.get (F.BC_CTL_ENC c), dir := dir, vavg := s.get (F.BC_CTL_VAVG c),
    byTime := s.flag (F.BC_CTL_BYTIME c), pitch := arg48, next := (start.zeroExtend 72) <<< 24,
    target := arg48, step := BitVec.ofNat 32 a2, time := BitVec.ofNat 64 (a0 + 2 ^ 32 * a1),
    period := BitVec.ofNat 32 a2, modulus := if m == 0 then 65536 else m,
    lastEmit := (s.bc c).lastEmit }

/-- BC_STAT.CFGPEND: a stored field differs from its latched value (R48). -/
def cfgPend (s : State) (c : Nat) : Bool :=
  let b := s.bc c
  s.get (F.BC_CTL_KIND c) != b.kind || s.get (F.BC_CTL_ENC c) != b.enc
    || s.get (F.BC_CTL_DIR c) != b.dir || s.get (F.BC_CTL_VAVG c) != b.vavg
    || s.flag (F.BC_CTL_BYTIME c) != b.byTime

/-- R29, R35, R36, R38, R48: EN changes from 0 to 1. BC_STAT.ACTIVE is 1 for a line channel with PITCH = 0 too: it is
enabled, though it emits nothing (DESIGN CHOICE, log 143). -/
def bcEnable (c : Nat) (s : State) : State :=
  let b := bcLatch s c
  let bad := b.kind == 0 && b.pitch == 0
  let s1 := setSched c [] (s.setBc c b)
  let s2 := (((s1.put (F.BC_COUNT_VALUE c) 0).put (F.BC_SEQ_VALUE c) 0).put (F.BC_STAT_ACTIVE c) 1).put
    (F.BC_STAT_HELD c) 0
  let s3 := ((s2.put (F.BC_STAT_CFGPEND c) 0).putB (F.BC_STAT_BADARG c) bad).when
    (bad && !s.flag (F.BC_STAT_BADARG c)) fun t => t.irq bcPage 3
  s3.when (b.kind == 2 && decide (b.time.toNat < s.tb.toNat)) (timeBeat c)

def bcCtlFields (c : Nat) : List Fld :=
  [F.BC_CTL_KIND c, F.BC_CTL_EN c, F.BC_CTL_ENC c, F.BC_CTL_DIR c, F.BC_CTL_VAVG c, F.BC_CTL_ACT c,
   F.BC_CTL_TREE c, F.BC_CTL_TEMPO c, F.BC_CTL_BYTIME c]

/-- R48: a write that makes the five stored fields equal to the latched ones again clears CFGPEND. -/
def cfgSettle (c : Nat) (s : State) : State := s.when (!cfgPend s c) fun t => t.put (F.BC_STAT_CFGPEND c) 0

/-- R48: a write of BC_CTL, by EN before and after. A write that leaves EN = 0 may clear CFGPEND and never sets it
(DESIGN CHOICE, log 143). -/
def bcCtlWrite (c : Nat) (v : Word) (s : State) : State :=
  let s1 := s.loadAll v (bcCtlFields c)
  match s.flag (F.BC_CTL_EN c), s1.flag (F.BC_CTL_EN c) with
  | false, false => cfgSettle c s1
  | false, true => bcEnable c s1
  | true, true => s1.putB (F.BC_STAT_CFGPEND c) (cfgPend s1 c)
  | true, false =>
    ((cfgSettle c s1).setBc c { s1.bc c with pend := none, held := [] }).put (F.BC_STAT_ACTIVE c) 0

/-- R36, R269: a write of BC_ARG3: it stores the word, and on a kind 3 channel pushes the entry that
BC_ARG0 to BC_ARG2 hold; such a push is published as a SCHED frame by each map with PUB = 1. -/
def arg3Write (c : Nat) (v : Word) (s : State) : State :=
  let s1 := s.load (F.BC_ARG3_VALUE c) v
  if schedKind s c == 3 then
    let value : Dword := BitVec.ofNat 64 (s.get2 (F.BC_ARG0_VALUE c) (F.BC_ARG1_VALUE c))
    let act := s.get (F.BC_ARG2_VALUE c) % 16
    let full := 16 ≤ (s.bc c).sched.length
    let s2 := schedPush c (schedMode s c).1 value act 0 s1
    s2.when (s.flag (F.BC_CTL_TEMPO c) && mayPublish s && !full) fun t =>
      t.each 16 fun j u => u.when (u.flag (F.TMP_SMAP_PUB j) && u.get (F.TMP_SMAP_CH j) == c)
        (flood (.sched (s.get F.TMP_ID_ID) j (schedMode s c).1 act value) none)
  else s1

/-! ### The beat tree (R39, R40) -/

/-- R39: the first waiting beat enters the tree, one per TBCLK cycle; a beat that did not enter in its
emission cycle counts once in BC_LATE. -/
def treeEnter (s : State) : State :=
  match s.pos.treeWait with
  | [] => s
  | w :: ws =>
    if s.pos.treeLast == some s.cycle then s
    else
      let s1 := { s with pos := { s.pos with
        treeWait := ws, treeLast := some s.cycle,
        treeFly := s.pos.treeFly ++ [(s.cycle, w.beat)] } }
      s1.when (decide (w.emitted < s.cycle) && !w.counted) fun t =>
        t.count (F.BC_LATE_VALUE w.beat.ch) 1

/-! ### The meanings -/

/-- `held`: the cycles for which the synchronised inputs have been sampled at these levels (R21). -/
def execEncoderTransition (n : Fin 16) (a b : InputSample) (s : State) : Result := .next (encoderTransition n a b s)
def execZEdge (n : Fin 16) (z : InputSample) (s : State) : Result := .next (zEdge n z s)
def execEncLoad (n : Fin 16) (s : State) : Result := .next (encLoad n s)
def execEncPosWrite (n : Fin 16) (v : Word) (s : State) : Result := .next (encPosWrite n v s)
def execEncEnable (n : Fin 16) (v : Word) (s : State) : Result := .next (encCtlWrite n v s)
def execSnapCapture (s : State) : Result := .next (snapCapture s)
def execPendedBeatDue (c : Fin 64) (s : State) : Result := .next (pendedBeat c s)
def execTimeBeat (c : Fin 64) (s : State) : Result := .next (timeBeat c s)
def execSchedPush (c : Fin 64) (v : Word) (s : State) : Result := .next (arg3Write c v s)
def execSchedEntryDue (c : Fin 64) (s : State) : Result := .next (schedFire c s)
def execBcCtlWrite (c : Fin 64) (v : Word) (s : State) : Result := .next (bcCtlWrite c v s)
def execLateBeatEmit (c : Fin 64) (s : State) : Result := .next (lateEmit c s)
def execBeatTreeEntry (s : State) : Result := .next (treeEnter s)
def execBeatOutputEdge (o : Fin 64) (s : State) : Result := .next (boEdge o s)
def execPulseEnd (o : Fin 64) (s : State) : Result := .next (boPulseEnd o s)
def execBoCtlWrite (o : Fin 64) (v : Word) (s : State) : Result := .next (boCtlWrite o v s)
def execInputLevelChange (n : Fin 16) (a b z : InputSample) (s : State) : Result := .next (inputLevels n a b z s)

end Sys2Proof.Machine
end

