-- ==== Sys2Proof/Machine/Tempo.lean ====
section
/-! DEFINITION. Tempo: ports and the tree, delay compensation, positions across the domain,
future-stamped beats, link loss and re-rooting (R252–R274). -/

namespace Sys2Proof.Machine

open Sys2Proof

/-- Base of the Tempo global page. -/
abbrev tmpPage : Nat := 0x00104000
/-- Base of Tempo port `p`'s page. -/
abbrev tpPage (p : Nat) : Nat := 0x00105000 + 0x1000 * p
/-- Base of the Tempo map page. -/
abbrev tmapPage : Nat := 0x00109000

namespace State

def tpc (s : State) (c : Nat) : TpcState := s.tempo.tpc.get c {}
def setTpc (s : State) (c : Nat) (t : TpcState) : State :=
  { s with tempo := { s.tempo with tpc := s.tempo.tpc.set c t {} } }

/-- Now, as a timestamp in 1/64 ns (R260); `frac` is the instant within the TBCLK cycle. -/
def stampNow (s : State) (frac : BitVec 6) : Time70 :=
  BitVec.ofNat 70 (64 * s.tb.toNat + frac.toNat)

/-- TB moves in this cycle by `n` more than one. -/
def noteShift (n : Int) (s : State) : State :=
  { s with tempo := { s.tempo with shifts := ((s.cycle, n) :: s.tempo.shifts).take 8 } }

/-- TB as it was in cycle `k` (R260). -/
def tbAt (s : State) (k : Nat) : Nat :=
  let moved := (s.tempo.shifts.filter fun e => decide (k < e.1)).foldl (fun n e => n + e.2) (0 : Int)
  (s.tb - BitVec.ofNat 64 (s.cycle - k) - BitVec.ofInt 64 moved).toNat

/-- R260: the device's TB, with its fraction, at the instant `age` before the end of the present cycle: the timestamp of a
frame whose SOF crossed the ball then. -/
def stampBefore (s : State) (age : BitVec 16) : Time70 :=
  let i := 64 * s.cycle + 63 - age.toNat
  BitVec.ofNat 70 (64 * s.tbAt (i / 64) + i % 64)

/-- No offset is left to correct (R262): the device follows no other. -/
def noOffset (s : State) : State := { s with tempo := { s.tempo with owed := 0 } }

/-- The reference of the time-base PLL (R262, R272, R448): the upstream clock of a device that follows, the frequency it
held in HOLDOVER, SYSREF of a root or a free device. -/
def tbSource (st : Nat) : Nat := if st == 1 || st == 2 then 1 else if st == 3 then 2 else 0

/-- Sets TMP_STAT.STATE; a change raises IRQ_STAT[0] (R275). CLK_STAT.TBSRC follows. -/
def setTmpState (s : State) (st : Nat) : State :=
  ((s.put F.TMP_STAT_STATE st).put F.CLK_STAT_TBSRC (tbSource st)).when (s.get F.TMP_STAT_STATE != st) fun t => t.irq tmpPage 0

end State

/-- Port `p` is served: Tempo runs, the port is enabled, and a tap device holds its others off
(R256, R275). -/
def portOn (s : State) (p : Nat) : Bool :=
  s.flag F.TMP_CFG_EN && s.flag (F.TP_CTL_EN p) && (!isTapDevice s || isTap s p)

/-- Port `p` has a link: a feed port's counts as up while enabled (R256). -/
def linkUp (s : State) (p : Nat) : Bool :=
  portOn s p && (s.flag (F.TP_STAT_LINK p) || isFeed s p)

/-! ### The tree (R254, R255) -/

/-- A candidate upstream: root priority, root ID, neighbour's depth, neighbour's ID, port. -/
structure Cand where
  pri : Nat
  root : Nat
  depth : Nat
  nbr : Nat
  port : Nat
  deriving DecidableEq, Repr

/-- R254: lower ROOTPRI first, then lower root ID. -/
def betterRoot (a b : Cand) : Bool := a.pri < b.pri || (a.pri == b.pri && decide (a.root < b.root))

def sameRoot (a b : Cand) : Bool := a.pri == b.pri && a.root == b.root

/-- R254: the full order of candidates. -/
def betterCand (a b : Cand) : Bool :=
  betterRoot a b || (sameRoot a b &&
    (a.depth < b.depth || (a.depth == b.depth &&
      (a.nbr < b.nbr || (a.nbr == b.nbr && decide (a.port < b.port))))))

def bestOf : List Cand → Option Cand
  | [] => none
  | a :: l => match bestOf l with
    | none => some a
    | some b => if betterCand a b then some a else some b

/-- The candidates that live ports offer: v2 ports that have heard an ANNOUNCE and whose neighbour
knows a root that is not lost; feed ports take no part (R254, R256, R272, R273). -/
def candidates (s : State) : List Cand :=
  (List.range 4).filterMap fun p =>
    let t := s.tport p
    if linkUp s p && !isFeed s p && !s.flag (F.TP_CTL_MODE p) && t.announces != 0 && t.rootPri != 15 && !t.lost
    then some ⟨t.rootPri, t.rootId, t.nbrDepth, t.nbrId, p⟩ else none

/-- The present upstream port's offer, if it still makes one. -/
def presentCand (s : State) (l : List Cand) : Option Cand :=
  if s.flag F.TMP_STAT_UPVALID then l.find? (fun c => c.port == s.get F.TMP_STAT_UPPORT) else none

/-- R254: the upstream port changes only for a strictly better root or a strictly smaller depth. -/
def chooseUp (s : State) (l : List Cand) : Option Cand :=
  match bestOf l, presentCand s l with
  | some b, some c => if betterRoot b c || (sameRoot b c && decide (b.depth < c.depth)) then some b else some c
  | b, _ => b

/-- A v1 port whose neighbour is the parent (R273). -/
def v1Up (s : State) : Option Nat :=
  (List.range 4).find? fun p => linkUp s p && s.flag (F.TP_CTL_MODE p) && !s.flag (F.TP_CTL_V1ROLE p)

/-- R256, R271: a port that no longer runs as a feed or tap port starts with its link down. -/
def oneWayEnds (p : Nat) (s : State) : State :=
  s.when (s.flag (F.TP_STAT_ONEWAY p) && !isFeed s p && !isTap s p) fun t => (t.setTport p {}).put (F.TP_STAT_LINK p) 0

/-- R254, R256, R273: the role of every port. `joined` is false for a device that is too deep. -/
def setRoles (joined : Bool) (s : State) : State :=
  s.each 4 fun p u =>
    let t := oneWayEnds p u
    let role :=
      if !linkUp t p then 0
      else if isFeed t p then 2
      else if !joined then 3
      else if isTap t p then 1
      else if t.flag F.TMP_STAT_UPVALID && t.get F.TMP_STAT_UPPORT == p then 1
      else if t.flag (F.TP_CTL_MODE p) then (if t.flag (F.TP_CTL_V1ROLE p) then 2 else 3)
      else if (t.tport p).nbrParent then 2 else 3
    ((t.put (F.TP_STAT_ROLE p) role).putB (F.TP_STAT_ONEWAY p) (linkUp t p && (isFeed t p || isTap t p))).when
      (isFeed t p) fun u => u.putB (F.TP_STAT_LINK p) (portOn t p)

/-- The device takes `up` as its upstream port, with `root` as its root. -/
def joinUp (up depth root pri : Nat) (v1 : Bool) (s : State) : State :=
  let was := s.get F.TMP_STAT_STATE
  let changed := !s.flag F.TMP_STAT_UPVALID || s.get F.TMP_STAT_UPPORT != up
    || (!v1 && s.get F.TMP_ROOT_ROOTID != root)
  let s1 := ((s.put F.TMP_STAT_UPPORT up).put F.TMP_STAT_UPVALID 1).put F.TMP_STAT_DEPTH depth
  let s2 := (if v1 then s1 else (s1.put F.TMP_ROOT_ROOTID root).put F.TMP_ROOT_ROOTPRI pri).putB
    F.TMP_STAT_NOPOS v1
  let s3 := s2.put F.TMP_STAT_TOO_DEEP 0
  s3.when changed fun t =>
    let t1 := t.when (was != 0) fun u => (u.put F.TMP_STAT_REROOT 1).irq tmpPage 2
    let t2 := { t1 with tempo := { t1.tempo with
      goodSyncs := 0, badSyncs := 0, rootSeqAt := t1.cycle,
      rootLead := if v1 then t1.tempo.rootLead else (t1.tport up).lead } }
    t2.setTmpState 1

/-- R254: the device becomes root; it keeps its TB without a step (R272). -/
def becomeRoot (s : State) : State :=
  let was := s.get F.TMP_STAT_STATE
  let s1 := ((s.put F.TMP_STAT_DEPTH 0).put F.TMP_STAT_UPVALID 0).put F.TMP_STAT_TOO_DEEP 0
  let s2 := ((s1.put F.TMP_ROOT_ROOTID (s.get F.TMP_ID_ID)).put F.TMP_ROOT_ROOTPRI
    (s.get F.TMP_CFG_ROOTPRI)).put F.TMP_STAT_NOPOS 0
  (((s2.put F.TMP_STAT_TB_AHEAD 0).noOffset).when (was != 0 && was != 4) fun t => (t.put F.TMP_STAT_REROOT 1).irq tmpPage 2).setTmpState 4

/-- State FREE: the device has no root and runs its own TB (R254, R255). -/
def becomeFree (tooDeep : Bool) (s : State) : State :=
  let s0 := (((s.put F.TMP_STAT_NOPOS 0).put F.TMP_STAT_TB_AHEAD 0).put F.TMP_ROOT_ROOTID 0).put F.TMP_ROOT_ROOTPRI 15
  let s1 := (s0.noOffset.put F.TMP_STAT_UPVALID 0).put F.TMP_STAT_DEPTH 0
  let s2 := (s1.putB F.TMP_STAT_TOO_DEEP tooDeep).when (tooDeep && !s.flag F.TMP_STAT_TOO_DEEP)
    fun t => t.irq tmpPage 1
  s2.setTmpState 0

/-- R254–R256, R272, R273: root, upstream port, depth, state and roles from what the ports have
heard. `hold` keeps a device in HOLDOVER when no port offers its root. -/
def elect (hold : Bool) (s : State) : State :=
  if !s.flag F.TMP_CFG_EN then setRoles true (becomeFree false s)
  else
    let l := candidates s
    match v1Up s with
    | some p =>
      let (k, t) := s.nextFree
      setRoles true (joinUp p (1 + Config.freeNat k % 7) 0 0 true t)
    | none =>
      let own : Cand := ⟨s.get F.TMP_CFG_ROOTPRI, s.get F.TMP_ID_ID, 0, 0, 0⟩
      let canRoot := own.pri != 15 && !isTapDevice s
      let same := l.filter fun c =>
        c.root == s.get F.TMP_ROOT_ROOTID && c.pri == s.get F.TMP_ROOT_ROOTPRI && decide (c.depth < 7)
      let choice := if hold then chooseUp s same else chooseUp s l
      match choice with
      | some c =>
        if !hold && canRoot && !betterRoot c own then setRoles true (becomeRoot s)
        else if 7 ≤ c.depth then setRoles false (becomeFree true s)
        else setRoles true (joinUp c.port (c.depth + 1) c.root c.pri false s)
      | none =>
        if hold then setRoles true (((s.put F.TMP_STAT_UPVALID 0).put F.TMP_STAT_NOPOS 0).setTmpState 3)
        else if canRoot then setRoles true (becomeRoot s)
        else setRoles true (becomeFree false s)

/-! ### ANNOUNCE (R253, R254, R258, R272) -/

/-- R258, R272: the ANNOUNCE a port sends; a root advances ROOTSEQ with each. -/
def announceSend (p : Nat) (s : State) : State :=
  if portOn s p && !s.flag (F.TP_CTL_MODE p) && !isTap s p then
    let root := s.get F.TMP_STAT_STATE == 4
    let seq := if root then (s.tempo.rootSeq + 1) % 256 else s.tempo.rootSeq
    let s1 := { s with tempo := { s.tempo with rootSeq := seq } }
    let st := s.get F.TMP_STAT_STATE
    tempoSend p (.announce (s.get F.TMP_ID_ID) (s.get F.TMP_ROOT_ROOTID) (s.get F.TMP_ROOT_ROOTPRI)
      (s.flag F.TMP_STAT_UPVALID && s.get F.TMP_STAT_UPPORT == p) (st == 2 || st == 4)
      (s.get F.TMP_STAT_DEPTH) seq (leadNow s)) s1
  else s

/-- R253: a neighbour announces this device's own ID; the device follows the domain on, but publishes no more. -/
def ownIdSeen (s : State) : State :=
  State.setIrq { s with tempo := { s.tempo with dupOwn := true } } F.TMP_STAT_DUPID tmpPage 1

/-- R253, R254, R272: a received ANNOUNCE. -/
def announceRecv (p id rootId rootPri : Nat) (parent : Bool) (depth rootSeq lead : Nat)
    (s0 : State) : State :=
  if !portOn s0 p || isFeed s0 p || s0.flag (F.TP_CTL_MODE p) then s0
  else
    let s := s0.when (id == s0.get F.TMP_ID_ID) ownIdSeen
    let t := s.tport p
    let moved := t.announces == 0 || t.rootId != rootId || t.rootSeq != rootSeq
    let s1 := ((s.setTport p { t with
        announces := t.announces + 1, nbrId := id, nbrDepth := depth, rootId := rootId,
        rootPri := rootPri, nbrParent := parent, lastAnnounce := s.cycle, lead := lead,
        rootSeq := rootSeq, seqAt := if moved then s.cycle else t.seqAt, lost := t.lost && !moved }).put
        (F.TP_NBR_ID p) id).put (F.TP_NBR_DEPTH p) depth
    let up := s.flag F.TMP_STAT_UPVALID && s.get F.TMP_STAT_UPPORT == p
    let s2 := s1.when (up && s.tempo.rootSeq != rootSeq) fun u =>
      { u with tempo := { u.tempo with rootSeq := rootSeq, rootSeqAt := u.cycle } }
    let s3 := s2.when up fun u => { u with tempo := { u.tempo with rootLead := lead } }
    elect (s.get F.TMP_STAT_STATE == 3) s3

/-! ### Delay measurement and compensation (R260–R263) -/

/-- The signed difference of two timestamps in 1/64 ns. -/
def stampDiff (a b : Time70) : Int := (a - b).toInt

/-- R262, R263: corrects an offset `o` in 1/64 ns: a forward step when the device is behind by more than
the limit, else the phase is owed; due times a step passes over are due at once by their own
rules. -/
def correct (o : Int) (slewBack : Bool) (s : State) : State :=
  let lim : Int := 64 * (s.get F.TMP_STEPLIM_NS : Int)
  if o < -lim then
    let n := ((-o).toNat + 63) / 64
    let s1 := State.noteShift n { s with tb := s.tb + BitVec.ofNat 64 n,
                                         tempo := { s.tempo with owed := -(o + 64 * (n : Int)) } }
    (s1.setIrq F.TMP_STAT_STEPPED tmpPage 4).put F.TMP_STAT_TB_AHEAD 0
  else
    let s1 := { s with tempo := { s.tempo with owed := if slewBack || o < 0 then -o else 0 } }
    s1.putB F.TMP_STAT_TB_AHEAD (decide (lim < o))

/-- R262: the lock state from the run of offsets; feed ports run while it is LOCKED (R256). -/
def lockState (o : Int) (s : State) : State :=
  let good := if o.natAbs < 64 then s.tempo.goodSyncs + 1 else 0
  let bad := if 256 < o.natAbs then s.tempo.badSyncs + 1 else 0
  let s1 := { s with tempo := { s.tempo with goodSyncs := min good 8, badSyncs := min bad 2 } }
  if 8 ≤ good && s.get F.TMP_STAT_STATE == 1 then setRoles true (s1.setTmpState 2)
  else if 2 ≤ bad && s.get F.TMP_STAT_STATE == 2 then setRoles true (s1.setTmpState 1)
  else s1

/-- A timestamp that a frame brings on port `p`: a v1 port carries whole ns of 48 bits, of which the fraction is ignored
(R257, R273). -/
def portStamp (s : State) (p : Nat) (t : Time70) : Time70 :=
  if s.flag (F.TP_CTL_MODE p) then BitVec.ofNat 70 (64 * expandTime s.tb.toNat (t.toNat / 64)) else t

/-- R261: a SYNC received on the upstream port, its SOF at `age` before now. A tap uses TP_TAPDLY (R256). How long the
receiver's path takes comes with the command (DESIGN CHOICE, log 134). -/
def syncRecv (p : Nat) (ts0 : Time70) (age : BitVec 16) (s : State) : State :=
  let ts := portStamp s p ts0
  let tr := s.stampBefore age
  let up := portOn s p && !isFeed s p && s.flag F.TMP_STAT_UPVALID && s.get F.TMP_STAT_UPPORT == p
  if up && (isTap s p || (s.tport p).measured) then
    let asym : Int := (BitVec.ofNat 16 (s.get (F.TP_ASYM_VALUE p))).toInt
    let delay : Int := if isTap s p then (s.get (F.TP_TAPDLY_VALUE p) : Int)
      else (BitVec.ofNat 32 (s.get (F.TP_DELAY_VALUE p))).toInt + asym
    let o := stampDiff tr ts - delay
    lockState o (correct o true (s.put F.TMP_OFFSET_VALUE (BitVec.ofInt 32 o).toNat))
  else s

/-- R258: a parent port sends SYNC with the timestamp of its own SOF. -/
def syncSend (p : Nat) (frac : BitVec 6) (s : State) : State :=
  if linkUp s p && s.get (F.TP_STAT_ROLE p) == 2 then
    let t := s.tport p
    tempoSend p (.sync (s.stampNow frac) t.syncSeq) (s.setTport p { t with syncSeq := (t.syncSeq + 1) % 65536 })
  else s

/-- R258, R261: a child sends DREQ upstream; a tap sends nothing (R256). -/
def dreqSend (p : Nat) (frac : BitVec 6) (s : State) : State :=
  if linkUp s p && s.get (F.TP_STAT_ROLE p) == 1 && !isTap s p then
    let t := s.tport p
    tempoSend p (.dreq t.dreqSeq (s.stampNow frac)) (s.setTport p { t with dreqSeq := (t.dreqSeq + 1) % 65536 })
  else s

/-- R261: a parent answers a DREQ, its SOF at `age` before now, with DRESP; a feed port does not (R256). -/
def dreqRecv (p seq : Nat) (age : BitVec 16) (frac : BitVec 6) (s : State) : State :=
  s.when (linkUp s p && s.get (F.TP_STAT_ROLE p) == 2 && !isFeed s p)
    (tempoSend p (.dresp seq (s.stampBefore age) (s.stampNow frac)))

/-- R261: a child receiving the DRESP to its DREQ, its SOF at `age` before now, computes the mean one-way delay. -/
def drespRecv (p seq : Nat) (t2 t3 : Time70) (age : BitVec 16) (s : State) : State :=
  match (s.tport p).dreqT1 with
  | some (q, t1) =>
    if q == seq && portOn s p && !isFeed s p then
      let d := (stampDiff (s.stampBefore age) t1 - stampDiff (portStamp s p t3) (portStamp s p t2)) / 2
      (s.setTport p { s.tport p with dreqT1 := none, measured := true }).put
        (F.TP_DELAY_VALUE p) (BitVec.ofInt 32 d).toNat
    else s
  | none => s

/-- The PTP clock of cluster `c` in 1/64 ns (R374). -/
def phcTotal (s : State) (c : Nat) : Nat :=
  let p := s.phc.get c {}
  64 * (1000000000 * p.sec + p.ns) + p.frac / 2 ^ 26

/-- R274: a disciplined root takes the PTP clock in place of the upstream offset, with a forward step
only. -/
def ptpCorrect (s : State) : State :=
  if s.get F.TMP_STAT_STATE == 4 && s.flag F.TMP_CFG_PTPDISC then
    correct (64 * (s.tb.toNat : Int) + s.tempo.phase - (phcTotal s (s.get F.TMP_CFG_PTPCL) : Int)) true s
  else s

/-- R262: the phase of TBCLK moves by 1/64 ns toward zero offset, at most once in 64 cycles; each time it passes a whole
ns, TB advances by 0 or 2 in one later cycle. -/
def phaseSlew (s0 : State) : State :=
  let s := ptpCorrect s0
  let t := s.tempo
  if t.owed == 0 || t.slewWait != 0 then s
  else
    let d : Int := if t.owed < 0 then -1 else 1
    let ph := t.phase + d
    let (ph', skew) := if ph ≤ -64 then (ph + 64, t.tbSkew - 1)
      else if 64 ≤ ph then (ph - 64, t.tbSkew + 1) else (ph, t.tbSkew)
    { s with tempo := { t with phase := ph', tbSkew := skew, owed := t.owed - d, slewWait := 64 } }

/-! ### Positions across the domain (R265–R267) -/

/-- R265: the velocity of R30 with K = 4 in units of 2⁻³² counts per ns, when five stamps are held. -/
def velocity (e : EncCh) : Option Word :=
  match e.hist with
  | [t0, _, _, _, t4] =>
    let m := roundDiv (4 * 2 ^ 32) (t0 - t4)
    some (BitVec.ofInt 32 (if e.lastUp then (m : Int) else -(m : Int)))
  | _ => none

/-- R266, R33: a sample takes effect: it loads the followers when LOADSEQ differs from the previous one's,
and ends staleness. -/
def takeEffect (c : Nat) (smp : Sample) (s : State) : State :=
  let t := s.tpc c
  let reload := match t.cur with
    | some o => o.loadSeq != smp.loadSeq
    | none => false
  let s1 := s.setTpc c { t with cur := some smp, effAt := s.cycle }
  s1.each 16 fun n u =>
    if u.follows n && u.get (F.TMP_FOLLOW_TPC n) == c then
      (u.when reload (encSetPosition n smp.pn)).put (F.TMP_FOLLOW_STALE n) 0
    else u

/-- R267: the samples that wait, in the order in which they take effect: by TS, and by arrival among equals. -/
def insertSample (smp : Sample) : List Sample → List Sample
  | [] => [smp]
  | x :: l => if smp.ts < x.ts then smp :: x :: l else x :: insertSample smp l

/-- R265, R267: a sample arrives: the lower ORIGIN of two publishers is taken; an older sample is
discarded; one past its effect time takes effect at once and is reported. -/
def sampleArrive (c : Nat) (smp : Sample) (s : State) : State :=
  let t := s.tpc c
  let dup := match t.lastOrigin with
    | some o => o != smp.origin
    | none => false
  let lower := match t.lastOrigin with
    | some o => decide (smp.origin ≤ o)
    | none => true
  let s1 := s.when dup fun u => u.setIrq F.TMP_STAT_DUPID tmpPage 1
  if !lower then s1
  else
    let s2 := s1.setTpc c { t with lastOrigin := some smp.origin }
    let old := match t.cur with
      | some o => decide (smp.ts < o.ts)
      | none => false
    if old then s2
    else if smp.ts + leadNow s < s.tb.toNat then
      takeEffect c smp ((s2.setIrq F.TMP_STAT_LATE_SAMPLE tmpPage 3).count F.TMP_LATECNT_VALUE 1)
    else s2.setTpc c { s2.tpc c with pending := insertSample smp t.pending }

/-- R267: TB reaches TS + LEAD of the waiting sample of TPC `c` with the lowest TS. -/
def sampleEffect (c : Nat) (s : State) : State :=
  match (s.tpc c).pending with
  | smp :: rest =>
    if smp.ts + leadNow s ≤ s.tb.toNat then
      let s1 := s.setTpc c { s.tpc c with pending := rest }
      match (s.tpc c).cur with
      | some o => if smp.ts < o.ts then s1 else takeEffect c smp s1
      | none => takeEffect c smp s1
    else s
  | [] => s

/-- R265: a publishing device sends a POS frame, and applies its own sample as every other device. -/
def posSend (c : Nat) (s : State) : State :=
  if s.flag (F.TMP_PUB_EN c) && mayPublish s then
    let n := s.get (F.TMP_PUB_ENC c)
    let e := s.enc n
    let (k, s1) := if e.stamp.isNone || (velocity e).isNone then s.nextFree else (0, s)
    let tn := e.stamp.getD (Config.freeNat k)
    let vel := (velocity e).getD (Config.freeWord k)
    let id := s.get F.TMP_ID_ID
    let smp : Sample := ⟨id, e.loadSeq, s.encPos n, tn, vel, s.tb.toNat⟩
    sampleArrive c smp (flood (.pos id c e.loadSeq smp.pn (tn % 2 ^ 48) vel (s.tb.toNat % 2 ^ 48)) none s1)
  else s

/-- R266: the follower's extrapolated count, ⌊PN + VEL·(t − TN)⌋. -/
def followX (smp : Sample) (tb : Nat) : Pos48 :=
  smp.pn + BitVec.ofInt 48 ((smp.vel.toInt * ((tb : Int) - (smp.tn : Int))) / 2 ^ 32)

/-- R266: follower `n` counts one transition toward the extrapolated position, one per cycle. -/
def followerTransition (n : Nat) (s : State) : State :=
  if s.follows n && !s.flag (F.TMP_FOLLOW_STALE n) && (s.enc n).stamp != some s.tb.toNat then
    match (s.tpc (s.get (F.TMP_FOLLOW_TPC n))).cur with
    | some smp =>
      let d := followX smp s.tb.toNat - s.encPos n
      if d == 0 then s else encCount n (!d.msb) s
    | none => s
  else s

/-- R266: no new sample took effect within 2 × INT: the follower holds and STALE is set. -/
def staleNow (n : Nat) (s : State) : State :=
  let c := s.get (F.TMP_FOLLOW_TPC n)
  let int := max 1 (s.get (F.TMP_PUB_INT c))
  if s.follows n && decide ((s.tpc c).effAt + 2 * int * 1000 < s.cycle) then
    (s.setIrq (F.TMP_FOLLOW_STALE n) tmapPage 0).setTpc c { s.tpc c with lastOrigin := none }
  else s

/-! ### Flooded frames received (R259, R269, R270, R273) -/

/-- A port takes a flooded frame: UP or DOWN, not a feed port's receiver, and carried by its mode. -/
def takesFlooded (s : State) (p : Nat) (f : TempoFrame) : Bool :=
  portOn s p && !isFeed s p && (s.get (F.TP_STAT_ROLE p) == 1 || s.get (F.TP_STAT_ROLE p) == 2)
    && (!s.flag (F.TP_CTL_MODE p) || v1Carries f)

/-- R259: a flooded frame from another device is forwarded and then acted on. -/
def recvFlooded (p origin : Nat) (f : TempoFrame) (act : State → State) (s : State) : State :=
  if takesFlooded s p f && origin != s.get F.TMP_ID_ID then act (flood f (some p) s) else s

/-- R265–R267: a POS frame received. -/
def posRecv (p origin c loadSeq : Nat) (pn : Pos48) (tn : Nat) (vel : Word) (ts : Nat) (s : State) : State :=
  recvFlooded p origin (.pos origin c loadSeq pn tn vel ts)
    (sampleArrive c ⟨origin, loadSeq, pn, expandTime s.tb.toNat tn, vel, expandTime s.tb.toNat ts⟩) s

/-- R270: a BEAT frame received; a v1 port's fraction is ignored. -/
def beatRecv (p origin ch act tfrac seq : Nat) (pos : Pos48) (time : Nat) (s : State) : State :=
  let tf := if s.flag (F.TP_CTL_MODE p) then 0 else tfrac
  recvFlooded p origin (.beat origin ch act tf seq pos time) (mapBeat origin ch act tf seq time) s

/-- R269: a SCHED frame received for an enabled TSQ is pushed into its kind 3 channel. -/
def schedRecv (p origin tsq : Nat) (byTime : Bool) (act : Nat) (value : Dword) (s : State) : State :=
  recvFlooded p origin (.sched origin tsq byTime act value) (fun t =>
    if t.flag (F.TMP_SMAP_EN tsq) then
      let c := t.get (F.TMP_SMAP_CH tsq)
      if schedKind t c == 3 then schedPush c byTime value act 0 t
      else t.setIrq (F.BC_STAT_SCHED_REFUSED c) bcPage 1
    else t) s

/-! ### Links (R257, R271, R272) -/

/-- R258, R259: a CTRL frame with a code that this device does not know is passed on. -/
def ctrlOther (p : Nat) (b : List Byte) (s : State) : State :=
  let field := fun i n => leNat ((b.drop i).take n)
  if field 0 1 == 8 && !([0x10, 0x20, 0x21].contains (field 3 1)) then
    recvFlooded p (field 1 2 % 2 ^ 14) (.ctrl (field 1 2 % 2 ^ 14) (field 3 1) (BitVec.ofNat 64 (field 4 8))) id s
  else s

/-- R257, R258, R276: what port `p` receives that is no frame of another command: code violations outside frames, and
what stands between an SOF and an EOF, with the code violations in it. A frame with a violation, an unknown TYPE, a wrong
length or a wrong CRC is discarded and counted. -/
def tempoDiscard (p : Nat) (noise : PortNoise) (s : State) : State :=
  if portOn s p && !isFeed s p then
    let s1 := s.count (F.TP_CODEERR_VALUE p) noise.violations.toNat
    match noise.frame with
    | none => s1
    | some b =>
      if noise.violations != 0 || s.flag (F.TP_CTL_MODE p) || !frameOk b then s1.count (F.TP_CRCERR_VALUE p) 1
      else ctrlOther p b s1
  else s

/-- R271, R272: port `p`'s link goes down; a device that loses its upstream port enters HOLDOVER and
looks for another port to the same root. -/
def tempoLinkDown (p : Nat) (s : State) : State :=
  if s.flag (F.TP_STAT_LINK p) && !isFeed s p then
    let wasUp := s.flag F.TMP_STAT_UPVALID && s.get F.TMP_STAT_UPPORT == p
    let s1 := ((s.setTport p {}).put (F.TP_STAT_LINK p) 0).setIrq (F.TP_STAT_LOSS p) (tpPage p) 0
    if wasUp then
      elect true ((s1.put F.TMP_STAT_UPVALID 0).setTmpState 3)
    else elect (s.get F.TMP_STAT_STATE == 3) s1
  else s

/-- R271, R272: a down port returns to service after clean symbols and two valid ANNOUNCE frames; a v1 port,
which carries none, after clean symbols. A device in HOLDOVER takes only a port to the same root, but a tap whose link
returns takes what its feeder announces (R256). -/
def tempoLinkUp (p : Nat) (s : State) : State :=
  if portOn s p && !isFeed s p && !s.flag (F.TP_STAT_LINK p)
      && (s.flag (F.TP_CTL_MODE p) || decide (2 ≤ (s.tport p).announces)) then
    elect (s.get F.TMP_STAT_STATE == 3 && !isTap s p) (s.put (F.TP_STAT_LINK p) 1)
  else s

/-- R272: what port `p` has heard of its root is 300 µs old. -/
def seqStale (s : State) (p : Nat) : Bool :=
  (s.tport p).announces != 0 && !(s.tport p).lost && decide (300000 + (s.tport p).seqAt ≤ s.cycle)

/-- R272: ROOTSEQ unchanged for 300 µs: the root is lost. What a port has heard of it does not count until ROOTSEQ moves
there again, and the best remaining candidate becomes root. A v1 parent sends no ROOTSEQ (R273); a tap in HOLDOVER stays
there until its link returns (R256). A device that has not joined, because it would lie too deep, sees a root lost on
the ports that announce it (DEDUCED, log 159). -/
def rootLost (s : State) : State :=
  let st := s.get F.TMP_STAT_STATE
  let apart := st == 0 && s.flag F.TMP_STAT_TOO_DEEP && (List.range 4).any (seqStale s)
  let joined := st != 4 && st != 0 && !s.flag F.TMP_STAT_NOPOS && decide (300000 + s.tempo.rootSeqAt ≤ s.cycle)
    && !(st == 3 && isTapDevice s)
  if joined || apart then
    let s1 := s.each 4 fun p t =>
      t.when (seqStale t p && (apart || (t.tport p).rootId == s.get F.TMP_ROOT_ROOTID)) fun u =>
        u.setTport p { u.tport p with lost := true }
    elect false { s1 with tempo := { s1.tempo with rootSeqAt := s.cycle } }
  else s

/-- A write of TMP_CFG or TP_CTL changes which ports run: a port no longer served has no link. Disabling Tempo forgets
that the device's own ID was seen (log 23). -/
def tempoRefresh (s : State) : State :=
  let s0 := s.when (!s.flag F.TMP_CFG_EN) fun t => { t with tempo := { t.tempo with dupOwn := false } }
  let s1 := s0.each 4 fun p t =>
    t.when (!portOn t p) fun u => (u.setTport p {}).put (F.TP_STAT_LINK p) 0
  elect (s.get F.TMP_STAT_STATE == 3) s1

/-! ### The meanings -/

def execAnnounceSend (p : Fin 4) (s : State) : Result := .next (announceSend p s)
def execAnnounce (p : Fin 4) (id rootId : BitVec 14) (rootPri : Fin 16) (parent : Bool) (depth : Fin 8)
    (rootSeq : Byte) (lead : Word) (s : State) : Result :=
  .next (announceRecv p id.toNat rootId.toNat rootPri parent depth rootSeq.toNat lead.toNat s)
def execSyncSend (p : Fin 4) (frac : BitVec 6) (s : State) : Result := .next (syncSend p frac s)
def execSync (p : Fin 4) (ts : Time70) (age : BitVec 16) (s : State) : Result := .next (syncRecv p ts age s)
def execPhaseSlewStep (s : State) : Result := .next (phaseSlew s)
def execDreqSend (p : Fin 4) (frac : BitVec 6) (s : State) : Result := .next (dreqSend p frac s)
def execDreq (p : Fin 4) (seq : BitVec 16) (age : BitVec 16) (frac : BitVec 6) (s : State) : Result :=
  .next (dreqRecv p seq.toNat age frac s)
def execDresp (p : Fin 4) (seq : BitVec 16) (t2 t3 : Time70) (age : BitVec 16) (s : State) : Result :=
  .next (drespRecv p seq.toNat t2 t3 age s)
def execPosSend (c : Fin 16) (s : State) : Result := .next (posSend c s)
def execPos (p : Fin 4) (origin : BitVec 14) (c : Fin 16) (loadSeq : Byte) (pn tn : Pos48) (vel : Word)
    (ts : Pos48) (s : State) : Result :=
  .next (posRecv p origin.toNat c loadSeq.toNat pn tn.toNat vel ts.toNat s)
def execSampleEffect (c : Fin 16) (s : State) : Result := .next (sampleEffect c s)
def execFollowerTransition (n : Fin 16) (s : State) : Result := .next (followerTransition n s)
def execStale (n : Fin 16) (s : State) : Result := .next (staleNow n s)
def execBeatFrame (p : Fin 4) (origin : BitVec 14) (ch : Fin 64) (act : Fin 16) (tfrac : Fin 8)
    (seq : BitVec 16) (pos time : Pos48) (s : State) : Result :=
  .next (beatRecv p origin.toNat ch act tfrac seq.toNat pos time.toNat s)
def execSchedFrame (p : Fin 4) (origin : BitVec 14) (tsq : Fin 16) (byTime : Bool) (act : Fin 16)
    (value : Dword) (s : State) : Result :=
  .next (schedRecv p origin.toNat tsq byTime act value s)
def execTempoFrameDiscard (p : Fin 4) (noise : PortNoise) (s : State) : Result := .next (tempoDiscard p noise s)
def execLinkDown (p : Fin 4) (s : State) : Result := .next (tempoLinkDown p s)
def execLinkUp (p : Fin 4) (s : State) : Result := .next (tempoLinkUp p s)
def execRootLost (s : State) : Result := .next (rootLost s)

end Sys2Proof.Machine
end

