-- ==== Sys2Proof/Machine/Collector.lean ====
section
/-! DEFINITION. Reports and the collector (R150, R153–R157): forming a report from a stream queue, its
credits, arrival at the collector's inputs, and selection by round robin or by position. -/

namespace Sys2Proof.Machine

open Sys2Proof

abbrev colPage : Nat := 0x03050000

/-! ### Forming reports (R150, R154) -/

/-- The collector's endpoint (R217): edge router EE4, endpoint 2. -/
abbrev collectorRouter : Nat := 92

/-- R154: header words 0 and 1 of a report of queue `q` of massif `m`. -/
def reportHead (m q : Nat) (cont poison : Bool) (pay : List SWord) : Word × Word :=
  let bit := fun (f : SWord → Bool) => ((List.range pay.length).zip pay).foldl (fun acc (j, w) => acc + b2n (f w) * 2 ^ j) 0
  (BitVec.ofNat 32 (pay.length - 1 + 16 * b2n cont + 32 * b2n poison + 64 * b2n (pay.any (·.m)) + 2 ^ 8 * m + 2 ^ 14 * q),
   BitVec.ofNat 32 (bit (·.p) + 2 ^ 16 * bit (·.m)))

/-- The report packet (R220, R221): four header words, then the payload. -/
def reportPacket (m q : Nat) (cont poison : Bool) (stamp : Pos48) (rseq : Nat) (pay : List SWord) : Packet :=
  let (h0, h1) := reportHead m q cont poison pay
  let h3 := stamp.toNat / 2 ^ 32 + 2 ^ 16 * (rseq % 2 ^ 16)
  { dst := collectorRouter, dport := 2, src := m, sport := 1, vn := 3, typ := 1, size := pay.length - 1,
    words := [h0, h1, stamp.truncate 32, BitVec.ofNat 32 h3] ++ pay.map (·.d) }

/-- R150: queue `q` has a report ready: it is enabled, its sink is the collector, and it holds a word with
E = 1 or 16 unread words. -/
def reportReady (s : State) (m q : Nat) : Bool :=
  s.flag (F.SQ_CTL_EN m q) && s.get (F.SQ_CTL_RSINK m q) == 2 && (packetReady (unread s m q) 16).isSome

/-- Credits that massif `m` holds (R153). -/
def credits (s : State) (m : Nat) : Nat := s.col.credits.get m 32

def setCredits (m n : Nat) (s : State) : State :=
  { s with col := { s.col with credits := s.col.credits.set m n 32 } }

/-- R150: the queue whose turn it is at massif `m`'s collector input. -/
def reportTurn (s : State) (m : Nat) : Option Nat :=
  let r := s.col.rr.get m 0
  ((List.range 32).map fun i => (r + i) % 32).find? (reportReady s m)

/-- The words from the front to the first E, at most `n`. -/
def toE (l : List QWord) (n : Nat) : List QWord :=
  match (l.take n).findIdx? (·.w.e) with
  | some i => l.take (i + 1)
  | none => l.take n

/-- STAMPSRC = 1 (R154): the stamp that a packet's first two words spell; a packet of one word leaves the
upper half unstated, and it is a free value. -/
def wordStamp (ws : List SWord) (free : Word) : Pos48 :=
  let lo := (ws.head?.map (·.d)).getD 0
  let hi := ((ws.drop 1).head?.map (·.d)).getD free
  (hi.truncate 16 : BitVec 16) ++ lo

/-- R150, R154: queue `q` sends its next report. `bad`: upsets strike these unread words of it first. -/
def reportSend (m q : Nat) (bad : List Nat) (s : State) : State :=
  let x := s.queue m q
  let u := unread s m q
  let byWord := s.flag (F.SQ_AUX_STAMPSRC m q)
  let st := if byWord then toE u (2 - x.rhead.length) else []
  let ended := st.any (·.w.e)
  let pay := if ended then [] else toE (u.drop st.length) 16
  let (ws, s1) := takeMany m q (st.length + pay.length) (queueStrike m q bad s)
  let sw := x.rhead ++ ws.take st.length
  let (fr, s2) := if byWord && sw.length < 2 then s1.nextFree else (0, s1)
  let (stamp, stampP) := if byWord then (wordStamp sw (Config.freeWord fr), sw.any (·.p))
    else ((u.head?.map (·.stamp)).getD 0, false)
  let payW := if ended then [⟨0, true, false, false⟩] else ws.drop st.length
  let cont := !(payW.getLast?.any (·.e))
  let p := reportPacket m q cont (stampP || payW.any (·.p)) stamp x.rseq payW
  let s3 := s2.setQueue m q { s2.queue m q with rseq := x.rseq + 1 }
  niSend p (setCredits m (credits s m - 1) s3)

/-- R150, R153: massif `m` forms and sends a report while it holds a credit. -/
def reportForm (m : Nat) (bad : List Nat) (s : State) : State :=
  if sinksRun s m && decide (0 < credits s m) then
    match reportTurn s m with
    | some q =>
      let s1 := reportSend m q bad s
      { s1 with col := { s1.col with rr := s1.col.rr.set m ((q + 1) % 32) 0 } }
    | none => s
  else s

/-! ### Inputs and selection (R153, R155–R157) -/

def colInput (s : State) (i : Nat) : List Report := s.col.inputs.get i []

/-- COL_OCC: reports held by input `i`. -/
def setColInput (i : Nat) (l : List Report) (s : State) : State :=
  let s1 := { s with col := { s.col with inputs := s.col.inputs.set i l [] } }
  let f := F.COL_OCC_VALUE (i / 4)
  let k := 256 ^ (i % 4)
  let old := s.get f
  s1.put f (old - (old / k % 256) * k + l.length * k)

def setOutq (l : List Report) (s : State) : State :=
  let s1 := { s with col := { s.col with outq := l } }
  (s1.putB F.COL_STAT_OUTFULL (decide (256 ≤ l.length))).put F.COL_STAT_OUTOCC l.length

/-- A report as its packet carries it. -/
def reportOf (p : Packet) : Report :=
  let w := fun i => p.words.getD i 0
  ⟨w 0, w 1, ((w 3).truncate 16 : BitVec 16) ++ w 2, (w 3).toNat / 2 ^ 16, p.words.drop 4⟩

/-- R153: a REPORT packet enters its massif's input. -/
def reportArrive (p : Packet) (s : State) : State :=
  setColInput p.src (colInput s p.src ++ [reportOf p]) s

def inputEnabled (s : State) (i : Nat) : Bool :=
  if i < 32 then (s.get F.COL_INEN_LO_BITS).testBit i else (s.get F.COL_INEN_HI_BITS).testBit (i - 32)

/-- Enabled inputs that hold a report, in ascending order. -/
def inputsReady (s : State) : List Nat := (List.range 64).filter fun i => inputEnabled s i && !(colInput s i).isEmpty

/-- Stamp of the head report of input `i`. -/
def headStamp (s : State) (i : Nat) : Pos48 := ((colInput s i).head?.map (·.stamp)).getD 0

/-- `a` is smaller than `b` under R26. -/
def stampLess (a b : Pos48) : Bool := (a - b).msb

/-- The input with the smallest head stamp; on a tie the lowest. -/
def smallestHead (s : State) : List Nat → Option Nat
  | [] => none
  | i :: l => match smallestHead s l with
    | none => some i
    | some j => if stampLess (headStamp s j) (headStamp s i) then some j else some i

/-- R156: heads that the live position has passed by LAG or more. -/
def lagged (s : State) (i : Nat) : Bool :=
  let d := (s.encPos (s.get F.COL_ORDER_ENC) - headStamp s i).toInt
  decide ((s.get F.COL_LAG_VALUE : Int) ≤ d)

/-- R155, R156: the input selected now. -/
def colPick (s : State) : Option Nat :=
  let ready := inputsReady s
  if s.flag F.COL_CTL_ORDER then
    if (List.range 64).all fun i => !inputEnabled s i || !(colInput s i).isEmpty then smallestHead s ready
    else smallestHead s (ready.filter (lagged s))
  else ((List.range 64).map fun i => (s.col.pointer + i) % 64).find? ready.contains

/-- R208: word `i` of a report fails its parity check: a payload word sets its PMASK bit and POISON, a header
word sets POISON and every PMASK bit. -/
def reportWordBad (r : Report) (i : Nat) : Report :=
  if i < 4 then { r with h0 := r.h0 ||| 0x20, h1 := r.h1 ||| 0xFFFF }
  else if i < 4 + r.payload.length then { r with h0 := r.h0 ||| 0x20, h1 := r.h1 ||| ((1 : Word) <<< (i - 4)) }
  else r

/-- R208: the listed words of a report fail their parity checks. -/
def reportParity (bad : List Nat) (r : Report) : Report := bad.foldl reportWordBad r

/-- R153, R155–R157: the collector selects one report, which enters the output queue. -/
def colSelect (bad : List Nat) (s : State) : State :=
  if s.flag F.COL_CTL_EN && decide (s.col.outq.length < 256) then
    match colPick s with
    | none => s
    | some i =>
      match colInput s i with
      | [] => s
      | r0 :: rest =>
        let r := reportParity bad r0
        let late := s.flag F.COL_CTL_ORDER && s.col.lastStamp.any (stampLess r.stamp)
        let r' := if late then { r with h0 := r.h0 ||| 0x80 } else r
        let s1 := setOutq (s.col.outq ++ [r']) (setColInput i rest s)
        let s2 := setCredits i (credits s i + 1) s1
        let s3 := { s2 with col := { s2.col with lastStamp := some r.stamp, pointer := if s.flag F.COL_CTL_ORDER then s.col.pointer else (i + 1) % 64 } }
        s3.when late fun t => (t.setIrq F.COL_STAT_ORDER_VIOL colPage 0).count F.COL_LATECNT_VALUE 1
  else s

/-- R158: the head of the output queue goes to its sink: it is counted. -/
def colPassed (s : State) : State :=
  match s.col.outq with
  | [] => s
  | r :: rest =>
    let s1 := (setOutq rest s).put F.COL_OUTCNT_VALUE (s.get F.COL_OUTCNT_VALUE + 1)
    s1.when (r.h0.getLsbD 5) fun t => (t.count F.COL_POISONCNT_VALUE 1).irq colPage 1

/-! ### The meanings -/

def execReportForm (m : Fin 64) (bad : List (Fin 18)) (s : State) : Result := .next (reportForm m (bad.map (·.val)) s)
/-- `bad`: the words of the head report whose parity checks fail. -/
def execCollectorSelect (bad : List (Fin 20)) (s : State) : Result := .next (colSelect (bad.map (·.val)) s)

end Sys2Proof.Machine
end

