-- ==== Sys2Proof/Machine/CoreState.lean ====
section
/-! DEFINITION. The control cores apart from their instructions: registers and control registers
(R303–R306), interrupt lines (R315–R317), halts, exceptions and returns (R311–R313), windows (R318),
release and resets (R308, R327, R328). -/

namespace Sys2Proof.Machine

open Sys2Proof

abbrev clPage (m : Nat) : Nat := massifBase m + 0x6000
abbrev leadPage (i : Nat) : Nat := 0x00300000 + 0x1000 * i
abbrev l2Page : Nat := 0x00304000

/-- Cores 64–67 are the Lead Callers. -/
def isLead (c : Nat) : Bool := decide (64 ≤ c)
def leadIdx (c : Nat) : Nat := c - 64

/-- The router and the endpoint at which a core sits (R217). -/
def coreRouter (c : Nat) : Nat := if c < 64 then c else if c < 66 then 83 else 84
def corePort (_ : Nat) : Nat := 2

namespace State

def core (s : State) (c : Nat) : Core := s.cores.core.get c {}
def setCore (s : State) (c : Nat) (x : Core) : State :=
  { s with cores := { s.cores with core := s.cores.core.set c x {} } }

end State

/-! ### Page fields of either kind of core -/

def fRunning (c : Nat) : Fld := if isLead c then F.LEAD_STAT_RUNNING (leadIdx c) else F.CL_STAT_RUNNING c
def fHalted (c : Nat) : Fld := if isLead c then F.LEAD_STAT_HALTED (leadIdx c) else F.CL_STAT_HALTED c
def fHaltCode (c : Nat) : Fld := if isLead c then F.LEAD_HALT_CODE (leadIdx c) else F.CL_HALT_CODE c
def fHaltPc (c : Nat) : Fld := if isLead c then F.LEAD_PC_VALUE (leadIdx c) else F.CL_PC_VALUE c
def fBell (c : Nat) : Fld := if isLead c then F.LEAD_DOORBELL_BITS (leadIdx c) else F.CL_DOORBELL_BITS c
def fBellP (c : Nat) : Fld := if isLead c then F.LEAD_DOORBELL_P (leadIdx c) else F.CL_DOORBELL_P c
def corePage (c : Nat) : Nat := if isLead c then leadPage (leadIdx c) else clPage c

/-- The core executes: it is released, not halted, and not stopped with its massif, by a warm reset or by
the load hold (R327, R416, R430, R437). -/
def coreRuns (s : State) (c : Nat) : Bool :=
  s.flag (fRunning c) && !s.loadHold && s.power.warmPhase == 0 && (isLead c || s.massifUp c)

/-- R310, R324: core `c` has an instruction under way, whose answers are still to come: it is at no boundary. A wait for
beat can be left while it reads (R350). -/
def midInstr (s : State) (c : Nat) : Bool := s.waits c && (s.core c).wfb.isNone

/-- The spill engine of core `c` as a requester. -/
abbrev engineKey (c : Nat) : Nat := 128 + c

/-! ### PSW (R304) -/

abbrev pswIE : Nat := 0
abbrev pswFE : Nat := 1
abbrev pswUSER : Nat := 2
abbrev pswEXL : Nat := 3
abbrev pswFM : Nat := 4
abbrev pswRSV : Nat := 5
abbrev pswRESUMED : Nat := 6

def Core.bit (x : Core) (i : Nat) : Bool := x.psw.getLsbD i

/-- A word with bit `i` set to `b`. -/
def withBit (w : Word) (i : Nat) (b : Bool) : Word :=
  if b then w ||| ((1 : Word) <<< i) else w &&& ~~~((1 : Word) <<< i)

def Core.setBit (x : Core) (i : Nat) (b : Bool) : Core := { x with psw := withBit x.psw i b }

/-- The bits that PSW has: CWP and RSV exist on a Lead Caller only. -/
def pswMask (lead : Bool) : Word := if lead then 0xF7F else 0x5F

/-- Current window pointer. -/
def Core.cwp (x : Core) : Nat := bitsOf x.psw.toNat 8 4 % 15

def Core.setCwp (x : Core) (n : Nat) : Core :=
  { x with psw := (x.psw &&& 0xFFFFF0FF) ||| BitVec.ofNat 32 (n % 15 * 256) }

/-! ### General and special registers (R303, R318, R321, R338) -/

/-- Where w_i of the present bank and window is held. -/
inductive WReg where
  | bank (i : Nat)
  | flat (i : Nat)
  | frame (f i : Nat)
  /-- w8–w15 in reserve mode: read 0, ignore writes. -/
  | none
  deriving DecidableEq, Repr

def wReg (lead : Bool) (x : Core) (i : Nat) : WReg :=
  if x.bit pswFM then .bank i
  else if !lead then .flat i
  else if x.bit pswRSV then (if i < 8 then .frame 15 i else .none)
  else .frame ((x.cwp + i / 8) % 15) (i % 8)

def readW (x : Core) : WReg → Word
  | .bank i => x.w1.get i 0
  | .flat i => x.w.get i 0
  | .frame f i => x.frames.get (f * 8 + i) 0
  | .none => 0

def writeW (x : Core) (d : Word) : WReg → Core
  | .bank i => { x with w1 := x.w1.set i d 0 }
  | .flat i => { x with w := x.w.set i d 0 }
  | .frame f i => { x with frames := x.frames.set (f * 8 + i) d 0 }
  | .none => x

/-- Value of register field `n`. -/
def regRead (lead : Bool) (x : Core) (n : Nat) : Word :=
  if n < 8 then x.k.get n 0
  else if n < 24 then readW x (wReg lead x (n - 8))
  else match n with
    | 25 => x.lr
    | 26 => x.psw
    | 27 => x.epc
    | 28 => x.epsw
    | 29 => x.ecause
    | 30 => x.eaddr
    | 31 => x.lsm.zeroExtend 32
    | _ => 0

/-- R338: an instruction writes register field `n`. -/
def regWrite (lead : Bool) (x : Core) (n : Nat) (d : Word) : Core :=
  if n < 8 then { x with k := x.k.set n d 0 }
  else if n < 24 then writeW x d (wReg lead x (n - 8))
  else match n with
    | 25 => { x with lr := d }
    | 26 => { x with psw := (x.psw &&& ~~~(0xF : Word)) ||| (d &&& 0xF) }
    | 27 => { x with epc := d }
    | 28 => { x with epsw := d }
    | 29 => { x with ecause := d }
    | 30 => { x with eaddr := d }
    | 31 => { x with lsm := d.truncate 24 }
    | _ => x

/-- R303: field 25 (LR) does not exist on a Lead Caller. -/
def fieldExists (lead : Bool) (n : Nat) : Bool := !(lead && n == 25)

/-- R305: a write to these fields takes PRIV in user mode. -/
def fieldPriv (n : Nat) : Bool := decide (26 ≤ n)

/-! ### Interrupt lines (R315–R317) -/

/-- Base of the page behind DIST source `n` (R466), if there is one. -/
def sourcePage (n : Nat) : Option Nat :=
  if n < 1024 then
    let k := n % 16
    if k < 8 || k == 10 then some (massifBase (n / 16) + 0x1000 * k) else none
  else if n ≤ 1032 then some (0x1000 * (n - 1024))
  else if 1040 ≤ n && n ≤ 1049 then some (0x00100000 + 0x1000 * (n - 1040))
  else if 1056 ≤ n && n ≤ 1152 then some (0x00200000 + 0x1000 * (n - 1056))
  else if 1184 ≤ n && n ≤ 1188 then some (0x00300000 + 0x1000 * (n - 1184))
  else if 1192 ≤ n && n ≤ 1194 then some (0x00308000 + 0x1000 * (n - 1192))
  else if 1200 ≤ n && n ≤ 1263 then some (0x02000000 + 0x10000 * ((n - 1200) / 2) + 0x3000 * (n % 2))
  else if 1264 ≤ n && n ≤ 1295 then some (0x03000000 + 0x1000 * (n - 1264))
  else if n == 1296 then some 0x03020000
  else if 1297 ≤ n && n ≤ 1300 then some (0x03030000 + 0x8000 * ((n - 1297) / 2) + 0x1000 * ((n - 1297) % 2))
  else if n == 1301 then some 0x03040000
  else if n == 1302 then some 0x03050000
  else if 1304 ≤ n && n ≤ 1311 then some (0x03060000 + 0x1000 * (n - 1304))
  else if 1312 ≤ n && n ≤ 1343 then some (0x03080000 + 0x1000 * (n - 1312))
  else none

/-- R316: level of distributor source `n`. -/
def sourceLevel (s : State) (n : Nat) : Bool :=
  match sourcePage n with
  | some b => s.level b
  | none => false

/-- R316: the DIST_ROUTE entry of source `n`: KIND, LINE, INDEX. -/
def routeOf (s : State) (n : Nat) : Nat × Nat × Nat :=
  let e := bitsOf (s.get (F.DIST_ROUTE_ENTRIES (n / 2))) (16 * (n % 2)) 16
  (e % 8, bitsOf e 3 5, e / 256)

/-- R316: OR of the sources routed to remote line `line` of core `c`. -/
def remoteOr (s : State) (c line : Nat) : Bool :=
  (List.range 1536).any fun n =>
    sourceLevel s n && (routeOf s n) == (if isLead c then (1, line, leadIdx c) else (2, line, c))

/-- R315: level of the 64 lines of core `c`. -/
def lineLevel (s : State) (c n : Nat) : Bool :=
  let x := s.core c
  if n < 16 then
    if isLead c then (n == 0 && s.level (leadPage (leadIdx c))) || (n == 1 && s.level l2Page)
    else sourceLevel s (16 * c + n)
  else if n < 48 then x.remote.getLsbD (n - 16)
  else if n == 48 then decide (x.timecmp.toNat ≤ s.tb.toNat)
  else if n == 49 then s.get (fBell c) != 0
  else false

/-- A line is pending when it is high and enabled (R315). -/
def linePending (s : State) (c n : Nat) : Bool := (s.core c).irqEn.getLsbD n && lineLevel s c n

def anyPending (s : State) (c : Nat) : Bool := (List.range 64).any (linePending s c)

/-- IRQ_PEND: the levels as one value. -/
def lineLevels (s : State) (c : Nat) : Nat :=
  (List.range 64).foldl (fun acc n => acc + b2n (lineLevel s c n) * 2 ^ n) 0

/-- R315: the fast interrupt can be taken. -/
def fastPending (s : State) (c : Nat) : Bool :=
  let x := s.core c
  x.bit pswFE && !x.bit pswFM && (List.range 64).any fun n => linePending s c n && x.irqFast.getLsbD n

/-- R315: the lowest pending normal line, when normal interrupts can be taken. -/
def normalPending (s : State) (c : Nat) : Option Nat :=
  let x := s.core c
  if x.bit pswIE && !x.bit pswEXL && !x.bit pswRSV then
    (List.range 64).find? fun n => linePending s c n && !x.irqFast.getLsbD n
  else none

/-- R317: a bell ORs its word and its P into the doorbell. -/
def ringBell (c : Nat) (w : Word) (p : Bool) (s : State) : State :=
  let s1 := s.put (fBell c) (s.get (fBell c) ||| w.toNat)
  s1.putB (fBellP c) (s.flag (fBellP c) || p)

/-- R317: a W1C write of the doorbell. -/
def bellClear (c : Nat) (v : Word) (s : State) : State :=
  let left := s.get (fBell c) &&& (2 ^ 32 - 1 - v.toNat)
  let s1 := s.put (fBell c) left
  s1.when (left == 0) fun t => t.put (fBellP c) 0

/-- R498: the router of the interrupt distributor. -/
def distRouter : Nat := 91

/-- R221, R316: the message that remote line `line` of core `c` is at `level`. At EW3 and EW4, ADDR[0] chooses the core, as
for a bell; ADDR[5:1] is the line and ADDR[6] the level (DESIGN CHOICE, log 158). -/
def irqPacket (c line : Nat) (level : Bool) : Packet :=
  { dst := coreRouter c, dport := corePort c, src := distRouter, sport := 3, vn := 4, typ := 0
    addr := (if isLead c then c % 2 else 0) + 2 * line + 64 * b2n level }

/-- The packet is a message of that line; at a massif no bit chooses the core. -/
def irqFor (c line : Nat) (p : Packet) : Bool :=
  p.vn == 4 && p.typ == 0 && p.dst == coreRouter c && p.dport == corePort c && (!isLead c || p.addr % 2 == c % 2)
    && p.addr / 2 % 32 == line

/-- A message of that line is still on its way to its core. -/
def irqUnderWay (s : State) (c line : Nat) : Bool :=
  (s.niQueue distRouter 4).any (irqFor c line) || (s.inbox (coreRouter c)).any (irqFor c line)
    || (s.wakeBuf (coreRouter c)).any (irqFor c line) || s.ridge.buf.any fun e => e.2.any fun f => irqFor c line f.pkt

/-- Remote line `line` of core `c`. -/
def remoteLine (s : State) (c line : Nat) : Bool := (s.core c).remote.getLsbD line

/-- A message of core `c` is taken, and the line stands at its level. -/
def irqTake (c line : Nat) (p : Packet) (s : State) : State :=
  let s1 := takeInbox p s
  let x := s1.core c
  let m : BitVec 32 := 1 <<< line
  s1.setCore c { x with remote := if p.addr.testBit 6 then x.remote ||| m else x.remote &&& ~~~m }

/-- R316: a message that has reached its core sets the line; otherwise the distributor sends one where the OR differs from
the line and none is on its way (DESIGN CHOICE, log 158). -/
def irqMessage (c line : Nat) (s : State) : State :=
  match (s.inbox (coreRouter c)).find? fun p => irqFor c line p && here s p with
  | some p => irqTake c line p s
  | none =>
    let level := remoteOr s c line
    if s.flag F.DIST_CTL_EN && !irqUnderWay s c line && level != remoteLine s c line then niSend (irqPacket c line level) s
    else s

/-! ### Halts (R313, R328) -/

inductive HaltCause where
  | windowExhausted | doubleFault | haltInstr | debug
  deriving DecidableEq, Repr

/-- CL_HALT and LEAD_HALT codes (R330, R331). -/
def haltCode (lead : Bool) : HaltCause → Nat
  | .windowExhausted => 1
  | .doubleFault => if lead then 2 else 1
  | .haltInstr => if lead then 3 else 2
  | .debug => if lead then 4 else 3

/-- R313: core `c` halts with its PC as it stands. -/
def coreHalt (c : Nat) (h : HaltCause) (s : State) : State :=
  let lead := isLead c
  let s1 := (((s.put (fRunning c) 0).put (fHalted c) 1).put (fHaltCode c) (haltCode lead h)).put (fHaltPc c) (s.core c).pc.toNat
  let s2 := s1.irq (corePage c) 0
  if lead then
    s2.each 2 fun e t => t.when (t.flag (F.PCI_STAT_LINKUP e)) fun u =>
      { u with host := { u.host with haltMsi := u.host.haltMsi.set e true false } }
  else s2

/-- R328: a debug halt request halts the running core at its next instruction boundary. -/
def haltRequest (c : Nat) (s : State) : State :=
  if !s.flag (fRunning c) then s
  else if midInstr s c then s.setCore c { s.core c with haltReq := true }
  else coreHalt c .debug (s.setCore c { s.core c with wfi := false, haltReq := false })

/-- R328: an instruction boundary of core `c`, at which a halt that was asked for meanwhile is made. -/
def haltDue (c : Nat) (s : State) : State := s.when (s.core c).haltReq fun t =>
  haltRequest c (t.setCore c { t.core c with haltReq := false })

/-- R328: RESUME continues from the halted PC. -/
def coreResume (c : Nat) (s : State) : State :=
  if s.flag (fHalted c) then
    ((s.put (fHalted c) 0).put (fHaltCode c) 0).put (fRunning c) 1
  else s

/-- R328: STEP asks a halted core for one instruction. -/
def stepRequest (c : Nat) (s : State) : State :=
  s.when (s.flag (fHalted c)) fun t => t.setCore c { t.core c with stepReq := true }

/-! ### Exceptions and interrupts (R311–R313, R315, R321) -/

/-- The causes of R311. -/
inductive Cause where
  | instrErr | illegal | priv | align | access | dataErr | syscall | break | windowFill | windowSpill | ctx | busErr
  | irq (n : Nat)
  deriving DecidableEq, Repr

def Cause.code : Cause → Nat
  | .instrErr => 1 | .illegal => 2 | .priv => 3 | .align => 4 | .access => 5 | .dataErr => 6
  | .syscall => 7 | .break => 8 | .windowFill => 9 | .windowSpill => 10 | .ctx => 11 | .busErr => 12
  | .irq n => 0x40 + n

/-- Offset of the vector from VBASE. -/
def Cause.vector : Cause → Nat
  | .irq _ => 0x200
  | k => 0x20 * k.code

/-- Frames free ahead: 15 − N, with N the resident frames (R318). -/
def framesFree (x : Core) : Nat := 14 - (x.cwp + 1 + 15 - x.bot) % 15

/-- R312, R321: what entry writes, with `pc` the address that EPC takes. -/
def enterCore (lead : Bool) (k : Cause) (pc addr : Word) (x : Core) : Core :=
  let x1 := { x with epc := pc, epsw := x.psw, eaddr := addr, lsm := 0,
                     ecause := BitVec.ofNat 32 (k.code + 2 ^ 8 * x.lsm.toNat), pc := x.vbase + BitVec.ofNat 32 k.vector }
  let x2 := ((x1.setBit pswEXL true).setBit pswIE false).setBit pswUSER false
  if k == .windowSpill then x2.setBit pswRSV true
  else if lead then x2.setCwp (x.cwp + 1) else x2

/-- An entry under R312 on a Lead Caller needs a free frame; it waits for the engine (R319). -/
def entryWaits (c : Nat) (x : Core) : Bool := isLead c && framesFree x == 0

/-- R312, R313: a synchronous exception of the instruction at PC: the core halts when EXL, FM or RSV is 1;
an entry that finds no free frame waits, and nothing changes. -/
def raise (c : Nat) (k : Cause) (addr : Word) (s : State) : State :=
  let x := s.core c
  if x.bit pswEXL || x.bit pswFM || x.bit pswRSV then coreHalt c .doubleFault s
  else if entryWaits c x then s
  else s.setCore c (enterCore (isLead c) k x.pc addr { x with wfb := none })

/-- R315: fast interrupt entry. -/
def fastEntry (c : Nat) (s : State) : State :=
  let x := s.core c
  let x1 := { x with fepc := x.pc, fepsw := x.psw, pc := x.vbase + 0x280, wfi := false, wfb := none }
  s.setCore c ((x1.setBit pswFM true).setBit pswUSER false)

/-- RSV, FM, EXL and the rest of PSW as a return restores it. -/
def restorePsw (lead : Bool) (v : Word) (x : Core) : Core := { x with psw := v &&& pswMask lead }

/-! ### Release and reset (R308, R327, R328, R432) -/

/-- The core state of a Lead Caller at release (R308). -/
def leadFresh (s : State) (i : Nat) : Core :=
  let pc := BitVec.ofNat 32 (s.get (F.LEAD_BOOT_PC i))
  { pc := pc, vbase := pc &&& 0xFFFFFC00, ldWin := [(0, s.get (F.LEAD_BOOT_HBM i) + 0x100 + 0x400 + 0x800 + 0x1000)] }

/-- R308: Lead Caller `i` is released and starts. -/
def leadStart (i : Nat) (s : State) : State :=
  let c := 64 + i
  ((((wireEnd (engineKey c) (wireEnd c s)).setCore c (leadFresh s i)).put (fHalted c) 0).put (fHaltCode c) 0).put (fRunning c) 1

/-- R328: RESTART of a halted Lead Caller. R431: of one that a warm reset left in reset. -/
def leadRestart (i : Nat) (s : State) : State :=
  let c := 64 + i
  if s.flag (fRunning c) || s.loadHold then s else leadStart i s

/-- R327: CL_CTL.RUN = 1 releases a Caller that is in reset; RUN = 0 puts it back. -/
def callerRun (m : Nat) (run : Bool) (s : State) : State :=
  let was := s.flag (F.CL_CTL_RUN m)
  let s1 := s.putB (F.CL_CTL_RUN m) run
  if run && !was then ((s1.setCore m {}).put (F.CL_STAT_RUNNING m) 1).put (F.CL_STAT_HELD m) 0
  else if !run && was then
    ((((wireEnd m s1).setCore m {}).put (F.CL_STAT_RUNNING m) 0).put (F.CL_STAT_HALTED m) 0).put (F.CL_HALT_CODE m) 0
  else s1

/-- A request of core `c`: a posted store, or one of its instruction or of its spill engine. -/
def TagOwner.ofCore (c : Nat) : TagOwner → Bool
  | .core c' _ => c' == c
  | .wire k _ _ => k == c || k == engineKey c
  | _ => false

/-- R432: the tags of a core's requests are freed; responses that come afterwards are discarded (R235). -/
def dropPosted (c : Nat) (s : State) : State :=
  let n := coreRouter c
  let s1 := wireEnd (engineKey c) (wireEnd c s)
  s1.setOutReqs n ((s1.outReqs n).filter fun r => !r.owner.ofCore c)

/-- Posted stores of a core that await their acknowledgement; one that timed out has had it (R235, R310). -/
def postedCount (s : State) (c : Nat) : Nat :=
  ((s.outReqs (coreRouter c)).filter fun r => !r.expired && match r.owner with
    | .core c' _ => c' == c
    | _ => false).length

/-! ### Control registers (R306) -/

/-- Control registers that core `c` has. -/
def ctlExists (lead : Bool) (n : Nat) : Bool :=
  n < 4 || (0x010 ≤ n && n ≤ 0x015) || (0x020 ≤ n && n ≤ 0x023) || (!lead && n == 0x030)
    || (lead && ((0x040 ≤ n && n ≤ 0x044) || (0x050 ≤ n && n ≤ 0x05E)))

/-- Frame whose link word FRAME_LINK names. -/
def linkFrame (x : Core) : Nat := if x.bit pswRSV then 15 else x.cwp

/-- R306: reads control register `n`; a read of TB_LO latches TB_HI. -/
def ctlRead (c n : Nat) (s : State) : Word × State :=
  let x := s.core c
  let nat := fun (v : Nat) => (BitVec.ofNat 32 v, s)
  match n with
  | 0x000 => nat (if isLead c then leadIdx c + 0x100 else c)
  | 0x001 => (x.vbase, s)
  | 0x002 => (x.fepc, s)
  | 0x003 => (x.fepsw, s)
  | 0x010 => (x.irqEn.truncate 32, s)
  | 0x011 => nat (x.irqEn.toNat / 2 ^ 32)
  | 0x012 => (x.irqFast.truncate 32, s)
  | 0x013 => nat (x.irqFast.toNat / 2 ^ 32)
  | 0x014 => nat (lineLevels s c % 2 ^ 32)
  | 0x015 => nat (lineLevels s c / 2 ^ 32)
  | 0x020 => (x.timecmp.truncate 32, s)
  | 0x021 => nat (x.timecmp.toNat / 2 ^ 32)
  | 0x022 => (s.tb.truncate 32, s.setCore c { x with tbHi := BitVec.ofNat 32 (s.tb.toNat / 2 ^ 32) })
  | 0x023 => (x.tbHi, s)
  | 0x030 => nat x.hbmwin
  | 0x040 => (x.spillPtr, s)
  | 0x041 => (x.spillLim, s)
  | 0x042 => nat (2 * b2n x.stopped + 4 * b2n x.reason)
  | 0x043 => (x.ctxFree, s)
  | 0x044 => (x.links.get (linkFrame x) 0, s)
  | _ => nat (x.ldWin.get (n - 0x050) 0)

/-- One half of a 64-bit control register replaced. -/
def setHalf (v : Dword) (hi : Bool) (d : Word) : Dword :=
  if hi then (v &&& 0xFFFFFFFF) ||| (d.zeroExtend 64 <<< 32) else (v &&& 0xFFFFFFFF00000000) ||| d.zeroExtend 64

/-- R306: writes control register `n` of a core; writes of read-only registers are ignored. SPILL_CTL.RESUME
clears STOPPED (R321); the engine's retry is its next store. -/
def ctlWrite (c n : Nat) (d : Word) (s : State) : State :=
  let x := s.core c
  let set := fun (y : Core) => s.setCore c y
  match n with
  | 0x001 => set { x with vbase := d &&& 0xFFFFFC00 }
  | 0x002 => set { x with fepc := d }
  | 0x003 => set { x with fepsw := d }
  | 0x010 => set { x with irqEn := setHalf x.irqEn false d }
  | 0x011 => set { x with irqEn := setHalf x.irqEn true d }
  | 0x012 => set { x with irqFast := setHalf x.irqFast false d }
  | 0x013 => set { x with irqFast := setHalf x.irqFast true d }
  | 0x020 => set { x with timecmp := setHalf x.timecmp false d }
  | 0x021 => set { x with timecmp := setHalf x.timecmp true d }
  | 0x030 => set { x with hbmwin := d.toNat % 16 }
  | 0x040 => set { x with spillPtr := d &&& 0xFFFFFFF8 }
  | 0x041 => set { x with spillLim := d &&& 0xFFFFFFF8 }
  | 0x042 => if d.getLsbD 0 then set { x with stopped := false, spillDue := false } else s
  | 0x043 => set { x with ctxFree := d }
  | 0x044 => set { x with links := x.links.set (linkFrame x) d 0 }
  | _ =>
    if 0x050 ≤ n && n ≤ 0x05E then set { x with ldWin := x.ldWin.set (n - 0x050) (d.toNat % 2 ^ 13 &&& 0x1F7F) 0 } else s

/-! ### The debug window (R328) -/

/-- What DBG_SEL names. -/
inductive DbgReg where
  | field (n : Nat)
  | w (r : WReg)
  | ctl (n : Nat)
  | vec (v lane : Nat)
  /-- A selection that names nothing. -/
  | nothing
  deriving DecidableEq, Repr

/-- The selection of core `c` (R330, R331). -/
def dbgSel (s : State) (c : Nat) : DbgReg :=
  let lead := isLead c
  let reg := if lead then s.get (F.LEAD_DBG_SEL_REG (leadIdx c)) else s.get (F.DBG_SEL_REG c)
  let cidx := if lead then s.get (F.LEAD_DBG_SEL_CIDX (leadIdx c)) else s.get (F.DBG_SEL_CIDX c)
  let n := reg % 32
  if lead && reg.testBit 7 then .vec (cidx % 8) (bitsOf cidx 8 2)
  else if reg.testBit 6 then (if ctlExists lead cidx then .ctl cidx else .nothing)
  else if 8 ≤ n && n < 24 then
    if reg.testBit 5 then .w (.bank (n - 8))
    else if !lead then .w (.flat (n - 8))
    else if cidx.testBit 4 then
      let f := cidx % 16
      if f == 15 then (if n < 16 then .w (.frame 15 (n - 8)) else .nothing)
      else .w (.frame ((f + (n - 8) / 8) % 15) ((n - 8) % 8))
    else .w (wReg lead { s.core c with psw := withBit (s.core c).psw pswFM false } (n - 8))
  else if fieldExists lead n then .field n else .nothing

/-- R328: a read of DBG_DATA of a halted core; a running core reads 0. -/
def dbgRead (c : Nat) (s : State) : Word × State :=
  let x := s.core c
  if !s.flag (fHalted c) then (0, s)
  else match dbgSel s c with
    | .field n => (regRead (isLead c) x n, s)
    | .w r => (readW x r, s)
    | .ctl n => ctlRead c n s
    | .vec v l => (((x.v.get v 0) >>> (32 * l)).truncate 32, s)
    | .nothing => (0, s)

/-- A 128-bit register with one 32-bit lane replaced. -/
def setLane32 (v : BitVec 128) (l : Nat) (d : Word) : BitVec 128 :=
  (v &&& ~~~((0xFFFFFFFF : BitVec 128) <<< (32 * l))) ||| (d.zeroExtend 128 <<< (32 * l))

/-- R328: a write of DBG_DATA of a halted core; it reaches every bit of a special register. -/
def dbgWrite (c : Nat) (d : Word) (s : State) : State :=
  let x := s.core c
  let lead := isLead c
  if !s.flag (fHalted c) then s
  else match dbgSel s c with
    | .field n => s.setCore c (if n == 26 then restorePsw lead d x else regWrite lead x n d)
    | .w r => s.setCore c (writeW x d r)
    | .ctl n => ctlWrite c n d s
    | .vec v l => s.setCore c { x with v := x.v.set v (setLane32 (x.v.get v 0) l d) 0 }
    | .nothing => s

/-! ### The tile window (R329) -/

/-- R329: the tile window refuses. -/
def tdbgRefused (s : State) (m : Nat) : Bool :=
  s.flag (F.SEQ_STAT_RUNNING m) || (s.massif m).switch.isSome || !s.massifUp m

/-- The item that TDBG_SEL names: data and P. -/
def tdbgItem (s : State) (m : Nat) : Word × Bool :=
  let x := s.tile m (s.get (F.TDBG_SEL_TILE m))
  let item := s.get (F.TDBG_SEL_ITEM m)
  let lo := fun (a : Acc) => ((a.v.truncate 32 : Word), a.p)
  let hi := fun (a : Acc) => (BitVec.ofNat 32 (a.v.toNat / 2 ^ 32), a.p)
  if item < 8 then ((x.u.get item {}).d, (x.u.get item {}).p)
  else match item with
    | 8 => lo x.acc0
    | 9 => hi x.acc0
    | 10 => lo x.acc1
    | 11 => hi x.acc1
    | 12 => (BitVec.ofNat 32 (b2n x.tf.v + 2 * b2n x.zf.v + 4 * b2n x.nf.v + 8 * b2n x.vf.v + 16 * b2n x.ef), false)
    | _ => (0, false)

/-- R329: a read of TDBG_DATA; the item's P is shown in TDBG_P. -/
def tdbgRead (m : Nat) (s : State) : Word × State :=
  if tdbgRefused s m then (0, s.put (F.TDBG_STAT_REFUSED m) 1)
  else
    let (d, p) := tdbgItem s m
    (d, s.putB (F.TDBG_P_P m) p)

/-- R329, R79: the oldest firing of tile `t` writes the register or the accumulator of an item when it completes. -/
def itemFired (s : State) (m t item : Nat) : Bool :=
  match (s.tile m t).pipe with
  | [] => false
  | f :: _ =>
    let v := s.active m t
    let op := slotOp v t
    f.marker.isNone && f.pred && clocked s m
      && (if item < 8 then (slotXw v == 8 + item && firingX op v f) || (slotYw v == 8 + item && firingY op (tileAspect s m t v) f)
          else (item == 9 && (accWrites op (slotMode v) v).1) || (item == 11 && (accWrites op (slotMode v) v).2))

/-- R329: a write of TDBG_DATA. `lost`: the massif clock edge at which it takes effect is the one at which the tile's oldest
firing completes, which keeps its value where it writes the same register. -/
def tdbgWrite (m : Nat) (d : Word) (lost : Bool) (s : State) : State :=
  if tdbgRefused s m then s.put (F.TDBG_STAT_REFUSED m) 1
  else
    let t := s.get (F.TDBG_SEL_TILE m)
    let item := s.get (F.TDBG_SEL_ITEM m)
    let p := s.flag (F.TDBG_P_P m)
    let x := s.tile m t
    let stage := fun (k : Nat) => { s with cores := { s.cores with tdbg := s.cores.tdbg.set (m * 2 + k) d 0 } }
    let full := fun (k : Nat) => ((d.truncate 16 : BitVec 16) ++ s.cores.tdbg.get (m * 2 + k) 0 : BitVec 48)
    if lost && itemFired s m t item then s.setIrq (F.TDBG_STAT_LOST m) (clPage m) 2
    else if item < 8 then s.setTile m t { x with u := x.u.set item ⟨d, p⟩ {} }
    else match item with
      | 8 => stage 0
      | 9 => s.setTile m t { x with acc0 := ⟨full 0, p⟩ }
      | 10 => stage 1
      | 11 => s.setTile m t { x with acc1 := ⟨full 1, p⟩ }
      | _ => s

/-! ### Beat records at the stub (R40, R330) -/

/-- The 128 bits of a beat record (table before R40). -/
def beatBits (b : BeatRec) : Nat :=
  b.ch % 2 ^ 6 + 2 ^ 6 * (b.kind % 4) + 2 ^ 8 * (b.act % 16) + 2 ^ 12 * (b.tfrac % 8) + 2 ^ 16 * (b.seq % 2 ^ 16)
    + 2 ^ 32 * b.pos.toNat + 2 ^ 80 * (b.time % 2 ^ 48)

/-- STUB_SEQ of channel `ch`. -/
def stubSeq (s : State) (ch : Nat) : Nat := ((s.pos.stub.get ch none).map (·.seq % 2 ^ 16)).getD 0

/-! ### Summit packets (R245, R326) -/

/-- Words of the Summit send registers of core `c`. -/
def sumWord (s : State) (c j : Nat) : Word :=
  BitVec.ofNat 32 (s.get (if isLead c then F.LEAD_SUM_W_VALUE (leadIdx c) j else F.SUM_W_VALUE c j))

/-- Summit packets queued at the NI of core `c`. -/
def sumQueued (s : State) (c : Nat) : Nat := (s.niQueue (coreRouter c) 0).length

/-- R326: SUM_HDR.GO. Two packets queued at the NI, or fields that break R221, refuse it. -/
def summitSend (c : Nat) (s : State) : State :=
  let lead := isLead c
  let i := leadIdx c
  let g := fun (a b : Fld) => s.get (if lead then a else b)
  let size := g (F.LEAD_SUM_HDR_SIZE i) (F.SUM_HDR_SIZE c)
  let p : Packet :=
    { dst := g (F.LEAD_SUM_HDR_DST i) (F.SUM_HDR_DST c), dport := g (F.LEAD_SUM_HDR_DPORT i) (F.SUM_HDR_DPORT c),
      src := coreRouter c, sport := corePort c, vn := 0, typ := g (F.LEAD_SUM_HDR_TYPE i) (F.SUM_HDR_TYPE c),
      addr := g (F.LEAD_SUM_ADDR_ADDR i) (F.SUM_ADDR_ADDR c), size := size,
      words := (List.range (size + 1)).map (sumWord s c) }
  let refused := if lead then F.LEAD_SUM_STAT_REFUSED i else F.SUM_STAT_REFUSED c
  if 2 ≤ sumQueued s c || !packetOk p then s.setIrq refused (corePage c) 1
  else niSend p s

/-! ### The meanings -/

def execIrqMsg (c : Fin 68) (line : Fin 32) (s : State) : Result := .next (irqMessage c line s)
/-- CL_CTL.RUN written 1: a Caller that runs already goes on. -/
def execCallerRun (m : Fin 64) (s : State) : Result := .next (callerRun m true s)
def execCallerHaltreq (m : Fin 64) (s : State) : Result := .next (haltRequest m s)
def execCallerResume (m : Fin 64) (s : State) : Result := .next (coreResume m s)
def execLeadHaltreq (i : Fin 4) (s : State) : Result := .next (haltRequest (64 + i) s)
def execLeadResume (i : Fin 4) (s : State) : Result := .next (coreResume (64 + i) s)
def execLeadRestart (i : Fin 4) (s : State) : Result := .next (leadRestart i s)
def execDbgDataWrite (c : Fin 68) (v : Word) (s : State) : Result := .next (dbgWrite c v s)
def execTileWindowWrite (m : Fin 64) (v : Word) (lost : Bool) (s : State) : Result := .next (tdbgWrite m v lost s)
def execSummitSend (c : Fin 68) (s : State) : Result := .next (summitSend c s)

end Sys2Proof.Machine
end

