-- ==== Sys2Proof/Machine/Power.lean ====
section
/-! DEFINITION. Gating and waking a massif (R236–R239, R437–R439), massif clocks and fabric PLLs
(R446–R449, R454), and brownout warnings (R442–R444). -/

namespace Sys2Proof.Machine

open Sys2Proof

abbrev powerPage : Nat := 0x00007000
abbrev clockPage : Nat := 0x00008000

/-- Returns to their reset values the fields that `p` selects. -/
def resetFields (p : Fld → Bool) (s : State) : State := { s with regs := s.regs.resetWhere p }

/-- The field lies in the pages of massif `m`. -/
def inMassif (m : Nat) (f : Fld) : Bool := decide (massifBase m ≤ f.addr) && decide (f.addr < massifBase (m + 1))

/-! ### What gating and resets take from a massif (R80, R94, R151, R327, R435) -/

/-- R80: tile registers, flags, cells, pipelines, segments and bit tracks of massif `m`. -/
def clearTiles (m : Nat) (s : State) : State :=
  { s with fab := { s.fab with
      tiles := s.fab.tiles.clear fun k => k / 256 == m
      segs := s.fab.segs.clear fun k => k / 8192 == m
      bits := s.fab.bits.clear fun k => k / 8192 == m } }

/-- Figure slots and SLOT_VALID. -/
def clearSlots (m : Nat) (s : State) : State :=
  { s with fab := { s.fab with slots := s.fab.slots.clear fun k => k / 4096 == m } }.put (F.SLOT_VALID_BITS m) 0

/-- R181: every block memory row reads as zero. A BM_ACC access in progress is lost (DESIGN CHOICE, log 147). -/
def clearBm (m : Nat) (s : State) : State :=
  { s with mem := { s.mem with
      bm := s.mem.bm.clear (fun k => k / 24576 == m)
      bmAcc := s.mem.bmAcc.set m none none } }.put (F.BM_ACC_CTL_BUSY m) 0

/-- R94, R96: the inbound col queues and feed queues of massif `m`. -/
def clearCols (m : Nat) (s : State) : State :=
  let s1 := { s with fab := { s.fab with
      cols := s.fab.cols.clear fun k => k / 256 == m
      feeds := s.fab.feeds.clear fun k => feedMassif (k / 8) == m } }
  s1.each 4 fun face t => cqRefresh m face t

/-- R94: the words of massif `m`'s inbound queues are cleared, and their credits are kept back. -/
def withholdCols (m : Nat) (s : State) : State :=
  let x := s.massif m
  let keep := fun (w : SMap Nat) (key : Nat) (st : Stage) => w.set key (w.get key 0 + st.words.length) 0
  let w1 := s.fab.cols.foldl (fun w e => if e.1 / 256 == m then keep w (e.1 % 256) e.2 else w) x.withheld
  let w2 := s.fab.feeds.foldl (fun w e => if feedMassif (e.1 / 8) == m then keep w (256 + e.1) e.2 else w) w1
  clearCols m (s.setMassif m { x with withheld := w2 })

/-- R94: the credits kept back are returned. -/
def returnCredits (m : Nat) (s : State) : State := s.setMassif m { s.massif m with withheld := [] }

/-- R151: contents, pointers, cairns, status and counts of the stream queues of massif `m`. -/
def clearQueues (m : Nat) (s : State) : State :=
  let s1 := { s with fab := { s.fab with queues := s.fab.queues.clear fun k => k / 32 == m } }
  let s2 := resetFields (fun f => decide (sqPage m ≤ f.addr) && decide (f.addr < sqPage m + 0x1000)
    && f.clr.testBit 4) s1
  s2.each 32 fun q t => queueRefresh m q t

/-- R71: MASSIF_STAT and the record of the stop. -/
def clearMassifStat (m : Nat) (s : State) : State :=
  let s1 := ((s.put (F.MASSIF_STAT_CONTROL_POISON m) 0).put (F.MASSIF_STAT_SLOT_PARITY m) 0).put (F.MASSIF_STAT_STOPPED m) 0
  (s1.put (F.ERR_ADDR_LO_VALUE (seqPage m)) 0).put (F.ERR_ADDR_HI_VALUE (seqPage m)) 0

/-- A Caller goes back into reset with its registers lost (R327). -/
def callerDown (m : Nat) (s : State) : State :=
  let s0 := s.setShelf m { s.shelf m with merge := none, want := [] }
  let s1 := ((((wireEnd m s0).setCore m {}).put (F.CL_CTL_RUN m) 0).put (F.CL_STAT_RUNNING m) 0).put (F.CL_STAT_HALTED m) 0
  (s1.put (F.CL_HALT_CODE m) 0).put (F.CL_PC_VALUE m) 0

/-- R327: the Caller's local RAM loses its content. -/
def clearCallerRam (m : Nat) (s : State) : State :=
  { s with cores := { s.cores with ram := s.cores.ram.clear fun k => k / 16384 == m } }

/-! ### Gating (R236, R437, R438) -/

/-- R437: the conditions that keep massif `m` WAITING, as PWR_STAT.WAITFOR shows them. What a wake has still to do counts:
the reload of slots and the waking beat as the loader's, the copy of the Caller's code as the Caller's (DESIGN CHOICE,
log 145). -/
def waitFor (s : State) (m : Nat) : Nat :=
  let words := (List.range 32).any fun q =>
    s.flag (F.SQ_CTL_EN m q) && s.get (F.SQ_WP_VALUE m q) != s.get (F.SQ_RL_VALUE m q)
  let x := s.massif m
  let busy := (s.fab.loaders.get m none).isSome || x.switch.isSome || x.wakeBeat.isSome || !x.wakeSlots.isEmpty
    || (List.range 4).any fun p => !(portReqs s m p).isEmpty
  let caller := (s.flag (F.CL_STAT_RUNNING m) && !(s.core m).wfi) || x.callerCopy
  b2n words + 2 * b2n busy + 4 * b2n caller

/-- The massif is under a fabric reload or in the load hold (R432, R437). -/
def reloading (s : State) (m : Nat) : Bool := (s.massif m).held

/-- R437: a write of PWR_CTL.GATE. -/
def gateWrite (m : Nat) (gate : Bool) (s : State) : State :=
  let st := s.get (F.PWR_STAT_STATE m)
  if reloading s m then s.setIrq (F.PWR_STAT_REFUSED m) (pwrPage m) 3
  else if gate then
    (s.put (F.PWR_CTL_GATE m) 1).when (st == 0) fun t => t.put (F.PWR_STAT_STATE m) 1
  else if st == 3 then wakeStart m s
  else (s.put (F.PWR_CTL_GATE m) 0).when (st == 1 || st == 2) fun t => t.put (F.PWR_STAT_STATE m) 0

/-- R437: with no condition holding, the massif closes. -/
def gateClose (m : Nat) (s : State) : State :=
  s.when (s.get (F.PWR_STAT_STATE m) == 1 && waitFor s m == 0 && !(s.massif m).resetHold)
    fun t => t.put (F.PWR_STAT_STATE m) 2

/-- R236, R435, R437: nothing is outstanding and the inbound buffers have drained: the massif powers
down. -/
def gated (m : Nat) (s : State) : State :=
  if s.get (F.PWR_STAT_STATE m) == 2 && !s.outstanding m && (s.inbox m).all servedAsleep then
    let s0 := clearMassifStat m (clearBm m (clearSlots m (clearTiles m s)))
    let s1 := clearCallerRam m (callerDown m (conflictRefresh m (bmRefresh m s0)))
    (s1.put (F.PWR_STAT_STATE m) 3).irq (pwrPage m) 0
  else s

/-! ### The records of an epoch's end (R284, R286, R287) -/

/-- R286: the queue record of queue `q` of massif `m`. -/
def queueRec (s : State) (m q : Nat) : QueueRec :=
  let x := s.queue m q
  let mk := sub32 (s.get (F.SQ_MK_VALUE m q)) (s.get (F.SQ_RL_VALUE m q))
  let d := fun (a b : Nat) => sub32 a b
  ⟨m, q, d (eCountAt s m q x.words.length) x.enW, d (eCountAt s m q (readIndex s m q)) x.enR, d x.ecount x.enL,
   s.flag (F.SQ_STAT_MARK_VALID m q), d (eCountAt s m q mk) x.enR⟩

def seqRec (s : State) (m : Nat) : SeqRec :=
  ⟨m, s.get (F.SEQ_STAT_STEP m), s.get (F.SEQ_STAT_ACTIVE_SLOT m), s.get (F.SEQ_SWCNT_VALUE m)⟩

/-- The queues of massif `m` that the pair mirrors (R286). -/
def mirroredQueues (s : State) (m : Nat) : List Nat :=
  (List.range 32).filter fun q => (s.get (F.PAIR_QMASK_BITS m)).testBit q

/-- Records of a massif join those of the end of epoch `e`. -/
def joinEnd (e : Nat) (q : List QueueRec) (r : List SeqRec) : MirrorItem → MirrorItem
  | .epochEnd x => if x.epoch == e then .epochEnd { x with queues := x.queues ++ q, seqs := x.seqs ++ r } else .epochEnd x
  | i => i

/-- R284, R286, R287: massif `m` acts on the beat that ends epoch `e`: its records are taken, for the EPOCH_END that
waits, or for the standby's own comparison. -/
def epochTake (m e : Nat) (s : State) : State :=
  let q := (mirroredQueues s m).map (queueRec s m)
  let r := seqRec s m
  { s with pair := { s.pair with
    mirror := s.pair.mirror.map (joinEnd e q (if s.flag (F.SEQ_STAT_RUNNING m) then [r] else []))
    ownSeqs := s.pair.ownSeqs.map fun o => if o.1 == e then (e, o.2 ++ [r]) else o } }

/-- R12, R449: the beats kept for massif `m` are acted on at its first new edge; an epoch beat among them ends an
epoch for it. -/
def actOnKept (m : Nat) : List BeatRec → State → State
  | [], s => s.setMassif m { s.massif m with beats := [] }
  | b :: l, s =>
    let s1 := beatAct m b (s.setMassif m { s.massif m with beats := l })
    actOnKept m l (s1.when (b.ch == s.get F.PAIR_EPOCH_CH) fun t => epochTake m (sub32 (epochAt t m) 1) t)

/-- R12, R123, R449: massif `m` acts on no beat yet: its clock switches, or it wakes and its slots are still to be
reloaded and the waking beat to be acted on (DEDUCED, log 145). -/
def beatsKept (s : State) (m : Nat) : Bool :=
  let x := s.massif m
  x.clockHold || s.get (F.PWR_STAT_STATE m) == 4 || x.wakeBeat.isSome || !x.wakeSlots.isEmpty

/-- The beats kept are acted on, once nothing keeps them. -/
def beatsSettle (m : Nat) (s : State) : State := if beatsKept s m then s else actOnKept m (s.massif m).beats s

/-- R123, R439: with the slots of SEQ_WAKE reloaded, the waking beat is acted on, and then what came after it. -/
def wakeReload (m : Nat) (s : State) : State :=
  let x := s.massif m
  if !s.massifUp m || x.clockHold || !x.wakeSlots.isEmpty then s
  else
    let s1 := s.setMassif m { x with wakeBeat := none }
    beatsSettle m (match x.wakeBeat with
      | some b => beatAct m b (s1.put (F.SEQ_STAT_LATE_BEAT m) 1)
      | none => s1)

/-! ### Waking (R237, R327, R439) -/

/-- Bits of a mask below 16 whose slot's SLOT_SRC names the shelf (R123). -/
def wakeList (s : State) (m : Nat) : List Nat :=
  (List.range 16).filter fun i => (s.get (F.SEQ_WAKE_RELOAD m)).testBit i && s.get (F.SLOT_SRC_SRC m i) == 0

/-- R439, R441: in Rest with its fabric PLL stopped, a massif has no clock until the PLL has locked again. -/
def clockStopped (s : State) (m : Nat) : Bool :=
  s.get F.REST_STAT_STATE != 0 && !s.flag (F.FPLL_LOCK (s.get (F.MCLK_SEL m)))

/-- R439: power-up and clearing are complete: the massif is ACTIVE, takes the packets of its wake buffer
ahead of later ones, and its slots and its Caller are to be restored. -/
def wakeActive (m : Nat) (s : State) : State :=
  if s.get (F.PWR_STAT_STATE m) == 4 && !clockStopped s m then
    let took := match s.power.wakeAt.get m none with
      | some t0 => min (s.cycle - t0) 0xFFFFF
      | none => 0
    let s1 := (clearBm m (clearTiles m s)).put (F.PWR_STAT_STATE m) (if s.flag (F.PWR_CTL_GATE m) then 1 else 0)
    let s2 := (s1.put (F.PWR_WAKECNT_VALUE m) (s.get (F.PWR_WAKECNT_VALUE m) + 1)).put (F.PWR_LASTWAKE_NS m) took
    let s3 := (s2.setInbox m (s2.wakeBuf m ++ s2.inbox m)).setWakeBuf m []
    let s4 := { s3 with power := { s3.power with wakeAt := s3.power.wakeAt.set m none none } }
    let copy := s.get (F.CL_WAKE_LEN m) != 0
    let s5 := s4.setMassif m { s4.massif m with wakeSlots := wakeList s m, callerCopy := copy, copied := 0 }
    let s6 := wakeLoad m ((s5.putB (F.CL_STAT_HELD m) (!copy)).irq (pwrPage m) 1)
    beatsSettle m s6
  else s

/-- A word of a Caller's local RAM as stored (R194, R198). -/
def ramStored (d : Word) (poison : Bool) : BitVec 39 :=
  BitVec.ofNat 39 (d.toNat + 2 ^ 32 * (if poison then poisonBits code39 d.toNat else checkBits code39 d.toNat))

def ramCell (s : State) (m w : Nat) : BitVec 39 := s.cores.ram.get (2 ^ 14 * m + w) 0

def setRamCell (m w : Nat) (v : BitVec 39) (s : State) : State :=
  { s with cores := { s.cores with ram := s.cores.ram.set (2 ^ 14 * m + w) v 0 } }

/-- Writes words to local RAM from word `w` up. -/
def ramFill (m : Nat) : Nat → List (Word × Bool) → State → State
  | _, [], s => s
  | w, (d, p) :: l, s => ramFill m (w + 1) l (setRamCell m (w % 2 ^ 14) (ramStored d p) s)

/-- The 8-byte parts of the copy of a Caller's code, and the first word of the next one in the shelf (R327). -/
def copyParts (s : State) (m : Nat) : Nat := min (s.get (F.CL_WAKE_LEN m)) 65536 / 8
def copyWord (s : State) (m : Nat) : Nat := s.get (F.CL_WAKE_ADDR m) / 8 * 2 + 2 * (s.massif m).copied

/-- Its two words are in two banks. -/
def copyBanks (s : State) (m : Nat) : List Nat := [copyWord s m % 16, (copyWord s m + 1) % 16]

/-- R327: the copy is over, and the Caller leaves reset. -/
def copyEnd (m : Nat) (s : State) : State := callerRun m true (s.setMassif m { s.massif m with callerCopy := false })

/-- R327: the next 8 bytes of the copy; its banks are taken from those below the Caller (R165, R166). -/
def copyStep (m : Nat) (s : State) : State :=
  let k := (s.massif m).copied
  let (l, s1) := shelfReadWords m 4 (copyWord s m) 2 ((copyBanks s m).foldl (fun t b => countWaits m b true t) (setWant m [] s))
  ramFill m (2 * k) l (s1.setMassif m { s1.massif m with copied := k + 1 })

/-- R327, R439: the beat stub copies the Caller's code from the own shelf, after the last slot reload, 8 bytes at a time;
then the Caller leaves reset. A part loses its cycle to a requester above the Caller that wants a bank of it (R165). -/
def callerWakeCopy (m : Nat) (s : State) : State :=
  let x := s.massif m
  if s.massifUp m && x.callerCopy && x.wakeBeat.isNone && x.wakeSlots.isEmpty then
    if copyParts s m ≤ x.copied then copyEnd m s
    else if (copyBanks s m).any (aboveCaller s m) then setWant m (copyBanks s m) (s.count (F.SH_WAIT_CALLER_VALUE m) 1)
    else (copyStep m s).when (decide (copyParts s m ≤ x.copied + 1)) (copyEnd m)
  else s

/-! ### Massif clocks and fabric PLLs (R446–R449) -/

/-- Fabric maximum of the grade, in 5 MHz units (R1, R448). -/
def fabricMax : Nat := if Config.grade2 then 200 else 160

/-- R449: the massif is held and its clock switches. -/
def clockHold (m : Nat) (s : State) : State :=
  (s.setMassif m { s.massif m with clockHold := true }).put (F.MCLK_SWITCHING m) 1

/-- R448: a write of MCLK. -/
def mclkWrite (m : Nat) (v : Word) (s : State) : State :=
  let sel := (F.MCLK_SEL m).of v.toNat
  let div := (F.MCLK_DIV m).of v.toNat
  let old := s.get (F.MCLK_SEL m)
  let same := sel == old && div == s.get (F.MCLK_DIV m)
  let refuse := s.setIrq F.CLK_STAT_CFG_REFUSED clockPage 0
  if s.flag (F.MCLK_SWITCHING m) then (if same then s else refuse)
  else if !s.flag (F.FPLL_LOCK sel) || decide (fabricMax * (div + 1) < s.get (F.FPLL_FREQ sel)) then refuse
  else
    let s1 := (s.put (F.FPLL_USERS old) (s.get (F.FPLL_USERS old) - 1))
    let s2 := s1.put (F.FPLL_USERS sel) (s1.get (F.FPLL_USERS sel) + 1)
    clockHold m ((s2.put (F.MCLK_SEL m) sel).put (F.MCLK_DIV m) div)

/-! ### Clock switches (R449) -/

/-- R449: the first edge of the new clock ends the hold. -/
def clockSwitchDone (m : Nat) (s : State) : State :=
  s.when (s.flag (F.MCLK_SWITCHING m)) fun t =>
    beatsSettle m ((t.setMassif m { t.massif m with clockHold := false }).put (F.MCLK_SWITCHING m) 0)

/-- R12, R123, R449: a beat reaches the stub of massif `m`, which acts on it at its next edge, after the beats that it
keeps. -/
def beatReach (m : Nat) (b : BeatRec) (s : State) : State :=
  let x := s.massif m
  if beatsKept s m || !x.beats.isEmpty then s.setMassif m { x with beats := x.beats ++ [b] } else beatAct m b s

/-- R448: a write of FPLL(k).FREQ. -/
def fpllWrite (k : Nat) (v : Word) (s : State) : State :=
  let f := (F.FPLL_FREQ k).of v.toNat
  if s.get (F.FPLL_USERS k) != 0 || !(f == 0 || (0x050 ≤ f && f ≤ 0x190)) then
    s.setIrq F.CLK_STAT_CFG_REFUSED clockPage 0
  else (s.put (F.FPLL_FREQ k) f).put (F.FPLL_LOCK k) 0

/-- R448: a fabric PLL locks. -/
def pllLock (k : Nat) (s : State) : State :=
  s.when (s.get (F.FPLL_FREQ k) != 0) fun t => t.put (F.FPLL_LOCK k) 1

/-- R454: a fabric PLL's LOCK falls. -/
def pllLockLoss (k : Nat) (s : State) : State :=
  if s.flag (F.FPLL_LOCK k) then
    (s.put (F.FPLL_LOCK k) 0).when (s.get (F.FPLL_USERS k) != 0) fun t => t.irq clockPage (1 + k)
  else s

/-- R92: the two massifs of a face share a PLL and a divider (CQ_STAT.SYNC). -/
def clocksShared (s : State) (m n : Nat) : Bool :=
  s.get (F.MCLK_SEL m) == s.get (F.MCLK_SEL n) && s.get (F.MCLK_DIV m) == s.get (F.MCLK_DIV n)

/-! ### Brownout warnings (R442–R444) -/

/-- R442: a write of BO_WARN (0), BO_RESET (1) or BO_HYST (2), refused outside its limits. -/
def boLevelWrite (reg : Nat) (v : Word) (s : State) : State :=
  let refuse := s.put F.BO_STAT_CFG_REFUSED 1
  match reg with
  | 0 =>
    let n := F.BO_WARN_MV.of v.toNat
    if n < 600 || 740 < n || n < s.get F.BO_RESET_MV + 20 then refuse else s.put F.BO_WARN_MV n
  | 1 =>
    let n := F.BO_RESET_MV.of v.toNat
    if n < 550 || 700 < n || s.get F.BO_WARN_MV < n + 20 then refuse else s.put F.BO_RESET_MV n
  | _ =>
    let n := F.BO_HYST_MV.of v.toNat
    if n < 5 || 50 < n then refuse else s.put F.BO_HYST_MV n

/-- R444: every massif passes through a clock switch. -/
def throttleSwitch (on : Bool) (s : State) : State :=
  (s.each 64 fun m t => clockHold m t).putB F.BO_STAT_THROTTLED on

/-- R398, R400, R415: a command that writes the settings store runs: STORE, REPAIR_COMMIT, KEY_REVOKE,
ROLLBACK_ADVANCE or ZEROISE. -/
def nvmWriting (s : State) : Bool := match s.host.smc with
  | some r => [0x02, 0x03, 0x1C, 0x1D, 0x3F].contains r.code
  | none => false

/-- R442, R443: two consecutive samples below BO_WARN start a warning. -/
def warningStart (a b : Nat) (s : State) : State :=
  if !s.flag F.BO_STAT_WARN && a < s.get F.BO_WARN_MV && b < s.get F.BO_WARN_MV then
    let s1 := ((s.put F.BO_STAT_WARN 1).count F.BO_CNT_VALUE 1).irq powerPage 0
    let s2 := (s1.put F.BO_MIN_MV (min (s.get F.BO_MIN_MV) b)).put F.VCORE_MV_VALUE b
    let s3 := s2.when (nvmWriting s) fun t => t.put F.NVM_STAT_SUSPENDED 1
    let s4 := { s3 with power := { s3.power with warnAt := some s.cycle } }
    s4.when (s.flag F.BO_CTL_THROTTLE_ON_WARN) (throttleSwitch true)
  else s

/-- R442: a warning that lasts has done so for RECOV µs at least, and so can end. -/
def recovered (s : State) : Bool :=
  decide (s.power.warnAt.getD s.cycle + s.get F.BO_CTL_RECOV * 1000 ≤ s.cycle)

/-- R442, R443: VCORE has stayed at or above BO_WARN + BO_HYST for RECOV µs. `low` is the lowest sample of
the warning, `mv` the latest. -/
def warningEnd (low mv : Nat) (s : State) : State :=
  if s.flag F.BO_STAT_WARN && s.get F.BO_WARN_MV + s.get F.BO_HYST_MV ≤ mv && recovered s then
    let us := (s.cycle - s.power.warnAt.getD s.cycle) / 1000
    let s1 := (s.put F.BO_STAT_WARN 0).put F.BO_MIN_MV (min (s.get F.BO_MIN_MV) low)
    let s2 := (s1.put F.BO_DUR_US (max (s.get F.BO_DUR_US) us)).put F.VCORE_MV_VALUE mv
    let s3 := (s2.put F.NVM_STAT_SUSPENDED 0).irq powerPage 1
    let s4 := { s3 with power := { s3.power with warnAt := none } }
    s4.when (s.flag F.BO_STAT_THROTTLED) (throttleSwitch false)
  else s

/-! ### The meanings -/

def execGate (m : Fin 64) (gate : Bool) (s : State) : Result := .next (gateWrite m gate s)
def execGateClose (m : Fin 64) (s : State) : Result := .next (gateClose m s)
def execGated (m : Fin 64) (s : State) : Result := .next (gated m s)
/-- Any wake event of R439 that reaches the beat stub. -/
def execWake (m : Fin 64) (s : State) : Result := .next (wakeStart m s)
def execWakeReloadDone (m : Fin 64) (s : State) : Result := .next (wakeReload m s)
def execWakeActive (m : Fin 64) (s : State) : Result := .next (wakeActive m s)
def execCallerWakeCopy (m : Fin 64) (s : State) : Result := .next (callerWakeCopy m s)
def execMclkWrite (m : Fin 64) (v : Word) (s : State) : Result := .next (mclkWrite m v s)
def execClockSwitchDone (m : Fin 64) (s : State) : Result := .next (clockSwitchDone m s)
def execFpllWrite (k : Fin 4) (v : Word) (s : State) : Result := .next (fpllWrite k v s)
def execPllLock (k : Fin 4) (s : State) : Result := .next (pllLock k s)
def execPllLockLoss (k : Fin 4) (s : State) : Result := .next (pllLockLoss k s)
def execWarningStart (a b : BitVec 10) (s : State) : Result := .next (warningStart a.toNat b.toNat s)
def execWarningEnd (low mv : BitVec 10) (s : State) : Result := .next (warningEnd low.toNat mv.toNat s)

end Sys2Proof.Machine
end

