-- ==== Sys2Proof/Machine/Pair.lean ====
section
/-! DEFINITION. The redundant pair (R278–R302): roles, heartbeat and arbitration, epochs, mirroring and
commit, compare mode, the hold ring, checkpoints, and the commands of PAIR_CMD. -/

namespace Sys2Proof.Machine

open Sys2Proof

abbrev pairPage : Nat := 0x00308000
abbrev ckptPage : Nat := 0x0030A000

/-- Codes of PAIR_STAT.STATE (R280). -/
abbrev pOff : Nat := 0
abbrev pHello : Nat := 1
abbrev pActive : Nat := 2
abbrev pSyncing : Nat := 3
abbrev pStandby : Nat := 4
abbrev pFenced : Nat := 5

def pairState (s : State) : Nat := s.get F.PAIR_STAT_STATE

def setPair (f : Pair → Pair) (s : State) : State := { s with pair := f s.pair }

/-- Sends a record while the link is up (R279). -/
def pairSend (r : PairRec) (s : State) : State := s.when s.pairSends fun t => t.emit (.pair r)

/-- R300: STATE changes. -/
def setPairState (st : Nat) (s : State) : State :=
  if pairState s == st then s
  else
    let s1 := (s.put F.PAIR_STAT_STATE st).irq pairPage 0
    -- A member that enters SYNCING awaits a copy; one that enters ACTIVE mirrors anew and sends the digests that close
    -- from then on; one that leaves ACTIVE still sends what it has mirrored.
    let s2 := s1.when (st == pSyncing) (setPair fun p => { p with copyEnd := none, ready := true })
    let s3 := s2.when (st == pActive) (setPair fun p => { p with mirror := [], sent := p.closed.length })
    s3.when (st != pActive) (setPair fun p => { p with ckpts := [], broken := false, copied := false, copyTodo := [], copyDone := false })

/-- A status bit of PAIR_STAT with its interrupt (R300). -/
def pairErr (f : Fld) (i : Nat) (s : State) : State := s.setIrq f pairPage i

/-- The pin is the method of arbitration: ARB 0, 2 and 3, and on a tap (R256, R295). -/
def arbByPin (s : State) : Bool := s.get F.PAIR_CFG_ARB != 1 || isTapDevice s

/-- R294: the member drives PAIR_ARB low. -/
def arbDriven (s : State) : Bool := pairState s == pActive && s.power.warmPhase == 0

/-- CFG_DIGEST, the digest of the running image (R282). -/
def imageDigest (s : State) : List Nat := (List.range 12).map fun i => s.get (F.CFG_DIGEST_VALUE i)

/-! ### Enable and HELLO (R280–R283) -/

/-- R278: the link goes down. -/
def pairLinkDown (s : State) : State :=
  setPair (fun p => { p with retries := 0 }) ((s.put F.PAIR_STAT_LINK 0).put F.PAIR_STAT_PARTNER_READY 0)

/-- HELLO is entered. -/
def enterHello (s : State) : State :=
  setPair (fun p => { p with
    helloAt := s.cycle, helloSeen := false, lost := false, sampled := false, plan := .none, claimAt := none })
    (setPairState pHello s)

/-- R278, R280: a write of PAIR_CFG; with EN = 0 the group serves no pair link. In the load hold the block stays as
with EN = 0 (R435). -/
def pairCfgWrite (v : Word) (s : State) : State :=
  let s1 := s.loadAll v [F.PAIR_CFG_EN, F.PAIR_CFG_ROLE_PREF, F.PAIR_CFG_ARB, F.PAIR_CFG_CMP, F.PAIR_CFG_TAKE_UNREADY,
    F.PAIR_CFG_PAIRID]
  if !s1.flag F.PAIR_CFG_EN then setPairState pOff (pairLinkDown { s1 with pair := { grants := s.pair.grants } })
  else if pairState s == pOff && !s.loadHold then enterHello s1
  else s1

/-- R282: a member sends HELLO, from HELLO on; its partner learns from it that it is ACTIVE (DEDUCED, log 137). -/
def helloSend (s : State) : State :=
  s.when (pairState s != pOff && s.power.warmPhase == 0) (pairSend (.hello (s.get F.PAIR_CFG_PAIRID) (s.get F.TMP_ID_ID) (pairState s)
    (s.flag F.PAIR_CFG_ROLE_PREF) (imageDigest s) (epochNow s)))

/-- R283: the epochs differ by more than one. -/
def epochsApart (a b : Nat) : Bool :=
  let d := sub32 a b
  !(d == 0 || d == 1 || d == 2 ^ 32 - 1)

/-- The blocks of the enabled regions: massif and first word (R285, R301). -/
def regionBlocks (s : State) : List (Nat × Nat) :=
  (List.range 64).flatMap fun r =>
    if s.flag (F.PAIR_REG_EN r) then
      let b := s.get (F.PAIR_REG_BASE r)
      (List.range (min (s.get (F.PAIR_REG_LEN r)) (16384 - b))).map fun i => (s.get (F.PAIR_REG_MASSIF r), 16 * (b + i))
    else []

/-- The pair block's reads for a full copy, its writes of a commit's checkpoints, and its copies for checkpoint slots, as
requesters. -/
abbrev copyKey : Nat := 790
abbrev commitKey : Nat := 791
abbrev ckptKey (k : Nat) : Nat := 800 + k

/-- R297: a full copy of every enabled region is to be sent, ahead of ordinary traffic, and its end. No EPOCH_END comes of
a broken epoch: the commit of the next one writes what is copied in it (DEDUCED, log 138). -/
def fullCopy (s : State) : State :=
  setPair (fun p => { p with
    copied := true, copyTodo := regionBlocks s, copyDone := true
    copyEpoch := if p.broken then (epochNow s + 1) % 2 ^ 32 else epochNow s }) (wireEnd copyKey s)

/-- A member notes its partner's state (R300); a SYNCING partner is sent a copy by the active. -/
def notePartner (st : Nat) (ready : Bool) (s : State) : State :=
  let s1 := setPair (fun p => { p with partner := st, copied := p.copied && st == pSyncing }) s
  let s2 := s1.when (pairState s == pActive && st == pSyncing && !s1.pair.copied) fullCopy
  s2.putB F.PAIR_STAT_PARTNER_READY (st == pStandby && ready)

/-- R282, R283: a HELLO record received. -/
def helloRecv (pairId tmpId st : Nat) (pref : Bool) (digest : List Nat) (epoch : Nat) (s0 : State) : State :=
  let s := setPair (fun p => { p with helloSeen := true }) s0
  if pairState s == pOff || pairId != s.get F.PAIR_CFG_PAIRID then s
  else if digest != imageDigest s then pairErr F.PAIR_STAT_IMG_MISMATCH 6 s
  else if epochsApart epoch (epochNow s) then pairErr F.PAIR_STAT_EPOCH_SKEW 6 s
  else
    -- A HELLO says nothing of readiness.
    let s1 := notePartner st (s.flag F.PAIR_STAT_PARTNER_READY) s
    if pairState s != pHello then s1
    else
      let own := !s.flag F.PAIR_CFG_ROLE_PREF
      let lead := if own != !pref then own else decide (s.get F.TMP_ID_ID < tmpId)
      let s2 := setPair (fun p => { p with lastHb := s.cycle }) s1
      setPairState (if st != pActive && lead then pActive else pSyncing) s2

/-- R282: no HELLO within PAIR_HELLOTO. -/
def helloTimeout (arbHigh : Bool) (s : State) : State :=
  if pairState s == pHello && !s.pair.helloSeen && decide (s.pair.helloAt + 1000000 * s.get F.PAIR_HELLOTO_MS ≤ s.cycle)
      && !s.flag F.PAIR_CFG_ROLE_PREF && arbHigh then
    setPairState pActive s
  else s

/-! ### Heartbeat and arbitration (R293–R295) -/

/-- R279: a HEARTBEAT is sent. -/
def heartbeatSend (s : State) : State :=
  s.when (pairState s != pOff && pairState s != pHello && s.power.warmPhase == 0)
    (pairSend (.heartbeat (pairState s) (epochNow s) s.pair.ready))

/-- R279: a HEARTBEAT received. -/
def heartbeatRecv (st : Nat) (ready : Bool) (s : State) : State :=
  if pairState s == pOff then s
  else notePartner st ready (setPair (fun p => { p with lastHb := s.cycle, lost := false, sampled := false }) s)

/-- The takeover is decided: it happens at the first epoch beat after now (R296). A SYNCING member needs
TAKE_UNREADY (R297). -/
def decideTakeover (s : State) : State :=
  if pairState s == pSyncing && !s.flag F.PAIR_CFG_TAKE_UNREADY then s
  else setPair (fun p => { p with plan := .takeover, planAt := s.cycle, planEpoch := epochNow s, claimAt := none }) s

/-- The argument of PAIR_CLAIM and PAIR_GRANT (R295). -/
def claimArg (s : State) : Dword :=
  BitVec.ofNat 64 (s.get F.PAIR_CFG_PAIRID + 2 ^ 16 * s.get F.TMP_ID_ID + 2 ^ 32 * epochNow s)

/-- R294, R295: the standby loses the arbitration: the active is alive. -/
def split (s : State) : State :=
  (pairErr F.PAIR_STAT_SPLIT 2 s).put F.PAIR_STAT_PARTNER_READY 0

/-- R295: the members act on a grant. -/
def actOnGrant (arg : Dword) (s : State) : State :=
  let id := bitsOf arg.toNat 0 16
  let who := bitsOf arg.toNat 16 16
  if pairState s == pOff || id != s.get F.PAIR_CFG_PAIRID then s
  else
    let mine := who == s.get F.TMP_ID_ID
    let s1 := setPair (fun p => { p with claimAt := none }) s
    if pairState s == pStandby || pairState s == pSyncing then (if mine then decideTakeover s1 else split s1)
    else if pairState s == pActive && !mine then
      setPair (fun p => { p with plan := .stepdown, planAt := s.cycle, planEpoch := epochNow s }) s1
    else s1

/-- R295: a root answers a claim with the first grant it gave for that PAIRID within 1 ms. -/
def answerClaim (arg : Dword) (s : State) : State :=
  if s.get F.TMP_STAT_STATE == 4 then
    let id := bitsOf arg.toNat 0 16
    let now := s.cycle
    let (t0, g) := s.pair.grants.get id (0, 0)
    let fresh := !(s.pair.grants.any fun e => e.1 == id) || decide (1000000 + t0 < now)
    let grant := if fresh then arg else g
    let s1 := s.when fresh (setPair fun p => { p with grants := p.grants.set id (now, arg) (0, 0) })
    actOnGrant grant (flood (.ctrl (s.get F.TMP_ID_ID) 0x21 grant) none s1)
  else s

/-- R295: a member claims; a root answers its own claim. -/
def claim (s : State) : State :=
  let a := claimArg s
  answerClaim a (flood (.ctrl (s.get F.TMP_ID_ID) 0x20 a) none (setPair (fun p => { p with claimAt := some s.cycle }) s))

/-- R293: LOSS µs have passed since the last heartbeat. -/
def lossDue (s : State) : Bool := decide (s.pair.lastHb + s.get F.PAIR_HB_LOSS * 1000 ≤ s.cycle)

/-- R293, R295: no heartbeat for LOSS µs, or the link is down: a member declares the loss, and claims where ARB = 1. -/
def declareLoss (s : State) : State :=
  let s1 := pairErr F.PAIR_STAT_HBLOSS 1 (setPair (fun p => { p with lost := true, sampled := false }) s)
  let s2 := s1.when (pairState s == pActive) fun t => t.put F.PAIR_STAT_PARTNER_READY 0
  if arbByPin s then s2 else claim s2

/-- R293: a loss that is due, or whose link is down, is declared once. -/
def lossHandle (s : State) : State := if !s.pair.lost && (!s.flag F.PAIR_STAT_LINK || lossDue s) then declareLoss s else s

/-- R294: the standby samples PAIR_ARB, LOSS after the last heartbeat. -/
def samplePin (arbHigh : Bool) (s : State) : State :=
  if s.pair.lost && !s.pair.sampled && lossDue s && arbByPin s && pairState s != pActive then
    let s1 := setPair (fun p => { p with sampled := true }) s
    if arbHigh then decideTakeover s1 else split s1
  else s

/-- R293–R295: a loss is declared once, and arbitrated when it is due. `arbHigh` is the level of PAIR_ARB. -/
def heartbeatLoss (arbHigh : Bool) (s : State) : State :=
  let st := pairState s
  if !(st == pActive || st == pSyncing || st == pStandby) then s
  else samplePin arbHigh (lossHandle s)

/-- R295: no grant within PAIR_ARBTO: the claim is made again. -/
def arbTimeout (s : State) : State :=
  match s.pair.claimAt with
  | some t0 =>
    if t0 + s.get F.PAIR_ARBTO_US * 1000 ≤ s.cycle then claim (pairErr F.PAIR_STAT_ARB_TIMEOUT 2 s) else s
  | none => s

/-- R259, R295: a PAIR_CLAIM frame received on port `p`. -/
def claimRecv (p origin : Nat) (arg : Dword) (s : State) : State :=
  recvFlooded p origin (.ctrl origin 0x20 arg) (answerClaim arg) s

/-- R259, R295: a PAIR_GRANT frame received on port `p`. -/
def grantRecv (p origin : Nat) (arg : Dword) (s : State) : State :=
  recvFlooded p origin (.ctrl origin 0x21 arg) (actOnGrant arg) s

/-! ### Lines, the hold ring and digests (R284, R290, R292) -/

/-- Direction of the epoch channel: 1 where its positions fall (R27). -/
def epochDir (s : State) : Nat := (s.bc (s.get F.PAIR_EPOCH_CH)).dir

/-- R284: the line of a position stamp: the latest epoch beat whose POS it has reached, in the channel's direction; one
before every beat known belongs to the present epoch. -/
def lineOfPos (s : State) (p : Pos48) : Nat :=
  match s.pair.beats.find? fun b => posDue (epochDir s) p b.2 with
  | some b => b.1
  | none => epochNow s

/-- R290: the line of a report. Its stamp is a position when its queue has STAMPSRC = 0. -/
def lineOf (s : State) (r : Report) : Nat :=
  let m := bitsOf r.h0.toNat 8 6
  let q := bitsOf r.h0.toNat 14 5
  if s.flag (F.SQ_AUX_STAMPSRC m q) then epochNow s else lineOfPos s r.stamp

/-- Words of a report (R154). -/
def reportWords (r : Report) : List Word :=
  [r.h0, r.h1, r.stamp.truncate 32, BitVec.ofNat 32 (r.stamp.toNat / 2 ^ 32 + 2 ^ 16 * r.rseq)] ++ r.payload

/-- One byte of the CRC-64 of R292. -/
def crc64Byte (c : Dword) (b : Byte) : Dword :=
  (List.range 8).foldl (fun x _ => if x.msb then (x <<< 1) ^^^ 0x42F0E1EBA9EA3693 else x <<< 1)
    (c ^^^ (b.zeroExtend 64 <<< 56))

/-- Bytes of words in little-endian order. -/
def wordBytes (l : List Word) : List Byte := l.flatMap fun w => (List.range 4).map (byteOf w)

/-- R292: the CRC-64 of a report, LATE taken as 0. -/
def reportCrc (r : Report) : Dword :=
  ~~~((wordBytes (reportWords { r with h0 := r.h0 &&& ~~~(0x80 : Word) })).foldl crc64Byte 0xFFFFFFFFFFFFFFFF)

/-- R292: a report that is output joins the digest of its line, or comes too late for it. -/
def digestAdd (r : Report) (s : State) : State :=
  if s.flag F.PAIR_CFG_CMP && pairState s != pOff then
    let j := lineOf s r
    if s.pair.closed.any fun e => e.1 == j then s.count F.PAIR_CMPLATE_VALUE 1
    else setPair (fun p => { p with digests := p.digests.set j (p.digests.get j 0 + reportCrc r) 0 }) s
  else s

/-- R292: a line whose digest both members have closed is compared. -/
def digestCompare (j : Nat) (s : State) : State :=
  match s.pair.closed.find? (fun e => e.1 == j), s.pair.theirs.find? (fun e => e.1 == j) with
  | some a, some b =>
    if a.2 == b.2 || pairState s == pActive then s
    else
      let s1 := ((pairErr F.PAIR_STAT_DIVERGE 3 s).count F.PAIR_DIVCNT_VALUE 1).put F.PAIR_DIVLINE_LINE j
      (s1.irq pairPage 3).when (s.flag F.PAIR_CMP_ACT) (setPair fun p => { p with ready := false })
  | _, _ => s

/-- R292: the digest of line `j` closes once the epoch channel's encoder has passed POS_{j+1} + LAG. -/
def digestClose (j : Nat) (s : State) : State :=
  match s.pair.beats.find? fun b => b.1 == (j + 1) % 2 ^ 32 with
  | some b =>
    let enc := (s.bc (s.get F.PAIR_EPOCH_CH)).enc
    let lag := BitVec.ofNat 48 (s.get F.PAIR_CMP_LAG)
    if s.flag F.PAIR_CFG_CMP && !(s.pair.closed.any fun e => e.1 == j)
        && posDue (epochDir s) (s.encPos enc) (if epochDir s == 1 then b.2 - lag else b.2 + lag) then
      digestCompare j (setPair (fun p => { p with closed := p.closed ++ [(j, p.digests.get j 0)], digests := p.digests.erase j }) s)
    else s
  | none => s

/-- Bytes of a report as held or written. -/
def reportBytes (r : Report) : Nat := 4 * (4 + r.payload.length)

/-- A held report after those of its line and of the lines before it (R290, R296). -/
def holdInsert (x : Nat × Report) : List (Nat × Report) → List (Nat × Report)
  | [] => [x]
  | y :: l => if behind x.1 y.1 then x :: y :: l else y :: holdInsert x l

/-- R290: a full hold ring drops its oldest line, and again until it fits. -/
def holdTrim : Nat → State → State
  | 0, s => s
  | n + 1, s =>
    let l := s.pair.hold
    if 2 ^ 20 * s.get F.PAIR_HOLD_SZ_MIB < l.foldl (fun acc e => acc + reportBytes e.2) 0 then
      match l with
      | [] => s
      | (j, _) :: _ => holdTrim n
        (pairErr F.PAIR_STAT_HOLD_OVF 4 (setPair (fun p => { p with hold := l.filter fun e => e.1 != j, ready := false }) s))
    else s

/-- R290: the words of a report stored in the hold ring. -/
def holdStore (r : Report) (s : State) : State :=
  let base := 2 ^ 6 * s.get F.PAIR_HOLD_LO_ADDR + 2 ^ 32 * s.get F.PAIR_HOLD_HI_ADDR
  let ws := (reportWords r).map fun w => (w, false)
  setPair (fun p => { p with holdPos := p.holdPos + 4 * ws.length })
    (ringStore base (2 ^ 20 * s.get F.PAIR_HOLD_SZ_MIB) (ws.length + 1) s.pair.holdPos ws s)

/-- R290: a report of a quiet member goes to the hold ring. -/
def holdReport (r : Report) (s : State) : State :=
  holdTrim (s.pair.hold.length + 1) (setPair (fun p => { p with hold := holdInsert (lineOf s r, r) p.hold }) (holdStore r s))

/-- Reports known to this member that its sink has not written yet: held, on the Ridge, at the collector, or in a
buffer or datagram that is not closed (R290). -/
def unwritten (s : State) : List Report :=
  let onRidge := (s.ridge.ni.flatMap (·.2) ++ s.ridge.buf.flatMap (fun e => e.2.map (·.pkt)) ++ s.ridge.inbox.flatMap (·.2)).filter
    fun p => p.vn == 3 && p.typ == 1
  s.pair.hold.map (·.2) ++ onRidge.map reportOf ++ s.col.inputs.flatMap (·.2) ++ s.col.outq
    ++ s.host.dma.flatMap (fun e => e.2.reports) ++ s.lanes.eth.flatMap (fun e => e.2.reports)

/-- Lines of the words that wait in queues for the collector (R150, R154). -/
def unsentLines (s : State) : List Nat :=
  (List.range 64).flatMap fun m => (List.range 32).flatMap fun q =>
    if s.flag (F.SQ_CTL_EN m q) && s.get (F.SQ_CTL_RSINK m q) == 2 && !s.flag (F.SQ_AUX_STAMPSRC m q) then
      (unread s m q).map fun w => lineOfPos s w.stamp
    else []

/-- R290: DLINE: the highest line below the present one up to which no report is left to be written. -/
def dline (s : State) : Nat :=
  let now := epochNow s
  let lines := (unwritten s).map (lineOf s) ++ unsentLines s
  sub32 now (lines.foldl (fun acc j => if behind j now then max acc (sub32 now j) else acc) 0 + 1)

/-! ### Mirroring (R285–R288, R291, R297) -/

/-- R297: the next block of a full copy is read over the Ridge, and sent once it has come; RESYNC_DONE ends the copy. -/
def copySend (s : State) : State :=
  match s.pair.copyTodo with
  | [] => pairSend .resyncDone (setPair (fun p => { p with copyDone := false }) s)
  | (m, w) :: l =>
    match wireAsk copyKey (readRequests s (some m) pairRouter 2 (4 * w) 64) (wireRewind copyKey s) with
    | (some as, s1) =>
      pairSend (.mwr ⟨m, w, bytesWords (as.flatMap (replyBytes 64)), s.pair.copyEpoch⟩)
        (setPair (fun p => { p with copyTodo := l }) (wireEnd copyKey s1))
    | (none, s1) => s1

/-- R279, R285, R297: a full copy goes on, or the oldest record of the mirror buffer is sent. An EPOCH_END waits until
every massif has acted on the beat that ends its epoch. -/
def mirrorSend (s : State) : State :=
  if s.pairSends then
    if s.pair.copyDone then copySend s
    else match s.pair.mirror with
    | [] => s
    | .mwr r :: l => pairSend (.mwr r) (setPair (fun p => { p with mirror := l }) s)
    | .epochEnd r :: l =>
      if (List.range 64).all fun m => behind r.epoch (epochAt s m) then
        pairSend (.epochEnd r)
          (((setPair (fun p => { p with mirror := l }) s).put F.PAIR_EPSTAT_EPOCH r.epoch).put F.PAIR_DLINE_LINE r.dline)
      else s
  else s

/-- R285: an MWR record received is staged. -/
def mwrRecv (r : MwrRec) (s : State) : State :=
  s.when (pairState s == pSyncing || pairState s == pStandby) fun t =>
    mbufStore true r.words (setPair (fun p => { p with staged := p.staged ++ [r] }) t)

/-- The EPOCH_END of epoch `e` (R279, R288–R292), before the massifs' records join it. -/
def epochEnd (e : Nat) (s : State) : EpochEnd :=
  { epoch := e, queues := [], seqs := [], ckpts := s.pair.ckpts, dline := dline s, digests := s.pair.closed.drop s.pair.sent }

/-- R286: the position, among the words held, right after the E word whose count is `n`. -/
def afterE (x : Queue) (base : Nat) (n : Nat) : Nat :=
  let need := sub32 (n + base) x.ecount
  ((List.range (x.words.length + 1)).find? fun i => eWords (x.words.take i) == need).getD x.words.length

/-- R286: a pointer whose E count is `own` may follow the active's `act`: it is there, or behind it while WP, at `wp`, has
passed it. -/
def mayFollow (own act wp : Nat) : Bool := own == act || (behind own act && !behind wp act)

/-- R286: RP moves to the active's RPK; words passed are counted. -/
def alignRp (r : QueueRec) (s : State) : State :=
  if (queueRec s r.massif r.queue).rpk == r.rpk then s
  else
    let i := afterE (s.queue r.massif r.queue) (s.queue r.massif r.queue).enR r.rpk
    let j := readIndex s r.massif r.queue
    queueRefresh r.massif r.queue (packetHead r.massif r.queue
      ((s.put (F.SQ_RP_VALUE r.massif r.queue) (s.get (F.SQ_RL_VALUE r.massif r.queue) + i)).count F.PAIR_QSKIP_VALUE (i - j)))

/-- R286: RL moves to the active's RLK. -/
def alignRl (r : QueueRec) (s : State) : State :=
  if (queueRec s r.massif r.queue).rlk == r.rlk then s
  else release r.massif r.queue (afterE (s.queue r.massif r.queue) (s.queue r.massif r.queue).enL r.rlk) s

/-- R286: the mark follows the active's, where its boundary lies between RL and RP. -/
def alignMark (r : QueueRec) (s : State) : State :=
  let m := r.massif
  let q := r.queue
  if !r.mkv then s.put (F.SQ_STAT_MARK_VALID m q) 0
  else
    let x := s.queue m q
    let i := afterE x x.enR r.mkk
    if eWords (x.words.take i) == (sub32 (r.mkk + x.enR) x.ecount) && decide (i ≤ readIndex s m q)
        && (i != 0 || x.relE) then
      (s.put (F.SQ_MK_VALUE m q) (s.get (F.SQ_RL_VALUE m q) + i)).put (F.SQ_STAT_MARK_VALID m q) 1
    else s

/-- R286: the standby's queue follows the active's, or nothing of it moves. -/
def alignQueue (r : QueueRec) (s : State) : State :=
  let own := queueRec s r.massif r.queue
  if mayFollow own.rpk r.rpk own.wpk && mayFollow own.rlk r.rlk own.wpk then alignMark r (alignRl r (alignRp r s))
  else pairErr F.PAIR_STAT_QSKEW 5 s

/-- R287: a sequencer record that differs from the standby's own, taken at the same beat. -/
def compareSeq (own : List SeqRec) (r : SeqRec) (s : State) : State :=
  if own.contains r || !(own.any fun o => o.massif == r.massif) then s
  else (pairErr F.PAIR_STAT_SEQSKEW 5 s).put F.PAIR_SKEWM_MASSIF r.massif

/-- R286, R292: an EPOCH_END received: it waits for its commit, and its digests are compared. -/
def epochEndRecv (e : EpochEnd) (s : State) : State :=
  if pairState s == pSyncing || pairState s == pStandby then
    let s1 := setPair (fun p => { p with arrived := p.arrived ++ [e], theirs := p.theirs ++ e.digests }) s
    e.digests.foldl (fun t d => digestCompare d.1 t) s1
  else s

/-- R165, R289: a commit's write of one word, as a Ridge bulk access of the pair block to the shelf of massif `m`. -/
def commitWrite (w : Nat) (d : Word × Bool) (m : Nat) (s : State) : State :=
  let k := w % 2 ^ 18
  let b : ShelfBulk := {
    pkt := { dst := m, dport := 0, src := pairRouter, sport := 2, vn := 3, typ := 2, addr := 4 * k, size := 3,
             data := (List.range 4).map fun i => (byteOf d.1 i, true), pmask := b2n d.2 }
    todo := [k], got := [] }
  s.setShelf m { s.shelf m with bulk := (s.shelf m).bulk ++ [b] }

/-- R289: the words of a staged record are written, in order. -/
def commitRecord (r : MwrRec) (s : State) : State :=
  ((r.words.zipIdx).foldl (fun t x => commitWrite (r.word + x.2) x.1 r.massif t) s)

/-- A write of a commit waits for its bank. -/
def commitWrites (s : State) : Bool :=
  (List.range 64).any fun m => (s.shelf m).bulk.any fun b => b.pkt.src == pairRouter && b.pkt.vn == 3

/-- R288: the block of a Caller's checkpoint is written to the same address of its shelf. -/
def ckptShelf (c : CkptRec) (s : State) : State :=
  s.when (c.slot < 64) fun t => (c.words.zipIdx).foldl (fun u x => commitWrite (c.addr / 4 + x.2) x.1 c.slot u) t

/-- R288: the writes of a Lead Caller's checkpoint to the same address of HBM. -/
def ckptPackets (s : State) (c : CkptRec) : List Packet :=
  if c.slot < 64 then []
  else (memParts c.addr (4 * c.words.length)).map fun (off, len) =>
    { ringPacket s (c.addr + off) ((c.words.drop (off / 4)).take (len / 4)) with vn := 1, typ := 1 }

/-- R286–R288: after the shelf writes of its records a commit aligns the queues, compares the sequencers, and begins to
write the checkpoints. -/
def commitAlign (e : EpochEnd) (s : State) : State :=
  let s2 := e.queues.foldl (fun t r => alignQueue r t) s
  let s3 := match s.pair.ownSeqs.find? fun o => o.1 == e.epoch with
    | some o => e.seqs.foldl (fun t r => compareSeq o.2 r t) s2
    | none => s2
  setPair (fun p => { p with commitCkpts := true }) (e.ckpts.foldl (fun t c => ckptShelf c t) s3)

/-- R288–R290: a commit ends: its checkpoints are written. -/
def commitEnd (e : EpochEnd) (s : State) : State :=
  let s4 := e.ckpts.foldl (fun t c => t.setIrq (F.CKPT_CTL_RCVD c.slot) ckptPage 1) s
  let s5 := (s4.put F.PAIR_EPSTAT_EPOCH e.epoch).put F.PAIR_DLINE_LINE e.dline
  let s6 := setPair (fun p => { p with
    commit := none, commitCkpts := false, committed := some e.epoch, ownSeqs := p.ownSeqs.filter fun o => behind e.epoch o.1,
    staged := p.staged.filter fun r => behind e.epoch r.epoch, hold := p.hold.filter fun h => behind e.dline h.1 }) s5
  s6.when (pairState s == pSyncing && s.pair.copyEnd.any fun c => behind c e.epoch) fun t =>
    setPairState pStandby (setPair (fun p => { p with copyEnd := none }) t)

/-- The checkpoints of the commit under way are written to HBM; it ends once that is acknowledged. -/
def commitCkpts (e : EpochEnd) (s : State) : State :=
  if commitWrites s then s
  else match wireAsk commitKey (e.ckpts.flatMap (ckptPackets s)) (wireRewind commitKey s) with
    | (some _, s1) => commitEnd e (wireEnd commitKey s1)
    | (none, s1) => s1

/-- The commit under way goes on once its shelf writes are made. -/
def commitFinish (s : State) : State :=
  match s.pair.commit with
  | some e =>
    if s.pair.commitCkpts then commitCkpts e s
    else if commitWrites s then s else commitCkpts e (commitAlign e s)
  | none => s

/-- R289: the commit of epoch `e` begins. -/
def commitBegin (e : EpochEnd) (s : State) : State :=
  let s1 := setPair (fun p => { p with arrived := p.arrived.drop 1, commit := some e }) s
  commitFinish ((s.pair.staged.filter fun r => r.epoch == e.epoch).foldl (fun t r => commitRecord r t) (wireEnd commitKey s1))

/-- R289: the member may commit epoch `e`: the one before has committed, or the member is SYNCING, whose partner sends no
EPOCH_END of a broken epoch (DEDUCED, log 138). -/
def mayCommit (s : State) (e : Nat) : Bool :=
  pairState s == pSyncing || (pairState s == pStandby && s.pair.committed.all fun c => e == (c + 1) % 2 ^ 32)

/-- R289: the commit under way goes on, or the next epoch whose EPOCH_END has arrived is committed. -/
def commit (s : State) : State :=
  if s.pair.commit.isSome then commitFinish s
  else match s.pair.arrived with
    | [] => s
    | e :: _ => if mayCommit s e.epoch then commitBegin e s else s

/-- R291, R297: a RESYNC_REQ received: the standby discards what it staged of the broken epoch. The record names no epoch:
it is the one that the standby is in (DEDUCED, log 138). -/
def resyncReqRecv (s : State) : State :=
  if pairState s == pActive then fullCopy s
  else if pairState s == pSyncing || pairState s == pStandby then
    setPairState pSyncing (setPair (fun p => { p with staged := p.staged.filter (fun r => r.epoch != epochNow s), copyEnd := none }) s)
  else s

/-- R297: a RESYNC_DONE received: the copy is complete. -/
def resyncDoneRecv (s : State) : State :=
  s.when (pairState s == pSyncing) (setPair fun p => { p with copyEnd := some (epochNow s) })

/-! ### Checkpoints (R288) -/

def ckptPost (k : Nat) (s : State) : State :=
  let n := s.get (F.CKPT_LEN_BYTES k)
  if s.flag (F.CKPT_CTL_BUSY k) || pairState s != pActive || n < 4 || 4096 < n || n % 4 != 0 then
    s.setIrq (F.CKPT_CTL_REFUSED k) ckptPage 2
  else (wireEnd (ckptKey k) s).put (F.CKPT_CTL_BUSY k) 1

/-- R288: address of the block of slot `k`. -/
def ckptAddr (s : State) (k : Nat) : Nat :=
  let lo := s.get (F.CKPT_SRC_LO_ADDR k) / 4 * 4
  if k < 64 then lo % 2 ^ 20 else lo + 2 ^ 32 * s.get (F.CKPT_SRC_HI_ADDR k)

/-- R288, R291: the block joins the records of this epoch, whose EPOCH_END it travels in; a broken epoch has none. -/
def ckptJoin (c : CkptRec) (s : State) : State :=
  if pairState s != pActive || s.pair.broken then s
  else
    let s1 := setPair (fun p => { p with ckpts := (p.ckpts.filter fun x => x.slot != c.slot) ++ [c] }) s
    if 2 ^ 20 * s.get F.PAIR_MBUF_SZ_MIB < mirrorBytes s1 then mirrorBreak s1 else mbufStore true c.words s1

/-- R288: the pair block copies the block over the Ridge, and the copy ends once all of it has come. -/
def ckptDone (k : Nat) (s : State) : State :=
  if !s.flag (F.CKPT_CTL_BUSY k) then s
  else
    let n := s.get (F.CKPT_LEN_BYTES k)
    let ps := readRequests s (if k < 64 then some k else none) pairRouter 2 (ckptAddr s k) n
    match wireAsk (ckptKey k) ps (wireRewind (ckptKey k) s) with
    | (none, s1) => s1
    | (some as, s1) =>
      let ws := bytesWords ((ps.zip as).flatMap fun (p, a) => replyBytes (p.size + 1) a)
      ((ckptJoin ⟨k, ckptAddr s k, ws⟩ (wireEnd (ckptKey k) s1)).put (F.CKPT_CTL_BUSY k) 0).setIrq (F.CKPT_CTL_DONE k) ckptPage 0

/-! ### Changes of role (R296, R298) -/

/-- R296: the member becomes ACTIVE; what was staged and not committed is discarded. -/
def becomeActive (s : State) : State :=
  let was := pairState s
  let s1 := setPair (fun p => { p with
    staged := [], arrived := [], plan := .none, lost := false, sampled := false, committed := none, copyEnd := none }) s
  let s2 := (setPairState pActive s1).put F.PAIR_FOCNT_VALUE (s.get F.PAIR_FOCNT_VALUE + 1)
  s2.when (was == pSyncing) fun t => t.put F.PAIR_STAT_DEGRADED 1

/-- R284, R296, R298: the pair block acts on a beat of its epoch channel: the active ends the epoch before,
and a plan made before this beat is carried out. -/
def epochBeat (b : BeatRec) (s : State) : State :=
  if pairState s == pOff || b.ch != s.get F.PAIR_EPOCH_CH then s
  else
    let e := epochNow s
    let last := sub32 e 1
    let s1 := setPair (fun p => { p with
      beats := (e, b.pos) :: p.beats
      ownSeqs := if pairState s == pSyncing || pairState s == pStandby then p.ownSeqs ++ [(last, [])] else [] }) s
    let s1a := if pairState s == pActive && !s.pair.broken then
        setPair (fun p => { p with mirror := p.mirror ++ [.epochEnd (epochEnd last s1)], ckpts := [], sent := p.closed.length }) s1
      else setPair (fun p => { p with broken := false, ckpts := [] }) s1
    -- A massif that keeps the beat for its first new edge takes its records then.
    let s2 := s1a.each 64 fun m t => t.when (!(s.massif m).beats.any fun x => x.ch == b.ch) (epochTake m last)
    let due := decide (s.pair.planAt < s.cycle)
    match s.pair.plan with
    | .takeover =>
      -- A commit in progress is completed first: the takeover moves to the next epoch beat.
      if !due || s.pair.commit.isSome then setPair (fun p => { p with planEpoch := e }) s2
      else becomeActive s2
    | .swap =>
      -- A loss that falls due at this beat is handled first, and the partner of a broken epoch is no longer ready.
      let s3 := setPair (fun p => { p with plan := .none }) (lossHandle s2)
      if s3.pair.lost then s3
      else if s.pair.broken then s3.put F.PAIR_STAT_CMD_REFUSED 1
      else setPairState pStandby (pairSend .swap (setPair (fun p => { p with ready := true }) s3))
    | .stepdown => setPairState pFenced (setPair (fun p => { p with plan := .none }) s2)
    | .none => s2

/-- R296: the epoch beat after the decision has come. -/
def takeoverBeat (s : State) : State :=
  if s.pair.plan == .takeover && s.pair.planEpoch != epochNow s && decide (s.pair.planAt < s.cycle) && s.pair.commit.isNone then
    becomeActive s
  else s

def cmdRefused (s : State) : State := s.put F.PAIR_STAT_CMD_REFUSED 1

/-- R298: SWAP written; `received`: the SWAP record of an active that hands over. -/
def swap (received : Bool) (s : State) : State :=
  if received then s.when (pairState s == pStandby) decideTakeover
  else if pairState s == pActive && s.flag F.PAIR_STAT_PARTNER_READY && s.flag F.PAIR_STAT_LINK && !s.pair.lost then
    setPair (fun p => { p with plan := .swap, planAt := s.cycle, planEpoch := epochNow s }) s
  else cmdRefused s

def takeover (s : State) : State :=
  let st := pairState s
  if st == pStandby || (st == pSyncing && s.flag F.PAIR_CFG_TAKE_UNREADY) || st == pFenced then decideTakeover (pairSend .stepdown s) else cmdRefused s

/-- R298: STEPDOWN, written or received over the link. -/
def stepdown (s : State) : State :=
  if pairState s == pActive then
    setPair (fun p => { p with plan := .stepdown, planAt := s.cycle, planEpoch := epochNow s }) s
  else cmdRefused s

def resync (s : State) : State :=
  if pairState s == pFenced || pairState s == pStandby then pairSend .resyncReq (setPairState pSyncing s)
  else cmdRefused s

/-- A write of PAIR_CMD: each 1 is a command, from bit 0 up. -/
def pairCmdWrite (v : Word) (s : State) : State :=
  let s1 := s.when (v.getLsbD 0) (swap false)
  let s2 := s1.when (v.getLsbD 1) takeover
  let s3 := s2.when (v.getLsbD 2) stepdown
  s3.when (v.getLsbD 3) resync

/-! ### The link (R278) -/

/-- R278: bonded training of LG31 succeeds; the group serves the pair while PAIR_CFG.EN = 1 (R356), and not in low
power (R361). -/
def pairLinkUp (s : State) : State :=
  if s.flag F.PAIR_CFG_EN && s.get (F.GRP_CTL_PROTO 31) == 4 && s.flag (F.GRP_CTL_EN 31) && !s.flag (F.GRP_CTL_LP 31)
      && !s.loadHold then
    setPair (fun p => { p with lastHb := s.cycle }) (s.put F.PAIR_STAT_LINK 1)
  else s

/-- R278: a cell is retransmitted; `again`: the same cell as the time before. Sixteen in a row take the link
down. -/
def cellRetransmit (again : Bool) (s : State) : State :=
  if !s.flag F.PAIR_STAT_LINK then s
  else
    let n := if again then s.pair.retries + 1 else 1
    if 16 ≤ n then pairLinkDown s else setPair (fun p => { p with retries := n }) s

/-! ### The meanings -/

def execPairEnable (v : Word) (s : State) : Result := .next (pairCfgWrite v s)
def execHelloSend (s : State) : Result := .next (helloSend s)
def execHello (pairId : BitVec 10) (tmpId : BitVec 14) (st : Fin 6) (pref : Bool) (digest : BitVec 384) (epoch : Word)
    (s : State) : Result :=
  .next (helloRecv pairId.toNat tmpId.toNat st pref ((List.range 12).map fun i => bitsOf digest.toNat (32 * i) 32) epoch.toNat s)
def execHelloTimeout (arbHigh : Bool) (s : State) : Result := .next (helloTimeout arbHigh s)
def execHeartbeatSend (s : State) : Result := .next (heartbeatSend s)
def execHeartbeat (st : Fin 6) (ready : Bool) (s : State) : Result := .next (heartbeatRecv st ready s)
def execHeartbeatLoss (arbHigh : Bool) (s : State) : Result := .next (heartbeatLoss arbHigh s)
def execArbTimeout (s : State) : Result := .next (arbTimeout s)
def execPairClaim (p : Fin 4) (origin : BitVec 14) (arg : Dword) (s : State) : Result :=
  .next (claimRecv p origin.toNat arg s)
def execPairGrant (p : Fin 4) (origin : BitVec 14) (arg : Dword) (s : State) : Result :=
  .next (grantRecv p origin.toNat arg s)
def execMwr (m : Fin 64) (w : BitVec 18) (words : List (Word × Bool)) (epoch : Word) (s : State) : Result :=
  .next (mwrRecv ⟨m, w.toNat, words, epoch.toNat⟩ s)
def execEpochEnd (e : EpochEnd) (s : State) : Result := .next (epochEndRecv e s)
def execCommit (s : State) : Result := .next (commit s)
def execDigestClose (line : Word) (s : State) : Result := .next (digestClose line.toNat s)
def execTakeoverBeat (s : State) : Result := .next (takeoverBeat s)
def execSwap (received : Bool) (s : State) : Result := .next (swap received s)
def execTakeover (s : State) : Result := .next (takeover s)
def execStepdown (s : State) : Result := .next (stepdown s)
def execResync (s : State) : Result := .next (resync s)
/-- R298: as STEPDOWN written; a member that is not ACTIVE has nothing to step down from. -/
def execStepdownRecord (s : State) : Result := .next (stepdown s)
def execResyncReq (s : State) : Result := .next (resyncReqRecv s)
def execResyncDone (s : State) : Result := .next (resyncDoneRecv s)
def execCkptPost (k : Fin 68) (s : State) : Result := .next (ckptPost k s)
def execCkptDone (k : Fin 68) (s : State) : Result := .next (ckptDone k s)
def execPairLinkDown (s : State) : Result := .next (pairLinkDown s)
def execPairLinkUp (s : State) : Result := .next (pairLinkUp s)
def execCellRetransmit (again : Bool) (s : State) : Result := .next (cellRetransmit again s)

end Sys2Proof.Machine
end

