-- ==== Sys2Proof/Machine/Lanes.lean ====
section
/-! DEFINITION. Lane groups (R356–R361), lines into lane receive queues (R362–R364), CoaXPress (R365–R368),
Ethernet (R369–R373) and the PTP clocks (R374). -/

namespace Sys2Proof.Machine

open Sys2Proof

abbrev lgPage (g : Nat) : Nat := 0x02000000 + 0x10000 * g
abbrev cxpPage (g : Nat) : Nat := 0x03080000 + 0x1000 * g
abbrev ethPage (c : Nat) : Nat := 0x03060000 + 0x1000 * c

namespace State

def cxp (s : State) (g j : Nat) : CxpLink := s.lanes.cxp.get (g * 8 + j) {}
def setCxp (s : State) (g j : Nat) (x : CxpLink) : State :=
  { s with lanes := { s.lanes with cxp := s.lanes.cxp.set (g * 8 + j) x {} } }
def gv (s : State) (c j : Nat) : GvSrc := s.lanes.gv.get (c * 4 + j) {}
def setGv (s : State) (c j : Nat) (x : GvSrc) : State :=
  { s with lanes := { s.lanes with gv := s.lanes.gv.set (c * 4 + j) x {} } }
def ethCl (s : State) (c : Nat) : EthCl := s.lanes.eth.get c {}
def setEthCl (s : State) (c : Nat) (x : EthCl) : State :=
  { s with lanes := { s.lanes with eth := s.lanes.eth.set c x {} } }

end State

/-- Group and first lane of Ethernet cluster `c` (R356). -/
def clusterGroup (c : Nat) : Nat := if c < 4 then 8 + c / 2 else 24 + (c - 4) / 2
def clusterLane (c : Nat) : Nat := 8 * clusterGroup c + 4 * (c % 2)

/-! ### Lines (R362–R364) -/

/-- What fixes how a source is unpacked: base lane, number of lanes, packing, the bits that the payload gives to a pixel
and those of its value (R362, R363). -/
structure LineCfg where
  base : Nat
  n : Nat
  pack : Nat
  bits : Nat := 8
  depth : Nat := 8
  deriving DecidableEq, Repr

/-- R362: the packing of a pixel format: 0 B8, 1 H16, 2 RAW. -/
def packOf (f : PixelFormat) : Nat :=
  match f with
  | .mono8 => 0
  | .other _ => 2
  | _ => 1

/-- R362: bits of the value of a pixel. -/
def pixelDepth (f : PixelFormat) : Nat :=
  match f with
  | .mono10 | .mono10p => 10
  | .mono12 | .mono12p => 12
  | .mono14 | .mono14p => 14
  | .mono16 => 16
  | _ => 8

/-- Bits that a pixel takes in the payload: two bytes, least significant first, or in a format named `p` its own bits, pixel
after pixel from the least significant bit up (PRESUMED, log 150). -/
def pixelBits (f : PixelFormat) : Nat :=
  match f with
  | .mono10 | .mono12 | .mono14 | .mono16 => 16
  | _ => pixelDepth f

/-- The configuration of a source of `n` lanes from `base` that packs by `pack` what comes in format `f`. -/
def lineCfg (base n pack : Nat) (f : PixelFormat) : LineCfg :=
  if pack == 1 then ⟨base, n, pack, pixelBits f, pixelDepth f⟩ else ⟨base, n, pack, 8, 8⟩

/-- Pixels, or bytes, in a stream word. -/
def perWord (pack : Nat) : Nat := if pack == 1 then 2 else 4

/-- R362: a word of pixels; missing ones are zero bits. -/
def packWord (pack : Nat) (l : List (BitVec 16)) : Word :=
  let w := if pack == 1 then 16 else 8
  BitVec.ofNat 32 (((List.range l.length).zip l).foldl (fun acc (i, v) => acc + v.toNat % 2 ^ w * 2 ^ (w * i)) 0)

/-- Writes the word with index `i` of the line into its queue (R363). -/
def putLineWord (k : LineCfg) (i : Nat) (w : SWord) (s : State) : State := laneWrite (k.base + i % k.n) w s

/-- Writes words that were held back. -/
def putAll (k : LineCfg) (l : List (Nat × SWord)) (s : State) : State := l.foldl (fun t e => putLineWord k e.1 e.2 t) s

/-- A word joins the line: the N words before it are no longer its last (R363). -/
def lineWord (k : LineCfg) (d : Word) (p : Bool) (x : LineSrc) (s : State) : LineSrc × State :=
  let tail := x.tail ++ [(x.idx, ⟨d, false, p, false⟩)]
  let out := tail.take (tail.length - k.n)
  ({ x with idx := x.idx + 1, tail := tail.drop (tail.length - k.n) }, putAll k out s)

/-- R362: a pixel or payload byte of the line. -/
def lineItem (k : LineCfg) (v : BitVec 16) (p : Bool) (x : LineSrc) (s : State) : LineSrc × State :=
  let sub := x.sub ++ [v]
  let sp := x.subP || p
  let x1 := { x with inLine := true }
  if sub.length < perWord k.pack then ({ x1 with sub := sub, subP := sp }, s)
  else lineWord k (packWord k.pack sub) sp { x1 with sub := [], subP := false } s

/-- R362: a payload byte of the line, which completes at most one pixel. -/
def lineByte (k : LineCfg) (b : Byte) (p : Bool) (x : LineSrc) (s : State) : LineSrc × State :=
  let acc := x.acc + b.toNat * 2 ^ x.accN
  let n := x.accN + 8
  if n < k.bits then ({ x with acc := acc, accN := n, inLine := true, subP := x.subP || p }, s)
  else lineItem k (BitVec.ofNat 16 (acc % 2 ^ k.bits % 2 ^ k.depth)) p { x with acc := acc / 2 ^ k.bits, accN := n - k.bits } s

/-- An incomplete last word is filled with zero bits (R362). -/
def lineFill (k : LineCfg) (x : LineSrc) (s : State) : LineSrc × State :=
  if x.sub.isEmpty then (x, s)
  else lineWord k (packWord k.pack x.sub) x.subP { x with sub := [], subP := false } s

/-- R363: zero words up to a multiple of N. -/
def linePad (k : LineCfg) : Nat → LineSrc → State → LineSrc × State
  | 0, x, s => (x, s)
  | f + 1, x, s =>
    if x.idx % k.n == 0 then (x, s)
    else
      let (x1, s1) := lineWord k 0 false x s
      linePad k f x1 s1

/-- Words of index `a` up to `b` that queue `i` of N would have held. -/
def shareOf (n i a b : Nat) : Nat := ((b - a) + (n - 1 - ((i + n - a % n) % n))) / n

/-- R364: a cairn of `cause` into each queue of the source; `count i` is what queue `i` lost. -/
def lineCairn (k : LineCfg) (cause : Nat) (count : Nat → Nat) (s : State) : State :=
  s.each k.n fun i t => laneWrite (k.base + i) (cairnWord (min (count i) 0xFFFF) cause (k.base + i)) t

/-- What is held back is written without E: a cairn follows it. -/
def lineFlush (k : LineCfg) (x : LineSrc) (s : State) : LineSrc × State :=
  let (x1, s1) := lineFill k x s
  ({ x1 with tail := [] }, putAll k x1.tail s1)

/-- The line is over. -/
def lineReset (x : LineSrc) : LineSrc := { skip := x.skip }

/-- R363, R364: the line ends; `linew`: its length in words, 0 for no check. Each queue takes the same number of its words;
the last one carries E, or the cairn of a short or long line follows it (R140). Answers the padding too. -/
def lineEnd (k : LineCfg) (linew : Nat) (x : LineSrc) (s : State) : Nat × LineSrc × State :=
  let (x1, s1) := lineFill k x s
  let (x2, s2) := linePad k k.n x1 s1
  let pad := x2.idx - x1.idx
  if linew != 0 && decide (x1.idx < linew) then
    (pad, lineReset x2, lineCairn k 0xB (fun i => shareOf k.n i x1.idx linew) (putAll k x2.tail s2))
  else if 0 < x1.long then
    (pad, lineReset x2, lineCairn k 0xC (fun i => shareOf k.n i linew (linew + x1.long)) (putAll k x2.tail s2))
  else (pad, lineReset x2, putAll k (x2.tail.map fun e => (e.1, { e.2 with e := true })) s2)

/-- R364: words of the line are lost: a cairn marks them in each queue, and the line goes on after them. -/
def lineLost (k : LineCfg) (cause : Nat) (n : Option Nat) (x : LineSrc) (s : State) : LineSrc × State :=
  let (x1, s1) := lineFlush k x s
  match n with
  | some n => ({ x1 with idx := x1.idx + n }, lineCairn k cause (fun i => shareOf k.n i x1.idx (x1.idx + n)) s1)
  | none => (x1, lineCairn k cause (fun _ => 0xFFFF) s1)

/-- R364: a lane of the source loses lock, or its speed changes, within a line. -/
def lineBroken (k : LineCfg) (x : LineSrc) (s : State) : LineSrc × State :=
  if x.inLine then
    let (x1, s1) := lineFlush k x s
    ({ lineReset x1 with skip := true }, lineCairn k 0xA (fun _ => 0) s1)
  else (x, s)

/-! ### Lane groups (R356–R361) -/

/-- Every channel of link `j` of group `g` is enabled and covers lane `f`. -/
def linkCovers (s : State) (g j f : Nat) : Bool :=
  s.flag (F.CXP_LINK_EN g j) && decide (j ≤ f) && decide (f < j + 2 ^ s.get (F.CXP_LINK_SIZE g j))

/-- Protocols that group `g` may take by a register write (R356). -/
def protoAllowed (g p : Nat) : Bool :=
  match p with
  | 0 | 1 => true
  | 2 => g == 8 || g == 9 || g == 24 || g == 25
  | 4 => g == 31
  | _ => false

/-- R376: the speed that CXP_LINK(j).SPEED stands for: 7 is treated as 0, and 5 and 6 as 4 under VER = 0. -/
def cxpSpeed (s : State) (g j : Nat) : Nat :=
  let v := s.get (F.CXP_LINK_SPEED g j)
  if v == 7 then 0 else if s.get (F.CXP_LINK_VER g j) == 0 && decide (5 ≤ v) then 4 else v

/-- Ethernet cluster of lane `f` of group `g`, one of LG8, LG9, LG24 and LG25 (R356). -/
def clusterOf (g f : Nat) : Nat := 2 * (if g < 16 then g - 8 else g - 22) + f / 4

/-- R357: the receiver of the lane uses the group's LC PLL (true) or its ring PLL. A PCIe lane trains at 2.5 GT/s. -/
def usesLc (s : State) (g f : Nat) : Bool :=
  match s.get (F.GRP_CTL_PROTO g) with
  | 1 => match (List.range 8).find? fun j => linkCovers s g j f with
    | some j => let v := cxpSpeed s g j; v == 2 || v == 4 || v == 6
    | none => false
  | 2 => s.get (F.ETH_CTL_MODE (clusterOf g f)) != 3
  | 3 => decide (3 ≤ s.get (F.PCI_STAT_GEN (g / 16)))
  | _ => true

/-- R357: the lane uses the group's ring PLL: both up-link rates of CXP do, whatever the speed of the down-link. -/
def usesRing (s : State) (g f : Nat) : Bool := s.get (F.GRP_CTL_PROTO g) == 1 || !usesLc s g f

/-- Each PLL of group `g` is locked while a READY lane uses it. -/
def relock (g : Nat) (s : State) : State :=
  let ready := (List.range 8).filter fun f => (s.get (F.GRP_STAT_READY g)).testBit f
  (s.putB (F.GRP_STAT_RINGLOCK g) (ready.any (usesRing s g))).putB (F.GRP_STAT_LCLOCK g) (ready.any (usesLc s g))

/-- R361: a group leaves low power: its PLLs relock, its lanes with the training they kept. -/
def leaveLowPower (g : Nat) (s : State) : State := relock g (s.put (F.GRP_CTL_LP g) 0)

/-- CXP_STAT.LINKUP of the links of group `g` (R376). -/
def linksRefresh (g : Nat) (s : State) : State :=
  s.each 8 fun j t =>
    t.putB (F.CXP_STAT_LINKUP g j) (t.flag (F.CXP_LINK_EN g j) && (List.range (2 ^ t.get (F.CXP_LINK_SIZE g j))).all fun i =>
      t.flag (F.LN_STAT_READY g (j + i)))

def setReady (g f : Nat) (r : Bool) (s : State) : State :=
  let m := s.get (F.GRP_STAT_READY g)
  let s1 := s.putB (F.LN_STAT_READY g f) r
  linksRefresh g (s1.put (F.GRP_STAT_READY g) (if r then m ||| 2 ^ f else m &&& (255 - 2 ^ f)))

/-- Configuration of CXP link `j` of group `g` as a line source (R362, R363). -/
def cxpCfg (s : State) (g j : Nat) : LineCfg :=
  lineCfg (8 * g + j) (2 ^ s.get (F.CXP_LINK_SIZE g j)) (min (s.get (F.CXP_LINK_PACK g j)) 2) (s.cxp g j).format

/-- Configuration of steering entry `j` of cluster `c` as a line source. -/
def gvCfg (s : State) (c j : Nat) : LineCfg :=
  lineCfg (clusterLane c + s.get (F.GV_BASE c j)) (2 ^ min (s.get (F.GV_LOG2N c j)) 2) (packOf (s.gv c j).format) (s.gv c j).format

/-- R369: lane `f` of its group carries port `p` of cluster `c`. -/
def portLane (s : State) (c p f : Nat) : Bool :=
  f / 4 == c % 2 && (s.get (F.ETH_CTL_MODE c) == 1 || f % 4 == p)

/-- R364: lane `f` of group `g` loses lock: the sources that it carries end their line. -/
def linesBreak (g f : Nat) (s : State) : State :=
  let s1 := s.each 8 fun j t =>
    if linkCovers t g j f then
      let x := t.cxp g j
      let (y, t1) := lineBroken (cxpCfg t g j) x.src t
      t1.setCxp g j { x with src := y, nextTag := none, ahead := [] }
    else t
  s1.each 8 fun c t => t.each 4 fun j u =>
    if clusterGroup c == g && u.flag (F.GV_EN c j) && portLane u c (u.get (F.GV_PORT c j)) f then
      let x := u.gv c j
      let (y, u1) := lineBroken (gvCfg u c j) x.src u
      u1.setGv c j { x with src := y }
    else u

/-- R377: the link of port `p` of cluster `c` comes or goes. -/
def ethLinkSet (c p : Nat) (up : Bool) (s : State) : State :=
  let m := s.get (F.ETH_STAT_LINK c)
  if m.testBit p == up then s
  else (s.put (F.ETH_STAT_LINK c) (if up then m ||| 2 ^ p else m &&& (15 - 2 ^ p))).irq (ethPage c) p

/-- R377: lane `f` of an Ethernet group has lost its lock, and the port that it carries its link. -/
def ethLaneLost (g f : Nat) (s : State) : State :=
  s.when (s.get (F.GRP_CTL_PROTO g) == 2) fun t => t.each 4 fun p u =>
    u.when (portLane u (clusterOf g f) p f) (ethLinkSet (clusterOf g f) p false)

/-- R359: a lane whose setting changes retrains: its lock and its adapted equaliser go. -/
def laneRetrain (g f : Nat) (s : State) : State :=
  let s1 := ethLaneLost g f (setReady g f false (linesBreak g f s))
  { s1 with lanes := { s1.lanes with trained := s1.lanes.trained.erase (8 * g + f) } }

/-- R361: a group enters low power: its receivers lose lock, and both PLLs stop. -/
def lowPower (g : Nat) (s : State) : State :=
  let s1 := s.each 8 fun f t => linesBreak g f t
  -- The pair link stands while its group serves it (R278).
  let s2 := s1.when (g == 31) pairLinkDown
  ((s2.put (F.GRP_CTL_LP g) 1).put (F.GRP_STAT_RINGLOCK g) 0).put (F.GRP_STAT_LCLOCK g) 0

/-- R356, R359, R361: a write of GRP_CTL. -/
def grpCtlWrite (g : Nat) (v : Word) (s : State) : State :=
  let p := (F.GRP_CTL_PROTO g).of v.toNat
  let en := (F.GRP_CTL_EN g).of v.toNat
  let lp := (F.GRP_CTL_LP g).of v.toNat == 1
  let old := s.get (F.GRP_CTL_PROTO g)
  let newP := p != old
  let newE := en != s.get (F.GRP_CTL_EN g)
  if (newP && (!protoAllowed g p || s.flag (F.GRP_CTL_EN g))) || (old == 3 && (newP || newE)) then
    s.setIrq (F.GRP_STAT_CFG_REFUSED g) (lgPage g) 0
  else
    let s0 := ((s.when newP fun t => t.each 8 (laneRetrain g)).put (F.GRP_CTL_PROTO g) p).put (F.GRP_CTL_EN g) en
    -- The pair link stands while its group serves it (R278).
    let s1 := s0.when (g == 31 && (p != 4 || en == 0)) pairLinkDown
    if lp && !s.flag (F.GRP_CTL_LP g) then lowPower g s1
    else if !lp && s.flag (F.GRP_CTL_LP g) then leaveLowPower g s1
    else s1

/-- R361: a packet has reached the NI of a group in low power. -/
def groupWake (g : Nat) (s : State) : State :=
  if s.flag (F.GRP_CTL_LP g) && (s.inbox (laneRouter g)).any fun p => p.dport == g % 2 then
    (leaveLowPower g s).setIrq (F.GRP_STAT_WOKEN g) (lgPage g) 1
  else s

/-- R358: the values that a lane's equaliser adapts to are free; with ADAPT = 0 those of the first convergence are
held. -/
def adapt (g f : Nat) (s : State) : State :=
  let first := !s.lanes.trained.contains (8 * g + f)
  if first || s.flag (F.LN_CTL_ADAPT g f) then
    let (a, s1) := s.nextFree
    let (b, s2) := s1.nextFree
    let s3 := (s2.put (F.LN_EQ_CTLE g f) (Config.freeNat a)).put (F.LN_EQ_DFE1 g f) (Config.freeNat b)
    s3.when first fun t => { t with lanes := { t.lanes with trained := (8 * g + f) :: t.lanes.trained } }
  else s

/-- R357: the PLLs that a lane uses are locked. -/
def pllsLock (g f : Nat) (s : State) : State :=
  (s.when (usesLc s g f) fun t => t.put (F.GRP_STAT_LCLOCK g) 1).when (usesRing s g f) fun t => t.put (F.GRP_STAT_RINGLOCK g) 1

/-- R358: the lane's CDR has locked and its equaliser has converged. -/
def laneReady (g f : Nat) (s : State) : State :=
  if s.flag (F.GRP_CTL_EN g) && s.get (F.GRP_CTL_PROTO g) != 0 && !s.flag (F.GRP_CTL_LP g) then
    setReady g f true (pllsLock g f (adapt g f s))
  else s

/-- R364, R376: the lines of lane `f` break, and its CXP links have lost a connection. -/
def laneBreaks (g f : Nat) (s : State) : State :=
  (linesBreak g f s).each 8 fun j t => t.when (linkCovers t g j f) fun u => u.setIrq (F.CXP_STAT_LOST g j) (cxpPage g) j

/-- R358: a lane loses signal or lock; the pair group takes the pair link down (R278). -/
def laneLos (g f : Nat) (s : State) : State :=
  if s.flag (F.LN_STAT_READY g f) then
    let s1 := ethLaneLost g f (laneBreaks g f s)
    let s2 := (setReady g f false s1).setIrq (F.LN_STAT_LOS g f) (lgPage g) (8 + f)
    s2.when (s.get (F.GRP_CTL_PROTO g) == 4) pairLinkDown
  else s

/-- R361, R375: signal at a lane's receiver, and the code violations of an enabled lane. -/
def signalDetect (g f : Nat) (x : LaneSignal) (s : State) : State :=
  let m := s.get (F.GRP_STAT_SIGDET g)
  let s1 := s.put (F.GRP_STAT_SIGDET g) (if x.on then m ||| 2 ^ f else m &&& (255 - 2 ^ f))
  s1.when (s.flag (F.GRP_CTL_EN g) && !s.flag (F.GRP_CTL_LP g)) fun t => t.count (F.LN_CODEERR_VALUE g f) x.violations.toNat

/-- A group's receivers deliver data: it is enabled, ready and not in low power. -/
def groupUp (s : State) (g proto : Nat) : Bool :=
  s.get (F.GRP_CTL_PROTO g) == proto && s.flag (F.GRP_CTL_EN g) && !s.flag (F.GRP_CTL_LP g)

/-! ### CoaXPress (R364–R368) -/

/-- R364: the line of link `j` of group `g` ends, where one is in progress. -/
def cxpLineEnd (g j : Nat) (s : State) : State :=
  let x := s.cxp g j
  let linew := s.get (F.CXP_LINEW_WORDS g j)
  if x.src.skip || !x.src.inLine then s.setCxp g j { x with src := { x.src with inLine := false, acc := 0, accN := 0 } }
  else
    -- An incomplete word beyond CXP_LINEW is a word dropped.
    let tooLong := linew != 0 && decide (linew ≤ x.src.idx) && !x.src.sub.isEmpty
    let y := if tooLong then { x.src with sub := [], long := x.src.long + 1 } else x.src
    let (n, z, s1) := lineEnd (cxpCfg s g j) linew y s
    (s1.setCxp g j { x with src := z }).count (F.CXP_PADCNT_VALUE g j) n

/-- R362, R364: a payload byte of the line of link `j`; words beyond CXP_LINEW are dropped and counted. -/
def cxpByte (g j : Nat) (b : Byte) (p : Bool) (s : State) : State :=
  let x := s.cxp g j
  let k := cxpCfg s g j
  let linew := s.get (F.CXP_LINEW_WORDS g j)
  if x.src.skip then s
  else if linew != 0 && decide (linew ≤ x.src.idx) then
    let n := x.src.accN + 8
    let sub := if n < k.bits then x.src.sub else x.src.sub ++ [0]
    let full := decide (perWord k.pack ≤ sub.length)
    s.setCxp g j { x with src := { x.src with
      accN := if n < k.bits then n else n - k.bits
      sub := if full then [] else sub, long := if full then x.src.long + 1 else x.src.long } }
  else
    let (y, s1) := lineByte k b p x.src s
    s1.setCxp g j { x with src := y }

/-- R362–R364, R431: what a packet of link `j` carries; `p`: its words are poisoned. A line start ends a line that is still
in progress. -/
def cxpItems (g j : Nat) (p : Bool) : List CxpItem → State → State
  | [], s => s
  | .image f :: l, s => cxpItems g j p l (s.setCxp g j { s.cxp g j with format := f })
  | .start :: l, s =>
    let s1 := cxpLineEnd g j s
    cxpItems g j p l (s1.setCxp g j { s1.cxp g j with src := { (s1.cxp g j).src with skip := false, inLine := true } })
  | .byte b :: l, s => cxpItems g j p l (cxpByte g j b p s)
  | .eol :: l, s => cxpItems g j p l (cxpLineEnd g j s)

/-- Words that the payload bytes of a packet make up. -/
def itemWords (k : LineCfg) (l : List CxpItem) : Nat :=
  ceilDiv ((l.filter fun i => match i with
    | .byte _ => true
    | _ => false).length * 8 / k.bits) (perWord k.pack)

/-- R364: a loss of link `j` is marked in its queues. -/
def cxpLost (g j cause : Nat) (n : Option Nat) (s : State) : State :=
  let (y, s1) := lineLost (cxpCfg s g j) cause n (s.cxp g j).src s
  s1.setCxp g j { s.cxp g j with src := y }

/-- R364: a stream packet of link `j` whose turn it is. -/
def cxpTake (g j : Nat) (q : CxpPkt) (s : State) : State :=
  let skip := (s.cxp g j).nextTag.any fun t => t != q.tag
  let s1 := s.when skip (cxpLost g j 0x9 q.missing)
  let s2 := s1.when q.crcBad fun t => (t.count (F.CXP_CRCERR_VALUE g j) 1).irq (cxpPage g) j
  let s3 := if q.crcBad && !s.flag (F.CXP_LINK_CRCACT g j) then cxpLost g j 0x8 (some (itemWords (cxpCfg s g j) q.items)) s2
    else cxpItems g j q.crcBad q.items s2
  s3.setCxp g j { s3.cxp g j with nextTag := some ((q.tag + 1) % 256) }

/-- Packets in tag order from `next` on, with one more. -/
def insertTag (next : Nat) (q : CxpPkt) : List CxpPkt → List CxpPkt
  | [] => [q]
  | x :: l => if (q.tag + 256 - next) % 256 < (x.tag + 256 - next) % 256 then q :: x :: l else x :: insertTag next q l

/-- R366: packets that came ahead of their turn are taken in tag order. With as many waiting as the link has connections,
the packet before them will not come: its tag skips (DESIGN CHOICE, log 151). -/
def cxpDrain (g j : Nat) : Nat → State → State
  | 0, s => s
  | n + 1, s =>
    let x := s.cxp g j
    match x.ahead with
    | [] => s
    | q :: l =>
      if x.nextTag.all (· == q.tag) || 2 ^ s.get (F.CXP_LINK_SIZE g j) ≤ x.ahead.length then
        cxpDrain g j n (cxpTake g j q (s.setCxp g j { x with ahead := l }))
      else s

/-- R364–R366: a stream packet of link `j`. `q.missing`: the words lost when its tag skips. -/
def cxpStream (g j id : Nat) (q : CxpPkt) (s : State) : State :=
  if !groupUp s g 1 || !s.flag (F.CXP_LINK_EN g j) || s.flag (F.CXP_STAT_SPDCHG g j) then s
  else if id != s.get (F.CXP_LINK_STREAMID g j) then s.count (F.CXP_OTHERID_VALUE g j) 1
  else
    let x := s.cxp g j
    cxpDrain g j 9 (s.setCxp g j { x with ahead := insertTag (x.nextTag.getD q.tag) q x.ahead })

def cxpRefused (g j : Nat) (s : State) : State := s.put (F.CXP_STAT_CFG_REFUSED g j) 1

/-- R366: link `j` with `n` connections would overlap an enabled link. -/
def linkOverlap (s : State) (g j n : Nat) : Bool :=
  (List.range 8).any fun i => i != j && s.flag (F.CXP_LINK_EN g i) &&
    decide (i < j + n) && decide (j < i + 2 ^ s.get (F.CXP_LINK_SIZE g i))

/-- R366: the rate of an enabled link changes, and its lanes retrain. -/
def speedChange (g j : Nat) (s : State) : State :=
  let s1 := s.each (2 ^ s.get (F.CXP_LINK_SIZE g j)) fun i t => laneRetrain g (j + i) t
  s1.put (F.CXP_STAT_SPDCHG g j) 1

/-- R366: a write of CXP_LINK(j). -/
def cxpLinkWrite (g j : Nat) (v : Word) (s : State) : State :=
  let fixed := [F.CXP_LINK_SIZE g j, F.CXP_LINK_VER g j, F.CXP_LINK_PACK g j, F.CXP_LINK_CRCACT g j, F.CXP_LINK_STREAMID g j]
  let en := (F.CXP_LINK_EN g j).of v.toNat == 1
  let was := s.flag (F.CXP_LINK_EN g j)
  let n := 2 ^ (F.CXP_LINK_SIZE g j).of v.toNat
  if was && !keeps s v fixed then cxpRefused g j s
  else if !was && en && (j % n != 0 || linkOverlap s g j n) then cxpRefused g j s
  else
    let faster := was && en && (F.CXP_LINK_SPEED g j).of v.toNat != s.get (F.CXP_LINK_SPEED g j)
    let s1 := s.when faster (speedChange g j)
    let s2 := s1.loadAll v (fixed ++ [F.CXP_LINK_EN g j, F.CXP_LINK_SPEED g j])
    let s3 := s2.when (was != en) fun t => t.setCxp g j { trig := (t.cxp g j).trig }
    linksRefresh g s3

/-- R366: a write of CXP_LINEW(j), refused while the link is enabled. -/
def cxpLinewWrite (g j : Nat) (v : Word) (s : State) : State :=
  if s.flag (F.CXP_LINK_EN g j) && !keeps s v [F.CXP_LINEW_WORDS g j] then cxpRefused g j s
  else s.load (F.CXP_LINEW_WORDS g j) v

/-- R366: every lane of the link is READY again. -/
def speedChangeDone (g j : Nat) (s : State) : State :=
  s.when (s.flag (F.CXP_STAT_SPDCHG g j) && (List.range (2 ^ s.get (F.CXP_LINK_SIZE g j))).all fun i =>
    s.flag (F.LN_STAT_READY g (j + i))) fun t => t.put (F.CXP_STAT_SPDCHG g j) 0

/-- R360, R367: a write of CXP_CCCTL. A GO is refused while a packet is being sent, while the transmitters
are idle, and with a LEN outside 1–64. -/
def ccCtlWrite (g : Nat) (v : Word) (s : State) : State :=
  let s1 := s.loadAll v [F.CXP_CCCTL_LINK g, F.CXP_CCCTL_LEN g]
  let j := s1.get (F.CXP_CCCTL_LINK g)
  let n := s1.get (F.CXP_CCCTL_LEN g)
  if !v.getLsbD 16 then s1
  else if s.flag (F.CXP_CCCTL_BUSY g) || s.txIdle g || n == 0 || 64 < n then cxpRefused g j (if s.flag (F.CXP_CCCTL_BUSY g) then s else s1)
  else
    let ws := (List.range n).map fun i => BitVec.ofNat 32 (s.get (F.CXP_CCTX_WORD g i))
    (s1.put (F.CXP_CCCTL_BUSY g) 1).emit (.cxpControl g j (Config.cxpPacket (min (s.get (F.CXP_LINK_VER g j)) 2) ws))

/-- R367, R376: the last character has left. -/
def ccSent (g : Nat) (s : State) : State :=
  s.when (s.flag (F.CXP_CCCTL_BUSY g)) fun t => (t.put (F.CXP_CCCTL_BUSY g) 0).irq (cxpPage g) 8

/-- R360, R367: events are acknowledged in the order of their arrival; while the transmitters are idle that waits. -/
def ackEvents (s : State) : State :=
  let s1 := (s.lanes.acks.filter fun a => !s.txIdle a.1).foldl (fun t a => t.emit (.cxpEventAck a.1 a.2)) s
  { s1 with lanes := { s1.lanes with acks := s.lanes.acks.filter fun a => s.txIdle a.1 } }

/-- R367: a packet of kind 1–4 received for link `j`; a good event is acknowledged by the engine. -/
def ccReceive (g j kind : Nat) (good : Bool) (payload : List Word) (s : State) : State :=
  if !groupUp s g 1 then s
  else if !good then s.count (F.CXP_CCERR_VALUE g) 1
  else
    let s1 := s.when (kind == 2) fun t => ackEvents { t with lanes := { t.lanes with acks := t.lanes.acks ++ [(g, j)] } }
    let h := s.get (F.CXP_RXPTR_HEAD g)
    if (h + 1) % 4 == s.get (F.CXP_RXPTR_TAIL g) then s1.setIrq (F.CXP_RXPTR_RXOVF g) (cxpPage g) 10
    else
      let n := min payload.length 61
      let w0 := kind + 16 * j + 2 ^ 8 * n + 2 ^ 15 * b2n (61 < payload.length)
      let ws := [w0, s.tb.toNat % 2 ^ 32, s.tb.toNat / 2 ^ 32] ++ (payload.take 61).map (·.toNat)
      let s2 := s1.each ws.length fun i t => t.put (F.CXP_RXRING_WORD g (64 * h + i)) (ws.getD i 0)
      (s2.put (F.CXP_RXPTR_HEAD g) (h + 1)).irq (cxpPage g) 9

/-- R368: the next trigger packet of link `j` starts. One that can no longer convey its instant carries a
delay of zero and counts as late. -/
def triggerPacket (g j : Nat) (s : State) : State :=
  let x := s.cxp g j
  match x.trig with
  | [] => s
  | (at8, rising) :: l =>
    if s.txIdle g then
      ((s.setCxp g j { x with trig := l }).count (F.CXP_TRIGSTAT_DROP g j) 1).irq (cxpPage g) j
    else
      let late := decide (at8 < s.tb8)
      let s1 := (s.setCxp g j { x with trig := l }).emit (.cxpTrigger g j rising (at8 - s.tb8))
      s1.when late fun t => (t.count (F.CXP_TRIGSTAT_LATE g j) 1).irq (cxpPage g) j

/-! ### Ethernet (R369–R373) -/

/-- R369: a write of ETH_CTL. -/
def ethCtlWrite (c : Nat) (v : Word) (s : State) : State :=
  let l := [F.ETH_CTL_MODE c, F.ETH_CTL_FEC c, F.ETH_CTL_PORTEN c]
  if s.get (F.ETH_CTL_PORTEN c) != 0 && !keeps s v l then s.put (F.ETH_STAT_CFG_REFUSED c) 1
  else
    let new := (F.ETH_CTL_MODE c).of v.toNat != s.get (F.ETH_CTL_MODE c)
    (s.when (new && s.get (F.GRP_CTL_PROTO (clusterGroup c)) == 2) fun t => t.each 4 fun i u =>
      laneRetrain (clusterGroup c) (4 * (c % 2) + i) u).loadAll v l

/-- R371: a write of GV(j); BASE + N must not exceed 4 in an enable. -/
def gvWrite (c j : Nat) (v : Word) (s : State) : State :=
  let en := (F.GV_EN c j).of v.toNat == 1
  if en && decide (4 < (F.GV_BASE c j).of v.toNat + 2 ^ min ((F.GV_LOG2N c j).of v.toNat) 2) then
    s.put (F.ETH_STAT_CFG_REFUSED c) 1
  else
    let s1 := s.loadAll v [F.GV_EN c j, F.GV_PORT c j, F.GV_BASE c j, F.GV_LOG2N c j]
    s1.when (en != s.flag (F.GV_EN c j)) fun t => t.setGv c j {}

/-- R369: port `p` exists in the cluster's mode: 100GBASE-R4 has port 0 only. -/
def portExists (s : State) (c p : Nat) : Bool :=
  let m := s.get (F.ETH_CTL_MODE c)
  groupUp s (clusterGroup c) 2 && m != 0 && (m != 1 || p == 0)

/-- The cluster's port takes and sends frames (R369, R377). -/
def portUp (s : State) (c p : Nat) : Bool :=
  portExists s c p && (s.get (F.ETH_CTL_PORTEN c)).testBit p && (s.get (F.ETH_STAT_LINK c)).testBit p

/-- R370: the lowest steering entry that takes a UDP frame. -/
def gvMatch (s : State) (c p : Nat) (udp : Option (BitVec 16 × Word)) : Option Nat :=
  match udp with
  | none => none
  | some (port, ip) => (List.range 4).find? fun j =>
      s.flag (F.GV_EN c j) && s.get (F.GV_PORT c j) == p && s.get (F.GV_UDPPORT c j) == port.toNat
        && (s.get (F.GV_SRCIP c j) == 0 || s.get (F.GV_SRCIP c j) == ip.toNat)

/-- Slots of a ring; other values than 2–4,096 disable it (R377). -/
def ringOk (n : Nat) : Bool := decide (2 ≤ n) && decide (n ≤ 4096)

/-- The PTP time of cluster `c`: nanoseconds, and seconds (R374). -/
def phcNow (s : State) (c : Nat) : Nat × Nat := let p := s.phc.get c {}; (p.ns, p.sec)

/-- R217: the router and the endpoint code of Ethernet cluster `c`. -/
def ethRouter (c : Nat) : Nat := laneRouter (clusterGroup c)
def ethPort (c : Nat) : Nat := clusterGroup c % 2

/-- Requesters of the rings of cluster `c` (R372). -/
abbrev txKey (c : Nat) : Nat := 512 + c
abbrev rxKey (c : Nat) : Nat := 640 + c

/-- Bytes without poison, as a write to HBM. -/
def cleanBytes (l : List Byte) : List (Byte × Bool) := l.map fun b => (b, false)

/-- R372: the time words of a descriptor. -/
def stampWords (ns sec : Nat) : List Word := [ns, sec % 2 ^ 32, sec / 2 ^ 32].map (BitVec.ofNat 32)

/-- R372: a frame and its descriptor. -/
def rxSlot (f : RxFrame) : List (Byte × Bool) :=
  cleanBytes (wordBytes (BitVec.ofNat 32 (f.bytes.length % 2 ^ 14 + 2 ^ 16 * f.port + 2 ^ 20) :: stampWords f.ns f.sec) ++ f.bytes)

/-- R372: the frames on their way into the receive ring are written at HEAD, one after the other; HEAD advances once a frame
and its descriptor stand in HBM. -/
def xrxPump (c : Nat) : Nat → State → State
  | 0, s => s
  | n + 1, s =>
    match (s.ethCl c).rx with
    | [] => s
    | f :: l =>
      let slots := s.get (F.XRX_RING_SLOTS c)
      let h := s.get (F.XRX_PTR_HEAD c)
      let done := fun (t : State) => t.setEthCl c { t.ethCl c with rx := l }
      if !ringOk slots then xrxPump c n (done (wireEnd (rxKey c) s))
      else
        let a := 2 ^ 14 * s.get (F.XRX_BASE_LO_ADDR c) + 2 ^ 32 * s.get (F.XRX_BASE_HI_ADDR c) + 16384 * h
        match wireAsk (rxKey c) (writeRequests s none (ethRouter c) (ethPort c) a (rxSlot f)) (wireRewind (rxKey c) s) with
        | (none, s1) => s1
        | (some _, s1) =>
          xrxPump c n (done (((wireEnd (rxKey c) s1).put (F.XRX_PTR_HEAD c) ((h + 1) % slots)).irq (ethPage c) 4))

/-- R372: a frame for the receive ring is taken with the time of its arrival, or dropped. -/
def xrxPlace (c p : Nat) (bytes : List Byte) (s : State) : State :=
  let n := s.get (F.XRX_RING_SLOTS c)
  let x := s.ethCl c
  if !ringOk n then s
  else if (s.get (F.XRX_PTR_HEAD c) + x.rx.length + 1) % n == s.get (F.XRX_PTR_TAIL c) then
    (s.count (F.XRX_DROP_VALUE c) 1).irq (ethPage c) 6
  else
    let (ns, sec) := phcNow s c
    xrxPump c (x.rx.length + 1) (s.setEthCl c { x with rx := x.rx ++ [⟨p, bytes, ns, sec⟩] })

/-- R369: RS-FEC runs: always in 100GBASE-R4, and in 25GBASE-R where ETH_CTL.FEC is set. -/
def fecRuns (s : State) (c : Nat) : Bool :=
  s.get (F.ETH_CTL_MODE c) == 1 || (s.get (F.ETH_CTL_MODE c) == 2 && s.flag (F.ETH_CTL_FEC c))

/-- R370: a frame received on port `p` of cluster `c`, without its FCS. A frame that a steering entry takes waits to be
unpacked as its GVSP packet; `image` tells the Image payload type (R371). -/
def ethReceive (c p : Nat) (check : FrameCheck) (udp : Option (BitVec 16 × Word)) (image : Bool) (bytes : List Byte)
    (s : State) : State :=
  if !portUp s c p then s
  else
    let s0 := s.when (fecRuns s c) fun t =>
      (t.count (F.ETH_FECCORR_VALUE c) check.corrected.toNat).count (F.ETH_FECUNC_VALUE c) check.uncorrectable.toNat
    if !check.fcs || bytes.length + 4 < 64 || 9600 < bytes.length + 4 then (s0.count (F.ETH_RXERR_VALUE c) 1).irq (ethPage c) 6
    else
      let s1 := s0.put (F.ETH_RXFRM_VALUE c) (s.get (F.ETH_RXFRM_VALUE c) + 1)
      match gvMatch s c p udp with
      | some j => if image then s1.setEthCl c { s1.ethCl c with steered := (s1.ethCl c).steered ++ [j] } else xrxPlace c p bytes s1
      | none => xrxPlace c p bytes s1

/-! #### GVSP (R371) -/

/-- Items that a line of `width` pixels has: pixels, or the bytes of a RAW line. -/
def lineItemsOf (f : PixelFormat) (width : Nat) : Nat :=
  match f with
  | .other b => ceilDiv (width * b.toNat) 8
  | _ => width

/-- Words of a line of the block, by the leader's format. -/
def gvLineWords (x : GvSrc) : Nat := ceilDiv x.lineItems (perWord (packOf x.format))

/-- R371: a line in progress ends with a SHORT cairn. Answers the padding too. -/
def gvShort (k : LineCfg) (x : GvSrc) (s : State) : Nat × GvSrc × State :=
  let y := { x with place := 0, src := { x.src with acc := 0, accN := 0 } }
  if !x.src.skip && (x.src.inLine || 0 < x.place) then
    let (n, z, s1) := lineEnd k (gvLineWords x) y.src s
    (n, { y with src := z }, s1)
  else (0, { y with src := lineReset y.src }, s)

/-- R371: the payload bytes of a block, cut into lines of the leader's width; of a line that a LINK cairn broke the rest is
discarded (R364). Answers the padding too. -/
def gvItems (k : LineCfg) : List Byte → Nat × GvSrc × State → Nat × GvSrc × State
  | [], r => r
  | b :: l, (pad, x, s) =>
    let n := x.src.accN + 8
    let full := decide (k.bits ≤ n)
    let (y, s1) := if x.src.skip then ({ x.src with acc := 0, accN := if full then n - k.bits else n }, s)
      else lineByte k b false x.src s
    let x1 := { x with src := y, place := if full then x.place + 1 else x.place }
    if full && decide (x1.lineItems ≤ x1.place) then
      let keep := fun (z : LineSrc) => { z with skip := false, acc := y.acc, accN := y.accN }
      if x.src.skip then gvItems k l (pad, { x1 with src := keep (lineReset y), place := 0 }, s1)
      else
        let (m, z, s2) := lineEnd k 0 y s1
        gvItems k l (pad + m, { x1 with src := keep z, place := 0 }, s2)
    else gvItems k l (pad, x1, s1)

/-- R371: packets are missing before this one: a GAP cairn, and the block goes on after what was lost. -/
def gvGap (k : LineCfg) (n : Nat) (x : GvSrc) (s : State) : GvSrc × State :=
  match x.pktBytes with
  | none =>
    let (y, s1) := lineLost k 0x9 none x.src s
    ({ x with src := y }, s1)
  | some m =>
    let at0 := x.place * k.bits + x.src.accN + 8 * n * m
    let items := at0 / k.bits
    let (y, s1) := lineLost k 0x9 (some ((items - x.place) / perWord k.pack)) x.src s
    let place := items % max x.lineItems 1
    ({ x with place := place, src := { y with
        idx := place / perWord k.pack, sub := List.replicate (place % perWord k.pack) 0, acc := 0, accN := at0 % k.bits
        inLine := decide (0 < place), skip := y.skip && decide (items < x.lineItems) } }, s1)

/-- R371: the packets from the one expected up to `id` are missing, if there are any. -/
def gvSkip (k : LineCfg) (id : Nat) (x : GvSrc) (s : State) : GvSrc × State :=
  if x.expected.any (· < id) then gvGap k (id - x.expected.getD id) x s else (x, s)

/-- R371: a GVSP packet that steering entry `j` of cluster `c` has taken. -/
def gvspTake (c j id : Nat) (body : GvspBody) (s : State) : State :=
  let x := s.gv c j
  let k := gvCfg s c j
  match body with
  | .leader f width =>
    let (pad, x1, s1) := gvShort k x s
    let s2 := s1.setGv c j { x1 with
      format := f, lineItems := lineItemsOf f width, inBlock := true, pktBytes := none, expected := some (id + 1), src := {} }
    (s2.count (F.GV_STAT_PAD c j) pad).when (packOf f == 2) fun t => t.put (F.GV_STAT_FMTRAW c j) 1
  | .payload bytes =>
    if x.expected.any (id < ·) then s.count (F.GV_STAT_ORDER c j) 1
    else
      let (x1, s1) := gvSkip k id x s
      -- Of a block whose leader was lost neither width nor format is known: its payload is lost with it.
      let (pad, x2, s2) := if x.inBlock then gvItems k bytes (0, x1, s1) else (0, x1, s1)
      let next := if x.inBlock || x.expected.isSome then some (id + 1) else none
      let s3 := s2.setGv c j { x2 with expected := next, pktBytes := if x.inBlock then some bytes.length else none }
      s3.count (F.GV_STAT_PAD c j) pad
  | .trailer =>
    if x.expected.any (id < ·) then s.count (F.GV_STAT_ORDER c j) 1
    else
      let (x1, s1) := gvSkip k id x s
      let (pad, x2, s2) := gvShort k x1 s1
      (s2.setGv c j { x2 with inBlock := false, expected := some 0, pktBytes := none, src := {} }).count (F.GV_STAT_PAD c j) pad

/-- R370, R371: the packet of a frame that steering entry `j` took is unpacked. -/
def gvspPacket (c j id : Nat) (resend : Bool) (body : GvspBody) (s : State) : State :=
  let l := (s.ethCl c).steered
  if !l.contains j then s
  else
    let s1 := s.setEthCl c { s.ethCl c with steered := l.erase j }
    if !s.flag (F.GV_EN c j) then s1
    else if resend then s1.count (F.GV_STAT_ORDER c j) 1
    else gvspTake c j id body s1

/-! #### Transmission (R372, R373) -/

/-- MAXLEN within its limits (R373). -/
def maxLen (s : State) (c : Nat) : Nat := min 8972 (max 88 (s.get (F.ETH_TXU_MAXLEN_BYTES c)))

/-- Payload bytes of the datagram being filled. -/
def datagramBytes (l : List Report) : Nat := 8 + l.foldl (fun acc r => acc + reportBytes r) 0

/-- R373: the next report would take the datagram of cluster `c` beyond MAXLEN. -/
def datagramFull (s : State) (c : Nat) : Bool :=
  match s.col.outq with
  | r :: _ => s.get F.COL_CTL_SINK == 2 && s.get F.COL_CTL_ETHCL == c
      && decide (maxLen s c < datagramBytes (s.ethCl c).reports + reportBytes r)
  | [] => false

/-- R373: HOLD ns have passed since the first report of the datagram. -/
def datagramHeld (s : State) (c : Nat) : Bool :=
  (s.ethCl c).firstAt.any fun t0 => decide (t0 + s.get (F.ETH_TXU_HOLD_NS c) ≤ s.cycle)

/-- R373: a report frame waits on port `p`. -/
def datagramWaits (s : State) (c p : Nat) : Bool :=
  s.get (F.ETH_TXU_PORT c) == p && !(s.ethCl c).reports.isEmpty && (datagramFull s c || datagramHeld s c)

/-- HBM address of the slot at HEAD of the transmit ring, which has a frame to send (R372). -/
def xtxHead (s : State) (c : Nat) : Option Nat :=
  let n := s.get (F.XTX_RING_SLOTS c)
  let h := s.get (F.XTX_PTR_HEAD c)
  if !ringOk n || h == s.get (F.XTX_PTR_TAIL c) then none
  else some ((2 ^ 14 * s.get (F.XTX_BASE_LO_ADDR c) + 2 ^ 32 * s.get (F.XTX_BASE_HI_ADDR c) + 16384 * h) % 2 ^ 35)

/-- The first word of a descriptor that has been read: LEN, PORT and TS (R372). -/
def descWord (l : List VnReply) : Nat := leNat (((l.flatMap (replyBytes 16)).take 4).map (·.1))

/-- R373: a frame of the transmit ring, whose descriptor has been read, waits on port `p`. -/
def xtxWaits (s : State) (c p : Nat) : Bool :=
  (xtxHead s c).isSome && match (s.wire (txKey c)).reqs with
    | some d :: _ => bitsOf (descWord [d]) 16 2 == p
    | _ => false

/-- A frame of the cluster leaves; the FCS of one that holds poison is complemented, and it is counted (R207, R373). -/
def frameSend (c port : Nat) (bytes : List Byte) (poison : Bool) (s : State) : State :=
  (s.emit (.ethFrame c port bytes poison)).when poison fun t => (t.count (F.ETH_STOMPCNT_VALUE c) 1).irq (ethPage c) 7

/-- R372: HEAD of the transmit ring advances. -/
def xtxDone (c : Nat) (s : State) : State :=
  let n := max 1 (s.get (F.XTX_RING_SLOTS c))
  ((wireEnd (txKey c) s).put (F.XTX_PTR_HEAD c) ((s.get (F.XTX_PTR_HEAD c) + 1) % n)).irq (ethPage c) 5

/-- R372: the frame `f` of the slot at `a`, whose descriptor begins with `w0`, is sent, and with TS = 1 the time of its
sending written back: `op` of the requester holds that time once the frame has left. -/
def xtxFrame (c a w0 : Nat) (f : List (Byte × Bool)) (s : State) : State :=
  let port := bitsOf w0 16 2
  let w := s.wire (txKey c)
  let held := !portUp s c port || s.txIdle (clusterGroup c) || (datagramWaits s c port && !(s.ethCl c).lastReport.contains port)
  if w.op.isNone && held then s
  else
    let (ns, sec) := phcNow s c
    let s1 := if w.op.isSome then s else
      let t := frameSend c port (f.map (·.1)) (f.any (·.2)) s
      let u := t.setEthCl c { t.ethCl c with lastReport := (t.ethCl c).lastReport.erase port }
      u.setWire (txKey c) { w with op := some (true, ns + 2 ^ 30 * sec) }
    if !w0.testBit 20 then xtxDone c s1
    else
      let at0 := ((s1.wire (txKey c)).op.getD (true, 0)).2
      let ps := writeRequests s1 none (ethRouter c) (ethPort c) (a + 4) (cleanBytes (wordBytes (stampWords (at0 % 2 ^ 30) (at0 / 2 ^ 30))))
      match wireAsk (txKey c) ps s1 with
      | (some _, s2) => xtxDone c s2
      | (none, s2) => s2

/-- R372: the descriptor and the frame at HEAD of the transmit ring are read, and the frame is sent. It waits while it is
the turn of a report frame (R373). -/
def xtxSend (c : Nat) (s : State) : State :=
  match xtxHead s c with
  | none => s
  | some a =>
    let asks := fun (a n : Nat) (t : State) => readRequests t none (ethRouter c) (ethPort c) a n
    match wireAsk (txKey c) (asks a 16 s) (wireRewind (txKey c) s) with
    | (none, s1) => s1
    | (some d, s1) =>
      let w0 := descWord d
      let ps := asks (a + 16) (w0 % 2 ^ 14) s1
      match wireAsk (txKey c) ps s1 with
      | (none, s2) => s2
      | (some l, s2) => xtxFrame c a w0 ((ps.zip l).flatMap fun (p, r) => replyBytes (p.size + 1) r) s2

/-- R158, R373: cluster `c` takes a report that still fits its datagram. -/
def ethTakesReport (s : State) (c : Nat) (r : Report) : Bool :=
  s.flag (F.ETH_TXU_EN c) && decide (datagramBytes (s.ethCl c).reports + reportBytes r ≤ maxLen s c)

def ethAddReport (c : Nat) (r : Report) (s : State) : State :=
  let x := s.ethCl c
  s.setEthCl c { x with reports := x.reports ++ [r], firstAt := if x.reports.isEmpty then some s.cycle else x.firstAt }

/-- The low `n` bytes of a number, most significant first. -/
def beBytes (n v : Nat) : List Byte := (leBytes n v).reverse

/-- Sum of the 16-bit words of some bytes, most significant byte first. -/
def wordSum : List Byte → Nat
  | [] => 0
  | [a] => 256 * a.toNat
  | a :: b :: l => 256 * a.toNat + b.toNat + wordSum l

/-- The Internet checksum: the complement of the ones' complement sum. -/
def checksum (l : List Byte) : Nat :=
  let fold := fun (n : Nat) => n % 2 ^ 16 + n / 2 ^ 16
  2 ^ 16 - 1 - fold (fold (wordSum l))

/-- R373: an IPv4 header without options, with DF set and a TTL of 64, of a UDP datagram of `len` bytes. `free`: the type of
service and the identification, which the spec leaves open (log 152). -/
def ipHeader (src dst len free : Nat) : List Byte :=
  let head := [0x45, BitVec.ofNat 8 free] ++ beBytes 2 (20 + len) ++ beBytes 2 (free / 2 ^ 8) ++ [0x40, 0x00, 64, 17]
  let addrs := beBytes 4 src ++ beBytes 4 dst
  head ++ beBytes 2 (checksum (head ++ addrs)) ++ addrs

/-- R373: a UDP datagram; a checksum of zero is sent as all ones. -/
def udpDatagram (src dst sport dport : Nat) (payload : List Byte) : List Byte :=
  let len := beBytes 2 (8 + payload.length)
  let ports := beBytes 2 sport ++ beBytes 2 dport
  let sum := checksum (beBytes 4 src ++ beBytes 4 dst ++ [0, 17] ++ len ++ ports ++ len ++ payload)
  ports ++ len ++ beBytes 2 (if sum == 0 then 2 ^ 16 - 1 else sum) ++ payload

/-- R373: the payload of a datagram: SEQ, the report count and the flags, and the reports. -/
def datagramPayload (seq : Nat) (l : List Report) (poison : Bool) : List Byte :=
  wordBytes ([BitVec.ofNat 32 seq, BitVec.ofNat 32 (l.length % 2 ^ 16 + 2 ^ 16 * b2n poison)] ++ l.flatMap reportWords)

/-- R373: the frame of a datagram with the addresses and ports of the ETH_TXU registers. -/
def datagramFrame (s : State) (c free : Nat) (payload : List Byte) : List Byte :=
  let mac := fun (lo hi : Fld) => beBytes 6 (s.get2 lo hi)
  let src := s.get (F.ETH_TXU_SIP_ADDR c)
  let dst := s.get (F.ETH_TXU_DIP_ADDR c)
  let udp := udpDatagram src dst (s.get (F.ETH_TXU_PORTS_SPORT c)) (s.get (F.ETH_TXU_PORTS_DPORT c)) payload
  mac (F.ETH_TXU_DMAC_LO_ADDR c) (F.ETH_TXU_DMAC_HI_ADDR c) ++ mac (F.ETH_TXU_SMAC_LO_ADDR c) (F.ETH_TXU_SMAC_HI_ADDR c)
    ++ [0x08, 0x00] ++ ipHeader src dst udp.length free ++ udp

/-- R373: the datagram is sent. It waits while it is the turn of a frame of the transmit ring. -/
def sendDatagram (c : Nat) (s : State) : State :=
  let x := s.ethCl c
  let port := s.get (F.ETH_TXU_PORT c)
  if x.reports.isEmpty || !portUp s c port || s.txIdle (clusterGroup c) || (xtxWaits s c port && x.lastReport.contains port) then s
  else
    let poison := x.reports.any fun r => r.h0.getLsbD 5
    let seq := s.get (F.ETH_TXU_SEQ_VALUE c)
    let (fr, s0) := s.nextFree
    let s1 := frameSend c port (datagramFrame s c (Config.freeNat fr) (datagramPayload seq x.reports poison)) poison s0
    (s1.put (F.ETH_TXU_SEQ_VALUE c) (seq + 1)).setEthCl c
      { x with reports := [], firstAt := none, lastReport := port :: x.lastReport.erase port }

/-- R373: a datagram that the next report would take beyond MAXLEN is sent. -/
def reportDatagram (c : Nat) (s : State) : State := s.when (datagramFull s c) (sendDatagram c)

/-- R373: HOLD ns have passed since the first report of the datagram: it is sent. -/
def datagramHold (c : Nat) (s : State) : State := s.when (datagramHeld s c) (sendDatagram c)

/-- R377: the link of port `p` of cluster `c` comes or goes. -/
def ethLinkChange (c p : Nat) (up : Bool) (s : State) : State :=
  if up && !portExists s c p then s else ethLinkSet c p up s

/-! ### The PTP clocks (R374) -/

def setPhc (c : Nat) (x : Phc) (s : State) : State := { s with phc := s.phc.set c x {} }

/-- R374: PHC_STEP adds a signed number of ns, carrying into the seconds. -/
def phcStep (c : Nat) (v : Word) (s : State) : State :=
  let p := s.phc.get c {}
  let t := ((1000000000 * p.sec + p.ns : Nat) : Int) + v.toInt
  let n := (t % (2 ^ 48 * 1000000000 : Nat)).toNat
  setPhc c { p with sec := n / 1000000000, ns := n % 1000000000 } s

/-- R374: PHC_CTL.LOAD applies the staged time. -/
def phcLoad (c : Nat) (s : State) : State :=
  let p := s.phc.get c {}
  setPhc c { p with sec := p.stageSec, ns := p.stageNs, frac := 0 } s

/-- R374: a write of PHC_NS (0), PHC_S_LO (1) or PHC_S_HI (2) is staged. -/
def phcStage (c reg : Nat) (v : Word) (s : State) : State :=
  let p := s.phc.get c {}
  setPhc c (match reg with
    | 0 => { p with stageNs := v.toNat % 2 ^ 30 }
    | 1 => { p with stageSec := 2 ^ 32 * (p.stageSec / 2 ^ 32) + v.toNat }
    | _ => { p with stageSec := p.stageSec % 2 ^ 32 + 2 ^ 32 * (v.toNat % 2 ^ 16) }) s

/-- R374: a read of PHC_NS latches the seconds. -/
def phcRead (c : Nat) (s : State) : Word × State :=
  let p := s.phc.get c {}
  (BitVec.ofNat 32 p.ns, setPhc c { p with latched := p.sec } s)

/-! ### The meanings -/

def execGrpCtlWrite (g : Fin 32) (v : Word) (s : State) : Result := .next (grpCtlWrite g v s)
/-- GRP_CTL written with LP = 1 and its other fields as they are. -/
def execLowPower (g : Fin 32) (s : State) : Result :=
  .next (if s.flag (F.GRP_CTL_LP g) then s else lowPower g s)
def execGroupWake (g : Fin 32) (s : State) : Result := .next (groupWake g s)
def execLaneReady (g : Fin 32) (f : Fin 8) (s : State) : Result := .next (laneReady g f s)
def execLaneLos (g : Fin 32) (f : Fin 8) (s : State) : Result := .next (laneLos g f s)
def execSignalDetect (g : Fin 32) (f : Fin 8) (seen : LaneSignal) (s : State) : Result := .next (signalDetect g f seen s)
def execCxpStreamPacket (g : Fin 32) (j : Fin 8) (id tag : Byte) (crcBad : Bool) (missing : Option (BitVec 16))
    (items : List CxpItem) (s : State) : Result :=
  .next (cxpStream g j id.toNat ⟨tag.toNat, crcBad, missing.map (·.toNat), items⟩ s)
def execCxpLinkWrite (g : Fin 32) (j : Fin 8) (v : Word) (s : State) : Result := .next (cxpLinkWrite g j v s)
/-- CXP_LINK written with a new SPEED and its other fields as they are. -/
def execCxpSpeedChange (g : Fin 32) (j : Fin 8) (speed : Fin 8) (s : State) : Result :=
  .next (if s.get (F.CXP_LINK_SPEED g j) == speed.val then s
    else linksRefresh g ((s.when (s.flag (F.CXP_LINK_EN g j)) (speedChange g j)).put (F.CXP_LINK_SPEED g j) speed))
def execSpeedChangeDone (g : Fin 32) (j : Fin 8) (s : State) : Result := .next (speedChangeDone g j s)
def execCxpControlSend (g : Fin 32) (v : Word) (s : State) : Result := .next (ccCtlWrite g (v ||| 0x10000) s)
def execCxpControlSent (g : Fin 32) (s : State) : Result := .next (ccSent g s)
/-- `kind`: 0 acknowledgement, 1 event, 2 heartbeat, 3 trigger acknowledgement. -/
def execCxpControlReceive (g : Fin 32) (j : Fin 8) (kind : Fin 4) (good : Bool) (payload : List Word) (s : State) : Result :=
  .next (ccReceive g j (kind + 1) good payload s)
def execTriggerPacket (g : Fin 32) (j : Fin 8) (s : State) : Result := .next (triggerPacket g j s)
def execEthCtlWrite (c : Fin 8) (v : Word) (s : State) : Result := .next (ethCtlWrite c v s)
def execEthFrameReceive (c : Fin 8) (p : Fin 4) (check : FrameCheck) (udp : Option (BitVec 16 × Word)) (image : Bool)
    (bytes : List Byte) (s : State) : Result := .next (ethReceive c p check udp image bytes s)
def execGvspPacket (c : Fin 8) (j : Fin 4) (id : Word) (resend : Bool) (body : GvspBody) (s : State) : Result :=
  .next (gvspPacket c j id.toNat resend body s)
def execXtxSend (c : Fin 8) (s : State) : Result := .next (xtxSend c s)
def execReportDatagram (c : Fin 8) (s : State) : Result := .next (reportDatagram c s)
def execDatagramHoldExpiry (c : Fin 8) (s : State) : Result := .next (datagramHold c s)
def execEthLinkChange (c : Fin 8) (p : Fin 4) (up : Bool) (s : State) : Result := .next (ethLinkChange c p up s)
def execPhcStep (c : Fin 8) (v : Word) (s : State) : Result := .next (phcStep c v s)
def execPhcLoad (c : Fin 8) (s : State) : Result := .next (phcLoad c s)
def execPhcRead (c : Fin 8) (s : State) : Result := .next (phcRead c s).2

end Sys2Proof.Machine
end

