-- ==== Sys2Proof/Machine/Settings.lean ====
section
/-! DEFINITION. The settings store (R393–R399), the field repair map and spare fitting (R210–R212), the key
slots and the anti-rollback counter (R412). -/

namespace Sys2Proof.Machine

open Sys2Proof

abbrev smcPage : Nat := 0x00002000
abbrev nvmPage : Nat := 0x00003000
abbrev cfgPage : Nat := 0x00004000
abbrev integrityPage : Nat := 0x00005000

/-- A refused write of R391, R390 or R423 is counted. -/
def smcRefused (s : State) : State := (s.count F.CMD_REFUSED_VALUE 1).irq smcPage 1

/-! ### Pages and copies (R393, R397–R399) -/

def nvmCopy (s : State) (page copy : Nat) : NvmCopy := s.host.nvm.get (page * 2 + copy) {}
def setNvmCopy (page copy : Nat) (x : NvmCopy) (s : State) : State :=
  { s with host := { s.host with nvm := s.host.nvm.set (page * 2 + copy) x {} } }

/-- Generation `g` is newer than `h` (R393). -/
def genNewer (g h : Nat) : Bool :=
  let d := sub32 g h
  decide (1 ≤ d) && decide (d ≤ 2 ^ 31 - 1)

/-- The current copy of a page: the valid one, and of two valid ones the newer; none when the pair is lost. -/
def currentCopy (s : State) (page : Nat) : Option Nat :=
  let a := nvmCopy s page 0
  let b := nvmCopy s page 1
  match a.valid, b.valid with
  | true, true => some (if genNewer b.gen a.gen then 1 else 0)
  | true, false => some 0
  | false, true => some 1
  | false, false => none

/-- A word of a page as the factory wrote it (R394, R412). -/
def factoryPageWord (page i : Nat) : Word :=
  if page < 4 then Config.factoryWord page i
  else if page < 6 && decide (i < 12) then Config.factoryKey (page - 4) i
  else 0

/-- A word of a page: its current copy's; zero in a lost pair. A copy never written holds what the factory
wrote. -/
def pageWord (s : State) (page i : Nat) : Word :=
  match currentCopy s page with
  | none => 0
  | some c =>
    let x := nvmCopy s page c
    if x.gen == 0 && x.writes == 0 then factoryPageWord page i else x.data.get i 0

def pageByte (s : State) (page i : Nat) : Byte := byteOf (pageWord s page (i / 4)) (i % 4)

/-- A page as a list of its 256 words. -/
def pageWords (s : State) (page : Nat) : List Word := (List.range 256).map (pageWord s page)

/-- R393: a pair met with no valid copy is recorded. -/
def noteLost (page : Nat) (s : State) : State :=
  match currentCopy s page with
  | none => (s.setIrq F.NVM_STAT_LOST nvmPage 0).put F.NVM_LOSTPG_PAGE page
  | some _ => s

/-- 256 words as sparse data. -/
def pageData (l : List Word) : SMap Word :=
  ((List.range 256).zip l).foldl (fun acc e => acc.set e.1 e.2 0) []

/-- The copy that a write goes to: the older of the pair. -/
def writeTarget (s : State) (page : Nat) : Nat := match currentCopy s page with
  | some c => 1 - c
  | none => 0

/-- R397, R399: a page is written to the older copy of its pair with the next generation; `crcOk`: the copy
reads back with a matching CRC, so it becomes current. -/
def pageWrite (page : Nat) (l : List Word) (crcOk : Bool) (s : State) : State :=
  let c := writeTarget s page
  let g := match currentCopy s page with
    | some k => (nvmCopy s page k).gen
    | none => (nvmCopy s page c).gen
  let old := nvmCopy s page c
  let s1 := s.when (decide (100000 ≤ old.writes)) fun t => t.setIrq F.NVM_STAT_WEAR nvmPage 1
  let wasLost := (currentCopy s page).isNone
  let s2 := setNvmCopy page c ⟨(g + 1) % 2 ^ 32, old.writes + 1, pageData l, crcOk⟩ s1
  s2.when (wasLost && crcOk && s.get F.NVM_LOSTPG_PAGE == page) fun t => t.put F.NVM_STAT_LOST 0

/-- A page with one byte replaced. -/
def withByte (l : List Word) (i : Nat) (b : Byte) : List Word :=
  l.set (i / 4) (setByte (l.getD (i / 4) 0) (i % 4) b)

def withBytes (l : List Word) (i : Nat) (bs : List Byte) : List Word :=
  ((List.range bs.length).zip bs).foldl (fun acc e => withByte acc (i + e.1) e.2) l

/-! ### Key slots and the anti-rollback counter (R412, R414, R415) -/

/-- The page of a kind of key: 0 ECDSA, 1 LMS. -/
def keyPage (kind : Nat) : Nat := 4 + kind
def keyHash (s : State) (kind slot : Nat) : List Byte := (List.range 48).map fun i => pageByte s (keyPage kind) (49 * slot + i)
def keyRevoked (s : State) (kind slot : Nat) : Bool := pageByte s (keyPage kind) (49 * slot + 48) == 0xA5

/-- KEY_STAT mirrors the slot states; a slot whose hash is all zeros is empty. -/
def keyFilled (s : State) (kind slot : Nat) : Bool :=
  (s.get (if kind == 0 then F.KEY_STAT_EFILLED else F.KEY_STAT_LFILLED)).testBit slot

def setKeyBit (f : Fld) (slot : Nat) (s : State) : State := s.put f (s.get f ||| 2 ^ slot)

/-- KEY_STAT and ROLLBACK are loaded from the settings store (R425). Slot 0 of each kind leaves the factory
filled. -/
def loadKeyStat (s : State) : State :=
  let one := fun (kind : Nat) (fill rev : Fld) (t : State) => t.each 4 fun i u =>
    let w := nvmCopy s (keyPage kind)
    let factory := (w 0).writes == 0 && (w 1).writes == 0
    let filled := if factory then i == 0 else (keyHash s kind i).any (· != 0)
    (u.when filled (setKeyBit fill i)).when (keyRevoked s kind i) (setKeyBit rev i)
  let s1 := one 0 F.KEY_STAT_EFILLED F.KEY_STAT_EREVOKED (s.put F.KEY_STAT_EFILLED 0)
  let s2 := one 1 F.KEY_STAT_LFILLED F.KEY_STAT_LREVOKED (s1.put F.KEY_STAT_LFILLED 0)
  (s2.put F.ROLLBACK_LO_VALUE (pageWord s 6 0).toNat).put F.ROLLBACK_HI_VALUE (pageWord s 6 1).toNat

/-- R414: writes a key hash into an empty slot. -/
def keyWrite (kind slot : Nat) (hash : List Byte) (crcOk : Bool) (s : State) : State :=
  let s1 := pageWrite (keyPage kind) (withBytes (pageWords s (keyPage kind)) (49 * slot) hash) crcOk s
  s1.when crcOk (setKeyBit (if kind == 0 then F.KEY_STAT_EFILLED else F.KEY_STAT_LFILLED) slot)

/-! ### The field repair map and spares (R210–R212) -/

/-- Massif, bank and physical row of an entry, as one number. -/
def entryRow (e : Word) : Nat := (bitsOf e.toNat 24 6 * 16 + bitsOf e.toNat 16 4) * 256 + bitsOf e.toNat 0 8
def entryValid (e : Word) : Bool := e.getLsbD 31

/-- Physical row of a word of a massif's shelf (R210). -/
def rowOf (m w : Nat) : Nat := (m * 16 + w % 16) * 256 + w / 1024

/-- R211: the map holds an entry for that row that waits for its fitting. -/
def inMap (s : State) (row : Nat) : Bool := s.mem.unfitted.contains row

/-- An entry in the format of R211, with its reserved bits zero. -/
def entryOkFormat (e : Word) : Bool :=
  entryValid e && bitsOf e.toNat 8 8 == 0 && bitsOf e.toNat 22 2 == 0 && !e.getLsbD 30 && bitsOf e.toNat 20 2 != 3

/-- R211, R212: a commit adds an entry to the map. Answers its RESULT. -/
def repairCommit (e : Word) (crcOk : Bool) (s : State) : Nat × State :=
  if inMap s (entryRow e) then (0, s)
  else match (List.range 256).find? fun i => !entryValid (pageWord s 8 i) with
    | none => (5, (s.put F.REPAIR_STAT_MAP_FULL 1).irq integrityPage 1)
    | some i =>
      let s1 := pageWrite 8 ((pageWords s 8).set i e) crcOk s
      if crcOk then
        let s2 := (s1.put (F.REPAIR_MAP_ENTRY i) e.toNat).put F.REPAIR_STAT_USED (s.get F.REPAIR_STAT_USED + 1)
        let s3 := { s2 with mem := { s2.mem with unfitted := s2.mem.unfitted ++ [entryRow e] } }
        (0, ((s3.put F.REPAIR_STAT_PENDING 1).put F.REPAIR_LAST_ENTRY e.toNat).irq integrityPage 0)
      else (4, s1)

/-- SPARE_FREE of a bank. -/
def spareFld (m bank : Nat) : Fld := if bank < 8 then F.SPARE_FREE_LO_BITS m else F.SPARE_FREE_HI_BITS m
def spareFree (s : State) (m bank : Nat) : Nat := bitsOf (s.get (spareFld m bank)) (4 * (bank % 8)) 4

/-- R210: a physical row moves to the next free spare of its bank. -/
def fitRow (row : Nat) (s : State) : State :=
  let m := row / 4096
  let bank := row / 256 % 16
  if spareFree s m bank == 0 then s
  else
    let n := s.mem.fitted.get row 0
    let s1 := { s with mem := { s.mem with fitted := s.mem.fitted.set row (n + 1) 0 } }
    s1.put (spareFld m bank) (s.get (spareFld m bank) - 16 ^ (bank % 8))

/-- R212: an entry of the map fits its row; with no spare left in the bank it is skipped. -/
def fitEntry (e : Word) (s : State) : State :=
  if spareFree s (bitsOf e.toNat 24 6) (bitsOf e.toNat 16 4) == 0 then
    (s.put F.REPAIR_STAT_SKIPPED (min 255 (s.get F.REPAIR_STAT_SKIPPED + 1))).setIrq F.REPAIR_STAT_NO_SPARE integrityPage 2
  else fitRow (entryRow e) s

/-- R210: the SMC fits the spares of the factory fuse map, then those that the valid entries of the repair map name, in
entry order. -/
def fitSpares (s : State) : State :=
  let s0 := { s with mem := { s.mem with fitted := [], rowCount := [], unfitted := [], repairDue := [] } }
  let s1 := Config.factoryRows.foldl (fun t row => fitRow row t) s0
  s1.each 256 fun i t =>
    let e := pageWord s 8 i
    (t.put (F.REPAIR_MAP_ENTRY i) e.toNat).when (entryValid e) fun u =>
      fitEntry e (u.put F.REPAIR_STAT_USED (u.get F.REPAIR_STAT_USED + 1))

/-- The entry of R211 for a physical row. -/
def repairEntry (row cause : Nat) : Word :=
  BitVec.ofNat 32 (row % 256 + 2 ^ 16 * (row / 256 % 16) + 2 ^ 20 * cause + 2 ^ 24 * (row / 4096) + 2 ^ 31)

/-! ### The commands that write the settings store (R397, R400, R415) -/

/-- R397: STORE writes the staging buffer that the SMC took to page ARG0. -/
def storeEffect (r : SmcRun) (crcOk : Bool) (s : State) : Nat × State :=
  let page := (r.args.getD 0 0).toNat
  if 4096 ≤ page then (2, s)
  else if page < 16 then (3, s)
  else
    let s1 := pageWrite page ((List.range 256).map fun i => r.stage.get i 0) crcOk s
    if crcOk then (0, s1.put F.NVM_STORECNT_VALUE (s.get F.NVM_STORECNT_VALUE + 1)) else (4, s1)

/-- R211: REPAIR_COMMIT of the host adds the entry in ARG0; an entry out of its format is a bad argument. -/
def commitEffect (r : SmcRun) (crcOk : Bool) (s : State) : Nat × State :=
  let e := if r.self then r.entry else r.args.getD 0 0
  if entryOkFormat e then repairCommit e crcOk s else (2, s)

/-- R415: KEY_REVOKE sets the revoke byte of slot ARG0[3:2] of kind ARG0[0]. -/
def revokeEffect (r : SmcRun) (crcOk : Bool) (s : State) : Nat × State :=
  let a := (r.args.getD 0 0).toNat
  let kind := bitsOf a 0 1
  let slot := bitsOf a 2 2
  let live := fun i => keyFilled s kind i && !keyRevoked s kind i
  if !live slot || (List.range 4).all (fun i => i == slot || !live i) then (2, s)
  else
    let s1 := pageWrite (keyPage kind) (withByte (pageWords s (keyPage kind)) (49 * slot + 48) 0xA5) crcOk s
    if crcOk then (0, setKeyBit (if kind == 0 then F.KEY_STAT_EREVOKED else F.KEY_STAT_LREVOKED) slot s1) else (4, s1)

/-- R415: ROLLBACK_ADVANCE sets the counter to {ARG1, ARG0}. -/
def rollbackEffect (r : SmcRun) (crcOk : Bool) (s : State) : Nat × State :=
  let lo := r.args.getD 0 0
  let hi := r.args.getD 1 0
  let new := lo.toNat + 2 ^ 32 * hi.toNat
  if new < s.get2 F.ROLLBACK_LO_VALUE F.ROLLBACK_HI_VALUE || s.get2 F.CFG_VERSION_LO_VALUE F.CFG_VERSION_HI_VALUE < new then (2, s)
  else
    let s1 := pageWrite 6 (((pageWords s 6).set 0 lo).set 1 hi) crcOk s
    if crcOk then (0, s1.put2 F.ROLLBACK_LO_VALUE F.ROLLBACK_HI_VALUE new) else (4, s1)

/-- R400: the argument that ZEROISE asks for. -/
abbrev zeroiseKey : Word := 0x5A3C0F1E

/-- R400, step 1: both copies of the first `n` pages from page 16 up hold zeros. -/
def zeroisePages (n : Nat) (s : State) : State :=
  s.each n fun i t => t.each 2 fun c u =>
    let x := nvmCopy u (16 + i) c
    setNvmCopy (16 + i) c { x with writes := x.writes + 1, data := [], valid := true } u

/-- What a power-on or cold reset leaves of the command it abandons (R398, R400): `n` pages were written in full,
and the page that was being written is invalid. -/
def abandonNvm (n : Nat) (s : State) : State :=
  match s.host.smc with
  | none => s
  | some r =>
    let ok := decide (0 < n)
    match r.code with
    | 0x02 => (storeEffect r ok s).2
    | 0x03 => (commitEffect r ok s).2
    | 0x1C => (revokeEffect r ok s).2
    | 0x1D => (rollbackEffect r ok s).2
    | 0x3F => s.when (r.args.getD 0 0 == zeroiseKey) (zeroisePages (min n 4080))
    | _ => s

end Sys2Proof.Machine
end

