-- ==== Sys2Proof/Machine/Release.lean ====
section
/-! DEFINITION. The load hold and the release that ends it (R416–R421), RELEASE_AT (R420), the load window
(R423), and writing the L2 back (R309, R354, R430). -/

namespace Sys2Proof.Machine

open Sys2Proof

/-! ### The L2's modified lines (R309, R430, R440) -/

/-- R217: the router of the L2. -/
def l2Router : Nat := 84

def setL2 (line : Nat) (l : Option L2Line) (s : State) : State :=
  { s with cores := { s.cores with l2 := s.cores.l2.set line l none } }

/-- Replaces group `i` of a held line; `dirty` marks it modified. -/
def l2SetGroup (line i : Nat) (v : BitVec 72) (dirty : Bool) (s : State) : State :=
  match s.cores.l2.get line none with
  | some l => setL2 line (some { groups := l.groups.set i v, dirty := l.dirty || dirty }) s
  | none => s

/-- R201, R332: a read of group `i` of a held line. -/
def l2Group (line i : Nat) (l : L2Line) (s : State) : Nat × Bool × State :=
  let v := l.groups.getD i 0
  let d := groupData v
  let a := 64 * line + 8 * i
  match classify code72 d (groupCheck v) with
  | .clean => (d, false, s)
  | .overall => (d, false, (l2SetGroup line i (hbmStored d false) false s).count F.L2_CECNT_VALUE 1)
  | .single p =>
    let d1 := correctData code72 d p
    (d1, false, (l2SetGroup line i (hbmStored d1 false) false s).count F.L2_CECNT_VALUE 1)
  | .poison => (d, true, (s.count F.L2_POISONRD_VALUE 1).put (F.ERR_STAT_POISON l2Page) 1)
  | .bad =>
    (d, true, ((l2SetGroup line i (hbmStored d true) false s).errUncorr l2Page (a % 2 ^ 32) (a / 2 ^ 32)).irq l2Page 0)

/-- Groups `i` and up of a held line as reads give them. -/
def l2LineRead (line : Nat) (l : L2Line) : Nat → Nat → State → List (Nat × Bool) × State
  | _, 0, s => ([], s)
  | i, n + 1, s =>
    let (d, p, s1) := l2Group line i l s
    let (rest, s2) := l2LineRead line l (i + 1) n s1
    ((d, p) :: rest, s2)

/-- A request of the L2 for HBM line `line`. -/
def l2Packet (s : State) (typ line : Nat) : Packet :=
  let c := (hbmMap s (64 * line)).1
  { dst := hbmRouter c, dport := hbmPort c, src := l2Router, sport := 2, vn := 1, typ := typ, addr := 64 * line, size := 63 }

/-- R232: write-backs that wait are issued, as far as tags allow. -/
def l2Pump : Nat → State → State
  | 0, s => s
  | n + 1, s => match s.cores.l2Post with
    | [] => s
    | (line, p) :: rest =>
      if (freeTag s l2Router).isNone then s
      else l2Pump n (niRequest (.l2Back line) p { s with cores := { s.cores with l2Post := rest } })

/-- R193, R198, R309: a modified line is read, and its write to HBM leaves, poison as poison; the L2 keeps the line, clean. -/
def l2Flush (line : Nat) (s : State) : State :=
  match s.cores.l2.get line none with
  | some l =>
    if !l.dirty then s
    else
      let (gs, s1) := l2LineRead line l 0 8 s
      let p := { l2Packet s 1 line with
        data := gs.flatMap fun g => (leBytes 8 g.1).map fun b => (b, true)
        pmask := ((List.range 8).zip gs).foldl (fun acc (i, g) => if g.2 then acc ||| 3 * 4 ^ i else acc) 0 }
      let s2 := match s1.cores.l2.get line none with
        | some l1 => setL2 line (some { l1 with dirty := false }) s1
        | none => s1
      l2Pump 64 { s2 with cores := { s2.cores with l2Post := s2.cores.l2Post ++ [(line, p)] } }
  | none => s

/-- Every modified line is on its way to HBM. -/
def l2WriteBack (s : State) : State := s.cores.l2.foldl (fun t e => l2Flush e.1 t) s

/-- A write-back of line `line` has not been acknowledged. -/
def l2Writes (s : State) (line : Nat) : Bool :=
  s.cores.l2Post.any (fun e => e.1 == line) || (s.outReqs l2Router).any fun r => !r.expired && r.owner == .l2Back line

/-- Some write-back has not been acknowledged. -/
def l2Busy (s : State) : Bool :=
  !s.cores.l2Post.isEmpty || (s.outReqs l2Router).any fun r => !r.expired && match r.owner with
    | .l2Back _ => true
    | _ => false

/-- R309: the L2 asks HBM for a line, once; write-backs that wait for a tag go first. -/
def l2Ask (line : Nat) (s : State) : State :=
  if !s.cores.l2Post.isEmpty || (s.outReqs l2Router).any (fun r => !r.expired && r.owner == .l2 line) then s
  else niRequest (.l2 line) (l2Packet s 0 line) s

/-- The groups of a line from the bytes of a response, each with the P of its words. -/
def groupsOf (bytes : List (Byte × Bool)) : List (BitVec 72) :=
  (List.range 8).map fun i =>
    let b := (bytes.drop (8 * i)).take 8
    hbmStored (leNat (b.map (·.1))) (b.any (·.2))

/-- The L2 takes in the line that it asked for; one that does not come is taken in as poison (R222). -/
def l2Filled (line : Nat) (a : VnReply) (s : State) : State :=
  s.when (s.cores.l2.get line none).isNone fun t =>
    setL2 line (some ⟨if a.status == 0 then groupsOf a.bytes else List.replicate 8 (hbmStored 0 true), false⟩) t

/-- The L2 and the L1 caches hold nothing; lines that the L2 has asked for are not taken in. -/
def cachesDrop (s : State) : State :=
  let s1 := s.setOutReqs l2Router ((s.outReqs l2Router).map fun r => match r.owner with
    | .l2 _ => { r with owner := .endpoint 2 }
    | _ => r)
  { s1 with cores := { s1.cores with l2 := [], l1i := [], l1d := [] } }

/-! ### Massifs under a load (R124, R125) -/

/-- R124, R125: SEQ_STAT.STEP := INIT_STEP, the active slot := INIT_SLOT, and the tiles start afresh; a slot that
is not valid leaves the sequencer halted. `run`: the sequencer runs. -/
def massifBegin (m : Nat) (run : Bool) (s : State) : State :=
  let slot := s.get (F.SEQ_CTL_INIT_SLOT m)
  let s1 := (s.put (F.SEQ_STAT_STEP m) (s.get (F.SEQ_CTL_INIT_STEP m))).put (F.SEQ_STAT_ACTIVE_SLOT m) slot
  let s2 := conflictRefresh m (bmRefresh m ((s1.put (F.SEQ_STAT_SWITCHING m) 0).put (F.SEQ_STAT_PENDING m) 0))
  let s3 := s2.setMassif m { s2.massif m with switch := none, heldBeat := none, overrun := false, midPacket := [] }
  if !(s.get (F.SLOT_VALID_BITS m)).testBit slot then
    (s3.put (F.SEQ_STAT_RUNNING m) 0).put (F.SEQ_STAT_HALT_CAUSE m) 3
  else if run then seqStart m (s3.put (F.SEQ_CTL_RUN m) 1)
  else (s3.put (F.SEQ_STAT_RUNNING m) 0).put (F.SEQ_STAT_HALT_CAUSE m) 0

/-- The sequencer has neither a switch nor a beat in hand. -/
def massifIdle (m : Nat) (s : State) : State :=
  s.setMassif m { s.massif m with
    switch := none, heldBeat := none, overrun := false, midPacket := [], wakeBeat := none, wakeSlots := [], callerCopy := false }

/-- A fabric reload wakes a gated massif (R434); its gating request, if any, ends. The wake and the hold are one step, so
T_up of the wake is a free value. -/
def reloadWake (m : Nat) (s : State) : State :=
  let st := s.get (F.PWR_STAT_STATE m)
  let s1 := (s.put (F.PWR_STAT_STATE m) 0).put (F.PWR_CTL_GATE m) 0
  if 3 ≤ st then
    let s2 := clearBm m s1
    let s3 := (s2.setInbox m (s2.wakeBuf m ++ s2.inbox m)).setWakeBuf m []
    let s4 := { s3 with power := { s3.power with wakeAt := s3.power.wakeAt.set m none none } }
    let (fr, s5) := s4.nextFree
    let s6 := s5.put (F.PWR_LASTWAKE_NS m) (Config.freeNat fr % 2 ^ 20)
    (s6.put (F.PWR_WAKECNT_VALUE m) (s.get (F.PWR_WAKECNT_VALUE m) + 1)).irq (pwrPage m) 1
  else s1

/-- R124, steps 1 to 3, R435 column F: massif `m` is held and loses its tile state, queues, col queues, slots and
Caller registers, and every field that F or K clears. -/
def reloadHold (m : Nat) (s : State) : State :=
  let s1 := massifIdle m (dropPosted m (reloadWake m s))
  let s2 := clearSlots m (clearTiles m (clearQueues m (withholdCols m (callerDown m s1))))
  let s3 := resetFields (fun f => inMassif m f && (f.clr.testBit 3 || f.clr.testBit 5)) s2
  let s4 := ({ s3 with
    fab := { s3.fab with loaders := s3.fab.loaders.set m none none }
    mem := { s3.mem with bmAcc := s3.mem.bmAcc.set m none none } }).setShelf m { s3.shelf m with ports := [] }
  beatsSettle m (s4.setMassif m { s4.massif m with held := true, resetHold := false })

/-! ### Entering the load hold (R416, R417) -/

/-- R417, R435 column F (device): the device enters the load hold for a whole-device load. -/
def enterLoadHold (s : State) : State :=
  let s1 := s.put F.CFG_STAT_STATE 1
  let s2 := s1.each 64 reloadHold
  let s3 := resetFields (fun f => f.clr.testBit 3) s2
  -- Lead Callers are held in reset, and the L2 is written back and invalidated.
  let s4 := s3.each 4 fun i t => (((dropPosted (64 + i) t).setCore (64 + i) {}).put (fRunning (64 + i)) 0).put (fHalted (64 + i)) 0
  let s5 := cachesDrop (l2WriteBack s4)
  -- The pair block is held as with EN = 0; DMA channels are stopped.
  setPairState pOff (pairLinkDown { s5 with pair := {} })

/-! ### Release (R418–R421) -/

def setLoads (f : Loads → Loads) (s : State) : State := { s with host := { s.host with loads := f s.host.loads } }

/-- R419: massif `m` is released: its sequencer begins, and its Caller if its record asked for it. -/
def releaseMassif (x : Staged) (m : Nat) (s : State) : State :=
  let s1 := massifBegin m (x.runs.contains m) (returnCredits m (s.setMassif m { s.massif m with held := false }))
  s1.when (x.callers.contains m) (callerRun m true)

/-- R419: the release of a whole-device load. -/
def releaseDevice (x : Staged) (s : State) : State :=
  let s1 := s.put F.CFG_STAT_STATE 3
  let s2 := s1.each 64 (releaseMassif x)
  let s3 := x.starts.foldl (fun t i => leadStart i t) s2
  let s4 := s3.each 12 fun i t => t.put (F.CFG_DIGEST_VALUE i) (x.info.digest.getD i 0).toNat
  let s5 := (s4.put2 F.CFG_VERSION_LO_VALUE F.CFG_VERSION_HI_VALUE x.info.version.toNat).put F.CFG_LOADCNT_VALUE
    (s.get F.CFG_LOADCNT_VALUE + 1)
  let s6 := (s5.put F.KEY_STAT_ESLOT x.info.eslot).put F.KEY_STAT_LSLOT x.info.lslot
  let s7 := setLoads (fun l => { l with starts := x.starts }) s6
  s7.when (s7.flag F.PAIR_CFG_EN) enterHello

/-- R421, R424: the release of a massif reload: its entry joins the reload log. -/
def releaseReload (x : Staged) (m : Nat) (s : State) : State :=
  let s1 := (releaseMassif x m s).put F.CFG_STAT_MRARMED 0
  setLoads (fun l => { l with log := ((m, s.tb.truncate 32, x.info.digest) :: l.log).take 8 })
    (s1.put F.CFG_RELOADCNT_VALUE (s.get F.CFG_RELOADCNT_VALUE + 1))

/-- R418–R421: the staged load is released. -/
def releaseNow (s : State) : State :=
  match s.host.loads.staged with
  | none => s
  | some x =>
    let s1 := setLoads (fun l => { l with staged := none }) s
    (match x.massif with
      | none => releaseDevice x s1
      | some m => releaseReload x m s1).irq cfgPage 1

/-- A load is ARMED. -/
def armed (s : State) : Bool := s.get F.CFG_STAT_STATE == 2 || s.flag F.CFG_STAT_MRARMED

/-- R418: the position of the named encoder channel has reached CFG_REL_POS. -/
def relReached (s : State) : Bool :=
  reached (s.encPos (s.get F.CFG_REL_ENC)) (BitVec.ofNat 48 (s.get2 F.CFG_REL_POS_LO_VALUE F.CFG_REL_POS_HI_VALUE))

/-- R418: a release whose position has already been passed. -/
def releaseLate (s : State) : State := releaseNow (s.setIrq F.CFG_STAT_REL_LATE cfgPage 2)

/-- R418: a load completes without fault: it is released or becomes ARMED. -/
def loadComplete (s : State) : State :=
  if !s.flag F.CFG_REL_MODE then releaseNow s
  else if relReached s then releaseLate s
  else match s.host.loads.staged.bind (·.massif) with
    | none => s.put F.CFG_STAT_STATE 2
    | some _ => s.put F.CFG_STAT_MRARMED 1

/-- R418: the release position of an ARMED load is reached. -/
def releaseAtPos (s : State) : State := s.when (armed s && relReached s) releaseNow

/-- R418: a write of CFG_REL. -/
def cfgRelWrite (v : Word) (s : State) : State :=
  let s1 := s.loadAll v [F.CFG_REL_MODE, F.CFG_REL_ENC, F.CFG_REL_GROUP]
  s1.when (armed s && !s1.flag F.CFG_REL_MODE) releaseNow

/-! ### RELEASE_AT (R420) -/

/-- The ARG of a RELEASE_AT frame: GROUP in byte 0, TPC in byte 1, POS in bytes 2–7. -/
def releaseArg (group tpc : Nat) (pos : Pos48) : Dword := BitVec.ofNat 64 (group + 2 ^ 8 * tpc + 2 ^ 16 * pos.toNat)

/-- R420: a write of CFG_RELSEND.GO floods RELEASE_AT. -/
def releaseAtSend (s : State) : State :=
  let arg := releaseArg (s.get F.CFG_REL_GROUP) (s.get (F.TMP_FOLLOW_TPC (s.get F.CFG_REL_ENC)))
    (BitVec.ofNat 48 (s.get2 F.CFG_REL_POS_LO_VALUE F.CFG_REL_POS_HI_VALUE))
  s.when (mayFlood s) (flood (.ctrl (s.get F.TMP_ID_ID) 0x10 arg) none)

/-- R420: a device that follows the named TPC takes the release position; a position already passed releases an
ARMED load at once. -/
def releaseAtAct (group tpc : Nat) (pos : Pos48) (s : State) : State :=
  let enc := s.get F.CFG_REL_ENC
  if s.flag F.CFG_REL_MODE && s.get F.CFG_REL_GROUP == group && s.follows enc && s.get (F.TMP_FOLLOW_TPC enc) == tpc then
    let s1 := s.put2 F.CFG_REL_POS_LO_VALUE F.CFG_REL_POS_HI_VALUE pos.toNat
    s1.when (armed s1 && relReached s1) releaseLate
  else s

/-- R259, R420: a RELEASE_AT frame received on port `p`. -/
def releaseAtRecv (p origin group tpc : Nat) (pos : Pos48) (s : State) : State :=
  recvFlooded p origin (.ctrl origin 0x10 (releaseArg group tpc pos)) (releaseAtAct group tpc pos) s

/-! ### The load window (R423) -/

/-- CFG_WIN: an HBM address. -/
def cfgWin (s : State) : Nat := 2 ^ 11 * s.get F.CFG_WIN_LO_ADDR + 2 ^ 32 * s.get F.CFG_WIN_HI_ADDR

/-- R217: the router of the SMC. -/
def smcRouter : Nat := 91

/-- R232, R423: words written to the load window are issued while tags are free. -/
def windowPump : Nat → State → State
  | 0, s => s
  | n + 1, s =>
    match s.host.winWait with
    | [] => s
    | p :: rest =>
      if (freeTag s smcRouter).isNone then s
      else windowPump n (niRequest (.endpoint 2) p { s with host := { s.host with winWait := rest } })

/-- R423: a word written to the load window goes to HBM, or is dropped and counted. -/
def loadWindow (j : Nat) (v : Word) (s : State) : State :=
  let st := s.get F.CFG_STAT_STATE
  if !s.flag F.HBM_CTL_EN || st == 1 || st == 2 || s.flag F.CMD_STAT_BUSY then smcRefused s
  else
    let a := (cfgWin s + 4 * j) % 2 ^ 35
    let c := (hbmMap s a).1
    let p : Packet := { dst := hbmRouter c, dport := hbmPort c, src := smcRouter, sport := 2, vn := 1, typ := 1
                        addr := a, size := 3, data := (List.range 4).map fun i => (byteOf v i, true) }
    windowPump 64 { s with host := { s.host with winWait := s.host.winWait ++ [p] } }

/-! ### The meanings -/

def execReleaseAt (p : Fin 4) (origin : BitVec 14) (group : Byte) (tpc : Fin 16) (pos : Pos48) (s : State) : Result :=
  .next (releaseAtRecv p origin.toNat group.toNat tpc pos s)
def execReleaseAtSend (s : State) : Result := .next (releaseAtSend s)
def execRelease (s : State) : Result := .next (releaseAtPos s)
def execCfgRelWrite (v : Word) (s : State) : Result := .next (cfgRelWrite v s)
def execLoadWindowWrite (j : Fin 512) (v : Word) (s : State) : Result := .next (loadWindow j v s)

end Sys2Proof.Machine
end

