-- ==== Sys2Proof/Machine/Resets.lean ====
section
/-! DEFINITION. Resets (R426–R435), Rest (R440, R441), the delivery of beats to the massifs (R12, R40), and what
the loss of a supply does (R445, R472, R473, R486). -/

namespace Sys2Proof.Machine

open Sys2Proof

abbrev resetPage : Nat := 0x00001000

def setPower (f : Power → Power) (s : State) : State := { s with power := f s.power }

/-! ### Power-on and cold reset (R426–R428, R435) -/

/-- The VAUX records of R427 other than RST_CAUSE. -/
def vauxFields : List Fld := [F.BO_CNT_VALUE, F.BO_MIN_MV, F.BO_DUR_US]

/-- R426–R428, R435 columns P and C: what no reset of these keeps returns to its state at reset; the settings
store, the VAUX records and what has left the device are kept. The command that the SMC runs is abandoned; how
much of its writing was done is a free value (R398). -/
def coldReset (cause : Nat) (s : State) : State :=
  let (fr, s0) := s.nextFree
  let s1 := abandonNvm (Config.freeNat fr) s0
  { State.reset with
    regs := (resetFields (fun f => f.clr.testBit 0) s1).regs.put F.RST_CAUSE_LAST cause
    host := { nvm := s1.host.nvm }
    power := { thermTrip := s1.power.thermTrip, banksOff := s1.power.banksOff }
    out := s1.out
    freeCtr := s1.freeCtr
    pending := s1.pending }

/-- R427: a supply rises. VAUX rising returns the VAUX records to their reset values too. THERMTRIP_N stays low
while the die is `hot` (R486). -/
def powerOn (vaux hot : Bool) (s : State) : State :=
  if s.power.off && !vaux then s
  else
    let s1 := coldReset (if vaux then 1 else 2) s
    let s2 := s1.when vaux fun t => vauxFields.foldl (fun u f => u.put f f.rst) t
    setPower (fun p => { p with thermTrip := p.thermTrip && hot }) s2

/-- R428: a low pulse on RESET_N of `ns`; between 100 ns and 1 µs it is ignored or taken in full. -/
def resetN (ns : Nat) (taken : Bool) (s : State) : State :=
  s.when (decide (1000 ≤ ns) || (decide (100 ≤ ns) && taken)) (coldReset 4)

/-- R445: two consecutive samples below BO_RESET. They lie below BO_WARN too, so they start a warning if none lasts,
and BO_MIN takes them (R442, R443); the VAUX records keep both through the reset (R427). -/
def brownoutReset (a b : Nat) (s : State) : State :=
  if a < s.get F.BO_RESET_MV && b < s.get F.BO_RESET_MV then
    let low := if s.flag F.BO_STAT_WARN then min a b else b
    let s1 := warningStart a b s
    coldReset 3 (s1.put F.BO_MIN_MV (min (s1.get F.BO_MIN_MV) low))
  else s

/-- R436, R472: the supplies fall and the device is Off. -/
def powerDown (s : State) : State := setPower (fun p => { p with off := true, thermTrip := false }) (powerOn true false s)

/-- R486: THERMTRIP_N falls. -/
def thermTrip (s : State) : State := setPower (fun p => { p with thermTrip := true }) s

/-! ### Warm reset (R429–R431) -/

/-- R430, phase 1: every sequencer halts, every tile is held, and the cores stop. -/
def warmStart (s : State) : State :=
  let s1 := (s.put F.RST_STAT_WARM_BUSY 1).put F.RST_STAT_DEFERRED 0
  let s2 := setPower (fun p => { p with warmPhase := 1, warmAt := s.cycle, warmAfterRest := false }) s1
  s2.each 64 fun m t => ((massifIdle m t).put (F.SEQ_STAT_RUNNING m) 0).put (F.SEQ_STAT_SWITCHING m) 0

/-- R430: a packet of a source that has stopped. -/
def stoppedSource (s : State) (p : Packet) : Bool := warmHolds s p

/-- R15, R430: packets of stopped sources that are still in the network: in a router, at an NI whose endpoint has not
taken them, in a wake buffer, or at an HBM channel that has not served them. -/
def warmLeft (s : State) : Bool :=
  (s.ridge.buf.any fun e => e.2.any fun f => stoppedSource s f.pkt)
    || (s.ridge.inbox.any fun e => e.2.any (stoppedSource s))
    || (s.ridge.wake.any fun e => e.2.any (stoppedSource s))
    || s.mem.channels.any fun e => (e.2.waiting.any fun w => w.2.any (stoppedSource s))
      || e.2.admitted.any fun r => stoppedSource s r.2

/-- R430: the HBM requests of the masters that go on are held at their channels until the warm reset ends; those of
stopped sources are gone. -/
def warmChannels (s : State) : State :=
  let keep := fun (p : Packet) => !stoppedSource s p
  let sift := fun (h : HbmChannel) => ({
    waiting := (h.waiting.map fun e => (e.1, e.2.filter keep)).filter fun e => !e.2.isEmpty
    admitted := h.admitted.filter fun r => keep r.2 } : HbmChannel)
  let l := s.mem.channels.map fun e => (e.1, sift e.2)
  let s1 := { s with mem := { s.mem with channels := l.filter fun e => e.2 != ({} : HbmChannel) } }
  s1.each 32 hbmRefresh

/-- R430: no such packet remains, or the drain limit has passed: phase 1 ends. -/
def warmDrainDone (s : State) : State :=
  if s.power.warmPhase == 1 && (!warmLeft s || decide (s.power.warmAt + s.get F.RST_DRAINLIM_NS ≤ s.cycle)) then
    let s1 := s.when (warmLeft s) fun t => t.put F.RST_STAT_DRAIN_TO 1
    setPower (fun p => { p with warmPhase := 2 }) s1
  else s

/-- R430, phase 2: the L2 is written back, and once that is acknowledged both stacks enter self-refresh. -/
def warmWrittenBack (s : State) : State :=
  if s.power.warmPhase == 2 then
    let s1 := l2WriteBack s
    if l2Busy s1 then s1 else setPower (fun p => { p with warmPhase := 3 }) (hbmSelfRefEnter 1 (hbmSelfRefEnter 0 s1))
  else s

/-- R435 column W: the Ridge network keeps only the packets, tags and responses of the masters that go on. -/
def warmRidge (s : State) : State :=
  let keep := fun (p : Packet) => p.vn != 2 && !stoppedSource s p
  let keepAns := fun (p : Packet) => p.vn == 2 && p.dport == 2 && (p.dst == 64 || p.dst == 72 || p.dst == 91)
  let ok := fun (p : Packet) => keep p || keepAns p
  let sift := fun (l : SMap (List Packet)) => (l.map fun e => (e.1, e.2.filter ok)).filter fun e => !e.2.isEmpty
  let buf := (s.ridge.buf.map fun e => (e.1, e.2.filter fun f => ok f.pkt)).filter fun e => !e.2.isEmpty
  -- A packet that goes on being injected keeps its place, and a packet that goes on the outputs that it holds; the
  -- operations that waited for answers are over.
  let sending := s.ridge.sending.filter fun e => ((s.ridge.ni.get e.1 []).head?.any ok)
  let held := fun (o : Option (Nat × Nat)) => o.any fun x =>
    (buf.any fun e => e.2.any fun f => f.id == x.2) || sending.any fun e => e.2.any fun y => y.1 == x.2
  let s1 := { s with ridge := { s.ridge with
      ni := sift s.ridge.ni, buf := buf, lock := s.ridge.lock.filter fun e => held e.2, inbox := sift s.ridge.inbox
      wake := sift s.ridge.wake, stopped := 0, counters := []
      sending := sending
      wires := List.map (fun e : Nat × Wire => (e.1, { gen := e.2.gen + 1 })) s.ridge.wires } }
  s1.each 96 fun n t => if n == 64 || n == 72 || n == 91 then t.setOutReqs n (t.outReqs n) else t.setOutReqs n []

/-- R431, R435 column W: each lane engine discards words until the next line start; the lanes stay trained. -/
def warmLanes (s : State) : State :=
  let s1 := { s with lanes := { trained := s.lanes.trained }, fab := { s.fab with lanes := [] } }
  let s2 := s1.each 32 fun g t => t.each 8 fun j u => u.setCxp g j
    { src := { skip := true }, format := (s.cxp g j).format }
  let s3 := s2.each 8 fun c t => t.each 4 fun j u => u.setGv c j { src := { skip := true } }
  s3.each 256 laneRefresh

/-- R435 column W for massif `m` and its Caller. -/
def warmMassif (m : Nat) (s : State) : State :=
  let s1 := clearQueues m (returnCredits m (clearCols m (clearTiles m (massifIdle m s))))
  let s2 := (s1.setCore m {}).setShelf m { s1.shelf m with ports := [], bulk := [] }
  let s3 := { s2 with fab := { s2.fab with loaders := s2.fab.loaders.set m none none } }
  s3.setMassif m { s3.massif m with resetHold := false }

/-- R430, phase 3: everything that the survival table marks as cleared by W is cleared. -/
def warmClear (s : State) : State :=
  if s.power.warmPhase == 3 then
    let s1 := resetFields (fun f => f.clr.testBit 2) (s.each 64 warmMassif)
    let s2 := { s1 with
      fab := { s1.fab with feeds := [], feedTracks := [] }
      col := {}
      pair := {}
      cores := { s1.cores with core := [] }
      mem := { s1.mem with bmAcc := [] }
      host := { s1.host with dma := [], msixOr := [], haltMsi := [] } }
    let s3 := bucketsFill (warmChannels (warmLanes (warmRidge (cachesDrop s2))))
    setPower (fun p => { p with warmPhase := 4 }) (s3.each 64 fun m t => massifBegin m false t)
  else s

/-- R430, R431, phase 4: the stacks leave self-refresh, and the warm reset ends; after a release, the Lead Callers
with START = 1 begin again and the pair block returns through HELLO (R299). -/
def warmResume (s : State) : State :=
  if s.power.warmPhase == 4 then
    let s1 := setPower (fun p => { p with warmPhase := 0 }) (hbmSelfRefLeave 1 (hbmSelfRefLeave 0 s))
    let s2 := ((s1.put F.RST_STAT_WARM_BUSY 0).put F.RST_WARMCNT_VALUE (s.get F.RST_WARMCNT_VALUE + 1)).irq resetPage 0
    if s.loadHold then s2
    else (s.host.loads.starts.foldl (fun t i => leadStart i t) s2).when (s.flag F.PAIR_CFG_EN) enterHello
  else s

/-! ### Rest (R440, R441) -/

def setRest (st : Nat) (s : State) : State := (s.put F.REST_STAT_STATE st).irq powerPage 2

/-- R440: REST_CTL.ENTER. -/
def restEnter (s : State) : State :=
  if s.flag F.CMD_STAT_BUSY || s.flag F.RST_STAT_WARM_BUSY || s.flag F.RST_STAT_DEFERRED || s.loadHold then
    s.setIrq F.REST_STAT_REFUSED powerPage 3
  else if s.get F.REST_STAT_STATE != 0 then s
  else
    let asked := (List.range 64).filter fun m => s.get (F.PWR_STAT_STATE m) == 0 || s.get (F.PWR_STAT_STATE m) == 4
    let s1 := asked.foldl (fun t m => gateWrite m true t) s
    setRest 1 (setPower (fun p => { p with restAsked := asked, restAt := s.cycle }) s1)

/-- R440: every Lead Caller is halted or in WFI, or has not been started. -/
def leadsIdle (s : State) : Bool :=
  (List.range 4).all fun i => !s.flag (fRunning (64 + i)) || (s.core (64 + i)).wfi

/-- R440: every massif is GATED and every Lead Caller idle: the rest of the entry proceeds. -/
def restReady (s : State) : Bool := leadsIdle s && (List.range 64).all fun m => s.get (F.PWR_STAT_STATE m) == 3

/-- R440, step 2: the L2 is written back, the stacks enter self-refresh, lane groups enter low power, and the
fabric PLLs stop unless SCRUB = 1. -/
def restProceed (s : State) : State :=
  if s.get F.REST_STAT_STATE == 1 && s.power.warmPhase == 0 && restReady s then
    let s0 := l2WriteBack s
    if l2Busy s0 then s0 else
    let s1 := hbmSelfRefEnter 1 (hbmSelfRefEnter 0 s0)
    let groups := (List.range 32).filter fun g =>
      s.get (F.GRP_CTL_PROTO g) != 3 && s.get (F.GRP_CTL_PROTO g) != 0 && !s.flag (F.GRP_CTL_LP g)
    let s2 := groups.foldl (fun t g => lowPower g t) s1
    let s3 := s2.when (!s.flag F.REST_CFG_SCRUB) fun t => t.each 4 fun k u => pllLockLoss k u
    setRest 2 (setPower (fun p => { p with restGroups := groups }) s3)
  else s

/-- R440, step 3: entry has not proceeded within REST_TO µs. -/
def restTimeout (s : State) : State :=
  if s.get F.REST_STAT_STATE == 1 && !restReady s && decide (s.power.restAt + s.get F.REST_TO_US * 1000 ≤ s.cycle) then
    let s1 := setRest 0 (s.setIrq F.REST_STAT_ABORTED powerPage 3)
    s.power.restAsked.foldl (fun t m =>
      t.when (t.get (F.PWR_STAT_STATE m) == 1 || t.get (F.PWR_STAT_STATE m) == 2 || t.get (F.PWR_STAT_STATE m) == 4) (gateWrite m false)) s1
  else s

/-- Bit `m` of REST_WAKEMASK. -/
def wakeMask (s : State) (m : Nat) : Bool :=
  (s.get (if m < 32 then F.REST_WAKEMASK_LO_BITS else F.REST_WAKEMASK_HI_BITS)).testBit (m % 32)

/-- R441: Rest begins to end; `wake`: the massifs of REST_WAKEMASK wake (not before a warm reset, R429). -/
def restExit (wake : Bool) (s : State) : State :=
  if s.get F.REST_STAT_STATE == 2 then
    let woken := if wake then (List.range 64).filter (wakeMask s) else []
    setRest 3 (setPower (fun p => { p with restWoken := woken }) (woken.foldl (fun t m => wakeStart m t) s))
  else s

/-- R441: PLLs, stacks and groups are back, and every massif that the exit woke is ACTIVE. -/
def restExitDone (s : State) : State :=
  if s.get F.REST_STAT_STATE == 3 && s.power.restWoken.all s.massifUp
      && (List.range 4).all (fun k => s.get (F.FPLL_FREQ k) == 0 || s.flag (F.FPLL_LOCK k)) then
    let s1 := hbmSelfRefLeave 1 (hbmSelfRefLeave 0 s)
    let s2 := s.power.restGroups.foldl (fun t g => t.when (t.flag (F.GRP_CTL_LP g)) (leaveLowPower g)) s1
    let s3 := setRest 0 (setPower (fun p => { p with restWoken := [], restGroups := [], restAsked := [] }) s2)
    s3.when s.power.warmAfterRest warmStart
  else s

/-- A write of REST_CTL. -/
def restCtlWrite (v : Word) (s : State) : State :=
  (s.when (v.getLsbD 0) restEnter).when (v.getLsbD 1) (restExit true)

/-! ### RST_CTL (R429) -/

/-- R429: a warm reset is asked for. -/
def warmRequest (s : State) : State :=
  if s.flag F.RST_STAT_WARM_BUSY || s.flag F.RST_STAT_DEFERRED || s.power.warmAfterRest then s
  else if s.flag F.CMD_STAT_BUSY then s.put F.RST_STAT_DEFERRED 1
  else if s.get F.REST_STAT_STATE == 2 then restExit false (setPower (fun p => { p with warmAfterRest := true }) s)
  else if s.get F.REST_STAT_STATE == 3 then setPower (fun p => { p with warmAfterRest := true }) s
  else warmStart s

/-- A write of RST_CTL (R426, R429). -/
def rstCtlWrite (v : Word) (s : State) : State :=
  if F.RST_CTL_KEY.of v.toNat != 0xC4 then s.put F.RST_STAT_BADKEY 1
  else if v.getLsbD 1 then coldReset 5 s
  else s.when (v.getLsbD 0) warmRequest

/-- R429: the command has ended, and the deferred warm reset starts. -/
def warmDeferred (s : State) : State := s.when (s.flag F.RST_STAT_DEFERRED && !s.flag F.CMD_STAT_BUSY) warmStart

/-! ### Resets of one massif, Caller or lane group (R432–R434) -/

/-- A W reset of the block is in progress or deferred: a lower reset is discarded (R434). -/
def warmOver (s : State) : Bool := s.flag F.RST_STAT_WARM_BUSY || s.flag F.RST_STAT_DEFERRED

def mrstRefused (m : Nat) (s : State) : State := s.setIrq (F.MRST_STAT_REFUSED m) (pwrPage m) 3

/-- R432, R125, R94, R151, R435 column M. -/
def massifReset (m : Nat) (s : State) : State :=
  if s.loadHold || reloading s m then mrstRefused m s
  else if warmOver s then s
  else
    let gated := s.get (F.PWR_STAT_STATE m) == 3
    let s1 := clearQueues m (withholdCols m (clearTiles m (massifIdle m s)))
    let s2 := callerDown m (dropPosted m s1)
    let s3 := (s2.setOutReqs m []).setShelf m { s2.shelf m with ports := [] }
    let s4 := { s3 with
      fab := { s3.fab with loaders := s3.fab.loaders.set m none none }
      mem := { s3.mem with bmAcc := s3.mem.bmAcc.set m none none } }
    let s5 := resetFields (fun f => inMassif m f && (f.clr.testBit 4 || f.clr.testBit 5)) s4
    let s6 := massifBegin m false s5
    let s7 := s6.setMassif m { s6.massif m with resetHold := !gated, callerCopy := false }
    beatsSettle m (s7.when gated (returnCredits m))

/-- R94, R432: the 64 cycles of the hold are over, and the credits of the cleared words are returned. -/
def massifResetDone (m : Nat) (s : State) : State :=
  s.when (s.massif m).resetHold fun t => returnCredits m (t.setMassif m { t.massif m with resetHold := false })

/-- R432, R435 column K. -/
def callerReset (m : Nat) (s : State) : State :=
  if s.loadHold || reloading s m then mrstRefused m s
  else if warmOver s || (s.massif m).resetHold then s
  else resetFields (fun f => inMassif m f && f.clr.testBit 5) (callerDown m (dropPosted m s))

/-- The pages of lane group `g` and its engines. -/
def inGroup (g : Nat) (f : Fld) : Bool :=
  (decide (lgPage g ≤ f.addr) && decide (f.addr < lgPage (g + 1)))
    || (decide (cxpPage g ≤ f.addr) && decide (f.addr < cxpPage g + 0x1000))
    || (List.range 8).any fun c => clusterGroup c == g && decide (ethPage c ≤ f.addr) && decide (f.addr < ethPage c + 0x1000)

/-- R433, R435 column G: a lane group reset starts, or is refused for PCIE. -/
def laneGroupReset (g : Nat) (s : State) : State :=
  if s.get (F.GRP_CTL_PROTO g) == 3 then s.setIrq F.RST_STAT_LG_REFUSED resetPage 1
  else
    let s1 := resetFields (fun f => inGroup g f && f.clr.testBit 6) s
    let s2 := { s1 with fab := { s1.fab with lanes := s1.fab.lanes.clear fun l => l / 8 == g } }
    let s3 := { s2 with lanes := { s2.lanes with trained := s2.lanes.trained.filter fun l => l / 8 != g } }.each 8
      fun j t => (t.setCxp g j {}).put (F.CXP_STAT_LINKUP g j) 0
    let s4 := s3.each 8 fun c t => t.when (clusterGroup c == g) fun u => (u.each 4 fun j v => v.setGv c j {}).setEthCl c {}
    let n := laneRouter g
    let ring := fun (k : Nat) => (List.range 8).any fun c => clusterGroup c == g && (k == txKey c || k == rxKey c)
    let s4a := s4.each 8 fun c t => t.when (clusterGroup c == g) fun u => wireEnd (rxKey c) (wireEnd (txKey c) u)
    let s4b := { s4a with lanes := { s4a.lanes with acks := s4a.lanes.acks.filter fun a => a.1 != g } }
    let s5 := s4b.setOutReqs n ((s4b.outReqs n).filter fun r => match r.owner with
      | .endpoint e => e != g % 2
      | .wire k _ _ => !ring k
      | _ => true)
    let s6 := (s5.each 8 fun f t => laneRefresh (8 * g + f) t).put F.RST_LG_BITS (s.get F.RST_LG_BITS ||| 2 ^ g)
    s6.when (s.get (F.GRP_CTL_PROTO g) == 4) pairLinkDown

/-- R433: the reset ends; training proceeds. A bit that was written in the cycle reads 1 after it (R461). -/
def laneGroupResetDone (g : Nat) (s : State) : State :=
  s.when (!(s.fresh F.RST_LG_BITS).testBit g) fun s => s.put F.RST_LG_BITS (s.get F.RST_LG_BITS &&& (0xFFFFFFFF - 2 ^ g))

/-- A write of RST_LG: every bit written 1 starts a reset. -/
def rstLgWrite (v : Word) (s : State) : State := s.each 32 fun g t => t.when (v.getLsbD g) (laneGroupReset g)

/-- A write of MRST_CTL. -/
def mrstWrite (m : Nat) (v : Word) (s : State) : State :=
  if v.getLsbD 0 then massifReset m s else s.when (v.getLsbD 1) (callerReset m)

/-! ### Lane supplies (R473) -/

/-- R473: a lane rail leaves its range: READY falls on every lane, until the lanes retrain. -/
def laneRailLoss (s : State) : State := s.each 32 fun g t => t.each 8 fun f u => laneLos g f u

/-! ### Delivery of beats (R12, R40, R284, R441) -/

/-- R12, R40: the oldest record of the beat tree, six TBCLK cycles after it entered, reaches every beat stub. -/
def beatDelivery (s : State) : State :=
  match s.pos.treeFly with
  | [] => s
  | (t0, b) :: rest =>
    if s.cycle < t0 + 6 then s
    else
      let s1 := { s with pos := { s.pos with treeFly := rest, stub := s.pos.stub.set b.ch (some b) none } }
      let s2 := s1.each 64 fun m t => beatWake m b (beatReach m b t)
      let s3 := epochBeat b s2
      s3.when (s.get F.REST_STAT_STATE == 2 && s.flag F.REST_CFG_WAKEBEAT && s.get F.REST_CFG_WAKECH == b.ch) (restExit true)

/-! ### The meanings -/

def execPowerOn (vaux hot : Bool) (s : State) : Result := .next (powerOn vaux hot s)
def execResetNLow (ns : Nat) (taken : Bool) (s : State) : Result := .next (resetN ns taken s)
/-- `v` is the word written to RST_CTL, with COLD set. -/
def execCold (v : Word) (s : State) : Result := .next (rstCtlWrite (v ||| 2) s)
/-- `v` is the word written to RST_CTL, with WARM set and COLD not. -/
def execWarm (v : Word) (s : State) : Result := .next (rstCtlWrite ((v ||| 1) &&& ~~~2) s)
def execWarmDeferredStart (s : State) : Result := .next (warmDeferred s)
def execWarmDrainDone (s : State) : Result := .next (warmDrainDone s)
def execWriteBackDone (s : State) : Result := .next (warmWrittenBack s)
def execClearDone (s : State) : Result := .next (warmClear s)
def execWarmResumeDone (s : State) : Result := .next (warmResume s)
def execMassifReset (m : Fin 64) (s : State) : Result := .next (massifReset m s)
def execMassifResetDone (m : Fin 64) (s : State) : Result := .next (massifResetDone m s)
def execCallerReset (m : Fin 64) (s : State) : Result := .next (callerReset m s)
def execLaneGroupReset (g : Fin 32) (s : State) : Result := .next (laneGroupReset g s)
def execLaneGroupResetDone (g : Fin 32) (s : State) : Result := .next (laneGroupResetDone g s)
/-- The two samples, in mV. -/
def execBrownoutReset (a b : BitVec 10) (s : State) : Result := .next (brownoutReset a.toNat b.toNat s)
def execThermtrip (s : State) : Result := .next (thermTrip s)
def execHbmRailLoss (s : State) : Result := .next (hbmContentsLost s)
def execLaneRailLoss (s : State) : Result := .next (laneRailLoss s)
def execPowerDown (s : State) : Result := .next (powerDown s)
def execRestEnter (s : State) : Result := .next (restEnter s)
def execRestEntryProceed (s : State) : Result := .next (restProceed s)
def execRestTimeout (s : State) : Result := .next (restTimeout s)
/-- A write of REST_CTL.EXIT; a wake beat ends Rest in `beatDelivery`. -/
def execRestExit (s : State) : Result := .next (restExit true s)
def execRestExitDone (s : State) : Result := .next (restExitDone s)
def execBeatDelivery (s : State) : Result := .next (beatDelivery s)

end Sys2Proof.Machine
end

