-- ==== Sys2Proof/Machine/Host.lean ====
section
/-! DEFINITION. The host's side of the device: PCIe endpoints (R378–R383, R403), MSI-X (R382), DMA channels and the
collector's output (R158, R384–R386), the management port (R387–R389), and the command mailbox (R390–R392). -/

namespace Sys2Proof.Machine

open Sys2Proof

abbrev pciePage (e : Nat) : Nat := 0x03030000 + 0x8000 * e
abbrev dmaPage (e : Nat) : Nat := 0x03031000 + 0x8000 * e

/-- Router of endpoint `e` (R380). -/
def pcieRouter (e : Nat) : Nat := if e == 0 then 64 else 72

def setHost (f : HostIf → HostIf) (s : State) : State := { s with host := f s.host }

/-! ### The link and endpoint resets (R383, R403) -/

def fn (s : State) (e : Nat) : PciFn := s.host.fn.get e {}
def setFn (e : Nat) (x : PciFn) (s : State) : State := setHost (fun h => { h with fn := h.fn.set e x {} }) s

/-- The endpoint's link carries TLPs: it is up, and the groups of the endpoint are not listen-only (R281). -/
def pcieUp (s : State) (e : Nat) : Bool := s.flag (F.PCI_STAT_LINKUP e) && !s.listens (16 * e) && !s.listens (16 * e + 1)

/-- The endpoint serves and issues memory requests: its link is up, and it is in D0 (R378). -/
def pcieServes (s : State) (e : Nat) : Bool := pcieUp s e && !(fn s e).d3hot

/-- An endpoint whose link is up, in D3hot, completes requests with Unsupported Request. -/
def pcieAsleep (s : State) (e : Nat) : Bool := pcieUp s e && (fn s e).d3hot

/-- R403: highest generation and widest link that PCI_CTL allows. -/
def maxGen (s : State) (e : Nat) : Nat := let g := s.get (F.PCI_CTL_MAXGEN e); if 1 ≤ g && g ≤ 5 then g else 5
def maxWidth (s : State) (e : Nat) : Nat :=
  let w := s.get (F.PCI_CTL_MAXW e); if w == 1 || w == 2 || w == 4 || w == 8 then w else 16

/-- R378: the widest width supported that is at most `w`. -/
def linkWidth (w : Nat) : Nat := if 16 ≤ w then 16 else if 8 ≤ w then 8 else if 4 ≤ w then 4 else if 2 ≤ w then 2 else 1

/-- R356, R378: the SMC configures endpoint `e` from PCI_CTL: its groups serve PCIe, or are left OFF; its configuration space
takes its IDs from the settings records `l`. -/
def pcieConfigure (l : List (Word × Word × Word)) (e : Nat) (s : State) : State :=
  let s1 := setFn e { fn s e with width := maxWidth s e, ids := Config.pciIds e l } s
  s1.each 2 fun i t => t.when (s.flag (F.PCI_CTL_EN e) && (i == 0 || maxWidth s e == 16)) fun u =>
    (u.put (F.GRP_CTL_PROTO (16 * e + i)) 3).put (F.GRP_CTL_EN (16 * e + i)) 1

/-- R403: a write of PCI_CTL; a change of MAXW to or from 16 leaves the width of the groups as it is. -/
def pciCtlWritten (e : Nat) (s : State) : State :=
  s.when ((maxWidth s e == 16) == ((fn s e).width == 16)) (setFn e { fn s e with width := maxWidth s e })

/-- R358: the transmitters of a trained PCIe link have the taps that equalisation has settled on. -/
def pcieTaps (e width : Nat) (s : State) : State :=
  s.each width fun i t =>
    let g := 16 * e + i / 8
    let (a, t1) := t.nextFree
    let (b, t2) := t1.nextFree
    (t2.put (F.LN_TXFIR_PRE g (i % 8)) (Config.freeNat a)).put (F.LN_TXFIR_POST g (i % 8)) (Config.freeNat b)

/-- R356, R403: the link completes training, on the groups that serve PCIe; from 8 GT/s they use their LC PLLs (R357). -/
def pcieLinkUp (e gen width : Nat) (s : State) : State :=
  if s.get (F.GRP_CTL_PROTO (16 * e)) == 3 && s.flag F.CMD_STAT_READY && !s.flag (F.PCI_STAT_LINKUP e)
      && !s.flag (F.PCI_STAT_PERST e) && !s.listens (16 * e) && !s.listens (16 * e + 1) then
    let w := linkWidth (min width (min (maxWidth s e) (fn s e).width))
    let s1 := ((s.put (F.PCI_STAT_LINKUP e) 1).put (F.PCI_STAT_GEN e) (min (max 1 gen) (maxGen s e))).put (F.PCI_STAT_WIDTH e) w
    let s2 := s1.each 2 fun i t => t.when (t.get (F.GRP_CTL_PROTO (16 * e + i)) == 3) (relock (16 * e + i))
    (pcieTaps e w s2).irq (pciePage e) 0
  else s

/-- The link leaves L0 and L1. -/
def pcieLinkFall (e : Nat) (s : State) : State :=
  let s1 := ((s.put (F.PCI_STAT_LINKUP e) 0).put (F.PCI_STAT_GEN e) 0).put (F.PCI_STAT_WIDTH e) 0
  s1.when (s.flag (F.PCI_STAT_LINKUP e)) fun t => t.irq (pciePage e) 0

/-- The field lies in the endpoint or DMA page of endpoint `e`. -/
def inEndpoint (e : Nat) (f : Fld) : Bool := decide (pciePage e ≤ f.addr) && decide (f.addr < pciePage e + 0x2000)

/-- Requester of DMA channel `c` of endpoint `e`. -/
abbrev dmaKey (e c : Nat) : Nat := 256 + 16 * e + c

/-- R383: an endpoint reset; a Function Level Reset keeps the link. The function's masks and its MSI-X table return to their
reset state (PRESUMED, log 153). Responses to what it had sent are discarded (R235). -/
def endpointResets (e : Nat) (link : Bool) (s : State) : State :=
  let s1 := resetFields (fun f => inEndpoint e f && f.clr.testBit 2) s
  let s2 := setFn e { width := (fn s e).width, ids := (fn s e).ids } ((s1.when (!link) (pcieLinkFall e)).each 16 fun c t =>
    wireEnd (dmaKey e c) t)
  let s3 := setHost (fun h => { h with
    dma := h.dma.clear (fun k => k / 16 == e), msixPend := h.msixPend.clear (fun k => k / 256 == e)
    msixTab := h.msixTab.clear (fun k => k / 256 == e)
    haltMsi := h.haltMsi.erase e, bar2Parts := h.bar2Parts.erase e
    bar2Reads := h.bar2Reads.filter fun r => r.e != e }) s2
  let n := pcieRouter e
  let s4 := s3.setOutReqs n ((s3.outReqs n).map fun r => match r.owner with
    | .bar0 _ _ _ | .bar2 _ _ _ _ => { r with expired := true }
    | _ => r)
  let s5 := s4.when (s.get F.MBX_OWN_OWNER == e + 1) fun t => t.put F.MBX_OWN_OWNER 0
  (s5.put (F.PCI_RSTCNT_VALUE e) (s.get (F.PCI_RSTCNT_VALUE e) + 1)).irq (pciePage e) 1

/-- R383, R403: what resets an endpoint; PCI_STAT.PERST follows the pin, whose rise resets nothing. -/
def endpointReset (e : Nat) (kind : EndpointReset) (s : State) : State :=
  match kind with
  | .perst false => s.put (F.PCI_STAT_PERST e) 0
  | .perst true => (endpointResets e false s).put (F.PCI_STAT_PERST e) 1
  | .function => endpointResets e true s
  | .hot | .linkDown => endpointResets e false s

/-! ### BAR0 and BAR2 (R380, R381) -/

def badReq (e : Nat) (s : State) : State := s.count (F.PCI_BADREQ_VALUE e) 1

/-- A request that the endpoint does not serve: Unsupported Request for a read, a dropped write; both counted as
R380 says. -/
def barRefuse (e tag : Nat) (write : Bool) (s : State) : State :=
  (badReq e s).when (!write) fun t => t.emit (.completion e tag true [] false)

/-- R381: a BAR2 write of endpoint `e` has not been acknowledged. -/
def bar2Waits (s : State) (e : Nat) : Bool :=
  let writes := fun (o : TagOwner) => match o with
    | .bar2 e' _ w _ => e' == e && w
    | _ => false
  (s.outReqs (pcieRouter e)).any (fun r => writes r.owner && !r.expired) || (s.host.bar2Parts.get e []).any fun x => writes x.owner

/-- R380: a BAR0 request; `bad`: it is not one DW with all byte enables. A request that has to wait, for a tag or
for an earlier write, is offered again. -/
def bar0Request (e tag : Nat) (write : Bool) (addr : Nat) (d : Word) (ep bad : Bool) (s : State) : State :=
  if pcieAsleep s e then s.when (!write) fun t => t.emit (.completion e tag true [] false)
  else if !pcieServes s e then s
  else
    let s0 := s.when (write && ep) fun t => t.count (F.PCI_POISONRX_VALUE e) 1
    if bad || addr % 4 != 0 || decide (2 ^ 26 ≤ addr) then barRefuse e tag write s0
    else match servingRouter addr with
      | none => (if write then badReq e s0 else s0.emit (.completion e tag true [] false))
      | some r =>
        if (!write && bar2Waits s e) || (freeTag s (pcieRouter e)).isNone then s
        else niRequest (.bar0 e tag write) {
          dst := r, dport := 3, src := pcieRouter e, sport := 2, vn := 1, typ := if write then 3 else 2, addr := addr, word := if write then d else 0, wordP := write && ep } s0

/-- A host access cut at every aligned 256-byte boundary: address and bytes of each part. -/
def cut256 (a : Nat) : Nat → List (Byte × Bool) → List (Nat × List (Byte × Bool))
  | 0, _ => []
  | _ + 1, [] => []
  | k + 1, l =>
    let n := 256 - a % 256
    (a, l.take n) :: cut256 (a + n) k (l.drop n)

/-- P bits of the words that `bytes` bytes from address `a` touch: all of them. -/
def fullMask (n : Nat) : Nat := 2 ^ ceilDiv n 4 - 1

/-- R232, R381: the parts that wait are issued in order while tags are free. -/
def bar2Pump (e : Nat) : Nat → State → State
  | 0, s => s
  | n + 1, s => match s.host.bar2Parts.get e [] with
    | [] => s
    | x :: rest =>
      if (freeTag s (pcieRouter e)).isNone then s
      else bar2Pump e n (niRequest x.owner x.pkt (setHost (fun h => { h with bar2Parts := h.bar2Parts.set e rest [] }) s))

/-- The part of a BAR2 access that covers `p.2` from address `p.1`. -/
def bar2Packet (s : State) (e : Nat) (write ep : Bool) (p : Nat × List (Byte × Bool)) : Packet :=
  let c := (hbmMap s p.1).1
  { dst := hbmRouter c, dport := hbmPort c, src := pcieRouter e, sport := 2, vn := 1, typ := if write then 1 else 0,
    addr := p.1, size := p.2.length - 1, data := if write then p.2 else []
    pmask := if write && ep then fullMask p.2.length else 0 }

/-- R381: a BAR2 request; its bytes with their enables (a read's bytes are placeholders). While parts of an earlier one
wait for tags, it is offered again. -/
def bar2Request (e tag : Nat) (write : Bool) (addr : Nat) (bytes : List (Byte × Bool)) (ep : Bool) (s : State) : State :=
  let st := s.get F.CFG_STAT_STATE
  let parts := cut256 addr (bytes.length + 1) bytes
  if pcieAsleep s e then s.when (!write) fun t => t.emit (.completion e tag true [] false)
  else if !pcieServes s e || bytes.isEmpty then s
  else
    let s0 := s.when (write && ep) fun t => t.count (F.PCI_POISONRX_VALUE e) 1
    if !s.flag F.HBM_CTL_EN then
      (if write then badReq e s0 else s0.emit (.completion e tag true [] false))
    else if write && (st == 1 || st == 2) then badReq e s0
    else if (!write && bar2Waits s e) || !(s.host.bar2Parts.get e []).isEmpty then s
    else
      let l := parts.zipIdx.map fun (p, k) => ⟨.bar2 e tag write k, bar2Packet s e write ep p⟩
      bar2Pump e 64 (setHost (fun h => { h with bar2Parts := h.bar2Parts.set e l []
                                                bar2Reads := if write then h.bar2Reads else h.bar2Reads ++ [{ e := e, tag := tag, parts := l.length }] }) s0)

/-! ### MSI-X (R313, R316, R382) -/

/-- OR of the sources of vector `v` of endpoint `e`. -/
def vectorOr (s : State) (e v : Nat) : Bool :=
  (List.range 1536).any fun n => sourceLevel s n && (let r := routeOf s n; r.1 == 4 + e && r.2.2 == v)

def msixEntry (s : State) (e v : Nat) : MsixEntry := s.host.msixTab.get (e * 256 + v) {}

/-- R382: a message of vector `v` can be sent: neither the vector nor the function is masked, and the endpoint may write
host memory. -/
def msixOpen (s : State) (e v : Nat) : Bool :=
  let x := fn s e
  x.enable && !x.mask && x.busMaster && pcieServes s e && !(msixEntry s e v).control.getLsbD 0

/-- R382: vector `v` has a message: it is sent, or held as pending. -/
def msixRaise (e v : Nat) (s : State) : State :=
  let k := e * 256 + v
  if msixOpen s e v then
    (setHost (fun h => { h with msixPend := h.msixPend.erase k }) s).emit (.msix e v (msixEntry s e v).addr (msixEntry s e v).data)
  else setHost (fun h => { h with msixPend := h.msixPend.set k true false }) s

/-- R382: pending messages that nothing masks any more are sent. -/
def msixFlush (e : Nat) (s : State) : State :=
  s.each 256 fun v t => t.when (t.host.msixPend.get (e * 256 + v) false && msixOpen t e v) (msixRaise e v)

/-- R313, R382: the OR of vector `v` has changed; a rise raises a message. A Lead Caller halt raises HALTVEC for that moment
alone, so that the OR has fallen again when the next one comes. -/
def msixMessage (e v : Nat) (s : State) : State :=
  let k := e * 256 + v
  let now := vectorOr s e v
  let halt := s.host.haltMsi.get e false && v == s.get F.DIST_CTL_HALTVEC
  let was := s.host.msixOr.get k false
  let s1 := setHost (fun h => { h with msixOr := h.msixOr.set k now false }) s
  let s2 := s1.when halt (setHost fun h => { h with haltMsi := h.haltMsi.erase e })
  s2.when ((now || halt) && !was && s.flag F.DIST_CTL_EN) (msixRaise e v)

/-- R379: DW `off` of BAR4: the MSI-X table, and the pending bits from 0x1000 on. -/
def bar4Read (s : State) (e off : Nat) : Word :=
  if off < 0x1000 then
    let x := msixEntry s e (off / 16)
    match off / 4 % 4 with
    | 0 => x.addr.truncate 32
    | 1 => (x.addr >>> 32).truncate 32
    | 2 => x.data
    | _ => x.control
  else if off < 0x1020 then
    BitVec.ofNat 32 ((List.range 32).foldl (fun acc i => if s.host.msixPend.get (e * 256 + (off - 0x1000) / 4 * 32 + i) false then acc + 2 ^ i else acc) 0)
  else 0

/-- R379: a write of DW `off` of BAR4; the pending bits are read-only. -/
def bar4Write (e off : Nat) (d : Word) (s : State) : State :=
  if off < 0x1000 then
    let v := off / 16
    let x := msixEntry s e v
    let y := match off / 4 % 4 with
      | 0 => { x with addr := (x.addr >>> 32) <<< 32 ||| (d &&& ~~~3).zeroExtend 64 }
      | 1 => { x with addr := (d.zeroExtend 64) <<< 32 ||| (x.addr.truncate 32 : Word).zeroExtend 64 }
      | 2 => { x with data := d }
      | _ => { x with control := d &&& 1 }
    setHost (fun h => { h with msixTab := h.msixTab.set (e * 256 + v) y {} }) s
  else s

/-- R379, R382: an access of the MSI-X table or of what masks its vectors. What unmasks a pending vector sends its message. -/
def msixAccess (e : Nat) (a : MsixAccess) (s : State) : State :=
  if !pcieUp s e then s
  else match a with
    | .write off d => s.when (pcieServes s e) fun t => msixFlush e (bar4Write e off.toNat d t)
    | .read tag off =>
      if pcieServes s e then s.emit (.completion e tag.toNat false ((List.range 4).map (byteOf (bar4Read s e off.toNat))) false)
      else s.emit (.completion e tag.toNat true [] false)
    | .control en mask => msixFlush e (setFn e { fn s e with enable := en, mask := mask } s)
    | .busMaster on => msixFlush e (setFn e { fn s e with busMaster := on } s)
    | .power d3 => msixFlush e (setFn e { fn s e with d3hot := d3 } s)

/-! ### DMA channels (R384–R386) -/

def dmaChan (s : State) (e c : Nat) : DmaChan := s.host.dma.get (e * 16 + c) {}
def setDmaChan (e c : Nat) (x : DmaChan) (s : State) : State :=
  setHost (fun h => { h with dma := h.dma.set (e * 16 + c) x {} }) s

/-- Ring entries (R404). -/
def ringSize (s : State) (e c : Nat) : Nat := 2 ^ min 16 (max 2 (s.get (F.DMA_RSIZE_LOG2 e c)))

/-- DMA_STAT.ACTIVE. -/
def dmaActive (s : State) (e c : Nat) : Bool :=
  s.flag (F.DMA_CTL_EN e c) && s.get (F.DMA_HEAD_INDEX e c) != s.get (F.DMA_TAIL_INDEX e c)

/-- The channel works: it is active, not stopped, and its endpoint and the device run (R383, R416, R430). -/
def dmaRuns (s : State) (e c : Nat) : Bool :=
  dmaActive s e c && !s.flag (F.DMA_STAT_STOPPED e c) && pcieServes s e && !s.loadHold && s.power.warmPhase == 0

/-- DMA_CTL.DIR, 3 treated as 0. -/
def dmaDir (s : State) (e c : Nat) : Nat := let d := s.get (F.DMA_CTL_DIR e c); if d == 3 then 0 else d

/-- R384: software advances DMA_TAIL. -/
def dmaTailWrite (e c : Nat) (v : Word) (s : State) : State := s.load (F.DMA_TAIL_INDEX e c) v

/-- R386: a write of DMA_CTL; EN from 0 to 1 restarts a stopped channel at HEAD. -/
def dmaCtlWrite (e c : Nat) (v : Word) (s : State) : State :=
  let was := s.flag (F.DMA_CTL_EN e c)
  let s1 := s.loadAll v [F.DMA_CTL_EN e c, F.DMA_CTL_DIR e c]
  s1.when (s1.flag (F.DMA_CTL_EN e c) && !was) fun t => t.put (F.DMA_STAT_STOPPED e c) 0

/-- A descriptor as it lies in host memory (R384). -/
structure Desc where
  hostAddr : Dword
  devAddr : Dword
  len : Nat
  irq : Bool

/-- A descriptor read from host memory: 32 bytes. -/
def descOf (l : List Byte) : Desc :=
  ⟨BitVec.ofNat 64 (leField l 0 8), BitVec.ofNat 64 (leField l 8 8), leField l 16 3, (l.getD 19 0).getLsbD 0⟩

/-- R384: host address of the descriptor at HEAD. -/
def descAddr (s : State) (e c : Nat) : Dword :=
  BitVec.ofNat 64 (2 ^ 6 * s.get (F.DMA_RBASE_LO_ADDR e c) + 2 ^ 32 * s.get (F.DMA_RBASE_HI_ADDR e c) + 32 * s.get (F.DMA_HEAD_INDEX e c))

/-- A descriptor is whole, and its last four bytes are zero (R384). -/
def descWhole (l : List Byte) : Bool := l.length == 32 && leField l 28 4 == 0

/-- R384: STATUS with DONE, ERR, POISON and ERRCODE. -/
def descStatus (err poison : Bool) (code : Nat) : Word := BitVec.ofNat 32 (1 + 2 * b2n err + 4 * b2n poison + 16 * code)

/-- R384: the descriptor at HEAD is completed: writeback, HEAD, then the interrupt. -/
def dmaComplete (e c : Nat) (irq poison : Bool) (count : Nat) (s : State) : State :=
  let h := s.get (F.DMA_HEAD_INDEX e c)
  let s1 := s.emit (.dmaStatus e c (descAddr s e c + 20) (descStatus false poison 0) (BitVec.ofNat 32 count))
  let s2 := (s1.put (F.DMA_HEAD_INDEX e c) ((h + 1) % ringSize s e c)).put (F.DMA_BYTES_VALUE e c) (s.get (F.DMA_BYTES_VALUE e c) + count)
  (s2.when poison fun t => t.put (F.DMA_STAT_POISON e c) 1).when irq fun t => t.irq (dmaPage e) c

/-- R386: an error ends the transfer: it is written back, the descriptor is not retried, and the channel
stops. -/
def dmaError (e c code : Nat) (poison : Bool) (count : Nat) (s : State) : State :=
  let h := s.get (F.DMA_HEAD_INDEX e c)
  let s0 := (s.emit (.dmaStatus e c (descAddr s e c + 20) (descStatus true poison code) (BitVec.ofNat 32 count))).when poison
    fun t => t.put (F.DMA_STAT_POISON e c) 1
  let s1 := s0.put (F.DMA_BYTES_VALUE e c) (s.get (F.DMA_BYTES_VALUE e c) + count)
  let s2 := (s1.put (F.DMA_HEAD_INDEX e c) ((h + 1) % ringSize s e c)).put (F.DMA_STAT_ERRCODE e c) code
  ((s2.put (F.DMA_STAT_STOPPED e c) 1).put (F.DMA_STAT_ERR e c) 1).irq (dmaPage e) c

/-- Poisoned TLPs of a transfer: at least one; how many depends on how the data is cut into TLPs, a free value. -/
def poisonedTx (e : Nat) (any : Bool) (s : State) : State :=
  if any then
    let (n, s1) := s.nextFree
    s1.count (F.PCI_POISONTX_VALUE e) (1 + Config.freeNat n)
  else s

/-- Poisoned completions received in a transfer: at least one; how many is a free value, as above. -/
def poisonedRx (e : Nat) (any : Bool) (s : State) : State :=
  if any then
    let (n, s1) := s.nextFree
    s1.count (F.PCI_POISONRX_VALUE e) (1 + Config.freeNat n)
  else s

/-- R385: a COLLECTOR buffer is closed: its writeback is sent. -/
def dmaClose (e c : Nat) (s : State) : State :=
  let x := dmaChan s e c
  match x.buf with
  | some b => setDmaChan e c {} (dmaComplete e c b.irq x.poison x.used s)
  | none => s

/-- R385: the collector names channel `c` of endpoint `e`. -/
def dmaNamed (s : State) (e c : Nat) : Bool :=
  s.get F.COL_CTL_SINK != 2 && (s.get F.COL_CTL_SINK == 1) == (e == 1) && s.get F.COL_CTL_SINKCH == c

/-- R385: the next report would not fit the open buffer. -/
def bufferFull (s : State) (e c : Nat) : Bool :=
  dmaNamed s e c && match (dmaChan s e c).buf, s.col.outq with
  | some b, r :: _ => decide (b.len < (dmaChan s e c).used + reportBytes r)
  | _, _ => false

/-- R384–R386: the descriptor that the channel works on: D2H data is read from HBM and sent to the host; H2D data is written
to HBM, and all of it acknowledged. Then the descriptor is completed. -/
def dmaWork (e c : Nat) (w : DmaWork) (s : State) : State :=
  let chanDone := fun (t : State) => setDmaChan e c {} (wireEnd (dmaKey e c) t)
  let s0 := wireRewind (dmaKey e c) s
  let p := w.data.any (·.2)
  if w.fromHost then
    match wireAsk (dmaKey e c) (writeRequests s none (pcieRouter e) 2 w.devAddr w.data) s0 with
    | (none, s1) => s1
    | (some _, s1) =>
      if w.err == 0 then dmaComplete e c w.irq p w.len (chanDone s1) else dmaError e c w.err p w.data.length (chanDone s1)
  else
    let ps := readRequests s none (pcieRouter e) 2 w.devAddr w.len
    match wireAsk (dmaKey e c) ps s0 with
    | (none, s1) => s1
    | (some as, s1) =>
      let l := (ps.zip as).flatMap fun (q, a) => replyBytes (q.size + 1) a
      let p := l.any (·.2)
      dmaComplete e c w.irq p w.len (poisonedTx e p ((chanDone s1).emit (.dmaWrite e c w.hostAddr l)))

/-- R384–R386: the descriptor at HEAD, read from host memory as `bytes`, is begun. -/
def dmaBegin (e c err : Nat) (bytes : List Byte) (data : List (Byte × Bool)) (s0 : State) : State :=
  let d := descOf bytes
  let fromHost := dmaDir s0 e c != 0
  let s := s0.emit (.dmaRead e c (descAddr s0 e c) 32)
  if err != 0 && (bytes.length != 32 || !fromHost) then dmaError e c err false 0 s
  else if d.len == 0 || decide (2 ^ 35 ≤ d.devAddr.toNat) || !descWhole bytes then dmaError e c 5 false 0 s
  else if 2 ^ 35 < d.devAddr.toNat + d.len then dmaError e c 4 false 0 s
  else
    let l := if !fromHost then [] else if err == 0 then (List.range d.len).map fun i => data.getD i (0, false) else data.take d.len
    let w : DmaWork := ⟨d.hostAddr, d.devAddr.toNat, d.len, d.irq, fromHost, l, err⟩
    let s1 := s.when fromHost fun t => poisonedRx e (l.any (·.2)) (t.emit (.dmaRead e c d.hostAddr d.len))
    dmaWork e c w (setDmaChan e c { work := some w } s1)

/-- R385: the buffer that a descriptor read as `bytes` opens for a COLLECTOR channel; none where it is bad or shorter than
80 bytes. -/
def bufferOf (bytes : List Byte) : Option DmaBuf :=
  let d := descOf bytes
  if descWhole bytes && decide (80 ≤ d.len) then some ⟨d.hostAddr, d.len, d.irq⟩ else none

/-- R385, R386: a COLLECTOR channel that the collector names reads the descriptor at HEAD, which opens a buffer or stops
it. -/
def bufferOpen (e c err : Nat) (bytes : List Byte) (s0 : State) : State :=
  let s := s0.emit (.dmaRead e c (descAddr s0 e c) 32)
  if err != 0 then dmaError e c err false 0 s
  else match bufferOf bytes with
    | none => dmaError e c 5 false 0 s
    | some b => setDmaChan e c { buf := some b } s

/-- R384–R386: the channel works on the descriptor at HEAD, which reads as `bytes`. `err`: the read of the
descriptor or of host data fails with ERRCODE 1, 2 or 3. `data`: host data of an H2D transfer, with the EP of the
completion that brought each byte; of a failed read, what came before. A descriptor under way goes on. A COLLECTOR channel
completes a buffer that is full. -/
def dmaDescriptor (e c err : Nat) (bytes : List Byte) (data : List (Byte × Bool)) (s : State) : State :=
  if !dmaRuns s e c then s
  else match (dmaChan s e c).work with
    | some w => dmaWork e c w s
    | none =>
      if dmaDir s e c != 2 then dmaBegin e c err bytes data s
      else if bufferFull s e c then dmaClose e c s
      else if dmaNamed s e c && (dmaChan s e c).buf.isNone then bufferOpen e c err bytes s
      else s

/-- R385: DMA_HOLD ns have passed since the first report of the open buffer. -/
def dmaHold (e c : Nat) (s : State) : State :=
  match (dmaChan s e c).firstAt with
  | some t0 => if dmaRuns s e c && dmaNamed s e c && decide (t0 + s.get (F.DMA_HOLD_NS e c) ≤ s.cycle) then dmaClose e c s else s
  | none => s

/-- R385: a report is written into the open buffer; without one, the descriptor at HEAD opens it. A descriptor
that is bad or shorter than 80 bytes stops the channel. Answers whether the report was taken. -/
def dmaTakes (e c : Nat) (r : Report) (bytes : List Byte) (s : State) : Bool × State :=
  if !dmaRuns s e c || dmaDir s e c != 2 then (false, s)
  else
    let s0 := if (dmaChan s e c).buf.isSome then s else bufferOpen e c 0 bytes s
    match (dmaChan s0 e c).buf with
    | none => (false, s0)
    | some b =>
      let x := dmaChan s0 e c
      if b.len < x.used + reportBytes r then (false, s0)
      else
        let poison := r.h0.getLsbD 5
        let first := match x.firstAt with
          | some t => some t
          | none => some s.cycle
        let s1 := setDmaChan e c {
          buf := some b, used := x.used + reportBytes r, poison := x.poison || poison, firstAt := first, reports := x.reports ++ [r] } s0
        let l := (wordBytes (reportWords r)).map fun y => (y, poison)
        (true, poisonedTx e poison (s1.emit (.dmaWrite e c (b.hostAddr + BitVec.ofNat 64 x.used) l)))

/-! ### The collector's output (R158, R290, R383) -/

/-- R158: the sink that COL_CTL names takes a report, or leaves it. -/
def sinkTakes (r : Report) (bytes : List Byte) (s : State) : Bool × State :=
  let k := s.get F.COL_CTL_SINK
  if k == 2 then
    let c := s.get F.COL_CTL_ETHCL
    if ethTakesReport s c r then (true, ethAddReport c r s) else (false, s)
  else dmaTakes (if k == 1 then 1 else 0) (s.get F.COL_CTL_SINKCH) r bytes s

/-- A report of the output queue, with the words whose parity checks fail (R208). -/
def outHead (bad : List Nat) (s : State) : State :=
  match s.col.outq with
  | r :: rest => { s with col := { s.col with outq := reportParity bad r :: rest } }
  | [] => s

/-- R158, R290: the output stage passes a report to its sink, or into the hold ring of a quiet member; a member
that has taken over first sends what it holds. `bytes`: the descriptor that opens a DMA buffer. -/
def collectorOutput (bytes : List Byte) (bad : List Nat) (s : State) : State :=
  if s.loadHold || s.power.warmPhase != 0 then s
  else if pairState s == pActive && !s.pair.hold.isEmpty then
    match s.pair.hold with
    | (_, r) :: rest =>
      let (ok, s1) := sinkTakes r bytes s
      if ok then setPair (fun p => { p with hold := rest }) s1 else s1
    | [] => s
  else match s.col.outq with
    | [] => s
    | _ :: _ =>
      let s0 := outHead bad s
      match s0.col.outq with
      | [] => s
      | r :: _ =>
        if s.pairQuiet then colPassed (digestAdd r (holdReport r s0))
        else
          let (ok, s1) := sinkTakes r bytes s0
          if ok then colPassed (digestAdd r s1) else s1

/-! ### The management port (R387–R389) -/

/-- R387: the status byte. -/
def mgmtStatus (s : State) : Byte :=
  BitVec.ofNat 8 (b2n (s.flag F.CMD_STAT_BUSY) + 2 * b2n s.host.mgmtErr + 4 * b2n (s.flag F.CMD_STAT_READY) + 8 * b2n s.host.mgmtPoison)

/-- R389: the level of MGMT_BUSY. -/
def mgmtBusy (s : State) : Bool := !s.flag F.CMD_STAT_READY || s.flag F.CMD_STAT_BUSY

/-- R387: an access of the management port has been answered: the status bits, and the data of a READ that still waits
for it, most significant byte first. `waits` of a write: it was refused. -/
def mgmtAnswer (read waits : Bool) (a : VnReply) (s : State) : State :=
  let s1 := setHost (fun h => { h with mgmtErr := a.status != 0 || (!read && waits), mgmtPoison := read && a.poison }) s
  s1.when (read && waits) fun t =>
    t.emit (.mgmt ([0x5A] ++ (List.range 4).map (fun i => byteOf a.word (3 - i)) ++ [mgmtStatus t]))

/-- A request of the management port has not been answered. -/
def mgmtOut (s : State) : Bool := (s.outReqs smcRouter).any fun r => !r.expired && match r.owner with
  | .mgmt _ => true
  | _ => false

/-- R387: the accesses that wait are issued while tags are free. -/
def mgmtPump : Nat → State → State
  | 0, s => s
  | n + 1, s =>
    match s.host.mgmtWait with
    | [] => s
    | (a, w, waits) :: rest =>
      let done := setHost (fun h => { h with mgmtWait := rest }) s
      match servingRouter a with
      | none =>
        -- An address of no listed page is answered with zero data, after the accesses before it.
        if mgmtOut s then s else mgmtPump n (mgmtAnswer w.isNone waits { status := 1 } done)
      | some r =>
        if (freeTag s smcRouter).isNone || !s.flag F.CMD_STAT_READY then s
        else mgmtPump n (niRequest (.mgmt waits) {
          dst := r, dport := 3, src := smcRouter, sport := 2, vn := 1, typ := if w.isSome then 3 else 2, addr := a, word := w.getD 0 } done)

def mgmtAsk (a : Nat) (w : Option Word) (waits : Bool) (s : State) : State :=
  mgmtPump 64 (setHost (fun h => { h with mgmtWait := h.mgmtWait ++ [(a % 2 ^ 32, w, waits)] }) s)

/-- R387, R391: one word of a WRITE; refused while a command runs. -/
def mgmtWord (a : Nat) (w : Word) (s : State) : State :=
  if s.flag F.CMD_STAT_BUSY then smcRefused (setHost (fun h => { h with mgmtErr := true }) s)
  else mgmtAsk a (some w) false s

/-- R387: a WRITE: word k goes to A + 4k. Served from READY on (R500). -/
def mgmtWrite (a : Nat) : List Word → State → State
  | [], s => s
  | w :: l, s => mgmtWrite (a + 4) l (mgmtWord a w s)

/-- R387, R388: a READ; `waits`: the transaction lasts until the data is sent. -/
def mgmtRead (a : Nat) (waits : Bool) (s : State) : State :=
  mgmtAsk a none waits s

/-- R387: an unknown command byte. -/
def mgmtUnknown (s : State) : State := s.count F.MGMT_ERR_VALUE 1

/-! ### The mailbox (R390–R392) -/

/-- Codes of register masters (R390): 0 none of them, 1 EP0, 2 EP1, 3 the management port, 4 + i Lead Caller i,
8 + m the Caller of massif m. -/
abbrev Master := Nat

/-- R11: the rank of a master among the accesses of one cycle, as in `masterRank`. -/
def rankOf (who : Master) : Nat :=
  if who == 0 then 71 else if who < 4 then 67 + who else who - 4

/-- A write of CMD, ARG, the staging buffer by `master` is refused (R390, R391). -/
def mbxRefused (s : State) (master : Master) : Bool :=
  s.flag F.CMD_STAT_BUSY || (s.get F.MBX_OWN_OWNER != 0 && s.get F.MBX_OWN_OWNER != master)

/-- A write that the mailbox guards. -/
def mbxWrite (master : Master) (act : State → State) (s : State) : State :=
  if mbxRefused s master then smcRefused s else act s

/-- R390, R391: a write of register `addr` by `master` is one that the mailbox refuses. -/
def mbxRefuses (s : State) (master : Master) (addr : Nat) : Bool :=
  let guarded := (smcPage + 0x40 ≤ addr && addr < smcPage + 0x64) || (nvmPage + 0x400 ≤ addr && addr < nvmPage + 0x800)
  (guarded && mbxRefused s master) || (addr == smcPage + 0x6C && s.flag F.CMD_STAT_BUSY)

/-- R391: the SMC runs a command: it reads ARG0–ARG7 and sets BUSY. -/
def smcStart (r : SmcRun) (s : State) : State :=
  (setHost (fun h => { h with smc := some r }) s).put F.CMD_STAT_BUSY 1

/-- ARG0–ARG7. -/
def args (s : State) : List Word := (List.range 8).map fun i => BitVec.ofNat 32 (s.get (F.ARG_VALUE i))

/-- The staging buffer. -/
def stageNow (s : State) : SMap Word :=
  pageData ((List.range 256).map fun i => BitVec.ofNat 32 (s.get (F.STAGE_VALUE i)))

/-- R391: results, RESULT, DONE, BUSY and the interrupt, in one step. -/
def smcEnd (result : Nat) (s : State) : State :=
  let s1 := setHost (fun h => { h with smc := none }) s
  (((s1.put F.CMD_STAT_RESULT result).put F.CMD_STAT_DONE 1).put F.CMD_STAT_BUSY 0).irq smcPage 0

/-- The commands of R391. -/
def smcListed (code : Nat) : Bool :=
  [0x01, 0x02, 0x03, 0x08, 0x10, 0x11, 0x12, 0x18, 0x1C, 0x1D, 0x3F].contains code

/-- R391: writing CMD.CODE starts a command; an unlisted one completes with BAD_CMD. COLD_RESET reports no
completion. -/
def smcCommand (code : Nat) (s : State) : State :=
  let s1 := s.put F.CMD_CODE code
  if code == 0x08 then coldReset 5 s1
  else if !smcListed code then smcEnd 1 s1
  else smcStart { code := code, args := args s, stage := if code == 0x02 then stageNow s else [] } s1

/-- A write of CMD by `master`. -/
def cmdWrite (master : Master) (code : Nat) (s : State) : State := mbxWrite master (smcCommand code) s

/-- R390: MBX_OWN.CLAIM. -/
def mbxClaim (master : Master) (s : State) : State :=
  if s.flag F.CMD_STAT_BUSY then smcRefused s
  else s.when (s.get F.MBX_OWN_OWNER == 0) fun t => t.put F.MBX_OWN_OWNER master

/-- R390: MBX_OWN.RELEASE. -/
def mbxRelease (master : Master) (s : State) : State :=
  if s.flag F.CMD_STAT_BUSY then smcRefused s
  else s.when (s.get F.MBX_OWN_OWNER == master) fun t => t.put F.MBX_OWN_OWNER 0

/-- A write of MBX_OWN. -/
def mbxOwnWrite (master : Master) (v : Word) (s : State) : State :=
  if s.flag F.CMD_STAT_BUSY then smcRefused s
  else (s.when (v.getLsbD 8) (mbxClaim master)).when (v.getLsbD 9) (mbxRelease master)

/-- R211, R392: the SMC starts the repair commit that has waited longest, when the mailbox is free and unclaimed. -/
def selfCommit (row : Nat) (s : State) : State :=
  match s.mem.repairDue with
  | (r, cause) :: l =>
    if r == row && !s.flag F.CMD_STAT_BUSY && s.get F.MBX_OWN_OWNER == 0 then
      let s1 := { s with mem := { s.mem with repairDue := l } }
      (smcStart { code := 0x03, self := true, entry := repairEntry row cause } s1).put F.CMD_STAT_SELF 1
    else s
  | [] => s

/-- R392: at its end BUSY and SELF return to 0, and nothing else of the mailbox changes. -/
def selfEnd (s : State) : State :=
  ((setHost (fun h => { h with smc := none }) s).put F.CMD_STAT_BUSY 0).put F.CMD_STAT_SELF 0

/-! ### The meanings -/

def execPcieLinkUp (e : Fin 2) (gen : Fin 8) (width : Fin 32) (s : State) : Result := .next (pcieLinkUp e gen width s)
def execEndpointReset (e : Fin 2) (kind : EndpointReset) (s : State) : Result := .next (endpointReset e kind s)
def execBar0Request (e : Fin 2) (tag : BitVec 10) (write : Bool) (addr : BitVec 26) (d : Word) (ep bad : Bool) (s : State) : Result :=
  .next (bar0Request e tag.toNat write addr.toNat d ep bad s)
def execBar2Request (e : Fin 2) (tag : BitVec 10) (write : Bool) (addr : BitVec 35) (bytes : List (Byte × Bool)) (ep : Bool)
    (s : State) : Result := .next (bar2Request e tag.toNat write addr.toNat bytes ep s)
/-- What masks the vector stands in the state; the operand says nothing. -/
def execMsixMessage (e : Fin 2) (v : Fin 256) (_masked : Unit) (s : State) : Result := .next (msixMessage e v s)
def execMsixUnmask (e : Fin 2) (a : MsixAccess) (s : State) : Result := .next (msixAccess e a s)
def execDmaTailWrite (e : Fin 2) (c : Fin 16) (v : Word) (s : State) : Result := .next (dmaTailWrite e c v s)
def execDmaDescriptor (e : Fin 2) (c : Fin 16) (err : Fin 4) (bytes : List Byte) (data : List (Byte × Bool)) (s : State) : Result :=
  .next (dmaDescriptor e c err bytes data s)
/-- `v` is the word written to DMA_CTL. -/
def execDmaEnable (e : Fin 2) (c : Fin 16) (v : Word) (s : State) : Result := .next (dmaCtlWrite e c v s)
def execDmaBufferHold (e : Fin 2) (c : Fin 16) (s : State) : Result := .next (dmaHold e c s)
def execCollectorOutput (bytes : List Byte) (bad : List (Fin 20)) (s : State) : Result :=
  .next (collectorOutput bytes (bad.map (·.val)) s)
def execRdsr (s : State) : Result := .next (s.emit (.mgmt [mgmtStatus s]))
def execMgmtWrite (a : Word) (words : List Word) (s : State) : Result := .next (mgmtWrite a.toNat words s)
def execMgmtRead (a : Word) (waits : Bool) (s : State) : Result := .next (mgmtRead a.toNat waits s)
def execMgmtUnknown (s : State) : Result := .next (mgmtUnknown s)
/-- `who` is the writer's code minus one. -/
def execClaim (who : Fin 71) (s : State) : Result := .next (mbxClaim (who + 1) s)
def execMbxRelease (who : Fin 71) (s : State) : Result := .next (mbxRelease (who + 1) s)
def execSettingsRead (who : Fin 71) (s : State) : Result := .next (cmdWrite (who + 1) 0x01 s)
def execStore (who : Fin 71) (s : State) : Result := .next (cmdWrite (who + 1) 0x02 s)
def execRepairCommit (who : Fin 71) (s : State) : Result := .next (cmdWrite (who + 1) 0x03 s)
def execColdReset (who : Fin 71) (s : State) : Result := .next (cmdWrite (who + 1) 0x08 s)
def execImageAuth (who : Fin 71) (s : State) : Result := .next (cmdWrite (who + 1) 0x10 s)
def execMassifReload (who : Fin 71) (s : State) : Result := .next (cmdWrite (who + 1) 0x12 s)
def execAttest (who : Fin 71) (s : State) : Result := .next (cmdWrite (who + 1) 0x18 s)
def execKeyRevoke (who : Fin 71) (s : State) : Result := .next (cmdWrite (who + 1) 0x1C s)
def execRollbackAdvance (who : Fin 71) (s : State) : Result := .next (cmdWrite (who + 1) 0x1D s)
def execZeroise (who : Fin 71) (s : State) : Result := .next (cmdWrite (who + 1) 0x3F s)
/-- A write of CMD.CODE with a code that R391 does not list; a listed code is the command's own row. -/
def execBadCmd (who : Fin 71) (code : Byte) (s : State) : Result :=
  .next (s.when (!smcListed code.toNat) (cmdWrite (who + 1) code.toNat))
/-- The physical row: massif, bank, PROW. -/
def execSelfRepairCommit (m : Fin 64) (bank : Fin 16) (prow : Byte) (s : State) : Result :=
  .next (selfCommit ((m * 16 + bank) * 256 + prow.toNat) s)

end Sys2Proof.Machine
end

