-- ==== Sys2Proof/Machine/Regs.lean ====
section
/-! DEFINITION. Reads and writes of the register space by address (R6, R222, R456–R462): the common header, the
registers whose writes or reads act, and all others by their access type. -/

namespace Sys2Proof.Machine

open Sys2Proof

/-! ### Finding a register -/

/-- Index of offset `off` among `n` registers from `base` at `stride`. -/
def regIdx (off base stride n : Nat) : Option Nat :=
  if base ≤ off && (off - base) % stride == 0 && (off - base) / stride < n then some ((off - base) / stride) else none

/-- R242: the table registers of an edge router's page, which do not exist. -/
def edgeTables (p : Page) (b off : Nat) : Bool :=
  match p with
  | .router => routerPage 64 ≤ b && 0x100 ≤ off
  | _ => false

/-- The rows of a page at base `b` whose register stands at offset `off`, with its index. -/
def rowsAt (p : Page) (b off : Nat) : List (RegRow × Nat) :=
  (if off < 0x40 then rowsHeader b else if edgeTables p b off then [] else p.rows).filterMap fun r => (regIdx off r.off r.stride r.count).map fun i => (r, i)

/-- The page whose base is `b` is locked (R459). -/
def locked (s : State) (b : Nat) : Bool := s.flag (F.LOCK_SET b)

/-! ### Reads -/

/-- Fields whose value the device forms as it is read, by page, instance and index of their register: the field's
lowest bit and its value. CQ_STAT.SYNC is formed from the clocks of the two massifs, where its table gives it the reset
value 0 (DESIGN CHOICE, log 128). -/
def liveField (s : State) (p : Page) (a off : Nat) : Option (Nat × Nat × Nat) :=
  match p with
  | .beatOutput => (regIdx off 0x4C 0x10 64).map fun o => (F.BO_STAT_PIN o).lo |> fun lo => (lo, 1, b2n (boPin s o))
  | .queue => (regIdx off 0x10C 0x40 32).map fun q => ((F.SQ_STAT_FULL a q).lo, 1, b2n (queueFull s a q))
  | .colQueue => (regIdx off 0x40 0x10 4).map fun d => ((F.CQ_STAT_SYNC a d).lo, 1,
      match neighbour a d with
      | some n => b2n (clocksShared s a n)
      | none => s.get (F.CQ_STAT_SYNC a d))
  | .router => if off == 0x6C then
      some ((F.NI_STAT_OVER_QUOTA a).lo, 1, b2n (decide (max 1 (s.get (F.NI_OUTST_LIMIT a)) < (s.outReqs a).length))) else none
  | .caller => if off == 0x70 then some (0, 1, b2n (decide (2 ≤ sumQueued s a))) else none
  | .lead => if off == 0x70 then some (0, 1, b2n (decide (2 ≤ sumQueued s (64 + a)))) else none
  | .massifPower => if off == 0x44 then some (8, 3, if s.get (F.PWR_STAT_STATE a) == 1 then waitFor s a else 0) else none
  | .laneGroup => (regIdx off 0x104 0x20 8).map fun f => (16, 6, 63 - s.get (F.LN_TXFIR_PRE a f) - s.get (F.LN_TXFIR_POST a f))
  | .dma => (regIdx off 0x118 0x40 16).map fun c => (0, 1, b2n (dmaActive s a c))
  | _ => none

/-- Massifs `lo` to `lo + 31` that are GATED (R465). -/
def gatedMask (s : State) (lo : Nat) : Nat :=
  (List.range 32).foldl (fun acc i => acc + b2n (s.get (F.PWR_STAT_STATE (lo + i)) == 3) * 2 ^ i) 0

/-- Levels of distributor sources 32j to 32j + 31 (R316). -/
def distLevel (s : State) (j : Nat) : Nat :=
  (List.range 32).foldl (fun acc i => acc + b2n (sourceLevel s (32 * j + i)) * 2 ^ i) 0

/-- Registers that read a value of their own rather than stored fields: the word, its P bit, and what the read
does. `bad`: the queue word that SQ_GET reads fails its parity check. -/
def readSpecial (p : Page) (a off : Nat) (bad : Bool) (s : State) : Option (Word × Bool × State) :=
  let plain := fun (n : Nat) => some (BitVec.ofNat 32 n, false, s)
  let act := fun (r : Word × State) => some (r.1, false, r.2)
  match p with
  | .posGlobal => if off == 0x40 then plain s.tb.toNat else if off == 0x44 then plain (s.tb.toNat / 2 ^ 32) else none
  | .queue => (regIdx off 0x138 0x40 32).map fun q => queueGet a q bad s
  | .shelfInt => if off == 0x5C then some (BitVec.ofNat 32 (ceWord s a), false, ceRead a s) else none
  | .caller =>
    if off == 0x54 then act (dbgRead a s)
    else if off == 0x58 then some (BitVec.ofNat 32 (s.get (F.CL_DOORBELL_BITS a)), s.flag (F.CL_DOORBELL_P a), s)
    else if off == 0x78 then act (tdbgRead a s)
    else match regIdx off 0x84 4 4, regIdx off 0x400 4 32 with
      | some i, _ => plain ((match s.pos.stub.get (s.get (F.STUB_SEL_CH a)) none with
          | some b => beatBits b
          | none => 0) / 2 ^ (32 * i))
      | _, some j => plain (stubSeq s (2 * j) + 2 ^ 16 * stubSeq s (2 * j + 1))
      | _, _ => none
  | .lead =>
    if off == 0x5C then act (dbgRead (64 + a) s)
    else if off == 0x60 then some (BitVec.ofNat 32 (s.get (F.LEAD_DOORBELL_BITS a)), s.flag (F.LEAD_DOORBELL_P a), s)
    else none
  | .distributor => (regIdx off 0x100 4 48).bind fun j => plain (distLevel s j)
  | .ethernet =>
    if off == 0x140 then act (phcRead a s)
    else if off == 0x144 then plain (s.phc.get a {}).latched
    else if off == 0x148 then plain ((s.phc.get a {}).latched / 2 ^ 32)
    else none
  | .global_ =>
    if off == 0x60 then plain (gatedMask s 0) else if off == 0x64 then plain (gatedMask s 32)
    else (regIdx off 0x44 4 4).bind fun i => some (pageWord s 0 i, false, s)
  | _ => none

/-- The stored value of a register: its rows' fields at their places; a WO field reads zero. -/
def storedWord (p : Page) (a b off : Nat) (s : State) : Nat :=
  (rowsAt p b off).foldl (fun acc (r, i) =>
    if r.acc == .wo then acc else let f := r.fld a i; acc + s.get f * 2 ^ f.lo) 0

/-- A word with `w` bits from `lo` replaced. -/
def patch (v lo w x : Nat) : Nat := v - bitsOf v lo w * 2 ^ lo + (x % 2 ^ w) * 2 ^ lo

/-- The value that a read of a listed page returns, without what the read does (R457, R462). -/
def readValue (s : State) (p : Page) (a b off : Nat) : Nat :=
  if off == 0x000 then p.typ + 2 ^ 16 * a
  else if off == 0x004 then 0x100
  else if off == 0x00C then 1 + 2 * b2n (locked s b)
  else
    let v := storedWord p a b off s
    match liveField s p a off with
    | some (lo, w, x) => patch v lo w x
    | none => v

/-- R6, R222, R456: a read of the register at `addr`: STATUS, the word and its P bit. An address that is no multiple of
four reaches the register whose word it lies in (DESIGN CHOICE, log 121). -/
def readReg (addr : Nat) (bad : Bool) (s : State) : Nat × Word × Bool × State :=
  let b := 0x1000 * (addr / 0x1000)
  let off := addr % 0x1000 / 4 * 4
  match pageAt b with
  | none => (1, 0, false, s)
  | some (p, a) => match readSpecial p a off bad s with
    | some (w, pp, s1) => (0, w, pp, s1)
    | none => (0, BitVec.ofNat 32 (readValue s p a b off), false, s)

/-! ### Writes -/

/-- R462: what a write does to one field by its access type. What hardware set in the same cycle stays set, and a count
that grew in it counts on from zero; BO_DUR, which is raised to a length, keeps one of that cycle (R461). -/
def writeField (acc : Access) (f : Fld) (v : Word) (s : State) : State :=
  let x := f.of v.toNat
  match acc with
  | .ro | .wo => s
  | .rw | .rwl => s.put f x
  | .w1c => s.put f ((s.get f &&& (f.max - x)) ||| s.fresh f)
  | .w1ca => s.when (x != 0) fun t => t.put f
    (if f.rst != 0 then f.rst else if f == F.BO_DUR_US && s.grown f != 0 then s.get f else s.grown f)
  | .w1s => s.put f (s.get f ||| x)

/-- R462: a write of a register with no behaviour of its own. -/
def plainWrite (p : Page) (a b off : Nat) (v : Word) (s : State) : State :=
  (rowsAt p b off).foldl (fun t (r, i) => writeField r.acc (r.fld a i) v t) s

/-- R327, R330: a write of CL_CTL. While the massif is held for a load, its Caller stays in reset. -/
def clCtlWrite (m : Nat) (v : Word) (s : State) : State :=
  let s1 := if s.loadHold || reloading s m then s else callerRun m (v.getLsbD 0) s
  let s2 := s1.when (v.getLsbD 1) (haltRequest m)
  (s2.when (v.getLsbD 2) (stepRequest m)).when (v.getLsbD 3) (coreResume m)

/-- R331: a write of LEAD_CTL. -/
def leadCtlWrite (i : Nat) (v : Word) (s : State) : State :=
  let s1 := s.when (v.getLsbD 0) (haltRequest (64 + i))
  let s2 := (s1.when (v.getLsbD 1) (stepRequest (64 + i))).when (v.getLsbD 2) (coreResume (64 + i))
  s2.when (v.getLsbD 3) (leadRestart i)

/-- The registers whose writes act: what a write of `v` by `who` at offset `off` of the page does. -/
def writeSpecial (who : Master) (p : Page) (a b off : Nat) (v : Word) (s : State) : Option State :=
  let plain := plainWrite p a b off v s
  match p with
  | .posGlobal => if off == 0x48 then some (s.when (v.getLsbD 0) snapCapture) else none
  | .encoder => match regIdx off 0x40 0x40 16, regIdx off 0x48 0x40 16 with
    | some n, _ => some (encCtlWrite n v s)
    | _, some n => some (encPosWrite n v s)
    | _, _ => none
  | .beatChannel => match regIdx off 0x40 0x20 64, regIdx off 0x54 0x20 64 with
    | some c, _ => some (bcCtlWrite c v s)
    | _, some c => some (arg3Write c v s)
    | _, _ => none
  | .beatOutput => (regIdx off 0x40 0x10 64).map fun o => boCtlWrite o v s
  | .colQueue => (regIdx off 0x40 0x10 4).map fun f => plain.when (v.toNat / 2 ^ (F.CQ_STAT_HWCLR a f).lo % 2 == 1) (hwClr a f)
  | .feedSwitch => (regIdx off 0x40 0x10 32).map fun q => feedCtlWrite q v s
  | .sequencer => if off == 0x40 then some (seqCtlWrite a v s) else if off == 0x48 then some (seqCmdWrite a v s) else none
  | .loader => if off == 0x40 then some (ldCtlWrite a v s) else none
  | .queue =>
    match regIdx off 0x100 0x40 32, regIdx off 0x104 0x40 32, regIdx off 0x108 0x40 32, regIdx off 0x12C 0x40 32,
      regIdx off 0x134 0x40 32 with
    | some q, _, _, _, _ => some (sqCtlWrite a q v s)
    | _, some q, _, _, _ => some (sqBindWrite a q v s)
    | _, _, some q, _, _ => some (sqQuotaWrite a q v s)
    | _, _, _, some q, _ => some (sqCmdWrite a q (v.toNat % 8) s)
    | _, _, _, _, some q => some (queuePut a q v s)
    | _, _, _, _, _ => none
  | .shelf =>
    if off == 0x40 then some (s.when (v.getLsbD 0) (shelfClear a))
    else if 0x100 ≤ off && off < 0x180 && off % 0x20 < 0x14 then some (shpWrite a ((off - 0x100) / 0x20) (off % 0x20 / 4) v s)
    else none
  | .blockMem => match regIdx off 0x40 4 24 with
    | some k => some (bmCfgWrite a k v s)
    | none => if off == 0xB0 then some (bmAccess a v s) else none
  | .hbmGlobal => if off == 0x44 then some (hbmMapWrite v s) else none
  | .hbmChannel =>
    if off == 0xC0 then some ((s.load (F.HSCRUB_CTL_EN a) v).when (v.getLsbD 1) (hbmInit a))
    else (regIdx off 0x40 4 8).map fun _ => hbmRefresh a plain
  | .ridgeGlobal =>
    if off == 0x48 then some (activation v s)
    else if off == 0x40 && s.flag F.RT_ACTSTAT_BUSY then some (s.put F.RT_ACTSTAT_WR_REFUSED 1) else none
  | .router => match regIdx off 0x40 8 5 with
    | some vn => some (rgCfgWrite a vn v s)
    | none => if 0x100 ≤ off && off < 0x200 && !(rowsAt p b off).isEmpty && s.flag F.RT_ACTSTAT_BUSY then
        some (s.put F.RT_ACTSTAT_WR_REFUSED 1) else none
  | .tempoGlobal => if off == 0x44 then some (tempoRefresh plain) else none
  | .tempoPort => if off == 0x40 then some (tempoRefresh plain) else none
  | .pair => if off == 0x40 then some (pairCfgWrite v s) else if off == 0x78 then some (pairCmdWrite v s) else none
  | .checkpoint => (regIdx off 0x4C 0x10 68).map fun k => plain.when (v.getLsbD 0) (ckptPost k)
  | .caller =>
    if off == 0x40 then some (clCtlWrite a v s)
    else if off == 0x54 then some (dbgWrite a v s)
    else if off == 0x58 then some (bellClear a v s)
    else if off == 0x68 then some (plain.when (v.getLsbD (F.SUM_HDR_GO a).lo) (summitSend a))
    else if off == 0x60 then some (plainWrite p a b off (v &&& 0xFFFFFFF8) s)
    else if off == 0x78 then
      let (n, s1) := s.nextFree
      some (tdbgWrite a v (Config.freeBit n) s1)
    else none
  | .lead =>
    if off == 0x40 then some (leadCtlWrite a v s)
    else if off == 0x5C then some (dbgWrite (64 + a) v s)
    else if off == 0x60 then some (bellClear (64 + a) v s)
    else if off == 0x68 then some (plain.when (v.getLsbD (F.LEAD_SUM_HDR_GO a).lo) (summitSend (64 + a)))
    else none
  | .laneGroup =>
    if off == 0x40 then some (grpCtlWrite a v s)
    -- R358: the taps of a PCIe group are those of link equalisation.
    else (regIdx off 0x104 0x20 8).bind fun _ => if s.get (F.GRP_CTL_PROTO a) == 3 then some s else none
  | .cxpEngine =>
    if off == 0x40 then some (ccCtlWrite a v s)
    else match regIdx off 0x100 0x40 8, regIdx off 0x104 0x40 8 with
      | some j, _ => some (cxpLinkWrite a j v s)
      | _, some j => some (cxpLinewWrite a j v s)
      | _, _ => none
  | .ethernet =>
    if off == 0x40 then some (ethCtlWrite a v s)
    else if off == 0x140 then some (phcStage a 0 v s)
    else if off == 0x144 then some (phcStage a 1 v s)
    else if off == 0x148 then some (phcStage a 2 v s)
    else if off == 0x150 then some (phcStep a v s)
    else if off == 0x154 then some (s.when (v.getLsbD 0) (phcLoad a))
    else (regIdx off 0x60 0x10 4).map fun j => gvWrite a j v s
  | .smc =>
    if off == 0x40 then some (cmdWrite who (v.toNat % 256) s)
    else if off == 0x6C then some (mbxOwnWrite who v s)
    else (regIdx off 0x44 4 8).map fun i => mbxWrite who (fun t => t.load (F.ARG_VALUE i) v) s
  | .nvm => (regIdx off 0x400 4 256).map fun i => mbxWrite who (fun t => t.load (F.STAGE_VALUE i) v) s
  | .dma => match regIdx off 0x100 0x40 16, regIdx off 0x114 0x40 16 with
    | some c, _ => some (dmaCtlWrite a c v s)
    | _, some c => some (dmaTailWrite a c v s)
    | _, _ => none
  | .configuration =>
    if off == 0x4C then some (cfgRelWrite v s)
    else if off == 0x58 then some (s.when (v.getLsbD 0) releaseAtSend)
    else (regIdx off 0x800 4 512).map fun j => loadWindow j v s
  | .reset => if off == 0x40 then some (rstCtlWrite v s) else if off == 0x54 then some (rstLgWrite v s) else none
  | .power =>
    if off == 0x40 then some (restCtlWrite v s)
    else if off == 0x60 then some (boLevelWrite 0 v s)
    else if off == 0x64 then some (boLevelWrite 1 v s)
    else if off == 0x68 then some (boLevelWrite 2 v s)
    else none
  | .clock => (regIdx off 0x40 8 4).map fun k => fpllWrite k v s
  | .massifPower =>
    if off == 0x40 then some (gateWrite a (v.getLsbD 0) s)
    else if off == 0x48 then some (mrstWrite a v s)
    else if off == 0x50 then some (mclkWrite a v s)
    else none
  | .pcie => if off == 0x40 then some (pciCtlWritten a plain) else none
  | .collector | .shelfInt | .integrity | .tempoMap | .pairRegion | .l2 | .distributor | .laneRxQueue | .global_ => none

/-- A write of IRQ_FORCE (R457, R458). -/
def irqForce (b : Nat) (v : Word) (s : State) : State :=
  s.put (F.IRQ_STAT_BITS b) (s.get (F.IRQ_STAT_BITS b) ||| v.toNat)

/-- A write of LOCK (R459). -/
def lockSet (b : Nat) (v : Word) (s : State) : State := s.when (v.getLsbD 0) fun t => t.put (F.LOCK_SET b) 1

/-- R456–R462: a write of `v` by `who` at `off` of a listed page. -/
def writePage (who : Master) (p : Page) (a b off : Nat) (v : Word) (s : State) : State :=
  if off == 0x018 then irqForce b v s
  else if off == 0x02C then lockSet b v s
  else if off < 0x40 then plainWrite p a b off v s
  else (writeSpecial who p a b off v s).getD (plainWrite p a b off v s)

/-- The register holds an RWL field. -/
def hasRwl (p : Page) (b off : Nat) : Bool := (rowsAt p b off).any fun r => r.1.acc == .rwl

/-- R222, R456, R459: a write of the register at `addr`: its STATUS. The low two bits of the address are dropped
(DESIGN CHOICE, log 121). -/
def writeReg (who : Master) (addr : Nat) (v : Word) (s : State) : Nat × State :=
  let b := 0x1000 * (addr / 0x1000)
  let off := addr % 0x1000 / 4 * 4
  match pageAt b with
  | none => (1, s)
  | some (p, a) => if locked s b && hasRwl p b off then (2, s) else (0, writePage who p a b off v s)

/-! ### The meanings -/

/-- R7, R11: an access of register `addr` by master `who` that takes effect at once waits for one of its page that came
before it. -/
def accessWaits (s : State) (who : Master) (addr : Nat) : Bool :=
  match servingRouter addr with
  | some n => regsBefore s n (rankOf who) addr
  | none => false

/-- `who` is the writer's code (R390). A register with a behaviour of its own has it here too. A write before which another
access of the page comes changes nothing yet (DESIGN CHOICE, log 154). -/
def execRegisterWrite (who : Fin 72) (addr : BitVec 26) (v : Word) (s : State) : Result :=
  .next (if accessWaits s who addr.toNat then s else (writeReg who addr.toNat v s).2)
/-- `addr` is an address in the page. -/
def execLockSet (addr : BitVec 26) (s : State) : Result :=
  .next (s.when (pageAt (0x1000 * (addr.toNat / 0x1000))).isSome (lockSet (0x1000 * (addr.toNat / 0x1000)) 1))
def execIrqForce (addr : BitVec 26) (v : Word) (s : State) : Result :=
  .next (s.when (pageAt (0x1000 * (addr.toNat / 0x1000))).isSome (irqForce (0x1000 * (addr.toNat / 0x1000)) v))

end Sys2Proof.Machine
end

