-- ==== Sys2Proof/Machine/Image.lean ====
section
/-! DEFINITION. Configuration images: format (R407–R409), authentication (R412, R413), applying sections and
records (R409–R414), the image commands and the end of every long command (R391, R397, R400, R417–R424), and the
boot chain (R405). -/

namespace Sys2Proof.Machine

open Sys2Proof

/-! ### Sources (R406, R422) -/

/-- Where an image is read from: the flash, at an offset, by what it holds from there on (none: it does not answer), or
HBM at an address. -/
inductive ImgSrc where
  | flash (base : Nat) (bytes : Option (List Byte))
  | hbm (addr : Nat)

/-- What a part of an image command comes to: it waits for HBM, it ends the command with a RESULT, or it gives a value. -/
inductive ImgRes (α : Type) where
  | waits
  | failed (code : Nat)
  | got (a : α)

def ImgRes.bind {α β : Type} (x : ImgRes α × State) (f : α → State → ImgRes β × State) : ImgRes β × State :=
  match x with
  | (.waits, s) => (.waits, s)
  | (.failed k, s) => (.failed k, s)
  | (.got a, s) => f a s

/-- The SMC as a requester. -/
abbrev smcKey : Nat := 768

/-- R406: the SMC reads the flash in 8D-8D-8D where XMODE = 0 and the flash declares it, and otherwise in 1S-1S-1S. -/
def flashOctal (s : State) : Bool := !s.flag F.BOOT_CFG_XMODE && Config.flash8D

/-- Bytes `off` to `off + n − 1` of an image; a source that fails gives SOURCE_FAIL (R422). -/
def srcRead (src : ImgSrc) (off n : Nat) (s : State) : ImgRes (List Byte) × State :=
  match src with
  | .flash base o =>
    let s1 := s.emit (.flashRead (flashOctal s) (base + off))
    match o with
    | some l => (if off + n ≤ l.length then .got ((l.drop off).take n) else .failed 13, s1)
    | none => (.failed 13, s1)
  | .hbm a =>
    if n == 0 then (.got [], s)
    else if 2 ^ 35 < a + off + n then (.failed 13, s)
    else match wireAsk smcKey (readRequests s none smcRouter 2 (a + off) n) s with
      | (none, s1) => (.waits, s1)
      | (some rs, s1) =>
        (if rs.any (fun r => r.status != 0 || r.bytes.any (·.2)) then .failed 13
         else .got (rs.flatMap fun r => r.bytes.map (·.1)), s1)

/-! ### Header (R407, R409) -/

def zeroAt (h : List Byte) (lo n : Nat) : Bool := ((h.drop lo).take n).all (· == 0)

def hdrLen (h : List Byte) : Nat := leField h 8 4
def hdrSects (h : List Byte) : Nat := leField h 0xC 4
def hdrVersion (h : List Byte) : Nat := leField h 0x18 8
def hdrSigOff (h : List Byte) : Nat := leField h 0x30 8

/-- R407, R413 check 1: the fixed part of a header; `kind` 0 configuration image, 1 firmware container. -/
def fixedOk (kind : Nat) (h : List Byte) : Bool :=
  leField h 0 4 == 0x1640C0F6 && leField h 4 1 == 1 && leField h 5 1 == kind
    && decide (1 ≤ hdrSects h) && decide (hdrSects h ≤ 255) && hdrLen h == 256 + 80 * hdrSects h
    && leField h 0x20 2 == 0x1640 && leField h 0x22 1 == 0xB1
    && (leField h 0x23 1).testBit (if Config.grade2 then 1 else 0)
    && decide (leField h 0x28 1 < 4) && decide (leField h 0x29 1 < 4)
    && hdrSigOff h % 64 == 0 && hdrSigOff h + 4096 == leField h 0x10 8
    && zeroAt h 6 2 && zeroAt h 0x24 4 && zeroAt h 0x2A 6 && zeroAt h 0x38 0xC8

/-- An entry of the section table. -/
structure Sect where
  typ : Nat
  target : Nat
  off : Nat
  len : Nat
  digest : List Byte

def sectAt (h : List Byte) (i : Nat) : Sect :=
  let b := 0x100 + 80 * i
  ⟨leField h b 1, leField h (b + 2) 2, leField h (b + 8) 8, leField h (b + 0x10) 8, (h.drop (b + 0x18)).take 48⟩

def sectsOf (h : List Byte) : List Sect := (List.range (hdrSects h)).map (sectAt h)

/-- R407: the table's entries lie right. -/
def placesOk (h : List Byte) : Bool :=
  let l := sectsOf h
  ((List.range l.length).zip l).all fun (i, x) =>
    zeroAt h (0x101 + 80 * i) 1 && zeroAt h (0x104 + 80 * i) 4 && zeroAt h (0x148 + 80 * i) 8
      && x.off % 64 == 0 && x.len % 4 == 0 && decide (hdrLen h ≤ x.off) && decide (x.off + x.len ≤ hdrSigOff h)
      && (l.take i).all fun y => decide (x.off + x.len ≤ y.off) || decide (y.off + y.len ≤ x.off)

/-- R409: types ascend, MASSIF sections by TARGET; no type but MASSIF comes twice. -/
def sectOrder : List Sect → Bool
  | x :: y :: l =>
    (decide (x.typ < y.typ) || (x.typ == 4 && y.typ == 4 && decide (x.target < y.target))) && sectOrder (y :: l)
  | _ => true

/-- R409: the table of a configuration image. -/
def tableOk (h : List Byte) : Bool :=
  placesOk h && sectOrder (sectsOf h)
    && (sectsOf h).all fun x => decide (1 ≤ x.typ) && decide (x.typ ≤ 6) && (if x.typ == 4 then decide (x.target < 64) else x.target == 0)

/-! ### Signatures (R408, R413) -/

/-- The 48 bytes and the 12 words of a digest. -/
def digestBytes (d : BitVec 384) : List Byte := (List.range 48).map fun i => (d >>> (8 * i)).truncate 8
def digestWords (d : BitVec 384) : List Word := (List.range 12).map fun i => (d >>> (32 * i)).truncate 32

def sigEcdsaKey (b : List Byte) : List Byte := (b.drop 8).take 97
def sigEcdsa (b : List Byte) : List Byte := (b.drop 0x70).take 96
def sigLmsKey (b : List Byte) : List Byte := (b.drop 0xD0).take 56
def sigLms (b : List Byte) : List Byte := (b.drop 0x108).take 2668

/-- R407, R408: the bytes of a signature block that no field covers are zero. A block that breaks this is BAD_IMAGE, found
where it is read (DESIGN CHOICE, log 156). -/
def sigBlockOk (b : List Byte) : Bool := zeroAt b 4 4 && zeroAt b 0x69 7 && zeroAt b 0xB74 0x48C

/-- R413 check 4: both signatures verify over the image digest. -/
def sigsOk (b : List Byte) (d : BitVec 384) : Bool :=
  leField b 0 4 == 0x5EB10C4A && Config.ecdsaVerify (sigEcdsaKey b) (sigEcdsa b) d
    && Config.lmsVerify (sigLmsKey b) (sigLms b) d

/-- R413 check 3: slot `slot` of a kind holds the key's hash and is not revoked. -/
def keyAccepted (s : State) (kind slot : Nat) (key : List Byte) : Bool :=
  keyFilled s kind slot && !keyRevoked s kind slot && keyHash s kind slot == digestBytes (Config.sha384 key)

/-! ### Authentication (R413) -/

/-- R407, R409, R413 check 1: reads and checks the header. -/
def readHeader (src : ImgSrc) (s : State) : ImgRes (List Byte) × State :=
  ImgRes.bind (srcRead src 0 256 s) fun h0 s1 =>
    if !fixedOk 0 h0 then (.failed 8, s1)
    else ImgRes.bind (srcRead src 0 (hdrLen h0) s1) fun h s2 =>
      (if fixedOk 0 h && tableOk h && hdrLen h == hdrLen h0 then .got h else .failed 8, s2)

/-- What a header says of its image (R408). -/
def infoOf (h : List Byte) : ImgInfo :=
  ⟨BitVec.ofNat 64 (hdrVersion h), digestWords (Config.sha384 h), leField h 0x28 1, leField h 0x29 1⟩

/-- R413 checks 2 to 4. -/
def checkSigned (src : ImgSrc) (h : List Byte) (s : State) : ImgRes (ImgInfo × List Byte) × State :=
  if hdrVersion h < s.get2 F.ROLLBACK_LO_VALUE F.ROLLBACK_HI_VALUE then (.failed 11, s)
  else ImgRes.bind (srcRead src (hdrSigOff h) 4096 s) fun b s1 =>
    let i := infoOf h
    if !sigBlockOk b then (.failed 8, s1)
    else if !keyAccepted s 0 i.eslot (sigEcdsaKey b) || !keyAccepted s 1 i.lslot (sigLmsKey b) then (.failed 10, s1)
    else if !sigsOk b (Config.sha384 h) then (.failed 9, s1)
    else (.got (i, h), s1)

/-- R413 checks 1 to 4. -/
def authImage (src : ImgSrc) (s : State) : ImgRes (ImgInfo × List Byte) × State :=
  ImgRes.bind (readHeader src s) (checkSigned src)

/-- R413 check 5 of one section's bytes. -/
def digestOk (x : Sect) (b : List Byte) : Bool := x.digest == digestBytes (Config.sha384 b)

/-- R413 check 5 over the whole table, nothing applied. -/
def digestsOk (src : ImgSrc) : List Sect → State → ImgRes Unit × State
  | [], s => (.got (), s)
  | x :: l, s => ImgRes.bind (srcRead src x.off x.len s) fun b s1 =>
    if digestOk x b then digestsOk src l s1 else (.failed 12, s1)

/-! ### Records (R409, R410) -/

/-- The records of a section; none when one overruns it. -/
def recordsOf : Nat → List Byte → Option (List Rec)
  | _, [] => some []
  | 0, _ :: _ => none
  | n + 1, b =>
    let len := leField b 4 4
    if b.length < 16 || b.length < 16 + len then none
    else (recordsOf n (b.drop (16 + ceilDiv len 4 * 4))).map
      (⟨leField b 0 2, leField b 2 2, leField b 8 8, (b.drop 16).take len⟩ :: ·)

/-- R409: record types that a section type allows. -/
def recordsAllowed (typ : Nat) : List Nat :=
  match typ with
  | 1 => [1, 2]
  | 2 | 3 => [1]
  | 4 => [1, 2, 3, 4, 5, 6]
  | 5 => [2, 7]
  | _ => [8]

/-- R409: the page belongs to a section of that type and target. -/
def pageAllowed (typ target : Nat) (p : Page) (a : Nat) : Bool :=
  match p with
  | .integrity | .distributor | .power | .clock | .hbmChannel | .hbmGlobal | .collector => typ == 1
  | .ridgeGlobal | .router => typ == 2
  | .laneGroup | .laneRxQueue | .cxpEngine | .ethernet | .pcie | .dma | .feedSwitch | .posGlobal | .encoder
  | .beatChannel | .beatOutput | .tempoGlobal | .tempoPort | .tempoMap => typ == 3
  | .sequencer | .loader | .queue | .shelf | .blockMem | .shelfInt | .caller | .massifPower | .colQueue =>
    typ == 4 && a == target
  | .lead | .l2 | .pair | .pairRegion | .checkpoint => typ == 5
  | .global_ | .reset | .smc | .nvm | .configuration => false

/-- A load under way: the state, and how far it has got. -/
structure LoadAcc where
  s : State
  g : LoadProg := {}

/-- A load goes on, fails with a RESULT, or waits for answers of the network (R228, R500). -/
inductive Loading where
  | going (a : LoadAcc)
  | failed (code : Nat) (s : State)
  | waits (a : LoadAcc)

def Loading.bind (x : Loading) (f : LoadAcc → Loading) : Loading :=
  match x with
  | .going a => f a
  | .failed k s => .failed k s
  | .waits a => .waits a

/-- SECTION_FAULT. -/
def sectionFault (s : State) : Loading := .failed 14 s

/-- The SMC has the answers of one access of a load, and begins the next: `l` are the records still to apply. -/
def LoadAcc.next (a : LoadAcc) (l : List Rec) (s : State) : Loading :=
  .going { s := wireEnd smcKey s, g := { a.g with recs := l } }

/-- The SMC makes requests and goes on once they have been answered without an error; any error is a section fault
(DESIGN CHOICE, log 155, as far as it is a TIMEOUT). -/
def smcAsk (a : LoadAcc) (ps : List Packet) (s : State) (f : List VnReply → State → Loading) : Loading :=
  match wireAsk smcKey ps s with
  | (none, s1) => .waits { a with s := s1 }
  | (some rs, s1) => if rs.any (fun r => r.status != 0) then sectionFault s1 else f rs s1

/-- A register access of the SMC (R222, R498). -/
def smcReg (typ addr : Nat) (v : Word) : Packet :=
  { dst := (servingRouter addr).getD 0, dport := 3, src := smcRouter, sport := 2, vn := 1, typ := typ, addr := addr, word := v }

/-- R395, R409, R498: the first OFFSET, MASK, VALUE of a REG record: a REG_RD, then a REG_WR. -/
def applyReg (typ target : Nat) (r : Rec) (l : List Rec) (a : LoadAcc) : Loading :=
  let addr := leField r.payload 0 4
  let base := 0x1000 * (addr / 0x1000)
  let mask : Word := BitVec.ofNat 32 (leField r.payload 4 4)
  let value : Word := BitVec.ofNat 32 (leField r.payload 8 4)
  match pageAt base with
  | none => sectionFault a.s
  | some (p, i) =>
    if !pageAllowed typ target p i then sectionFault a.s
    else smcAsk a [smcReg 2 addr 0] a.s fun rs s1 =>
      let old := ((rs.head?).map (·.word)).getD 0
      smcAsk a [smcReg 3 addr ((old &&& ~~~mask) ||| (value &&& mask))] s1 fun _ s2 =>
        a.next ({ r with payload := r.payload.drop 12 } :: l) s2

/-- R409: bytes written to a DEST, by MEM_WR; a DEST out of range is a section fault. -/
def applyData (typ target : Nat) (r : Rec) (l : List Rec) (a : LoadAcc) : Loading :=
  let n := r.payload.length
  let data := r.payload.map fun b => (b, false)
  let put := fun (m : Option Nat) (addr : Nat) =>
    if n == 0 then a.next l a.s
    else smcAsk a (writeRequests a.s m smcRouter 2 addr data) a.s fun _ s1 => a.next l s1
  if r.dest.testBit 63 then
    if 2 ^ 35 < r.dest % 2 ^ 35 + n then sectionFault a.s else put none (r.dest % 2 ^ 35)
  else if typ != 4 || decide (2 ^ 20 < r.dest + n) then sectionFault a.s
  else put (some target) r.dest

/-- R410: a figure fed through the loader's checks, whose bytes are then written to its DEST; a fault leaves its code in
LD_STAT. -/
def applyFigure (m : Nat) (r : Rec) (l : List Rec) (a : LoadAcc) : Loading :=
  let hbm := r.dest.testBit 63
  let addr := r.dest % 2 ^ 35
  let i := r.index
  if 15 < i || r.payload.length != 10304 then sectionFault a.s
  else if addr % 64 != 0 || decide ((if hbm then 2 ^ 35 else 2 ^ 20) < addr + 10304) then sectionFault (figureFault m 7 none a.s)
  else match entryCheck a.s m (r.payload.map fun b => (b, false)) with
    | .inl (c, t) => sectionFault (figureFault m c t (scrambleSlot m i (slotInvalid m i a.s)))
    | .inr bytes =>
      a.next ({ r with typ := 2 } :: l)
        (((slotLoaded m i hbm addr bytes a.s).put (F.LD_STAT_DONE m) 1).irq (ldPage m) 0)

/-- The STEPS record. -/
def applySteps (m : Nat) (b : List Byte) (l : List Rec) (a : LoadAcc) : Loading :=
  if b.length != 516 then sectionFault a.s
  else
    let s1 := a.s.each 64 fun i t =>
      (t.put (F.STEP_LO_VALUE m i) (leField b (8 * i) 4)).put (F.STEP_HI_VALUE m i) (leField b (8 * i + 4) 4)
    let v : Word := BitVec.ofNat 32 (leField b 512 4)
    let s2 := ((s1.put (F.SEQ_CTL_INIT_STEP m) (bitsOf v.toNat 4 6)).put (F.SEQ_CTL_INIT_SLOT m) (bitsOf v.toNat 10 4)).putB
      (F.SEQ_CTL_PARITY_ACT m) (v.getLsbD 14)
    .going { s := s2, g := { a.g with recs := l, runs := if v.getLsbD 0 then m :: a.g.runs else a.g.runs } }

/-- The BMINIT record of memory `k`. -/
def applyBm (m k : Nat) (b : List Byte) (l : List Rec) (a : LoadAcc) : Loading :=
  if 23 < k || b.length != 9216 then sectionFault a.s
  else a.next l (a.s.each 1024 fun r t => t.setBmRow m k r (BitVec.ofNat 72 (leField b (9 * r) 9)))

/-- The CALLERFW record; bytes of a last incomplete word that it does not give are zero. -/
def applyFw (m index : Nat) (b : List Byte) (l : List Rec) (a : LoadAcc) : Loading :=
  if 65536 < b.length then sectionFault a.s
  else
    let s1 := a.s.each (ceilDiv b.length 4) fun w t => setRamCell m w (ramStored (BitVec.ofNat 32 (leField b (4 * w) 4)) false) t
    .going { s := s1, g := { a.g with recs := l, callers := if index % 2 == 1 then m :: a.g.callers else a.g.callers } }

/-- The BOOT record of Lead Caller `i` (R411). -/
def applyBoot (i : Nat) (b : List Byte) (l : List Rec) (a : LoadAcc) : Loading :=
  if 3 < i || b.length != 8 then sectionFault a.s
  else
    let s1 := (a.s.put (F.LEAD_BOOT_PC i) (leField b 0 4)).put (F.LEAD_BOOT_HBM i) (leField b 4 1)
    .going { s := s1, g := { a.g with recs := l, starts := if leField b 5 1 == 1 then i :: a.g.starts else a.g.starts } }

/-- The KEY record waits for the end of the load (R414). -/
def applyKey (b : List Byte) (l : List Rec) (a : LoadAcc) : Loading :=
  let kind := leField b 0 1
  let slot := leField b 1 1
  if b.length != 52 || 1 < kind || 3 < slot then sectionFault a.s
  else .going { a with g := { a.g with recs := l, keys := a.g.keys ++ [(kind, slot, b.drop 4)] } }

/-- The record `r` before the records `l`, or the first part of it that one access applies. -/
def applyRec (typ target : Nat) (r : Rec) (l : List Rec) (a : LoadAcc) : Loading :=
  match r.typ with
  | 1 =>
    if r.payload.length % 12 != 0 then sectionFault a.s
    else if r.payload.isEmpty then a.next l a.s
    else applyReg typ target r l a
  | 2 => applyData typ target r l a
  | 3 => applyFigure target r l a
  | 4 => applySteps target r.payload l a
  | 5 => applyBm target r.index r.payload l a
  | 6 => applyFw target r.index r.payload l a
  | 7 => applyBoot r.index r.payload l a
  | _ => applyKey r.payload l a

/-- The records that are left, in order, in at most `n` parts. -/
def applyRecs (typ target : Nat) : Nat → LoadAcc → Loading
  | 0, a => .waits a
  | n + 1, a => match a.g.recs with
    | [] => .going a
    | r :: l => (applyRec typ target r l a).bind (applyRecs typ target n)

/-- More parts than the records `l` have. -/
def recParts (l : List Rec) : Nat := l.foldl (fun n r => n + r.payload.length + 2) 1

/-- R410: the records of a MASSIF section grouped by kind. -/
def massifOrder (l : List Rec) : List Rec := [1, 2, 5, 3, 4, 6].flatMap fun k => l.filter fun r => r.typ == k

/-- R228, R411: the activation that ends a RIDGE section. `abort`: its drain limit has passed. -/
def applyActivation (abort : Bool) (a : LoadAcc) : Loading :=
  if !a.g.acting then
    if a.s.flag F.RT_ACTSTAT_BUSY then .waits a
    else
      let s1 := activation 0x10F a.s
      if !s1.flag F.RT_ACTSTAT_BUSY then sectionFault s1
      else if drained s1 then .going { a with s := activationSwap s1 }
      else .waits { s := s1, g := { a.g with acting := true } }
  else match a.s.ridge.acted with
    | some true => .going a
    | some false => sectionFault a.s
    | none => if abort then sectionFault (activationAbort a.s) else .waits a

/-- R409: the present section is read, and its records are set out. -/
def fetchSection (src : ImgSrc) (x : Sect) (a : LoadAcc) : Loading :=
  if a.g.fetched.isSome then .going a
  else match srcRead src x.off x.len a.s with
    | (.waits, s1) => .waits { a with s := s1 }
    | (.failed k, s1) => .failed k s1
    | (.got b, s1) => match recordsOf (x.len / 4) b with
      | none => sectionFault s1
      | some l =>
        if !l.all (fun r => (recordsAllowed x.typ).contains r.typ) then sectionFault s1
        else .going { s := wireEnd smcKey s1,
                      g := { a.g with fetched := some (digestOk x b), recs := if x.typ == 4 then massifOrder l else l } }

/-- R409–R411: one section is applied, and its digest checked. -/
def applySection (src : ImgSrc) (abort : Bool) (x : Sect) (a : LoadAcc) : Loading :=
  (fetchSection src x a).bind fun a1 => (applyRecs x.typ x.target (recParts a1.g.recs) a1).bind fun a2 =>
    (if x.typ == 2 then applyActivation abort a2 else .going a2).bind fun a3 =>
      if a3.g.fetched == some true then
        .going { a3 with g := { a3.g with sect := a3.g.sect + 1, fetched := none, acting := false } }
      else .failed 12 a3.s

/-- Sections in table order; a failure is recorded with its index. -/
def applySections (src : ImgSrc) (abort : Bool) : List (Nat × Sect) → LoadAcc → Loading
  | [], a => .going a
  | (i, x) :: l, a => match applySection src abort x a with
    | .going a1 => applySections src abort l a1
    | .failed k s1 => .failed k (s1.put F.CFG_STAT_SECT i)
    | .waits a1 => .waits a1

/-- R414: the KEY records; a record of a filled slot is skipped and counted. -/
def applyKeys (crcOk : Bool) (l : List (Nat × Nat × List Byte)) (s : State) : Option State :=
  l.foldl (fun o (kind, slot, hash) => o.bind fun t =>
    if keyFilled t kind slot then some (t.count F.CFG_STAT_KEYSKIP 1)
    else if crcOk then some (keyWrite kind slot hash true t)
    else none) (some s)

/-! ### The image commands (R417, R421, R422) -/

/-- ARG1: the source; ARG2 and ARG3: the address (R422). -/
def srcArg (r : SmcRun) : Nat := (r.args.getD 1 0).toNat
def srcAddr (r : SmcRun) : Nat := (r.args.getD 2 0).toNat + 2 ^ 32 * ((r.args.getD 3 0).toNat % 8)

def sourceOf (r : SmcRun) (flash : Option (List Byte)) : ImgSrc :=
  if srcArg r == 0 then .flash (srcAddr r) flash else .hbm (srcAddr r)

/-- R418, R422: what settles an image command before anything is read. -/
def refuseImage (r : SmcRun) (s : State) : Option Nat :=
  if r.code != 0x10 && armed s then some 6
  else if 1 < srcArg r || srcAddr r % 64 != 0 then some 2
  else if srcArg r == 1 && !s.flag F.HBM_CTL_EN then some 6
  else none

/-- An image command can start to read: what was written to its HBM source through the load window has been acknowledged,
and no warm reset is in progress, which would discard the load (R434). -/
def sourceReady (r : SmcRun) (s : State) : Bool :=
  s.power.warmPhase == 0 && (srcArg r == 0 || s.host.winWait.isEmpty && (s.outReqs smcRouter).all fun q => q.owner != .endpoint 2)

def setRun (r : SmcRun) (s : State) : State := setHost (fun h => { h with smc := some r }) s

/-- R413, R416, R417: the authentication step of a running IMAGE_LOAD; an image that passes checks 1 to 4 puts the
device into the load hold. -/
def loadAuth (flash : Option (List Byte)) (s : State) : State :=
  match s.host.smc with
  | some r =>
    if r.code != 0x11 || r.authed.isSome || r.settled.isSome then s
    else match refuseImage r s with
      | some k => setRun { r with settled := some k } s
      | none =>
        if !sourceReady r s then s
        else match authImage (sourceOf r flash) (wireRewind smcKey s) with
          | (.waits, s1) => s1
          | (.failed k, s1) => setRun { r with settled := some k } s1
          | (.got x, s1) => enterLoadHold (setRun { r with authed := some x } (wireEnd smcKey s1))
  | none => s

/-- R391, R405: the SMC issues IMAGE_LOAD to itself from flash at `mib` MiB. -/
def bootLoad (slot mib : Nat) (s : State) : State :=
  let addr := 2 ^ 20 * mib
  let s1 := ((s.put F.CMD_CODE 0x11).put (F.ARG_VALUE 1) 0).put (F.ARG_VALUE 2) addr |>.put (F.ARG_VALUE 3) 0
  setLoads (fun l => { l with bootSlot := slot }) (smcStart { code := 0x11, self := true, args := args s1 } s1)

/-- R391, R392, R405, R425: the running command ends with `result`. -/
def endRun (r : SmcRun) (result : Nat) (s : State) : State :=
  if r.self && r.code == 0x03 then selfEnd s
  else
    let s1 := smcEnd result (wireEnd smcKey s)
    if r.code < 0x10 || 0x12 < r.code then s1
    else
      let s2 := (s1.put F.CFG_STAT_CODE result).irq cfgPage 0
      if !r.self then s2.when (r.code == 0x11 && result == 0) fun t => t.put F.BOOT_STAT_SLOT 3
      else if result == 0 then setLoads (fun l => { l with bootSlot := 0 }) (s2.put F.BOOT_STAT_SLOT s.host.loads.bootSlot)
      else if s.host.loads.bootSlot == 1 then bootLoad 2 (s2.get F.BOOT_CFG_OFFB) s2
      else setLoads (fun l => { l with bootSlot := 0 }) s2

/-- R398, R414: KEY records wait to be written while a brownout warning lasts. -/
def keysWait (a : LoadAcc) : Bool := !a.g.keys.isEmpty && a.s.flag F.BO_STAT_WARN

/-- R417, R418: the sections of an authenticated image are applied, and the load ends. -/
def loadApply (r : SmcRun) (x : ImgInfo × List Byte) (flash : Option (List Byte)) (crcOk abort : Bool) (s : State) : State :=
  let fail := fun (k : Nat) (t : State) => endRun r k (t.put F.CFG_STAT_STATE 4)
  let l := sectsOf x.2
  match applySections (sourceOf r flash) abort (((List.range l.length).zip l).drop r.prog.sect)
      { s := wireRewind smcKey s, g := r.prog } with
  | .waits a => setRun { r with prog := a.g } a.s
  | .failed k s1 => fail k s1
  | .going a =>
    if keysWait a then setRun { r with prog := a.g } (a.s.put F.NVM_STAT_SUSPENDED 1)
    else match applyKeys crcOk a.g.keys a.s with
    | none => fail 4 a.s
    | some s1 =>
      let staged : Staged := { info := x.1, runs := a.g.runs, callers := a.g.callers, starts := a.g.starts }
      endRun r 0 (loadComplete (setLoads (fun q => { q with staged := some staged }) s1))

/-- R421: the massif and the section that a MASSIF_RELOAD names. -/
def reloadMassif (r : SmcRun) : Nat := (r.args.getD 0 0).toNat % 64
def reloadSect (r : SmcRun) : Nat := (r.args.getD 4 0).toNat

/-- R421: the header of a MASSIF_RELOAD is read and checked, its signatures where it is not that of the last release. -/
def reloadAuth (r : SmcRun) (src : ImgSrc) (s : State) : ImgRes (ImgInfo × List Byte) × State :=
  ImgRes.bind (readHeader src s) fun h s1 =>
    let x := sectAt h (reloadSect r)
    if hdrSects h ≤ reloadSect r || x.typ != 4 || x.target != reloadMassif r then (.failed 2, s1)
    else if (infoOf h).digest == (List.range 12).map fun i => BitVec.ofNat 32 (s.get (F.CFG_DIGEST_VALUE i)) then (.got (infoOf h, h), s1)
    else checkSigned src h s1

/-- R421: the section of a MASSIF_RELOAD is applied to its massif, which is held; a failure leaves it held. -/
def reloadApply (r : SmcRun) (x : ImgInfo × List Byte) (flash : Option (List Byte)) (abort : Bool) (s : State) : State :=
  match applySection (sourceOf r flash) abort (sectAt x.2 (reloadSect r)) { s := wireRewind smcKey s, g := r.prog } with
  | .waits a => setRun { r with prog := a.g } a.s
  | .failed c s1 => endRun r c (s1.put F.CFG_STAT_SECT (reloadSect r))
  | .going a =>
    let staged : Staged := { info := x.1, massif := some (reloadMassif r), runs := a.g.runs, callers := a.g.callers }
    endRun r 0 (loadComplete (setLoads (fun q => { q with staged := some staged }) a.s))

/-- R421: a MASSIF_RELOAD. Once its checks have passed, the steps of R124 begin. -/
def reloadRun (r : SmcRun) (flash : Option (List Byte)) (abort : Bool) (s : State) : State :=
  match reloadAuth r (sourceOf r flash) (wireRewind smcKey s) with
  | (.waits, s1) => s1
  | (.failed c, s1) => endRun r c s1
  | (.got x, s1) =>
    let r1 := { r with authed := some x }
    reloadApply r1 x flash abort (reloadHold (reloadMassif r) (setRun r1 (wireEnd smcKey s1)))

/-- R422: IMAGE_AUTH. -/
def authApply (r : SmcRun) (flash : Option (List Byte)) (s : State) : State :=
  let src := sourceOf r flash
  match ImgRes.bind (authImage src (wireRewind smcKey s)) fun x s1 =>
      ImgRes.bind (digestsOk src (sectsOf x.2) s1) fun _ s2 => (.got x.1, s2) with
  | (.waits, s1) => s1
  | (.failed k, s1) => endRun r k s1
  | (.got i, s1) =>
    let s2 := s1.put2 (F.ARG_VALUE 0) (F.ARG_VALUE 1) i.version.toNat
    endRun r 0 (s2.each 12 fun j t => t.put (F.STAGE_VALUE j) (i.digest.getD j 0).toNat)

/-! ### The other commands (R397, R400, R424) -/

/-- R397: SETTINGS_READ. -/
def settingsRead (r : SmcRun) (s : State) : Nat × State :=
  let page := (r.args.getD 0 0).toNat
  if 4096 ≤ page then (2, s)
  else
    let s1 := (noteLost page s).each 256 fun i t => t.put (F.STAGE_VALUE i) (pageWord s page i).toNat
    let (g, w) := match currentCopy s page with
      | some c => ((nvmCopy s page c).gen, (nvmCopy s page c).writes)
      | none => (0, 0)
    (0, (s1.put (F.ARG_VALUE 1) g).put (F.ARG_VALUE 2) w)

/-- The reload log as eight entries of 16 words, newest first (R424). -/
def logWords (s : State) : List Word :=
  (List.range 8).flatMap fun i => match s.host.loads.log[i]? with
    | some (m, tb, d) => [BitVec.ofNat 32 m, tb, 0, 0] ++ (List.range 12).map fun j => d.getD j 0
    | none => List.replicate 16 0

/-- R424: the attestation report without its signature: 162 words. -/
def attestBody (r : SmcRun) (s : State) : List Word :=
  let w := fun (f : Fld) => (BitVec.ofNat 32 (s.get f) : Word)
  [0x1640A770, 744] ++ (List.range 8).map (fun i => r.args.getD i 0) ++ (List.range 4).map (pageWord s 0)
    ++ [s.tb.truncate 32, BitVec.ofNat 32 (s.tb.toNat / 2 ^ 32)]
    ++ (List.range 12).map (fun i => w (F.CFG_DIGEST_VALUE i))
    ++ [w F.CFG_VERSION_LO_VALUE, w F.CFG_VERSION_HI_VALUE, w F.ROLLBACK_LO_VALUE, w F.ROLLBACK_HI_VALUE]
    ++ [BitVec.ofNat 32 (readValue s .configuration 0 cfgPage 0x070), w F.CFG_RELOADCNT_VALUE] ++ logWords s

def attestWords (r : SmcRun) (s : State) : List Word :=
  let body := attestBody r s
  body ++ (List.range 24).map (Config.deviceSign (Config.sha384 (wordBytes body)))

/-- R424: ATTEST. -/
def attest (r : SmcRun) (s : State) : State :=
  ((List.range 186).zip (attestWords r s)).foldl (fun t e => t.put (F.STAGE_VALUE e.1) e.2.toNat) (noteLost 0 s)

/-- R400: ZEROISE; the cold reset reports no completion. -/
def zeroise (s : State) : State :=
  coldReset 6 (setHost (fun h => { h with smc := none }) (zeroisePages 4080 s))

/-- R398: the command writes the settings store, and a brownout has suspended it. -/
def runSuspended (r : SmcRun) (s : State) : Bool :=
  s.flag F.NVM_STAT_SUSPENDED && [0x02, 0x03, 0x1C, 0x1D, 0x3F].contains r.code

/-- An image command that has been neither settled nor refused reads its source. -/
def imageRun (r : SmcRun) (act : State → State) (s : State) : State :=
  match refuseImage r s with
  | some k => endRun r k s
  | none => s.when (sourceReady r s) act

/-- R391: the running command ends. `flash`: what the flash holds from the image address on. `crcOk`: pages read
back with a matching CRC. `abort`: the drain limit of a RIDGE section's activation passes. -/
def commandComplete (flash : Option (List Byte)) (crcOk abort : Bool) (s : State) : State :=
  let s0 := loadAuth flash s
  match s0.host.smc with
  | none => s
  | some r =>
    let pair := fun (e : Nat × State) => endRun r e.1 e.2
    if runSuspended r s then s
    else match r.settled with
      | some k => endRun r k s0
      | none => match r.code with
        | 0x01 => pair (settingsRead r s)
        | 0x02 => pair (storeEffect r crcOk s)
        | 0x03 => pair (commitEffect r crcOk s)
        | 0x10 => imageRun r (authApply r flash) s
        | 0x11 => match r.authed with
          | some x => loadApply r x flash crcOk abort s0
          | none => s0
        | 0x12 => match r.authed with
          | some x => reloadApply r x flash abort s
          | none => imageRun r (reloadRun r flash abort) s
        | 0x18 => endRun r 0 (attest r s)
        | 0x1C => pair (revokeEffect r crcOk s)
        | 0x1D => pair (rollbackEffect r crcOk s)
        | 0x3F => if r.args.getD 0 0 == zeroiseKey then zeroise s else endRun r 2 s
        | _ => endRun r 1 s

/-! ### The boot chain (R405) -/

/-- R405, step 1: the ROM accepts a container that the flash holds from offset 0. -/
def containerOk (c : List Byte) : Bool :=
  let h := c.take (hdrLen c)
  let b := (c.drop (hdrSigOff c)).take 4096
  fixedOk 1 (c.take 256) && decide (hdrLen c ≤ c.length) && placesOk h && decide (hdrSigOff c + 4096 ≤ c.length)
    && Config.romKey 0 (Config.sha384 (sigEcdsaKey b)) && Config.romKey 1 (Config.sha384 (sigLmsKey b))
    && sigBlockOk b && sigsOk b (Config.sha384 h) && decide (Config.romVersion.toNat ≤ hdrVersion h)
    && (sectsOf h).all fun x => digestOk x ((c.drop x.off).take x.len)

/-- R395: one settings record. -/
def settingsRecord (o m v : Word) (s : State) : State :=
  let addr := o.toNat
  let b := 0x1000 * (addr / 0x1000)
  let off := addr % 0x1000
  let skip := s.count F.NVM_STAT_SKIPPED 1
  match pageAt b with
  | none => skip
  | some (p, a) =>
    let rows := rowsAt p b off
    let x := ((BitVec.ofNat 32 (readValue s p a b off) : Word) &&& ~~~m) ||| (v &&& m)
    if addr % 4 != 0 || rows.isEmpty then skip
    -- R253: TMP_ID is read-only, and loaded from the settings store.
    else if addr == 0x00104040 then s.load F.TMP_ID_ID x
    else if rows.all (fun r => r.1.acc == .ro) then skip
    else
      let s1 := (writeReg 0 addr x s).2
      -- R442: a brownout level out of its limits is skipped.
      if [powerPage + 0x60, powerPage + 0x64, powerPage + 0x68].contains addr && s1.flag F.BO_STAT_CFG_REFUSED
        && !s.flag F.BO_STAT_CFG_REFUSED then skip else s1

/-- R395: the records of the list, until its end. -/
def settingsRecords : List (Word × Word × Word) → State → State
  | [], s => s
  | (o, m, v) :: l, s => if o == 0xFFFFFFFF then s else settingsRecords l (settingsRecord o m v s)

/-- The records of pages 16 to 31, 85 to a page. -/
def settingsList (s : State) : List (Word × Word × Word) :=
  (List.range 16).flatMap fun p => (List.range 85).map fun r =>
    (pageWord s (16 + p) (3 * r), pageWord s (16 + p) (3 * r + 1), pageWord s (16 + p) (3 * r + 2))

/-- Settings pages that the boot chain reads. -/
def bootPages : List Nat := [4, 5, 6, 8] ++ (List.range 16).map (16 + ·)

/-- R405: the boot chain. `container`: what the flash holds from offset 0; none when it does not answer. -/
def boot (container : Option (List Byte)) (s : State) : State :=
  if !s.host.loads.bootDue || s.power.off then s
  else
    let s0 := (setLoads (fun l => { l with bootDue := false }) s).emit (.flashRead (flashOctal s) 0)
    let s1 := s0.putB F.BOOT_STAT_SMCFW ((container.map containerOk).getD false)
    let s2 := loadKeyStat (fitSpares (bootPages.foldl (fun t p => noteLost p t) s1))
    let s3 := ((settingsRecords (settingsList s2) s2).each 2 (pcieConfigure (settingsList s2))).put F.CMD_STAT_READY 1
    let s4 := mgmtPump 64 s3
    s4.when (s4.flag F.BOOT_CFG_AUTO) (bootLoad 1 (s4.get F.BOOT_CFG_OFFA))

/-! ### The meanings -/

/-- `who`: the master that writes the command to CMD; none for the authentication step of the IMAGE_LOAD that runs. -/
def execImageLoad (who : Option (Fin 71)) (flash : Option (List Byte)) (s : State) : Result :=
  .next (match who with
    | some w => cmdWrite (w + 1) 0x11 s
    | none => loadAuth flash s)
def execCommandComplete (flash : Option (List Byte)) (crcOk abort : Bool) (s : State) : Result :=
  .next (commandComplete flash crcOk abort s)
def execBoot (container : Option (List Byte)) (s : State) : Result := .next (boot container s)

end Sys2Proof.Machine
end

