-- ==== Sys2Proof/Machine/CoreMem.lean ====
section
/-! DEFINITION. The memory of the control cores: address maps (R307, R308), local RAM and the L2 (R198, R201, R309),
loads, stores and instruction fetches (R310, R334, R342), and the spill engine's frame records (R319, R320). -/

namespace Sys2Proof.Machine

open Sys2Proof

/-- What an access or an instruction of a core gives: a value, an exception with its EADDR, or a wait. -/
inductive CoreRes (α : Type) where
  | ok (v : α) (s : State)
  | trap (k : Cause) (addr : Word) (s : State)
  | stall (s : State)

def CoreRes.bind {α β : Type} (x : CoreRes α) (f : α → State → CoreRes β) : CoreRes β :=
  match x with
  | .ok v s => f v s
  | .trap k a s => .trap k a s
  | .stall s => .stall s

/-! ### Address maps (R307, R308) -/

/-- Where an address of a core lies: byte addresses, or BAR0 offsets of registers. -/
inductive Place where
  | ram (a : Nat)
  | ownShelf (a : Nat)
  | ownPage (addr : Nat)
  | reg (addr : Nat)
  | shelf (n a : Nat)
  | hbm (a : Nat) (cached : Bool)

inductive AccKind where
  | load | store | fetch | maintain
  deriving DecidableEq, Repr

/-- R307: a Caller's address. -/
def callerPlace (m hbmwin a : Nat) : Option Place :=
  if a < 0x10000 then some (.ram a)
  else if 0x100000 ≤ a && a < 0x200000 then some (.ownShelf (a - 0x100000))
  else if 0x200000 ≤ a && a < 0x210000 then some (.ownPage (massifBase m + (a - 0x200000)))
  else if 0x40000000 ≤ a && a < 0x44000000 then some (.reg (a - 0x40000000))
  else if 0x50000000 ≤ a && a < 0x54000000 then some (.shelf ((a - 0x50000000) / 2 ^ 20) (a % 2 ^ 20))
  else if 0x80000000 ≤ a then some (.hbm (2 ^ 31 * hbmwin + a % 2 ^ 31) false)
  else none

/-- R308: an address of a Lead Caller. -/
def leadPlace (s : State) (x : Core) (k : AccKind) (a : Nat) : Option Place :=
  let w := a / 2 ^ 28
  let user := x.bit pswUSER
  if w == 15 then
    if user then none
    else if a < 0xF4000000 then some (.reg (a - 0xF0000000))
    else if a < 0xF8000000 then some (.shelf ((a - 0xF4000000) / 2 ^ 20) (a % 2 ^ 20))
    else none
  else
    let e := x.ldWin.get w 0
    if !e.testBit 8 || (k != .maintain && user && !e.testBit 9) || (k == .store && !e.testBit 10) || (k == .fetch && !e.testBit 11) then none
    else some (.hbm (2 ^ 28 * (e % 2 ^ 7) + a % 2 ^ 28) (e.testBit 12 && s.flag F.L2_CTL_EN))

def placeOf (s : State) (c : Nat) (k : AccKind) (a : Word) : Option Place :=
  if isLead c then leadPlace s (s.core c) k a.toNat else callerPlace c (s.core c).hbmwin a.toNat

/-! ### Local RAM (R198, R201) -/

/-- A read of a word of local RAM: a single error is written back, an uncorrectable word is written as poison. -/
def ramRead (m w : Nat) (s : State) : Word × Bool × State :=
  let v := ramCell s m w
  let d := v.toNat % 2 ^ 32
  let word := fun (n : Nat) => (BitVec.ofNat 32 n : Word)
  match classify code39 d (v.toNat / 2 ^ 32) with
  | .clean => (word d, false, s)
  | .overall => (word d, false, setRamCell m w (ramStored (word d) false) s)
  | .single p =>
    let d1 := word (correctData code39 d p)
    (d1, false, setRamCell m w (ramStored d1 false) s)
  | .poison => (word d, true, s)
  | .bad => (word d, true, setRamCell m w (ramStored (word d) true) s)

/-- A write of some bytes of a word; fewer than four are merged, and poison stays. -/
def ramWrite (m w : Nat) (bs : List (Nat × Byte)) (s : State) : State :=
  let full := (List.range 4).all fun i => bs.any fun b => b.1 == i
  let (old, p, s1) := if full then ((0 : Word), false, s) else ramRead m w s
  setRamCell m w (ramStored (bs.foldl (fun acc b => setByte acc b.1 b.2) old) p) s1

/-! ### HBM and the L2 (R189, R201, R309) -/

/-- A line of the L2; one that it does not hold is asked for, and the access waits. -/
def l2Get (line : Nat) (s : State) : CoreRes L2Line :=
  match s.cores.l2.get line none with
  | some l => .ok l s
  | none => .stall (l2Ask line s)

/-- Groups `g` and up of the device address space, through the L2. -/
def l2Groups : Nat → Nat → State → CoreRes (List (Nat × Bool))
  | _, 0, s => .ok [] s
  | g, n + 1, s => (l2Get (g / 8) s).bind fun l s1 =>
    let (d, p, s2) := l2Group (g / 8) (g % 8) l s1
    (l2Groups (g + 1) n s2).bind fun rest s3 => .ok ((d, p) :: rest) s3

/-- A read of `n` bytes at HBM address `a` through the L2. -/
def l2Read (a n : Nat) (s : State) : CoreRes (List (Byte × Bool)) :=
  (l2Groups (a / 8) ((a + n + 7) / 8 - a / 8) s).bind fun l s1 =>
    .ok ((List.range n).map fun i => match l[(a + i) / 8 - a / 8]? with
      | some (d, p) => (BitVec.ofNat 8 (d / 2 ^ (8 * ((a + i) % 8))), p)
      | none => (0, false)) s1

/-- R198: a write of bytes into a group of the L2. -/
def l2WriteGroup (a g : Nat) (data : List Byte) (s : State) : CoreRes Unit :=
  (l2Get (g / 8) s).bind fun l s1 =>
    let bs := (List.range data.length).filterMap fun i =>
      if (a + i) / 8 == g then (data[i]?).map fun b => ((a + i) % 8, b) else none
    let full := bs.length == 8
    let (old, p, s2) := if full then (0, false, s1) else l2Group (g / 8) (g % 8) l s1
    let d := bs.foldl (fun acc b => acc - bitsOf acc (8 * b.1) 8 * 2 ^ (8 * b.1) + b.2.toNat * 2 ^ (8 * b.1)) old
    .ok () (l2SetGroup (g / 8) (g % 8) (hbmStored d p) true s2)

/-- A write of bytes at HBM address `a` through the L2. -/
def l2Write (a : Nat) (data : List Byte) (s : State) : CoreRes Unit :=
  ((List.range ((a + data.length + 7) / 8 - a / 8)).map (a / 8 + ·)).foldl
    (fun r g => r.bind fun _ t => l2WriteGroup a g data t) (.ok () s)

/-! ### The L1 caches of the Lead Cores (R201, R309) -/

/-- Words of an HBM line with their P, through the L2. -/
def lineWords (line : Nat) (s : State) : CoreRes (List (Word × Bool)) :=
  (l2Read (64 * line) 64 s).bind fun l s1 =>
    .ok ((List.range 16).map fun i =>
      let b := (l.drop (4 * i)).take 4
      (BitVec.ofNat 32 (leNat (b.map (·.1))), b.any (·.2))) s1

def l1Key (c line : Nat) : Nat := 2 ^ 29 * (c - 64) + line

/-- A line of the L1 data cache (`data`), or instruction cache, of core `c`. -/
def l1Line (data : Bool) (s : State) (c line : Nat) : Option (List (BitVec 39)) :=
  (if data then s.cores.l1d else s.cores.l1i).get (l1Key c line) none
def setL1 (data : Bool) (c line : Nat) (l : Option (List (BitVec 39))) (s : State) : State :=
  if data then { s with cores := { s.cores with l1d := s.cores.l1d.set (l1Key c line) l none } }
  else { s with cores := { s.cores with l1i := s.cores.l1i.set (l1Key c line) l none } }

/-- R201: a word of a held line as a read gives it, with what the cache stores back: a single error corrected, an
uncorrectable word as poison. -/
def l1Word (v : BitVec 39) : Word × Bool × BitVec 39 :=
  let d := v.toNat % 2 ^ 32
  let word := fun (n : Nat) => (BitVec.ofNat 32 n : Word)
  match classify code39 d (v.toNat / 2 ^ 32) with
  | .clean => (word d, false, v)
  | .overall => (word d, false, ramStored (word d) false)
  | .single p => let d1 := word (correctData code39 d p); (d1, false, ramStored d1 false)
  | .poison => (word d, true, v)
  | .bad => (word d, true, ramStored (word d) true)

/-- A read of word `i` of a line through an L1 cache, which takes the line in when it does not hold it. -/
def l1Read (data : Bool) (c line i : Nat) (s : State) : CoreRes (Word × Bool) :=
  match l1Line data s c line with
  | some l =>
    let (d, p, v) := l1Word (l.getD i 0)
    .ok (d, p) (setL1 data c line (some (l.set i v)) s)
  | none => (lineWords line s).bind fun l s1 =>
    .ok (l.getD i (0, false)) (setL1 data c line (some (l.map fun w => ramStored w.1 w.2)) s1)

/-- Words of a load through the data cache. -/
def l1dWords (c : Nat) : Nat → Nat → State → CoreRes (List (Word × Bool))
  | _, 0, s => .ok [] s
  | w, n + 1, s => (l1Read true c (w / 16) (w % 16) s).bind fun x s1 =>
    (l1dWords c (w + 1) n s1).bind fun l s2 => .ok (x :: l) s2

/-- A load of `n` bytes at HBM address `a` through the data cache. -/
def l1dRead (c a n : Nat) (s : State) : CoreRes (List (Byte × Bool)) :=
  (l1dWords c (a / 4) ((a + n + 3) / 4 - a / 4) s).bind fun l s1 =>
    .ok ((List.range n).map fun i =>
      let w := l.getD ((a + i) / 4 - a / 4) (0, false)
      (byteOf w.1 ((a + i) % 4), w.2)) s1

/-- R198: bytes written into word `i` of a held line; a partial write keeps its poison. -/
def l1Merge (i : Nat) (bs : List (Nat × Byte)) (l : List (BitVec 39)) : List (BitVec 39) :=
  if bs.isEmpty then l
  else
    let (old, p, _) := l1Word (l.getD i 0)
    l.set i (ramStored (mergeBytes bs old) (p && !wholeWord bs))

/-- The bytes of a write at `a` that lie in word `w`, by their number in it. -/
def wordBytesIn (a w : Nat) (data : List Byte) : List (Nat × Byte) :=
  (List.range data.length).filterMap fun i =>
    if (a + i) / 4 == w then (data[i]?).map fun b => ((a + i) % 4, b) else none

/-- R309: a store reaches the L2; the writer's own line takes it, and the other data caches lose the line. -/
def l1dStore (c a : Nat) (data : List Byte) (s : State) : State :=
  let line := a / 64
  let s1 := match l1Line true s c line with
    | some l => setL1 true c line
        (some ((List.range 16).foldl (fun t i => l1Merge i (wordBytesIn a (16 * line + i) data) t) l)) s
    | none => s
  [64, 65, 66, 67].foldl (fun t o => t.when (o != c) (setL1 true o line none)) s1

/-- R309: a write of bytes at HBM address `a` through the data cache. -/
def dataWrite (c a : Nat) (data : List Byte) (s : State) : CoreRes Unit :=
  (l2Write a data s).bind fun _ s1 => .ok () (l1dStore c a data s1)

/-! ### Posted stores (R232, R310) -/

def setToPost (c : Nat) (l : List (Nat × Packet)) (s : State) : State := s.setCore c { s.core c with toPost := l }

/-- Records the error of a posted store; the first one is kept until BUS_ERR is taken. -/
def storeError (c a : Nat) (s : State) : State :=
  let x := s.core c
  s.setCore c { x with busErr := match x.busErr with
    | some b => some b
    | none => some (BitVec.ofNat 32 a) }

/-- Stores that wait for a tag are issued, up to eight outstanding. -/
def corePump : Nat → Nat → State → State
  | 0, _, s => s
  | n + 1, c, s =>
    match (s.core c).toPost with
    | [] => s
    | (a, p) :: rest =>
      if 8 ≤ postedCount s c || (freeTag s (coreRouter c)).isNone then s
      else corePump n c (niRequest (.core c a) p (setToPost c rest s))

/-- Packets of one instruction's stores, in order. -/
def post (c : Nat) (l : List (Nat × Packet)) (s : State) : State :=
  corePump 8 c (setToPost c ((s.core c).toPost ++ l) s)

/-- A packet of core `c` to an endpoint. -/
def corePacket (c dst dport typ addr : Nat) : Packet :=
  { dst := dst, dport := dport, src := coreRouter c, sport := corePort c, vn := 1, typ := typ, addr := addr }

/-- REG_WR of register `addr`, for a store at core address `a`; an address of no listed page is answered
ADDR_ERR. -/
def regStores (c : Nat) (l : List (Nat × Nat × Word)) (s : State) : State :=
  l.foldl (fun t (a, addr, v) => match servingRouter addr with
    | some r => post c [(a, { corePacket c r 3 3 addr with word := v })] t
    | none => storeError c a t) s

/-- MEM_WR of bytes. -/
def memStore (c a dst dport addr : Nat) (l : List Byte) (s : State) : State :=
  post c [(a, { corePacket c dst dport 1 addr with size := l.length - 1, data := l.map fun b => (b, true) })] s

/-! ### Loads (R310, R342) -/

/-- What an instruction of a core may meet as it is tried: the oldest request it waits for times out (R235); the queue word
that it reads directly fails its parity. -/
structure Luck where
  tmo : Bool := false
  bad : Bool := false
  /-- Transfers that an STM or LDM makes before it gives way. -/
  n : Nat := 24

/-- R235: a request of NI `n` completes with TIMEOUT; its tag stays reserved. -/
def timeoutCount (n : Nat) (s : State) : State := (s.count (F.RT_TIMEOUTCNT_VALUE n) 1).irq (routerPage n) 2

/-- R235: the oldest request of requester `k` at NI `n` that has had no response times out. -/
def wireTimeout (n k : Nat) (s : State) : State :=
  if s.get F.RQ_TIMEOUT_CYCLES == 0 then s
  else match (s.outReqs n).find? fun r => !r.expired && match r.owner with
      | .wire k' _ gen => k' == k && gen == (s.wire k).gen
      | _ => false with
    | none => s
    | some r => match r.owner with
      | .wire _ i gen =>
        wireReply k i gen { status := 3, poison := true }
          (timeoutCount n (s.setOutReqs n ((s.outReqs n).map fun x => if x == r then { x with expired := true } else x)))
      | _ => s

/-- The last answers of requester `k` are used up; the operation keeps its first `n`. -/
def wireCut (k n : Nat) (s : State) : State :=
  s.when (s.waits k) fun t => t.setWire k { t.wire k with reqs := (t.wire k).reqs.take n, cur := n }

/-- R310: core `c` makes requests over VN1 as requester `k`, after its posted stores, and goes on with their answers. -/
def coreAsk (c k : Nat) (ps : List Packet) (s : State) : CoreRes (List VnReply) :=
  if (s.wire k).reqs.length ≤ (s.wire k).cur && postedCount s c != 0 then .stall s
  else match wireAsk k ps s with
    | (some rs, s1) => .ok rs s1
    | (none, s1) => .stall s1

/-- R222, R310: an answer with ADDR_ERR or ACCESS_ERR. -/
def refusedReply (r : VnReply) : Bool := r.status == 1 || r.status == 2

/-- R310: `n` bytes of a shelf, or of HBM, read by MEM_RD; an error takes ACCESS. -/
def memLoad (c k : Nat) (m : Option Nat) (b n : Nat) (a : Word) (s : State) : CoreRes (List (Byte × Bool)) :=
  let ps := readRequests s m (coreRouter c) (corePort c) b n
  (coreAsk c k ps s).bind fun rs s1 =>
    if rs.any refusedReply then .trap .access a s1
    else .ok ((ps.zip rs).flatMap fun e => replyBytes (e.1.size + 1) e.2) s1

/-- One register read by REG_RD: an address of no listed page is answered ADDR_ERR. -/
def regAsk (c k addr : Nat) (a : Word) (s : State) : CoreRes (Word × Bool) :=
  match servingRouter addr with
  | none => .trap .access a s
  | some n => (coreAsk c k [corePacket c n 3 2 addr] s).bind fun rs s1 =>
    if rs.any refusedReply then .trap .access a s1
    else .ok (match rs.head? with
      | some r => if r.status == 0 then (r.word, r.poison) else (0, true)
      | none => (0, false)) s1

/-- A register of its own pages that Caller `c` reads directly, after the accesses that came to the page before (R11). -/
def ownReg (c addr : Nat) (a : Word) (bad : Bool) (s : State) : CoreRes (Word × Bool) :=
  if accessWaits s (8 + c) addr then .stall s
  else match readReg addr bad s with
    | (0, w, p, s1) => .ok (w, p) s1
    | (_, _, _, s1) => .trap .access a s1

/-- Banks of a shelf that `n` bytes at address `b` lie in. -/
def banksOf (b n : Nat) : List Nat := (List.range ((b + n + 3) / 4 - b / 4)).map fun i => (b / 4 + i) % 16

/-- R165, R166: an access of its own shelf by Caller `m`, which loses a cycle, counted, to any requester above it, and
makes those below it lose one. -/
def ownAccess {α : Type} (m b n : Nat) (act : State → CoreRes α) (s : State) : CoreRes α :=
  let banks := banksOf b n
  if banks.any (aboveCaller s m) then .stall (setWant m banks (s.count (F.SH_WAIT_CALLER_VALUE m) 1))
  else act (setWant m [] (banks.foldl (fun t k => countWaits m k true t) s))

/-- R164: a partial write of a word by Caller `m` reads the word in one access, and writes it in the next if no other
write of the word has come between. -/
def ownPartial (m w : Nat) (bs : List (Nat × Byte)) (s : State) : CoreRes Unit :=
  match (s.shelf m).merge.filter (·.1 == w) with
  | some (_, d, p) => .ok () ((shelfWrite m w (mergeBytes bs d) p s))
  | none =>
    let (d, p, s1) := shelfRead m w 4 s
    .stall (s1.setShelf m { s1.shelf m with merge := some (w, d, p) })

/-- `k` consecutive registers, read one after the other, as bytes with their P. -/
def regLoads (one : Nat → State → CoreRes (Word × Bool)) : Nat → Nat → State → CoreRes (List (Byte × Bool))
  | _, 0, s => .ok [] s
  | addr, k + 1, s => (one addr s).bind fun w s1 =>
    (regLoads one (addr + 4) k s1).bind fun l s2 => .ok ((List.range 4).map (fun i => (byteOf w.1 i, w.2)) ++ l) s2

/-- A load of `n` bytes from place `p`; sub-word accesses of registers take ACCESS (R342). -/
def loadBytes (c : Nat) (q : Luck) (a : Word) (n : Nat) (p : Place) (s : State) : CoreRes (List (Byte × Bool)) :=
  match p with
  | .ram b =>
    let (w, pz, s1) := ramRead c (b / 4) s
    .ok ((List.range n).map fun i => (byteOf w (b % 4 + i), pz)) s1
  | .ownShelf b => ownAccess c b n (fun t => let (l, t1) := shelfReadBytes c 4 b n t; .ok l t1) s
  | .ownPage addr => if n < 4 then .trap .access a s else regLoads (fun r t => ownReg c r a q.bad t) addr (n / 4) s
  | .reg addr => if n < 4 then .trap .access a s else regLoads (fun r t => regAsk c c r a t) addr (n / 4) s
  | .shelf m b => memLoad c c (some m) b n a s
  | .hbm b true => l1dRead c b n s
  | .hbm b false => memLoad c c none b n a s

/-- The address is not a multiple of the access size. -/
def misaligned (a : Word) (n : Nat) : Bool := a.toNat % n != 0

/-- A load of `n` bytes at address `a`: the bytes as one number. -/
def coreLoad (c : Nat) (q : Luck) (a : Word) (n : Nat) (s : State) : CoreRes Nat :=
  if misaligned a n then .trap .align a s
  else match placeOf s c .load a with
    | none => .trap .access a s
    | some p => (loadBytes c q a n p s).bind fun l s1 =>
      if l.any (·.2) then .trap .dataErr a s1 else .ok (leNat (l.map (·.1))) s1

/-! ### Stores (R310, R342) -/

/-- The words of a list of bytes, each with its offset. -/
def wordsAt (l : List Byte) : List (Nat × Word) :=
  (List.range (l.length / 4)).map fun i => (4 * i, BitVec.ofNat 32 (leField l (4 * i) 4))

/-- A store of bytes to place `p`. -/
def storeBytes (c : Nat) (a : Word) (l : List Byte) (p : Place) (s : State) : CoreRes Unit :=
  let part := fun (b : Nat) => (List.range l.length).filterMap fun i => (l[i]?).map fun v => (b % 4 + i, v)
  match p with
  | .ram b => .ok () (ramWrite c (b / 4) (part b) s)
  | .ownShelf b => ownAccess c b 1 (fun t =>
      if wholeWord (part b) then .ok () (shelfWriteBytes c (b / 4) 4 (part b) false t)
      else ownPartial c (b / 4) (part b) t) s
  | .ownPage addr =>
    if l.length < 4 then .trap .access a s
    else if accessWaits s (8 + c) addr then .stall s
    else match writeReg (8 + c) addr (BitVec.ofNat 32 (leNat l)) s with
      | (0, s1) => .ok () s1
      | (_, s1) => .ok () (storeError c a.toNat s1)
  | .reg addr =>
    if l.length < 4 then .trap .access a s
    else .ok () (regStores c ((wordsAt l).map fun e => (a.toNat + e.1, addr + e.1, e.2)) s)
  | .shelf m b => .ok () (memStore c a.toNat m 0 b l s)
  | .hbm b true => dataWrite c b l s
  | .hbm b false => .ok () (memStore c a.toNat (hbmRouter (hbmMap s b).1) (hbmPort (hbmMap s b).1) b l s)

/-- A store of `n` bytes of `v` at address `a`. -/
def coreStore (c : Nat) (a : Word) (n v : Nat) (s : State) : CoreRes Unit :=
  if misaligned a n then .trap .align a s
  else match placeOf s c .store a with
    | none => .trap .access a s
    | some p => storeBytes c a (leBytes n v) p s

/-! ### Instruction fetch (R201, R309, R334) -/

/-- R201: a fetch through the L1 instruction cache; the line of a poisoned word is invalidated and fetched once more
from the L2. -/
def l1iRead (c a : Nat) (s : State) : CoreRes (Word × Bool) :=
  (l1Read false c (a / 64) (a % 64 / 4) s).bind fun w s1 =>
    if w.2 then l1Read false c (a / 64) (a % 64 / 4) (setL1 false c (a / 64) none s1) else .ok w s1

/-- The word at a place: a Caller fetches from its local RAM alone. -/
def fetchAt (c : Nat) (p : Option Place) (pc : Word) (s : State) : CoreRes (Word × Bool) :=
  let wordOf := fun (x : CoreRes (List (Byte × Bool))) => x.bind fun l s1 =>
    (.ok (BitVec.ofNat 32 (leNat (l.map (·.1))), l.any (·.2)) s1 : CoreRes (Word × Bool))
  match p, isLead c with
  | some (.ram b), _ => let (w, pz, s1) := ramRead c (b / 4) s; .ok (w, pz) s1
  | some (.hbm b true), _ => l1iRead c b s
  | some (.hbm b false), true => wordOf (memLoad c c none b 4 pc s)
  | some (.shelf m b), true => wordOf (memLoad c c (some m) b 4 pc s)
  | some (.reg addr), true => regAsk c c addr pc s
  | _, _ => .trap .access pc s

/-- R334: the core fetches the word at its PC. -/
def fetch (c : Nat) (s : State) : CoreRes Word :=
  let pc := (s.core c).pc
  if misaligned pc 4 then .trap .align pc s
  else (fetchAt c (placeOf s c .fetch pc) pc s).bind fun w s1 => if w.2 then .trap .instrErr pc s1 else .ok w.1 s1

/-! ### Accesses of the spill engine and of context saves (R319–R324) -/

/-- The lines that words from `a` up lie in are held by the L2. -/
def engineTouch (c : Nat) : Word → Nat → State → CoreRes Unit
  | _, 0, s => .ok () s
  | a, n + 1, s => match placeOf s c .store a with
    | some (.hbm b true) => (l2Get (b / 64) s).bind fun _ s1 => engineTouch c (a + 4) n s1
    | _ => engineTouch c (a + 4) n s

/-- R319: a word stored into line `line` of the L2 meets a poisoned line. -/
def linePoisoned (line g : Nat) (s : State) : CoreRes Bool :=
  (l2Get line s).bind fun l s1 =>
    let (_, _, s2) := l2Group line g l s1
    (l2Get line s2).bind fun l2 s3 =>
      .ok (l2.groups.any fun g => classify code72 (groupData g) (groupCheck g) == .poison) s3

/-- One word written, through the data cache where the window caches, by requester `k`. `spill`: a poisoned line stops it.
An uncached write waits for its acknowledgement; an error is ACCESS, and a TIMEOUT is DATA_ERR (DESIGN CHOICE, log 157). -/
def engineWrite (c k : Nat) (spill : Bool) (a : Word) (v : Word) (s : State) : CoreRes Unit :=
  let far := fun (m : Option Nat) (b : Nat) =>
    (coreAsk c k (writeRequests s m (coreRouter c) (corePort c) b ((leBytes 4 v.toNat).map fun x => (x, false))) s).bind
      fun rs s1 =>
        if rs.any refusedReply then .trap .access a s1
        else if rs.any (fun r => r.status != 0) then .trap .dataErr a s1
        else (.ok () s1 : CoreRes Unit)
  match placeOf s c .store a with
  | some (.hbm b true) =>
    if spill then (linePoisoned (b / 64) (b % 64 / 8) s).bind fun p s1 =>
      if p then .trap .dataErr a s1 else dataWrite c b (leBytes 4 v.toNat) s1
    else dataWrite c b (leBytes 4 v.toNat) s
  | some (.hbm b false) => far none b
  | some (.shelf m b) => far (some m) b
  | _ => .trap .access a s

/-- Words written from address `a` up. -/
def engineStores (c k : Nat) (spill : Bool) : Word → List Word → State → CoreRes Unit
  | _, [], s => .ok () s
  | a, v :: l, s => (engineWrite c k spill a v s).bind fun _ s1 => engineStores c k spill (a + 4) l s1

/-- Words written from address `a` up, once the L2 holds the lines that are cached: no write waits behind another. -/
def engineWrites (c k : Nat) (spill : Bool) (a : Word) (l : List Word) (s : State) : CoreRes Unit :=
  (engineTouch c a l.length s).bind fun _ s1 => engineStores c k spill a l s1

/-- One word read, through the data cache where the window caches, by requester `k`. -/
def engineRead (c k : Nat) (a : Word) (s : State) : CoreRes Word :=
  let bytes : CoreRes (List (Byte × Bool)) := match placeOf s c .load a with
    | some (.hbm b true) => l1dRead c b 4 s
    | some (.hbm b false) => memLoad c k none b 4 a s
    | some (.shelf m b) => memLoad c k (some m) b 4 a s
    | _ => .trap .access a s
  bytes.bind fun l s1 =>
    if l.any (·.2) then .trap .dataErr a s1 else .ok (BitVec.ofNat 32 (leNat (l.map (·.1)))) s1

/-- `n` words from address `a` up. -/
def engineReads (c k : Nat) : Word → Nat → State → CoreRes (List Word)
  | _, 0, s => .ok [] s
  | a, n + 1, s => (engineRead c k a s).bind fun v s1 => (engineReads c k (a + 4) n s1).bind fun l s2 => .ok (v :: l) s2

/-! ### The spill engine (R318–R322) -/

/-- The frame record of frame `f` (R319). -/
def frameRecord (x : Core) (f : Nat) : List Word :=
  (List.range 8).map (fun i => x.frames.get (f * 8 + i) 0) ++ [x.links.get f 0, BitVec.ofNat 32 (0xF7A50000 + f)]

/-- The spill engine goes on with a store (`true`) or a fill at an address, or gives up another operation for it. -/
def engineTurn (c : Nat) (op : Bool × Nat) (s : State) : State :=
  let k := engineKey c
  if (s.wire k).op == some op then wireRewind k s
  else let s1 := wireEnd k s; s1.setWire k { s1.wire k with op := some op }

/-- What a store of the engine comes to. -/
inductive Spill where
  | done (s : State)
  /-- It cannot complete: REASON. -/
  | stuck (fault : Bool) (s : State)
  | waits (s : State)

/-- R319: frame BOT is stored at SPILL_PTR. A store that cannot complete leaves SPILL_PTR and BOT as they were. -/
def spillStore (c : Nat) (s : State) : Spill :=
  let x := s.core c
  let k := engineKey c
  if x.spillLim.toNat < x.spillPtr.toNat + 40 then .stuck false s
  else match engineWrites c k true x.spillPtr (frameRecord x x.bot) (engineTurn c (true, x.spillPtr.toNat) s) with
    | .ok _ s1 =>
      .done ((wireEnd k s1).setCore c { s1.core c with spillPtr := x.spillPtr + 40, bot := (x.bot + 1) % 15, fillNext := false })
    | .trap _ _ s1 => .stuck true (wireEnd k s1)
    | .stall s1 => .waits s1

/-- R321, R322: the core takes WINDOW_SPILL, or halts in reserve mode. -/
def takeSpill (c : Nat) (s : State) : State :=
  let s1 := wireEnd c s
  let x := s1.core c
  if x.bit pswRSV then coreHalt c .windowExhausted (s1.setCore c { x with spillDue := false })
  else s1.setCore c (enterCore true .windowSpill x.pc x.spillPtr { x with spillDue := false, wfi := false, wfb := none })

/-- R319, R321: the engine stops; WINDOW_SPILL is taken at the next instruction boundary. -/
def spillStop (c : Nat) (fault : Bool) (s : State) : State :=
  let s1 := s.setCore c { s.core c with stopped := true, reason := fault, spillDue := true }
  if coreRuns s1 c && !midInstr s1 c then takeSpill c s1 else s1

/-- One store of the engine, if one is due. -/
def spillOnce (c : Nat) (s : State) : State :=
  let x := s.core c
  if x.stopped || decide (2 ≤ framesFree x) then s
  else match spillStore c s with
    | .done s1 => s1
    | .stuck f s1 => spillStop c f s1
    | .waits s1 => s1

/-- A Lead Caller that is out of reset. -/
def leadLive (s : State) (c : Nat) : Bool :=
  isLead c && (s.flag (fRunning c) || s.flag (fHalted c)) && !s.loadHold && s.power.warmPhase == 0

/-- R320: the frame below BOT is loaded from below SPILL_PTR. A fill that meets ACCESS, poison or a wrong check
word is a WINDOW_FILL at its address, and leaves SPILL_PTR, BOT and CWP as they were. -/
def fillFrame (c : Nat) (s : State) : CoreRes Unit :=
  let x := s.core c
  let k := engineKey c
  let a := x.spillPtr - 40
  match engineReads c k a 10 (engineTurn c (false, a.toNat) s) with
  | .stall s1 => .stall s1
  | .trap _ _ s1 => .trap .windowFill a (wireEnd k s1)
  | .ok l s1 =>
    let s2 := wireEnd k s1
    if (l.getD 9 0) >>> 16 != (0xF7A5 : Word) then .trap .windowFill a s2
    else
      let f := (x.bot + 14) % 15
      let y := s2.core c
      let frames := (List.range 8).foldl (fun acc i => acc.set (f * 8 + i) (l.getD i 0) 0) y.frames
      .ok () (s2.setCore c { y with
        frames := frames, links := y.links.set f (l.getD 8 0) 0, bot := f, spillPtr := a, fillNext := false })

end Sys2Proof.Machine
end

