-- ==== Sys2Proof/Machine/Ifa.lean ====
section
/-! DEFINITION. IFA-32: the instructions, their decoding from a word (R334–R336), and what each does on a Caller or a
Lead Caller (R337–R354), with the exceptions of R305, R311 and R351. -/

namespace Sys2Proof.Machine

open Sys2Proof

/-! ### Instructions (R335) -/

/-- Register operations, in the order of FN (R339). -/
inductive AluOp where
  | add | sub | and | or | xor | andn | shl | shr | sra | rol | slt | sltu | min | max | minu | maxu
  | clz | popc | mul | mulh | mulhu | div | divu | rem | remu
  deriving DecidableEq, Repr

/-- Immediate operations, in the order of OP (R341). -/
inductive ImmOp where
  | addi | andi | ori | xori | slti | sltui | lui | shli | shri | srai | roli
  deriving DecidableEq, Repr

/-- Conditions, in the order of OP (R344). -/
inductive Cond where
  | eq | ne | lt | ge | ltu | geu | resumed
  deriving DecidableEq, Repr

/-- Vector functions, in the order of VFN (R352). -/
inductive VecOp where
  | add | sub | mul | min | max | absd | and | or | xor | cmpeq | cmplt | shl | shr | splat | ext | ins
  deriving DecidableEq, Repr

/-- Cache maintenance, in the order of FN (R354). -/
inductive CacheOp where
  | icinv | dcinv | l2flush | l2inv | l2flinv
  deriving DecidableEq, Repr

/-- An IFA-32 instruction with its fields: register fields, and immediates as they stand in the word. -/
inductive Ifa where
  | alu (f : AluOp) (rd ra rb : Nat)
  | imm (f : ImmOp) (rd ra : Nat) (i : BitVec 16)
  /-- Bytes, sign extension. -/
  | load (n : Nat) (sgn : Bool) (rd ra : Nat) (i : BitVec 16)
  | store (n : Nat) (rs ra : Nat) (i : BitVec 16)
  | lsm (load : Bool) (base : Nat) (mask : BitVec 24)
  | branch (k : Cond) (ra rb : Nat) (off : BitVec 16)
  | j (off : BitVec 26)
  | call (off : BitVec 26)
  | callw (off : BitVec 26)
  | jr (ra : Nat)
  | callr (ra : Nat)
  | callwr (ra : Nat)
  | retw
  | rfe
  | rff
  | syscall
  | brk
  | halt
  | wfi
  | fence
  | savectx (hi : Bool) (ra : Nat)
  | loadctx (hi : Bool) (ra : Nat)
  | cache (k : CacheOp) (ra : Nat)
  | mfc (rd idx : Nat)
  | mtc (rs idx : Nat)
  | vec (f : VecOp) (vd va vb r dm : Nat) (sgn sat : Bool) (idx : Nat)
  | vmem (store : Bool) (v ra : Nat) (off : BitVec 16)
  | fsw (rm slot : Nat) (clean go : Bool)
  | fld (rm slot : Nat) (verify hbm : Bool)
  | qput (rd rm q epm : Nat)
  | qget (rd rs rm q : Nat)
  | qcmd (rm q op : Nat)
  | bsch (act lo hi ch : Nat)
  | wfb (rd seq rm ch : Nat)
  deriving DecidableEq, Repr

def aluOps : List AluOp :=
  [.add, .sub, .and, .or, .xor, .andn, .shl, .shr, .sra, .rol, .slt, .sltu, .min, .max, .minu, .maxu,
   .clz, .popc, .mul, .mulh, .mulhu, .div, .divu, .rem, .remu]
def immOps : List ImmOp := [.addi, .andi, .ori, .xori, .slti, .sltui, .lui, .shli, .shri, .srai, .roli]
def condOps : List Cond := [.eq, .ne, .lt, .ge, .ltu, .geu, .resumed]
def vecOps : List VecOp :=
  [.add, .sub, .mul, .min, .max, .absd, .and, .or, .xor, .cmpeq, .cmplt, .shl, .shr, .splat, .ext, .ins]
def cacheOps : List CacheOp := [.icinv, .dcinv, .l2flush, .l2inv, .l2flinv]

/-! ### Decoding (R335, R336) -/

/-- Keeps an instruction whose unused fields are zero. -/
def zeroed (ok : Bool) (i : Ifa) : Option Ifa := if ok then some i else none

/-- OP = 0x23, system. -/
def decodeSystem (rd ra rb fn : Nat) : Option Ifa :=
  let bare := fun (i : Ifa) => zeroed (rd == 0 && ra == 0 && rb == 0) i
  let one := fun (i : Ifa) => zeroed (rd == 0 && rb == 0) i
  match fn with
  | 0x000 => one (.jr ra)
  | 0x001 => one (.callr ra)
  | 0x002 => one (.callwr ra)
  | 0x003 => bare .retw
  | 0x008 => bare .rfe
  | 0x009 => bare .rff
  | 0x010 => zeroed (rd == 0) .syscall
  | 0x011 => zeroed (rd == 0) .brk
  | 0x012 => bare .halt
  | 0x013 => bare .wfi
  | 0x018 => bare .fence
  | 0x020 => one (.savectx false ra)
  | 0x021 => one (.savectx true ra)
  | 0x022 => one (.loadctx false ra)
  | 0x023 => one (.loadctx true ra)
  | n => if 0x030 ≤ n then (cacheOps[n - 0x030]?).bind fun k => one (.cache k ra) else none

/-- OP = 0x3A, fabric control (R348). -/
def decodeFabric (r1 r2 r3 sub arg : Nat) : Option Ifa :=
  match sub with
  | 0 => zeroed (r1 == 0 && r2 == 0 && decide (arg < 64) && (!arg.testBit 5 || arg % 32 == 0)) (.fsw r3 (arg % 16) (arg.testBit 4) (arg.testBit 5))
  | 1 => zeroed (r1 == 0 && r2 == 0 && decide (arg < 64)) (.fld r3 (arg % 16) (arg.testBit 4) (arg.testBit 5))
  | 2 => zeroed (r1 == 0) (.qput r2 r3 (arg % 32) (arg / 32))
  | 3 => zeroed (decide (arg < 32)) (.qget r1 r2 r3 arg)
  | 4 => zeroed (r1 == 0 && r2 == 0 && decide (1 ≤ arg / 32) && decide (arg / 32 ≤ 5)) (.qcmd r3 (arg % 32) (arg / 32))
  | 5 => zeroed (decide (arg < 64)) (.bsch r1 r2 r3 arg)
  | 6 => zeroed (decide (arg < 64)) (.wfb r1 r2 r3 arg)
  | _ => none

/-- Lanes of a data mode. -/
def vecLanes (dm : Nat) : Nat := 4 * 2 ^ dm

/-- OP = 0x38, vector operations (R352): fields that a function does not use are zero. -/
def decodeVec (vd va vb r dm : Nat) (sgn sat : Bool) (idx vfn : Nat) : Option Ifa :=
  (vecOps[vfn]?).bind fun f =>
    let no := fun (a b c d : Bool) => (!a || vb == 0) && (!b || r == 0) && (!c || !sat) && (!d || idx == 0)
    let ok := match f with
      | .add | .sub | .mul => no false true false true
      | .min | .max | .absd | .cmplt => no false true true true
      | .and | .or | .xor => no false true true true && !sgn && dm == 0
      | .cmpeq => no false true true true && !sgn
      | .shl => no true false false true
      | .shr => no true false true true
      | .splat => no true false true true && va == 0 && !sgn
      | .ext => no true false true false && vd == 0 && decide (idx < vecLanes dm)
      | .ins => no true false true false && va == 0 && !sgn && decide (idx < vecLanes dm)
    zeroed (ok && dm != 3) (.vec f vd va vb r dm sgn sat idx)

/-- R336: the instruction that a word encodes; none is a reserved encoding. -/
def decodeIfa (w : Word) : Option Ifa :=
  let f := fun (lo n : Nat) => bitsOf w.toNat lo n
  let op := f 26 6
  let a := f 21 5
  let b := f 16 5
  let c := f 11 5
  let fn := f 0 11
  let i : BitVec 16 := w.truncate 16
  let off : BitVec 26 := w.truncate 26
  if op == 0x01 then
    (aluOps[fn]?).bind fun k => zeroed ((k != .clz && k != .popc) || c == 0) (.alu k a b c)
  else if 0x02 ≤ op && op ≤ 0x0C then
    (immOps[op - 2]?).bind fun k =>
      let shift := k == .shli || k == .shri || k == .srai || k == .roli
      zeroed ((k != .lui || b == 0) && (!shift || i.toNat < 32)) (.imm k a b i)
  else match op with
    | 0x10 => some (.load 4 false a b i)
    | 0x11 => some (.load 2 true a b i)
    | 0x12 => some (.load 2 false a b i)
    | 0x13 => some (.load 1 true a b i)
    | 0x14 => some (.load 1 false a b i)
    | 0x15 => some (.store 4 a b i)
    | 0x16 => some (.store 2 a b i)
    | 0x17 => some (.store 1 a b i)
    | 0x20 => some (.j off)
    | 0x21 => some (.call off)
    | 0x22 => some (.callw off)
    | 0x23 => decodeSystem a b c fn
    | 0x24 => zeroed (b == 0 && i.toNat < 4096) (.mfc a i.toNat)
    | 0x25 => zeroed (b == 0 && i.toNat < 4096) (.mtc a i.toNat)
    | 0x38 => decodeVec (f 23 3) (f 20 3) (f 17 3) (f 12 5) (f 10 2) (w.getLsbD 9) (w.getLsbD 8) (f 4 4) (f 0 4)
    | 0x39 => zeroed (!w.getLsbD 16) (.vmem (w.getLsbD 17) (f 23 3) (f 18 5) i)
    | 0x3A => decodeFabric a b c (f 8 3) (f 0 8)
    | _ =>
      if 0x18 ≤ op && op ≤ 0x1E then
        (condOps[op - 0x18]?).bind fun k => zeroed (k != .resumed || (a == 0 && b == 0)) (.branch k a b i)
      else if 0x3C ≤ op then some (.lsm (w.getLsbD 27) (f 24 3) (w.truncate 24))
      else none

/-! ### Integer operations (R339–R341) -/

def signBit (w : Word) : Bool := w.msb

def clz32 (a : Word) : Nat := ((List.range 32).find? fun i => a.getLsbD (31 - i)).getD 32
def popc32 (a : Word) : Nat := ((List.range 32).filter fun i => a.getLsbD i).length
def rol32 (a : Word) (n : Nat) : Word := (a <<< n) ||| (a >>> (32 - n))
def bool32 (b : Bool) : Word := BitVec.ofNat 32 (b2n b)

/-- R340: signed quotient and remainder. -/
def divS (a b : Word) : Word :=
  if b == 0 then 0xFFFFFFFF else BitVec.ofInt 32 (Int.tdiv a.toInt b.toInt)
def remS (a b : Word) : Word := if b == 0 then a else BitVec.ofInt 32 (Int.tmod a.toInt b.toInt)

/-- R339: `ra op rb`. -/
def alu (f : AluOp) (a b : Word) : Word :=
  let n := b.toNat % 32
  match f with
  | .add => a + b
  | .sub => a - b
  | .and => a &&& b
  | .or => a ||| b
  | .xor => a ^^^ b
  | .andn => a &&& ~~~b
  | .shl => a <<< n
  | .shr => a >>> n
  | .sra => a.sshiftRight n
  | .rol => rol32 a n
  | .slt => bool32 (decide (a.toInt < b.toInt))
  | .sltu => bool32 (decide (a.toNat < b.toNat))
  | .min => if a.toInt < b.toInt then a else b
  | .max => if a.toInt < b.toInt then b else a
  | .minu => if a.toNat < b.toNat then a else b
  | .maxu => if a.toNat < b.toNat then b else a
  | .clz => BitVec.ofNat 32 (clz32 a)
  | .popc => BitVec.ofNat 32 (popc32 a)
  | .mul => a * b
  | .mulh => BitVec.ofInt 32 (a.toInt * b.toInt / 2 ^ 32)
  | .mulhu => BitVec.ofNat 32 (a.toNat * b.toNat / 2 ^ 32)
  | .div => divS a b
  | .divu => if b == 0 then 0xFFFFFFFF else BitVec.ofNat 32 (a.toNat / b.toNat)
  | .rem => remS a b
  | .remu => if b == 0 then a else BitVec.ofNat 32 (a.toNat % b.toNat)

/-- R341: the immediate operations. -/
def aluImm (f : ImmOp) (a : Word) (i : BitVec 16) : Word :=
  let s : Word := i.signExtend 32
  let z : Word := i.zeroExtend 32
  match f with
  | .addi => alu .add a s
  | .andi => alu .and a z
  | .ori => alu .or a z
  | .xori => alu .xor a z
  | .slti => alu .slt a s
  | .sltui => alu .sltu a s
  | .lui => z <<< 16
  | .shli => alu .shl a z
  | .shri => alu .shr a z
  | .srai => alu .sra a z
  | .roli => alu .rol a z

/-- R344: a branch's condition. -/
def taken (x : Core) (k : Cond) (a b : Word) : Bool :=
  match k with
  | .eq => a == b
  | .ne => a != b
  | .lt => decide (a.toInt < b.toInt)
  | .ge => decide (b.toInt ≤ a.toInt)
  | .ltu => decide (a.toNat < b.toNat)
  | .geu => decide (b.toNat ≤ a.toNat)
  | .resumed => x.bit pswRESUMED

/-! ### Vector operations (R352) -/

/-- Width of a lane. -/
def vecWidth (dm : Nat) : Nat := 32 / 2 ^ dm

/-- The `w` bits of lane `i`. -/
def vecLane (w : Nat) (v : BitVec 128) (i : Nat) : Nat := bitsOf v.toNat (w * i) w

/-- A vector from its lanes. -/
def vecOf (w : Nat) (f : Nat → Nat) : BitVec 128 :=
  BitVec.ofNat 128 ((List.range (128 / w)).foldl (fun acc i => acc + f i % 2 ^ w * 2 ^ (w * i)) 0)

/-- R352: one lane of a function of two vectors, or of a vector and a shift amount. -/
def vecFn (f : VecOp) (w : Nat) (sgn sat : Bool) (a b n : Nat) : Nat :=
  let x := asInt w sgn a
  let y := asInt w sgn b
  match f with
  | .add => (narrow w sgn sat (x + y)).1
  | .sub => (narrow w sgn sat (x - y)).1
  | .mul => (narrow w sgn sat (x * y)).1
  | .min => if x < y then a else b
  | .max => if x < y then b else a
  | .absd => (x - y).natAbs
  | .and => a &&& b
  | .or => a ||| b
  | .xor => a ^^^ b
  | .cmpeq => if a == b then 2 ^ w - 1 else 0
  | .cmplt => if x < y then 2 ^ w - 1 else 0
  | .shl => (narrow w sgn sat (x * 2 ^ n)).1
  | .shr => lowBits w (x / 2 ^ n)
  | .splat | .ext | .ins => 0

/-- A vector result. `r`: the register operand; `d`: what vd holds. -/
def vecResult (f : VecOp) (dm : Nat) (sgn sat : Bool) (idx : Nat) (d a b : BitVec 128) (r : Word) : BitVec 128 :=
  let w := vecWidth dm
  match f with
  | .splat => vecOf w fun _ => r.toNat
  | .ins => vecOf w fun i => if i == idx then r.toNat else vecLane w d i
  | _ => vecOf w fun i => vecFn f w sgn sat (vecLane w a i) (vecLane w b i) (r.toNat % w)

/-- VEXT: a lane extended to 32 bits. -/
def vecExt (dm : Nat) (sgn : Bool) (idx : Nat) (a : BitVec 128) : Word :=
  let w := vecWidth dm
  BitVec.ofInt 32 (asInt w sgn (vecLane w a idx))

/-! ### What an instruction may name (R303, R305, R345, R351) -/

/-- Register fields that an instruction names. -/
def Ifa.fields : Ifa → List Nat
  | .alu _ rd ra rb => [rd, ra, rb]
  | .imm _ rd ra _ => [rd, ra]
  | .load _ _ rd ra _ => [rd, ra]
  | .store _ rs ra _ => [rs, ra]
  | .branch k ra rb _ => if k == .resumed then [] else [ra, rb]
  | .jr ra | .callr ra | .callwr ra | .savectx _ ra | .loadctx _ ra | .cache _ ra => [ra]
  | .mfc rd _ => [rd]
  | .mtc rs _ => [rs]
  | .vec f _ _ _ r _ _ _ _ => if f == .shl || f == .shr || f == .splat || f == .ext || f == .ins then [r] else []
  | .vmem _ _ ra _ => [ra]
  | .fsw rm _ _ _ | .fld rm _ _ _ | .qcmd rm _ _ => [rm]
  | .qput rd rm _ _ => [rd, rm]
  | .qget rd rs rm _ => [rd, rs, rm]
  | .bsch act lo hi _ => [act, lo, hi]
  | .wfb rd seq rm _ => [rd, seq, rm]
  | .lsm _ _ _ | .j _ | .call _ | .callw _ | .retw | .rfe | .rff | .syscall | .brk | .halt | .wfi | .fence => []

/-- Register fields that an instruction writes. -/
def Ifa.dests : Ifa → List Nat
  | .alu _ rd _ _ | .imm _ rd _ _ | .load _ _ rd _ _ | .mfc rd _ | .wfb rd _ _ _ => [rd]
  | .qget rd rs _ _ => [rd, rs]
  | .vec f _ _ _ r _ _ _ _ => if f == .ext then [r] else []
  | _ => []

/-- R351: instructions of the Lead Caller. -/
def Ifa.leadOnly : Ifa → Bool
  | .callw _ | .callwr _ | .retw | .savectx _ _ | .loadctx _ _ | .cache _ _ | .vec .. | .vmem .. => true
  | _ => false

/-- R351: instructions of the Caller. -/
def Ifa.callerOnly : Ifa → Bool
  | .call _ | .callr _ => true
  | _ => false

/-- R305, R345, R349: what takes PRIV in user mode on this kind of core. -/
def Ifa.supervisor (lead : Bool) : Ifa → Bool
  | .rfe | .rff | .halt | .wfi | .savectx _ _ | .loadctx _ _ | .cache _ _ | .mfc _ _ | .mtc _ _ => true
  | .fsw .. | .fld .. | .qput .. | .qget .. | .qcmd .. | .bsch .. | .wfb .. => lead
  | _ => false

/-- The instruction takes ILLEGAL on this core (R303, R306, R345, R346, R351). -/
def Ifa.illegal (lead : Bool) (x : Core) (i : Ifa) : Bool :=
  i.fields.any (fun n => !fieldExists lead n) || (!lead && i.leadOnly) || (lead && i.callerOnly)
    || match i with
      | .savectx _ ra | .loadctx _ ra => decide (7 < ra)
      | .mfc _ n | .mtc _ n => !ctlExists lead n
      | .rff => !x.bit pswFM
      | _ => false

/-- It takes PRIV. -/
def Ifa.priv (lead : Bool) (x : Core) (i : Ifa) : Bool :=
  x.bit pswUSER && (i.supervisor lead || i.dests.any fieldPriv)

/-! ### Steps of an instruction -/

def regOf (s : State) (c n : Nat) : Word := regRead (isLead c) (s.core c) n
def setReg (c n : Nat) (d : Word) (s : State) : State := s.setCore c (regWrite (isLead c) (s.core c) n d)
def vecReg (s : State) (c n : Nat) : BitVec 128 := (s.core c).v.get n 0
def setVec (c n : Nat) (d : BitVec 128) (s : State) : State := s.setCore c { s.core c with v := (s.core c).v.set n d 0 }
def setPc (c : Nat) (pc : Word) (s : State) : State := s.setCore c { s.core c with pc := pc }

/-- The instruction completes, and the next in order follows. -/
def goOn (c : Nat) (s : State) : CoreRes Unit := .ok () (setPc c ((s.core c).pc + 4) s)

/-- It completes with a register result. -/
def result (c n : Nat) (d : Word) (s : State) : CoreRes Unit := goOn c (setReg c n d s)

/-- It completes at a target. -/
def goTo (c : Nat) (pc : Word) (s : State) : CoreRes Unit := .ok () (setPc c pc s)

/-- A register target that is not word-aligned takes ALIGN (R344). -/
def toTarget (t : Word) (act : CoreRes Unit) (s : State) : CoreRes Unit := if misaligned t 4 then .trap .align t s else act

/-- PC + 4·sext(off). -/
def relTarget (s : State) (c : Nat) {w : Nat} (off : BitVec w) : Word := (s.core c).pc + (off.signExtend 32 <<< 2)

def effAddr (s : State) (c ra : Nat) (i : BitVec 16) : Word := regOf s c ra + i.signExtend 32

/-! ### Windowed calls and returns (R318, R320, R322, R344) -/

/-- CALLW and CALLWR to `t`. One that waits for the spill engine leaves the core at the boundary before it. -/
def callWin (c : Nat) (t : Word) (s : State) : CoreRes Unit :=
  let x := s.core c
  let link := fun (y : Core) (n : Nat) => { y with links := y.links.set n (x.pc + 4) 0, pc := t, fillNext := false }
  if x.bit pswRSV then
    if x.stopped then .ok () (coreHalt c .windowExhausted s)
    else if framesFree x < 2 then .stall (wireEnd c s)
    else
      let n := (x.cwp + 2) % 15
      .ok () (s.setCore c (link { (x.setCwp n).setBit pswRSV false with rsvCalls := 0 :: x.rsvCalls } n))
  else if framesFree x == 0 then .stall (wireEnd c s)
  else
    let n := (x.cwp + 1) % 15
    let deeper := match x.rsvCalls with
      | d :: l => (d + 1) :: l
      | [] => []
    .ok () (s.setCore c (link { x.setCwp n with rsvCalls := deeper } n))

/-- CWP moves back for a RETW: to reserve mode when it ends a call made there. -/
def windowBack (x : Core) : Core :=
  match x.rsvCalls with
  | 0 :: l => { (x.setCwp (x.cwp + 13)).setBit pswRSV true with rsvCalls := l }
  | (d + 1) :: l => { x.setCwp (x.cwp + 14) with rsvCalls := d :: l }
  | [] => x.setCwp (x.cwp + 14)

/-- The frame below CWP is not resident. -/
def needsFill (x : Core) : Bool := x.cwp == x.bot

/-- Frames that a RETW has to fill: the one below CWP when it is not resident, and the one below that when the return
goes back two frames, to reserve mode. -/
def fillsDue (x : Core) : Nat :=
  if x.rsvCalls.head? == some 0 then
    (if needsFill x then 2 else if x.bot == (x.cwp + 14) % 15 then 1 else 0)
  else if needsFill x then 1 else 0

/-- `n` frames below BOT are filled. -/
def fillFrames (c : Nat) : Nat → State → CoreRes Unit
  | 0, s => .ok () s
  | n + 1, s => (fillFrame c s).bind fun _ s1 => fillFrames c n s1

/-- RETW. One that leaves CWP = BOT lets the engine fill the frame below in advance. -/
def retWin (c : Nat) (s : State) : CoreRes Unit :=
  let x := s.core c
  let t := x.links.get x.cwp 0
  toTarget t ((fillFrames c (fillsDue x) s).bind fun _ s1 =>
    let y := windowBack (s1.core c)
    .ok () (s1.setCore c { y with pc := t, fillNext := needsFill y })) s

/-! ### Return from exception (R312) -/

/-- RFE. On a Lead Caller a frame that it goes back to and that has been spilled is filled first. -/
def returnExc (c : Nat) (s : State) : CoreRes Unit :=
  let x := s.core c
  let lead := isLead c
  let fin := fun (u : State) =>
    let y := u.core c
    (.ok () (u.setCore c { restorePsw lead x.epsw y with pc := x.epc, lsm := (x.ecause >>> 8).truncate 24 }) : CoreRes Unit)
  let target := (restorePsw lead x.epsw x).cwp
  if lead && !x.bit pswRSV && needsFill x && target == (x.cwp + 14) % 15 then (fillFrame c s).bind fun _ s1 => fin s1
  else fin s

/-! ### STM and LDM (R314, R343) -/

/-- Register field of mask bit `i`. -/
def lsmField (i : Nat) : Nat := i

/-- The next transfer: ascending order, an LDM's own base last. -/
def lsmNext (load : Bool) (base : Nat) (mask done : BitVec 24) : Option Nat :=
  let left := (List.range 24).filter fun i => mask.getLsbD i && !done.getLsbD i
  match left.filter fun i => !(load && i == base) with
  | i :: _ => some i
  | [] => left.head?

/-- Address of mask bit `i`. -/
def lsmAddr (a : Word) (mask : BitVec 24) (i : Nat) : Word :=
  a + BitVec.ofNat 32 (4 * ((List.range i).filter fun j => mask.getLsbD j).length)

/-- At most `n` transfers; with none left the instruction completes and clears LSM_DONE. -/
def lsmRun (c : Nat) (q : Luck) (load : Bool) (base : Nat) (mask : BitVec 24) : Nat → State → CoreRes Unit
  | n, s =>
    let x := s.core c
    match lsmNext load base mask x.lsm with
    | none => goOn c (s.setCore c { x with lsm := 0 })
    | some i => match n with
      | 0 => .ok () s
      | k + 1 =>
        let a := lsmAddr (regOf s c base) mask i
        let mark := fun (u : State) => u.setCore c { u.core c with lsm := (u.core c).lsm ||| (1 <<< i) }
        if load then
          (coreLoad c q a 4 s).bind fun d s1 =>
            lsmRun c q load base mask k (mark (setReg c (lsmField i) (BitVec.ofNat 32 d) (wireCut c (s.wire c).cur s1)))
        else if (s.core c).toPost.isEmpty then
          (coreStore c a 4 (regOf s c (lsmField i)).toNat s).bind fun _ s1 => lsmRun c q load base mask k (mark s1)
        else .stall s

/-! ### Context saves (R323, R324) -/

/-- w_i of the current window, whatever the bank. -/
def windowReg (x : Core) (i : Nat) : Word := readW x (wReg true { x with psw := withBit x.psw pswFM false } i)

/-- The words of the lower half, from word 4. -/
def lowerWords (x : Core) : List Word :=
  (List.range 8).map (fun i => x.k.get i 0) ++ (List.range 16).map (windowReg x)
    ++ [x.pc + 4, withBit x.psw pswRESUMED true, x.spillPtr, x.spillLim, x.epc, x.epsw, x.ecause, x.eaddr]

/-- The words of the upper half, from word 4. -/
def upperWords (x : Core) : List Word :=
  (List.range 8).flatMap fun i => (List.range 4).map fun l => ((x.v.get i 0) >>> (32 * l)).truncate 32

/-- A save area with NEXT = `next`. -/
def saveArea (hi : Bool) (next : Word) (x : Core) : List Word :=
  if hi then [next, 0x0000C701, 0, 0] ++ upperWords x
  else [next, 0x0000C700, x.links.get x.cwp 0, x.links.get ((x.cwp + 1) % 15) 0] ++ lowerWords x

/-- SAVECTX.LO first spills every resident frame but CWP and CWP + 1, as the engine does. -/
def spillAll (c : Nat) : Nat → State → Spill
  | 0, s => .done s
  | n + 1, s =>
    if (s.core c).bot == (s.core c).cwp then .done s
    else match spillStore c s with
      | .done s1 => spillAll c n s1
      | r => r

/-- The frames that SAVECTX.LO spills fit below SPILL_LIM. -/
def spillRoom (x : Core) : Bool := decide (x.spillPtr.toNat + 40 * ((x.cwp + 15 - x.bot) % 15) ≤ x.spillLim.toNat)

/-- The area is 16-byte aligned. -/
def areaAligned (a : Word) (act : CoreRes Unit) (s : State) : CoreRes Unit := if misaligned a 16 then .trap .align a s else act

/-- R324: a fault part-way through takes its exception with nothing of the core committed. -/
def uncommitted (c : Nat) (s : State) (r : CoreRes Unit) : CoreRes Unit :=
  match r with
  | .trap k a t => .trap k a (t.setCore c (s.core c))
  | _ => r

/-- R324: the area at CTX_FREE is written, and taken from the free list. -/
def saveArea1 (c : Nat) (hi : Bool) (ra : Nat) (s : State) : CoreRes Unit :=
  let x := s.core c
  let a := x.ctxFree
  uncommitted c s <| (engineRead c c a s).bind fun f s1 =>
    (engineWrites c c false a (saveArea hi (x.k.get ra 0) x) s1).bind fun _ s2 =>
      let y := s2.core c
      let z := { y with ctxFree := f, k := y.k.set ra a 0, pc := y.pc + 4 }
      .ok () (s2.setCore c (if hi then z else z.setBit pswRESUMED false))

/-- SAVECTX.LO and SAVECTX.HI of k`ra`. An empty free list, or an area out of place, is met before anything is spilled,
unless a spill cannot complete. -/
def saveCtx (c : Nat) (hi : Bool) (ra : Nat) (s : State) : CoreRes Unit :=
  let x := s.core c
  if (hi || spillRoom x) && x.ctxFree == 0 then .trap .ctx 0 s
  else if (hi || spillRoom x) && misaligned x.ctxFree 16 then .trap .align x.ctxFree s
  else match (if hi then .done s else spillAll c 15 s) with
    | .waits s1 => .stall s1
    | .stuck f s1 => .ok () (spillStop c f (wireEnd c s1))
    | .done s1 => saveArea1 c hi ra s1

/-- LOADCTX.HI. -/
def loadHi (c ra : Nat) (a : Word) (l : List Word) (s : State) : CoreRes Unit :=
  (engineWrite c c false a (s.core c).ctxFree s).bind fun _ s1 =>
    let y := s1.core c
    let vec := fun (i : Nat) => ((l.getD (7 + 4 * i) 0) ++ (l.getD (6 + 4 * i) 0) ++ (l.getD (5 + 4 * i) 0) ++ (l.getD (4 + 4 * i) 0) : BitVec 128)
    let v := (List.range 8).foldl (fun acc i => acc.set i (vec i) 0) y.v
    .ok () (s1.setCore c { y with v := v, ctxFree := a, k := y.k.set ra (l.getD 0 0) 0, pc := y.pc + 4 })

/-- The core as a lower half restores it. -/
def restoreLower (l : List Word) (a : Word) (x : Core) : Core :=
  let w := fun (i : Nat) => l.getD (4 + i) 0
  let x1 := restorePsw true (w 25) x
  let k := (List.range 8).foldl (fun acc i => acc.set i (w i) 0) x1.k
  let x2 := { x1 with k := k }
  let x3 := (List.range 16).foldl (fun y i => writeW y (w (8 + i)) (wReg true { y with psw := withBit y.psw pswFM false } i)) x2
  { x3 with
    pc := w 24, spillPtr := w 26 &&& 0xFFFFFFF8, spillLim := w 27 &&& 0xFFFFFFF8, epc := w 28, epsw := w 29, ecause := w 30, eaddr := w 31
    links := (x3.links.set x3.cwp (l.getD 2 0) 0).set ((x3.cwp + 1) % 15) (l.getD 3 0) 0
    bot := x3.cwp, ctxFree := a, rsvCalls := [], fillNext := false }

/-- LOADCTX.LO. -/
def loadLo (c : Nat) (a : Word) (l : List Word) (s : State) : CoreRes Unit :=
  (engineWrite c c false a (s.core c).ctxFree s).bind fun _ s1 => .ok () (s1.setCore c (restoreLower l a (s1.core c)))

/-- LOADCTX.LO and LOADCTX.HI of k`ra`. -/
def loadCtx (c : Nat) (hi : Bool) (ra : Nat) (s : State) : CoreRes Unit :=
  let a := (s.core c).k.get ra 0
  areaAligned a (uncommitted c s <| (engineReads c c a 36 s).bind fun l s1 =>
    if l.getD 1 0 != (if hi then 0x0000C701 else 0x0000C700) then .trap .ctx 0 s1
    else if hi then loadHi c ra a l s1 else loadLo c a l s1) s

/-! ### Cache maintenance (R354) -/

/-- The instruction acts on line `line`; a flush waits for its HBM write. -/
def cacheAct (c : Nat) (k : CacheOp) (line : Nat) (s : State) : CoreRes Unit :=
  let flushed := fun (fin : State → CoreRes Unit) =>
    let s1 := if l2Writes s line then s else l2Flush line s
    if l2Writes s1 line then .stall s1 else fin s1
  match k with
  | .icinv => goOn c (setL1 false c line none s)
  | .dcinv => goOn c (setL1 true c line none s)
  | .l2inv => goOn c (setL2 line none s)
  | .l2flush => flushed (goOn c)
  | .l2flinv => flushed fun t => goOn c (setL2 line none t)

def cacheExec (c : Nat) (k : CacheOp) (a : Word) (s : State) : CoreRes Unit :=
  if a.toNat / 2 ^ 28 == 15 then goOn c s
  else match placeOf s c .maintain a with
    | none => .trap .access a s
    | some (.hbm b true) => cacheAct c k (b / 64) s
    | some _ => goOn c s

/-! ### Fabric control (R325, R348–R350) -/

/-- The massif that a fabric instruction of core `c` reaches. -/
def fabricMassif (s : State) (c rm : Nat) : Nat := if isLead c then (regOf s c rm).toNat % 64 else c

/-- Address of a register as core `c` reaches it, for EADDR: through its own pages or through BAR0. -/
def fabricAddr (c addr : Nat) : Nat := if isLead c then 0xF0000000 + addr else 0x200000 + addr % 0x10000

/-- Writes of registers of a massif's pages: on a Caller direct, after the accesses that came to the page before (R7, R11);
posted on a Lead Caller. -/
def fabricWrites (c : Nat) (l : List (Nat × Word)) (s : State) : CoreRes Unit :=
  if isLead c then .ok () (regStores c (l.map fun e => (fabricAddr c e.1, e.1, e.2)) s)
  else if l.any fun e => accessWaits s (8 + c) e.1 then .stall s
  else .ok () (l.foldl (fun t e => (writeReg (8 + c) e.1 e.2 t).2) s)

/-- A read of a register of a massif's page. -/
def fabricRead (c : Nat) (q : Luck) (addr : Nat) (s : State) : CoreRes (Word × Bool) :=
  let a := BitVec.ofNat 32 (fabricAddr c addr)
  if isLead c then regAsk c c addr a s else ownReg c addr a q.bad s

/-- A word with fields at their places. -/
def wordOf (l : List (Fld × Nat)) : Word := BitVec.ofNat 32 (l.foldl (fun acc e => acc + e.2 % 2 ^ e.1.w * 2 ^ e.1.lo) 0)

/-- QGET: the word, then its sideband. A poisoned word is taken, and DATA_ERR follows (R149), as it does a sideband that does
not come (R310). Both registers stand in one page, whose earlier accesses a Caller waits for before it reads the first. -/
def qgetExec (c : Nat) (q : Luck) (rd rs m k : Nat) (s : State) : CoreRes Unit :=
  let at1 := fun (f : Fld) => BitVec.ofNat 32 (fabricAddr c f.addr)
  (fabricRead c q (F.SQ_GET_D m k).addr s).bind fun w s1 =>
    if w.2 then .trap .dataErr (at1 (F.SQ_GET_D m k)) s1
    else (fabricRead c q (F.SQ_GETSB_VEPM m k).addr s1).bind fun sb s2 =>
      if sb.2 then .trap .dataErr (at1 (F.SQ_GETSB_VEPM m k)) s2
      else goOn c (setReg c rs sb.1 (setReg c rd w.1 s2))

/-- R350: the value that a WFB compares: a Caller sees its stub, and a Lead Caller reads STUB_SEQ over VN1. -/
def wfbRead (c m ch : Nat) (s : State) : CoreRes Nat :=
  if isLead c then
    let f := F.STUB_SEQ_SEQ m (ch / 2)
    let a := BitVec.ofNat 32 (fabricAddr c f.addr)
    (regAsk c c f.addr a s).bind fun w s1 =>
      if w.2 then .trap .dataErr a s1 else .ok (bitsOf w.1.toNat (16 * (ch % 2)) 16) s1
  else .ok (stubSeq s ch) s

/-- R350: WFB returns, or waits. -/
def wfbExec (c rd : Nat) (seq : Word) (m ch : Nat) (s : State) : CoreRes Unit :=
  (wfbRead c m ch s).bind fun now s1 =>
    if now != seq.toNat % 2 ^ 16 then result c rd (BitVec.ofNat 32 now) s1
    else .ok () (s1.setCore c { s1.core c with wfb := some (rd, seq, m, ch) })

/-! ### The instructions (R337–R354) -/

/-- Vector loads and stores (R353). -/
def vmemExec (c : Nat) (q : Luck) (st : Bool) (v ra : Nat) (off : BitVec 16) (s : State) : CoreRes Unit :=
  let a := regOf s c ra + (off.signExtend 32 <<< 4)
  if st then (coreStore c a 16 (vecReg s c v).toNat s).bind fun _ s1 => goOn c s1
  else (coreLoad c q a 16 s).bind fun d s1 => goOn c (setVec c v (BitVec.ofNat 128 d) s1)

/-- MTC: SPILL_CTL.RESUME lets the engine retry at once (R321). -/
def mtcExec (c rs idx : Nat) (s : State) : CoreRes Unit :=
  let d := regOf s c rs
  match goOn c (ctlWrite c idx d s) with
  | .ok _ s1 => .ok () (s1.when (idx == 0x042 && d.getLsbD 0) (spillOnce c))
  | r => r

/-- What a legal instruction does. -/
def ifaAct (c : Nat) (q : Luck) (s : State) : Ifa → CoreRes Unit
  | .alu f rd ra rb => result c rd (alu f (regOf s c ra) (regOf s c rb)) s
  | .imm f rd ra i => result c rd (aluImm f (regOf s c ra) i) s
  | .load n sgn rd ra i =>
    (coreLoad c q (effAddr s c ra i) n s).bind fun d s1 => result c rd (BitVec.ofInt 32 (asInt (8 * n) sgn d)) s1
  | .store n rs ra i => (coreStore c (effAddr s c ra i) n (regOf s c rs).toNat s).bind fun _ s1 => goOn c s1
  | .lsm load base mask =>
    if misaligned (regOf s c base) 4 then .trap .align (regOf s c base) s else lsmRun c q load base mask q.n s
  | .branch k ra rb off =>
    if taken (s.core c) k (regOf s c ra) (regOf s c rb) then goTo c (relTarget s c off) s else goOn c s
  | .j off => goTo c (relTarget s c off) s
  | .call off => goTo c (relTarget s c off) (setReg c 25 ((s.core c).pc + 4) s)
  | .callw off => callWin c (relTarget s c off) s
  | .jr ra => toTarget (regOf s c ra) (goTo c (regOf s c ra) s) s
  | .callr ra => toTarget (regOf s c ra) (goTo c (regOf s c ra) (setReg c 25 ((s.core c).pc + 4) s)) s
  | .callwr ra => toTarget (regOf s c ra) (callWin c (regOf s c ra) s) s
  | .retw => retWin c s
  | .rfe => returnExc c s
  | .rff => .ok () (s.setCore c { restorePsw (isLead c) (s.core c).fepsw (s.core c) with pc := (s.core c).fepc })
  | .syscall => .trap .syscall 0 s
  | .brk => .trap .break 0 s
  | .halt => (goOn c s).bind fun _ s1 => .ok () (coreHalt c .haltInstr s1)
  | .wfi => (goOn c s).bind fun _ s1 => .ok () (s1.when (!anyPending s1 c) fun t => t.setCore c { t.core c with wfi := true })
  | .fence => if postedCount s c == 0 then goOn c s else .stall s
  | .savectx hi ra => saveCtx c hi ra s
  | .loadctx hi ra => loadCtx c hi ra s
  | .cache k ra => cacheExec c k (regOf s c ra) s
  | .mfc rd idx => let (d, s1) := ctlRead c idx s; result c rd d s1
  | .mtc rs idx => mtcExec c rs idx s
  | .vec f vd va vb r dm sgn sat idx =>
    if f == .ext then result c r (vecExt dm sgn idx (vecReg s c va)) s
    else goOn c (setVec c vd (vecResult f dm sgn sat idx (vecReg s c vd) (vecReg s c va) (vecReg s c vb) (regOf s c r)) s)
  | .vmem st v ra off => vmemExec c q st v ra off s
  | .fsw rm slot clean go =>
    let m := fabricMassif s c rm
    (fabricWrites c [((F.SEQ_CMD_GO m).addr,
      if go then wordOf [(F.SEQ_CMD_GO m, 1)]
      else wordOf [(F.SEQ_CMD_FORCE m, 1), (F.SEQ_CMD_FORCE_SLOT m, slot), (F.SEQ_CMD_FORCE_MODE m, b2n clean)])] s).bind
      fun _ => goOn c
  | .fld rm slot verify hbm =>
    let m := fabricMassif s c rm
    (fabricWrites c [((F.LD_CTL_GO m).addr,
      wordOf [(F.LD_CTL_GO m, 1), (F.LD_CTL_OP m, b2n verify), (F.LD_CTL_SLOT m, slot), (F.LD_CTL_SRC m, b2n hbm)])] s).bind
      fun _ => goOn c
  | .qput rd rm k epm =>
    let m := fabricMassif s c rm
    (fabricWrites c [((F.SQ_PUTSB_EPM m k).addr, wordOf [(F.SQ_PUTSB_EPM m k, epm)]),
      ((F.SQ_PUT_D m k).addr, regOf s c rd)] s).bind fun _ => goOn c
  | .qget rd rs rm k => qgetExec c q rd rs (fabricMassif s c rm) k s
  | .qcmd rm k op =>
    let m := fabricMassif s c rm
    (fabricWrites c [((F.SQ_CMD_OP m k).addr, wordOf [(F.SQ_CMD_OP m k, op)])] s).bind fun _ => goOn c
  | .bsch act lo hi ch =>
    let at1 := fun (f : Fld) (v : Word) => ((if isLead c then 0xF0000000 else 0x40000000) + f.addr, f.addr, v)
    goOn c (regStores c [at1 (F.BC_ARG0_VALUE ch) (regOf s c lo), at1 (F.BC_ARG1_VALUE ch) (regOf s c hi),
      at1 (F.BC_ARG2_VALUE ch) (regOf s c act), at1 (F.BC_ARG3_VALUE ch) 0] s)
  | .wfb rd seq rm ch =>
    wfbExec c rd (regOf s c seq) (fabricMassif s c rm) ch s

/-- R305, R311, R336: an instruction with the checks that come before its effect. -/
def ifaExec (c : Nat) (q : Luck) (i : Ifa) (s : State) : CoreRes Unit :=
  let lead := isLead c
  let x := s.core c
  if i.illegal lead x then .trap .illegal 0 s
  else if i.priv lead x then .trap .priv 0 s
  else ifaAct c q s i

/-! ### Instruction boundaries (R310, R311, R315, R346) -/

/-- What an instruction's outcome leaves. With it the core stands at a boundary, where a halt that was asked for is made;
while it waits, and while its exception's entry waits for a free frame, it stays under way. -/
def settle (c : Nat) (r : CoreRes Unit) : State :=
  match r with
  | .ok _ s1 => haltDue c (wireEnd c s1)
  | .stall s1 => s1
  | .trap k a s1 =>
    let x := s1.core c
    if entryWaits c x && !(x.bit pswEXL || x.bit pswFM || x.bit pswRSV) then s1.when x.stopped (wireEnd c)
    else haltDue c (raise c k a (wireEnd c s1))

/-- One trial of an instruction of core `c`, once its last stores have been issued: `pick` answers it from the word fetched. -/
def tryInstr (c : Nat) (q : Luck) (pick : Word → Option Ifa) (s : State) : CoreRes Unit :=
  (fetch c (wireRewind c (s.when q.tmo (wireTimeout (coreRouter c) c)))).bind fun w s1 => match pick w with
    | some i => ifaExec c q i s1
    | none => .trap .illegal 0 s1

/-- One instruction of core `c`, or the next trial of one that waits. -/
def oneInstr (c : Nat) (q : Luck) (pick : Word → Option Ifa) (s : State) : State :=
  let s0 := corePump 8 c s
  if !(s0.core c).toPost.isEmpty then s0 else settle c (tryInstr c q pick s0)

/-- Nothing is taken at this boundary before the next instruction: no BUS_ERR, no interrupt, no wait for beat. -/
def boundaryFree (s : State) (c : Nat) : Bool :=
  let x := s.core c
  x.busErr.isNone && !fastPending s c && (normalPending s c).isNone && x.wfb.isNone && (!x.wfi || anyPending s c)

/-- R346: core `c` executes at its next instruction boundary, or goes on with the instruction under way. A WFI that has been
waiting completes. -/
def atBoundary (c : Nat) (act : State → State) (s : State) : State :=
  if !coreRuns s c then s
  else if midInstr s c then act s
  else if (s.core c).spillDue then takeSpill c s
  else if !boundaryFree s c then s
  else act (s.setCore c { s.core c with wfi := false })

/-- The command names the instruction that stands at PC. -/
def ifaRun (c : Nat) (q : Luck) (i : Ifa) (s : State) : State := atBoundary c (oneInstr c q fun _ => some i) s

end Sys2Proof.Machine
end

