-- ==== Sys2Proof/Machine/Cores.lean ====
section
/-! DEFINITION. The control cores' commands: every instruction of IFA-32, and the events of a core: interrupts, BUS_ERR,
the spill engine, waits for beat, and single steps (R310, R315, R319–R321, R328, R350). -/

namespace Sys2Proof.Machine

open Sys2Proof

/-! ### Events of a core -/

/-- R315: the lowest pending normal line is taken; an entry without a free frame waits. -/
def interruptEntry (c : Nat) (s : State) : State :=
  let x := s.core c
  if !coreRuns s c || midInstr s c then s
  else if x.spillDue then takeSpill c s
  else if x.busErr.isSome || fastPending s c then s
  else match normalPending s c with
    | some n =>
      if entryWaits c x then s
      else (wireEnd c s).setCore c (enterCore (isLead c) (.irq n) x.pc 0 { x with wfi := false, wfb := none })
    | none => s

/-- R315: the fast interrupt is taken. -/
def fastInterrupt (c : Nat) (s : State) : State :=
  let x := s.core c
  if !coreRuns s c || midInstr s c then s
  else if x.spillDue then takeSpill c s
  else if x.busErr.isSome || !fastPending s c then s
  else fastEntry c (wireEnd c s)

/-- R310, R311: the imprecise BUS_ERR is taken. -/
def busError (c : Nat) (s : State) : State :=
  let x := s.core c
  if !coreRuns s c || midInstr s c then s
  else if x.spillDue then takeSpill c s
  else match x.busErr with
    | some a =>
      if entryWaits c x then s
      else (wireEnd c s).setCore c (enterCore (isLead c) .busErr x.pc a { x with busErr := none, wfi := false, wfb := none })
    | none => s

/-- R315: TB has reached TIMECMP and line 48 is high; a core that waits in WFI goes on if the line cannot be taken. -/
def timecmpMatch (c : Nat) (s : State) : State :=
  s.when (coreRuns s c && lineLevel s c 48 && anyPending s c && !fastPending s c && (normalPending s c).isNone) fun t =>
    t.setCore c { t.core c with wfi := false }

/-- R350: the WFB that waits compares again: a Caller its stub, a Lead Caller the next of its reads of STUB_SEQ. It
returns where the value differs from the operand, and a read that fails takes its exception. -/
def wfbReturn (c : Nat) (s : State) : State :=
  let x := s.core c
  if !coreRuns s c || x.spillDue || x.busErr.isSome || fastPending s c || (normalPending s c).isSome then s
  else match x.wfb with
    | some (rd, seq, m, ch) => match wfbRead c m ch (wireRewind c s) with
      | .stall s1 => s1
      | .trap k a s1 => settle c (.trap k a (s1.setCore c { s1.core c with wfb := none }))
      | .ok now s1 =>
        if now != seq.toNat % 2 ^ 16 then
          settle c (result c rd (BitVec.ofNat 32 now) (s1.setCore c { s1.core c with wfb := none }))
        else wireEnd c s1
    | none => s

/-- R319: the spill engine keeps two frames free ahead. -/
def spillEngine (c : Nat) (s : State) : State := s.when (leadLive s c) (spillOnce c)

/-- R320: the engine is idle after a RETW that left CWP = BOT, and fills the frame below in advance; a fill that would
fault is left to the RETW that needs it. -/
def fillAhead (c : Nat) (s : State) : State :=
  let x := s.core c
  if !leadLive s c || !x.fillNext || !needsFill x || x.stopped || framesFree x < 2 then s
  else match fillFrame c s with
    | .ok _ s1 => s1
    | .stall s1 => s1
    | .trap _ _ s1 => s1.setCore c { s1.core c with fillNext := false }

/-- R321: SPILL_CTL.RESUME is written: STOPPED clears, and the store is tried again. -/
def spillResume (c : Nat) (s : State) : State := s.when (leadLive s c) fun t => spillOnce c (ctlWrite c 0x042 1 t)

/-- R328: one instruction of a halted core, as it stands in memory; while it waits the request stays. -/
def stepCore (c : Nat) (q : Luck) (s : State) : State :=
  let live := s.flag (fHalted c) && !s.loadHold && s.power.warmPhase == 0 && (isLead c || s.massifUp c)
  if !live || !(s.core c).stepReq then s
  else if (s.core c).spillDue && !midInstr s c then takeSpill c (s.setCore c { s.core c with stepReq := false })
  else
    let s0 := corePump 8 c ((s.when (s.core c).wfb.isSome (wireEnd c)).setCore c { s.core c with wfi := false, wfb := none })
    if !(s0.core c).toPost.isEmpty then s0
    else match tryInstr c q decodeIfa s0 with
      | .stall s1 => s1
      | r =>
        let s1 := settle c r
        (s1.setCore c { s1.core c with stepReq := false, wfb := none }).put (fHaltPc c) (s1.core c).pc.toNat

/-! ### Integer, memory, control, system, vector and fabric instructions -/

def execIfaAdd (c : Fin 68) (rd ra rb : Fin 32) (s : State) : Result := .next (ifaRun c {} (.alu .add rd ra rb) s)
def execIfaSub (c : Fin 68) (rd ra rb : Fin 32) (s : State) : Result := .next (ifaRun c {} (.alu .sub rd ra rb) s)
def execIfaAnd (c : Fin 68) (rd ra rb : Fin 32) (s : State) : Result := .next (ifaRun c {} (.alu .and rd ra rb) s)
def execIfaOr (c : Fin 68) (rd ra rb : Fin 32) (s : State) : Result := .next (ifaRun c {} (.alu .or rd ra rb) s)
def execIfaXor (c : Fin 68) (rd ra rb : Fin 32) (s : State) : Result := .next (ifaRun c {} (.alu .xor rd ra rb) s)
def execIfaAndn (c : Fin 68) (rd ra rb : Fin 32) (s : State) : Result := .next (ifaRun c {} (.alu .andn rd ra rb) s)
def execIfaShl (c : Fin 68) (rd ra rb : Fin 32) (s : State) : Result := .next (ifaRun c {} (.alu .shl rd ra rb) s)
def execIfaShr (c : Fin 68) (rd ra rb : Fin 32) (s : State) : Result := .next (ifaRun c {} (.alu .shr rd ra rb) s)
def execIfaSra (c : Fin 68) (rd ra rb : Fin 32) (s : State) : Result := .next (ifaRun c {} (.alu .sra rd ra rb) s)
def execIfaRol (c : Fin 68) (rd ra rb : Fin 32) (s : State) : Result := .next (ifaRun c {} (.alu .rol rd ra rb) s)
def execIfaSlt (c : Fin 68) (rd ra rb : Fin 32) (s : State) : Result := .next (ifaRun c {} (.alu .slt rd ra rb) s)
def execIfaSltu (c : Fin 68) (rd ra rb : Fin 32) (s : State) : Result := .next (ifaRun c {} (.alu .sltu rd ra rb) s)
def execIfaMin (c : Fin 68) (rd ra rb : Fin 32) (s : State) : Result := .next (ifaRun c {} (.alu .min rd ra rb) s)
def execIfaMax (c : Fin 68) (rd ra rb : Fin 32) (s : State) : Result := .next (ifaRun c {} (.alu .max rd ra rb) s)
def execIfaMinu (c : Fin 68) (rd ra rb : Fin 32) (s : State) : Result := .next (ifaRun c {} (.alu .minu rd ra rb) s)
def execIfaMaxu (c : Fin 68) (rd ra rb : Fin 32) (s : State) : Result := .next (ifaRun c {} (.alu .maxu rd ra rb) s)
def execIfaMul (c : Fin 68) (rd ra rb : Fin 32) (s : State) : Result := .next (ifaRun c {} (.alu .mul rd ra rb) s)
def execIfaMulh (c : Fin 68) (rd ra rb : Fin 32) (s : State) : Result := .next (ifaRun c {} (.alu .mulh rd ra rb) s)
def execIfaMulhu (c : Fin 68) (rd ra rb : Fin 32) (s : State) : Result := .next (ifaRun c {} (.alu .mulhu rd ra rb) s)
def execIfaDiv (c : Fin 68) (rd ra rb : Fin 32) (s : State) : Result := .next (ifaRun c {} (.alu .div rd ra rb) s)
def execIfaDivu (c : Fin 68) (rd ra rb : Fin 32) (s : State) : Result := .next (ifaRun c {} (.alu .divu rd ra rb) s)
def execIfaRem (c : Fin 68) (rd ra rb : Fin 32) (s : State) : Result := .next (ifaRun c {} (.alu .rem rd ra rb) s)
def execIfaRemu (c : Fin 68) (rd ra rb : Fin 32) (s : State) : Result := .next (ifaRun c {} (.alu .remu rd ra rb) s)
def execIfaClz (c : Fin 68) (rd ra : Fin 32) (s : State) : Result := .next (ifaRun c {} (.alu .clz rd ra 0) s)
def execIfaPopc (c : Fin 68) (rd ra : Fin 32) (s : State) : Result := .next (ifaRun c {} (.alu .popc rd ra 0) s)
def execIfaAddi (c : Fin 68) (rd ra : Fin 32) (i : BitVec 16) (s : State) : Result := .next (ifaRun c {} (.imm .addi rd ra i) s)
def execIfaAndi (c : Fin 68) (rd ra : Fin 32) (i : BitVec 16) (s : State) : Result := .next (ifaRun c {} (.imm .andi rd ra i) s)
def execIfaOri (c : Fin 68) (rd ra : Fin 32) (i : BitVec 16) (s : State) : Result := .next (ifaRun c {} (.imm .ori rd ra i) s)
def execIfaXori (c : Fin 68) (rd ra : Fin 32) (i : BitVec 16) (s : State) : Result := .next (ifaRun c {} (.imm .xori rd ra i) s)
def execIfaSlti (c : Fin 68) (rd ra : Fin 32) (i : BitVec 16) (s : State) : Result := .next (ifaRun c {} (.imm .slti rd ra i) s)
def execIfaSltui (c : Fin 68) (rd ra : Fin 32) (i : BitVec 16) (s : State) : Result := .next (ifaRun c {} (.imm .sltui rd ra i) s)
def execIfaLui (c : Fin 68) (rd : Fin 32) (i : BitVec 16) (s : State) : Result := .next (ifaRun c {} (.imm .lui rd 0 i) s)
def execIfaShli (c : Fin 68) (rd ra n : Fin 32) (s : State) : Result := .next (ifaRun c {} (.imm .shli rd ra (BitVec.ofNat 16 n)) s)
def execIfaShri (c : Fin 68) (rd ra n : Fin 32) (s : State) : Result := .next (ifaRun c {} (.imm .shri rd ra (BitVec.ofNat 16 n)) s)
def execIfaSrai (c : Fin 68) (rd ra n : Fin 32) (s : State) : Result := .next (ifaRun c {} (.imm .srai rd ra (BitVec.ofNat 16 n)) s)
def execIfaRoli (c : Fin 68) (rd ra n : Fin 32) (s : State) : Result := .next (ifaRun c {} (.imm .roli rd ra (BitVec.ofNat 16 n)) s)
def execIfaLw (c : Fin 68) (rd ra : Fin 32) (i : BitVec 16) (tmo bad : Bool) (s : State) : Result := .next (ifaRun c { tmo := tmo, bad := bad } (.load 4 false rd ra i) s)
def execIfaLh (c : Fin 68) (rd ra : Fin 32) (i : BitVec 16) (tmo bad : Bool) (s : State) : Result := .next (ifaRun c { tmo := tmo, bad := bad } (.load 2 true rd ra i) s)
def execIfaLhu (c : Fin 68) (rd ra : Fin 32) (i : BitVec 16) (tmo bad : Bool) (s : State) : Result := .next (ifaRun c { tmo := tmo, bad := bad } (.load 2 false rd ra i) s)
def execIfaLb (c : Fin 68) (rd ra : Fin 32) (i : BitVec 16) (tmo bad : Bool) (s : State) : Result := .next (ifaRun c { tmo := tmo, bad := bad } (.load 1 true rd ra i) s)
def execIfaLbu (c : Fin 68) (rd ra : Fin 32) (i : BitVec 16) (tmo bad : Bool) (s : State) : Result := .next (ifaRun c { tmo := tmo, bad := bad } (.load 1 false rd ra i) s)
def execIfaSw (c : Fin 68) (rs ra : Fin 32) (i : BitVec 16) (s : State) : Result := .next (ifaRun c {} (.store 4 rs ra i) s)
def execIfaSh (c : Fin 68) (rs ra : Fin 32) (i : BitVec 16) (s : State) : Result := .next (ifaRun c {} (.store 2 rs ra i) s)
def execIfaSb (c : Fin 68) (rs ra : Fin 32) (i : BitVec 16) (s : State) : Result := .next (ifaRun c {} (.store 1 rs ra i) s)
/-- `n`: transfers after which the instruction gives way. -/
def execIfaStm (c : Fin 68) (base : Fin 8) (mask : BitVec 24) (n : Fin 25) (s : State) : Result := .next (ifaRun c { n := n } (.lsm false base mask) s)
def execIfaLdm (c : Fin 68) (base : Fin 8) (mask : BitVec 24) (n : Fin 25) (tmo bad : Bool) (s : State) : Result := .next (ifaRun c { tmo := tmo, bad := bad, n := n } (.lsm true base mask) s)
def execIfaBeq (c : Fin 68) (ra rb : Fin 32) (off : BitVec 16) (s : State) : Result := .next (ifaRun c {} (.branch .eq ra rb off) s)
def execIfaBne (c : Fin 68) (ra rb : Fin 32) (off : BitVec 16) (s : State) : Result := .next (ifaRun c {} (.branch .ne ra rb off) s)
def execIfaBlt (c : Fin 68) (ra rb : Fin 32) (off : BitVec 16) (s : State) : Result := .next (ifaRun c {} (.branch .lt ra rb off) s)
def execIfaBge (c : Fin 68) (ra rb : Fin 32) (off : BitVec 16) (s : State) : Result := .next (ifaRun c {} (.branch .ge ra rb off) s)
def execIfaBltu (c : Fin 68) (ra rb : Fin 32) (off : BitVec 16) (s : State) : Result := .next (ifaRun c {} (.branch .ltu ra rb off) s)
def execIfaBgeu (c : Fin 68) (ra rb : Fin 32) (off : BitVec 16) (s : State) : Result := .next (ifaRun c {} (.branch .geu ra rb off) s)
def execIfaBres (c : Fin 68) (off : BitVec 16) (s : State) : Result := .next (ifaRun c {} (.branch .resumed 0 0 off) s)
def execIfaJ (c : Fin 68) (off : BitVec 26) (s : State) : Result := .next (ifaRun c {} (.j off) s)
def execIfaCall (c : Fin 68) (off : BitVec 26) (s : State) : Result := .next (ifaRun c {} (.call off) s)
def execIfaCallw (c : Fin 68) (off : BitVec 26) (s : State) : Result := .next (ifaRun c {} (.callw off) s)
def execIfaJr (c : Fin 68) (ra : Fin 32) (s : State) : Result := .next (ifaRun c {} (.jr ra) s)
def execIfaCallr (c : Fin 68) (ra : Fin 32) (s : State) : Result := .next (ifaRun c {} (.callr ra) s)
def execIfaCallwr (c : Fin 68) (ra : Fin 32) (s : State) : Result := .next (ifaRun c {} (.callwr ra) s)
def execIfaRetw (c : Fin 68) (s : State) : Result := .next (ifaRun c {} (.retw) s)
def execIfaRfe (c : Fin 68) (s : State) : Result := .next (ifaRun c {} (.rfe) s)
def execIfaRff (c : Fin 68) (s : State) : Result := .next (ifaRun c {} (.rff) s)
def execIfaHalt (c : Fin 68) (s : State) : Result := .next (ifaRun c {} (.halt) s)
def execIfaWfi (c : Fin 68) (s : State) : Result := .next (ifaRun c {} (.wfi) s)
def execIfaFence (c : Fin 68) (s : State) : Result := .next (ifaRun c {} (.fence) s)
/-- The code stays in the instruction, where the handler finds it. -/
def execIfaSyscall (c : Fin 68) (code : BitVec 10) (s : State) : Result := .next (ifaRun c {} ((fun _ => .syscall) code) s)
def execIfaBreak (c : Fin 68) (code : BitVec 10) (s : State) : Result := .next (ifaRun c {} ((fun _ => .brk) code) s)
def execIfaSavectxLo (c : Fin 68) (ra : Fin 32) (s : State) : Result := .next (ifaRun c {} (.savectx false ra) s)
def execIfaSavectxHi (c : Fin 68) (ra : Fin 32) (s : State) : Result := .next (ifaRun c {} (.savectx true ra) s)
def execIfaLoadctxLo (c : Fin 68) (ra : Fin 32) (s : State) : Result := .next (ifaRun c {} (.loadctx false ra) s)
def execIfaLoadctxHi (c : Fin 68) (ra : Fin 32) (s : State) : Result := .next (ifaRun c {} (.loadctx true ra) s)
def execIfaIcinv (c : Fin 68) (ra : Fin 32) (s : State) : Result := .next (ifaRun c {} (.cache .icinv ra) s)
def execIfaDcinv (c : Fin 68) (ra : Fin 32) (s : State) : Result := .next (ifaRun c {} (.cache .dcinv ra) s)
def execIfaL2flush (c : Fin 68) (ra : Fin 32) (s : State) : Result := .next (ifaRun c {} (.cache .l2flush ra) s)
def execIfaL2inv (c : Fin 68) (ra : Fin 32) (s : State) : Result := .next (ifaRun c {} (.cache .l2inv ra) s)
def execIfaL2flinv (c : Fin 68) (ra : Fin 32) (s : State) : Result := .next (ifaRun c {} (.cache .l2flinv ra) s)
def execIfaMfc (c : Fin 68) (rd : Fin 32) (idx : BitVec 12) (s : State) : Result := .next (ifaRun c {} (.mfc rd idx.toNat) s)
def execIfaMtc (c : Fin 68) (rs : Fin 32) (idx : BitVec 12) (s : State) : Result := .next (ifaRun c {} (.mtc rs idx.toNat) s)
def execIfaVadd (c : Fin 68) (vd va vb : Fin 8) (dm : Fin 3) (sgn sat : Bool) (s : State) : Result := .next (ifaRun c {} (.vec .add vd va vb 0 dm sgn sat 0) s)
def execIfaVsub (c : Fin 68) (vd va vb : Fin 8) (dm : Fin 3) (sgn sat : Bool) (s : State) : Result := .next (ifaRun c {} (.vec .sub vd va vb 0 dm sgn sat 0) s)
def execIfaVmul (c : Fin 68) (vd va vb : Fin 8) (dm : Fin 3) (sgn sat : Bool) (s : State) : Result := .next (ifaRun c {} (.vec .mul vd va vb 0 dm sgn sat 0) s)
def execIfaVmin (c : Fin 68) (vd va vb : Fin 8) (dm : Fin 3) (sgn : Bool) (s : State) : Result := .next (ifaRun c {} (.vec .min vd va vb 0 dm sgn false 0) s)
def execIfaVmax (c : Fin 68) (vd va vb : Fin 8) (dm : Fin 3) (sgn : Bool) (s : State) : Result := .next (ifaRun c {} (.vec .max vd va vb 0 dm sgn false 0) s)
def execIfaVabsd (c : Fin 68) (vd va vb : Fin 8) (dm : Fin 3) (sgn : Bool) (s : State) : Result := .next (ifaRun c {} (.vec .absd vd va vb 0 dm sgn false 0) s)
def execIfaVcmplt (c : Fin 68) (vd va vb : Fin 8) (dm : Fin 3) (sgn : Bool) (s : State) : Result := .next (ifaRun c {} (.vec .cmplt vd va vb 0 dm sgn false 0) s)
def execIfaVand (c : Fin 68) (vd va vb : Fin 8) (s : State) : Result := .next (ifaRun c {} (.vec .and vd va vb 0 0 false false 0) s)
def execIfaVor (c : Fin 68) (vd va vb : Fin 8) (s : State) : Result := .next (ifaRun c {} (.vec .or vd va vb 0 0 false false 0) s)
def execIfaVxor (c : Fin 68) (vd va vb : Fin 8) (s : State) : Result := .next (ifaRun c {} (.vec .xor vd va vb 0 0 false false 0) s)
def execIfaVcmpeq (c : Fin 68) (vd va vb : Fin 8) (dm : Fin 3) (s : State) : Result := .next (ifaRun c {} (.vec .cmpeq vd va vb 0 dm false false 0) s)
def execIfaVshl (c : Fin 68) (vd va : Fin 8) (r : Fin 32) (dm : Fin 3) (sgn sat : Bool) (s : State) : Result := .next (ifaRun c {} (.vec .shl vd va 0 r dm sgn sat 0) s)
def execIfaVshr (c : Fin 68) (vd va : Fin 8) (r : Fin 32) (dm : Fin 3) (sgn : Bool) (s : State) : Result := .next (ifaRun c {} (.vec .shr vd va 0 r dm sgn false 0) s)
def execIfaVsplat (c : Fin 68) (vd : Fin 8) (r : Fin 32) (dm : Fin 3) (s : State) : Result := .next (ifaRun c {} (.vec .splat vd 0 0 r dm false false 0) s)
/-- An IDX at or beyond the number of lanes takes ILLEGAL. -/
def execIfaVext (c : Fin 68) (va : Fin 8) (r : Fin 32) (dm : Fin 3) (sgn : Bool) (idx : Fin 16) (s : State) : Result :=
  .next (atBoundary c (oneInstr c {} fun _ => if idx.val < vecLanes dm then some (.vec .ext 0 va 0 r dm sgn false idx) else none) s)
/-- An IDX at or beyond the number of lanes takes ILLEGAL. -/
def execIfaVins (c : Fin 68) (vd : Fin 8) (r : Fin 32) (dm : Fin 3) (idx : Fin 16) (s : State) : Result :=
  .next (atBoundary c (oneInstr c {} fun _ => if idx.val < vecLanes dm then some (.vec .ins vd 0 0 r dm false false idx) else none) s)
def execIfaVld (c : Fin 68) (v : Fin 8) (ra : Fin 32) (off : BitVec 16) (tmo bad : Bool) (s : State) : Result := .next (ifaRun c { tmo := tmo, bad := bad } (.vmem false v ra off) s)
def execIfaVst (c : Fin 68) (v : Fin 8) (ra : Fin 32) (off : BitVec 16) (s : State) : Result := .next (ifaRun c {} (.vmem true v ra off) s)
def execIfaFsw (c : Fin 68) (rm : Fin 32) (slot : Fin 16) (clean : Bool) (s : State) : Result := .next (ifaRun c {} (.fsw rm slot clean false) s)
def execIfaFswGo (c : Fin 68) (rm : Fin 32) (s : State) : Result := .next (ifaRun c {} (.fsw rm 0 false true) s)
def execIfaFld (c : Fin 68) (rm : Fin 32) (slot : Fin 16) (verify hbm : Bool) (s : State) : Result := .next (ifaRun c {} (.fld rm slot verify hbm) s)
def execIfaQput (c : Fin 68) (rd rm q : Fin 32) (epm : BitVec 3) (s : State) : Result := .next (ifaRun c {} (.qput rd rm q epm.toNat) s)
def execIfaQget (c : Fin 68) (rd rs rm q : Fin 32) (tmo bad : Bool) (s : State) : Result := .next (ifaRun c { tmo := tmo, bad := bad } (.qget rd rs rm q) s)
/-- `op`: the command minus one. -/
def execIfaQcmd (c : Fin 68) (rm q : Fin 32) (op : Fin 5) (s : State) : Result := .next (ifaRun c {} (.qcmd rm q (op + 1)) s)
def execIfaBsch (c : Fin 68) (act lo hi : Fin 32) (ch : Fin 64) (s : State) : Result := .next (ifaRun c {} (.bsch act lo hi ch) s)
def execIfaWfb (c : Fin 68) (rd seq rm : Fin 32) (ch : Fin 64) (tmo : Bool) (s : State) : Result := .next (ifaRun c { tmo := tmo } (.wfb rd seq rm ch) s)

/-! ### Events -/

/-- `w` is a reserved encoding. -/
def execIllegalInstruction (c : Fin 68) (w : Word) (s : State) : Result :=
  .next (s.when (decodeIfa w).isNone (atBoundary c (oneInstr c {} fun _ => none)))
def execInterruptEntry (c : Fin 68) (s : State) : Result := .next (interruptEntry c s)
def execFastInterrupt (c : Fin 68) (s : State) : Result := .next (fastInterrupt c s)
def execTimecmpMatch (c : Fin 68) (s : State) : Result := .next (timecmpMatch c s)
def execBusErr (c : Fin 68) (s : State) : Result := .next (busError c s)
def execSpill (i : Fin 4) (s : State) : Result := .next (spillEngine (64 + i) s)
def execFill (i : Fin 4) (s : State) : Result := .next (fillAhead (64 + i) s)
def execSpillResume (i : Fin 4) (s : State) : Result := .next (spillResume (64 + i) s)
def execWfbReturn (c : Fin 68) (s : State) : Result := .next (wfbReturn c s)
def execCallerStep (m : Fin 64) (tmo bad : Bool) (s : State) : Result :=
  .next (stepCore m { tmo := tmo, bad := bad } (stepRequest m s))
def execLeadStep (i : Fin 4) (tmo bad : Bool) (s : State) : Result :=
  .next (stepCore (64 + i) { tmo := tmo, bad := bad } (stepRequest (64 + i) s))

end Sys2Proof.Machine
end

