-- ==== Sys2Proof/Machine/Endpoints.lean ====
section
/-! DEFINITION. What endpoints do with the packets that their NI holds (R217, R221, R222, R498), and requests that
time out (R235). -/

namespace Sys2Proof.Machine

open Sys2Proof

/-- The oldest packet of its path is taken from its NI and acted on; a packet that is not there changes nothing. -/
def arrive (p : Packet) (act : State → State) (s : State) : State :=
  if here s p then act (takeInbox p s) else s

/-! ### Summit packets (R238, R245, R317) -/

/-- R165, R245: the words of a SUMMIT_WR, each with its bit of SPMASK, each in a bank of its own. -/
def summitWords (m : Nat) (p : Packet) : Nat → List Word → State → State
  | _, [], s => s
  | j, w :: l, s =>
    let x := (p.addr / 4 + j) % 2 ^ 18
    summitWords m p (j + 1) l (shelfWrite m x w (p.spmask.testBit j) (summitBank m (x % 16) s))

def summitWrite (p : Packet) (s : State) : State :=
  s.when (p.vn == 0 && p.typ == 0 && p.dst < 64 && p.dport == 0) (arrive p (summitWords p.dst p 0 p.words))

/-- R317: the core that a SUMMIT_BELL names; at EW3 and EW4, ADDR[0] chooses. -/
def bellCore (p : Packet) : Option Nat :=
  if p.dport != 2 then none
  else if p.dst < 64 then some p.dst
  else if p.dst == 83 then some (64 + p.addr % 2)
  else if p.dst == 84 then some (66 + p.addr % 2)
  else none

def summitBell (p : Packet) (s : State) : State :=
  match bellCore p with
  | some c => s.when (p.vn == 0 && p.typ == 1) (arrive p (ringBell c (p.words.headD 0) (p.spmask.testBit 0)))
  | none => s

/-! ### Memory requests (R187, R217, R221) -/

/-- R239: the packet is for a lane group in low power, at whose NI it is held until the group is up. -/
def groupSleeps (s : State) (p : Packet) : Bool :=
  64 ≤ p.dst && p.dst < 80 && p.dport < 2
    && s.flag (F.GRP_CTL_LP (if p.dst < 72 then 2 * (p.dst - 64) + p.dport else 16 + 2 * (p.dst - 72) + p.dport))

/-- MEM_RD and MEM_WR: a shelf and an HBM channel serve them; any other endpoint has no such address. -/
def memRequest (typ : Nat) (p : Packet) (s : State) : State :=
  if p.vn != 1 || p.typ != typ || !here s p || !endpointExists p.dst p.dport || groupSleeps s p then s
  else if p.dst < 64 && p.dport == 0 then shelfArrive p.dst p (takeInbox p s)
  else match channelAt p.dst p.dport with
    | some c => hbmArrive c p s
    | none => niSend { response p typ 1 with size := p.size } (takeInbox p s)

/-- BULK_WR: a posted write joins its channel's queue; elsewhere it is discarded (R234). -/
def bulkWrite (p : Packet) (s : State) : State :=
  if p.vn != 3 || p.typ != 2 || !here s p || groupSleeps s p then s
  else match channelAt p.dst p.dport with
    | some c => hbmArrive c p s
    | none => discardAt p.dst p (takeInbox p s)

/-! ### Register requests (R222, R390, R498) -/

/-- The register master that holds a request's tag at its NI (R390). -/
def masterOf (s : State) (p : Packet) : Master :=
  match (s.outReqs p.src).find? fun r => r.tag == p.tag with
  | some r => match r.owner with
    | .bar0 e _ _ => e + 1
    | .bar2 _ _ _ _ | .endpoint _ | .loader _ _ _ | .l2 _ | .l2Back _ => 0
    | .mgmt _ => 3
    | .core c _ | .wire c _ _ => if c < 64 then 8 + c else if c < 68 then 4 + (c - 64) else 0
  | none => 0

/-- Endpoint 3 of the router serves its registers: the massif is up, or takes what arrived before it closed
(R236), and no warm reset clears them (R430). -/
def regServes (s : State) (n : Nat) : Bool :=
  s.power.warmPhase != 3 && (decide (64 ≤ n) || decide (s.get (F.PWR_STAT_STATE n) ≤ 2))

def regReadArrive (p : Packet) (bad : Bool) (s : State) : State :=
  if p.vn != 1 || p.typ != 2 || p.dport != 3 || !regServes s p.dst then s
  else arrive p (fun t =>
    if servingRouter (p.addr % 2 ^ 32) != some p.dst then niSend (response p 2 1) t
    else match readReg (p.addr % 2 ^ 32) bad t with
      | (st, w, pz, t1) => niSend { response p 2 st with word := w, wordP := pz } t1) s

/-- R387, R390: a write of the management port that the mailbox refuses; its answer will say so. -/
def mgmtRefused (p : Packet) (s : State) : State :=
  s.when (masterOf s p == 3 && mbxRefuses s 3 (p.addr % 2 ^ 32)) fun t =>
    t.setOutReqs p.src ((t.outReqs p.src).map fun r => if r.tag == p.tag then { r with owner := .mgmt true } else r)

def regWriteArrive (p : Packet) (s : State) : State :=
  if p.vn != 1 || p.typ != 3 || p.dport != 3 || !regServes s p.dst then s
  else arrive p (fun t =>
    if servingRouter (p.addr % 2 ^ 32) != some p.dst then niSend (response p 3 1) t
    else match writeReg (masterOf s p) (p.addr % 2 ^ 32) p.word (mgmtRefused p t) with
      | (st, t1) => niSend (response p 3 st) t1) s

/-- POSTED_WR: no acknowledgement. -/
def postedWrite (p : Packet) (s : State) : State :=
  if p.vn != 4 || p.typ != 2 || p.dport != 3 || !regServes s p.dst then s
  else arrive p (fun t =>
    if servingRouter (p.addr % 2 ^ 32) != some p.dst then discardAt p.dst p t
    else (writeReg 0 (p.addr % 2 ^ 32) p.word t).2) s

/-! ### Responses (R219, R232, R310, R380, R381, R387) -/

/-- What a response brings to its requester; a read that fails has zero data, with P = 1 for TIMEOUT (R222). -/
def answerOf (p : Packet) : VnReply :=
  if p.status != 0 then
    { status := p.status, bytes := List.replicate (p.size + 1) (0, p.status == 3), poison := p.status == 3 }
  else if p.typ == 0 then
    { bytes := (p.data.zipIdx).map fun x => (x.1.1, p.pmask.testBit (x.2 / 4)), poison := p.pmask != 0 }
  else { word := p.word, poison := p.wordP }

/-- A completion; EP and PCI_POISONTX follow the poison of its data. -/
def sendCompletion (e tag : Nat) (data : List Byte) (ep : Bool) (s : State) : State :=
  (s.emit (.completion e tag false data ep)).when ep fun t => t.count (F.PCI_POISONTX_VALUE e) 1

/-- R381: the completions of a read leave in the order of its parts, each once its response has come. -/
def bar2Send : Nat → Bar2Read → State → Bar2Read × State
  | 0, r, s => (r, s)
  | n + 1, r, s => match r.got.get r.sent none with
    | none => (r, s)
    | some (bad, bytes, poison) => bar2Send n { r with sent := r.sent + 1 }
        (if bad then s.emit (.completion r.e r.tag true [] false) else sendCompletion r.e r.tag bytes poison s)

/-- R381: the response to part `k` of a BAR2 read. -/
def bar2Answer (e tag k : Nat) (a : VnReply) (s : State) : State :=
  match s.host.bar2Reads.find? fun r => r.e == e && r.tag == tag with
  | none => s
  | some r =>
    let (r', s1) := bar2Send r.parts { r with got := r.got.set k (some (a.status == 1 || a.status == 2, a.bytes.map (·.1), a.poison)) none } s
    setHost (fun h => { h with bar2Reads :=
      if r'.parts ≤ r'.sent then h.bar2Reads.erase r else h.bar2Reads.map fun x => if x == r then r' else x }) s1

/-- A response does its work at the requester that holds the tag. `read`: the request was a read. -/
def requester (o : TagOwner) (read : Bool) (a : VnReply) (s : State) : State :=
  match o with
  | .bar0 e tag false =>
    if a.status == 1 || a.status == 2 then s.emit (.completion e tag true [] false)
    else sendCompletion e tag ((List.range 4).map (byteOf a.word)) a.poison s
  | .bar0 e _ true => s.when (a.status == 1 || a.status == 2) (badReq e)
  | .bar2 e tag false k => bar2Answer e tag k a s
  | .bar2 _ _ true _ => s
  | .mgmt waits => mgmtAnswer read waits a s
  | .core c addr => s.when (a.status != 0) (storeError c addr)
  | .loader m k gen => loaderAnswer m k gen (a.status != 0) a.bytes s
  | .wire k i gen => wireReply k i gen a s
  | .l2 line => l2Filled line a s
  | .l2Back _ | .endpoint _ => s

/-- Requests that waited for a tag of NI `n` are issued. -/
def tagFreed (n : Nat) (o : TagOwner) (s : State) : State :=
  let s1 := match o with
    | .mgmt _ | .endpoint 2 => if n == smcRouter then mgmtPump 64 (windowPump 64 s) else s
    | .bar0 e _ _ | .bar2 e _ _ _ => bar2Pump e 64 s
    | .core c _ => corePump 8 c s
    | .l2 _ | .l2Back _ => l2Pump 64 s
    | _ => s
  let s2 := s1.each 8 fun c t => t.when (ethRouter c == n) (xrxPump c (t.ethCl c).rx.length)
  s2.when (decide (n < 64)) (loaderPump n)

/-- A response of type `typ` completes its request and frees the tag. -/
def completeReq (typ : Nat) (p : Packet) (s : State) : State :=
  if p.vn != 2 || p.typ != typ then s
  else match matchReq s p with
    | none => s
    | some r => arrive p (fun t =>
        tagFreed p.dst r.owner (requester r.owner (typ % 2 == 0) (answerOf p)
          (t.setOutReqs p.dst ((t.outReqs p.dst).erase r)))) s

/-! ### Time-outs (R235) -/

/-- Packets of requests that hold tag `t` of NI `n` read, by the type of the request that still waits. -/
def ownerReads (o : TagOwner) (read : Bool) : Bool :=
  match o with
  | .bar0 _ _ w | .bar2 _ _ w _ => !w
  | .core _ _ => false
  | .loader _ _ _ | .l2 _ => true
  | .l2Back _ => false
  | .mgmt _ | .wire _ _ _ | .endpoint _ => read

/-- R235: a request of NI `n` has had no response for RQ_TIMEOUT cycles. It completes with TIMEOUT, and its tag
stays reserved until the late response. `read` and `size`: whether it was a read, and of how many bytes. -/
def requestTimeout (n tag : Nat) (read : Bool) (size : Nat) (s : State) : State :=
  if s.get F.RQ_TIMEOUT_CYCLES == 0 then s
  else match (s.outReqs n).find? fun r => r.tag == tag && !r.expired with
    | none => s
    | some r =>
      let s1 := s.setOutReqs n ((s.outReqs n).map fun x => if x == r then { x with expired := true } else x)
      tagFreed n r.owner (requester r.owner (ownerReads r.owner read)
        { status := 3, bytes := List.replicate (size + 1) (0, true), poison := true } (timeoutCount n s1))

/-! ### Streams, reports and the rest (R138, R150, R153, R221) -/

/-- A STREAM packet's words enter its queue; those that the queue cannot take yet wait at the NI, and so does all
of the packet while the queue takes no words from the Ridge. -/
def streamArrive (p : Packet) (s : State) : State :=
  let m := p.dst
  let q := p.addr % 32
  if p.vn != 3 || p.typ != 0 || !(p.dst < 64) || p.dport != 1 || !here s p || 2 < s.get (F.PWR_STAT_STATE m)
    || s.get (F.SQ_CTL_WSRC m q) != 1 then s
  else match streamWords m q p.stream s with
    | ([], t) => takeInbox p t
    | (l, t) => t.setInbox m ((t.inbox m).map fun x => if x == p then { p with stream := l, size := l.length - 1 } else x)

/-- A REPORT packet at the collector's endpoint. -/
def reportEnter (p : Packet) (s : State) : State :=
  s.when (p.vn == 3 && p.typ == 1 && p.dst == 92 && p.dport == 2 && p.src < 64) (arrive p (reportArrive p))

/-- A packet taken by an endpoint for which the spec gives no further effect: MIRROR at either end of the pair
block's traffic, ERR_RECORD at the SMC. -/
def packetTaken (vn typ : Nat) (p : Packet) (s : State) : State := s.when (p.vn == vn && p.typ == typ) (arrive p id)

/-! ### The meanings -/

def execSummitWr (p : Packet) (s : State) : Result := .next (summitWrite p s)
def execSummitBell (p : Packet) (s : State) : Result := .next (summitBell p s)
def execMemRd (p : Packet) (s : State) : Result := .next (memRequest 0 p s)
def execMemWr (p : Packet) (s : State) : Result := .next (memRequest 1 p s)
/-- `bad`: the queue word that a read of SQ_GET takes fails its parity check (R208). -/
def execRegRd (p : Packet) (bad : Bool) (s : State) : Result := .next (regReadArrive p bad s)
def execRegWr (p : Packet) (s : State) : Result := .next (regWriteArrive p s)
def execMemRdresp (p : Packet) (s : State) : Result := .next (completeReq 0 p s)
def execMemWrack (p : Packet) (s : State) : Result := .next (completeReq 1 p s)
def execRegRdresp (p : Packet) (s : State) : Result := .next (completeReq 2 p s)
def execRegWrack (p : Packet) (s : State) : Result := .next (completeReq 3 p s)
def execStream (p : Packet) (s : State) : Result := .next (streamArrive p s)
def execReport (p : Packet) (s : State) : Result := .next (reportEnter p s)
def execBulkWr (p : Packet) (s : State) : Result := .next (bulkWrite p s)
def execMirror (p : Packet) (s : State) : Result := .next (packetTaken 3 3 p s)
def execErrRecord (p : Packet) (s : State) : Result := .next (packetTaken 4 1 p s)
def execPostedWr (p : Packet) (s : State) : Result := .next (postedWrite p s)
/-- `read`, `size`: what the request asked for, which the tag's owner alone does not tell. -/
def execRequestTimeout (n : Fin 96) (tag : Fin 64) (read : Bool) (size : Byte) (s : State) : Result :=
  .next (requestTimeout n tag read size.toNat s)

end Sys2Proof.Machine
end

