-- ==== Sys2Proof/Machine/Dispatch.lean ====
section
/-! DEFINITION. One arm per command: a direct call of its meaning. -/

namespace Sys2Proof.Machine

open Sys2Proof

def exec (i : Instr) (s : State) : Host.Outcome State Fault Refusal :=
  match i with
  | .encoderTransition n a b => Sys2Proof.Machine.execEncoderTransition n a b s
  | .zEdge n z => Sys2Proof.Machine.execZEdge n z s
  | .encLoad n => Sys2Proof.Machine.execEncLoad n s
  | .encPosWrite n v => Sys2Proof.Machine.execEncPosWrite n v s
  | .encEnable n v => Sys2Proof.Machine.execEncEnable n v s
  | .snapCapture => Sys2Proof.Machine.execSnapCapture s
  | .pendedBeatDue c => Sys2Proof.Machine.execPendedBeatDue c s
  | .timeBeat c => Sys2Proof.Machine.execTimeBeat c s
  | .schedPush c v => Sys2Proof.Machine.execSchedPush c v s
  | .schedEntryDue c => Sys2Proof.Machine.execSchedEntryDue c s
  | .bcCtlWrite c v => Sys2Proof.Machine.execBcCtlWrite c v s
  | .lateBeatEmit c => Sys2Proof.Machine.execLateBeatEmit c s
  | .beatTreeEntry => Sys2Proof.Machine.execBeatTreeEntry s
  | .beatDelivery => Sys2Proof.Machine.execBeatDelivery s
  | .beatOutputEdge o => Sys2Proof.Machine.execBeatOutputEdge o s
  | .pulseEnd o => Sys2Proof.Machine.execPulseEnd o s
  | .boCtlWrite o v => Sys2Proof.Machine.execBoCtlWrite o v s
  | .announceSend p => Sys2Proof.Machine.execAnnounceSend p s
  | .announce p id rootId rootPri parent depth rootSeq lead => Sys2Proof.Machine.execAnnounce p id rootId rootPri parent depth rootSeq lead s
  | .syncSend p frac => Sys2Proof.Machine.execSyncSend p frac s
  | .sync p ts age => Sys2Proof.Machine.execSync p ts age s
  | .phaseSlewStep => Sys2Proof.Machine.execPhaseSlewStep s
  | .dreqSend p frac => Sys2Proof.Machine.execDreqSend p frac s
  | .dreq p seq age frac => Sys2Proof.Machine.execDreq p seq age frac s
  | .dresp p seq t2 t3 age => Sys2Proof.Machine.execDresp p seq t2 t3 age s
  | .posSend c => Sys2Proof.Machine.execPosSend c s
  | .pos p origin c loadSeq pn tn vel ts => Sys2Proof.Machine.execPos p origin c loadSeq pn tn vel ts s
  | .sampleEffect c => Sys2Proof.Machine.execSampleEffect c s
  | .followerTransition n => Sys2Proof.Machine.execFollowerTransition n s
  | .stale n => Sys2Proof.Machine.execStale n s
  | .beatFrame p origin ch act tfrac seq pos time => Sys2Proof.Machine.execBeatFrame p origin ch act tfrac seq pos time s
  | .schedFrame p origin tsq byTime act value => Sys2Proof.Machine.execSchedFrame p origin tsq byTime act value s
  | .releaseAt p origin group tpc pos => Sys2Proof.Machine.execReleaseAt p origin group tpc pos s
  | .releaseAtSend => Sys2Proof.Machine.execReleaseAtSend s
  | .pairClaim p origin arg => Sys2Proof.Machine.execPairClaim p origin arg s
  | .pairGrant p origin arg => Sys2Proof.Machine.execPairGrant p origin arg s
  | .tempoFrameDiscard p noise => Sys2Proof.Machine.execTempoFrameDiscard p noise s
  | .linkDown p => Sys2Proof.Machine.execLinkDown p s
  | .linkUp p => Sys2Proof.Machine.execLinkUp p s
  | .rootLost => Sys2Proof.Machine.execRootLost s
  | .firing m t => Sys2Proof.Machine.execFiring m t s
  | .markerFiring m t => Sys2Proof.Machine.execMarkerFiring m t s
  | .resultWriteback m ty tx => Sys2Proof.Machine.execResultWriteback m ty tx s
  | .wordHop m t g => Sys2Proof.Machine.execWordHop m t g s
  | .colQueueDelivery m face place track bad => Sys2Proof.Machine.execColQueueDelivery m face place track bad s
  | .hwclr m face => Sys2Proof.Machine.execHwclr m face s
  | .feedDelivery p f laneBad feedBad => Sys2Proof.Machine.execFeedDelivery p f laneBad feedBad s
  | .feedCtlWrite p v => Sys2Proof.Machine.execFeedCtlWrite p v s
  | .feedSelChange p f => Sys2Proof.Machine.execFeedSelChange p f s
  | .slotParityError m t flip => Sys2Proof.Machine.execSlotParityError m t flip s
  | .load m v => Sys2Proof.Machine.execLoad m v s
  | .loadDone m slot => Sys2Proof.Machine.execLoadDone m slot s
  | .verify m v => Sys2Proof.Machine.execVerify m v s
  | .verifyDone m => Sys2Proof.Machine.execVerifyDone m s
  | .countTrigger m => Sys2Proof.Machine.execCountTrigger m s
  | .queueTrigger m => Sys2Proof.Machine.execQueueTrigger m s
  | .flagTrigger m => Sys2Proof.Machine.execFlagTrigger m s
  | .go m => Sys2Proof.Machine.execGo m s
  | .cleanSwitchHold m => Sys2Proof.Machine.execCleanSwitchHold m s
  | .boundaryTimeout m => Sys2Proof.Machine.execBoundaryTimeout m s
  | .switchEdge m last => Sys2Proof.Machine.execSwitchEdge m last s
  | .seqRun m v => Sys2Proof.Machine.execSeqRun m v s
  | .seqHalt m v => Sys2Proof.Machine.execSeqHalt m v s
  | .force m slot clean => Sys2Proof.Machine.execForce m slot clean s
  | .queueWrite m q => Sys2Proof.Machine.execQueueWrite m q s
  | .cairnCommit r => Sys2Proof.Machine.execCairnCommit r s
  | .queueRead m q bad => Sys2Proof.Machine.execQueueRead m q bad s
  | .sqCtlWrite m q v => Sys2Proof.Machine.execSqCtlWrite m q v s
  | .sqBindWrite m q v => Sys2Proof.Machine.execSqBindWrite m q v s
  | .sqQuotaWrite m q v => Sys2Proof.Machine.execSqQuotaWrite m q v s
  | .queueClear m q v => Sys2Proof.Machine.execQueueClear m q v s
  | .mark m q => Sys2Proof.Machine.execMark m q s
  | .rewind m q => Sys2Proof.Machine.execRewind m q s
  | .releaseRead m q => Sys2Proof.Machine.execReleaseRead m q s
  | .releaseMark m q => Sys2Proof.Machine.execReleaseMark m q s
  | .releasePkt m q => Sys2Proof.Machine.execReleasePkt m q s
  | .tailTimeout r => Sys2Proof.Machine.execTailTimeout r s
  | .forceEnd r => Sys2Proof.Machine.execForceEnd r s
  | .put m q v => Sys2Proof.Machine.execPut m q v s
  | .get m q bad => Sys2Proof.Machine.execGet m q bad s
  | .streamSend m q bad => Sys2Proof.Machine.execStreamSend m q bad s
  | .reportForm m bad => Sys2Proof.Machine.execReportForm m bad s
  | .collectorSelect bad => Sys2Proof.Machine.execCollectorSelect bad s
  | .collectorOutput bytes bad => Sys2Proof.Machine.execCollectorOutput bytes bad s
  | .laneQueueWrite l w => Sys2Proof.Machine.execLaneQueueWrite l w s
  | .shelfGrant m bank => Sys2Proof.Machine.execShelfGrant m bank s
  | .shelfPortRequest m p => Sys2Proof.Machine.execShelfPortRequest m p s
  | .shelfPortWrite m p => Sys2Proof.Machine.execShelfPortWrite m p s
  | .shelfPortResponse m p => Sys2Proof.Machine.execShelfPortResponse m p s
  | .shelfClear m => Sys2Proof.Machine.execShelfClear m s
  | .shelfClearDone m => Sys2Proof.Machine.execShelfClearDone m s
  | .bmCfgWrite m k v => Sys2Proof.Machine.execBmCfgWrite m k v s
  | .bmAccess m v => Sys2Proof.Machine.execBmAccess m v s
  | .bmAccessDone m => Sys2Proof.Machine.execBmAccessDone m s
  | .hbmMapWrite v => Sys2Proof.Machine.execHbmMapWrite v s
  | .hbmAdmit c => Sys2Proof.Machine.execHbmAdmit c s
  | .hbmComplete c ix od => Sys2Proof.Machine.execHbmComplete c ix od s
  | .hbmLockedReread r => Sys2Proof.Machine.execHbmLockedReread r s
  | .hbmSelfrefWake c => Sys2Proof.Machine.execHbmSelfrefWake c s
  | .scrubDue m => Sys2Proof.Machine.execScrubDue m s
  | .scrubWriteback m => Sys2Proof.Machine.execScrubWriteback m s
  | .repairRequest m => Sys2Proof.Machine.execRepairRequest m s
  | .hbmInit c => Sys2Proof.Machine.execHbmInit c s
  | .hbmInitDone c => Sys2Proof.Machine.execHbmInitDone c s
  | .hbmScrubDue c => Sys2Proof.Machine.execHbmScrubDue c s
  | .celogRead m => Sys2Proof.Machine.execCelogRead m s
  | .selfRepairCommit m bank prow => Sys2Proof.Machine.execSelfRepairCommit m bank prow s
  | .inject n v => Sys2Proof.Machine.execInject n v s
  | .flitForward r inp v err chk => Sys2Proof.Machine.execFlitForward r inp v err chk s
  | .summitWr p => Sys2Proof.Machine.execSummitWr p s
  | .summitBell p => Sys2Proof.Machine.execSummitBell p s
  | .memRd p => Sys2Proof.Machine.execMemRd p s
  | .memWr p => Sys2Proof.Machine.execMemWr p s
  | .regRd p bad => Sys2Proof.Machine.execRegRd p bad s
  | .regWr p => Sys2Proof.Machine.execRegWr p s
  | .memRdresp p => Sys2Proof.Machine.execMemRdresp p s
  | .memWrack p => Sys2Proof.Machine.execMemWrack p s
  | .regRdresp p => Sys2Proof.Machine.execRegRdresp p s
  | .regWrack p => Sys2Proof.Machine.execRegWrack p s
  | .stream p => Sys2Proof.Machine.execStream p s
  | .report p => Sys2Proof.Machine.execReport p s
  | .bulkWr p => Sys2Proof.Machine.execBulkWr p s
  | .mirror p => Sys2Proof.Machine.execMirror p s
  | .irqMsg c line => Sys2Proof.Machine.execIrqMsg c line s
  | .errRecord p => Sys2Proof.Machine.execErrRecord p s
  | .postedWr p => Sys2Proof.Machine.execPostedWr p s
  | .packetDiscard p => Sys2Proof.Machine.execPacketDiscard p s
  | .lateResponse p => Sys2Proof.Machine.execLateResponse p s
  | .requestTimeout n tag read size => Sys2Proof.Machine.execRequestTimeout n tag read size s
  | .stall n v => Sys2Proof.Machine.execStall n v s
  | .tokenAdd n v => Sys2Proof.Machine.execTokenAdd n v s
  | .rgCfgWrite n v w => Sys2Proof.Machine.execRgCfgWrite n v w s
  | .activation v => Sys2Proof.Machine.execActivation v s
  | .activationSwap => Sys2Proof.Machine.execActivationSwap s
  | .activationAbort => Sys2Proof.Machine.execActivationAbort s
  | .gate m gate => Sys2Proof.Machine.execGate m gate s
  | .gateClose m => Sys2Proof.Machine.execGateClose m s
  | .gated m => Sys2Proof.Machine.execGated m s
  | .wake m => Sys2Proof.Machine.execWake m s
  | .wakeActive m => Sys2Proof.Machine.execWakeActive m s
  | .wakeReloadDone m => Sys2Proof.Machine.execWakeReloadDone m s
  | .callerWakeCopy m => Sys2Proof.Machine.execCallerWakeCopy m s
  | .addR c rd ra rb => Sys2Proof.Machine.execIfaAdd c rd ra rb s
  | .subR c rd ra rb => Sys2Proof.Machine.execIfaSub c rd ra rb s
  | .andR c rd ra rb => Sys2Proof.Machine.execIfaAnd c rd ra rb s
  | .orR c rd ra rb => Sys2Proof.Machine.execIfaOr c rd ra rb s
  | .xorR c rd ra rb => Sys2Proof.Machine.execIfaXor c rd ra rb s
  | .andn c rd ra rb => Sys2Proof.Machine.execIfaAndn c rd ra rb s
  | .shl c rd ra rb => Sys2Proof.Machine.execIfaShl c rd ra rb s
  | .shr c rd ra rb => Sys2Proof.Machine.execIfaShr c rd ra rb s
  | .sra c rd ra rb => Sys2Proof.Machine.execIfaSra c rd ra rb s
  | .rol c rd ra rb => Sys2Proof.Machine.execIfaRol c rd ra rb s
  | .slt c rd ra rb => Sys2Proof.Machine.execIfaSlt c rd ra rb s
  | .sltu c rd ra rb => Sys2Proof.Machine.execIfaSltu c rd ra rb s
  | .minR c rd ra rb => Sys2Proof.Machine.execIfaMin c rd ra rb s
  | .maxR c rd ra rb => Sys2Proof.Machine.execIfaMax c rd ra rb s
  | .minu c rd ra rb => Sys2Proof.Machine.execIfaMinu c rd ra rb s
  | .maxu c rd ra rb => Sys2Proof.Machine.execIfaMaxu c rd ra rb s
  | .clz c rd ra => Sys2Proof.Machine.execIfaClz c rd ra s
  | .popc c rd ra => Sys2Proof.Machine.execIfaPopc c rd ra s
  | .mulR c rd ra rb => Sys2Proof.Machine.execIfaMul c rd ra rb s
  | .mulh c rd ra rb => Sys2Proof.Machine.execIfaMulh c rd ra rb s
  | .mulhu c rd ra rb => Sys2Proof.Machine.execIfaMulhu c rd ra rb s
  | .divR c rd ra rb => Sys2Proof.Machine.execIfaDiv c rd ra rb s
  | .divu c rd ra rb => Sys2Proof.Machine.execIfaDivu c rd ra rb s
  | .rem c rd ra rb => Sys2Proof.Machine.execIfaRem c rd ra rb s
  | .remu c rd ra rb => Sys2Proof.Machine.execIfaRemu c rd ra rb s
  | .addi c rd ra ix => Sys2Proof.Machine.execIfaAddi c rd ra ix s
  | .andi c rd ra ix => Sys2Proof.Machine.execIfaAndi c rd ra ix s
  | .ori c rd ra ix => Sys2Proof.Machine.execIfaOri c rd ra ix s
  | .xori c rd ra ix => Sys2Proof.Machine.execIfaXori c rd ra ix s
  | .slti c rd ra ix => Sys2Proof.Machine.execIfaSlti c rd ra ix s
  | .sltui c rd ra ix => Sys2Proof.Machine.execIfaSltui c rd ra ix s
  | .lui c rd ix => Sys2Proof.Machine.execIfaLui c rd ix s
  | .shli c rd ra n => Sys2Proof.Machine.execIfaShli c rd ra n s
  | .shri c rd ra n => Sys2Proof.Machine.execIfaShri c rd ra n s
  | .srai c rd ra n => Sys2Proof.Machine.execIfaSrai c rd ra n s
  | .roli c rd ra n => Sys2Proof.Machine.execIfaRoli c rd ra n s
  | .lw c rd ra ix tmo bad => Sys2Proof.Machine.execIfaLw c rd ra ix tmo bad s
  | .lh c rd ra ix tmo bad => Sys2Proof.Machine.execIfaLh c rd ra ix tmo bad s
  | .lhu c rd ra ix tmo bad => Sys2Proof.Machine.execIfaLhu c rd ra ix tmo bad s
  | .lb c rd ra ix tmo bad => Sys2Proof.Machine.execIfaLb c rd ra ix tmo bad s
  | .lbu c rd ra ix tmo bad => Sys2Proof.Machine.execIfaLbu c rd ra ix tmo bad s
  | .sw c rs ra ix => Sys2Proof.Machine.execIfaSw c rs ra ix s
  | .sh c rs ra ix => Sys2Proof.Machine.execIfaSh c rs ra ix s
  | .sb c rs ra ix => Sys2Proof.Machine.execIfaSb c rs ra ix s
  | .stm c base mask n => Sys2Proof.Machine.execIfaStm c base mask n s
  | .ldm c base mask n tmo bad => Sys2Proof.Machine.execIfaLdm c base mask n tmo bad s
  | .beq c ra rb off => Sys2Proof.Machine.execIfaBeq c ra rb off s
  | .bne c ra rb off => Sys2Proof.Machine.execIfaBne c ra rb off s
  | .blt c ra rb off => Sys2Proof.Machine.execIfaBlt c ra rb off s
  | .bge c ra rb off => Sys2Proof.Machine.execIfaBge c ra rb off s
  | .bltu c ra rb off => Sys2Proof.Machine.execIfaBltu c ra rb off s
  | .bgeu c ra rb off => Sys2Proof.Machine.execIfaBgeu c ra rb off s
  | .bres c off => Sys2Proof.Machine.execIfaBres c off s
  | .j c off => Sys2Proof.Machine.execIfaJ c off s
  | .call c off => Sys2Proof.Machine.execIfaCall c off s
  | .callw c off => Sys2Proof.Machine.execIfaCallw c off s
  | .jr c ra => Sys2Proof.Machine.execIfaJr c ra s
  | .callr c ra => Sys2Proof.Machine.execIfaCallr c ra s
  | .callwr c ra => Sys2Proof.Machine.execIfaCallwr c ra s
  | .retw c => Sys2Proof.Machine.execIfaRetw c s
  | .rfe c => Sys2Proof.Machine.execIfaRfe c s
  | .rff c => Sys2Proof.Machine.execIfaRff c s
  | .syscall c code => Sys2Proof.Machine.execIfaSyscall c code s
  | .break c code => Sys2Proof.Machine.execIfaBreak c code s
  | .halt c => Sys2Proof.Machine.execIfaHalt c s
  | .wfi c => Sys2Proof.Machine.execIfaWfi c s
  | .fence c => Sys2Proof.Machine.execIfaFence c s
  | .savectxLo c ra => Sys2Proof.Machine.execIfaSavectxLo c ra s
  | .savectxHi c ra => Sys2Proof.Machine.execIfaSavectxHi c ra s
  | .loadctxLo c ra => Sys2Proof.Machine.execIfaLoadctxLo c ra s
  | .loadctxHi c ra => Sys2Proof.Machine.execIfaLoadctxHi c ra s
  | .icinv c ra => Sys2Proof.Machine.execIfaIcinv c ra s
  | .dcinv c ra => Sys2Proof.Machine.execIfaDcinv c ra s
  | .l2flush c ra => Sys2Proof.Machine.execIfaL2flush c ra s
  | .l2inv c ra => Sys2Proof.Machine.execIfaL2inv c ra s
  | .l2flinv c ra => Sys2Proof.Machine.execIfaL2flinv c ra s
  | .mfc c rd idx => Sys2Proof.Machine.execIfaMfc c rd idx s
  | .mtc c rs idx => Sys2Proof.Machine.execIfaMtc c rs idx s
  | .spillResume ix => Sys2Proof.Machine.execSpillResume ix s
  | .vadd c vd va vb dm sgn sat => Sys2Proof.Machine.execIfaVadd c vd va vb dm sgn sat s
  | .vsub c vd va vb dm sgn sat => Sys2Proof.Machine.execIfaVsub c vd va vb dm sgn sat s
  | .vmul c vd va vb dm sgn sat => Sys2Proof.Machine.execIfaVmul c vd va vb dm sgn sat s
  | .vmin c vd va vb dm sgn => Sys2Proof.Machine.execIfaVmin c vd va vb dm sgn s
  | .vmax c vd va vb dm sgn => Sys2Proof.Machine.execIfaVmax c vd va vb dm sgn s
  | .vabsd c vd va vb dm sgn => Sys2Proof.Machine.execIfaVabsd c vd va vb dm sgn s
  | .vand c vd va vb => Sys2Proof.Machine.execIfaVand c vd va vb s
  | .vor c vd va vb => Sys2Proof.Machine.execIfaVor c vd va vb s
  | .vxor c vd va vb => Sys2Proof.Machine.execIfaVxor c vd va vb s
  | .vcmpeq c vd va vb dm => Sys2Proof.Machine.execIfaVcmpeq c vd va vb dm s
  | .vcmplt c vd va vb dm sgn => Sys2Proof.Machine.execIfaVcmplt c vd va vb dm sgn s
  | .vshl c vd va r dm sgn sat => Sys2Proof.Machine.execIfaVshl c vd va r dm sgn sat s
  | .vshr c vd va r dm sgn => Sys2Proof.Machine.execIfaVshr c vd va r dm sgn s
  | .vsplat c vd r dm => Sys2Proof.Machine.execIfaVsplat c vd r dm s
  | .vext c va r dm sgn idx => Sys2Proof.Machine.execIfaVext c va r dm sgn idx s
  | .vins c vd r dm idx => Sys2Proof.Machine.execIfaVins c vd r dm idx s
  | .vld c v ra off tmo bad => Sys2Proof.Machine.execIfaVld c v ra off tmo bad s
  | .vst c v ra off => Sys2Proof.Machine.execIfaVst c v ra off s
  | .fsw c rm slot clean => Sys2Proof.Machine.execIfaFsw c rm slot clean s
  | .fswGo c rm => Sys2Proof.Machine.execIfaFswGo c rm s
  | .fld c rm slot verify hbm => Sys2Proof.Machine.execIfaFld c rm slot verify hbm s
  | .qput c rd rm q epm => Sys2Proof.Machine.execIfaQput c rd rm q epm s
  | .qget c rd rs rm q tmo bad => Sys2Proof.Machine.execIfaQget c rd rs rm q tmo bad s
  | .qcmd c rm q op => Sys2Proof.Machine.execIfaQcmd c rm q op s
  | .bsch c act lo hi ch => Sys2Proof.Machine.execIfaBsch c act lo hi ch s
  | .wfb c rd seq rm ch tmo => Sys2Proof.Machine.execIfaWfb c rd seq rm ch tmo s
  | .wfbReturn c => Sys2Proof.Machine.execWfbReturn c s
  | .illegalInstruction c w => Sys2Proof.Machine.execIllegalInstruction c w s
  | .interruptEntry c => Sys2Proof.Machine.execInterruptEntry c s
  | .fastInterrupt c => Sys2Proof.Machine.execFastInterrupt c s
  | .timecmpMatch c => Sys2Proof.Machine.execTimecmpMatch c s
  | .busErr c => Sys2Proof.Machine.execBusErr c s
  | .spill ix => Sys2Proof.Machine.execSpill ix s
  | .fill ix => Sys2Proof.Machine.execFill ix s
  | .callerRun m => Sys2Proof.Machine.execCallerRun m s
  | .callerHaltreq m => Sys2Proof.Machine.execCallerHaltreq m s
  | .callerStep m tmo bad => Sys2Proof.Machine.execCallerStep m tmo bad s
  | .callerResume m => Sys2Proof.Machine.execCallerResume m s
  | .leadHaltreq ix => Sys2Proof.Machine.execLeadHaltreq ix s
  | .leadStep ix tmo bad => Sys2Proof.Machine.execLeadStep ix tmo bad s
  | .leadResume ix => Sys2Proof.Machine.execLeadResume ix s
  | .leadRestart ix => Sys2Proof.Machine.execLeadRestart ix s
  | .dbgDataWrite c v => Sys2Proof.Machine.execDbgDataWrite c v s
  | .tileWindowWrite m v lost => Sys2Proof.Machine.execTileWindowWrite m v lost s
  | .summitSend c => Sys2Proof.Machine.execSummitSend c s
  | .helloSend => Sys2Proof.Machine.execHelloSend s
  | .hello pairId tmpId st pref digest epoch => Sys2Proof.Machine.execHello pairId tmpId st pref digest epoch s
  | .helloTimeout arbHigh => Sys2Proof.Machine.execHelloTimeout arbHigh s
  | .heartbeatSend => Sys2Proof.Machine.execHeartbeatSend s
  | .heartbeat st ready => Sys2Proof.Machine.execHeartbeat st ready s
  | .heartbeatLoss arbHigh => Sys2Proof.Machine.execHeartbeatLoss arbHigh s
  | .arbTimeout => Sys2Proof.Machine.execArbTimeout s
  | .mwr m w words epoch => Sys2Proof.Machine.execMwr m w words epoch s
  | .epochEnd e => Sys2Proof.Machine.execEpochEnd e s
  | .commit => Sys2Proof.Machine.execCommit s
  | .digestClose line => Sys2Proof.Machine.execDigestClose line s
  | .takeoverBeat => Sys2Proof.Machine.execTakeoverBeat s
  | .swap received => Sys2Proof.Machine.execSwap received s
  | .takeover => Sys2Proof.Machine.execTakeover s
  | .stepdown => Sys2Proof.Machine.execStepdown s
  | .resync => Sys2Proof.Machine.execResync s
  | .stepdownRecord => Sys2Proof.Machine.execStepdownRecord s
  | .resyncReq => Sys2Proof.Machine.execResyncReq s
  | .resyncDone => Sys2Proof.Machine.execResyncDone s
  | .ckptPost k => Sys2Proof.Machine.execCkptPost k s
  | .ckptDone k => Sys2Proof.Machine.execCkptDone k s
  | .pairLinkDown => Sys2Proof.Machine.execPairLinkDown s
  | .cellRetransmit again => Sys2Proof.Machine.execCellRetransmit again s
  | .grpCtlWrite g v => Sys2Proof.Machine.execGrpCtlWrite g v s
  | .lowPower g => Sys2Proof.Machine.execLowPower g s
  | .groupWake g => Sys2Proof.Machine.execGroupWake g s
  | .laneReady g f => Sys2Proof.Machine.execLaneReady g f s
  | .laneLos g f => Sys2Proof.Machine.execLaneLos g f s
  | .cxpStreamPacket g j id tag crcBad missing items => Sys2Proof.Machine.execCxpStreamPacket g j id tag crcBad missing items s
  | .cxpLinkWrite g j v => Sys2Proof.Machine.execCxpLinkWrite g j v s
  | .cxpSpeedChange g j speed => Sys2Proof.Machine.execCxpSpeedChange g j speed s
  | .speedChangeDone g j => Sys2Proof.Machine.execSpeedChangeDone g j s
  | .cxpControlSend g v => Sys2Proof.Machine.execCxpControlSend g v s
  | .cxpControlSent g => Sys2Proof.Machine.execCxpControlSent g s
  | .cxpControlReceive g j kind good payload => Sys2Proof.Machine.execCxpControlReceive g j kind good payload s
  | .triggerPacket g j => Sys2Proof.Machine.execTriggerPacket g j s
  | .ethCtlWrite c v => Sys2Proof.Machine.execEthCtlWrite c v s
  | .ethFrameReceive c p good udp image bytes => Sys2Proof.Machine.execEthFrameReceive c p good udp image bytes s
  | .gvspPacket c j id resend body => Sys2Proof.Machine.execGvspPacket c j id resend body s
  | .xtxSend c => Sys2Proof.Machine.execXtxSend c s
  | .reportDatagram c => Sys2Proof.Machine.execReportDatagram c s
  | .datagramHoldExpiry c => Sys2Proof.Machine.execDatagramHoldExpiry c s
  | .phcStep c v => Sys2Proof.Machine.execPhcStep c v s
  | .phcLoad c => Sys2Proof.Machine.execPhcLoad c s
  | .phcRead c => Sys2Proof.Machine.execPhcRead c s
  | .bar0Request e tag write addr d ep bad => Sys2Proof.Machine.execBar0Request e tag write addr d ep bad s
  | .bar2Request e tag write addr bytes ep => Sys2Proof.Machine.execBar2Request e tag write addr bytes ep s
  | .msixMessage e v masked => Sys2Proof.Machine.execMsixMessage e v masked s
  | .msixUnmask e v => Sys2Proof.Machine.execMsixUnmask e v s
  | .endpointReset e kind => Sys2Proof.Machine.execEndpointReset e kind s
  | .dmaTailWrite e c v => Sys2Proof.Machine.execDmaTailWrite e c v s
  | .dmaDescriptor e c err bytes data => Sys2Proof.Machine.execDmaDescriptor e c err bytes data s
  | .dmaEnable e c v => Sys2Proof.Machine.execDmaEnable e c v s
  | .dmaBufferHold e c => Sys2Proof.Machine.execDmaBufferHold e c s
  | .rdsr => Sys2Proof.Machine.execRdsr s
  | .mgmtWrite a words => Sys2Proof.Machine.execMgmtWrite a words s
  | .mgmtRead a waits => Sys2Proof.Machine.execMgmtRead a waits s
  | .mgmtUnknown => Sys2Proof.Machine.execMgmtUnknown s
  | .claim who => Sys2Proof.Machine.execClaim who s
  | .mbxRelease who => Sys2Proof.Machine.execMbxRelease who s
  | .settingsRead who => Sys2Proof.Machine.execSettingsRead who s
  | .store who => Sys2Proof.Machine.execStore who s
  | .repairCommit who => Sys2Proof.Machine.execRepairCommit who s
  | .coldReset who => Sys2Proof.Machine.execColdReset who s
  | .imageAuth who => Sys2Proof.Machine.execImageAuth who s
  | .imageLoad who flash => Sys2Proof.Machine.execImageLoad who flash s
  | .massifReload who => Sys2Proof.Machine.execMassifReload who s
  | .attest who => Sys2Proof.Machine.execAttest who s
  | .keyRevoke who => Sys2Proof.Machine.execKeyRevoke who s
  | .rollbackAdvance who => Sys2Proof.Machine.execRollbackAdvance who s
  | .zeroise who => Sys2Proof.Machine.execZeroise who s
  | .badCmd who code => Sys2Proof.Machine.execBadCmd who code s
  | .commandComplete flash crcOk abort => Sys2Proof.Machine.execCommandComplete flash crcOk abort s
  | .boot container => Sys2Proof.Machine.execBoot container s
  | .release => Sys2Proof.Machine.execRelease s
  | .cfgRelWrite v => Sys2Proof.Machine.execCfgRelWrite v s
  | .loadWindowWrite j v => Sys2Proof.Machine.execLoadWindowWrite j v s
  | .powerOn vaux hot => Sys2Proof.Machine.execPowerOn vaux hot s
  | .resetNLow ns taken => Sys2Proof.Machine.execResetNLow ns taken s
  | .cold v => Sys2Proof.Machine.execCold v s
  | .warm v => Sys2Proof.Machine.execWarm v s
  | .warmDeferredStart => Sys2Proof.Machine.execWarmDeferredStart s
  | .warmDrainDone => Sys2Proof.Machine.execWarmDrainDone s
  | .writeBackDone => Sys2Proof.Machine.execWriteBackDone s
  | .clearDone => Sys2Proof.Machine.execClearDone s
  | .warmResumeDone => Sys2Proof.Machine.execWarmResumeDone s
  | .massifReset m => Sys2Proof.Machine.execMassifReset m s
  | .callerReset m => Sys2Proof.Machine.execCallerReset m s
  | .laneGroupReset g => Sys2Proof.Machine.execLaneGroupReset g s
  | .laneGroupResetDone g => Sys2Proof.Machine.execLaneGroupResetDone g s
  | .warningStart a b => Sys2Proof.Machine.execWarningStart a b s
  | .warningEnd low mv => Sys2Proof.Machine.execWarningEnd low mv s
  | .brownoutReset a b => Sys2Proof.Machine.execBrownoutReset a b s
  | .thermtrip => Sys2Proof.Machine.execThermtrip s
  | .hbmRailLoss => Sys2Proof.Machine.execHbmRailLoss s
  | .restEnter => Sys2Proof.Machine.execRestEnter s
  | .restEntryProceed => Sys2Proof.Machine.execRestEntryProceed s
  | .restTimeout => Sys2Proof.Machine.execRestTimeout s
  | .restExit => Sys2Proof.Machine.execRestExit s
  | .restExitDone => Sys2Proof.Machine.execRestExitDone s
  | .mclkWrite m v => Sys2Proof.Machine.execMclkWrite m v s
  | .clockSwitchDone m => Sys2Proof.Machine.execClockSwitchDone m s
  | .fpllWrite k v => Sys2Proof.Machine.execFpllWrite k v s
  | .pllLock k => Sys2Proof.Machine.execPllLock k s
  | .lockSet addr => Sys2Proof.Machine.execLockSet addr s
  | .irqForce addr v => Sys2Proof.Machine.execIrqForce addr v s
  | .registerWrite who addr v => Sys2Proof.Machine.execRegisterWrite who addr v s
  | .pcieLinkUp e gen width => Sys2Proof.Machine.execPcieLinkUp e gen width s
  | .hbmTrainingDone stack => Sys2Proof.Machine.execHbmTrainingDone stack s
  | .ethLinkChange c p up => Sys2Proof.Machine.execEthLinkChange c p up s
  | .pairLinkUp => Sys2Proof.Machine.execPairLinkUp s
  | .pllLockLoss k => Sys2Proof.Machine.execPllLockLoss k s
  | .powerDown => Sys2Proof.Machine.execPowerDown s
  | .laneRailLoss => Sys2Proof.Machine.execLaneRailLoss s
  | .inputLevelChange n a b z => Sys2Proof.Machine.execInputLevelChange n a b z s
  | .massifResetDone m => Sys2Proof.Machine.execMassifResetDone m s
  | .selfRefreshExit stack => Sys2Proof.Machine.execSelfRefreshExit stack s
  | .pairEnable v => Sys2Proof.Machine.execPairEnable v s
  | .shelfPortConfigWrite m p reg v => Sys2Proof.Machine.execShelfPortConfigWrite m p reg v s
  | .signalDetect g f on => Sys2Proof.Machine.execSignalDetect g f on s

end Sys2Proof.Machine
end

