-- ==== Sys2Proof/Machine/Tick.lean ====
section
/-! DEFINITION. What happens at a tick of the time base, whatever is commanded: TB and the Ethernet clocks advance
(R19, R374), the register fields are noted for the writes of the cycle (R461), a software load of a position is made (R25), a waiting beat enters the beat tree (R40), Tempo ports send (R259), a shelf clear goes on (R173), a sequencer acts on a held beat (R119), the counters of full col
queues and the bit networks run (R99, R73), a mirror record is sent (R285), events of CXP cameras are acknowledged once the
transmitters run (R360), frames go into their receive rings (R372), and a core carries out the instruction
that a STEP asked for (R328). -/

namespace Sys2Proof.Machine

open Sys2Proof

/-- R19, R263: a cycle of TBCLK, in which TB advances by one, or by none or two while the discipline of Tempo
withholds or adds a count. -/
def tickTb (s0 : State) : State :=
  let s := { s0 with cycle := s0.cycle + 1, tempo := { s0.tempo with slewWait := s0.tempo.slewWait - 1 } }
  let k := s.tempo.tbSkew
  if k < 0 then State.noteShift (-1) { s with tempo := { s.tempo with tbSkew := k + 1 } }
  else if 0 < k then State.noteShift 1 { s with tb := s.tb + 2, tempo := { s.tempo with tbSkew := k - 1 } }
  else { s with tb := s.tb + 1 }

/-- PHC_ADJ as a signed number. -/
def phcAdj (s : State) (c : Nat) : Int := (BitVec.ofNat 32 (s.get (F.PHC_ADJ_VALUE c))).toInt

/-- R374: the clock of cluster `c` advances by 1 ns + PHC_ADJ · 2⁻³² ns. -/
def tickPhc (c : Nat) (s : State) : State :=
  let p := s.phc.get c {}
  let f := ((p.frac : Int) + 2 ^ 32 + phcAdj s c).toNat
  let n := p.ns + f / 2 ^ 32
  setPhc c { p with frac := f % 2 ^ 32, ns := n % 1000000000, sec := (p.sec + n / 1000000000) % 2 ^ 48 } s

/-- One tick. In Off nothing runs (R436). -/
def tick (s : State) : State :=
  if s.power.off then s
  else
    let s1 := ((tickTb (treeEnter ({ s with was := some s.regs }.each 16 encEdge))).each 4 tempoCycle).each 8 tickPhc
    let s1a := ackEvents (s1.each 8 fun c t => xrxPump c (t.ethCl c).rx.length t)
    let s2 := s1a.each 64 fun m t => seqHeld m (bitCycle m (shelfClearStep m t))
    (mirrorSend (colCycle s2)).each 68 fun c t => stepCore c {} t

end Sys2Proof.Machine
end

