-- ==== Sys2Proof/Safety.lean ====
section
/-! DEFINITION. What counts as a safe run, in the terms that claims use: the step goes on, the register file and the
memories keep their canonical form, and every packet that waits has a legal header. -/

namespace Sys2Proof.Machine

open Sys2Proof

/-- The outcome is a next state. -/
def goesOn (o : Host.Outcome State Fault Refusal) : Bool :=
  match o with
  | .next _ => true
  | .fault _ => false
  | .refused _ => false

/-- Canonical form of the memories: shelves, block memories, HBM. -/
def Memories.wf (m : Memories) : Bool := SMap.wf m.shelf 0 && SMap.wf m.bm 0 && SMap.wf m.hbm 0

/-- Canonical form of the register file, the memories and the Callers' local RAM. -/
def State.canonical (s : State) : Bool := s.regs.wf && s.mem.wf && SMap.wf s.cores.ram 0

/-- A state in which `c` is the next command. -/
def State.withCommand (s : State) (c : Instr) : State := { s with pending := c :: s.pending }

/-- `c` completes at `s`, with a next state of which `P` holds. -/
def Does (c : Instr) (s : State) (P : State → Prop) : Prop := ∃ t, exec c s = .next t ∧ P t

/-- `t` is `s` but for the register fields of `l`. -/
def Only (l : List Fld) (s t : State) : Prop :=
  { t with regs := s.regs } = s ∧ ∀ f : Fld, f.key ∉ l.map Fld.key → t.get f = s.get f

/-- A command completes when the step that takes it goes on. -/
def completes (c : Instr) (s : State) : Bool := goesOn (step (s.withCommand c))

/-! ### Cores (R334, R338, R346) -/

/-- Core `c` with a WFI that waited over. -/
def awake (c : Nat) (s : State) : State := s.setCore c { s.core c with wfi := false }

/-- Core `c` tries an instruction: the one under way, or, at a boundary at which nothing is taken first, the next one. Its
stores have been issued, and the fetch of the word at PC leaves `s1`. `tmo`: the oldest request it waits for has timed out. -/
def Tries (c : Nat) (tmo : Bool) (s s1 : State) : Prop :=
  coreRuns s c = true ∧ (s.core c).toPost = []
    ∧ (midInstr s c = false → (s.core c).spillDue = false ∧ boundaryFree s c = true)
    ∧ ∃ w, fetch c (wireRewind c ((if midInstr s c then s else awake c s).when tmo (wireTimeout (coreRouter c) c))) = .ok w s1

/-- The same, with no time-out. -/
def AtInstr (c : Nat) (s s1 : State) : Prop := Tries c false s s1

/-- The instruction boundary after `t`: the requests of the instruction are done with, and a halt asked for is made. -/
def ends (c : Nat) (t : State) : State := haltDue c (wireEnd c t)

/-- The register fields exist on the core, and one that it may not write in user mode is no destination there. -/
def MayUse (c : Nat) (s : State) (fields dests : List Nat) : Prop :=
  (∀ n ∈ fields, fieldExists (isLead c) n = true) ∧ ((s.core c).bit pswUSER = true → ∀ n ∈ dests, n < 26)

/-- PC moves to the next instruction. -/
def nextPc (c : Nat) (s : State) : State := setPc c ((s.core c).pc + 4) s

/-- The core can enter an exception: EXL, FM and RSV are 0 and a Lead Caller has a free frame. -/
def MayEnter (c : Nat) (s : State) : Prop :=
  (s.core c).bit pswEXL = false ∧ (s.core c).bit pswFM = false ∧ (s.core c).bit pswRSV = false
    ∧ (isLead c = true → framesFree (s.core c) ≠ 0)

/-- Core `c` after the entry of R312 with cause `k` and EADDR `a`, at the boundary that follows. -/
def entered (c : Nat) (k : Cause) (a : Word) (s : State) : State :=
  ends c (s.setCore c (enterCore (isLead c) k (s.core c).pc a { s.core c with wfb := none }))

/-! ### Accesses over VN1 (R164, R222, R310) -/

/-- The answers that the operation of requester `k` meets next are `rs`, and it has made no request beyond them. -/
def Answered (k : Nat) (rs : List VnReply) (s : State) : Prop := (s.wire k).reqs.drop (s.wire k).cur = rs.map some

/-- A read that completed with these bytes, none of them poisoned. -/
def readReply (l : List Byte) : VnReply := { bytes := l.map fun b => (b, false) }

/-- The acknowledgement of a write. -/
def wroteReply : VnReply := {}

/-- `n` bytes from address `a` of Lead Caller `c` are those from byte `b` of shelf `m`, a multiple of `n`, through
window 15 in supervisor mode (R308). -/
def AtShelf (c m b n : Nat) (a : Word) (s : State) : Prop :=
  64 ≤ c ∧ m < 64 ∧ b + n ≤ 2 ^ 20 ∧ b % n = 0 ∧ a.toNat = 0xF4000000 + 2 ^ 20 * m + b ∧ (s.core c).bit pswUSER = false

/-- `n` words from address `a` of Lead Caller `c` lie in the shelves, through window 15 in supervisor mode (R308). -/
def InShelves (c n : Nat) (a : Word) (s : State) : Prop :=
  64 ≤ c ∧ a.toNat % 4 = 0 ∧ 0xF4000000 ≤ a.toNat ∧ a.toNat + 4 * n ≤ 0xF8000000 ∧ (s.core c).bit pswUSER = false

end Sys2Proof.Machine
end

