-- ==== Sys2Proof/Certificates/Slice0/Obligations.lean ====
section
/-! DEFINITION. The statements for the provers, one definition each, from the rules of the spec. Of a statement
that says it is derived, the rules it names are those that it states in part. -/

open Sys2Proof Sys2Proof.Machine

/-- Every register operation writes its result to rd and PC moves on; nothing else changes but what the fetch did and
the boundary that follows, which leaves a core with no request and no halt outstanding as it is. Fields 24 and up
behave as R338 says, through `setReg` and `regOf`. Derived from parts of R337, R338, R339, R340. The model's own
choices that it rests on: log entries 100, 109. -/
def Obligations.RegisterArithmetic : Prop :=
  ∀ (c : Fin 68) (rd ra rb : Fin 32) (s s1 : State), AtInstr c s s1 → MayUse c s1 [rd, ra, rb] [rd] →
    let x := regOf s1 c ra
    let y := regOf s1 c rb
    let n := y.toNat % 32
    let gives := fun (v : Word) => Host.Outcome.next (ends c (nextPc c (setReg c rd v s1)))
    exec (.addR c rd ra rb) s = gives (x + y)
    ∧ exec (.subR c rd ra rb) s = gives (x - y)
    ∧ exec (.andR c rd ra rb) s = gives (x &&& y)
    ∧ exec (.orR c rd ra rb) s = gives (x ||| y)
    ∧ exec (.xorR c rd ra rb) s = gives (x ^^^ y)
    ∧ exec (.andn c rd ra rb) s = gives (x &&& ~~~y)
    ∧ exec (.shl c rd ra rb) s = gives (x <<< n)
    ∧ exec (.shr c rd ra rb) s = gives (x >>> n)
    ∧ exec (.sra c rd ra rb) s = gives (x.sshiftRight n)
    ∧ exec (.rol c rd ra rb) s = gives (x.rotateLeft n)
    ∧ exec (.slt c rd ra rb) s = gives (if x.slt y then 1 else 0)
    ∧ exec (.sltu c rd ra rb) s = gives (if x < y then 1 else 0)
    ∧ exec (.minR c rd ra rb) s = gives (if x.slt y then x else y)
    ∧ exec (.maxR c rd ra rb) s = gives (if x.slt y then y else x)
    ∧ exec (.minu c rd ra rb) s = gives (if x < y then x else y)
    ∧ exec (.maxu c rd ra rb) s = gives (if x < y then y else x)
    ∧ (∀ t : State, t.waits c = false → (t.core c).haltReq = false → ends c t = t)

/-- R340: Division never traps; a divisor of zero gives a quotient of 0xFFFF_FFFF and a remainder of ra, and the most
negative number by −1 gives itself with no remainder. The products and the bit counts are those of the table of
R339. The model's own choices that it rests on: log entries 100, 109. -/
def Obligations.MultiplyDivideCount : Prop :=
  ∀ (c : Fin 68) (rd ra rb : Fin 32) (s s1 : State), AtInstr c s s1 → MayUse c s1 [rd, ra, rb] [rd] →
    let x := regOf s1 c ra
    let y := regOf s1 c rb
    let gives := fun (v : Word) => Host.Outcome.next (ends c (nextPc c (setReg c rd v s1)))
    exec (.mulR c rd ra rb) s = gives (x * y)
    ∧ exec (.mulh c rd ra rb) s = gives (BitVec.ofInt 32 (x.toInt * y.toInt / 2 ^ 32))
    ∧ exec (.mulhu c rd ra rb) s = gives (BitVec.ofNat 32 (x.toNat * y.toNat / 2 ^ 32))
    ∧ exec (.divR c rd ra rb) s = gives (if y = 0 then 0xFFFFFFFF else x.sdiv y)
    ∧ exec (.divu c rd ra rb) s = gives (if y = 0 then 0xFFFFFFFF else x / y)
    ∧ exec (.rem c rd ra rb) s = gives (if y = 0 then x else x.srem y)
    ∧ exec (.remu c rd ra rb) s = gives (if y = 0 then x else x % y)
    ∧ (x = 0x80000000 → y = 0xFFFFFFFF → exec (.divR c rd ra rb) s = gives 0x80000000 ∧ exec (.rem c rd ra rb) s = gives 0)
    ∧ exec (.clz c rd ra) s = gives (BitVec.ofNat 32 (((List.range 32).find? fun i => x.getLsbD (31 - i)).getD 32))
    ∧ exec (.popc c rd ra) s = gives (BitVec.ofNat 32 ((List.range 32).countP fun i => x.getLsbD i))

/-- The immediate operations. ADDI, SLTI and SLTUI extend the sign, ANDI, ORI and XORI extend with zeros. A branch goes
to PC + 4·sext(off16) when its condition holds and to the next instruction otherwise; J, CALL, JR and CALLR go to
their target, and CALL and CALLR set LR, on a Caller. Nothing else changes. Derived from parts of R341, R344. The
model's own choices that it rests on: log entries 100, 101, 109. -/
def Obligations.ImmediatesAndJumps : Prop :=
  (∀ (c : Fin 68) (rd ra n : Fin 32) (i : BitVec 16) (s s1 : State), AtInstr c s s1 → MayUse c s1 [rd, ra] [rd] →
      let x := regOf s1 c ra
      let k : Word := i.signExtend 32
      let z : Word := i.zeroExtend 32
      let gives := fun (v : Word) => Host.Outcome.next (ends c (nextPc c (setReg c rd v s1)))
      exec (.addi c rd ra i) s = gives (x + k)
      ∧ exec (.andi c rd ra i) s = gives (x &&& z)
      ∧ exec (.ori c rd ra i) s = gives (x ||| z)
      ∧ exec (.xori c rd ra i) s = gives (x ^^^ z)
      ∧ exec (.slti c rd ra i) s = gives (if x.slt k then 1 else 0)
      ∧ exec (.sltui c rd ra i) s = gives (if x < k then 1 else 0)
      ∧ exec (.lui c rd i) s = gives (i ++ (0 : BitVec 16))
      ∧ exec (.shli c rd ra n) s = gives (x <<< n.val)
      ∧ exec (.shri c rd ra n) s = gives (x >>> n.val)
      ∧ exec (.srai c rd ra n) s = gives (x.sshiftRight n.val)
      ∧ exec (.roli c rd ra n) s = gives (x.rotateLeft n.val))
  ∧ (∀ (c : Fin 68) (ra rb : Fin 32) (off : BitVec 16) (far : BitVec 26) (s s1 : State), AtInstr c s s1 →
        let x := regOf s1 c ra
        let y := regOf s1 c rb
        let pc := (s1.core c).pc
        let goes := fun (b : Bool) =>
          Host.Outcome.next (ends c (setPc c (if b then pc + off.signExtend 32 * 4 else pc + 4) s1))
        (MayUse c s1 [ra, rb] [] →
          exec (.beq c ra rb off) s = goes (x == y) ∧ exec (.bne c ra rb off) s = goes (x != y)
          ∧ exec (.blt c ra rb off) s = goes (x.slt y) ∧ exec (.bge c ra rb off) s = goes (!x.slt y)
          ∧ exec (.bltu c ra rb off) s = goes (x.ult y) ∧ exec (.bgeu c ra rb off) s = goes (!x.ult y))
        ∧ exec (.bres c off) s = goes ((s1.core c).psw.getLsbD 6)
        ∧ exec (.j c far) s = .next (ends c (setPc c (pc + far.signExtend 32 * 4) s1))
        ∧ (MayUse c s1 [ra] [] → x.toNat % 4 = 0 → exec (.jr c ra) s = .next (ends c (setPc c x s1)))
        ∧ (c.val < 64 → exec (.call c far) s
            = .next (ends c (setPc c (pc + far.signExtend 32 * 4) (setReg c 25 (pc + 4) s1))))
        ∧ (c.val < 64 → x.toNat % 4 = 0 → exec (.callr c ra) s
            = .next (ends c (setPc c x (setReg c 25 (pc + 4) s1)))))

/-- The vector operations on a Lead Caller, lane by lane. Saturation and wrapping are those of `narrow`, and the sign of
a lane is read by `asInt`. Derived from parts of R352. The model's own choices that it rests on: log entries 100,
109, 110. -/
def Obligations.VectorOperations : Prop :=
  ∀ (c : Fin 68) (vd va vb : Fin 8) (r : Fin 32) (dm : Fin 3) (sgn sat : Bool) (idx : Fin 16) (s s1 : State),
    64 ≤ c.val → AtInstr c s s1 →
    let w := vecWidth dm
    let a := vecLane w (vecReg s1 c va)
    let b := vecLane w (vecReg s1 c vb)
    let x := fun i => asInt w sgn (a i)
    let y := fun i => asInt w sgn (b i)
    let n := (regOf s1 c r).toNat % w
    let ones := fun (p : Bool) => if p then 2 ^ w - 1 else 0
    let fit := fun (v : Nat → Int) (i : Nat) => (narrow w sgn sat (v i)).1
    let gives := fun (f : Nat → Nat) => Host.Outcome.next (ends c (nextPc c (setVec c vd (vecOf w f) s1)))
    let bits := fun (f : Nat → Nat → Nat) => Host.Outcome.next (ends c (nextPc c (setVec c vd
      (vecOf 32 fun i => f (vecLane 32 (vecReg s1 c va) i) (vecLane 32 (vecReg s1 c vb) i)) s1)))
    exec (.vadd c vd va vb dm sgn sat) s = gives (fit fun i => x i + y i)
    ∧ exec (.vsub c vd va vb dm sgn sat) s = gives (fit fun i => x i - y i)
    ∧ exec (.vmul c vd va vb dm sgn sat) s = gives (fit fun i => x i * y i)
    ∧ exec (.vmin c vd va vb dm sgn) s = gives (fun i => if x i < y i then a i else b i)
    ∧ exec (.vmax c vd va vb dm sgn) s = gives (fun i => if x i < y i then b i else a i)
    ∧ exec (.vabsd c vd va vb dm sgn) s = gives (fun i => (x i - y i).natAbs)
    ∧ exec (.vand c vd va vb) s = bits (· &&& ·)
    ∧ exec (.vor c vd va vb) s = bits (· ||| ·)
    ∧ exec (.vxor c vd va vb) s = bits (· ^^^ ·)
    ∧ exec (.vcmpeq c vd va vb dm) s = gives (fun i => ones (a i == b i))
    ∧ exec (.vcmplt c vd va vb dm sgn) s = gives (fun i => ones (decide (x i < y i)))
    ∧ (MayUse c s1 [r] [] →
      exec (.vshl c vd va r dm sgn sat) s = gives (fit fun i => x i * 2 ^ n)
      ∧ exec (.vshr c vd va r dm sgn) s = gives (fun i => lowBits w (x i / 2 ^ n))
      ∧ exec (.vsplat c vd r dm) s = gives (fun _ => (regOf s1 c r).toNat)
      ∧ (idx.val < vecLanes dm → exec (.vins c vd r dm idx) s
          = gives (fun i => if i == idx.val then (regOf s1 c r).toNat else vecLane w (vecReg s1 c vd) i)))
    ∧ (MayUse c s1 [r] [r] → idx.val < vecLanes dm →
      exec (.vext c va r dm sgn idx) s = .next (ends c (nextPc c (setReg c r (BitVec.ofInt 32 (x idx.val)) s1))))

/-- Windowed calls and returns of a Lead Caller. A call takes the next frame, or the frame after the next when it is
made in reserve mode; without a free frame it waits, and in reserve mode with the spill engine stopped the core
halts. RETW goes back, once the frames that it needs have been filled. RETW when the frame that it goes back to is
resident. Derived from parts of R318, R322, R344, R320. The model's own choices that it rests on: log entries 100,
107, 109, 120, 157. -/
def Obligations.WindowedCalls : Prop :=
  (∀ (c : Fin 68) (ra : Fin 32) (far : BitVec 26) (s s1 s2 : State), 64 ≤ c.val → AtInstr c s s1 →
      let x := s1.core c
      let link := fun (n : Nat) (t : Word) (y : Core) =>
        ends c (s1.setCore c { y with links := y.links.set n (x.pc + 4) 0, pc := t, fillNext := false })
      let called := fun (t : Word) =>
        if x.bit pswRSV then
          if x.stopped then ends c (coreHalt c .windowExhausted s1)
          else if framesFree x < 2 then wireEnd c s1
          else link ((x.cwp + 2) % 15) t
            { (x.setCwp ((x.cwp + 2) % 15)).setBit pswRSV false with rsvCalls := 0 :: x.rsvCalls }
        else if framesFree x = 0 then wireEnd c s1
        else link ((x.cwp + 1) % 15) t { x.setCwp ((x.cwp + 1) % 15) with rsvCalls := (match x.rsvCalls with
          | d :: l => (d + 1) :: l
          | [] => []) }
      exec (.callw c far) s = .next (called (x.pc + far.signExtend 32 * 4))
      ∧ (MayUse c s1 [ra] [] → (regOf s1 c ra).toNat % 4 = 0 →
        exec (.callwr c ra) s = .next (called (regOf s1 c ra)))
      ∧ ((x.links.get x.cwp 0).toNat % 4 = 0 → fillFrames c (fillsDue x) s1 = .ok () s2 →
        let y := windowBack (s2.core c)
        exec (.retw c) s = .next (ends c (s2.setCore c { y with pc := x.links.get x.cwp 0, fillNext := needsFill y }))))
  ∧ (∀ (c : Fin 68) (s s1 : State), 64 ≤ c.val → AtInstr c s s1 →
        let x := s1.core c
        let t := x.links.get x.cwp 0
        let y := windowBack x
        t.toNat % 4 = 0 → fillsDue x = 0 →
          exec (.retw c) s = .next (ends c (s1.setCore c { y with pc := t, fillNext := needsFill y })))

/-- A load that completes writes what it read, extended to the width of its destination; one that meets an exception
takes it. The address is ra + sext(imm16), or ra + 16·sext(off16) for VLD. A store that completes leaves what the
store of its bytes leaves, and PC moves on; one that meets an exception takes it. Loads that complete. A Caller's
load of its local RAM gives the word, half or byte that stands there, corrected, if it is not poison; a load of a
Lead Caller from a shelf asks for the bytes, and gives them once they have come. Stores that complete. A Caller's
store into its local RAM writes the word, or merges the half or the byte into it; a Lead Caller's store to a shelf
is posted as a memory write of the stored bytes. Derived from parts of R342, R353, R198, R307, R308, R310. The
model's own choices that it rests on: log entries 57, 100, 105, 109, 120. -/
def Obligations.LoadsAndStores : Prop :=
  (∀ (c : Fin 68) (rd ra : Fin 32) (v : Fin 8) (i : BitVec 16) (tmo bad : Bool) (s s1 s2 : State) (d : Nat) (k : Cause)
      (e : Word), Tries c tmo s s1 →
      let a := regOf s1 c ra + i.signExtend 32
      let va := regOf s1 c ra + i.signExtend 32 * 16
      let gets := fun (n : Nat) => coreLoad c { tmo := tmo, bad := bad } a n s1 = .ok d s2
      let traps := fun (a : Word) (n : Nat) => coreLoad c { tmo := tmo, bad := bad } a n s1 = .trap k e s2 ∧ MayEnter c s2
      let gives := fun (w : Word) => Host.Outcome.next (ends c (nextPc c (setReg c rd w s2)))
      (MayUse c s1 [rd, ra] [rd] →
        (gets 4 → exec (.lw c rd ra i tmo bad) s = gives (BitVec.ofNat 32 d))
        ∧ (gets 2 → d < 2 ^ 16 → exec (.lh c rd ra i tmo bad) s = gives ((BitVec.ofNat 16 d).signExtend 32))
        ∧ (gets 2 → d < 2 ^ 16 → exec (.lhu c rd ra i tmo bad) s = gives (BitVec.ofNat 32 d))
        ∧ (gets 1 → d < 2 ^ 8 → exec (.lb c rd ra i tmo bad) s = gives ((BitVec.ofNat 8 d).signExtend 32))
        ∧ (gets 1 → d < 2 ^ 8 → exec (.lbu c rd ra i tmo bad) s = gives (BitVec.ofNat 32 d))
        ∧ (traps a 4 → exec (.lw c rd ra i tmo bad) s = .next (entered c k e s2))
        ∧ (traps a 2 → exec (.lh c rd ra i tmo bad) s = .next (entered c k e s2)
          ∧ exec (.lhu c rd ra i tmo bad) s = .next (entered c k e s2))
        ∧ (traps a 1 → exec (.lb c rd ra i tmo bad) s = .next (entered c k e s2)
          ∧ exec (.lbu c rd ra i tmo bad) s = .next (entered c k e s2)))
      ∧ (64 ≤ c.val → MayUse c s1 [ra] [] →
        (coreLoad c { tmo := tmo, bad := bad } va 16 s1 = .ok d s2 →
          exec (.vld c v ra i tmo bad) s = .next (ends c (nextPc c (setVec c v (BitVec.ofNat 128 d) s2))))
        ∧ (traps va 16 → exec (.vld c v ra i tmo bad) s = .next (entered c k e s2))))
  ∧ (∀ (c : Fin 68) (rs ra : Fin 32) (v : Fin 8) (i : BitVec 16) (s s1 s2 : State) (k : Cause) (e : Word), AtInstr c s s1 →
        let a := regOf s1 c ra + i.signExtend 32
        let va := regOf s1 c ra + i.signExtend 32 * 16
        let d := (regOf s1 c rs).toNat
        let traps := fun (a : Word) (n d : Nat) => coreStore c a n d s1 = .trap k e s2 ∧ MayEnter c s2
        (MayUse c s1 [rs, ra] [] →
          (coreStore c a 4 d s1 = .ok () s2 → exec (.sw c rs ra i) s = .next (ends c (nextPc c s2)))
          ∧ (coreStore c a 2 d s1 = .ok () s2 → exec (.sh c rs ra i) s = .next (ends c (nextPc c s2)))
          ∧ (coreStore c a 1 d s1 = .ok () s2 → exec (.sb c rs ra i) s = .next (ends c (nextPc c s2)))
          ∧ (traps a 4 d → exec (.sw c rs ra i) s = .next (entered c k e s2))
          ∧ (traps a 2 d → exec (.sh c rs ra i) s = .next (entered c k e s2))
          ∧ (traps a 1 d → exec (.sb c rs ra i) s = .next (entered c k e s2)))
        ∧ (64 ≤ c.val → MayUse c s1 [ra] [] →
          (coreStore c va 16 (vecReg s1 c v).toNat s1 = .ok () s2 → exec (.vst c v ra i) s = .next (ends c (nextPc c s2)))
          ∧ (traps va 16 (vecReg s1 c v).toNat → exec (.vst c v ra i) s = .next (entered c k e s2))))
  ∧ (∀ (c : Fin 68) (rd ra : Fin 32) (v : Fin 8) (i : BitVec 16) (tmo bad : Bool) (m b : Nat) (bs : List Byte) (s s1 : State),
        Tries c tmo s s1 →
        let a := regOf s1 c ra + i.signExtend 32
        let va := regOf s1 c ra + i.signExtend 32 * 16
        let r := ramRead c (a.toNat / 4) s1
        let got := fun (w : Word) => Host.Outcome.next (ends c (nextPc c (setReg c rd w r.2.2)))
        let part := r.1 >>> (8 * (a.toNat % 4))
        let num := leNat bs
        let far := fun (n : Nat) (a : Word) => AtShelf c m b n a s1 ∧ Answered c [readReply bs] s1 ∧ bs.length = n
        let near := fun (n : Nat) (a : Word) => AtShelf c m b n a s1 ∧ Answered c [] s1 ∧ postedCount s1 c = 0
        let asks := fun (n : Nat) => Host.Outcome.next
          (wireIssue c (s1.wire c).cur (readRequests s1 (some m) (coreRouter c) (corePort c) b n) s1)
        let gives := fun (w : Word) => Host.Outcome.next (ends c (nextPc c (setReg c rd w s1)))
        (MayUse c s1 [rd, ra] [rd] → c.val < 64 → a.toNat < 0x10000 → r.2.1 = false →
          (a.toNat % 4 = 0 → exec (.lw c rd ra i tmo bad) s = got r.1)
          ∧ (a.toNat % 2 = 0 → exec (.lh c rd ra i tmo bad) s = got ((part.truncate 16 : BitVec 16).signExtend 32)
            ∧ exec (.lhu c rd ra i tmo bad) s = got ((part.truncate 16 : BitVec 16).zeroExtend 32))
          ∧ exec (.lb c rd ra i tmo bad) s = got ((part.truncate 8 : Byte).signExtend 32)
          ∧ exec (.lbu c rd ra i tmo bad) s = got ((part.truncate 8 : Byte).zeroExtend 32))
        ∧ (MayUse c s1 [rd, ra] [rd] →
          (far 4 a → exec (.lw c rd ra i tmo bad) s = gives (BitVec.ofNat 32 num))
          ∧ (far 2 a → exec (.lh c rd ra i tmo bad) s = gives ((BitVec.ofNat 16 num).signExtend 32)
            ∧ exec (.lhu c rd ra i tmo bad) s = gives (BitVec.ofNat 32 num))
          ∧ (far 1 a → exec (.lb c rd ra i tmo bad) s = gives ((BitVec.ofNat 8 num).signExtend 32)
            ∧ exec (.lbu c rd ra i tmo bad) s = gives (BitVec.ofNat 32 num))
          ∧ (near 4 a → exec (.lw c rd ra i tmo bad) s = asks 4))
        ∧ (MayUse c s1 [ra] [] →
          (far 16 va → exec (.vld c v ra i tmo bad) s = .next (ends c (nextPc c (setVec c v (BitVec.ofNat 128 num) s1))))
          ∧ (near 16 va → exec (.vld c v ra i tmo bad) s = asks 16)))
  ∧ (∀ (c : Fin 68) (rs ra : Fin 32) (v : Fin 8) (i : BitVec 16) (m b : Nat) (s s1 : State), AtInstr c s s1 →
        let a := regOf s1 c ra + i.signExtend 32
        let va := regOf s1 c ra + i.signExtend 32 * 16
        let d := regOf s1 c rs
        let w := a.toNat / 4
        let goes := fun (t : State) => Host.Outcome.next (ends c (nextPc c t))
        let merged := fun (bs : List (Nat × Byte)) => goes (ramWrite c w bs s1)
        let posts := fun (a : Word) (n d : Nat) => goes (memStore c a.toNat m 0 b (leBytes n d) s1)
        (MayUse c s1 [rs, ra] [] → c.val < 64 → a.toNat < 0x10000 →
          (a.toNat % 4 = 0 → exec (.sw c rs ra i) s = goes (setRamCell c w (ramStored d false) s1))
          ∧ (a.toNat % 2 = 0 → exec (.sh c rs ra i) s
            = merged [(a.toNat % 4, d.truncate 8), (a.toNat % 4 + 1, (d >>> 8).truncate 8)])
          ∧ exec (.sb c rs ra i) s = merged [(a.toNat % 4, d.truncate 8)])
        ∧ (MayUse c s1 [rs, ra] [] →
          (AtShelf c m b 4 a s1 → exec (.sw c rs ra i) s = posts a 4 d.toNat)
          ∧ (AtShelf c m b 2 a s1 → exec (.sh c rs ra i) s = posts a 2 d.toNat)
          ∧ (AtShelf c m b 1 a s1 → exec (.sb c rs ra i) s = posts a 1 d.toNat))
        ∧ (MayUse c s1 [ra] [] → AtShelf c m b 16 va s1 → exec (.vst c v ra i) s = posts va 16 (vecReg s1 c v).toNat))

/-- STM and LDM. A base that is not word-aligned takes ALIGN. With no transfer left the instruction completes and clears
LSM_DONE; with an empty budget it gives way and stays as it is. A mask of one bit transfers one word at the base and
completes. A Caller's STM and LDM of one register in its local RAM. Derived from parts of R343. The model's own
choices that it rests on: log entries 57, 100, 105, 109, 120. -/
def Obligations.MultipleTransfers : Prop :=
  (∀ (c : Fin 68) (base : Fin 8) (mask : BitVec 24) (n : Fin 25) (b : Fin 24) (tmo bad : Bool) (s s1 s2 : State) (d : Nat),
      let x := s1.core c
      let a := regOf s1 c base
      let one : BitVec 24 := 1 <<< b.val
      let st := fun (m : BitVec 24) => exec (.stm c base m n) s
      let ld := fun (m : BitVec 24) => exec (.ldm c base m n tmo bad) s
      let done := fun (t : State) => Host.Outcome.next (ends c (nextPc c (t.setCore c { t.core c with lsm := 0 })))
      let both := fun (r : BitVec 24 → Host.Outcome State Fault Refusal) =>
        (a.toNat % 4 ≠ 0 → MayEnter c s1 → r mask = .next (entered c .align a s1))
        ∧ (a.toNat % 4 = 0 → mask &&& ~~~x.lsm = 0 → r mask = done s1)
        ∧ (a.toNat % 4 = 0 → mask &&& ~~~x.lsm ≠ 0 → n = 0 → r mask = .next (ends c s1))
      (AtInstr c s s1 → both st
        ∧ (a.toNat % 4 = 0 → x.lsm = 0 → n ≠ 0 → x.toPost = [] → coreStore c a 4 (regOf s1 c b).toNat s1 = .ok () s2 →
          st one = done s2))
      ∧ (Tries c tmo s s1 → both ld
        ∧ (a.toNat % 4 = 0 → x.lsm = 0 → n ≠ 0 → coreLoad c { tmo := tmo, bad := bad, n := n } a 4 s1 = .ok d s2 →
          ld one = done (setReg c b (BitVec.ofNat 32 d) (wireCut c (s1.wire c).cur s2)))))
  ∧ (∀ (c : Fin 68) (base : Fin 8) (n : Fin 25) (b : Fin 24) (tmo bad : Bool) (s s1 : State), c.val < 64 →
        let x := s1.core c
        let a := regOf s1 c base
        let one : BitVec 24 := 1 <<< b.val
        let r := ramRead c (a.toNat / 4) s1
        let done := fun (t : State) => Host.Outcome.next (ends c (nextPc c (t.setCore c { t.core c with lsm := 0 })))
        a.toNat < 0x10000 → a.toNat % 4 = 0 → x.lsm = 0 → n ≠ 0 →
          (AtInstr c s s1 → x.toPost = [] → exec (.stm c base one n) s
            = done (setRamCell c (a.toNat / 4) (ramStored (regOf s1 c b) false) s1))
          ∧ (Tries c tmo s s1 → r.2.1 = false → exec (.ldm c base one n tmo bad) s
            = done (setReg c b r.1 (wireCut c (s1.wire c).cur r.2.2))))

/-- The system instructions. HALT stops the core after PC has moved on; WFI waits only while nothing is pending; FENCE
waits for posted stores; SYSCALL and BREAK take their exception; RFE and RFF give back what entry saved, RFE once a
frame that it goes back to is resident. MFC and MTC reach every control register that the core has, in supervisor
mode; the write of SPILL_CTL.RESUME lets the spill engine try again. Derived from parts of R312, R346, R306, R345.
The model's own choices that it rests on: log entries 59, 100, 107, 109. -/
def Obligations.SystemInstructions : Prop :=
  (∀ (c : Fin 68) (code : BitVec 10) (s s1 s2 : State), AtInstr c s s1 →
      let x := s1.core c
      let lead := isLead c
      let sup := x.bit pswUSER = false
      let back := lead = true ∧ x.bit pswRSV = false ∧ x.cwp = x.bot
        ∧ (restorePsw lead x.epsw x).cwp = (x.cwp + 14) % 15
      let rfe := fun (t : State) => ends c (t.setCore c { t.core c with
        psw := x.epsw &&& pswMask lead, pc := x.epc, lsm := (x.ecause >>> 8).truncate 24 })
      (sup → exec (.halt c) s = .next (ends c (coreHalt c .haltInstr (nextPc c s1))))
      ∧ (sup → exec (.wfi c) s = .next
          (ends c (if anyPending s1 c then nextPc c s1 else s1.setCore c { x with pc := x.pc + 4, wfi := true })))
      ∧ exec (.fence c) s = .next (if postedCount s1 c = 0 then ends c (nextPc c s1) else s1)
      ∧ (MayEnter c s1 → exec (.syscall c code) s = .next (entered c .syscall 0 s1)
          ∧ exec (.break c code) s = .next (entered c .break 0 s1))
      ∧ (sup → ¬ back → exec (.rfe c) s = .next (rfe s1))
      ∧ (sup → back → fillFrame c s1 = .ok () s2 → (s2.core c).epsw = x.epsw → (s2.core c).epc = x.epc →
          (s2.core c).ecause = x.ecause → exec (.rfe c) s = .next (rfe s2))
      ∧ (sup → x.bit pswFM = true →
          exec (.rff c) s = .next (ends c (s1.setCore c { x with psw := x.fepsw &&& pswMask lead, pc := x.fepc }))))
  ∧ (∀ (c : Fin 68) (r : Fin 32) (idx : BitVec 12) (s s1 : State), AtInstr c s s1 → (s1.core c).bit pswUSER = false →
        fieldExists (isLead c) r = true → ctlExists (isLead c) idx.toNat = true →
        exec (.mfc c r idx) s = .next (ends c (nextPc c (setReg c r (ctlRead c idx.toNat s1).1 (ctlRead c idx.toNat s1).2)))
        ∧ (¬ (idx = 0x042 ∧ (regOf s1 c r).getLsbD 0 = true) →
          exec (.mtc c r idx) s = .next (ends c (nextPc c (ctlWrite c idx.toNat (regOf s1 c r) s1))))
        ∧ (idx = 0x042 → (regOf s1 c r).getLsbD 0 = true →
          exec (.mtc c r idx) s = .next (ends c (spillOnce c (nextPc c (ctlWrite c idx.toNat (regOf s1 c r) s1))))))

/-- Context saves and restores on a Lead Caller in supervisor mode. A save takes the first area of the list at CTX_FREE,
links it to k`ra`, and takes CTX when the list is empty; SAVECTX.LO first spills the frames below the window, and
clears RESUMED; a spill that cannot complete stops the engine. A restore takes the area at k`ra`, which must be
16-byte aligned and carry the tag of its half, and gives it back to the list. Context saves and restores that
complete: the save area lies in a shelf, and every answer has come. Cache maintenance on a Lead Caller in supervisor
mode. On a cached line, ICINV drops it from the core's instruction cache, DCINV from its data cache, L2INV from the
L2; L2FLUSH writes a modified line back and waits for the write, as L2FLINV does before it drops the line; a line
that is not cached and an address of window 15 change nothing; an address that the core cannot reach takes ACCESS.
Derived from parts of R323, R324, R354. The model's own choices that it rests on: log entries 57, 100, 108, 109,
120, 157. -/
def Obligations.ContextsAndCaches : Prop :=
  (∀ (c : Fin 68) (ra : Fin 32) (s s1 s2 s3 s4 : State) (f : Word) (l : List Word) (full : Bool), 64 ≤ c.val → ra.val < 8 →
      AtInstr c s s1 → (s1.core c).bit pswUSER = false →
      let x := s1.core c
      let a := x.k.get ra 0
      let saved := fun (y : Core) (t : State) => { t.core c with
        ctxFree := f, k := (t.core c).k.set ra y.ctxFree 0, pc := (t.core c).pc + 4 }
      let area := fun (hi : Bool) (y : Core) (u t v : State) => engineRead c c y.ctxFree u = .ok f t
        ∧ engineWrites c c false y.ctxFree (saveArea hi (y.k.get ra 0) y) t = .ok () v
      let lanes := fun (i : Nat) =>
        (l.getD (7 + 4 * i) 0 ++ l.getD (6 + 4 * i) 0 ++ l.getD (5 + 4 * i) 0 ++ l.getD (4 + 4 * i) 0 : BitVec 128)
      let listed := engineReads c c a 36 s1 = .ok l s2
      let given := engineWrite c c false a (s2.core c).ctxFree s2 = .ok () s3
      let inPlace := x.ctxFree ≠ 0 ∧ x.ctxFree.toNat % 16 = 0
      (inPlace → area true x s1 s2 s3 → exec (.savectxHi c ra) s = .next (ends c (s3.setCore c (saved x s3))))
      ∧ (inPlace → spillAll c 15 s1 = .done s2 → area false (s2.core c) s2 s3 s4 →
        exec (.savectxLo c ra) s = .next (ends c (s4.setCore c ((saved (s2.core c) s4).setBit pswRESUMED false))))
      ∧ (inPlace ∨ spillRoom x = false → spillAll c 15 s1 = .waits s2 → exec (.savectxLo c ra) s = .next s2)
      ∧ (inPlace ∨ spillRoom x = false → spillAll c 15 s1 = .stuck full s2 →
        exec (.savectxLo c ra) s = .next (ends c (spillStop c full (wireEnd c s2))))
      ∧ (x.ctxFree = 0 → MayEnter c s1 → exec (.savectxHi c ra) s = .next (entered c .ctx 0 s1)
        ∧ (spillRoom x = true → exec (.savectxLo c ra) s = .next (entered c .ctx 0 s1)))
      ∧ (x.ctxFree.toNat % 16 ≠ 0 → MayEnter c s1 → exec (.savectxHi c ra) s = .next (entered c .align x.ctxFree s1)
        ∧ (spillRoom x = true → exec (.savectxLo c ra) s = .next (entered c .align x.ctxFree s1)))
      ∧ (a.toNat % 16 ≠ 0 → MayEnter c s1 → exec (.loadctxHi c ra) s = .next (entered c .align a s1)
        ∧ exec (.loadctxLo c ra) s = .next (entered c .align a s1))
      ∧ (a.toNat % 16 = 0 → listed → MayEnter c s1 →
        (l.getD 1 0 ≠ 0x0000C701 → exec (.loadctxHi c ra) s = .next (entered c .ctx 0 (s2.setCore c x)))
        ∧ (l.getD 1 0 ≠ 0x0000C700 → exec (.loadctxLo c ra) s = .next (entered c .ctx 0 (s2.setCore c x))))
      ∧ (a.toNat % 16 = 0 → listed → l.getD 1 0 = 0x0000C700 → given →
        exec (.loadctxLo c ra) s = .next (ends c (s3.setCore c (restoreLower l a (s3.core c)))))
      ∧ (a.toNat % 16 = 0 → listed → l.getD 1 0 = 0x0000C701 → given →
        exec (.loadctxHi c ra) s = .next (ends c (s3.setCore c { s3.core c with
          v := (List.range 8).foldl (fun w i => w.set i (lanes i) 0) (s3.core c).v,
          ctxFree := a, k := (s3.core c).k.set ra (l.getD 0 0) 0, pc := (s3.core c).pc + 4 }))))
  ∧ (∀ (c : Fin 68) (ra : Fin 32) (f : Word) (l : List Word) (s s1 : State), ra.val < 8 →
        AtInstr c s s1 → (s1.core c).bit pswUSER = false →
        let x := s1.core c
        let a := x.k.get ra 0
        let word := fun (v : Word) => readReply (leBytes 4 v.toNat)
        let saved := { x with ctxFree := f, k := x.k.set ra x.ctxFree 0, pc := x.pc + 4 }
        let lanes := fun (i : Nat) =>
          (l.getD (7 + 4 * i) 0 ++ l.getD (6 + 4 * i) 0 ++ l.getD (5 + 4 * i) 0 ++ l.getD (4 + 4 * i) 0 : BitVec 128)
        (InShelves c 36 x.ctxFree s1 → x.ctxFree.toNat % 16 = 0 →
          Answered c (word f :: List.replicate 36 wroteReply) s1 →
          exec (.savectxHi c ra) s = .next (ends c (s1.setCore c saved))
          ∧ (x.bot = x.cwp → exec (.savectxLo c ra) s = .next (ends c (s1.setCore c (saved.setBit pswRESUMED false)))))
        ∧ (InShelves c 36 a s1 → a.toNat % 16 = 0 → l.length = 36 → Answered c (l.map word ++ [wroteReply]) s1 →
          (l.getD 1 0 = 0x0000C700 → exec (.loadctxLo c ra) s = .next (ends c (s1.setCore c (restoreLower l a x))))
          ∧ (l.getD 1 0 = 0x0000C701 → exec (.loadctxHi c ra) s = .next (ends c (s1.setCore c { x with
              v := (List.range 8).foldl (fun w i => w.set i (lanes i) 0) x.v,
              ctxFree := a, k := x.k.set ra (l.getD 0 0) 0, pc := x.pc + 4 })))))
  ∧ (∀ (c : Fin 68) (ra : Fin 32) (b : Nat) (s s1 : State), 64 ≤ c.val → AtInstr c s s1 → MayUse c s1 [ra] [] →
        (s1.core c).bit pswUSER = false →
        let a := regOf s1 c ra
        let line := b / 64
        let ops := [Instr.icinv c ra, .dcinv c ra, .l2flush c ra, .l2inv c ra, .l2flinv c ra]
        let u := if l2Writes s1 line then s1 else l2Flush line s1
        let goes := fun (t : State) => Host.Outcome.next (ends c (nextPc c t))
        (15 * 2 ^ 28 ≤ a.toNat → ∀ i ∈ ops, exec i s = goes s1)
        ∧ (a.toNat < 15 * 2 ^ 28 → placeOf s1 c .maintain a = some (.hbm b false) → ∀ i ∈ ops, exec i s = goes s1)
        ∧ (a.toNat < 15 * 2 ^ 28 → placeOf s1 c .maintain a = none → MayEnter c s1 →
          ∀ i ∈ ops, exec i s = .next (entered c .access a s1))
        ∧ (a.toNat < 15 * 2 ^ 28 → placeOf s1 c .maintain a = some (.hbm b true) →
          exec (.icinv c ra) s = goes (setL1 false c line none s1)
          ∧ exec (.dcinv c ra) s = goes (setL1 true c line none s1)
          ∧ exec (.l2inv c ra) s = goes (setL2 line none s1)
          ∧ (l2Writes u line = true → exec (.l2flush c ra) s = .next u ∧ exec (.l2flinv c ra) s = .next u)
          ∧ (l2Writes u line = false → exec (.l2flush c ra) s = goes u ∧ exec (.l2flinv c ra) s = goes (setL2 line none u))
          ∧ (l2Writes s1 line = false → (s1.cores.l2.get line none).any (·.dirty) = false →
            exec (.l2flush c ra) s = goes s1 ∧ exec (.l2flinv c ra) s = goes (setL2 line none s1))))

/-- The fabric instructions. On a Caller they write the registers of its own massif's pages, once no access that came to
those pages before it waits; on a Lead Caller in supervisor mode they post the writes to the massif that k`rm`
names. QGET reads the word and then its sideband; WFB answers at once when the channel's beat has come and waits
otherwise. QGET of a Caller, when no access of the page waits: the word at RP and its sideband, or zeros from a
queue with nothing to read. QGET and WFB of a Lead Caller, once the registers that they read over VN1 have come.
Derived from parts of R7, R11, R325, R348, R349, R350, R149. The model's own choices that it rests on: log entries
100, 105, 109, 120, 154. -/
def Obligations.FabricControl : Prop :=
  (∀ (c : Fin 68) (r1 r2 rm q : Fin 32) (slot : Fin 16) (clean verify hbm tmo bad : Bool) (epm : BitVec 3) (op : Fin 5)
      (ch : Fin 64) (w sb : Word) (now : Nat) (s s1 s2 s3 : State), MayUse c s1 [r1, r2, rm] [r1, r2] →
      (64 ≤ c.val → (s1.core c).bit pswUSER = false) →
      let m := if c.val < 64 then c.val else (regOf s1 c rm).toNat % 64
      let goes := fun (t : State) => Host.Outcome.next (ends c (nextPc c t))
      let puts := fun (l : List (Nat × Word)) =>
        if 64 ≤ c.val then goes (regStores c (l.map fun e => (0xF0000000 + e.1, e.1, e.2)) s1)
        else if (l.any fun e => accessWaits s1 (8 + c) e.1) = true then Host.Outcome.next s1
        else goes (l.foldl (fun t e => (writeReg (8 + c) e.1 e.2 t).2) s1)
      let bc := fun (f : Fld) (v : Word) => ((if c.val < 64 then 0x40000000 else 0xF0000000) + f.addr, f.addr, v)
      (AtInstr c s s1 →
        exec (.fsw c rm slot clean) s = puts [((F.SEQ_CMD_GO m).addr,
          wordOf [(F.SEQ_CMD_FORCE m, 1), (F.SEQ_CMD_FORCE_SLOT m, slot), (F.SEQ_CMD_FORCE_MODE m, b2n clean)])]
        ∧ exec (.fswGo c rm) s = puts [((F.SEQ_CMD_GO m).addr, wordOf [(F.SEQ_CMD_GO m, 1)])]
        ∧ exec (.fld c rm slot verify hbm) s = puts [((F.LD_CTL_GO m).addr,
          wordOf [(F.LD_CTL_GO m, 1), (F.LD_CTL_OP m, b2n verify), (F.LD_CTL_SLOT m, slot), (F.LD_CTL_SRC m, b2n hbm)])]
        ∧ exec (.qput c r1 rm q epm) s = puts [((F.SQ_PUTSB_EPM m q).addr, wordOf [(F.SQ_PUTSB_EPM m q, epm.toNat)]),
            ((F.SQ_PUT_D m q).addr, regOf s1 c r1)]
        ∧ exec (.qcmd c rm q op) s = puts [((F.SQ_CMD_OP m q).addr, wordOf [(F.SQ_CMD_OP m q, op + 1)])]
        ∧ exec (.bsch c r1 r2 rm ch) s = goes (regStores c [bc (F.BC_ARG0_VALUE ch) (regOf s1 c r2),
            bc (F.BC_ARG1_VALUE ch) (regOf s1 c rm), bc (F.BC_ARG2_VALUE ch) (regOf s1 c r1), bc (F.BC_ARG3_VALUE ch) 0] s1))
      ∧ (Tries c tmo s s1 →
        (fabricRead c { tmo := tmo, bad := bad } (F.SQ_GET_D m q).addr s1 = .ok (w, false) s2 →
          fabricRead c { tmo := tmo, bad := bad } (F.SQ_GETSB_VEPM m q).addr s2 = .ok (sb, false) s3 →
          exec (.qget c r1 r2 rm q tmo bad) s = goes (setReg c r2 sb (setReg c r1 w s3)))
        ∧ (wfbRead c m ch s1 = .ok now s2 → exec (.wfb c r1 r2 rm ch tmo) s =
            if now = (regOf s1 c r2).toNat % 2 ^ 16 then
              .next (ends c (s2.setCore c { s2.core c with wfb := some (r1, regOf s1 c r2, m, ch) }))
            else goes (setReg c r1 (BitVec.ofNat 32 now) s2))
        ∧ (c.val < 64 → wfbRead c m ch s1 = .ok (stubSeq s1 ch) s1)))
  ∧ (∀ (c : Fin 68) (r1 r2 rm q : Fin 32) (ch : Fin 64) (tmo bad : Bool) (x : QWord) (l : List QWord) (w sb : Word)
        (s s1 : State), Tries c tmo s s1 → MayUse c s1 [r1, r2, rm] [r1, r2] →
        let goes := fun (t : State) => Host.Outcome.next (ends c (nextPc c t))
        let get := queueGet c q bad s1
        let gives := fun (d sb : Word) => goes (setReg c r2 sb (setReg c r1 d get.2.2))
        let now := bitsOf w.toNat (16 * (ch.val % 2)) 16
        let m := (regOf s1 c rm).toNat % 64
        (c.val < 64 → s1.massifUp c = true → accessWaits s1 (8 + c) (F.SQ_GET_D c q).addr = false →
          (unread s1 c q = [] → exec (.qget c r1 r2 rm q tmo bad) s = gives 0 0)
          ∧ (bad = false → s1.flag (F.SQ_CTL_EN c q) = true → s1.get (F.SQ_CTL_RSINK c q) = 3 → unread s1 c q = x :: l →
            x.bad = false → x.w.p = false → exec (.qget c r1 r2 rm q tmo bad) s
              = gives x.w.d (BitVec.ofNat 32 (1 + 2 * b2n x.w.e + 8 * b2n x.w.m))))
        ∧ (64 ≤ c.val → (s1.core c).bit pswUSER = false →
          (Answered c [{ word := w }, { word := sb }] s1 →
            exec (.qget c r1 r2 rm q tmo bad) s = goes (setReg c r2 sb (setReg c r1 w s1)))
          ∧ (Answered c [{ word := w }] s1 → exec (.wfb c r1 r2 rm ch tmo) s =
              if now = (regOf s1 c r2).toNat % 2 ^ 16 then
                .next (ends c (s1.setCore c { s1.core c with wfb := some (r1, regOf s1 c r2, m, ch) }))
              else goes (setReg c r1 (BitVec.ofNat 32 now) s1))))

/-- Instructions that a core does not have take ILLEGAL, privileged ones in user mode take PRIV, and nothing else
changes. Derived from parts of R303, R305, R336, R351. The model's own choices that it rests on: log entries 100,
109. -/
def Obligations.IllegalAndPrivileged : Prop :=
  ∀ (c : Fin 68) (ra rb r : Fin 32) (v : Fin 8) (dm : Fin 3) (idx : Fin 16) (i : BitVec 16) (far : BitVec 26)
    (ctl : BitVec 12) (w : Word) (s s1 : State), AtInstr c s s1 → MayEnter c s1 →
    let illegal := Host.Outcome.next (entered c .illegal 0 s1)
    let priv := Host.Outcome.next (entered c .priv 0 s1)
    (decodeIfa w = none → exec (.illegalInstruction c w) s = illegal)
    ∧ (c.val < 64 → ∀ k ∈ [Instr.callw c far, .callwr c ra, .retw c, .savectxLo c ra, .savectxHi c ra, .loadctxLo c ra,
        .loadctxHi c ra, .icinv c ra, .dcinv c ra, .l2flush c ra, .l2inv c ra, .l2flinv c ra, .vadd c v v v dm false false,
        .vsub c v v v dm false false, .vmul c v v v dm false false, .vmin c v v v dm false, .vmax c v v v dm false,
        .vabsd c v v v dm false, .vand c v v v, .vor c v v v, .vxor c v v v, .vcmpeq c v v v dm, .vcmplt c v v v dm false,
        .vshl c v v r dm false false, .vshr c v v r dm false, .vsplat c v r dm, .vext c v r dm false idx,
        .vins c v r dm idx, .vld c v ra i false false, .vst c v ra i], exec k s = illegal)
    ∧ (64 ≤ c.val → ∀ k ∈ [Instr.call c far, .callr c ra, .addR c 25 ra rb, .addi c 25 ra i, .lw c 25 ra i false false,
        .sw c 25 ra i], exec k s = illegal)
    ∧ (ctlExists (isLead c) ctl.toNat = false → exec (.mfc c ra ctl) s = illegal ∧ exec (.mtc c ra ctl) s = illegal)
    ∧ exec (.rff c) s = illegal
    ∧ ((s1.core c).bit pswUSER = true → exec (.rfe c) s = priv ∧ exec (.halt c) s = priv ∧ exec (.wfi c) s = priv
      ∧ (MayUse c s1 [ra] [] → ctlExists (isLead c) ctl.toNat = true →
        exec (.mfc c ra ctl) s = priv ∧ exec (.mtc c ra ctl) s = priv)
      ∧ (MayUse c s1 [ra, rb, r] [] → 26 ≤ r.val → exec (.addR c r ra rb) s = priv ∧ exec (.addi c r ra i) s = priv)
      ∧ (64 ≤ c.val → MayUse c s1 [ra, rb, r] [] → ∀ k ∈ [Instr.fswGo c ra, .fsw c ra 0 false, .fld c ra 0 false false,
          .qput c r ra 0 0, .qget c r rb ra 0 false false, .qcmd c ra 0 0, .bsch c r rb ra 0, .wfb c r rb ra 0 false],
          exec k s = priv))

/-- What entry of an exception other than WINDOW_SPILL writes. Derived from parts of R312, R313. -/
def Obligations.ExceptionEntry : Prop :=
  ∀ (lead : Bool) (k : Cause) (pc a : Word) (x : Core), k ≠ .windowSpill →
    let y := enterCore lead k pc a x
    y.epc = pc ∧ y.epsw = x.psw ∧ y.eaddr = a ∧ y.lsm = 0
    ∧ y.ecause = BitVec.ofNat 32 (k.code + 256 * x.lsm.toNat)
    ∧ (∀ n, k = .irq n → y.pc = x.vbase + 0x200) ∧ ((∀ n, k ≠ .irq n) → y.pc = x.vbase + BitVec.ofNat 32 (0x20 * k.code))
    ∧ (∀ i < 32, i < 8 ∨ 12 ≤ i → y.psw.getLsbD i
        = if i = 3 then true else if i = 0 ∨ i = 2 then false else x.psw.getLsbD i)
    ∧ y.cwp = (if lead then (x.cwp + 1) % 15 else x.cwp)
    ∧ (lead = false → ∀ i, 8 ≤ i → i < 12 → y.psw.getLsbD i = x.psw.getLsbD i)
    ∧ { y with psw := x.psw, epc := x.epc, epsw := x.epsw, eaddr := x.eaddr, lsm := x.lsm, ecause := x.ecause, pc := x.pc } = x

/-- The events of a core that runs, at an instruction boundary. Requests of a WFB that is left are given up. A step of a
halted core carries out the one instruction that stands at its PC and shows the new PC. The spill engine stores
frame BOT, and fills the frame below it, in a shelf; every answer has come. A step of a halted core at a register
operation. Derived from parts of R310, R315, R319, R320, R321, R328, R350, R339. The model's own choices that it
rests on: log entries 102, 103, 106, 107, 120, 157. -/
def Obligations.CoreEvents : Prop :=
  (∀ (c : Fin 68) (j : Fin 4) (n now : Nat) (a : Word) (s s2 : State),
      let x := s.core c
      let u := wireEnd c s
      let ready := coreRuns s c = true ∧ midInstr s c = false ∧ x.spillDue = false
      let l := 64 + j.val
      let k := engineKey l
      let y := s.core l
      let enters := fun (k : Cause) (a : Word) (z : Core) =>
        Host.Outcome.next (u.setCore c (enterCore (isLead c) k x.pc a { z with wfi := false, wfb := none }))
      (ready → x.busErr = none → fastPending s c = false → normalPending s c = some n → entryWaits c x = false →
        exec (.interruptEntry c) s = enters (.irq n) 0 x)
      ∧ (ready → x.busErr = none → fastPending s c = true → exec (.fastInterrupt c) s
          = .next (u.setCore c { x with
              fepc := x.pc, fepsw := x.psw, pc := x.vbase + 0x280, wfi := false, wfb := none,
              psw := withBit (withBit x.psw 4 true) 2 false }))
      ∧ (ready → x.busErr = some a → entryWaits c x = false →
        exec (.busErr c) s = enters .busErr a { x with busErr := none })
      ∧ (coreRuns s c = true → x.irqEn.getLsbD 48 = true → x.timecmp.toNat ≤ s.tb.toNat → fastPending s c = false →
        normalPending s c = none → exec (.timecmpMatch c) s = .next (s.setCore c { x with wfi := false }))
      ∧ (∀ rd seq m ch, coreRuns s c = true → x.spillDue = false → x.busErr = none → fastPending s c = false →
        normalPending s c = none → x.wfb = some (rd, seq, m, ch) →
        let got := fun (v : Nat) (t : State) => Host.Outcome.next (if v = seq.toNat % 2 ^ 16 then wireEnd c t
          else ends c (nextPc c (setReg c rd (BitVec.ofNat 32 v) (t.setCore c { t.core c with wfb := none }))))
        (wfbRead c m ch (wireRewind c s) = .ok now s2 → exec (.wfbReturn c) s = got now s2)
        ∧ (c.val < 64 → exec (.wfbReturn c) s = got (stubSeq s ch) (wireRewind c s)))
      ∧ (leadLive s l = true → y.stopped = false → framesFree y < 2 → y.spillPtr.toNat + 40 ≤ y.spillLim.toNat →
        engineWrites l k true y.spillPtr (frameRecord y y.bot) (engineTurn l (true, y.spillPtr.toNat) s) = .ok () s2 →
        exec (.spill j) s = .next ((wireEnd k s2).setCore l
          { s2.core l with spillPtr := y.spillPtr + 40, bot := (y.bot + 1) % 15, fillNext := false }))
      ∧ (leadLive s l = true → y.fillNext = true → y.stopped = false → 2 ≤ framesFree y → y.cwp = y.bot →
        fillFrame l s = .ok () s2 → exec (.fill j) s = .next s2)
      ∧ (leadLive s l = true → 2 ≤ framesFree y →
        exec (.spillResume j) s = .next (s.setCore l { y with stopped := false, spillDue := false })))
  ∧ (∀ (m : Fin 64) (j : Fin 4) (tmo bad : Bool) (w : Word) (i : Ifa) (s s1 s2 : State), s.loadHold = false →
        s.power.warmPhase = 0 →
        let start := fun (c : Nat) => (s.when (s.core c).wfb.isSome (wireEnd c)).setCore c
          { s.core c with stepReq := true, wfi := false, wfb := none }
        let halted := fun (c : Nat) => s.flag (fHalted c) = true ∧ (s.core c).toPost = []
          ∧ ((s.core c).spillDue = false ∨ midInstr s c = true)
          ∧ fetch c (wireRewind c ((start c).when tmo (wireTimeout (coreRouter c) c))) = .ok w s1
          ∧ decodeIfa w = some i ∧ ifaExec c { tmo := tmo, bad := bad } i s1 = .ok () s2
        let stepped := fun (c : Nat) =>
          let t := ends c s2
          Host.Outcome.next ((t.setCore c { t.core c with stepReq := false, wfb := none }).put (fHaltPc c) (t.core c).pc.toNat)
        (halted m → s.massifUp m = true → exec (.callerStep m tmo bad) s = stepped m)
        ∧ (halted (64 + j) → exec (.leadStep j tmo bad) s = stepped (64 + j)))
  ∧ (∀ (j : Fin 4) (f : List Word) (s : State), leadLive s (64 + j) = true →
        let l := 64 + j.val
        let k := engineKey l
        let y := s.core l
        let below := (y.bot + 14) % 15
        let done := fun (z : Core) => Host.Outcome.next ((wireEnd k s).setCore l z)
        y.stopped = false →
          (framesFree y < 2 → y.spillPtr.toNat + 40 ≤ y.spillLim.toNat → InShelves l 10 y.spillPtr s →
            (s.wire k).op = some (true, y.spillPtr.toNat) → Answered k (List.replicate 10 wroteReply) (wireRewind k s) →
            exec (.spill j) s = done { y with spillPtr := y.spillPtr + 40, bot := (y.bot + 1) % 15, fillNext := false })
          ∧ (y.fillNext = true → 2 ≤ framesFree y → y.cwp = y.bot → InShelves l 10 (y.spillPtr - 40) s → f.length = 10 →
            (s.wire k).op = some (false, (y.spillPtr - 40).toNat) →
            Answered k (f.map fun v => readReply (leBytes 4 v.toNat)) (wireRewind k s) → f.getD 9 0 >>> 16 = 0xF7A5 →
            exec (.fill j) s = done { y with
              frames := (List.range 8).foldl (fun t i => t.set (below * 8 + i) (f.getD i 0) 0) y.frames,
              links := y.links.set below (f.getD 8 0) 0, bot := below, spillPtr := y.spillPtr - 40, fillNext := false }))
  ∧ (∀ (m : Fin 64) (j : Fin 4) (tmo bad : Bool) (w : Word) (f : AluOp) (rd ra rb : Nat) (s s1 : State), s.loadHold = false →
        s.power.warmPhase = 0 → decodeIfa w = some (.alu f rd ra rb) →
        let start := fun (c : Nat) => (s.when (s.core c).wfb.isSome (wireEnd c)).setCore c
          { s.core c with stepReq := true, wfi := false, wfb := none }
        let halted := fun (c : Nat) => s.flag (fHalted c) = true ∧ (s.core c).toPost = []
          ∧ ((s.core c).spillDue = false ∨ midInstr s c = true)
          ∧ fetch c (wireRewind c ((start c).when tmo (wireTimeout (coreRouter c) c))) = .ok w s1
          ∧ MayUse c s1 [rd, ra, rb] [rd]
        let stepped := fun (c : Nat) =>
          let t := ends c (nextPc c (setReg c rd (alu f (regOf s1 c ra) (regOf s1 c rb)) s1))
          Host.Outcome.next ((t.setCore c { t.core c with stepReq := false, wfb := none }).put (fHaltPc c) (t.core c).pc.toNat)
        (halted m → s.massifUp m = true → exec (.callerStep m tmo bad) s = stepped m)
        ∧ (halted (64 + j) → exec (.leadStep j tmo bad) s = stepped (64 + j)))

/-- A register that an instruction writes reads back what was written, the zero register reads 0 and discards writes,
PSW takes its low four bits, LSM_DONE 24 bits; no other register changes. Derived from parts of R303, R304, R338. -/
def Obligations.RegisterFields : Prop :=
  ∀ (lead : Bool) (x : Core) (n m : Nat) (d : Word), n < 32 → m < 32 →
    let y := regWrite lead x n d
    (n < 8 ∨ n = 25 ∨ (27 ≤ n ∧ n < 31) ∨ (8 ≤ n ∧ n < 24 ∧ wReg lead x (n - 8) ≠ .none) → regRead lead y n = d)
    ∧ (n = 24 ∨ (8 ≤ n ∧ n < 24 ∧ wReg lead x (n - 8) = .none) → y = x ∧ regRead lead x n = 0)
    ∧ (n = 26 → y = { x with psw := (x.psw &&& 0xFFFFFFF0) ||| (d &&& 0xF) })
    ∧ (n = 31 → regRead lead y n = d &&& 0xFFFFFF)
    ∧ (n ≠ 26 → m ≠ n → regRead lead y m = regRead lead x m)

/-- The counts of the four decoding modes, for a change of one signal from (a, b) to (a', b'). A change of A or B. A
level that has not been sampled for FILT + 1 cycles leaves the old one, and an input of a bank without supply reads
0. A channel that is disabled or follows only shows the new levels; a change of both is ILLEGAL and counts an error;
a legal one that the mode counts moves the position by one, in the direction that DIR_INV gives, shows DIR, and
reaches the beat channels; in the cycle of a Z load the position stays as loaded and the Z copy takes the count;
where a software load waits for its edge, the count waits for it too. Nothing else changes but PERIOD, OVERSPEED and
the interrupt bits of the page. Derived from parts of R22, R20, R21, R23, R24, R25, R26, R27, R476, R499. A command
whose conditions fail changes nothing: DESIGN CHOICE, log entry 2. The model's own choices that it rests on: log
entries 4, 123, 124, 125. -/
def Obligations.EncoderCounting : Prop :=
  (∀ (a b : Bool),
      -- mode 0 counts each edge of A and of B, mode 1 each edge of A; forward, A leads B
      decodeCount 0 a b (!a) b = some (a == b) ∧ decodeCount 0 a b a (!b) = some (a != b)
      ∧ decodeCount 1 a b (!a) b = some (a == b) ∧ decodeCount 1 a b a (!b) = none
      -- mode 2 counts the edges of A while B is 0, mode 3 each rising edge of A with B as the sign
      ∧ decodeCount 2 a b (!a) b = (if b then none else some (!a)) ∧ decodeCount 2 a b a (!b) = none
      ∧ decodeCount 3 a b (!a) b = (if a then none else some (!b)) ∧ decodeCount 3 a b a (!b) = none)
  ∧ (∀ (n : Fin 16) (x y z : InputSample) (s : State),
        let c := Instr.encoderTransition n x y
        let on := s.flag (F.ENC_CTL_EN n) = true ∧ s.follows n = false
        let behind := fun (old : Bool) (x : InputSample) => if s.get (F.ENC_CTL_FILT n) < x.held then x.level && encBank s n else old
        let a0 := s.flag (F.ENC_STAT_A n)
        let b0 := s.flag (F.ENC_STAT_B n)
        let a := behind a0 x
        let b := behind b0 y
        let shown := (s.putB (F.ENC_STAT_A n) a).putB (F.ENC_STAT_B n) b
        let counts := decodeCount (s.get (F.ENC_CTL_MODE n)) a0 b0 a b
        let zlatch := fun (t : State) => BitVec.ofNat 48 (t.get2 (F.ENC_ZLATCH_LO_VALUE n) (F.ENC_ZLATCH_HI_VALUE n))
        let written := [F.ENC_STAT_A n, F.ENC_STAT_B n, F.ENC_STAT_DIR n, F.ENC_POS_LO_VALUE n, F.ENC_POS_HI_VALUE n,
          F.ENC_PERIOD_VALUE n, F.ENC_STAT_OVERSPEED n, F.IRQ_STAT_BITS encPage]
        let shows := fun (fwd : Bool) (t : State) => t.flag (F.ENC_STAT_A n) = a ∧ t.flag (F.ENC_STAT_B n) = b
          ∧ t.flag (F.ENC_STAT_DIR n) = !fwd ∧ (t.enc n).stamp = some s.tb.toNat
        (x.held ≤ s.get (F.ENC_CTL_FILT n) → y.held ≤ s.get (F.ENC_CTL_FILT n) → exec c s = .next shown ∧ a = a0 ∧ b = b0)
        ∧ (s.flag (F.ENC_CTL_EN n) = false ∨ s.follows n = true → exec c s = .next shown)
        ∧ (on → a ≠ a0 → b ≠ b0 →
            exec c s = .next ((shown.setIrq (F.ENC_STAT_ILLEGAL n) encPage n).count (F.ENC_ERRCNT_VALUE n) 1))
        ∧ (on → (a = a0 ∨ b = b0) → counts = none → exec c s = .next shown)
        ∧ (on → (a = a0 ∨ b = b0) → ∀ up, counts = some up →
            let fwd := up != s.flag (F.ENC_CTL_DIR_INV n)
            let d : Pos48 := if fwd then 1 else -1
            let moved := fun (t : State) => t.encPos n = s.encPos n + d ∧ shows fwd t
            let now := (s.enc n).soft = none
            (∀ new, (s.enc n).soft = some new → exec c s
              = .next (shown.setEnc n { s.enc n with held := (s.enc n).held ++ [fwd] }))
            ∧ (now → (encCycle s n).zLoad = false → ∃ u, exec c s = .next (channelsSee n fwd u) ∧ moved u)
            ∧ (now → (encCycle s n).zLoad = false → (encCycle s n).zCopy = false →
              (∀ c < 64, s.flag (F.BC_CTL_EN c) = true → (s.bc c).enc ≠ n) →
              Does c s fun t => moved t ∧ Only written s { t with pos := s.pos })
            ∧ (now → (encCycle s n).zLoad = true →
              Does c s fun t => t.encPos n = s.encPos n ∧ shows fwd t ∧ zlatch t = zlatch s + d))
        ∧ exec (.inputLevelChange n x y z) s = .next (if s.flag (F.ENC_CTL_EN n) then s
            else shown.putB (F.ENC_STAT_Z n) (behind (s.flag (F.ENC_STAT_Z n)) z)))

/-- Loads of a position and the snapshot. A software load waits for the next TBCLK edge, unless the channel follows. The
edge moves the position, puts the counts of the cycle on top, and rebases every line channel on the encoder by the
same distance. A Z level. A rising edge that is recognised sets ZSEEN and acts by ZMODE: nothing, latch, load, or
load the first time and latch after. A Z load drops a software load of its cycle, and the counts that waited for
that one go into the copy only. Derived from parts of R24, R25, R28, R33, R265, R21. The model's own choices that it
rests on: log entries 4, 18, 123, 124. -/
def Obligations.PositionLoads : Prop :=
  (∀ (n : Fin 16) (v : Word) (s : State),
      let e := s.enc n
      let asked := fun (p : Pos48) (u : State) => if s.follows n then u else u.setEnc n { u.enc n with soft := some p }
      let t := encEdge n s
      exec (.encLoad n) s = .next (asked (s.encPreset n) s)
      ∧ exec (.encPosWrite n v) s = .next (asked (BitVec.ofNat 48 (v.toNat + 2 ^ 32 * s.get (F.ENC_POS_HI_VALUE n))) s)
      ∧ (v.getLsbD 11 = false → Does (.encEnable n v) s fun t =>
          t.enc n = { e with zArmed := true } ∧ (∀ f ∈ encCtlFields n, t.get f = f.of v.toNat)
          ∧ Only (encCtlFields n) s { t with pos := s.pos })
      ∧ (v.getLsbD 11 = true → Does (.encEnable n v) s fun t => (∀ f ∈ encCtlFields n, t.get f = f.of v.toNat)
          ∧ t.enc n = { e with zArmed := true, soft := if s.follows n then e.soft else some (s.encPreset n) }
          ∧ Only (encCtlFields n) s { t with pos := s.pos })
      -- the edge
      ∧ (e.soft = none → t = s)
      ∧ (∀ p, e.soft = some p → s.follows n = false → e.held = [] →
          t.encPos n = p ∧ (t.enc n).soft = none ∧ (t.enc n).loadSeq = (e.loadSeq + 1) % 256
          ∧ (∀ c < 64, s.flag (F.BC_CTL_EN c) = true → (s.bc c).kind = 0 → (s.bc c).enc = n →
            (t.bc c).next = (s.bc c).next + (((p - s.encPos n).zeroExtend 72) <<< 24))
          ∧ Only [F.ENC_POS_LO_VALUE n, F.ENC_POS_HI_VALUE n] s { t with pos := s.pos })
      ∧ (∀ p, e.soft = some p → s.follows n = false → (encCycle s n).zLoad = false → ∀ fwd, e.held = [fwd] →
          t.encPos n = p + (if fwd then 1 else -1) ∧ t.flag (F.ENC_STAT_DIR n) = !fwd ∧ (t.enc n).soft = none)
      ∧ Does .snapCapture s fun t =>
          t.get2 F.TB_SNAP_LO_VALUE F.TB_SNAP_HI_VALUE = s.tb.toNat
          ∧ (∀ k < 16, BitVec.ofNat 48 (t.get2 (F.ENC_SNAP_LO_VALUE k) (F.ENC_SNAP_HI_VALUE k)) = s.encPos k))
  ∧ (∀ (n : Fin 16) (z : InputSample) (s : State),
        let c := Instr.zEdge n z
        let takes := s.get (F.ENC_CTL_FILT n) < z.held
        let level := z.level && encBank s n
        let seen := takes ∧ level = true ∧ s.flag (F.ENC_STAT_Z n) = false ∧ s.flag (F.ENC_CTL_EN n) = true ∧ s.follows n = false
          ∧ (s.flag (F.ENC_CTL_ZGATE n) = true → s.flag (F.ENC_STAT_A n) = true ∧ s.flag (F.ENC_STAT_B n) = true)
        let zlatch := fun (t : State) => BitVec.ofNat 48 (t.get2 (F.ENC_ZLATCH_LO_VALUE n) (F.ENC_ZLATCH_HI_VALUE n))
        let mode := s.get (F.ENC_CTL_ZMODE n)
        (¬ takes → exec c s = .next (s.putB (F.ENC_STAT_Z n) (s.flag (F.ENC_STAT_Z n))))
        ∧ (takes → ¬ seen → exec c s = .next (s.putB (F.ENC_STAT_Z n) level))
        ∧ (seen → mode = 0 → exec c s
            = .next ((s.putB (F.ENC_STAT_Z n) true).setIrq (F.ENC_STAT_ZSEEN n) encPage (16 + n)))
        ∧ (seen → mode = 1 ∨ mode = 3 ∧ (s.enc n).zArmed = false → Does c s fun t =>
            t.flag (F.ENC_STAT_ZSEEN n) = true ∧ zlatch t = (s.enc n).soft.getD (s.encPos n) ∧ t.encPos n = s.encPos n
            ∧ (encCycle t n).zCopy = true)
        ∧ (seen → mode = 2 ∨ mode = 3 ∧ (s.enc n).zArmed = true → Does c s fun t =>
            t.flag (F.ENC_STAT_ZSEEN n) = true ∧ t.encPos n = s.encPreset n
            ∧ zlatch t = (s.enc n).held.foldl (fun p fwd => p + if fwd then 1 else -1) (s.encPos n)
            ∧ (encCycle t n).zLoad = true ∧ (t.enc n).soft = none
            ∧ (mode = 3 → t.flag (F.ENC_STAT_HOMED n) = true ∧ (t.enc n).zArmed = false)))

/-- The beat channels. Derived from parts of R31, R35, R36, R38, R39, R48. A command whose conditions fail changes
nothing: DESIGN CHOICE, log entry 2. The model's own choices that it rests on: log entries 19, 20, 114. -/
def Obligations.BeatChannels : Prop :=
  ∀ (c : Fin 64) (v : Word) (s : State),
    let b := s.bc c
    let en := s.flag (F.BC_CTL_EN c) = true
    let act := s.get (F.BC_CTL_ACT c)
    let s1 := s.loadAll v (bcCtlFields c)
    -- the pended beat of a line channel leaves at its instant, and the next one in the interval is pended
    (en → ∀ t8, b.pend = some t8 → t8 / 8 ≤ s.tb.toNat → b.held = [] → spaced b s.cycle = true →
      let late := spacedLate s b t8
      let t := emitAndPublish c ⟨act, nextInt b, t8⟩ late
        ((lineAdvance c (s.setBc c { b with pend := none })).when late (countLate c))
      exec (.pendedBeatDue c) s = .next (t.setBc c (armLine (t.bc c) (t.encPos (t.bc c).enc))))
    -- until the channel may emit, it stays pended
    ∧ (∀ t8, b.pend = some t8 → spaced b s.cycle = false → exec (.pendedBeatDue c) s = .next s)
    -- a periodic time channel goes on to the next TIME that is still to come; a single shot ends
    ∧ (en → b.kind = 2 → b.time.toNat = s.tb.toNat → b.period ≠ 0 → exec (.timeBeat c) s
        = .next (beatDue c ⟨act, s.encPos b.enc, 8 * b.time.toNat⟩
            (s.setBc c { b with time := BitVec.ofNat 64 (nextTime b.time.toNat b.period.toNat s.tb.toNat) })))
    ∧ (en → b.kind = 2 → b.time.toNat ≤ s.tb.toNat → b.period = 0 → b.held = [] → spaced b s.cycle = true →
        exec (.timeBeat c) s = .next (
          let t := emitAndPublish c ⟨act, s.encPos b.enc, 8 * b.time.toNat⟩ false
            ((s.when (decide (b.time.toNat < s.tb.toNat)) (setLate c)).setBc c b)
          t.when ((t.bc c).held.isEmpty) (bcDone c)))
    -- a push into a queue of a scheduled channel that is not enabled and has room, and one that finds it full
    ∧ (¬ en → s.get (F.BC_CTL_KIND c) = 3 → b.sched.length < 16 → s.flag (F.BC_CTL_TEMPO c) = false →
        let value : Dword := BitVec.ofNat 64 (s.get2 (F.BC_ARG0_VALUE c) (F.BC_ARG1_VALUE c))
        let t := s.load (F.BC_ARG3_VALUE c) v
        let p := t.encPos (s.get (F.BC_CTL_ENC c))
        let e : SchedEnt := ⟨s.flag (F.BC_CTL_BYTIME c), value, s.get (F.BC_ARG2_VALUE c) % 16, 0, none, false⟩
        exec (.schedPush c v) s
          = .next (setSched c (insertSched (dirOf (s.get (F.BC_CTL_DIR c))) p b.sched e) t))
    ∧ (s.get (F.BC_CTL_KIND c) = 3 → ¬ en → 16 ≤ b.sched.length → exec (.schedPush c v) s
        = .next ((s.load (F.BC_ARG3_VALUE c) v).setIrq (F.BC_STAT_SCHED_REFUSED c) bcPage 1))
    -- the first due entry of a scheduled channel by position leaves, with its action
    ∧ (en → b.kind = 3 → b.lastFire ≠ some s.cycle → ∀ e late due8 rest,
        takeDue s.tb.toNat b.sched = some (e, late, due8, rest) → e.byTime = false →
        exec (.schedEntryDue c) s = .next (dueBeat emitBeat c ⟨e.act, e.value.truncate 48, due8⟩
          (State.when ((setSched c rest s).setBc c { b with sched := rest, lastFire := some s.cycle }) late (setLate c))))
    -- BC_CTL by EN before and after
    ∧ (¬ en → s1.flag (F.BC_CTL_EN c) = false → exec (.bcCtlWrite c v) s = .next (cfgSettle c s1))
    ∧ (¬ en → s1.flag (F.BC_CTL_EN c) = true → exec (.bcCtlWrite c v) s = .next (bcEnable c s1))
    ∧ (en → s1.flag (F.BC_CTL_EN c) = true →
        exec (.bcCtlWrite c v) s = .next (s1.putB (F.BC_STAT_CFGPEND c) (cfgPend s1 c)))
    ∧ (en → s1.flag (F.BC_CTL_EN c) = false → exec (.bcCtlWrite c v) s
        = .next (((cfgSettle c s1).setBc c { b with pend := none, held := [] }).put (F.BC_STAT_ACTIVE c) 0))
    -- a held beat leaves late, eight ns after the one before it
    ∧ (en → spaced b s.cycle = true → isSingle b = false → b.kind ≠ 3 → ∀ h rest, b.held = h :: rest →
        exec (.lateBeatEmit c) s = .next (emitAndPublish c h true
          (setLate c ((s.setBc c { b with held := rest }).count (F.BC_LATE_VALUE c) 1))))
    -- one beat enters the tree in a TBCLK cycle, and one that waited counts late once
    ∧ (∀ w ws, s.pos.treeWait = w :: ws → s.pos.treeLast ≠ some s.cycle →
        let t := { s with pos := { s.pos with
          treeWait := ws, treeLast := some s.cycle, treeFly := s.pos.treeFly ++ [(s.cycle, w.beat)] } }
        exec .beatTreeEntry s = .next (if w.emitted < s.cycle ∧ w.counted = false
          then t.count (F.BC_LATE_VALUE w.beat.ch) 1 else t))

/-- What an emitted beat does to its channel: BC_COUNT and BC_SEQ go up, by SEQMOD for BC_SEQ, the instant is kept for
the spacing of R38, and the record, with the source position of the moment for a time beat, waits for the tree when
TREE is 1. The beat outputs. An edge starts a pulse, prolongs one and notes the merge, or changes the state of a
toggle output; a pulse ends at its instant; EN 1 to 0 returns the output to its idle state. Derived from parts of
R29, R37, R40, R38, R42, R43, R45. The model's own choices that it rests on: log entries 114, 125. -/
def Obligations.BeatOutputs : Prop :=
  (∀ (c : Fin 64) (h : HeldBeat) (counted : Bool) (s : State),
      let b := s.bc c
      let seq := s.get (F.BC_SEQ_VALUE c)
      let t := emitBeat c h counted s
      let act := if b.kind = 3 then h.act else s.get (F.BC_CTL_ACT c)
      t.get (F.BC_COUNT_VALUE c) = (s.get (F.BC_COUNT_VALUE c) + 1) % 2 ^ 32
      ∧ t.get (F.BC_SEQ_VALUE c) = (seq + 1) % b.modulus % 2 ^ 16
      ∧ t.bc c = { b with lastEmit := some s.cycle }
      ∧ (s.flag (F.BC_CTL_TREE c) = true → t.pos.treeWait = insertWait s.pos.treeWait
          ⟨s.cycle, counted, ⟨c, b.kind, act, h.due8 % 8, seq,
            if b.kind = 2 then s.encPos b.enc else h.pos, h.due8 / 8 % 2 ^ 48⟩⟩)
      ∧ (s.flag (F.BC_CTL_TREE c) = false → t.pos.treeWait = s.pos.treeWait))
  ∧ (∀ (o : Fin 64) (v : Word) (s : State),
        let b := s.bo o
        let s1 := s.loadAll v (boCtlFields o)
        let rest := { b with edges := b.edges.tail }
        (∀ e l, b.edges = e :: l → e < 8 * s.tb.toNat + 10 →
          let at8 := max e (8 * s.tb.toNat)
          let end8 := at8 + 8 * max (s.get (F.BO_WID_WIDTH o)) 4
          (s.get (F.BO_CTL_MODE o) = 1 →
            exec (.beatOutputEdge o) s = .next (s.setBo o { rest with toggle := !b.toggle }))
          ∧ (s.get (F.BO_CTL_MODE o) ≠ 1 → b.pulseEnd = none →
            exec (.beatOutputEdge o) s = .next (s.setBo o { rest with pulseEnd := some end8 }))
          ∧ (s.get (F.BO_CTL_MODE o) ≠ 1 → ∀ pe, b.pulseEnd = some pe → exec (.beatOutputEdge o) s
              = .next (let t := s.setBo o { rest with pulseEnd := some (max pe end8) }
                       if at8 < pe then t.put (F.BO_STAT_MERGE o) 1 else t)))
        ∧ (∀ pe, b.pulseEnd = some pe → pe < 8 * s.tb.toNat + 10 →
            exec (.pulseEnd o) s = .next (s.setBo o { b with pulseEnd := none }))
        ∧ exec (.boCtlWrite o v) s = .next (if s.flag (F.BO_CTL_EN o) = true ∧ s1.flag (F.BO_CTL_EN o) = false
            then s1.setBo o {} else s1))

/-- The frames and events that form the tree. Each received ANNOUNCE, one with the device's own ID also, each loss and
each return of a link, and the loss of the root lead to an election; what is no frame is counted. A port sends the
oldest waiting frame of the first priority as soon as it sends none; every frame on the wire is one that a receiver
accepts. Derived from parts of R253, R254, R257, R258, R271, R272, R259, R260. A command whose conditions fail
changes nothing: DESIGN CHOICE, log entry 2. The model's own choices that it rests on: log entries 22, 23, 25, 135,
159. -/
def Obligations.TempoTree : Prop :=
  (∀ (p : Fin 4) (id rootId : BitVec 14) (rootPri : Fin 16) (parent : Bool) (depth : Fin 8) (rootSeq viol : Byte)
      (lead : Word) (b : List Byte) (s : State),
      let st := s.get F.TMP_STAT_STATE
      let x := s.tport p
      let up := s.flag F.TMP_STAT_UPVALID && s.get F.TMP_STAT_UPPORT == p.val
      let c := Instr.announce p id rootId rootPri parent depth rootSeq lead
      let v2 := portOn s p = true ∧ s.flag (F.TP_CTL_MODE p) = false
      let seen := if id.toNat = s.get F.TMP_ID_ID then ownIdSeen s else s
      let moved := x.announces == 0 || x.rootId != rootId.toNat || x.rootSeq != rootSeq.toNat
      let heard := ((seen.setTport p { x with
        announces := x.announces + 1, nbrId := id.toNat, nbrDepth := depth, rootId := rootId.toNat,
        rootPri := rootPri, nbrParent := parent, lastAnnounce := s.cycle, lead := lead.toNat, rootSeq := rootSeq.toNat,
        seqAt := if moved then s.cycle else x.seqAt, lost := x.lost && !moved }).put
        (F.TP_NBR_ID p) id.toNat).put (F.TP_NBR_DEPTH p) depth
      let seq := if st = 4 then (s.tempo.rootSeq + 1) % 256 else s.tempo.rootSeq
      let lost := ((s.setTport p {}).put (F.TP_STAT_LINK p) 0).setIrq (F.TP_STAT_LOSS p) (tpPage p) 0
      let served := portOn s p = true ∧ isFeed s p = false
      let coded := s.count (F.TP_CODEERR_VALUE p) viol.toNat
      (v2 → isTap s p = false → exec (.announceSend p) s
        = .next (tempoSend p (.announce (s.get F.TMP_ID_ID)
            (s.get F.TMP_ROOT_ROOTID) (s.get F.TMP_ROOT_ROOTPRI) up (st == 2 || st == 4) (s.get F.TMP_STAT_DEPTH) seq
            (if st = 4 then s.get F.TMP_LEAD_NS else s.tempo.rootLead)) { s with tempo := { s.tempo with rootSeq := seq } }))
      ∧ (v2 → isFeed s p = false → up = false → exec c s = .next (elect (st == 3) heard))
      ∧ (v2 → isFeed s p = false → up = true →
        exec c s = .next (elect (st == 3) { heard with tempo := { heard.tempo with
          rootSeq := rootSeq.toNat, rootLead := lead.toNat,
          rootSeqAt := if s.tempo.rootSeq = rootSeq.toNat then s.tempo.rootSeqAt else s.cycle } }))
      ∧ (s.flag (F.TP_STAT_LINK p) = true → isFeed s p = false → exec (.linkDown p) s = .next
          (if up then elect true ((lost.put F.TMP_STAT_UPVALID 0).setTmpState 3) else elect (st == 3) lost))
      ∧ (served → s.flag (F.TP_STAT_LINK p) = false →
        (s.flag (F.TP_CTL_MODE p) = true ∨ 2 ≤ x.announces) →
        exec (.linkUp p) s = .next (elect (st == 3 && !isTap s p) (s.put (F.TP_STAT_LINK p) 1)))
      ∧ (let old := 300000 + s.tempo.rootSeqAt ≤ s.cycle
        let apart := st = 0 ∧ s.flag F.TMP_STAT_TOO_DEEP = true ∧ ∃ q < 4, seqStale s q = true
        let kept := s.flag F.TMP_STAT_NOPOS = true ∨ ¬ old ∨ (st = 3 ∧ isTapDevice s = true)
        let drop := fun (g : State → Nat → Bool) =>
          let t := s.each 4 fun q u => u.when (seqStale u q && g u q) fun w => w.setTport q { w.tport q with lost := true }
          elect false { t with tempo := { t.tempo with rootSeqAt := s.cycle } }
        (st ≠ 4 → st ≠ 0 → ¬ kept →
          exec .rootLost s = .next (drop fun u q => (u.tport q).rootId == s.get F.TMP_ROOT_ROOTID))
        ∧ (apart → exec .rootLost s = .next (drop fun _ _ => true))
        ∧ (st = 4 ∨ (st = 0 ∧ ¬ apart) ∨ (st ≠ 0 ∧ kept) → exec .rootLost s = .next s))
      ∧ (served → exec (.tempoFrameDiscard p ⟨none, viol⟩) s = .next coded)
      ∧ (served → viol ≠ 0 ∨ s.flag (F.TP_CTL_MODE p) = true ∨ frameOk b = false →
        exec (.tempoFrameDiscard p ⟨some b, viol⟩) s = .next (coded.count (F.TP_CRCERR_VALUE p) 1))
      ∧ (¬ served → exec (.tempoFrameDiscard p ⟨some b, viol⟩) s = .next s))
  ∧ (∀ (p : Fin 4) (f : TempoFrame) (s : State),
        let x := s.tport p
        let v2 := s.flag (F.TP_CTL_MODE p) = false
        let g := stampFrame s f
        (v2 → x.busy ≠ 0 → tempoSend p f s = s.setTport p { x with waiting := x.waiting ++ [f] })
        ∧ (v2 → x.busy = 0 → x.waiting = [] → (∀ seq t1, f ≠ .dreq seq t1) →
          tempoSend p f s = (s.setTport p { x with busy := frameTime false g }).emit (.tempo p g))
        ∧ (∀ l h, nextFrame l = some h → h ∈ l ∧ ∀ k ∈ l, sendClass h ≤ sendClass k)
        ∧ frameOk (frameWire f) = true)

/-- The order of candidates is strict and total, and the one chosen is the best of them. What an election leaves on a
device that runs Tempo, has no v1 upstream and is not held in HOLDOVER: a root of its own, or the chosen candidate
one step below. Derived from parts of R254, R255, R272. The model's own choices that it rests on: log entries 22,
159. -/
def Obligations.Elections : Prop :=
  ((∀ a b, betterCand a b = true → betterCand b a = false)
    ∧ (∀ a b c, betterCand a b = true → betterCand b c = true → betterCand a c = true)
    ∧ (∀ a b, a ≠ b → betterCand a b = true ∨ betterCand b a = true)
    ∧ (∀ l, l ≠ [] → ∃ c, bestOf l = some c)
    ∧ (∀ l c, bestOf l = some c → c ∈ l ∧ ∀ d ∈ l, betterCand d c = false))
  ∧ (∀ (s : State), s.flag F.TMP_CFG_EN = true → v1Up s = none → isTapDevice s = false →
        let own : Cand := ⟨s.get F.TMP_CFG_ROOTPRI, s.get F.TMP_ID_ID, 0, 0, 0⟩
        let t := elect false s
        let state := t.get F.TMP_STAT_STATE
        (own.pri ≠ 15 → (chooseUp s (candidates s) = none ∨ ∃ c, chooseUp s (candidates s) = some c ∧
            betterRoot c own = false) →
          state = 4 ∧ t.flag F.TMP_STAT_UPVALID = false ∧ t.get F.TMP_STAT_DEPTH = 0
          ∧ t.get F.TMP_ROOT_ROOTID = own.root % 2 ^ 14 ∧ t.get F.TMP_ROOT_ROOTPRI = own.pri % 2 ^ 4 ∧ t.tb = s.tb
          ∧ t.get F.CLK_STAT_TBSRC = 0)
        ∧ (own.pri = 15 → chooseUp s (candidates s) = none →
          state = 0 ∧ t.flag F.TMP_STAT_UPVALID = false ∧ t.get F.TMP_STAT_DEPTH = 0 ∧ t.tb = s.tb
          ∧ t.get F.CLK_STAT_TBSRC = 0)
        ∧ (∀ c, chooseUp s (candidates s) = some c → own.pri = 15 ∨ betterRoot c own = true →
          (c.depth < 7 → t.flag F.TMP_STAT_UPVALID = true ∧ t.get F.TMP_STAT_UPPORT = c.port % 2 ^ 2
            ∧ t.get F.TMP_STAT_DEPTH = c.depth + 1 ∧ t.get F.TMP_ROOT_ROOTID = c.root % 2 ^ 14 ∧ t.tb = s.tb)
          ∧ (7 ≤ c.depth → state = 0 ∧ t.flag F.TMP_STAT_TOO_DEEP = true ∧ t.flag F.TMP_STAT_UPVALID = false)))

/-- Delay exchange and compensation. A SYNC on the upstream port gives the offset; one beyond TMP_STEPLIM behind steps
TB forward by the whole ns, and TB is never stepped back; the phase moves by 1/64 ns at most once in 64 cycles. A v1
port brings whole ns. A frame whose SOF crossed in the present cycle has the present TB. Derived from parts of R258,
R260, R261, R262, R263. A command whose conditions fail changes nothing: DESIGN CHOICE, log entry 2. The model's own
choices that it rests on: log entry 134. -/
def Obligations.TempoClock : Prop :=
  ∀ (p : Fin 4) (frac : BitVec 6) (seq age : BitVec 16) (ts t2 t3 : Time70) (s : State),
    let x := s.tport p
    let now : Time70 := BitVec.ofNat 70 (64 * s.tb.toNat + frac.toNat)
    let role := s.get (F.TP_STAT_ROLE p)
    let at_ := s.stampBefore age
    let isUp := portOn s p = true ∧ isFeed s p = false ∧ s.flag F.TMP_STAT_UPVALID = true ∧ s.get F.TMP_STAT_UPPORT = p.val
      ∧ isTap s p = false ∧ x.measured = true
    let o : Int := (at_ - portStamp s p ts).toInt - ((BitVec.ofNat 32 (s.get (F.TP_DELAY_VALUE p))).toInt
      + (BitVec.ofNat 16 (s.get (F.TP_ASYM_VALUE p))).toInt)
    let lim : Int := 64 * (s.get F.TMP_STEPLIM_NS : Int)
    let m := s.tempo
    let d : Int := if m.owed < 0 then -1 else 1
    (linkUp s p = true → role = 2 → exec (.syncSend p frac) s
      = .next (tempoSend p (.sync now x.syncSeq) (s.setTport p { x with syncSeq := (x.syncSeq + 1) % 65536 })))
    ∧ (linkUp s p = true → role = 1 → isTap s p = false → exec (.dreqSend p frac) s
      = .next (tempoSend p (.dreq x.dreqSeq now)
          (s.setTport p { x with dreqSeq := (x.dreqSeq + 1) % 65536 })))
    ∧ (linkUp s p = true → role = 2 → isFeed s p = false →
      exec (.dreq p seq age frac) s = .next (tempoSend p (.dresp seq.toNat at_ now) s))
    ∧ (∀ t1, x.dreqT1 = some (seq.toNat, t1) → portOn s p = true → isFeed s p = false → exec (.dresp p seq t2 t3 age) s
      = .next ((s.setTport p { x with dreqT1 := none, measured := true }).put (F.TP_DELAY_VALUE p)
          (BitVec.ofInt 32 (((at_ - t1).toInt - (portStamp s p t3 - portStamp s p t2).toInt) / 2)).toNat))
    ∧ (age.toNat < 64 → (∀ e ∈ m.shifts, e.1 ≤ s.cycle) →
      at_ = BitVec.ofNat 70 (64 * s.tb.toNat + (63 - age.toNat)))
    ∧ (isUp → exec (.sync p ts age) s
      = .next (lockState o (correct o true (s.put F.TMP_OFFSET_VALUE (BitVec.ofInt 32 o).toNat))))
    ∧ (isUp → o < -lim → Does (.sync p ts age) s fun t => t.tb = s.tb + BitVec.ofNat 64 (((-o).toNat + 63) / 64)
        ∧ t.flag F.TMP_STAT_STEPPED = true ∧ t.flag F.TMP_STAT_TB_AHEAD = false)
    ∧ (isUp → -lim ≤ o → Does (.sync p ts age) s fun t => t.tb = s.tb ∧ t.tempo.owed = -o
        ∧ t.flag F.TMP_STAT_TB_AHEAD = decide (lim < o))
    ∧ (s.get F.TMP_STAT_STATE ≠ 4 → m.owed ≠ 0 → m.slewWait = 0 → exec .phaseSlewStep s
      = .next { s with tempo := { m with
          phase := (m.phase + d) - (if m.phase + d ≤ -64 then -64 else if 64 ≤ m.phase + d then 64 else 0),
          tbSkew := m.tbSkew + (if m.phase + d ≤ -64 then -1 else if 64 ≤ m.phase + d then 1 else 0),
          owed := m.owed - d, slewWait := 64 } })
    ∧ (s.get F.TMP_STAT_STATE ≠ 4 → m.slewWait ≠ 0 → exec .phaseSlewStep s = .next s)

/-- Positions, beats and schedule entries across the domain. A frame of another device that the port takes is flooded on
and then acted on. Derived from parts of R259, R265, R266, R267, R269, R270. The model's own choices that it rests
on: log entries 20, 21, 22, 24, 25, 122. -/
def Obligations.TempoPositions : Prop :=
  ∀ (p : Fin 4) (origin : BitVec 14) (c n tsq act : Fin 16) (ch : Fin 64) (tf : Fin 8) (byTime : Bool) (loadSeq : Byte)
    (seq : BitVec 16) (pn tn ts pos time : Pos48) (vel : Word) (value : Dword) (smp : Sample) (s : State),
    let id := s.get F.TMP_ID_ID
    let x := s.tpc c
    let e := s.enc (s.get (F.TMP_PUB_ENC c))
    let other := origin.toNat ≠ id
    let tb := s.tb.toNat
    let v2 := s.flag (F.TP_CTL_MODE p) = false
    let fpos := TempoFrame.pos origin.toNat c loadSeq.toNat pn tn.toNat vel ts.toNat
    let fbeat := TempoFrame.beat origin.toNat ch act tf seq.toNat pos time.toNat
    let fsched := TempoFrame.sched origin.toNat tsq byTime act value
    (s.flag (F.TMP_PUB_EN c) = true → mayPublish s = true → ∀ t0 v, e.stamp = some t0 → velocity e = some v →
      let own : Sample := ⟨id, e.loadSeq, s.encPos (s.get (F.TMP_PUB_ENC c)), t0, v, tb⟩
      exec (.posSend c) s = .next (sampleArrive c own
        (flood (.pos id c e.loadSeq own.pn (t0 % 2 ^ 48) v (tb % 2 ^ 48)) none s)))
    ∧ (takesFlooded s p fpos = true → other → exec (.pos p origin c loadSeq pn tn vel ts) s
      = .next (sampleArrive c ⟨origin.toNat, loadSeq.toNat, pn, expandTime tb tn.toNat, vel, expandTime tb ts.toNat⟩
          (flood fpos (some p.val) s)))
    ∧ (∀ rest, x.pending = smp :: rest → smp.ts + leadNow s ≤ tb → (∀ o, x.cur = some o → o.ts ≤ smp.ts) →
      exec (.sampleEffect c) s = .next (takeEffect c smp (s.setTpc c { x with pending := rest })))
    ∧ (s.follows n = true → s.flag (F.TMP_FOLLOW_STALE n) = false → (s.enc n).stamp ≠ some tb →
      (s.tpc (s.get (F.TMP_FOLLOW_TPC n))).cur = some smp → followX smp tb ≠ s.encPos n →
      exec (.followerTransition n) s = .next (encCount n (!(followX smp tb - s.encPos n).msb) s))
    ∧ (s.follows n = true →
      let k := s.get (F.TMP_FOLLOW_TPC n)
      (s.tpc k).effAt + 2 * max 1 (s.get (F.TMP_PUB_INT k)) * 1000 < s.cycle → exec (.stale n) s
        = .next ((s.setIrq (F.TMP_FOLLOW_STALE n) tmapPage 0).setTpc k { s.tpc k with lastOrigin := none }))
    ∧ (v2 → takesFlooded s p fbeat = true → other → exec (.beatFrame p origin ch act tf seq pos time) s
      = .next (mapBeat origin.toNat ch act tf seq.toNat time.toNat (flood fbeat (some p.val) s)))
    ∧ (takesFlooded s p fsched = true → other → exec (.schedFrame p origin tsq byTime act value) s = .next (
        let t := flood fsched (some p.val) s
        let k := t.get (F.TMP_SMAP_CH tsq)
        if t.flag (F.TMP_SMAP_EN tsq) then
          if schedKind t k = 3 then schedPush k byTime value act 0 t
          else t.setIrq (F.BC_STAT_SCHED_REFUSED k) bcPage 1
        else t))

/-- Firings. A tile whose named ports all hold a word, whose result registers nothing still writes and whose buffers
have room fires, unless the massif stopped in an earlier cycle: its operands as read enter the pipeline and the
consumed ports are emptied. A firing whose predicate is false and that does not pass only consumes; one whose
control value is poisoned stops the massif and names the tile, the lowest of those of one cycle; a marker at the
head of a named port passes alone, or is discarded under MPOL 1. Derived from parts of R52, R53, R69, R71, R76. A
command whose conditions fail changes nothing: DESIGN CHOICE, log entry 2. The model's own choices that it rests on:
log entries 30, 31, 41, 126. -/
def Obligations.TileFiring : Prop :=
  ∀ (m : Fin 64) (t : Fin 256) (s : State),
    let v := s.active m t
    let x := s.tile m t
    let op := slotOp v t
    let named := namedPorts s m t v
    let arg := fun i => (readSource v x (slotSrc v i)).1
    let sat := fun i => usesOf s m t v i && (readSource v x (slotSrc v i)).2
    let eOr := named.any fun p => ((portHead x p).map (·.e)).getD false
    let pred := (predicate s m t v x (arg 2)).1
    let predP := (predicate s m t v x (arg 2)).2
    let unused := fun (a : Opnd) => { a with e := false, port := false }
    let f : Firing := ⟨if usesOf s m t v 0 then arg 0 else unused (arg 0), arg 1, arg 2, pred, eOr,
      sat 0 || sat 1 || sat 2, none⟩
    let again := s.flag (F.MASSIF_STAT_STOPPED m) = true ∧ (s.massif m).stopAt = some s.cycle
    let ready := clocked s m = true ∧ (s.flag (F.MASSIF_STAT_STOPPED m) = false ∨ again) ∧ op ≠ 0 ∧ (∀ p ∈ named, (portHead x p).isSome = true)
      ∧ markerPort s m t v x = none ∧ interlocked s m t v x = false ∧ pipeFree op (slotMode v) x = true
    let taken := fun (y : Tile) => ∀ p < 3, portHead y p
      = if p ∈ named ∧ portConsumed s m t v x p = true then none else portHead x p
    let poisoned := predP = true ∨ pred = true ∧ (op = 0x14 ∧ (arg 2).p = true ∨ (op = 0x31 ∨ op = 0x32) ∧ (arg 0).p = true)
    let mk : Firing := ⟨⟨0, false, false, false⟩, ⟨0, false, false, false⟩, ⟨0, false, false, false⟩, true, false, false, none⟩
    (ready → pred = true → hasRoom s m t v x f = true → ¬ poisoned → ∃ y, exec (.firing m t) s = .next (s.setTile m t y)
        ∧ taken y ∧ y = { x with pipe := x.pipe ++ [f], fa := y.fa, fb := y.fb, fc := y.fc })
    ∧ (ready → pred = false → slotPass v = false → predP = false → ∃ y, exec (.firing m t) s = .next (s.setTile m t y)
        ∧ taken y ∧ y = { x with fa := y.fa, fb := y.fb, fc := y.fc })
    ∧ (ready → pred = true → hasRoom s m t v x f = true → poisoned → Does (.firing m t) s fun u =>
        u.flag (F.MASSIF_STAT_STOPPED m) = true ∧ u.flag (F.MASSIF_STAT_CONTROL_POISON m) = true
        ∧ u.flag (F.SEQ_STAT_RUNNING m) = false ∧ u.get (F.SEQ_STAT_HALT_CAUSE m) = 5
        ∧ u.get (F.ERR_ADDR_LO_VALUE (seqPage m))
          = (if again then min (m.val * 256 + t.val) (s.get (F.ERR_ADDR_LO_VALUE (seqPage m))) else m.val * 256 + t.val) ∧ u.fab.tiles = s.fab.tiles)
    ∧ (¬ ready → exec (.firing m t) s = .next s)
    ∧ (∀ p, markerPort s m t v x = some p → runs s m = true → op ≠ 0 →
        (slotMpol v = 1 → exec (.markerFiring m t) s = .next (s.setTile m t (setPortHead x p none)))
        ∧ (slotMpol v ≠ 1 → slotXo v = true → hasRoom s m t v x { mk with marker := portHead x p } = true →
            pipeFree op (slotMode v) x = true → exec (.markerFiring m t) s
              = .next (s.setTile m t { setPortHead x p none with pipe := x.pipe ++ [{ mk with marker := portHead x p }] })))

/-- What the operations of a tile answer on each lane, and what a multiply-accumulate adds; a result that fits is exact
and one that does not is clamped under SAT and cut otherwise. Derived from parts of R54, R55, R57, R58, R59, R60,
R61. -/
def Obligations.TileOperations : Prop :=
  ∀ (v : BitVec 320) (f : Firing) (p : Bool) (x : Tile), slotDm v ≠ 3 →
    let w := laneWidth (slotMode v)
    let a := lane w (slotSgn v) f.a.d
    let b := lane w (slotSgn v) f.b.d
    let c := lane w (slotSgn v) f.c.d
    let n := fun i => bitsOf f.b.d.toNat (w * i) w % w
    let u := fun i => bitsOf f.a.d.toNat (w * i) w
    let fit := fun (z : Int) => (narrow w (slotSgn v) (slotSat v) z).1
    let gives := fun (op : Nat) (g : Nat → Nat) => ∃ d, (plainOp op v f p).x = some d ∧ (plainOp op v f p).y = none
      ∧ ∀ i < 32 / w, bitsOf d.toNat (w * i) w = g i % 2 ^ w
    let ones := fun (q : Bool) => if q then 2 ^ w - 1 else 0
    gives 0x03 (fun i => fit (a i + b i)) ∧ gives 0x04 (fun i => fit (a i - b i))
    ∧ gives 0x05 (fun i => fit (a i + b i + c i)) ∧ gives 0x06 (fun i => (a i - b i).natAbs)
    ∧ gives 0x07 (fun i => lowBits w (min (a i) (b i))) ∧ gives 0x08 (fun i => lowBits w (max (a i) (b i)))
    ∧ gives 0x09 (fun i => lowBits w (min (max (a i) (b i)) (c i)))
    ∧ gives 0x0B (fun i => ones (a i == b i)) ∧ gives 0x0C (fun i => ones (a i != b i))
    ∧ gives 0x0D (fun i => ones (decide (a i < b i))) ∧ gives 0x0E (fun i => ones (decide (a i ≤ b i)))
    ∧ gives 0x14 (fun i => lowBits w (if c i != 0 then a i else b i))
    ∧ gives 0x15 (fun i => fit (a i * 2 ^ n i)) ∧ gives 0x16 (fun i => lowBits w (a i / 2 ^ n i))
    ∧ gives 0x17 (fun i => u i * 2 ^ n i + u i / 2 ^ (w - n i))
    ∧ gives 0x18 (fun i => popCount w (u i)) ∧ gives 0x19 (fun i => leadingZeros w (u i))
    ∧ gives 0x21 (fun i => fit (roundShift (a i * b i) (slotSh v)))
    ∧ gives 0x22 (fun i => fit (roundShift (a i * b i) (slotSh v) + c i))
    ∧ (∀ op ∈ [0x0F, 0x10, 0x11, 0x12, 0x13], (plainOp op v f p).y = none ∧ (plainOp op v f p).sat = false)
    ∧ (plainOp 0x0F v f p).x = some (f.a.d &&& f.b.d) ∧ (plainOp 0x10 v f p).x = some (f.a.d ||| f.b.d)
    ∧ (plainOp 0x11 v f p).x = some (f.a.d ^^^ f.b.d) ∧ (plainOp 0x12 v f p).x = some (f.a.d &&& ~~~f.b.d)
    ∧ (plainOp 0x13 v f p).x = some (~~~f.a.d)
    ∧ (∃ lo hi, (plainOp 0x20 v f p).x = some lo ∧ (plainOp 0x20 v f p).y = some hi
        ∧ ∀ i < 32 / w, bitsOf hi.toNat (w * i) w = lowBits w (a i * b i / 2 ^ w))
    ∧ (slotAccmode v = 0 → slotAccsel v = 0 → slotSat v = false → slotMode v = 0 →
        (accOp 0x23 v f p x).1.x = none
        ∧ (accOp 0x23 v f p x).2 = { x with acc0 := ⟨x.acc0.v + BitVec.ofInt 48 (a 0 * b 0), x.acc0.p || p⟩ }
        ∧ (accOp 0x24 v f p x).2 = { x with acc0 := ⟨x.acc0.v - BitVec.ofInt 48 (a 0 * b 0), x.acc0.p || p⟩ })

/-- The oldest firing completes. A marker or a passed operand goes to the buffers unchanged; an operation that touches
neither an accumulator nor a memory writes its registers, its flags and its words; a BMW that meets no other write
stores its entry. Derived from parts of R67, R68, R69, R72, R75, R79. The model's own choices that it rests on: log
entries 39, 40, 41, 127. -/
def Obligations.ResultWriteback : Prop :=
  ∀ (m : Fin 64) (ty tx : Fin 16) (f : Firing) (rest : List Firing) (s : State),
    let t : Nat := 16 * ty + tx
    clocked s m = true → (s.tile m t).pipe = f :: rest →
    let v := s.active m t
    let op := slotOp v t
    let x := { s.tile m t with pipe := rest }
    let s0 := s.setTile m t x
    let c := Instr.resultWriteback m ty tx
    let p := (usesOf s m t v 0 && f.a.p) || (usesOf s m t v 1 && f.b.p) || (usesOf s m t v 2 && f.c.p)
    let r := plainOp op v f p
    let opt := fun (q : Bool) (d : Option Word) => if q then d.map fun z => (⟨z, endMark v f, r.p, false⟩ : SWord) else none
    let reg := fun (k : Nat) => if slotYw v = 8 + k ∧ r.y.isSome then ⟨r.y.getD 0, r.p⟩
      else if slotXw v = 8 + k ∧ r.x.isSome then ⟨r.x.getD 0, r.p⟩ else ureg x k
    (∀ w, f.marker = some w → exec c s = .next (putWord m t 27 (if slotYo v then some w else none)
        (putWord m t 26 (if slotXo v then some w else none) s0)))
    ∧ (f.marker = none → f.pred = false → exec c s = .next (putWord m t 26
        (if slotXo v then some ⟨f.a.d, endMark v f, f.a.p, false⟩ else none) s0))
    ∧ (f.marker = none → f.pred = true → op < 0x30 → (op < 0x1C ∨ 0x20 ≤ op ∧ op ≤ 0x22) → ∃ y,
        exec c s = .next (putWord m t 27 (opt (slotYo v) r.y) (putWord m t 26 (opt (slotXo v) r.x) (s.setTile m t y)))
        ∧ y.pipe = rest ∧ y.vf = ⟨r.sat || f.sat, r.p⟩ ∧ (∀ k < 8, ureg y k = reg k)
        ∧ (∀ d, r.x = some d → y.zf = ⟨d == 0, r.p⟩ ∧ y.nf = ⟨d.getLsbD 31, r.p⟩)
        ∧ y.acc0 = x.acc0 ∧ y.acc1 = x.acc1 ∧ y.fa = x.fa ∧ y.fb = x.fb ∧ y.fc = x.fc ∧ y.cells = x.cells)
    ∧ (f.marker = none → f.pred = true → op = 0x31 → ∀ k port, bmPort t (slotBmsel v) = some (k, port) →
        let asp := s.get (F.BM_CFG_ASPECT m k)
        let ad := memAddr v asp f.a.d
        let wrote : BmWrote := ⟨s.cycle, ad % aspectDepth asp, bmBits s0 m k ad, false⟩
        let s1 := { s0 with mem := { s0.mem with bmWrote := s0.mem.bmWrote.set ((m * 24 + k) * 2 + port) (wrote :: bmWrites s0 m k port) [] } }
        asp ≠ 3 → bmMet s0 m k port ad 0 = [] →
        exec c s = .next ((bmWrite m k ad f.b.d.toNat f.b.e f.b.p false s1).setTile m t { x with vf := ⟨f.sat, p⟩ }))

/-- Words on the tracks, the col queues and the feed ports. Derived from parts of R13, R82, R83, R91, R92, R93, R95,
R96, R97, R98, R99, R115. A command whose conditions fail changes nothing: DESIGN CHOICE, log entry 2. The model's
own choices that it rests on: log entries 32, 36, 49, 145. -/
def Obligations.WordsAndFeeds : Prop :=
  ∀ (m : Fin 64) (t : Fin 256) (g : Fin 28) (face : Fin 4) (place : Fin 16) (track : Fin 4) (p : Fin 32) (f : Fin 8)
    (bad : Bool) (v : Word) (s : State),
    let st := s.stage m t g
    let k := colKey m face place track
    let q := s.colq k
    let fq := s.feedq p f
    let l := s.lane (8 * (s.feedTrack p f).sel + f)
    -- a word with one destination that has room goes there; one with none that has room stays
    (∀ w rest d, st.words = w :: rest → st.taken = [] → clocked s m = true → stageDests s m t g = [d] →
        (destRoom s m (boundaryQueue m t g) d = true → exec (.wordHop m t g) s
          = .next ((destTake m (boundaryQueue m t g) w d s).setStage m t g ⟨rest, []⟩))
        ∧ (destRoom s m (boundaryQueue m t g) d = false → exec (.wordHop m t g) s = .next (s.setStage m t g st)))
    ∧ (st.words = [] ∨ clocked s m = false → Does (.wordHop m t g) s fun u => u = s.setStage m t g st ∨ u = s)
    -- the head of a col queue enters the tile at its place, with P set when its parity check fails
    ∧ (∀ w rest d, q.words = w :: rest → q.taken = [] → runs s m = true →
        inputHeld s m ((face * 16 + place) * 4 + track) = false →
        landSingle (s.active m (tileAt face place)) (tileAt face place) (opposite face) track = [d] → destRoom s m none d = true →
        let s0 := if bad then
            (s.count (F.CQ_PARCNT_VALUE m face) 1).setIrq (F.CQ_STAT_PARITY m face) (cqPage m) face else s
        let w1 := if bad then { w with p := true } else w
        exec (.colQueueDelivery m face place track bad) s = .next (noteInput m ((face * 16 + place) * 4 + track) w.e
          (cqRefresh m face ((destTake m none w1 d s0).setColq k ⟨rest, []⟩))))
    ∧ (q.words = [] ∨ runs s m = false → exec (.colQueueDelivery m face place track bad) s = .next s)
    -- HIGHWATER takes the greatest occupancy of the face as it is now
    ∧ Does (.hwclr m face) s (fun u => Only [F.CQ_STAT_HIGHWATER m face] s u
        ∧ (∀ pl tr, pl < 16 → tr < 4 → (∀ i < 64, (s.colq (colKey m face 0 0 + i)).words.length ≤ 8) →
            (s.colq (colKey m face pl tr)).words.length ≤ u.get (F.CQ_STAT_HIGHWATER m face)))
    -- a feed queue with a credit takes the head of its lane queue; the last port that carries the lane frees it
    ∧ (∀ w rest, fq.words = [] → l.words = w :: rest → l.taken = [] →
        feedTakes s (8 * (s.feedTrack p f).sel + f) p = true → (s.get (F.FEED_STAT_PENDING p)).testBit f = false →
        0 < queueCredits s (feedMassif p) (256 + 8 * p + f) 0 →
        let s0 := if bad then (s.count (F.LRQ_PARCNT_VALUE (s.feedTrack p f).sel f) 1).setIrq
          (F.LRQ_STAT_PARITY (s.feedTrack p f).sel f) (lrqPage (s.feedTrack p f).sel) f else s
        let w1 := if bad then { w with p := true } else w
        let s1 := (s0.setFeedq p f { fq with words := [w1] }).setFeedTrack p f { s.feedTrack p f with boundary := w.e }
        let i := 8 * (s.feedTrack p f).sel + f
        exec (.feedDelivery p f bad false) s = .next (laneSettle i (laneRefresh i
          ((s1.put (F.FEED_CNT_VALUE p) (s1.get (F.FEED_CNT_VALUE p) + 1)).setLane i { l with words := w1 :: rest, taken := [p.val] }))))
    ∧ (∀ (i : Fin 512) w rest, (s.lane i).words = w :: rest → (s.lane i).taken ≠ [] →
        ((∀ j < 32, feedTakes s i j = true → j ∈ (s.lane i).taken) → laneSettle i s = laneRefresh i
          (s.setLane i { s.lane i with words := rest, taken := [], boundary := w.e }))
        ∧ ((∃ j < 32, feedTakes s i j = true ∧ j ∉ (s.lane i).taken) → laneSettle i s = s))
    ∧ (fq.words = [] → l.words = [] → exec (.feedDelivery p f false bad) s = .next s)
    -- FEED_CTL, and a pending change of the lane group
    ∧ Does (.feedCtlWrite p v) s (fun u => u.get (F.FEED_CTL_SEL p) = (F.FEED_CTL_SEL p).of v.toNat
        ∧ u.get (F.FEED_CTL_TRACKEN p) = (F.FEED_CTL_TRACKEN p).of v.toNat ∧ u.flag (F.FEED_CTL_EN p) = v.getLsbD 0)
    ∧ ((s.get (F.FEED_STAT_PENDING p)).testBit f = true → (s.feedTrack p f).boundary = true →
        let sel := s.get (F.FEED_CTL_SEL p)
        let s1 := laneSettle (8 * (s.feedTrack p f).sel + f)
          ((s.setFeedTrack p f { s.feedTrack p f with sel := sel, boundary := true }).put
            (F.FEED_STAT_PENDING p) (s.get (F.FEED_STAT_PENDING p) &&& (255 - 2 ^ f.val)))
        ((s.lane (8 * sel + f)).boundary = true → exec (.feedSelChange p f) s = .next s1)
        ∧ ((s.lane (8 * sel + f)).boundary = false → exec (.feedSelChange p f) s
            = .next ((s1.put (F.FEED_STAT_MIDPKT p) (s1.get (F.FEED_STAT_MIDPKT p) ||| 2 ^ f.val)).when
                (!(s1.get (F.FEED_STAT_MIDPKT p)).testBit f) fun u => u.irq feedPage p)))
    ∧ ((s.get (F.FEED_STAT_PENDING p)).testBit f = false ∨ (s.feedTrack p f).boundary = false →
        exec (.feedSelChange p f) s = .next s)

/-- R102: Each parity bit makes even the parity of its group, by the table of the groups; an all-zero slot has correct
parity. Each bit of a slot lies in one group, so an upset of any one bit is found (R111). -/
def Obligations.SlotParity : Prop :=
  let groups := [(0, 31, 90), (32, 63, 91), (64, 89, 92), (96, 127, 93), (128, 159, 94), (160, 191, 95), (192, 223, 252),
    (224, 251, 253), (256, 287, 254), (288, 319, 255)]
  (∀ v : BitVec 320, slotParityOk v = true ↔ ∀ g ∈ groups,
    ((List.range 320).countP fun i => (decide (g.1 ≤ i ∧ i ≤ g.2.1) || i == g.2.2) && v.getLsbD i) % 2 = 0)
  ∧ slotParityOk 0 = true
  ∧ (∀ (v : BitVec 320) (b : Fin 320), slotParityOk v = true → slotParityOk (v ^^^ (1#320 <<< b.val)) = false)

/-- The figure loader. A write of LD_CTL with GO starts LOAD or VERIFY, is refused while BUSY, or faults with its code;
a LOAD whose whole entry is read ends with the image in its slot, or with the fault of the first check that fails;
VERIFY ends with DONE, or names the lowest tile whose parity fails. A failed parity of an active slot is counted or
stops the massif, as PARITY_ACT says. A wake reloads its slots and then acts on its beat. Derived from parts of
R104, R106, R107, R108, R109, R111, R123. A command whose conditions fail changes nothing: DESIGN CHOICE, log entry
2. The model's own choices that it rests on: log entries 43, 44, 61, 126, 129, 145. -/
def Obligations.FigureLoader : Prop :=
  ∀ (m : Fin 64) (t : Fin 256) (v : Word) (flip : Option (Fin 320)) (s : State),
    let word := fun (op : Word) => (v &&& ~~~6) ||| op
    let asked := fun (op : Word) => s.loadAll (word op) [F.LD_CTL_OP m, F.LD_CTL_SLOT m, F.LD_CTL_SRC m]
    let slot := (asked 1).get (F.LD_CTL_SLOT m)
    let hbm := (asked 1).flag (F.LD_CTL_SRC m)
    let addr := s.get (F.LD_ADDR_LO_VALUE m) + (if hbm then 2 ^ 32 * s.get (F.LD_ADDR_HI_VALUE m) else 0)
    let okAddr := addr % 64 = 0 ∧ addr + 10304 ≤ (if hbm then 2 ^ 35 else 2 ^ 20)
    let act := s.get (F.SEQ_STAT_ACTIVE_SLOT m)
    let faults := fun (code : Nat) (u : State) => u.flag (F.LD_STAT_FAULT m) = true ∧ u.get (F.LD_STAT_CODE m) = code
    let flipped := s.setSlotBits m act t (match flip with
      | some b => s.slotBits m act t ^^^ (1#320 <<< b.val)
      | none => s.slotBits m act t)
    let again := s.flag (F.MASSIF_STAT_STOPPED m) = true ∧ (s.massif m).stopAt = some s.cycle
    -- GO while BUSY
    (s.flag (F.LD_STAT_BUSY m) = true → ∀ c ∈ [Instr.load m v, .verify m v],
        exec c s = .next ((s.put (F.LD_STAT_REFUSED m) 1).irq (ldPage m) 2))
    -- a LOAD that starts, and the ones that fault
    ∧ (s.flag (F.LD_STAT_BUSY m) = false → okAddr → slotBusy (asked 1) m slot = false →
        let begun := slotInvalid m slot (setLoader m
          (some { verify := false, slot := slot, hbm := hbm, addr := addr, binds := (bindFields m).map (asked 1).get,
                  gen := s.fab.loads })
          (({ asked 1 with fab := { s.fab with loads := s.fab.loads + 1 } } : State).put (F.LD_STAT_BUSY m) 1))
        exec (.load m v) s = .next (loaderPump m begun))
    ∧ (s.flag (F.LD_STAT_BUSY m) = false → ¬ okAddr → Does (.load m v) s (fun u => faults 7 u ∧ u.fab = s.fab))
    ∧ (s.flag (F.LD_STAT_BUSY m) = false → okAddr → slotBusy (asked 1) m slot = true →
        Does (.load m v) s (fun u => faults 8 u ∧ u.fab = s.fab))
    ∧ (s.flag (F.LD_STAT_BUSY m) = false → exec (.verify m v) s = .next (setLoader m
          (some { verify := true, slot := (asked 3).get (F.LD_CTL_SLOT m), hbm := false, addr := 0 })
          ((asked 3).put (F.LD_STAT_BUSY m) 1)))
    -- the LOAD of a slot ends, once its 161 blocks are read; a response with an error ends it at once
    ∧ (∀ o (i : Fin 16), s.fab.loaders.get m none = some o → o.verify = false → o.wake = false → o.slot = i → (∀ k < 161, o.got.get k [] ≠ []) →
        let whole := (List.range 161).flatMap fun k => o.got.get k []
        (∀ bytes, entryCheck (boundAsAtStart m o s) m whole = .inr bytes → exec (.loadDone m i) s = .next
          (((slotLoaded m o.slot o.hbm o.addr bytes (setLoader m none (s.put (F.LD_STAT_BUSY m) 0))).put (F.LD_STAT_DONE m) 1).irq
            (ldPage m) 0))
        ∧ (∀ code tile, entryCheck (boundAsAtStart m o s) m whole = .inl (code, tile) → code < 16 →
          Does (.loadDone m i) s fun u => faults code u ∧ u.flag (F.LD_STAT_BUSY m) = false))
    ∧ (∀ o (i : Fin 16), s.fab.loaders.get m none = some o → o.verify = false → o.wake = true ∨ o.slot ≠ i ∨ (∃ k < 161, o.got.get k [] = []) →
        exec (.loadDone m i) s = .next s)
    ∧ (∀ o k data, s.fab.loaders.get m none = some o → o.verify = false → o.hbm = true → k < o.next →
        faults 7 (loaderAnswer m k o.gen true data s))
    ∧ (∀ o k gen err data, s.fab.loaders.get m none = some o → o.gen ≠ gen → loaderAnswer m k gen err data s = s)
    -- VERIFY ends
    ∧ (∀ o, s.fab.loaders.get m none = some o → o.verify = true →
        ((∀ k < 256, slotParityOk (s.slotBits m o.slot k) = true) →
          exec (.verifyDone m) s = .next (((setLoader m none (s.put (F.LD_STAT_BUSY m) 0)).put (F.LD_STAT_DONE m) 1).irq
            (ldPage m) 0))
        ∧ (slotParityOk (s.slotBits m o.slot t) = false → (∀ k < t.val, slotParityOk (s.slotBits m o.slot k) = true) →
          Does (.verifyDone m) s fun u => faults 9 u ∧ u.get (F.LD_FAULT_TILE m) = t ∧ u.flag (F.LD_FAULT_TV m) = true
            ∧ (act = o.slot → u.flag (F.MASSIF_STAT_SLOT_PARITY m) = true)
            ∧ (act ≠ o.slot → (u.get (F.SLOT_VALID_BITS m)).testBit o.slot = false)))
    -- an upset in an active slot, or a further cycle of the failure
    ∧ (clocked s m = false ∨ slotParityOk (flipped.slotBits m act t) = true →
        exec (.slotParityError m t flip) s = .next (conflictRefresh m (bmRefresh m flipped)))
    ∧ (clocked s m = true → slotParityOk (flipped.slotBits m act t) = false → s.flag (F.SEQ_CTL_PARITY_ACT m) = false →
        Does (.slotParityError m t flip) s fun u => u.flag (F.MASSIF_STAT_STOPPED m) = true
          ∧ u.flag (F.MASSIF_STAT_SLOT_PARITY m) = true ∧ u.get (F.SEQ_STAT_HALT_CAUSE m) = 5
          ∧ u.get (F.ERR_ADDR_LO_VALUE (seqPage m))
            = (if again then min (m.val * 256 + t.val) (s.get (F.ERR_ADDR_LO_VALUE (seqPage m))) else m.val * 256 + t.val)
          ∧ u.fab.slots = flipped.fab.slots)
    ∧ (clocked s m = true → slotParityOk (flipped.slotBits m act t) = false → s.flag (F.SEQ_CTL_PARITY_ACT m) = true →
        Does (.slotParityError m t flip) s fun u => u.flag (F.MASSIF_STAT_SLOT_PARITY m) = true
          ∧ u.fab.slots = flipped.fab.slots ∧ u.fab.tiles = s.fab.tiles
          ∧ u.flag (F.MASSIF_STAT_STOPPED m) = s.flag (F.MASSIF_STAT_STOPPED m)
          ∧ u.massif m = { s.massif m with parityAt := some s.cycle }
          ∧ u.get (F.ERR_CNT_VALUE (seqPage m)) = if (s.massif m).parityAt = some s.cycle then s.get (F.ERR_CNT_VALUE (seqPage m))
            else min (s.get (F.ERR_CNT_VALUE (seqPage m)) + 1) (F.ERR_CNT_VALUE (seqPage m)).max)
    -- a wake: a slot reloaded is valid, or stays as it was where its entry faults, and the next one is read; with no slot
    -- left to reload, the beat that woke the massif is acted on
    ∧ (∀ o, s.fab.loaders.get m none = some o → o.wake = true → entryRead o = true → o.slot < 16 →
        let u := wakeSlotDone m s
        (u.massif m).wakeSlots = (s.massif m).wakeSlots.drop 1
        ∧ (∀ f, entryCheck (boundAsAtStart m o s) m (entryBytes o) = .inl f →
          u.get (F.SLOT_VALID_BITS m) = s.get (F.SLOT_VALID_BITS m))
        ∧ (∀ bytes, entryCheck (boundAsAtStart m o s) m (entryBytes o) = .inr bytes →
          (u.get (F.SLOT_VALID_BITS m)).testBit o.slot = true))
    ∧ (let x := s.massif m
      (s.massifUp m = true → x.clockHold = false → x.wakeSlots = [] →
        (∀ b, x.wakeBeat = some b → exec (.wakeReloadDone m) s = .next (beatsSettle m
          (beatAct m b ((s.setMassif m { x with wakeBeat := none }).put (F.SEQ_STAT_LATE_BEAT m) 1))))
        ∧ (x.wakeBeat = none → exec (.wakeReloadDone m) s = .next (beatsSettle m (s.setMassif m { x with wakeBeat := none }))))
      ∧ (s.massifUp m = false ∨ x.clockHold = true ∨ x.wakeSlots ≠ [] → exec (.wakeReloadDone m) s = .next s))

/-- The sequencer. The trigger that the current step waits on begins the switch to its slot, or goes straight to NEXT
when NOSW is 1; an invalid slot halts with cause 3, HALT with cause 2. RUN, its removal, FORCE, GO and the boundary
wait act as the rules say. Derived from parts of R112, R114, R115, R116, R117, R118, R119, R120, R121. A command
whose conditions fail changes nothing: DESIGN CHOICE, log entry 2. The model's own choices that it rests on: log
entries 3, 54, 56, 130, 131, 132, 145. -/
def Obligations.Sequencer : Prop :=
  ∀ (m : Fin 64) (slot : Fin 16) (clean : Bool) (v : Word) (s : State),
    let x := s.massif m
    let st := x.step
    let target := stepBits st 0 4
    let valid := fun (i : Nat) => (s.get (F.SLOT_VALID_BITS m)).testBit i
    let cl := stepBits st 4 1 == 1
    let bnd := cl && stepBits st 17 1 == 1
    let begun := (s.setMassif m { x with switch := some ⟨target, false, cl, bnd, cl && !bnd⟩ }).put (F.SEQ_STAT_SWITCHING m) 1
    let cell := ((cellOutputs s m (stepArg st 0 8))[stepArg st 8 2]?).getD {}
    let fired := fun (c : Instr) => c = .countTrigger m ∧ seqWaits s m 1 = true
      ∨ c = .queueTrigger m ∧ seqWaits s m 2 = true ∧ queueCond s m st = true
      ∨ c = .go m ∧ seqWaits s m 3 = true
      ∨ c = .flagTrigger m ∧ seqWaits s m 4 = true ∧ cell.p = false ∧ b2n cell.v = stepArg st 10 1
    let halted := fun (cause : Nat) (u : State) => u.flag (F.SEQ_STAT_RUNNING m) = false
      ∧ u.get (F.SEQ_STAT_HALT_CAUSE m) = cause ∧ u.flag (F.SEQ_STAT_PENDING m) = false
    let ctl := fun (w : Word) => s.loadAll w
      [F.SEQ_CTL_RUN m, F.SEQ_CTL_INIT_STEP m, F.SEQ_CTL_INIT_SLOT m, F.SEQ_CTL_PARITY_ACT m]
    let sw := fun (h : Bool) (w : Switch) => s.setMassif m { x with switch := some { w with held := h } }
    (∀ c, fired c → stepNosw st = false →
      (valid target = true → exec c s = .next begun) ∧ (valid target = false → Does c s (halted 3)))
    ∧ (∀ c, fired c → stepNosw st = true → x.heldBeat = none → x.overrun = false →
      (stepBits st 15 1 = 1 → Does c s fun u => halted 2 u ∧ u.get (F.SEQ_STAT_STEP m) = stepBits st 6 6)
      ∧ (stepBits st 15 1 = 0 → s.flag (F.SEQ_CTL_RUN m) = true → badStep (stepEntry s m (stepBits st 6 6)) = false →
        Does c s fun u => u.get (F.SEQ_STAT_STEP m) = stepBits st 6 6 
          ∧ u.massif m = { x with step := stepEntry s m (stepBits st 6 6), curAt := some (s.cycle + 1, true) }))
    ∧ (seqWaits s m 1 = false → exec (.countTrigger m) s = .next s)
    ∧ (seqWaits s m 2 = false ∨ queueCond s m st = false → exec (.queueTrigger m) s = .next s)
    ∧ (seqWaits s m 4 = false → exec (.flagTrigger m) s = .next s)
    ∧ (seqWaits s m 4 = true → cell.p = true → exec (.flagTrigger m) s = .next (controlPoison m (stepArg st 0 8) s))
    ∧ (seqWaits s m 3 = false → exec (.go m) s = .next (s.put (F.SEQ_STAT_GO_IGNORED m) 1))
    -- FORCE
    ∧ (s.flag (F.SEQ_STAT_RUNNING m) = false → x.switch = none → valid slot = true → exec (.force m slot clean) s
        = .next ((s.setMassif m { x with switch := some ⟨slot, true, clean, false, clean⟩ }).put (F.SEQ_STAT_SWITCHING m) 1))
    ∧ (s.flag (F.SEQ_STAT_RUNNING m) = true ∨ x.switch.isSome = true ∨ valid slot = false →
        exec (.force m slot clean) s = .next (s.put (F.SEQ_STAT_FORCE_REFUSED m) 1))
    -- RUN set and cleared
    ∧ (s.flag (F.SEQ_STAT_RUNNING m) = true → exec (.seqRun m v) s = .next (ctl (v ||| 1)))
    ∧ (s.flag (F.SEQ_STAT_RUNNING m) = false → s.flag (F.MASSIF_STAT_STOPPED m) = true →
        exec (.seqRun m v) s = .next ((ctl (v ||| 1)).put (F.SEQ_STAT_HALT_CAUSE m) 5))
    ∧ (s.flag (F.SEQ_STAT_RUNNING m) = false → s.flag (F.MASSIF_STAT_STOPPED m) = false →
        badStep (stepEntry s m (s.get (F.SEQ_STAT_STEP m))) = false → Does (.seqRun m v) s fun u =>
          u.flag (F.SEQ_STAT_RUNNING m) = true ∧ u.get (F.SEQ_STAT_HALT_CAUSE m) = 0
          ∧ u.massif m = { x with
              step := stepEntry s m (s.get (F.SEQ_STAT_STEP m)), heldBeat := none, overrun := false,
              curAt := some (s.cycle + 1, false) })
    ∧ (s.flag (F.SEQ_STAT_RUNNING m) = false → exec (.seqHalt m v) s = .next (ctl (v &&& ~~~1)))
    ∧ (s.flag (F.SEQ_STAT_RUNNING m) = true → x.switch = none → Does (.seqHalt m v) s (halted 1))
    ∧ (s.flag (F.SEQ_STAT_RUNNING m) = true → x.switch.isSome = true → Does (.seqHalt m v) s fun u =>
        u.flag (F.SEQ_STAT_RUNNING m) = true ∧ u.flag (F.SEQ_CTL_RUN m) = false
        ∧ u.massif m = { x with heldBeat := none, overrun := false })
    -- the boundary wait of a clean switch ends, at a boundary or at its limit
    ∧ (∀ w, x.switch = some w → w.clean = true → w.boundary = true → w.held = false → seqUp s m = true →
        (x.midPacket = [] → exec (.cleanSwitchHold m) s = .next (sw true w) ∧ exec (.boundaryTimeout m) s = .next s)
        ∧ (x.midPacket ≠ [] → exec (.cleanSwitchHold m) s = .next s
          ∧ exec (.boundaryTimeout m) s = .next ((sw true w).put (F.SEQ_STAT_BTIMEOUT m) 1)))

/-- The edge of a switch empties the ports, the pipelines and the segments of the massif, keeps registers and
accumulators, counts what it discards, and shows the new slot; the delivery of a beat puts its record into the stub
of its channel, and a step that it satisfies begins its switch. Derived from parts of R12, R40, R112, R113, R116,
R118, R119. A command whose conditions fail changes nothing: DESIGN CHOICE, log entry 2. The model's own choices
that it rests on: log entries 35, 42, 54, 55, 126, 145. -/
def Obligations.SwitchEdgeAndBeats : Prop :=
  ∀ (m : Fin 64) (last : List (Fin 256)) (b : BeatRec) (s : State),
    let x := s.massif m
    let st := x.step
    let switched := fun (v : Dword) => some (⟨stepBits v 0 4, false, stepBits v 4 1 == 1,
      stepBits v 4 1 == 1 && stepBits v 17 1 == 1, stepBits v 4 1 == 1 && !(stepBits v 4 1 == 1 && stepBits v 17 1 == 1)⟩ : Switch)
    let halted := fun (cause : Nat) (u : State) => u.flag (F.SEQ_STAT_RUNNING m) = false
      ∧ u.get (F.SEQ_STAT_HALT_CAUSE m) = cause
    let flush := fun (y : Tile) => { y with fa := none, fb := none, fc := none, pipe := [] }
    -- the edge
    (∀ w, x.switch = some w → seqUp s m = true → (w.clean = true → w.held = true) → w.slot < 16 →
      Does (.switchEdge m last) s fun u =>
        u.get (F.SEQ_STAT_ACTIVE_SLOT m) = w.slot ∧ u.flag (F.SEQ_STAT_SWITCHING m) = false
        ∧ u.get (F.SEQ_SWCNT_VALUE m) = (s.get (F.SEQ_SWCNT_VALUE m) + 1) % 2 ^ 32
        ∧ (u.massif m).switch = none ∧ (u.massif m).midPacket = []
        ∧ (∀ t : Fin 256, t ∉ last → u.tile m t = flush (s.tile m t))
        ∧ (∀ t : Fin 256, t ∈ last → opMemory (slotOp (s.active m t) t) = false →
            u.tile m t = flush ((completeAtEdge m t s).tile m t))
        ∧ (∀ t < 256, ∀ g < 28, u.stage m t g = {}) ∧ u.fab.slots = s.fab.slots ∧ u.fab.queues = s.fab.queues
        ∧ (∀ t < 256, ∀ m' < 64, m' ≠ m.val → u.tile m' t = s.tile m' t)
        ∧ (w.forced = true → (s.flag (F.SEQ_STAT_RUNNING m) = true → s.flag (F.SEQ_CTL_RUN m) = true) →
            u.massif m = { x with switch := none, midPacket := [] })
        ∧ (w.forced = true → s.flag (F.SEQ_STAT_RUNNING m) = true → s.flag (F.SEQ_CTL_RUN m) = false → halted 1 u)
        ∧ (w.forced = false → u.get (F.SEQ_STAT_STEP m) = stepBits st 6 6)
        ∧ (w.forced = false → stepBits st 15 1 = 1 → halted 2 u)
        ∧ (w.forced = false → stepBits st 15 1 = 0 → s.flag (F.SEQ_CTL_RUN m) = false → halted 1 u)
        ∧ (w.forced = false → stepBits st 15 1 = 0 → s.flag (F.SEQ_CTL_RUN m) = true →
            badStep (stepEntry s m (stepBits st 6 6)) = true → halted 6 u)
        ∧ (w.forced = false → stepBits st 15 1 = 0 → s.flag (F.SEQ_CTL_RUN m) = true → x.overrun = false →
            badStep (stepEntry s m (stepBits st 6 6)) = false → u.massif m = { x with
              switch := none, midPacket := [], step := stepEntry s m (stepBits st 6 6),
              curAt := some (s.cycle + b2n (stepNosw st), true) }))
    ∧ (x.switch = none ∨ seqUp s m = false → exec (.switchEdge m last) s = .next s)
    ∧ (∀ w, x.switch = some w → w.clean = true → w.held = false → exec (.switchEdge m last) s = .next s)
    -- the delivery of a beat
    ∧ (∀ t0 rest, s.pos.treeFly = (t0, b) :: rest → s.cycle < t0 + 6 → exec .beatDelivery s = .next s)
    ∧ (∀ t0 rest, s.pos.treeFly = (t0, b) :: rest → t0 + 6 ≤ s.cycle → Does .beatDelivery s fun u =>
        u.pos = { s.pos with treeFly := rest, stub := s.pos.stub.set b.ch (some b) none })
    -- what each massif does with it, while it neither ends Rest nor is a beat of the pair
    ∧ (∀ t0 rest, s.pos.treeFly = (t0, b) :: rest → t0 + 6 ≤ s.cycle → s.get F.REST_STAT_STATE ≠ 2 →
        pairState s = pOff → Does .beatDelivery s fun u =>
          let asleep := s.get (F.PWR_STAT_STATE m) = 3 ∧ s.flag (F.SEQ_STAT_RUNNING m) = true ∧ stepTrig st = 0
            ∧ b.ch = stepArg st 0 6
          let keeps := beatsKept s m = true ∨ x.beats ≠ []
          (keeps → ¬ asleep → u.massif m = { x with beats := x.beats ++ [b] })
          ∧ (¬ keeps → asleep → u.massif m = { x with wakeBeat := some b }
              ∧ u.get (F.PWR_STAT_STATE m) = 4 ∧ u.flag (F.PWR_CTL_GATE m) = false)
          ∧ (¬ keeps → ¬ asleep → seqWaits s m 0 = false → stepAwaited s m = none → u.massif m = x)
          ∧ (¬ keeps → seqWaits s m 0 = true → beatSatisfies st b = false → u.massif m = x)
          ∧ (¬ keeps → seqWaits s m 0 = true → beatSatisfies st b = true → stepNosw st = false →
              (s.get (F.SLOT_VALID_BITS m)).testBit (stepBits st 0 4) = true → u.massif m = { x with switch := switched st }
              ∧ u.flag (F.SEQ_STAT_SWITCHING m) = true ∧ u.get (F.SEQ_LASTBEAT_CH m) = b.ch % 64
              ∧ u.get (F.SEQ_LASTBEAT_SEQ m) = b.seq % 2 ^ 16)
          ∧ (∀ v, ¬ keeps → seqWaits s m 0 = false → stepAwaited s m = some v → beatSatisfies v b = true →
              x.overrun = false → (x.heldBeat = none → u.massif m = { x with heldBeat := some b }
                ∧ u.flag (F.SEQ_STAT_PENDING m) = true)
              ∧ (x.heldBeat.isSome = true → u.massif m = { x with overrun := true }
                ∧ u.get (F.SEQ_MISS_VALUE m) = min (s.get (F.SEQ_MISS_VALUE m) + 1) (2 ^ 32 - 1))))
    -- a beat that ends Rest
    ∧ (∀ t0 rest, s.pos.treeFly = (t0, b) :: rest → t0 + 6 ≤ s.cycle → s.get F.REST_STAT_STATE = 2 →
        s.flag F.REST_CFG_WAKEBEAT = true → s.get F.REST_CFG_WAKECH = b.ch → pairState s = pOff →
        Does .beatDelivery s fun u => u.get F.REST_STAT_STATE = 3)

/-- The write side of the queues. A word is stored at WP when its queue has room, held or dropped by FULL when it has
none; a drop begins or lengthens the cairn, which is written once two words are free; a stranded tail times out and,
under FORCE_END, its last word takes E = 1. Derived from parts of R128, R134, R136, R138, R139, R140, R141, R146,
R147, R149, R152. A command whose conditions fail changes nothing: DESIGN CHOICE, log entry 2. The model's own
choices that it rests on: log entries 33, 46, 115, 133, 146. -/
def Obligations.QueueWrites : Prop :=
  ∀ (m : Fin 64) (q : Fin 32) (l : Fin 256) (v : Word) (w : SWord) (s : State),
    let x := s.queue m q
    let free := freeWords s m q
    let dropping := s.flag (F.SQ_CTL_FULL m q) = true
    let idle := x.force = false ∧ x.cairn = none ∧ x.forcedCairn = false
    let stores := fun (c : Instr) (z : SWord) (f : State → State) => exec c s = .next (f (queueStore m q z s))
    let sb := s.get (F.SQ_PUTSB_EPM m q)
    let z : SWord := ⟨v, sb.testBit 0, sb.testBit 1, sb.testBit 2⟩
    let t := s.get (F.SQ_BIND_WTILE m q)
    let g := 4 * s.get (F.SQ_BIND_WDIR m q) + s.get (F.SQ_BIND_WTRK m q)
    let st := s.stage m t g
    let en := s.flag (F.SQ_CTL_EN m q) = true
    let y := s.lane l
    let awakeGroup := s.flag (F.GRP_CTL_LP (l / 8)) = false
    let laneIdle := awakeGroup ∧ y.force = false ∧ y.cairn = none ∧ y.forcedCairn = false
    -- what the storing of a word does
    ((queueStore m q w s).queue m q = { x with
        words := x.words ++ [{ w := w, stamp := if x.inPkt then x.stamp else stubStamp s m q }],
        stamp := if x.inPkt then x.stamp else stubStamp s m q, inPkt := !w.e }
      ∧ (queueStore m q w s).get (F.SQ_WP_VALUE m q) = (s.get (F.SQ_WP_VALUE m q) + 1) % 2 ^ 32
      ∧ (queueStore m q w s).get (F.SQ_RP_VALUE m q) = s.get (F.SQ_RP_VALUE m q)
      ∧ (queueStore m q w s).get (F.SQ_RL_VALUE m q) = s.get (F.SQ_RL_VALUE m q))
    -- SQ_PUT
    ∧ (s.get (F.SQ_CTL_WSRC m q) = 2 → en → idle → 2 ≤ free → stores (.put m q v) z id)
    ∧ (s.get (F.SQ_CTL_WSRC m q) = 2 → en → idle → free = 1 → ¬ dropping → stores (.put m q v) z id)
    ∧ (s.get (F.SQ_CTL_WSRC m q) = 2 → en → idle → free < 2 → dropping → exec (.put m q v) s = .next (queueDrop m q s))
    ∧ (s.get (F.SQ_CTL_WSRC m q) = 2 → en → x.force = false → x.forcedCairn = false → ∀ c, x.cairn = some c → 2 ≤ free →
        let s1 := queueStore m q (cairnWord c.count c.cause q) (s.setQueue m q { x with cairn := none })
        2 ≤ freeWords s1 m q → exec (.put m q v) s = .next (queueStore m q z s1))
    ∧ (s.get (F.SQ_CTL_WSRC m q) ≠ 2 ∨ ¬ en ∨ (x.force = false ∧ ¬ dropping ∧
          (free = 0 ∨ free = 1 ∧ (x.cairn.isSome = true ∨ x.forcedCairn = true))) →
        exec (.put m q v) s = .next (s.put (F.SQ_STAT_PUT_REFUSED m q) 1))
    -- a drop counts, raises DROPPED and begins the cairn of its gap with the cause
    ∧ (x.cairn = none → ((queueDrop m q s).queue m q).cairn = some ⟨1, if s.get (F.SQ_QUOTA_GRAN m q) ≤ granules s m q then 1 else 2⟩
        ∧ (queueDrop m q s).flag (F.SQ_STAT_DROPPED m q) = true ∧ ((queueDrop m q s).queue m q).words = x.words)
    ∧ (∀ c, x.cairn = some c → ((queueDrop m q s).queue m q).cairn = some { c with count := min (c.count + 1) 0xFFFF })
    -- the write tap
    ∧ (∀ a rest, st.words = a :: rest → clocked s m = true → s.flag (F.SQ_BIND_WEN m q) = true →
        (s.get (F.SQ_CTL_WSRC m q) = 0 ∨ s.get (F.SQ_CTL_WSRC m q) = 3) → Dest.queue q ∉ st.taken → en → idle →
        (2 ≤ free → stores (.queueWrite m q) a (tapTook m t g (.queue q)))
        ∧ (free < 2 → dropping → exec (.queueWrite m q) s = .next (tapTook m t g (.queue q) (queueDrop m q s)))
        ∧ (free = 1 → ¬ dropping → stores (.queueWrite m q) a (tapTook m t g (.queue q)))
        ∧ (free = 0 → ¬ dropping → exec (.queueWrite m q) s = .next s))
    ∧ (st.words = [] ∨ ¬ en → exec (.queueWrite m q) s = .next s)
    -- the cairn
    ∧ (∀ c, x.force = false → x.forcedCairn = false → x.cairn = some c → 2 ≤ free → exec (.cairnCommit (.massif m q)) s
        = .next (queueStore m q (cairnWord c.count c.cause q) (s.setQueue m q { x with cairn := none })))
    ∧ (free < 2 → exec (.cairnCommit (.massif m q)) s = .next s)
    -- a stranded tail
    ∧ (s.get (F.SQ_TAIL_CYCLES m q) ≠ 0 → unread s m q ≠ [] → exec (.tailTimeout (.massif m q)) s
        = .next ((queueErr (F.SQ_STAT_TAIL_TIMEOUT m q) m q s).when (s.flag (F.SQ_CTL_TAILACT m q))
          fun u => u.setQueue m q { x with force := true }))
    ∧ (s.get (F.SQ_TAIL_CYCLES m q) = 0 ∨ unread s m q = [] → exec (.tailTimeout (.massif m q)) s = .next s)
    ∧ (∀ a r, x.force = true → x.words = r ++ [a] → a.w.e = false → Does (.forceEnd (.massif m q)) s fun u =>
        u.queue m q = { x with
                               force := false, inPkt := false, words := r ++ [{ a with w := { a.w with e := true } }],
                               forcedCairn := x.forcedCairn || s.flag (F.SQ_CTL_FMARK m q) })
    ∧ (x.force = false → exec (.forceEnd (.massif m q)) s = .next s)
    -- the same for the lane receive queues; the engine of a group in low power writes nothing
    ∧ (¬ awakeGroup → exec (.laneQueueWrite l w) s = .next s)
    ∧ (laneIdle → y.words.length + 2 ≤ 4096 →
        exec (.laneQueueWrite l w) s = .next (laneRefresh l (s.setLane l { y with words := y.words ++ [w] })))
    ∧ (laneIdle → 4096 < y.words.length + 2 → Does (.laneQueueWrite l w) s fun u =>
        u.lane l = { y with cairn := some ⟨1, 1⟩ } ∧ u.flag (F.LRQ_STAT_DROPPED (l / 8) (l % 8)) = true)
    ∧ (∀ c, y.force = false → y.forcedCairn = false → y.cairn = some c → y.words.length + 2 ≤ 4096 →
        exec (.cairnCommit (.lane l)) s = .next (laneRefresh l (s.setLane l
          { y with cairn := none, words := y.words ++ [cairnWord c.count c.cause l] })))
    ∧ (s.get (F.LRQ_TAIL_CYCLES (l / 8) (l % 8)) ≠ 0 → y.words ≠ [] → exec (.tailTimeout (.lane l)) s
        = .next ((s.setIrq (F.LRQ_STAT_TAIL_TIMEOUT (l / 8) (l % 8)) (lrqPage (l / 8)) (l % 8)).when
          (s.flag (F.LRQ_TAIL_TAILACT (l / 8) (l % 8))) fun u => u.setLane l { y with force := true }))
    ∧ (∀ a r, y.force = true → y.words = r ++ [a] → a.e = false → exec (.forceEnd (.lane l)) s
        = .next (laneRefresh l (s.setLane l { y with
            force := false, words := r ++ [{ a with e := true }],
            forcedCairn := y.forcedCairn || s.flag (F.LRQ_TAIL_FMARK (l / 8) (l % 8)) })))

/-- The read side. A word taken moves RP and, in mode 0, RL; the word that an upset struck is read with P = 1 and
counted; the commands of COMMAND mode mark, rewind and release, and raise CMD_ERR in every other mode. Derived from
parts of R131, R134, R135, R137, R142, R143, R144, R148, R149, R150. A command whose conditions fail changes
nothing: DESIGN CHOICE, log entry 2. The model's own choices that it rests on: log entries 115, 146. -/
def Obligations.QueueReads : Prop :=
  ∀ (m : Fin 64) (q : Fin 32) (bad : Bool) (hits : List (Fin 128)) (s : State),
    let x := s.queue m q
    let rp := s.get (F.SQ_RP_VALUE m q)
    let rl := s.get (F.SQ_RL_VALUE m q)
    let en := s.flag (F.SQ_CTL_EN m q) = true
    let seg := readSeg s m q
    let st := s.stage m seg.1 seg.2
    let command := en ∧ s.get (F.SQ_CTL_RELMODE m q) = 1
    let valid := s.flag (F.SQ_STAT_MARK_VALID m q) = true
    let mk := sub32 (s.get (F.SQ_MK_VALUE m q)) rl
    let cmdErr := queueErr (F.SQ_STAT_CMD_ERR m q) m q s
    -- what a release does
    (∀ i, ((release m q i s).queue m q).words = x.words.drop i ∧ (release m q i s).get (F.SQ_RL_VALUE m q) = (rl + i) % 2 ^ 32
        ∧ (release m q i s).get (F.SQ_RP_VALUE m q) = rp
        ∧ (valid → mk < i → (release m q i s).flag (F.SQ_STAT_MARK_VALID m q) = false
          ∧ (release m q i s).flag (F.SQ_STAT_MARK_LOST m q) = true))
    -- an upset strikes a stored word
    ∧ (∀ (i : Nat) a, (unread s m q)[i]? = some a → (unread (queueStrike m q [i] s) m q)[i]? = some { a with bad := true })
    -- the read tap, and SQ_GET
    ∧ (let s0 := queueStrike m q (if bad then [0] else []) s
      ∀ a r, unread s0 m q = a :: r → en →
        let w := { a.w with p := a.w.p || a.bad }
        (runs s m = true → s.get (F.SQ_CTL_RSINK m q) = 0 → s.flag (F.SQ_BIND_REN m q) = true →
          readConflict s m q = false → inputHeld s m (512 + q) = false → segReady s m seg.1 seg.2 = true →
          exec (.queueRead m q bad) s = .next (noteInput m (512 + q) a.w.e (queueTake m q { a with w := w }
            (s0.setStage m seg.1 seg.2 { st with words := st.words ++ [w] }))))
        ∧ (s.get (F.SQ_CTL_RSINK m q) = 3 → Does (.get m q bad) s fun u =>
            u.get (F.SQ_GETSB_VEPM m q) = 1 + 2 * b2n w.e + 4 * b2n w.p + 8 * b2n w.m
            ∧ u.get (F.SQ_GET_D m q) = w.d.toNat
            ∧ (s.get (F.SQ_CTL_RELMODE m q) ≠ 2 → u.get (F.SQ_RP_VALUE m q) = (rp + 1) % 2 ^ 32)))
    ∧ (unread s m q = [] ∨ ¬ en ∨ segReady s m seg.1 seg.2 = false → exec (.queueRead m q false) s = .next s)
    ∧ (unread s m q = [] ∨ ¬ en ∨ s.get (F.SQ_CTL_RSINK m q) ≠ 3 → exec (.get m q false) s
        = .next ((s.put (F.SQ_GETSB_VEPM m q) 0).put (F.SQ_GET_D m q) 0))
    ∧ (∀ a, a.bad = false → s.get (F.SQ_CTL_RELMODE m q) = 1 →
        queueTake m q a s = queueRefresh m q ((s.setQueue m q
          { x with rhead := if a.w.e then [] else (x.rhead ++ [a.w]).take 2 }).put (F.SQ_RP_VALUE m q) (rp + 1)))
    ∧ (∀ a, s.get (F.SQ_CTL_RELMODE m q) = 0 → rl ≤ rp → rp + 1 < 2 ^ 32 → rp + 1 - rl ≤ x.words.length →
        ((queueTake m q a s).queue m q).words = x.words.drop (rp + 1 - rl)
        ∧ (queueTake m q a s).get (F.SQ_RL_VALUE m q) = rp + 1 ∧ (queueTake m q a s).get (F.SQ_RP_VALUE m q) = rp + 1)
    ∧ (∀ a, a.bad = true → (queueTake m q a s).flag (F.SQ_STAT_PARITY m q) = true
        ∧ (queueTake m q a s).get (F.SQ_PARCNT_VALUE m q) = min (s.get (F.SQ_PARCNT_VALUE m q) + 1) (F.SQ_PARCNT_VALUE m q).max)
    -- a packet for another queue
    ∧ (∀ ws, packetReady (unread s m q) 128 = some ws → sinksRun s m = true → en → s.get (F.SQ_CTL_RSINK m q) = 1 →
        let r := takeMany m q ws.length (queueStrike m q (hits.map (·.val)) s)
        exec (.streamSend m q hits) s = .next (niSend {
          dst := s.get (F.SQ_DEST_ROUTER m q), dport := 1, src := m, sport := 1,
          vn := 3, typ := 0, addr := s.get (F.SQ_DEST_QUEUE m q), size := r.1.length - 1, stream := r.1 } r.2))
    ∧ (packetReady (unread s m q) 128 = none → exec (.streamSend m q hits) s = .next s)
    -- the commands
    ∧ (command → exec (.mark m q) s = .next ((s.put (F.SQ_MK_VALUE m q) rp).put (F.SQ_STAT_MARK_VALID m q) 1)
        ∧ exec (.releaseRead m q) s = .next (release m q (readIndex s m q) s)
        ∧ (valid → exec (.rewind m q) s
            = .next (queueRefresh m q (packetHead m q (s.put (F.SQ_RP_VALUE m q) (s.get (F.SQ_MK_VALUE m q)))))
          ∧ exec (.releaseMark m q) s = .next (release m q mk s))
        ∧ (¬ valid → exec (.rewind m q) s = .next (queueErr (F.SQ_STAT_REWIND_ERR m q) m q s)
          ∧ exec (.releaseMark m q) s = .next cmdErr)
        ∧ (∀ i, (x.words.findIdx? fun w => w.w.e) = some i → i < readIndex s m q →
          exec (.releasePkt m q) s = .next (release m q (i + 1) s))
        ∧ ((x.words.findIdx? fun w => w.w.e) = none → exec (.releasePkt m q) s = .next cmdErr))
    ∧ (¬ command → ∀ c ∈ [Instr.mark m q, .rewind m q, .releaseRead m q, .releaseMark m q, .releasePkt m q],
        exec c s = .next cmdErr)

/-- The configuration of a queue is judged whole: a write that changes what an enabled queue fixes, names a tile without
taps or a segment already bound, or asks for more granules than there are, is refused and changes nothing else;
CLEAR empties a queue that is not enabled. Derived from parts of R128, R131, R132, R133, R134. A command whose
conditions fail changes nothing: DESIGN CHOICE, log entry 2. The model's own choices that it rests on: log entries
46, 47, 146. -/
def Obligations.QueueConfiguration : Prop :=
  ∀ (m : Fin 64) (q : Fin 32) (v : Word) (s : State),
    let en := s.flag (F.SQ_CTL_EN m q) = true
    let rd := fun (f : Fld) => f.of v.toNat
    let refused := s.put (F.SQ_STAT_CFG_REFUSED m q) 1
    let sum := (List.range 32).foldl (fun acc o => acc + (if o == q.val then rd (F.SQ_QUOTA_RSV m q) else s.get (F.SQ_QUOTA_RSV m o))) 0
    let badW := rd (F.SQ_BIND_WEN m q) = 1 ∧ tapColumn (rd (F.SQ_BIND_WTILE m q)) = false
    let badR := rd (F.SQ_BIND_REN m q) = 1 ∧ (tapColumn (rd (F.SQ_BIND_RTILE m q)) = false
      ∨ ∃ o < 32, o ≠ q.val ∧ s.flag (F.SQ_BIND_REN m o) = true
        ∧ readSeg s m o = (rd (F.SQ_BIND_RTILE m q), 4 * rd (F.SQ_BIND_RDIR m q) + rd (F.SQ_BIND_RTRK m q)))
    (en → keeps s v (sqLocked m q) = true → exec (.sqCtlWrite m q v) s = .next (s.loadAll v (sqCtlFields m q)))
    ∧ (en → keeps s v (sqLocked m q) = false → exec (.sqCtlWrite m q v) s = .next refused)
    ∧ (¬ en → rd (F.SQ_CTL_EN m q) = 0 → v.getLsbD 10 = false →
        exec (.sqCtlWrite m q v) s = .next (s.loadAll v (sqCtlFields m q)))
    ∧ (¬ en → rd (F.SQ_CTL_EN m q) = 1 → (rd (F.SQ_CTL_RSINK m q) = 1 ∨ rd (F.SQ_CTL_RSINK m q) = 2) →
        (rd (F.SQ_CTL_RELMODE m q) = 1 ∨ rd (F.SQ_CTL_RELMODE m q) = 2) → exec (.sqCtlWrite m q v) s = .next refused)
    ∧ (¬ en → rd (F.SQ_CTL_EN m q) = 0 → Does (.queueClear m q v) s fun u =>
        (u.queue m q).words = [] ∧ (u.queue m q).cairn = none ∧ u.get (F.SQ_WP_VALUE m q) = 0 ∧ u.get (F.SQ_RP_VALUE m q) = 0
        ∧ u.get (F.SQ_RL_VALUE m q) = 0 ∧ u.get (F.SQ_MK_VALUE m q) = 0 ∧ u.flag (F.SQ_STAT_MARK_VALID m q) = false
        ∧ u.flag (F.SQ_STAT_EMPTY m q) = true ∧ u.get (F.SQ_FILL_WORDS m q) = 0)
    ∧ (en → keeps s v (sqLocked m q) = true → Does (.queueClear m q v) s fun u => u.fab = s.fab)
    ∧ (en → keeps s v (sqBindFields m q) = false → exec (.sqBindWrite m q v) s = .next refused)
    ∧ (en → keeps s v (sqBindFields m q) = true → exec (.sqBindWrite m q v) s = .next s)
    ∧ (¬ en → badW ∨ badR → exec (.sqBindWrite m q v) s = .next refused)
    ∧ (¬ en → ¬ badW → ¬ badR → exec (.sqBindWrite m q v) s = .next (conflictRefresh m (s.loadAll v (sqBindFields m q))))
    ∧ (1024 < sum ∨ rd (F.SQ_QUOTA_GRAN m q) < rd (F.SQ_QUOTA_RSV m q) → exec (.sqQuotaWrite m q v) s = .next refused)
    ∧ (sum ≤ 1024 → rd (F.SQ_QUOTA_RSV m q) ≤ rd (F.SQ_QUOTA_GRAN m q) → exec (.sqQuotaWrite m q v) s = .next
        (queueRefresh m q ((s.loadAll v [F.SQ_QUOTA_GRAN m q, F.SQ_QUOTA_RSV m q]).put (F.POOL_STAT_RSVSUM m) sum)))

/-- Both SECDED codes. What is stored with its check bits reads clean, every single error of a data bit or of a check
bit is found and put right, a word written as poison reads with the poison syndrome, and an error of two data bits
never passes for a correct word or a single error. Derived from parts of R194, R195, R196. -/
def Obligations.SecdedCodes : Prop :=
  ∀ (code : Code) (d : Nat), (code = code39 ∧ d < 2 ^ 32 ∨ code = code72 ∧ d < 2 ^ 64) →
    let chk := checkBits code d
    classify code d chk = .clean
    ∧ classify code d (poisonBits code d) = .poison
    ∧ classify code d (chk ^^^ 2 ^ code.c) = .overall
    ∧ (∀ j < code.c, ∃ p, classify code d (chk ^^^ 2 ^ j) = .single p ∧ correctData code d p = d)
    ∧ (∀ i < code.n, ∃ p, classify code (d ^^^ 2 ^ i) chk = .single p ∧ correctData code (d ^^^ 2 ^ i) p = d)
    ∧ (∀ i j, i < j → j < code.n → classify code (d ^^^ 2 ^ i ^^^ 2 ^ j) chk ∈ [Check.bad, .poison])

/-- The words of a shelf. A read gives what was last written, with its poison, and a write leaves every other word; a
clear empties every word of its shelf and of no other; the scrubber walks, requests what is valid and no request
holds up, logs what its granted read finds, and writes back what it corrects, as poison what it cannot. Derived from
parts of R163, R173, R197, R198, R202, R203, R209. A command whose conditions fail changes nothing: DESIGN CHOICE,
log entry 2. The model's own choices that it rests on: log entries 34, 50. -/
def Obligations.ShelfWords : Prop :=
  ∀ (m : Fin 64) (w w' : Fin (2 ^ 18)) (d : Word) (p : Bool) (req : Nat) (s : State),
    let u := shelfWrite m w d p s
    let h := s.shelf m
    let waits := h.scrubReq.isSome = true ∨ h.scrubRead.isSome = true
    let alone := (∀ q < 4, portWants s m q = none) ∧ loader s m = none ∧ h.bulk = [] ∧ ∀ b < 16, callerWants s m b = false
    let walks := s.flag (F.SCRUB_CTL_EN m) = true ∧ (s.massif m).clockHold = false
      ∧ (s.get F.REST_STAT_STATE = 2 → s.flag F.REST_CFG_SCRUB = true)
    let next := fun (t : State) => if w.val = 2 ^ 18 - 1 then
        ((t.put (F.SCRUB_PTR_WORD m) 0).put (F.SCRUB_PASSCNT_VALUE m) (t.get (F.SCRUB_PASSCNT_VALUE m) + 1)).irq (shelfIntPage m) 2
      else t.put (F.SCRUB_PTR_WORD m) (w + 1)
    (shelfRead m w req u).1 = d ∧ (shelfRead m w req u).2.1 = p
    ∧ (w' ≠ w → u.shelfCell m w' = s.shelfCell m w')
    ∧ (storedValid (s.shelfCell m w) = false → (shelfRead m w req s).1 = 0 ∧ (shelfRead m w req s).2.1 = false)
    -- the clear
    ∧ exec (.shelfClear m) s = .next ((s.setShelf m { h with clearK := 0 }).put (F.SH_STAT_CLEARING m) 1)
    ∧ (s.flag (F.SH_STAT_CLEARING m) = true → h.clearK = 0 → Does (.shelfClearDone m) s fun t =>
        t.shelfCell m w = 0 ∧ (∀ m' < 64, m' ≠ m.val → t.shelfCell m' w = s.shelfCell m' w)
        ∧ t.flag (F.SH_STAT_CLEARING m) = false ∧ (t.get (F.IRQ_STAT_BITS (shelfPage m))).testBit 1 = true)
    ∧ (s.flag (F.SH_STAT_CLEARING m) = false → exec (.shelfClearDone m) s = .next s)
    -- the scrubber
    ∧ (¬ walks → exec (.scrubDue m) s = .next s)
    ∧ (walks → h.repair = [] ∨ waits → s.get (F.SCRUB_PTR_WORD m) = w → storedValid (s.shelfCell m w) = false →
        exec (.scrubDue m) s = .next (next s))
    ∧ (walks → h.repair = [] → ¬ waits → s.get (F.SCRUB_PTR_WORD m) = w → storedValid (s.shelfCell m w) = true →
        exec (.scrubDue m) s = .next (next (s.setShelf m { h with scrubReq := some w.val })))
    ∧ (walks → waits → s.get (F.SCRUB_PTR_WORD m) = w → storedValid (s.shelfCell m w) = true →
        exec (.scrubDue m) s = .next (s.count (F.SCRUB_OVERDUE_VALUE m) 1))
    ∧ (∀ a rest, walks → h.repair = a :: rest → ¬ waits → s.get (F.SCRUB_PTR_WORD m) = w →
        storedValid (s.shelfCell m w) = true → exec (.scrubDue m) s
          = .next ((s.setShelf m { h with repair := rest, scrubReq := some a }).count (F.SCRUB_OVERDUE_VALUE m) 1))
    -- its granted read, and its write-back
    ∧ (walks → alone → h.scrubReq = some w.val → storedValid (s.shelfCell m w) = true →
        let data := storedData (s.shelfCell m w)
        let found := classify code39 data (storedCheck (s.shelfCell m w))
        Does (.shelfGrant m (Fin.ofNat 16 w)) s fun t => (t.shelf m).scrubReq = none ∧ t.mem.shelf = s.mem.shelf
          ∧ (found = .clean → (t.shelf m).scrubRead = h.scrubRead)
          ∧ (∀ pos, found = .single pos → t.flag (F.ERR_STAT_CORR (shelfIntPage m)) = true
            ∧ (t.shelf m).scrubRead = some ⟨w, shelfStored (BitVec.ofNat 32 (correctData code39 data pos)) false⟩)
          ∧ (found = .bad → t.flag (F.ERR_STAT_UNCORR (shelfIntPage m)) = true
            ∧ (t.shelf m).scrubRead = some ⟨w, shelfStored (BitVec.ofNat 32 data) true⟩)
          ∧ (found = .poison → (t.shelf m).scrubRead = h.scrubRead))
    ∧ (∀ r, walks → h.scrubRead = some r → r.word = w →
        (alone → Does (.scrubWriteback m) s fun t => (t.shelf m).scrubRead = none
          ∧ t.shelfCell m w = (if storedValid (s.shelfCell m w) then r.stored else s.shelfCell m w)
          ∧ (w' ≠ w → t.shelfCell m w' = s.shelfCell m w'))
        ∧ (∀ i z, portWants s m 0 = some (i, z) → z.word % 16 = w.val % 16 →
          exec (.scrubWriteback m) s = .next (s.count (F.SH_WAIT_SCRUB_VALUE m) 1)))
    ∧ (h.scrubRead = none ∨ ¬ walks → exec (.scrubWriteback m) s = .next s)
    ∧ (∀ a rest, walks → h.repair = a :: rest → ¬ waits →
        exec (.repairRequest m) s = .next (s.setShelf m { h with repair := rest, scrubReq := some a }))
    ∧ (¬ walks ∨ h.repair = [] ∨ waits → exec (.repairRequest m) s = .next s)
    ∧ (∀ e rest, h.celog = e :: rest →
        exec (.celogRead m) s = .next (s.setShelf m { h with celog := rest, ceLost := false }))
    ∧ (h.celog = [] → exec (.celogRead m) s = .next s)

/-- The ports of a shelf and the grant of a bank: the lowest port that wants the bank comes first, then the figure
loader, which takes all banks at once, then the Caller that lost the bank before, then the Ridge accesses, then the
scrubber. Derived from parts of R107, R165, R166, R168, R170, R171, R172. A command whose conditions fail changes
nothing: DESIGN CHOICE, log entry 2. The model's own choices that it rests on: log entries 34, 45, 147. -/
def Obligations.ShelfPorts : Prop :=
  ∀ (m : Fin 64) (bank : Fin 16) (p : Fin 4) (reg : Fin 5) (v : Word) (s : State),
    let on := clocked s m = true ∧ s.flag (F.SHP_CTL_EN m p) = true
    let l := portReqs s m p
    let sg := respSeg s m p
    let st := s.stage m sg.1 sg.2
    let wants := fun (q : Nat) (i : Nat) (r : ShelfPortReq) => portWants s m q = some (i, r) ∧ r.word % 16 = bank
    let settled := fun (u : State) => wakeSlotDone m (loadCheck m u)
    let free := ∀ q < 4, ∀ j z, ¬ wants q j z
    let refused := s.setIrq (F.SH_STAT_CFG_REFUSED m) (shelfPage m) 0
    let taken := ∃ o < 4, o ≠ p.val ∧ s.flag (F.SHP_BIND_REN m o) = true
      ∧ respSeg s m o = (v.toNat % 256, 4 * bitsOf v.toNat 8 2 + bitsOf v.toNat 10 2)
    let locked := if reg.val = 0 then [F.SHP_CTL_MODE m p] else shpFields m p reg
    -- requests
    (∀ w, on → reqHead s m p = some w → w.m = false → w.p = false → portWrites s m p = false → l.length < 8 →
      exec (.shelfPortRequest m p) s = .next (setPortReqs m p (l ++ [⟨portIndex s m p w, w.e, none, none⟩]) (takeReq m p s)))
    ∧ (∀ w, on → reqHead s m p = some w → w.m = true → portWrites s m p = false → l.length < 8 →
        exec (.shelfPortRequest m p) s = .next (setPortReqs m p (l ++ [⟨0, w.e, some w, none⟩]) (takeReq m p s)))
    ∧ (∀ w, on → reqHead s m p = some w → w.m = true → portWrites s m p = true → l.length < 8 →
        exec (.shelfPortRequest m p) s = .next ((takeReq m p s).put (F.SH_STAT_MARKER m) 1))
    ∧ (on → 8 ≤ l.length → exec (.shelfPortRequest m p) s = .next s)
    ∧ (∀ w, on → reqHead s m p = some w → w.m = false → w.p = true → portWrites s m p = false → l.length < 8 →
        exec (.shelfPortRequest m p) s = .next (controlPoison m (reqSeg s m p).1 s))
    ∧ (reqHead s m p = none ∨ ¬ on → exec (.shelfPortRequest m p) s = .next s)
    ∧ (∀ a d, on → portWrites s m p = true → reqHead s m p = some a → dataHead s m p = some d → d.m = false → a.m = false →
        l.length < 8 → a.p = false → exec (.shelfPortWrite m p) s
          = .next (setPortReqs m p (l ++ [⟨portIndex s m p a, a.e, none, some (d.d, d.p)⟩]) (takeData m p (takeReq m p s))))
    ∧ (dataHead s m p = none ∨ ¬ on → exec (.shelfPortWrite m p) s = .next s)
    -- the response
    ∧ (∀ i e w z rest, l = ⟨i, e, some w, z⟩ :: rest → runs s m = true → s.flag (F.SHP_BIND_REN m p) = true →
        segSource (s.active m sg.1) sg.2 = none → inputHeld s m (544 + p) = false → segReady s m sg.1 sg.2 = true → w.m = false →
        Does (.shelfPortResponse m p) s fun u => portReqs u m p = rest
          ∧ u.stage m sg.1 sg.2 = { st with words := st.words ++ [w] }
          ∧ u.get (F.SHP_CNT_VALUE m p) = (s.get (F.SHP_CNT_VALUE m p) + 1) % 2 ^ 32)
    ∧ (l = [] ∨ runs s m = false → exec (.shelfPortResponse m p) s = .next s)
    -- the grant of a bank
    ∧ (∀ i r, wants 0 i r →
        exec (.shelfGrant m bank) s = .next (settled (portGrant m 0 i r (countWaits m bank true (loaderWait m s)))))
    ∧ (∀ i r, (∀ j z, ¬ wants 0 j z) → wants 1 i r →
        exec (.shelfGrant m bank) s = .next (settled (portGrant m 1 i r (countWaits m bank true (loaderWait m s)))))
    ∧ (∀ o, (∀ q < 4, portWants s m q = none) → loader s m = some o → o.verify = false → o.hbm = false → o.next < 161 →
        let z := shelfReadBytes m 3 (o.addr + 64 * o.next) 64 (countWaits m bank true s)
        exec (.shelfGrant m bank) s
          = .next (settled (setLoader m (some { o with next := o.next + 1, got := o.got.set o.next z.1 [] }) z.2)))
    ∧ (free → loaderWants s m = none → callerWants s m bank = true →
        exec (.shelfGrant m bank) s = .next (settled (countWaits m bank true s)))
    ∧ (∀ i, free → loaderWants s m = none → callerWants s m bank = false → bulkWants s m bank = some i →
        exec (.shelfGrant m bank) s = .next (settled (bulkGrant m i (countWaits m bank false s))))
    ∧ (∀ a, free → loaderWants s m = none → callerWants s m bank = false → bulkWants s m bank = none → scrubRuns s m = true →
        (s.shelf m).scrubReq = some a → a % 16 = bank → exec (.shelfGrant m bank) s = .next (settled (scrubGrant m s)))
    ∧ (loader s m = none → settled s = s) ∧ (loaderWants s m = none → loaderWait m s = s)
    ∧ (∀ o, loader s m = some o → loaderWants s m = some (o, o.next) → (s.shelf m).ldWait ≠ some s.cycle →
        (loaderWait m s).get (F.SH_WAIT_LD_VALUE m) = min (s.get (F.SH_WAIT_LD_VALUE m) + 1) (F.SH_WAIT_LD_VALUE m).max)
    -- the configuration of a port
    ∧ (s.flag (F.SHP_CTL_EN m p) = true → keeps s v locked = true →
        exec (.shelfPortConfigWrite m p reg v) s = .next (s.loadAll v (shpFields m p reg)))
    ∧ (s.flag (F.SHP_CTL_EN m p) = true → keeps s v locked = false → exec (.shelfPortConfigWrite m p reg v) s = .next refused)
    ∧ (s.flag (F.SHP_CTL_EN m p) = false → 1 ≤ reg.val → reg.val ≤ 3 → v.getLsbD 12 = true → v.toNat % 16 ≠ 7 → v.toNat % 16 ≠ 8 →
        exec (.shelfPortConfigWrite m p reg v) s = .next refused)
    ∧ (s.flag (F.SHP_CTL_EN m p) = false → reg.val = 3 → taken → exec (.shelfPortConfigWrite m p reg v) s = .next refused)
    ∧ (s.flag (F.SHP_CTL_EN m p) = false → (reg.val = 0 ∨ reg.val = 4 ∨ v.getLsbD 12 = false ∨ v.toNat % 16 ∈ [7, 8]) →
        (reg.val = 3 → ¬ taken) → exec (.shelfPortConfigWrite m p reg v) s = .next (conflictRefresh m (s.loadAll v (shpFields m p reg))))

/-- The block memories. An entry reads as it was last written, in every aspect, with its poison, and no other entry
changes; an access through BM_ACC takes a free port or is refused; writes of one entry through both ports in one
cycle collide, and port A's is stored. Derived from parts of R66, R175, R177, R178, R179, R180, R198. A command
whose conditions fail changes nothing: DESIGN CHOICE, log entry 2. The model's own choices that it rests on: log
entries 37, 38, 51, 126, 147. -/
def Obligations.BlockMemories : Prop :=
  ∀ (m : Fin 64) (k : Fin 24) (v : Word) (a b d : Nat) (e p mk : Bool) (s : State),
    let asp := s.get (F.BM_CFG_ASPECT m k)
    let u := bmWrite m k a d e p mk s
    let rd := fun (x i : Nat) (t : State) => bmCheck m x i (bmBits t m x i) t
    let r := rd k a u
    let mem := s.get (F.BM_ACC_ADDR_MEM m)
    let port := bmAccPort s m mem (v.getLsbD 1)
    let busy := s.flag (F.BM_ACC_CTL_BUSY m)
    let refused := s.setIrq (F.BM_STAT_ACC_REFUSED m) (bmPage m) 2
    let pt := s.get (F.BM_ACC_CTL_PORT m)
    let idle := { s with mem := { s.mem with bmAcc := s.mem.bmAcc.set m none none } }.put (F.BM_ACC_CTL_BUSY m) 0
    r.1.d = d % 2 ^ aspectData asp ∧ r.1.p = p ∧ (asp = 0 → r.1.e = e ∧ r.1.m = mk) ∧ (p = false → r.2 = u)
    ∧ (a % aspectDepth asp ≠ b % aspectDepth asp → (rd k b u).1 = (rd k b s).1)
    ∧ ((s.get (F.BM_USE_BITS m)).testBit k = true →
        exec (.bmCfgWrite m k v) s = .next (s.setIrq (F.BM_STAT_CFG_REFUSED m) (bmPage m) 2))
    ∧ ((s.get (F.BM_USE_BITS m)).testBit k = false → exec (.bmCfgWrite m k v) s = .next (s.load (F.BM_CFG_ASPECT m k) v))
    ∧ (v.getLsbD 0 = false → exec (.bmAccess m v) s = .next (s.load (F.BM_ACC_CTL_WRITE m) v))
    ∧ (v.getLsbD 0 = true → busy = true ∨ 24 ≤ mem ∨ port = none → exec (.bmAccess m v) s = .next refused)
    ∧ (∀ q < 2, v.getLsbD 0 = true → busy = false → mem < 24 → port = some q → Does (.bmAccess m v) s fun t =>
        t.flag (F.BM_ACC_CTL_BUSY m) = true ∧ t.get (F.BM_ACC_CTL_PORT m) = q
        ∧ t.mem.bmAcc.get m none = some ⟨mem, s.get (F.BM_ACC_ADDR_ADDR m), v.getLsbD 1,
          s.get (F.BM_ACC_DLO_VALUE m) + 2 ^ 32 * s.get (F.BM_ACC_DHI_VALUE m), s.get (F.BM_ACC_SB_EPM m)⟩)
    ∧ (∀ x, s.mem.bmAcc.get m none = some x → x.write = true → exec (.bmAccessDone m) s = .next
        (bmPortWrite m x.mem pt x.addr false x.data (x.sb.testBit 0) (x.sb.testBit 1) (x.sb.testBit 2) idle))
    ∧ (∀ x, s.mem.bmAcc.get m none = some x → x.write = false → Does (.bmAccessDone m) s fun t =>
        let y := (bmPortRead m x.mem pt x.addr idle).1
        t.get (F.BM_ACC_DLO_VALUE m) = y.d % 2 ^ 32 ∧ t.get (F.BM_ACC_SB_EPM m) = b2n y.e + 2 * b2n y.p + 4 * b2n y.m
        ∧ t.flag (F.BM_ACC_CTL_BUSY m) = false ∧ t.mem.bm = s.mem.bm)
    -- what a port does, alone and when the other port has written the entry in the same cycle
    ∧ (∀ q < 2, bmMet s m k q a 0 = [] → bmPortRead m k q a s = rd k a s
        ∧ (bmPortWrite m k q a false d e p mk s).mem.bm = (bmWrite m k a d e p mk s).mem.bm
        ∧ (bmPortWrite m k q a false d e p mk s).regs = s.regs)
    ∧ (∀ q < 2, ∀ w, bmMet s m k q a 0 = [w] → w.cycle = s.cycle → w.binc = false →
        let z := bmPortWrite m k q a false d e p mk s
        z.flag (F.BM_STAT_COLLIDE m) = true
        ∧ z.get (F.BM_COLLCNT_VALUE m) = min (s.get (F.BM_COLLCNT_VALUE m) + 1) (F.BM_COLLCNT_VALUE m).max
        ∧ z.mem.bm = (if q = 0 then bmWrite m k a d e p mk s else s).mem.bm)
    ∧ (s.mem.bmAcc.get m none = none → exec (.bmAccessDone m) s = .next s)

/-- The HBM channels. A group reads as it was last stored, with its poison; a channel admits the oldest request of the
class whose turn it is, completes reads with the bytes and writes with an acknowledgement, re-reads what was
uncorrectable, scrubs, initialises and leaves self-refresh. Derived from parts of R183, R185, R186, R187, R189,
R192, R198, R199, R204, R405, R500. A command whose conditions fail changes nothing: DESIGN CHOICE, log entry 2. The
model's own choices that it rests on: log entries 9, 52, 116, 160, 162. -/
def Obligations.HbmChannels : Prop :=
  ∀ (c : Fin 32) (i : Fin 64) (od : List (Fin 3)) (stack : Fin 2) (v : Word) (g d : Nat) (p : Bool) (s : State),
    let h := s.chan c
    let serves := s.flag F.HBM_CTL_EN = true ∧ hbmReady s c = true ∧ s.flag (F.HBM_CH_STAT_SELFREF c) = false
      ∧ s.flag (F.HSCRUB_CTL_INIT c) = false ∧ h.admitted.length < 64
    let scrubs := s.flag (F.HSCRUB_CTL_EN c) = true ∧ hbmReady s c = true ∧ s.flag (F.HBM_CH_STAT_SELFREF c) = false
      ∧ s.flag (F.HSCRUB_CTL_INIT c) = false
    let gone := onDieReports c (od.map (·.val)) (s.setChan c { h with admitted := h.admitted.eraseIdx i })
    let woken := (List.range 32).any fun k => k / 16 == stack.val && s.flag (F.HBM_CH_STAT_SELFREF k) && (s.chan k).waking
    let ready := if stack.val = 0 then F.HBM_STAT_READY0 else F.HBM_STAT_READY1
    (hbmGroupRead c g (s.setHbmCell c g (hbmStored d p))).1 = d % 2 ^ 64
    ∧ (hbmGroupRead c g (s.setHbmCell c g (hbmStored d p))).2.1 = p
    ∧ (s.flag F.HBM_CTL_EN = true → exec (.hbmMapWrite v) s = .next (s.setIrq F.HBM_STAT_CFG_REFUSED hbmGlobalPage 0))
    ∧ (s.flag F.HBM_CTL_EN = false → exec (.hbmMapWrite v) s = .next (s.load F.HBM_MAP_MODE v))
    ∧ (∀ k left q rest, serves → hbmTurn s c = some (k, left) → h.waiting.get k [] = q :: rest →
        exec (.hbmAdmit c) s = .next (hbmScrubAdmit c (hbmRefresh c (s.setChan c { h with
          waiting := h.waiting.set k rest [], admitted := h.admitted ++ [(k, q)], turn := k, left := left }))))
    ∧ (¬ serves ∨ hbmTurn s c = none → exec (.hbmAdmit c) s = .next s)
    ∧ (∀ k q, h.admitted[i.val]? = some (k, q) → mayComplete h s i q = true → q.vn = 1 → q.typ = 0 →
        let r := hbmReadBytes (q.addr % 2 ^ 35) (q.size + 1) gone
        exec (.hbmComplete c i od) s = .next (hbmScrubAdmit c (hbmRefresh c (niSend { response q 0 0 with
            size := q.size, addr := q.addr, data := r.1.map fun b => (b.1, true), pmask := maskOf r.1 } r.2))))
    ∧ (∀ k q, h.admitted[i.val]? = some (k, q) → mayComplete h s i q = true → q.vn = 1 → q.typ = 1 →
        exec (.hbmComplete c i od) s = .next (hbmScrubAdmit c (hbmRefresh c (niSend (response q 1 0)
          (hbmWriteBytes (q.addr % 2 ^ 35) (packetBytes q) gone)))))
    ∧ (∀ k q, h.admitted[i.val]? = some (k, q) → mayComplete h s i q = true → q.vn = 3 →
        exec (.hbmComplete c i od) s = .next (hbmScrubAdmit c (hbmRefresh c
          (hbmWriteBytes (q.addr % 2 ^ 35) (packetBytes q) gone))))
    ∧ (h.admitted.length ≤ i.val → exec (.hbmComplete c i od) s = .next s)
    ∧ (∀ k q, h.admitted[i.val]? = some (k, q) → mayComplete h s i q = false → exec (.hbmComplete c i od) s = .next s)
    -- R186, R199: what holds an access back
    ∧ (∀ q j x, j < i.val → h.admitted[j]? = some x → x.2.src = q.src → x.2.sport = q.sport → overlaps x.2 q = true →
        (x.2.vn = q.vn ∨ memReads q = true ∧ memReads x.2 = false) → mayComplete h s i q = false)
    ∧ (∀ q (b : Nat), b ∈ blockList (q.addr % 2 ^ 35) (q.size + 1) → blockLocked h ((hbmMap s (64 * b)).2 / 64) = true →
        mayComplete h s i q = false)
    -- R185, R192: a block read counts one read and gives its eight groups
    ∧ (∀ b, (hbmBlockRead b s).1.length = 8 ∧ ((hbmMap s (64 * b)).1 = c → (hbmBlockRead b s).2.get (F.HBM_RDCNT_VALUE c)
        = (s.get (F.HBM_RDCNT_VALUE c) + 1) % 2 ^ 32))
    ∧ (∀ a rest, h.locked = a :: rest → exec (.hbmLockedReread ⟨c, od⟩) s = .next (
        let t := onDieReports c (od.map (·.val)) (s.setChan c { h with locked := rest })
        hbmScrubAdmit c (if classify code72 (groupData (s.hbmCell c a)) (groupCheck (s.hbmCell c a)) = .bad then
          t.setHbmCell c a (hbmStored (groupData (s.hbmCell c a)) true) else t)))
    ∧ (h.locked = [] → exec (.hbmLockedReread ⟨c, od⟩) s = .next s)
    ∧ (s.power.warmPhase = 0 → s.flag (F.HBM_CH_STAT_SELFREF c) = true → h.waiting.any (fun e => !e.2.isEmpty) = true →
        exec (.hbmSelfrefWake c) s = .next (s.setChan c { h with waking := true }))
    ∧ (woken = true → exec (.selfRefreshExit stack) s = .next (hbmSelfRefLeave stack s))
    ∧ (woken = false → exec (.selfRefreshExit stack) s = .next s)
    ∧ ((hbmSelfRefLeave (c / 16) s).flag (F.HBM_CH_STAT_SELFREF c) = false)
    ∧ (hbmReady s c = true → exec (.hbmInit c) s = .next (s.put (F.HSCRUB_CTL_INIT c) 1))
    ∧ (hbmReady s c = false → exec (.hbmInit c) s = .next s)
    ∧ (s.flag (F.HSCRUB_CTL_INIT c) = true → s.fresh (F.HSCRUB_CTL_INIT c) = 0 → s.flag (F.HBM_CH_STAT_SELFREF c) = false →
        Does (.hbmInitDone c) s fun t => t.flag (F.HSCRUB_CTL_INIT c) = false
        ∧ (g < 2 ^ 27 → t.hbmCell c g = 0 ∧ ∀ c' < 32, c' ≠ c.val → t.hbmCell c' g = s.hbmCell c' g))
    ∧ (scrubs → h.scrubWait = none → exec (.hbmScrubDue c) s
        = .next (hbmScrubAdmit c (s.setChan c { h with scrubWait := some (s.get (F.HSCRUB_PTR_BLOCK c)) })))
    ∧ (scrubs → h.scrubWait ≠ none → exec (.hbmScrubDue c) s = .next (hbmScrubAdmit c (s.count (F.HSCRUB_OVERDUE_VALUE c) 1)))
    ∧ (s.flag F.CMD_STAT_READY = true → s.power.hbmRailLost = false → s.power.trained.contains stack.val = false →
        exec (.hbmTrainingDone stack) s
          = .next ({ s with power := { s.power with trained := stack.val :: s.power.trained } }.put ready 1))

/-- The Ridge network. A packet is injected flit by flit, its head when the regulator gives a token, each flit when the
router has room for it and its network has its turn at the NI; a flit goes on when its output is free, the far end
has a credit and it has its turn at the output, and the tail of a packet hands it to the NI of its destination; an
error in the header discards the packet, one in data travels on with its P bits set; tables and orders become active
together once the networks named have drained. Derived from parts of R218, R222, R223, R225, R226, R227, R228, R229,
R233, R234. A command whose conditions fail changes nothing: DESIGN CHOICE, log entry 2. The model's own choices
that it rests on: log entries 116, 119, 148. -/
def Obligations.RidgeNetwork : Prop :=
  ∀ (n : Fin 96) (inp : Fin 7) (v : Fin 5) (err : BitVec 512) (chk : BitVec 36) (w : Word) (p : Packet) (s : State),
    let tok := s.get (F.RG_STAT_TOKENS n v)
    let burst := s.get (F.RG_CFG_BURST n v)
    let period := s.get (F.RG_CFG_PERIOD n v)
    let mask := w.toNat % 16
    let ptr := s.ridge.rrNi.get n 0
    let turn := v.val = 0 ∨ niReady s n 0 = false ∧ ∃ d < 4, (ptr + d) % 4 + 1 = v.val
      ∧ ∀ i < d, niReady s n ((ptr + i) % 4 + 1) = false
    let cleared := { s.loadAll w [F.RG_CFG_PERIOD n v, F.RG_CFG_BURST n v] with
      ridge := { s.ridge with counters := s.ridge.counters.set (n * 8 + v) 0 0 } }
    let entered := fun (id i : Nat) (u : State) =>
      let t1 := u.setRbuf n 0 v (u.rbuf n 0 v ++ [{ id := id, pkt := p, idx := i }])
      let t2 := if i + 1 = packetFlits p then t1.setNiQueue n v ((t1.niQueue n v).drop 1) else t1
      { t2 with ridge := { t2.ridge with
          sending := t2.ridge.sending.set (n * 8 + v) (if i + 1 = packetFlits p then none else some (id, i + 1)) none
          rrNi := t2.ridge.rrNi.set n (if v.val = 0 then ptr else v % 4) 0 } }
    -- injection
    (∀ rest, s.niQueue n v = p :: rest → (s.rbuf n 0 v).length < bufDepth v → turn →
      (s.sendingOf n v = none → vnStopped s v = false → warmHolds s p = false → burst ≠ 0 → (period = 0 ∨ tok ≠ 0) →
        exec (.inject n v) s = .next (
          let s1 := if period = 0 then s else regulatorStatus n v (s.put (F.RG_STAT_TOKENS n v) (tok - 1))
          entered s.ridge.nextId 0 { s1 with ridge := { s1.ridge with nextId := s.ridge.nextId + 1 } }))
      ∧ (∀ id i, s.sendingOf n v = some (id, i) → exec (.inject n v) s = .next (entered id i s)))
    ∧ (¬ turn → exec (.inject n v) s = .next s)
    ∧ (s.niQueue n v = [] ∨ bufDepth v ≤ (s.rbuf n 0 v).length ∨ (s.sendingOf n v = none
        ∧ (vnStopped s v = true ∨ takeToken n v s = none)) → exec (.inject n v) s = .next s)
    ∧ (burst = 0 → takeToken n v s = none) ∧ (burst ≠ 0 → period = 0 → takeToken n v s = some s)
    ∧ (burst ≠ 0 → period ≠ 0 → tok = 0 → takeToken n v s = none)
    ∧ (burst ≠ 0 → period ≠ 0 → 0 < tok → takeToken n v s = some (regulatorStatus n v (s.put (F.RG_STAT_TOKENS n v) (tok - 1))))
    ∧ (period ≠ 0 → tok < burst →
        exec (.tokenAdd n v) s = .next (regulatorStatus n v (s.put (F.RG_STAT_TOKENS n v) (tok + 1))))
    ∧ (period = 0 ∨ burst ≤ tok → exec (.tokenAdd n v) s = .next s)
    ∧ exec (.rgCfgWrite n v w) s = .next (regulatorStatus n v cleared)
    -- forwarding
    ∧ (∀ f rest, s.rbuf n inp v = f :: rest →
        let out := routePort s n v f.pkt.dst
        let tail := f.idx + 1 = packetFlits f.pkt
        let moved := s.setRbuf n inp v rest
        let held := if v.val = 0 then moved else moved.setLock n out v (if tail then none else some (inp.val, f.id))
        let s3 := linkSent n out v inp (decide tail) held
        let x := { f with err := f.err ^^^ err, chk := f.chk ^^^ chk }
        let upset := fun (q : Nat) => (quarterCheck x q = .bad ∨ quarterCheck x q = .poison)
          ∧ ∀ i < 4, i ≠ q → quarterCheck x i = .clean
        ((∀ v' < 5, ∀ i < 7, (v', i) ≠ (v.val, inp.val) → flitReady s n out v' i = false) → flitReady s n out v inp = true →
          linkChoice s n out = some (v.val, inp.val))
        ∧ (linkChoice s n out = some (v.val, inp.val) → x.err = 0 → x.chk = 0 → out ≠ 0 → exec (.flitForward n inp v err chk) s
          = .next (s3.setRbuf (farEnd n out).1 (farEnd n out).2 v (s3.rbuf (farEnd n out).1 (farEnd n out).2 v
              ++ [{ id := f.id, pkt := f.pkt, idx := f.idx }])))
        ∧ (linkChoice s n out = some (v.val, inp.val) → x.err = 0 → x.chk = 0 → out = 0 → exec (.flitForward n inp v err chk) s
          = .next (if tail then deliver f.pkt s3 else s3))
        ∧ (linkChoice s n out ≠ some (v.val, inp.val) → exec (.flitForward n inp v err chk) s = .next s)
        ∧ (linkChoice s n out = some (v.val, inp.val) → f.idx = 0 → upset 0 → exec (.flitForward n inp v err chk) s
          = .next (discardHeader n (headerLow f.pkt ^^^ bitsOf x.err.toNat 0 64) (consume f.id s)))
        ∧ (∀ p' s1, linkChoice s n out = some (v.val, inp.val) → flitRead n x s = (some p', s1) → p' ≠ f.pkt → out = 0 →
          f.idx + 1 = packetFlits p' → v.val ≠ 0 → exec (.flitForward n inp v err chk) s = .next (deliver p'
            (linkSent n out v inp true ((repaint f.id p' (s1.setRbuf n inp v rest)).setLock n out v none))))
        ∧ (∀ q < 4, (f.idx ≠ 0 ∨ q ≠ 0) → upset q → bearsData f.pkt = true → flitRead n x s
          = (some (poisonQuarter (upsetPacket x) f.idx q), (s.count (F.RT_UECNT_VALUE n) 1).irq (routerPage n) 0))
        ∧ (∀ q < 4, f.idx = 0 ∨ bearsData f.pkt = false → upset q → (q = 0 ∨ bearsData f.pkt = false) →
          flitRead n x s = (none, s)))
    -- packets that nothing takes
    ∧ (here s p = true → endpointExists p.dst p.dport = false →
        (p.vn = 1 → exec (.packetDiscard p) s = .next (niSend { response p p.typ 1 with size := p.size } (takeInbox p s)))
        ∧ (p.vn ≠ 1 → exec (.packetDiscard p) s = .next (discardAt p.dst p (takeInbox p s))))
    ∧ (here s p = true → p.vn = 2 → matchReq s p = none → exec (.lateResponse p) s = .next (lateResponse p s))
    ∧ (here s p = false → exec (.packetDiscard p) s = .next s ∧ exec (.lateResponse p) s = .next s)
    -- a stall
    ∧ ((∃ f rest, s.rbuf n inp v = f :: rest ∧ f.idx = 0) → Does (.stall n v) s fun u =>
        (u.get (F.RT_STALLSTAT_VN n)).testBit v = true ∧ u.flag F.RIDGE_STAT_STALL = true ∧ u.ridge = s.ridge)
    ∧ ((∀ i < 7, s.rbuf n i v = []) → exec (.stall n v) s = .next s)
    -- activation
    ∧ (s.flag F.RT_ACTSTAT_BUSY = true → exec (.activation w) s = .next (s.put F.RT_ACTSTAT_WR_REFUSED 1))
    ∧ (s.flag F.RT_ACTSTAT_BUSY = false → (w.getLsbD 8 = false ∨ mask = 0) → exec (.activation w) s = .next s)
    ∧ (s.flag F.RT_ACTSTAT_BUSY = false → w.getLsbD 8 = true → mask ≠ 0 →
        (badEntry s mask = none → exec (.activation w) s
          = .next { s.put F.RT_ACTSTAT_BUSY 1 with ridge := { s.ridge with stopped := mask, acted := none } })
        ∧ (∀ r vn d, badEntry s mask = some (r, vn, d) → exec (.activation w) s = .next
          (((((s.put F.RT_ACTSTAT_BAD 1).put F.RT_ACTSTAT_BADROUTER r).put F.RT_ACTSTAT_BADVN (vn - 1)).put
            F.RT_ACTSTAT_BADDEST d).irq ridgePage 0)))
    ∧ (s.flag F.RT_ACTSTAT_BUSY = true → drained s = true → Does .activationSwap s fun u =>
        u.ridge = { s.ridge with stopped := 0, acted := some true } ∧ u.flag F.RT_ACTSTAT_BUSY = false ∧ u.flag F.RT_ACTSTAT_DONE = true
        ∧ (∀ r < 64, ∀ x, 1 ≤ x → x ≤ 4 → ∀ d < 96,
          tableEntry u true r x d = tableEntry s (!s.ridge.stopped.testBit (x - 1)) r x d))
    ∧ (s.flag F.RT_ACTSTAT_BUSY = false ∨ drained s = false → exec .activationSwap s = .next s)
    ∧ (s.flag F.RT_ACTSTAT_BUSY = true → exec .activationAbort s = .next
        ((({ s with ridge := { s.ridge with stopped := 0, acted := some false } }.put F.RT_ACTSTAT_BUSY 0).put F.RT_ACTSTAT_ABORT 1).irq ridgePage 0))

/-- What the endpoints do with the oldest packet of a path. A Summit write puts its words into the shelf and a bell into
its doorbell; memory requests join the shelf or channel that serves them, and ADDR_ERR answers the others; a
register request is made and answered; a response frees its tag and completes its request; and a packet that is not
there changes nothing. Derived from parts of R217, R221, R222, R234, R235, R238, R239, R245, R317, R381, R390, R498.
A command whose conditions fail changes nothing: DESIGN CHOICE, log entry 2. The model's own choices that it rests
on: log entries 91, 119, 120. -/
def Obligations.Packets : Prop :=
  ∀ (p : Packet) (n : Fin 96) (tag : Fin 64) (read bad : Bool) (size : Byte) (s : State), here s p = true →
    let took := takeInbox p s
    let noAddr := niSend { response p p.typ 1 with size := p.size } took
    let regs := p.vn = 1 ∧ p.dport = 3 ∧ regServes s p.dst = true
    let mine := servingRouter (p.addr % 2 ^ 32) = some p.dst
    let r := readReg (p.addr % 2 ^ 32) bad took
    let wr := writeReg (masterOf s p) (p.addr % 2 ^ 32) p.word (mgmtRefused p took)
    -- the Summit
    (p.vn = 0 → p.typ = 0 → p.dst < 64 → p.dport = 0 → p.words.length ≤ 16 → Does (.summitWr p) s fun u =>
      ∀ j (h : j < p.words.length), (shelfRead p.dst ((p.addr / 4 + j) % 2 ^ 18) 0 u).1 = p.words[j]
        ∧ (shelfRead p.dst ((p.addr / 4 + j) % 2 ^ 18) 0 u).2.1 = p.spmask.testBit j)
    ∧ (∀ c, bellCore p = some c → p.vn = 0 → p.typ = 1 →
        exec (.summitBell p) s = .next (ringBell c (p.words.headD 0) (p.spmask.testBit 0) took))
    ∧ (∀ c w b, (ringBell c w b s).get (fBell c) = (s.get (fBell c) ||| w.toNat) % 2 ^ 32)
    -- memory
    ∧ (p.vn = 1 → p.typ < 2 → p.dst < 64 → p.dport = 0 →
        exec (if p.typ = 0 then .memRd p else .memWr p) s = .next (shelfArrive p.dst p took))
    ∧ (p.vn = 1 → p.typ < 2 → ∀ c, channelAt p.dst p.dport = some c → endpointExists p.dst p.dport = true → 64 ≤ p.dst →
        exec (if p.typ = 0 then .memRd p else .memWr p) s = .next (hbmArrive c p s))
    ∧ (p.vn = 1 → p.typ < 2 → endpointExists p.dst p.dport = true → channelAt p.dst p.dport = none →
        (64 ≤ p.dst ∨ p.dport ≠ 0) → groupSleeps s p = false → exec (if p.typ = 0 then .memRd p else .memWr p) s = .next noAddr)
    ∧ (p.vn = 3 → p.typ = 2 → ∀ c, channelAt p.dst p.dport = some c → exec (.bulkWr p) s = .next (hbmArrive c p s))
    ∧ (p.vn = 1 → p.typ < 2 → groupSleeps s p = true → exec (if p.typ = 0 then .memRd p else .memWr p) s = .next s)
    ∧ (p.vn = 3 → p.typ = 2 → channelAt p.dst p.dport = none → groupSleeps s p = false → exec (.bulkWr p) s = .next (discardAt p.dst p took))
    -- registers
    ∧ (regs → p.typ = 2 → mine → exec (.regRd p bad) s
        = .next (niSend { response p 2 r.1 with word := r.2.1, wordP := r.2.2.1 } r.2.2.2))
    ∧ (regs → p.typ = 2 → ¬ mine → exec (.regRd p bad) s = .next (niSend (response p 2 1) took))
    ∧ (regs → p.typ = 3 → mine → exec (.regWr p) s = .next (niSend (response p 3 wr.1) wr.2))
    ∧ (regs → p.typ = 3 → ¬ mine → exec (.regWr p) s = .next (niSend (response p 3 1) took))
    ∧ (p.vn = 4 → p.typ = 2 → p.dport = 3 → regServes s p.dst = true → mine →
        exec (.postedWr p) s = .next (writeReg 0 (p.addr % 2 ^ 32) p.word took).2)
    -- responses: the tag is free, and the requester has its answer
    ∧ (∀ q, p.vn = 2 → p.typ < 4 → matchReq s p = some q →
        exec (if p.typ = 0 then .memRdresp p else if p.typ = 1 then .memWrack p else if p.typ = 2 then .regRdresp p
          else .regWrack p) s = .next (tagFreed p.dst q.owner (requester q.owner (decide (p.typ % 2 = 0)) (answerOf p)
            (took.setOutReqs p.dst ((took.outReqs p.dst).erase q)))))
    ∧ (∀ e t (a : VnReply), a.status = 0 → a.poison = false → requester (.bar0 e t false) true a s
        = s.emit (.completion e t false ((List.range 4).map (byteOf a.word)) false))
    ∧ (∀ e t (a : VnReply) read, a.status = 1 ∨ a.status = 2 → requester (.bar0 e t false) read a s
        = s.emit (.completion e t true [] false))
    ∧ (∀ e t k z (a : VnReply), a.status = 0 → a.poison = false →
        (s.host.bar2Reads.find? fun x => x.e == e && x.tag == t) = some z → z.sent = k → z.parts = k + 1 → z.got = [] →
        requester (.bar2 e t false k) true a s = setHost (fun h => { h with bar2Reads := h.bar2Reads.erase z })
          (s.emit (.completion e t false (a.bytes.map (·.1)) false)))
    ∧ (∀ c x (a : VnReply) read, requester (.core c x) read a s = if a.status = 0 then s else storeError c x s)
    ∧ (∀ m k gen (a : VnReply) read,
        requester (.loader m k gen) read a s = loaderAnswer m k gen (decide (a.status ≠ 0)) a.bytes s)
    ∧ (∀ k i gen (a : VnReply) read, requester (.wire k i gen) read a s = wireReply k i gen a s)
    ∧ (s.get F.RQ_TIMEOUT_CYCLES = 0 → exec (.requestTimeout n tag read size) s = .next s)
    ∧ (s.get F.RQ_TIMEOUT_CYCLES ≠ 0 → ∀ q, (s.outReqs n).find? (fun x => x.tag == tag.val && !x.expired) = some q →
        exec (.requestTimeout n tag read size) s = .next (tagFreed n q.owner (requester q.owner (ownerReads q.owner read)
          { status := 3, bytes := List.replicate (size.toNat + 1) (0, true), poison := true } (timeoutCount n
            (s.setOutReqs n ((s.outReqs n).map fun x => if x == q then { x with expired := true } else x))))))
    -- streams and reports
    ∧ (p.vn = 3 → p.typ = 0 → p.dst < 64 → p.dport = 1 → s.get (F.PWR_STAT_STATE p.dst) ≤ 2 →
        s.get (F.SQ_CTL_WSRC p.dst (p.addr % 32)) = 1 → ∀ t, streamWords p.dst (p.addr % 32) p.stream s = ([], t) →
        exec (.stream p) s = .next (takeInbox p t))
    ∧ (p.vn = 3 → p.typ = 1 → p.dst = 92 → p.dport = 2 → p.src < 64 → exec (.report p) s = .next (reportArrive p took))
    ∧ (p.vn = 3 → p.typ = 3 → exec (.mirror p) s = .next took) ∧ (p.vn = 4 → p.typ = 1 → exec (.errRecord p) s = .next took)

/-- What reaches a core from outside. RUN, RESTART, HALTREQ and RESUME; an interrupt message; a Summit packet; the debug
window of a halted core; and the tile window of a massif whose sequencer stands. Derived from parts of R308, R313,
R316, R317, R326, R327, R328, R329. A command whose conditions fail changes nothing: DESIGN CHOICE, log entry 2. The
model's own choices that it rests on: log entries 60, 77, 158. -/
def Obligations.CoreControl : Prop :=
  ∀ (c : Fin 68) (m : Fin 64) (i : Fin 4) (line : Fin 32) (v : Word) (lost : Bool) (s : State),
    let x := s.core c
    let l := 64 + i.val
    let come := (s.inbox (coreRouter c)).find? fun p => irqFor c line p && here s p
    let bit : Word := 1 <<< line.val
    let halted := fun (k code : Nat) (t : State) => t.flag (fRunning k) = false ∧ t.flag (fHalted k) = true
      ∧ t.get (fHaltCode k) = code ∧ t.get (fHaltPc k) = (s.core k).pc.toNat
    let resumed := fun (k : Nat) => ((s.put (fHalted k) 0).put (fHaltCode k) 0).put (fRunning k) 1
    let tile := s.get (F.TDBG_SEL_TILE m)
    let item := s.get (F.TDBG_SEL_ITEM m)
    let y := s.tile m tile
    let stage := fun (k : Nat) => { s with cores := { s.cores with tdbg := s.cores.tdbg.set (m * 2 + k) v 0 } }
    let full := fun (k : Nat) => (⟨v.truncate 16 ++ s.cores.tdbg.get (m * 2 + k) 0, s.flag (F.TDBG_P_P m)⟩ : Acc)
    let fires := lost = true ∧ itemFired s m tile item = true
    -- interrupt messages
    (∀ p, come = some p → exec (.irqMsg c line) s = .next ((takeInbox p s).setCore c
        { x with remote := if p.addr.testBit 6 then x.remote ||| bit else x.remote &&& ~~~bit }))
    ∧ (come = none → s.flag F.DIST_CTL_EN = true → irqUnderWay s c line = false → remoteOr s c line ≠ remoteLine s c line →
        exec (.irqMsg c line) s = .next (niSend (irqPacket c line (remoteOr s c line)) s))
    ∧ (come = none → s.flag F.DIST_CTL_EN = false ∨ irqUnderWay s c line = true ∨ remoteOr s c line = remoteLine s c line →
        exec (.irqMsg c line) s = .next s)
    -- release, restart, halt and resume
    ∧ (s.flag (F.CL_CTL_RUN m) = false → Does (.callerRun m) s fun t => t.core m = {} ∧ t.flag (F.CL_CTL_RUN m) = true
        ∧ t.flag (F.CL_STAT_RUNNING m) = true ∧ t.flag (F.CL_STAT_HELD m) = false)
    ∧ (s.flag (F.CL_CTL_RUN m) = true → exec (.callerRun m) s = .next (s.putB (F.CL_CTL_RUN m) true))
    ∧ (s.flag (fRunning l) = false → s.loadHold = false → Does (.leadRestart i) s fun t => t.core l = leadFresh s i
        ∧ t.flag (fRunning l) = true ∧ t.flag (fHalted l) = false ∧ t.get (fHaltCode l) = 0)
    ∧ (s.flag (fRunning l) = true ∨ s.loadHold = true → exec (.leadRestart i) s = .next s)
    ∧ (s.flag (fRunning m) = true → midInstr s m = false → Does (.callerHaltreq m) s (halted m 3))
    ∧ (s.flag (fRunning m) = true → midInstr s m = true →
        exec (.callerHaltreq m) s = .next (s.setCore m { s.core m with haltReq := true }))
    ∧ (s.flag (fRunning m) = false → exec (.callerHaltreq m) s = .next s)
    ∧ (s.flag (fRunning l) = true → midInstr s l = false → Does (.leadHaltreq i) s (halted l 4))
    ∧ (s.flag (fRunning l) = true → midInstr s l = true →
        exec (.leadHaltreq i) s = .next (s.setCore l { s.core l with haltReq := true }))
    ∧ (s.flag (fRunning l) = false → exec (.leadHaltreq i) s = .next s)
    ∧ (s.flag (fHalted m) = true → exec (.callerResume m) s = .next (resumed m))
    ∧ (s.flag (fHalted l) = true → exec (.leadResume i) s = .next (resumed l))
    ∧ (s.flag (fHalted m) = false → exec (.callerResume m) s = .next s)
    ∧ (s.flag (fHalted l) = false → exec (.leadResume i) s = .next s)
    -- the debug window
    ∧ (s.flag (fHalted c) = false → exec (.dbgDataWrite c v) s = .next s)
    ∧ (s.flag (fHalted c) = true →
        (∀ n, dbgSel s c = .field n → n ≠ 26 → exec (.dbgDataWrite c v) s = .next (s.setCore c (regWrite (isLead c) x n v)))
        ∧ (dbgSel s c = .field 26 → exec (.dbgDataWrite c v) s
          = .next (s.setCore c { x with psw := v &&& pswMask (isLead c) }))
        ∧ (∀ r, dbgSel s c = .w r → exec (.dbgDataWrite c v) s = .next (s.setCore c (writeW x v r)))
        ∧ (∀ n, dbgSel s c = .ctl n → exec (.dbgDataWrite c v) s = .next (ctlWrite c n v s))
        ∧ (∀ k j, dbgSel s c = .vec k j → exec (.dbgDataWrite c v) s
          = .next (s.setCore c { x with v := x.v.set k (setLane32 (x.v.get k 0) j v) 0 }))
        ∧ (dbgSel s c = .nothing → exec (.dbgDataWrite c v) s = .next s))
    -- the tile window
    ∧ (tdbgRefused s m = true → exec (.tileWindowWrite m v lost) s = .next (s.put (F.TDBG_STAT_REFUSED m) 1))
    ∧ (tdbgRefused s m = false → fires →
        exec (.tileWindowWrite m v lost) s = .next (s.setIrq (F.TDBG_STAT_LOST m) (clPage m) 2))
    ∧ (tdbgRefused s m = false → ¬ fires →
        (item < 8 → exec (.tileWindowWrite m v lost) s
          = .next (s.setTile m tile { y with u := y.u.set item ⟨v, s.flag (F.TDBG_P_P m)⟩ {} }))
        ∧ (item = 8 → exec (.tileWindowWrite m v lost) s = .next (stage 0))
        ∧ (item = 9 → exec (.tileWindowWrite m v lost) s = .next (s.setTile m tile { y with acc0 := full 0 }))
        ∧ (item = 10 → exec (.tileWindowWrite m v lost) s = .next (stage 1))
        ∧ (item = 11 → exec (.tileWindowWrite m v lost) s = .next (s.setTile m tile { y with acc1 := full 1 }))
        ∧ (12 ≤ item → exec (.tileWindowWrite m v lost) s = .next s))
    -- a Summit packet
    ∧ (let g := fun (a b : Fld) => s.get (if isLead c then a else b)
        let size := g (F.LEAD_SUM_HDR_SIZE (leadIdx c)) (F.SUM_HDR_SIZE c)
        let p : Packet := {
          dst := g (F.LEAD_SUM_HDR_DST (leadIdx c)) (F.SUM_HDR_DST c),
          dport := g (F.LEAD_SUM_HDR_DPORT (leadIdx c)) (F.SUM_HDR_DPORT c), src := coreRouter c, sport := corePort c, vn := 0,
          typ := g (F.LEAD_SUM_HDR_TYPE (leadIdx c)) (F.SUM_HDR_TYPE c),
          addr := g (F.LEAD_SUM_ADDR_ADDR (leadIdx c)) (F.SUM_ADDR_ADDR c), size := size,
          words := (List.range (size + 1)).map (sumWord s c) }
        (sumQueued s c < 2 → packetOk p = true → exec (.summitSend c) s = .next (niSend p s))
        ∧ (2 ≤ sumQueued s c ∨ packetOk p = false → exec (.summitSend c) s
          = .next (s.setIrq (if isLead c then F.LEAD_SUM_STAT_REFUSED (leadIdx c) else F.SUM_STAT_REFUSED c) (corePage c) 1)))

/-- Gating and waking a massif, its clock and the fabric PLLs, and the brownout warning. Derived from parts of R12, R71,
R177, R236, R237, R327, R437, R438, R439, R442, R443, R444, R446, R448, R449, R454. A command whose conditions fail
changes nothing: DESIGN CHOICE, log entry 2. The model's own choices that it rests on: log entries 7, 34, 60, 61,
62, 63, 140, 145, 147, 165. -/
def Obligations.PowerAndClocks : Prop :=
  ∀ (m : Fin 64) (k : Fin 4) (v : Word) (a b : BitVec 10) (s : State),
    let st := s.get (F.PWR_STAT_STATE m)
    let free := (s.massif m).held = false
    let sel := (F.MCLK_SEL m).of v.toNat
    let div := (F.MCLK_DIV m).of v.toNat
    let old := s.get (F.MCLK_SEL m)
    let refused := s.setIrq F.CLK_STAT_CFG_REFUSED clockPage 0
    let f := (F.FPLL_FREQ k).of v.toNat
    let users := s.get (F.FPLL_USERS k)
    let low := a.toNat < s.get F.BO_WARN_MV ∧ b.toNat < s.get F.BO_WARN_MV
    let fits := s.flag (F.FPLL_LOCK sel) = true ∧ s.get (F.FPLL_FREQ sel) ≤ fabricMax * (div + 1)
    -- gating
    (free → st = 0 → exec (.gate m true) s = .next ((s.put (F.PWR_CTL_GATE m) 1).put (F.PWR_STAT_STATE m) 1))
    ∧ (free → (st = 1 ∨ st = 2) → exec (.gate m false) s = .next ((s.put (F.PWR_CTL_GATE m) 0).put (F.PWR_STAT_STATE m) 0))
    ∧ (free → st = 3 → exec (.gate m false) s = .next (wakeStart m s))
    ∧ (¬ free → ∀ g, exec (.gate m g) s = .next (s.setIrq (F.PWR_STAT_REFUSED m) (pwrPage m) 3))
    ∧ (st = 1 → waitFor s m = 0 → (s.massif m).resetHold = false →
        exec (.gateClose m) s = .next (s.put (F.PWR_STAT_STATE m) 2))
    ∧ (st ≠ 1 ∨ waitFor s m ≠ 0 ∨ (s.massif m).resetHold = true → exec (.gateClose m) s = .next s)
    ∧ (st = 2 → s.outstanding m = false → (s.inbox m).all servedAsleep = true → Does (.gated m) s fun t =>
        t.get (F.PWR_STAT_STATE m) = 3 ∧ t.core m = {} ∧ t.flag (F.CL_CTL_RUN m) = false ∧ t.flag (F.CL_STAT_RUNNING m) = false
        ∧ t.get (F.SLOT_VALID_BITS m) = 0 ∧ t.get (F.BM_USE_BITS m) = 0 ∧ t.flag (F.MASSIF_STAT_STOPPED m) = false
        ∧ (∀ w < 2 ^ 14, ramCell t m w = 0)
        ∧ (∀ n < 256, t.tile m n = {} ∧ ∀ i < 16, t.slotBits m i n = 0) ∧ t.mem.shelf = s.mem.shelf
        ∧ (∀ m' < 64, m' ≠ m.val → ∀ n < 256, t.tile m' n = s.tile m' n))
    ∧ (st ≠ 2 ∨ s.outstanding m = true ∨ (s.inbox m).all servedAsleep = false → exec (.gated m) s = .next s)
    -- waking
    ∧ (st = 3 → exec (.wake m) s = .next (
        let t := (s.put (F.PWR_STAT_STATE m) 4).put (F.PWR_CTL_GATE m) 0
        { t with power := { t.power with wakeAt := t.power.wakeAt.set m (some s.cycle) none } }))
    ∧ (st ≠ 3 → exec (.wake m) s = .next s)
    ∧ (st = 4 → clockStopped s m = false →
        (s.massif m).clockHold = true ∨ (s.massif m).wakeBeat ≠ none ∨ wakeList s m ≠ [] ∨ (s.massif m).beats = [] →
        Does (.wakeActive m) s fun t =>
        t.get (F.PWR_STAT_STATE m) = (if s.flag (F.PWR_CTL_GATE m) then 1 else 0)
        ∧ t.get (F.PWR_WAKECNT_VALUE m) = (s.get (F.PWR_WAKECNT_VALUE m) + 1) % 2 ^ 32
        ∧ t.inbox m = s.wakeBuf m ++ s.inbox m ∧ t.wakeBuf m = []
        ∧ (t.massif m).wakeSlots = wakeList s m ∧ (t.massif m).callerCopy = (s.get (F.CL_WAKE_LEN m) != 0))
    ∧ (st = 4 → clockStopped s m = false → Does (.wakeActive m) s fun _ => True)
    ∧ (st ≠ 4 ∨ clockStopped s m = true → exec (.wakeActive m) s = .next s)
    ∧ (s.massifUp m = true → (s.massif m).callerCopy = true → (s.massif m).wakeBeat = none → (s.massif m).wakeSlots = [] →
        let done := (s.massif m).copied
        let parts := min (s.get (F.CL_WAKE_LEN m)) 65536 / 8
        let w := s.get (F.CL_WAKE_ADDR m) / 8 * 2 + 2 * done
        let banks := [w % 16, (w + 1) % 16]
        let won := banks.foldl (fun t b => countWaits m b true t) (setWant m [] s)
        let r := shelfReadWords m 4 w 2 won
        let u := ramFill m (2 * done) r.1 (r.2.setMassif m { r.2.massif m with copied := done + 1 })
        let ends := fun (t : State) => callerRun m true (t.setMassif m { t.massif m with callerCopy := false })
        (parts ≤ done → exec (.callerWakeCopy m) s = .next (ends s))
        ∧ (done < parts → banks.any (aboveCaller s m) = true →
          exec (.callerWakeCopy m) s = .next (setWant m banks (s.count (F.SH_WAIT_CALLER_VALUE m) 1)))
        ∧ (done < parts → banks.any (aboveCaller s m) = false →
          exec (.callerWakeCopy m) s = .next (if parts ≤ done + 1 then ends u else u)))
    -- clocks
    ∧ (s.flag (F.MCLK_SWITCHING m) = false → ¬ fits → exec (.mclkWrite m v) s = .next refused)
    ∧ (s.flag (F.MCLK_SWITCHING m) = true → sel ≠ old ∨ div ≠ s.get (F.MCLK_DIV m) → exec (.mclkWrite m v) s = .next refused)
    ∧ (s.flag (F.MCLK_SWITCHING m) = true → sel = old → div = s.get (F.MCLK_DIV m) → exec (.mclkWrite m v) s = .next s)
    ∧ (s.flag (F.MCLK_SWITCHING m) = false → fits → Does (.mclkWrite m v) s fun t =>
        t.get (F.MCLK_SEL m) = sel ∧ t.get (F.MCLK_DIV m) = div ∧ t.flag (F.MCLK_SWITCHING m) = true
        ∧ t.massif m = { s.massif m with clockHold := true })
    ∧ (let edge := (s.setMassif m { s.massif m with clockHold := false }).put (F.MCLK_SWITCHING m) 0
      let ended := fun (t : State) =>
        t.massif m = { s.massif m with clockHold := false, beats := [] } ∧ t.flag (F.MCLK_SWITCHING m) = false
      s.flag (F.MCLK_SWITCHING m) = true →
        (beatsKept edge m = true → exec (.clockSwitchDone m) s = .next edge)
        ∧ (beatsKept edge m = false → (s.massif m).beats = [] → Does (.clockSwitchDone m) s ended)
        ∧ (∀ z, beatsKept edge m = false → (s.massif m).beats = [z] → z.ch ≠ s.get F.PAIR_EPOCH_CH → seqWaits edge m 0 = true →
          beatSatisfies (s.massif m).step z = false → Does (.clockSwitchDone m) s ended)
        ∧ (∀ z, beatsKept edge m = false → (s.massif m).beats = [z] → seqWaits edge m 0 = true →
          stepNosw (s.massif m).step = false → (s.get (F.SLOT_VALID_BITS m)).testBit (stepBits (s.massif m).step 0 4) = true →
          beatSatisfies (s.massif m).step z = true → Does (.clockSwitchDone m) s fun t =>
            (t.massif m).switch.any (fun w => w.slot == stepBits (s.massif m).step 0 4) = true
            ∧ t.flag (F.SEQ_STAT_SWITCHING m) = true ∧ (t.massif m).beats = []))
    ∧ (s.flag (F.MCLK_SWITCHING m) = false → exec (.clockSwitchDone m) s = .next s)
    ∧ (users ≠ 0 ∨ (f ≠ 0 ∧ (f < 0x050 ∨ 0x190 < f)) → exec (.fpllWrite k v) s = .next refused)
    ∧ (users = 0 → (f = 0 ∨ (0x050 ≤ f ∧ f ≤ 0x190)) →
        exec (.fpllWrite k v) s = .next ((s.put (F.FPLL_FREQ k) f).put (F.FPLL_LOCK k) 0))
    ∧ (s.get (F.FPLL_FREQ k) ≠ 0 → exec (.pllLock k) s = .next (s.put (F.FPLL_LOCK k) 1))
    ∧ (s.flag (F.FPLL_LOCK k) = true → exec (.pllLockLoss k) s
        = .next ((s.put (F.FPLL_LOCK k) 0).when (users != 0) fun t => t.irq clockPage (1 + k)))
    ∧ (s.flag (F.FPLL_LOCK k) = false → exec (.pllLockLoss k) s = .next s)
    -- a brownout warning
    ∧ (s.flag F.BO_STAT_WARN = false → low → Does (.warningStart a b) s fun t =>
        t.flag F.BO_STAT_WARN = true ∧ t.get F.BO_CNT_VALUE = min (s.get F.BO_CNT_VALUE + 1) F.BO_CNT_VALUE.max
        ∧ t.get F.BO_MIN_MV = min (s.get F.BO_MIN_MV) b.toNat % 2 ^ 10 ∧ t.get F.VCORE_MV_VALUE = b.toNat
        ∧ (s.flag F.BO_CTL_THROTTLE_ON_WARN = true → t.flag F.BO_STAT_THROTTLED = true
          ∧ (t.massif m).clockHold = true ∧ t.flag (F.MCLK_SWITCHING m) = true))
    ∧ (s.flag F.BO_STAT_WARN = true ∨ ¬ low → exec (.warningStart a b) s = .next s)
    ∧ (s.flag F.BO_STAT_WARN = true → s.get F.BO_WARN_MV + s.get F.BO_HYST_MV ≤ b.toNat → recovered s = true →
        Does (.warningEnd a b) s fun t =>
        t.flag F.BO_STAT_WARN = false ∧ t.get F.BO_MIN_MV = min (s.get F.BO_MIN_MV) a.toNat % 2 ^ 10
        ∧ t.get F.VCORE_MV_VALUE = b.toNat ∧ t.flag F.NVM_STAT_SUSPENDED = false
        ∧ (s.flag F.BO_STAT_THROTTLED = true → t.flag F.BO_STAT_THROTTLED = false))
    ∧ (s.flag F.BO_STAT_WARN = false ∨ b.toNat < s.get F.BO_WARN_MV + s.get F.BO_HYST_MV ∨ recovered s = false →
        exec (.warningEnd a b) s = .next s)

/-- The roles of a pair. A member enters HELLO when it is enabled, finds its role by HELLO or by its time-out, declares
the loss of its partner, arbitrates, and takes over, hands over, steps down or resynchronises at the epoch beat or
at once, as its command says. Derived from parts of R280, R282, R283, R284, R293, R294, R295, R296, R297, R298,
R300. A command whose conditions fail changes nothing: DESIGN CHOICE, log entry 2. The model's own choices that it
rests on: log entries 26, 64, 66, 70, 71, 73, 137. -/
def Obligations.PairRoles : Prop :=
  ∀ (v : Word) (pairId : BitVec 10) (tmpId : BitVec 14) (st : Fin 6) (pref high ready : Bool) (digest : BitVec 384)
    (epoch : Word) (arg : Dword) (port : Fin 4) (origin : BitVec 14) (s : State),
    let state := pairState s
    let dig := (List.range 12).map fun i => bitsOf digest.toNat (32 * i) 32
    let hello := Instr.hello pairId tmpId st pref digest epoch
    let known := state ≠ pOff ∧ pairId.toNat = s.get F.PAIR_CFG_PAIRID ∧ dig = imageDigest s
      ∧ epochsApart epoch.toNat (epochNow s) = false
    let own := !s.flag F.PAIR_CFG_ROLE_PREF
    let leads := if own != !pref then own else decide (s.get F.TMP_ID_ID < tmpId.toNat)
    let cfg := s.loadAll v [F.PAIR_CFG_EN, F.PAIR_CFG_ROLE_PREF, F.PAIR_CFG_ARB, F.PAIR_CFG_CMP, F.PAIR_CFG_TAKE_UNREADY,
      F.PAIR_CFG_PAIRID]
    let becomes := fun (n : Nat) (t : State) => pairState t = n
    let plans := fun (p : PairPlan) (t : State) => t.pair.plan = p ∧ t.pair.planAt = s.cycle ∧ t.pair.planEpoch = epochNow s ∧ t.regs = s.regs
    let refused := s.put F.PAIR_STAT_CMD_REFUSED 1
    let due := s.pair.lastHb + s.get F.PAIR_HB_LOSS * 1000 ≤ s.cycle
    let member := state = pActive ∨ state = pSyncing ∨ state = pStandby
    let down := s.flag F.PAIR_STAT_LINK = false
    let sends := s.flag F.PAIR_STAT_LINK = true ∧ s.txIdle 31 = false
    let seen := { s with pair := { s.pair with helloSeen := true } }
    let frame := fun (c : Nat) => TempoFrame.ctrl origin.toNat c arg
    let takes := fun (c : Nat) => takesFlooded s port (frame c) = true ∧ origin.toNat ≠ s.get F.TMP_ID_ID
    let id := bitsOf arg.toNat 0 16
    let who := bitsOf arg.toNat 16 16
    -- enable and HELLO
    (v.getLsbD 0 = false → Does (.pairEnable v) s (becomes pOff))
    ∧ (v.getLsbD 0 = true → state = pOff → s.loadHold = false → Does (.pairEnable v) s (becomes pHello))
    ∧ (v.getLsbD 0 = true → state ≠ pOff → exec (.pairEnable v) s = .next cfg)
    ∧ (state ≠ pOff → s.power.warmPhase = 0 → sends → exec .helloSend s = .next (s.emit (.pair (.hello
        (s.get F.PAIR_CFG_PAIRID) (s.get F.TMP_ID_ID) state (s.flag F.PAIR_CFG_ROLE_PREF) (imageDigest s) (epochNow s)))))
    ∧ (state = pOff ∨ s.power.warmPhase ≠ 0 ∨ ¬ sends → exec .helloSend s = .next s)
    ∧ (known → state = pHello → st.val = 2 → Does hello s (becomes pSyncing))
    ∧ (known → state = pHello → st.val ≠ 2 → Does hello s (becomes (if leads then pActive else pSyncing)))
    ∧ (state ≠ pOff → pairId.toNat = s.get F.PAIR_CFG_PAIRID → dig ≠ imageDigest s →
        exec hello s = .next (seen.setIrq F.PAIR_STAT_IMG_MISMATCH pairPage 6))
    ∧ (state = pOff ∨ pairId.toNat ≠ s.get F.PAIR_CFG_PAIRID → exec hello s = .next seen)
    ∧ (state = pHello → s.pair.helloSeen = false → s.pair.helloAt + 1000000 * s.get F.PAIR_HELLOTO_MS ≤ s.cycle →
        s.flag F.PAIR_CFG_ROLE_PREF = false → Does (.helloTimeout true) s (becomes pActive))
    ∧ (known → Does hello s fun t => t.flag F.PAIR_STAT_PARTNER_READY = (s.flag F.PAIR_STAT_PARTNER_READY && st.val == 4))
    ∧ (s.pair.helloSeen = true → exec (.helloTimeout high) s = .next s) ∧ exec (.helloTimeout false) s = .next s
    -- heartbeats, and their loss
    ∧ (member → s.power.warmPhase = 0 → sends → exec .heartbeatSend s
        = .next (s.emit (.pair (.heartbeat state (epochNow s) s.pair.ready))))
    ∧ (state = pOff → exec (.heartbeat st ready) s = .next s)
    ∧ (state = pActive → st.val = 4 → Does (.heartbeat st ready) s fun t => t.pair.lastHb = s.cycle ∧ t.pair.lost = false
        ∧ t.flag F.PAIR_STAT_PARTNER_READY = ready)
    ∧ (member → s.pair.lost = false → (due ∨ down) → arbByPin s = true →
        (state = pActive → Does (.heartbeatLoss high) s fun t => t.pair.lost = true ∧ t.flag F.PAIR_STAT_HBLOSS = true
          ∧ t.flag F.PAIR_STAT_PARTNER_READY = false)
        ∧ (state = pStandby → due → Does (.heartbeatLoss true) s fun t =>
          t.pair.plan = .takeover ∧ t.flag F.PAIR_STAT_HBLOSS = true)
        ∧ (state = pStandby → due → Does (.heartbeatLoss false) s fun t =>
          t.pair.plan = s.pair.plan ∧ t.flag F.PAIR_STAT_SPLIT = true)
        ∧ (state = pStandby → ¬ due → Does (.heartbeatLoss high) s fun t =>
          t.pair = { s.pair with lost := true, sampled := false } ∧ t.flag F.PAIR_STAT_HBLOSS = true))
    ∧ (state = pStandby → s.pair.lost = true → s.pair.sampled = false → due → arbByPin s = true →
        Does (.heartbeatLoss true) s (fun t => t.pair.plan = .takeover) ∧ Does (.heartbeatLoss false) s fun t =>
          t.pair = { s.pair with sampled := true } ∧ t.flag F.PAIR_STAT_SPLIT = true)
    ∧ (¬ member ∨ s.pair.lost = true ∧ (s.pair.sampled = true ∨ ¬ due) ∨ s.pair.lost = false ∧ ¬ due ∧ ¬ down →
        exec (.heartbeatLoss high) s = .next s)
    -- arbitration by the root
    ∧ (takes 0x20 → s.get F.TMP_STAT_STATE = 4 → (s.pair.grants.any fun x => x.1 == id) = false →
        Does (.pairClaim port origin arg) s fun t => t.pair.grants.get id (0, 0) = (s.cycle, arg))
    ∧ (takes 0x20 → s.get F.TMP_STAT_STATE ≠ 4 → exec (.pairClaim port origin arg) s = .next (flood (frame 0x20) (some port) s))
    ∧ (¬ takes 0x20 → exec (.pairClaim port origin arg) s = .next s)
    ∧ (takes 0x21 → id = s.get F.PAIR_CFG_PAIRID →
        (who = s.get F.TMP_ID_ID → state = pStandby → Does (.pairGrant port origin arg) s fun t =>
          t.pair = { s.pair with plan := .takeover, planAt := s.cycle, planEpoch := epochNow s, claimAt := none })
        ∧ (who ≠ s.get F.TMP_ID_ID → state = pActive → Does (.pairGrant port origin arg) s fun t =>
          t.pair = { s.pair with plan := .stepdown, planAt := s.cycle, planEpoch := epochNow s, claimAt := none })
        ∧ (who ≠ s.get F.TMP_ID_ID → state = pStandby → Does (.pairGrant port origin arg) s fun t =>
          t.pair = { s.pair with claimAt := none } ∧ t.flag F.PAIR_STAT_SPLIT = true))
    ∧ (takes 0x21 → (state = pOff ∨ id ≠ s.get F.PAIR_CFG_PAIRID) →
        exec (.pairGrant port origin arg) s = .next (flood (frame 0x21) (some port) s))
    ∧ (¬ takes 0x21 → exec (.pairGrant port origin arg) s = .next s)
    ∧ (∀ t0, s.pair.claimAt = some t0 → t0 + s.get F.PAIR_ARBTO_US * 1000 ≤ s.cycle →
        exec .arbTimeout s = .next (claim (s.setIrq F.PAIR_STAT_ARB_TIMEOUT pairPage 2)))
    ∧ (s.pair.claimAt = none → exec .arbTimeout s = .next s)
    ∧ (bitsOf arg.toNat 0 16 = s.get F.PAIR_CFG_PAIRID → bitsOf arg.toNat 16 16 = s.get F.TMP_ID_ID → state = pStandby →
        plans .takeover (actOnGrant arg s))
    ∧ (bitsOf arg.toNat 0 16 = s.get F.PAIR_CFG_PAIRID → bitsOf arg.toNat 16 16 ≠ s.get F.TMP_ID_ID → state = pActive →
        plans .stepdown (actOnGrant arg s))
    -- the change of role at the beat
    ∧ (s.pair.plan = .takeover → s.pair.planEpoch ≠ epochNow s → s.pair.planAt < s.cycle → s.pair.commit = none → Does .takeoverBeat s fun t => becomes pActive t
        ∧ t.get F.PAIR_FOCNT_VALUE = (s.get F.PAIR_FOCNT_VALUE + 1) % 2 ^ 32 ∧ t.pair.staged = []
        ∧ (state = pSyncing → t.flag F.PAIR_STAT_DEGRADED = true))
    ∧ (s.pair.plan ≠ .takeover ∨ s.pair.planEpoch = epochNow s ∨ s.cycle ≤ s.pair.planAt ∨ s.pair.commit.isSome = true → exec .takeoverBeat s = .next s)
    -- the commands
    ∧ (state = pActive → s.flag F.PAIR_STAT_PARTNER_READY = true → s.flag F.PAIR_STAT_LINK = true → s.pair.lost = false →
        Does (.swap false) s (plans .swap))
    ∧ (state ≠ pActive → exec (.swap false) s = .next refused)
    ∧ (state = pStandby → Does (.swap true) s (plans .takeover))
    ∧ ((state = pStandby ∨ state = pFenced) → Does .takeover s fun t => plans .takeover t
        ∧ (sends → t.out = .pair .stepdown :: s.out))
    ∧ (state = pActive ∨ state = pHello ∨ state = pOff → exec .takeover s = .next refused)
    ∧ (state = pActive → Does .stepdown s (plans .stepdown) ∧ Does .stepdownRecord s (plans .stepdown))
    ∧ (state ≠ pActive → exec .stepdown s = .next refused ∧ exec .stepdownRecord s = .next refused)
    ∧ (state = pStandby ∨ state = pFenced → Does .resync s (becomes pSyncing))
    ∧ (state = pActive ∨ state = pHello ∨ state = pOff ∨ state = pSyncing → exec .resync s = .next refused)

/-- What the link of a pair brings. Records are staged and wait for the commit of their epoch, which writes them to the
shelves as bulk accesses; a digest closes and is compared; a copy begins and ends; a checkpoint is posted and joins
its epoch; and the link rises, falls, and falls after sixteen retransmissions. Derived from parts of R278, R279,
R285, R286, R288, R289, R291, R292, R297. A command whose conditions fail changes nothing: DESIGN CHOICE, log entry
2. The model's own choices that it rests on: log entries 68, 69, 70, 72, 91, 136, 138, 149. -/
def Obligations.PairRecords : Prop :=
  ∀ (m : Fin 64) (k : Fin 68) (w : BitVec 18) (words : List (Word × Bool)) (epoch line : Word) (e : EpochEnd) (again : Bool)
    (s : State),
    let state := pairState s
    let quiet := state = pSyncing ∨ state = pStandby
    let follows := state = pSyncing ∨ state = pStandby ∧ ∀ c, s.pair.committed = some c → e.epoch = (c + 1) % 2 ^ 32
    let calm := commitWrites s = false
    let plain := e.queues = [] ∧ e.seqs = [] ∧ e.ckpts = []
    let n := s.get (F.CKPT_LEN_BYTES k)
    let okLen := 4 ≤ n ∧ n ≤ 4096 ∧ n % 4 = 0
    let pair := fun (p : Pair) => Host.Outcome.next { s with pair := p }
    -- records
    (quiet → exec (.mwr m w words epoch) s = .next (mbufStore true words
      { s with pair := { s.pair with staged := s.pair.staged ++ [⟨m, w.toNat, words, epoch.toNat⟩] } }))
    ∧ (¬ quiet → exec (.mwr m w words epoch) s = .next s ∧ exec (.epochEnd e) s = .next s)
    ∧ (quiet → e.digests = [] → exec (.epochEnd e) s
        = pair { s.pair with arrived := s.pair.arrived ++ [e], theirs := s.pair.theirs ++ e.digests })
    -- the commit of an epoch: its words become writes of the shelves' bulk requesters, and it ends when these are made
    ∧ (follows → s.pair.arrived = [e] → s.pair.commit = none → (∀ r ∈ s.pair.staged, r.epoch ≠ e.epoch) → calm → plain →
        Does .commit s fun t => t.get F.PAIR_EPSTAT_EPOCH = e.epoch % 2 ^ 32 ∧ t.pair.arrived = [] ∧ t.pair.commit = none
          ∧ t.pair.committed = some e.epoch ∧ t.mem = s.mem)
    ∧ (∀ d, follows → s.pair.arrived = [e] → s.pair.commit = none → s.pair.staged = [⟨m, w.toNat, [d], e.epoch⟩] →
        Does .commit s fun t => t.pair = { s.pair with arrived := [], commit := some e } ∧ t.regs = s.regs
          ∧ ∃ b, (t.shelf m).bulk = (s.shelf m).bulk ++ [b] ∧ b.todo = [w.toNat] ∧ b.pkt.typ ≠ 0 ∧ b.pkt.vn = 3
            ∧ wholeWord (bulkBytes b.pkt w.toNat).1 = true ∧ (bulkBytes b.pkt w.toNat).2 = d.2
            ∧ mergeBytes (bulkBytes b.pkt w.toNat).1 0 = d.1)
    ∧ (s.pair.commit = some e → calm → plain → quiet → Does .commit s fun t =>
        t.get F.PAIR_EPSTAT_EPOCH = e.epoch % 2 ^ 32 ∧ t.pair.commit = none ∧ t.pair.committed = some e.epoch
          ∧ (∀ r, s.pair.staged = [r] → (behind e.epoch r.epoch = true → t.pair.staged = [r])
            ∧ (behind e.epoch r.epoch = false → t.pair.staged = [])))
    ∧ (s.pair.commit = some e → commitWrites s = true → exec .commit s = .next s)
    ∧ (s.pair.commit = none → (s.pair.arrived = [] ∨ ¬ quiet) → exec .commit s = .next s)
    -- digests
    ∧ (∀ b, s.pair.beats.find? (fun x => x.1 == (line.toNat + 1) % 2 ^ 32) = some b → s.flag F.PAIR_CFG_CMP = true →
        s.pair.closed.any (fun x => x.1 == line.toNat) = false →
        let lag := BitVec.ofNat 48 (s.get F.PAIR_CMP_LAG)
        posDue (epochDir s) (s.encPos (s.bc (s.get F.PAIR_EPOCH_CH)).enc) (if epochDir s = 1 then b.2 - lag else b.2 + lag) = true →
        exec (.digestClose line) s = .next (digestCompare line.toNat { s with pair := { s.pair with
          closed := s.pair.closed ++ [(line.toNat, s.pair.digests.get line.toNat 0)]
          digests := s.pair.digests.erase line.toNat } }))
    ∧ (s.flag F.PAIR_CFG_CMP = false → exec (.digestClose line) s = .next s)
    -- the copy
    ∧ (state = pActive → exec .resyncReq s = .next (fullCopy s))
    ∧ (quiet → Does .resyncReq s fun t => pairState t = pSyncing ∧ t.pair.arrived = s.pair.arrived
        ∧ t.pair.staged = s.pair.staged.filter fun r => r.epoch != epochNow s)
    ∧ (state = pSyncing → exec .resyncDone s = pair { s.pair with copyEnd := some (epochNow s) })
    ∧ (state ≠ pSyncing → exec .resyncDone s = .next s)
    -- checkpoints
    ∧ (s.flag (F.CKPT_CTL_BUSY k) = false → state = pActive → okLen →
        exec (.ckptPost k) s = .next ((wireEnd (ckptKey k) s).put (F.CKPT_CTL_BUSY k) 1))
    ∧ (s.flag (F.CKPT_CTL_BUSY k) = true ∨ state ≠ pActive ∨ ¬ okLen →
        exec (.ckptPost k) s = .next (s.setIrq (F.CKPT_CTL_REFUSED k) ckptPage 2))
    ∧ (s.flag (F.CKPT_CTL_BUSY k) = true →
        let ps := readRequests s (if k < 64 then some k else none) pairRouter 2 (ckptAddr s k) n
        let asks := wireAsk (ckptKey k) ps (wireRewind (ckptKey k) s)
        (asks.1 = none → exec (.ckptDone k) s = .next asks.2)
        ∧ (∀ as, asks.1 = some as →
          let c : CkptRec := ⟨k, ckptAddr s k, bytesWords ((ps.zip as).flatMap fun x => replyBytes (x.1.size + 1) x.2)⟩
          exec (.ckptDone k) s = .next (((ckptJoin c (wireEnd (ckptKey k) asks.2)).put (F.CKPT_CTL_BUSY k) 0).setIrq
            (F.CKPT_CTL_DONE k) ckptPage 0)))
    ∧ (∀ c, state ≠ pActive ∨ s.pair.broken = true → ckptJoin c s = s)
    ∧ (∀ c, state = pActive → s.pair.broken = false →
        let joined := { s with pair := { s.pair with ckpts := (s.pair.ckpts.filter fun x => x.slot != c.slot) ++ [c] } }
        (mirrorBytes joined ≤ 2 ^ 20 * s.get F.PAIR_MBUF_SZ_MIB → ckptJoin c s = mbufStore true c.words joined)
        ∧ (2 ^ 20 * s.get F.PAIR_MBUF_SZ_MIB < mirrorBytes joined → ckptJoin c s = mirrorBreak joined))
    ∧ (s.flag (F.CKPT_CTL_BUSY k) = false → exec (.ckptDone k) s = .next s)
    -- the link
    ∧ (Does .pairLinkDown s fun t => t.flag F.PAIR_STAT_LINK = false ∧ t.flag F.PAIR_STAT_PARTNER_READY = false
        ∧ pairState t = state)
    ∧ (s.flag F.PAIR_CFG_EN = true → s.get (F.GRP_CTL_PROTO 31) = 4 → s.flag (F.GRP_CTL_EN 31) = true → s.flag (F.GRP_CTL_LP 31) = false →
        s.loadHold = false →
        Does .pairLinkUp s fun t => t.flag F.PAIR_STAT_LINK = true ∧ t.pair = { s.pair with lastHb := s.cycle })
    ∧ (s.flag (F.GRP_CTL_LP 31) = true ∨ s.loadHold = true ∨ s.flag F.PAIR_CFG_EN = false → exec .pairLinkUp s = .next s)
    ∧ (s.flag F.PAIR_STAT_LINK = true →
        (s.pair.retries < 15 → exec (.cellRetransmit true) s = pair { s.pair with retries := s.pair.retries + 1 })
        ∧ (15 ≤ s.pair.retries → Does (.cellRetransmit true) s fun t => t.flag F.PAIR_STAT_LINK = false)
        ∧ exec (.cellRetransmit false) s = pair { s.pair with retries := 1 })
    ∧ (s.flag F.PAIR_STAT_LINK = false → exec (.cellRetransmit again) s = .next s)

/-- The lane groups and their CoaXPress links. A group takes a protocol that it allows while it is not enabled, which
retrains its lanes; a lane becomes ready or is lost; the pixels of a line fill words that go to the queues of the
link, the last with E = 1; and controls, acknowledgements and triggers are sent. Derived from parts of R356, R358,
R360, R361, R362, R363, R364, R366, R367, R368, R376. A command whose conditions fail changes nothing: DESIGN
CHOICE, log entry 2. The model's own choices that it rests on: log entries 74, 75, 76, 150, 151, 161. -/
def Obligations.LaneGroups : Prop :=
  ∀ (g : Fin 32) (f j : Fin 8) (v : Word) (id tag : Byte) (b : Fin 4 → Byte) (kind : Fin 4) (sp : Fin 8)
    (words : List Word) (on : Bool) (sig : LaneSignal) (s : State),
    let rd := fun (x : Fld) => x.of v.toNat
    let old := s.get (F.GRP_CTL_PROTO g)
    let newP := rd (F.GRP_CTL_PROTO g) ≠ old
    let newE := rd (F.GRP_CTL_EN g) ≠ s.get (F.GRP_CTL_EN g)
    let bad := (newP ∧ (protoAllowed g (rd (F.GRP_CTL_PROTO g)) = false ∨ s.flag (F.GRP_CTL_EN g) = true))
      ∨ (old = 3 ∧ (newP ∨ newE))
    let lp := s.flag (F.GRP_CTL_LP g)
    let again := if newP then s.each 8 (laneRetrain g) else s
    let set := ((again.put (F.GRP_CTL_PROTO g) (rd (F.GRP_CTL_PROTO g))).put (F.GRP_CTL_EN g) (rd (F.GRP_CTL_EN g))).when
      (g == 31 && (rd (F.GRP_CTL_PROTO g) != 4 || rd (F.GRP_CTL_EN g) == 0)) pairLinkDown
    let up := groupUp s g 1 = true
    let x := s.cxp g j
    let fixed := [F.CXP_LINK_SIZE g j, F.CXP_LINK_VER g j, F.CXP_LINK_PACK g j, F.CXP_LINK_CRCACT g j, F.CXP_LINK_STREAMID g j]
    let packet := Instr.cxpStreamPacket g j id tag false none
      [.start, .byte (b 0), .byte (b 1), .byte (b 2), .byte (b 3), .eol]
    let ctl := s.loadAll (v ||| 0x10000) [F.CXP_CCCTL_LINK g, F.CXP_CCCTL_LEN g]
    let len := ctl.get (F.CXP_CCCTL_LEN g)
    -- GRP_CTL and low power
    (bad → exec (.grpCtlWrite g v) s = .next (s.setIrq (F.GRP_STAT_CFG_REFUSED g) (lgPage g) 0))
    ∧ (¬ bad → rd (F.GRP_CTL_LP g) = s.get (F.GRP_CTL_LP g) → exec (.grpCtlWrite g v) s = .next set)
    ∧ (¬ bad → rd (F.GRP_CTL_LP g) = 1 → lp = false → exec (.grpCtlWrite g v) s = .next (lowPower g set))
    ∧ (¬ bad → rd (F.GRP_CTL_LP g) = 0 → lp = true → exec (.grpCtlWrite g v) s = .next (leaveLowPower g set))
    ∧ (lp = false → Does (.lowPower g) s fun t => t.flag (F.GRP_CTL_LP g) = true ∧ t.flag (F.GRP_STAT_RINGLOCK g) = false
        ∧ t.flag (F.GRP_STAT_LCLOCK g) = false
        ∧ ((∀ f < 8, linesBreak g f s = s) → Only [F.GRP_CTL_LP g, F.GRP_STAT_RINGLOCK g, F.GRP_STAT_LCLOCK g,
          F.PAIR_STAT_LINK, F.PAIR_STAT_PARTNER_READY] s t)
        ∧ (g = 31 → t.flag F.PAIR_STAT_LINK = false) ∧ (g ≠ 31 → (∀ f < 8, linesBreak g f s = s) → t.get F.PAIR_STAT_LINK = s.get F.PAIR_STAT_LINK))
    ∧ (lp = true → exec (.lowPower g) s = .next s)
    ∧ (lp = true → (s.inbox (laneRouter g)).any (fun p => p.dport == g.val % 2) = true → Does (.groupWake g) s fun t =>
        t.flag (F.GRP_CTL_LP g) = false ∧ t.flag (F.GRP_STAT_WOKEN g) = true)
    ∧ (lp = false → exec (.groupWake g) s = .next s)
    -- lanes
    ∧ (s.flag (F.GRP_CTL_EN g) = true → old ≠ 0 → lp = false → Does (.laneReady g f) s fun t =>
        t.flag (F.LN_STAT_READY g f) = true ∧ (t.get (F.GRP_STAT_READY g)).testBit f = true ∧ t.lanes.cxp = s.lanes.cxp
        ∧ t.fab = s.fab ∧ (usesLc s g f = true → t.flag (F.GRP_STAT_LCLOCK g) = true)
        ∧ (old = 1 ∨ usesLc s g f = false → t.flag (F.GRP_STAT_RINGLOCK g) = true)
        ∧ 8 * g.val + f ∈ t.lanes.trained
        ∧ (8 * g.val + f ∈ s.lanes.trained → s.flag (F.LN_CTL_ADAPT g f) = false →
            t.get (F.LN_EQ_CTLE g f) = s.get (F.LN_EQ_CTLE g f) ∧ t.get (F.LN_EQ_DFE1 g f) = s.get (F.LN_EQ_DFE1 g f)))
    ∧ (s.flag (F.GRP_CTL_EN g) = false ∨ old = 0 ∨ lp = true → exec (.laneReady g f) s = .next s)
    ∧ (s.flag (F.LN_STAT_READY g f) = true → Does (.laneLos g f) s fun t => t.flag (F.LN_STAT_READY g f) = false
        ∧ t.flag (F.LN_STAT_LOS g f) = true ∧ (t.get (F.GRP_STAT_READY g)).testBit f = false)
    ∧ (s.flag (F.LN_STAT_READY g f) = false → exec (.laneLos g f) s = .next s)
    ∧ Does (.signalDetect g f sig) s (fun t => (t.get (F.GRP_STAT_SIGDET g)).testBit f = sig.on
        ∧ t.get (F.LN_CODEERR_VALUE g f) = (if s.flag (F.GRP_CTL_EN g) = true ∧ lp = false then
          (s.count (F.LN_CODEERR_VALUE g f) sig.violations.toNat).get (F.LN_CODEERR_VALUE g f)
          else s.get (F.LN_CODEERR_VALUE g f))
        ∧ Only [F.GRP_STAT_SIGDET g, F.LN_CODEERR_VALUE g f] s t)
    -- a line of four bytes on a link of one connection
    ∧ (up → s.flag (F.CXP_LINK_EN g j) = true → s.flag (F.CXP_STAT_SPDCHG g j) = false → id.toNat = s.get (F.CXP_LINK_STREAMID g j) →
        s.get (F.CXP_LINK_SIZE g j) = 0 → s.get (F.CXP_LINK_PACK g j) = 0 → s.get (F.CXP_LINEW_WORDS g j) = 0 →
        x.src = {} → x.nextTag = none → x.ahead = [] → exec packet s = .next (((laneWrite (8 * g + j)
            ⟨b 3 ++ b 2 ++ b 1 ++ b 0, true, false, false⟩ s).setCxp g j
              { x with src := {}, nextTag := some ((tag.toNat + 1) % 256) }).count (F.CXP_PADCNT_VALUE g j) 0))
    ∧ (up → s.flag (F.CXP_LINK_EN g j) = true → s.flag (F.CXP_STAT_SPDCHG g j) = false → id.toNat ≠ s.get (F.CXP_LINK_STREAMID g j) →
        exec packet s = .next (s.count (F.CXP_OTHERID_VALUE g j) 1))
    ∧ (¬ up ∨ s.flag (F.CXP_LINK_EN g j) = false → exec packet s = .next s)
    -- the configuration and the speed of a link
    ∧ (s.flag (F.CXP_LINK_EN g j) = true → keeps s v fixed = false →
        exec (.cxpLinkWrite g j v) s = .next (s.put (F.CXP_STAT_CFG_REFUSED g j) 1))
    ∧ (s.flag (F.CXP_LINK_EN g j) = false → rd (F.CXP_LINK_EN g j) = 1 →
        j.val % 2 ^ rd (F.CXP_LINK_SIZE g j) ≠ 0 ∨ linkOverlap s g j (2 ^ rd (F.CXP_LINK_SIZE g j)) = true →
        exec (.cxpLinkWrite g j v) s = .next (s.put (F.CXP_STAT_CFG_REFUSED g j) 1))
    ∧ (s.flag (F.CXP_LINK_EN g j) = false → rd (F.CXP_LINK_EN g j) = 0 → exec (.cxpLinkWrite g j v) s
        = .next (linksRefresh g (s.loadAll v (fixed ++ [F.CXP_LINK_EN g j, F.CXP_LINK_SPEED g j]))))
    ∧ (s.flag (F.CXP_LINK_EN g j) = false → rd (F.CXP_LINK_EN g j) = 1 → j.val % 2 ^ rd (F.CXP_LINK_SIZE g j) = 0 →
        linkOverlap s g j (2 ^ rd (F.CXP_LINK_SIZE g j)) = false → exec (.cxpLinkWrite g j v) s = .next (linksRefresh g
          ((s.loadAll v (fixed ++ [F.CXP_LINK_EN g j, F.CXP_LINK_SPEED g j])).setCxp g j { trig := x.trig })))
    ∧ (s.get (F.CXP_LINK_SPEED g j) = sp → exec (.cxpSpeedChange g j sp) s = .next s)
    ∧ (s.get (F.CXP_LINK_SPEED g j) ≠ sp → s.flag (F.CXP_LINK_EN g j) = true → s.get (F.CXP_LINK_SIZE g j) = 0 →
        Does (.cxpSpeedChange g j sp) s fun t => t.get (F.CXP_LINK_SPEED g j) = sp ∧ t.flag (F.CXP_STAT_SPDCHG g j) = true
          ∧ t.flag (F.LN_STAT_READY g j) = false)
    ∧ (s.flag (F.CXP_STAT_SPDCHG g j) = true → (∀ i < 2 ^ s.get (F.CXP_LINK_SIZE g j), s.flag (F.LN_STAT_READY g (j + i)) = true) →
        exec (.speedChangeDone g j) s = .next (s.put (F.CXP_STAT_SPDCHG g j) 0))
    -- controls, acknowledgements, triggers
    ∧ (s.flag (F.CXP_CCCTL_BUSY g) = false → s.txIdle g = false → 1 ≤ len → len ≤ 64 → exec (.cxpControlSend g v) s
        = .next ((ctl.put (F.CXP_CCCTL_BUSY g) 1).emit (.cxpControl g (ctl.get (F.CXP_CCCTL_LINK g))
          (Config.cxpPacket (min (s.get (F.CXP_LINK_VER g (ctl.get (F.CXP_CCCTL_LINK g)))) 2)
            ((List.range len).map fun i => BitVec.ofNat 32 (s.get (F.CXP_CCTX_WORD g i)))))))
    ∧ (s.flag (F.CXP_CCCTL_BUSY g) = false → (s.txIdle g = true ∨ len = 0 ∨ 64 < len) → exec (.cxpControlSend g v) s
        = .next (ctl.put (F.CXP_STAT_CFG_REFUSED g (ctl.get (F.CXP_CCCTL_LINK g))) 1))
    ∧ (s.flag (F.CXP_CCCTL_BUSY g) = true → exec (.cxpControlSend g v) s
        = .next (s.put (F.CXP_STAT_CFG_REFUSED g (ctl.get (F.CXP_CCCTL_LINK g))) 1))
    ∧ (s.flag (F.CXP_CCCTL_BUSY g) = true →
        exec (.cxpControlSent g) s = .next ((s.put (F.CXP_CCCTL_BUSY g) 0).irq (cxpPage g) 8))
    ∧ (s.flag (F.CXP_CCCTL_BUSY g) = false → exec (.cxpControlSent g) s = .next s)
    ∧ (up → exec (.cxpControlReceive g j kind false words) s = .next (s.count (F.CXP_CCERR_VALUE g) 1))
    ∧ (up → (s.get (F.CXP_RXPTR_HEAD g) + 1) % 4 ≠ s.get (F.CXP_RXPTR_TAIL g) → s.get (F.CXP_RXPTR_HEAD g) < 4 →
        words.length ≤ 61 → Does (.cxpControlReceive g j kind true words) s fun t =>
          t.get (F.CXP_RXPTR_HEAD g) = (s.get (F.CXP_RXPTR_HEAD g) + 1) % 4
          ∧ (∀ i (h : i < words.length), t.get (F.CXP_RXRING_WORD g (64 * s.get (F.CXP_RXPTR_HEAD g) + (3 + i))) = words[i].toNat))
    ∧ (up → kind ≠ 1 → (s.get (F.CXP_RXPTR_HEAD g) + 1) % 4 = s.get (F.CXP_RXPTR_TAIL g) →
        exec (.cxpControlReceive g j kind true words) s = .next (s.setIrq (F.CXP_RXPTR_RXOVF g) (cxpPage g) 10))
    ∧ (up → s.lanes.acks = [] → Does (.cxpControlReceive g j 1 true words) s fun t =>
        (s.txIdle g = false → t.out = .cxpEventAck g j :: s.out ∧ t.lanes.acks = [])
        ∧ (s.txIdle g = true → t.out = s.out ∧ t.lanes.acks = [(g.val, j.val)]))
    ∧ (¬ up → exec (.cxpControlReceive g j kind on words) s = .next s)
    ∧ (∀ t0 rise l, x.trig = (t0, rise) :: l → s.txIdle g = false → s.tb8 ≤ t0 →
        exec (.triggerPacket g j) s = .next ((s.setCxp g j { x with trig := l }).emit (.cxpTrigger g j rise (t0 - s.tb8))))
    ∧ (∀ t0 rise l, x.trig = (t0, rise) :: l → s.txIdle g = false → t0 < s.tb8 → exec (.triggerPacket g j) s
        = .next ((((s.setCxp g j { x with trig := l }).emit (.cxpTrigger g j rise 0)).count (F.CXP_TRIGSTAT_LATE g j) 1).irq
          (cxpPage g) j))
    ∧ (∀ d l, x.trig = d :: l → s.txIdle g = true → exec (.triggerPacket g j) s
        = .next (((s.setCxp g j { x with trig := l }).count (F.CXP_TRIGSTAT_DROP g j) 1).irq (cxpPage g) j))
    ∧ (x.trig = [] → exec (.triggerPacket g j) s = .next s)

/-- The Ethernet clusters and their PTP clocks. A good frame is counted and placed in the receive ring; the packets of a
GVSP block unpack into lines; a frame of the transmit ring and a datagram of reports are sent; and a clock steps,
loads and is read. Derived from parts of R369, R370, R371, R372, R373, R374, R377. A command whose conditions fail
changes nothing: DESIGN CHOICE, log entry 2. The model's own choices that it rests on: log entries 74, 75, 120, 150,
152. -/
def Obligations.EthernetClusters : Prop :=
  ∀ (c : Fin 8) (p j : Fin 4) (v id corr unc : Word) (bytes : List Byte) (b : Fin 4 → Byte) (fm : PixelFormat)
    (raw up : Bool) (n : Nat) (body : GvspBody) (s : State),
    let cfg := [F.ETH_CTL_MODE c, F.ETH_CTL_FEC c, F.ETH_CTL_PORTEN c]
    let g := clusterGroup c
    let link := s.get (F.ETH_STAT_LINK c)
    let x := s.gv c j
    let e := s.ethCl c
    let slots := s.get (F.XTX_RING_SLOTS c)
    let head := s.get (F.XTX_PTR_HEAD c)
    let port := s.get (F.ETH_TXU_PORT c)
    let phc := s.phc.get c {}
    let setPhc := fun (z : Phc) => { s with phc := s.phc.set c z {} }
    let sum := 1000000000 * (phc.sec : Int) + phc.ns + v.toInt
    let poison := e.reports.any fun r => r.h0.getLsbD 5
    let seq := s.get (F.ETH_TXU_SEQ_VALUE c)
    let sent := fun (t : State) => t.ethCl c = { e with reports := [], firstAt := none, lastReport := port :: e.lastReport.erase port }
      ∧ t.get (F.ETH_TXU_SEQ_VALUE c) = (seq + 1) % 2 ^ 32 ∧ t.out = .ethFrame c port (datagramFrame s c (Config.freeNat s.freeCtr)
        (wordBytes ([BitVec.ofNat 32 seq, BitVec.ofNat 32 (e.reports.length % 2 ^ 16 + 2 ^ 16 * b2n poison)]
          ++ e.reports.flatMap reportWords))) poison :: s.out
    let cansend := e.reports ≠ [] ∧ portUp s c port = true ∧ s.txIdle g = false
      ∧ (xtxWaits s c port && e.lastReport.contains port) = false
    let fec := s.get (F.ETH_CTL_MODE c) = 1 ∨ s.get (F.ETH_CTL_MODE c) = 2 ∧ s.flag (F.ETH_CTL_FEC c) = true
    let counts := if fec then (s.count (F.ETH_FECCORR_VALUE c) corr.toNat).count (F.ETH_FECUNC_VALUE c) unc.toNat else s
    let counted := counts.put (F.ETH_RXFRM_VALUE c) (s.get (F.ETH_RXFRM_VALUE c) + 1)
    let takes := fun (i : Nat) (u : BitVec 16 × Word) => s.flag (F.GV_EN c i) = true ∧ s.get (F.GV_PORT c i) = p
      ∧ s.get (F.GV_UDPPORT c i) = u.1.toNat ∧ (s.get (F.GV_SRCIP c i) = 0 ∨ s.get (F.GV_SRCIP c i) = u.2.toNat)
    let rslots := s.get (F.XRX_RING_SLOTS c)
    let full := (s.get (F.XRX_PTR_HEAD c) + e.rx.length + 1) % rslots = s.get (F.XRX_PTR_TAIL c)
    let newMode := (F.ETH_CTL_MODE c).of v.toNat ≠ s.get (F.ETH_CTL_MODE c) ∧ s.get (F.GRP_CTL_PROTO g) = 2
    let took := s.setEthCl c { e with steered := [] }
    let gv := fun (u : State) (z : GvSrc) => Host.Outcome.next ((u.setGv c j z).count (F.GV_STAT_PAD c j) 0)
    let due := e.steered = [j.val] ∧ s.flag (F.GV_EN c j) = true
    (s.get (F.ETH_CTL_PORTEN c) = 0 ∨ keeps s v cfg = true →
      (newMode → exec (.ethCtlWrite c v) s = .next ((s.each 4 fun i u => laneRetrain g (4 * (c % 2) + i) u).loadAll v cfg))
      ∧ (¬ newMode → exec (.ethCtlWrite c v) s = .next (s.loadAll v cfg)))
    ∧ (s.get (F.ETH_CTL_PORTEN c) ≠ 0 → keeps s v cfg = false →
        exec (.ethCtlWrite c v) s = .next (s.put (F.ETH_STAT_CFG_REFUSED c) 1))
    -- frames received
    ∧ (portUp s c p = true → 64 ≤ bytes.length + 4 → bytes.length + 4 ≤ 9600 →
        (exec (.ethFrameReceive c p ⟨true, corr, unc⟩ none raw bytes) s = .next (xrxPlace c p bytes counted))
        ∧ (∀ u k, gvMatch s c p (some u) = some k → exec (.ethFrameReceive c p ⟨true, corr, unc⟩ (some u) true bytes) s
          = .next (counted.setEthCl c { e with steered := e.steered ++ [k] })))
    ∧ (∀ u k, gvMatch s c p (some u) = some k → takes k u ∧ ∀ i < k, ¬ takes i u)
    ∧ (portUp s c p = true → exec (.ethFrameReceive c p ⟨false, corr, unc⟩ none raw bytes) s
        = .next ((counts.count (F.ETH_RXERR_VALUE c) 1).irq (ethPage c) 6))
    ∧ (portUp s c p = false → exec (.ethFrameReceive c p ⟨up, corr, unc⟩ none raw bytes) s = .next s)
    -- the receive ring
    ∧ (ringOk rslots = true → full → xrxPlace c p bytes s = (s.count (F.XRX_DROP_VALUE c) 1).irq (ethPage c) 6)
    ∧ (ringOk rslots = true → ¬ full → xrxPlace c p bytes s
        = xrxPump c (e.rx.length + 1) (s.setEthCl c { e with rx := e.rx ++ [⟨p, bytes, phc.ns, phc.sec⟩] }))
    ∧ (∀ f l, ringOk rslots = true → e.rx = f :: l →
        let a := 2 ^ 14 * s.get (F.XRX_BASE_LO_ADDR c) + 2 ^ 32 * s.get (F.XRX_BASE_HI_ADDR c) + 16384 * s.get (F.XRX_PTR_HEAD c)
        let asks := wireAsk (rxKey c) (writeRequests s none (ethRouter c) (ethPort c) a (rxSlot f)) (wireRewind (rxKey c) s)
        (asks.1 = none → xrxPump c 1 s = asks.2)
        ∧ (asks.1.isSome = true → (xrxPump c 1 s).get (F.XRX_PTR_HEAD c) = (s.get (F.XRX_PTR_HEAD c) + 1) % rslots))
    -- GVSP
    ∧ (due → x.src = {} → x.place = 0 → exec (.gvspPacket c j id false (.leader fm n)) s
        = .next (((took.setGv c j { x with
            format := fm, lineItems := lineItemsOf fm n, inBlock := true, pktBytes := none, expected := some (id.toNat + 1)
            }).count (F.GV_STAT_PAD c j) 0).when (packOf fm == 2) fun u => u.put (F.GV_STAT_FMTRAW c j) 1))
    ∧ (due → x.src = {} → x.place = 0 → x.inBlock = true → x.format = .mono8 → x.lineItems = 4 →
        x.expected = some id.toNat → s.get (F.GV_LOG2N c j) = 0 →
        exec (.gvspPacket c j id false (.payload [b 0, b 1, b 2, b 3])) s
          = gv (laneWrite (clusterLane c + s.get (F.GV_BASE c j)) ⟨b 3 ++ b 2 ++ b 1 ++ b 0, true, false, false⟩ took)
            { x with expected := some (id.toNat + 1), pktBytes := some 4 })
    ∧ (due → x.src = {} → x.inBlock = false → x.expected = some 0 → x.pktBytes = none → 0 < id.toNat →
        exec (.gvspPacket c j id false (.payload bytes)) s
          = gv (lineCairn (gvCfg s c j) 0x9 (fun _ => 0xFFFF) took) { x with expected := some (id.toNat + 1) })
    ∧ (due → x.src = {} → x.place = 0 → x.expected = some id.toNat →
        exec (.gvspPacket c j id false .trailer) s = gv took { x with inBlock := false, expected := some 0, pktBytes := none })
    ∧ (due → exec (.gvspPacket c j id true body) s = .next (took.count (F.GV_STAT_ORDER c j) 1))
    ∧ (due → x.expected.any (id.toNat < ·) = true →
        exec (.gvspPacket c j id false .trailer) s = .next (took.count (F.GV_STAT_ORDER c j) 1))
    ∧ (e.steered = [j.val] → s.flag (F.GV_EN c j) = false → exec (.gvspPacket c j id raw body) s = .next took)
    ∧ (j.val ∉ e.steered → exec (.gvspPacket c j id raw body) s = .next s)
    -- frames and datagrams sent
    ∧ (∀ a, xtxHead s c = some a →
        let d := wireAsk (txKey c) (readRequests s none (ethRouter c) (ethPort c) a 16) (wireRewind (txKey c) s)
        (d.1 = none → exec (.xtxSend c) s = .next d.2)
        ∧ (∀ w, d.1 = some w →
          let w0 := descWord w
          let ps := readRequests d.2 none (ethRouter c) (ethPort c) (a + 16) (w0 % 2 ^ 14)
          let f := wireAsk (txKey c) ps d.2
          let u := f.2
          (f.1 = none → exec (.xtxSend c) s = .next u)
          ∧ (∀ l, f.1 = some l →
            let bs := (ps.zip l).flatMap fun y => replyBytes (y.1.size + 1) y.2
            let q := bitsOf w0 16 2
            (u.wire (txKey c)).op = none → (portUp u c q = false ∨ u.txIdle g = true → exec (.xtxSend c) s = .next u)
              ∧ (portUp u c q = true → u.txIdle g = false → (u.ethCl c).reports = [] → w0.testBit 20 = false →
                Does (.xtxSend c) s fun t => t.get (F.XTX_PTR_HEAD c) = (u.get (F.XTX_PTR_HEAD c) + 1) % max 1 (u.get (F.XTX_RING_SLOTS c))
                  ∧ t.out = .ethFrame c q (bs.map (·.1)) (bs.any (·.2)) :: u.out))))
    ∧ (ringOk slots = false ∨ head = s.get (F.XTX_PTR_TAIL c) → exec (.xtxSend c) s = .next s)
    ∧ (∀ r rest, s.col.outq = r :: rest → s.get F.COL_CTL_SINK = 2 → s.get F.COL_CTL_ETHCL = c →
        (maxLen s c < datagramBytes e.reports + reportBytes r → cansend → Does (.reportDatagram c) s sent)
        ∧ (datagramBytes e.reports + reportBytes r ≤ maxLen s c → exec (.reportDatagram c) s = .next s))
    ∧ (∀ t0, e.firstAt = some t0 →
        (t0 + s.get (F.ETH_TXU_HOLD_NS c) ≤ s.cycle → cansend → Does (.datagramHoldExpiry c) s sent)
        ∧ (s.cycle < t0 + s.get (F.ETH_TXU_HOLD_NS c) → exec (.datagramHoldExpiry c) s = .next s))
    ∧ (∀ src dst len fr, (ipHeader src dst len fr).length = 20 ∧ checksum (ipHeader src dst len fr) = 0)
    -- links and clocks
    ∧ (link.testBit p ≠ up → (up = true → portExists s c p = true) → Does (.ethLinkChange c p up) s fun t => (t.get (F.ETH_STAT_LINK c)).testBit p = up
        ∧ Only [F.ETH_STAT_LINK c, F.IRQ_STAT_BITS (ethPage c)] s t)
    ∧ (link.testBit p = up ∨ (up = true ∧ portExists s c p = false) → exec (.ethLinkChange c p up) s = .next s)
    ∧ (0 ≤ sum → sum < 2 ^ 48 * 1000000000 → exec (.phcStep c v) s = .next (setPhc
        { phc with sec := sum.toNat / 1000000000, ns := sum.toNat % 1000000000 }))
    ∧ exec (.phcLoad c) s = .next (setPhc { phc with sec := phc.stageSec, ns := phc.stageNs, frac := 0 })
    ∧ exec (.phcRead c) s = .next (setPhc { phc with latched := phc.sec })

/-- The resets of the whole device and the loss of a supply. Each reset leaves its cause in RST_CAUSE and every unit as
it is after reset, but for the settings store, the VAUX records and what has left the device. Derived from parts of
R426, R427, R428, R435, R436, R445, R472, R473, R486. A command whose conditions fail changes nothing: DESIGN
CHOICE, log entry 2. The model's own choices that it rests on: log entries 6, 10, 63, 86, 88. -/
def Obligations.DeviceResets : Prop :=
  ∀ (vaux hot taken : Bool) (ns : Nat) (v : Word) (a b : BitVec 10) (g : Fin 32) (f : Fin 8) (s : State),
    let fresh := fun (cause : Nat) (t : State) => t.get F.RST_CAUSE_LAST = cause
      ∧ { t with regs := [], host := {}, power := {}, out := [], freeCtr := 0, pending := [] } = State.reset
      ∧ t.out = s.out ∧ t.pending = s.pending ∧ { t.host with nvm := [] } = {} ∧ (s.host.smc = none → t.host.nvm = s.host.nvm)
    -- with no command under way, the whole state
    let cold := fun (cause : Nat) => { State.reset with
      regs := (s.regs.resetWhere (fun x => x.clr.testBit 0)).put F.RST_CAUSE_LAST cause
      host := { nvm := s.host.nvm }, power := { thermTrip := s.power.thermTrip, banksOff := s.power.banksOff }
      out := s.out, freeCtr := s.freeCtr + 1, pending := s.pending }
    let low := a.toNat < s.get F.BO_RESET_MV ∧ b.toNat < s.get F.BO_RESET_MV
    let key := F.RST_CTL_KEY.of v.toNat = 0xC4
    (vaux = true ∨ s.power.off = false → Does (.powerOn vaux hot) s fun t => fresh (if vaux then 1 else 2) t
      ∧ t.power = { thermTrip := s.power.thermTrip && hot, banksOff := s.power.banksOff }
      ∧ (vaux = true → t.get F.BO_CNT_VALUE = 0 ∧ t.get F.BO_MIN_MV = 0x3FF ∧ t.get F.BO_DUR_US = 0))
    ∧ (vaux = false → s.power.off = true → exec (.powerOn vaux hot) s = .next s)
    ∧ ((1000 ≤ ns ∨ (100 ≤ ns ∧ taken = true)) → Does (.resetNLow ns taken) s (fresh 4)
        ∧ (s.host.smc = none → exec (.resetNLow ns taken) s = .next (cold 4)))
    ∧ (ns < 100 ∨ (ns < 1000 ∧ taken = false) → exec (.resetNLow ns taken) s = .next s)
    ∧ (key → Does (.cold v) s (fresh 5) ∧ (s.host.smc = none → exec (.cold v) s = .next (cold 5)))
    ∧ (¬ key → exec (.cold v) s = .next (s.put F.RST_STAT_BADKEY 1))
    ∧ (low → Does (.brownoutReset a b) s fun t => fresh 3 t ∧ t.get F.BO_MIN_MV ≤ b.toNat)
    ∧ (¬ low → exec (.brownoutReset a b) s = .next s)
    ∧ (exec .thermtrip s = .next { s with power := { s.power with thermTrip := true } })
    ∧ Does .powerDown s (fun t => fresh 1 t ∧ t.power = { off := true, banksOff := s.power.banksOff })
    ∧ Does .hbmRailLoss s (fun t => t.mem = { s.mem with hbm := [] } ∧ t.power = { s.power with hbmRailLost := true }
        ∧ t.flag F.HBM_STAT_READY0 = false ∧ t.flag F.HBM_STAT_READY1 = false
        ∧ Only [F.HBM_STAT_READY0, F.HBM_STAT_READY1, F.IRQ_STAT_BITS hbmGlobalPage] { s with mem := t.mem, power := t.power } t)
    ∧ Does .laneRailLoss s (fun t => t.flag (F.LN_STAT_READY g f) = false
        ∧ (s.flag (F.LN_STAT_READY g f) = true → t.flag (F.LN_STAT_LOS g f) = true))

/-- The warm reset, phase by phase, and the resets of one massif, one Caller and one lane group. Derived from parts of
R429, R430, R431, R432, R433, R434, R435. A command whose conditions fail changes nothing: DESIGN CHOICE, log entry
2. The model's own choices that it rests on: log entries 36, 85, 89, 160, 167. -/
def Obligations.WarmAndBlockResets : Prop :=
  ∀ (m m' : Fin 64) (g : Fin 32) (j : Fin 8) (n : Fin 256) (v : Word) (s : State),
    let key := F.RST_CTL_KEY.of v.toNat = 0xC4
    let asked := s.flag F.RST_STAT_WARM_BUSY = true ∨ s.flag F.RST_STAT_DEFERRED = true
    let busy := s.flag F.CMD_STAT_BUSY = true
    let rest := s.get F.REST_STAT_STATE
    let starts := fun (t : State) => t.flag F.RST_STAT_WARM_BUSY = true ∧ t.flag F.RST_STAT_DEFERRED = false
      ∧ t.power = { s.power with warmPhase := 1, warmAt := s.cycle, warmAfterRest := false }
      ∧ t.flag (F.SEQ_STAT_RUNNING m) = false ∧ t.mem = s.mem ∧ t.cores = s.cores ∧ t.ridge = s.ridge
    let phase := s.power.warmPhase
    let drained := warmLeft s = false ∨ s.power.warmAt + s.get F.RST_DRAINLIM_NS ≤ s.cycle
    let held := s.loadHold = true ∨ (s.massif m).held = true
    let refused := s.setIrq (F.MRST_STAT_REFUSED m) (pwrPage m) 3
    -- WARM
    (¬ key → exec (.warm v) s = .next (s.put F.RST_STAT_BADKEY 1))
    ∧ (key → asked ∨ s.power.warmAfterRest = true → exec (.warm v) s = .next s)
    ∧ (key → ¬ asked → s.power.warmAfterRest = false → busy → exec (.warm v) s = .next (s.put F.RST_STAT_DEFERRED 1))
    ∧ (key → ¬ asked → s.power.warmAfterRest = false → ¬ busy →
        (rest ≠ 2 → rest ≠ 3 → Does (.warm v) s starts)
        ∧ (rest = 2 → Does (.warm v) s fun t => t.get F.REST_STAT_STATE = 3 ∧ t.power.warmAfterRest = true
          ∧ t.power.restWoken = [])
        ∧ (rest = 3 → exec (.warm v) s = .next { s with power := { s.power with warmAfterRest := true } }))
    ∧ (s.flag F.RST_STAT_DEFERRED = true → ¬ busy → Does .warmDeferredStart s starts)
    ∧ (s.flag F.RST_STAT_DEFERRED = false ∨ busy → exec .warmDeferredStart s = .next s)
    -- its phases
    ∧ (phase = 1 → drained → exec .warmDrainDone s = .next { s.when (warmLeft s) fun t => t.put F.RST_STAT_DRAIN_TO 1 with
        power := { s.power with warmPhase := 2 } })
    ∧ (phase ≠ 1 ∨ ¬ drained → exec .warmDrainDone s = .next s)
    ∧ (phase = 2 → l2Busy (l2WriteBack s) = true → exec .writeBackDone s = .next (l2WriteBack s))
    ∧ (phase = 2 → l2Busy (l2WriteBack s) = false → Does .writeBackDone s fun t => t.power = { s.power with warmPhase := 3 }
        ∧ (∀ k, s.power.trained.contains k = true → k < 2 → t.flag (if k = 0 then F.HBM_STAT_READY0 else F.HBM_STAT_READY1) = false)
        ∧ (∀ l, (t.cores.l2.get l none).any (·.dirty) = false)
        ∧ t.mem.shelf = s.mem.shelf)
    ∧ (phase ≠ 2 → exec .writeBackDone s = .next s)
    ∧ (phase = 3 → Does .clearDone s fun t => t.power.warmPhase = 4 ∧ t.tile m n = {} ∧ t.core m = {} ∧ t.pair = {}
        ∧ t.cores.l2 = [] ∧ t.flag (F.SEQ_STAT_RUNNING m) = false ∧ t.mem.shelf = s.mem.shelf ∧ t.mem.hbm = s.mem.hbm
        ∧ t.fab.slots = s.fab.slots ∧ t.pos = s.pos ∧ t.tempo = s.tempo ∧ t.tb = s.tb)
    ∧ (phase ≠ 3 → exec .clearDone s = .next s)
    ∧ (phase = 4 → Does .warmResumeDone s fun t => t.power.warmPhase = 0 ∧ t.flag F.RST_STAT_WARM_BUSY = false
        ∧ t.get F.RST_WARMCNT_VALUE = (s.get F.RST_WARMCNT_VALUE + 1) % 2 ^ 32
        ∧ (s.loadHold = true → t.cores = s.cores ∧ t.pair = s.pair)
        ∧ (s.loadHold = false → s.host.loads.starts = [] → s.flag F.PAIR_CFG_EN = true → pairState t = pHello))
    ∧ (phase ≠ 4 → exec .warmResumeDone s = .next s)
    -- a massif, a Caller, a lane group
    ∧ (held → exec (.massifReset m) s = .next refused ∧ exec (.callerReset m) s = .next refused)
    ∧ (¬ held → asked → exec (.massifReset m) s = .next s ∧ exec (.callerReset m) s = .next s)
    ∧ (¬ held → ¬ asked → Does (.massifReset m) s fun t => t.tile m n = {} ∧ t.core m = {} ∧ t.flag (F.CL_CTL_RUN m) = false
        ∧ t.flag (F.SEQ_STAT_RUNNING m) = false ∧ t.queue m (n.val % 32) = {}
        ∧ (t.massif m).resetHold = decide (s.get (F.PWR_STAT_STATE m) ≠ 3) ∧ t.mem.shelf = s.mem.shelf
        ∧ (t.fab.cols.get (256 * m + n) {}).words = [] ∧ (s.get (F.PWR_STAT_STATE m) = 3 → (t.massif m).withheld = [])
        ∧ t.fab.slots = s.fab.slots ∧ (m' ≠ m → t.tile m' n = s.tile m' n ∧ t.core m' = s.core m'))
    ∧ ((s.massif m).resetHold = true → Does (.massifResetDone m) s fun t => (t.massif m).resetHold = false
        ∧ (t.massif m).withheld = [] ∧ t.fab.cols = s.fab.cols ∧ t.fab.feeds = s.fab.feeds ∧ t.regs = s.regs)
    ∧ ((s.massif m).resetHold = false → exec (.massifResetDone m) s = .next s)
    ∧ (¬ held → ¬ asked → (s.massif m).resetHold = true → exec (.callerReset m) s = .next s)
    ∧ (¬ held → ¬ asked → (s.massif m).resetHold = false → Does (.callerReset m) s fun t => t.core m = {} ∧ t.fab = s.fab
        ∧ { t.mem with shelves := s.mem.shelves } = s.mem ∧ t.cores.ram = s.cores.ram ∧ (m' ≠ m → t.core m' = s.core m'))
    ∧ (s.get (F.GRP_CTL_PROTO g) = 3 → exec (.laneGroupReset g) s = .next (s.setIrq F.RST_STAT_LG_REFUSED resetPage 1))
    ∧ (s.get (F.GRP_CTL_PROTO g) ≠ 3 → Does (.laneGroupReset g) s fun t => (t.get F.RST_LG_BITS).testBit g = true
        ∧ t.cxp g j = {} ∧ t.mem = s.mem ∧ t.cores = s.cores)
    ∧ ((s.fresh F.RST_LG_BITS).testBit g = false →
        Does (.laneGroupResetDone g) s fun t => (t.get F.RST_LG_BITS).testBit g = false ∧ Only [F.RST_LG_BITS] s t)
    ∧ ((s.fresh F.RST_LG_BITS).testBit g = true → exec (.laneGroupResetDone g) s = .next s)

/-- Rest. Entry is refused while a command, a warm reset or a load is under way; otherwise the massifs are asked to
gate; it proceeds when all have and the Lead Callers are idle, or is given up after REST_TO; and an exit wakes the
massifs of the mask and ends when what it woke is back. Derived from parts of R429, R440, R441. A command whose
conditions fail changes nothing: DESIGN CHOICE, log entry 2. The model's own choices that it rests on: log entries
57, 87, 89, 161. -/
def Obligations.Rest : Prop :=
  ∀ (m : Fin 64) (s : State),
    let st := s.get F.REST_STAT_STATE
    let hindered := s.flag F.CMD_STAT_BUSY = true ∨ s.flag F.RST_STAT_WARM_BUSY = true ∨ s.flag F.RST_STAT_DEFERRED = true
      ∨ s.loadHold = true
    let asked := (List.range 64).filter fun k => s.get (F.PWR_STAT_STATE k) == 0 || s.get (F.PWR_STAT_STATE k) == 4
    let idle := (∀ i < 4, s.flag (fRunning (64 + i)) = false ∨ (s.core (64 + i)).wfi = true)
      ∧ (∀ k < 64, s.get (F.PWR_STAT_STATE k) = 3)
    let due := s.power.restAt + s.get F.REST_TO_US * 1000 ≤ s.cycle
    let mask := fun (k : Nat) => (s.get (if k < 32 then F.REST_WAKEMASK_LO_BITS else F.REST_WAKEMASK_HI_BITS)).testBit (k % 32)
    let back := (∀ k ∈ s.power.restWoken, s.massifUp k = true)
      ∧ (∀ k < 4, s.get (F.FPLL_FREQ k) = 0 ∨ s.flag (F.FPLL_LOCK k) = true)
    (hindered → exec .restEnter s = .next (s.setIrq F.REST_STAT_REFUSED powerPage 3))
    ∧ (¬ hindered → st ≠ 0 → exec .restEnter s = .next s)
    ∧ (¬ hindered → st = 0 → Does .restEnter s fun t => t.get F.REST_STAT_STATE = 1
        ∧ t.power = { s.power with restAsked := asked, restAt := s.cycle }
        ∧ (s.get (F.PWR_STAT_STATE m) = 0 → (s.massif m).held = false → t.get (F.PWR_STAT_STATE m) = 1))
    ∧ (st = 1 → s.power.warmPhase = 0 → idle → l2Busy (l2WriteBack s) = true →
        exec .restEntryProceed s = .next (l2WriteBack s))
    ∧ (st = 1 → s.power.warmPhase = 0 → idle → l2Busy (l2WriteBack s) = false → Does .restEntryProceed s fun t => t.get F.REST_STAT_STATE = 2
        ∧ t.mem.shelf = s.mem.shelf
        ∧ (∀ k < 2, s.power.trained.contains k = true → t.flag (if k = 0 then F.HBM_STAT_READY0 else F.HBM_STAT_READY1) = false)
        ∧ (∀ g < 32, s.get (F.GRP_CTL_PROTO g) = 1 → t.flag (F.GRP_CTL_LP g) = true)
        ∧ (∀ k < 4, s.flag F.REST_CFG_SCRUB = false → t.flag (F.FPLL_LOCK k) = false))
    ∧ (st ≠ 1 ∨ s.power.warmPhase ≠ 0 ∨ ¬ idle → exec .restEntryProceed s = .next s)
    ∧ (st = 1 → due → ¬ idle → Does .restTimeout s fun t => t.get F.REST_STAT_STATE = 0 ∧ t.flag F.REST_STAT_ABORTED = true
        ∧ (s.power.restAsked = [] → Only [F.REST_STAT_STATE, F.REST_STAT_ABORTED, F.IRQ_STAT_BITS powerPage] s t)
        ∧ (s.power.restAsked = [m.val] → s.get (F.PWR_STAT_STATE m) = 1 → (s.massif m).held = false →
          t.get (F.PWR_STAT_STATE m) = 0))
    ∧ (st ≠ 1 ∨ ¬ due ∨ idle → exec .restTimeout s = .next s)
    ∧ (st = 2 → Does .restExit s fun t => t.get F.REST_STAT_STATE = 3 ∧ t.power.restWoken = (List.range 64).filter mask
        ∧ (mask m = true → s.get (F.PWR_STAT_STATE m) = 3 → t.get (F.PWR_STAT_STATE m) = 4)
        ∧ (mask m = false → t.get (F.PWR_STAT_STATE m) = s.get (F.PWR_STAT_STATE m)))
    ∧ (st ≠ 2 → exec .restExit s = .next s)
    ∧ (st = 3 → back → Does .restExitDone s fun t => t.get F.REST_STAT_STATE = 0 ∧ t.power.restWoken = []
        ∧ t.power.restGroups = [] ∧ (s.power.warmAfterRest = true → t.power.warmPhase = 1)
        ∧ (s.power.warmAfterRest = false → t.power.warmPhase = s.power.warmPhase ∧ t.cores = s.cores ∧ t.fab = s.fab))
    ∧ (st ≠ 3 ∨ ¬ back → exec .restExitDone s = .next s)

/-- The release of a load. A load that waits is released when its encoder reaches CFG_REL_POS, when CFG_REL leaves
position mode, or late, when RELEASE_AT brings a position already passed; the release starts the sequencers and the
cores that the image named. Derived from parts of R259, R416, R418, R419, R420, R421, R423. A command whose
conditions fail changes nothing: DESIGN CHOICE, log entry 2. The model's own choices that it rests on: log entries
65, 80, 84. -/
def Obligations.LoadRelease : Prop :=
  ∀ (p : Fin 4) (origin : BitVec 14) (group : Byte) (tpc : Fin 16) (pos : Pos48) (v : Word) (m : Fin 64) (j : Fin 512) (s : State),
    let enc := s.get F.CFG_REL_ENC
    let waits := s.get F.CFG_STAT_STATE = 2 ∨ s.flag F.CFG_STAT_MRARMED = true
    let at_ := fun (t : State) => reached (t.encPos enc) (BitVec.ofNat 48 (t.get2 F.CFG_REL_POS_LO_VALUE F.CFG_REL_POS_HI_VALUE)) = true
    let frame := fun (id : Nat) (arg : Dword) => TempoFrame.ctrl id 0x10 arg
    let mine := s.flag F.CFG_REL_MODE = true ∧ s.get F.CFG_REL_GROUP = group.toNat ∧ s.flag (F.TMP_FOLLOW_EN enc) = true
      ∧ s.get (F.TMP_FOLLOW_TPC enc) = tpc
    let moved := s.put2 F.CFG_REL_POS_LO_VALUE F.CFG_REL_POS_HI_VALUE pos.toNat
    let rel := s.loadAll v [F.CFG_REL_MODE, F.CFG_REL_ENC, F.CFG_REL_GROUP]
    let state := s.get F.CFG_STAT_STATE
    let a := (cfgWin s + 4 * j) % 2 ^ 35
    let ch := (hbmMap s a).1
    let word : Packet := { dst := hbmRouter ch, dport := hbmPort ch, src := smcRouter, sport := 2, vn := 1, typ := 1
                           addr := a, size := 3, data := (List.range 4).map fun i => (byteOf v i, true) }
    -- RELEASE_AT
    (mayFlood s = true → exec .releaseAtSend s = .next (flood (frame (s.get F.TMP_ID_ID) (BitVec.ofNat 64
        (s.get F.CFG_REL_GROUP + 2 ^ 8 * s.get (F.TMP_FOLLOW_TPC enc) + 2 ^ 16 * (BitVec.ofNat 48
          (s.get2 F.CFG_REL_POS_LO_VALUE F.CFG_REL_POS_HI_VALUE)).toNat))) none s))
    ∧ (mayFlood s = false → exec .releaseAtSend s = .next s)
    ∧ (exec (.releaseAt p origin group tpc pos) s = .next (recvFlooded p origin.toNat
        (frame origin.toNat (BitVec.ofNat 64 (group.toNat + 2 ^ 8 * tpc + 2 ^ 16 * pos.toNat)))
        (releaseAtAct group.toNat tpc pos) s))
    ∧ (¬ mine → releaseAtAct group.toNat tpc pos s = s)
    ∧ (mine → ¬ waits ∨ ¬ at_ moved → releaseAtAct group.toNat tpc pos s = moved)
    ∧ (mine → waits → at_ moved →
        releaseAtAct group.toNat tpc pos s = releaseNow (moved.setIrq F.CFG_STAT_REL_LATE cfgPage 2))
    -- CFG_REL and the position
    ∧ (waits → at_ s → exec .release s = .next (releaseNow s))
    ∧ (¬ waits ∨ ¬ at_ s → exec .release s = .next s)
    ∧ (F.CFG_REL_MODE.of v.toNat = 1 ∨ ¬ waits → exec (.cfgRelWrite v) s = .next rel)
    ∧ (F.CFG_REL_MODE.of v.toNat = 0 → waits → exec (.cfgRelWrite v) s = .next (releaseNow rel))
    -- what the release does
    ∧ (s.host.loads.staged = none → releaseNow s = s)
    ∧ (∀ x, s.host.loads.staged = some x → x.massif = none →
        (releaseNow s).get F.CFG_STAT_STATE = 3 ∧ (releaseNow s).host.loads.staged = none
        ∧ (releaseNow s).get F.CFG_LOADCNT_VALUE = (s.get F.CFG_LOADCNT_VALUE + 1) % 2 ^ 32
        ∧ (releaseNow s).get2 F.CFG_VERSION_LO_VALUE F.CFG_VERSION_HI_VALUE = x.info.version.toNat
        ∧ (∀ i < 12, (releaseNow s).get (F.CFG_DIGEST_VALUE i) = (x.info.digest.getD i 0).toNat)
        ∧ ((releaseNow s).massif m).held = false
        ∧ (x.runs.contains m.val = false → (releaseNow s).flag (F.SEQ_STAT_RUNNING m) = false)
        ∧ (x.runs.contains m.val = true → (s.get (F.SLOT_VALID_BITS m)).testBit (s.get (F.SEQ_CTL_INIT_SLOT m)) = true →
          badStep (stepEntry s m (s.get (F.SEQ_CTL_INIT_STEP m) % 2 ^ 6)) = false →
          (releaseNow s).flag (F.SEQ_STAT_RUNNING m) = true)
        ∧ (x.callers.contains m.val = true → (releaseNow s).flag (F.CL_CTL_RUN m) = true)
        ∧ (∀ i < 4, x.starts.contains i = true → (releaseNow s).flag (fRunning (64 + i)) = true))
    ∧ (∀ x, s.host.loads.staged = some x → x.massif = some m.val →
        (releaseNow s).flag F.CFG_STAT_MRARMED = false ∧ ((releaseNow s).massif m).held = false
        ∧ (releaseNow s).get F.CFG_STAT_STATE = s.get F.CFG_STAT_STATE
        ∧ (releaseNow s).get F.CFG_RELOADCNT_VALUE = (s.get F.CFG_RELOADCNT_VALUE + 1) % 2 ^ 32
        ∧ (releaseNow s).host.loads.log = ((m.val, s.tb.truncate 32, x.info.digest) :: s.host.loads.log).take 8
        ∧ (releaseNow s).host.loads.staged = none)
    -- the load window
    ∧ (s.flag F.HBM_CTL_EN = false ∨ state = 1 ∨ state = 2 ∨ s.flag F.CMD_STAT_BUSY = true →
        exec (.loadWindowWrite j v) s = .next (smcRefused s))
    ∧ (s.flag F.HBM_CTL_EN = true → state ≠ 1 → state ≠ 2 → s.flag F.CMD_STAT_BUSY = false → s.host.winWait = [] →
        (freeTag s smcRouter = none →
          exec (.loadWindowWrite j v) s = .next { s with host := { s.host with winWait := [word] } })
        ∧ (∀ tag, freeTag s smcRouter = some tag → Does (.loadWindowWrite j v) s fun t =>
            t.niQueue smcRouter 1 = s.niQueue smcRouter 1 ++ [{ word with tag := tag }]
            ∧ t.outReqs smcRouter = s.outReqs smcRouter ++ [⟨tag, .endpoint 2, false⟩] ∧ t.host = s.host ∧ t.mem = s.mem))

/-- Reports. A massif that holds a credit sends the report of the queue whose turn it is; the collector selects by round
robin or by position, gives the credit back, and its output stage hands each report to the sink, or to the hold ring
of a quiet member of a pair. Derived from parts of R150, R153, R154, R155, R156, R157, R158, R208, R290. A command
whose conditions fail changes nothing: DESIGN CHOICE, log entry 2. The model's own choices that it rests on: log
entries 53, 67, 115, 119. -/
def Obligations.Reports : Prop :=
  ∀ (m : Fin 64) (q : Fin 32) (i : Fin 64) (struck : List (Fin 18)) (bad : List (Fin 20)) (bytes : List Byte) (r0 : Report) (rest : List Report) (s : State),
    let u := unread s m q
    let x := s.queue m q
    let forms := sinksRun s m = true ∧ 0 < credits s m
    let turn := s.flag (F.SQ_CTL_EN m q) = true ∧ s.get (F.SQ_CTL_RSINK m q) = 2 ∧ s.col.rr.get m 0 = q
    let mk := fun (w : SWord) => 32 * b2n w.p + 64 * b2n w.m + 2 ^ 8 * m.val + 2 ^ 14 * q.val
    let head := fun (w : SWord) (stamp : Pos48) => [BitVec.ofNat 32 (mk w), BitVec.ofNat 32 (b2n w.p + 2 ^ 16 * b2n w.m),
      stamp.truncate 32, BitVec.ofNat 32 (stamp.toNat / 2 ^ 32 + 2 ^ 16 * (x.rseq % 2 ^ 16))]
    let ready := fun (k : Nat) => inputEnabled s k = true ∧ colInput s k ≠ []
    let order := s.flag F.COL_CTL_ORDER = true
    let dist := fun (k : Nat) => (k + 64 - s.col.pointer) % 64
    let ahead := fun (k l : Nat) => stampLess (headStamp s k) (headStamp s l) = true ∧ stampLess (headStamp s l) (headStamp s k) = false
    let able := s.flag F.COL_CTL_EN = true ∧ s.col.outq.length < 256
    let r := reportParity (bad.map Fin.val) r0
    let late := order ∧ s.col.lastStamp.any (stampLess r.stamp) = true
    let stands := s.loadHold = true ∨ s.power.warmPhase ≠ 0
    let direct := pairState s ≠ pActive ∨ s.pair.hold = []
    let s0 := { s with col := { s.col with outq := r :: rest } }
    -- forming a report: here a packet of one word
    (¬ forms → exec (.reportForm m struck) s = .next s)
    ∧ ((∀ k < 32, reportReady s m k = false) → exec (.reportForm m struck) s = .next s)
    ∧ (∀ a, forms → turn → u = [a] → a.w.e = true → s.flag (F.SQ_AUX_STAMPSRC m q) = false → Does (.reportForm m struck) s fun t =>
        let w := { a.w with p := a.w.p || a.bad || struck.contains 0 }
        t.niQueue m 3 = s.niQueue m 3 ++ [{
          dst := 92, dport := 2, src := m, sport := 1, vn := 3, typ := 1, size := 0, words := head w a.stamp ++ [a.w.d] }]
        ∧ credits t m = credits s m - 1 ∧ t.col.rr.get m 0 = (q.val + 1) % 32
        ∧ (t.queue m q).rseq = x.rseq + 1)
    -- the choice
    ∧ (¬ order → s.col.pointer < 64 → ready i → (∀ k < 64, ready k → dist i ≤ dist k) → colPick s = some i.val)
    ∧ (order → (∀ k < 64, inputEnabled s k = true → colInput s k ≠ []) → ready i →
        (∀ k < 64, k ≠ i.val → inputEnabled s k = true → ahead i k) → colPick s = some i.val)
    ∧ ((∀ k < 64, ¬ ready k) → colPick s = none)
    ∧ (¬ able ∨ colPick s = none → exec (.collectorSelect bad) s = .next s)
    ∧ (able → colPick s = some i.val → colInput s i = r0 :: rest → Does (.collectorSelect bad) s fun t =>
        colInput t i = rest ∧ credits t i = credits s i + 1 ∧ t.col.lastStamp = some r.stamp
        ∧ t.col.pointer = (if s.flag F.COL_CTL_ORDER then s.col.pointer else (i.val + 1) % 64)
        ∧ (late → t.col.outq = s.col.outq ++ [{ r with h0 := r.h0 ||| 0x80 }] ∧ t.flag F.COL_STAT_ORDER_VIOL = true)
        ∧ (¬ late → t.col.outq = s.col.outq ++ [r]))
    -- the output
    ∧ (stands → exec (.collectorOutput bytes bad) s = .next s)
    ∧ (direct → s.col.outq = [] → exec (.collectorOutput bytes bad) s = .next s)
    ∧ (¬ stands → direct → s.col.outq = r0 :: rest →
        (s.pairQuiet = true → exec (.collectorOutput bytes bad) s = .next (colPassed (digestAdd r (holdReport r s0))))
        ∧ (s.pairQuiet = false → (sinkTakes r bytes s0).1 = true →
          exec (.collectorOutput bytes bad) s = .next (colPassed (digestAdd r (sinkTakes r bytes s0).2)))
        ∧ (s.pairQuiet = false → (sinkTakes r bytes s0).1 = false →
          exec (.collectorOutput bytes bad) s = .next (sinkTakes r bytes s0).2)
        ∧ (pairState s = pOff → s.get F.COL_CTL_SINK = 2 → s.flag (F.ETH_TXU_EN (s.get F.COL_CTL_ETHCL)) = true →
          datagramBytes (s.ethCl (s.get F.COL_CTL_ETHCL)).reports + reportBytes r ≤ maxLen s (s.get F.COL_CTL_ETHCL) →
          Does (.collectorOutput bytes bad) s fun t => t.col.outq = rest
            ∧ t.get F.COL_OUTCNT_VALUE = (s.get F.COL_OUTCNT_VALUE + 1) % 2 ^ 32
            ∧ (t.ethCl (s.get F.COL_CTL_ETHCL)).reports = (s.ethCl (s.get F.COL_CTL_ETHCL)).reports ++ [r]))
    ∧ (∀ k, ¬ stands → pairState s = pActive → s.pair.hold = (k, r0) :: [] → (sinkTakes r0 bytes s).1 = true →
        exec (.collectorOutput bytes bad) s
          = .next { (sinkTakes r0 bytes s).2 with pair := { (sinkTakes r0 bytes s).2.pair with hold := [] } })

/-- The PCIe endpoints. A link trains within PCI_CTL; an endpoint reset takes the channels, the pending messages and the
mailbox of its endpoint; BAR0 and BAR2 requests become packets or are refused and counted; a vector that rises sends
the message of its table entry, or stays pending while anything masks it; and a DMA channel works on the descriptor
at HEAD, by requests over the Ridge. Derived from parts of R380, R381, R382, R383, R384, R385, R386, R403. A command
whose conditions fail changes nothing: DESIGN CHOICE, log entry 2. The model's own choices that it rests on: log
entries 77, 78, 79, 118, 120, 153. -/
def Obligations.HostEndpoints : Prop :=
  ∀ (e : Fin 2) (kind : EndpointReset) (tag : BitVec 10) (write ep bad : Bool) (addr : BitVec 26) (hbm : BitVec 35)
    (d v : Word) (bytes : List (Byte × Bool)) (vec : Fin 256) (c : Fin 16) (err : Fin 4) (raw : List Byte) (data : List (Byte × Bool))
    (acc : MsixAccess) (off : BitVec 13) (s : State),
    let n := if e = 0 then 64 else 72
    let f := fn s e
    let talks := s.listens (16 * e.val) = false ∧ s.listens (16 * e.val + 1) = false
    let up := s.flag (F.PCI_STAT_LINKUP e) = true ∧ talks
    let serves := up ∧ f.d3hot = false
    let trains := s.get (F.GRP_CTL_PROTO (16 * e)) = 3 ∧ s.flag F.CMD_STAT_READY = true ∧ s.flag (F.PCI_STAT_LINKUP e) = false
      ∧ s.flag (F.PCI_STAT_PERST e) = false ∧ talks
    let g := s.get (F.PCI_CTL_MAXGEN e)
    let w := s.get (F.PCI_CTL_MAXW e)
    let topGen := if 1 ≤ g ∧ g ≤ 5 then g else 5
    let topW := if w = 1 ∨ w = 2 ∨ w = 4 ∨ w = 8 then w else 16
    let width := fun (k : Nat) => if 16 ≤ k then 16 else if 8 ≤ k then 8 else if 4 ≤ k then 4 else if 2 ≤ k then 2 else 1
    -- what a request does before anything else, and how it is refused
    let s0 := s.when (write && ep) fun t => t.count (F.PCI_POISONRX_VALUE e) 1
    let ur := fun (t : State) => t.emit (.completion e tag.toNat true [] false)
    let counted := fun (t : State) => t.count (F.PCI_BADREQ_VALUE e) 1
    let room := (freeTag s n).isSome = true
    let bar2Held := write = false ∧ bar2Waits s e = true
    let parts := fun (t : State) => t.host.bar2Parts.get e []
    let hold := s.get F.CFG_STAT_STATE = 1 ∨ s.get F.CFG_STAT_STATE = 2
    let channel := (hbmMap s hbm.toNat).1
    let whole : Packet := {
      dst := hbmRouter channel, dport := hbmPort channel, src := n, sport := 2, vn := 1, typ := if write then 1 else 0,
      addr := hbm.toNat, size := bytes.length - 1, data := if write then bytes else [],
      pmask := if write && ep then fullMask bytes.length else 0 }
    let key := e.val * 256 + vec.val
    let entry := msixEntry s e vec
    let isOpen := f.enable = true ∧ f.mask = false ∧ f.busMaster = true ∧ serves ∧ entry.control.getLsbD 0 = false
    let halts := s.host.haltMsi.get e false = true ∧ vec.val = s.get F.DIST_CTL_HALTVEC
    let rises := (vectorOr s e vec = true ∨ halts) ∧ s.host.msixOr.get key false = false ∧ s.flag F.DIST_CTL_EN = true
    let pend := fun (t : State) => t.host.msixPend.get key false
    let runs := s.flag (F.DMA_CTL_EN e c) = true ∧ s.get (F.DMA_HEAD_INDEX e c) ≠ s.get (F.DMA_TAIL_INDEX e c)
      ∧ s.flag (F.DMA_STAT_STOPPED e c) = false ∧ serves ∧ s.loadHold = false ∧ s.power.warmPhase = 0
    let dir := if s.get (F.DMA_CTL_DIR e c) = 3 then 0 else s.get (F.DMA_CTL_DIR e c)
    let ctl := s.loadAll v [F.DMA_CTL_EN e c, F.DMA_CTL_DIR e c]
    let x := descOf raw
    let dev := x.devAddr.toNat
    let chan := dmaChan s e c
    let desc := BitVec.ofNat 64 (2 ^ 6 * s.get (F.DMA_RBASE_LO_ADDR e c) + 2 ^ 32 * s.get (F.DMA_RBASE_HI_ADDR e c)
      + 32 * s.get (F.DMA_HEAD_INDEX e c))
    let reads := s.emit (.dmaRead e c desc 32)
    let whole32 := raw.length = 32 ∧ leField raw 28 4 = 0
    let begins := fun (w : DmaWork) (t : State) => Host.Outcome.next (dmaWork e c w (setDmaChan e c { work := some w } t))
    let early := err ≠ 0 ∧ (raw.length ≠ 32 ∨ dir = 0)
    let good := whole32 ∧ x.len ≠ 0 ∧ dev < 2 ^ 35 ∧ dev + x.len ≤ 2 ^ 35
    let full := dmaNamed s e c = true ∧ ∃ b r rest, (dmaChan s e c).buf = some b ∧ s.col.outq = r :: rest ∧ b.len < (dmaChan s e c).used + reportBytes r
    let next := (s.get (F.DMA_HEAD_INDEX e c) + 1) % ringSize s e c
    -- the link and its reset
    (∀ (a : Fin 8) (b : Fin 32), trains → Does (.pcieLinkUp e a b) s fun t => t.flag (F.PCI_STAT_LINKUP e) = true
        ∧ t.get (F.PCI_STAT_GEN e) = min (max 1 a.val) topGen ∧ t.get (F.PCI_STAT_WIDTH e) = width (min b.val (min topW f.width)))
    ∧ (∀ (a : Fin 8) (b : Fin 32), ¬ trains → exec (.pcieLinkUp e a b) s = .next s)
    ∧ (kind ≠ .perst false → Does (.endpointReset e kind) s fun t => dmaChan t e c = {} ∧ msixEntry t e vec = {}
        ∧ fn t e = { width := f.width, ids := f.ids } ∧ pend t = false ∧ t.host.haltMsi.get e false = false
        ∧ (∀ o : Fin 2, o ≠ e → dmaChan t o c = dmaChan s o c)
        ∧ (kind ≠ .function → t.flag (F.PCI_STAT_LINKUP e) = false ∧ t.get (F.PCI_STAT_GEN e) = 0)
        ∧ (kind = .perst true → t.flag (F.PCI_STAT_PERST e) = true)
        ∧ (s.get F.MBX_OWN_OWNER = e.val + 1 → t.get F.MBX_OWN_OWNER = 0)
        ∧ (∀ r ∈ t.outReqs n, ∀ o k wr j, r.owner = .bar0 o k wr ∨ r.owner = .bar2 o k wr j → r.expired = true)
        ∧ parts t = [] ∧ (∀ r ∈ t.host.bar2Reads, r.e ≠ e)
        ∧ t.mem = s.mem ∧ t.cores = s.cores)
    ∧ exec (.endpointReset e (.perst false)) s = .next (s.put (F.PCI_STAT_PERST e) 0)
    -- BAR0
    ∧ (¬ up → exec (.bar0Request e tag write addr d ep bad) s = .next s ∧ exec (.bar2Request e tag write hbm bytes ep) s = .next s)
    ∧ (up → f.d3hot = true → exec (.bar0Request e tag write addr d ep bad) s = .next (if write then s else ur s)
        ∧ exec (.bar2Request e tag write hbm bytes ep) s = .next (if write then s else ur s))
    ∧ (serves → bad = true ∨ addr.toNat % 4 ≠ 0 →
        exec (.bar0Request e tag write addr d ep bad) s = .next (if write then counted s0 else ur (counted s0)))
    ∧ (serves → bad = false → addr.toNat % 4 = 0 → servingRouter addr.toNat = none →
        exec (.bar0Request e tag write addr d ep bad) s = .next (if write then counted s0 else ur s0))
    ∧ (∀ r, serves → bad = false → addr.toNat % 4 = 0 → servingRouter addr.toNat = some r →
        (bar2Held ∨ ¬ room → exec (.bar0Request e tag write addr d ep bad) s = .next s)
        ∧ (¬ bar2Held → room → exec (.bar0Request e tag write addr d ep bad) s
          = .next (niRequest (.bar0 e tag.toNat write) {
            dst := r, dport := 3, src := n, sport := 2, vn := 1, typ := if write then 3 else 2, addr := addr.toNat,
            word := if write then d else 0, wordP := write && ep } s0)))
    -- BAR2
    ∧ (serves → bytes ≠ [] → s.flag F.HBM_CTL_EN = false →
        exec (.bar2Request e tag write hbm bytes ep) s = .next (if write then counted s0 else ur s0))
    ∧ (serves → bytes ≠ [] → s.flag F.HBM_CTL_EN = true → write = true → hold →
        exec (.bar2Request e tag write hbm bytes ep) s = .next (counted s0))
    ∧ (serves → bytes ≠ [] → s.flag F.HBM_CTL_EN = true → (write = true → ¬ hold) →
        (bar2Held ∨ parts s ≠ [] → exec (.bar2Request e tag write hbm bytes ep) s = .next s)
        ∧ (¬ bar2Held → parts s = [] → hbm.toNat % 256 + bytes.length ≤ 256 →
          Does (.bar2Request e tag write hbm bytes ep) s fun t =>
            t.host.bar2Reads = s.host.bar2Reads ++ (if write then [] else [{ e := e, tag := tag.toNat, parts := 1 }])
            ∧ (freeTag s n = none → parts t = [⟨.bar2 e tag.toNat write 0, whole⟩] ∧ t.ridge = s.ridge)
            ∧ (∀ k, freeTag s n = some k → parts t = [] ∧ t.niQueue n 1 = s.niQueue n 1 ++ [{ whole with tag := k }]
              ∧ t.outReqs n = s.outReqs n ++ [⟨k, .bar2 e tag.toNat write 0, false⟩])))
    -- messages
    ∧ (rises → isOpen → Does (.msixMessage e vec ()) s fun t => t.out = .msix e vec entry.addr entry.data :: s.out ∧ pend t = false)
    ∧ (rises → ¬ isOpen → Does (.msixMessage e vec ()) s fun t => t.out = s.out ∧ pend t = true)
    ∧ (¬ rises → Does (.msixMessage e vec ()) s fun t => t.out = s.out ∧ pend t = pend s ∧ t.regs = s.regs
        ∧ t.host.msixOr.get key false = vectorOr s e vec)
    -- the MSI-X table, and what masks its vectors
    ∧ (¬ up → exec (.msixUnmask e acc) s = .next s)
    ∧ (up → (∀ g o, acc ≠ .read g o) → Does (.msixUnmask e acc) s fun t => t.regs = s.regs ∧ t.mem = s.mem
        ∧ pend t = (pend s && !msixOpen t e vec))
    ∧ (∀ on mk, up → Does (.msixUnmask e (.control on mk)) s fun t => fn t e = { f with enable := on, mask := mk })
    ∧ (∀ on, up → Does (.msixUnmask e (.busMaster on)) s (fun t => fn t e = { f with busMaster := on })
        ∧ Does (.msixUnmask e (.power on)) s fun t => fn t e = { f with d3hot := on })
    ∧ (serves → off.toNat < 0x1000 → Does (.msixUnmask e (.write off d)) s fun t => bar4Read t e off.toNat
        = (if off.toNat / 4 % 4 = 0 then d &&& ~~~3 else if off.toNat / 4 % 4 = 3 then d &&& 1 else d))
    ∧ (serves → exec (.msixUnmask e (.read tag off)) s
        = .next (s.emit (.completion e tag.toNat false ((List.range 4).map (byteOf (bar4Read s e off.toNat))) false)))
    ∧ (up → f.d3hot = true → exec (.msixUnmask e (.read tag off)) s = .next (ur s))
    -- DMA
    ∧ (exec (.dmaTailWrite e c v) s = .next (s.load (F.DMA_TAIL_INDEX e c) v))
    ∧ (exec (.dmaEnable e c v) s = .next (if v.getLsbD 0 && !s.flag (F.DMA_CTL_EN e c) then ctl.put (F.DMA_STAT_STOPPED e c) 0
        else ctl))
    ∧ (¬ runs → exec (.dmaDescriptor e c err raw data) s = .next s)
    ∧ (∀ w, runs → chan.work = some w → exec (.dmaDescriptor e c err raw data) s = .next (dmaWork e c w s))
    ∧ (runs → chan.work = none → dir = 2 →
        (full → exec (.dmaDescriptor e c err raw data) s = .next (dmaClose e c s))
        ∧ (¬ full → dmaNamed s e c = false ∨ chan.buf.isSome = true → exec (.dmaDescriptor e c err raw data) s = .next s)
        ∧ (dmaNamed s e c = true → chan.buf = none →
          (err ≠ 0 → exec (.dmaDescriptor e c err raw data) s = .next (dmaError e c err false 0 reads))
          ∧ (err = 0 → ¬ (whole32 ∧ 80 ≤ x.len) → exec (.dmaDescriptor e c err raw data) s = .next (dmaError e c 5 false 0 reads))
          ∧ (err = 0 → whole32 → 80 ≤ x.len → exec (.dmaDescriptor e c err raw data) s
            = .next (setDmaChan e c { buf := some ⟨x.hostAddr, x.len, x.irq⟩ } reads))))
    ∧ (runs → chan.work = none → dir ≠ 2 →
        (early → exec (.dmaDescriptor e c err raw data) s = .next (dmaError e c err false 0 reads))
        ∧ (¬ early → ¬ whole32 ∨ x.len = 0 ∨ 2 ^ 35 ≤ dev → exec (.dmaDescriptor e c err raw data) s = .next (dmaError e c 5 false 0 reads))
        ∧ (¬ early → whole32 → x.len ≠ 0 → dev < 2 ^ 35 → 2 ^ 35 < dev + x.len →
          exec (.dmaDescriptor e c err raw data) s = .next (dmaError e c 4 false 0 reads))
        ∧ (err = 0 → good → dir = 0 → exec (.dmaDescriptor e c err raw data) s
          = begins ⟨x.hostAddr, dev, x.len, x.irq, false, [], 0⟩ reads)
        ∧ (good → dir = 1 →
          let l := if err = 0 then (List.range x.len).map fun i => data.getD i (0, false) else data.take x.len
          exec (.dmaDescriptor e c err raw data) s = begins ⟨x.hostAddr, dev, x.len, x.irq, true, l, err⟩
            (poisonedRx e (l.any (·.2)) (reads.emit (.dmaRead e c x.hostAddr x.len)))))
    -- the work on a descriptor: its requests, and its end once all are answered
    ∧ (∀ w, let asks := wireAsk (dmaKey e c) (if w.fromHost then writeRequests s none n 2 w.devAddr w.data
          else readRequests s none n 2 w.devAddr w.len) (wireRewind (dmaKey e c) s)
        let u := asks.2
        let t := dmaWork e c w s
        let l := fun (as : List VnReply) =>
          ((readRequests s none n 2 w.devAddr w.len).zip as).flatMap fun y => replyBytes (y.1.size + 1) y.2
        (asks.1 = none → t = u)
        ∧ (asks.1.isSome = true → dmaChan t e c = {} ∧ t.mem = u.mem
          ∧ t.get (F.DMA_HEAD_INDEX e c) = (u.get (F.DMA_HEAD_INDEX e c) + 1) % ringSize u e c)
        ∧ (∀ as, asks.1 = some as → w.fromHost = false →
          t.get (F.DMA_BYTES_VALUE e c) = (u.get (F.DMA_BYTES_VALUE e c) + w.len) % 2 ^ 32
          ∧ t.out = .dmaStatus e c (descAddr u e c + 20) (BitVec.ofNat 32 (1 + 4 * b2n ((l as).any (·.2)))) (BitVec.ofNat 32 w.len)
            :: .dmaWrite e c w.hostAddr (l as) :: u.out)
        ∧ (asks.1.isSome = true → w.fromHost = true → w.err ≠ 0 → w.err < 16 → t.flag (F.DMA_STAT_STOPPED e c) = true
          ∧ t.get (F.DMA_STAT_ERRCODE e c) = w.err))
    ∧ (∀ (code : Fin 8) (p : Bool) (k : Nat), let t := dmaError e c code p k s
        t.flag (F.DMA_STAT_STOPPED e c) = true ∧ t.flag (F.DMA_STAT_ERR e c) = true ∧ t.get (F.DMA_HEAD_INDEX e c) = next
        ∧ t.get (F.DMA_STAT_ERRCODE e c) = code ∧ t.get (F.DMA_BYTES_VALUE e c) = (s.get (F.DMA_BYTES_VALUE e c) + k) % 2 ^ 32
        ∧ t.out = .dmaStatus e c (desc + 20) (BitVec.ofNat 32 (3 + 4 * b2n p + 16 * code)) (BitVec.ofNat 32 k) :: s.out
        ∧ t.mem = s.mem)
    ∧ (∀ t0, chan.firstAt = some t0 →
        (runs → dmaNamed s e c = true → t0 + s.get (F.DMA_HOLD_NS e c) ≤ s.cycle → exec (.dmaBufferHold e c) s = .next (dmaClose e c s))
        ∧ (¬ runs ∨ dmaNamed s e c = false ∨ s.cycle < t0 + s.get (F.DMA_HOLD_NS e c) → exec (.dmaBufferHold e c) s = .next s))
    ∧ (chan.firstAt = none → exec (.dmaBufferHold e c) s = .next s)
    ∧ (∀ b, chan.buf = some b → dmaChan (dmaClose e c s) e c = {}
        ∧ (dmaClose e c s).get (F.DMA_HEAD_INDEX e c) = next)

/-- The mailbox. A claim or a release acts when no command runs; a command is refused while another runs or another
master holds the mailbox, and otherwise begins with BUSY = 1 and the arguments as they stand, but that COLD_RESET
resets at once and an unlisted code ends at once; the SMC commits the oldest repair that waits when the mailbox is
free; and the boot chain runs once. Derived from parts of R211, R390, R391, R392, R405, R413, R427, R500. A command
whose conditions fail changes nothing: DESIGN CHOICE, log entry 2. The model's own choices that it rests on: log
entries 81, 83, 96, 98, 139, 164. -/
def Obligations.MailboxCommands : Prop :=
  ∀ (who : Fin 71) (code : Byte) (m : Fin 64) (bank : Fin 16) (prow : Byte) (flash container : Option (List Byte)) (s : State),
    let me := who.val + 1
    let busy := s.flag F.CMD_STAT_BUSY = true
    let owner := s.get F.MBX_OWN_OWNER
    let refused := busy ∨ (owner ≠ 0 ∧ owner ≠ me)
    let row := (m.val * 16 + bank.val) * 256 + prow.toNat
    let starts := [(Instr.settingsRead who, 0x01), (.store who, 0x02), (.repairCommit who, 0x03), (.imageAuth who, 0x10),
      (.imageLoad (some who) flash, 0x11), (.massifReload who, 0x12), (.attest who, 0x18), (.keyRevoke who, 0x1C),
      (.rollbackAdvance who, 0x1D), (.zeroise who, 0x3F)]
    -- MBX_OWN
    (busy → exec (.claim who) s = .next (smcRefused s) ∧ exec (.mbxRelease who) s = .next (smcRefused s))
    ∧ (¬ busy → owner = 0 → exec (.claim who) s = .next (s.put F.MBX_OWN_OWNER me))
    ∧ (¬ busy → owner ≠ 0 → exec (.claim who) s = .next s)
    ∧ (¬ busy → owner = me → exec (.mbxRelease who) s = .next (s.put F.MBX_OWN_OWNER 0))
    ∧ (¬ busy → owner ≠ me → exec (.mbxRelease who) s = .next s)
    -- commands
    ∧ (∀ e ∈ starts, (refused → exec e.1 s = .next (smcRefused s))
        ∧ (¬ refused → Does e.1 s fun t => t.get F.CMD_CODE = e.2 ∧ t.flag F.CMD_STAT_BUSY = true
          ∧ t.host.smc = some { code := e.2, args := args s, stage := if e.2 = 0x02 then stageNow s else [] }
          ∧ Only [F.CMD_CODE, F.CMD_STAT_BUSY] { s with host := { s.host with smc := t.host.smc } } t))
    ∧ (refused → exec (.coldReset who) s = .next (smcRefused s))
    ∧ (¬ refused → Does (.coldReset who) s fun t => t.get F.RST_CAUSE_LAST = 5 ∧ t.mem = {} ∧ t.cores = {} ∧ t.pos = {})
    ∧ (smcListed code.toNat = true → exec (.badCmd who code) s = .next s)
    ∧ (smcListed code.toNat = false → refused → exec (.badCmd who code) s = .next (smcRefused s))
    ∧ (smcListed code.toNat = false → ¬ refused → Does (.badCmd who code) s fun t => t.get F.CMD_STAT_RESULT = 1
        ∧ t.flag F.CMD_STAT_DONE = true ∧ t.flag F.CMD_STAT_BUSY = false ∧ t.get F.CMD_CODE = code.toNat)
    -- the authentication step of an IMAGE_LOAD
    ∧ (s.host.smc = none → exec (.imageLoad none flash) s = .next s)
    ∧ (∀ r, s.host.smc = some r → r.code ≠ 0x11 ∨ r.authed.isSome = true ∨ r.settled.isSome = true →
        exec (.imageLoad none flash) s = .next s)
    ∧ (∀ r k, s.host.smc = some r → r.code = 0x11 → r.authed = none → r.settled = none → refuseImage r s = some k →
        exec (.imageLoad none flash) s = .next { s with host := { s.host with smc := some { r with settled := some k } } })
    ∧ (∀ r, s.host.smc = some r → r.code = 0x11 → r.authed = none → r.settled = none → refuseImage r s = none →
        (sourceReady r s = false → exec (.imageLoad none flash) s = .next s)
        ∧ (sourceReady r s = true → srcArg r = 0 → exec (.imageLoad none none) s = .next { s with
            ridge := (wireRewind smcKey s).ridge, out := .flashRead (flashOctal s) (srcAddr r) :: s.out
            host := { s.host with smc := some { r with settled := some 13 } } })
        ∧ (∀ x s1, sourceReady r s = true → authImage (sourceOf r flash) (wireRewind smcKey s) = (.got x, s1) →
          exec (.imageLoad none flash) s = .next (enterLoadHold (setRun { r with authed := some x } (wireEnd smcKey s1))))
        ∧ (∀ s1, sourceReady r s = true → authImage (sourceOf r flash) (wireRewind smcKey s) = (.waits, s1) →
          exec (.imageLoad none flash) s = .next s1))
    -- a repair commit of the SMC's own
    ∧ (∀ cause l, s.mem.repairDue = (row, cause) :: l → ¬ busy → owner = 0 →
        Does (.selfRepairCommit m bank prow) s fun t => t.flag F.CMD_STAT_BUSY = true ∧ t.flag F.CMD_STAT_SELF = true
          ∧ t.mem = { s.mem with repairDue := l }
          ∧ t.host.smc = some { code := 0x03, self := true, entry := repairEntry row cause })
    ∧ ((s.mem.repairDue.head?.any fun x => x.1 == row) = false ∨ busy ∨ owner ≠ 0 →
        exec (.selfRepairCommit m bank prow) s = .next s)
    -- the boot chain
    ∧ (s.host.loads.bootDue = false ∨ s.power.off = true → exec (.boot container) s = .next s)
    ∧ (s.host.loads.bootDue = true → s.power.off = false → Does (.boot container) s fun t => t.flag F.CMD_STAT_READY = true
        -- an empty settings list
        ∧ (pageWord s 16 0 = 0xFFFFFFFF → t.host.loads.bootDue = false
          ∧ t.flag F.BOOT_STAT_SMCFW = (container.map containerOk).getD false
          ∧ t.get F.ROLLBACK_LO_VALUE = (pageWord s 6 0).toNat ∧ t.get F.ROLLBACK_HI_VALUE = (pageWord s 6 1).toNat
          ∧ (∀ e < 2, s.flag (F.PCI_CTL_EN e) = true → t.get (F.GRP_CTL_PROTO (16 * e)) = 3 ∧ t.flag (F.GRP_CTL_EN (16 * e)) = true)
          ∧ (s.flag F.BOOT_CFG_AUTO = false → t.host.smc = s.host.smc)
          ∧ (s.flag F.BOOT_CFG_AUTO = true → t.flag F.CMD_STAT_BUSY = true ∧ t.get F.CMD_CODE = 0x11
            ∧ t.get (F.ARG_VALUE 1) = 0 ∧ t.get (F.ARG_VALUE 2) = 2 ^ 20 * s.get F.BOOT_CFG_OFFA % 2 ^ 32)))

/-- The end of a command: RESULT, DONE, BUSY and the interrupt together, with what the command did. Pages are written to
the settings store, keys revoked, the counter advanced and images applied, or the RESULT says why not. Derived from
parts of R211, R212, R391, R392, R393, R397, R398, R400, R413, R415, R418, R424. A command whose conditions fail
changes nothing: DESIGN CHOICE, log entry 2. The model's own choices that it rests on: log entries 82, 83, 93, 95,
96, 97, 98, 120, 139, 155, 156, 166. -/
def Obligations.CommandCompletion : Prop :=
  ∀ (flash : Option (List Byte)) (crcOk abort : Bool) (r : SmcRun) (s : State),
    let cmd := Instr.commandComplete flash crcOk abort
    let arg := fun (i : Nat) => (r.args.getD i 0).toNat
    let runs := fun (code : Nat) => s.host.smc = some r ∧ r.code = code ∧ r.settled = none ∧ r.self = false
      ∧ s.flag F.NVM_STAT_SUSPENDED = false
    let ends := fun (k : Nat) (t : State) => t.get F.CMD_STAT_RESULT = k ∧ t.flag F.CMD_STAT_DONE = true
      ∧ t.flag F.CMD_STAT_BUSY = false ∧ t.host.smc = none ∧ (t.get (F.IRQ_STAT_BITS smcPage)).testBit 0 = true
    let e := r.args.getD 0 0
    let kind := arg 0 % 2
    let slot := arg 0 / 4 % 4
    let live := fun (i : Nat) => keyFilled s kind i = true ∧ keyRevoked s kind i = false
    let new := arg 0 + 2 ^ 32 * arg 1
    let counter := s.get2 F.ROLLBACK_LO_VALUE F.ROLLBACK_HI_VALUE
    let version := s.get2 F.CFG_VERSION_LO_VALUE F.CFG_VERSION_HI_VALUE
    let image := fun (code k : Nat) => runs code → r.authed = none → Does cmd s fun t => ends k t ∧ t.get F.CFG_STAT_CODE = k
    let waits := s.get F.CFG_STAT_STATE = 2 ∨ s.flag F.CFG_STAT_MRARMED = true
    let warm := s.power.warmPhase ≠ 0
    let flashed := srcArg r = 0 ∧ srcAddr r % 64 = 0
    let src := ImgSrc.flash (srcAddr r) flash
    let s0 := wireRewind smcKey s
    (s.host.smc = none → exec cmd s = .next s)
    ∧ (s.host.smc = some r → r.code = 0x02 ∨ r.code = 0x03 ∨ r.code = 0x1C ∨ r.code = 0x1D ∨ r.code = 0x3F →
        s.flag F.NVM_STAT_SUSPENDED = true → exec cmd s = .next s)
    -- SETTINGS_READ and STORE
    ∧ (runs 0x01 → 4096 ≤ arg 0 → Does cmd s (ends 2))
    ∧ (runs 0x01 → arg 0 < 4096 → Does cmd s fun t => ends 0 t
        ∧ ∀ i < 256, t.get (F.STAGE_VALUE i) = (pageWord s (arg 0) i).toNat)
    ∧ (runs 0x02 → 4096 ≤ arg 0 → Does cmd s (ends 2))
    ∧ (runs 0x02 → arg 0 < 16 → Does cmd s (ends 3))
    ∧ (runs 0x02 → 16 ≤ arg 0 → arg 0 < 4096 → crcOk = true → Does cmd s fun t => ends 0 t
        ∧ (∀ i < 256, pageWord t (arg 0) i = r.stage.get i 0)
        ∧ (∀ p, p ≠ arg 0 → ∀ i, pageWord t p i = pageWord s p i)
        ∧ t.get F.NVM_STORECNT_VALUE = (s.get F.NVM_STORECNT_VALUE + 1) % 2 ^ 32)
    ∧ (runs 0x02 → 16 ≤ arg 0 → arg 0 < 4096 → crcOk = false → Does cmd s (ends 4))
    -- REPAIR_COMMIT
    ∧ (runs 0x03 → entryOkFormat e = false → Does cmd s (ends 2))
    ∧ (runs 0x03 → entryOkFormat e = true → inMap s (entryRow e) = true → Does cmd s (ends 0))
    ∧ (runs 0x03 → entryOkFormat e = true → inMap s (entryRow e) = false →
        (∀ i < 256, entryValid (pageWord s 8 i) = true) → Does cmd s fun t => ends 5 t ∧ t.flag F.REPAIR_STAT_MAP_FULL = true)
    ∧ (∀ i < 256, runs 0x03 → entryOkFormat e = true → inMap s (entryRow e) = false → entryValid (pageWord s 8 i) = false →
        (crcOk = true → Does cmd s fun t => ends 0 t ∧ inMap t (entryRow e) = true ∧ t.flag F.REPAIR_STAT_PENDING = true
          ∧ t.get F.REPAIR_LAST_ENTRY = e.toNat)
        ∧ (crcOk = false → Does cmd s (ends 4)))
    ∧ (s.host.smc = some r → r.code = 0x03 → r.self = true → r.settled = none → s.flag F.NVM_STAT_SUSPENDED = false →
        Does cmd s fun t => t.flag F.CMD_STAT_BUSY = false ∧ t.flag F.CMD_STAT_SELF = false ∧ t.host.smc = none
          ∧ t.get F.CMD_STAT_RESULT = s.get F.CMD_STAT_RESULT ∧ t.flag F.CMD_STAT_DONE = s.flag F.CMD_STAT_DONE)
    -- KEY_REVOKE, ROLLBACK_ADVANCE, ZEROISE
    ∧ (runs 0x1C → ¬ live slot ∨ (∀ i < 4, i ≠ slot → ¬ live i) → Does cmd s (ends 2))
    ∧ (∀ i < 4, runs 0x1C → live slot → i ≠ slot → live i →
        (crcOk = true → Does cmd s fun t => ends 0 t ∧ keyRevoked t kind slot = true ∧ keyRevoked t kind i = false)
        ∧ (crcOk = false → Does cmd s (ends 4)))
    ∧ (runs 0x1D → new < counter ∨ version < new → Does cmd s (ends 2))
    ∧ (runs 0x1D → counter ≤ new → new ≤ version →
        (crcOk = true → Does cmd s fun t => ends 0 t ∧ t.get2 F.ROLLBACK_LO_VALUE F.ROLLBACK_HI_VALUE = new
          ∧ pageWord t 6 0 = r.args.getD 0 0 ∧ pageWord t 6 1 = r.args.getD 1 0)
        ∧ (crcOk = false → Does cmd s (ends 4)))
    ∧ (runs 0x3F → e ≠ 0x5A3C0F1E → Does cmd s (ends 2))
    ∧ (runs 0x3F → e = 0x5A3C0F1E → Does cmd s fun t => t.get F.RST_CAUSE_LAST = 6 ∧ t.mem = {} ∧ t.cores = {}
        ∧ ∀ p < 4096, 16 ≤ p → ∀ i, pageWord t p i = 0)
    -- ATTEST
    ∧ (runs 0x18 → Does cmd s fun t => ends 0 t ∧ t.get (F.STAGE_VALUE 0) = 0x1640A770
        ∧ (∀ i < 8, t.get (F.STAGE_VALUE (2 + i)) = arg i)
        ∧ (∀ i < 12, t.get (F.STAGE_VALUE (16 + i)) = s.get (F.CFG_DIGEST_VALUE i) % 2 ^ 32))
    -- images that are refused, or whose source does not answer
    ∧ (waits → image 0x11 6 ∧ image 0x12 6)
    ∧ (flashed → ¬ warm → flash = none → image 0x10 13 ∧ (¬ waits → image 0x11 13 ∧ image 0x12 13))
    ∧ (flashed → warm → runs 0x10 ∨ (¬ waits ∧ r.authed = none ∧ runs 0x12) → exec cmd s = .next s)
    ∧ (1 < srcArg r ∨ srcAddr r % 64 ≠ 0 → image 0x10 2 ∧ (¬ waits → image 0x11 2 ∧ image 0x12 2))
    -- an image that authenticates and whose sections hold their digests
    ∧ (∀ i h s1 s2, runs 0x10 → flashed → ¬ warm → authImage src s0 = (.got (i, h), s1) →
        digestsOk src (sectsOf h) s1 = (.got (), s2) → Does cmd s fun t => ends 0 t ∧ t.get F.CFG_STAT_CODE = 0
          ∧ t.get2 (F.ARG_VALUE 0) (F.ARG_VALUE 1) = i.version.toNat
          ∧ ∀ j < 12, t.get (F.STAGE_VALUE j) = (i.digest.getD j 0).toNat)
    -- an authenticated load
    ∧ (∀ x, runs 0x11 → r.authed = some x → srcArg r = 0 →
        let l := sectsOf x.2
        let done := applySections src abort (((List.range l.length).zip l).drop r.prog.sect) { s := s0, g := r.prog }
        (∀ k s1, done = .failed k s1 → Does cmd s fun t => t.get F.CMD_STAT_RESULT = k % 2 ^ 4 ∧ t.get F.CFG_STAT_STATE = 4)
        ∧ (∀ a, done = .waits a → exec cmd s = .next (setRun { r with prog := a.g } a.s))
        ∧ (∀ a, done = .going a → a.g.keys = [] → exec cmd s = .next (endRun r 0 (loadComplete (setLoads (fun q =>
            { q with staged := some { info := x.1, runs := a.g.runs, callers := a.g.callers, starts := a.g.starts } }) a.s)))))
    -- the section of a MASSIF_RELOAD whose checks have passed
    ∧ (∀ x, runs 0x12 → r.authed = some x → srcArg r = 0 →
        let done := applySection src abort (sectAt x.2 (reloadSect r)) { s := s0, g := r.prog }
        (∀ k s1, done = .failed k s1 → Does cmd s fun t => t.get F.CMD_STAT_RESULT = k % 2 ^ 4)
        ∧ (∀ a, done = .waits a → exec cmd s = .next (setRun { r with prog := a.g } a.s))
        ∧ (∀ a, done = .going a → exec cmd s = .next (endRun r 0 (loadComplete (setLoads (fun q => { q with
            staged := some { info := x.1, massif := some (reloadMassif r), runs := a.g.runs, callers := a.g.callers } }) a.s)))))

/-- The management port and registers by address. A status byte, reads and writes of the port; and a write of a register
by its type of access, with the locks, the interrupt bits of a page and the addresses that no page has. Derived from
parts of R6, R387, R388, R389, R390, R456, R457, R458, R459, R460, R462, R500. A command whose conditions fail
changes nothing: DESIGN CHOICE, log entry 2. The model's own choices that it rests on: log entries 80, 90, 99, 121,
154, 160. -/
def Obligations.ManagementAndRegisters : Prop :=
  ∀ (a v w : Word) (addr : BitVec 26) (who : Fin 72) (onhold : Bool) (s : State),
    let busy := s.flag F.CMD_STAT_BUSY = true
    let status := b2n (s.flag F.CMD_STAT_BUSY) + 2 * b2n s.host.mgmtErr + 4 * b2n (s.flag F.CMD_STAT_READY) + 8 * b2n s.host.mgmtPoison
    let idle := s.host.mgmtWait = []
    let host := fun (h : HostIf) => { s with host := h }
    let server := servingRouter a.toNat
    let ready := s.flag F.CMD_STAT_READY = true ∧ (freeTag s 91).isSome = true
    let base := 4096 * (addr.toNat / 4096)
    let off := addr.toNat % 4096 / 4 * 4
    let page := pageAt base
    let write := Instr.registerWrite who addr v
    let irq := s.get (F.IRQ_STAT_BITS base)
    let owner := s.get F.MBX_OWN_OWNER
    let first := accessWaits s who addr.toNat = false
    let allowed := first ∧ s.flag F.CMD_STAT_BUSY = false ∧ (owner = 0 ∨ owner = who)
    -- the port
    (exec .rdsr s = .next (s.emit (.mgmt [BitVec.ofNat 8 status])))
    ∧ (exec .mgmtUnknown s = .next (s.count F.MGMT_ERR_VALUE 1))
    ∧ (exec (.mgmtWrite a []) s = .next s)
    ∧ (busy → exec (.mgmtWrite a [w]) s = .next (smcRefused (host { s.host with mgmtErr := true })))
    ∧ (¬ busy → idle → server = none → (mgmtOut s = false →
          exec (.mgmtWrite a [w]) s = .next (host { s.host with mgmtErr := true, mgmtPoison := false }))
        ∧ (mgmtOut s = true → exec (.mgmtWrite a [w]) s = .next (host { s.host with mgmtWait := [(a.toNat, some w, false)] })))
    ∧ (∀ r, ¬ busy → idle → server = some r → ready → exec (.mgmtWrite a [w]) s = .next (niRequest (.mgmt false)
        { dst := r, dport := 3, src := 91, sport := 2, vn := 1, typ := 3, addr := a.toNat, word := w } s))
    ∧ (∀ r, ¬ busy → idle → server = some r → ¬ ready →
        exec (.mgmtWrite a [w]) s = .next (host { s.host with mgmtWait := [(a.toNat, some w, false)] }))
    ∧ (∀ r, idle → server = some r → ready → exec (.mgmtRead a onhold) s = .next (niRequest (.mgmt onhold)
        { dst := r, dport := 3, src := 91, sport := 2, vn := 1, typ := 2, addr := a.toNat } s))
    ∧ (idle → server = none → mgmtOut s = false → Does (.mgmtRead a onhold) s fun t => t.host.mgmtErr = true
        ∧ t.out = (if onhold then .mgmt [0x5A, 0, 0, 0, 0, BitVec.ofNat 8 (b2n (s.flag F.CMD_STAT_BUSY) + 2
          + 4 * b2n (s.flag F.CMD_STAT_READY))] :: s.out else s.out) ∧ t.regs = s.regs)
    ∧ (∀ x : VnReply, x.status = 0 → x.poison = false → (mgmtAnswer true true x s).out = .mgmt [0x5A, byteOf x.word 3,
        byteOf x.word 2, byteOf x.word 1, byteOf x.word 0, BitVec.ofNat 8 (b2n (s.flag F.CMD_STAT_BUSY)
          + 4 * b2n (s.flag F.CMD_STAT_READY))] :: s.out)
    -- registers: a write waits for the accesses of its page that come before it
    ∧ (¬ first → exec write s = .next s)
    ∧ (page = none → exec write s = .next s ∧ exec (.lockSet addr) s = .next s ∧ exec (.irqForce addr v) s = .next s)
    ∧ (page.isSome = true →
        exec (.lockSet addr) s = .next (s.put (F.LOCK_SET base) 1)
        ∧ exec (.irqForce addr v) s = .next (s.put (F.IRQ_STAT_BITS base) (irq ||| v.toNat)))
    ∧ (page.isSome = true → first → off = 0x010 → exec write s
        = .next (s.put (F.IRQ_STAT_BITS base) (irq &&& (0xFFFFFFFF - v.toNat) ||| s.fresh (F.IRQ_STAT_BITS base))))
    ∧ (page.isSome = true → first → off = 0x014 → exec write s = .next (s.put (F.IRQ_EN_BITS base) v.toNat))
    ∧ (page.isSome = true → first → off = 0x018 → exec write s = .next (s.put (F.IRQ_STAT_BITS base) (irq ||| v.toNat)))
    ∧ (page.isSome = true → first → off = 0x02C → exec write s
        = .next (if v.getLsbD 0 then s.put (F.LOCK_SET base) 1 else s))
    ∧ (page.isSome = true → off = 0x000 ∨ off = 0x004 ∨ off = 0x00C ∨ off = 0x020 ∨ off = 0x024 → exec write s = .next s)
    ∧ (∀ p, page = some p → s.flag (F.LOCK_SET base) = true → hasRwl p.1 base off = true → exec write s = .next s)
    -- two registers that the mailbox guards, and a lock that a page has
    ∧ (∀ i < 8, addr.toNat = 0x2044 + 4 * i →
        (allowed → exec write s = .next (s.put (F.ARG_VALUE i) v.toNat)) ∧ (first → ¬ allowed → exec write s = .next (smcRefused s)))
    ∧ (∀ i < 256, addr.toNat = 0x3400 + 4 * i →
        (allowed → exec write s = .next (s.put (F.STAGE_VALUE i) v.toNat)) ∧ (first → ¬ allowed → exec write s = .next (smcRefused s)))
    -- what a read of the words of R457 shows
    ∧ (∀ p, page = some p → (off = 0x000 → (readReg addr.toNat false s).2.1 = BitVec.ofNat 32 (p.1.typ + 2 ^ 16 * p.2))
        ∧ (off = 0x010 → (readReg addr.toNat false s).2.1 = BitVec.ofNat 32 irq)
        ∧ (readReg addr.toNat false s).1 = 0)
    ∧ (page = none → readReg addr.toNat false s = (1, 0, false, s))

/-- The queue of waiting commands: a step takes the command at the front, runs it with the rest of the queue, and always
answers a next state; on an empty queue it is a tick (DESIGN CHOICE, log entry 1), in which TB advances by one (R19)
unless the discipline of Tempo says otherwise or the device is Off. Derived from parts of R19. -/
def Obligations.StepTakesTheFront : Prop :=
  ∀ (c : Instr) (rest : List Instr) (s : State),
    step { s with pending := c :: rest } = exec c { s with pending := rest }
    ∧ step (s.withCommand c) = exec c s
    ∧ step { s with pending := [] } = .next (tick { s with pending := [] })
    ∧ completes c s = true
    ∧ (s.power.off = true → tick s = s)
    ∧ (tickTb s).cycle = s.cycle + 1 ∧ (s.tempo.tbSkew = 0 → (tickTb s).tb = s.tb + 1)
    ∧ (s.tempo.tbSkew < 0 → (tickTb s).tb = s.tb) ∧ (0 < s.tempo.tbSkew → (tickTb s).tb = s.tb + 2)

/-- The state after reset. The registers and the memories are in canonical form, no command waits, and the values that
the spec gives hold. Derived from parts of R19, R153, R155, R163, R225, R232, R304, R317, R416, R427. The model's
own choices that it rests on: log entries 10, 11, 13, 16. -/
def Obligations.ResetState : Prop :=
  State.reset.canonical = true ∧ State.reset.pending = [] ∧ State.reset.out = [] ∧ State.reset.tb = 0
  ∧ State.reset.loadHold = true ∧ State.reset.get F.RST_CAUSE_LAST = 1 ∧ State.reset.flag F.CMD_STAT_READY = false
  ∧ State.reset.col.pointer = 0 ∧ State.reset.get F.RT_STALL_LIM_CYCLES = 65536
  ∧ (∀ m < 64, credits State.reset m = 32)
  ∧ (∀ n < 96, State.reset.get (F.NI_OUTST_LIMIT n) = 16)
  ∧ (∀ m < 64, ∀ w < 2 ^ 18, State.reset.shelfCell m w = 0)
  ∧ (∀ c < 68, State.reset.core c = {} ∧ State.reset.flag (fRunning c) = false)

/-- R155: Round robin. With COL_CTL.ORDER = 0 the collector takes the head of the first enabled, non-empty input at or
after its pointer, and sets the pointer to that input plus one, modulo 64; the pointer is zero after reset. -/
def Obligations.RoundRobin : Prop :=
  State.reset.col.pointer = 0
  ∧ ∀ (i : Fin 64) (r : Report) (rest : List Report) (s : State),
    let ready := fun (k : Nat) => inputEnabled s k = true ∧ colInput s k ≠ []
    let dist := fun (k : Nat) => (k + 64 - s.col.pointer) % 64
    s.flag F.COL_CTL_EN = true → s.flag F.COL_CTL_ORDER = false → s.col.outq.length < 256 → s.col.pointer < 64 →
    inputEnabled s i = true → colInput s i = r :: rest → (∀ k < 64, ready k → dist i ≤ dist k) →
    Does (.collectorSelect []) s fun t => t.col.outq = s.col.outq ++ [r] ∧ colInput t i = rest
      ∧ t.col.pointer = (i.val + 1) % 64 ∧ (∀ k < 64, k ≠ i.val → colInput t k = colInput s k)
      ∧ { t with regs := s.regs, col := s.col } = s

/-- Every step keeps the canonical form: the register file lists no field at its reset value nor a value beyond the
field's width, and the shelves, the block memories, HBM and the Callers' RAM list each word once, in rising order,
and no word that reads as an unlisted one. The model's own choices that it rests on: log entry 8. -/
def Obligations.CanonicalFormKept : Prop :=
  ∀ s t : State, s.canonical = true → step s = .next t → t.canonical = true

/-- Every step takes one command from the front of the queue and no other, never puts one in, and adds to what has left
the device without changing what had left it; the numbers of free values only rise. The model's own choices that it
rests on: log entry 12. -/
def Obligations.QueueAndOutputKept : Prop :=
  ∀ s t : State, step s = .next t → t.pending = s.pending.tail ∧ (∃ l, t.out = l ++ s.out) ∧ s.freeCtr ≤ t.freeCtr
end

