-- ==== Sys2Proof/Laws/SMap.lean ====
section
/-! SUPPORT. Sparse maps and the register file: reading after writing, and the canonical form. -/

namespace Sys2Proof.Machine

open Sys2Proof

variable {α : Type}

/-! ### Finding -/

theorem SMap.find_erase_self (m : SMap α) (k : Nat) : (m.erase k).find k = none := by
  induction m with
  | nil => rfl
  | cons e m ih =>
    obtain ⟨a, v⟩ := e
    by_cases h : a = k <;> simp_all [SMap.erase, SMap.find]

theorem SMap.find_filter (m : SMap α) (p : Nat → Bool) (k : Nat) :
    SMap.find (m.filter fun e => p e.1) k = if p k then m.find k else none := by
  induction m with
  | nil => simp [SMap.find]
  | cons e m ih =>
    obtain ⟨a, v⟩ := e
    by_cases h : p a <;> by_cases hk : a = k <;> simp_all [SMap.find]

theorem SMap.find_erase_ne (m : SMap α) {j k : Nat} (h : j ≠ k) : (m.erase k).find j = m.find j := by
  simp [SMap.erase, SMap.find_filter m (fun a => a != k) j, h]

theorem SMap.find_insert_self (m : SMap α) (k : Nat) (v : α) (h : m.find k = none) : (m.insert k v).find k = some v := by
  induction m with
  | nil => simp [SMap.insert, SMap.find]
  | cons e m ih =>
    obtain ⟨a, w⟩ := e
    by_cases hk : a = k
    · simp [SMap.find, hk] at h
    · simp only [SMap.find, hk, if_false] at h
      by_cases hl : k < a <;> simp [SMap.insert, SMap.find, hl, hk, ih h]

theorem SMap.find_insert_ne (m : SMap α) {j k : Nat} (v : α) (h : j ≠ k) : (m.insert k v).find j = m.find j := by
  induction m with
  | nil => simp [SMap.insert, SMap.find, Ne.symm h]
  | cons e m ih =>
    obtain ⟨a, w⟩ := e
    by_cases hl : k < a <;> simp [SMap.insert, SMap.find, hl, ih, Ne.symm h]

/-! ### Reading after writing -/

theorem SMap.get_set_self [DecidableEq α] (m : SMap α) (k : Nat) (v d : α) : (m.set k v d).get k d = v := by
  by_cases h : v = d
  · simp [SMap.set, SMap.get, h, SMap.find_erase_self]
  · simp [SMap.set, SMap.get, h, SMap.find_insert_self _ _ _ (SMap.find_erase_self m k)]

theorem SMap.get_set_ne [DecidableEq α] (m : SMap α) {j k : Nat} (v d e : α) (h : j ≠ k) :
    (m.set k v d).get j e = m.get j e := by
  by_cases hv : v = d
  · simp [SMap.set, SMap.get, hv, SMap.find_erase_ne m h]
  · simp [SMap.set, SMap.get, hv, SMap.find_insert_ne _ v h, SMap.find_erase_ne m h]

/-- Filtering out an entry just put in. -/
theorem SMap.filter_insert {α : Type} (p : Nat × α → Bool) (k : Nat) (v : α) (hp : p (k, v) = false) : ∀ m : SMap α, (m.insert k v).filter p = m.filter p
  | [] => by simp [SMap.insert, hp]
  | e :: m => by
    simp only [SMap.insert]
    split
    · simp [hp]
    · have := SMap.filter_insert p k v hp m
      simp [List.filter_cons, this]

/-- The second of two writes to one place is what counts. -/
theorem SMap.set_set {α : Type} [DecidableEq α] (m : SMap α) (k : Nat) (v w d : α) : (m.set k v d).set k w d = m.set k w d := by
  have : (m.set k v d).erase k = m.erase k := by
    simp only [SMap.set]
    split
    · simp [SMap.erase, List.filter_filter]
    · rw [SMap.erase, SMap.filter_insert]
      · simp [SMap.erase, List.filter_filter]
      · simp
  rw [SMap.set, this]; rfl

theorem SMap.get_clear (m : SMap α) (p : Nat → Bool) (k : Nat) (d : α) :
    (m.clear p).get k d = if p k then d else m.get k d := by
  simp only [SMap.clear, SMap.get, SMap.find_filter m (fun a => !p a) k]
  cases p k <;> simp

/-! ### The order of keys -/

/-- Every key of `m` is above `k`. -/
def SMap.above (k : Nat) (m : SMap α) : Prop := ∀ e ∈ m, k < e.1

theorem SMap.sorted_cons (e : Nat × α) (m : SMap α) :
    SMap.sorted (e :: m) = true ↔ SMap.above e.1 m ∧ SMap.sorted m = true := by
  induction m generalizing e with
  | nil => simp [SMap.sorted, SMap.above]
  | cons x m ih =>
    obtain ⟨a, v⟩ := e
    obtain ⟨b, w⟩ := x
    have h := ih (b, w)
    simp only [SMap.sorted, Bool.and_eq_true, decide_eq_true_eq, SMap.above, List.mem_cons] at h ⊢
    constructor
    · rintro ⟨hab, hs⟩
      refine ⟨?_, hs⟩
      rintro e (rfl | he)
      · exact hab
      · exact Nat.lt_trans hab ((h.1 hs).1 e he)
    · rintro ⟨ha, hs⟩
      exact ⟨ha _ (.inl rfl), hs⟩

theorem SMap.sorted_filter (m : SMap α) (p : Nat × α → Bool) (h : m.sorted = true) :
    SMap.sorted (m.filter p) = true := by
  induction m with
  | nil => rfl
  | cons e m ih =>
    rw [SMap.sorted_cons] at h
    by_cases hp : p e
    · simp only [List.filter_cons, hp, if_true, SMap.sorted_cons]
      exact ⟨fun x hx => h.1 x (List.mem_filter.1 hx).1, ih h.2⟩
    · simpa [List.filter_cons, hp] using ih h.2

theorem SMap.mem_insert (m : SMap α) (k : Nat) (v : α) (e : Nat × α) :
    e ∈ m.insert k v ↔ e = (k, v) ∨ e ∈ m := by
  induction m with
  | nil => simp [SMap.insert]
  | cons x m ih =>
    obtain ⟨a, w⟩ := x
    by_cases hl : k < a
    · simp [SMap.insert, hl]
    · simp only [SMap.insert, hl, if_false, List.mem_cons, ih]
      exact or_left_comm

theorem SMap.sorted_insert (m : SMap α) (k : Nat) (v : α) (h : m.sorted = true) (hk : m.find k = none) :
    (m.insert k v).sorted = true := by
  induction m with
  | nil => rfl
  | cons x m ih =>
    obtain ⟨a, w⟩ := x
    have hs := (SMap.sorted_cons _ _).1 h
    have hne : a ≠ k := by
      intro e
      simp [SMap.find, e] at hk
    by_cases hl : k < a
    · simp only [SMap.insert, hl, if_true, SMap.sorted_cons]
      refine ⟨?_, hs⟩
      rintro e he
      rcases List.mem_cons.1 he with rfl | he
      · exact hl
      · exact Nat.lt_trans hl (hs.1 e he)
    · simp only [SMap.insert, hl, if_false, SMap.sorted_cons]
      have hf : SMap.find m k = none := by simpa [SMap.find, hne] using hk
      refine ⟨?_, ih hs.2 hf⟩
      intro e he
      rcases (SMap.mem_insert m k v e).1 he with rfl | he
      · show a < k
        omega
      · exact hs.1 e he

/-! ### The canonical form is kept -/

theorem SMap.wf_nil [DecidableEq α] (d : α) : SMap.wf ([] : SMap α) d = true := rfl

theorem SMap.wf_filter [DecidableEq α] (m : SMap α) (p : Nat × α → Bool) (d : α) (h : m.wf d = true) :
    SMap.wf (m.filter p) d = true := by
  simp only [SMap.wf, Bool.and_eq_true, List.all_eq_true] at h ⊢
  exact ⟨SMap.sorted_filter m p h.1, fun x hx => h.2 x (List.mem_filter.1 hx).1⟩

theorem SMap.wf_clear [DecidableEq α] (m : SMap α) (p : Nat → Bool) (d : α) (h : m.wf d = true) :
    (m.clear p).wf d = true := SMap.wf_filter m _ d h

theorem SMap.wf_set [DecidableEq α] (m : SMap α) (k : Nat) (v d : α) (h : m.wf d = true) :
    (m.set k v d).wf d = true := by
  have he := SMap.wf_filter m (fun e => e.1 != k) d h
  by_cases hv : v = d
  · simpa [SMap.set, hv, SMap.erase] using he
  · simp only [SMap.wf, Bool.and_eq_true, List.all_eq_true] at he ⊢
    simp only [SMap.set, hv, if_false]
    refine ⟨SMap.sorted_insert _ k v he.1 (SMap.find_erase_self m k), fun x hx => ?_⟩
    rcases (SMap.mem_insert _ k v x).1 hx with rfl | hx
    · simpa using hv
    · exact he.2 x hx

/-! ### The register file -/

theorem RegFile.get_put_self (r : RegFile) (f : Fld) (v : Nat) : (r.put f v).get f = v % 2 ^ f.w := by
  by_cases h : v % 2 ^ f.w = f.rst
  · simp [RegFile.put, RegFile.get, h, SMap.find_erase_self]
  · simp [RegFile.put, RegFile.get, h, SMap.find_insert_self _ _ _ (SMap.find_erase_self r f.key)]

theorem RegFile.get_put_ne (r : RegFile) {f g : Fld} (v : Nat) (h : g.key ≠ f.key) : (r.put f v).get g = r.get g := by
  by_cases hv : v % 2 ^ f.w = f.rst
  · simp [RegFile.put, RegFile.get, hv, SMap.find_erase_ne _ h]
  · simp [RegFile.put, RegFile.get, hv, SMap.find_insert_ne _ _ h, SMap.find_erase_ne _ h]

theorem RegFile.wf_put (r : RegFile) (f : Fld) (v : Nat) (h : r.wf = true) : (r.put f v).wf = true := by
  simp only [RegFile.wf, Bool.and_eq_true, List.all_eq_true] at h ⊢
  have hs : (SMap.erase r f.key).sorted = true := SMap.sorted_filter r _ h.1
  have hm : ∀ x ∈ SMap.erase r f.key, x ∈ r := fun x hx => (List.mem_filter.1 hx).1
  by_cases hv : v % 2 ^ f.w = f.rst
  · simp only [RegFile.put, hv, if_true]
    exact ⟨hs, fun x hx => h.2 x (hm x hx)⟩
  · simp only [RegFile.put, hv, if_false]
    refine ⟨SMap.sorted_insert _ _ _ hs (SMap.find_erase_self r f.key), fun x hx => ?_⟩
    rcases (SMap.mem_insert _ _ _ x).1 hx with rfl | hx
    · simpa [hv] using Nat.mod_lt v (Nat.two_pow_pos f.w)
    · exact h.2 x (hm x hx)

theorem RegFile.wf_resetWhere (r : RegFile) (p : Fld → Bool) (h : r.wf = true) : (r.resetWhere p).wf = true := by
  simp only [RegFile.wf, Bool.and_eq_true, List.all_eq_true, RegFile.resetWhere] at h ⊢
  exact ⟨SMap.sorted_filter r _ h.1, fun x hx => h.2 x (List.mem_filter.1 hx).1⟩

end Sys2Proof.Machine
end

