-- ==== Sys2Proof/Laws/Ifa.lean ====
section
/-! SUPPORT. Laws of the control cores: reading back a core, what an instruction at a boundary comes to, and which
instructions are legal, one lemma per form. -/

namespace Sys2Proof.Machine

open Sys2Proof

@[simp] theorem core_setCore (s : State) (c : Nat) (x : Core) : (s.setCore c x).core c = x := by
  simp [State.core, State.setCore, SMap.get_set_self]

theorem core_setCore_ne (s : State) {c d : Nat} (x : Core) (h : d ≠ c) : (s.setCore c x).core d = s.core d := by
  simp [State.core, State.setCore, SMap.get_set_ne _ _ _ _ h]

theorem setCore_setCore (s : State) (c : Nat) (x y : Core) : (s.setCore c x).setCore c y = s.setCore c y := by
  simp [State.setCore, SMap.set_set]

theorem corePump_nil (n c : Nat) (s : State) (h : (s.core c).toPost = []) : corePump n c s = s := by
  cases n <;> simp [corePump, h]

@[simp] theorem wireEnd_core (k c : Nat) (s : State) : (wireEnd k s).core c = s.core c := by
  unfold wireEnd State.when; split <;> rfl

@[simp] theorem wireEnd_get (k : Nat) (s : State) (f : Fld) : (wireEnd k s).get f = s.get f := by
  unfold wireEnd State.when; split <;> rfl

theorem wireEnd_setCore (k c : Nat) (s : State) (x : Core) : (wireEnd k s).setCore c x = wireEnd k (s.setCore c x) := by
  have e : (s.setCore c x).waits k = s.waits k := rfl
  unfold wireEnd State.when
  rw [e]
  split <;> rfl

/-- An operation with no request under way leaves nothing to end. -/
theorem wireEnd_idle {k : Nat} {s : State} (h : s.waits k = false) : wireEnd k s = s := by
  simp [wireEnd, State.when, h]

theorem haltDue_none {c : Nat} {s : State} (h : (s.core c).haltReq = false) : haltDue c s = s := by
  simp [haltDue, State.when, h]

/-- With nothing under way and no halt asked for, a boundary leaves the state as it is. -/
theorem ends_idle {c : Nat} {s : State} (h : s.waits c = false) (h2 : (s.core c).haltReq = false) : ends c s = s := by
  rw [ends, wireEnd_idle h, haltDue_none h2]

/-- What a core that tries the instruction that it picks does. -/
theorem run_at {c : Nat} {q : Luck} {s s1 : State} {pick : Word → Option Ifa} {i : Ifa} (h : Tries c q.tmo s s1)
    (hp : ∀ w, pick w = some i) :
    atBoundary c (oneInstr c q pick) s = settle c (ifaExec c q i s1) := by
  obtain ⟨h1, h2, h3, w, h4⟩ := h
  cases hm : midInstr s c with
  | true =>
    rw [hm] at h4
    simp only [if_true] at h4
    simp [atBoundary, h1, hm, oneInstr, corePump_nil _ _ _ h2, h2, tryInstr, h4, CoreRes.bind, hp]
  | false =>
    obtain ⟨h5, h6⟩ := h3 hm
    rw [hm] at h4
    simp only [Bool.false_eq_true, if_false] at h4
    have e : ((awake c s).core c).toPost = [] := by simp [awake, h2]
    unfold atBoundary
    rw [h1, hm, h5, h6]
    change oneInstr c q pick (awake c s) = _
    simp [oneInstr, corePump_nil _ _ _ e, e, tryInstr, h4, CoreRes.bind, hp]

theorem act_at {c : Nat} {q : Luck} {s s1 : State} {pick : Word → Option Ifa} {i : Ifa} (h : Tries c q.tmo s s1)
    (hp : ∀ w, pick w = some i) (hi : i.illegal (isLead c) (s1.core c) = false)
    (hr : i.priv (isLead c) (s1.core c) = false) :
    atBoundary c (oneInstr c q pick) s = settle c (ifaAct c q s1 i) := by
  rw [run_at h hp]; simp [ifaExec, hi, hr]

/-- A legal instruction that completes. -/
theorem go_at {c : Nat} {q : Luck} {s s1 t : State} {i : Ifa} (h : Tries c q.tmo s s1)
    (hi : i.illegal (isLead c) (s1.core c) = false) (hr : i.priv (isLead c) (s1.core c) = false)
    (ha : ifaAct c q s1 i = .ok () t) : ifaRun c q i s = ends c t := by
  rw [ifaRun, act_at h (fun _ => rfl) hi hr, ha]; rfl

/-- A legal instruction that waits. -/
theorem wait_at {c : Nat} {q : Luck} {s s1 t : State} {i : Ifa} (h : Tries c q.tmo s s1)
    (hi : i.illegal (isLead c) (s1.core c) = false) (hr : i.priv (isLead c) (s1.core c) = false)
    (ha : ifaAct c q s1 i = .stall t) : ifaRun c q i s = t := by
  rw [ifaRun, act_at h (fun _ => rfl) hi hr, ha]; rfl

/-- The entry of an exception that can take place. -/
theorem settle_trap {c : Nat} {k : Cause} {a : Word} {s : State} (hm : MayEnter c s) :
    settle c (.trap k a s) = entered c k a s := by
  obtain ⟨m1, m2, m3, m4⟩ := hm
  have : entryWaits c (s.core c) = false := by
    simp only [entryWaits]
    cases hl : isLead c <;> simp
    exact m4 hl
  have h2 : entryWaits c ((wireEnd c s).core c) = false := by simpa using this
  simp [settle, this, raise, m1, m2, m3, entered, ends, wireEnd_setCore]

/-- An instruction that takes an exception whose entry can take place. -/
theorem trap_at {c : Nat} {q : Luck} {s s1 s2 : State} {i : Ifa} {k : Cause} {a : Word} (h : Tries c q.tmo s s1)
    (ha : ifaExec c q i s1 = .trap k a s2) (hm : MayEnter c s2) : ifaRun c q i s = entered c k a s2 := by
  rw [ifaRun, run_at h (fun _ => rfl), ha, settle_trap hm]

/-! ### Legal forms (R303, R305, R345, R351) -/

theorem illegal_alu (lead : Bool) (x : Core) (f : AluOp) (rd ra rb : Nat) :
    (Ifa.alu f rd ra rb).illegal lead x = ([rd, ra, rb].any (fun n => !fieldExists lead n)) := by
  change ([rd, ra, rb].any (fun n => !fieldExists lead n) || (!lead && false) || (lead && false) || false) = _
  simp

theorem priv_alu (lead : Bool) (x : Core) (f : AluOp) (rd ra rb : Nat) :
    (Ifa.alu f rd ra rb).priv lead x = (x.bit pswUSER && [rd].any fieldPriv) := by
  change (x.bit pswUSER && (false || [rd].any fieldPriv)) = _
  simp

theorem illegal_imm (lead : Bool) (x : Core) (f : ImmOp) (rd ra : Nat) (i : BitVec 16) :
    (Ifa.imm f rd ra i).illegal lead x = ([rd, ra].any (fun n => !fieldExists lead n)) := by
  change ([rd, ra].any (fun n => !fieldExists lead n) || (!lead && false) || (lead && false) || false) = _
  simp

theorem priv_imm (lead : Bool) (x : Core) (f : ImmOp) (rd ra : Nat) (i : BitVec 16) :
    (Ifa.imm f rd ra i).priv lead x = (x.bit pswUSER && [rd].any fieldPriv) := by
  change (x.bit pswUSER && (false || [rd].any fieldPriv)) = _
  simp

theorem illegal_load (lead : Bool) (x : Core) (n : Nat) (sgn : Bool) (rd ra : Nat) (i : BitVec 16) :
    (Ifa.load n sgn rd ra i).illegal lead x = ([rd, ra].any (fun n => !fieldExists lead n)) := by
  change ([rd, ra].any (fun n => !fieldExists lead n) || (!lead && false) || (lead && false) || false) = _
  simp

theorem priv_load (lead : Bool) (x : Core) (n : Nat) (sgn : Bool) (rd ra : Nat) (i : BitVec 16) :
    (Ifa.load n sgn rd ra i).priv lead x = (x.bit pswUSER && [rd].any fieldPriv) := by
  change (x.bit pswUSER && (false || [rd].any fieldPriv)) = _
  simp

theorem illegal_store (lead : Bool) (x : Core) (n rs ra : Nat) (i : BitVec 16) :
    (Ifa.store n rs ra i).illegal lead x = ([rs, ra].any (fun n => !fieldExists lead n)) := by
  change ([rs, ra].any (fun n => !fieldExists lead n) || (!lead && false) || (lead && false) || false) = _
  simp

theorem priv_store (lead : Bool) (x : Core) (n rs ra : Nat) (i : BitVec 16) :
    (Ifa.store n rs ra i).priv lead x = (false) := by
  change (x.bit pswUSER && (false || [].any fieldPriv)) = _
  simp

theorem illegal_lsm (lead : Bool) (x : Core) (load : Bool) (base : Nat) (mask : BitVec 24) :
    (Ifa.lsm load base mask).illegal lead x = (false) := by
  change ([].any (fun n => !fieldExists lead n) || (!lead && false) || (lead && false) || false) = _
  simp

theorem priv_lsm (lead : Bool) (x : Core) (load : Bool) (base : Nat) (mask : BitVec 24) :
    (Ifa.lsm load base mask).priv lead x = (false) := by
  change (x.bit pswUSER && (false || [].any fieldPriv)) = _
  simp

theorem illegal_branch (lead : Bool) (x : Core) (k : Cond) (ra rb : Nat) (off : BitVec 16) :
    (Ifa.branch k ra rb off).illegal lead x = ((if k == .resumed then [] else [ra, rb]).any (fun n => !fieldExists lead n)) := by
  change ((if k == .resumed then [] else [ra, rb]).any (fun n => !fieldExists lead n) || (!lead && false) || (lead && false) || false) = _
  simp

theorem priv_branch (lead : Bool) (x : Core) (k : Cond) (ra rb : Nat) (off : BitVec 16) :
    (Ifa.branch k ra rb off).priv lead x = (false) := by
  change (x.bit pswUSER && (false || [].any fieldPriv)) = _
  simp

theorem illegal_j (lead : Bool) (x : Core) (off : BitVec 26) :
    (Ifa.j off).illegal lead x = (false) := by
  change ([].any (fun n => !fieldExists lead n) || (!lead && false) || (lead && false) || false) = _
  simp

theorem priv_j (lead : Bool) (x : Core) (off : BitVec 26) :
    (Ifa.j off).priv lead x = (false) := by
  change (x.bit pswUSER && (false || [].any fieldPriv)) = _
  simp

theorem illegal_call (lead : Bool) (x : Core) (off : BitVec 26) :
    (Ifa.call off).illegal lead x = (lead) := by
  change ([].any (fun n => !fieldExists lead n) || (!lead && false) || (lead && true) || false) = _
  simp

theorem priv_call (lead : Bool) (x : Core) (off : BitVec 26) :
    (Ifa.call off).priv lead x = (false) := by
  change (x.bit pswUSER && (false || [].any fieldPriv)) = _
  simp

theorem illegal_callw (lead : Bool) (x : Core) (off : BitVec 26) :
    (Ifa.callw off).illegal lead x = (!lead) := by
  change ([].any (fun n => !fieldExists lead n) || (!lead && true) || (lead && false) || false) = _
  simp

theorem priv_callw (lead : Bool) (x : Core) (off : BitVec 26) :
    (Ifa.callw off).priv lead x = (false) := by
  change (x.bit pswUSER && (false || [].any fieldPriv)) = _
  simp

theorem illegal_jr (lead : Bool) (x : Core) (ra : Nat) :
    (Ifa.jr ra).illegal lead x = ([ra].any (fun n => !fieldExists lead n)) := by
  change ([ra].any (fun n => !fieldExists lead n) || (!lead && false) || (lead && false) || false) = _
  simp

theorem priv_jr (lead : Bool) (x : Core) (ra : Nat) :
    (Ifa.jr ra).priv lead x = (false) := by
  change (x.bit pswUSER && (false || [].any fieldPriv)) = _
  simp

theorem illegal_callr (lead : Bool) (x : Core) (ra : Nat) :
    (Ifa.callr ra).illegal lead x = ([ra].any (fun n => !fieldExists lead n) || lead) := by
  change ([ra].any (fun n => !fieldExists lead n) || (!lead && false) || (lead && true) || false) = _
  simp

theorem priv_callr (lead : Bool) (x : Core) (ra : Nat) :
    (Ifa.callr ra).priv lead x = (false) := by
  change (x.bit pswUSER && (false || [].any fieldPriv)) = _
  simp

theorem illegal_callwr (lead : Bool) (x : Core) (ra : Nat) :
    (Ifa.callwr ra).illegal lead x = ([ra].any (fun n => !fieldExists lead n) || !lead) := by
  change ([ra].any (fun n => !fieldExists lead n) || (!lead && true) || (lead && false) || false) = _
  simp

theorem priv_callwr (lead : Bool) (x : Core) (ra : Nat) :
    (Ifa.callwr ra).priv lead x = (false) := by
  change (x.bit pswUSER && (false || [].any fieldPriv)) = _
  simp

theorem illegal_retw (lead : Bool) (x : Core)  :
    (Ifa.retw : Ifa).illegal lead x = (!lead) := by
  change ([].any (fun n => !fieldExists lead n) || (!lead && true) || (lead && false) || false) = _
  simp

theorem priv_retw (lead : Bool) (x : Core)  :
    (Ifa.retw : Ifa).priv lead x = (false) := by
  change (x.bit pswUSER && (false || [].any fieldPriv)) = _
  simp

theorem illegal_rfe (lead : Bool) (x : Core)  :
    (Ifa.rfe : Ifa).illegal lead x = (false) := by
  change ([].any (fun n => !fieldExists lead n) || (!lead && false) || (lead && false) || false) = _
  simp

theorem priv_rfe (lead : Bool) (x : Core)  :
    (Ifa.rfe : Ifa).priv lead x = (x.bit pswUSER) := by
  change (x.bit pswUSER && (true || [].any fieldPriv)) = _
  simp

theorem illegal_rff (lead : Bool) (x : Core)  :
    (Ifa.rff : Ifa).illegal lead x = (!x.bit pswFM) := by
  change ([].any (fun n => !fieldExists lead n) || (!lead && false) || (lead && false) || !x.bit pswFM) = _
  simp

theorem priv_rff (lead : Bool) (x : Core)  :
    (Ifa.rff : Ifa).priv lead x = (x.bit pswUSER) := by
  change (x.bit pswUSER && (true || [].any fieldPriv)) = _
  simp

theorem illegal_syscall (lead : Bool) (x : Core)  :
    (Ifa.syscall : Ifa).illegal lead x = (false) := by
  change ([].any (fun n => !fieldExists lead n) || (!lead && false) || (lead && false) || false) = _
  simp

theorem priv_syscall (lead : Bool) (x : Core)  :
    (Ifa.syscall : Ifa).priv lead x = (false) := by
  change (x.bit pswUSER && (false || [].any fieldPriv)) = _
  simp

theorem illegal_brk (lead : Bool) (x : Core)  :
    (Ifa.brk : Ifa).illegal lead x = (false) := by
  change ([].any (fun n => !fieldExists lead n) || (!lead && false) || (lead && false) || false) = _
  simp

theorem priv_brk (lead : Bool) (x : Core)  :
    (Ifa.brk : Ifa).priv lead x = (false) := by
  change (x.bit pswUSER && (false || [].any fieldPriv)) = _
  simp

theorem illegal_halt (lead : Bool) (x : Core)  :
    (Ifa.halt : Ifa).illegal lead x = (false) := by
  change ([].any (fun n => !fieldExists lead n) || (!lead && false) || (lead && false) || false) = _
  simp

theorem priv_halt (lead : Bool) (x : Core)  :
    (Ifa.halt : Ifa).priv lead x = (x.bit pswUSER) := by
  change (x.bit pswUSER && (true || [].any fieldPriv)) = _
  simp

theorem illegal_wfi (lead : Bool) (x : Core)  :
    (Ifa.wfi : Ifa).illegal lead x = (false) := by
  change ([].any (fun n => !fieldExists lead n) || (!lead && false) || (lead && false) || false) = _
  simp

theorem priv_wfi (lead : Bool) (x : Core)  :
    (Ifa.wfi : Ifa).priv lead x = (x.bit pswUSER) := by
  change (x.bit pswUSER && (true || [].any fieldPriv)) = _
  simp

theorem illegal_fence (lead : Bool) (x : Core)  :
    (Ifa.fence : Ifa).illegal lead x = (false) := by
  change ([].any (fun n => !fieldExists lead n) || (!lead && false) || (lead && false) || false) = _
  simp

theorem priv_fence (lead : Bool) (x : Core)  :
    (Ifa.fence : Ifa).priv lead x = (false) := by
  change (x.bit pswUSER && (false || [].any fieldPriv)) = _
  simp

theorem illegal_savectx (lead : Bool) (x : Core) (hi : Bool) (ra : Nat) :
    (Ifa.savectx hi ra).illegal lead x = ([ra].any (fun n => !fieldExists lead n) || !lead || decide (7 < ra)) := by
  change ([ra].any (fun n => !fieldExists lead n) || (!lead && true) || (lead && false) || decide (7 < ra)) = _
  simp

theorem priv_savectx (lead : Bool) (x : Core) (hi : Bool) (ra : Nat) :
    (Ifa.savectx hi ra).priv lead x = (x.bit pswUSER) := by
  change (x.bit pswUSER && (true || [].any fieldPriv)) = _
  simp

theorem illegal_loadctx (lead : Bool) (x : Core) (hi : Bool) (ra : Nat) :
    (Ifa.loadctx hi ra).illegal lead x = ([ra].any (fun n => !fieldExists lead n) || !lead || decide (7 < ra)) := by
  change ([ra].any (fun n => !fieldExists lead n) || (!lead && true) || (lead && false) || decide (7 < ra)) = _
  simp

theorem priv_loadctx (lead : Bool) (x : Core) (hi : Bool) (ra : Nat) :
    (Ifa.loadctx hi ra).priv lead x = (x.bit pswUSER) := by
  change (x.bit pswUSER && (true || [].any fieldPriv)) = _
  simp

theorem illegal_cache (lead : Bool) (x : Core) (k : CacheOp) (ra : Nat) :
    (Ifa.cache k ra).illegal lead x = ([ra].any (fun n => !fieldExists lead n) || !lead) := by
  change ([ra].any (fun n => !fieldExists lead n) || (!lead && true) || (lead && false) || false) = _
  simp

theorem priv_cache (lead : Bool) (x : Core) (k : CacheOp) (ra : Nat) :
    (Ifa.cache k ra).priv lead x = (x.bit pswUSER) := by
  change (x.bit pswUSER && (true || [].any fieldPriv)) = _
  simp

theorem illegal_mfc (lead : Bool) (x : Core) (rd idx : Nat) :
    (Ifa.mfc rd idx).illegal lead x = ([rd].any (fun n => !fieldExists lead n) || !ctlExists lead idx) := by
  change ([rd].any (fun n => !fieldExists lead n) || (!lead && false) || (lead && false) || !ctlExists lead idx) = _
  simp

theorem priv_mfc (lead : Bool) (x : Core) (rd idx : Nat) :
    (Ifa.mfc rd idx).priv lead x = (x.bit pswUSER) := by
  change (x.bit pswUSER && (true || [rd].any fieldPriv)) = _
  simp

theorem illegal_mtc (lead : Bool) (x : Core) (rs idx : Nat) :
    (Ifa.mtc rs idx).illegal lead x = ([rs].any (fun n => !fieldExists lead n) || !ctlExists lead idx) := by
  change ([rs].any (fun n => !fieldExists lead n) || (!lead && false) || (lead && false) || !ctlExists lead idx) = _
  simp

theorem priv_mtc (lead : Bool) (x : Core) (rs idx : Nat) :
    (Ifa.mtc rs idx).priv lead x = (x.bit pswUSER) := by
  change (x.bit pswUSER && (true || [].any fieldPriv)) = _
  simp

theorem illegal_vec (lead : Bool) (x : Core) (f : VecOp) (vd va vb r dm : Nat) (sgn sat : Bool) (idx : Nat) :
    (Ifa.vec f vd va vb r dm sgn sat idx).illegal lead x = ((if f == .shl || f == .shr || f == .splat || f == .ext || f == .ins then [r] else []).any (fun n => !fieldExists lead n) || !lead) := by
  change ((if f == .shl || f == .shr || f == .splat || f == .ext || f == .ins then [r] else []).any (fun n => !fieldExists lead n) || (!lead && true) || (lead && false) || false) = _
  simp

theorem priv_vec (lead : Bool) (x : Core) (f : VecOp) (vd va vb r dm : Nat) (sgn sat : Bool) (idx : Nat) :
    (Ifa.vec f vd va vb r dm sgn sat idx).priv lead x = (x.bit pswUSER && (if f == .ext then [r] else []).any fieldPriv) := by
  change (x.bit pswUSER && (false || (if f == .ext then [r] else []).any fieldPriv)) = _
  simp

theorem illegal_vmem (lead : Bool) (x : Core) (st : Bool) (v ra : Nat) (off : BitVec 16) :
    (Ifa.vmem st v ra off).illegal lead x = ([ra].any (fun n => !fieldExists lead n) || !lead) := by
  change ([ra].any (fun n => !fieldExists lead n) || (!lead && true) || (lead && false) || false) = _
  simp

theorem priv_vmem (lead : Bool) (x : Core) (st : Bool) (v ra : Nat) (off : BitVec 16) :
    (Ifa.vmem st v ra off).priv lead x = (false) := by
  change (x.bit pswUSER && (false || [].any fieldPriv)) = _
  simp

theorem illegal_fsw (lead : Bool) (x : Core) (rm slot : Nat) (clean go : Bool) :
    (Ifa.fsw rm slot clean go).illegal lead x = ([rm].any (fun n => !fieldExists lead n)) := by
  change ([rm].any (fun n => !fieldExists lead n) || (!lead && false) || (lead && false) || false) = _
  simp

theorem priv_fsw (lead : Bool) (x : Core) (rm slot : Nat) (clean go : Bool) :
    (Ifa.fsw rm slot clean go).priv lead x = (x.bit pswUSER && lead) := by
  change (x.bit pswUSER && (lead || [].any fieldPriv)) = _
  simp

theorem illegal_fld (lead : Bool) (x : Core) (rm slot : Nat) (verify hbm : Bool) :
    (Ifa.fld rm slot verify hbm).illegal lead x = ([rm].any (fun n => !fieldExists lead n)) := by
  change ([rm].any (fun n => !fieldExists lead n) || (!lead && false) || (lead && false) || false) = _
  simp

theorem priv_fld (lead : Bool) (x : Core) (rm slot : Nat) (verify hbm : Bool) :
    (Ifa.fld rm slot verify hbm).priv lead x = (x.bit pswUSER && lead) := by
  change (x.bit pswUSER && (lead || [].any fieldPriv)) = _
  simp

theorem illegal_qput (lead : Bool) (x : Core) (rd rm q epm : Nat) :
    (Ifa.qput rd rm q epm).illegal lead x = ([rd, rm].any (fun n => !fieldExists lead n)) := by
  change ([rd, rm].any (fun n => !fieldExists lead n) || (!lead && false) || (lead && false) || false) = _
  simp

theorem priv_qput (lead : Bool) (x : Core) (rd rm q epm : Nat) :
    (Ifa.qput rd rm q epm).priv lead x = (x.bit pswUSER && lead) := by
  change (x.bit pswUSER && (lead || [].any fieldPriv)) = _
  simp

theorem illegal_qget (lead : Bool) (x : Core) (rd rs rm q : Nat) :
    (Ifa.qget rd rs rm q).illegal lead x = ([rd, rs, rm].any (fun n => !fieldExists lead n)) := by
  change ([rd, rs, rm].any (fun n => !fieldExists lead n) || (!lead && false) || (lead && false) || false) = _
  simp

theorem priv_qget (lead : Bool) (x : Core) (rd rs rm q : Nat) :
    (Ifa.qget rd rs rm q).priv lead x = (x.bit pswUSER && (lead || [rd, rs].any fieldPriv)) := rfl

theorem illegal_qcmd (lead : Bool) (x : Core) (rm q op : Nat) :
    (Ifa.qcmd rm q op).illegal lead x = ([rm].any (fun n => !fieldExists lead n)) := by
  change ([rm].any (fun n => !fieldExists lead n) || (!lead && false) || (lead && false) || false) = _
  simp

theorem priv_qcmd (lead : Bool) (x : Core) (rm q op : Nat) :
    (Ifa.qcmd rm q op).priv lead x = (x.bit pswUSER && lead) := by
  change (x.bit pswUSER && (lead || [].any fieldPriv)) = _
  simp

theorem illegal_bsch (lead : Bool) (x : Core) (act lo hi ch : Nat) :
    (Ifa.bsch act lo hi ch).illegal lead x = ([act, lo, hi].any (fun n => !fieldExists lead n)) := by
  change ([act, lo, hi].any (fun n => !fieldExists lead n) || (!lead && false) || (lead && false) || false) = _
  simp

theorem priv_bsch (lead : Bool) (x : Core) (act lo hi ch : Nat) :
    (Ifa.bsch act lo hi ch).priv lead x = (x.bit pswUSER && lead) := by
  change (x.bit pswUSER && (lead || [].any fieldPriv)) = _
  simp

theorem illegal_wfb (lead : Bool) (x : Core) (rd seq rm ch : Nat) :
    (Ifa.wfb rd seq rm ch).illegal lead x = ([rd, seq, rm].any (fun n => !fieldExists lead n)) := by
  change ([rd, seq, rm].any (fun n => !fieldExists lead n) || (!lead && false) || (lead && false) || false) = _
  simp

theorem priv_wfb (lead : Bool) (x : Core) (rd seq rm ch : Nat) :
    (Ifa.wfb rd seq rm ch).priv lead x = (x.bit pswUSER && (lead || [rd].any fieldPriv)) := rfl

end Sys2Proof.Machine
end

