-- ==== Sys2Proof/Laws/Keeps.lean ====
section
/-! SUPPORT. What every operation of the model keeps: the canonical form of the register file and the memories, the
queue of waiting commands, what has already left the device, and the numbering of free values. -/

namespace Sys2Proof.Machine

open Sys2Proof

/-- `t` comes from `r` by operations of the model. -/
structure Keeps (r t : State) : Prop where
  canonical : r.canonical = true → t.canonical = true
  pending : t.pending = r.pending
  out : ∃ l, t.out = l ++ r.out
  freeCtr : r.freeCtr ≤ t.freeCtr

theorem Keeps.refl (s : State) : Keeps s s := ⟨id, Eq.refl _, ⟨[], Eq.refl _⟩, Nat.le_refl _⟩

theorem Keeps.trans {r s t : State} (h : Keeps r s) (k : Keeps s t) : Keeps r t := by
  obtain ⟨l, hl⟩ := h.out
  obtain ⟨l', hl'⟩ := k.out
  exact ⟨fun x => k.canonical (h.canonical x), k.pending.trans h.pending, ⟨l' ++ l, by rw [hl', hl, List.append_assoc]⟩,
    Nat.le_trans h.freeCtr k.freeCtr⟩

/-- `Keeps` of the parts of a state that it speaks of; the other parts may change. -/
def KeepsParts (r : State) (regs : RegFile) (shelf : SMap (BitVec 40)) (bm hbm : SMap (BitVec 72)) (ram : SMap (BitVec 39))
    (pending : List Instr) (out : List Emit) (freeCtr : Nat) : Prop :=
  Keeps r { r with
    regs := regs, mem := { r.mem with shelf := shelf, bm := bm, hbm := hbm }, cores := { r.cores with ram := ram }
    pending := pending, out := out, freeCtr := freeCtr }

theorem KeepsParts.of {r s : State} (h : Keeps r s) :
    KeepsParts r s.regs s.mem.shelf s.mem.bm s.mem.hbm s.cores.ram s.pending s.out s.freeCtr :=
  ⟨h.canonical, h.pending, h.out, h.freeCtr⟩

theorem KeepsParts.free {r s : State} {n : Nat} (h : Keeps r s) :
    KeepsParts r s.regs s.mem.shelf s.mem.bm s.mem.hbm s.cores.ram s.pending s.out (s.freeCtr + n) :=
  ⟨h.canonical, h.pending, h.out, Nat.le_trans h.freeCtr (Nat.le_add_right _ _)⟩

theorem KeepsParts.shelf {r s : State} {x : SMap (BitVec 40)} (h : Keeps r s) (hx : SMap.wf s.mem.shelf 0 = true → SMap.wf x 0 = true) :
    KeepsParts r s.regs x s.mem.bm s.mem.hbm s.cores.ram s.pending s.out s.freeCtr := by
  refine ⟨fun hr => ?_, h.pending, h.out, h.freeCtr⟩
  have hc := h.canonical hr
  simp only [State.canonical, Memories.wf, Bool.and_eq_true] at hc ⊢
  exact ⟨⟨hc.1.1, ⟨⟨hx hc.1.2.1.1, hc.1.2.1.2⟩, hc.1.2.2⟩⟩, hc.2⟩

theorem KeepsParts.bm {r s : State} {x : SMap (BitVec 72)} (h : Keeps r s) (hx : SMap.wf s.mem.bm 0 = true → SMap.wf x 0 = true) :
    KeepsParts r s.regs s.mem.shelf x s.mem.hbm s.cores.ram s.pending s.out s.freeCtr := by
  refine ⟨fun hr => ?_, h.pending, h.out, h.freeCtr⟩
  have hc := h.canonical hr
  simp only [State.canonical, Memories.wf, Bool.and_eq_true] at hc ⊢
  exact ⟨⟨hc.1.1, ⟨⟨hc.1.2.1.1, hx hc.1.2.1.2⟩, hc.1.2.2⟩⟩, hc.2⟩

theorem KeepsParts.hbm {r s : State} {x : SMap (BitVec 72)} (h : Keeps r s) (hx : SMap.wf s.mem.hbm 0 = true → SMap.wf x 0 = true) :
    KeepsParts r s.regs s.mem.shelf s.mem.bm x s.cores.ram s.pending s.out s.freeCtr := by
  refine ⟨fun hr => ?_, h.pending, h.out, h.freeCtr⟩
  have hc := h.canonical hr
  simp only [State.canonical, Memories.wf, Bool.and_eq_true] at hc ⊢
  exact ⟨⟨hc.1.1, ⟨hc.1.2.1, hx hc.1.2.2⟩⟩, hc.2⟩

theorem KeepsParts.ram {r s : State} {x : SMap (BitVec 39)} (h : Keeps r s) (hx : SMap.wf s.cores.ram 0 = true → SMap.wf x 0 = true) :
    KeepsParts r s.regs s.mem.shelf s.mem.bm s.mem.hbm x s.pending s.out s.freeCtr := by
  refine ⟨fun hr => ?_, h.pending, h.out, h.freeCtr⟩
  have hc := h.canonical hr
  simp only [State.canonical, Memories.wf, Bool.and_eq_true] at hc ⊢
  exact ⟨hc.1, hx hc.2⟩

theorem keeps_mk (r : State) (regs tb cycle was pos phc tempo fab col) (mem : Memories) (ridge power pair lanes) (cores : Cores)
    (host out freeCtr pending) :
    Keeps r (State.mk regs tb cycle was pos phc tempo fab col mem ridge power pair lanes cores host out freeCtr
      pending) ↔
      KeepsParts r regs mem.shelf mem.bm mem.hbm cores.ram pending out freeCtr :=
  ⟨fun h => ⟨h.canonical, h.pending, h.out, h.freeCtr⟩, fun h => ⟨h.canonical, h.pending, h.out, h.freeCtr⟩⟩

theorem Keeps.regs {r s : State} {x : RegFile} (h : Keeps r s) (hx : s.regs.wf = true → x.wf = true) :
    Keeps r { s with regs := x } := by
  refine h.trans ⟨fun hc => ?_, Eq.refl _, ⟨[], Eq.refl _⟩, Nat.le_refl _⟩
  simp only [State.canonical, Bool.and_eq_true] at hc ⊢
  exact ⟨⟨hx hc.1.1, hc.1.2⟩, hc.2⟩

theorem Keeps.mem {r s : State} {x : Memories} (h : Keeps r s) (hx : s.mem.wf = true → x.wf = true) :
    Keeps r { s with mem := x } := by
  refine h.trans ⟨fun hc => ?_, Eq.refl _, ⟨[], Eq.refl _⟩, Nat.le_refl _⟩
  simp only [State.canonical, Bool.and_eq_true] at hc ⊢
  exact ⟨⟨hc.1.1, hx hc.1.2⟩, hc.2⟩

theorem Keeps.ram {r s : State} {x : Cores} (h : Keeps r s) (hx : SMap.wf s.cores.ram 0 = true → SMap.wf x.ram 0 = true) :
    Keeps r { s with cores := x } := by
  refine h.trans ⟨fun hc => ?_, Eq.refl _, ⟨[], Eq.refl _⟩, Nat.le_refl _⟩
  simp only [State.canonical, Bool.and_eq_true] at hc ⊢
  exact ⟨hc.1, hx hc.2⟩

/-! ### Folds and choices -/

theorem Keeps.foldl {α : Type} {r : State} {f : State → α → State} (hf : ∀ t a, Keeps r t → Keeps r (f t a)) (l : List α)
    {s : State} (h : Keeps r s) : Keeps r (l.foldl f s) := by
  induction l generalizing s with
  | nil => exact h
  | cons a l ih => exact ih (hf s a h)

theorem Keeps.foldl_snd {α β : Type} {r : State} {f : β × State → α → β × State}
    (hf : ∀ p a, Keeps r p.2 → Keeps r (f p a).2) (l : List α) {p : β × State} (h : Keeps r p.2) :
    Keeps r (l.foldl f p).2 := by
  induction l generalizing p with
  | nil => exact h
  | cons a l ih => exact ih (hf p a h)

theorem Keeps.each {r s : State} {n : Nat} {f : Nat → State → State} (h : Keeps r s)
    (hf : ∀ i t, Keeps r t → Keeps r (f i t)) : Keeps r (s.each n f) :=
  Keeps.foldl (fun t i => hf i t) _ h

theorem Keeps.when {r s : State} {b : Bool} {f : State → State} (h : Keeps r s)
    (hf : ∀ t, Keeps r t → Keeps r (f t)) : Keeps r (s.when b f) := by
  unfold State.when
  cases b
  · exact h
  · exact hf s h

theorem Keeps.of_ite {α : Type} {r t : State} {c : Prop} [Decidable c] {x y : α × State} {a : α}
    (e : (if c then x else y) = (a, t)) (hx : Keeps r x.2) (hy : Keeps r y.2) : Keeps r t := by
  split at e
  · rwa [e] at hx
  · rwa [e] at hy

/-! ### Registers, what leaves, free values -/

theorem Keeps.put {r s : State} {f : Fld} {v : Nat} (h : Keeps r s) : Keeps r (s.put f v) :=
  h.regs (RegFile.wf_put s.regs f v)

theorem Keeps.resetWhere {r s : State} {p : Fld → Bool} (h : Keeps r s) : Keeps r (resetFields p s) :=
  h.regs (RegFile.wf_resetWhere s.regs p)

theorem Keeps.emit {r s : State} {e : Emit} (h : Keeps r s) : Keeps r (s.emit e) :=
  h.trans ⟨id, Eq.refl _, ⟨[e], Eq.refl _⟩, Nat.le_refl _⟩

theorem Keeps.nextFree_snd {r s : State} (h : Keeps r s) : Keeps r s.nextFree.2 :=
  h.trans ⟨id, Eq.refl _, ⟨[], Eq.refl _⟩, Nat.le_succ _⟩

theorem Keeps.nextFree {r s t : State} {n : Nat} (e : s.nextFree = (n, t)) (h : Keeps r s) : Keeps r t := by
  obtain ⟨-, rfl⟩ := Prod.mk.inj e
  exact h.trans ⟨id, Eq.refl _, ⟨[], Eq.refl _⟩, Nat.le_succ _⟩

/-! ### Results that hold a state -/

/-- The state in `x`, if there is one, comes from `r`. -/
inductive OptKeeps (r : State) : Option State → Prop where
  | some {s : State} (h : Keeps r s) : OptKeeps r (some s)
  | none : OptKeeps r none

theorem OptKeeps.of_some {r s : State} {x : Option State} (h : OptKeeps r x) (e : x = Option.some s) : Keeps r s := by
  subst e
  cases h
  assumption

theorem OptKeeps.getD {r s : State} {x : Option State} (h : OptKeeps r x) (hs : Keeps r s) : Keeps r (x.getD s) := by
  cases h
  · assumption
  · exact hs

theorem OptKeeps.map {α : Type} {r : State} {f : α → State} (x : Option α) (h : ∀ a, Keeps r (f a)) : OptKeeps r (x.map f) := by
  cases x
  · exact .none
  · exact .some (h _)

theorem OptKeeps.bind {α : Type} {r : State} {f : α → Option State} (x : Option α) (h : ∀ a, OptKeeps r (f a)) :
    OptKeeps r (x.bind f) := by
  cases x
  · exact .none
  · exact h _

/-- The same of what a read of a register answers: a word, its P bit, and the state after it. -/
inductive ReadKeeps (r : State) : Option (Word × Bool × State) → Prop where
  | some {w : Word} {p : Bool} {s : State} (h : Keeps r s) : ReadKeeps r (some (w, p, s))
  | none : ReadKeeps r none

theorem ReadKeeps.of_some {r s : State} {w : Word} {p : Bool} {x : Option (Word × Bool × State)} (h : ReadKeeps r x)
    (e : x = Option.some (w, p, s)) : Keeps r s := by
  subst e
  cases h
  assumption

theorem ReadKeeps.map {α : Type} {r : State} {f : α → Word × Bool × State} (x : Option α) (h : ∀ a, Keeps r (f a).2.2) :
    ReadKeeps r (x.map f) := by
  cases x
  · exact .none
  · exact .some (h _)

theorem ReadKeeps.bind {α : Type} {r : State} {f : α → Option (Word × Bool × State)} (x : Option α)
    (h : ∀ a, ReadKeeps r (f a)) : ReadKeeps r (x.bind f) := by
  cases x
  · exact .none
  · exact h _

end Sys2Proof.Machine
end

