-- ==== Sys2Proof/Laws/KeepsOps.lean ====
section
/-! SUPPORT. What the operations of Machine/Ops.lean keep (Laws/Keeps.lean). -/

namespace Sys2Proof.Machine

open Sys2Proof

theorem State.putB_keeps {s₀ : State} {s : State} {f : Fld} {b : Bool}
    (hk : Keeps s₀ s) : Keeps s₀ (State.putB s f b) := by
  unfold State.putB
  try dsimp only
  repeat' first
    | with_reducible assumption
    | dsimp only
    | with_reducible apply Keeps.put
    | split
    | intro _ _ _
    | intro _ _
    | intro _

theorem State.load_keeps {s₀ : State} {s : State} {f : Fld} {v : Word}
    (hk : Keeps s₀ s) : Keeps s₀ (State.load s f v) := by
  unfold State.load
  try dsimp only
  repeat' first
    | with_reducible assumption
    | dsimp only
    | with_reducible apply Keeps.put
    | split
    | intro _ _ _
    | intro _ _
    | intro _

theorem State.loadAll_keeps {r s : State} {v : Word} {l : List Fld} (hk : Keeps r s) : Keeps r (s.loadAll v l) := by
  induction l generalizing s with
  | nil => exact hk
  | cons f l ih => exact ih (State.load_keeps hk)

theorem State.count_keeps {s₀ : State} {s : State} {f : Fld} {n : Nat}
    (hk : Keeps s₀ s) : Keeps s₀ (State.count s f n) := by
  unfold State.count
  try dsimp only
  repeat' first
    | with_reducible assumption
    | dsimp only
    | with_reducible apply Keeps.put
    | split
    | intro _ _ _
    | intro _ _
    | intro _

theorem State.irq_keeps {s₀ : State} {s : State} {base i : Nat}
    (hk : Keeps s₀ s) : Keeps s₀ (State.irq s base i) := by
  unfold State.irq
  try dsimp only
  repeat' first
    | with_reducible assumption
    | dsimp only
    | with_reducible apply Keeps.put
    | split
    | intro _ _ _
    | intro _ _
    | intro _

theorem State.setIrq_keeps {s₀ : State} {s : State} {f : Fld} {base i : Nat}
    (hk : Keeps s₀ s) : Keeps s₀ (State.setIrq s f base i) := by
  unfold State.setIrq
  try dsimp only
  repeat' first
    | with_reducible assumption
    | dsimp only
    | with_reducible apply State.irq_keeps
    | with_reducible apply Keeps.put
    | with_reducible apply Keeps.when
    | split
    | intro _ _ _
    | intro _ _
    | intro _

theorem State.put2_keeps {s₀ : State} {s : State} {lo hi : Fld} {v : Nat}
    (hk : Keeps s₀ s) : Keeps s₀ (State.put2 s lo hi v) := by
  unfold State.put2
  try dsimp only
  repeat' first
    | with_reducible assumption
    | dsimp only
    | with_reducible apply Keeps.put
    | split
    | intro _ _ _
    | intro _ _
    | intro _

end Sys2Proof.Machine
end

