-- ==== Sys2Proof/Laws/KeepsNet.lean ====
section
/-! SUPPORT. What the operations of Machine/Net.lean keep (Laws/Keeps.lean). -/

namespace Sys2Proof.Machine

open Sys2Proof

theorem State.setNiQueue_keeps {s₀ : State} {s : State} {n v : Nat} {l : List Packet}
    (hk : Keeps s₀ s) : Keeps s₀ (State.setNiQueue s n v l) := by
  unfold State.setNiQueue
  try dsimp only
  repeat' first
    | with_reducible assumption
    | dsimp only
    | split
    | intro _ _ _
    | intro _ _
    | intro _
    | (simp only [keeps_mk]; first | refine KeepsParts.of ?_)

theorem State.setInbox_keeps {s₀ : State} {s : State} {n : Nat} {l : List Packet}
    (hk : Keeps s₀ s) : Keeps s₀ (State.setInbox s n l) := by
  unfold State.setInbox
  try dsimp only
  repeat' first
    | with_reducible assumption
    | dsimp only
    | split
    | intro _ _ _
    | intro _ _
    | intro _
    | (simp only [keeps_mk]; first | refine KeepsParts.of ?_)

theorem State.setOutReqs_keeps {s₀ : State} {s : State} {n : Nat} {l : List OutReq}
    (hk : Keeps s₀ s) : Keeps s₀ (State.setOutReqs s n l) := by
  unfold State.setOutReqs
  try dsimp only
  repeat' first
    | with_reducible assumption
    | dsimp only
    | with_reducible apply Keeps.put
    | split
    | intro _ _ _
    | intro _ _
    | intro _
    | (simp only [keeps_mk]; first | refine KeepsParts.of ?_)

theorem State.setWakeBuf_keeps {s₀ : State} {s : State} {m : Nat} {l : List Packet}
    (hk : Keeps s₀ s) : Keeps s₀ (State.setWakeBuf s m l) := by
  unfold State.setWakeBuf
  try dsimp only
  repeat' first
    | with_reducible assumption
    | dsimp only
    | split
    | intro _ _ _
    | intro _ _
    | intro _
    | (simp only [keeps_mk]; first | refine KeepsParts.of ?_)

theorem niSend_keeps {s₀ : State} {p : Packet} {s : State}
    (hk : Keeps s₀ s) : Keeps s₀ (niSend p s) := by
  unfold niSend
  try dsimp only
  repeat' first
    | with_reducible assumption
    | dsimp only
    | with_reducible apply State.setNiQueue_keeps
    | with_reducible apply Keeps.when
    | split
    | intro _ _ _
    | intro _ _
    | intro _

theorem niRequest_keeps {s₀ : State} {owner : TagOwner} {p : Packet} {s : State}
    (hk : Keeps s₀ s) : Keeps s₀ (niRequest owner p s) := by
  unfold niRequest
  try dsimp only
  repeat' first
    | with_reducible assumption
    | dsimp only
    | with_reducible apply State.setOutReqs_keeps
    | with_reducible apply niSend_keeps
    | with_reducible apply Keeps.when
    | split
    | intro _ _ _
    | intro _ _
    | intro _
    | (simp only [keeps_mk]; first | refine KeepsParts.of ?_)

theorem State.setWire_keeps {s₀ : State} {s : State} {k : Nat} {w : Wire}
    (hk : Keeps s₀ s) : Keeps s₀ (State.setWire s k w) := by
  unfold State.setWire
  try dsimp only
  repeat' first
    | with_reducible assumption
    | dsimp only
    | split
    | intro _ _ _
    | intro _ _
    | intro _
    | (simp only [keeps_mk]; first | refine KeepsParts.of ?_)

theorem wireRewind_keeps {s₀ : State} {k : Nat} {s : State}
    (hk : Keeps s₀ s) : Keeps s₀ (wireRewind k s) := by
  unfold wireRewind
  try dsimp only
  repeat' first
    | with_reducible assumption
    | dsimp only
    | with_reducible apply State.setWire_keeps
    | with_reducible apply Keeps.when
    | split
    | intro _ _ _
    | intro _ _
    | intro _
    | (simp only [keeps_mk]; first | refine KeepsParts.of ?_)

theorem wireEnd_keeps {s₀ : State} {k : Nat} {s : State}
    (hk : Keeps s₀ s) : Keeps s₀ (wireEnd k s) := by
  unfold wireEnd
  try dsimp only
  repeat' first
    | with_reducible assumption
    | dsimp only
    | with_reducible apply State.setWire_keeps
    | with_reducible apply Keeps.when
    | split
    | intro _ _ _
    | intro _ _
    | intro _

theorem wireIssue_keeps {s₀ : State} {k : Nat} {x0 : Nat} {x1 : List Packet} {s : State}
    (hk : Keeps s₀ s) : Keeps s₀ (wireIssue k x0 x1 s) := by
  induction x1 generalizing k x0 s with
  | nil =>
    simp only [wireIssue]
    repeat' first
      | with_reducible assumption
      | with_reducible apply ih
      | dsimp only
      | with_reducible apply State.setWire_keeps
      | with_reducible apply niRequest_keeps
      | split
      | intro _ _ _
      | intro _ _
      | intro _
      | (simp only [keeps_mk]; first | refine KeepsParts.of ?_)
  | cons a l ih =>
    simp only [wireIssue]
    repeat' first
      | with_reducible assumption
      | with_reducible apply ih
      | dsimp only
      | with_reducible apply State.setWire_keeps
      | with_reducible apply niRequest_keeps
      | split
      | intro _ _ _
      | intro _ _
      | intro _
      | (simp only [keeps_mk]; first | refine KeepsParts.of ?_)

theorem wireAsk_keeps_snd {s₀ : State} {k : Nat} {ps : List Packet} {s : State}
    (hk : Keeps s₀ s) : Keeps s₀ (wireAsk k ps s).2 := by
  unfold wireAsk
  try dsimp only
  repeat' first
    | with_reducible assumption
    | dsimp only
    | with_reducible apply State.setWire_keeps
    | with_reducible apply wireIssue_keeps
    | dsimp only [id]
    | split
    | intro _ _ _
    | intro _ _
    | intro _
    | (simp only [keeps_mk]; first | refine KeepsParts.of ?_)

theorem wireAsk_keeps {s₀ : State} {k : Nat} {ps : List Packet} {s : State} {y₁ t₁} (e₁ : wireAsk k ps s = (y₁, t₁))
    (hk : Keeps s₀ s) : Keeps s₀ t₁ := by
  have k := wireAsk_keeps_snd (s₀ := s₀) (k := k) (ps := ps) (s := s) hk
  rw [e₁] at k
  exact k

theorem wireReply_keeps {s₀ : State} {k i gen : Nat} {a : VnReply} {s : State}
    (hk : Keeps s₀ s) : Keeps s₀ (wireReply k i gen a s) := by
  unfold wireReply
  try dsimp only
  repeat' first
    | with_reducible assumption
    | dsimp only
    | with_reducible apply State.setWire_keeps
    | with_reducible apply Keeps.when
    | split
    | intro _ _ _
    | intro _ _
    | intro _
    | (simp only [keeps_mk]; first | refine KeepsParts.of ?_)

theorem takeInbox_keeps {s₀ : State} {p : Packet} {s : State}
    (hk : Keeps s₀ s) : Keeps s₀ (takeInbox p s) := by
  unfold takeInbox
  try dsimp only
  repeat' first
    | with_reducible assumption
    | dsimp only
    | with_reducible apply State.setInbox_keeps
    | split
    | intro _ _ _
    | intro _ _
    | intro _

theorem joinInbox_keeps {s₀ : State} {p : Packet} {s : State}
    (hk : Keeps s₀ s) : Keeps s₀ (joinInbox p s) := by
  unfold joinInbox
  try dsimp only
  repeat' first
    | with_reducible assumption
    | dsimp only
    | with_reducible apply State.setInbox_keeps
    | split
    | intro _ _ _
    | intro _ _
    | intro _
    | (simp only [keeps_mk]; first | refine KeepsParts.of ?_)

end Sys2Proof.Machine
end

