-- ==== Sys2Proof/Laws/KeepsSecded.lean ====
section
/-! SUPPORT. What the operations of Machine/Secded.lean keep (Laws/Keeps.lean). -/

namespace Sys2Proof.Machine

open Sys2Proof


end Sys2Proof.Machine
end

