-- ==== Sys2Proof/Laws/KeepsMemories.lean ====
section
/-! SUPPORT. What the operations of Machine/Memories.lean keep (Laws/Keeps.lean). -/

namespace Sys2Proof.Machine

open Sys2Proof

theorem State.setShelf_keeps {s₀ : State} {s : State} {m : Nat} {h : Shelf}
    (hk : Keeps s₀ s) : Keeps s₀ (State.setShelf s m h) := by
  unfold State.setShelf
  try dsimp only
  repeat' first
    | with_reducible assumption
    | dsimp only
    | split
    | intro _ _ _
    | intro _ _
    | intro _
    | (simp only [keeps_mk]; first | refine KeepsParts.of ?_)

theorem State.setShelfCell_keeps {s₀ : State} {s : State} {m w : Nat} {v : BitVec 40}
    (hk : Keeps s₀ s) : Keeps s₀ (State.setShelfCell s m w v) := by
  unfold State.setShelfCell
  try dsimp only
  repeat' first
    | with_reducible assumption
    | dsimp only
    | split
    | intro _ _ _
    | intro _ _
    | intro _
    | (simp only [keeps_mk]; first | refine KeepsParts.of ?_ | refine KeepsParts.shelf ?_ (by first | exact SMap.wf_set _ _ _ _ | exact SMap.wf_clear _ _ _) | refine KeepsParts.bm ?_ (by first | exact SMap.wf_set _ _ _ _ | exact SMap.wf_clear _ _ _) | refine KeepsParts.hbm ?_ (by first | exact SMap.wf_set _ _ _ _ | exact SMap.wf_clear _ _ _ | exact fun _ => SMap.wf_nil _) | refine KeepsParts.ram ?_ (by first | exact SMap.wf_set _ _ _ _ | exact SMap.wf_clear _ _ _))

theorem State.setHbmCell_keeps {s₀ : State} {s : State} {c g : Nat} {v : BitVec 72}
    (hk : Keeps s₀ s) : Keeps s₀ (State.setHbmCell s c g v) := by
  unfold State.setHbmCell
  try dsimp only
  repeat' first
    | with_reducible assumption
    | dsimp only
    | split
    | intro _ _ _
    | intro _ _
    | intro _
    | (simp only [keeps_mk]; first | refine KeepsParts.of ?_ | refine KeepsParts.shelf ?_ (by first | exact SMap.wf_set _ _ _ _ | exact SMap.wf_clear _ _ _) | refine KeepsParts.bm ?_ (by first | exact SMap.wf_set _ _ _ _ | exact SMap.wf_clear _ _ _) | refine KeepsParts.hbm ?_ (by first | exact SMap.wf_set _ _ _ _ | exact SMap.wf_clear _ _ _ | exact fun _ => SMap.wf_nil _) | refine KeepsParts.ram ?_ (by first | exact SMap.wf_set _ _ _ _ | exact SMap.wf_clear _ _ _))

theorem State.setChan_keeps {s₀ : State} {s : State} {c : Nat} {h : HbmChannel}
    (hk : Keeps s₀ s) : Keeps s₀ (State.setChan s c h) := by
  unfold State.setChan
  try dsimp only
  repeat' first
    | with_reducible assumption
    | dsimp only
    | split
    | intro _ _ _
    | intro _ _
    | intro _
    | (simp only [keeps_mk]; first | refine KeepsParts.of ?_)

theorem State.setBmRow_keeps {s₀ : State} {s : State} {m k r : Nat} {v : BitVec 72}
    (hk : Keeps s₀ s) : Keeps s₀ (State.setBmRow s m k r v) := by
  unfold State.setBmRow
  try dsimp only
  repeat' first
    | with_reducible assumption
    | dsimp only
    | split
    | intro _ _ _
    | intro _ _
    | intro _
    | (simp only [keeps_mk]; first | refine KeepsParts.of ?_ | refine KeepsParts.shelf ?_ (by first | exact SMap.wf_set _ _ _ _ | exact SMap.wf_clear _ _ _) | refine KeepsParts.bm ?_ (by first | exact SMap.wf_set _ _ _ _ | exact SMap.wf_clear _ _ _) | refine KeepsParts.hbm ?_ (by first | exact SMap.wf_set _ _ _ _ | exact SMap.wf_clear _ _ _ | exact fun _ => SMap.wf_nil _) | refine KeepsParts.ram ?_ (by first | exact SMap.wf_set _ _ _ _ | exact SMap.wf_clear _ _ _))

theorem State.errUncorr_keeps {s₀ : State} {s : State} {base lo hi : Nat}
    (hk : Keeps s₀ s) : Keeps s₀ (State.errUncorr s base lo hi) := by
  unfold State.errUncorr
  try dsimp only
  repeat' first
    | with_reducible assumption
    | dsimp only
    | with_reducible apply State.count_keeps
    | with_reducible apply Keeps.put
    | split
    | intro _ _ _
    | intro _ _
    | intro _

theorem queueRepair_keeps {s₀ : State} {m w : Nat} {s : State}
    (hk : Keeps s₀ s) : Keeps s₀ (queueRepair m w s) := by
  unfold queueRepair
  try dsimp only
  repeat' first
    | with_reducible assumption
    | dsimp only
    | with_reducible apply State.setShelf_keeps
    | with_reducible apply Keeps.when
    | split
    | intro _ _ _
    | intro _ _
    | intro _
    | (simp only [keeps_mk]; first | refine KeepsParts.of ?_)

theorem repairNeeds_keeps {s₀ : State} {row cause : Nat} {s : State}
    (hk : Keeps s₀ s) : Keeps s₀ (repairNeeds row cause s) := by
  unfold repairNeeds
  try dsimp only
  repeat' first
    | with_reducible assumption
    | dsimp only
    | with_reducible apply Keeps.when
    | split
    | intro _ _ _
    | intro _ _
    | intro _
    | (simp only [keeps_mk]; first | refine KeepsParts.of ?_)

theorem smcRowCount_keeps {s₀ : State} {row : Nat} {s : State}
    (hk : Keeps s₀ s) : Keeps s₀ (smcRowCount row s) := by
  unfold smcRowCount
  try dsimp only
  repeat' first
    | with_reducible assumption
    | dsimp only
    | with_reducible apply repairNeeds_keeps
    | with_reducible apply Keeps.when
    | with_reducible apply Keeps.foldl
    | with_reducible apply Keeps.foldl_snd
    | split
    | intro _ _ _
    | intro _ _
    | intro _
    | (simp only [keeps_mk]; first | refine KeepsParts.of ?_)

theorem shelfCorrected_keeps {s₀ : State} {m w synd req : Nat} {s : State}
    (hk : Keeps s₀ s) : Keeps s₀ (shelfCorrected m w synd req s) := by
  unfold shelfCorrected
  try dsimp only
  repeat' first
    | with_reducible assumption
    | dsimp only
    | with_reducible apply State.count_keeps
    | with_reducible apply State.irq_keeps
    | with_reducible apply Keeps.put
    | with_reducible apply State.setShelf_keeps
    | with_reducible apply smcRowCount_keeps
    | split
    | intro _ _ _
    | intro _ _
    | intro _
    | (simp only [keeps_mk]; first | refine KeepsParts.of ?_)

theorem shelfUncorrectable_keeps {s₀ : State} {m w synd req : Nat} {s : State}
    (hk : Keeps s₀ s) : Keeps s₀ (shelfUncorrectable m w synd req s) := by
  unfold shelfUncorrectable
  try dsimp only
  repeat' first
    | with_reducible assumption
    | dsimp only
    | with_reducible apply State.errUncorr_keeps
    | with_reducible apply State.irq_keeps
    | with_reducible apply repairNeeds_keeps
    | split
    | intro _ _ _
    | intro _ _
    | intro _

theorem shelfRead_keeps_snd {s₀ : State} {m w req : Nat} {s : State}
    (hk : Keeps s₀ s) : Keeps s₀ (shelfRead m w req s).2.2 := by
  unfold shelfRead
  try dsimp only
  repeat' first
    | with_reducible assumption
    | dsimp only
    | with_reducible apply State.count_keeps
    | with_reducible apply Keeps.put
    | with_reducible apply queueRepair_keeps
    | with_reducible apply shelfCorrected_keeps
    | with_reducible apply shelfUncorrectable_keeps
    | split
    | intro _ _ _
    | intro _ _
    | intro _
    | (simp only [keeps_mk]; first | refine KeepsParts.of ?_)

theorem shelfRead_keeps {s₀ : State} {m w req : Nat} {s : State} {y₁ y₂ t₁} (e₁ : shelfRead m w req s = (y₁, y₂, t₁))
    (hk : Keeps s₀ s) : Keeps s₀ t₁ := by
  have k := shelfRead_keeps_snd (s₀ := s₀) (m := m) (w := w) (req := req) (s := s) hk
  rw [e₁] at k
  exact k

theorem mirrorBreak_keeps {s₀ : State} {s : State}
    (hk : Keeps s₀ s) : Keeps s₀ (mirrorBreak s) := by
  unfold mirrorBreak
  try dsimp only
  repeat' first
    | with_reducible assumption
    | dsimp only
    | with_reducible apply State.count_keeps
    | with_reducible apply Keeps.emit
    | with_reducible apply State.setIrq_keeps
    | with_reducible apply Keeps.when
    | split
    | intro _ _ _
    | intro _ _
    | intro _
    | (simp only [keeps_mk]; first | refine KeepsParts.of ?_)

theorem ringStore_keeps {s₀ : State} {base size : Nat} {x0 : Nat} {x1 : Nat} {x2 : List (Word × Bool)} {s : State}
    (hk : Keeps s₀ s) : Keeps s₀ (ringStore base size x0 x1 x2 s) := by
  induction x0 generalizing base size x1 x2 s with
  | zero =>
    simp only [ringStore]
    repeat' first
      | with_reducible assumption
      | with_reducible apply ih
      | dsimp only
      | with_reducible apply niSend_keeps
      | split
      | intro _ _ _
      | intro _ _
      | intro _
  | succ n ih =>
    simp only [ringStore]
    repeat' first
      | with_reducible assumption
      | with_reducible apply ih
      | dsimp only
      | with_reducible apply niSend_keeps
      | split
      | intro _ _ _
      | intro _ _
      | intro _

theorem mbufStore_keeps {s₀ : State} {header : Bool} {ws : List (Word × Bool)} {s : State}
    (hk : Keeps s₀ s) : Keeps s₀ (mbufStore header ws s) := by
  unfold mbufStore
  try dsimp only
  repeat' first
    | with_reducible assumption
    | dsimp only
    | with_reducible apply ringStore_keeps
    | split
    | intro _ _ _
    | intro _ _
    | intro _
    | (simp only [keeps_mk]; first | refine KeepsParts.of ?_ | refine KeepsParts.free ?_)

theorem mirrorWrite_keeps {s₀ : State} {m w : Nat} {d : Word} {p : Bool} {s : State}
    (hk : Keeps s₀ s) : Keeps s₀ (mirrorWrite m w d p s) := by
  unfold mirrorWrite
  try dsimp only
  repeat' first
    | with_reducible assumption
    | dsimp only
    | with_reducible apply mbufStore_keeps
    | with_reducible apply mirrorBreak_keeps
    | split
    | intro _ _ _
    | intro _ _
    | intro _
    | (simp only [keeps_mk]; first | refine KeepsParts.of ?_)

theorem shelfWrite_keeps {s₀ : State} {m w : Nat} {d : Word} {p : Bool} {s : State}
    (hk : Keeps s₀ s) : Keeps s₀ (shelfWrite m w d p s) := by
  unfold shelfWrite
  try dsimp only
  repeat' first
    | with_reducible assumption
    | dsimp only
    | with_reducible apply State.setShelf_keeps
    | with_reducible apply State.setShelfCell_keeps
    | with_reducible apply mirrorWrite_keeps
    | split
    | intro _ _ _
    | intro _ _
    | intro _

theorem shelfWriteBytes_keeps {s₀ : State} {m w req : Nat} {bs : List (Nat × Byte)} {p : Bool} {s : State}
    (hk : Keeps s₀ s) : Keeps s₀ (shelfWriteBytes m w req bs p s) := by
  unfold shelfWriteBytes
  try dsimp only
  repeat' first
    | with_reducible assumption
    | dsimp only
    | with_reducible refine shelfRead_keeps (by assumption) ?_
    | with_reducible apply shelfRead_keeps_snd
    | with_reducible apply shelfWrite_keeps
    | split
    | intro _ _ _
    | intro _ _
    | intro _

theorem shelfReadWords_keeps_snd {s₀ : State} {m req : Nat} {x0 : Nat} {x1 : Nat} {s : State}
    (hk : Keeps s₀ s) : Keeps s₀ (shelfReadWords m req x0 x1 s).2 := by
  induction x1 generalizing m req x0 s with
  | zero =>
    simp only [shelfReadWords]
    repeat' first
      | with_reducible assumption
      | with_reducible apply ih
      | dsimp only
      | with_reducible refine shelfRead_keeps (by assumption) ?_
      | with_reducible apply shelfRead_keeps_snd
      | split
      | intro _ _ _
      | intro _ _
      | intro _
  | succ n ih =>
    simp only [shelfReadWords]
    repeat' first
      | with_reducible assumption
      | with_reducible apply ih
      | dsimp only
      | with_reducible refine shelfRead_keeps (by assumption) ?_
      | with_reducible apply shelfRead_keeps_snd
      | split
      | intro _ _ _
      | intro _ _
      | intro _

theorem shelfReadWords_keeps {s₀ : State} {m req : Nat} {x0 : Nat} {x1 : Nat} {s : State} {y₁ t₁} (e₁ : shelfReadWords m req x0 x1 s = (y₁, t₁))
    (hk : Keeps s₀ s) : Keeps s₀ t₁ := by
  have k := shelfReadWords_keeps_snd (s₀ := s₀) (m := m) (req := req) (x0 := x0) (x1 := x1) (s := s) hk
  rw [e₁] at k
  exact k

theorem shelfReadBytes_keeps_snd {s₀ : State} {m req a n : Nat} {s : State}
    (hk : Keeps s₀ s) : Keeps s₀ (shelfReadBytes m req a n s).2 := by
  unfold shelfReadBytes
  try dsimp only
  repeat' first
    | with_reducible assumption
    | dsimp only
    | with_reducible refine shelfReadWords_keeps (by assumption) ?_
    | with_reducible apply shelfReadWords_keeps_snd
    | split
    | intro _ _ _
    | intro _ _
    | intro _
    | (simp only [keeps_mk]; first | refine KeepsParts.of ?_)

theorem shelfReadBytes_keeps {s₀ : State} {m req a n : Nat} {s : State} {y₁ t₁} (e₁ : shelfReadBytes m req a n s = (y₁, t₁))
    (hk : Keeps s₀ s) : Keeps s₀ t₁ := by
  have k := shelfReadBytes_keeps_snd (s₀ := s₀) (m := m) (req := req) (a := a) (n := n) (s := s) hk
  rw [e₁] at k
  exact k

theorem shelfClearGroup_keeps {s₀ : State} {m k : Nat} {s : State}
    (hk : Keeps s₀ s) : Keeps s₀ (shelfClearGroup m k s) := by
  unfold shelfClearGroup
  try dsimp only
  repeat' first
    | with_reducible assumption
    | dsimp only
    | split
    | intro _ _ _
    | intro _ _
    | intro _
    | (simp only [keeps_mk]; first | refine KeepsParts.of ?_ | refine KeepsParts.shelf ?_ (by first | exact SMap.wf_set _ _ _ _ | exact SMap.wf_clear _ _ _) | refine KeepsParts.bm ?_ (by first | exact SMap.wf_set _ _ _ _ | exact SMap.wf_clear _ _ _) | refine KeepsParts.hbm ?_ (by first | exact SMap.wf_set _ _ _ _ | exact SMap.wf_clear _ _ _ | exact fun _ => SMap.wf_nil _) | refine KeepsParts.ram ?_ (by first | exact SMap.wf_set _ _ _ _ | exact SMap.wf_clear _ _ _))

theorem shelfClear_keeps {s₀ : State} {m : Nat} {s : State}
    (hk : Keeps s₀ s) : Keeps s₀ (shelfClear m s) := by
  unfold shelfClear
  try dsimp only
  repeat' first
    | with_reducible assumption
    | dsimp only
    | with_reducible apply Keeps.put
    | with_reducible apply State.setShelf_keeps
    | split
    | intro _ _ _
    | intro _ _
    | intro _
    | (simp only [keeps_mk]; first | refine KeepsParts.of ?_)

theorem shelfClearStep_keeps {s₀ : State} {m : Nat} {s : State}
    (hk : Keeps s₀ s) : Keeps s₀ (shelfClearStep m s) := by
  unfold shelfClearStep
  try dsimp only
  repeat' first
    | with_reducible assumption
    | dsimp only
    | with_reducible apply State.setShelf_keeps
    | with_reducible apply shelfClearGroup_keeps
    | split
    | intro _ _ _
    | intro _ _
    | intro _
    | (simp only [keeps_mk]; first | refine KeepsParts.of ?_)

theorem shelfClearDone_keeps {s₀ : State} {m : Nat} {s : State}
    (hk : Keeps s₀ s) : Keeps s₀ (shelfClearDone m s) := by
  unfold shelfClearDone
  try dsimp only
  repeat' first
    | with_reducible assumption
    | dsimp only
    | with_reducible apply State.irq_keeps
    | with_reducible apply Keeps.put
    | with_reducible apply State.setShelf_keeps
    | with_reducible apply shelfClearGroup_keeps
    | with_reducible apply Keeps.when
    | with_reducible apply Keeps.each
    | split
    | intro _ _ _
    | intro _ _
    | intro _
    | (simp only [keeps_mk]; first | refine KeepsParts.of ?_)

theorem repairRequest_keeps {s₀ : State} {m : Nat} {s : State}
    (hk : Keeps s₀ s) : Keeps s₀ (repairRequest m s) := by
  unfold repairRequest
  try dsimp only
  repeat' first
    | with_reducible assumption
    | dsimp only
    | with_reducible apply State.setShelf_keeps
    | with_reducible apply Keeps.when
    | split
    | intro _ _ _
    | intro _ _
    | intro _
    | (simp only [keeps_mk]; first | refine KeepsParts.of ?_)

theorem scrubDue_keeps {s₀ : State} {m : Nat} {s0 : State}
    (hk : Keeps s₀ s0) : Keeps s₀ (scrubDue m s0) := by
  unfold scrubDue
  try dsimp only
  repeat' first
    | with_reducible assumption
    | dsimp only
    | with_reducible apply State.count_keeps
    | with_reducible apply State.irq_keeps
    | with_reducible apply Keeps.put
    | with_reducible apply State.setShelf_keeps
    | with_reducible apply repairRequest_keeps
    | split
    | intro _ _ _
    | intro _ _
    | intro _
    | (simp only [keeps_mk]; first | refine KeepsParts.of ?_)

theorem scrubGrant_keeps {s₀ : State} {m : Nat} {s : State}
    (hk : Keeps s₀ s) : Keeps s₀ (scrubGrant m s) := by
  unfold scrubGrant
  try dsimp only
  repeat' first
    | with_reducible assumption
    | dsimp only
    | with_reducible apply State.count_keeps
    | with_reducible apply State.setShelf_keeps
    | with_reducible apply shelfCorrected_keeps
    | with_reducible apply shelfUncorrectable_keeps
    | split
    | intro _ _ _
    | intro _ _
    | intro _
    | (simp only [keeps_mk]; first | refine KeepsParts.of ?_)

theorem scrubStore_keeps {s₀ : State} {m : Nat} {s : State}
    (hk : Keeps s₀ s) : Keeps s₀ (scrubStore m s) := by
  unfold scrubStore
  try dsimp only
  repeat' first
    | with_reducible assumption
    | dsimp only
    | with_reducible apply State.setShelf_keeps
    | with_reducible apply State.setShelfCell_keeps
    | with_reducible apply mirrorWrite_keeps
    | with_reducible apply Keeps.when
    | split
    | intro _ _ _
    | intro _ _
    | intro _
    | (simp only [keeps_mk]; first | refine KeepsParts.of ?_)

theorem ceRead_keeps {s₀ : State} {m : Nat} {s : State}
    (hk : Keeps s₀ s) : Keeps s₀ (ceRead m s) := by
  unfold ceRead
  try dsimp only
  repeat' first
    | with_reducible assumption
    | dsimp only
    | with_reducible apply State.setShelf_keeps
    | split
    | intro _ _ _
    | intro _ _
    | intro _
    | (simp only [keeps_mk]; first | refine KeepsParts.of ?_)

theorem bmFail_keeps {s₀ : State} {m k a : Nat} {s : State}
    (hk : Keeps s₀ s) : Keeps s₀ (bmFail m k a s) := by
  unfold bmFail
  try dsimp only
  repeat' first
    | with_reducible assumption
    | dsimp only
    | with_reducible apply State.count_keeps
    | with_reducible apply State.errUncorr_keeps
    | with_reducible apply State.irq_keeps
    | split
    | intro _ _ _
    | intro _ _
    | intro _

theorem bmCheck_keeps_snd {s₀ : State} {m k a x : Nat} {s : State}
    (hk : Keeps s₀ s) : Keeps s₀ (bmCheck m k a x s).2 := by
  unfold bmCheck
  try dsimp only
  repeat' first
    | with_reducible assumption
    | dsimp only
    | with_reducible apply State.count_keeps
    | with_reducible apply Keeps.put
    | with_reducible apply bmFail_keeps
    | with_reducible apply Keeps.when
    | split
    | intro _ _ _
    | intro _ _
    | intro _
    | (simp only [keeps_mk]; first | refine KeepsParts.of ?_)

theorem bmCheck_keeps {s₀ : State} {m k a x : Nat} {s : State} {y₁ t₁} (e₁ : bmCheck m k a x s = (y₁, t₁))
    (hk : Keeps s₀ s) : Keeps s₀ t₁ := by
  have k := bmCheck_keeps_snd (s₀ := s₀) (m := m) (k := k) (a := a) (x := x) (s := s) hk
  rw [e₁] at k
  exact k

theorem bmWrite_keeps {s₀ : State} {m k a : Nat} {d : Nat} {e p mk : Bool} {s : State}
    (hk : Keeps s₀ s) : Keeps s₀ (bmWrite m k a d e p mk s) := by
  unfold bmWrite
  try dsimp only
  repeat' first
    | with_reducible assumption
    | dsimp only
    | with_reducible apply State.setBmRow_keeps
    | split
    | intro _ _ _
    | intro _ _
    | intro _

theorem bmPortRead_keeps_snd {s₀ : State} {m k port a : Nat} {s : State}
    (hk : Keeps s₀ s) : Keeps s₀ (bmPortRead m k port a s).2 := by
  unfold bmPortRead
  try dsimp only
  repeat' first
    | with_reducible assumption
    | dsimp only
    | with_reducible refine bmCheck_keeps (by assumption) ?_
    | with_reducible apply bmCheck_keeps_snd
    | split
    | intro _ _ _
    | intro _ _
    | intro _

theorem bmPortRead_keeps {s₀ : State} {m k port a : Nat} {s : State} {y₁ t₁} (e₁ : bmPortRead m k port a s = (y₁, t₁))
    (hk : Keeps s₀ s) : Keeps s₀ t₁ := by
  have k := bmPortRead_keeps_snd (s₀ := s₀) (m := m) (k := k) (port := port) (a := a) (s := s) hk
  rw [e₁] at k
  exact k

theorem bmBin_keeps_snd {s₀ : State} {m k port a : Nat} {s : State}
    (hk : Keeps s₀ s) : Keeps s₀ (bmBin m k port a s).2 := by
  unfold bmBin
  try dsimp only
  repeat' first
    | with_reducible assumption
    | dsimp only
    | with_reducible refine bmCheck_keeps (by assumption) ?_
    | with_reducible apply bmCheck_keeps_snd
    | split
    | intro _ _ _
    | intro _ _
    | intro _
    | (simp only [keeps_mk]; first | refine KeepsParts.of ?_)

theorem bmBin_keeps {s₀ : State} {m k port a : Nat} {s : State} {y₁ t₁} (e₁ : bmBin m k port a s = (y₁, t₁))
    (hk : Keeps s₀ s) : Keeps s₀ t₁ := by
  have k := bmBin_keeps_snd (s₀ := s₀) (m := m) (k := k) (port := port) (a := a) (s := s) hk
  rw [e₁] at k
  exact k

theorem bmCollide_keeps {s₀ : State} {m : Nat} {s : State}
    (hk : Keeps s₀ s) : Keeps s₀ (bmCollide m s) := by
  unfold bmCollide
  try dsimp only
  repeat' first
    | with_reducible assumption
    | dsimp only
    | with_reducible apply State.count_keeps
    | with_reducible apply State.setIrq_keeps
    | split
    | intro _ _ _
    | intro _ _
    | intro _

theorem bmPortWrite_keeps {s₀ : State} {m k port a : Nat} {binc : Bool} {d : Nat} {e p mk : Bool} {s : State}
    (hk : Keeps s₀ s) : Keeps s₀ (bmPortWrite m k port a binc d e p mk s) := by
  unfold bmPortWrite
  try dsimp only
  repeat' first
    | with_reducible assumption
    | dsimp only
    | with_reducible apply bmCollide_keeps
    | with_reducible apply bmWrite_keeps
    | with_reducible apply Keeps.when
    | with_reducible apply Keeps.foldl
    | with_reducible apply Keeps.foldl_snd
    | split
    | intro _ _ _
    | intro _ _
    | intro _
    | (simp only [keeps_mk]; first | refine KeepsParts.of ?_)

theorem bmCfgWrite_keeps {s₀ : State} {m k : Nat} {v : Word} {s : State}
    (hk : Keeps s₀ s) : Keeps s₀ (bmCfgWrite m k v s) := by
  unfold bmCfgWrite
  try dsimp only
  repeat' first
    | with_reducible assumption
    | dsimp only
    | with_reducible apply State.load_keeps
    | with_reducible apply State.setIrq_keeps
    | split
    | intro _ _ _
    | intro _ _
    | intro _

theorem bmAccess_keeps {s₀ : State} {m : Nat} {v : Word} {s : State}
    (hk : Keeps s₀ s) : Keeps s₀ (bmAccess m v s) := by
  unfold bmAccess
  try dsimp only
  repeat' first
    | with_reducible assumption
    | dsimp only
    | with_reducible apply State.load_keeps
    | with_reducible apply Keeps.put
    | with_reducible apply State.setIrq_keeps
    | split
    | intro _ _ _
    | intro _ _
    | intro _
    | (simp only [keeps_mk]; first | refine KeepsParts.of ?_)

theorem bmAccessDone_keeps {s₀ : State} {m : Nat} {s : State}
    (hk : Keeps s₀ s) : Keeps s₀ (bmAccessDone m s) := by
  unfold bmAccessDone
  try dsimp only
  repeat' first
    | with_reducible assumption
    | dsimp only
    | with_reducible apply Keeps.put
    | with_reducible refine bmPortRead_keeps (by assumption) ?_
    | with_reducible apply bmPortRead_keeps_snd
    | with_reducible apply bmPortWrite_keeps
    | split
    | intro _ _ _
    | intro _ _
    | intro _
    | (simp only [keeps_mk]; first | refine KeepsParts.of ?_)

theorem hbmGroupRead_keeps_snd {s₀ : State} {c g : Nat} {s : State}
    (hk : Keeps s₀ s) : Keeps s₀ (hbmGroupRead c g s).2.2 := by
  unfold hbmGroupRead
  try dsimp only
  repeat' first
    | with_reducible assumption
    | dsimp only
    | with_reducible apply State.count_keeps
    | with_reducible apply State.errUncorr_keeps
    | with_reducible apply State.irq_keeps
    | with_reducible apply Keeps.put
    | with_reducible apply State.setChan_keeps
    | split
    | intro _ _ _
    | intro _ _
    | intro _
    | (simp only [keeps_mk]; first | refine KeepsParts.of ?_)

theorem hbmGroupRead_keeps {s₀ : State} {c g : Nat} {s : State} {y₁ y₂ t₁} (e₁ : hbmGroupRead c g s = (y₁, y₂, t₁))
    (hk : Keeps s₀ s) : Keeps s₀ t₁ := by
  have k := hbmGroupRead_keeps_snd (s₀ := s₀) (c := c) (g := g) (s := s) hk
  rw [e₁] at k
  exact k

theorem hbmGroups_keeps_snd {s₀ : State} {c g : Nat} {x0 : Nat} {s : State}
    (hk : Keeps s₀ s) : Keeps s₀ (hbmGroups c g x0 s).2 := by
  induction x0 generalizing c g s with
  | zero =>
    simp only [hbmGroups]
    repeat' first
      | with_reducible assumption
      | with_reducible apply ih
      | dsimp only
      | with_reducible refine hbmGroupRead_keeps (by assumption) ?_
      | with_reducible apply hbmGroupRead_keeps_snd
      | split
      | intro _ _ _
      | intro _ _
      | intro _
  | succ n ih =>
    simp only [hbmGroups]
    repeat' first
      | with_reducible assumption
      | with_reducible apply ih
      | dsimp only
      | with_reducible refine hbmGroupRead_keeps (by assumption) ?_
      | with_reducible apply hbmGroupRead_keeps_snd
      | split
      | intro _ _ _
      | intro _ _
      | intro _

theorem hbmGroups_keeps {s₀ : State} {c g : Nat} {x0 : Nat} {s : State} {y₁ t₁} (e₁ : hbmGroups c g x0 s = (y₁, t₁))
    (hk : Keeps s₀ s) : Keeps s₀ t₁ := by
  have k := hbmGroups_keeps_snd (s₀ := s₀) (c := c) (g := g) (x0 := x0) (s := s) hk
  rw [e₁] at k
  exact k

theorem State.tally_keeps {s₀ : State} {s : State} {f : Fld} {n : Nat}
    (hk : Keeps s₀ s) : Keeps s₀ (State.tally s f n) := by
  unfold State.tally
  try dsimp only
  repeat' first
    | with_reducible assumption
    | dsimp only
    | with_reducible apply Keeps.put
    | split
    | intro _ _ _
    | intro _ _
    | intro _

theorem hbmBlockRead_keeps_snd {s₀ : State} {b : Nat} {s : State}
    (hk : Keeps s₀ s) : Keeps s₀ (hbmBlockRead b s).2 := by
  unfold hbmBlockRead
  try dsimp only
  repeat' first
    | with_reducible assumption
    | dsimp only
    | with_reducible apply State.tally_keeps
    | with_reducible refine hbmGroups_keeps (by assumption) ?_
    | with_reducible apply hbmGroups_keeps_snd
    | split
    | intro _ _ _
    | intro _ _
    | intro _

theorem hbmBlockRead_keeps {s₀ : State} {b : Nat} {s : State} {y₁ t₁} (e₁ : hbmBlockRead b s = (y₁, t₁))
    (hk : Keeps s₀ s) : Keeps s₀ t₁ := by
  have k := hbmBlockRead_keeps_snd (s₀ := s₀) (b := b) (s := s) hk
  rw [e₁] at k
  exact k

theorem hbmBlocks_keeps_snd {s₀ : State} {x0 : List Nat} {s : State}
    (hk : Keeps s₀ s) : Keeps s₀ (hbmBlocks x0 s).2 := by
  induction x0 generalizing s with
  | nil =>
    simp only [hbmBlocks]
    repeat' first
      | with_reducible assumption
      | with_reducible apply ih
      | dsimp only
      | with_reducible refine hbmBlockRead_keeps (by assumption) ?_
      | with_reducible apply hbmBlockRead_keeps_snd
      | split
      | intro _ _ _
      | intro _ _
      | intro _
  | cons a l ih =>
    simp only [hbmBlocks]
    repeat' first
      | with_reducible assumption
      | with_reducible apply ih
      | dsimp only
      | with_reducible refine hbmBlockRead_keeps (by assumption) ?_
      | with_reducible apply hbmBlockRead_keeps_snd
      | split
      | intro _ _ _
      | intro _ _
      | intro _

theorem hbmBlocks_keeps {s₀ : State} {x0 : List Nat} {s : State} {y₁ t₁} (e₁ : hbmBlocks x0 s = (y₁, t₁))
    (hk : Keeps s₀ s) : Keeps s₀ t₁ := by
  have k := hbmBlocks_keeps_snd (s₀ := s₀) (x0 := x0) (s := s) hk
  rw [e₁] at k
  exact k

theorem hbmReadBytes_keeps_snd {s₀ : State} {a n : Nat} {s : State}
    (hk : Keeps s₀ s) : Keeps s₀ (hbmReadBytes a n s).2 := by
  unfold hbmReadBytes
  try dsimp only
  repeat' first
    | with_reducible assumption
    | dsimp only
    | with_reducible refine hbmBlocks_keeps (by assumption) ?_
    | with_reducible apply hbmBlocks_keeps_snd
    | split
    | intro _ _ _
    | intro _ _
    | intro _
    | (simp only [keeps_mk]; first | refine KeepsParts.of ?_)

theorem hbmReadBytes_keeps {s₀ : State} {a n : Nat} {s : State} {y₁ t₁} (e₁ : hbmReadBytes a n s = (y₁, t₁))
    (hk : Keeps s₀ s) : Keeps s₀ t₁ := by
  have k := hbmReadBytes_keeps_snd (s₀ := s₀) (a := a) (n := n) (s := s) hk
  rw [e₁] at k
  exact k

theorem hbmGroupWrite_keeps {s₀ : State} {c g : Nat} {bs : List (Nat × Byte × Bool)} {s : State}
    (hk : Keeps s₀ s) : Keeps s₀ (hbmGroupWrite c g bs s) := by
  unfold hbmGroupWrite
  try dsimp only
  repeat' first
    | with_reducible assumption
    | dsimp only
    | with_reducible apply State.setHbmCell_keeps
    | with_reducible apply Keeps.foldl
    | with_reducible apply Keeps.foldl_snd
    | split
    | intro _ _ _
    | intro _ _
    | intro _

theorem hbmBlockWrite_keeps {s₀ : State} {a : Nat} {data : List (Byte × Bool × Bool)} {b : Nat} {s : State}
    (hk : Keeps s₀ s) : Keeps s₀ (hbmBlockWrite a data b s) := by
  unfold hbmBlockWrite
  try dsimp only
  repeat' first
    | with_reducible assumption
    | dsimp only
    | with_reducible apply State.tally_keeps
    | with_reducible apply hbmGroupWrite_keeps
    | with_reducible refine hbmGroups_keeps (by assumption) ?_
    | with_reducible apply hbmGroups_keeps_snd
    | with_reducible apply Keeps.when
    | with_reducible apply Keeps.foldl
    | with_reducible apply Keeps.foldl_snd
    | split
    | intro _ _ _
    | intro _ _
    | intro _

theorem hbmWriteBytes_keeps {s₀ : State} {a : Nat} {data : List (Byte × Bool × Bool)} {s : State}
    (hk : Keeps s₀ s) : Keeps s₀ (hbmWriteBytes a data s) := by
  unfold hbmWriteBytes
  try dsimp only
  repeat' first
    | with_reducible assumption
    | dsimp only
    | with_reducible apply hbmBlockWrite_keeps
    | with_reducible apply Keeps.foldl
    | with_reducible apply Keeps.foldl_snd
    | split
    | intro _ _ _
    | intro _ _
    | intro _

theorem hbmMapWrite_keeps {s₀ : State} {v : Word} {s : State}
    (hk : Keeps s₀ s) : Keeps s₀ (hbmMapWrite v s) := by
  unfold hbmMapWrite
  try dsimp only
  repeat' first
    | with_reducible assumption
    | dsimp only
    | with_reducible apply State.load_keeps
    | with_reducible apply State.setIrq_keeps
    | split
    | intro _ _ _
    | intro _ _
    | intro _

theorem hbmRefresh_keeps {s₀ : State} {c : Nat} {s : State}
    (hk : Keeps s₀ s) : Keeps s₀ (hbmRefresh c s) := by
  unfold hbmRefresh
  try dsimp only
  repeat' first
    | with_reducible assumption
    | dsimp only
    | with_reducible apply State.irq_keeps
    | with_reducible apply Keeps.put
    | with_reducible apply State.putB_keeps
    | with_reducible apply Keeps.when
    | with_reducible apply Keeps.each
    | split
    | intro _ _ _
    | intro _ _
    | intro _

theorem onDieReport_keeps {s₀ : State} {c od : Nat} {s : State}
    (hk : Keeps s₀ s) : Keeps s₀ (onDieReport c od s) := by
  unfold onDieReport
  try dsimp only
  repeat' first
    | with_reducible assumption
    | dsimp only
    | with_reducible apply State.count_keeps
    | with_reducible apply State.irq_keeps
    | split
    | intro _ _ _
    | intro _ _
    | intro _
    | (simp only [keeps_mk]; first | refine KeepsParts.of ?_)

theorem onDieReports_keeps {s₀ : State} {c : Nat} {l : List Nat} {s : State}
    (hk : Keeps s₀ s) : Keeps s₀ (onDieReports c l s) := by
  unfold onDieReports
  try dsimp only
  repeat' first
    | with_reducible assumption
    | dsimp only
    | with_reducible apply onDieReport_keeps
    | with_reducible apply Keeps.foldl
    | with_reducible apply Keeps.foldl_snd
    | split
    | intro _ _ _
    | intro _ _
    | intro _

theorem hbmScrubGroup_keeps {s₀ : State} {c g : Nat} {s : State}
    (hk : Keeps s₀ s) : Keeps s₀ (hbmScrubGroup c g s) := by
  unfold hbmScrubGroup
  try dsimp only
  repeat' first
    | with_reducible assumption
    | dsimp only
    | with_reducible apply State.setChan_keeps
    | with_reducible apply State.setHbmCell_keeps
    | with_reducible refine hbmGroupRead_keeps (by assumption) ?_
    | with_reducible apply hbmGroupRead_keeps_snd
    | split
    | intro _ _ _
    | intro _ _
    | intro _
    | (simp only [keeps_mk]; first | refine KeepsParts.of ?_)

theorem hbmScrubAdmit_keeps {s₀ : State} {c : Nat} {s : State}
    (hk : Keeps s₀ s) : Keeps s₀ (hbmScrubAdmit c s) := by
  unfold hbmScrubAdmit
  try dsimp only
  repeat' first
    | with_reducible assumption
    | dsimp only
    | with_reducible refine Keeps.nextFree (by assumption) ?_
    | with_reducible apply Keeps.nextFree_snd
    | with_reducible apply Keeps.nextFree_snd
    | with_reducible apply Keeps.put
    | with_reducible apply State.setChan_keeps
    | with_reducible apply hbmScrubGroup_keeps
    | with_reducible apply onDieReports_keeps
    | with_reducible apply Keeps.each
    | split
    | intro _ _ _
    | intro _ _
    | intro _
    | (simp only [keeps_mk]; first | refine KeepsParts.of ?_)

theorem hbmScrubDue_keeps {s₀ : State} {c : Nat} {s : State}
    (hk : Keeps s₀ s) : Keeps s₀ (hbmScrubDue c s) := by
  unfold hbmScrubDue
  try dsimp only
  repeat' first
    | with_reducible assumption
    | dsimp only
    | with_reducible apply State.count_keeps
    | with_reducible apply State.setChan_keeps
    | with_reducible apply hbmScrubAdmit_keeps
    | split
    | intro _ _ _
    | intro _ _
    | intro _
    | (simp only [keeps_mk]; first | refine KeepsParts.of ?_)

theorem hbmAdmit_keeps {s₀ : State} {c : Nat} {s : State}
    (hk : Keeps s₀ s) : Keeps s₀ (hbmAdmit c s) := by
  unfold hbmAdmit
  try dsimp only
  repeat' first
    | with_reducible assumption
    | dsimp only
    | with_reducible apply State.setChan_keeps
    | with_reducible apply hbmRefresh_keeps
    | with_reducible apply hbmScrubAdmit_keeps
    | split
    | intro _ _ _
    | intro _ _
    | intro _
    | (simp only [keeps_mk]; first | refine KeepsParts.of ?_)

theorem hbmComplete_keeps {s₀ : State} {c i : Nat} {od : List Nat} {s : State}
    (hk : Keeps s₀ s) : Keeps s₀ (hbmComplete c i od s) := by
  unfold hbmComplete
  try dsimp only
  repeat' first
    | with_reducible assumption
    | dsimp only
    | with_reducible apply State.setChan_keeps
    | with_reducible refine hbmReadBytes_keeps (by assumption) ?_
    | with_reducible apply hbmReadBytes_keeps_snd
    | with_reducible apply hbmRefresh_keeps
    | with_reducible apply hbmScrubAdmit_keeps
    | with_reducible apply hbmWriteBytes_keeps
    | with_reducible apply niSend_keeps
    | with_reducible apply onDieReports_keeps
    | with_reducible apply Keeps.when
    | split
    | intro _ _ _
    | intro _ _
    | intro _
    | (simp only [keeps_mk]; first | refine KeepsParts.of ?_)

theorem hbmArrive_keeps {s₀ : State} {c : Nat} {p : Packet} {s : State}
    (hk : Keeps s₀ s) : Keeps s₀ (hbmArrive c p s) := by
  unfold hbmArrive
  try dsimp only
  repeat' first
    | with_reducible assumption
    | dsimp only
    | with_reducible apply State.setChan_keeps
    | with_reducible apply takeInbox_keeps
    | split
    | intro _ _ _
    | intro _ _
    | intro _
    | (simp only [keeps_mk]; first | refine KeepsParts.of ?_)

theorem hbmSelfRefWake_keeps {s₀ : State} {c : Nat} {s : State}
    (hk : Keeps s₀ s) : Keeps s₀ (hbmSelfRefWake c s) := by
  unfold hbmSelfRefWake
  try dsimp only
  repeat' first
    | with_reducible assumption
    | dsimp only
    | with_reducible apply State.setChan_keeps
    | with_reducible apply Keeps.when
    | split
    | intro _ _ _
    | intro _ _
    | intro _
    | (simp only [keeps_mk]; first | refine KeepsParts.of ?_)

theorem hbmSelfRefEnter_keeps {s₀ : State} {stack : Nat} {s : State}
    (hk : Keeps s₀ s) : Keeps s₀ (hbmSelfRefEnter stack s) := by
  unfold hbmSelfRefEnter
  try dsimp only
  repeat' first
    | with_reducible assumption
    | dsimp only
    | with_reducible apply Keeps.put
    | with_reducible apply Keeps.when
    | with_reducible apply Keeps.each
    | split
    | intro _ _ _
    | intro _ _
    | intro _

theorem hbmSelfRefLeave_keeps {s₀ : State} {stack : Nat} {s : State}
    (hk : Keeps s₀ s) : Keeps s₀ (hbmSelfRefLeave stack s) := by
  unfold hbmSelfRefLeave
  try dsimp only
  repeat' first
    | with_reducible assumption
    | dsimp only
    | with_reducible apply Keeps.put
    | with_reducible apply State.setChan_keeps
    | with_reducible apply hbmScrubAdmit_keeps
    | with_reducible apply Keeps.when
    | with_reducible apply Keeps.each
    | split
    | intro _ _ _
    | intro _ _
    | intro _
    | (simp only [keeps_mk]; first | refine KeepsParts.of ?_)

theorem hbmSelfRefExit_keeps {s₀ : State} {stack : Nat} {s : State}
    (hk : Keeps s₀ s) : Keeps s₀ (hbmSelfRefExit stack s) := by
  unfold hbmSelfRefExit
  try dsimp only
  repeat' first
    | with_reducible assumption
    | dsimp only
    | with_reducible apply hbmSelfRefLeave_keeps
    | with_reducible apply Keeps.when
    | split
    | intro _ _ _
    | intro _ _
    | intro _

theorem hbmReread_keeps {s₀ : State} {c : Nat} {od : List Nat} {s : State}
    (hk : Keeps s₀ s) : Keeps s₀ (hbmReread c od s) := by
  unfold hbmReread
  try dsimp only
  repeat' first
    | with_reducible assumption
    | dsimp only
    | with_reducible apply State.setChan_keeps
    | with_reducible apply State.setHbmCell_keeps
    | with_reducible apply hbmScrubAdmit_keeps
    | with_reducible apply onDieReports_keeps
    | split
    | intro _ _ _
    | intro _ _
    | intro _
    | (simp only [keeps_mk]; first | refine KeepsParts.of ?_)

theorem hbmInit_keeps {s₀ : State} {c : Nat} {s : State}
    (hk : Keeps s₀ s) : Keeps s₀ (hbmInit c s) := by
  unfold hbmInit
  try dsimp only
  repeat' first
    | with_reducible assumption
    | dsimp only
    | with_reducible apply Keeps.put
    | with_reducible apply Keeps.when
    | split
    | intro _ _ _
    | intro _ _
    | intro _

theorem hbmInitDone_keeps {s₀ : State} {c : Nat} {s : State}
    (hk : Keeps s₀ s) : Keeps s₀ (hbmInitDone c s) := by
  unfold hbmInitDone
  try dsimp only
  repeat' first
    | with_reducible assumption
    | dsimp only
    | with_reducible apply State.irq_keeps
    | with_reducible apply Keeps.put
    | with_reducible apply hbmScrubAdmit_keeps
    | split
    | intro _ _ _
    | intro _ _
    | intro _
    | (simp only [keeps_mk]; first | refine KeepsParts.of ?_ | refine KeepsParts.shelf ?_ (by first | exact SMap.wf_set _ _ _ _ | exact SMap.wf_clear _ _ _) | refine KeepsParts.bm ?_ (by first | exact SMap.wf_set _ _ _ _ | exact SMap.wf_clear _ _ _) | refine KeepsParts.hbm ?_ (by first | exact SMap.wf_set _ _ _ _ | exact SMap.wf_clear _ _ _ | exact fun _ => SMap.wf_nil _) | refine KeepsParts.ram ?_ (by first | exact SMap.wf_set _ _ _ _ | exact SMap.wf_clear _ _ _))

theorem hbmTrained_keeps {s₀ : State} {stack : Nat} {s : State}
    (hk : Keeps s₀ s) : Keeps s₀ (hbmTrained stack s) := by
  unfold hbmTrained
  try dsimp only
  repeat' first
    | with_reducible assumption
    | dsimp only
    | with_reducible apply Keeps.put
    | split
    | intro _ _ _
    | intro _ _
    | intro _
    | (simp only [keeps_mk]; first | refine KeepsParts.of ?_)

theorem hbmContentsLost_keeps {s₀ : State} {s : State}
    (hk : Keeps s₀ s) : Keeps s₀ (hbmContentsLost s) := by
  unfold hbmContentsLost
  try dsimp only
  repeat' first
    | with_reducible assumption
    | dsimp only
    | with_reducible apply State.irq_keeps
    | with_reducible apply Keeps.put
    | with_reducible apply Keeps.when
    | split
    | intro _ _ _
    | intro _ _
    | intro _
    | (simp only [keeps_mk]; first | refine KeepsParts.of ?_ | refine KeepsParts.shelf ?_ (by first | exact SMap.wf_set _ _ _ _ | exact SMap.wf_clear _ _ _) | refine KeepsParts.bm ?_ (by first | exact SMap.wf_set _ _ _ _ | exact SMap.wf_clear _ _ _) | refine KeepsParts.hbm ?_ (by first | exact SMap.wf_set _ _ _ _ | exact SMap.wf_clear _ _ _ | exact fun _ => SMap.wf_nil _) | refine KeepsParts.ram ?_ (by first | exact SMap.wf_set _ _ _ _ | exact SMap.wf_clear _ _ _))

end Sys2Proof.Machine
end

