-- ==== Sys2Proof/Laws/KeepsRidge.lean ====
section
/-! SUPPORT. What the operations of Machine/Ridge.lean keep (Laws/Keeps.lean). -/

namespace Sys2Proof.Machine

open Sys2Proof

theorem State.setRbuf_keeps {s₀ : State} {s : State} {n port v : Nat} {l : List Flit}
    (hk : Keeps s₀ s) : Keeps s₀ (State.setRbuf s n port v l) := by
  unfold State.setRbuf
  try dsimp only
  repeat' first
    | with_reducible assumption
    | dsimp only
    | split
    | intro _ _ _
    | intro _ _
    | intro _
    | (simp only [keeps_mk]; first | refine KeepsParts.of ?_)

theorem State.setLock_keeps {s₀ : State} {s : State} {n out v : Nat} {o : Option (Nat × Nat)}
    (hk : Keeps s₀ s) : Keeps s₀ (State.setLock s n out v o) := by
  unfold State.setLock
  try dsimp only
  repeat' first
    | with_reducible assumption
    | dsimp only
    | split
    | intro _ _ _
    | intro _ _
    | intro _
    | (simp only [keeps_mk]; first | refine KeepsParts.of ?_)

theorem State.setMassif_keeps {s₀ : State} {s : State} {m : Nat} {x : Massif}
    (hk : Keeps s₀ s) : Keeps s₀ (State.setMassif s m x) := by
  unfold State.setMassif
  try dsimp only
  repeat' first
    | with_reducible assumption
    | dsimp only
    | split
    | intro _ _ _
    | intro _ _
    | intro _
    | (simp only [keeps_mk]; first | refine KeepsParts.of ?_)

theorem gateAbort_keeps {s₀ : State} {m : Nat} {s : State}
    (hk : Keeps s₀ s) : Keeps s₀ (gateAbort m s) := by
  unfold gateAbort
  try dsimp only
  repeat' first
    | with_reducible assumption
    | dsimp only
    | with_reducible apply State.irq_keeps
    | with_reducible apply Keeps.put
    | with_reducible apply State.setInbox_keeps
    | with_reducible apply State.setWakeBuf_keeps
    | split
    | intro _ _ _
    | intro _ _
    | intro _

theorem wakeStart_keeps {s₀ : State} {m : Nat} {s : State}
    (hk : Keeps s₀ s) : Keeps s₀ (wakeStart m s) := by
  unfold wakeStart
  try dsimp only
  repeat' first
    | with_reducible assumption
    | dsimp only
    | with_reducible apply Keeps.put
    | split
    | intro _ _ _
    | intro _ _
    | intro _
    | (simp only [keeps_mk]; first | refine KeepsParts.of ?_)

theorem bucketStatus_keeps {s₀ : State} {n v : Nat} {s : State}
    (hk : Keeps s₀ s) : Keeps s₀ (bucketStatus n v s) := by
  unfold bucketStatus
  try dsimp only
  repeat' first
    | with_reducible assumption
    | dsimp only
    | with_reducible apply State.putB_keeps
    | with_reducible apply Keeps.when
    | split
    | intro _ _ _
    | intro _ _
    | intro _

theorem summitStatus_keeps {s₀ : State} {s : State}
    (hk : Keeps s₀ s) : Keeps s₀ (summitStatus s) := by
  unfold summitStatus
  try dsimp only
  repeat' first
    | with_reducible assumption
    | dsimp only
    | with_reducible apply State.irq_keeps
    | with_reducible apply State.putB_keeps
    | with_reducible apply Keeps.when
    | split
    | intro _ _ _
    | intro _ _
    | intro _

theorem regulatorStatus_keeps {s₀ : State} {n v : Nat} {s : State}
    (hk : Keeps s₀ s) : Keeps s₀ (regulatorStatus n v s) := by
  unfold regulatorStatus
  try dsimp only
  repeat' first
    | with_reducible assumption
    | dsimp only
    | with_reducible apply bucketStatus_keeps
    | with_reducible apply summitStatus_keeps
    | split
    | intro _ _ _
    | intro _ _
    | intro _

theorem bucketsFill_keeps {s₀ : State} {s : State}
    (hk : Keeps s₀ s) : Keeps s₀ (bucketsFill s) := by
  unfold bucketsFill
  try dsimp only
  repeat' first
    | with_reducible assumption
    | dsimp only
    | with_reducible apply Keeps.put
    | with_reducible apply bucketStatus_keeps
    | with_reducible apply summitStatus_keeps
    | with_reducible apply Keeps.each
    | split
    | intro _ _ _
    | intro _ _
    | intro _

theorem rgCfgWrite_keeps {s₀ : State} {n v : Nat} {w : Word} {s : State}
    (hk : Keeps s₀ s) : Keeps s₀ (rgCfgWrite n v w s) := by
  unfold rgCfgWrite
  try dsimp only
  repeat' first
    | with_reducible assumption
    | dsimp only
    | with_reducible apply State.loadAll_keeps
    | with_reducible apply regulatorStatus_keeps
    | split
    | intro _ _ _
    | intro _ _
    | intro _
    | (simp only [keeps_mk]; first | refine KeepsParts.of ?_)

theorem tokenAdd_keeps {s₀ : State} {n v : Nat} {s : State}
    (hk : Keeps s₀ s) : Keeps s₀ (tokenAdd n v s) := by
  unfold tokenAdd
  try dsimp only
  repeat' first
    | with_reducible assumption
    | dsimp only
    | with_reducible apply Keeps.put
    | with_reducible apply regulatorStatus_keeps
    | split
    | intro _ _ _
    | intro _ _
    | intro _

theorem takeToken_keeps {s₀ : State} {n v : Nat} {s : State}
    (hk : Keeps s₀ s) : OptKeeps s₀ (takeToken n v s) := by
  unfold takeToken
  try dsimp only
  repeat' first
    | with_reducible assumption
    | with_reducible refine OptKeeps.some ?_
    | with_reducible refine OptKeeps.map _ ?_
    | with_reducible refine OptKeeps.bind _ ?_
    | exact OptKeeps.none
    | dsimp only
    | with_reducible apply Keeps.put
    | with_reducible apply regulatorStatus_keeps
    | split
    | intro _ _ _
    | intro _ _
    | intro _

theorem injectFlit_keeps {s₀ : State} {n v id i : Nat} {p : Packet} {s : State}
    (hk : Keeps s₀ s) : Keeps s₀ (injectFlit n v id i p s) := by
  unfold injectFlit
  try dsimp only
  repeat' first
    | with_reducible assumption
    | dsimp only
    | with_reducible apply State.setNiQueue_keeps
    | with_reducible apply State.setRbuf_keeps
    | with_reducible apply Keeps.when
    | dsimp only [id]
    | split
    | intro _ _ _
    | intro _ _
    | intro _
    | (simp only [keeps_mk]; first | refine KeepsParts.of ?_)

theorem inject_keeps {s₀ : State} {n v : Nat} {s : State}
    (hk : Keeps s₀ s) : Keeps s₀ (inject n v s) := by
  unfold inject
  try dsimp only
  repeat' first
    | with_reducible assumption
    | dsimp only
    | with_reducible apply injectFlit_keeps
    | with_reducible apply takeToken_keeps
    | with_reducible refine OptKeeps.of_some (takeToken_keeps ?_) (by assumption)
    | dsimp only [id]
    | with_reducible apply OptKeeps.getD
    | split
    | intro _ _ _
    | intro _ _
    | intro _
    | (simp only [keeps_mk]; first | refine KeepsParts.of ?_)

theorem discardHeader_keeps {s₀ : State} {n h : Nat} {s : State}
    (hk : Keeps s₀ s) : Keeps s₀ (discardHeader n h s) := by
  unfold discardHeader
  try dsimp only
  repeat' first
    | with_reducible assumption
    | dsimp only
    | with_reducible apply State.count_keeps
    | with_reducible apply State.irq_keeps
    | with_reducible apply Keeps.put
    | split
    | intro _ _ _
    | intro _ _
    | intro _

theorem discardAt_keeps {s₀ : State} {n : Nat} {p : Packet} {s : State}
    (hk : Keeps s₀ s) : Keeps s₀ (discardAt n p s) := by
  unfold discardAt
  try dsimp only
  repeat' first
    | with_reducible assumption
    | dsimp only
    | with_reducible apply discardHeader_keeps
    | split
    | intro _ _ _
    | intro _ _
    | intro _

theorem lateResponse_keeps {s₀ : State} {p : Packet} {s : State}
    (hk : Keeps s₀ s) : Keeps s₀ (lateResponse p s) := by
  unfold lateResponse
  try dsimp only
  repeat' first
    | with_reducible assumption
    | dsimp only
    | with_reducible apply State.count_keeps
    | with_reducible apply State.irq_keeps
    | with_reducible apply Keeps.put
    | with_reducible apply State.setOutReqs_keeps
    | with_reducible apply takeInbox_keeps
    | split
    | intro _ _ _
    | intro _ _
    | intro _

theorem packetDiscard_keeps {s₀ : State} {p : Packet} {s : State}
    (hk : Keeps s₀ s) : Keeps s₀ (packetDiscard p s) := by
  unfold packetDiscard
  try dsimp only
  repeat' first
    | with_reducible assumption
    | dsimp only
    | with_reducible apply discardAt_keeps
    | with_reducible apply niSend_keeps
    | with_reducible apply takeInbox_keeps
    | split
    | intro _ _ _
    | intro _ _
    | intro _
    | (simp only [keeps_mk]; first | refine KeepsParts.of ?_)

theorem deliver_keeps {s₀ : State} {p : Packet} {s : State}
    (hk : Keeps s₀ s) : Keeps s₀ (deliver p s) := by
  unfold deliver
  try dsimp only
  repeat' first
    | with_reducible assumption
    | dsimp only
    | with_reducible apply State.setWakeBuf_keeps
    | with_reducible apply gateAbort_keeps
    | with_reducible apply joinInbox_keeps
    | with_reducible apply wakeStart_keeps
    | split
    | intro _ _ _
    | intro _ _
    | intro _

theorem flitRead_keeps_snd {s₀ : State} {n : Nat} {f : Flit} {s : State}
    (hk : Keeps s₀ s) : Keeps s₀ (flitRead n f s).2 := by
  unfold flitRead
  try dsimp only
  repeat' first
    | with_reducible assumption
    | dsimp only
    | with_reducible apply State.count_keeps
    | with_reducible apply State.irq_keeps
    | with_reducible apply Keeps.when
    | with_reducible apply Keeps.foldl
    | with_reducible apply Keeps.foldl_snd
    | split
    | intro _ _ _
    | intro _ _
    | intro _

theorem flitRead_keeps {s₀ : State} {n : Nat} {f : Flit} {s : State} {y₁ t₁} (e₁ : flitRead n f s = (y₁, t₁))
    (hk : Keeps s₀ s) : Keeps s₀ t₁ := by
  have k := flitRead_keeps_snd (s₀ := s₀) (n := n) (f := f) (s := s) hk
  rw [e₁] at k
  exact k

theorem linkSent_keeps {s₀ : State} {r out v inp : Nat} {tail : Bool} {s : State}
    (hk : Keeps s₀ s) : Keeps s₀ (linkSent r out v inp tail s) := by
  unfold linkSent
  try dsimp only
  repeat' first
    | with_reducible assumption
    | dsimp only
    | split
    | intro _ _ _
    | intro _ _
    | intro _
    | (simp only [keeps_mk]; first | refine KeepsParts.of ?_)

theorem repaint_keeps {s₀ : State} {id : Nat} {p : Packet} {s : State}
    (hk : Keeps s₀ s) : Keeps s₀ (repaint id p s) := by
  unfold repaint
  try dsimp only
  repeat' first
    | with_reducible assumption
    | dsimp only
    | dsimp only [id]
    | split
    | intro _ _ _
    | intro _ _
    | intro _
    | (simp only [keeps_mk]; first | refine KeepsParts.of ?_)

theorem consume_keeps {s₀ : State} {id : Nat} {s : State}
    (hk : Keeps s₀ s) : Keeps s₀ (consume id s) := by
  unfold consume
  try dsimp only
  repeat' first
    | with_reducible assumption
    | dsimp only
    | dsimp only [id]
    | split
    | intro _ _ _
    | intro _ _
    | intro _
    | (simp only [keeps_mk]; first | refine KeepsParts.of ?_)

theorem forwardFlit_keeps {s₀ : State} {r out inp v : Nat} {f : Flit} {rest : List Flit} {s : State}
    (hk : Keeps s₀ s) : Keeps s₀ (forwardFlit r out inp v f rest s) := by
  unfold forwardFlit
  try dsimp only
  repeat' first
    | with_reducible assumption
    | dsimp only
    | with_reducible apply State.setLock_keeps
    | with_reducible apply State.setRbuf_keeps
    | with_reducible apply consume_keeps
    | with_reducible apply deliver_keeps
    | with_reducible apply discardHeader_keeps
    | with_reducible refine flitRead_keeps (by assumption) ?_
    | with_reducible apply flitRead_keeps_snd
    | with_reducible apply linkSent_keeps
    | with_reducible apply repaint_keeps
    | with_reducible apply Keeps.when
    | dsimp only [id]
    | split
    | intro _ _ _
    | intro _ _
    | intro _
    | (simp only [keeps_mk]; first | refine KeepsParts.of ?_)

theorem flitForward_keeps {s₀ : State} {r inp v : Nat} {err : BitVec 512} {chk : BitVec 36} {s : State}
    (hk : Keeps s₀ s) : Keeps s₀ (flitForward r inp v err chk s) := by
  unfold flitForward
  try dsimp only
  repeat' first
    | with_reducible assumption
    | dsimp only
    | with_reducible apply forwardFlit_keeps
    | split
    | intro _ _ _
    | intro _ _
    | intro _
    | (simp only [keeps_mk]; first | refine KeepsParts.of ?_)

theorem stall_keeps {s₀ : State} {n v : Nat} {s : State}
    (hk : Keeps s₀ s) : Keeps s₀ (stall n v s) := by
  unfold stall
  try dsimp only
  repeat' first
    | with_reducible assumption
    | dsimp only
    | with_reducible apply State.irq_keeps
    | with_reducible apply Keeps.put
    | with_reducible apply State.setIrq_keeps
    | with_reducible apply Keeps.when
    | split
    | intro _ _ _
    | intro _ _
    | intro _
    | (simp only [keeps_mk]; first | refine KeepsParts.of ?_)

theorem activation_keeps {s₀ : State} {v : Word} {s : State}
    (hk : Keeps s₀ s) : Keeps s₀ (activation v s) := by
  unfold activation
  try dsimp only
  repeat' first
    | with_reducible assumption
    | dsimp only
    | with_reducible apply State.irq_keeps
    | with_reducible apply Keeps.put
    | split
    | intro _ _ _
    | intro _ _
    | intro _
    | (simp only [keeps_mk]; first | refine KeepsParts.of ?_)

theorem swapTable_keeps {s₀ : State} {r v : Nat} {s : State}
    (hk : Keeps s₀ s) : Keeps s₀ (swapTable r v s) := by
  unfold swapTable
  try dsimp only
  repeat' first
    | with_reducible assumption
    | dsimp only
    | with_reducible apply Keeps.put
    | with_reducible apply Keeps.each
    | split
    | intro _ _ _
    | intro _ _
    | intro _
    | (simp only [keeps_mk]; first | refine KeepsParts.of ?_)

theorem swapOrder_keeps {s₀ : State} {v : Nat} {s : State}
    (hk : Keeps s₀ s) : Keeps s₀ (swapOrder v s) := by
  unfold swapOrder
  try dsimp only
  repeat' first
    | with_reducible assumption
    | dsimp only
    | with_reducible apply Keeps.put
    | split
    | intro _ _ _
    | intro _ _
    | intro _

theorem activationSwap_keeps {s₀ : State} {s : State}
    (hk : Keeps s₀ s) : Keeps s₀ (activationSwap s) := by
  unfold activationSwap
  try dsimp only
  repeat' first
    | with_reducible assumption
    | dsimp only
    | with_reducible apply State.irq_keeps
    | with_reducible apply Keeps.put
    | with_reducible apply swapOrder_keeps
    | with_reducible apply swapTable_keeps
    | with_reducible apply Keeps.when
    | with_reducible apply Keeps.each
    | split
    | intro _ _ _
    | intro _ _
    | intro _
    | (simp only [keeps_mk]; first | refine KeepsParts.of ?_)

theorem activationAbort_keeps {s₀ : State} {s : State}
    (hk : Keeps s₀ s) : Keeps s₀ (activationAbort s) := by
  unfold activationAbort
  try dsimp only
  repeat' first
    | with_reducible assumption
    | dsimp only
    | with_reducible apply State.irq_keeps
    | with_reducible apply Keeps.put
    | split
    | intro _ _ _
    | intro _ _
    | intro _
    | (simp only [keeps_mk]; first | refine KeepsParts.of ?_)

end Sys2Proof.Machine
end

