-- ==== Sys2Proof/Laws/KeepsOperands.lean ====
section
/-! SUPPORT. What the operations of Machine/Operands.lean keep (Laws/Keeps.lean). -/

namespace Sys2Proof.Machine

open Sys2Proof

theorem State.setTile_keeps {s₀ : State} {s : State} {m t : Nat} {x : Tile}
    (hk : Keeps s₀ s) : Keeps s₀ (State.setTile s m t x) := by
  unfold State.setTile
  try dsimp only
  repeat' first
    | with_reducible assumption
    | dsimp only
    | split
    | intro _ _ _
    | intro _ _
    | intro _
    | (simp only [keeps_mk]; first | refine KeepsParts.of ?_)

theorem State.setStage_keeps {s₀ : State} {s : State} {m t g : Nat} {x : Stage}
    (hk : Keeps s₀ s) : Keeps s₀ (State.setStage s m t g x) := by
  unfold State.setStage
  try dsimp only
  repeat' first
    | with_reducible assumption
    | dsimp only
    | split
    | intro _ _ _
    | intro _ _
    | intro _
    | (simp only [keeps_mk]; first | refine KeepsParts.of ?_)

theorem State.setSlotBits_keeps {s₀ : State} {s : State} {m i t : Nat} {v : BitVec 320}
    (hk : Keeps s₀ s) : Keeps s₀ (State.setSlotBits s m i t v) := by
  unfold State.setSlotBits
  try dsimp only
  repeat' first
    | with_reducible assumption
    | dsimp only
    | split
    | intro _ _ _
    | intro _ _
    | intro _
    | (simp only [keeps_mk]; first | refine KeepsParts.of ?_)

end Sys2Proof.Machine
end

