-- ==== Sys2Proof/Laws/KeepsFlags.lean ====
section
/-! SUPPORT. What the operations of Machine/Flags.lean keep (Laws/Keeps.lean). -/

namespace Sys2Proof.Machine

open Sys2Proof

theorem bitCycle_keeps {s₀ : State} {m : Nat} {s : State}
    (hk : Keeps s₀ s) : Keeps s₀ (bitCycle m s) := by
  unfold bitCycle
  try dsimp only
  repeat' first
    | with_reducible assumption
    | dsimp only
    | with_reducible apply State.setTile_keeps
    | with_reducible apply Keeps.each
    | with_reducible apply OptKeeps.getD
    | with_reducible apply Keeps.foldl
    | with_reducible apply Keeps.foldl_snd
    | split
    | intro _ _ _
    | intro _ _
    | intro _
    | (simp only [keeps_mk]; first | refine KeepsParts.of ?_)

end Sys2Proof.Machine
end

