-- ==== Sys2Proof/Laws/KeepsTiles.lean ====
section
/-! SUPPORT. What the operations of Machine/Tiles.lean keep (Laws/Keeps.lean). -/

namespace Sys2Proof.Machine

open Sys2Proof

theorem seqHalt_keeps {s₀ : State} {m cause : Nat} {s : State}
    (hk : Keeps s₀ s) : Keeps s₀ (seqHalt m cause s) := by
  unfold seqHalt
  try dsimp only
  repeat' first
    | with_reducible assumption
    | dsimp only
    | with_reducible apply State.irq_keeps
    | with_reducible apply Keeps.put
    | with_reducible apply State.setMassif_keeps
    | with_reducible apply Keeps.when
    | split
    | intro _ _ _
    | intro _ _
    | intro _
    | (simp only [keeps_mk]; first | refine KeepsParts.of ?_)

theorem massifStop_keeps {s₀ : State} {m : Nat} {why : Fld} {tile : Nat} {s : State}
    (hk : Keeps s₀ s) : Keeps s₀ (massifStop m why tile s) := by
  unfold massifStop
  try dsimp only
  repeat' first
    | with_reducible assumption
    | dsimp only
    | with_reducible apply Keeps.put
    | with_reducible apply State.setIrq_keeps
    | with_reducible apply State.setMassif_keeps
    | with_reducible apply seqHalt_keeps
    | dsimp only [id]
    | split
    | intro _ _ _
    | intro _ _
    | intro _
    | (simp only [keeps_mk]; first | refine KeepsParts.of ?_)

theorem controlPoison_keeps {s₀ : State} {m tile : Nat} {s : State}
    (hk : Keeps s₀ s) : Keeps s₀ (controlPoison m tile s) := by
  unfold controlPoison
  try dsimp only
  repeat' first
    | with_reducible assumption
    | dsimp only
    | with_reducible apply massifStop_keeps
    | split
    | intro _ _ _
    | intro _ _
    | intro _

theorem markerFiring_keeps {s₀ : State} {m t : Nat} {s : State}
    (hk : Keeps s₀ s) : Keeps s₀ (markerFiring m t s) := by
  unfold markerFiring
  try dsimp only
  repeat' first
    | with_reducible assumption
    | dsimp only
    | with_reducible apply State.setTile_keeps
    | split
    | intro _ _ _
    | intro _ _
    | intro _
    | (simp only [keeps_mk]; first | refine KeepsParts.of ?_)

theorem passOperand_keeps_snd {s₀ : State} {s : State} {m t : Nat} {v : BitVec 320} {a : Opnd}
    (hk : Keeps s₀ s) : Keeps s₀ (passOperand s m t v a).2 := by
  unfold passOperand
  try dsimp only
  repeat' first
    | with_reducible assumption
    | dsimp only
    | with_reducible refine Keeps.nextFree (by assumption) ?_
    | with_reducible apply Keeps.nextFree_snd
    | with_reducible apply Keeps.nextFree_snd
    | split
    | intro _ _ _
    | intro _ _
    | intro _

theorem passOperand_keeps {s₀ : State} {s : State} {m t : Nat} {v : BitVec 320} {a : Opnd} {y₁ t₁} (e₁ : passOperand s m t v a = (y₁, t₁))
    (hk : Keeps s₀ s) : Keeps s₀ t₁ := by
  have k := passOperand_keeps_snd (s₀ := s₀) (s := s) (m := m) (t := t) (v := v) (a := a) hk
  rw [e₁] at k
  exact k

theorem firing_keeps {s₀ : State} {m t : Nat} {s : State}
    (hk : Keeps s₀ s) : Keeps s₀ (firing m t s) := by
  unfold firing
  try dsimp only
  repeat' first
    | with_reducible assumption
    | dsimp only
    | with_reducible apply State.setTile_keeps
    | with_reducible apply controlPoison_keeps
    | with_reducible refine passOperand_keeps (by assumption) ?_
    | with_reducible apply passOperand_keeps_snd
    | with_reducible apply Keeps.foldl
    | with_reducible apply Keeps.foldl_snd
    | split
    | intro _ _ _
    | intro _ _
    | intro _
    | (simp only [keeps_mk]; first | refine KeepsParts.of ?_)

theorem memOp_keeps_snd {s₀ : State} {m t op : Nat} {v : BitVec 320} {f : Firing} {p : Bool} {s : State}
    (hk : Keeps s₀ s) : Keeps s₀ (memOp m t op v f p s).2 := by
  unfold memOp
  try dsimp only
  repeat' first
    | with_reducible assumption
    | dsimp only
    | with_reducible refine bmBin_keeps (by assumption) ?_
    | with_reducible apply bmBin_keeps_snd
    | with_reducible refine bmPortRead_keeps (by assumption) ?_
    | with_reducible apply bmPortRead_keeps_snd
    | with_reducible apply bmPortWrite_keeps
    | split
    | intro _ _ _
    | intro _ _
    | intro _
    | (simp only [keeps_mk]; first | refine KeepsParts.of ?_)

theorem memOp_keeps {s₀ : State} {m t op : Nat} {v : BitVec 320} {f : Firing} {p : Bool} {s : State} {y₁ t₁} (e₁ : memOp m t op v f p s = (y₁, t₁))
    (hk : Keeps s₀ s) : Keeps s₀ t₁ := by
  have k := memOp_keeps_snd (s₀ := s₀) (m := m) (t := t) (op := op) (v := v) (f := f) (p := p) (s := s) hk
  rw [e₁] at k
  exact k

theorem intoBuffer_keeps {s₀ : State} {m t g : Nat} {w : SWord} {s : State}
    (hk : Keeps s₀ s) : Keeps s₀ (intoBuffer m t g w s) := by
  unfold intoBuffer
  try dsimp only
  repeat' first
    | with_reducible assumption
    | dsimp only
    | with_reducible apply State.setStage_keeps
    | with_reducible apply State.setTile_keeps
    | split
    | intro _ _ _
    | intro _ _
    | intro _
    | (simp only [keeps_mk]; first | refine KeepsParts.of ?_)

theorem operate_keeps_snd {s₀ : State} {m t : Nat} {v : BitVec 320} {f : Firing} {s : State}
    (hk : Keeps s₀ s) : Keeps s₀ (operate m t v f s).2 := by
  unfold operate
  try dsimp only
  repeat' first
    | with_reducible assumption
    | dsimp only
    | with_reducible apply State.setTile_keeps
    | with_reducible refine memOp_keeps (by assumption) ?_
    | with_reducible apply memOp_keeps_snd
    | split
    | intro _ _ _
    | intro _ _
    | intro _

theorem operate_keeps {s₀ : State} {m t : Nat} {v : BitVec 320} {f : Firing} {s : State} {y₁ t₁} (e₁ : operate m t v f s = (y₁, t₁))
    (hk : Keeps s₀ s) : Keeps s₀ t₁ := by
  have k := operate_keeps_snd (s₀ := s₀) (m := m) (t := t) (v := v) (f := f) (s := s) hk
  rw [e₁] at k
  exact k

theorem complete_keeps_snd {s₀ : State} {m t : Nat} {v : BitVec 320} {f : Firing} {s : State}
    (hk : Keeps s₀ s) : Keeps s₀ (complete m t v f s).2 := by
  unfold complete
  try dsimp only
  repeat' first
    | with_reducible assumption
    | dsimp only
    | with_reducible apply State.setTile_keeps
    | with_reducible refine operate_keeps (by assumption) ?_
    | with_reducible apply operate_keeps_snd
    | split
    | intro _ _ _
    | intro _ _
    | intro _
    | (simp only [keeps_mk]; first | refine KeepsParts.of ?_)

theorem complete_keeps {s₀ : State} {m t : Nat} {v : BitVec 320} {f : Firing} {s : State} {y₁ t₁} (e₁ : complete m t v f s = (y₁, t₁))
    (hk : Keeps s₀ s) : Keeps s₀ t₁ := by
  have k := complete_keeps_snd (s₀ := s₀) (m := m) (t := t) (v := v) (f := f) (s := s) hk
  rw [e₁] at k
  exact k

theorem retire_keeps_snd {s₀ : State} {m t : Nat} {v : BitVec 320} {f : Firing} {s : State}
    (hk : Keeps s₀ s) : Keeps s₀ (retire m t v f s).2 := by
  unfold retire
  try dsimp only
  repeat' first
    | with_reducible assumption
    | dsimp only
    | with_reducible refine complete_keeps (by assumption) ?_
    | with_reducible apply complete_keeps_snd
    | split
    | intro _ _ _
    | intro _ _
    | intro _

theorem retire_keeps {s₀ : State} {m t : Nat} {v : BitVec 320} {f : Firing} {s : State} {y₁ t₁} (e₁ : retire m t v f s = (y₁, t₁))
    (hk : Keeps s₀ s) : Keeps s₀ t₁ := by
  have k := retire_keeps_snd (s₀ := s₀) (m := m) (t := t) (v := v) (f := f) (s := s) hk
  rw [e₁] at k
  exact k

theorem putWord_keeps {s₀ : State} {m t g : Nat} {w : Option SWord} {s : State}
    (hk : Keeps s₀ s) : Keeps s₀ (putWord m t g w s) := by
  unfold putWord
  try dsimp only
  repeat' first
    | with_reducible assumption
    | dsimp only
    | with_reducible apply intoBuffer_keeps
    | split
    | intro _ _ _
    | intro _ _
    | intro _
    | (simp only [keeps_mk]; first | refine KeepsParts.of ?_)

theorem resultWriteback_keeps {s₀ : State} {m t : Nat} {s : State}
    (hk : Keeps s₀ s) : Keeps s₀ (resultWriteback m t s) := by
  unfold resultWriteback
  try dsimp only
  repeat' first
    | with_reducible assumption
    | dsimp only
    | with_reducible apply State.setTile_keeps
    | with_reducible apply putWord_keeps
    | with_reducible refine retire_keeps (by assumption) ?_
    | with_reducible apply retire_keeps_snd
    | split
    | intro _ _ _
    | intro _ _
    | intro _
    | (simp only [keeps_mk]; first | refine KeepsParts.of ?_)

end Sys2Proof.Machine
end

