-- ==== Sys2Proof/Laws/KeepsRouting.lean ====
section
/-! SUPPORT. What the operations of Machine/Routing.lean keep (Laws/Keeps.lean). -/

namespace Sys2Proof.Machine

open Sys2Proof

theorem State.setColq_keeps {s₀ : State} {s : State} {k : Nat} {x : Stage}
    (hk : Keeps s₀ s) : Keeps s₀ (State.setColq s k x) := by
  unfold State.setColq
  try dsimp only
  repeat' first
    | with_reducible assumption
    | dsimp only
    | split
    | intro _ _ _
    | intro _ _
    | intro _
    | (simp only [keeps_mk]; first | refine KeepsParts.of ?_)

theorem State.setFeedq_keeps {s₀ : State} {s : State} {p f : Nat} {x : Stage}
    (hk : Keeps s₀ s) : Keeps s₀ (State.setFeedq s p f x) := by
  unfold State.setFeedq
  try dsimp only
  repeat' first
    | with_reducible assumption
    | dsimp only
    | split
    | intro _ _ _
    | intro _ _
    | intro _
    | (simp only [keeps_mk]; first | refine KeepsParts.of ?_)

theorem State.setFeedTrack_keeps {s₀ : State} {s : State} {p f : Nat} {x : FeedTrack}
    (hk : Keeps s₀ s) : Keeps s₀ (State.setFeedTrack s p f x) := by
  unfold State.setFeedTrack
  try dsimp only
  repeat' first
    | with_reducible assumption
    | dsimp only
    | split
    | intro _ _ _
    | intro _ _
    | intro _
    | (simp only [keeps_mk]; first | refine KeepsParts.of ?_)

theorem State.setLane_keeps {s₀ : State} {s : State} {l : Nat} {x : LaneQueue}
    (hk : Keeps s₀ s) : Keeps s₀ (State.setLane s l x) := by
  unfold State.setLane
  try dsimp only
  repeat' first
    | with_reducible assumption
    | dsimp only
    | split
    | intro _ _ _
    | intro _ _
    | intro _
    | (simp only [keeps_mk]; first | refine KeepsParts.of ?_)

theorem cqRefresh_keeps {s₀ : State} {m face : Nat} {s : State}
    (hk : Keeps s₀ s) : Keeps s₀ (cqRefresh m face s) := by
  unfold cqRefresh
  try dsimp only
  repeat' first
    | with_reducible assumption
    | dsimp only
    | with_reducible apply State.putB_keeps
    | split
    | intro _ _ _
    | intro _ _
    | intro _

theorem colWrite_keeps {s₀ : State} {k : Nat} {w : SWord} {s : State}
    (hk : Keeps s₀ s) : Keeps s₀ (colWrite k w s) := by
  unfold colWrite
  try dsimp only
  repeat' first
    | with_reducible assumption
    | dsimp only
    | with_reducible apply Keeps.put
    | with_reducible apply State.setColq_keeps
    | with_reducible apply Keeps.when
    | split
    | intro _ _ _
    | intro _ _
    | intro _
    | (simp only [keeps_mk]; first | refine KeepsParts.of ?_)

theorem destTake_keeps {s₀ : State} {m : Nat} {col : Option Nat} {w : SWord} {d : Dest} {s : State}
    (hk : Keeps s₀ s) : Keeps s₀ (destTake m col w d s) := by
  unfold destTake
  try dsimp only
  repeat' first
    | with_reducible assumption
    | dsimp only
    | with_reducible apply State.setStage_keeps
    | with_reducible apply State.setTile_keeps
    | with_reducible apply colWrite_keeps
    | split
    | intro _ _ _
    | intro _ _
    | intro _
    | (simp only [keeps_mk]; first | refine KeepsParts.of ?_)

theorem offer_keeps_snd {s₀ : State} {m : Nat} {col : Option Nat} {ds : List Dest} {st : Stage} {s : State}
    (hk : Keeps s₀ s) : Keeps s₀ (offer m col ds st s).2 := by
  unfold offer
  try dsimp only
  repeat' first
    | with_reducible assumption
    | dsimp only
    | with_reducible apply destTake_keeps
    | with_reducible apply Keeps.foldl
    | with_reducible apply Keeps.foldl_snd
    | split
    | intro _ _ _
    | intro _ _
    | intro _
    | (simp only [keeps_mk]; first | refine KeepsParts.of ?_)

theorem offer_keeps {s₀ : State} {m : Nat} {col : Option Nat} {ds : List Dest} {st : Stage} {s : State} {y₁ t₁} (e₁ : offer m col ds st s = (y₁, t₁))
    (hk : Keeps s₀ s) : Keeps s₀ t₁ := by
  have k := offer_keeps_snd (s₀ := s₀) (m := m) (col := col) (ds := ds) (st := st) (s := s) hk
  rw [e₁] at k
  exact k

theorem tapTook_keeps {s₀ : State} {m t g : Nat} {d : Dest} {s : State}
    (hk : Keeps s₀ s) : Keeps s₀ (tapTook m t g d s) := by
  unfold tapTook
  try dsimp only
  repeat' first
    | with_reducible assumption
    | dsimp only
    | with_reducible apply State.setStage_keeps
    | split
    | intro _ _ _
    | intro _ _
    | intro _
    | (simp only [keeps_mk]; first | refine KeepsParts.of ?_)

theorem wordHop_keeps {s₀ : State} {m t g : Nat} {s : State}
    (hk : Keeps s₀ s) : Keeps s₀ (wordHop m t g s) := by
  unfold wordHop
  try dsimp only
  repeat' first
    | with_reducible assumption
    | dsimp only
    | with_reducible apply State.setStage_keeps
    | with_reducible refine offer_keeps (by assumption) ?_
    | with_reducible apply offer_keeps_snd
    | split
    | intro _ _ _
    | intro _ _
    | intro _

theorem noteInput_keeps {s₀ : State} {m key : Nat} {e : Bool} {s : State}
    (hk : Keeps s₀ s) : Keeps s₀ (noteInput m key e s) := by
  unfold noteInput
  try dsimp only
  repeat' first
    | with_reducible assumption
    | dsimp only
    | with_reducible apply State.setMassif_keeps
    | split
    | intro _ _ _
    | intro _ _
    | intro _
    | (simp only [keeps_mk]; first | refine KeepsParts.of ?_)

theorem colDelivery_keeps {s₀ : State} {m face place track : Nat} {bad : Bool} {s : State}
    (hk : Keeps s₀ s) : Keeps s₀ (colDelivery m face place track bad s) := by
  unfold colDelivery
  try dsimp only
  repeat' first
    | with_reducible assumption
    | dsimp only
    | with_reducible apply State.count_keeps
    | with_reducible apply State.setColq_keeps
    | with_reducible apply State.setIrq_keeps
    | with_reducible apply cqRefresh_keeps
    | with_reducible apply noteInput_keeps
    | with_reducible refine offer_keeps (by assumption) ?_
    | with_reducible apply offer_keeps_snd
    | split
    | intro _ _ _
    | intro _ _
    | intro _
    | (simp only [keeps_mk]; first | refine KeepsParts.of ?_)

theorem hwClr_keeps {s₀ : State} {m face : Nat} {s : State}
    (hk : Keeps s₀ s) : Keeps s₀ (hwClr m face s) := by
  unfold hwClr
  try dsimp only
  repeat' first
    | with_reducible assumption
    | dsimp only
    | with_reducible apply Keeps.put
    | with_reducible apply Keeps.foldl
    | with_reducible apply Keeps.foldl_snd
    | split
    | intro _ _ _
    | intro _ _
    | intro _

theorem colCycle_keeps {s₀ : State} {s : State}
    (hk : Keeps s₀ s) : Keeps s₀ (colCycle s) := by
  unfold colCycle
  try dsimp only
  repeat' first
    | with_reducible assumption
    | dsimp only
    | with_reducible apply State.count_keeps
    | with_reducible apply Keeps.foldl
    | with_reducible apply Keeps.foldl_snd
    | split
    | intro _ _ _
    | intro _ _
    | intro _

theorem laneRefresh_keeps {s₀ : State} {l : Nat} {s : State}
    (hk : Keeps s₀ s) : Keeps s₀ (laneRefresh l s) := by
  unfold laneRefresh
  try dsimp only
  repeat' first
    | with_reducible assumption
    | dsimp only
    | with_reducible apply Keeps.put
    | with_reducible apply State.putB_keeps
    | split
    | intro _ _ _
    | intro _ _
    | intro _

theorem laneSettle_keeps {s₀ : State} {l : Nat} {s : State}
    (hk : Keeps s₀ s) : Keeps s₀ (laneSettle l s) := by
  unfold laneSettle
  try dsimp only
  repeat' first
    | with_reducible assumption
    | dsimp only
    | with_reducible apply State.setLane_keeps
    | with_reducible apply laneRefresh_keeps
    | split
    | intro _ _ _
    | intro _ _
    | intro _
    | (simp only [keeps_mk]; first | refine KeepsParts.of ?_)

theorem feedIntake_keeps {s₀ : State} {p f : Nat} {bad : Bool} {s : State}
    (hk : Keeps s₀ s) : Keeps s₀ (feedIntake p f bad s) := by
  unfold feedIntake
  try dsimp only
  repeat' first
    | with_reducible assumption
    | dsimp only
    | with_reducible apply State.count_keeps
    | with_reducible apply Keeps.put
    | with_reducible apply State.setFeedTrack_keeps
    | with_reducible apply State.setFeedq_keeps
    | with_reducible apply State.setIrq_keeps
    | with_reducible apply State.setLane_keeps
    | with_reducible apply laneRefresh_keeps
    | with_reducible apply laneSettle_keeps
    | split
    | intro _ _ _
    | intro _ _
    | intro _
    | (simp only [keeps_mk]; first | refine KeepsParts.of ?_)

theorem feedPresent_keeps {s₀ : State} {p f : Nat} {bad : Bool} {s : State}
    (hk : Keeps s₀ s) : Keeps s₀ (feedPresent p f bad s) := by
  unfold feedPresent
  try dsimp only
  repeat' first
    | with_reducible assumption
    | dsimp only
    | with_reducible apply State.setFeedq_keeps
    | with_reducible apply noteInput_keeps
    | with_reducible refine offer_keeps (by assumption) ?_
    | with_reducible apply offer_keeps_snd
    | split
    | intro _ _ _
    | intro _ _
    | intro _
    | (simp only [keeps_mk]; first | refine KeepsParts.of ?_)

theorem feedDelivery_keeps {s₀ : State} {p f : Nat} {laneBad feedBad : Bool} {s : State}
    (hk : Keeps s₀ s) : Keeps s₀ (feedDelivery p f laneBad feedBad s) := by
  unfold feedDelivery
  try dsimp only
  repeat' first
    | with_reducible assumption
    | dsimp only
    | with_reducible apply feedIntake_keeps
    | with_reducible apply feedPresent_keeps
    | split
    | intro _ _ _
    | intro _ _
    | intro _

theorem feedSwitch_keeps {s₀ : State} {p f : Nat} {s : State}
    (hk : Keeps s₀ s) : Keeps s₀ (feedSwitch p f s) := by
  unfold feedSwitch
  try dsimp only
  repeat' first
    | with_reducible assumption
    | dsimp only
    | with_reducible apply State.irq_keeps
    | with_reducible apply Keeps.put
    | with_reducible apply State.setFeedTrack_keeps
    | with_reducible apply laneSettle_keeps
    | with_reducible apply Keeps.when
    | split
    | intro _ _ _
    | intro _ _
    | intro _
    | (simp only [keeps_mk]; first | refine KeepsParts.of ?_)

theorem feedSelChange_keeps {s₀ : State} {p f : Nat} {s : State}
    (hk : Keeps s₀ s) : Keeps s₀ (feedSelChange p f s) := by
  unfold feedSelChange
  try dsimp only
  repeat' first
    | with_reducible assumption
    | dsimp only
    | with_reducible apply feedSwitch_keeps
    | split
    | intro _ _ _
    | intro _ _
    | intro _

theorem feedCtlWrite_keeps {s₀ : State} {p : Nat} {v : Word} {s : State}
    (hk : Keeps s₀ s) : Keeps s₀ (feedCtlWrite p v s) := by
  unfold feedCtlWrite
  try dsimp only
  repeat' first
    | with_reducible assumption
    | dsimp only
    | with_reducible apply State.loadAll_keeps
    | with_reducible apply Keeps.put
    | with_reducible apply feedSwitch_keeps
    | with_reducible apply laneSettle_keeps
    | with_reducible apply Keeps.each
    | split
    | intro _ _ _
    | intro _ _
    | intro _

end Sys2Proof.Machine
end

