-- ==== Sys2Proof/Laws/KeepsQueues.lean ====
section
/-! SUPPORT. What the operations of Machine/Queues.lean keep (Laws/Keeps.lean). -/

namespace Sys2Proof.Machine

open Sys2Proof

theorem State.setQueue_keeps {s₀ : State} {s : State} {m q : Nat} {x : Queue}
    (hk : Keeps s₀ s) : Keeps s₀ (State.setQueue s m q x) := by
  unfold State.setQueue
  try dsimp only
  repeat' first
    | with_reducible assumption
    | dsimp only
    | split
    | intro _ _ _
    | intro _ _
    | intro _
    | (simp only [keeps_mk]; first | refine KeepsParts.of ?_)

theorem queueRefresh_keeps {s₀ : State} {m q : Nat} {s : State}
    (hk : Keeps s₀ s) : Keeps s₀ (queueRefresh m q s) := by
  unfold queueRefresh
  try dsimp only
  repeat' first
    | with_reducible assumption
    | dsimp only
    | with_reducible apply Keeps.put
    | with_reducible apply State.putB_keeps
    | split
    | intro _ _ _
    | intro _ _
    | intro _

theorem queueErr_keeps {s₀ : State} {f : Fld} {m q : Nat} {s : State}
    (hk : Keeps s₀ s) : Keeps s₀ (queueErr f m q s) := by
  unfold queueErr
  try dsimp only
  repeat' first
    | with_reducible assumption
    | dsimp only
    | with_reducible apply State.setIrq_keeps
    | split
    | intro _ _ _
    | intro _ _
    | intro _

theorem queueStore_keeps {s₀ : State} {m q : Nat} {w : SWord} {s : State}
    (hk : Keeps s₀ s) : Keeps s₀ (queueStore m q w s) := by
  unfold queueStore
  try dsimp only
  repeat' first
    | with_reducible assumption
    | dsimp only
    | with_reducible apply Keeps.put
    | with_reducible apply State.setQueue_keeps
    | with_reducible apply queueRefresh_keeps
    | split
    | intro _ _ _
    | intro _ _
    | intro _
    | (simp only [keeps_mk]; first | refine KeepsParts.of ?_)

theorem queueDrop_keeps {s₀ : State} {m q : Nat} {s : State}
    (hk : Keeps s₀ s) : Keeps s₀ (queueDrop m q s) := by
  unfold queueDrop
  try dsimp only
  repeat' first
    | with_reducible assumption
    | dsimp only
    | with_reducible apply State.count_keeps
    | with_reducible apply State.setQueue_keeps
    | with_reducible apply queueErr_keeps
    | with_reducible apply queueRefresh_keeps
    | split
    | intro _ _ _
    | intro _ _
    | intro _
    | (simp only [keeps_mk]; first | refine KeepsParts.of ?_)

theorem queueWrite_keeps_snd {s₀ : State} {m q : Nat} {w : SWord} {s : State}
    (hk : Keeps s₀ s) : Keeps s₀ (queueWrite m q w s).2 := by
  unfold queueWrite
  try dsimp only
  repeat' first
    | with_reducible assumption
    | dsimp only
    | with_reducible apply queueDrop_keeps
    | with_reducible apply queueStore_keeps
    | split
    | intro _ _ _
    | intro _ _
    | intro _

theorem queueWrite_keeps {s₀ : State} {m q : Nat} {w : SWord} {s : State} {y₁ t₁} (e₁ : queueWrite m q w s = (y₁, t₁))
    (hk : Keeps s₀ s) : Keeps s₀ t₁ := by
  have k := queueWrite_keeps_snd (s₀ := s₀) (m := m) (q := q) (w := w) (s := s) hk
  rw [e₁] at k
  exact k

theorem cairnCommit_keeps {s₀ : State} {m q : Nat} {s : State}
    (hk : Keeps s₀ s) : Keeps s₀ (cairnCommit m q s) := by
  unfold cairnCommit
  try dsimp only
  repeat' first
    | with_reducible assumption
    | dsimp only
    | with_reducible apply State.count_keeps
    | with_reducible apply State.setQueue_keeps
    | with_reducible apply queueStore_keeps
    | split
    | intro _ _ _
    | intro _ _
    | intro _
    | (simp only [keeps_mk]; first | refine KeepsParts.of ?_)

theorem queueTap_keeps {s₀ : State} {m q : Nat} {s : State}
    (hk : Keeps s₀ s) : Keeps s₀ (queueTap m q s) := by
  unfold queueTap
  try dsimp only
  repeat' first
    | with_reducible assumption
    | dsimp only
    | with_reducible refine queueWrite_keeps (by assumption) ?_
    | with_reducible apply queueWrite_keeps_snd
    | with_reducible apply tapTook_keeps
    | split
    | intro _ _ _
    | intro _ _
    | intro _
    | (simp only [keeps_mk]; first | refine KeepsParts.of ?_)

theorem release_keeps {s₀ : State} {m q i : Nat} {s : State}
    (hk : Keeps s₀ s) : Keeps s₀ (release m q i s) := by
  unfold release
  try dsimp only
  repeat' first
    | with_reducible assumption
    | dsimp only
    | with_reducible apply Keeps.put
    | with_reducible apply State.setQueue_keeps
    | with_reducible apply queueErr_keeps
    | with_reducible apply queueRefresh_keeps
    | with_reducible apply Keeps.when
    | with_reducible apply OptKeeps.getD
    | split
    | intro _ _ _
    | intro _ _
    | intro _
    | (simp only [keeps_mk]; first | refine KeepsParts.of ?_)

theorem windowRead_keeps {s₀ : State} {m q : Nat} {s : State}
    (hk : Keeps s₀ s) : Keeps s₀ (windowRead m q s) := by
  unfold windowRead
  try dsimp only
  repeat' first
    | with_reducible assumption
    | dsimp only
    | with_reducible apply Keeps.put
    | with_reducible apply State.setQueue_keeps
    | with_reducible apply release_keeps
    | split
    | intro _ _ _
    | intro _ _
    | intro _
    | (simp only [keeps_mk]; first | refine KeepsParts.of ?_)

theorem queueStrike_keeps {s₀ : State} {m q : Nat} {l : List Nat} {s : State}
    (hk : Keeps s₀ s) : Keeps s₀ (queueStrike m q l s) := by
  unfold queueStrike
  try dsimp only
  repeat' first
    | with_reducible assumption
    | dsimp only
    | with_reducible apply State.setQueue_keeps
    | with_reducible apply Keeps.when
    | split
    | intro _ _ _
    | intro _ _
    | intro _
    | (simp only [keeps_mk]; first | refine KeepsParts.of ?_)

theorem queueTake_keeps {s₀ : State} {m q : Nat} {x : QWord} {s : State}
    (hk : Keeps s₀ s) : Keeps s₀ (queueTake m q x s) := by
  unfold queueTake
  try dsimp only
  repeat' first
    | with_reducible assumption
    | dsimp only
    | with_reducible apply State.count_keeps
    | with_reducible apply Keeps.put
    | with_reducible apply State.setQueue_keeps
    | with_reducible apply queueErr_keeps
    | with_reducible apply queueRefresh_keeps
    | with_reducible apply release_keeps
    | with_reducible apply windowRead_keeps
    | with_reducible apply Keeps.when
    | split
    | intro _ _ _
    | intro _ _
    | intro _
    | (simp only [keeps_mk]; first | refine KeepsParts.of ?_)

theorem queueRead_keeps {s₀ : State} {m q : Nat} {bad : Bool} {s : State}
    (hk : Keeps s₀ s) : Keeps s₀ (queueRead m q bad s) := by
  unfold queueRead
  try dsimp only
  repeat' first
    | with_reducible assumption
    | dsimp only
    | with_reducible apply State.setStage_keeps
    | with_reducible apply noteInput_keeps
    | with_reducible apply queueStrike_keeps
    | with_reducible apply queueTake_keeps
    | split
    | intro _ _ _
    | intro _ _
    | intro _
    | (simp only [keeps_mk]; first | refine KeepsParts.of ?_)

theorem cfgRefused_keeps {s₀ : State} {m q : Nat} {s : State}
    (hk : Keeps s₀ s) : Keeps s₀ (cfgRefused m q s) := by
  unfold cfgRefused
  try dsimp only
  repeat' first
    | with_reducible assumption
    | dsimp only
    | with_reducible apply Keeps.put
    | split
    | intro _ _ _
    | intro _ _
    | intro _

theorem queueEmpty_keeps {s₀ : State} {m q : Nat} {s : State}
    (hk : Keeps s₀ s) : Keeps s₀ (queueEmpty m q s) := by
  unfold queueEmpty
  try dsimp only
  repeat' first
    | with_reducible assumption
    | dsimp only
    | with_reducible apply Keeps.put
    | with_reducible apply State.setQueue_keeps
    | with_reducible apply queueRefresh_keeps
    | split
    | intro _ _ _
    | intro _ _
    | intro _
    | (simp only [keeps_mk]; first | refine KeepsParts.of ?_)

theorem conflictRefresh_keeps {s₀ : State} {m : Nat} {s : State}
    (hk : Keeps s₀ s) : Keeps s₀ (conflictRefresh m s) := by
  unfold conflictRefresh
  try dsimp only
  repeat' first
    | with_reducible assumption
    | dsimp only
    | with_reducible apply Keeps.put
    | with_reducible apply State.putB_keeps
    | with_reducible apply State.setIrq_keeps
    | with_reducible apply Keeps.each
    | split
    | intro _ _ _
    | intro _ _
    | intro _

theorem sqCtlWrite_keeps {s₀ : State} {m q : Nat} {v : Word} {s : State}
    (hk : Keeps s₀ s) : Keeps s₀ (sqCtlWrite m q v s) := by
  unfold sqCtlWrite
  try dsimp only
  repeat' first
    | with_reducible assumption
    | dsimp only
    | with_reducible apply State.loadAll_keeps
    | with_reducible apply Keeps.put
    | with_reducible apply State.setQueue_keeps
    | with_reducible apply cfgRefused_keeps
    | with_reducible apply queueEmpty_keeps
    | with_reducible apply Keeps.when
    | split
    | intro _ _ _
    | intro _ _
    | intro _
    | (simp only [keeps_mk]; first | refine KeepsParts.of ?_)

theorem sqBindWrite_keeps {s₀ : State} {m q : Nat} {v : Word} {s : State}
    (hk : Keeps s₀ s) : Keeps s₀ (sqBindWrite m q v s) := by
  unfold sqBindWrite
  try dsimp only
  repeat' first
    | with_reducible assumption
    | dsimp only
    | with_reducible apply State.loadAll_keeps
    | with_reducible apply cfgRefused_keeps
    | with_reducible apply conflictRefresh_keeps
    | split
    | intro _ _ _
    | intro _ _
    | intro _

theorem sqQuotaWrite_keeps {s₀ : State} {m q : Nat} {v : Word} {s : State}
    (hk : Keeps s₀ s) : Keeps s₀ (sqQuotaWrite m q v s) := by
  unfold sqQuotaWrite
  try dsimp only
  repeat' first
    | with_reducible assumption
    | dsimp only
    | with_reducible apply State.loadAll_keeps
    | with_reducible apply Keeps.put
    | with_reducible apply cfgRefused_keeps
    | with_reducible apply queueRefresh_keeps
    | with_reducible apply Keeps.foldl
    | with_reducible apply Keeps.foldl_snd
    | split
    | intro _ _ _
    | intro _ _
    | intro _

theorem inCommand_keeps {s₀ : State} {m q : Nat} {f : State → State} {s : State} (hf : ∀  t, Keeps s₀ t → Keeps s₀ (f  t))
    (hk : Keeps s₀ s) : Keeps s₀ (inCommand m q f s) := by
  unfold inCommand
  try dsimp only
  repeat' first
    | with_reducible assumption
    | with_reducible apply hf
    | dsimp only
    | with_reducible apply queueErr_keeps
    | split
    | intro _ _ _
    | intro _ _
    | intro _

theorem qMark_keeps {s₀ : State} {m q : Nat} {s : State}
    (hk : Keeps s₀ s) : Keeps s₀ (qMark m q s) := by
  unfold qMark
  try dsimp only
  repeat' first
    | with_reducible assumption
    | dsimp only
    | with_reducible apply Keeps.put
    | with_reducible apply inCommand_keeps
    | split
    | intro _ _ _
    | intro _ _
    | intro _

theorem packetHead_keeps {s₀ : State} {m q : Nat} {s : State}
    (hk : Keeps s₀ s) : Keeps s₀ (packetHead m q s) := by
  unfold packetHead
  try dsimp only
  repeat' first
    | with_reducible assumption
    | dsimp only
    | with_reducible apply State.setQueue_keeps
    | split
    | intro _ _ _
    | intro _ _
    | intro _
    | (simp only [keeps_mk]; first | refine KeepsParts.of ?_)

theorem qRewind_keeps {s₀ : State} {m q : Nat} {s : State}
    (hk : Keeps s₀ s) : Keeps s₀ (qRewind m q s) := by
  unfold qRewind
  try dsimp only
  repeat' first
    | with_reducible assumption
    | dsimp only
    | with_reducible apply Keeps.put
    | with_reducible apply inCommand_keeps
    | with_reducible apply packetHead_keeps
    | with_reducible apply queueErr_keeps
    | with_reducible apply queueRefresh_keeps
    | split
    | intro _ _ _
    | intro _ _
    | intro _

theorem qReleaseRead_keeps {s₀ : State} {m q : Nat} {s : State}
    (hk : Keeps s₀ s) : Keeps s₀ (qReleaseRead m q s) := by
  unfold qReleaseRead
  try dsimp only
  repeat' first
    | with_reducible assumption
    | dsimp only
    | with_reducible apply inCommand_keeps
    | with_reducible apply release_keeps
    | split
    | intro _ _ _
    | intro _ _
    | intro _

theorem qReleaseMark_keeps {s₀ : State} {m q : Nat} {s : State}
    (hk : Keeps s₀ s) : Keeps s₀ (qReleaseMark m q s) := by
  unfold qReleaseMark
  try dsimp only
  repeat' first
    | with_reducible assumption
    | dsimp only
    | with_reducible apply inCommand_keeps
    | with_reducible apply queueErr_keeps
    | with_reducible apply release_keeps
    | split
    | intro _ _ _
    | intro _ _
    | intro _

theorem qReleasePkt_keeps {s₀ : State} {m q : Nat} {s : State}
    (hk : Keeps s₀ s) : Keeps s₀ (qReleasePkt m q s) := by
  unfold qReleasePkt
  try dsimp only
  repeat' first
    | with_reducible assumption
    | dsimp only
    | with_reducible apply inCommand_keeps
    | with_reducible apply queueErr_keeps
    | with_reducible apply release_keeps
    | split
    | intro _ _ _
    | intro _ _
    | intro _
    | (simp only [keeps_mk]; first | refine KeepsParts.of ?_)

theorem sqCmdWrite_keeps {s₀ : State} {m q op : Nat} {s : State}
    (hk : Keeps s₀ s) : Keeps s₀ (sqCmdWrite m q op s) := by
  unfold sqCmdWrite
  try dsimp only
  repeat' first
    | with_reducible assumption
    | dsimp only
    | with_reducible apply qMark_keeps
    | with_reducible apply qReleaseMark_keeps
    | with_reducible apply qReleasePkt_keeps
    | with_reducible apply qReleaseRead_keeps
    | with_reducible apply qRewind_keeps
    | split
    | intro _ _ _
    | intro _ _
    | intro _
    | (simp only [keeps_mk]; first | refine KeepsParts.of ?_)

theorem tailTimeout_keeps {s₀ : State} {m q : Nat} {s : State}
    (hk : Keeps s₀ s) : Keeps s₀ (tailTimeout m q s) := by
  unfold tailTimeout
  try dsimp only
  repeat' first
    | with_reducible assumption
    | dsimp only
    | with_reducible apply State.setQueue_keeps
    | with_reducible apply queueErr_keeps
    | with_reducible apply Keeps.when
    | split
    | intro _ _ _
    | intro _ _
    | intro _
    | (simp only [keeps_mk]; first | refine KeepsParts.of ?_)

theorem forceEnd_keeps {s₀ : State} {m q : Nat} {s : State}
    (hk : Keeps s₀ s) : Keeps s₀ (forceEnd m q s) := by
  unfold forceEnd
  try dsimp only
  repeat' first
    | with_reducible assumption
    | dsimp only
    | with_reducible apply State.count_keeps
    | with_reducible apply Keeps.put
    | with_reducible apply State.setQueue_keeps
    | with_reducible apply queueRefresh_keeps
    | split
    | intro _ _ _
    | intro _ _
    | intro _
    | (simp only [keeps_mk]; first | refine KeepsParts.of ?_)

theorem queueSettle_keeps {s₀ : State} {m q : Nat} {s : State}
    (hk : Keeps s₀ s) : Keeps s₀ (queueSettle m q s) := by
  unfold queueSettle
  try dsimp only
  repeat' first
    | with_reducible assumption
    | dsimp only
    | with_reducible apply cairnCommit_keeps
    | with_reducible apply forceEnd_keeps
    | split
    | intro _ _ _
    | intro _ _
    | intro _

theorem queuePut_keeps {s₀ : State} {m q : Nat} {v : Word} {s : State}
    (hk : Keeps s₀ s) : Keeps s₀ (queuePut m q v s) := by
  unfold queuePut
  try dsimp only
  repeat' first
    | with_reducible assumption
    | dsimp only
    | with_reducible apply Keeps.put
    | with_reducible apply queueSettle_keeps
    | with_reducible refine queueWrite_keeps (by assumption) ?_
    | with_reducible apply queueWrite_keeps_snd
    | split
    | intro _ _ _
    | intro _ _
    | intro _
    | (simp only [keeps_mk]; first | refine KeepsParts.of ?_)

theorem queueGet_keeps_snd {s₀ : State} {m q : Nat} {bad : Bool} {s : State}
    (hk : Keeps s₀ s) : Keeps s₀ (queueGet m q bad s).2.2 := by
  unfold queueGet
  try dsimp only
  repeat' first
    | with_reducible assumption
    | dsimp only
    | with_reducible apply Keeps.put
    | with_reducible apply queueStrike_keeps
    | with_reducible apply queueTake_keeps
    | split
    | intro _ _ _
    | intro _ _
    | intro _
    | (simp only [keeps_mk]; first | refine KeepsParts.of ?_)

theorem queueGet_keeps {s₀ : State} {m q : Nat} {bad : Bool} {s : State} {y₁ y₂ t₁} (e₁ : queueGet m q bad s = (y₁, y₂, t₁))
    (hk : Keeps s₀ s) : Keeps s₀ t₁ := by
  have k := queueGet_keeps_snd (s₀ := s₀) (m := m) (q := q) (bad := bad) (s := s) hk
  rw [e₁] at k
  exact k

theorem takeMany_keeps_snd {s₀ : State} {m q : Nat} {x0 : Nat} {s : State}
    (hk : Keeps s₀ s) : Keeps s₀ (takeMany m q x0 s).2 := by
  induction x0 generalizing m q s with
  | zero =>
    simp only [takeMany]
    repeat' first
      | with_reducible assumption
      | with_reducible apply ih
      | dsimp only
      | with_reducible apply queueTake_keeps
      | split
      | intro _ _ _
      | intro _ _
      | intro _
      | (simp only [keeps_mk]; first | refine KeepsParts.of ?_)
  | succ n ih =>
    simp only [takeMany]
    repeat' first
      | with_reducible assumption
      | with_reducible apply ih
      | dsimp only
      | with_reducible apply queueTake_keeps
      | split
      | intro _ _ _
      | intro _ _
      | intro _
      | (simp only [keeps_mk]; first | refine KeepsParts.of ?_)

theorem takeMany_keeps {s₀ : State} {m q : Nat} {x0 : Nat} {s : State} {y₁ t₁} (e₁ : takeMany m q x0 s = (y₁, t₁))
    (hk : Keeps s₀ s) : Keeps s₀ t₁ := by
  have k := takeMany_keeps_snd (s₀ := s₀) (m := m) (q := q) (x0 := x0) (s := s) hk
  rw [e₁] at k
  exact k

theorem streamSend_keeps {s₀ : State} {m q : Nat} {bad : List Nat} {s : State}
    (hk : Keeps s₀ s) : Keeps s₀ (streamSend m q bad s) := by
  unfold streamSend
  try dsimp only
  repeat' first
    | with_reducible assumption
    | dsimp only
    | with_reducible apply niSend_keeps
    | with_reducible apply queueStrike_keeps
    | with_reducible refine takeMany_keeps (by assumption) ?_
    | with_reducible apply takeMany_keeps_snd
    | split
    | intro _ _ _
    | intro _ _
    | intro _
    | (simp only [keeps_mk]; first | refine KeepsParts.of ?_)

theorem streamWords_keeps_snd {s₀ : State} {m q : Nat} {x0 : List SWord} {s : State}
    (hk : Keeps s₀ s) : Keeps s₀ (streamWords m q x0 s).2 := by
  induction x0 generalizing m q s with
  | nil =>
    simp only [streamWords]
    repeat' first
      | with_reducible assumption
      | with_reducible apply ih
      | dsimp only
      | with_reducible refine queueWrite_keeps (by assumption) ?_
      | with_reducible apply queueWrite_keeps_snd
      | split
      | intro _ _ _
      | intro _ _
      | intro _
      | (simp only [keeps_mk]; first | refine KeepsParts.of ?_)
  | cons a l ih =>
    simp only [streamWords]
    repeat' first
      | with_reducible assumption
      | with_reducible apply ih
      | dsimp only
      | with_reducible refine queueWrite_keeps (by assumption) ?_
      | with_reducible apply queueWrite_keeps_snd
      | split
      | intro _ _ _
      | intro _ _
      | intro _
      | (simp only [keeps_mk]; first | refine KeepsParts.of ?_)

theorem streamWords_keeps {s₀ : State} {m q : Nat} {x0 : List SWord} {s : State} {y₁ t₁} (e₁ : streamWords m q x0 s = (y₁, t₁))
    (hk : Keeps s₀ s) : Keeps s₀ t₁ := by
  have k := streamWords_keeps_snd (s₀ := s₀) (m := m) (q := q) (x0 := x0) (s := s) hk
  rw [e₁] at k
  exact k

theorem laneStore_keeps {s₀ : State} {l : Nat} {w : SWord} {s : State}
    (hk : Keeps s₀ s) : Keeps s₀ (laneStore l w s) := by
  unfold laneStore
  try dsimp only
  repeat' first
    | with_reducible assumption
    | dsimp only
    | with_reducible apply State.setLane_keeps
    | split
    | intro _ _ _
    | intro _ _
    | intro _
    | (simp only [keeps_mk]; first | refine KeepsParts.of ?_)

theorem laneForce_keeps {s₀ : State} {l : Nat} {s : State}
    (hk : Keeps s₀ s) : Keeps s₀ (laneForce l s) := by
  unfold laneForce
  try dsimp only
  repeat' first
    | with_reducible assumption
    | dsimp only
    | with_reducible apply State.setLane_keeps
    | split
    | intro _ _ _
    | intro _ _
    | intro _
    | (simp only [keeps_mk]; first | refine KeepsParts.of ?_)

theorem laneForcedCairn_keeps {s₀ : State} {l : Nat} {s : State}
    (hk : Keeps s₀ s) : Keeps s₀ (laneForcedCairn l s) := by
  unfold laneForcedCairn
  try dsimp only
  repeat' first
    | with_reducible assumption
    | dsimp only
    | with_reducible apply State.setLane_keeps
    | with_reducible apply laneStore_keeps
    | split
    | intro _ _ _
    | intro _ _
    | intro _
    | (simp only [keeps_mk]; first | refine KeepsParts.of ?_)

theorem laneCairn_keeps {s₀ : State} {l : Nat} {s : State}
    (hk : Keeps s₀ s) : Keeps s₀ (laneCairn l s) := by
  unfold laneCairn
  try dsimp only
  repeat' first
    | with_reducible assumption
    | dsimp only
    | with_reducible apply State.count_keeps
    | with_reducible apply State.setLane_keeps
    | with_reducible apply laneStore_keeps
    | split
    | intro _ _ _
    | intro _ _
    | intro _
    | (simp only [keeps_mk]; first | refine KeepsParts.of ?_)

theorem laneCommit_keeps {s₀ : State} {l : Nat} {s : State}
    (hk : Keeps s₀ s) : Keeps s₀ (laneCommit l s) := by
  unfold laneCommit
  try dsimp only
  repeat' first
    | with_reducible assumption
    | dsimp only
    | with_reducible apply laneCairn_keeps
    | with_reducible apply laneForcedCairn_keeps
    | with_reducible apply laneRefresh_keeps
    | split
    | intro _ _ _
    | intro _ _
    | intro _

theorem laneWrite_keeps {s₀ : State} {l : Nat} {w : SWord} {s : State}
    (hk : Keeps s₀ s) : Keeps s₀ (laneWrite l w s) := by
  unfold laneWrite
  try dsimp only
  repeat' first
    | with_reducible assumption
    | dsimp only
    | with_reducible apply State.count_keeps
    | with_reducible apply State.setIrq_keeps
    | with_reducible apply State.setLane_keeps
    | with_reducible apply laneCairn_keeps
    | with_reducible apply laneForce_keeps
    | with_reducible apply laneForcedCairn_keeps
    | with_reducible apply laneRefresh_keeps
    | with_reducible apply laneStore_keeps
    | split
    | intro _ _ _
    | intro _ _
    | intro _
    | (simp only [keeps_mk]; first | refine KeepsParts.of ?_)

theorem laneTimeout_keeps {s₀ : State} {l : Nat} {s : State}
    (hk : Keeps s₀ s) : Keeps s₀ (laneTimeout l s) := by
  unfold laneTimeout
  try dsimp only
  repeat' first
    | with_reducible assumption
    | dsimp only
    | with_reducible apply State.setIrq_keeps
    | with_reducible apply State.setLane_keeps
    | with_reducible apply Keeps.when
    | split
    | intro _ _ _
    | intro _ _
    | intro _
    | (simp only [keeps_mk]; first | refine KeepsParts.of ?_)

end Sys2Proof.Machine
end

