-- ==== Sys2Proof/Laws/KeepsShelfPorts.lean ====
section
/-! SUPPORT. What the operations of Machine/ShelfPorts.lean keep (Laws/Keeps.lean). -/

namespace Sys2Proof.Machine

open Sys2Proof

theorem setPortReqs_keeps {s₀ : State} {m p : Nat} {l : List ShelfPortReq} {s : State}
    (hk : Keeps s₀ s) : Keeps s₀ (setPortReqs m p l s) := by
  unfold setPortReqs
  try dsimp only
  repeat' first
    | with_reducible assumption
    | dsimp only
    | with_reducible apply Keeps.put
    | with_reducible apply State.setShelf_keeps
    | split
    | intro _ _ _
    | intro _ _
    | intro _
    | (simp only [keeps_mk]; first | refine KeepsParts.of ?_)

theorem takeReq_keeps {s₀ : State} {m p : Nat} {s : State}
    (hk : Keeps s₀ s) : Keeps s₀ (takeReq m p s) := by
  unfold takeReq
  try dsimp only
  repeat' first
    | with_reducible assumption
    | dsimp only
    | with_reducible apply tapTook_keeps
    | split
    | intro _ _ _
    | intro _ _
    | intro _

theorem takeData_keeps {s₀ : State} {m p : Nat} {s : State}
    (hk : Keeps s₀ s) : Keeps s₀ (takeData m p s) := by
  unfold takeData
  try dsimp only
  repeat' first
    | with_reducible assumption
    | dsimp only
    | with_reducible apply tapTook_keeps
    | split
    | intro _ _ _
    | intro _ _
    | intro _

theorem markerGone_keeps {s₀ : State} {m : Nat} {s : State}
    (hk : Keeps s₀ s) : Keeps s₀ (markerGone m s) := by
  unfold markerGone
  try dsimp only
  repeat' first
    | with_reducible assumption
    | dsimp only
    | with_reducible apply Keeps.put
    | split
    | intro _ _ _
    | intro _ _
    | intro _

theorem shelfPortRequest_keeps {s₀ : State} {m p : Nat} {s : State}
    (hk : Keeps s₀ s) : Keeps s₀ (shelfPortRequest m p s) := by
  unfold shelfPortRequest
  try dsimp only
  repeat' first
    | with_reducible assumption
    | dsimp only
    | with_reducible apply controlPoison_keeps
    | with_reducible apply markerGone_keeps
    | with_reducible apply setPortReqs_keeps
    | with_reducible apply takeReq_keeps
    | split
    | intro _ _ _
    | intro _ _
    | intro _
    | (simp only [keeps_mk]; first | refine KeepsParts.of ?_)

theorem shelfPortWrite_keeps {s₀ : State} {m p : Nat} {s : State}
    (hk : Keeps s₀ s) : Keeps s₀ (shelfPortWrite m p s) := by
  unfold shelfPortWrite
  try dsimp only
  repeat' first
    | with_reducible assumption
    | dsimp only
    | with_reducible apply controlPoison_keeps
    | with_reducible apply markerGone_keeps
    | with_reducible apply setPortReqs_keeps
    | with_reducible apply takeData_keeps
    | with_reducible apply takeReq_keeps
    | split
    | intro _ _ _
    | intro _ _
    | intro _
    | (simp only [keeps_mk]; first | refine KeepsParts.of ?_)

theorem shelfPortResponse_keeps {s₀ : State} {m p : Nat} {s : State}
    (hk : Keeps s₀ s) : Keeps s₀ (shelfPortResponse m p s) := by
  unfold shelfPortResponse
  try dsimp only
  repeat' first
    | with_reducible assumption
    | dsimp only
    | with_reducible apply Keeps.put
    | with_reducible apply State.setStage_keeps
    | with_reducible apply noteInput_keeps
    | with_reducible apply setPortReqs_keeps
    | split
    | intro _ _ _
    | intro _ _
    | intro _
    | (simp only [keeps_mk]; first | refine KeepsParts.of ?_)

theorem portGrant_keeps {s₀ : State} {m p i : Nat} {r : ShelfPortReq} {s : State}
    (hk : Keeps s₀ s) : Keeps s₀ (portGrant m p i r s) := by
  unfold portGrant
  try dsimp only
  repeat' first
    | with_reducible assumption
    | dsimp only
    | with_reducible apply Keeps.put
    | with_reducible apply setPortReqs_keeps
    | with_reducible refine shelfRead_keeps (by assumption) ?_
    | with_reducible apply shelfRead_keeps_snd
    | with_reducible apply shelfWrite_keeps
    | split
    | intro _ _ _
    | intro _ _
    | intro _
    | (simp only [keeps_mk]; first | refine KeepsParts.of ?_)

theorem bulkRespond_keeps {s₀ : State} {b : ShelfBulk} {s : State}
    (hk : Keeps s₀ s) : Keeps s₀ (bulkRespond b s) := by
  unfold bulkRespond
  try dsimp only
  repeat' first
    | with_reducible assumption
    | dsimp only
    | with_reducible apply niSend_keeps
    | with_reducible apply Keeps.when
    | split
    | intro _ _ _
    | intro _ _
    | intro _
    | (simp only [keeps_mk]; first | refine KeepsParts.of ?_)

theorem shelfArrive_keeps {s₀ : State} {m : Nat} {p : Packet} {s : State}
    (hk : Keeps s₀ s) : Keeps s₀ (shelfArrive m p s) := by
  unfold shelfArrive
  try dsimp only
  repeat' first
    | with_reducible assumption
    | dsimp only
    | with_reducible apply State.setShelf_keeps
    | with_reducible apply bulkRespond_keeps
    | with_reducible apply niSend_keeps
    | split
    | intro _ _ _
    | intro _ _
    | intro _
    | (simp only [keeps_mk]; first | refine KeepsParts.of ?_)

theorem bulkAccess_keeps_snd {s₀ : State} {m w : Nat} {rest : List Nat} {b : ShelfBulk} {s : State}
    (hk : Keeps s₀ s) : Keeps s₀ (bulkAccess m w rest b s).2 := by
  unfold bulkAccess
  try dsimp only
  repeat' first
    | with_reducible assumption
    | dsimp only
    | with_reducible refine shelfRead_keeps (by assumption) ?_
    | with_reducible apply shelfRead_keeps_snd
    | with_reducible apply shelfWrite_keeps
    | split
    | intro _ _ _
    | intro _ _
    | intro _
    | (simp only [keeps_mk]; first | refine KeepsParts.of ?_)

theorem bulkAccess_keeps {s₀ : State} {m w : Nat} {rest : List Nat} {b : ShelfBulk} {s : State} {y₁ t₁} (e₁ : bulkAccess m w rest b s = (y₁, t₁))
    (hk : Keeps s₀ s) : Keeps s₀ t₁ := by
  have k := bulkAccess_keeps_snd (s₀ := s₀) (m := m) (w := w) (rest := rest) (b := b) (s := s) hk
  rw [e₁] at k
  exact k

theorem bulkGrant_keeps {s₀ : State} {m i : Nat} {s : State}
    (hk : Keeps s₀ s) : Keeps s₀ (bulkGrant m i s) := by
  unfold bulkGrant
  try dsimp only
  repeat' first
    | with_reducible assumption
    | dsimp only
    | with_reducible apply State.setShelf_keeps
    | with_reducible refine bulkAccess_keeps (by assumption) ?_
    | with_reducible apply bulkAccess_keeps_snd
    | with_reducible apply bulkRespond_keeps
    | split
    | intro _ _ _
    | intro _ _
    | intro _
    | (simp only [keeps_mk]; first | refine KeepsParts.of ?_)

theorem setLoader_keeps {s₀ : State} {m : Nat} {o : Option LoadOp} {s : State}
    (hk : Keeps s₀ s) : Keeps s₀ (setLoader m o s) := by
  unfold setLoader
  try dsimp only
  repeat' first
    | with_reducible assumption
    | dsimp only
    | split
    | intro _ _ _
    | intro _ _
    | intro _
    | (simp only [keeps_mk]; first | refine KeepsParts.of ?_)

theorem loaderGrant_keeps {s₀ : State} {m : Nat} {o : LoadOp} {k : Nat} {s : State}
    (hk : Keeps s₀ s) : Keeps s₀ (loaderGrant m o k s) := by
  unfold loaderGrant
  try dsimp only
  repeat' first
    | with_reducible assumption
    | dsimp only
    | with_reducible apply setLoader_keeps
    | with_reducible refine shelfReadBytes_keeps (by assumption) ?_
    | with_reducible apply shelfReadBytes_keeps_snd
    | split
    | intro _ _ _
    | intro _ _
    | intro _
    | (simp only [keeps_mk]; first | refine KeepsParts.of ?_)

theorem loaderWait_keeps {s₀ : State} {m : Nat} {s : State}
    (hk : Keeps s₀ s) : Keeps s₀ (loaderWait m s) := by
  unfold loaderWait
  try dsimp only
  repeat' first
    | with_reducible assumption
    | dsimp only
    | with_reducible apply State.count_keeps
    | with_reducible apply State.setShelf_keeps
    | with_reducible apply Keeps.when
    | split
    | intro _ _ _
    | intro _ _
    | intro _
    | (simp only [keeps_mk]; first | refine KeepsParts.of ?_)

theorem setWant_keeps {s₀ : State} {m : Nat} {l : List Nat} {s : State}
    (hk : Keeps s₀ s) : Keeps s₀ (setWant m l s) := by
  unfold setWant
  try dsimp only
  repeat' first
    | with_reducible assumption
    | dsimp only
    | with_reducible apply State.setShelf_keeps
    | split
    | intro _ _ _
    | intro _ _
    | intro _
    | (simp only [keeps_mk]; first | refine KeepsParts.of ?_)

theorem countWaits_keeps {s₀ : State} {m bank : Nat} {bulkLost : Bool} {s : State}
    (hk : Keeps s₀ s) : Keeps s₀ (countWaits m bank bulkLost s) := by
  unfold countWaits
  try dsimp only
  repeat' first
    | with_reducible assumption
    | dsimp only
    | with_reducible apply State.count_keeps
    | with_reducible apply Keeps.when
    | split
    | intro _ _ _
    | intro _ _
    | intro _

theorem shelfGrant_keeps {s₀ : State} {m bank : Nat} {s : State}
    (hk : Keeps s₀ s) : Keeps s₀ (shelfGrant m bank s) := by
  unfold shelfGrant
  try dsimp only
  repeat' first
    | with_reducible assumption
    | dsimp only
    | with_reducible apply bulkGrant_keeps
    | with_reducible apply countWaits_keeps
    | with_reducible apply loaderGrant_keeps
    | with_reducible apply loaderWait_keeps
    | with_reducible apply portGrant_keeps
    | with_reducible apply scrubGrant_keeps
    | split
    | intro _ _ _
    | intro _ _
    | intro _
    | (simp only [keeps_mk]; first | refine KeepsParts.of ?_)

theorem scrubWriteback_keeps {s₀ : State} {m : Nat} {s : State}
    (hk : Keeps s₀ s) : Keeps s₀ (scrubWriteback m s) := by
  unfold scrubWriteback
  try dsimp only
  repeat' first
    | with_reducible assumption
    | dsimp only
    | with_reducible apply State.count_keeps
    | with_reducible apply scrubStore_keeps
    | split
    | intro _ _ _
    | intro _ _
    | intro _
    | (simp only [keeps_mk]; first | refine KeepsParts.of ?_)

theorem summitBank_keeps {s₀ : State} {m bank : Nat} {s : State}
    (hk : Keeps s₀ s) : Keeps s₀ (summitBank m bank s) := by
  unfold summitBank
  try dsimp only
  repeat' first
    | with_reducible assumption
    | dsimp only
    | with_reducible apply State.setShelf_keeps
    | with_reducible apply countWaits_keeps
    | with_reducible apply loaderWait_keeps
    | split
    | intro _ _ _
    | intro _ _
    | intro _
    | (simp only [keeps_mk]; first | refine KeepsParts.of ?_)

theorem shpWrite_keeps {s₀ : State} {m p reg : Nat} {v : Word} {s : State}
    (hk : Keeps s₀ s) : Keeps s₀ (shpWrite m p reg v s) := by
  unfold shpWrite
  try dsimp only
  repeat' first
    | with_reducible assumption
    | dsimp only
    | with_reducible apply State.loadAll_keeps
    | with_reducible apply State.setIrq_keeps
    | with_reducible apply conflictRefresh_keeps
    | split
    | intro _ _ _
    | intro _ _
    | intro _

end Sys2Proof.Machine
end

