-- ==== Sys2Proof/Laws/KeepsFigures.lean ====
section
/-! SUPPORT. What the operations of Machine/Figures.lean keep (Laws/Keeps.lean). -/

namespace Sys2Proof.Machine

open Sys2Proof

theorem bmRefresh_keeps {s₀ : State} {m : Nat} {s : State}
    (hk : Keeps s₀ s) : Keeps s₀ (bmRefresh m s) := by
  unfold bmRefresh
  try dsimp only
  repeat' first
    | with_reducible assumption
    | dsimp only
    | with_reducible apply Keeps.put
    | with_reducible apply Keeps.foldl
    | with_reducible apply Keeps.foldl_snd
    | split
    | intro _ _ _
    | intro _ _
    | intro _
    | (simp only [keeps_mk]; first | refine KeepsParts.of ?_)

theorem writeImage_keeps {s₀ : State} {m i : Nat} {img : Nat → BitVec 320} {s : State}
    (hk : Keeps s₀ s) : Keeps s₀ (writeImage m i img s) := by
  unfold writeImage
  try dsimp only
  repeat' first
    | with_reducible assumption
    | dsimp only
    | with_reducible apply State.setSlotBits_keeps
    | with_reducible apply Keeps.each
    | split
    | intro _ _ _
    | intro _ _
    | intro _

theorem scrambleSlot_keeps {s₀ : State} {m i : Nat} {s : State} (hk : Keeps s₀ s) : Keeps s₀ (scrambleSlot m i s) := by
  unfold scrambleSlot
  exact writeImage_keeps (hk.trans ⟨id, Eq.refl _, ⟨[], Eq.refl _⟩, Nat.le_add_right _ _⟩)

theorem figureFault_keeps {s₀ : State} {m code : Nat} {tile : Option Nat} {s : State}
    (hk : Keeps s₀ s) : Keeps s₀ (figureFault m code tile s) := by
  unfold figureFault
  try dsimp only
  repeat' first
    | with_reducible assumption
    | dsimp only
    | with_reducible apply State.irq_keeps
    | with_reducible apply Keeps.put
    | with_reducible apply State.putB_keeps
    | with_reducible apply Keeps.when
    | with_reducible apply OptKeeps.getD
    | split
    | intro _ _ _
    | intro _ _
    | intro _

theorem loadFault_keeps {s₀ : State} {m code : Nat} {tile : Option Nat} {o : LoadOp} {s : State}
    (hk : Keeps s₀ s) : Keeps s₀ (loadFault m code tile o s) := by
  unfold loadFault
  try dsimp only
  repeat' first
    | with_reducible assumption
    | dsimp only
    | with_reducible apply Keeps.put
    | with_reducible apply figureFault_keeps
    | with_reducible apply scrambleSlot_keeps
    | with_reducible apply setLoader_keeps
    | split
    | intro _ _ _
    | intro _ _
    | intro _

theorem loadCheck_keeps {s₀ : State} {m : Nat} {s : State}
    (hk : Keeps s₀ s) : Keeps s₀ (loadCheck m s) := by
  unfold loadCheck
  try dsimp only
  repeat' first
    | with_reducible assumption
    | dsimp only
    | with_reducible apply loadFault_keeps
    | with_reducible apply Keeps.when
    | split
    | intro _ _ _
    | intro _ _
    | intro _
    | (simp only [keeps_mk]; first | refine KeepsParts.of ?_)

theorem loaderAnswer_keeps {s₀ : State} {m k gen : Nat} {err : Bool} {data : List (Byte × Bool)} {s : State}
    (hk : Keeps s₀ s) : Keeps s₀ (loaderAnswer m k gen err data s) := by
  unfold loaderAnswer
  try dsimp only
  repeat' first
    | with_reducible assumption
    | dsimp only
    | with_reducible apply loadCheck_keeps
    | with_reducible apply loadFault_keeps
    | with_reducible apply setLoader_keeps
    | split
    | intro _ _ _
    | intro _ _
    | intro _
    | (simp only [keeps_mk]; first | refine KeepsParts.of ?_)

theorem slotLoaded_keeps {s₀ : State} {m i : Nat} {hbm : Bool} {addr : Nat} {bytes : List Byte} {s : State}
    (hk : Keeps s₀ s) : Keeps s₀ (slotLoaded m i hbm addr bytes s) := by
  unfold slotLoaded
  try dsimp only
  repeat' first
    | with_reducible assumption
    | dsimp only
    | with_reducible apply Keeps.put
    | with_reducible apply State.putB_keeps
    | with_reducible apply bmRefresh_keeps
    | with_reducible apply writeImage_keeps
    | split
    | intro _ _ _
    | intro _ _
    | intro _

theorem slotInvalid_keeps {s₀ : State} {m i : Nat} {s : State}
    (hk : Keeps s₀ s) : Keeps s₀ (slotInvalid m i s) := by
  unfold slotInvalid
  try dsimp only
  repeat' first
    | with_reducible assumption
    | dsimp only
    | with_reducible apply Keeps.put
    | with_reducible apply bmRefresh_keeps
    | split
    | intro _ _ _
    | intro _ _
    | intro _

theorem loaderIssue_keeps {s₀ : State} {m : Nat} {s : State}
    (hk : Keeps s₀ s) : Keeps s₀ (loaderIssue m s) := by
  unfold loaderIssue
  try dsimp only
  repeat' first
    | with_reducible assumption
    | dsimp only
    | with_reducible apply niRequest_keeps
    | with_reducible apply setLoader_keeps
    | split
    | intro _ _ _
    | intro _ _
    | intro _
    | (simp only [keeps_mk]; first | refine KeepsParts.of ?_)

theorem loaderPump_keeps {s₀ : State} {m : Nat} {s : State}
    (hk : Keeps s₀ s) : Keeps s₀ (loaderPump m s) := by
  unfold loaderPump
  try dsimp only
  repeat' first
    | with_reducible assumption
    | dsimp only
    | with_reducible apply loaderIssue_keeps
    | with_reducible apply Keeps.foldl
    | with_reducible apply Keeps.foldl_snd
    | split
    | intro _ _ _
    | intro _ _
    | intro _

theorem boundAsAtStart_keeps {s₀ : State} {m : Nat} {o : LoadOp} {s : State}
    (hk : Keeps s₀ s) : Keeps s₀ (boundAsAtStart m o s) := by
  unfold boundAsAtStart
  try dsimp only
  repeat' first
    | with_reducible assumption
    | dsimp only
    | with_reducible apply CoreRes.bind_keeps
    | with_reducible refine CoreKeeps.of_ok (CoreRes.bind_keeps ?_) (by assumption)
    | with_reducible refine CoreKeeps.of_trap (CoreRes.bind_keeps ?_) (by assumption)
    | with_reducible refine CoreKeeps.of_stall (CoreRes.bind_keeps ?_) (by assumption)
    | with_reducible apply Loading.bind_keeps
    | with_reducible refine LoadKeeps.of_going (Loading.bind_keeps ?_) (by assumption)
    | with_reducible refine LoadKeeps.of_failed (Loading.bind_keeps ?_) (by assumption)
    | with_reducible refine LoadKeeps.of_waits (Loading.bind_keeps ?_) (by assumption)
    | with_reducible apply Keeps.put
    | with_reducible apply Keeps.foldl
    | with_reducible apply Keeps.foldl_snd
    | split
    | intro _ _ _
    | intro _ _
    | intro _

theorem ldCtlWrite_keeps {s₀ : State} {m : Nat} {v : Word} {s : State}
    (hk : Keeps s₀ s) : Keeps s₀ (ldCtlWrite m v s) := by
  unfold ldCtlWrite
  try dsimp only
  repeat' first
    | with_reducible assumption
    | dsimp only
    | with_reducible apply State.irq_keeps
    | with_reducible apply State.loadAll_keeps
    | with_reducible apply Keeps.put
    | with_reducible apply figureFault_keeps
    | with_reducible apply loaderPump_keeps
    | with_reducible apply setLoader_keeps
    | with_reducible apply slotInvalid_keeps
    | split
    | intro _ _ _
    | intro _ _
    | intro _
    | (simp only [keeps_mk]; first | refine KeepsParts.of ?_ | refine KeepsParts.shelf ?_ (by first | exact SMap.wf_set _ _ _ _ | exact SMap.wf_clear _ _ _) | refine KeepsParts.bm ?_ (by first | exact SMap.wf_set _ _ _ _ | exact SMap.wf_clear _ _ _) | refine KeepsParts.hbm ?_ (by first | exact SMap.wf_set _ _ _ _ | exact SMap.wf_clear _ _ _ | exact fun _ => SMap.wf_nil _) | refine KeepsParts.ram ?_ (by first | exact SMap.wf_set _ _ _ _ | exact SMap.wf_clear _ _ _))

theorem loadDone_keeps {s₀ : State} {m i : Nat} {s : State}
    (hk : Keeps s₀ s) : Keeps s₀ (loadDone m i s) := by
  unfold loadDone
  try dsimp only
  repeat' first
    | with_reducible assumption
    | dsimp only
    | with_reducible apply State.irq_keeps
    | with_reducible apply Keeps.put
    | with_reducible apply boundAsAtStart_keeps
    | with_reducible apply loadFault_keeps
    | with_reducible apply setLoader_keeps
    | with_reducible apply slotLoaded_keeps
    | split
    | intro _ _ _
    | intro _ _
    | intro _
    | (simp only [keeps_mk]; first | refine KeepsParts.of ?_)

theorem wakeLoad_keeps {s₀ : State} {m : Nat} {s : State}
    (hk : Keeps s₀ s) : Keeps s₀ (wakeLoad m s) := by
  unfold wakeLoad
  try dsimp only
  repeat' first
    | with_reducible assumption
    | dsimp only
    | with_reducible apply Keeps.put
    | with_reducible apply setLoader_keeps
    | split
    | intro _ _ _
    | intro _ _
    | intro _
    | (simp only [keeps_mk]; first | refine KeepsParts.of ?_ | refine KeepsParts.shelf ?_ (by first | exact SMap.wf_set _ _ _ _ | exact SMap.wf_clear _ _ _) | refine KeepsParts.bm ?_ (by first | exact SMap.wf_set _ _ _ _ | exact SMap.wf_clear _ _ _) | refine KeepsParts.hbm ?_ (by first | exact SMap.wf_set _ _ _ _ | exact SMap.wf_clear _ _ _ | exact fun _ => SMap.wf_nil _) | refine KeepsParts.ram ?_ (by first | exact SMap.wf_set _ _ _ _ | exact SMap.wf_clear _ _ _))

theorem wakeSlotDone_keeps {s₀ : State} {m : Nat} {s : State}
    (hk : Keeps s₀ s) : Keeps s₀ (wakeSlotDone m s) := by
  unfold wakeSlotDone
  try dsimp only
  repeat' first
    | with_reducible assumption
    | dsimp only
    | with_reducible apply Keeps.put
    | with_reducible apply State.setMassif_keeps
    | with_reducible apply boundAsAtStart_keeps
    | with_reducible apply conflictRefresh_keeps
    | with_reducible apply scrambleSlot_keeps
    | with_reducible apply setLoader_keeps
    | with_reducible apply slotLoaded_keeps
    | with_reducible apply wakeLoad_keeps
    | split
    | intro _ _ _
    | intro _ _
    | intro _
    | (simp only [keeps_mk]; first | refine KeepsParts.of ?_)

theorem shelfCycle_keeps {s₀ : State} {m bank : Nat} {s : State}
    (hk : Keeps s₀ s) : Keeps s₀ (shelfCycle m bank s) := by
  unfold shelfCycle
  try dsimp only
  repeat' first
    | with_reducible assumption
    | dsimp only
    | with_reducible apply loadCheck_keeps
    | with_reducible apply shelfGrant_keeps
    | with_reducible apply wakeSlotDone_keeps
    | split
    | intro _ _ _
    | intro _ _
    | intro _

theorem slotParityFail_keeps {s₀ : State} {m t : Nat} {s : State}
    (hk : Keeps s₀ s) : Keeps s₀ (slotParityFail m t s) := by
  unfold slotParityFail
  try dsimp only
  repeat' first
    | with_reducible assumption
    | dsimp only
    | with_reducible apply State.count_keeps
    | with_reducible apply Keeps.put
    | with_reducible apply State.setIrq_keeps
    | with_reducible apply State.setMassif_keeps
    | with_reducible apply massifStop_keeps
    | with_reducible apply Keeps.when
    | split
    | intro _ _ _
    | intro _ _
    | intro _
    | (simp only [keeps_mk]; first | refine KeepsParts.of ?_)

theorem slotParityError_keeps {s₀ : State} {m t : Nat} {flip : Option Nat} {s : State}
    (hk : Keeps s₀ s) : Keeps s₀ (slotParityError m t flip s) := by
  unfold slotParityError
  try dsimp only
  repeat' first
    | with_reducible assumption
    | dsimp only
    | with_reducible apply State.setSlotBits_keeps
    | with_reducible apply bmRefresh_keeps
    | with_reducible apply conflictRefresh_keeps
    | with_reducible apply slotParityFail_keeps
    | split
    | intro _ _ _
    | intro _ _
    | intro _
    | (simp only [keeps_mk]; first | refine KeepsParts.of ?_)

theorem verifyDone_keeps {s₀ : State} {m : Nat} {s : State}
    (hk : Keeps s₀ s) : Keeps s₀ (verifyDone m s) := by
  unfold verifyDone
  try dsimp only
  repeat' first
    | with_reducible assumption
    | dsimp only
    | with_reducible apply State.irq_keeps
    | with_reducible apply Keeps.put
    | with_reducible apply figureFault_keeps
    | with_reducible apply setLoader_keeps
    | with_reducible apply slotInvalid_keeps
    | with_reducible apply slotParityFail_keeps
    | split
    | intro _ _ _
    | intro _ _
    | intro _
    | (simp only [keeps_mk]; first | refine KeepsParts.of ?_)

theorem seqLatch_keeps {s₀ : State} {m at0 : Nat} {after : Bool} {s : State}
    (hk : Keeps s₀ s) : Keeps s₀ (seqLatch m at0 after s) := by
  unfold seqLatch
  try dsimp only
  repeat' first
    | with_reducible assumption
    | dsimp only
    | with_reducible apply State.setMassif_keeps
    | with_reducible apply seqHalt_keeps
    | split
    | intro _ _ _
    | intro _ _
    | intro _
    | (simp only [keeps_mk]; first | refine KeepsParts.of ?_)

theorem seqSwitch_keeps {s₀ : State} {m : Nat} {v : Dword} {s : State}
    (hk : Keeps s₀ s) : Keeps s₀ (seqSwitch m v s) := by
  unfold seqSwitch
  try dsimp only
  repeat' first
    | with_reducible assumption
    | dsimp only
    | with_reducible apply Keeps.put
    | with_reducible apply State.setMassif_keeps
    | with_reducible apply seqHalt_keeps
    | split
    | intro _ _ _
    | intro _ _
    | intro _
    | (simp only [keeps_mk]; first | refine KeepsParts.of ?_)

theorem seqNext_keeps {s₀ : State} {m : Nat} {v : Dword} {s : State}
    (hk : Keeps s₀ s) : Keeps s₀ (seqNext m v s) := by
  unfold seqNext
  try dsimp only
  repeat' first
    | with_reducible assumption
    | dsimp only
    | with_reducible apply State.irq_keeps
    | with_reducible apply Keeps.put
    | with_reducible apply seqHalt_keeps
    | with_reducible apply seqLatch_keeps
    | with_reducible apply Keeps.when
    | split
    | intro _ _ _
    | intro _ _
    | intro _

theorem lastBeat_keeps {s₀ : State} {m : Nat} {b : BeatRec} {s : State}
    (hk : Keeps s₀ s) : Keeps s₀ (lastBeat m b s) := by
  unfold lastBeat
  try dsimp only
  repeat' first
    | with_reducible assumption
    | dsimp only
    | with_reducible apply Keeps.put
    | split
    | intro _ _ _
    | intro _ _
    | intro _

theorem seqHeld_keeps {s₀ : State} {m : Nat} {s : State}
    (hk : Keeps s₀ s) : Keeps s₀ (seqHeld m s) := by
  unfold seqHeld
  try dsimp only
  repeat' first
    | with_reducible assumption
    | dsimp only
    | with_reducible apply Keeps.put
    | with_reducible apply State.setMassif_keeps
    | with_reducible apply lastBeat_keeps
    | with_reducible apply seqHalt_keeps
    | with_reducible apply seqNext_keeps
    | with_reducible apply seqSwitch_keeps
    | with_reducible apply Keeps.when
    | split
    | intro _ _ _
    | intro _ _
    | intro _
    | (simp only [keeps_mk]; first | refine KeepsParts.of ?_)

theorem seqAdvance_keeps {s₀ : State} {m : Nat} {v : Dword} {s : State}
    (hk : Keeps s₀ s) : Keeps s₀ (seqAdvance m v s) := by
  unfold seqAdvance
  try dsimp only
  repeat' first
    | with_reducible assumption
    | dsimp only
    | with_reducible apply seqHalt_keeps
    | with_reducible apply seqNext_keeps
    | split
    | intro _ _ _
    | intro _ _
    | intro _

theorem seqTrigger_keeps {s₀ : State} {m : Nat} {s : State}
    (hk : Keeps s₀ s) : Keeps s₀ (seqTrigger m s) := by
  unfold seqTrigger
  try dsimp only
  repeat' first
    | with_reducible assumption
    | dsimp only
    | with_reducible apply seqAdvance_keeps
    | with_reducible apply seqSwitch_keeps
    | split
    | intro _ _ _
    | intro _ _
    | intro _

theorem beatHold_keeps {s₀ : State} {m : Nat} {b : BeatRec} {s : State}
    (hk : Keeps s₀ s) : Keeps s₀ (beatHold m b s) := by
  unfold beatHold
  try dsimp only
  repeat' first
    | with_reducible assumption
    | dsimp only
    | with_reducible apply State.count_keeps
    | with_reducible apply Keeps.put
    | with_reducible apply State.setMassif_keeps
    | split
    | intro _ _ _
    | intro _ _
    | intro _
    | (simp only [keeps_mk]; first | refine KeepsParts.of ?_)

theorem beatAct_keeps {s₀ : State} {m : Nat} {b : BeatRec} {s : State}
    (hk : Keeps s₀ s) : Keeps s₀ (beatAct m b s) := by
  unfold beatAct
  try dsimp only
  repeat' first
    | with_reducible assumption
    | dsimp only
    | with_reducible apply beatHold_keeps
    | with_reducible apply lastBeat_keeps
    | with_reducible apply seqTrigger_keeps
    | split
    | intro _ _ _
    | intro _ _
    | intro _

theorem countTrigger_keeps {s₀ : State} {m : Nat} {s : State}
    (hk : Keeps s₀ s) : Keeps s₀ (countTrigger m s) := by
  unfold countTrigger
  try dsimp only
  repeat' first
    | with_reducible assumption
    | dsimp only
    | with_reducible apply seqTrigger_keeps
    | with_reducible apply Keeps.when
    | split
    | intro _ _ _
    | intro _ _
    | intro _

theorem queueTrigger_keeps {s₀ : State} {m : Nat} {s : State}
    (hk : Keeps s₀ s) : Keeps s₀ (queueTrigger m s) := by
  unfold queueTrigger
  try dsimp only
  repeat' first
    | with_reducible assumption
    | dsimp only
    | with_reducible apply seqTrigger_keeps
    | with_reducible apply Keeps.when
    | split
    | intro _ _ _
    | intro _ _
    | intro _

theorem flagTrigger_keeps {s₀ : State} {m : Nat} {s : State}
    (hk : Keeps s₀ s) : Keeps s₀ (flagTrigger m s) := by
  unfold flagTrigger
  try dsimp only
  repeat' first
    | with_reducible assumption
    | dsimp only
    | with_reducible apply controlPoison_keeps
    | with_reducible apply seqTrigger_keeps
    | with_reducible apply Keeps.when
    | with_reducible apply OptKeeps.getD
    | split
    | intro _ _ _
    | intro _ _
    | intro _

theorem seqGo_keeps {s₀ : State} {m : Nat} {s : State}
    (hk : Keeps s₀ s) : Keeps s₀ (seqGo m s) := by
  unfold seqGo
  try dsimp only
  repeat' first
    | with_reducible assumption
    | dsimp only
    | with_reducible apply Keeps.put
    | with_reducible apply seqTrigger_keeps
    | split
    | intro _ _ _
    | intro _ _
    | intro _

theorem seqForce_keeps {s₀ : State} {m slot : Nat} {clean : Bool} {s : State}
    (hk : Keeps s₀ s) : Keeps s₀ (seqForce m slot clean s) := by
  unfold seqForce
  try dsimp only
  repeat' first
    | with_reducible assumption
    | dsimp only
    | with_reducible apply Keeps.put
    | with_reducible apply State.setMassif_keeps
    | split
    | intro _ _ _
    | intro _ _
    | intro _
    | (simp only [keeps_mk]; first | refine KeepsParts.of ?_)

theorem seqCmdWrite_keeps {s₀ : State} {m : Nat} {v : Word} {s : State}
    (hk : Keeps s₀ s) : Keeps s₀ (seqCmdWrite m v s) := by
  unfold seqCmdWrite
  try dsimp only
  repeat' first
    | with_reducible assumption
    | dsimp only
    | with_reducible apply seqForce_keeps
    | with_reducible apply seqGo_keeps
    | with_reducible apply Keeps.when
    | split
    | intro _ _ _
    | intro _ _
    | intro _

theorem seqStart_keeps {s₀ : State} {m : Nat} {s : State}
    (hk : Keeps s₀ s) : Keeps s₀ (seqStart m s) := by
  unfold seqStart
  try dsimp only
  repeat' first
    | with_reducible assumption
    | dsimp only
    | with_reducible apply Keeps.put
    | with_reducible apply State.setMassif_keeps
    | with_reducible apply seqLatch_keeps
    | split
    | intro _ _ _
    | intro _ _
    | intro _
    | (simp only [keeps_mk]; first | refine KeepsParts.of ?_)

theorem seqCtlWrite_keeps {s₀ : State} {m : Nat} {v : Word} {s : State}
    (hk : Keeps s₀ s) : Keeps s₀ (seqCtlWrite m v s) := by
  unfold seqCtlWrite
  try dsimp only
  repeat' first
    | with_reducible assumption
    | dsimp only
    | with_reducible apply State.loadAll_keeps
    | with_reducible apply Keeps.put
    | with_reducible apply State.setMassif_keeps
    | with_reducible apply seqHalt_keeps
    | with_reducible apply seqStart_keeps
    | split
    | intro _ _ _
    | intro _ _
    | intro _
    | (simp only [keeps_mk]; first | refine KeepsParts.of ?_)

theorem cleanHold_keeps {s₀ : State} {m : Nat} {s : State}
    (hk : Keeps s₀ s) : Keeps s₀ (cleanHold m s) := by
  unfold cleanHold
  try dsimp only
  repeat' first
    | with_reducible assumption
    | dsimp only
    | with_reducible apply State.setMassif_keeps
    | split
    | intro _ _ _
    | intro _ _
    | intro _
    | (simp only [keeps_mk]; first | refine KeepsParts.of ?_)

theorem boundaryTimeout_keeps {s₀ : State} {m : Nat} {s : State}
    (hk : Keeps s₀ s) : Keeps s₀ (boundaryTimeout m s) := by
  unfold boundaryTimeout
  try dsimp only
  repeat' first
    | with_reducible assumption
    | dsimp only
    | with_reducible apply Keeps.put
    | with_reducible apply State.setMassif_keeps
    | split
    | intro _ _ _
    | intro _ _
    | intro _
    | (simp only [keeps_mk]; first | refine KeepsParts.of ?_)

theorem completeAtEdge_keeps {s₀ : State} {m t : Nat} {s : State}
    (hk : Keeps s₀ s) : Keeps s₀ (completeAtEdge m t s) := by
  unfold completeAtEdge
  try dsimp only
  repeat' first
    | with_reducible assumption
    | dsimp only
    | with_reducible refine complete_keeps (by assumption) ?_
    | with_reducible apply complete_keeps_snd
    | split
    | intro _ _ _
    | intro _ _
    | intro _
    | (simp only [keeps_mk]; first | refine KeepsParts.of ?_)

theorem tileFlush_keeps {s₀ : State} {m t : Nat} {s : State}
    (hk : Keeps s₀ s) : Keeps s₀ (tileFlush m t s) := by
  unfold tileFlush
  try dsimp only
  repeat' first
    | with_reducible assumption
    | dsimp only
    | with_reducible apply State.setTile_keeps
    | split
    | intro _ _ _
    | intro _ _
    | intro _
    | (simp only [keeps_mk]; first | refine KeepsParts.of ?_)

theorem segsFlush_keeps {s₀ : State} {m : Nat} {s : State}
    (hk : Keeps s₀ s) : Keeps s₀ (segsFlush m s) := by
  unfold segsFlush
  try dsimp only
  repeat' first
    | with_reducible assumption
    | dsimp only
    | split
    | intro _ _ _
    | intro _ _
    | intro _
    | (simp only [keeps_mk]; first | refine KeepsParts.of ?_)

theorem inputsFresh_keeps {s₀ : State} {m : Nat} {s : State}
    (hk : Keeps s₀ s) : Keeps s₀ (inputsFresh m s) := by
  unfold inputsFresh
  try dsimp only
  repeat' first
    | with_reducible assumption
    | dsimp only
    | split
    | intro _ _ _
    | intro _ _
    | intro _
    | (simp only [keeps_mk]; first | refine KeepsParts.of ?_)

theorem switchEdge_keeps {s₀ : State} {m : Nat} {last : List Nat} {s : State}
    (hk : Keeps s₀ s) : Keeps s₀ (switchEdge m last s) := by
  unfold switchEdge
  try dsimp only
  repeat' first
    | with_reducible assumption
    | dsimp only
    | with_reducible apply State.count_keeps
    | with_reducible apply Keeps.put
    | with_reducible apply State.setMassif_keeps
    | with_reducible apply bmRefresh_keeps
    | with_reducible apply completeAtEdge_keeps
    | with_reducible apply conflictRefresh_keeps
    | with_reducible apply inputsFresh_keeps
    | with_reducible apply segsFlush_keeps
    | with_reducible apply seqAdvance_keeps
    | with_reducible apply seqHalt_keeps
    | with_reducible apply tileFlush_keeps
    | with_reducible apply Keeps.when
    | with_reducible apply Keeps.each
    | with_reducible apply Keeps.foldl
    | with_reducible apply Keeps.foldl_snd
    | split
    | intro _ _ _
    | intro _ _
    | intro _
    | (simp only [keeps_mk]; first | refine KeepsParts.of ?_)

theorem beatWake_keeps {s₀ : State} {m : Nat} {b : BeatRec} {s : State}
    (hk : Keeps s₀ s) : Keeps s₀ (beatWake m b s) := by
  unfold beatWake
  try dsimp only
  repeat' first
    | with_reducible assumption
    | dsimp only
    | with_reducible apply State.setMassif_keeps
    | with_reducible apply wakeStart_keeps
    | split
    | intro _ _ _
    | intro _ _
    | intro _
    | (simp only [keeps_mk]; first | refine KeepsParts.of ?_)

end Sys2Proof.Machine
end

