-- ==== Sys2Proof/Laws/KeepsPosition.lean ====
section
/-! SUPPORT. What the operations of Machine/Position.lean keep (Laws/Keeps.lean). -/

namespace Sys2Proof.Machine

open Sys2Proof

theorem State.setEnc_keeps {s₀ : State} {s : State} {n : Nat} {e : EncCh}
    (hk : Keeps s₀ s) : Keeps s₀ (State.setEnc s n e) := by
  unfold State.setEnc
  try dsimp only
  repeat' first
    | with_reducible assumption
    | dsimp only
    | split
    | intro _ _ _
    | intro _ _
    | intro _
    | (simp only [keeps_mk]; first | refine KeepsParts.of ?_)

theorem State.setBc_keeps {s₀ : State} {s : State} {c : Nat} {b : BeatCh}
    (hk : Keeps s₀ s) : Keeps s₀ (State.setBc s c b) := by
  unfold State.setBc
  try dsimp only
  repeat' first
    | with_reducible assumption
    | dsimp only
    | split
    | intro _ _ _
    | intro _ _
    | intro _
    | (simp only [keeps_mk]; first | refine KeepsParts.of ?_)

theorem State.setBo_keeps {s₀ : State} {s : State} {o : Nat} {b : BeatOut}
    (hk : Keeps s₀ s) : Keeps s₀ (State.setBo s o b) := by
  unfold State.setBo
  try dsimp only
  repeat' first
    | with_reducible assumption
    | dsimp only
    | split
    | intro _ _ _
    | intro _ _
    | intro _
    | (simp only [keeps_mk]; first | refine KeepsParts.of ?_)

theorem State.setEncPos_keeps {s₀ : State} {s : State} {n : Nat} {p : Pos48}
    (hk : Keeps s₀ s) : Keeps s₀ (State.setEncPos s n p) := by
  unfold State.setEncPos
  try dsimp only
  repeat' first
    | with_reducible assumption
    | dsimp only
    | with_reducible apply State.put2_keeps
    | split
    | intro _ _ _
    | intro _ _
    | intro _

theorem boFire_keeps {s₀ : State} {o due8 : Nat} {s : State}
    (hk : Keeps s₀ s) : Keeps s₀ (boFire o due8 s) := by
  unfold boFire
  try dsimp only
  repeat' first
    | with_reducible assumption
    | dsimp only
    | with_reducible apply State.count_keeps
    | with_reducible apply State.irq_keeps
    | with_reducible apply Keeps.put
    | with_reducible apply State.setBo_keeps
    | with_reducible apply Keeps.when
    | split
    | intro _ _ _
    | intro _ _
    | intro _
    | (simp only [keeps_mk]; first | refine KeepsParts.of ?_)

theorem boEdge_keeps {s₀ : State} {o : Nat} {s : State}
    (hk : Keeps s₀ s) : Keeps s₀ (boEdge o s) := by
  unfold boEdge
  try dsimp only
  repeat' first
    | with_reducible assumption
    | dsimp only
    | with_reducible apply Keeps.put
    | with_reducible apply State.setBo_keeps
    | with_reducible apply Keeps.when
    | split
    | intro _ _ _
    | intro _ _
    | intro _
    | (simp only [keeps_mk]; first | refine KeepsParts.of ?_)

theorem boPulseEnd_keeps {s₀ : State} {o : Nat} {s : State}
    (hk : Keeps s₀ s) : Keeps s₀ (boPulseEnd o s) := by
  unfold boPulseEnd
  try dsimp only
  repeat' first
    | with_reducible assumption
    | dsimp only
    | with_reducible apply State.setBo_keeps
    | split
    | intro _ _ _
    | intro _ _
    | intro _
    | (simp only [keeps_mk]; first | refine KeepsParts.of ?_)

theorem boCtlWrite_keeps {s₀ : State} {o : Nat} {v : Word} {s : State}
    (hk : Keeps s₀ s) : Keeps s₀ (boCtlWrite o v s) := by
  unfold boCtlWrite
  try dsimp only
  repeat' first
    | with_reducible assumption
    | dsimp only
    | with_reducible apply State.loadAll_keeps
    | with_reducible apply State.setBo_keeps
    | split
    | intro _ _ _
    | intro _ _
    | intro _

theorem State.setTport_keeps {s₀ : State} {s : State} {p : Nat} {t : TempoPort}
    (hk : Keeps s₀ s) : Keeps s₀ (State.setTport s p t) := by
  unfold State.setTport
  try dsimp only
  repeat' first
    | with_reducible assumption
    | dsimp only
    | split
    | intro _ _ _
    | intro _ _
    | intro _
    | (simp only [keeps_mk]; first | refine KeepsParts.of ?_)

theorem tempoPump_keeps {s₀ : State} {p : Nat} {s : State}
    (hk : Keeps s₀ s) : Keeps s₀ (tempoPump p s) := by
  unfold tempoPump
  try dsimp only
  repeat' first
    | with_reducible assumption
    | dsimp only
    | with_reducible apply Keeps.emit
    | with_reducible apply State.setTport_keeps
    | split
    | intro _ _ _
    | intro _ _
    | intro _
    | (simp only [keeps_mk]; first | refine KeepsParts.of ?_)

theorem tempoCycle_keeps {s₀ : State} {p : Nat} {s : State}
    (hk : Keeps s₀ s) : Keeps s₀ (tempoCycle p s) := by
  unfold tempoCycle
  try dsimp only
  repeat' first
    | with_reducible assumption
    | dsimp only
    | with_reducible apply State.setTport_keeps
    | with_reducible apply tempoPump_keeps
    | with_reducible apply Keeps.when
    | split
    | intro _ _ _
    | intro _ _
    | intro _
    | (simp only [keeps_mk]; first | refine KeepsParts.of ?_)

theorem tempoSend_keeps {s₀ : State} {p : Nat} {f : TempoFrame} {s : State}
    (hk : Keeps s₀ s) : Keeps s₀ (tempoSend p f s) := by
  unfold tempoSend
  try dsimp only
  repeat' first
    | with_reducible assumption
    | dsimp only
    | with_reducible apply State.setTport_keeps
    | with_reducible apply tempoPump_keeps
    | with_reducible apply Keeps.when
    | split
    | intro _ _ _
    | intro _ _
    | intro _
    | (simp only [keeps_mk]; first | refine KeepsParts.of ?_)

theorem flood_keeps {s₀ : State} {f : TempoFrame} {except : Option Nat} {s : State}
    (hk : Keeps s₀ s) : Keeps s₀ (flood f except s) := by
  unfold flood
  try dsimp only
  repeat' first
    | with_reducible assumption
    | dsimp only
    | with_reducible apply tempoSend_keeps
    | with_reducible apply Keeps.when
    | with_reducible apply Keeps.each
    | split
    | intro _ _ _
    | intro _ _
    | intro _

theorem cxpTrigger_keeps {s₀ : State} {g j due8 : Nat} {s : State}
    (hk : Keeps s₀ s) : Keeps s₀ (cxpTrigger g j due8 s) := by
  unfold cxpTrigger
  try dsimp only
  repeat' first
    | with_reducible assumption
    | dsimp only
    | with_reducible apply State.count_keeps
    | with_reducible apply State.irq_keeps
    | split
    | intro _ _ _
    | intro _ _
    | intro _
    | (simp only [keeps_mk]; first | refine KeepsParts.of ?_)

theorem emitBeat_keeps {s₀ : State} {c : Nat} {h : HeldBeat} {counted : Bool} {s : State}
    (hk : Keeps s₀ s) : Keeps s₀ (emitBeat c h counted s) := by
  unfold emitBeat
  try dsimp only
  repeat' first
    | with_reducible assumption
    | dsimp only
    | with_reducible apply Keeps.put
    | with_reducible apply State.setBc_keeps
    | with_reducible apply boFire_keeps
    | with_reducible apply cxpTrigger_keeps
    | with_reducible apply Keeps.when
    | with_reducible apply Keeps.each
    | split
    | intro _ _ _
    | intro _ _
    | intro _
    | (simp only [keeps_mk]; first | refine KeepsParts.of ?_)

theorem dueBeat_keeps {s₀ : State} {emit : Nat → HeldBeat → Bool → State → State} {c : Nat} {h : HeldBeat} {s : State} (hemit : ∀ a0 a1 a2 t, Keeps s₀ t → Keeps s₀ (emit a0 a1 a2 t))
    (hk : Keeps s₀ s) : Keeps s₀ (dueBeat emit c h s) := by
  unfold dueBeat
  try dsimp only
  repeat' first
    | with_reducible assumption
    | with_reducible apply hemit
    | dsimp only
    | with_reducible apply State.setBc_keeps
    | split
    | intro _ _ _
    | intro _ _
    | intro _
    | (simp only [keeps_mk]; first | refine KeepsParts.of ?_)

theorem setSched_keeps {s₀ : State} {c : Nat} {l : List SchedEnt} {s : State}
    (hk : Keeps s₀ s) : Keeps s₀ (setSched c l s) := by
  unfold setSched
  try dsimp only
  repeat' first
    | with_reducible assumption
    | dsimp only
    | with_reducible apply Keeps.put
    | with_reducible apply State.putB_keeps
    | with_reducible apply State.setBc_keeps
    | split
    | intro _ _ _
    | intro _ _
    | intro _
    | (simp only [keeps_mk]; first | refine KeepsParts.of ?_)

theorem setLate_keeps {s₀ : State} {c : Nat} {s : State}
    (hk : Keeps s₀ s) : Keeps s₀ (setLate c s) := by
  unfold setLate
  try dsimp only
  repeat' first
    | with_reducible assumption
    | dsimp only
    | with_reducible apply State.setIrq_keeps
    | split
    | intro _ _ _
    | intro _ _
    | intro _

theorem schedFire_keeps {s₀ : State} {c : Nat} {s : State}
    (hk : Keeps s₀ s) : Keeps s₀ (schedFire c s) := by
  unfold schedFire
  try dsimp only
  repeat' first
    | with_reducible assumption
    | dsimp only
    | with_reducible refine Keeps.nextFree (by assumption) ?_
    | with_reducible apply Keeps.nextFree_snd
    | with_reducible apply Keeps.nextFree_snd
    | with_reducible apply State.setBc_keeps
    | with_reducible apply dueBeat_keeps
    | with_reducible apply emitBeat_keeps
    | with_reducible apply setLate_keeps
    | with_reducible apply setSched_keeps
    | with_reducible apply Keeps.when
    | split
    | intro _ _ _
    | intro _ _
    | intro _
    | (simp only [keeps_mk]; first | refine KeepsParts.of ?_)

theorem schedPush_keeps {s₀ : State} {c : Nat} {byTime : Bool} {value : Dword} {act tfrac : Nat} {s : State}
    (hk : Keeps s₀ s) : Keeps s₀ (schedPush c byTime value act tfrac s) := by
  unfold schedPush
  try dsimp only
  repeat' first
    | with_reducible assumption
    | dsimp only
    | with_reducible apply State.setIrq_keeps
    | with_reducible apply schedFire_keeps
    | with_reducible apply setSched_keeps
    | with_reducible apply Keeps.when
    | split
    | intro _ _ _
    | intro _ _
    | intro _

theorem markDue_keeps {s₀ : State} {n : Nat} {counted : Bool} {s : State}
    (hk : Keeps s₀ s) : Keeps s₀ (markDue n counted s) := by
  unfold markDue
  try dsimp only
  repeat' first
    | with_reducible assumption
    | dsimp only
    | with_reducible apply State.setBc_keeps
    | with_reducible apply Keeps.each
    | split
    | intro _ _ _
    | intro _ _
    | intro _
    | (simp only [keeps_mk]; first | refine KeepsParts.of ?_)

theorem mapBeat_keeps {s₀ : State} {origin ch act tfrac seq time : Nat} {s : State}
    (hk : Keeps s₀ s) : Keeps s₀ (mapBeat origin ch act tfrac seq time s) := by
  unfold mapBeat
  try dsimp only
  repeat' first
    | with_reducible assumption
    | dsimp only
    | with_reducible apply State.setIrq_keeps
    | with_reducible apply schedPush_keeps
    | with_reducible apply Keeps.when
    | with_reducible apply Keeps.each
    | split
    | intro _ _ _
    | intro _ _
    | intro _
    | (simp only [keeps_mk]; first | refine KeepsParts.of ?_)

theorem emitAndPublish_keeps {s₀ : State} {c : Nat} {h : HeldBeat} {counted : Bool} {s : State}
    (hk : Keeps s₀ s) : Keeps s₀ (emitAndPublish c h counted s) := by
  unfold emitAndPublish
  try dsimp only
  repeat' first
    | with_reducible assumption
    | dsimp only
    | with_reducible apply emitBeat_keeps
    | with_reducible apply flood_keeps
    | with_reducible apply mapBeat_keeps
    | with_reducible apply Keeps.when
    | dsimp only [id]
    | split
    | intro _ _ _
    | intro _ _
    | intro _

theorem beatDue_keeps {s₀ : State} {c : Nat} {h : HeldBeat} {s : State}
    (hk : Keeps s₀ s) : Keeps s₀ (beatDue c h s) := by
  unfold beatDue
  try dsimp only
  repeat' first
    | with_reducible assumption
    | dsimp only
    | with_reducible apply dueBeat_keeps
    | with_reducible apply emitAndPublish_keeps
    | split
    | intro _ _ _
    | intro _ _
    | intro _

theorem bcDone_keeps {s₀ : State} {c : Nat} {s : State}
    (hk : Keeps s₀ s) : Keeps s₀ (bcDone c s) := by
  unfold bcDone
  try dsimp only
  repeat' first
    | with_reducible assumption
    | dsimp only
    | with_reducible apply Keeps.put
    | with_reducible apply State.setIrq_keeps
    | split
    | intro _ _ _
    | intro _ _
    | intro _

theorem lineAdvance_keeps {s₀ : State} {c : Nat} {s : State}
    (hk : Keeps s₀ s) : Keeps s₀ (lineAdvance c s) := by
  unfold lineAdvance
  try dsimp only
  repeat' first
    | with_reducible assumption
    | dsimp only
    | with_reducible apply Keeps.put
    | with_reducible apply State.setBc_keeps
    | split
    | intro _ _ _
    | intro _ _
    | intro _
    | (simp only [keeps_mk]; first | refine KeepsParts.of ?_)

theorem lineBeat_keeps {s₀ : State} {c due8 : Nat} {s : State}
    (hk : Keeps s₀ s) : Keeps s₀ (lineBeat c due8 s) := by
  unfold lineBeat
  try dsimp only
  repeat' first
    | with_reducible assumption
    | dsimp only
    | with_reducible apply beatDue_keeps
    | with_reducible apply lineAdvance_keeps
    | split
    | intro _ _ _
    | intro _ _
    | intro _

theorem catchUp_keeps {s₀ : State} {c : Nat} {p : Pos48} {x0 : Nat} {s : State}
    (hk : Keeps s₀ s) : Keeps s₀ (catchUp c p x0 s) := by
  induction x0 generalizing c p s with
  | zero =>
    simp only [catchUp]
    repeat' first
      | with_reducible assumption
      | with_reducible apply ih
      | dsimp only
      | with_reducible apply lineBeat_keeps
      | split
      | intro _ _ _
      | intro _ _
      | intro _
  | succ n ih =>
    simp only [catchUp]
    repeat' first
      | with_reducible assumption
      | with_reducible apply ih
      | dsimp only
      | with_reducible apply lineBeat_keeps
      | split
      | intro _ _ _
      | intro _ _
      | intro _

theorem lineTransition_keeps {s₀ : State} {c : Nat} {fwd : Bool} {s : State}
    (hk : Keeps s₀ s) : Keeps s₀ (lineTransition c fwd s) := by
  unfold lineTransition
  try dsimp only
  repeat' first
    | with_reducible assumption
    | dsimp only
    | with_reducible apply Keeps.put
    | with_reducible apply State.setBc_keeps
    | with_reducible apply catchUp_keeps
    | split
    | intro _ _ _
    | intro _ _
    | intro _
    | (simp only [keeps_mk]; first | refine KeepsParts.of ?_)

theorem countLate_keeps {s₀ : State} {c : Nat} {s : State}
    (hk : Keeps s₀ s) : Keeps s₀ (countLate c s) := by
  unfold countLate
  try dsimp only
  repeat' first
    | with_reducible assumption
    | dsimp only
    | with_reducible apply State.count_keeps
    | with_reducible apply setLate_keeps
    | split
    | intro _ _ _
    | intro _ _
    | intro _

theorem pendedBeat_keeps {s₀ : State} {c : Nat} {s : State}
    (hk : Keeps s₀ s) : Keeps s₀ (pendedBeat c s) := by
  unfold pendedBeat
  try dsimp only
  repeat' first
    | with_reducible assumption
    | dsimp only
    | with_reducible apply State.setBc_keeps
    | with_reducible apply countLate_keeps
    | with_reducible apply emitAndPublish_keeps
    | with_reducible apply lineAdvance_keeps
    | with_reducible apply Keeps.when
    | split
    | intro _ _ _
    | intro _ _
    | intro _
    | (simp only [keeps_mk]; first | refine KeepsParts.of ?_)

theorem lateEmit_keeps {s₀ : State} {c : Nat} {s : State}
    (hk : Keeps s₀ s) : Keeps s₀ (lateEmit c s) := by
  unfold lateEmit
  try dsimp only
  repeat' first
    | with_reducible assumption
    | dsimp only
    | with_reducible apply State.setBc_keeps
    | with_reducible apply bcDone_keeps
    | with_reducible apply countLate_keeps
    | with_reducible apply emitAndPublish_keeps
    | with_reducible apply emitBeat_keeps
    | with_reducible apply pendedBeat_keeps
    | with_reducible apply Keeps.when
    | split
    | intro _ _ _
    | intro _ _
    | intro _
    | (simp only [keeps_mk]; first | refine KeepsParts.of ?_)

theorem compareTransition_keeps {s₀ : State} {c : Nat} {fwd : Bool} {s : State}
    (hk : Keeps s₀ s) : Keeps s₀ (compareTransition c fwd s) := by
  unfold compareTransition
  try dsimp only
  repeat' first
    | with_reducible assumption
    | dsimp only
    | with_reducible apply State.setBc_keeps
    | with_reducible apply bcDone_keeps
    | with_reducible apply beatDue_keeps
    | with_reducible apply Keeps.when
    | split
    | intro _ _ _
    | intro _ _
    | intro _
    | (simp only [keeps_mk]; first | refine KeepsParts.of ?_)

theorem timeBeat_keeps {s₀ : State} {c : Nat} {s : State}
    (hk : Keeps s₀ s) : Keeps s₀ (timeBeat c s) := by
  unfold timeBeat
  try dsimp only
  repeat' first
    | with_reducible assumption
    | dsimp only
    | with_reducible apply State.setBc_keeps
    | with_reducible apply bcDone_keeps
    | with_reducible apply beatDue_keeps
    | with_reducible apply setLate_keeps
    | with_reducible apply Keeps.when
    | split
    | intro _ _ _
    | intro _ _
    | intro _
    | (simp only [keeps_mk]; first | refine KeepsParts.of ?_)

theorem channelsSee_keeps {s₀ : State} {n : Nat} {fwd : Bool} {s : State}
    (hk : Keeps s₀ s) : Keeps s₀ (channelsSee n fwd s) := by
  unfold channelsSee
  try dsimp only
  repeat' first
    | with_reducible assumption
    | dsimp only
    | with_reducible apply compareTransition_keeps
    | with_reducible apply lineTransition_keeps
    | with_reducible apply markDue_keeps
    | with_reducible apply Keeps.each
    | split
    | intro _ _ _
    | intro _ _
    | intro _
    | (simp only [keeps_mk]; first | refine KeepsParts.of ?_)

theorem encApply_keeps {s₀ : State} {n : Nat} {fwd : Bool} {s : State}
    (hk : Keeps s₀ s) : Keeps s₀ (encApply n fwd s) := by
  unfold encApply
  try dsimp only
  repeat' first
    | with_reducible assumption
    | dsimp only
    | with_reducible apply Keeps.put
    | with_reducible apply State.put2_keeps
    | with_reducible apply State.putB_keeps
    | with_reducible apply State.setEnc_keeps
    | with_reducible apply State.setEncPos_keeps
    | with_reducible apply State.setIrq_keeps
    | with_reducible apply channelsSee_keeps
    | with_reducible apply Keeps.when
    | split
    | intro _ _ _
    | intro _ _
    | intro _
    | (simp only [keeps_mk]; first | refine KeepsParts.of ?_)

theorem encCount_keeps {s₀ : State} {n : Nat} {fwd : Bool} {s : State}
    (hk : Keeps s₀ s) : Keeps s₀ (encCount n fwd s) := by
  unfold encCount
  try dsimp only
  repeat' first
    | with_reducible assumption
    | dsimp only
    | with_reducible apply State.setEnc_keeps
    | with_reducible apply encApply_keeps
    | split
    | intro _ _ _
    | intro _ _
    | intro _
    | (simp only [keeps_mk]; first | refine KeepsParts.of ?_)

theorem encSetPosition_keeps {s₀ : State} {n : Nat} {new : Pos48} {s : State}
    (hk : Keeps s₀ s) : Keeps s₀ (encSetPosition n new s) := by
  unfold encSetPosition
  try dsimp only
  repeat' first
    | with_reducible assumption
    | dsimp only
    | with_reducible apply State.setBc_keeps
    | with_reducible apply State.setEncPos_keeps
    | with_reducible apply markDue_keeps
    | with_reducible apply Keeps.when
    | with_reducible apply Keeps.each
    | split
    | intro _ _ _
    | intro _ _
    | intro _
    | (simp only [keeps_mk]; first | refine KeepsParts.of ?_)

theorem loadCounted_keeps {s₀ : State} {n : Nat} {s : State}
    (hk : Keeps s₀ s) : Keeps s₀ (loadCounted n s) := by
  unfold loadCounted
  try dsimp only
  repeat' first
    | with_reducible assumption
    | dsimp only
    | with_reducible apply State.setEnc_keeps
    | split
    | intro _ _ _
    | intro _ _
    | intro _
    | (simp only [keeps_mk]; first | refine KeepsParts.of ?_)

theorem encSoftLoad_keeps {s₀ : State} {n : Nat} {new : Pos48} {s : State}
    (hk : Keeps s₀ s) : Keeps s₀ (encSoftLoad n new s) := by
  unfold encSoftLoad
  try dsimp only
  repeat' first
    | with_reducible assumption
    | dsimp only
    | with_reducible apply State.setEnc_keeps
    | split
    | intro _ _ _
    | intro _ _
    | intro _
    | (simp only [keeps_mk]; first | refine KeepsParts.of ?_)

theorem encSettle_keeps {s₀ : State} {n : Nat} {after : State → State} {s : State} (hafter : ∀  t, Keeps s₀ t → Keeps s₀ (after  t))
    (hk : Keeps s₀ s) : Keeps s₀ (encSettle n after s) := by
  unfold encSettle
  try dsimp only
  repeat' first
    | with_reducible assumption
    | with_reducible apply hafter
    | dsimp only
    | with_reducible apply State.setEnc_keeps
    | with_reducible apply encApply_keeps
    | with_reducible apply Keeps.foldl
    | with_reducible apply Keeps.foldl_snd
    | split
    | intro _ _ _
    | intro _ _
    | intro _
    | (simp only [keeps_mk]; first | refine KeepsParts.of ?_)

theorem encEdge_keeps {s₀ : State} {n : Nat} {s : State}
    (hk : Keeps s₀ s) : Keeps s₀ (encEdge n s) := by
  unfold encEdge
  try dsimp only
  repeat' first
    | with_reducible assumption
    | dsimp only
    | with_reducible apply encSetPosition_keeps
    | with_reducible apply encSettle_keeps
    | with_reducible apply loadCounted_keeps
    | split
    | intro _ _ _
    | intro _ _
    | intro _
    | (simp only [keeps_mk]; first | refine KeepsParts.of ?_)

theorem encLoad_keeps {s₀ : State} {n : Nat} {s : State}
    (hk : Keeps s₀ s) : Keeps s₀ (encLoad n s) := by
  unfold encLoad
  try dsimp only
  repeat' first
    | with_reducible assumption
    | dsimp only
    | with_reducible apply encSoftLoad_keeps
    | split
    | intro _ _ _
    | intro _ _
    | intro _

theorem encPosWrite_keeps {s₀ : State} {n : Nat} {v : Word} {s : State}
    (hk : Keeps s₀ s) : Keeps s₀ (encPosWrite n v s) := by
  unfold encPosWrite
  try dsimp only
  repeat' first
    | with_reducible assumption
    | dsimp only
    | with_reducible apply encSoftLoad_keeps
    | split
    | intro _ _ _
    | intro _ _
    | intro _

theorem encCtlWrite_keeps {s₀ : State} {n : Nat} {v : Word} {s : State}
    (hk : Keeps s₀ s) : Keeps s₀ (encCtlWrite n v s) := by
  unfold encCtlWrite
  try dsimp only
  repeat' first
    | with_reducible assumption
    | dsimp only
    | with_reducible apply State.loadAll_keeps
    | with_reducible apply State.setEnc_keeps
    | with_reducible apply encLoad_keeps
    | with_reducible apply Keeps.when
    | split
    | intro _ _ _
    | intro _ _
    | intro _
    | (simp only [keeps_mk]; first | refine KeepsParts.of ?_)

theorem encoderTransition_keeps {s₀ : State} {n : Nat} {x y : InputSample} {s : State}
    (hk : Keeps s₀ s) : Keeps s₀ (encoderTransition n x y s) := by
  unfold encoderTransition
  try dsimp only
  repeat' first
    | with_reducible assumption
    | dsimp only
    | with_reducible apply State.count_keeps
    | with_reducible apply State.putB_keeps
    | with_reducible apply State.setIrq_keeps
    | with_reducible apply encCount_keeps
    | split
    | intro _ _ _
    | intro _ _
    | intro _
    | (simp only [keeps_mk]; first | refine KeepsParts.of ?_)

theorem zCopyOf_keeps {s₀ : State} {n : Nat} {load : Bool} {s : State}
    (hk : Keeps s₀ s) : Keeps s₀ (zCopyOf n load s) := by
  unfold zCopyOf
  try dsimp only
  repeat' first
    | with_reducible assumption
    | dsimp only
    | with_reducible apply State.put2_keeps
    | with_reducible apply State.setEnc_keeps
    | with_reducible apply zLoad_keeps
    | with_reducible apply OptKeeps.getD
    | split
    | intro _ _ _
    | intro _ _
    | intro _
    | (simp only [keeps_mk]; first | refine KeepsParts.of ?_)

theorem zLoad_keeps {s₀ : State} {n : Nat} {s : State}
    (hk : Keeps s₀ s) : Keeps s₀ (zLoad n s) := by
  unfold zLoad
  try dsimp only
  repeat' first
    | with_reducible assumption
    | dsimp only
    | with_reducible apply encSetPosition_keeps
    | with_reducible apply encSettle_keeps
    | with_reducible apply loadCounted_keeps
    | with_reducible apply zCopyOf_keeps
    | split
    | intro _ _ _
    | intro _ _
    | intro _

theorem zAction_keeps {s₀ : State} {n : Nat} {s : State}
    (hk : Keeps s₀ s) : Keeps s₀ (zAction n s) := by
  unfold zAction
  try dsimp only
  repeat' first
    | with_reducible assumption
    | dsimp only
    | with_reducible apply Keeps.put
    | with_reducible apply State.setEnc_keeps
    | with_reducible apply zCopyOf_keeps
    | with_reducible apply zLoad_keeps
    | split
    | intro _ _ _
    | intro _ _
    | intro _
    | (simp only [keeps_mk]; first | refine KeepsParts.of ?_)

theorem zEdge_keeps {s₀ : State} {n : Nat} {z : InputSample} {s : State}
    (hk : Keeps s₀ s) : Keeps s₀ (zEdge n z s) := by
  unfold zEdge
  try dsimp only
  repeat' first
    | with_reducible assumption
    | dsimp only
    | with_reducible apply State.putB_keeps
    | with_reducible apply State.setIrq_keeps
    | with_reducible apply zAction_keeps
    | with_reducible apply Keeps.when
    | split
    | intro _ _ _
    | intro _ _
    | intro _

theorem inputLevels_keeps {s₀ : State} {n : Nat} {a b z : InputSample} {s : State}
    (hk : Keeps s₀ s) : Keeps s₀ (inputLevels n a b z s) := by
  unfold inputLevels
  try dsimp only
  repeat' first
    | with_reducible assumption
    | dsimp only
    | with_reducible apply State.putB_keeps
    | split
    | intro _ _ _
    | intro _ _
    | intro _

theorem snapCapture_keeps {s₀ : State} {s : State}
    (hk : Keeps s₀ s) : Keeps s₀ (snapCapture s) := by
  unfold snapCapture
  try dsimp only
  repeat' first
    | with_reducible assumption
    | dsimp only
    | with_reducible apply State.put2_keeps
    | with_reducible apply Keeps.each
    | split
    | intro _ _ _
    | intro _ _
    | intro _

theorem bcEnable_keeps {s₀ : State} {c : Nat} {s : State}
    (hk : Keeps s₀ s) : Keeps s₀ (bcEnable c s) := by
  unfold bcEnable
  try dsimp only
  repeat' first
    | with_reducible assumption
    | dsimp only
    | with_reducible apply State.irq_keeps
    | with_reducible apply Keeps.put
    | with_reducible apply State.putB_keeps
    | with_reducible apply State.setBc_keeps
    | with_reducible apply setSched_keeps
    | with_reducible apply timeBeat_keeps
    | with_reducible apply Keeps.when
    | split
    | intro _ _ _
    | intro _ _
    | intro _

theorem cfgSettle_keeps {s₀ : State} {c : Nat} {s : State}
    (hk : Keeps s₀ s) : Keeps s₀ (cfgSettle c s) := by
  unfold cfgSettle
  try dsimp only
  repeat' first
    | with_reducible assumption
    | dsimp only
    | with_reducible apply Keeps.put
    | with_reducible apply Keeps.when
    | split
    | intro _ _ _
    | intro _ _
    | intro _

theorem bcCtlWrite_keeps {s₀ : State} {c : Nat} {v : Word} {s : State}
    (hk : Keeps s₀ s) : Keeps s₀ (bcCtlWrite c v s) := by
  unfold bcCtlWrite
  try dsimp only
  repeat' first
    | with_reducible assumption
    | dsimp only
    | with_reducible apply State.loadAll_keeps
    | with_reducible apply Keeps.put
    | with_reducible apply State.putB_keeps
    | with_reducible apply State.setBc_keeps
    | with_reducible apply bcEnable_keeps
    | with_reducible apply cfgSettle_keeps
    | split
    | intro _ _ _
    | intro _ _
    | intro _
    | (simp only [keeps_mk]; first | refine KeepsParts.of ?_)

theorem arg3Write_keeps {s₀ : State} {c : Nat} {v : Word} {s : State}
    (hk : Keeps s₀ s) : Keeps s₀ (arg3Write c v s) := by
  unfold arg3Write
  try dsimp only
  repeat' first
    | with_reducible assumption
    | dsimp only
    | with_reducible apply State.load_keeps
    | with_reducible apply flood_keeps
    | with_reducible apply schedPush_keeps
    | with_reducible apply Keeps.when
    | with_reducible apply Keeps.each
    | split
    | intro _ _ _
    | intro _ _
    | intro _

theorem treeEnter_keeps {s₀ : State} {s : State}
    (hk : Keeps s₀ s) : Keeps s₀ (treeEnter s) := by
  unfold treeEnter
  try dsimp only
  repeat' first
    | with_reducible assumption
    | dsimp only
    | with_reducible apply State.count_keeps
    | with_reducible apply Keeps.when
    | split
    | intro _ _ _
    | intro _ _
    | intro _
    | (simp only [keeps_mk]; first | refine KeepsParts.of ?_)

end Sys2Proof.Machine
end

