-- ==== Sys2Proof/Laws/KeepsTempo.lean ====
section
/-! SUPPORT. What the operations of Machine/Tempo.lean keep (Laws/Keeps.lean). -/

namespace Sys2Proof.Machine

open Sys2Proof

theorem State.setTpc_keeps {s₀ : State} {s : State} {c : Nat} {t : TpcState}
    (hk : Keeps s₀ s) : Keeps s₀ (State.setTpc s c t) := by
  unfold State.setTpc
  try dsimp only
  repeat' first
    | with_reducible assumption
    | dsimp only
    | split
    | intro _ _ _
    | intro _ _
    | intro _
    | (simp only [keeps_mk]; first | refine KeepsParts.of ?_)

theorem State.noteShift_keeps {s₀ : State} {n : Int} {s : State}
    (hk : Keeps s₀ s) : Keeps s₀ (State.noteShift n s) := by
  unfold State.noteShift
  try dsimp only
  repeat' first
    | with_reducible assumption
    | dsimp only
    | split
    | intro _ _ _
    | intro _ _
    | intro _
    | (simp only [keeps_mk]; first | refine KeepsParts.of ?_)

theorem State.noOffset_keeps {s₀ : State} {s : State}
    (hk : Keeps s₀ s) : Keeps s₀ (State.noOffset s) := by
  unfold State.noOffset
  try dsimp only
  repeat' first
    | with_reducible assumption
    | dsimp only
    | split
    | intro _ _ _
    | intro _ _
    | intro _
    | (simp only [keeps_mk]; first | refine KeepsParts.of ?_)

theorem State.setTmpState_keeps {s₀ : State} {s : State} {st : Nat}
    (hk : Keeps s₀ s) : Keeps s₀ (State.setTmpState s st) := by
  unfold State.setTmpState
  try dsimp only
  repeat' first
    | with_reducible assumption
    | dsimp only
    | with_reducible apply State.irq_keeps
    | with_reducible apply Keeps.put
    | with_reducible apply Keeps.when
    | split
    | intro _ _ _
    | intro _ _
    | intro _

theorem oneWayEnds_keeps {s₀ : State} {p : Nat} {s : State}
    (hk : Keeps s₀ s) : Keeps s₀ (oneWayEnds p s) := by
  unfold oneWayEnds
  try dsimp only
  repeat' first
    | with_reducible assumption
    | dsimp only
    | with_reducible apply Keeps.put
    | with_reducible apply State.setTport_keeps
    | with_reducible apply Keeps.when
    | split
    | intro _ _ _
    | intro _ _
    | intro _

theorem setRoles_keeps {s₀ : State} {joined : Bool} {s : State}
    (hk : Keeps s₀ s) : Keeps s₀ (setRoles joined s) := by
  unfold setRoles
  try dsimp only
  repeat' first
    | with_reducible assumption
    | dsimp only
    | with_reducible apply Keeps.put
    | with_reducible apply State.putB_keeps
    | with_reducible apply oneWayEnds_keeps
    | with_reducible apply Keeps.when
    | with_reducible apply Keeps.each
    | split
    | intro _ _ _
    | intro _ _
    | intro _

theorem joinUp_keeps {s₀ : State} {up depth root pri : Nat} {v1 : Bool} {s : State}
    (hk : Keeps s₀ s) : Keeps s₀ (joinUp up depth root pri v1 s) := by
  unfold joinUp
  try dsimp only
  repeat' first
    | with_reducible assumption
    | dsimp only
    | with_reducible apply State.irq_keeps
    | with_reducible apply Keeps.put
    | with_reducible apply State.putB_keeps
    | with_reducible apply State.setTmpState_keeps
    | with_reducible apply Keeps.when
    | split
    | intro _ _ _
    | intro _ _
    | intro _
    | (simp only [keeps_mk]; first | refine KeepsParts.of ?_)

theorem becomeRoot_keeps {s₀ : State} {s : State}
    (hk : Keeps s₀ s) : Keeps s₀ (becomeRoot s) := by
  unfold becomeRoot
  try dsimp only
  repeat' first
    | with_reducible assumption
    | dsimp only
    | with_reducible apply State.irq_keeps
    | with_reducible apply State.noOffset_keeps
    | with_reducible apply Keeps.put
    | with_reducible apply State.setTmpState_keeps
    | with_reducible apply Keeps.when
    | split
    | intro _ _ _
    | intro _ _
    | intro _

theorem becomeFree_keeps {s₀ : State} {tooDeep : Bool} {s : State}
    (hk : Keeps s₀ s) : Keeps s₀ (becomeFree tooDeep s) := by
  unfold becomeFree
  try dsimp only
  repeat' first
    | with_reducible assumption
    | dsimp only
    | with_reducible apply State.irq_keeps
    | with_reducible apply State.noOffset_keeps
    | with_reducible apply Keeps.put
    | with_reducible apply State.putB_keeps
    | with_reducible apply State.setTmpState_keeps
    | with_reducible apply Keeps.when
    | split
    | intro _ _ _
    | intro _ _
    | intro _

theorem elect_keeps {s₀ : State} {hold : Bool} {s : State}
    (hk : Keeps s₀ s) : Keeps s₀ (elect hold s) := by
  unfold elect
  try dsimp only
  repeat' first
    | with_reducible assumption
    | dsimp only
    | with_reducible refine Keeps.nextFree (by assumption) ?_
    | with_reducible apply Keeps.nextFree_snd
    | with_reducible apply Keeps.nextFree_snd
    | with_reducible apply Keeps.put
    | with_reducible apply State.setTmpState_keeps
    | with_reducible apply becomeFree_keeps
    | with_reducible apply becomeRoot_keeps
    | with_reducible apply joinUp_keeps
    | with_reducible apply setRoles_keeps
    | split
    | intro _ _ _
    | intro _ _
    | intro _
    | (simp only [keeps_mk]; first | refine KeepsParts.of ?_)

theorem announceSend_keeps {s₀ : State} {p : Nat} {s : State}
    (hk : Keeps s₀ s) : Keeps s₀ (announceSend p s) := by
  unfold announceSend
  try dsimp only
  repeat' first
    | with_reducible assumption
    | dsimp only
    | with_reducible apply tempoSend_keeps
    | split
    | intro _ _ _
    | intro _ _
    | intro _
    | (simp only [keeps_mk]; first | refine KeepsParts.of ?_)

theorem ownIdSeen_keeps {s₀ : State} {s : State}
    (hk : Keeps s₀ s) : Keeps s₀ (ownIdSeen s) := by
  unfold ownIdSeen
  try dsimp only
  repeat' first
    | with_reducible assumption
    | dsimp only
    | with_reducible apply State.setIrq_keeps
    | split
    | intro _ _ _
    | intro _ _
    | intro _
    | (simp only [keeps_mk]; first | refine KeepsParts.of ?_)

theorem announceRecv_keeps {s₀ : State} {p id rootId rootPri : Nat} {parent : Bool} {depth rootSeq lead : Nat} {s0 : State}
    (hk : Keeps s₀ s0) : Keeps s₀ (announceRecv p id rootId rootPri parent depth rootSeq lead s0) := by
  unfold announceRecv
  try dsimp only
  repeat' first
    | with_reducible assumption
    | dsimp only
    | with_reducible apply Keeps.put
    | with_reducible apply State.setTport_keeps
    | with_reducible apply elect_keeps
    | with_reducible apply ownIdSeen_keeps
    | with_reducible apply Keeps.when
    | dsimp only [id]
    | split
    | intro _ _ _
    | intro _ _
    | intro _
    | (simp only [keeps_mk]; first | refine KeepsParts.of ?_)

theorem correct_keeps {s₀ : State} {o : Int} {slewBack : Bool} {s : State}
    (hk : Keeps s₀ s) : Keeps s₀ (correct o slewBack s) := by
  unfold correct
  try dsimp only
  repeat' first
    | with_reducible assumption
    | dsimp only
    | with_reducible apply State.noteShift_keeps
    | with_reducible apply Keeps.put
    | with_reducible apply State.putB_keeps
    | with_reducible apply State.setIrq_keeps
    | split
    | intro _ _ _
    | intro _ _
    | intro _
    | (simp only [keeps_mk]; first | refine KeepsParts.of ?_)

theorem lockState_keeps {s₀ : State} {o : Int} {s : State}
    (hk : Keeps s₀ s) : Keeps s₀ (lockState o s) := by
  unfold lockState
  try dsimp only
  repeat' first
    | with_reducible assumption
    | dsimp only
    | with_reducible apply State.setTmpState_keeps
    | with_reducible apply setRoles_keeps
    | split
    | intro _ _ _
    | intro _ _
    | intro _
    | (simp only [keeps_mk]; first | refine KeepsParts.of ?_)

theorem syncRecv_keeps {s₀ : State} {p : Nat} {ts0 : Time70} {age : BitVec 16} {s : State}
    (hk : Keeps s₀ s) : Keeps s₀ (syncRecv p ts0 age s) := by
  unfold syncRecv
  try dsimp only
  repeat' first
    | with_reducible assumption
    | dsimp only
    | with_reducible apply Keeps.put
    | with_reducible apply correct_keeps
    | with_reducible apply lockState_keeps
    | split
    | intro _ _ _
    | intro _ _
    | intro _

theorem syncSend_keeps {s₀ : State} {p : Nat} {frac : BitVec 6} {s : State}
    (hk : Keeps s₀ s) : Keeps s₀ (syncSend p frac s) := by
  unfold syncSend
  try dsimp only
  repeat' first
    | with_reducible assumption
    | dsimp only
    | with_reducible apply State.setTport_keeps
    | with_reducible apply tempoSend_keeps
    | split
    | intro _ _ _
    | intro _ _
    | intro _
    | (simp only [keeps_mk]; first | refine KeepsParts.of ?_)

theorem dreqSend_keeps {s₀ : State} {p : Nat} {frac : BitVec 6} {s : State}
    (hk : Keeps s₀ s) : Keeps s₀ (dreqSend p frac s) := by
  unfold dreqSend
  try dsimp only
  repeat' first
    | with_reducible assumption
    | dsimp only
    | with_reducible apply State.setTport_keeps
    | with_reducible apply tempoSend_keeps
    | split
    | intro _ _ _
    | intro _ _
    | intro _
    | (simp only [keeps_mk]; first | refine KeepsParts.of ?_)

theorem dreqRecv_keeps {s₀ : State} {p seq : Nat} {age : BitVec 16} {frac : BitVec 6} {s : State}
    (hk : Keeps s₀ s) : Keeps s₀ (dreqRecv p seq age frac s) := by
  unfold dreqRecv
  try dsimp only
  repeat' first
    | with_reducible assumption
    | dsimp only
    | with_reducible apply tempoSend_keeps
    | with_reducible apply Keeps.when
    | split
    | intro _ _ _
    | intro _ _
    | intro _

theorem drespRecv_keeps {s₀ : State} {p seq : Nat} {t2 t3 : Time70} {age : BitVec 16} {s : State}
    (hk : Keeps s₀ s) : Keeps s₀ (drespRecv p seq t2 t3 age s) := by
  unfold drespRecv
  try dsimp only
  repeat' first
    | with_reducible assumption
    | dsimp only
    | with_reducible apply Keeps.put
    | with_reducible apply State.setTport_keeps
    | split
    | intro _ _ _
    | intro _ _
    | intro _
    | (simp only [keeps_mk]; first | refine KeepsParts.of ?_)

theorem ptpCorrect_keeps {s₀ : State} {s : State}
    (hk : Keeps s₀ s) : Keeps s₀ (ptpCorrect s) := by
  unfold ptpCorrect
  try dsimp only
  repeat' first
    | with_reducible assumption
    | dsimp only
    | with_reducible apply correct_keeps
    | split
    | intro _ _ _
    | intro _ _
    | intro _

theorem phaseSlew_keeps {s₀ : State} {s0 : State}
    (hk : Keeps s₀ s0) : Keeps s₀ (phaseSlew s0) := by
  unfold phaseSlew
  try dsimp only
  repeat' first
    | with_reducible assumption
    | dsimp only
    | with_reducible apply ptpCorrect_keeps
    | split
    | intro _ _ _
    | intro _ _
    | intro _
    | (simp only [keeps_mk]; first | refine KeepsParts.of ?_)

theorem takeEffect_keeps {s₀ : State} {c : Nat} {smp : Sample} {s : State}
    (hk : Keeps s₀ s) : Keeps s₀ (takeEffect c smp s) := by
  unfold takeEffect
  try dsimp only
  repeat' first
    | with_reducible assumption
    | dsimp only
    | with_reducible apply Keeps.put
    | with_reducible apply State.setTpc_keeps
    | with_reducible apply encSetPosition_keeps
    | with_reducible apply Keeps.when
    | with_reducible apply Keeps.each
    | split
    | intro _ _ _
    | intro _ _
    | intro _
    | (simp only [keeps_mk]; first | refine KeepsParts.of ?_)

theorem sampleArrive_keeps {s₀ : State} {c : Nat} {smp : Sample} {s : State}
    (hk : Keeps s₀ s) : Keeps s₀ (sampleArrive c smp s) := by
  unfold sampleArrive
  try dsimp only
  repeat' first
    | with_reducible assumption
    | dsimp only
    | with_reducible apply State.count_keeps
    | with_reducible apply State.setIrq_keeps
    | with_reducible apply State.setTpc_keeps
    | with_reducible apply takeEffect_keeps
    | with_reducible apply Keeps.when
    | split
    | intro _ _ _
    | intro _ _
    | intro _
    | (simp only [keeps_mk]; first | refine KeepsParts.of ?_)

theorem sampleEffect_keeps {s₀ : State} {c : Nat} {s : State}
    (hk : Keeps s₀ s) : Keeps s₀ (sampleEffect c s) := by
  unfold sampleEffect
  try dsimp only
  repeat' first
    | with_reducible assumption
    | dsimp only
    | with_reducible apply State.setTpc_keeps
    | with_reducible apply takeEffect_keeps
    | split
    | intro _ _ _
    | intro _ _
    | intro _
    | (simp only [keeps_mk]; first | refine KeepsParts.of ?_)

theorem posSend_keeps {s₀ : State} {c : Nat} {s : State}
    (hk : Keeps s₀ s) : Keeps s₀ (posSend c s) := by
  unfold posSend
  try dsimp only
  repeat' first
    | with_reducible assumption
    | dsimp only
    | with_reducible refine Keeps.nextFree (by assumption) ?_
    | with_reducible apply Keeps.nextFree_snd
    | with_reducible apply Keeps.nextFree_snd
    | with_reducible apply flood_keeps
    | with_reducible apply sampleArrive_keeps
    | dsimp only [id]
    | with_reducible apply OptKeeps.getD
    | split
    | intro _ _ _
    | intro _ _
    | intro _

theorem followerTransition_keeps {s₀ : State} {n : Nat} {s : State}
    (hk : Keeps s₀ s) : Keeps s₀ (followerTransition n s) := by
  unfold followerTransition
  try dsimp only
  repeat' first
    | with_reducible assumption
    | dsimp only
    | with_reducible apply encCount_keeps
    | split
    | intro _ _ _
    | intro _ _
    | intro _
    | (simp only [keeps_mk]; first | refine KeepsParts.of ?_)

theorem staleNow_keeps {s₀ : State} {n : Nat} {s : State}
    (hk : Keeps s₀ s) : Keeps s₀ (staleNow n s) := by
  unfold staleNow
  try dsimp only
  repeat' first
    | with_reducible assumption
    | dsimp only
    | with_reducible apply State.setIrq_keeps
    | with_reducible apply State.setTpc_keeps
    | split
    | intro _ _ _
    | intro _ _
    | intro _
    | (simp only [keeps_mk]; first | refine KeepsParts.of ?_)

theorem recvFlooded_keeps {s₀ : State} {p origin : Nat} {f : TempoFrame} {act : State → State} {s : State} (hact : ∀  t, Keeps s₀ t → Keeps s₀ (act  t))
    (hk : Keeps s₀ s) : Keeps s₀ (recvFlooded p origin f act s) := by
  unfold recvFlooded
  try dsimp only
  repeat' first
    | with_reducible assumption
    | with_reducible apply hact
    | dsimp only
    | with_reducible apply flood_keeps
    | split
    | intro _ _ _
    | intro _ _
    | intro _

theorem posRecv_keeps {s₀ : State} {p origin c loadSeq : Nat} {pn : Pos48} {tn : Nat} {vel : Word} {ts : Nat} {s : State}
    (hk : Keeps s₀ s) : Keeps s₀ (posRecv p origin c loadSeq pn tn vel ts s) := by
  unfold posRecv
  try dsimp only
  repeat' first
    | with_reducible assumption
    | dsimp only
    | with_reducible apply recvFlooded_keeps
    | with_reducible apply sampleArrive_keeps
    | split
    | intro _ _ _
    | intro _ _
    | intro _

theorem beatRecv_keeps {s₀ : State} {p origin ch act tfrac seq : Nat} {pos : Pos48} {time : Nat} {s : State}
    (hk : Keeps s₀ s) : Keeps s₀ (beatRecv p origin ch act tfrac seq pos time s) := by
  unfold beatRecv
  try dsimp only
  repeat' first
    | with_reducible assumption
    | dsimp only
    | with_reducible apply mapBeat_keeps
    | with_reducible apply recvFlooded_keeps
    | split
    | intro _ _ _
    | intro _ _
    | intro _

theorem schedRecv_keeps {s₀ : State} {p origin tsq : Nat} {byTime : Bool} {act : Nat} {value : Dword} {s : State}
    (hk : Keeps s₀ s) : Keeps s₀ (schedRecv p origin tsq byTime act value s) := by
  unfold schedRecv
  try dsimp only
  repeat' first
    | with_reducible assumption
    | dsimp only
    | with_reducible apply State.setIrq_keeps
    | with_reducible apply recvFlooded_keeps
    | with_reducible apply schedPush_keeps
    | split
    | intro _ _ _
    | intro _ _
    | intro _

theorem ctrlOther_keeps {s₀ : State} {p : Nat} {b : List Byte} {s : State}
    (hk : Keeps s₀ s) : Keeps s₀ (ctrlOther p b s) := by
  unfold ctrlOther
  try dsimp only
  repeat' first
    | with_reducible assumption
    | dsimp only
    | with_reducible apply recvFlooded_keeps
    | dsimp only [id]
    | split
    | intro _ _ _
    | intro _ _
    | intro _

theorem tempoDiscard_keeps {s₀ : State} {p : Nat} {noise : PortNoise} {s : State}
    (hk : Keeps s₀ s) : Keeps s₀ (tempoDiscard p noise s) := by
  unfold tempoDiscard
  try dsimp only
  repeat' first
    | with_reducible assumption
    | dsimp only
    | with_reducible apply State.count_keeps
    | with_reducible apply ctrlOther_keeps
    | split
    | intro _ _ _
    | intro _ _
    | intro _
    | (simp only [keeps_mk]; first | refine KeepsParts.of ?_)

theorem tempoLinkDown_keeps {s₀ : State} {p : Nat} {s : State}
    (hk : Keeps s₀ s) : Keeps s₀ (tempoLinkDown p s) := by
  unfold tempoLinkDown
  try dsimp only
  repeat' first
    | with_reducible assumption
    | dsimp only
    | with_reducible apply Keeps.put
    | with_reducible apply State.setIrq_keeps
    | with_reducible apply State.setTmpState_keeps
    | with_reducible apply State.setTport_keeps
    | with_reducible apply elect_keeps
    | split
    | intro _ _ _
    | intro _ _
    | intro _

theorem tempoLinkUp_keeps {s₀ : State} {p : Nat} {s : State}
    (hk : Keeps s₀ s) : Keeps s₀ (tempoLinkUp p s) := by
  unfold tempoLinkUp
  try dsimp only
  repeat' first
    | with_reducible assumption
    | dsimp only
    | with_reducible apply Keeps.put
    | with_reducible apply elect_keeps
    | split
    | intro _ _ _
    | intro _ _
    | intro _

theorem rootLost_keeps {s₀ : State} {s : State}
    (hk : Keeps s₀ s) : Keeps s₀ (rootLost s) := by
  unfold rootLost
  try dsimp only
  repeat' first
    | with_reducible assumption
    | dsimp only
    | with_reducible apply State.setTport_keeps
    | with_reducible apply elect_keeps
    | with_reducible apply Keeps.when
    | with_reducible apply Keeps.each
    | split
    | intro _ _ _
    | intro _ _
    | intro _
    | (simp only [keeps_mk]; first | refine KeepsParts.of ?_)

theorem tempoRefresh_keeps {s₀ : State} {s : State}
    (hk : Keeps s₀ s) : Keeps s₀ (tempoRefresh s) := by
  unfold tempoRefresh
  try dsimp only
  repeat' first
    | with_reducible assumption
    | dsimp only
    | with_reducible apply Keeps.put
    | with_reducible apply State.setTport_keeps
    | with_reducible apply elect_keeps
    | with_reducible apply Keeps.when
    | with_reducible apply Keeps.each
    | split
    | intro _ _ _
    | intro _ _
    | intro _
    | (simp only [keeps_mk]; first | refine KeepsParts.of ?_)

end Sys2Proof.Machine
end

