-- ==== Sys2Proof/Laws/KeepsCollector.lean ====
section
/-! SUPPORT. What the operations of Machine/Collector.lean keep (Laws/Keeps.lean). -/

namespace Sys2Proof.Machine

open Sys2Proof

theorem setCredits_keeps {s₀ : State} {m n : Nat} {s : State}
    (hk : Keeps s₀ s) : Keeps s₀ (setCredits m n s) := by
  unfold setCredits
  try dsimp only
  repeat' first
    | with_reducible assumption
    | dsimp only
    | split
    | intro _ _ _
    | intro _ _
    | intro _
    | (simp only [keeps_mk]; first | refine KeepsParts.of ?_)

theorem reportSend_keeps {s₀ : State} {m q : Nat} {bad : List Nat} {s : State}
    (hk : Keeps s₀ s) : Keeps s₀ (reportSend m q bad s) := by
  unfold reportSend
  try dsimp only
  repeat' first
    | with_reducible assumption
    | dsimp only
    | with_reducible refine Keeps.nextFree (by assumption) ?_
    | with_reducible apply Keeps.nextFree_snd
    | with_reducible apply Keeps.nextFree_snd
    | with_reducible apply State.setQueue_keeps
    | with_reducible apply niSend_keeps
    | with_reducible apply queueStrike_keeps
    | with_reducible apply setCredits_keeps
    | with_reducible refine takeMany_keeps (by assumption) ?_
    | with_reducible apply takeMany_keeps_snd
    | with_reducible apply OptKeeps.getD
    | split
    | intro _ _ _
    | intro _ _
    | intro _
    | (simp only [keeps_mk]; first | refine KeepsParts.of ?_)

theorem reportForm_keeps {s₀ : State} {m : Nat} {bad : List Nat} {s : State}
    (hk : Keeps s₀ s) : Keeps s₀ (reportForm m bad s) := by
  unfold reportForm
  try dsimp only
  repeat' first
    | with_reducible assumption
    | dsimp only
    | with_reducible apply reportSend_keeps
    | split
    | intro _ _ _
    | intro _ _
    | intro _
    | (simp only [keeps_mk]; first | refine KeepsParts.of ?_)

theorem setColInput_keeps {s₀ : State} {i : Nat} {l : List Report} {s : State}
    (hk : Keeps s₀ s) : Keeps s₀ (setColInput i l s) := by
  unfold setColInput
  try dsimp only
  repeat' first
    | with_reducible assumption
    | dsimp only
    | with_reducible apply Keeps.put
    | split
    | intro _ _ _
    | intro _ _
    | intro _
    | (simp only [keeps_mk]; first | refine KeepsParts.of ?_)

theorem setOutq_keeps {s₀ : State} {l : List Report} {s : State}
    (hk : Keeps s₀ s) : Keeps s₀ (setOutq l s) := by
  unfold setOutq
  try dsimp only
  repeat' first
    | with_reducible assumption
    | dsimp only
    | with_reducible apply Keeps.put
    | with_reducible apply State.putB_keeps
    | split
    | intro _ _ _
    | intro _ _
    | intro _
    | (simp only [keeps_mk]; first | refine KeepsParts.of ?_)

theorem reportArrive_keeps {s₀ : State} {p : Packet} {s : State}
    (hk : Keeps s₀ s) : Keeps s₀ (reportArrive p s) := by
  unfold reportArrive
  try dsimp only
  repeat' first
    | with_reducible assumption
    | dsimp only
    | with_reducible apply setColInput_keeps
    | split
    | intro _ _ _
    | intro _ _
    | intro _

theorem colSelect_keeps {s₀ : State} {bad : List Nat} {s : State}
    (hk : Keeps s₀ s) : Keeps s₀ (colSelect bad s) := by
  unfold colSelect
  try dsimp only
  repeat' first
    | with_reducible assumption
    | dsimp only
    | with_reducible apply State.count_keeps
    | with_reducible apply State.setIrq_keeps
    | with_reducible apply setColInput_keeps
    | with_reducible apply setCredits_keeps
    | with_reducible apply setOutq_keeps
    | with_reducible apply Keeps.when
    | split
    | intro _ _ _
    | intro _ _
    | intro _
    | (simp only [keeps_mk]; first | refine KeepsParts.of ?_)

theorem colPassed_keeps {s₀ : State} {s : State}
    (hk : Keeps s₀ s) : Keeps s₀ (colPassed s) := by
  unfold colPassed
  try dsimp only
  repeat' first
    | with_reducible assumption
    | dsimp only
    | with_reducible apply State.count_keeps
    | with_reducible apply State.irq_keeps
    | with_reducible apply Keeps.put
    | with_reducible apply setOutq_keeps
    | with_reducible apply Keeps.when
    | split
    | intro _ _ _
    | intro _ _
    | intro _
    | (simp only [keeps_mk]; first | refine KeepsParts.of ?_)

end Sys2Proof.Machine
end

