-- ==== Sys2Proof/Laws/KeepsRegTable.lean ====
section
/-! SUPPORT. What the operations of Machine/RegTable.lean keep (Laws/Keeps.lean). -/

namespace Sys2Proof.Machine

open Sys2Proof


end Sys2Proof.Machine
end

