-- ==== Sys2Proof/Laws/KeepsCoreState.lean ====
section
/-! SUPPORT. What the operations of Machine/CoreState.lean keep (Laws/Keeps.lean). -/

namespace Sys2Proof.Machine

open Sys2Proof

theorem State.setCore_keeps {s₀ : State} {s : State} {c : Nat} {x : Core}
    (hk : Keeps s₀ s) : Keeps s₀ (State.setCore s c x) := by
  unfold State.setCore
  try dsimp only
  repeat' first
    | with_reducible assumption
    | dsimp only
    | split
    | intro _ _ _
    | intro _ _
    | intro _
    | (simp only [keeps_mk]; first | refine KeepsParts.of ?_)

theorem ringBell_keeps {s₀ : State} {c : Nat} {w : Word} {p : Bool} {s : State}
    (hk : Keeps s₀ s) : Keeps s₀ (ringBell c w p s) := by
  unfold ringBell
  try dsimp only
  repeat' first
    | with_reducible assumption
    | dsimp only
    | with_reducible apply Keeps.put
    | with_reducible apply State.putB_keeps
    | split
    | intro _ _ _
    | intro _ _
    | intro _

theorem bellClear_keeps {s₀ : State} {c : Nat} {v : Word} {s : State}
    (hk : Keeps s₀ s) : Keeps s₀ (bellClear c v s) := by
  unfold bellClear
  try dsimp only
  repeat' first
    | with_reducible assumption
    | dsimp only
    | with_reducible apply Keeps.put
    | with_reducible apply Keeps.when
    | split
    | intro _ _ _
    | intro _ _
    | intro _

theorem irqTake_keeps {s₀ : State} {c line : Nat} {p : Packet} {s : State}
    (hk : Keeps s₀ s) : Keeps s₀ (irqTake c line p s) := by
  unfold irqTake
  try dsimp only
  repeat' first
    | with_reducible assumption
    | dsimp only
    | with_reducible apply State.setCore_keeps
    | with_reducible apply takeInbox_keeps
    | split
    | intro _ _ _
    | intro _ _
    | intro _
    | (simp only [keeps_mk]; first | refine KeepsParts.of ?_)

theorem irqMessage_keeps {s₀ : State} {c line : Nat} {s : State}
    (hk : Keeps s₀ s) : Keeps s₀ (irqMessage c line s) := by
  unfold irqMessage
  try dsimp only
  repeat' first
    | with_reducible assumption
    | dsimp only
    | with_reducible apply irqTake_keeps
    | with_reducible apply niSend_keeps
    | split
    | intro _ _ _
    | intro _ _
    | intro _
    | (simp only [keeps_mk]; first | refine KeepsParts.of ?_)

theorem coreHalt_keeps {s₀ : State} {c : Nat} {h : HaltCause} {s : State}
    (hk : Keeps s₀ s) : Keeps s₀ (coreHalt c h s) := by
  unfold coreHalt
  try dsimp only
  repeat' first
    | with_reducible assumption
    | dsimp only
    | with_reducible apply State.irq_keeps
    | with_reducible apply Keeps.put
    | with_reducible apply Keeps.when
    | with_reducible apply Keeps.each
    | split
    | intro _ _ _
    | intro _ _
    | intro _
    | (simp only [keeps_mk]; first | refine KeepsParts.of ?_)

theorem haltRequest_keeps {s₀ : State} {c : Nat} {s : State}
    (hk : Keeps s₀ s) : Keeps s₀ (haltRequest c s) := by
  unfold haltRequest
  try dsimp only
  repeat' first
    | with_reducible assumption
    | dsimp only
    | with_reducible apply State.setCore_keeps
    | with_reducible apply coreHalt_keeps
    | split
    | intro _ _ _
    | intro _ _
    | intro _
    | (simp only [keeps_mk]; first | refine KeepsParts.of ?_)

theorem haltDue_keeps {s₀ : State} {c : Nat} {s : State}
    (hk : Keeps s₀ s) : Keeps s₀ (haltDue c s) := by
  unfold haltDue
  try dsimp only
  repeat' first
    | with_reducible assumption
    | dsimp only
    | with_reducible apply State.setCore_keeps
    | with_reducible apply haltRequest_keeps
    | with_reducible apply Keeps.when
    | split
    | intro _ _ _
    | intro _ _
    | intro _
    | (simp only [keeps_mk]; first | refine KeepsParts.of ?_)

theorem coreResume_keeps {s₀ : State} {c : Nat} {s : State}
    (hk : Keeps s₀ s) : Keeps s₀ (coreResume c s) := by
  unfold coreResume
  try dsimp only
  repeat' first
    | with_reducible assumption
    | dsimp only
    | with_reducible apply Keeps.put
    | split
    | intro _ _ _
    | intro _ _
    | intro _

theorem stepRequest_keeps {s₀ : State} {c : Nat} {s : State}
    (hk : Keeps s₀ s) : Keeps s₀ (stepRequest c s) := by
  unfold stepRequest
  try dsimp only
  repeat' first
    | with_reducible assumption
    | dsimp only
    | with_reducible apply State.setCore_keeps
    | with_reducible apply Keeps.when
    | split
    | intro _ _ _
    | intro _ _
    | intro _
    | (simp only [keeps_mk]; first | refine KeepsParts.of ?_)

theorem raise_keeps {s₀ : State} {c : Nat} {k : Cause} {addr : Word} {s : State}
    (hk : Keeps s₀ s) : Keeps s₀ (raise c k addr s) := by
  unfold raise
  try dsimp only
  repeat' first
    | with_reducible assumption
    | dsimp only
    | with_reducible apply State.setCore_keeps
    | with_reducible apply coreHalt_keeps
    | split
    | intro _ _ _
    | intro _ _
    | intro _
    | (simp only [keeps_mk]; first | refine KeepsParts.of ?_)

theorem fastEntry_keeps {s₀ : State} {c : Nat} {s : State}
    (hk : Keeps s₀ s) : Keeps s₀ (fastEntry c s) := by
  unfold fastEntry
  try dsimp only
  repeat' first
    | with_reducible assumption
    | dsimp only
    | with_reducible apply State.setCore_keeps
    | split
    | intro _ _ _
    | intro _ _
    | intro _
    | (simp only [keeps_mk]; first | refine KeepsParts.of ?_)

theorem leadStart_keeps {s₀ : State} {i : Nat} {s : State}
    (hk : Keeps s₀ s) : Keeps s₀ (leadStart i s) := by
  unfold leadStart
  try dsimp only
  repeat' first
    | with_reducible assumption
    | dsimp only
    | with_reducible apply Keeps.put
    | with_reducible apply State.setCore_keeps
    | with_reducible apply wireEnd_keeps
    | split
    | intro _ _ _
    | intro _ _
    | intro _

theorem leadRestart_keeps {s₀ : State} {i : Nat} {s : State}
    (hk : Keeps s₀ s) : Keeps s₀ (leadRestart i s) := by
  unfold leadRestart
  try dsimp only
  repeat' first
    | with_reducible assumption
    | dsimp only
    | with_reducible apply leadStart_keeps
    | split
    | intro _ _ _
    | intro _ _
    | intro _

theorem callerRun_keeps {s₀ : State} {m : Nat} {run : Bool} {s : State}
    (hk : Keeps s₀ s) : Keeps s₀ (callerRun m run s) := by
  unfold callerRun
  try dsimp only
  repeat' first
    | with_reducible assumption
    | dsimp only
    | with_reducible apply Keeps.put
    | with_reducible apply State.putB_keeps
    | with_reducible apply State.setCore_keeps
    | with_reducible apply wireEnd_keeps
    | split
    | intro _ _ _
    | intro _ _
    | intro _

theorem dropPosted_keeps {s₀ : State} {c : Nat} {s : State}
    (hk : Keeps s₀ s) : Keeps s₀ (dropPosted c s) := by
  unfold dropPosted
  try dsimp only
  repeat' first
    | with_reducible assumption
    | dsimp only
    | with_reducible apply State.setOutReqs_keeps
    | with_reducible apply wireEnd_keeps
    | split
    | intro _ _ _
    | intro _ _
    | intro _

theorem ctlRead_keeps_snd {s₀ : State} {c n : Nat} {s : State}
    (hk : Keeps s₀ s) : Keeps s₀ (ctlRead c n s).2 := by
  unfold ctlRead
  try dsimp only
  repeat' first
    | with_reducible assumption
    | dsimp only
    | with_reducible apply State.setCore_keeps
    | split
    | intro _ _ _
    | intro _ _
    | intro _
    | (simp only [keeps_mk]; first | refine KeepsParts.of ?_)

theorem ctlRead_keeps {s₀ : State} {c n : Nat} {s : State} {y₁ t₁} (e₁ : ctlRead c n s = (y₁, t₁))
    (hk : Keeps s₀ s) : Keeps s₀ t₁ := by
  have k := ctlRead_keeps_snd (s₀ := s₀) (c := c) (n := n) (s := s) hk
  rw [e₁] at k
  exact k

theorem ctlWrite_keeps {s₀ : State} {c n : Nat} {d : Word} {s : State}
    (hk : Keeps s₀ s) : Keeps s₀ (ctlWrite c n d s) := by
  unfold ctlWrite
  try dsimp only
  repeat' first
    | with_reducible assumption
    | dsimp only
    | with_reducible apply State.setCore_keeps
    | split
    | intro _ _ _
    | intro _ _
    | intro _
    | (simp only [keeps_mk]; first | refine KeepsParts.of ?_)

theorem dbgRead_keeps_snd {s₀ : State} {c : Nat} {s : State}
    (hk : Keeps s₀ s) : Keeps s₀ (dbgRead c s).2 := by
  unfold dbgRead
  try dsimp only
  repeat' first
    | with_reducible assumption
    | dsimp only
    | with_reducible refine ctlRead_keeps (by assumption) ?_
    | with_reducible apply ctlRead_keeps_snd
    | split
    | intro _ _ _
    | intro _ _
    | intro _
    | (simp only [keeps_mk]; first | refine KeepsParts.of ?_)

theorem dbgRead_keeps {s₀ : State} {c : Nat} {s : State} {y₁ t₁} (e₁ : dbgRead c s = (y₁, t₁))
    (hk : Keeps s₀ s) : Keeps s₀ t₁ := by
  have k := dbgRead_keeps_snd (s₀ := s₀) (c := c) (s := s) hk
  rw [e₁] at k
  exact k

theorem dbgWrite_keeps {s₀ : State} {c : Nat} {d : Word} {s : State}
    (hk : Keeps s₀ s) : Keeps s₀ (dbgWrite c d s) := by
  unfold dbgWrite
  try dsimp only
  repeat' first
    | with_reducible assumption
    | dsimp only
    | with_reducible apply State.setCore_keeps
    | with_reducible apply ctlWrite_keeps
    | split
    | intro _ _ _
    | intro _ _
    | intro _
    | (simp only [keeps_mk]; first | refine KeepsParts.of ?_)

theorem tdbgRead_keeps_snd {s₀ : State} {m : Nat} {s : State}
    (hk : Keeps s₀ s) : Keeps s₀ (tdbgRead m s).2 := by
  unfold tdbgRead
  try dsimp only
  repeat' first
    | with_reducible assumption
    | dsimp only
    | with_reducible apply Keeps.put
    | with_reducible apply State.putB_keeps
    | split
    | intro _ _ _
    | intro _ _
    | intro _

theorem tdbgRead_keeps {s₀ : State} {m : Nat} {s : State} {y₁ t₁} (e₁ : tdbgRead m s = (y₁, t₁))
    (hk : Keeps s₀ s) : Keeps s₀ t₁ := by
  have k := tdbgRead_keeps_snd (s₀ := s₀) (m := m) (s := s) hk
  rw [e₁] at k
  exact k

theorem tdbgWrite_keeps {s₀ : State} {m : Nat} {d : Word} {lost : Bool} {s : State}
    (hk : Keeps s₀ s) : Keeps s₀ (tdbgWrite m d lost s) := by
  unfold tdbgWrite
  try dsimp only
  repeat' first
    | with_reducible assumption
    | dsimp only
    | with_reducible apply Keeps.put
    | with_reducible apply State.setIrq_keeps
    | with_reducible apply State.setTile_keeps
    | split
    | intro _ _ _
    | intro _ _
    | intro _
    | (simp only [keeps_mk]; first | refine KeepsParts.of ?_)

theorem summitSend_keeps {s₀ : State} {c : Nat} {s : State}
    (hk : Keeps s₀ s) : Keeps s₀ (summitSend c s) := by
  unfold summitSend
  try dsimp only
  repeat' first
    | with_reducible assumption
    | dsimp only
    | with_reducible apply State.setIrq_keeps
    | with_reducible apply niSend_keeps
    | split
    | intro _ _ _
    | intro _ _
    | intro _

end Sys2Proof.Machine
end

