-- ==== Sys2Proof/Laws/KeepsPower.lean ====
section
/-! SUPPORT. What the operations of Machine/Power.lean keep (Laws/Keeps.lean). -/

namespace Sys2Proof.Machine

open Sys2Proof

theorem clearTiles_keeps {s₀ : State} {m : Nat} {s : State}
    (hk : Keeps s₀ s) : Keeps s₀ (clearTiles m s) := by
  unfold clearTiles
  try dsimp only
  repeat' first
    | with_reducible assumption
    | dsimp only
    | split
    | intro _ _ _
    | intro _ _
    | intro _
    | (simp only [keeps_mk]; first | refine KeepsParts.of ?_)

theorem clearSlots_keeps {s₀ : State} {m : Nat} {s : State}
    (hk : Keeps s₀ s) : Keeps s₀ (clearSlots m s) := by
  unfold clearSlots
  try dsimp only
  repeat' first
    | with_reducible assumption
    | dsimp only
    | with_reducible apply Keeps.put
    | split
    | intro _ _ _
    | intro _ _
    | intro _
    | (simp only [keeps_mk]; first | refine KeepsParts.of ?_)

theorem clearBm_keeps {s₀ : State} {m : Nat} {s : State}
    (hk : Keeps s₀ s) : Keeps s₀ (clearBm m s) := by
  unfold clearBm
  try dsimp only
  repeat' first
    | with_reducible assumption
    | dsimp only
    | with_reducible apply Keeps.put
    | split
    | intro _ _ _
    | intro _ _
    | intro _
    | (simp only [keeps_mk]; first | refine KeepsParts.of ?_ | refine KeepsParts.shelf ?_ (by first | exact SMap.wf_set _ _ _ _ | exact SMap.wf_clear _ _ _) | refine KeepsParts.bm ?_ (by first | exact SMap.wf_set _ _ _ _ | exact SMap.wf_clear _ _ _) | refine KeepsParts.hbm ?_ (by first | exact SMap.wf_set _ _ _ _ | exact SMap.wf_clear _ _ _ | exact fun _ => SMap.wf_nil _) | refine KeepsParts.ram ?_ (by first | exact SMap.wf_set _ _ _ _ | exact SMap.wf_clear _ _ _))

theorem clearCols_keeps {s₀ : State} {m : Nat} {s : State}
    (hk : Keeps s₀ s) : Keeps s₀ (clearCols m s) := by
  unfold clearCols
  try dsimp only
  repeat' first
    | with_reducible assumption
    | dsimp only
    | with_reducible apply cqRefresh_keeps
    | with_reducible apply Keeps.each
    | split
    | intro _ _ _
    | intro _ _
    | intro _
    | (simp only [keeps_mk]; first | refine KeepsParts.of ?_)

theorem withholdCols_keeps {s₀ : State} {m : Nat} {s : State}
    (hk : Keeps s₀ s) : Keeps s₀ (withholdCols m s) := by
  unfold withholdCols
  try dsimp only
  repeat' first
    | with_reducible assumption
    | dsimp only
    | with_reducible apply State.setMassif_keeps
    | with_reducible apply clearCols_keeps
    | with_reducible apply Keeps.foldl
    | with_reducible apply Keeps.foldl_snd
    | split
    | intro _ _ _
    | intro _ _
    | intro _
    | (simp only [keeps_mk]; first | refine KeepsParts.of ?_)

theorem returnCredits_keeps {s₀ : State} {m : Nat} {s : State}
    (hk : Keeps s₀ s) : Keeps s₀ (returnCredits m s) := by
  unfold returnCredits
  try dsimp only
  repeat' first
    | with_reducible assumption
    | dsimp only
    | with_reducible apply State.setMassif_keeps
    | split
    | intro _ _ _
    | intro _ _
    | intro _
    | (simp only [keeps_mk]; first | refine KeepsParts.of ?_)

theorem clearQueues_keeps {s₀ : State} {m : Nat} {s : State}
    (hk : Keeps s₀ s) : Keeps s₀ (clearQueues m s) := by
  unfold clearQueues
  try dsimp only
  repeat' first
    | with_reducible assumption
    | dsimp only
    | with_reducible apply queueRefresh_keeps
    | with_reducible apply Keeps.resetWhere
    | with_reducible apply Keeps.each
    | split
    | intro _ _ _
    | intro _ _
    | intro _
    | (simp only [keeps_mk]; first | refine KeepsParts.of ?_)

theorem clearMassifStat_keeps {s₀ : State} {m : Nat} {s : State}
    (hk : Keeps s₀ s) : Keeps s₀ (clearMassifStat m s) := by
  unfold clearMassifStat
  try dsimp only
  repeat' first
    | with_reducible assumption
    | dsimp only
    | with_reducible apply Keeps.put
    | split
    | intro _ _ _
    | intro _ _
    | intro _

theorem callerDown_keeps {s₀ : State} {m : Nat} {s : State}
    (hk : Keeps s₀ s) : Keeps s₀ (callerDown m s) := by
  unfold callerDown
  try dsimp only
  repeat' first
    | with_reducible assumption
    | dsimp only
    | with_reducible apply Keeps.put
    | with_reducible apply State.setCore_keeps
    | with_reducible apply State.setShelf_keeps
    | with_reducible apply wireEnd_keeps
    | split
    | intro _ _ _
    | intro _ _
    | intro _
    | (simp only [keeps_mk]; first | refine KeepsParts.of ?_)

theorem clearCallerRam_keeps {s₀ : State} {m : Nat} {s : State}
    (hk : Keeps s₀ s) : Keeps s₀ (clearCallerRam m s) := by
  unfold clearCallerRam
  try dsimp only
  repeat' first
    | with_reducible assumption
    | dsimp only
    | split
    | intro _ _ _
    | intro _ _
    | intro _
    | (simp only [keeps_mk]; first | refine KeepsParts.of ?_ | refine KeepsParts.shelf ?_ (by first | exact SMap.wf_set _ _ _ _ | exact SMap.wf_clear _ _ _) | refine KeepsParts.bm ?_ (by first | exact SMap.wf_set _ _ _ _ | exact SMap.wf_clear _ _ _) | refine KeepsParts.hbm ?_ (by first | exact SMap.wf_set _ _ _ _ | exact SMap.wf_clear _ _ _ | exact fun _ => SMap.wf_nil _) | refine KeepsParts.ram ?_ (by first | exact SMap.wf_set _ _ _ _ | exact SMap.wf_clear _ _ _))

theorem gateWrite_keeps {s₀ : State} {m : Nat} {gate : Bool} {s : State}
    (hk : Keeps s₀ s) : Keeps s₀ (gateWrite m gate s) := by
  unfold gateWrite
  try dsimp only
  repeat' first
    | with_reducible assumption
    | dsimp only
    | with_reducible apply Keeps.put
    | with_reducible apply State.setIrq_keeps
    | with_reducible apply wakeStart_keeps
    | with_reducible apply Keeps.when
    | split
    | intro _ _ _
    | intro _ _
    | intro _

theorem gateClose_keeps {s₀ : State} {m : Nat} {s : State}
    (hk : Keeps s₀ s) : Keeps s₀ (gateClose m s) := by
  unfold gateClose
  try dsimp only
  repeat' first
    | with_reducible assumption
    | dsimp only
    | with_reducible apply Keeps.put
    | with_reducible apply Keeps.when
    | split
    | intro _ _ _
    | intro _ _
    | intro _

theorem gated_keeps {s₀ : State} {m : Nat} {s : State}
    (hk : Keeps s₀ s) : Keeps s₀ (gated m s) := by
  unfold gated
  try dsimp only
  repeat' first
    | with_reducible assumption
    | dsimp only
    | with_reducible apply State.irq_keeps
    | with_reducible apply Keeps.put
    | with_reducible apply bmRefresh_keeps
    | with_reducible apply callerDown_keeps
    | with_reducible apply clearBm_keeps
    | with_reducible apply clearCallerRam_keeps
    | with_reducible apply clearMassifStat_keeps
    | with_reducible apply clearSlots_keeps
    | with_reducible apply clearTiles_keeps
    | with_reducible apply conflictRefresh_keeps
    | split
    | intro _ _ _
    | intro _ _
    | intro _

theorem epochTake_keeps {s₀ : State} {m e : Nat} {s : State}
    (hk : Keeps s₀ s) : Keeps s₀ (epochTake m e s) := by
  unfold epochTake
  try dsimp only
  repeat' first
    | with_reducible assumption
    | dsimp only
    | split
    | intro _ _ _
    | intro _ _
    | intro _
    | (simp only [keeps_mk]; first | refine KeepsParts.of ?_)

theorem actOnKept_keeps {s₀ : State} {m : Nat} {x0 : List BeatRec} {s : State}
    (hk : Keeps s₀ s) : Keeps s₀ (actOnKept m x0 s) := by
  induction x0 generalizing m s with
  | nil =>
    simp only [actOnKept]
    repeat' first
      | with_reducible assumption
      | with_reducible apply ih
      | dsimp only
      | with_reducible apply State.setMassif_keeps
      | with_reducible apply beatAct_keeps
      | with_reducible apply epochTake_keeps
      | with_reducible apply Keeps.when
      | split
      | intro _ _ _
      | intro _ _
      | intro _
      | (simp only [keeps_mk]; first | refine KeepsParts.of ?_)
  | cons a l ih =>
    simp only [actOnKept]
    repeat' first
      | with_reducible assumption
      | with_reducible apply ih
      | dsimp only
      | with_reducible apply State.setMassif_keeps
      | with_reducible apply beatAct_keeps
      | with_reducible apply epochTake_keeps
      | with_reducible apply Keeps.when
      | split
      | intro _ _ _
      | intro _ _
      | intro _
      | (simp only [keeps_mk]; first | refine KeepsParts.of ?_)

theorem beatsSettle_keeps {s₀ : State} {m : Nat} {s : State}
    (hk : Keeps s₀ s) : Keeps s₀ (beatsSettle m s) := by
  unfold beatsSettle
  try dsimp only
  repeat' first
    | with_reducible assumption
    | dsimp only
    | with_reducible apply actOnKept_keeps
    | split
    | intro _ _ _
    | intro _ _
    | intro _

theorem wakeReload_keeps {s₀ : State} {m : Nat} {s : State}
    (hk : Keeps s₀ s) : Keeps s₀ (wakeReload m s) := by
  unfold wakeReload
  try dsimp only
  repeat' first
    | with_reducible assumption
    | dsimp only
    | with_reducible apply Keeps.put
    | with_reducible apply State.setMassif_keeps
    | with_reducible apply beatAct_keeps
    | with_reducible apply beatsSettle_keeps
    | split
    | intro _ _ _
    | intro _ _
    | intro _
    | (simp only [keeps_mk]; first | refine KeepsParts.of ?_)

theorem wakeActive_keeps {s₀ : State} {m : Nat} {s : State}
    (hk : Keeps s₀ s) : Keeps s₀ (wakeActive m s) := by
  unfold wakeActive
  try dsimp only
  repeat' first
    | with_reducible assumption
    | dsimp only
    | with_reducible apply State.irq_keeps
    | with_reducible apply Keeps.put
    | with_reducible apply State.putB_keeps
    | with_reducible apply State.setInbox_keeps
    | with_reducible apply State.setMassif_keeps
    | with_reducible apply State.setWakeBuf_keeps
    | with_reducible apply beatsSettle_keeps
    | with_reducible apply clearBm_keeps
    | with_reducible apply clearTiles_keeps
    | with_reducible apply wakeLoad_keeps
    | split
    | intro _ _ _
    | intro _ _
    | intro _
    | (simp only [keeps_mk]; first | refine KeepsParts.of ?_)

theorem setRamCell_keeps {s₀ : State} {m w : Nat} {v : BitVec 39} {s : State}
    (hk : Keeps s₀ s) : Keeps s₀ (setRamCell m w v s) := by
  unfold setRamCell
  try dsimp only
  repeat' first
    | with_reducible assumption
    | dsimp only
    | split
    | intro _ _ _
    | intro _ _
    | intro _
    | (simp only [keeps_mk]; first | refine KeepsParts.of ?_ | refine KeepsParts.shelf ?_ (by first | exact SMap.wf_set _ _ _ _ | exact SMap.wf_clear _ _ _) | refine KeepsParts.bm ?_ (by first | exact SMap.wf_set _ _ _ _ | exact SMap.wf_clear _ _ _) | refine KeepsParts.hbm ?_ (by first | exact SMap.wf_set _ _ _ _ | exact SMap.wf_clear _ _ _ | exact fun _ => SMap.wf_nil _) | refine KeepsParts.ram ?_ (by first | exact SMap.wf_set _ _ _ _ | exact SMap.wf_clear _ _ _))

theorem ramFill_keeps {s₀ : State} {m : Nat} {x0 : Nat} {x1 : List (Word × Bool)} {s : State}
    (hk : Keeps s₀ s) : Keeps s₀ (ramFill m x0 x1 s) := by
  induction x1 generalizing m x0 s with
  | nil =>
    simp only [ramFill]
    repeat' first
      | with_reducible assumption
      | with_reducible apply ih
      | dsimp only
      | with_reducible apply setRamCell_keeps
      | split
      | intro _ _ _
      | intro _ _
      | intro _
  | cons a l ih =>
    simp only [ramFill]
    repeat' first
      | with_reducible assumption
      | with_reducible apply ih
      | dsimp only
      | with_reducible apply setRamCell_keeps
      | split
      | intro _ _ _
      | intro _ _
      | intro _

theorem copyEnd_keeps {s₀ : State} {m : Nat} {s : State}
    (hk : Keeps s₀ s) : Keeps s₀ (copyEnd m s) := by
  unfold copyEnd
  try dsimp only
  repeat' first
    | with_reducible assumption
    | dsimp only
    | with_reducible apply State.setMassif_keeps
    | with_reducible apply callerRun_keeps
    | split
    | intro _ _ _
    | intro _ _
    | intro _
    | (simp only [keeps_mk]; first | refine KeepsParts.of ?_)

theorem copyStep_keeps {s₀ : State} {m : Nat} {s : State}
    (hk : Keeps s₀ s) : Keeps s₀ (copyStep m s) := by
  unfold copyStep
  try dsimp only
  repeat' first
    | with_reducible assumption
    | dsimp only
    | with_reducible apply State.setMassif_keeps
    | with_reducible apply countWaits_keeps
    | with_reducible apply ramFill_keeps
    | with_reducible apply setWant_keeps
    | with_reducible refine shelfReadWords_keeps (by assumption) ?_
    | with_reducible apply shelfReadWords_keeps_snd
    | with_reducible apply Keeps.foldl
    | with_reducible apply Keeps.foldl_snd
    | split
    | intro _ _ _
    | intro _ _
    | intro _
    | (simp only [keeps_mk]; first | refine KeepsParts.of ?_)

theorem callerWakeCopy_keeps {s₀ : State} {m : Nat} {s : State}
    (hk : Keeps s₀ s) : Keeps s₀ (callerWakeCopy m s) := by
  unfold callerWakeCopy
  try dsimp only
  repeat' first
    | with_reducible assumption
    | dsimp only
    | with_reducible apply State.count_keeps
    | with_reducible apply copyEnd_keeps
    | with_reducible apply copyStep_keeps
    | with_reducible apply setWant_keeps
    | with_reducible apply Keeps.when
    | split
    | intro _ _ _
    | intro _ _
    | intro _

theorem clockHold_keeps {s₀ : State} {m : Nat} {s : State}
    (hk : Keeps s₀ s) : Keeps s₀ (clockHold m s) := by
  unfold clockHold
  try dsimp only
  repeat' first
    | with_reducible assumption
    | dsimp only
    | with_reducible apply Keeps.put
    | with_reducible apply State.setMassif_keeps
    | split
    | intro _ _ _
    | intro _ _
    | intro _
    | (simp only [keeps_mk]; first | refine KeepsParts.of ?_)

theorem mclkWrite_keeps {s₀ : State} {m : Nat} {v : Word} {s : State}
    (hk : Keeps s₀ s) : Keeps s₀ (mclkWrite m v s) := by
  unfold mclkWrite
  try dsimp only
  repeat' first
    | with_reducible assumption
    | dsimp only
    | with_reducible apply Keeps.put
    | with_reducible apply State.setIrq_keeps
    | with_reducible apply clockHold_keeps
    | split
    | intro _ _ _
    | intro _ _
    | intro _

theorem clockSwitchDone_keeps {s₀ : State} {m : Nat} {s : State}
    (hk : Keeps s₀ s) : Keeps s₀ (clockSwitchDone m s) := by
  unfold clockSwitchDone
  try dsimp only
  repeat' first
    | with_reducible assumption
    | dsimp only
    | with_reducible apply Keeps.put
    | with_reducible apply State.setMassif_keeps
    | with_reducible apply beatsSettle_keeps
    | with_reducible apply clockHold_keeps
    | with_reducible apply Keeps.when
    | split
    | intro _ _ _
    | intro _ _
    | intro _
    | (simp only [keeps_mk]; first | refine KeepsParts.of ?_)

theorem beatReach_keeps {s₀ : State} {m : Nat} {b : BeatRec} {s : State}
    (hk : Keeps s₀ s) : Keeps s₀ (beatReach m b s) := by
  unfold beatReach
  try dsimp only
  repeat' first
    | with_reducible assumption
    | dsimp only
    | with_reducible apply State.setMassif_keeps
    | with_reducible apply beatAct_keeps
    | split
    | intro _ _ _
    | intro _ _
    | intro _
    | (simp only [keeps_mk]; first | refine KeepsParts.of ?_)

theorem fpllWrite_keeps {s₀ : State} {k : Nat} {v : Word} {s : State}
    (hk : Keeps s₀ s) : Keeps s₀ (fpllWrite k v s) := by
  unfold fpllWrite
  try dsimp only
  repeat' first
    | with_reducible assumption
    | dsimp only
    | with_reducible apply Keeps.put
    | with_reducible apply State.setIrq_keeps
    | split
    | intro _ _ _
    | intro _ _
    | intro _

theorem pllLock_keeps {s₀ : State} {k : Nat} {s : State}
    (hk : Keeps s₀ s) : Keeps s₀ (pllLock k s) := by
  unfold pllLock
  try dsimp only
  repeat' first
    | with_reducible assumption
    | dsimp only
    | with_reducible apply Keeps.put
    | with_reducible apply Keeps.when
    | split
    | intro _ _ _
    | intro _ _
    | intro _

theorem pllLockLoss_keeps {s₀ : State} {k : Nat} {s : State}
    (hk : Keeps s₀ s) : Keeps s₀ (pllLockLoss k s) := by
  unfold pllLockLoss
  try dsimp only
  repeat' first
    | with_reducible assumption
    | dsimp only
    | with_reducible apply State.irq_keeps
    | with_reducible apply Keeps.put
    | with_reducible apply Keeps.when
    | split
    | intro _ _ _
    | intro _ _
    | intro _

theorem boLevelWrite_keeps {s₀ : State} {reg : Nat} {v : Word} {s : State}
    (hk : Keeps s₀ s) : Keeps s₀ (boLevelWrite reg v s) := by
  unfold boLevelWrite
  try dsimp only
  repeat' first
    | with_reducible assumption
    | dsimp only
    | with_reducible apply Keeps.put
    | split
    | intro _ _ _
    | intro _ _
    | intro _
    | (simp only [keeps_mk]; first | refine KeepsParts.of ?_)

theorem throttleSwitch_keeps {s₀ : State} {on : Bool} {s : State}
    (hk : Keeps s₀ s) : Keeps s₀ (throttleSwitch on s) := by
  unfold throttleSwitch
  try dsimp only
  repeat' first
    | with_reducible assumption
    | dsimp only
    | with_reducible apply State.putB_keeps
    | with_reducible apply clockHold_keeps
    | with_reducible apply Keeps.each
    | split
    | intro _ _ _
    | intro _ _
    | intro _

theorem warningStart_keeps {s₀ : State} {a b : Nat} {s : State}
    (hk : Keeps s₀ s) : Keeps s₀ (warningStart a b s) := by
  unfold warningStart
  try dsimp only
  repeat' first
    | with_reducible assumption
    | dsimp only
    | with_reducible apply State.count_keeps
    | with_reducible apply State.irq_keeps
    | with_reducible apply Keeps.put
    | with_reducible apply throttleSwitch_keeps
    | with_reducible apply Keeps.when
    | split
    | intro _ _ _
    | intro _ _
    | intro _
    | (simp only [keeps_mk]; first | refine KeepsParts.of ?_)

theorem warningEnd_keeps {s₀ : State} {low mv : Nat} {s : State}
    (hk : Keeps s₀ s) : Keeps s₀ (warningEnd low mv s) := by
  unfold warningEnd
  try dsimp only
  repeat' first
    | with_reducible assumption
    | dsimp only
    | with_reducible apply State.irq_keeps
    | with_reducible apply Keeps.put
    | with_reducible apply throttleSwitch_keeps
    | with_reducible apply Keeps.when
    | with_reducible apply OptKeeps.getD
    | split
    | intro _ _ _
    | intro _ _
    | intro _
    | (simp only [keeps_mk]; first | refine KeepsParts.of ?_)

end Sys2Proof.Machine
end

