-- ==== Sys2Proof/Laws/KeepsPair.lean ====
section
/-! SUPPORT. What the operations of Machine/Pair.lean keep (Laws/Keeps.lean). -/

namespace Sys2Proof.Machine

open Sys2Proof

theorem setPair_keeps {s₀ : State} {f : Pair → Pair} {s : State}
    (hk : Keeps s₀ s) : Keeps s₀ (setPair f s) := by
  unfold setPair
  try dsimp only
  repeat' first
    | with_reducible assumption
    | dsimp only
    | split
    | intro _ _ _
    | intro _ _
    | intro _
    | (simp only [keeps_mk]; first | refine KeepsParts.of ?_)

theorem pairSend_keeps {s₀ : State} {r : PairRec} {s : State}
    (hk : Keeps s₀ s) : Keeps s₀ (pairSend r s) := by
  unfold pairSend
  try dsimp only
  repeat' first
    | with_reducible assumption
    | dsimp only
    | with_reducible apply Keeps.emit
    | with_reducible apply Keeps.when
    | split
    | intro _ _ _
    | intro _ _
    | intro _

theorem setPairState_keeps {s₀ : State} {st : Nat} {s : State}
    (hk : Keeps s₀ s) : Keeps s₀ (setPairState st s) := by
  unfold setPairState
  try dsimp only
  repeat' first
    | with_reducible assumption
    | dsimp only
    | with_reducible apply State.irq_keeps
    | with_reducible apply Keeps.put
    | with_reducible apply copyEnd_keeps
    | with_reducible apply setPair_keeps
    | with_reducible apply Keeps.when
    | split
    | intro _ _ _
    | intro _ _
    | intro _
    | (simp only [keeps_mk]; first | refine KeepsParts.of ?_)

theorem pairErr_keeps {s₀ : State} {f : Fld} {i : Nat} {s : State}
    (hk : Keeps s₀ s) : Keeps s₀ (pairErr f i s) := by
  unfold pairErr
  try dsimp only
  repeat' first
    | with_reducible assumption
    | dsimp only
    | with_reducible apply State.setIrq_keeps
    | split
    | intro _ _ _
    | intro _ _
    | intro _

theorem pairLinkDown_keeps {s₀ : State} {s : State}
    (hk : Keeps s₀ s) : Keeps s₀ (pairLinkDown s) := by
  unfold pairLinkDown
  try dsimp only
  repeat' first
    | with_reducible assumption
    | dsimp only
    | with_reducible apply Keeps.put
    | with_reducible apply setPair_keeps
    | split
    | intro _ _ _
    | intro _ _
    | intro _
    | (simp only [keeps_mk]; first | refine KeepsParts.of ?_)

theorem enterHello_keeps {s₀ : State} {s : State}
    (hk : Keeps s₀ s) : Keeps s₀ (enterHello s) := by
  unfold enterHello
  try dsimp only
  repeat' first
    | with_reducible assumption
    | dsimp only
    | with_reducible apply setPair_keeps
    | with_reducible apply setPairState_keeps
    | split
    | intro _ _ _
    | intro _ _
    | intro _
    | (simp only [keeps_mk]; first | refine KeepsParts.of ?_)

theorem pairCfgWrite_keeps {s₀ : State} {v : Word} {s : State}
    (hk : Keeps s₀ s) : Keeps s₀ (pairCfgWrite v s) := by
  unfold pairCfgWrite
  try dsimp only
  repeat' first
    | with_reducible assumption
    | dsimp only
    | with_reducible apply State.loadAll_keeps
    | with_reducible apply enterHello_keeps
    | with_reducible apply pairLinkDown_keeps
    | with_reducible apply setPairState_keeps
    | split
    | intro _ _ _
    | intro _ _
    | intro _
    | (simp only [keeps_mk]; first | refine KeepsParts.of ?_)

theorem helloSend_keeps {s₀ : State} {s : State}
    (hk : Keeps s₀ s) : Keeps s₀ (helloSend s) := by
  unfold helloSend
  try dsimp only
  repeat' first
    | with_reducible assumption
    | dsimp only
    | with_reducible apply pairSend_keeps
    | with_reducible apply Keeps.when
    | split
    | intro _ _ _
    | intro _ _
    | intro _

theorem fullCopy_keeps {s₀ : State} {s : State}
    (hk : Keeps s₀ s) : Keeps s₀ (fullCopy s) := by
  unfold fullCopy
  try dsimp only
  repeat' first
    | with_reducible assumption
    | dsimp only
    | with_reducible apply setPair_keeps
    | with_reducible apply wireEnd_keeps
    | split
    | intro _ _ _
    | intro _ _
    | intro _
    | (simp only [keeps_mk]; first | refine KeepsParts.of ?_)

theorem notePartner_keeps {s₀ : State} {st : Nat} {ready : Bool} {s : State}
    (hk : Keeps s₀ s) : Keeps s₀ (notePartner st ready s) := by
  unfold notePartner
  try dsimp only
  repeat' first
    | with_reducible assumption
    | dsimp only
    | with_reducible apply State.putB_keeps
    | with_reducible apply fullCopy_keeps
    | with_reducible apply setPair_keeps
    | with_reducible apply Keeps.when
    | split
    | intro _ _ _
    | intro _ _
    | intro _
    | (simp only [keeps_mk]; first | refine KeepsParts.of ?_)

theorem helloRecv_keeps {s₀ : State} {pairId tmpId st : Nat} {pref : Bool} {digest : List Nat} {epoch : Nat} {s0 : State}
    (hk : Keeps s₀ s0) : Keeps s₀ (helloRecv pairId tmpId st pref digest epoch s0) := by
  unfold helloRecv
  try dsimp only
  repeat' first
    | with_reducible assumption
    | dsimp only
    | with_reducible apply notePartner_keeps
    | with_reducible apply pairErr_keeps
    | with_reducible apply setPair_keeps
    | with_reducible apply setPairState_keeps
    | split
    | intro _ _ _
    | intro _ _
    | intro _
    | (simp only [keeps_mk]; first | refine KeepsParts.of ?_)

theorem helloTimeout_keeps {s₀ : State} {arbHigh : Bool} {s : State}
    (hk : Keeps s₀ s) : Keeps s₀ (helloTimeout arbHigh s) := by
  unfold helloTimeout
  try dsimp only
  repeat' first
    | with_reducible assumption
    | dsimp only
    | with_reducible apply setPairState_keeps
    | split
    | intro _ _ _
    | intro _ _
    | intro _

theorem heartbeatSend_keeps {s₀ : State} {s : State}
    (hk : Keeps s₀ s) : Keeps s₀ (heartbeatSend s) := by
  unfold heartbeatSend
  try dsimp only
  repeat' first
    | with_reducible assumption
    | dsimp only
    | with_reducible apply pairSend_keeps
    | with_reducible apply Keeps.when
    | split
    | intro _ _ _
    | intro _ _
    | intro _

theorem heartbeatRecv_keeps {s₀ : State} {st : Nat} {ready : Bool} {s : State}
    (hk : Keeps s₀ s) : Keeps s₀ (heartbeatRecv st ready s) := by
  unfold heartbeatRecv
  try dsimp only
  repeat' first
    | with_reducible assumption
    | dsimp only
    | with_reducible apply notePartner_keeps
    | with_reducible apply setPair_keeps
    | split
    | intro _ _ _
    | intro _ _
    | intro _
    | (simp only [keeps_mk]; first | refine KeepsParts.of ?_)

theorem decideTakeover_keeps {s₀ : State} {s : State}
    (hk : Keeps s₀ s) : Keeps s₀ (decideTakeover s) := by
  unfold decideTakeover
  try dsimp only
  repeat' first
    | with_reducible assumption
    | dsimp only
    | with_reducible apply setPair_keeps
    | with_reducible apply takeover_keeps
    | split
    | intro _ _ _
    | intro _ _
    | intro _
    | (simp only [keeps_mk]; first | refine KeepsParts.of ?_)

theorem split_keeps {s₀ : State} {s : State}
    (hk : Keeps s₀ s) : Keeps s₀ (split s) := by
  unfold split
  try dsimp only
  repeat' first
    | with_reducible assumption
    | dsimp only
    | with_reducible apply Keeps.put
    | with_reducible apply pairErr_keeps
    | split
    | intro _ _ _
    | intro _ _
    | intro _

theorem actOnGrant_keeps {s₀ : State} {arg : Dword} {s : State}
    (hk : Keeps s₀ s) : Keeps s₀ (actOnGrant arg s) := by
  unfold actOnGrant
  try dsimp only
  repeat' first
    | with_reducible assumption
    | dsimp only
    | with_reducible apply decideTakeover_keeps
    | with_reducible apply setPair_keeps
    | with_reducible apply split_keeps
    | with_reducible apply stepdown_keeps
    | dsimp only [id]
    | split
    | intro _ _ _
    | intro _ _
    | intro _
    | (simp only [keeps_mk]; first | refine KeepsParts.of ?_)

theorem answerClaim_keeps {s₀ : State} {arg : Dword} {s : State}
    (hk : Keeps s₀ s) : Keeps s₀ (answerClaim arg s) := by
  unfold answerClaim
  try dsimp only
  repeat' first
    | with_reducible assumption
    | dsimp only
    | with_reducible apply actOnGrant_keeps
    | with_reducible apply flood_keeps
    | with_reducible apply setPair_keeps
    | with_reducible apply Keeps.when
    | dsimp only [id]
    | split
    | intro _ _ _
    | intro _ _
    | intro _
    | (simp only [keeps_mk]; first | refine KeepsParts.of ?_)

theorem claim_keeps {s₀ : State} {s : State}
    (hk : Keeps s₀ s) : Keeps s₀ (claim s) := by
  unfold claim
  try dsimp only
  repeat' first
    | with_reducible assumption
    | dsimp only
    | with_reducible apply answerClaim_keeps
    | with_reducible apply flood_keeps
    | with_reducible apply setPair_keeps
    | split
    | intro _ _ _
    | intro _ _
    | intro _
    | (simp only [keeps_mk]; first | refine KeepsParts.of ?_)

theorem declareLoss_keeps {s₀ : State} {s : State}
    (hk : Keeps s₀ s) : Keeps s₀ (declareLoss s) := by
  unfold declareLoss
  try dsimp only
  repeat' first
    | with_reducible assumption
    | dsimp only
    | with_reducible apply Keeps.put
    | with_reducible apply claim_keeps
    | with_reducible apply pairErr_keeps
    | with_reducible apply setPair_keeps
    | with_reducible apply Keeps.when
    | split
    | intro _ _ _
    | intro _ _
    | intro _
    | (simp only [keeps_mk]; first | refine KeepsParts.of ?_)

theorem lossHandle_keeps {s₀ : State} {s : State}
    (hk : Keeps s₀ s) : Keeps s₀ (lossHandle s) := by
  unfold lossHandle
  try dsimp only
  repeat' first
    | with_reducible assumption
    | dsimp only
    | with_reducible apply declareLoss_keeps
    | split
    | intro _ _ _
    | intro _ _
    | intro _

theorem samplePin_keeps {s₀ : State} {arbHigh : Bool} {s : State}
    (hk : Keeps s₀ s) : Keeps s₀ (samplePin arbHigh s) := by
  unfold samplePin
  try dsimp only
  repeat' first
    | with_reducible assumption
    | dsimp only
    | with_reducible apply decideTakeover_keeps
    | with_reducible apply setPair_keeps
    | with_reducible apply split_keeps
    | split
    | intro _ _ _
    | intro _ _
    | intro _
    | (simp only [keeps_mk]; first | refine KeepsParts.of ?_)

theorem heartbeatLoss_keeps {s₀ : State} {arbHigh : Bool} {s : State}
    (hk : Keeps s₀ s) : Keeps s₀ (heartbeatLoss arbHigh s) := by
  unfold heartbeatLoss
  try dsimp only
  repeat' first
    | with_reducible assumption
    | dsimp only
    | with_reducible apply lossHandle_keeps
    | with_reducible apply samplePin_keeps
    | split
    | intro _ _ _
    | intro _ _
    | intro _

theorem arbTimeout_keeps {s₀ : State} {s : State}
    (hk : Keeps s₀ s) : Keeps s₀ (arbTimeout s) := by
  unfold arbTimeout
  try dsimp only
  repeat' first
    | with_reducible assumption
    | dsimp only
    | with_reducible apply claim_keeps
    | with_reducible apply pairErr_keeps
    | split
    | intro _ _ _
    | intro _ _
    | intro _
    | (simp only [keeps_mk]; first | refine KeepsParts.of ?_)

theorem claimRecv_keeps {s₀ : State} {p origin : Nat} {arg : Dword} {s : State}
    (hk : Keeps s₀ s) : Keeps s₀ (claimRecv p origin arg s) := by
  unfold claimRecv
  try dsimp only
  repeat' first
    | with_reducible assumption
    | dsimp only
    | with_reducible apply answerClaim_keeps
    | with_reducible apply recvFlooded_keeps
    | split
    | intro _ _ _
    | intro _ _
    | intro _

theorem grantRecv_keeps {s₀ : State} {p origin : Nat} {arg : Dword} {s : State}
    (hk : Keeps s₀ s) : Keeps s₀ (grantRecv p origin arg s) := by
  unfold grantRecv
  try dsimp only
  repeat' first
    | with_reducible assumption
    | dsimp only
    | with_reducible apply actOnGrant_keeps
    | with_reducible apply recvFlooded_keeps
    | split
    | intro _ _ _
    | intro _ _
    | intro _

theorem digestAdd_keeps {s₀ : State} {r : Report} {s : State}
    (hk : Keeps s₀ s) : Keeps s₀ (digestAdd r s) := by
  unfold digestAdd
  try dsimp only
  repeat' first
    | with_reducible assumption
    | dsimp only
    | with_reducible apply State.count_keeps
    | with_reducible apply setPair_keeps
    | split
    | intro _ _ _
    | intro _ _
    | intro _
    | (simp only [keeps_mk]; first | refine KeepsParts.of ?_)

theorem digestCompare_keeps {s₀ : State} {j : Nat} {s : State}
    (hk : Keeps s₀ s) : Keeps s₀ (digestCompare j s) := by
  unfold digestCompare
  try dsimp only
  repeat' first
    | with_reducible assumption
    | dsimp only
    | with_reducible apply State.count_keeps
    | with_reducible apply State.irq_keeps
    | with_reducible apply Keeps.put
    | with_reducible apply pairErr_keeps
    | with_reducible apply setPair_keeps
    | with_reducible apply Keeps.when
    | split
    | intro _ _ _
    | intro _ _
    | intro _
    | (simp only [keeps_mk]; first | refine KeepsParts.of ?_)

theorem digestClose_keeps {s₀ : State} {j : Nat} {s : State}
    (hk : Keeps s₀ s) : Keeps s₀ (digestClose j s) := by
  unfold digestClose
  try dsimp only
  repeat' first
    | with_reducible assumption
    | dsimp only
    | with_reducible apply digestCompare_keeps
    | with_reducible apply setPair_keeps
    | split
    | intro _ _ _
    | intro _ _
    | intro _
    | (simp only [keeps_mk]; first | refine KeepsParts.of ?_)

theorem holdTrim_keeps {s₀ : State} {x0 : Nat} {s : State}
    (hk : Keeps s₀ s) : Keeps s₀ (holdTrim x0 s) := by
  induction x0 generalizing s with
  | zero =>
    simp only [holdTrim]
    repeat' first
      | with_reducible assumption
      | with_reducible apply ih
      | dsimp only
      | with_reducible apply pairErr_keeps
      | with_reducible apply setPair_keeps
      | with_reducible apply Keeps.foldl
      | with_reducible apply Keeps.foldl_snd
      | split
      | intro _ _ _
      | intro _ _
      | intro _
      | (simp only [keeps_mk]; first | refine KeepsParts.of ?_)
  | succ n ih =>
    simp only [holdTrim]
    repeat' first
      | with_reducible assumption
      | with_reducible apply ih
      | dsimp only
      | with_reducible apply pairErr_keeps
      | with_reducible apply setPair_keeps
      | with_reducible apply Keeps.foldl
      | with_reducible apply Keeps.foldl_snd
      | split
      | intro _ _ _
      | intro _ _
      | intro _
      | (simp only [keeps_mk]; first | refine KeepsParts.of ?_)

theorem holdStore_keeps {s₀ : State} {r : Report} {s : State}
    (hk : Keeps s₀ s) : Keeps s₀ (holdStore r s) := by
  unfold holdStore
  try dsimp only
  repeat' first
    | with_reducible assumption
    | dsimp only
    | with_reducible apply ringStore_keeps
    | with_reducible apply setPair_keeps
    | split
    | intro _ _ _
    | intro _ _
    | intro _
    | (simp only [keeps_mk]; first | refine KeepsParts.of ?_)

theorem holdReport_keeps {s₀ : State} {r : Report} {s : State}
    (hk : Keeps s₀ s) : Keeps s₀ (holdReport r s) := by
  unfold holdReport
  try dsimp only
  repeat' first
    | with_reducible assumption
    | dsimp only
    | with_reducible apply holdStore_keeps
    | with_reducible apply holdTrim_keeps
    | with_reducible apply setPair_keeps
    | split
    | intro _ _ _
    | intro _ _
    | intro _
    | (simp only [keeps_mk]; first | refine KeepsParts.of ?_)

theorem copySend_keeps {s₀ : State} {s : State}
    (hk : Keeps s₀ s) : Keeps s₀ (copySend s) := by
  unfold copySend
  try dsimp only
  repeat' first
    | with_reducible assumption
    | dsimp only
    | with_reducible apply pairSend_keeps
    | with_reducible apply setPair_keeps
    | with_reducible refine wireAsk_keeps (by assumption) ?_
    | with_reducible apply wireAsk_keeps_snd
    | with_reducible apply wireEnd_keeps
    | with_reducible apply wireRewind_keeps
    | split
    | intro _ _ _
    | intro _ _
    | intro _
    | (simp only [keeps_mk]; first | refine KeepsParts.of ?_)

theorem mirrorSend_keeps {s₀ : State} {s : State}
    (hk : Keeps s₀ s) : Keeps s₀ (mirrorSend s) := by
  unfold mirrorSend
  try dsimp only
  repeat' first
    | with_reducible assumption
    | dsimp only
    | with_reducible apply Keeps.put
    | with_reducible apply copySend_keeps
    | with_reducible apply pairSend_keeps
    | with_reducible apply setPair_keeps
    | split
    | intro _ _ _
    | intro _ _
    | intro _
    | (simp only [keeps_mk]; first | refine KeepsParts.of ?_)

theorem mwrRecv_keeps {s₀ : State} {r : MwrRec} {s : State}
    (hk : Keeps s₀ s) : Keeps s₀ (mwrRecv r s) := by
  unfold mwrRecv
  try dsimp only
  repeat' first
    | with_reducible assumption
    | dsimp only
    | with_reducible apply mbufStore_keeps
    | with_reducible apply setPair_keeps
    | with_reducible apply Keeps.when
    | split
    | intro _ _ _
    | intro _ _
    | intro _
    | (simp only [keeps_mk]; first | refine KeepsParts.of ?_)

theorem alignRp_keeps {s₀ : State} {r : QueueRec} {s : State}
    (hk : Keeps s₀ s) : Keeps s₀ (alignRp r s) := by
  unfold alignRp
  try dsimp only
  repeat' first
    | with_reducible assumption
    | dsimp only
    | with_reducible apply State.count_keeps
    | with_reducible apply Keeps.put
    | with_reducible apply packetHead_keeps
    | with_reducible apply queueRefresh_keeps
    | split
    | intro _ _ _
    | intro _ _
    | intro _

theorem alignRl_keeps {s₀ : State} {r : QueueRec} {s : State}
    (hk : Keeps s₀ s) : Keeps s₀ (alignRl r s) := by
  unfold alignRl
  try dsimp only
  repeat' first
    | with_reducible assumption
    | dsimp only
    | with_reducible apply release_keeps
    | split
    | intro _ _ _
    | intro _ _
    | intro _

theorem alignMark_keeps {s₀ : State} {r : QueueRec} {s : State}
    (hk : Keeps s₀ s) : Keeps s₀ (alignMark r s) := by
  unfold alignMark
  try dsimp only
  repeat' first
    | with_reducible assumption
    | dsimp only
    | with_reducible apply Keeps.put
    | split
    | intro _ _ _
    | intro _ _
    | intro _

theorem alignQueue_keeps {s₀ : State} {r : QueueRec} {s : State}
    (hk : Keeps s₀ s) : Keeps s₀ (alignQueue r s) := by
  unfold alignQueue
  try dsimp only
  repeat' first
    | with_reducible assumption
    | dsimp only
    | with_reducible apply alignMark_keeps
    | with_reducible apply alignRl_keeps
    | with_reducible apply alignRp_keeps
    | with_reducible apply pairErr_keeps
    | split
    | intro _ _ _
    | intro _ _
    | intro _

theorem compareSeq_keeps {s₀ : State} {own : List SeqRec} {r : SeqRec} {s : State}
    (hk : Keeps s₀ s) : Keeps s₀ (compareSeq own r s) := by
  unfold compareSeq
  try dsimp only
  repeat' first
    | with_reducible assumption
    | dsimp only
    | with_reducible apply Keeps.put
    | with_reducible apply pairErr_keeps
    | split
    | intro _ _ _
    | intro _ _
    | intro _

theorem epochEndRecv_keeps {s₀ : State} {e : EpochEnd} {s : State}
    (hk : Keeps s₀ s) : Keeps s₀ (epochEndRecv e s) := by
  unfold epochEndRecv
  try dsimp only
  repeat' first
    | with_reducible assumption
    | dsimp only
    | with_reducible apply digestCompare_keeps
    | with_reducible apply setPair_keeps
    | with_reducible apply Keeps.foldl
    | with_reducible apply Keeps.foldl_snd
    | split
    | intro _ _ _
    | intro _ _
    | intro _
    | (simp only [keeps_mk]; first | refine KeepsParts.of ?_)

theorem commitWrite_keeps {s₀ : State} {w : Nat} {d : Word × Bool} {m : Nat} {s : State}
    (hk : Keeps s₀ s) : Keeps s₀ (commitWrite w d m s) := by
  unfold commitWrite
  try dsimp only
  repeat' first
    | with_reducible assumption
    | dsimp only
    | with_reducible apply State.setShelf_keeps
    | split
    | intro _ _ _
    | intro _ _
    | intro _
    | (simp only [keeps_mk]; first | refine KeepsParts.of ?_)

theorem commitRecord_keeps {s₀ : State} {r : MwrRec} {s : State}
    (hk : Keeps s₀ s) : Keeps s₀ (commitRecord r s) := by
  unfold commitRecord
  try dsimp only
  repeat' first
    | with_reducible assumption
    | dsimp only
    | with_reducible apply commitWrite_keeps
    | with_reducible apply Keeps.foldl
    | with_reducible apply Keeps.foldl_snd
    | split
    | intro _ _ _
    | intro _ _
    | intro _

theorem ckptShelf_keeps {s₀ : State} {c : CkptRec} {s : State}
    (hk : Keeps s₀ s) : Keeps s₀ (ckptShelf c s) := by
  unfold ckptShelf
  try dsimp only
  repeat' first
    | with_reducible assumption
    | dsimp only
    | with_reducible apply commitWrite_keeps
    | with_reducible apply Keeps.when
    | with_reducible apply Keeps.foldl
    | with_reducible apply Keeps.foldl_snd
    | split
    | intro _ _ _
    | intro _ _
    | intro _

theorem commitAlign_keeps {s₀ : State} {e : EpochEnd} {s : State}
    (hk : Keeps s₀ s) : Keeps s₀ (commitAlign e s) := by
  unfold commitAlign
  try dsimp only
  repeat' first
    | with_reducible assumption
    | dsimp only
    | with_reducible apply alignQueue_keeps
    | with_reducible apply ckptShelf_keeps
    | with_reducible apply commitCkpts_keeps
    | with_reducible apply compareSeq_keeps
    | with_reducible apply setPair_keeps
    | with_reducible apply Keeps.foldl
    | with_reducible apply Keeps.foldl_snd
    | split
    | intro _ _ _
    | intro _ _
    | intro _
    | (simp only [keeps_mk]; first | refine KeepsParts.of ?_)

theorem commitEnd_keeps {s₀ : State} {e : EpochEnd} {s : State}
    (hk : Keeps s₀ s) : Keeps s₀ (commitEnd e s) := by
  unfold commitEnd
  try dsimp only
  repeat' first
    | with_reducible assumption
    | dsimp only
    | with_reducible apply Keeps.put
    | with_reducible apply State.setIrq_keeps
    | with_reducible apply commit_keeps
    | with_reducible apply commitCkpts_keeps
    | with_reducible apply copyEnd_keeps
    | with_reducible apply setPair_keeps
    | with_reducible apply setPairState_keeps
    | with_reducible apply Keeps.when
    | with_reducible apply Keeps.foldl
    | with_reducible apply Keeps.foldl_snd
    | split
    | intro _ _ _
    | intro _ _
    | intro _
    | (simp only [keeps_mk]; first | refine KeepsParts.of ?_)

theorem commitCkpts_keeps {s₀ : State} {e : EpochEnd} {s : State}
    (hk : Keeps s₀ s) : Keeps s₀ (commitCkpts e s) := by
  unfold commitCkpts
  try dsimp only
  repeat' first
    | with_reducible assumption
    | dsimp only
    | with_reducible apply commitEnd_keeps
    | with_reducible refine wireAsk_keeps (by assumption) ?_
    | with_reducible apply wireAsk_keeps_snd
    | with_reducible apply wireEnd_keeps
    | with_reducible apply wireRewind_keeps
    | split
    | intro _ _ _
    | intro _ _
    | intro _
    | (simp only [keeps_mk]; first | refine KeepsParts.of ?_)

theorem commitFinish_keeps {s₀ : State} {s : State}
    (hk : Keeps s₀ s) : Keeps s₀ (commitFinish s) := by
  unfold commitFinish
  try dsimp only
  repeat' first
    | with_reducible assumption
    | dsimp only
    | with_reducible apply commitAlign_keeps
    | with_reducible apply commitCkpts_keeps
    | split
    | intro _ _ _
    | intro _ _
    | intro _
    | (simp only [keeps_mk]; first | refine KeepsParts.of ?_)

theorem commitBegin_keeps {s₀ : State} {e : EpochEnd} {s : State}
    (hk : Keeps s₀ s) : Keeps s₀ (commitBegin e s) := by
  unfold commitBegin
  try dsimp only
  repeat' first
    | with_reducible assumption
    | dsimp only
    | with_reducible apply commit_keeps
    | with_reducible apply commitFinish_keeps
    | with_reducible apply commitRecord_keeps
    | with_reducible apply setPair_keeps
    | with_reducible apply wireEnd_keeps
    | with_reducible apply Keeps.foldl
    | with_reducible apply Keeps.foldl_snd
    | split
    | intro _ _ _
    | intro _ _
    | intro _
    | (simp only [keeps_mk]; first | refine KeepsParts.of ?_)

theorem commit_keeps {s₀ : State} {s : State}
    (hk : Keeps s₀ s) : Keeps s₀ (commit s) := by
  unfold commit
  try dsimp only
  repeat' first
    | with_reducible assumption
    | dsimp only
    | with_reducible apply commitBegin_keeps
    | with_reducible apply commitFinish_keeps
    | split
    | intro _ _ _
    | intro _ _
    | intro _
    | (simp only [keeps_mk]; first | refine KeepsParts.of ?_)

theorem resyncReqRecv_keeps {s₀ : State} {s : State}
    (hk : Keeps s₀ s) : Keeps s₀ (resyncReqRecv s) := by
  unfold resyncReqRecv
  try dsimp only
  repeat' first
    | with_reducible assumption
    | dsimp only
    | with_reducible apply copyEnd_keeps
    | with_reducible apply fullCopy_keeps
    | with_reducible apply setPair_keeps
    | with_reducible apply setPairState_keeps
    | split
    | intro _ _ _
    | intro _ _
    | intro _
    | (simp only [keeps_mk]; first | refine KeepsParts.of ?_)

theorem resyncDoneRecv_keeps {s₀ : State} {s : State}
    (hk : Keeps s₀ s) : Keeps s₀ (resyncDoneRecv s) := by
  unfold resyncDoneRecv
  try dsimp only
  repeat' first
    | with_reducible assumption
    | dsimp only
    | with_reducible apply copyEnd_keeps
    | with_reducible apply setPair_keeps
    | with_reducible apply Keeps.when
    | split
    | intro _ _ _
    | intro _ _
    | intro _
    | (simp only [keeps_mk]; first | refine KeepsParts.of ?_)

theorem ckptPost_keeps {s₀ : State} {k : Nat} {s : State}
    (hk : Keeps s₀ s) : Keeps s₀ (ckptPost k s) := by
  unfold ckptPost
  try dsimp only
  repeat' first
    | with_reducible assumption
    | dsimp only
    | with_reducible apply Keeps.put
    | with_reducible apply State.setIrq_keeps
    | with_reducible apply wireEnd_keeps
    | split
    | intro _ _ _
    | intro _ _
    | intro _

theorem ckptJoin_keeps {s₀ : State} {c : CkptRec} {s : State}
    (hk : Keeps s₀ s) : Keeps s₀ (ckptJoin c s) := by
  unfold ckptJoin
  try dsimp only
  repeat' first
    | with_reducible assumption
    | dsimp only
    | with_reducible apply mbufStore_keeps
    | with_reducible apply mirrorBreak_keeps
    | with_reducible apply setPair_keeps
    | split
    | intro _ _ _
    | intro _ _
    | intro _
    | (simp only [keeps_mk]; first | refine KeepsParts.of ?_)

theorem ckptDone_keeps {s₀ : State} {k : Nat} {s : State}
    (hk : Keeps s₀ s) : Keeps s₀ (ckptDone k s) := by
  unfold ckptDone
  try dsimp only
  repeat' first
    | with_reducible assumption
    | dsimp only
    | with_reducible apply Keeps.put
    | with_reducible apply State.setIrq_keeps
    | with_reducible apply ckptJoin_keeps
    | with_reducible refine wireAsk_keeps (by assumption) ?_
    | with_reducible apply wireAsk_keeps_snd
    | with_reducible apply wireEnd_keeps
    | with_reducible apply wireRewind_keeps
    | split
    | intro _ _ _
    | intro _ _
    | intro _
    | (simp only [keeps_mk]; first | refine KeepsParts.of ?_)

theorem becomeActive_keeps {s₀ : State} {s : State}
    (hk : Keeps s₀ s) : Keeps s₀ (becomeActive s) := by
  unfold becomeActive
  try dsimp only
  repeat' first
    | with_reducible assumption
    | dsimp only
    | with_reducible apply Keeps.put
    | with_reducible apply copyEnd_keeps
    | with_reducible apply setPair_keeps
    | with_reducible apply setPairState_keeps
    | with_reducible apply Keeps.when
    | split
    | intro _ _ _
    | intro _ _
    | intro _
    | (simp only [keeps_mk]; first | refine KeepsParts.of ?_)

theorem epochBeat_keeps {s₀ : State} {b : BeatRec} {s : State}
    (hk : Keeps s₀ s) : Keeps s₀ (epochBeat b s) := by
  unfold epochBeat
  try dsimp only
  repeat' first
    | with_reducible assumption
    | dsimp only
    | with_reducible apply Keeps.put
    | with_reducible apply becomeActive_keeps
    | with_reducible apply epochTake_keeps
    | with_reducible apply lossHandle_keeps
    | with_reducible apply pairSend_keeps
    | with_reducible apply setPair_keeps
    | with_reducible apply setPairState_keeps
    | with_reducible apply stepdown_keeps
    | with_reducible apply swap_keeps
    | with_reducible apply takeover_keeps
    | with_reducible apply Keeps.when
    | with_reducible apply Keeps.each
    | split
    | intro _ _ _
    | intro _ _
    | intro _
    | (simp only [keeps_mk]; first | refine KeepsParts.of ?_)

theorem takeoverBeat_keeps {s₀ : State} {s : State}
    (hk : Keeps s₀ s) : Keeps s₀ (takeoverBeat s) := by
  unfold takeoverBeat
  try dsimp only
  repeat' first
    | with_reducible assumption
    | dsimp only
    | with_reducible apply becomeActive_keeps
    | with_reducible apply takeover_keeps
    | split
    | intro _ _ _
    | intro _ _
    | intro _

theorem cmdRefused_keeps {s₀ : State} {s : State}
    (hk : Keeps s₀ s) : Keeps s₀ (cmdRefused s) := by
  unfold cmdRefused
  try dsimp only
  repeat' first
    | with_reducible assumption
    | dsimp only
    | with_reducible apply Keeps.put
    | split
    | intro _ _ _
    | intro _ _
    | intro _

theorem swap_keeps {s₀ : State} {received : Bool} {s : State}
    (hk : Keeps s₀ s) : Keeps s₀ (swap received s) := by
  unfold swap
  try dsimp only
  repeat' first
    | with_reducible assumption
    | dsimp only
    | with_reducible apply cmdRefused_keeps
    | with_reducible apply decideTakeover_keeps
    | with_reducible apply setPair_keeps
    | with_reducible apply Keeps.when
    | split
    | intro _ _ _
    | intro _ _
    | intro _
    | (simp only [keeps_mk]; first | refine KeepsParts.of ?_)

theorem takeover_keeps {s₀ : State} {s : State}
    (hk : Keeps s₀ s) : Keeps s₀ (takeover s) := by
  unfold takeover
  try dsimp only
  repeat' first
    | with_reducible assumption
    | dsimp only
    | with_reducible apply cmdRefused_keeps
    | with_reducible apply decideTakeover_keeps
    | with_reducible apply pairSend_keeps
    | with_reducible apply stepdown_keeps
    | split
    | intro _ _ _
    | intro _ _
    | intro _

theorem stepdown_keeps {s₀ : State} {s : State}
    (hk : Keeps s₀ s) : Keeps s₀ (stepdown s) := by
  unfold stepdown
  try dsimp only
  repeat' first
    | with_reducible assumption
    | dsimp only
    | with_reducible apply cmdRefused_keeps
    | with_reducible apply setPair_keeps
    | split
    | intro _ _ _
    | intro _ _
    | intro _
    | (simp only [keeps_mk]; first | refine KeepsParts.of ?_)

theorem resync_keeps {s₀ : State} {s : State}
    (hk : Keeps s₀ s) : Keeps s₀ (resync s) := by
  unfold resync
  try dsimp only
  repeat' first
    | with_reducible assumption
    | dsimp only
    | with_reducible apply cmdRefused_keeps
    | with_reducible apply pairSend_keeps
    | with_reducible apply setPairState_keeps
    | split
    | intro _ _ _
    | intro _ _
    | intro _

theorem pairCmdWrite_keeps {s₀ : State} {v : Word} {s : State}
    (hk : Keeps s₀ s) : Keeps s₀ (pairCmdWrite v s) := by
  unfold pairCmdWrite
  try dsimp only
  repeat' first
    | with_reducible assumption
    | dsimp only
    | with_reducible apply resync_keeps
    | with_reducible apply stepdown_keeps
    | with_reducible apply swap_keeps
    | with_reducible apply takeover_keeps
    | with_reducible apply Keeps.when
    | split
    | intro _ _ _
    | intro _ _
    | intro _

theorem pairLinkUp_keeps {s₀ : State} {s : State}
    (hk : Keeps s₀ s) : Keeps s₀ (pairLinkUp s) := by
  unfold pairLinkUp
  try dsimp only
  repeat' first
    | with_reducible assumption
    | dsimp only
    | with_reducible apply Keeps.put
    | with_reducible apply setPair_keeps
    | split
    | intro _ _ _
    | intro _ _
    | intro _
    | (simp only [keeps_mk]; first | refine KeepsParts.of ?_)

theorem cellRetransmit_keeps {s₀ : State} {again : Bool} {s : State}
    (hk : Keeps s₀ s) : Keeps s₀ (cellRetransmit again s) := by
  unfold cellRetransmit
  try dsimp only
  repeat' first
    | with_reducible assumption
    | dsimp only
    | with_reducible apply pairLinkDown_keeps
    | with_reducible apply setPair_keeps
    | split
    | intro _ _ _
    | intro _ _
    | intro _
    | (simp only [keeps_mk]; first | refine KeepsParts.of ?_)

end Sys2Proof.Machine
end

