-- ==== Sys2Proof/Laws/KeepsLanes.lean ====
section
/-! SUPPORT. What the operations of Machine/Lanes.lean keep (Laws/Keeps.lean). -/

namespace Sys2Proof.Machine

open Sys2Proof

theorem State.setCxp_keeps {s₀ : State} {s : State} {g j : Nat} {x : CxpLink}
    (hk : Keeps s₀ s) : Keeps s₀ (State.setCxp s g j x) := by
  unfold State.setCxp
  try dsimp only
  repeat' first
    | with_reducible assumption
    | dsimp only
    | split
    | intro _ _ _
    | intro _ _
    | intro _
    | (simp only [keeps_mk]; first | refine KeepsParts.of ?_)

theorem State.setGv_keeps {s₀ : State} {s : State} {c j : Nat} {x : GvSrc}
    (hk : Keeps s₀ s) : Keeps s₀ (State.setGv s c j x) := by
  unfold State.setGv
  try dsimp only
  repeat' first
    | with_reducible assumption
    | dsimp only
    | split
    | intro _ _ _
    | intro _ _
    | intro _
    | (simp only [keeps_mk]; first | refine KeepsParts.of ?_)

theorem State.setEthCl_keeps {s₀ : State} {s : State} {c : Nat} {x : EthCl}
    (hk : Keeps s₀ s) : Keeps s₀ (State.setEthCl s c x) := by
  unfold State.setEthCl
  try dsimp only
  repeat' first
    | with_reducible assumption
    | dsimp only
    | split
    | intro _ _ _
    | intro _ _
    | intro _
    | (simp only [keeps_mk]; first | refine KeepsParts.of ?_)

theorem putLineWord_keeps {s₀ : State} {k : LineCfg} {i : Nat} {w : SWord} {s : State}
    (hk : Keeps s₀ s) : Keeps s₀ (putLineWord k i w s) := by
  unfold putLineWord
  try dsimp only
  repeat' first
    | with_reducible assumption
    | dsimp only
    | with_reducible apply laneWrite_keeps
    | split
    | intro _ _ _
    | intro _ _
    | intro _

theorem putAll_keeps {s₀ : State} {k : LineCfg} {l : List (Nat × SWord)} {s : State}
    (hk : Keeps s₀ s) : Keeps s₀ (putAll k l s) := by
  unfold putAll
  try dsimp only
  repeat' first
    | with_reducible assumption
    | dsimp only
    | with_reducible apply putLineWord_keeps
    | with_reducible apply Keeps.foldl
    | with_reducible apply Keeps.foldl_snd
    | split
    | intro _ _ _
    | intro _ _
    | intro _

theorem lineWord_keeps_snd {s₀ : State} {k : LineCfg} {d : Word} {p : Bool} {x : LineSrc} {s : State}
    (hk : Keeps s₀ s) : Keeps s₀ (lineWord k d p x s).2 := by
  unfold lineWord
  try dsimp only
  repeat' first
    | with_reducible assumption
    | dsimp only
    | with_reducible apply putAll_keeps
    | split
    | intro _ _ _
    | intro _ _
    | intro _
    | (simp only [keeps_mk]; first | refine KeepsParts.of ?_)

theorem lineWord_keeps {s₀ : State} {k : LineCfg} {d : Word} {p : Bool} {x : LineSrc} {s : State} {y₁ t₁} (e₁ : lineWord k d p x s = (y₁, t₁))
    (hk : Keeps s₀ s) : Keeps s₀ t₁ := by
  have k := lineWord_keeps_snd (s₀ := s₀) (k := k) (d := d) (p := p) (x := x) (s := s) hk
  rw [e₁] at k
  exact k

theorem lineItem_keeps_snd {s₀ : State} {k : LineCfg} {v : BitVec 16} {p : Bool} {x : LineSrc} {s : State}
    (hk : Keeps s₀ s) : Keeps s₀ (lineItem k v p x s).2 := by
  unfold lineItem
  try dsimp only
  repeat' first
    | with_reducible assumption
    | dsimp only
    | with_reducible refine lineWord_keeps (by assumption) ?_
    | with_reducible apply lineWord_keeps_snd
    | split
    | intro _ _ _
    | intro _ _
    | intro _
    | (simp only [keeps_mk]; first | refine KeepsParts.of ?_)

theorem lineItem_keeps {s₀ : State} {k : LineCfg} {v : BitVec 16} {p : Bool} {x : LineSrc} {s : State} {y₁ t₁} (e₁ : lineItem k v p x s = (y₁, t₁))
    (hk : Keeps s₀ s) : Keeps s₀ t₁ := by
  have k := lineItem_keeps_snd (s₀ := s₀) (k := k) (v := v) (p := p) (x := x) (s := s) hk
  rw [e₁] at k
  exact k

theorem lineByte_keeps_snd {s₀ : State} {k : LineCfg} {b : Byte} {p : Bool} {x : LineSrc} {s : State}
    (hk : Keeps s₀ s) : Keeps s₀ (lineByte k b p x s).2 := by
  unfold lineByte
  try dsimp only
  repeat' first
    | with_reducible assumption
    | dsimp only
    | with_reducible refine lineItem_keeps (by assumption) ?_
    | with_reducible apply lineItem_keeps_snd
    | split
    | intro _ _ _
    | intro _ _
    | intro _
    | (simp only [keeps_mk]; first | refine KeepsParts.of ?_)

theorem lineByte_keeps {s₀ : State} {k : LineCfg} {b : Byte} {p : Bool} {x : LineSrc} {s : State} {y₁ t₁} (e₁ : lineByte k b p x s = (y₁, t₁))
    (hk : Keeps s₀ s) : Keeps s₀ t₁ := by
  have k := lineByte_keeps_snd (s₀ := s₀) (k := k) (b := b) (p := p) (x := x) (s := s) hk
  rw [e₁] at k
  exact k

theorem lineFill_keeps_snd {s₀ : State} {k : LineCfg} {x : LineSrc} {s : State}
    (hk : Keeps s₀ s) : Keeps s₀ (lineFill k x s).2 := by
  unfold lineFill
  try dsimp only
  repeat' first
    | with_reducible assumption
    | dsimp only
    | with_reducible refine lineWord_keeps (by assumption) ?_
    | with_reducible apply lineWord_keeps_snd
    | split
    | intro _ _ _
    | intro _ _
    | intro _
    | (simp only [keeps_mk]; first | refine KeepsParts.of ?_)

theorem lineFill_keeps {s₀ : State} {k : LineCfg} {x : LineSrc} {s : State} {y₁ t₁} (e₁ : lineFill k x s = (y₁, t₁))
    (hk : Keeps s₀ s) : Keeps s₀ t₁ := by
  have k := lineFill_keeps_snd (s₀ := s₀) (k := k) (x := x) (s := s) hk
  rw [e₁] at k
  exact k

theorem linePad_keeps_snd {s₀ : State} {k : LineCfg} {x0 : Nat} {x1 : LineSrc} {s : State}
    (hk : Keeps s₀ s) : Keeps s₀ (linePad k x0 x1 s).2 := by
  induction x0 generalizing k x1 s with
  | zero =>
    simp only [linePad]
    repeat' first
      | with_reducible assumption
      | with_reducible apply ih
      | dsimp only
      | with_reducible refine lineWord_keeps (by assumption) ?_
      | with_reducible apply lineWord_keeps_snd
      | split
      | intro _ _ _
      | intro _ _
      | intro _
  | succ n ih =>
    simp only [linePad]
    repeat' first
      | with_reducible assumption
      | with_reducible apply ih
      | dsimp only
      | with_reducible refine lineWord_keeps (by assumption) ?_
      | with_reducible apply lineWord_keeps_snd
      | split
      | intro _ _ _
      | intro _ _
      | intro _

theorem linePad_keeps {s₀ : State} {k : LineCfg} {x0 : Nat} {x1 : LineSrc} {s : State} {y₁ t₁} (e₁ : linePad k x0 x1 s = (y₁, t₁))
    (hk : Keeps s₀ s) : Keeps s₀ t₁ := by
  have k := linePad_keeps_snd (s₀ := s₀) (k := k) (x0 := x0) (x1 := x1) (s := s) hk
  rw [e₁] at k
  exact k

theorem lineCairn_keeps {s₀ : State} {k : LineCfg} {cause : Nat} {count : Nat → Nat} {s : State}
    (hk : Keeps s₀ s) : Keeps s₀ (lineCairn k cause count s) := by
  unfold lineCairn
  try dsimp only
  repeat' first
    | with_reducible assumption
    | dsimp only
    | with_reducible apply laneWrite_keeps
    | with_reducible apply Keeps.each
    | split
    | intro _ _ _
    | intro _ _
    | intro _

theorem lineFlush_keeps_snd {s₀ : State} {k : LineCfg} {x : LineSrc} {s : State}
    (hk : Keeps s₀ s) : Keeps s₀ (lineFlush k x s).2 := by
  unfold lineFlush
  try dsimp only
  repeat' first
    | with_reducible assumption
    | dsimp only
    | with_reducible refine lineFill_keeps (by assumption) ?_
    | with_reducible apply lineFill_keeps_snd
    | with_reducible apply putAll_keeps
    | split
    | intro _ _ _
    | intro _ _
    | intro _
    | (simp only [keeps_mk]; first | refine KeepsParts.of ?_)

theorem lineFlush_keeps {s₀ : State} {k : LineCfg} {x : LineSrc} {s : State} {y₁ t₁} (e₁ : lineFlush k x s = (y₁, t₁))
    (hk : Keeps s₀ s) : Keeps s₀ t₁ := by
  have k := lineFlush_keeps_snd (s₀ := s₀) (k := k) (x := x) (s := s) hk
  rw [e₁] at k
  exact k

theorem lineEnd_keeps_snd {s₀ : State} {k : LineCfg} {linew : Nat} {x : LineSrc} {s : State}
    (hk : Keeps s₀ s) : Keeps s₀ (lineEnd k linew x s).2.2 := by
  unfold lineEnd
  try dsimp only
  repeat' first
    | with_reducible assumption
    | dsimp only
    | with_reducible apply lineCairn_keeps
    | with_reducible refine lineFill_keeps (by assumption) ?_
    | with_reducible apply lineFill_keeps_snd
    | with_reducible refine linePad_keeps (by assumption) ?_
    | with_reducible apply linePad_keeps_snd
    | with_reducible apply putAll_keeps
    | split
    | intro _ _ _
    | intro _ _
    | intro _
    | (simp only [keeps_mk]; first | refine KeepsParts.of ?_)

theorem lineEnd_keeps {s₀ : State} {k : LineCfg} {linew : Nat} {x : LineSrc} {s : State} {y₁ y₂ t₁} (e₁ : lineEnd k linew x s = (y₁, y₂, t₁))
    (hk : Keeps s₀ s) : Keeps s₀ t₁ := by
  have k := lineEnd_keeps_snd (s₀ := s₀) (k := k) (linew := linew) (x := x) (s := s) hk
  rw [e₁] at k
  exact k

theorem lineLost_keeps_snd {s₀ : State} {k : LineCfg} {cause : Nat} {n : Option Nat} {x : LineSrc} {s : State}
    (hk : Keeps s₀ s) : Keeps s₀ (lineLost k cause n x s).2 := by
  unfold lineLost
  try dsimp only
  repeat' first
    | with_reducible assumption
    | dsimp only
    | with_reducible apply lineCairn_keeps
    | with_reducible refine lineFlush_keeps (by assumption) ?_
    | with_reducible apply lineFlush_keeps_snd
    | split
    | intro _ _ _
    | intro _ _
    | intro _
    | (simp only [keeps_mk]; first | refine KeepsParts.of ?_)

theorem lineLost_keeps {s₀ : State} {k : LineCfg} {cause : Nat} {n : Option Nat} {x : LineSrc} {s : State} {y₁ t₁} (e₁ : lineLost k cause n x s = (y₁, t₁))
    (hk : Keeps s₀ s) : Keeps s₀ t₁ := by
  have k := lineLost_keeps_snd (s₀ := s₀) (k := k) (cause := cause) (n := n) (x := x) (s := s) hk
  rw [e₁] at k
  exact k

theorem lineBroken_keeps_snd {s₀ : State} {k : LineCfg} {x : LineSrc} {s : State}
    (hk : Keeps s₀ s) : Keeps s₀ (lineBroken k x s).2 := by
  unfold lineBroken
  try dsimp only
  repeat' first
    | with_reducible assumption
    | dsimp only
    | with_reducible apply lineCairn_keeps
    | with_reducible refine lineFlush_keeps (by assumption) ?_
    | with_reducible apply lineFlush_keeps_snd
    | split
    | intro _ _ _
    | intro _ _
    | intro _
    | (simp only [keeps_mk]; first | refine KeepsParts.of ?_)

theorem lineBroken_keeps {s₀ : State} {k : LineCfg} {x : LineSrc} {s : State} {y₁ t₁} (e₁ : lineBroken k x s = (y₁, t₁))
    (hk : Keeps s₀ s) : Keeps s₀ t₁ := by
  have k := lineBroken_keeps_snd (s₀ := s₀) (k := k) (x := x) (s := s) hk
  rw [e₁] at k
  exact k

theorem relock_keeps {s₀ : State} {g : Nat} {s : State}
    (hk : Keeps s₀ s) : Keeps s₀ (relock g s) := by
  unfold relock
  try dsimp only
  repeat' first
    | with_reducible assumption
    | dsimp only
    | with_reducible apply State.putB_keeps
    | split
    | intro _ _ _
    | intro _ _
    | intro _

theorem leaveLowPower_keeps {s₀ : State} {g : Nat} {s : State}
    (hk : Keeps s₀ s) : Keeps s₀ (leaveLowPower g s) := by
  unfold leaveLowPower
  try dsimp only
  repeat' first
    | with_reducible assumption
    | dsimp only
    | with_reducible apply Keeps.put
    | with_reducible apply relock_keeps
    | split
    | intro _ _ _
    | intro _ _
    | intro _

theorem linksRefresh_keeps {s₀ : State} {g : Nat} {s : State}
    (hk : Keeps s₀ s) : Keeps s₀ (linksRefresh g s) := by
  unfold linksRefresh
  try dsimp only
  repeat' first
    | with_reducible assumption
    | dsimp only
    | with_reducible apply State.putB_keeps
    | with_reducible apply Keeps.each
    | split
    | intro _ _ _
    | intro _ _
    | intro _

theorem setReady_keeps {s₀ : State} {g f : Nat} {r : Bool} {s : State}
    (hk : Keeps s₀ s) : Keeps s₀ (setReady g f r s) := by
  unfold setReady
  try dsimp only
  repeat' first
    | with_reducible assumption
    | dsimp only
    | with_reducible apply Keeps.put
    | with_reducible apply State.putB_keeps
    | with_reducible apply linksRefresh_keeps
    | split
    | intro _ _ _
    | intro _ _
    | intro _

theorem linesBreak_keeps {s₀ : State} {g f : Nat} {s : State}
    (hk : Keeps s₀ s) : Keeps s₀ (linesBreak g f s) := by
  unfold linesBreak
  try dsimp only
  repeat' first
    | with_reducible assumption
    | dsimp only
    | with_reducible apply State.setCxp_keeps
    | with_reducible apply State.setGv_keeps
    | with_reducible refine lineBroken_keeps (by assumption) ?_
    | with_reducible apply lineBroken_keeps_snd
    | with_reducible apply Keeps.each
    | split
    | intro _ _ _
    | intro _ _
    | intro _
    | (simp only [keeps_mk]; first | refine KeepsParts.of ?_)

theorem ethLinkSet_keeps {s₀ : State} {c p : Nat} {up : Bool} {s : State}
    (hk : Keeps s₀ s) : Keeps s₀ (ethLinkSet c p up s) := by
  unfold ethLinkSet
  try dsimp only
  repeat' first
    | with_reducible assumption
    | dsimp only
    | with_reducible apply State.irq_keeps
    | with_reducible apply Keeps.put
    | split
    | intro _ _ _
    | intro _ _
    | intro _

theorem ethLaneLost_keeps {s₀ : State} {g f : Nat} {s : State}
    (hk : Keeps s₀ s) : Keeps s₀ (ethLaneLost g f s) := by
  unfold ethLaneLost
  try dsimp only
  repeat' first
    | with_reducible assumption
    | dsimp only
    | with_reducible apply ethLinkSet_keeps
    | with_reducible apply Keeps.when
    | with_reducible apply Keeps.each
    | split
    | intro _ _ _
    | intro _ _
    | intro _

theorem laneRetrain_keeps {s₀ : State} {g f : Nat} {s : State}
    (hk : Keeps s₀ s) : Keeps s₀ (laneRetrain g f s) := by
  unfold laneRetrain
  try dsimp only
  repeat' first
    | with_reducible assumption
    | dsimp only
    | with_reducible apply ethLaneLost_keeps
    | with_reducible apply linesBreak_keeps
    | with_reducible apply setReady_keeps
    | split
    | intro _ _ _
    | intro _ _
    | intro _
    | (simp only [keeps_mk]; first | refine KeepsParts.of ?_)

theorem lowPower_keeps {s₀ : State} {g : Nat} {s : State}
    (hk : Keeps s₀ s) : Keeps s₀ (lowPower g s) := by
  unfold lowPower
  try dsimp only
  repeat' first
    | with_reducible assumption
    | dsimp only
    | with_reducible apply Keeps.put
    | with_reducible apply linesBreak_keeps
    | with_reducible apply pairLinkDown_keeps
    | with_reducible apply Keeps.when
    | with_reducible apply Keeps.each
    | split
    | intro _ _ _
    | intro _ _
    | intro _

theorem grpCtlWrite_keeps {s₀ : State} {g : Nat} {v : Word} {s : State}
    (hk : Keeps s₀ s) : Keeps s₀ (grpCtlWrite g v s) := by
  unfold grpCtlWrite
  try dsimp only
  repeat' first
    | with_reducible assumption
    | dsimp only
    | with_reducible apply Keeps.put
    | with_reducible apply State.setIrq_keeps
    | with_reducible apply laneRetrain_keeps
    | with_reducible apply leaveLowPower_keeps
    | with_reducible apply lowPower_keeps
    | with_reducible apply pairLinkDown_keeps
    | with_reducible apply Keeps.when
    | with_reducible apply Keeps.each
    | split
    | intro _ _ _
    | intro _ _
    | intro _

theorem groupWake_keeps {s₀ : State} {g : Nat} {s : State}
    (hk : Keeps s₀ s) : Keeps s₀ (groupWake g s) := by
  unfold groupWake
  try dsimp only
  repeat' first
    | with_reducible assumption
    | dsimp only
    | with_reducible apply State.setIrq_keeps
    | with_reducible apply leaveLowPower_keeps
    | split
    | intro _ _ _
    | intro _ _
    | intro _

theorem adapt_keeps {s₀ : State} {g f : Nat} {s : State}
    (hk : Keeps s₀ s) : Keeps s₀ (adapt g f s) := by
  unfold adapt
  try dsimp only
  repeat' first
    | with_reducible assumption
    | dsimp only
    | with_reducible refine Keeps.nextFree (by assumption) ?_
    | with_reducible apply Keeps.nextFree_snd
    | with_reducible apply Keeps.nextFree_snd
    | with_reducible apply Keeps.put
    | with_reducible apply Keeps.when
    | split
    | intro _ _ _
    | intro _ _
    | intro _
    | (simp only [keeps_mk]; first | refine KeepsParts.of ?_)

theorem pllsLock_keeps {s₀ : State} {g f : Nat} {s : State}
    (hk : Keeps s₀ s) : Keeps s₀ (pllsLock g f s) := by
  unfold pllsLock
  try dsimp only
  repeat' first
    | with_reducible assumption
    | dsimp only
    | with_reducible apply Keeps.put
    | with_reducible apply Keeps.when
    | split
    | intro _ _ _
    | intro _ _
    | intro _

theorem laneReady_keeps {s₀ : State} {g f : Nat} {s : State}
    (hk : Keeps s₀ s) : Keeps s₀ (laneReady g f s) := by
  unfold laneReady
  try dsimp only
  repeat' first
    | with_reducible assumption
    | dsimp only
    | with_reducible apply adapt_keeps
    | with_reducible apply pllsLock_keeps
    | with_reducible apply setReady_keeps
    | split
    | intro _ _ _
    | intro _ _
    | intro _

theorem laneBreaks_keeps {s₀ : State} {g f : Nat} {s : State}
    (hk : Keeps s₀ s) : Keeps s₀ (laneBreaks g f s) := by
  unfold laneBreaks
  try dsimp only
  repeat' first
    | with_reducible assumption
    | dsimp only
    | with_reducible apply State.setIrq_keeps
    | with_reducible apply linesBreak_keeps
    | with_reducible apply Keeps.when
    | with_reducible apply Keeps.each
    | split
    | intro _ _ _
    | intro _ _
    | intro _

theorem laneLos_keeps {s₀ : State} {g f : Nat} {s : State}
    (hk : Keeps s₀ s) : Keeps s₀ (laneLos g f s) := by
  unfold laneLos
  try dsimp only
  repeat' first
    | with_reducible assumption
    | dsimp only
    | with_reducible apply State.setIrq_keeps
    | with_reducible apply ethLaneLost_keeps
    | with_reducible apply laneBreaks_keeps
    | with_reducible apply pairLinkDown_keeps
    | with_reducible apply setReady_keeps
    | with_reducible apply Keeps.when
    | split
    | intro _ _ _
    | intro _ _
    | intro _

theorem signalDetect_keeps {s₀ : State} {g f : Nat} {x : LaneSignal} {s : State}
    (hk : Keeps s₀ s) : Keeps s₀ (signalDetect g f x s) := by
  unfold signalDetect
  try dsimp only
  repeat' first
    | with_reducible assumption
    | dsimp only
    | with_reducible apply State.count_keeps
    | with_reducible apply Keeps.put
    | with_reducible apply Keeps.when
    | split
    | intro _ _ _
    | intro _ _
    | intro _

theorem cxpLineEnd_keeps {s₀ : State} {g j : Nat} {s : State}
    (hk : Keeps s₀ s) : Keeps s₀ (cxpLineEnd g j s) := by
  unfold cxpLineEnd
  try dsimp only
  repeat' first
    | with_reducible assumption
    | dsimp only
    | with_reducible apply State.count_keeps
    | with_reducible apply State.setCxp_keeps
    | with_reducible refine lineEnd_keeps (by assumption) ?_
    | with_reducible apply lineEnd_keeps_snd
    | split
    | intro _ _ _
    | intro _ _
    | intro _
    | (simp only [keeps_mk]; first | refine KeepsParts.of ?_)

theorem cxpByte_keeps {s₀ : State} {g j : Nat} {b : Byte} {p : Bool} {s : State}
    (hk : Keeps s₀ s) : Keeps s₀ (cxpByte g j b p s) := by
  unfold cxpByte
  try dsimp only
  repeat' first
    | with_reducible assumption
    | dsimp only
    | with_reducible apply State.setCxp_keeps
    | with_reducible refine lineByte_keeps (by assumption) ?_
    | with_reducible apply lineByte_keeps_snd
    | split
    | intro _ _ _
    | intro _ _
    | intro _
    | (simp only [keeps_mk]; first | refine KeepsParts.of ?_)

theorem cxpItems_keeps {s₀ : State} {g j : Nat} {p : Bool} {l : List CxpItem} {s : State}
    (hk : Keeps s₀ s) : Keeps s₀ (cxpItems g j p l s) := by
  induction l generalizing s with
  | nil => exact hk
  | cons i l ih =>
    cases i with
    | image f => exact ih (State.setCxp_keeps hk)
    | start => exact ih (State.setCxp_keeps (cxpLineEnd_keeps hk))
    | byte b => exact ih (cxpByte_keeps hk)
    | eol => exact ih (cxpLineEnd_keeps hk)

theorem cxpLost_keeps {s₀ : State} {g j cause : Nat} {n : Option Nat} {s : State}
    (hk : Keeps s₀ s) : Keeps s₀ (cxpLost g j cause n s) := by
  unfold cxpLost
  try dsimp only
  repeat' first
    | with_reducible assumption
    | dsimp only
    | with_reducible apply State.setCxp_keeps
    | with_reducible refine lineLost_keeps (by assumption) ?_
    | with_reducible apply lineLost_keeps_snd
    | split
    | intro _ _ _
    | intro _ _
    | intro _
    | (simp only [keeps_mk]; first | refine KeepsParts.of ?_)

theorem cxpTake_keeps {s₀ : State} {g j : Nat} {q : CxpPkt} {s : State}
    (hk : Keeps s₀ s) : Keeps s₀ (cxpTake g j q s) := by
  unfold cxpTake
  try dsimp only
  repeat' first
    | with_reducible assumption
    | dsimp only
    | with_reducible apply State.count_keeps
    | with_reducible apply State.irq_keeps
    | with_reducible apply State.setCxp_keeps
    | with_reducible apply cxpItems_keeps
    | with_reducible apply cxpLost_keeps
    | with_reducible apply Keeps.when
    | split
    | intro _ _ _
    | intro _ _
    | intro _
    | (simp only [keeps_mk]; first | refine KeepsParts.of ?_)

theorem cxpDrain_keeps {s₀ : State} {g j : Nat} {x0 : Nat} {s : State}
    (hk : Keeps s₀ s) : Keeps s₀ (cxpDrain g j x0 s) := by
  induction x0 generalizing g j s with
  | zero =>
    simp only [cxpDrain]
    repeat' first
      | with_reducible assumption
      | with_reducible apply ih
      | dsimp only
      | with_reducible apply State.setCxp_keeps
      | with_reducible apply cxpTake_keeps
      | split
      | intro _ _ _
      | intro _ _
      | intro _
      | (simp only [keeps_mk]; first | refine KeepsParts.of ?_)
  | succ n ih =>
    simp only [cxpDrain]
    repeat' first
      | with_reducible assumption
      | with_reducible apply ih
      | dsimp only
      | with_reducible apply State.setCxp_keeps
      | with_reducible apply cxpTake_keeps
      | split
      | intro _ _ _
      | intro _ _
      | intro _
      | (simp only [keeps_mk]; first | refine KeepsParts.of ?_)

theorem cxpStream_keeps {s₀ : State} {g j id : Nat} {q : CxpPkt} {s : State}
    (hk : Keeps s₀ s) : Keeps s₀ (cxpStream g j id q s) := by
  unfold cxpStream
  try dsimp only
  repeat' first
    | with_reducible assumption
    | dsimp only
    | with_reducible apply State.count_keeps
    | with_reducible apply State.setCxp_keeps
    | with_reducible apply cxpDrain_keeps
    | dsimp only [id]
    | with_reducible apply OptKeeps.getD
    | split
    | intro _ _ _
    | intro _ _
    | intro _
    | (simp only [keeps_mk]; first | refine KeepsParts.of ?_)

theorem cxpRefused_keeps {s₀ : State} {g j : Nat} {s : State}
    (hk : Keeps s₀ s) : Keeps s₀ (cxpRefused g j s) := by
  unfold cxpRefused
  try dsimp only
  repeat' first
    | with_reducible assumption
    | dsimp only
    | with_reducible apply Keeps.put
    | split
    | intro _ _ _
    | intro _ _
    | intro _

theorem speedChange_keeps {s₀ : State} {g j : Nat} {s : State}
    (hk : Keeps s₀ s) : Keeps s₀ (speedChange g j s) := by
  unfold speedChange
  try dsimp only
  repeat' first
    | with_reducible assumption
    | dsimp only
    | with_reducible apply Keeps.put
    | with_reducible apply laneRetrain_keeps
    | with_reducible apply Keeps.each
    | split
    | intro _ _ _
    | intro _ _
    | intro _

theorem cxpLinkWrite_keeps {s₀ : State} {g j : Nat} {v : Word} {s : State}
    (hk : Keeps s₀ s) : Keeps s₀ (cxpLinkWrite g j v s) := by
  unfold cxpLinkWrite
  try dsimp only
  repeat' first
    | with_reducible assumption
    | dsimp only
    | with_reducible apply State.loadAll_keeps
    | with_reducible apply State.setCxp_keeps
    | with_reducible apply cxpRefused_keeps
    | with_reducible apply linksRefresh_keeps
    | with_reducible apply speedChange_keeps
    | with_reducible apply Keeps.when
    | split
    | intro _ _ _
    | intro _ _
    | intro _

theorem cxpLinewWrite_keeps {s₀ : State} {g j : Nat} {v : Word} {s : State}
    (hk : Keeps s₀ s) : Keeps s₀ (cxpLinewWrite g j v s) := by
  unfold cxpLinewWrite
  try dsimp only
  repeat' first
    | with_reducible assumption
    | dsimp only
    | with_reducible apply State.load_keeps
    | with_reducible apply cxpRefused_keeps
    | split
    | intro _ _ _
    | intro _ _
    | intro _

theorem speedChangeDone_keeps {s₀ : State} {g j : Nat} {s : State}
    (hk : Keeps s₀ s) : Keeps s₀ (speedChangeDone g j s) := by
  unfold speedChangeDone
  try dsimp only
  repeat' first
    | with_reducible assumption
    | dsimp only
    | with_reducible apply Keeps.put
    | with_reducible apply Keeps.when
    | split
    | intro _ _ _
    | intro _ _
    | intro _

theorem ccCtlWrite_keeps {s₀ : State} {g : Nat} {v : Word} {s : State}
    (hk : Keeps s₀ s) : Keeps s₀ (ccCtlWrite g v s) := by
  unfold ccCtlWrite
  try dsimp only
  repeat' first
    | with_reducible assumption
    | dsimp only
    | with_reducible apply Keeps.emit
    | with_reducible apply State.loadAll_keeps
    | with_reducible apply Keeps.put
    | with_reducible apply cxpRefused_keeps
    | split
    | intro _ _ _
    | intro _ _
    | intro _

theorem ccSent_keeps {s₀ : State} {g : Nat} {s : State}
    (hk : Keeps s₀ s) : Keeps s₀ (ccSent g s) := by
  unfold ccSent
  try dsimp only
  repeat' first
    | with_reducible assumption
    | dsimp only
    | with_reducible apply State.irq_keeps
    | with_reducible apply Keeps.put
    | with_reducible apply Keeps.when
    | split
    | intro _ _ _
    | intro _ _
    | intro _

theorem ackEvents_keeps {s₀ : State} {s : State}
    (hk : Keeps s₀ s) : Keeps s₀ (ackEvents s) := by
  unfold ackEvents
  try dsimp only
  repeat' first
    | with_reducible assumption
    | dsimp only
    | with_reducible apply Keeps.emit
    | with_reducible apply Keeps.foldl
    | with_reducible apply Keeps.foldl_snd
    | split
    | intro _ _ _
    | intro _ _
    | intro _
    | (simp only [keeps_mk]; first | refine KeepsParts.of ?_)

theorem ccReceive_keeps {s₀ : State} {g j kind : Nat} {good : Bool} {payload : List Word} {s : State}
    (hk : Keeps s₀ s) : Keeps s₀ (ccReceive g j kind good payload s) := by
  unfold ccReceive
  try dsimp only
  repeat' first
    | with_reducible assumption
    | dsimp only
    | with_reducible apply State.count_keeps
    | with_reducible apply State.irq_keeps
    | with_reducible apply Keeps.put
    | with_reducible apply State.setIrq_keeps
    | with_reducible apply ackEvents_keeps
    | with_reducible apply Keeps.when
    | with_reducible apply Keeps.each
    | with_reducible apply OptKeeps.getD
    | split
    | intro _ _ _
    | intro _ _
    | intro _
    | (simp only [keeps_mk]; first | refine KeepsParts.of ?_)

theorem triggerPacket_keeps {s₀ : State} {g j : Nat} {s : State}
    (hk : Keeps s₀ s) : Keeps s₀ (triggerPacket g j s) := by
  unfold triggerPacket
  try dsimp only
  repeat' first
    | with_reducible assumption
    | dsimp only
    | with_reducible apply State.count_keeps
    | with_reducible apply Keeps.emit
    | with_reducible apply State.irq_keeps
    | with_reducible apply State.setCxp_keeps
    | with_reducible apply cxpTrigger_keeps
    | with_reducible apply Keeps.when
    | split
    | intro _ _ _
    | intro _ _
    | intro _
    | (simp only [keeps_mk]; first | refine KeepsParts.of ?_)

theorem ethCtlWrite_keeps {s₀ : State} {c : Nat} {v : Word} {s : State}
    (hk : Keeps s₀ s) : Keeps s₀ (ethCtlWrite c v s) := by
  unfold ethCtlWrite
  try dsimp only
  repeat' first
    | with_reducible assumption
    | dsimp only
    | with_reducible apply State.loadAll_keeps
    | with_reducible apply Keeps.put
    | with_reducible apply laneRetrain_keeps
    | with_reducible apply Keeps.when
    | with_reducible apply Keeps.each
    | split
    | intro _ _ _
    | intro _ _
    | intro _

theorem gvWrite_keeps {s₀ : State} {c j : Nat} {v : Word} {s : State}
    (hk : Keeps s₀ s) : Keeps s₀ (gvWrite c j v s) := by
  unfold gvWrite
  try dsimp only
  repeat' first
    | with_reducible assumption
    | dsimp only
    | with_reducible apply State.loadAll_keeps
    | with_reducible apply Keeps.put
    | with_reducible apply State.setGv_keeps
    | with_reducible apply Keeps.when
    | split
    | intro _ _ _
    | intro _ _
    | intro _

theorem xrxPump_keeps {s₀ : State} {c : Nat} {x0 : Nat} {s : State}
    (hk : Keeps s₀ s) : Keeps s₀ (xrxPump c x0 s) := by
  induction x0 generalizing c s with
  | zero =>
    simp only [xrxPump]
    repeat' first
      | with_reducible assumption
      | with_reducible apply ih
      | dsimp only
      | with_reducible apply State.irq_keeps
      | with_reducible apply Keeps.put
      | with_reducible apply State.setEthCl_keeps
      | with_reducible refine wireAsk_keeps (by assumption) ?_
      | with_reducible apply wireAsk_keeps_snd
      | with_reducible apply wireEnd_keeps
      | with_reducible apply wireRewind_keeps
      | split
      | intro _ _ _
      | intro _ _
      | intro _
      | (simp only [keeps_mk]; first | refine KeepsParts.of ?_)
  | succ n ih =>
    simp only [xrxPump]
    repeat' first
      | with_reducible assumption
      | with_reducible apply ih
      | dsimp only
      | with_reducible apply State.irq_keeps
      | with_reducible apply Keeps.put
      | with_reducible apply State.setEthCl_keeps
      | with_reducible refine wireAsk_keeps (by assumption) ?_
      | with_reducible apply wireAsk_keeps_snd
      | with_reducible apply wireEnd_keeps
      | with_reducible apply wireRewind_keeps
      | split
      | intro _ _ _
      | intro _ _
      | intro _
      | (simp only [keeps_mk]; first | refine KeepsParts.of ?_)

theorem xrxPlace_keeps {s₀ : State} {c p : Nat} {bytes : List Byte} {s : State}
    (hk : Keeps s₀ s) : Keeps s₀ (xrxPlace c p bytes s) := by
  unfold xrxPlace
  try dsimp only
  repeat' first
    | with_reducible assumption
    | dsimp only
    | with_reducible apply State.count_keeps
    | with_reducible apply State.irq_keeps
    | with_reducible apply State.setEthCl_keeps
    | with_reducible apply xrxPump_keeps
    | split
    | intro _ _ _
    | intro _ _
    | intro _
    | (simp only [keeps_mk]; first | refine KeepsParts.of ?_)

theorem ethReceive_keeps {s₀ : State} {c p : Nat} {check : FrameCheck} {udp : Option (BitVec 16 × Word)} {image : Bool} {bytes : List Byte} {s : State}
    (hk : Keeps s₀ s) : Keeps s₀ (ethReceive c p check udp image bytes s) := by
  unfold ethReceive
  try dsimp only
  repeat' first
    | with_reducible assumption
    | dsimp only
    | with_reducible apply State.count_keeps
    | with_reducible apply State.irq_keeps
    | with_reducible apply Keeps.put
    | with_reducible apply State.setEthCl_keeps
    | with_reducible apply xrxPlace_keeps
    | with_reducible apply Keeps.when
    | split
    | intro _ _ _
    | intro _ _
    | intro _
    | (simp only [keeps_mk]; first | refine KeepsParts.of ?_)

theorem gvShort_keeps_snd {s₀ : State} {k : LineCfg} {x : GvSrc} {s : State}
    (hk : Keeps s₀ s) : Keeps s₀ (gvShort k x s).2.2 := by
  unfold gvShort
  try dsimp only
  repeat' first
    | with_reducible assumption
    | dsimp only
    | with_reducible refine lineEnd_keeps (by assumption) ?_
    | with_reducible apply lineEnd_keeps_snd
    | split
    | intro _ _ _
    | intro _ _
    | intro _
    | (simp only [keeps_mk]; first | refine KeepsParts.of ?_)

theorem gvShort_keeps {s₀ : State} {k : LineCfg} {x : GvSrc} {s : State} {y₁ y₂ t₁} (e₁ : gvShort k x s = (y₁, y₂, t₁))
    (hk : Keeps s₀ s) : Keeps s₀ t₁ := by
  have k := gvShort_keeps_snd (s₀ := s₀) (k := k) (x := x) (s := s) hk
  rw [e₁] at k
  exact k

theorem gvItems_keeps {s₀ : State} {k : LineCfg} {l : List Byte} {x : Nat × GvSrc × State}
    (hk : Keeps s₀ x.2.2) : Keeps s₀ (gvItems k l x).2.2 := by
  induction l generalizing x with
  | nil => exact hk
  | cons i l ih =>
    obtain ⟨pad, x, s⟩ := x
    simp only [gvItems]
    repeat' first
      | with_reducible assumption
      | with_reducible apply ih
      | dsimp only
      | with_reducible apply lineByte_keeps_snd
      | with_reducible apply lineEnd_keeps_snd
      | split

theorem gvGap_keeps_snd {s₀ : State} {k : LineCfg} {n : Nat} {x : GvSrc} {s : State}
    (hk : Keeps s₀ s) : Keeps s₀ (gvGap k n x s).2 := by
  unfold gvGap
  try dsimp only
  repeat' first
    | with_reducible assumption
    | dsimp only
    | with_reducible refine lineLost_keeps (by assumption) ?_
    | with_reducible apply lineLost_keeps_snd
    | split
    | intro _ _ _
    | intro _ _
    | intro _
    | (simp only [keeps_mk]; first | refine KeepsParts.of ?_)

theorem gvGap_keeps {s₀ : State} {k : LineCfg} {n : Nat} {x : GvSrc} {s : State} {y₁ t₁} (e₁ : gvGap k n x s = (y₁, t₁))
    (hk : Keeps s₀ s) : Keeps s₀ t₁ := by
  have k := gvGap_keeps_snd (s₀ := s₀) (k := k) (n := n) (x := x) (s := s) hk
  rw [e₁] at k
  exact k

theorem gvSkip_keeps_snd {s₀ : State} {k : LineCfg} {id : Nat} {x : GvSrc} {s : State}
    (hk : Keeps s₀ s) : Keeps s₀ (gvSkip k id x s).2 := by
  unfold gvSkip
  try dsimp only
  repeat' first
    | with_reducible assumption
    | dsimp only
    | with_reducible refine gvGap_keeps (by assumption) ?_
    | with_reducible apply gvGap_keeps_snd
    | dsimp only [id]
    | with_reducible apply OptKeeps.getD
    | split
    | intro _ _ _
    | intro _ _
    | intro _

theorem gvSkip_keeps {s₀ : State} {k : LineCfg} {id : Nat} {x : GvSrc} {s : State} {y₁ t₁} (e₁ : gvSkip k id x s = (y₁, t₁))
    (hk : Keeps s₀ s) : Keeps s₀ t₁ := by
  have k := gvSkip_keeps_snd (s₀ := s₀) (k := k) (id := id) (x := x) (s := s) hk
  rw [e₁] at k
  exact k

theorem gvspTake_keeps {s₀ : State} {c j id : Nat} {body : GvspBody} {s : State}
    (hk : Keeps s₀ s) : Keeps s₀ (gvspTake c j id body s) := by
  unfold gvspTake
  try dsimp only
  repeat' first
    | with_reducible assumption
    | dsimp only
    | with_reducible apply State.count_keeps
    | with_reducible apply Keeps.put
    | with_reducible apply State.setGv_keeps
    | with_reducible apply gvItems_keeps
    | with_reducible refine gvShort_keeps (by assumption) ?_
    | with_reducible apply gvShort_keeps_snd
    | with_reducible refine gvSkip_keeps (by assumption) ?_
    | with_reducible apply gvSkip_keeps_snd
    | with_reducible apply Keeps.when
    | dsimp only [id]
    | split
    | intro _ _ _
    | intro _ _
    | intro _
    | (simp only [keeps_mk]; first | refine KeepsParts.of ?_)

theorem gvspPacket_keeps {s₀ : State} {c j id : Nat} {resend : Bool} {body : GvspBody} {s : State}
    (hk : Keeps s₀ s) : Keeps s₀ (gvspPacket c j id resend body s) := by
  unfold gvspPacket
  try dsimp only
  repeat' first
    | with_reducible assumption
    | dsimp only
    | with_reducible apply State.count_keeps
    | with_reducible apply State.setEthCl_keeps
    | with_reducible apply gvspTake_keeps
    | dsimp only [id]
    | split
    | intro _ _ _
    | intro _ _
    | intro _
    | (simp only [keeps_mk]; first | refine KeepsParts.of ?_)

theorem frameSend_keeps {s₀ : State} {c port : Nat} {bytes : List Byte} {poison : Bool} {s : State}
    (hk : Keeps s₀ s) : Keeps s₀ (frameSend c port bytes poison s) := by
  unfold frameSend
  try dsimp only
  repeat' first
    | with_reducible assumption
    | dsimp only
    | with_reducible apply State.count_keeps
    | with_reducible apply Keeps.emit
    | with_reducible apply State.irq_keeps
    | with_reducible apply Keeps.when
    | split
    | intro _ _ _
    | intro _ _
    | intro _

theorem xtxDone_keeps {s₀ : State} {c : Nat} {s : State}
    (hk : Keeps s₀ s) : Keeps s₀ (xtxDone c s) := by
  unfold xtxDone
  try dsimp only
  repeat' first
    | with_reducible assumption
    | dsimp only
    | with_reducible apply State.irq_keeps
    | with_reducible apply Keeps.put
    | with_reducible apply wireEnd_keeps
    | split
    | intro _ _ _
    | intro _ _
    | intro _

theorem xtxFrame_keeps {s₀ : State} {c a w0 : Nat} {f : List (Byte × Bool)} {s : State}
    (hk : Keeps s₀ s) : Keeps s₀ (xtxFrame c a w0 f s) := by
  unfold xtxFrame
  try dsimp only
  repeat' first
    | with_reducible assumption
    | dsimp only
    | with_reducible apply State.setEthCl_keeps
    | with_reducible apply State.setWire_keeps
    | with_reducible apply frameSend_keeps
    | with_reducible refine wireAsk_keeps (by assumption) ?_
    | with_reducible apply wireAsk_keeps_snd
    | with_reducible apply xtxDone_keeps
    | with_reducible apply OptKeeps.getD
    | split
    | intro _ _ _
    | intro _ _
    | intro _
    | (simp only [keeps_mk]; first | refine KeepsParts.of ?_)

theorem xtxSend_keeps {s₀ : State} {c : Nat} {s : State}
    (hk : Keeps s₀ s) : Keeps s₀ (xtxSend c s) := by
  unfold xtxSend
  try dsimp only
  repeat' first
    | with_reducible assumption
    | dsimp only
    | with_reducible refine wireAsk_keeps (by assumption) ?_
    | with_reducible apply wireAsk_keeps_snd
    | with_reducible apply wireRewind_keeps
    | with_reducible apply xtxFrame_keeps
    | split
    | intro _ _ _
    | intro _ _
    | intro _
    | (simp only [keeps_mk]; first | refine KeepsParts.of ?_)

theorem ethAddReport_keeps {s₀ : State} {c : Nat} {r : Report} {s : State}
    (hk : Keeps s₀ s) : Keeps s₀ (ethAddReport c r s) := by
  unfold ethAddReport
  try dsimp only
  repeat' first
    | with_reducible assumption
    | dsimp only
    | with_reducible apply State.setEthCl_keeps
    | split
    | intro _ _ _
    | intro _ _
    | intro _
    | (simp only [keeps_mk]; first | refine KeepsParts.of ?_)

theorem sendDatagram_keeps {s₀ : State} {c : Nat} {s : State}
    (hk : Keeps s₀ s) : Keeps s₀ (sendDatagram c s) := by
  unfold sendDatagram
  try dsimp only
  repeat' first
    | with_reducible assumption
    | dsimp only
    | with_reducible refine Keeps.nextFree (by assumption) ?_
    | with_reducible apply Keeps.nextFree_snd
    | with_reducible apply Keeps.nextFree_snd
    | with_reducible apply Keeps.put
    | with_reducible apply State.setEthCl_keeps
    | with_reducible apply frameSend_keeps
    | split
    | intro _ _ _
    | intro _ _
    | intro _
    | (simp only [keeps_mk]; first | refine KeepsParts.of ?_)

theorem reportDatagram_keeps {s₀ : State} {c : Nat} {s : State}
    (hk : Keeps s₀ s) : Keeps s₀ (reportDatagram c s) := by
  unfold reportDatagram
  try dsimp only
  repeat' first
    | with_reducible assumption
    | dsimp only
    | with_reducible apply sendDatagram_keeps
    | with_reducible apply Keeps.when
    | split
    | intro _ _ _
    | intro _ _
    | intro _

theorem datagramHold_keeps {s₀ : State} {c : Nat} {s : State}
    (hk : Keeps s₀ s) : Keeps s₀ (datagramHold c s) := by
  unfold datagramHold
  try dsimp only
  repeat' first
    | with_reducible assumption
    | dsimp only
    | with_reducible apply sendDatagram_keeps
    | with_reducible apply Keeps.when
    | split
    | intro _ _ _
    | intro _ _
    | intro _

theorem ethLinkChange_keeps {s₀ : State} {c p : Nat} {up : Bool} {s : State}
    (hk : Keeps s₀ s) : Keeps s₀ (ethLinkChange c p up s) := by
  unfold ethLinkChange
  try dsimp only
  repeat' first
    | with_reducible assumption
    | dsimp only
    | with_reducible apply ethLinkSet_keeps
    | split
    | intro _ _ _
    | intro _ _
    | intro _

theorem setPhc_keeps {s₀ : State} {c : Nat} {x : Phc} {s : State}
    (hk : Keeps s₀ s) : Keeps s₀ (setPhc c x s) := by
  unfold setPhc
  try dsimp only
  repeat' first
    | with_reducible assumption
    | dsimp only
    | split
    | intro _ _ _
    | intro _ _
    | intro _
    | (simp only [keeps_mk]; first | refine KeepsParts.of ?_)

theorem phcStep_keeps {s₀ : State} {c : Nat} {v : Word} {s : State}
    (hk : Keeps s₀ s) : Keeps s₀ (phcStep c v s) := by
  unfold phcStep
  try dsimp only
  repeat' first
    | with_reducible assumption
    | dsimp only
    | with_reducible apply setPhc_keeps
    | split
    | intro _ _ _
    | intro _ _
    | intro _
    | (simp only [keeps_mk]; first | refine KeepsParts.of ?_)

theorem phcLoad_keeps {s₀ : State} {c : Nat} {s : State}
    (hk : Keeps s₀ s) : Keeps s₀ (phcLoad c s) := by
  unfold phcLoad
  try dsimp only
  repeat' first
    | with_reducible assumption
    | dsimp only
    | with_reducible apply setPhc_keeps
    | split
    | intro _ _ _
    | intro _ _
    | intro _
    | (simp only [keeps_mk]; first | refine KeepsParts.of ?_)

theorem phcStage_keeps {s₀ : State} {c reg : Nat} {v : Word} {s : State}
    (hk : Keeps s₀ s) : Keeps s₀ (phcStage c reg v s) := by
  unfold phcStage
  try dsimp only
  repeat' first
    | with_reducible assumption
    | dsimp only
    | with_reducible apply setPhc_keeps
    | split
    | intro _ _ _
    | intro _ _
    | intro _
    | (simp only [keeps_mk]; first | refine KeepsParts.of ?_)

theorem phcRead_keeps_snd {s₀ : State} {c : Nat} {s : State}
    (hk : Keeps s₀ s) : Keeps s₀ (phcRead c s).2 := by
  unfold phcRead
  try dsimp only
  repeat' first
    | with_reducible assumption
    | dsimp only
    | with_reducible apply setPhc_keeps
    | split
    | intro _ _ _
    | intro _ _
    | intro _
    | (simp only [keeps_mk]; first | refine KeepsParts.of ?_)

theorem phcRead_keeps {s₀ : State} {c : Nat} {s : State} {y₁ t₁} (e₁ : phcRead c s = (y₁, t₁))
    (hk : Keeps s₀ s) : Keeps s₀ t₁ := by
  have k := phcRead_keeps_snd (s₀ := s₀) (c := c) (s := s) hk
  rw [e₁] at k
  exact k

end Sys2Proof.Machine
end

