-- ==== Sys2Proof/Laws/KeepsSettings.lean ====
section
/-! SUPPORT. What the operations of Machine/Settings.lean keep (Laws/Keeps.lean). -/

namespace Sys2Proof.Machine

open Sys2Proof

theorem smcRefused_keeps {s₀ : State} {s : State}
    (hk : Keeps s₀ s) : Keeps s₀ (smcRefused s) := by
  unfold smcRefused
  try dsimp only
  repeat' first
    | with_reducible assumption
    | dsimp only
    | with_reducible apply State.count_keeps
    | with_reducible apply State.irq_keeps
    | split
    | intro _ _ _
    | intro _ _
    | intro _

theorem setNvmCopy_keeps {s₀ : State} {page copy : Nat} {x : NvmCopy} {s : State}
    (hk : Keeps s₀ s) : Keeps s₀ (setNvmCopy page copy x s) := by
  unfold setNvmCopy
  try dsimp only
  repeat' first
    | with_reducible assumption
    | dsimp only
    | split
    | intro _ _ _
    | intro _ _
    | intro _
    | (simp only [keeps_mk]; first | refine KeepsParts.of ?_)

theorem noteLost_keeps {s₀ : State} {page : Nat} {s : State}
    (hk : Keeps s₀ s) : Keeps s₀ (noteLost page s) := by
  unfold noteLost
  try dsimp only
  repeat' first
    | with_reducible assumption
    | dsimp only
    | with_reducible apply Keeps.put
    | with_reducible apply State.setIrq_keeps
    | split
    | intro _ _ _
    | intro _ _
    | intro _
    | (simp only [keeps_mk]; first | refine KeepsParts.of ?_)

theorem pageWrite_keeps {s₀ : State} {page : Nat} {l : List Word} {crcOk : Bool} {s : State}
    (hk : Keeps s₀ s) : Keeps s₀ (pageWrite page l crcOk s) := by
  unfold pageWrite
  try dsimp only
  repeat' first
    | with_reducible assumption
    | dsimp only
    | with_reducible apply Keeps.put
    | with_reducible apply State.setIrq_keeps
    | with_reducible apply setNvmCopy_keeps
    | with_reducible apply Keeps.when
    | split
    | intro _ _ _
    | intro _ _
    | intro _
    | (simp only [keeps_mk]; first | refine KeepsParts.of ?_)

theorem setKeyBit_keeps {s₀ : State} {f : Fld} {slot : Nat} {s : State}
    (hk : Keeps s₀ s) : Keeps s₀ (setKeyBit f slot s) := by
  unfold setKeyBit
  try dsimp only
  repeat' first
    | with_reducible assumption
    | dsimp only
    | with_reducible apply Keeps.put
    | split
    | intro _ _ _
    | intro _ _
    | intro _

theorem loadKeyStat_keeps {s₀ : State} {s : State}
    (hk : Keeps s₀ s) : Keeps s₀ (loadKeyStat s) := by
  unfold loadKeyStat
  try dsimp only
  repeat' first
    | with_reducible assumption
    | dsimp only
    | with_reducible apply Keeps.put
    | with_reducible apply setKeyBit_keeps
    | with_reducible apply Keeps.when
    | with_reducible apply Keeps.each
    | split
    | intro _ _ _
    | intro _ _
    | intro _

theorem keyWrite_keeps {s₀ : State} {kind slot : Nat} {hash : List Byte} {crcOk : Bool} {s : State}
    (hk : Keeps s₀ s) : Keeps s₀ (keyWrite kind slot hash crcOk s) := by
  unfold keyWrite
  try dsimp only
  repeat' first
    | with_reducible assumption
    | dsimp only
    | with_reducible apply pageWrite_keeps
    | with_reducible apply setKeyBit_keeps
    | with_reducible apply Keeps.when
    | split
    | intro _ _ _
    | intro _ _
    | intro _

theorem repairCommit_keeps_snd {s₀ : State} {e : Word} {crcOk : Bool} {s : State}
    (hk : Keeps s₀ s) : Keeps s₀ (repairCommit e crcOk s).2 := by
  unfold repairCommit
  try dsimp only
  repeat' first
    | with_reducible assumption
    | dsimp only
    | with_reducible apply State.irq_keeps
    | with_reducible apply Keeps.put
    | with_reducible apply pageWrite_keeps
    | split
    | intro _ _ _
    | intro _ _
    | intro _
    | (simp only [keeps_mk]; first | refine KeepsParts.of ?_)

theorem repairCommit_keeps {s₀ : State} {e : Word} {crcOk : Bool} {s : State} {y₁ t₁} (e₁ : repairCommit e crcOk s = (y₁, t₁))
    (hk : Keeps s₀ s) : Keeps s₀ t₁ := by
  have k := repairCommit_keeps_snd (s₀ := s₀) (e := e) (crcOk := crcOk) (s := s) hk
  rw [e₁] at k
  exact k

theorem fitRow_keeps {s₀ : State} {row : Nat} {s : State}
    (hk : Keeps s₀ s) : Keeps s₀ (fitRow row s) := by
  unfold fitRow
  try dsimp only
  repeat' first
    | with_reducible assumption
    | dsimp only
    | with_reducible apply Keeps.put
    | split
    | intro _ _ _
    | intro _ _
    | intro _
    | (simp only [keeps_mk]; first | refine KeepsParts.of ?_)

theorem fitEntry_keeps {s₀ : State} {e : Word} {s : State}
    (hk : Keeps s₀ s) : Keeps s₀ (fitEntry e s) := by
  unfold fitEntry
  try dsimp only
  repeat' first
    | with_reducible assumption
    | dsimp only
    | with_reducible apply Keeps.put
    | with_reducible apply State.setIrq_keeps
    | with_reducible apply fitRow_keeps
    | split
    | intro _ _ _
    | intro _ _
    | intro _

theorem fitSpares_keeps {s₀ : State} {s : State}
    (hk : Keeps s₀ s) : Keeps s₀ (fitSpares s) := by
  unfold fitSpares
  try dsimp only
  repeat' first
    | with_reducible assumption
    | dsimp only
    | with_reducible apply Keeps.put
    | with_reducible apply fitEntry_keeps
    | with_reducible apply fitRow_keeps
    | with_reducible apply Keeps.when
    | with_reducible apply Keeps.each
    | with_reducible apply Keeps.foldl
    | with_reducible apply Keeps.foldl_snd
    | split
    | intro _ _ _
    | intro _ _
    | intro _
    | (simp only [keeps_mk]; first | refine KeepsParts.of ?_)

theorem storeEffect_keeps_snd {s₀ : State} {r : SmcRun} {crcOk : Bool} {s : State}
    (hk : Keeps s₀ s) : Keeps s₀ (storeEffect r crcOk s).2 := by
  unfold storeEffect
  try dsimp only
  repeat' first
    | with_reducible assumption
    | dsimp only
    | with_reducible apply Keeps.put
    | with_reducible apply pageWrite_keeps
    | with_reducible apply OptKeeps.getD
    | split
    | intro _ _ _
    | intro _ _
    | intro _

theorem storeEffect_keeps {s₀ : State} {r : SmcRun} {crcOk : Bool} {s : State} {y₁ t₁} (e₁ : storeEffect r crcOk s = (y₁, t₁))
    (hk : Keeps s₀ s) : Keeps s₀ t₁ := by
  have k := storeEffect_keeps_snd (s₀ := s₀) (r := r) (crcOk := crcOk) (s := s) hk
  rw [e₁] at k
  exact k

theorem commitEffect_keeps_snd {s₀ : State} {r : SmcRun} {crcOk : Bool} {s : State}
    (hk : Keeps s₀ s) : Keeps s₀ (commitEffect r crcOk s).2 := by
  unfold commitEffect
  try dsimp only
  repeat' first
    | with_reducible assumption
    | dsimp only
    | with_reducible refine repairCommit_keeps (by assumption) ?_
    | with_reducible apply repairCommit_keeps_snd
    | with_reducible apply OptKeeps.getD
    | split
    | intro _ _ _
    | intro _ _
    | intro _

theorem commitEffect_keeps {s₀ : State} {r : SmcRun} {crcOk : Bool} {s : State} {y₁ t₁} (e₁ : commitEffect r crcOk s = (y₁, t₁))
    (hk : Keeps s₀ s) : Keeps s₀ t₁ := by
  have k := commitEffect_keeps_snd (s₀ := s₀) (r := r) (crcOk := crcOk) (s := s) hk
  rw [e₁] at k
  exact k

theorem revokeEffect_keeps_snd {s₀ : State} {r : SmcRun} {crcOk : Bool} {s : State}
    (hk : Keeps s₀ s) : Keeps s₀ (revokeEffect r crcOk s).2 := by
  unfold revokeEffect
  try dsimp only
  repeat' first
    | with_reducible assumption
    | dsimp only
    | with_reducible apply pageWrite_keeps
    | with_reducible apply setKeyBit_keeps
    | with_reducible apply OptKeeps.getD
    | split
    | intro _ _ _
    | intro _ _
    | intro _

theorem revokeEffect_keeps {s₀ : State} {r : SmcRun} {crcOk : Bool} {s : State} {y₁ t₁} (e₁ : revokeEffect r crcOk s = (y₁, t₁))
    (hk : Keeps s₀ s) : Keeps s₀ t₁ := by
  have k := revokeEffect_keeps_snd (s₀ := s₀) (r := r) (crcOk := crcOk) (s := s) hk
  rw [e₁] at k
  exact k

theorem rollbackEffect_keeps_snd {s₀ : State} {r : SmcRun} {crcOk : Bool} {s : State}
    (hk : Keeps s₀ s) : Keeps s₀ (rollbackEffect r crcOk s).2 := by
  unfold rollbackEffect
  try dsimp only
  repeat' first
    | with_reducible assumption
    | dsimp only
    | with_reducible apply State.put2_keeps
    | with_reducible apply pageWrite_keeps
    | with_reducible apply OptKeeps.getD
    | split
    | intro _ _ _
    | intro _ _
    | intro _

theorem rollbackEffect_keeps {s₀ : State} {r : SmcRun} {crcOk : Bool} {s : State} {y₁ t₁} (e₁ : rollbackEffect r crcOk s = (y₁, t₁))
    (hk : Keeps s₀ s) : Keeps s₀ t₁ := by
  have k := rollbackEffect_keeps_snd (s₀ := s₀) (r := r) (crcOk := crcOk) (s := s) hk
  rw [e₁] at k
  exact k

theorem zeroisePages_keeps {s₀ : State} {n : Nat} {s : State}
    (hk : Keeps s₀ s) : Keeps s₀ (zeroisePages n s) := by
  unfold zeroisePages
  try dsimp only
  repeat' first
    | with_reducible assumption
    | dsimp only
    | with_reducible apply setNvmCopy_keeps
    | with_reducible apply Keeps.each
    | split
    | intro _ _ _
    | intro _ _
    | intro _
    | (simp only [keeps_mk]; first | refine KeepsParts.of ?_)

theorem abandonNvm_keeps {s₀ : State} {n : Nat} {s : State}
    (hk : Keeps s₀ s) : Keeps s₀ (abandonNvm n s) := by
  unfold abandonNvm
  try dsimp only
  repeat' first
    | with_reducible assumption
    | dsimp only
    | with_reducible refine commitEffect_keeps (by assumption) ?_
    | with_reducible apply commitEffect_keeps_snd
    | with_reducible refine revokeEffect_keeps (by assumption) ?_
    | with_reducible apply revokeEffect_keeps_snd
    | with_reducible refine rollbackEffect_keeps (by assumption) ?_
    | with_reducible apply rollbackEffect_keeps_snd
    | with_reducible refine storeEffect_keeps (by assumption) ?_
    | with_reducible apply storeEffect_keeps_snd
    | with_reducible apply zeroisePages_keeps
    | with_reducible apply Keeps.when
    | with_reducible apply OptKeeps.getD
    | split
    | intro _ _ _
    | intro _ _
    | intro _
    | (simp only [keeps_mk]; first | refine KeepsParts.of ?_)

end Sys2Proof.Machine
end

