-- ==== Sys2Proof/Laws/KeepsRelease.lean ====
section
/-! SUPPORT. What the operations of Machine/Release.lean keep (Laws/Keeps.lean). -/

namespace Sys2Proof.Machine

open Sys2Proof

theorem setL2_keeps {s₀ : State} {line : Nat} {l : Option L2Line} {s : State}
    (hk : Keeps s₀ s) : Keeps s₀ (setL2 line l s) := by
  unfold setL2
  try dsimp only
  repeat' first
    | with_reducible assumption
    | dsimp only
    | split
    | intro _ _ _
    | intro _ _
    | intro _
    | (simp only [keeps_mk]; first | refine KeepsParts.of ?_)

theorem l2SetGroup_keeps {s₀ : State} {line i : Nat} {v : BitVec 72} {dirty : Bool} {s : State}
    (hk : Keeps s₀ s) : Keeps s₀ (l2SetGroup line i v dirty s) := by
  unfold l2SetGroup
  try dsimp only
  repeat' first
    | with_reducible assumption
    | dsimp only
    | with_reducible apply setL2_keeps
    | split
    | intro _ _ _
    | intro _ _
    | intro _
    | (simp only [keeps_mk]; first | refine KeepsParts.of ?_)

theorem l2Group_keeps_snd {s₀ : State} {line i : Nat} {l : L2Line} {s : State}
    (hk : Keeps s₀ s) : Keeps s₀ (l2Group line i l s).2.2 := by
  unfold l2Group
  try dsimp only
  repeat' first
    | with_reducible assumption
    | dsimp only
    | with_reducible apply State.count_keeps
    | with_reducible apply State.errUncorr_keeps
    | with_reducible apply State.irq_keeps
    | with_reducible apply Keeps.put
    | with_reducible apply l2SetGroup_keeps
    | with_reducible apply OptKeeps.getD
    | split
    | intro _ _ _
    | intro _ _
    | intro _
    | (simp only [keeps_mk]; first | refine KeepsParts.of ?_)

theorem l2Group_keeps {s₀ : State} {line i : Nat} {l : L2Line} {s : State} {y₁ y₂ t₁} (e₁ : l2Group line i l s = (y₁, y₂, t₁))
    (hk : Keeps s₀ s) : Keeps s₀ t₁ := by
  have k := l2Group_keeps_snd (s₀ := s₀) (line := line) (i := i) (l := l) (s := s) hk
  rw [e₁] at k
  exact k

theorem l2LineRead_keeps_snd {s₀ : State} {line : Nat} {l : L2Line} {x0 : Nat} {x1 : Nat} {s : State}
    (hk : Keeps s₀ s) : Keeps s₀ (l2LineRead line l x0 x1 s).2 := by
  induction x1 generalizing line l x0 s with
  | zero =>
    simp only [l2LineRead]
    repeat' first
      | with_reducible assumption
      | with_reducible apply ih
      | dsimp only
      | with_reducible refine l2Group_keeps (by assumption) ?_
      | with_reducible apply l2Group_keeps_snd
      | split
      | intro _ _ _
      | intro _ _
      | intro _
  | succ n ih =>
    simp only [l2LineRead]
    repeat' first
      | with_reducible assumption
      | with_reducible apply ih
      | dsimp only
      | with_reducible refine l2Group_keeps (by assumption) ?_
      | with_reducible apply l2Group_keeps_snd
      | split
      | intro _ _ _
      | intro _ _
      | intro _

theorem l2LineRead_keeps {s₀ : State} {line : Nat} {l : L2Line} {x0 : Nat} {x1 : Nat} {s : State} {y₁ t₁} (e₁ : l2LineRead line l x0 x1 s = (y₁, t₁))
    (hk : Keeps s₀ s) : Keeps s₀ t₁ := by
  have k := l2LineRead_keeps_snd (s₀ := s₀) (line := line) (l := l) (x0 := x0) (x1 := x1) (s := s) hk
  rw [e₁] at k
  exact k

theorem l2Pump_keeps {s₀ : State} {x0 : Nat} {s : State}
    (hk : Keeps s₀ s) : Keeps s₀ (l2Pump x0 s) := by
  induction x0 generalizing s with
  | zero =>
    simp only [l2Pump]
    repeat' first
      | with_reducible assumption
      | with_reducible apply ih
      | dsimp only
      | with_reducible apply niRequest_keeps
      | split
      | intro _ _ _
      | intro _ _
      | intro _
      | (simp only [keeps_mk]; first | refine KeepsParts.of ?_)
  | succ n ih =>
    simp only [l2Pump]
    repeat' first
      | with_reducible assumption
      | with_reducible apply ih
      | dsimp only
      | with_reducible apply niRequest_keeps
      | split
      | intro _ _ _
      | intro _ _
      | intro _
      | (simp only [keeps_mk]; first | refine KeepsParts.of ?_)

theorem l2Flush_keeps {s₀ : State} {line : Nat} {s : State}
    (hk : Keeps s₀ s) : Keeps s₀ (l2Flush line s) := by
  unfold l2Flush
  try dsimp only
  repeat' first
    | with_reducible assumption
    | dsimp only
    | with_reducible refine l2LineRead_keeps (by assumption) ?_
    | with_reducible apply l2LineRead_keeps_snd
    | with_reducible apply l2Pump_keeps
    | with_reducible apply setL2_keeps
    | with_reducible apply Keeps.foldl
    | with_reducible apply Keeps.foldl_snd
    | split
    | intro _ _ _
    | intro _ _
    | intro _
    | (simp only [keeps_mk]; first | refine KeepsParts.of ?_)

theorem l2WriteBack_keeps {s₀ : State} {s : State}
    (hk : Keeps s₀ s) : Keeps s₀ (l2WriteBack s) := by
  unfold l2WriteBack
  try dsimp only
  repeat' first
    | with_reducible assumption
    | dsimp only
    | with_reducible apply l2Flush_keeps
    | with_reducible apply Keeps.foldl
    | with_reducible apply Keeps.foldl_snd
    | split
    | intro _ _ _
    | intro _ _
    | intro _

theorem l2Ask_keeps {s₀ : State} {line : Nat} {s : State}
    (hk : Keeps s₀ s) : Keeps s₀ (l2Ask line s) := by
  unfold l2Ask
  try dsimp only
  repeat' first
    | with_reducible assumption
    | dsimp only
    | with_reducible apply niRequest_keeps
    | split
    | intro _ _ _
    | intro _ _
    | intro _

theorem l2Filled_keeps {s₀ : State} {line : Nat} {a : VnReply} {s : State}
    (hk : Keeps s₀ s) : Keeps s₀ (l2Filled line a s) := by
  unfold l2Filled
  try dsimp only
  repeat' first
    | with_reducible assumption
    | dsimp only
    | with_reducible apply setL2_keeps
    | with_reducible apply Keeps.when
    | split
    | intro _ _ _
    | intro _ _
    | intro _

theorem cachesDrop_keeps {s₀ : State} {s : State}
    (hk : Keeps s₀ s) : Keeps s₀ (cachesDrop s) := by
  unfold cachesDrop
  try dsimp only
  repeat' first
    | with_reducible assumption
    | dsimp only
    | with_reducible apply State.setOutReqs_keeps
    | split
    | intro _ _ _
    | intro _ _
    | intro _
    | (simp only [keeps_mk]; first | refine KeepsParts.of ?_)

theorem massifBegin_keeps {s₀ : State} {m : Nat} {run : Bool} {s : State}
    (hk : Keeps s₀ s) : Keeps s₀ (massifBegin m run s) := by
  unfold massifBegin
  try dsimp only
  repeat' first
    | with_reducible assumption
    | dsimp only
    | with_reducible apply Keeps.put
    | with_reducible apply State.setMassif_keeps
    | with_reducible apply bmRefresh_keeps
    | with_reducible apply conflictRefresh_keeps
    | with_reducible apply seqStart_keeps
    | split
    | intro _ _ _
    | intro _ _
    | intro _
    | (simp only [keeps_mk]; first | refine KeepsParts.of ?_)

theorem massifIdle_keeps {s₀ : State} {m : Nat} {s : State}
    (hk : Keeps s₀ s) : Keeps s₀ (massifIdle m s) := by
  unfold massifIdle
  try dsimp only
  repeat' first
    | with_reducible assumption
    | dsimp only
    | with_reducible apply State.setMassif_keeps
    | split
    | intro _ _ _
    | intro _ _
    | intro _
    | (simp only [keeps_mk]; first | refine KeepsParts.of ?_)

theorem reloadWake_keeps {s₀ : State} {m : Nat} {s : State}
    (hk : Keeps s₀ s) : Keeps s₀ (reloadWake m s) := by
  unfold reloadWake
  try dsimp only
  repeat' first
    | with_reducible assumption
    | dsimp only
    | with_reducible apply State.irq_keeps
    | with_reducible refine Keeps.nextFree (by assumption) ?_
    | with_reducible apply Keeps.nextFree_snd
    | with_reducible apply Keeps.nextFree_snd
    | with_reducible apply Keeps.put
    | with_reducible apply State.setInbox_keeps
    | with_reducible apply State.setWakeBuf_keeps
    | with_reducible apply clearBm_keeps
    | split
    | intro _ _ _
    | intro _ _
    | intro _
    | (simp only [keeps_mk]; first | refine KeepsParts.of ?_)

theorem reloadHold_keeps {s₀ : State} {m : Nat} {s : State}
    (hk : Keeps s₀ s) : Keeps s₀ (reloadHold m s) := by
  unfold reloadHold
  try dsimp only
  repeat' first
    | with_reducible assumption
    | dsimp only
    | with_reducible apply State.setMassif_keeps
    | with_reducible apply State.setShelf_keeps
    | with_reducible apply beatsSettle_keeps
    | with_reducible apply callerDown_keeps
    | with_reducible apply clearQueues_keeps
    | with_reducible apply clearSlots_keeps
    | with_reducible apply clearTiles_keeps
    | with_reducible apply dropPosted_keeps
    | with_reducible apply massifIdle_keeps
    | with_reducible apply reloadWake_keeps
    | with_reducible apply Keeps.resetWhere
    | with_reducible apply withholdCols_keeps
    | split
    | intro _ _ _
    | intro _ _
    | intro _
    | (simp only [keeps_mk]; first | refine KeepsParts.of ?_)

theorem enterLoadHold_keeps {s₀ : State} {s : State}
    (hk : Keeps s₀ s) : Keeps s₀ (enterLoadHold s) := by
  unfold enterLoadHold
  try dsimp only
  repeat' first
    | with_reducible assumption
    | dsimp only
    | with_reducible apply Keeps.put
    | with_reducible apply State.setCore_keeps
    | with_reducible apply cachesDrop_keeps
    | with_reducible apply dropPosted_keeps
    | with_reducible apply l2WriteBack_keeps
    | with_reducible apply pairLinkDown_keeps
    | with_reducible apply reloadHold_keeps
    | with_reducible apply Keeps.resetWhere
    | with_reducible apply setPairState_keeps
    | with_reducible apply Keeps.each
    | split
    | intro _ _ _
    | intro _ _
    | intro _
    | (simp only [keeps_mk]; first | refine KeepsParts.of ?_)

theorem setLoads_keeps {s₀ : State} {f : Loads → Loads} {s : State}
    (hk : Keeps s₀ s) : Keeps s₀ (setLoads f s) := by
  unfold setLoads
  try dsimp only
  repeat' first
    | with_reducible assumption
    | dsimp only
    | split
    | intro _ _ _
    | intro _ _
    | intro _
    | (simp only [keeps_mk]; first | refine KeepsParts.of ?_)

theorem releaseMassif_keeps {s₀ : State} {x : Staged} {m : Nat} {s : State}
    (hk : Keeps s₀ s) : Keeps s₀ (releaseMassif x m s) := by
  unfold releaseMassif
  try dsimp only
  repeat' first
    | with_reducible assumption
    | dsimp only
    | with_reducible apply State.setMassif_keeps
    | with_reducible apply callerRun_keeps
    | with_reducible apply massifBegin_keeps
    | with_reducible apply returnCredits_keeps
    | with_reducible apply Keeps.when
    | split
    | intro _ _ _
    | intro _ _
    | intro _
    | (simp only [keeps_mk]; first | refine KeepsParts.of ?_)

theorem releaseDevice_keeps {s₀ : State} {x : Staged} {s : State}
    (hk : Keeps s₀ s) : Keeps s₀ (releaseDevice x s) := by
  unfold releaseDevice
  try dsimp only
  repeat' first
    | with_reducible assumption
    | dsimp only
    | with_reducible apply Keeps.put
    | with_reducible apply State.put2_keeps
    | with_reducible apply enterHello_keeps
    | with_reducible apply leadStart_keeps
    | with_reducible apply releaseMassif_keeps
    | with_reducible apply setLoads_keeps
    | with_reducible apply Keeps.when
    | with_reducible apply Keeps.each
    | with_reducible apply OptKeeps.getD
    | with_reducible apply Keeps.foldl
    | with_reducible apply Keeps.foldl_snd
    | split
    | intro _ _ _
    | intro _ _
    | intro _
    | (simp only [keeps_mk]; first | refine KeepsParts.of ?_)

theorem releaseReload_keeps {s₀ : State} {x : Staged} {m : Nat} {s : State}
    (hk : Keeps s₀ s) : Keeps s₀ (releaseReload x m s) := by
  unfold releaseReload
  try dsimp only
  repeat' first
    | with_reducible assumption
    | dsimp only
    | with_reducible apply Keeps.put
    | with_reducible apply releaseMassif_keeps
    | with_reducible apply setLoads_keeps
    | split
    | intro _ _ _
    | intro _ _
    | intro _
    | (simp only [keeps_mk]; first | refine KeepsParts.of ?_)

theorem releaseNow_keeps {s₀ : State} {s : State}
    (hk : Keeps s₀ s) : Keeps s₀ (releaseNow s) := by
  unfold releaseNow
  try dsimp only
  repeat' first
    | with_reducible assumption
    | dsimp only
    | with_reducible apply State.irq_keeps
    | with_reducible apply releaseDevice_keeps
    | with_reducible apply releaseReload_keeps
    | with_reducible apply setLoads_keeps
    | split
    | intro _ _ _
    | intro _ _
    | intro _
    | (simp only [keeps_mk]; first | refine KeepsParts.of ?_)

theorem releaseLate_keeps {s₀ : State} {s : State}
    (hk : Keeps s₀ s) : Keeps s₀ (releaseLate s) := by
  unfold releaseLate
  try dsimp only
  repeat' first
    | with_reducible assumption
    | dsimp only
    | with_reducible apply State.setIrq_keeps
    | with_reducible apply releaseNow_keeps
    | split
    | intro _ _ _
    | intro _ _
    | intro _

theorem loadComplete_keeps {s₀ : State} {s : State}
    (hk : Keeps s₀ s) : Keeps s₀ (loadComplete s) := by
  unfold loadComplete
  try dsimp only
  repeat' first
    | with_reducible assumption
    | dsimp only
    | with_reducible apply CoreRes.bind_keeps
    | with_reducible refine CoreKeeps.of_ok (CoreRes.bind_keeps ?_) (by assumption)
    | with_reducible refine CoreKeeps.of_trap (CoreRes.bind_keeps ?_) (by assumption)
    | with_reducible refine CoreKeeps.of_stall (CoreRes.bind_keeps ?_) (by assumption)
    | with_reducible apply Loading.bind_keeps
    | with_reducible refine LoadKeeps.of_going (Loading.bind_keeps ?_) (by assumption)
    | with_reducible refine LoadKeeps.of_failed (Loading.bind_keeps ?_) (by assumption)
    | with_reducible refine LoadKeeps.of_waits (Loading.bind_keeps ?_) (by assumption)
    | with_reducible apply Keeps.put
    | with_reducible apply releaseLate_keeps
    | with_reducible apply releaseNow_keeps
    | split
    | intro _ _ _
    | intro _ _
    | intro _
    | (simp only [keeps_mk]; first | refine KeepsParts.of ?_)

theorem releaseAtPos_keeps {s₀ : State} {s : State}
    (hk : Keeps s₀ s) : Keeps s₀ (releaseAtPos s) := by
  unfold releaseAtPos
  try dsimp only
  repeat' first
    | with_reducible assumption
    | dsimp only
    | with_reducible apply releaseNow_keeps
    | with_reducible apply Keeps.when
    | split
    | intro _ _ _
    | intro _ _
    | intro _

theorem cfgRelWrite_keeps {s₀ : State} {v : Word} {s : State}
    (hk : Keeps s₀ s) : Keeps s₀ (cfgRelWrite v s) := by
  unfold cfgRelWrite
  try dsimp only
  repeat' first
    | with_reducible assumption
    | dsimp only
    | with_reducible apply State.loadAll_keeps
    | with_reducible apply releaseNow_keeps
    | with_reducible apply Keeps.when
    | split
    | intro _ _ _
    | intro _ _
    | intro _

theorem releaseAtSend_keeps {s₀ : State} {s : State}
    (hk : Keeps s₀ s) : Keeps s₀ (releaseAtSend s) := by
  unfold releaseAtSend
  try dsimp only
  repeat' first
    | with_reducible assumption
    | dsimp only
    | with_reducible apply flood_keeps
    | with_reducible apply Keeps.when
    | split
    | intro _ _ _
    | intro _ _
    | intro _

theorem releaseAtAct_keeps {s₀ : State} {group tpc : Nat} {pos : Pos48} {s : State}
    (hk : Keeps s₀ s) : Keeps s₀ (releaseAtAct group tpc pos s) := by
  unfold releaseAtAct
  try dsimp only
  repeat' first
    | with_reducible assumption
    | dsimp only
    | with_reducible apply State.put2_keeps
    | with_reducible apply releaseLate_keeps
    | with_reducible apply Keeps.when
    | split
    | intro _ _ _
    | intro _ _
    | intro _

theorem releaseAtRecv_keeps {s₀ : State} {p origin group tpc : Nat} {pos : Pos48} {s : State}
    (hk : Keeps s₀ s) : Keeps s₀ (releaseAtRecv p origin group tpc pos s) := by
  unfold releaseAtRecv
  try dsimp only
  repeat' first
    | with_reducible assumption
    | dsimp only
    | with_reducible apply recvFlooded_keeps
    | with_reducible apply releaseAtAct_keeps
    | split
    | intro _ _ _
    | intro _ _
    | intro _

theorem windowPump_keeps {s₀ : State} {x0 : Nat} {s : State}
    (hk : Keeps s₀ s) : Keeps s₀ (windowPump x0 s) := by
  induction x0 generalizing s with
  | zero =>
    simp only [windowPump]
    repeat' first
      | with_reducible assumption
      | with_reducible apply ih
      | dsimp only
      | with_reducible apply niRequest_keeps
      | split
      | intro _ _ _
      | intro _ _
      | intro _
      | (simp only [keeps_mk]; first | refine KeepsParts.of ?_)
  | succ n ih =>
    simp only [windowPump]
    repeat' first
      | with_reducible assumption
      | with_reducible apply ih
      | dsimp only
      | with_reducible apply niRequest_keeps
      | split
      | intro _ _ _
      | intro _ _
      | intro _
      | (simp only [keeps_mk]; first | refine KeepsParts.of ?_)

theorem loadWindow_keeps {s₀ : State} {j : Nat} {v : Word} {s : State}
    (hk : Keeps s₀ s) : Keeps s₀ (loadWindow j v s) := by
  unfold loadWindow
  try dsimp only
  repeat' first
    | with_reducible assumption
    | dsimp only
    | with_reducible apply smcRefused_keeps
    | with_reducible apply windowPump_keeps
    | split
    | intro _ _ _
    | intro _ _
    | intro _
    | (simp only [keeps_mk]; first | refine KeepsParts.of ?_)

end Sys2Proof.Machine
end

