-- ==== Sys2Proof/Laws/KeepsResets.lean ====
section
/-! SUPPORT. What the operations of Machine/Resets.lean keep (Laws/Keeps.lean). -/

namespace Sys2Proof.Machine

open Sys2Proof

theorem setPower_keeps {s₀ : State} {f : Power → Power} {s : State}
    (hk : Keeps s₀ s) : Keeps s₀ (setPower f s) := by
  unfold setPower
  try dsimp only
  repeat' first
    | with_reducible assumption
    | dsimp only
    | split
    | intro _ _ _
    | intro _ _
    | intro _
    | (simp only [keeps_mk]; first | refine KeepsParts.of ?_)

theorem coldReset_keeps {s₀ : State} {cause : Nat} {s : State} (hk : Keeps s₀ s) : Keeps s₀ (coldReset cause s) := by
  have h1 : Keeps s₀ (abandonNvm (Config.freeNat s.nextFree.1) s.nextFree.2) := abandonNvm_keeps (Keeps.nextFree_snd hk)
  have h2 := Keeps.put (f := F.RST_CAUSE_LAST) (v := cause) (Keeps.resetWhere (p := fun f => f.clr.testBit 0) h1)
  refine ⟨fun hr => ?_, h1.pending, h1.out, h1.freeCtr⟩
  have hc := h2.canonical hr
  simp only [State.canonical, Bool.and_eq_true] at hc
  show (_ && _ && _) = true
  rw [Bool.and_eq_true, Bool.and_eq_true]
  exact ⟨⟨hc.1.1, Eq.refl _⟩, Eq.refl _⟩

theorem powerOn_keeps {s₀ : State} {vaux hot : Bool} {s : State}
    (hk : Keeps s₀ s) : Keeps s₀ (powerOn vaux hot s) := by
  unfold powerOn
  try dsimp only
  repeat' first
    | with_reducible assumption
    | dsimp only
    | with_reducible apply Keeps.put
    | with_reducible apply coldReset_keeps
    | with_reducible apply setPower_keeps
    | with_reducible apply thermTrip_keeps
    | with_reducible apply Keeps.when
    | with_reducible apply Keeps.foldl
    | with_reducible apply Keeps.foldl_snd
    | split
    | intro _ _ _
    | intro _ _
    | intro _
    | (simp only [keeps_mk]; first | refine KeepsParts.of ?_)

theorem resetN_keeps {s₀ : State} {ns : Nat} {taken : Bool} {s : State}
    (hk : Keeps s₀ s) : Keeps s₀ (resetN ns taken s) := by
  unfold resetN
  try dsimp only
  repeat' first
    | with_reducible assumption
    | dsimp only
    | with_reducible apply coldReset_keeps
    | with_reducible apply Keeps.when
    | split
    | intro _ _ _
    | intro _ _
    | intro _

theorem brownoutReset_keeps {s₀ : State} {a b : Nat} {s : State}
    (hk : Keeps s₀ s) : Keeps s₀ (brownoutReset a b s) := by
  unfold brownoutReset
  try dsimp only
  repeat' first
    | with_reducible assumption
    | dsimp only
    | with_reducible apply Keeps.put
    | with_reducible apply coldReset_keeps
    | with_reducible apply warningStart_keeps
    | split
    | intro _ _ _
    | intro _ _
    | intro _

theorem powerDown_keeps {s₀ : State} {s : State}
    (hk : Keeps s₀ s) : Keeps s₀ (powerDown s) := by
  unfold powerDown
  try dsimp only
  repeat' first
    | with_reducible assumption
    | dsimp only
    | with_reducible apply powerOn_keeps
    | with_reducible apply setPower_keeps
    | with_reducible apply thermTrip_keeps
    | split
    | intro _ _ _
    | intro _ _
    | intro _
    | (simp only [keeps_mk]; first | refine KeepsParts.of ?_)

theorem thermTrip_keeps {s₀ : State} {s : State}
    (hk : Keeps s₀ s) : Keeps s₀ (thermTrip s) := by
  unfold thermTrip
  try dsimp only
  repeat' first
    | with_reducible assumption
    | dsimp only
    | with_reducible apply setPower_keeps
    | split
    | intro _ _ _
    | intro _ _
    | intro _
    | (simp only [keeps_mk]; first | refine KeepsParts.of ?_)

theorem warmStart_keeps {s₀ : State} {s : State}
    (hk : Keeps s₀ s) : Keeps s₀ (warmStart s) := by
  unfold warmStart
  try dsimp only
  repeat' first
    | with_reducible assumption
    | dsimp only
    | with_reducible apply Keeps.put
    | with_reducible apply massifIdle_keeps
    | with_reducible apply setPower_keeps
    | with_reducible apply Keeps.each
    | split
    | intro _ _ _
    | intro _ _
    | intro _
    | (simp only [keeps_mk]; first | refine KeepsParts.of ?_)

theorem warmChannels_keeps {s₀ : State} {s : State}
    (hk : Keeps s₀ s) : Keeps s₀ (warmChannels s) := by
  unfold warmChannels
  try dsimp only
  repeat' first
    | with_reducible assumption
    | dsimp only
    | with_reducible apply hbmRefresh_keeps
    | with_reducible apply Keeps.each
    | split
    | intro _ _ _
    | intro _ _
    | intro _
    | (simp only [keeps_mk]; first | refine KeepsParts.of ?_)

theorem warmDrainDone_keeps {s₀ : State} {s : State}
    (hk : Keeps s₀ s) : Keeps s₀ (warmDrainDone s) := by
  unfold warmDrainDone
  try dsimp only
  repeat' first
    | with_reducible assumption
    | dsimp only
    | with_reducible apply Keeps.put
    | with_reducible apply setPower_keeps
    | with_reducible apply Keeps.when
    | split
    | intro _ _ _
    | intro _ _
    | intro _
    | (simp only [keeps_mk]; first | refine KeepsParts.of ?_)

theorem warmWrittenBack_keeps {s₀ : State} {s : State}
    (hk : Keeps s₀ s) : Keeps s₀ (warmWrittenBack s) := by
  unfold warmWrittenBack
  try dsimp only
  repeat' first
    | with_reducible assumption
    | dsimp only
    | with_reducible apply hbmSelfRefEnter_keeps
    | with_reducible apply l2WriteBack_keeps
    | with_reducible apply setPower_keeps
    | split
    | intro _ _ _
    | intro _ _
    | intro _
    | (simp only [keeps_mk]; first | refine KeepsParts.of ?_)

theorem warmRidge_keeps {s₀ : State} {s : State}
    (hk : Keeps s₀ s) : Keeps s₀ (warmRidge s) := by
  unfold warmRidge
  try dsimp only
  repeat' first
    | with_reducible assumption
    | dsimp only
    | with_reducible apply State.setOutReqs_keeps
    | with_reducible apply Keeps.each
    | dsimp only [id]
    | split
    | intro _ _ _
    | intro _ _
    | intro _
    | (simp only [keeps_mk]; first | refine KeepsParts.of ?_)

theorem warmLanes_keeps {s₀ : State} {s : State}
    (hk : Keeps s₀ s) : Keeps s₀ (warmLanes s) := by
  unfold warmLanes
  try dsimp only
  repeat' first
    | with_reducible assumption
    | dsimp only
    | with_reducible apply State.setCxp_keeps
    | with_reducible apply State.setGv_keeps
    | with_reducible apply laneRefresh_keeps
    | with_reducible apply Keeps.each
    | split
    | intro _ _ _
    | intro _ _
    | intro _
    | (simp only [keeps_mk]; first | refine KeepsParts.of ?_)

theorem warmMassif_keeps {s₀ : State} {m : Nat} {s : State}
    (hk : Keeps s₀ s) : Keeps s₀ (warmMassif m s) := by
  unfold warmMassif
  try dsimp only
  repeat' first
    | with_reducible assumption
    | dsimp only
    | with_reducible apply State.setCore_keeps
    | with_reducible apply State.setMassif_keeps
    | with_reducible apply State.setShelf_keeps
    | with_reducible apply clearCols_keeps
    | with_reducible apply clearQueues_keeps
    | with_reducible apply clearTiles_keeps
    | with_reducible apply massifIdle_keeps
    | with_reducible apply returnCredits_keeps
    | split
    | intro _ _ _
    | intro _ _
    | intro _
    | (simp only [keeps_mk]; first | refine KeepsParts.of ?_)

theorem warmClear_keeps {s₀ : State} {s : State}
    (hk : Keeps s₀ s) : Keeps s₀ (warmClear s) := by
  unfold warmClear
  try dsimp only
  repeat' first
    | with_reducible assumption
    | dsimp only
    | with_reducible apply bucketsFill_keeps
    | with_reducible apply cachesDrop_keeps
    | with_reducible apply massifBegin_keeps
    | with_reducible apply Keeps.resetWhere
    | with_reducible apply setPower_keeps
    | with_reducible apply warmChannels_keeps
    | with_reducible apply warmLanes_keeps
    | with_reducible apply warmMassif_keeps
    | with_reducible apply warmRidge_keeps
    | with_reducible apply Keeps.each
    | split
    | intro _ _ _
    | intro _ _
    | intro _
    | (simp only [keeps_mk]; first | refine KeepsParts.of ?_)

theorem warmResume_keeps {s₀ : State} {s : State}
    (hk : Keeps s₀ s) : Keeps s₀ (warmResume s) := by
  unfold warmResume
  try dsimp only
  repeat' first
    | with_reducible assumption
    | dsimp only
    | with_reducible apply State.irq_keeps
    | with_reducible apply Keeps.put
    | with_reducible apply enterHello_keeps
    | with_reducible apply hbmSelfRefLeave_keeps
    | with_reducible apply leadStart_keeps
    | with_reducible apply setPower_keeps
    | with_reducible apply Keeps.when
    | with_reducible apply Keeps.foldl
    | with_reducible apply Keeps.foldl_snd
    | split
    | intro _ _ _
    | intro _ _
    | intro _
    | (simp only [keeps_mk]; first | refine KeepsParts.of ?_)

theorem setRest_keeps {s₀ : State} {st : Nat} {s : State}
    (hk : Keeps s₀ s) : Keeps s₀ (setRest st s) := by
  unfold setRest
  try dsimp only
  repeat' first
    | with_reducible assumption
    | dsimp only
    | with_reducible apply State.irq_keeps
    | with_reducible apply Keeps.put
    | split
    | intro _ _ _
    | intro _ _
    | intro _

theorem restEnter_keeps {s₀ : State} {s : State}
    (hk : Keeps s₀ s) : Keeps s₀ (restEnter s) := by
  unfold restEnter
  try dsimp only
  repeat' first
    | with_reducible assumption
    | dsimp only
    | with_reducible apply State.setIrq_keeps
    | with_reducible apply gateWrite_keeps
    | with_reducible apply setPower_keeps
    | with_reducible apply setRest_keeps
    | with_reducible apply Keeps.foldl
    | with_reducible apply Keeps.foldl_snd
    | split
    | intro _ _ _
    | intro _ _
    | intro _
    | (simp only [keeps_mk]; first | refine KeepsParts.of ?_)

theorem restProceed_keeps {s₀ : State} {s : State}
    (hk : Keeps s₀ s) : Keeps s₀ (restProceed s) := by
  unfold restProceed
  try dsimp only
  repeat' first
    | with_reducible assumption
    | dsimp only
    | with_reducible apply hbmSelfRefEnter_keeps
    | with_reducible apply l2WriteBack_keeps
    | with_reducible apply lowPower_keeps
    | with_reducible apply pllLockLoss_keeps
    | with_reducible apply setPower_keeps
    | with_reducible apply setRest_keeps
    | with_reducible apply Keeps.when
    | with_reducible apply Keeps.each
    | with_reducible apply Keeps.foldl
    | with_reducible apply Keeps.foldl_snd
    | split
    | intro _ _ _
    | intro _ _
    | intro _
    | (simp only [keeps_mk]; first | refine KeepsParts.of ?_)

theorem restTimeout_keeps {s₀ : State} {s : State}
    (hk : Keeps s₀ s) : Keeps s₀ (restTimeout s) := by
  unfold restTimeout
  try dsimp only
  repeat' first
    | with_reducible assumption
    | dsimp only
    | with_reducible apply State.setIrq_keeps
    | with_reducible apply gateWrite_keeps
    | with_reducible apply setRest_keeps
    | with_reducible apply Keeps.when
    | with_reducible apply Keeps.foldl
    | with_reducible apply Keeps.foldl_snd
    | split
    | intro _ _ _
    | intro _ _
    | intro _

theorem restExit_keeps {s₀ : State} {wake : Bool} {s : State}
    (hk : Keeps s₀ s) : Keeps s₀ (restExit wake s) := by
  unfold restExit
  try dsimp only
  repeat' first
    | with_reducible assumption
    | dsimp only
    | with_reducible apply setPower_keeps
    | with_reducible apply setRest_keeps
    | with_reducible apply wakeStart_keeps
    | with_reducible apply Keeps.foldl
    | with_reducible apply Keeps.foldl_snd
    | split
    | intro _ _ _
    | intro _ _
    | intro _
    | (simp only [keeps_mk]; first | refine KeepsParts.of ?_)

theorem restExitDone_keeps {s₀ : State} {s : State}
    (hk : Keeps s₀ s) : Keeps s₀ (restExitDone s) := by
  unfold restExitDone
  try dsimp only
  repeat' first
    | with_reducible assumption
    | dsimp only
    | with_reducible apply hbmSelfRefLeave_keeps
    | with_reducible apply leaveLowPower_keeps
    | with_reducible apply setPower_keeps
    | with_reducible apply setRest_keeps
    | with_reducible apply warmStart_keeps
    | with_reducible apply Keeps.when
    | with_reducible apply Keeps.foldl
    | with_reducible apply Keeps.foldl_snd
    | split
    | intro _ _ _
    | intro _ _
    | intro _
    | (simp only [keeps_mk]; first | refine KeepsParts.of ?_)

theorem restCtlWrite_keeps {s₀ : State} {v : Word} {s : State}
    (hk : Keeps s₀ s) : Keeps s₀ (restCtlWrite v s) := by
  unfold restCtlWrite
  try dsimp only
  repeat' first
    | with_reducible assumption
    | dsimp only
    | with_reducible apply restEnter_keeps
    | with_reducible apply restExit_keeps
    | with_reducible apply Keeps.when
    | split
    | intro _ _ _
    | intro _ _
    | intro _

theorem warmRequest_keeps {s₀ : State} {s : State}
    (hk : Keeps s₀ s) : Keeps s₀ (warmRequest s) := by
  unfold warmRequest
  try dsimp only
  repeat' first
    | with_reducible assumption
    | dsimp only
    | with_reducible apply Keeps.put
    | with_reducible apply restExit_keeps
    | with_reducible apply setPower_keeps
    | with_reducible apply warmStart_keeps
    | split
    | intro _ _ _
    | intro _ _
    | intro _
    | (simp only [keeps_mk]; first | refine KeepsParts.of ?_)

theorem rstCtlWrite_keeps {s₀ : State} {v : Word} {s : State}
    (hk : Keeps s₀ s) : Keeps s₀ (rstCtlWrite v s) := by
  unfold rstCtlWrite
  try dsimp only
  repeat' first
    | with_reducible assumption
    | dsimp only
    | with_reducible apply Keeps.put
    | with_reducible apply coldReset_keeps
    | with_reducible apply warmRequest_keeps
    | with_reducible apply Keeps.when
    | split
    | intro _ _ _
    | intro _ _
    | intro _

theorem warmDeferred_keeps {s₀ : State} {s : State}
    (hk : Keeps s₀ s) : Keeps s₀ (warmDeferred s) := by
  unfold warmDeferred
  try dsimp only
  repeat' first
    | with_reducible assumption
    | dsimp only
    | with_reducible apply warmStart_keeps
    | with_reducible apply Keeps.when
    | split
    | intro _ _ _
    | intro _ _
    | intro _

theorem mrstRefused_keeps {s₀ : State} {m : Nat} {s : State}
    (hk : Keeps s₀ s) : Keeps s₀ (mrstRefused m s) := by
  unfold mrstRefused
  try dsimp only
  repeat' first
    | with_reducible assumption
    | dsimp only
    | with_reducible apply State.setIrq_keeps
    | split
    | intro _ _ _
    | intro _ _
    | intro _

theorem massifReset_keeps {s₀ : State} {m : Nat} {s : State}
    (hk : Keeps s₀ s) : Keeps s₀ (massifReset m s) := by
  unfold massifReset
  try dsimp only
  repeat' first
    | with_reducible assumption
    | dsimp only
    | with_reducible apply State.setMassif_keeps
    | with_reducible apply State.setOutReqs_keeps
    | with_reducible apply State.setShelf_keeps
    | with_reducible apply beatsSettle_keeps
    | with_reducible apply callerDown_keeps
    | with_reducible apply clearQueues_keeps
    | with_reducible apply clearTiles_keeps
    | with_reducible apply dropPosted_keeps
    | with_reducible apply gated_keeps
    | with_reducible apply massifBegin_keeps
    | with_reducible apply massifIdle_keeps
    | with_reducible apply mrstRefused_keeps
    | with_reducible apply Keeps.resetWhere
    | with_reducible apply returnCredits_keeps
    | with_reducible apply withholdCols_keeps
    | with_reducible apply Keeps.when
    | split
    | intro _ _ _
    | intro _ _
    | intro _
    | (simp only [keeps_mk]; first | refine KeepsParts.of ?_)

theorem massifResetDone_keeps {s₀ : State} {m : Nat} {s : State}
    (hk : Keeps s₀ s) : Keeps s₀ (massifResetDone m s) := by
  unfold massifResetDone
  try dsimp only
  repeat' first
    | with_reducible assumption
    | dsimp only
    | with_reducible apply State.setMassif_keeps
    | with_reducible apply returnCredits_keeps
    | with_reducible apply Keeps.when
    | split
    | intro _ _ _
    | intro _ _
    | intro _
    | (simp only [keeps_mk]; first | refine KeepsParts.of ?_)

theorem callerReset_keeps {s₀ : State} {m : Nat} {s : State}
    (hk : Keeps s₀ s) : Keeps s₀ (callerReset m s) := by
  unfold callerReset
  try dsimp only
  repeat' first
    | with_reducible assumption
    | dsimp only
    | with_reducible apply callerDown_keeps
    | with_reducible apply dropPosted_keeps
    | with_reducible apply mrstRefused_keeps
    | with_reducible apply Keeps.resetWhere
    | split
    | intro _ _ _
    | intro _ _
    | intro _

theorem laneGroupReset_keeps {s₀ : State} {g : Nat} {s : State}
    (hk : Keeps s₀ s) : Keeps s₀ (laneGroupReset g s) := by
  unfold laneGroupReset
  try dsimp only
  repeat' first
    | with_reducible assumption
    | dsimp only
    | with_reducible apply Keeps.put
    | with_reducible apply State.setCxp_keeps
    | with_reducible apply State.setEthCl_keeps
    | with_reducible apply State.setGv_keeps
    | with_reducible apply State.setIrq_keeps
    | with_reducible apply State.setOutReqs_keeps
    | with_reducible apply laneRefresh_keeps
    | with_reducible apply pairLinkDown_keeps
    | with_reducible apply Keeps.resetWhere
    | with_reducible apply wireEnd_keeps
    | with_reducible apply Keeps.when
    | with_reducible apply Keeps.each
    | split
    | intro _ _ _
    | intro _ _
    | intro _
    | (simp only [keeps_mk]; first | refine KeepsParts.of ?_)

theorem laneGroupResetDone_keeps {s₀ : State} {g : Nat} {s : State}
    (hk : Keeps s₀ s) : Keeps s₀ (laneGroupResetDone g s) := by
  unfold laneGroupResetDone
  try dsimp only
  repeat' first
    | with_reducible assumption
    | dsimp only
    | with_reducible apply Keeps.put
    | with_reducible apply Keeps.when
    | split
    | intro _ _ _
    | intro _ _
    | intro _

theorem rstLgWrite_keeps {s₀ : State} {v : Word} {s : State}
    (hk : Keeps s₀ s) : Keeps s₀ (rstLgWrite v s) := by
  unfold rstLgWrite
  try dsimp only
  repeat' first
    | with_reducible assumption
    | dsimp only
    | with_reducible apply laneGroupReset_keeps
    | with_reducible apply Keeps.when
    | with_reducible apply Keeps.each
    | split
    | intro _ _ _
    | intro _ _
    | intro _

theorem mrstWrite_keeps {s₀ : State} {m : Nat} {v : Word} {s : State}
    (hk : Keeps s₀ s) : Keeps s₀ (mrstWrite m v s) := by
  unfold mrstWrite
  try dsimp only
  repeat' first
    | with_reducible assumption
    | dsimp only
    | with_reducible apply callerReset_keeps
    | with_reducible apply massifReset_keeps
    | with_reducible apply Keeps.when
    | split
    | intro _ _ _
    | intro _ _
    | intro _

theorem laneRailLoss_keeps {s₀ : State} {s : State}
    (hk : Keeps s₀ s) : Keeps s₀ (laneRailLoss s) := by
  unfold laneRailLoss
  try dsimp only
  repeat' first
    | with_reducible assumption
    | dsimp only
    | with_reducible apply laneLos_keeps
    | with_reducible apply Keeps.each
    | split
    | intro _ _ _
    | intro _ _
    | intro _

theorem beatDelivery_keeps {s₀ : State} {s : State}
    (hk : Keeps s₀ s) : Keeps s₀ (beatDelivery s) := by
  unfold beatDelivery
  try dsimp only
  repeat' first
    | with_reducible assumption
    | dsimp only
    | with_reducible apply beatReach_keeps
    | with_reducible apply beatWake_keeps
    | with_reducible apply epochBeat_keeps
    | with_reducible apply restExit_keeps
    | with_reducible apply Keeps.when
    | with_reducible apply Keeps.each
    | split
    | intro _ _ _
    | intro _ _
    | intro _
    | (simp only [keeps_mk]; first | refine KeepsParts.of ?_)

end Sys2Proof.Machine
end

