-- ==== Sys2Proof/Laws/KeepsHost.lean ====
section
/-! SUPPORT. What the operations of Machine/Host.lean keep (Laws/Keeps.lean). -/

namespace Sys2Proof.Machine

open Sys2Proof

theorem setHost_keeps {s₀ : State} {f : HostIf → HostIf} {s : State}
    (hk : Keeps s₀ s) : Keeps s₀ (setHost f s) := by
  unfold setHost
  try dsimp only
  repeat' first
    | with_reducible assumption
    | dsimp only
    | split
    | intro _ _ _
    | intro _ _
    | intro _
    | (simp only [keeps_mk]; first | refine KeepsParts.of ?_)

theorem setFn_keeps {s₀ : State} {e : Nat} {x : PciFn} {s : State}
    (hk : Keeps s₀ s) : Keeps s₀ (setFn e x s) := by
  unfold setFn
  try dsimp only
  repeat' first
    | with_reducible assumption
    | dsimp only
    | with_reducible apply setHost_keeps
    | split
    | intro _ _ _
    | intro _ _
    | intro _
    | (simp only [keeps_mk]; first | refine KeepsParts.of ?_)

theorem pcieConfigure_keeps {s₀ : State} {l : List (Word × Word × Word)} {e : Nat} {s : State}
    (hk : Keeps s₀ s) : Keeps s₀ (pcieConfigure l e s) := by
  unfold pcieConfigure
  try dsimp only
  repeat' first
    | with_reducible assumption
    | dsimp only
    | with_reducible apply Keeps.put
    | with_reducible apply setFn_keeps
    | with_reducible apply Keeps.when
    | with_reducible apply Keeps.each
    | split
    | intro _ _ _
    | intro _ _
    | intro _
    | (simp only [keeps_mk]; first | refine KeepsParts.of ?_)

theorem pciCtlWritten_keeps {s₀ : State} {e : Nat} {s : State}
    (hk : Keeps s₀ s) : Keeps s₀ (pciCtlWritten e s) := by
  unfold pciCtlWritten
  try dsimp only
  repeat' first
    | with_reducible assumption
    | dsimp only
    | with_reducible apply setFn_keeps
    | with_reducible apply Keeps.when
    | split
    | intro _ _ _
    | intro _ _
    | intro _
    | (simp only [keeps_mk]; first | refine KeepsParts.of ?_)

theorem pcieTaps_keeps {s₀ : State} {e width : Nat} {s : State}
    (hk : Keeps s₀ s) : Keeps s₀ (pcieTaps e width s) := by
  unfold pcieTaps
  try dsimp only
  repeat' first
    | with_reducible assumption
    | dsimp only
    | with_reducible refine Keeps.nextFree (by assumption) ?_
    | with_reducible apply Keeps.nextFree_snd
    | with_reducible apply Keeps.nextFree_snd
    | with_reducible apply Keeps.put
    | with_reducible apply Keeps.each
    | split
    | intro _ _ _
    | intro _ _
    | intro _

theorem pcieLinkUp_keeps {s₀ : State} {e gen width : Nat} {s : State}
    (hk : Keeps s₀ s) : Keeps s₀ (pcieLinkUp e gen width s) := by
  unfold pcieLinkUp
  try dsimp only
  repeat' first
    | with_reducible assumption
    | dsimp only
    | with_reducible apply State.irq_keeps
    | with_reducible apply Keeps.put
    | with_reducible apply pcieTaps_keeps
    | with_reducible apply relock_keeps
    | with_reducible apply Keeps.when
    | with_reducible apply Keeps.each
    | split
    | intro _ _ _
    | intro _ _
    | intro _

theorem pcieLinkFall_keeps {s₀ : State} {e : Nat} {s : State}
    (hk : Keeps s₀ s) : Keeps s₀ (pcieLinkFall e s) := by
  unfold pcieLinkFall
  try dsimp only
  repeat' first
    | with_reducible assumption
    | dsimp only
    | with_reducible apply State.irq_keeps
    | with_reducible apply Keeps.put
    | with_reducible apply Keeps.when
    | split
    | intro _ _ _
    | intro _ _
    | intro _

theorem endpointResets_keeps {s₀ : State} {e : Nat} {link : Bool} {s : State}
    (hk : Keeps s₀ s) : Keeps s₀ (endpointResets e link s) := by
  unfold endpointResets
  try dsimp only
  repeat' first
    | with_reducible assumption
    | dsimp only
    | with_reducible apply State.irq_keeps
    | with_reducible apply Keeps.put
    | with_reducible apply State.setOutReqs_keeps
    | with_reducible apply pcieLinkFall_keeps
    | with_reducible apply Keeps.resetWhere
    | with_reducible apply setFn_keeps
    | with_reducible apply setHost_keeps
    | with_reducible apply wireEnd_keeps
    | with_reducible apply Keeps.when
    | with_reducible apply Keeps.each
    | split
    | intro _ _ _
    | intro _ _
    | intro _
    | (simp only [keeps_mk]; first | refine KeepsParts.of ?_)

theorem endpointReset_keeps {s₀ : State} {e : Nat} {kind : EndpointReset} {s : State}
    (hk : Keeps s₀ s) : Keeps s₀ (endpointReset e kind s) := by
  unfold endpointReset
  try dsimp only
  repeat' first
    | with_reducible assumption
    | dsimp only
    | with_reducible apply Keeps.put
    | with_reducible apply endpointResets_keeps
    | split
    | intro _ _ _
    | intro _ _
    | intro _
    | (simp only [keeps_mk]; first | refine KeepsParts.of ?_)

theorem badReq_keeps {s₀ : State} {e : Nat} {s : State}
    (hk : Keeps s₀ s) : Keeps s₀ (badReq e s) := by
  unfold badReq
  try dsimp only
  repeat' first
    | with_reducible assumption
    | dsimp only
    | with_reducible apply State.count_keeps
    | split
    | intro _ _ _
    | intro _ _
    | intro _

theorem barRefuse_keeps {s₀ : State} {e tag : Nat} {write : Bool} {s : State}
    (hk : Keeps s₀ s) : Keeps s₀ (barRefuse e tag write s) := by
  unfold barRefuse
  try dsimp only
  repeat' first
    | with_reducible assumption
    | dsimp only
    | with_reducible apply Keeps.emit
    | with_reducible apply badReq_keeps
    | with_reducible apply Keeps.when
    | split
    | intro _ _ _
    | intro _ _
    | intro _

theorem bar0Request_keeps {s₀ : State} {e tag : Nat} {write : Bool} {addr : Nat} {d : Word} {ep bad : Bool} {s : State}
    (hk : Keeps s₀ s) : Keeps s₀ (bar0Request e tag write addr d ep bad s) := by
  unfold bar0Request
  try dsimp only
  repeat' first
    | with_reducible assumption
    | dsimp only
    | with_reducible apply State.count_keeps
    | with_reducible apply Keeps.emit
    | with_reducible apply badReq_keeps
    | with_reducible apply barRefuse_keeps
    | with_reducible apply niRequest_keeps
    | with_reducible apply Keeps.when
    | split
    | intro _ _ _
    | intro _ _
    | intro _
    | (simp only [keeps_mk]; first | refine KeepsParts.of ?_)

theorem bar2Pump_keeps {s₀ : State} {e : Nat} {x0 : Nat} {s : State}
    (hk : Keeps s₀ s) : Keeps s₀ (bar2Pump e x0 s) := by
  induction x0 generalizing e s with
  | zero =>
    simp only [bar2Pump]
    repeat' first
      | with_reducible assumption
      | with_reducible apply ih
      | dsimp only
      | with_reducible apply niRequest_keeps
      | with_reducible apply setHost_keeps
      | split
      | intro _ _ _
      | intro _ _
      | intro _
      | (simp only [keeps_mk]; first | refine KeepsParts.of ?_)
  | succ n ih =>
    simp only [bar2Pump]
    repeat' first
      | with_reducible assumption
      | with_reducible apply ih
      | dsimp only
      | with_reducible apply niRequest_keeps
      | with_reducible apply setHost_keeps
      | split
      | intro _ _ _
      | intro _ _
      | intro _
      | (simp only [keeps_mk]; first | refine KeepsParts.of ?_)

theorem bar2Request_keeps {s₀ : State} {e tag : Nat} {write : Bool} {addr : Nat} {bytes : List (Byte × Bool)} {ep : Bool} {s : State}
    (hk : Keeps s₀ s) : Keeps s₀ (bar2Request e tag write addr bytes ep s) := by
  unfold bar2Request
  try dsimp only
  repeat' first
    | with_reducible assumption
    | dsimp only
    | with_reducible apply State.count_keeps
    | with_reducible apply Keeps.emit
    | with_reducible apply badReq_keeps
    | with_reducible apply bar2Pump_keeps
    | with_reducible apply setHost_keeps
    | with_reducible apply Keeps.when
    | split
    | intro _ _ _
    | intro _ _
    | intro _
    | (simp only [keeps_mk]; first | refine KeepsParts.of ?_)

theorem msixRaise_keeps {s₀ : State} {e v : Nat} {s : State}
    (hk : Keeps s₀ s) : Keeps s₀ (msixRaise e v s) := by
  unfold msixRaise
  try dsimp only
  repeat' first
    | with_reducible assumption
    | dsimp only
    | with_reducible apply Keeps.emit
    | with_reducible apply setHost_keeps
    | split
    | intro _ _ _
    | intro _ _
    | intro _
    | (simp only [keeps_mk]; first | refine KeepsParts.of ?_)

theorem msixFlush_keeps {s₀ : State} {e : Nat} {s : State}
    (hk : Keeps s₀ s) : Keeps s₀ (msixFlush e s) := by
  unfold msixFlush
  try dsimp only
  repeat' first
    | with_reducible assumption
    | dsimp only
    | with_reducible apply msixRaise_keeps
    | with_reducible apply Keeps.when
    | with_reducible apply Keeps.each
    | split
    | intro _ _ _
    | intro _ _
    | intro _

theorem msixMessage_keeps {s₀ : State} {e v : Nat} {s : State}
    (hk : Keeps s₀ s) : Keeps s₀ (msixMessage e v s) := by
  unfold msixMessage
  try dsimp only
  repeat' first
    | with_reducible assumption
    | dsimp only
    | with_reducible apply msixRaise_keeps
    | with_reducible apply setHost_keeps
    | with_reducible apply Keeps.when
    | split
    | intro _ _ _
    | intro _ _
    | intro _
    | (simp only [keeps_mk]; first | refine KeepsParts.of ?_)

theorem bar4Write_keeps {s₀ : State} {e off : Nat} {d : Word} {s : State}
    (hk : Keeps s₀ s) : Keeps s₀ (bar4Write e off d s) := by
  unfold bar4Write
  try dsimp only
  repeat' first
    | with_reducible assumption
    | dsimp only
    | with_reducible apply setHost_keeps
    | split
    | intro _ _ _
    | intro _ _
    | intro _
    | (simp only [keeps_mk]; first | refine KeepsParts.of ?_)

theorem msixAccess_keeps {s₀ : State} {e : Nat} {a : MsixAccess} {s : State}
    (hk : Keeps s₀ s) : Keeps s₀ (msixAccess e a s) := by
  unfold msixAccess
  try dsimp only
  repeat' first
    | with_reducible assumption
    | dsimp only
    | with_reducible apply Keeps.emit
    | with_reducible apply bar4Write_keeps
    | with_reducible apply msixFlush_keeps
    | with_reducible apply setFn_keeps
    | with_reducible apply Keeps.when
    | split
    | intro _ _ _
    | intro _ _
    | intro _
    | (simp only [keeps_mk]; first | refine KeepsParts.of ?_)

theorem setDmaChan_keeps {s₀ : State} {e c : Nat} {x : DmaChan} {s : State}
    (hk : Keeps s₀ s) : Keeps s₀ (setDmaChan e c x s) := by
  unfold setDmaChan
  try dsimp only
  repeat' first
    | with_reducible assumption
    | dsimp only
    | with_reducible apply setHost_keeps
    | split
    | intro _ _ _
    | intro _ _
    | intro _
    | (simp only [keeps_mk]; first | refine KeepsParts.of ?_)

theorem dmaTailWrite_keeps {s₀ : State} {e c : Nat} {v : Word} {s : State}
    (hk : Keeps s₀ s) : Keeps s₀ (dmaTailWrite e c v s) := by
  unfold dmaTailWrite
  try dsimp only
  repeat' first
    | with_reducible assumption
    | dsimp only
    | with_reducible apply State.load_keeps
    | split
    | intro _ _ _
    | intro _ _
    | intro _

theorem dmaCtlWrite_keeps {s₀ : State} {e c : Nat} {v : Word} {s : State}
    (hk : Keeps s₀ s) : Keeps s₀ (dmaCtlWrite e c v s) := by
  unfold dmaCtlWrite
  try dsimp only
  repeat' first
    | with_reducible assumption
    | dsimp only
    | with_reducible apply State.loadAll_keeps
    | with_reducible apply Keeps.put
    | with_reducible apply Keeps.when
    | split
    | intro _ _ _
    | intro _ _
    | intro _

theorem dmaComplete_keeps {s₀ : State} {e c : Nat} {irq poison : Bool} {count : Nat} {s : State}
    (hk : Keeps s₀ s) : Keeps s₀ (dmaComplete e c irq poison count s) := by
  unfold dmaComplete
  try dsimp only
  repeat' first
    | with_reducible assumption
    | dsimp only
    | with_reducible apply Keeps.emit
    | with_reducible apply State.irq_keeps
    | with_reducible apply Keeps.put
    | with_reducible apply Keeps.when
    | split
    | intro _ _ _
    | intro _ _
    | intro _

theorem dmaError_keeps {s₀ : State} {e c code : Nat} {poison : Bool} {count : Nat} {s : State}
    (hk : Keeps s₀ s) : Keeps s₀ (dmaError e c code poison count s) := by
  unfold dmaError
  try dsimp only
  repeat' first
    | with_reducible assumption
    | dsimp only
    | with_reducible apply Keeps.emit
    | with_reducible apply State.irq_keeps
    | with_reducible apply Keeps.put
    | with_reducible apply Keeps.when
    | split
    | intro _ _ _
    | intro _ _
    | intro _

theorem poisonedTx_keeps {s₀ : State} {e : Nat} {any : Bool} {s : State}
    (hk : Keeps s₀ s) : Keeps s₀ (poisonedTx e any s) := by
  unfold poisonedTx
  try dsimp only
  repeat' first
    | with_reducible assumption
    | dsimp only
    | with_reducible apply State.count_keeps
    | with_reducible refine Keeps.nextFree (by assumption) ?_
    | with_reducible apply Keeps.nextFree_snd
    | with_reducible apply Keeps.nextFree_snd
    | split
    | intro _ _ _
    | intro _ _
    | intro _

theorem poisonedRx_keeps {s₀ : State} {e : Nat} {any : Bool} {s : State}
    (hk : Keeps s₀ s) : Keeps s₀ (poisonedRx e any s) := by
  unfold poisonedRx
  try dsimp only
  repeat' first
    | with_reducible assumption
    | dsimp only
    | with_reducible apply State.count_keeps
    | with_reducible refine Keeps.nextFree (by assumption) ?_
    | with_reducible apply Keeps.nextFree_snd
    | with_reducible apply Keeps.nextFree_snd
    | split
    | intro _ _ _
    | intro _ _
    | intro _

theorem dmaClose_keeps {s₀ : State} {e c : Nat} {s : State}
    (hk : Keeps s₀ s) : Keeps s₀ (dmaClose e c s) := by
  unfold dmaClose
  try dsimp only
  repeat' first
    | with_reducible assumption
    | dsimp only
    | with_reducible apply State.irq_keeps
    | with_reducible apply dmaComplete_keeps
    | with_reducible apply setDmaChan_keeps
    | split
    | intro _ _ _
    | intro _ _
    | intro _
    | (simp only [keeps_mk]; first | refine KeepsParts.of ?_)

theorem dmaWork_keeps {s₀ : State} {e c : Nat} {w : DmaWork} {s : State}
    (hk : Keeps s₀ s) : Keeps s₀ (dmaWork e c w s) := by
  unfold dmaWork
  try dsimp only
  repeat' first
    | with_reducible assumption
    | dsimp only
    | with_reducible apply Keeps.emit
    | with_reducible apply State.irq_keeps
    | with_reducible apply dmaComplete_keeps
    | with_reducible apply dmaError_keeps
    | with_reducible apply poisonedTx_keeps
    | with_reducible apply setDmaChan_keeps
    | with_reducible refine wireAsk_keeps (by assumption) ?_
    | with_reducible apply wireAsk_keeps_snd
    | with_reducible apply wireEnd_keeps
    | with_reducible apply wireRewind_keeps
    | split
    | intro _ _ _
    | intro _ _
    | intro _
    | (simp only [keeps_mk]; first | refine KeepsParts.of ?_)

theorem dmaBegin_keeps {s₀ : State} {e c err : Nat} {bytes : List Byte} {data : List (Byte × Bool)} {s0 : State}
    (hk : Keeps s₀ s0) : Keeps s₀ (dmaBegin e c err bytes data s0) := by
  unfold dmaBegin
  try dsimp only
  repeat' first
    | with_reducible assumption
    | dsimp only
    | with_reducible apply Keeps.emit
    | with_reducible apply State.irq_keeps
    | with_reducible apply dmaError_keeps
    | with_reducible apply dmaWork_keeps
    | with_reducible apply poisonedRx_keeps
    | with_reducible apply setDmaChan_keeps
    | with_reducible apply Keeps.when
    | with_reducible apply OptKeeps.getD
    | split
    | intro _ _ _
    | intro _ _
    | intro _

theorem bufferOpen_keeps {s₀ : State} {e c err : Nat} {bytes : List Byte} {s0 : State}
    (hk : Keeps s₀ s0) : Keeps s₀ (bufferOpen e c err bytes s0) := by
  unfold bufferOpen
  try dsimp only
  repeat' first
    | with_reducible assumption
    | dsimp only
    | with_reducible apply Keeps.emit
    | with_reducible apply dmaError_keeps
    | with_reducible apply setDmaChan_keeps
    | split
    | intro _ _ _
    | intro _ _
    | intro _
    | (simp only [keeps_mk]; first | refine KeepsParts.of ?_)

theorem dmaDescriptor_keeps {s₀ : State} {e c err : Nat} {bytes : List Byte} {data : List (Byte × Bool)} {s : State}
    (hk : Keeps s₀ s) : Keeps s₀ (dmaDescriptor e c err bytes data s) := by
  unfold dmaDescriptor
  try dsimp only
  repeat' first
    | with_reducible assumption
    | dsimp only
    | with_reducible apply bufferOpen_keeps
    | with_reducible apply dmaBegin_keeps
    | with_reducible apply dmaClose_keeps
    | with_reducible apply dmaWork_keeps
    | split
    | intro _ _ _
    | intro _ _
    | intro _
    | (simp only [keeps_mk]; first | refine KeepsParts.of ?_)

theorem dmaHold_keeps {s₀ : State} {e c : Nat} {s : State}
    (hk : Keeps s₀ s) : Keeps s₀ (dmaHold e c s) := by
  unfold dmaHold
  try dsimp only
  repeat' first
    | with_reducible assumption
    | dsimp only
    | with_reducible apply dmaClose_keeps
    | split
    | intro _ _ _
    | intro _ _
    | intro _
    | (simp only [keeps_mk]; first | refine KeepsParts.of ?_)

theorem dmaTakes_keeps_snd {s₀ : State} {e c : Nat} {r : Report} {bytes : List Byte} {s : State}
    (hk : Keeps s₀ s) : Keeps s₀ (dmaTakes e c r bytes s).2 := by
  unfold dmaTakes
  try dsimp only
  repeat' first
    | with_reducible assumption
    | dsimp only
    | with_reducible apply Keeps.emit
    | with_reducible apply bufferOpen_keeps
    | with_reducible apply poisonedTx_keeps
    | with_reducible apply setDmaChan_keeps
    | split
    | intro _ _ _
    | intro _ _
    | intro _
    | (simp only [keeps_mk]; first | refine KeepsParts.of ?_)

theorem dmaTakes_keeps {s₀ : State} {e c : Nat} {r : Report} {bytes : List Byte} {s : State} {y₁ t₁} (e₁ : dmaTakes e c r bytes s = (y₁, t₁))
    (hk : Keeps s₀ s) : Keeps s₀ t₁ := by
  have k := dmaTakes_keeps_snd (s₀ := s₀) (e := e) (c := c) (r := r) (bytes := bytes) (s := s) hk
  rw [e₁] at k
  exact k

theorem sinkTakes_keeps_snd {s₀ : State} {r : Report} {bytes : List Byte} {s : State}
    (hk : Keeps s₀ s) : Keeps s₀ (sinkTakes r bytes s).2 := by
  unfold sinkTakes
  try dsimp only
  repeat' first
    | with_reducible assumption
    | dsimp only
    | with_reducible refine dmaTakes_keeps (by assumption) ?_
    | with_reducible apply dmaTakes_keeps_snd
    | with_reducible apply ethAddReport_keeps
    | split
    | intro _ _ _
    | intro _ _
    | intro _

theorem sinkTakes_keeps {s₀ : State} {r : Report} {bytes : List Byte} {s : State} {y₁ t₁} (e₁ : sinkTakes r bytes s = (y₁, t₁))
    (hk : Keeps s₀ s) : Keeps s₀ t₁ := by
  have k := sinkTakes_keeps_snd (s₀ := s₀) (r := r) (bytes := bytes) (s := s) hk
  rw [e₁] at k
  exact k

theorem outHead_keeps {s₀ : State} {bad : List Nat} {s : State}
    (hk : Keeps s₀ s) : Keeps s₀ (outHead bad s) := by
  unfold outHead
  try dsimp only
  repeat' first
    | with_reducible assumption
    | dsimp only
    | split
    | intro _ _ _
    | intro _ _
    | intro _
    | (simp only [keeps_mk]; first | refine KeepsParts.of ?_)

theorem collectorOutput_keeps {s₀ : State} {bytes : List Byte} {bad : List Nat} {s : State}
    (hk : Keeps s₀ s) : Keeps s₀ (collectorOutput bytes bad s) := by
  unfold collectorOutput
  try dsimp only
  repeat' first
    | with_reducible assumption
    | dsimp only
    | with_reducible apply colPassed_keeps
    | with_reducible apply digestAdd_keeps
    | with_reducible apply holdReport_keeps
    | with_reducible apply outHead_keeps
    | with_reducible apply setPair_keeps
    | with_reducible refine sinkTakes_keeps (by assumption) ?_
    | with_reducible apply sinkTakes_keeps_snd
    | split
    | intro _ _ _
    | intro _ _
    | intro _
    | (simp only [keeps_mk]; first | refine KeepsParts.of ?_)

theorem mgmtAnswer_keeps {s₀ : State} {read waits : Bool} {a : VnReply} {s : State}
    (hk : Keeps s₀ s) : Keeps s₀ (mgmtAnswer read waits a s) := by
  unfold mgmtAnswer
  try dsimp only
  repeat' first
    | with_reducible assumption
    | dsimp only
    | with_reducible apply Keeps.emit
    | with_reducible apply setHost_keeps
    | with_reducible apply Keeps.when
    | split
    | intro _ _ _
    | intro _ _
    | intro _
    | (simp only [keeps_mk]; first | refine KeepsParts.of ?_)

theorem mgmtPump_keeps {s₀ : State} {x0 : Nat} {s : State}
    (hk : Keeps s₀ s) : Keeps s₀ (mgmtPump x0 s) := by
  induction x0 generalizing s with
  | zero =>
    simp only [mgmtPump]
    repeat' first
      | with_reducible assumption
      | with_reducible apply ih
      | dsimp only
      | with_reducible apply mgmtAnswer_keeps
      | with_reducible apply niRequest_keeps
      | with_reducible apply setHost_keeps
      | with_reducible apply OptKeeps.getD
      | split
      | intro _ _ _
      | intro _ _
      | intro _
      | (simp only [keeps_mk]; first | refine KeepsParts.of ?_)
  | succ n ih =>
    simp only [mgmtPump]
    repeat' first
      | with_reducible assumption
      | with_reducible apply ih
      | dsimp only
      | with_reducible apply mgmtAnswer_keeps
      | with_reducible apply niRequest_keeps
      | with_reducible apply setHost_keeps
      | with_reducible apply OptKeeps.getD
      | split
      | intro _ _ _
      | intro _ _
      | intro _
      | (simp only [keeps_mk]; first | refine KeepsParts.of ?_)

theorem mgmtAsk_keeps {s₀ : State} {a : Nat} {w : Option Word} {waits : Bool} {s : State}
    (hk : Keeps s₀ s) : Keeps s₀ (mgmtAsk a w waits s) := by
  unfold mgmtAsk
  try dsimp only
  repeat' first
    | with_reducible assumption
    | dsimp only
    | with_reducible apply mgmtPump_keeps
    | with_reducible apply setHost_keeps
    | split
    | intro _ _ _
    | intro _ _
    | intro _
    | (simp only [keeps_mk]; first | refine KeepsParts.of ?_)

theorem mgmtWord_keeps {s₀ : State} {a : Nat} {w : Word} {s : State}
    (hk : Keeps s₀ s) : Keeps s₀ (mgmtWord a w s) := by
  unfold mgmtWord
  try dsimp only
  repeat' first
    | with_reducible assumption
    | dsimp only
    | with_reducible apply mgmtAsk_keeps
    | with_reducible apply setHost_keeps
    | with_reducible apply smcRefused_keeps
    | split
    | intro _ _ _
    | intro _ _
    | intro _
    | (simp only [keeps_mk]; first | refine KeepsParts.of ?_)

theorem mgmtWrite_keeps {s₀ : State} {a : Nat} {x0 : List Word} {s : State}
    (hk : Keeps s₀ s) : Keeps s₀ (mgmtWrite a x0 s) := by
  induction x0 generalizing a s with
  | nil =>
    simp only [mgmtWrite]
    repeat' first
      | with_reducible assumption
      | with_reducible apply ih
      | dsimp only
      | with_reducible apply mgmtWord_keeps
      | split
      | intro _ _ _
      | intro _ _
      | intro _
  | cons a l ih =>
    simp only [mgmtWrite]
    repeat' first
      | with_reducible assumption
      | with_reducible apply ih
      | dsimp only
      | with_reducible apply mgmtWord_keeps
      | split
      | intro _ _ _
      | intro _ _
      | intro _

theorem mgmtRead_keeps {s₀ : State} {a : Nat} {waits : Bool} {s : State}
    (hk : Keeps s₀ s) : Keeps s₀ (mgmtRead a waits s) := by
  unfold mgmtRead
  try dsimp only
  repeat' first
    | with_reducible assumption
    | dsimp only
    | with_reducible apply mgmtAsk_keeps
    | split
    | intro _ _ _
    | intro _ _
    | intro _

theorem mgmtUnknown_keeps {s₀ : State} {s : State}
    (hk : Keeps s₀ s) : Keeps s₀ (mgmtUnknown s) := by
  unfold mgmtUnknown
  try dsimp only
  repeat' first
    | with_reducible assumption
    | dsimp only
    | with_reducible apply State.count_keeps
    | split
    | intro _ _ _
    | intro _ _
    | intro _

theorem mbxWrite_keeps {s₀ : State} {master : Master} {act : State → State} {s : State} (hact : ∀  t, Keeps s₀ t → Keeps s₀ (act  t))
    (hk : Keeps s₀ s) : Keeps s₀ (mbxWrite master act s) := by
  unfold mbxWrite
  try dsimp only
  repeat' first
    | with_reducible assumption
    | with_reducible apply hact
    | dsimp only
    | with_reducible apply smcRefused_keeps
    | split
    | intro _ _ _
    | intro _ _
    | intro _

theorem smcStart_keeps {s₀ : State} {r : SmcRun} {s : State}
    (hk : Keeps s₀ s) : Keeps s₀ (smcStart r s) := by
  unfold smcStart
  try dsimp only
  repeat' first
    | with_reducible assumption
    | dsimp only
    | with_reducible apply Keeps.put
    | with_reducible apply setHost_keeps
    | split
    | intro _ _ _
    | intro _ _
    | intro _
    | (simp only [keeps_mk]; first | refine KeepsParts.of ?_)

theorem smcEnd_keeps {s₀ : State} {result : Nat} {s : State}
    (hk : Keeps s₀ s) : Keeps s₀ (smcEnd result s) := by
  unfold smcEnd
  try dsimp only
  repeat' first
    | with_reducible assumption
    | dsimp only
    | with_reducible apply State.irq_keeps
    | with_reducible apply Keeps.put
    | with_reducible apply result_keeps
    | with_reducible refine CoreKeeps.of_ok (result_keeps ?_) (by assumption)
    | with_reducible refine CoreKeeps.of_trap (result_keeps ?_) (by assumption)
    | with_reducible refine CoreKeeps.of_stall (result_keeps ?_) (by assumption)
    | with_reducible apply setHost_keeps
    | split
    | intro _ _ _
    | intro _ _
    | intro _
    | (simp only [keeps_mk]; first | refine KeepsParts.of ?_)

theorem smcCommand_keeps {s₀ : State} {code : Nat} {s : State}
    (hk : Keeps s₀ s) : Keeps s₀ (smcCommand code s) := by
  unfold smcCommand
  try dsimp only
  repeat' first
    | with_reducible assumption
    | dsimp only
    | with_reducible apply Keeps.put
    | with_reducible apply coldReset_keeps
    | with_reducible apply smcEnd_keeps
    | with_reducible apply smcStart_keeps
    | split
    | intro _ _ _
    | intro _ _
    | intro _

theorem cmdWrite_keeps {s₀ : State} {master : Master} {code : Nat} {s : State}
    (hk : Keeps s₀ s) : Keeps s₀ (cmdWrite master code s) := by
  unfold cmdWrite
  try dsimp only
  repeat' first
    | with_reducible assumption
    | dsimp only
    | with_reducible apply mbxWrite_keeps
    | with_reducible apply smcCommand_keeps
    | split
    | intro _ _ _
    | intro _ _
    | intro _

theorem mbxClaim_keeps {s₀ : State} {master : Master} {s : State}
    (hk : Keeps s₀ s) : Keeps s₀ (mbxClaim master s) := by
  unfold mbxClaim
  try dsimp only
  repeat' first
    | with_reducible assumption
    | dsimp only
    | with_reducible apply Keeps.put
    | with_reducible apply smcRefused_keeps
    | with_reducible apply Keeps.when
    | split
    | intro _ _ _
    | intro _ _
    | intro _

theorem mbxRelease_keeps {s₀ : State} {master : Master} {s : State}
    (hk : Keeps s₀ s) : Keeps s₀ (mbxRelease master s) := by
  unfold mbxRelease
  try dsimp only
  repeat' first
    | with_reducible assumption
    | dsimp only
    | with_reducible apply Keeps.put
    | with_reducible apply smcRefused_keeps
    | with_reducible apply Keeps.when
    | split
    | intro _ _ _
    | intro _ _
    | intro _

theorem mbxOwnWrite_keeps {s₀ : State} {master : Master} {v : Word} {s : State}
    (hk : Keeps s₀ s) : Keeps s₀ (mbxOwnWrite master v s) := by
  unfold mbxOwnWrite
  try dsimp only
  repeat' first
    | with_reducible assumption
    | dsimp only
    | with_reducible apply mbxClaim_keeps
    | with_reducible apply mbxRelease_keeps
    | with_reducible apply smcRefused_keeps
    | with_reducible apply Keeps.when
    | split
    | intro _ _ _
    | intro _ _
    | intro _

theorem selfCommit_keeps {s₀ : State} {row : Nat} {s : State}
    (hk : Keeps s₀ s) : Keeps s₀ (selfCommit row s) := by
  unfold selfCommit
  try dsimp only
  repeat' first
    | with_reducible assumption
    | dsimp only
    | with_reducible apply Keeps.put
    | with_reducible apply smcStart_keeps
    | split
    | intro _ _ _
    | intro _ _
    | intro _
    | (simp only [keeps_mk]; first | refine KeepsParts.of ?_)

theorem selfEnd_keeps {s₀ : State} {s : State}
    (hk : Keeps s₀ s) : Keeps s₀ (selfEnd s) := by
  unfold selfEnd
  try dsimp only
  repeat' first
    | with_reducible assumption
    | dsimp only
    | with_reducible apply Keeps.put
    | with_reducible apply setHost_keeps
    | split
    | intro _ _ _
    | intro _ _
    | intro _
    | (simp only [keeps_mk]; first | refine KeepsParts.of ?_)

end Sys2Proof.Machine
end

