-- ==== Sys2Proof/Laws/KeepsRegs.lean ====
section
/-! SUPPORT. What the operations of Machine/Regs.lean keep (Laws/Keeps.lean). -/

namespace Sys2Proof.Machine

open Sys2Proof

theorem readSpecial_keeps {s₀ : State} {p : Page} {a off : Nat} {bad : Bool} {s : State}
    (hk : Keeps s₀ s) : ReadKeeps s₀ (readSpecial p a off bad s) := by
  unfold readSpecial
  try dsimp only
  repeat' first
    | with_reducible assumption
    | with_reducible refine ReadKeeps.some ?_
    | with_reducible refine ReadKeeps.map _ ?_
    | with_reducible refine ReadKeeps.bind _ ?_
    | exact ReadKeeps.none
    | dsimp only
    | with_reducible apply CoreRes.bind_keeps
    | with_reducible refine CoreKeeps.of_ok (CoreRes.bind_keeps ?_) (by assumption)
    | with_reducible refine CoreKeeps.of_trap (CoreRes.bind_keeps ?_) (by assumption)
    | with_reducible refine CoreKeeps.of_stall (CoreRes.bind_keeps ?_) (by assumption)
    | with_reducible apply Loading.bind_keeps
    | with_reducible refine LoadKeeps.of_going (Loading.bind_keeps ?_) (by assumption)
    | with_reducible refine LoadKeeps.of_failed (Loading.bind_keeps ?_) (by assumption)
    | with_reducible refine LoadKeeps.of_waits (Loading.bind_keeps ?_) (by assumption)
    | with_reducible apply ceRead_keeps
    | with_reducible refine dbgRead_keeps (by assumption) ?_
    | with_reducible apply dbgRead_keeps_snd
    | with_reducible refine phcRead_keeps (by assumption) ?_
    | with_reducible apply phcRead_keeps_snd
    | with_reducible refine queueGet_keeps (by assumption) ?_
    | with_reducible apply queueGet_keeps_snd
    | with_reducible refine tdbgRead_keeps (by assumption) ?_
    | with_reducible apply tdbgRead_keeps_snd
    | split
    | intro _ _ _
    | intro _ _
    | intro _
    | (simp only [keeps_mk]; first | refine KeepsParts.of ?_)

theorem readReg_keeps_snd {s₀ : State} {addr : Nat} {bad : Bool} {s : State}
    (hk : Keeps s₀ s) : Keeps s₀ (readReg addr bad s).2.2.2 := by
  unfold readReg
  try dsimp only
  repeat' first
    | with_reducible assumption
    | dsimp only
    | with_reducible apply readSpecial_keeps
    | with_reducible refine ReadKeeps.of_some (readSpecial_keeps ?_) (by assumption)
    | split
    | intro _ _ _
    | intro _ _
    | intro _
    | (simp only [keeps_mk]; first | refine KeepsParts.of ?_)

theorem readReg_keeps {s₀ : State} {addr : Nat} {bad : Bool} {s : State} {y₁ y₂ y₃ t₁} (e₁ : readReg addr bad s = (y₁, y₂, y₃, t₁))
    (hk : Keeps s₀ s) : Keeps s₀ t₁ := by
  have k := readReg_keeps_snd (s₀ := s₀) (addr := addr) (bad := bad) (s := s) hk
  rw [e₁] at k
  exact k

theorem writeField_keeps {s₀ : State} {acc : Access} {f : Fld} {v : Word} {s : State}
    (hk : Keeps s₀ s) : Keeps s₀ (writeField acc f v s) := by
  unfold writeField
  try dsimp only
  repeat' first
    | with_reducible assumption
    | dsimp only
    | with_reducible apply Keeps.put
    | with_reducible apply Keeps.when
    | split
    | intro _ _ _
    | intro _ _
    | intro _
    | (simp only [keeps_mk]; first | refine KeepsParts.of ?_)

theorem plainWrite_keeps {s₀ : State} {p : Page} {a b off : Nat} {v : Word} {s : State}
    (hk : Keeps s₀ s) : Keeps s₀ (plainWrite p a b off v s) := by
  unfold plainWrite
  try dsimp only
  repeat' first
    | with_reducible assumption
    | dsimp only
    | with_reducible apply writeField_keeps
    | with_reducible apply Keeps.foldl
    | with_reducible apply Keeps.foldl_snd
    | split
    | intro _ _ _
    | intro _ _
    | intro _

theorem clCtlWrite_keeps {s₀ : State} {m : Nat} {v : Word} {s : State}
    (hk : Keeps s₀ s) : Keeps s₀ (clCtlWrite m v s) := by
  unfold clCtlWrite
  try dsimp only
  repeat' first
    | with_reducible assumption
    | dsimp only
    | with_reducible apply callerRun_keeps
    | with_reducible apply coreResume_keeps
    | with_reducible apply haltRequest_keeps
    | with_reducible apply stepRequest_keeps
    | with_reducible apply Keeps.when
    | split
    | intro _ _ _
    | intro _ _
    | intro _

theorem leadCtlWrite_keeps {s₀ : State} {i : Nat} {v : Word} {s : State}
    (hk : Keeps s₀ s) : Keeps s₀ (leadCtlWrite i v s) := by
  unfold leadCtlWrite
  try dsimp only
  repeat' first
    | with_reducible assumption
    | dsimp only
    | with_reducible apply coreResume_keeps
    | with_reducible apply haltRequest_keeps
    | with_reducible apply leadRestart_keeps
    | with_reducible apply stepRequest_keeps
    | with_reducible apply Keeps.when
    | split
    | intro _ _ _
    | intro _ _
    | intro _

theorem writeSpecial_keeps {s₀ : State} {who : Master} {p : Page} {a b off : Nat} {v : Word} {s : State}
    (hk : Keeps s₀ s) : OptKeeps s₀ (writeSpecial who p a b off v s) := by
  unfold writeSpecial
  try dsimp only
  repeat' first
    | with_reducible assumption
    | with_reducible refine OptKeeps.some ?_
    | with_reducible refine OptKeeps.map _ ?_
    | with_reducible refine OptKeeps.bind _ ?_
    | exact OptKeeps.none
    | dsimp only
    | with_reducible apply CoreRes.bind_keeps
    | with_reducible refine CoreKeeps.of_ok (CoreRes.bind_keeps ?_) (by assumption)
    | with_reducible refine CoreKeeps.of_trap (CoreRes.bind_keeps ?_) (by assumption)
    | with_reducible refine CoreKeeps.of_stall (CoreRes.bind_keeps ?_) (by assumption)
    | with_reducible apply Loading.bind_keeps
    | with_reducible refine LoadKeeps.of_going (Loading.bind_keeps ?_) (by assumption)
    | with_reducible refine LoadKeeps.of_failed (Loading.bind_keeps ?_) (by assumption)
    | with_reducible refine LoadKeeps.of_waits (Loading.bind_keeps ?_) (by assumption)
    | with_reducible apply State.load_keeps
    | with_reducible refine Keeps.nextFree (by assumption) ?_
    | with_reducible apply Keeps.nextFree_snd
    | with_reducible apply Keeps.nextFree_snd
    | with_reducible apply Keeps.put
    | with_reducible apply activation_keeps
    | with_reducible apply arg3Write_keeps
    | with_reducible apply bcCtlWrite_keeps
    | with_reducible apply bellClear_keeps
    | with_reducible apply bmAccess_keeps
    | with_reducible apply bmCfgWrite_keeps
    | with_reducible apply boCtlWrite_keeps
    | with_reducible apply boLevelWrite_keeps
    | with_reducible apply ccCtlWrite_keeps
    | with_reducible apply cfgRelWrite_keeps
    | with_reducible apply ckptPost_keeps
    | with_reducible apply clCtlWrite_keeps
    | with_reducible apply cmdWrite_keeps
    | with_reducible apply cxpLinewWrite_keeps
    | with_reducible apply cxpLinkWrite_keeps
    | with_reducible apply dbgWrite_keeps
    | with_reducible apply dmaCtlWrite_keeps
    | with_reducible apply dmaTailWrite_keeps
    | with_reducible apply encCtlWrite_keeps
    | with_reducible apply encPosWrite_keeps
    | with_reducible apply ethCtlWrite_keeps
    | with_reducible apply feedCtlWrite_keeps
    | with_reducible apply feedSwitch_keeps
    | with_reducible apply fpllWrite_keeps
    | with_reducible apply gateWrite_keeps
    | with_reducible apply grpCtlWrite_keeps
    | with_reducible apply gvWrite_keeps
    | with_reducible apply hbmInit_keeps
    | with_reducible apply hbmMapWrite_keeps
    | with_reducible apply hbmRefresh_keeps
    | with_reducible apply hwClr_keeps
    | with_reducible apply ldCtlWrite_keeps
    | with_reducible apply leadCtlWrite_keeps
    | with_reducible apply loadWindow_keeps
    | with_reducible apply mbxOwnWrite_keeps
    | with_reducible apply mbxWrite_keeps
    | with_reducible apply mclkWrite_keeps
    | with_reducible apply mrstWrite_keeps
    | with_reducible apply pairCfgWrite_keeps
    | with_reducible apply pairCmdWrite_keeps
    | with_reducible apply pciCtlWritten_keeps
    | with_reducible apply phcLoad_keeps
    | with_reducible apply phcStage_keeps
    | with_reducible apply phcStep_keeps
    | with_reducible apply plainWrite_keeps
    | with_reducible apply queuePut_keeps
    | with_reducible apply releaseAtSend_keeps
    | with_reducible apply restCtlWrite_keeps
    | with_reducible apply rgCfgWrite_keeps
    | with_reducible apply rstCtlWrite_keeps
    | with_reducible apply rstLgWrite_keeps
    | with_reducible apply seqCmdWrite_keeps
    | with_reducible apply seqCtlWrite_keeps
    | with_reducible apply shelfClear_keeps
    | with_reducible apply shpWrite_keeps
    | with_reducible apply snapCapture_keeps
    | with_reducible apply sqBindWrite_keeps
    | with_reducible apply sqCmdWrite_keeps
    | with_reducible apply sqCtlWrite_keeps
    | with_reducible apply sqQuotaWrite_keeps
    | with_reducible apply summitSend_keeps
    | with_reducible apply tdbgWrite_keeps
    | with_reducible apply tempoRefresh_keeps
    | with_reducible apply Keeps.when
    | split
    | intro _ _ _
    | intro _ _
    | intro _
    | (simp only [keeps_mk]; first | refine KeepsParts.of ?_)

theorem irqForce_keeps {s₀ : State} {b : Nat} {v : Word} {s : State}
    (hk : Keeps s₀ s) : Keeps s₀ (irqForce b v s) := by
  unfold irqForce
  try dsimp only
  repeat' first
    | with_reducible assumption
    | dsimp only
    | with_reducible apply Keeps.put
    | split
    | intro _ _ _
    | intro _ _
    | intro _

theorem lockSet_keeps {s₀ : State} {b : Nat} {v : Word} {s : State}
    (hk : Keeps s₀ s) : Keeps s₀ (lockSet b v s) := by
  unfold lockSet
  try dsimp only
  repeat' first
    | with_reducible assumption
    | dsimp only
    | with_reducible apply Keeps.put
    | with_reducible apply Keeps.when
    | split
    | intro _ _ _
    | intro _ _
    | intro _

theorem writePage_keeps {s₀ : State} {who : Master} {p : Page} {a b off : Nat} {v : Word} {s : State}
    (hk : Keeps s₀ s) : Keeps s₀ (writePage who p a b off v s) := by
  unfold writePage
  try dsimp only
  repeat' first
    | with_reducible assumption
    | dsimp only
    | with_reducible apply irqForce_keeps
    | with_reducible apply lockSet_keeps
    | with_reducible apply plainWrite_keeps
    | with_reducible apply writeSpecial_keeps
    | with_reducible refine OptKeeps.of_some (writeSpecial_keeps ?_) (by assumption)
    | with_reducible apply OptKeeps.getD
    | split
    | intro _ _ _
    | intro _ _
    | intro _

theorem writeReg_keeps_snd {s₀ : State} {who : Master} {addr : Nat} {v : Word} {s : State}
    (hk : Keeps s₀ s) : Keeps s₀ (writeReg who addr v s).2 := by
  unfold writeReg
  try dsimp only
  repeat' first
    | with_reducible assumption
    | dsimp only
    | with_reducible apply writePage_keeps
    | split
    | intro _ _ _
    | intro _ _
    | intro _
    | (simp only [keeps_mk]; first | refine KeepsParts.of ?_)

theorem writeReg_keeps {s₀ : State} {who : Master} {addr : Nat} {v : Word} {s : State} {y₁ t₁} (e₁ : writeReg who addr v s = (y₁, t₁))
    (hk : Keeps s₀ s) : Keeps s₀ t₁ := by
  have k := writeReg_keeps_snd (s₀ := s₀) (who := who) (addr := addr) (v := v) (s := s) hk
  rw [e₁] at k
  exact k

end Sys2Proof.Machine
end

