-- ==== Sys2Proof/Laws/KeepsImage.lean ====
section
/-! SUPPORT. What the operations of Machine/Image.lean keep (Laws/Keeps.lean). -/

namespace Sys2Proof.Machine

open Sys2Proof

/-- The state in `x`, if there is one, comes from `r`. -/
inductive LoadKeeps (r : State) : Loading → Prop where
  | going {a : LoadAcc} (h : Keeps r a.s) : LoadKeeps r (.going a)
  | failed {k : Nat} {s : State} (h : Keeps r s) : LoadKeeps r (.failed k s)
  | waits {a : LoadAcc} (h : Keeps r a.s) : LoadKeeps r (.waits a)

theorem LoadKeeps.of_going {r : State} {a : LoadAcc} {x : Loading} (h : LoadKeeps r x) (e : x = .going a) :
    Keeps r a.s := by
  subst e
  cases h
  assumption

theorem LoadKeeps.of_waits {r : State} {a : LoadAcc} {x : Loading} (h : LoadKeeps r x) (e : x = .waits a) :
    Keeps r a.s := by
  subst e
  cases h
  assumption

theorem LoadKeeps.of_failed {r s : State} {k : Nat} {x : Loading} (h : LoadKeeps r x) (e : x = .failed k s) :
    Keeps r s := by
  subst e
  cases h
  assumption

theorem ImgRes.bind_keeps_snd {α β : Type} {s₀ : State} {x : ImgRes α × State} {f : α → State → ImgRes β × State}
    (hk : Keeps s₀ x.2 ∧ ∀ v t, Keeps s₀ t → Keeps s₀ (f v t).2) : Keeps s₀ (ImgRes.bind x f).2 := by
  obtain ⟨r, t⟩ := x
  cases r with
  | got v => exact hk.2 v t hk.1
  | failed k => exact hk.1
  | waits => exact hk.1

theorem ImgRes.bind_keeps {α β : Type} {s₀ : State} {x : ImgRes α × State} {f : α → State → ImgRes β × State} {y : ImgRes β}
    {t : State} (e : ImgRes.bind x f = (y, t)) (hk : Keeps s₀ x.2 ∧ ∀ v t, Keeps s₀ t → Keeps s₀ (f v t).2) : Keeps s₀ t := by
  have k := ImgRes.bind_keeps_snd hk
  rw [e] at k
  exact k

theorem srcRead_keeps_snd {s₀ : State} {src : ImgSrc} {off n : Nat} {s : State}
    (hk : Keeps s₀ s) : Keeps s₀ (srcRead src off n s).2 := by
  unfold srcRead
  try dsimp only
  repeat' first
    | with_reducible assumption
    | dsimp only
    | with_reducible apply Keeps.emit
    | with_reducible refine wireAsk_keeps (by assumption) ?_
    | with_reducible apply wireAsk_keeps_snd
    | split
    | intro _ _ _
    | intro _ _
    | intro _
    | (simp only [keeps_mk]; first | refine KeepsParts.of ?_)

theorem srcRead_keeps {s₀ : State} {src : ImgSrc} {off n : Nat} {s : State} {y₁ t₁} (e₁ : srcRead src off n s = (y₁, t₁))
    (hk : Keeps s₀ s) : Keeps s₀ t₁ := by
  have k := srcRead_keeps_snd (s₀ := s₀) (src := src) (off := off) (n := n) (s := s) hk
  rw [e₁] at k
  exact k

theorem readHeader_keeps_snd {s₀ : State} {src : ImgSrc} {s : State}
    (hk : Keeps s₀ s) : Keeps s₀ (readHeader src s).2 := by
  unfold readHeader
  try dsimp only
  repeat' first
    | with_reducible assumption
    | dsimp only
    | with_reducible apply CoreRes.bind_keeps
    | with_reducible refine CoreKeeps.of_ok (CoreRes.bind_keeps ?_) (by assumption)
    | with_reducible refine CoreKeeps.of_trap (CoreRes.bind_keeps ?_) (by assumption)
    | with_reducible refine CoreKeeps.of_stall (CoreRes.bind_keeps ?_) (by assumption)
    | with_reducible refine ImgRes.bind_keeps (by assumption) ?_
    | with_reducible apply ImgRes.bind_keeps_snd
    | with_reducible apply Loading.bind_keeps
    | with_reducible refine LoadKeeps.of_going (Loading.bind_keeps ?_) (by assumption)
    | with_reducible refine LoadKeeps.of_failed (Loading.bind_keeps ?_) (by assumption)
    | with_reducible refine LoadKeeps.of_waits (Loading.bind_keeps ?_) (by assumption)
    | with_reducible refine srcRead_keeps (by assumption) ?_
    | with_reducible apply srcRead_keeps_snd
    | with_reducible refine And.intro ?_ ?_
    | split
    | intro _ _ _
    | intro _ _
    | intro _

theorem readHeader_keeps {s₀ : State} {src : ImgSrc} {s : State} {y₁ t₁} (e₁ : readHeader src s = (y₁, t₁))
    (hk : Keeps s₀ s) : Keeps s₀ t₁ := by
  have k := readHeader_keeps_snd (s₀ := s₀) (src := src) (s := s) hk
  rw [e₁] at k
  exact k

theorem checkSigned_keeps_snd {s₀ : State} {src : ImgSrc} {h : List Byte} {s : State}
    (hk : Keeps s₀ s) : Keeps s₀ (checkSigned src h s).2 := by
  unfold checkSigned
  try dsimp only
  repeat' first
    | with_reducible assumption
    | dsimp only
    | with_reducible apply CoreRes.bind_keeps
    | with_reducible refine CoreKeeps.of_ok (CoreRes.bind_keeps ?_) (by assumption)
    | with_reducible refine CoreKeeps.of_trap (CoreRes.bind_keeps ?_) (by assumption)
    | with_reducible refine CoreKeeps.of_stall (CoreRes.bind_keeps ?_) (by assumption)
    | with_reducible refine ImgRes.bind_keeps (by assumption) ?_
    | with_reducible apply ImgRes.bind_keeps_snd
    | with_reducible apply Loading.bind_keeps
    | with_reducible refine LoadKeeps.of_going (Loading.bind_keeps ?_) (by assumption)
    | with_reducible refine LoadKeeps.of_failed (Loading.bind_keeps ?_) (by assumption)
    | with_reducible refine LoadKeeps.of_waits (Loading.bind_keeps ?_) (by assumption)
    | with_reducible refine srcRead_keeps (by assumption) ?_
    | with_reducible apply srcRead_keeps_snd
    | with_reducible refine And.intro ?_ ?_
    | split
    | intro _ _ _
    | intro _ _
    | intro _

theorem checkSigned_keeps {s₀ : State} {src : ImgSrc} {h : List Byte} {s : State} {y₁ t₁} (e₁ : checkSigned src h s = (y₁, t₁))
    (hk : Keeps s₀ s) : Keeps s₀ t₁ := by
  have k := checkSigned_keeps_snd (s₀ := s₀) (src := src) (h := h) (s := s) hk
  rw [e₁] at k
  exact k

theorem authImage_keeps_snd {s₀ : State} {src : ImgSrc} {s : State}
    (hk : Keeps s₀ s) : Keeps s₀ (authImage src s).2 := by
  unfold authImage
  try dsimp only
  repeat' first
    | with_reducible assumption
    | dsimp only
    | with_reducible apply CoreRes.bind_keeps
    | with_reducible refine CoreKeeps.of_ok (CoreRes.bind_keeps ?_) (by assumption)
    | with_reducible refine CoreKeeps.of_trap (CoreRes.bind_keeps ?_) (by assumption)
    | with_reducible refine CoreKeeps.of_stall (CoreRes.bind_keeps ?_) (by assumption)
    | with_reducible refine ImgRes.bind_keeps (by assumption) ?_
    | with_reducible apply ImgRes.bind_keeps_snd
    | with_reducible apply Loading.bind_keeps
    | with_reducible refine LoadKeeps.of_going (Loading.bind_keeps ?_) (by assumption)
    | with_reducible refine LoadKeeps.of_failed (Loading.bind_keeps ?_) (by assumption)
    | with_reducible refine LoadKeeps.of_waits (Loading.bind_keeps ?_) (by assumption)
    | with_reducible refine checkSigned_keeps (by assumption) ?_
    | with_reducible apply checkSigned_keeps_snd
    | with_reducible refine readHeader_keeps (by assumption) ?_
    | with_reducible apply readHeader_keeps_snd
    | with_reducible refine And.intro ?_ ?_
    | split
    | intro _ _ _
    | intro _ _
    | intro _

theorem authImage_keeps {s₀ : State} {src : ImgSrc} {s : State} {y₁ t₁} (e₁ : authImage src s = (y₁, t₁))
    (hk : Keeps s₀ s) : Keeps s₀ t₁ := by
  have k := authImage_keeps_snd (s₀ := s₀) (src := src) (s := s) hk
  rw [e₁] at k
  exact k

theorem digestsOk_keeps_snd {s₀ : State} {src : ImgSrc} {x0 : List Sect} {s : State}
    (hk : Keeps s₀ s) : Keeps s₀ (digestsOk src x0 s).2 := by
  induction x0 generalizing src s with
  | nil =>
    simp only [digestsOk]
    repeat' first
      | with_reducible assumption
      | with_reducible apply ih
      | dsimp only
      | with_reducible apply CoreRes.bind_keeps
      | with_reducible refine CoreKeeps.of_ok (CoreRes.bind_keeps ?_) (by assumption)
      | with_reducible refine CoreKeeps.of_trap (CoreRes.bind_keeps ?_) (by assumption)
      | with_reducible refine CoreKeeps.of_stall (CoreRes.bind_keeps ?_) (by assumption)
      | with_reducible refine ImgRes.bind_keeps (by assumption) ?_
      | with_reducible apply ImgRes.bind_keeps_snd
      | with_reducible apply Loading.bind_keeps
      | with_reducible refine LoadKeeps.of_going (Loading.bind_keeps ?_) (by assumption)
      | with_reducible refine LoadKeeps.of_failed (Loading.bind_keeps ?_) (by assumption)
      | with_reducible refine LoadKeeps.of_waits (Loading.bind_keeps ?_) (by assumption)
      | with_reducible refine srcRead_keeps (by assumption) ?_
      | with_reducible apply srcRead_keeps_snd
      | with_reducible refine And.intro ?_ ?_
      | split
      | intro _ _ _
      | intro _ _
      | intro _
  | cons a l ih =>
    simp only [digestsOk]
    repeat' first
      | with_reducible assumption
      | with_reducible apply ih
      | dsimp only
      | with_reducible apply CoreRes.bind_keeps
      | with_reducible refine CoreKeeps.of_ok (CoreRes.bind_keeps ?_) (by assumption)
      | with_reducible refine CoreKeeps.of_trap (CoreRes.bind_keeps ?_) (by assumption)
      | with_reducible refine CoreKeeps.of_stall (CoreRes.bind_keeps ?_) (by assumption)
      | with_reducible refine ImgRes.bind_keeps (by assumption) ?_
      | with_reducible apply ImgRes.bind_keeps_snd
      | with_reducible apply Loading.bind_keeps
      | with_reducible refine LoadKeeps.of_going (Loading.bind_keeps ?_) (by assumption)
      | with_reducible refine LoadKeeps.of_failed (Loading.bind_keeps ?_) (by assumption)
      | with_reducible refine LoadKeeps.of_waits (Loading.bind_keeps ?_) (by assumption)
      | with_reducible refine srcRead_keeps (by assumption) ?_
      | with_reducible apply srcRead_keeps_snd
      | with_reducible refine And.intro ?_ ?_
      | split
      | intro _ _ _
      | intro _ _
      | intro _

theorem digestsOk_keeps {s₀ : State} {src : ImgSrc} {x0 : List Sect} {s : State} {y₁ t₁} (e₁ : digestsOk src x0 s = (y₁, t₁))
    (hk : Keeps s₀ s) : Keeps s₀ t₁ := by
  have k := digestsOk_keeps_snd (s₀ := s₀) (src := src) (x0 := x0) (s := s) hk
  rw [e₁] at k
  exact k

theorem Loading.bind_keeps {s₀ : State} {x : Loading} {f : LoadAcc → Loading} (hx : LoadKeeps s₀ x)
    (hf : ∀ a, Keeps s₀ a.s → LoadKeeps s₀ (f a)) : LoadKeeps s₀ (x.bind f) := by
  cases hx with
  | going h => exact hf _ h
  | failed h => exact .failed h
  | waits h => exact .waits h

theorem sectionFault_keeps {s₀ : State} {s : State}
    (hk : Keeps s₀ s) : LoadKeeps s₀ (sectionFault s) := by
  unfold sectionFault
  try dsimp only
  repeat' first
    | with_reducible assumption
    | with_reducible refine LoadKeeps.going ?_
    | with_reducible refine LoadKeeps.failed ?_
    | with_reducible refine LoadKeeps.waits ?_
    | dsimp only
    | split
    | intro _ _ _
    | intro _ _
    | intro _

theorem LoadAcc.next_keeps {s₀ : State} {a : LoadAcc} {l : List Rec} {s : State}
    (hk : Keeps s₀ s) : LoadKeeps s₀ (LoadAcc.next a l s) := by
  unfold LoadAcc.next
  try dsimp only
  repeat' first
    | with_reducible assumption
    | with_reducible refine LoadKeeps.going ?_
    | with_reducible refine LoadKeeps.failed ?_
    | with_reducible refine LoadKeeps.waits ?_
    | dsimp only
    | with_reducible apply wireEnd_keeps
    | split
    | intro _ _ _
    | intro _ _
    | intro _
    | (simp only [keeps_mk]; first | refine KeepsParts.of ?_)

theorem smcAsk_keeps {s₀ : State} {a : LoadAcc} {ps : List Packet} {s : State} {f : List VnReply → State → Loading}
    (hf : ∀ rs t, Keeps s₀ t → LoadKeeps s₀ (f rs t)) (hk : Keeps s₀ s) : LoadKeeps s₀ (smcAsk a ps s f) := by
  unfold smcAsk
  split
  · rename_i e
    exact .waits (wireAsk_keeps e hk)
  · rename_i e
    split
    · exact sectionFault_keeps (wireAsk_keeps e hk)
    · exact hf _ _ (wireAsk_keeps e hk)

theorem applyReg_keeps {s₀ : State} {typ target : Nat} {r : Rec} {l : List Rec} {a : LoadAcc}
    (hk : Keeps s₀ a.s) : LoadKeeps s₀ (applyReg typ target r l a) := by
  unfold applyReg
  try dsimp only
  repeat' first
    | with_reducible assumption
    | with_reducible refine LoadKeeps.going ?_
    | with_reducible refine LoadKeeps.failed ?_
    | with_reducible refine LoadKeeps.waits ?_
    | dsimp only
    | with_reducible apply LoadAcc.next_keeps
    | with_reducible refine LoadKeeps.of_going (LoadAcc.next_keeps ?_) (by assumption)
    | with_reducible refine LoadKeeps.of_failed (LoadAcc.next_keeps ?_) (by assumption)
    | with_reducible refine LoadKeeps.of_waits (LoadAcc.next_keeps ?_) (by assumption)
    | with_reducible apply sectionFault_keeps
    | with_reducible refine LoadKeeps.of_going (sectionFault_keeps ?_) (by assumption)
    | with_reducible refine LoadKeeps.of_failed (sectionFault_keeps ?_) (by assumption)
    | with_reducible refine LoadKeeps.of_waits (sectionFault_keeps ?_) (by assumption)
    | with_reducible apply smcAsk_keeps
    | with_reducible refine LoadKeeps.of_going (smcAsk_keeps ?_) (by assumption)
    | with_reducible refine LoadKeeps.of_failed (smcAsk_keeps ?_) (by assumption)
    | with_reducible refine LoadKeeps.of_waits (smcAsk_keeps ?_) (by assumption)
    | with_reducible apply OptKeeps.getD
    | split
    | intro _ _ _
    | intro _ _
    | intro _
    | (simp only [keeps_mk]; first | refine KeepsParts.of ?_)

theorem applyData_keeps {s₀ : State} {typ target : Nat} {r : Rec} {l : List Rec} {a : LoadAcc}
    (hk : Keeps s₀ a.s) : LoadKeeps s₀ (applyData typ target r l a) := by
  unfold applyData
  try dsimp only
  repeat' first
    | with_reducible assumption
    | with_reducible refine LoadKeeps.going ?_
    | with_reducible refine LoadKeeps.failed ?_
    | with_reducible refine LoadKeeps.waits ?_
    | dsimp only
    | with_reducible apply LoadAcc.next_keeps
    | with_reducible refine LoadKeeps.of_going (LoadAcc.next_keeps ?_) (by assumption)
    | with_reducible refine LoadKeeps.of_failed (LoadAcc.next_keeps ?_) (by assumption)
    | with_reducible refine LoadKeeps.of_waits (LoadAcc.next_keeps ?_) (by assumption)
    | with_reducible apply sectionFault_keeps
    | with_reducible refine LoadKeeps.of_going (sectionFault_keeps ?_) (by assumption)
    | with_reducible refine LoadKeeps.of_failed (sectionFault_keeps ?_) (by assumption)
    | with_reducible refine LoadKeeps.of_waits (sectionFault_keeps ?_) (by assumption)
    | with_reducible apply smcAsk_keeps
    | with_reducible refine LoadKeeps.of_going (smcAsk_keeps ?_) (by assumption)
    | with_reducible refine LoadKeeps.of_failed (smcAsk_keeps ?_) (by assumption)
    | with_reducible refine LoadKeeps.of_waits (smcAsk_keeps ?_) (by assumption)
    | split
    | intro _ _ _
    | intro _ _
    | intro _

theorem applyFigure_keeps {s₀ : State} {m : Nat} {r : Rec} {l : List Rec} {a : LoadAcc}
    (hk : Keeps s₀ a.s) : LoadKeeps s₀ (applyFigure m r l a) := by
  unfold applyFigure
  try dsimp only
  repeat' first
    | with_reducible assumption
    | with_reducible refine LoadKeeps.going ?_
    | with_reducible refine LoadKeeps.failed ?_
    | with_reducible refine LoadKeeps.waits ?_
    | dsimp only
    | with_reducible apply LoadAcc.next_keeps
    | with_reducible refine LoadKeeps.of_going (LoadAcc.next_keeps ?_) (by assumption)
    | with_reducible refine LoadKeeps.of_failed (LoadAcc.next_keeps ?_) (by assumption)
    | with_reducible refine LoadKeeps.of_waits (LoadAcc.next_keeps ?_) (by assumption)
    | with_reducible apply State.irq_keeps
    | with_reducible apply Keeps.put
    | with_reducible apply figureFault_keeps
    | with_reducible apply scrambleSlot_keeps
    | with_reducible apply sectionFault_keeps
    | with_reducible refine LoadKeeps.of_going (sectionFault_keeps ?_) (by assumption)
    | with_reducible refine LoadKeeps.of_failed (sectionFault_keeps ?_) (by assumption)
    | with_reducible refine LoadKeeps.of_waits (sectionFault_keeps ?_) (by assumption)
    | with_reducible apply slotInvalid_keeps
    | with_reducible apply slotLoaded_keeps
    | split
    | intro _ _ _
    | intro _ _
    | intro _
    | (simp only [keeps_mk]; first | refine KeepsParts.of ?_ | refine KeepsParts.shelf ?_ (by first | exact SMap.wf_set _ _ _ _ | exact SMap.wf_clear _ _ _) | refine KeepsParts.bm ?_ (by first | exact SMap.wf_set _ _ _ _ | exact SMap.wf_clear _ _ _) | refine KeepsParts.hbm ?_ (by first | exact SMap.wf_set _ _ _ _ | exact SMap.wf_clear _ _ _ | exact fun _ => SMap.wf_nil _) | refine KeepsParts.ram ?_ (by first | exact SMap.wf_set _ _ _ _ | exact SMap.wf_clear _ _ _))

theorem applySteps_keeps {s₀ : State} {m : Nat} {b : List Byte} {l : List Rec} {a : LoadAcc}
    (hk : Keeps s₀ a.s) : LoadKeeps s₀ (applySteps m b l a) := by
  unfold applySteps
  try dsimp only
  repeat' first
    | with_reducible assumption
    | with_reducible refine LoadKeeps.going ?_
    | with_reducible refine LoadKeeps.failed ?_
    | with_reducible refine LoadKeeps.waits ?_
    | dsimp only
    | with_reducible apply Keeps.put
    | with_reducible apply State.putB_keeps
    | with_reducible apply sectionFault_keeps
    | with_reducible refine LoadKeeps.of_going (sectionFault_keeps ?_) (by assumption)
    | with_reducible refine LoadKeeps.of_failed (sectionFault_keeps ?_) (by assumption)
    | with_reducible refine LoadKeeps.of_waits (sectionFault_keeps ?_) (by assumption)
    | with_reducible apply Keeps.each
    | split
    | intro _ _ _
    | intro _ _
    | intro _
    | (simp only [keeps_mk]; first | refine KeepsParts.of ?_)

theorem applyBm_keeps {s₀ : State} {m k : Nat} {b : List Byte} {l : List Rec} {a : LoadAcc}
    (hk : Keeps s₀ a.s) : LoadKeeps s₀ (applyBm m k b l a) := by
  unfold applyBm
  try dsimp only
  repeat' first
    | with_reducible assumption
    | with_reducible refine LoadKeeps.going ?_
    | with_reducible refine LoadKeeps.failed ?_
    | with_reducible refine LoadKeeps.waits ?_
    | dsimp only
    | with_reducible apply LoadAcc.next_keeps
    | with_reducible refine LoadKeeps.of_going (LoadAcc.next_keeps ?_) (by assumption)
    | with_reducible refine LoadKeeps.of_failed (LoadAcc.next_keeps ?_) (by assumption)
    | with_reducible refine LoadKeeps.of_waits (LoadAcc.next_keeps ?_) (by assumption)
    | with_reducible apply State.setBmRow_keeps
    | with_reducible apply sectionFault_keeps
    | with_reducible refine LoadKeeps.of_going (sectionFault_keeps ?_) (by assumption)
    | with_reducible refine LoadKeeps.of_failed (sectionFault_keeps ?_) (by assumption)
    | with_reducible refine LoadKeeps.of_waits (sectionFault_keeps ?_) (by assumption)
    | with_reducible apply Keeps.each
    | split
    | intro _ _ _
    | intro _ _
    | intro _

theorem applyFw_keeps {s₀ : State} {m index : Nat} {b : List Byte} {l : List Rec} {a : LoadAcc}
    (hk : Keeps s₀ a.s) : LoadKeeps s₀ (applyFw m index b l a) := by
  unfold applyFw
  try dsimp only
  repeat' first
    | with_reducible assumption
    | with_reducible refine LoadKeeps.going ?_
    | with_reducible refine LoadKeeps.failed ?_
    | with_reducible refine LoadKeeps.waits ?_
    | dsimp only
    | with_reducible apply sectionFault_keeps
    | with_reducible refine LoadKeeps.of_going (sectionFault_keeps ?_) (by assumption)
    | with_reducible refine LoadKeeps.of_failed (sectionFault_keeps ?_) (by assumption)
    | with_reducible refine LoadKeeps.of_waits (sectionFault_keeps ?_) (by assumption)
    | with_reducible apply setRamCell_keeps
    | with_reducible apply Keeps.each
    | split
    | intro _ _ _
    | intro _ _
    | intro _
    | (simp only [keeps_mk]; first | refine KeepsParts.of ?_)

theorem applyBoot_keeps {s₀ : State} {i : Nat} {b : List Byte} {l : List Rec} {a : LoadAcc}
    (hk : Keeps s₀ a.s) : LoadKeeps s₀ (applyBoot i b l a) := by
  unfold applyBoot
  try dsimp only
  repeat' first
    | with_reducible assumption
    | with_reducible refine LoadKeeps.going ?_
    | with_reducible refine LoadKeeps.failed ?_
    | with_reducible refine LoadKeeps.waits ?_
    | dsimp only
    | with_reducible apply Keeps.put
    | with_reducible apply sectionFault_keeps
    | with_reducible refine LoadKeeps.of_going (sectionFault_keeps ?_) (by assumption)
    | with_reducible refine LoadKeeps.of_failed (sectionFault_keeps ?_) (by assumption)
    | with_reducible refine LoadKeeps.of_waits (sectionFault_keeps ?_) (by assumption)
    | split
    | intro _ _ _
    | intro _ _
    | intro _
    | (simp only [keeps_mk]; first | refine KeepsParts.of ?_)

theorem applyKey_keeps {s₀ : State} {b : List Byte} {l : List Rec} {a : LoadAcc}
    (hk : Keeps s₀ a.s) : LoadKeeps s₀ (applyKey b l a) := by
  unfold applyKey
  try dsimp only
  repeat' first
    | with_reducible assumption
    | with_reducible refine LoadKeeps.going ?_
    | with_reducible refine LoadKeeps.failed ?_
    | with_reducible refine LoadKeeps.waits ?_
    | dsimp only
    | with_reducible apply sectionFault_keeps
    | with_reducible refine LoadKeeps.of_going (sectionFault_keeps ?_) (by assumption)
    | with_reducible refine LoadKeeps.of_failed (sectionFault_keeps ?_) (by assumption)
    | with_reducible refine LoadKeeps.of_waits (sectionFault_keeps ?_) (by assumption)
    | split
    | intro _ _ _
    | intro _ _
    | intro _
    | (simp only [keeps_mk]; first | refine KeepsParts.of ?_)

theorem applyRec_keeps {s₀ : State} {typ target : Nat} {r : Rec} {l : List Rec} {a : LoadAcc}
    (hk : Keeps s₀ a.s) : LoadKeeps s₀ (applyRec typ target r l a) := by
  unfold applyRec
  try dsimp only
  repeat' first
    | with_reducible assumption
    | with_reducible refine LoadKeeps.going ?_
    | with_reducible refine LoadKeeps.failed ?_
    | with_reducible refine LoadKeeps.waits ?_
    | dsimp only
    | with_reducible apply LoadAcc.next_keeps
    | with_reducible refine LoadKeeps.of_going (LoadAcc.next_keeps ?_) (by assumption)
    | with_reducible refine LoadKeeps.of_failed (LoadAcc.next_keeps ?_) (by assumption)
    | with_reducible refine LoadKeeps.of_waits (LoadAcc.next_keeps ?_) (by assumption)
    | with_reducible apply applyBm_keeps
    | with_reducible refine LoadKeeps.of_going (applyBm_keeps ?_) (by assumption)
    | with_reducible refine LoadKeeps.of_failed (applyBm_keeps ?_) (by assumption)
    | with_reducible refine LoadKeeps.of_waits (applyBm_keeps ?_) (by assumption)
    | with_reducible apply applyBoot_keeps
    | with_reducible refine LoadKeeps.of_going (applyBoot_keeps ?_) (by assumption)
    | with_reducible refine LoadKeeps.of_failed (applyBoot_keeps ?_) (by assumption)
    | with_reducible refine LoadKeeps.of_waits (applyBoot_keeps ?_) (by assumption)
    | with_reducible apply applyData_keeps
    | with_reducible refine LoadKeeps.of_going (applyData_keeps ?_) (by assumption)
    | with_reducible refine LoadKeeps.of_failed (applyData_keeps ?_) (by assumption)
    | with_reducible refine LoadKeeps.of_waits (applyData_keeps ?_) (by assumption)
    | with_reducible apply applyFigure_keeps
    | with_reducible refine LoadKeeps.of_going (applyFigure_keeps ?_) (by assumption)
    | with_reducible refine LoadKeeps.of_failed (applyFigure_keeps ?_) (by assumption)
    | with_reducible refine LoadKeeps.of_waits (applyFigure_keeps ?_) (by assumption)
    | with_reducible apply applyFw_keeps
    | with_reducible refine LoadKeeps.of_going (applyFw_keeps ?_) (by assumption)
    | with_reducible refine LoadKeeps.of_failed (applyFw_keeps ?_) (by assumption)
    | with_reducible refine LoadKeeps.of_waits (applyFw_keeps ?_) (by assumption)
    | with_reducible apply applyKey_keeps
    | with_reducible refine LoadKeeps.of_going (applyKey_keeps ?_) (by assumption)
    | with_reducible refine LoadKeeps.of_failed (applyKey_keeps ?_) (by assumption)
    | with_reducible refine LoadKeeps.of_waits (applyKey_keeps ?_) (by assumption)
    | with_reducible apply applyReg_keeps
    | with_reducible refine LoadKeeps.of_going (applyReg_keeps ?_) (by assumption)
    | with_reducible refine LoadKeeps.of_failed (applyReg_keeps ?_) (by assumption)
    | with_reducible refine LoadKeeps.of_waits (applyReg_keeps ?_) (by assumption)
    | with_reducible apply applySteps_keeps
    | with_reducible refine LoadKeeps.of_going (applySteps_keeps ?_) (by assumption)
    | with_reducible refine LoadKeeps.of_failed (applySteps_keeps ?_) (by assumption)
    | with_reducible refine LoadKeeps.of_waits (applySteps_keeps ?_) (by assumption)
    | with_reducible apply sectionFault_keeps
    | with_reducible refine LoadKeeps.of_going (sectionFault_keeps ?_) (by assumption)
    | with_reducible refine LoadKeeps.of_failed (sectionFault_keeps ?_) (by assumption)
    | with_reducible refine LoadKeeps.of_waits (sectionFault_keeps ?_) (by assumption)
    | split
    | intro _ _ _
    | intro _ _
    | intro _
    | (simp only [keeps_mk]; first | refine KeepsParts.of ?_)

theorem applyRecs_keeps {s₀ : State} {typ target n : Nat} {a : LoadAcc} (hk : Keeps s₀ a.s) :
    LoadKeeps s₀ (applyRecs typ target n a) := by
  induction n generalizing a with
  | zero => exact .waits hk
  | succ n ih =>
    rw [applyRecs]
    split
    · exact .going hk
    · exact Loading.bind_keeps (applyRec_keeps hk) fun _ ha => ih ha

theorem applyActivation_keeps {s₀ : State} {abort : Bool} {a : LoadAcc}
    (hk : Keeps s₀ a.s) : LoadKeeps s₀ (applyActivation abort a) := by
  unfold applyActivation
  try dsimp only
  repeat' first
    | with_reducible assumption
    | with_reducible refine LoadKeeps.going ?_
    | with_reducible refine LoadKeeps.failed ?_
    | with_reducible refine LoadKeeps.waits ?_
    | dsimp only
    | with_reducible apply activation_keeps
    | with_reducible apply activationAbort_keeps
    | with_reducible apply activationSwap_keeps
    | with_reducible apply sectionFault_keeps
    | with_reducible refine LoadKeeps.of_going (sectionFault_keeps ?_) (by assumption)
    | with_reducible refine LoadKeeps.of_failed (sectionFault_keeps ?_) (by assumption)
    | with_reducible refine LoadKeeps.of_waits (sectionFault_keeps ?_) (by assumption)
    | split
    | intro _ _ _
    | intro _ _
    | intro _
    | (simp only [keeps_mk]; first | refine KeepsParts.of ?_)

theorem fetchSection_keeps {s₀ : State} {src : ImgSrc} {x : Sect} {a : LoadAcc}
    (hk : Keeps s₀ a.s) : LoadKeeps s₀ (fetchSection src x a) := by
  unfold fetchSection
  try dsimp only
  repeat' first
    | with_reducible assumption
    | with_reducible refine LoadKeeps.going ?_
    | with_reducible refine LoadKeeps.failed ?_
    | with_reducible refine LoadKeeps.waits ?_
    | dsimp only
    | with_reducible apply sectionFault_keeps
    | with_reducible refine LoadKeeps.of_going (sectionFault_keeps ?_) (by assumption)
    | with_reducible refine LoadKeeps.of_failed (sectionFault_keeps ?_) (by assumption)
    | with_reducible refine LoadKeeps.of_waits (sectionFault_keeps ?_) (by assumption)
    | with_reducible refine srcRead_keeps (by assumption) ?_
    | with_reducible apply srcRead_keeps_snd
    | with_reducible apply wireEnd_keeps
    | split
    | intro _ _ _
    | intro _ _
    | intro _
    | (simp only [keeps_mk]; first | refine KeepsParts.of ?_)

theorem applySection_keeps {s₀ : State} {src : ImgSrc} {abort : Bool} {x : Sect} {a : LoadAcc}
    (hk : Keeps s₀ a.s) : LoadKeeps s₀ (applySection src abort x a) := by
  unfold applySection
  try dsimp only
  repeat' first
    | with_reducible assumption
    | with_reducible refine LoadKeeps.going ?_
    | with_reducible refine LoadKeeps.failed ?_
    | with_reducible refine LoadKeeps.waits ?_
    | dsimp only
    | with_reducible apply CoreRes.bind_keeps
    | with_reducible refine CoreKeeps.of_ok (CoreRes.bind_keeps ?_) (by assumption)
    | with_reducible refine CoreKeeps.of_trap (CoreRes.bind_keeps ?_) (by assumption)
    | with_reducible refine CoreKeeps.of_stall (CoreRes.bind_keeps ?_) (by assumption)
    | with_reducible apply Loading.bind_keeps
    | with_reducible refine LoadKeeps.of_going (Loading.bind_keeps ?_) (by assumption)
    | with_reducible refine LoadKeeps.of_failed (Loading.bind_keeps ?_) (by assumption)
    | with_reducible refine LoadKeeps.of_waits (Loading.bind_keeps ?_) (by assumption)
    | with_reducible apply applyActivation_keeps
    | with_reducible refine LoadKeeps.of_going (applyActivation_keeps ?_) (by assumption)
    | with_reducible refine LoadKeeps.of_failed (applyActivation_keeps ?_) (by assumption)
    | with_reducible refine LoadKeeps.of_waits (applyActivation_keeps ?_) (by assumption)
    | with_reducible apply applyRecs_keeps
    | with_reducible refine LoadKeeps.of_going (applyRecs_keeps ?_) (by assumption)
    | with_reducible refine LoadKeeps.of_failed (applyRecs_keeps ?_) (by assumption)
    | with_reducible refine LoadKeeps.of_waits (applyRecs_keeps ?_) (by assumption)
    | with_reducible apply fetchSection_keeps
    | with_reducible refine LoadKeeps.of_going (fetchSection_keeps ?_) (by assumption)
    | with_reducible refine LoadKeeps.of_failed (fetchSection_keeps ?_) (by assumption)
    | with_reducible refine LoadKeeps.of_waits (fetchSection_keeps ?_) (by assumption)
    | split
    | intro _ _ _
    | intro _ _
    | intro _
    | (simp only [keeps_mk]; first | refine KeepsParts.of ?_)

theorem applySections_keeps {s₀ : State} {src : ImgSrc} {abort : Bool} {x0 : List (Nat × Sect)} {s : LoadAcc}
    (hk : Keeps s₀ s.s) : LoadKeeps s₀ (applySections src abort x0 s) := by
  induction x0 generalizing src abort s with
  | nil =>
    simp only [applySections]
    repeat' first
      | with_reducible assumption
      | with_reducible refine LoadKeeps.going ?_
      | with_reducible refine LoadKeeps.failed ?_
      | with_reducible refine LoadKeeps.waits ?_
      | with_reducible refine LoadKeeps.of_going (ih ?_) (by assumption)
      | with_reducible refine LoadKeeps.of_failed (ih ?_) (by assumption)
      | with_reducible refine LoadKeeps.of_waits (ih ?_) (by assumption)
      | with_reducible apply ih
      | dsimp only
      | with_reducible apply Keeps.put
      | with_reducible apply applySection_keeps
      | with_reducible refine LoadKeeps.of_going (applySection_keeps ?_) (by assumption)
      | with_reducible refine LoadKeeps.of_failed (applySection_keeps ?_) (by assumption)
      | with_reducible refine LoadKeeps.of_waits (applySection_keeps ?_) (by assumption)
      | split
      | intro _ _ _
      | intro _ _
      | intro _
      | (simp only [keeps_mk]; first | refine KeepsParts.of ?_)
  | cons a l ih =>
    simp only [applySections]
    repeat' first
      | with_reducible assumption
      | with_reducible refine LoadKeeps.going ?_
      | with_reducible refine LoadKeeps.failed ?_
      | with_reducible refine LoadKeeps.waits ?_
      | with_reducible refine LoadKeeps.of_going (ih ?_) (by assumption)
      | with_reducible refine LoadKeeps.of_failed (ih ?_) (by assumption)
      | with_reducible refine LoadKeeps.of_waits (ih ?_) (by assumption)
      | with_reducible apply ih
      | dsimp only
      | with_reducible apply Keeps.put
      | with_reducible apply applySection_keeps
      | with_reducible refine LoadKeeps.of_going (applySection_keeps ?_) (by assumption)
      | with_reducible refine LoadKeeps.of_failed (applySection_keeps ?_) (by assumption)
      | with_reducible refine LoadKeeps.of_waits (applySection_keeps ?_) (by assumption)
      | split
      | intro _ _ _
      | intro _ _
      | intro _
      | (simp only [keeps_mk]; first | refine KeepsParts.of ?_)

theorem applyKeys_keeps {s₀ : State} {crcOk : Bool} {l : List (Nat × Nat × List Byte)} {s : State} (hk : Keeps s₀ s) :
    OptKeeps s₀ (applyKeys crcOk l s) := by
  unfold applyKeys
  suffices ∀ x, OptKeeps s₀ x → OptKeeps s₀ (l.foldl (fun o (k : Nat × Nat × List Byte) => o.bind fun t =>
      if keyFilled t k.1 k.2.1 then some (t.count F.CFG_STAT_KEYSKIP 1)
      else if crcOk then some (keyWrite k.1 k.2.1 k.2.2 true t) else none) x) from this _ (.some hk)
  induction l with
  | nil => exact fun _ h => h
  | cons k l ih =>
    refine fun x h => ih _ ?_
    cases h with
    | none => exact .none
    | some h =>
      simp only [Option.bind_some]
      split
      · exact .some (State.count_keeps h)
      · split
        · exact .some (keyWrite_keeps h)
        · exact .none

theorem setRun_keeps {s₀ : State} {r : SmcRun} {s : State}
    (hk : Keeps s₀ s) : Keeps s₀ (setRun r s) := by
  unfold setRun
  try dsimp only
  repeat' first
    | with_reducible assumption
    | dsimp only
    | with_reducible apply setHost_keeps
    | split
    | intro _ _ _
    | intro _ _
    | intro _
    | (simp only [keeps_mk]; first | refine KeepsParts.of ?_)

theorem loadAuth_keeps {s₀ : State} {flash : Option (List Byte)} {s : State}
    (hk : Keeps s₀ s) : Keeps s₀ (loadAuth flash s) := by
  unfold loadAuth
  try dsimp only
  repeat' first
    | with_reducible assumption
    | dsimp only
    | with_reducible refine authImage_keeps (by assumption) ?_
    | with_reducible apply authImage_keeps_snd
    | with_reducible apply enterLoadHold_keeps
    | with_reducible apply setRun_keeps
    | with_reducible apply wireEnd_keeps
    | with_reducible apply wireRewind_keeps
    | split
    | intro _ _ _
    | intro _ _
    | intro _
    | (simp only [keeps_mk]; first | refine KeepsParts.of ?_)

theorem bootLoad_keeps {s₀ : State} {slot mib : Nat} {s : State}
    (hk : Keeps s₀ s) : Keeps s₀ (bootLoad slot mib s) := by
  unfold bootLoad
  try dsimp only
  repeat' first
    | with_reducible assumption
    | dsimp only
    | with_reducible apply Keeps.put
    | with_reducible apply setLoads_keeps
    | with_reducible apply smcStart_keeps
    | split
    | intro _ _ _
    | intro _ _
    | intro _
    | (simp only [keeps_mk]; first | refine KeepsParts.of ?_)

theorem endRun_keeps {s₀ : State} {r : SmcRun} {result : Nat} {s : State}
    (hk : Keeps s₀ s) : Keeps s₀ (endRun r result s) := by
  unfold endRun
  try dsimp only
  repeat' first
    | with_reducible assumption
    | dsimp only
    | with_reducible apply State.irq_keeps
    | with_reducible apply Keeps.put
    | with_reducible apply bootLoad_keeps
    | with_reducible apply result_keeps
    | with_reducible refine CoreKeeps.of_ok (result_keeps ?_) (by assumption)
    | with_reducible refine CoreKeeps.of_trap (result_keeps ?_) (by assumption)
    | with_reducible refine CoreKeeps.of_stall (result_keeps ?_) (by assumption)
    | with_reducible apply selfEnd_keeps
    | with_reducible apply setLoads_keeps
    | with_reducible apply smcEnd_keeps
    | with_reducible apply wireEnd_keeps
    | with_reducible apply Keeps.when
    | split
    | intro _ _ _
    | intro _ _
    | intro _
    | (simp only [keeps_mk]; first | refine KeepsParts.of ?_)

theorem loadApply_keeps {s₀ : State} {r : SmcRun} {x : ImgInfo × List Byte} {flash : Option (List Byte)} {crcOk abort : Bool} {s : State}
    (hk : Keeps s₀ s) : Keeps s₀ (loadApply r x flash crcOk abort s) := by
  unfold loadApply
  try dsimp only
  repeat' first
    | with_reducible assumption
    | dsimp only
    | with_reducible apply Keeps.put
    | with_reducible apply applyKeys_keeps
    | with_reducible refine OptKeeps.of_some (applyKeys_keeps ?_) (by assumption)
    | with_reducible apply applySections_keeps
    | with_reducible refine LoadKeeps.of_going (applySections_keeps ?_) (by assumption)
    | with_reducible refine LoadKeeps.of_failed (applySections_keeps ?_) (by assumption)
    | with_reducible refine LoadKeeps.of_waits (applySections_keeps ?_) (by assumption)
    | with_reducible apply endRun_keeps
    | with_reducible apply loadComplete_keeps
    | with_reducible apply setLoads_keeps
    | with_reducible apply setRun_keeps
    | with_reducible apply wireRewind_keeps
    | split
    | intro _ _ _
    | intro _ _
    | intro _
    | (simp only [keeps_mk]; first | refine KeepsParts.of ?_)

theorem reloadAuth_keeps_snd {s₀ : State} {r : SmcRun} {src : ImgSrc} {s : State}
    (hk : Keeps s₀ s) : Keeps s₀ (reloadAuth r src s).2 := by
  unfold reloadAuth
  try dsimp only
  repeat' first
    | with_reducible assumption
    | dsimp only
    | with_reducible apply CoreRes.bind_keeps
    | with_reducible refine CoreKeeps.of_ok (CoreRes.bind_keeps ?_) (by assumption)
    | with_reducible refine CoreKeeps.of_trap (CoreRes.bind_keeps ?_) (by assumption)
    | with_reducible refine CoreKeeps.of_stall (CoreRes.bind_keeps ?_) (by assumption)
    | with_reducible refine ImgRes.bind_keeps (by assumption) ?_
    | with_reducible apply ImgRes.bind_keeps_snd
    | with_reducible apply Loading.bind_keeps
    | with_reducible refine LoadKeeps.of_going (Loading.bind_keeps ?_) (by assumption)
    | with_reducible refine LoadKeeps.of_failed (Loading.bind_keeps ?_) (by assumption)
    | with_reducible refine LoadKeeps.of_waits (Loading.bind_keeps ?_) (by assumption)
    | with_reducible refine checkSigned_keeps (by assumption) ?_
    | with_reducible apply checkSigned_keeps_snd
    | with_reducible refine readHeader_keeps (by assumption) ?_
    | with_reducible apply readHeader_keeps_snd
    | with_reducible refine And.intro ?_ ?_
    | split
    | intro _ _ _
    | intro _ _
    | intro _

theorem reloadAuth_keeps {s₀ : State} {r : SmcRun} {src : ImgSrc} {s : State} {y₁ t₁} (e₁ : reloadAuth r src s = (y₁, t₁))
    (hk : Keeps s₀ s) : Keeps s₀ t₁ := by
  have k := reloadAuth_keeps_snd (s₀ := s₀) (r := r) (src := src) (s := s) hk
  rw [e₁] at k
  exact k

theorem reloadApply_keeps {s₀ : State} {r : SmcRun} {x : ImgInfo × List Byte} {flash : Option (List Byte)} {abort : Bool} {s : State}
    (hk : Keeps s₀ s) : Keeps s₀ (reloadApply r x flash abort s) := by
  unfold reloadApply
  try dsimp only
  repeat' first
    | with_reducible assumption
    | dsimp only
    | with_reducible apply Keeps.put
    | with_reducible apply applySection_keeps
    | with_reducible refine LoadKeeps.of_going (applySection_keeps ?_) (by assumption)
    | with_reducible refine LoadKeeps.of_failed (applySection_keeps ?_) (by assumption)
    | with_reducible refine LoadKeeps.of_waits (applySection_keeps ?_) (by assumption)
    | with_reducible apply endRun_keeps
    | with_reducible apply loadComplete_keeps
    | with_reducible apply setLoads_keeps
    | with_reducible apply setRun_keeps
    | with_reducible apply wireRewind_keeps
    | split
    | intro _ _ _
    | intro _ _
    | intro _
    | with_reducible refine Keeps.of_ite (by assumption) ?_ ?_
    | (simp only [keeps_mk]; first | refine KeepsParts.of ?_)

theorem reloadRun_keeps {s₀ : State} {r : SmcRun} {flash : Option (List Byte)} {abort : Bool} {s : State}
    (hk : Keeps s₀ s) : Keeps s₀ (reloadRun r flash abort s) := by
  unfold reloadRun
  try dsimp only
  repeat' first
    | with_reducible assumption
    | dsimp only
    | with_reducible apply endRun_keeps
    | with_reducible apply reloadApply_keeps
    | with_reducible refine reloadAuth_keeps (by assumption) ?_
    | with_reducible apply reloadAuth_keeps_snd
    | with_reducible apply reloadHold_keeps
    | with_reducible apply setRun_keeps
    | with_reducible apply wireEnd_keeps
    | with_reducible apply wireRewind_keeps
    | split
    | intro _ _ _
    | intro _ _
    | intro _
    | (simp only [keeps_mk]; first | refine KeepsParts.of ?_)

theorem authApply_keeps {s₀ : State} {r : SmcRun} {flash : Option (List Byte)} {s : State}
    (hk : Keeps s₀ s) : Keeps s₀ (authApply r flash s) := by
  unfold authApply
  try dsimp only
  repeat' first
    | with_reducible assumption
    | dsimp only
    | with_reducible apply CoreRes.bind_keeps
    | with_reducible refine CoreKeeps.of_ok (CoreRes.bind_keeps ?_) (by assumption)
    | with_reducible refine CoreKeeps.of_trap (CoreRes.bind_keeps ?_) (by assumption)
    | with_reducible refine CoreKeeps.of_stall (CoreRes.bind_keeps ?_) (by assumption)
    | with_reducible refine ImgRes.bind_keeps (by assumption) ?_
    | with_reducible apply ImgRes.bind_keeps_snd
    | with_reducible apply Loading.bind_keeps
    | with_reducible refine LoadKeeps.of_going (Loading.bind_keeps ?_) (by assumption)
    | with_reducible refine LoadKeeps.of_failed (Loading.bind_keeps ?_) (by assumption)
    | with_reducible refine LoadKeeps.of_waits (Loading.bind_keeps ?_) (by assumption)
    | with_reducible apply Keeps.put
    | with_reducible apply State.put2_keeps
    | with_reducible refine authImage_keeps (by assumption) ?_
    | with_reducible apply authImage_keeps_snd
    | with_reducible refine digestsOk_keeps (by assumption) ?_
    | with_reducible apply digestsOk_keeps_snd
    | with_reducible apply endRun_keeps
    | with_reducible apply wireRewind_keeps
    | with_reducible refine And.intro ?_ ?_
    | with_reducible apply Keeps.each
    | with_reducible apply OptKeeps.getD
    | split
    | intro _ _ _
    | intro _ _
    | intro _
    | (simp only [keeps_mk]; first | refine KeepsParts.of ?_)

theorem settingsRead_keeps_snd {s₀ : State} {r : SmcRun} {s : State}
    (hk : Keeps s₀ s) : Keeps s₀ (settingsRead r s).2 := by
  unfold settingsRead
  try dsimp only
  repeat' first
    | with_reducible assumption
    | dsimp only
    | with_reducible apply Keeps.put
    | with_reducible apply noteLost_keeps
    | with_reducible apply Keeps.each
    | with_reducible apply OptKeeps.getD
    | split
    | intro _ _ _
    | intro _ _
    | intro _
    | (simp only [keeps_mk]; first | refine KeepsParts.of ?_)

theorem settingsRead_keeps {s₀ : State} {r : SmcRun} {s : State} {y₁ t₁} (e₁ : settingsRead r s = (y₁, t₁))
    (hk : Keeps s₀ s) : Keeps s₀ t₁ := by
  have k := settingsRead_keeps_snd (s₀ := s₀) (r := r) (s := s) hk
  rw [e₁] at k
  exact k

theorem attest_keeps {s₀ : State} {r : SmcRun} {s : State}
    (hk : Keeps s₀ s) : Keeps s₀ (attest r s) := by
  unfold attest
  try dsimp only
  repeat' first
    | with_reducible assumption
    | dsimp only
    | with_reducible apply Keeps.put
    | with_reducible apply noteLost_keeps
    | with_reducible apply Keeps.foldl
    | with_reducible apply Keeps.foldl_snd
    | split
    | intro _ _ _
    | intro _ _
    | intro _

theorem zeroise_keeps {s₀ : State} {s : State}
    (hk : Keeps s₀ s) : Keeps s₀ (zeroise s) := by
  unfold zeroise
  try dsimp only
  repeat' first
    | with_reducible assumption
    | dsimp only
    | with_reducible apply coldReset_keeps
    | with_reducible apply setHost_keeps
    | with_reducible apply zeroisePages_keeps
    | split
    | intro _ _ _
    | intro _ _
    | intro _
    | (simp only [keeps_mk]; first | refine KeepsParts.of ?_)

theorem imageRun_keeps {s₀ : State} {r : SmcRun} {act : State → State} {s : State} (hact : ∀  t, Keeps s₀ t → Keeps s₀ (act  t))
    (hk : Keeps s₀ s) : Keeps s₀ (imageRun r act s) := by
  unfold imageRun
  try dsimp only
  repeat' first
    | with_reducible assumption
    | with_reducible apply hact
    | dsimp only
    | with_reducible apply endRun_keeps
    | with_reducible apply Keeps.when
    | split
    | intro _ _ _
    | intro _ _
    | intro _
    | (simp only [keeps_mk]; first | refine KeepsParts.of ?_)

theorem commandComplete_keeps {s₀ : State} {flash : Option (List Byte)} {crcOk abort : Bool} {s : State}
    (hk : Keeps s₀ s) : Keeps s₀ (commandComplete flash crcOk abort s) := by
  unfold commandComplete
  try dsimp only
  repeat' first
    | with_reducible assumption
    | dsimp only
    | with_reducible apply attest_keeps
    | with_reducible apply authApply_keeps
    | with_reducible refine commitEffect_keeps (by assumption) ?_
    | with_reducible apply commitEffect_keeps_snd
    | with_reducible apply endRun_keeps
    | with_reducible apply imageRun_keeps
    | with_reducible apply loadApply_keeps
    | with_reducible apply loadAuth_keeps
    | with_reducible apply reloadApply_keeps
    | with_reducible apply reloadRun_keeps
    | with_reducible refine revokeEffect_keeps (by assumption) ?_
    | with_reducible apply revokeEffect_keeps_snd
    | with_reducible refine rollbackEffect_keeps (by assumption) ?_
    | with_reducible apply rollbackEffect_keeps_snd
    | with_reducible refine settingsRead_keeps (by assumption) ?_
    | with_reducible apply settingsRead_keeps_snd
    | with_reducible refine storeEffect_keeps (by assumption) ?_
    | with_reducible apply storeEffect_keeps_snd
    | with_reducible apply zeroise_keeps
    | with_reducible apply OptKeeps.getD
    | split
    | intro _ _ _
    | intro _ _
    | intro _
    | (simp only [keeps_mk]; first | refine KeepsParts.of ?_)

theorem settingsRecord_keeps {s₀ : State} {o m v : Word} {s : State}
    (hk : Keeps s₀ s) : Keeps s₀ (settingsRecord o m v s) := by
  unfold settingsRecord
  try dsimp only
  repeat' first
    | with_reducible assumption
    | dsimp only
    | with_reducible apply State.count_keeps
    | with_reducible apply State.load_keeps
    | with_reducible refine writeReg_keeps (by assumption) ?_
    | with_reducible apply writeReg_keeps_snd
    | split
    | intro _ _ _
    | intro _ _
    | intro _
    | (simp only [keeps_mk]; first | refine KeepsParts.of ?_)

theorem settingsRecords_keeps {s₀ : State} {x0 : List (Word × Word × Word)} {s : State}
    (hk : Keeps s₀ s) : Keeps s₀ (settingsRecords x0 s) := by
  induction x0 generalizing s with
  | nil =>
    simp only [settingsRecords]
    repeat' first
      | with_reducible assumption
      | with_reducible apply ih
      | dsimp only
      | with_reducible apply settingsRecord_keeps
      | split
      | intro _ _ _
      | intro _ _
      | intro _
  | cons a l ih =>
    simp only [settingsRecords]
    repeat' first
      | with_reducible assumption
      | with_reducible apply ih
      | dsimp only
      | with_reducible apply settingsRecord_keeps
      | split
      | intro _ _ _
      | intro _ _
      | intro _

theorem boot_keeps {s₀ : State} {container : Option (List Byte)} {s : State}
    (hk : Keeps s₀ s) : Keeps s₀ (boot container s) := by
  unfold boot
  try dsimp only
  repeat' first
    | with_reducible assumption
    | dsimp only
    | with_reducible apply Keeps.emit
    | with_reducible apply Keeps.put
    | with_reducible apply State.putB_keeps
    | with_reducible apply bootLoad_keeps
    | with_reducible apply fitSpares_keeps
    | with_reducible apply loadKeyStat_keeps
    | with_reducible apply mgmtPump_keeps
    | with_reducible apply noteLost_keeps
    | with_reducible apply pcieConfigure_keeps
    | with_reducible apply setLoads_keeps
    | with_reducible apply settingsRecords_keeps
    | with_reducible apply Keeps.when
    | with_reducible apply Keeps.each
    | with_reducible apply OptKeeps.getD
    | with_reducible apply Keeps.foldl
    | with_reducible apply Keeps.foldl_snd
    | split
    | intro _ _ _
    | intro _ _
    | intro _
    | (simp only [keeps_mk]; first | refine KeepsParts.of ?_)

end Sys2Proof.Machine
end

