-- ==== Sys2Proof/Laws/KeepsCoreMem.lean ====
section
/-! SUPPORT. What the operations of Machine/CoreMem.lean keep (Laws/Keeps.lean). -/

namespace Sys2Proof.Machine

open Sys2Proof

/-- The state in `x` comes from `r`. -/
inductive CoreKeeps {α : Type} (r : State) : CoreRes α → Prop where
  | ok {v : α} {s : State} (h : Keeps r s) : CoreKeeps r (.ok v s)
  | trap {k : Cause} {a : Word} {s : State} (h : Keeps r s) : CoreKeeps r (.trap k a s)
  | stall {s : State} (h : Keeps r s) : CoreKeeps r (.stall s)

theorem CoreKeeps.of_ok {α : Type} {r s : State} {v : α} {x : CoreRes α} (h : CoreKeeps r x) (e : x = .ok v s) :
    Keeps r s := by
  subst e
  cases h
  assumption

theorem CoreKeeps.of_trap {α : Type} {r s : State} {k : Cause} {a : Word} {x : CoreRes α} (h : CoreKeeps r x)
    (e : x = .trap k a s) : Keeps r s := by
  subst e
  cases h
  assumption

theorem CoreKeeps.of_stall {α : Type} {r s : State} {x : CoreRes α} (h : CoreKeeps r x) (e : x = .stall s) :
    Keeps r s := by
  subst e
  cases h
  assumption

/-- The state in `x` comes from `r`. -/
inductive SpillKeeps (r : State) : Spill → Prop where
  | done {s : State} (h : Keeps r s) : SpillKeeps r (.done s)
  | stuck {f : Bool} {s : State} (h : Keeps r s) : SpillKeeps r (.stuck f s)
  | waits {s : State} (h : Keeps r s) : SpillKeeps r (.waits s)

theorem SpillKeeps.of_done {r s : State} {x : Spill} (h : SpillKeeps r x) (e : x = .done s) : Keeps r s := by
  subst e
  cases h
  assumption

theorem SpillKeeps.of_stuck {r s : State} {f : Bool} {x : Spill} (h : SpillKeeps r x) (e : x = .stuck f s) :
    Keeps r s := by
  subst e
  cases h
  assumption

theorem SpillKeeps.of_waits {r s : State} {x : Spill} (h : SpillKeeps r x) (e : x = .waits s) : Keeps r s := by
  subst e
  cases h
  assumption

theorem CoreRes.bind_keeps {α β : Type} {s₀ : State} {x : CoreRes α} {f : α → State → CoreRes β} (hx : CoreKeeps s₀ x)
    (hf : ∀ v s, Keeps s₀ s → CoreKeeps s₀ (f v s)) : CoreKeeps s₀ (x.bind f) := by
  cases hx with
  | ok h => exact hf _ _ h
  | trap h => exact .trap h
  | stall h => exact .stall h

theorem ramRead_keeps_snd {s₀ : State} {m w : Nat} {s : State}
    (hk : Keeps s₀ s) : Keeps s₀ (ramRead m w s).2.2 := by
  unfold ramRead
  try dsimp only
  repeat' first
    | with_reducible assumption
    | dsimp only
    | with_reducible apply setRamCell_keeps
    | split
    | intro _ _ _
    | intro _ _
    | intro _
    | (simp only [keeps_mk]; first | refine KeepsParts.of ?_)

theorem ramRead_keeps {s₀ : State} {m w : Nat} {s : State} {y₁ y₂ t₁} (e₁ : ramRead m w s = (y₁, y₂, t₁))
    (hk : Keeps s₀ s) : Keeps s₀ t₁ := by
  have k := ramRead_keeps_snd (s₀ := s₀) (m := m) (w := w) (s := s) hk
  rw [e₁] at k
  exact k

theorem ramWrite_keeps {s₀ : State} {m w : Nat} {bs : List (Nat × Byte)} {s : State}
    (hk : Keeps s₀ s) : Keeps s₀ (ramWrite m w bs s) := by
  unfold ramWrite
  try dsimp only
  repeat' first
    | with_reducible assumption
    | dsimp only
    | with_reducible refine ramRead_keeps (by assumption) ?_
    | with_reducible apply ramRead_keeps_snd
    | with_reducible apply setRamCell_keeps
    | with_reducible apply Keeps.foldl
    | with_reducible apply Keeps.foldl_snd
    | split
    | intro _ _ _
    | intro _ _
    | intro _

theorem l2Get_keeps {s₀ : State} {line : Nat} {s : State}
    (hk : Keeps s₀ s) : CoreKeeps s₀ (l2Get line s) := by
  unfold l2Get
  try dsimp only
  repeat' first
    | with_reducible assumption
    | with_reducible refine CoreKeeps.ok ?_
    | with_reducible refine CoreKeeps.trap ?_
    | with_reducible refine CoreKeeps.stall ?_
    | dsimp only
    | with_reducible apply l2Ask_keeps
    | with_reducible apply stall_keeps
    | split
    | intro _ _ _
    | intro _ _
    | intro _
    | (simp only [keeps_mk]; first | refine KeepsParts.of ?_)

theorem l2Groups_keeps {s₀ : State} {x0 : Nat} {x1 : Nat} {s : State}
    (hk : Keeps s₀ s) : CoreKeeps s₀ (l2Groups x0 x1 s) := by
  induction x1 generalizing x0 s with
  | zero =>
    simp only [l2Groups]
    repeat' first
      | with_reducible assumption
      | with_reducible refine CoreKeeps.ok ?_
      | with_reducible refine CoreKeeps.trap ?_
      | with_reducible refine CoreKeeps.stall ?_
      | with_reducible refine CoreKeeps.of_ok (ih ?_) (by assumption)
      | with_reducible refine CoreKeeps.of_trap (ih ?_) (by assumption)
      | with_reducible refine CoreKeeps.of_stall (ih ?_) (by assumption)
      | with_reducible apply ih
      | dsimp only
      | with_reducible apply CoreRes.bind_keeps
      | with_reducible refine CoreKeeps.of_ok (CoreRes.bind_keeps ?_) (by assumption)
      | with_reducible refine CoreKeeps.of_trap (CoreRes.bind_keeps ?_) (by assumption)
      | with_reducible refine CoreKeeps.of_stall (CoreRes.bind_keeps ?_) (by assumption)
      | with_reducible apply Loading.bind_keeps
      | with_reducible refine LoadKeeps.of_going (Loading.bind_keeps ?_) (by assumption)
      | with_reducible refine LoadKeeps.of_failed (Loading.bind_keeps ?_) (by assumption)
      | with_reducible refine LoadKeeps.of_waits (Loading.bind_keeps ?_) (by assumption)
      | with_reducible apply l2Get_keeps
      | with_reducible refine CoreKeeps.of_ok (l2Get_keeps ?_) (by assumption)
      | with_reducible refine CoreKeeps.of_trap (l2Get_keeps ?_) (by assumption)
      | with_reducible refine CoreKeeps.of_stall (l2Get_keeps ?_) (by assumption)
      | with_reducible refine l2Group_keeps (by assumption) ?_
      | with_reducible apply l2Group_keeps_snd
      | split
      | intro _ _ _
      | intro _ _
      | intro _
  | succ n ih =>
    simp only [l2Groups]
    repeat' first
      | with_reducible assumption
      | with_reducible refine CoreKeeps.ok ?_
      | with_reducible refine CoreKeeps.trap ?_
      | with_reducible refine CoreKeeps.stall ?_
      | with_reducible refine CoreKeeps.of_ok (ih ?_) (by assumption)
      | with_reducible refine CoreKeeps.of_trap (ih ?_) (by assumption)
      | with_reducible refine CoreKeeps.of_stall (ih ?_) (by assumption)
      | with_reducible apply ih
      | dsimp only
      | with_reducible apply CoreRes.bind_keeps
      | with_reducible refine CoreKeeps.of_ok (CoreRes.bind_keeps ?_) (by assumption)
      | with_reducible refine CoreKeeps.of_trap (CoreRes.bind_keeps ?_) (by assumption)
      | with_reducible refine CoreKeeps.of_stall (CoreRes.bind_keeps ?_) (by assumption)
      | with_reducible apply Loading.bind_keeps
      | with_reducible refine LoadKeeps.of_going (Loading.bind_keeps ?_) (by assumption)
      | with_reducible refine LoadKeeps.of_failed (Loading.bind_keeps ?_) (by assumption)
      | with_reducible refine LoadKeeps.of_waits (Loading.bind_keeps ?_) (by assumption)
      | with_reducible apply l2Get_keeps
      | with_reducible refine CoreKeeps.of_ok (l2Get_keeps ?_) (by assumption)
      | with_reducible refine CoreKeeps.of_trap (l2Get_keeps ?_) (by assumption)
      | with_reducible refine CoreKeeps.of_stall (l2Get_keeps ?_) (by assumption)
      | with_reducible refine l2Group_keeps (by assumption) ?_
      | with_reducible apply l2Group_keeps_snd
      | split
      | intro _ _ _
      | intro _ _
      | intro _

theorem l2Read_keeps {s₀ : State} {a n : Nat} {s : State}
    (hk : Keeps s₀ s) : CoreKeeps s₀ (l2Read a n s) := by
  unfold l2Read
  try dsimp only
  repeat' first
    | with_reducible assumption
    | with_reducible refine CoreKeeps.ok ?_
    | with_reducible refine CoreKeeps.trap ?_
    | with_reducible refine CoreKeeps.stall ?_
    | dsimp only
    | with_reducible apply CoreRes.bind_keeps
    | with_reducible refine CoreKeeps.of_ok (CoreRes.bind_keeps ?_) (by assumption)
    | with_reducible refine CoreKeeps.of_trap (CoreRes.bind_keeps ?_) (by assumption)
    | with_reducible refine CoreKeeps.of_stall (CoreRes.bind_keeps ?_) (by assumption)
    | with_reducible apply Loading.bind_keeps
    | with_reducible refine LoadKeeps.of_going (Loading.bind_keeps ?_) (by assumption)
    | with_reducible refine LoadKeeps.of_failed (Loading.bind_keeps ?_) (by assumption)
    | with_reducible refine LoadKeeps.of_waits (Loading.bind_keeps ?_) (by assumption)
    | with_reducible apply l2Groups_keeps
    | with_reducible refine CoreKeeps.of_ok (l2Groups_keeps ?_) (by assumption)
    | with_reducible refine CoreKeeps.of_trap (l2Groups_keeps ?_) (by assumption)
    | with_reducible refine CoreKeeps.of_stall (l2Groups_keeps ?_) (by assumption)
    | split
    | intro _ _ _
    | intro _ _
    | intro _
    | (simp only [keeps_mk]; first | refine KeepsParts.of ?_)

theorem l2WriteGroup_keeps {s₀ : State} {a g : Nat} {data : List Byte} {s : State}
    (hk : Keeps s₀ s) : CoreKeeps s₀ (l2WriteGroup a g data s) := by
  unfold l2WriteGroup
  try dsimp only
  repeat' first
    | with_reducible assumption
    | with_reducible refine CoreKeeps.ok ?_
    | with_reducible refine CoreKeeps.trap ?_
    | with_reducible refine CoreKeeps.stall ?_
    | dsimp only
    | with_reducible apply CoreRes.bind_keeps
    | with_reducible refine CoreKeeps.of_ok (CoreRes.bind_keeps ?_) (by assumption)
    | with_reducible refine CoreKeeps.of_trap (CoreRes.bind_keeps ?_) (by assumption)
    | with_reducible refine CoreKeeps.of_stall (CoreRes.bind_keeps ?_) (by assumption)
    | with_reducible apply Loading.bind_keeps
    | with_reducible refine LoadKeeps.of_going (Loading.bind_keeps ?_) (by assumption)
    | with_reducible refine LoadKeeps.of_failed (Loading.bind_keeps ?_) (by assumption)
    | with_reducible refine LoadKeeps.of_waits (Loading.bind_keeps ?_) (by assumption)
    | with_reducible apply l2Get_keeps
    | with_reducible refine CoreKeeps.of_ok (l2Get_keeps ?_) (by assumption)
    | with_reducible refine CoreKeeps.of_trap (l2Get_keeps ?_) (by assumption)
    | with_reducible refine CoreKeeps.of_stall (l2Get_keeps ?_) (by assumption)
    | with_reducible refine l2Group_keeps (by assumption) ?_
    | with_reducible apply l2Group_keeps_snd
    | with_reducible apply l2SetGroup_keeps
    | with_reducible apply Keeps.foldl
    | with_reducible apply Keeps.foldl_snd
    | split
    | intro _ _ _
    | intro _ _
    | intro _

theorem l2Write_keeps {s₀ : State} {a : Nat} {data : List Byte} {s : State} (hk : Keeps s₀ s) :
    CoreKeeps s₀ (l2Write a data s) := by
  unfold l2Write
  generalize List.map (fun x => a / 8 + x) (List.range ((a + data.length + 7) / 8 - a / 8)) = l
  suffices ∀ x, CoreKeeps s₀ x → CoreKeeps s₀ (l.foldl (fun r g => r.bind fun _ t => l2WriteGroup a g data t) x) from
    this _ (.ok hk)
  induction l with
  | nil => exact fun _ h => h
  | cons g l ih => exact fun x h => ih _ (CoreRes.bind_keeps h fun _ _ ht => l2WriteGroup_keeps ht)

theorem lineWords_keeps {s₀ : State} {line : Nat} {s : State}
    (hk : Keeps s₀ s) : CoreKeeps s₀ (lineWords line s) := by
  unfold lineWords
  try dsimp only
  repeat' first
    | with_reducible assumption
    | with_reducible refine CoreKeeps.ok ?_
    | with_reducible refine CoreKeeps.trap ?_
    | with_reducible refine CoreKeeps.stall ?_
    | dsimp only
    | with_reducible apply CoreRes.bind_keeps
    | with_reducible refine CoreKeeps.of_ok (CoreRes.bind_keeps ?_) (by assumption)
    | with_reducible refine CoreKeeps.of_trap (CoreRes.bind_keeps ?_) (by assumption)
    | with_reducible refine CoreKeeps.of_stall (CoreRes.bind_keeps ?_) (by assumption)
    | with_reducible apply Loading.bind_keeps
    | with_reducible refine LoadKeeps.of_going (Loading.bind_keeps ?_) (by assumption)
    | with_reducible refine LoadKeeps.of_failed (Loading.bind_keeps ?_) (by assumption)
    | with_reducible refine LoadKeeps.of_waits (Loading.bind_keeps ?_) (by assumption)
    | with_reducible apply l2Read_keeps
    | with_reducible refine CoreKeeps.of_ok (l2Read_keeps ?_) (by assumption)
    | with_reducible refine CoreKeeps.of_trap (l2Read_keeps ?_) (by assumption)
    | with_reducible refine CoreKeeps.of_stall (l2Read_keeps ?_) (by assumption)
    | split
    | intro _ _ _
    | intro _ _
    | intro _

theorem setL1_keeps {s₀ : State} {data : Bool} {c line : Nat} {l : Option (List (BitVec 39))} {s : State}
    (hk : Keeps s₀ s) : Keeps s₀ (setL1 data c line l s) := by
  unfold setL1
  try dsimp only
  repeat' first
    | with_reducible assumption
    | dsimp only
    | split
    | intro _ _ _
    | intro _ _
    | intro _
    | (simp only [keeps_mk]; first | refine KeepsParts.of ?_)

theorem l1Read_keeps {s₀ : State} {data : Bool} {c line i : Nat} {s : State}
    (hk : Keeps s₀ s) : CoreKeeps s₀ (l1Read data c line i s) := by
  unfold l1Read
  try dsimp only
  repeat' first
    | with_reducible assumption
    | with_reducible refine CoreKeeps.ok ?_
    | with_reducible refine CoreKeeps.trap ?_
    | with_reducible refine CoreKeeps.stall ?_
    | dsimp only
    | with_reducible apply CoreRes.bind_keeps
    | with_reducible refine CoreKeeps.of_ok (CoreRes.bind_keeps ?_) (by assumption)
    | with_reducible refine CoreKeeps.of_trap (CoreRes.bind_keeps ?_) (by assumption)
    | with_reducible refine CoreKeeps.of_stall (CoreRes.bind_keeps ?_) (by assumption)
    | with_reducible apply Loading.bind_keeps
    | with_reducible refine LoadKeeps.of_going (Loading.bind_keeps ?_) (by assumption)
    | with_reducible refine LoadKeeps.of_failed (Loading.bind_keeps ?_) (by assumption)
    | with_reducible refine LoadKeeps.of_waits (Loading.bind_keeps ?_) (by assumption)
    | with_reducible apply lineWords_keeps
    | with_reducible refine CoreKeeps.of_ok (lineWords_keeps ?_) (by assumption)
    | with_reducible refine CoreKeeps.of_trap (lineWords_keeps ?_) (by assumption)
    | with_reducible refine CoreKeeps.of_stall (lineWords_keeps ?_) (by assumption)
    | with_reducible apply setL1_keeps
    | with_reducible apply OptKeeps.getD
    | split
    | intro _ _ _
    | intro _ _
    | intro _
    | (simp only [keeps_mk]; first | refine KeepsParts.of ?_)

theorem l1dWords_keeps {s₀ : State} {c : Nat} {x0 : Nat} {x1 : Nat} {s : State}
    (hk : Keeps s₀ s) : CoreKeeps s₀ (l1dWords c x0 x1 s) := by
  induction x1 generalizing c x0 s with
  | zero =>
    simp only [l1dWords]
    repeat' first
      | with_reducible assumption
      | with_reducible refine CoreKeeps.ok ?_
      | with_reducible refine CoreKeeps.trap ?_
      | with_reducible refine CoreKeeps.stall ?_
      | with_reducible refine CoreKeeps.of_ok (ih ?_) (by assumption)
      | with_reducible refine CoreKeeps.of_trap (ih ?_) (by assumption)
      | with_reducible refine CoreKeeps.of_stall (ih ?_) (by assumption)
      | with_reducible apply ih
      | dsimp only
      | with_reducible apply CoreRes.bind_keeps
      | with_reducible refine CoreKeeps.of_ok (CoreRes.bind_keeps ?_) (by assumption)
      | with_reducible refine CoreKeeps.of_trap (CoreRes.bind_keeps ?_) (by assumption)
      | with_reducible refine CoreKeeps.of_stall (CoreRes.bind_keeps ?_) (by assumption)
      | with_reducible apply Loading.bind_keeps
      | with_reducible refine LoadKeeps.of_going (Loading.bind_keeps ?_) (by assumption)
      | with_reducible refine LoadKeeps.of_failed (Loading.bind_keeps ?_) (by assumption)
      | with_reducible refine LoadKeeps.of_waits (Loading.bind_keeps ?_) (by assumption)
      | with_reducible apply l1Read_keeps
      | with_reducible refine CoreKeeps.of_ok (l1Read_keeps ?_) (by assumption)
      | with_reducible refine CoreKeeps.of_trap (l1Read_keeps ?_) (by assumption)
      | with_reducible refine CoreKeeps.of_stall (l1Read_keeps ?_) (by assumption)
      | split
      | intro _ _ _
      | intro _ _
      | intro _
  | succ n ih =>
    simp only [l1dWords]
    repeat' first
      | with_reducible assumption
      | with_reducible refine CoreKeeps.ok ?_
      | with_reducible refine CoreKeeps.trap ?_
      | with_reducible refine CoreKeeps.stall ?_
      | with_reducible refine CoreKeeps.of_ok (ih ?_) (by assumption)
      | with_reducible refine CoreKeeps.of_trap (ih ?_) (by assumption)
      | with_reducible refine CoreKeeps.of_stall (ih ?_) (by assumption)
      | with_reducible apply ih
      | dsimp only
      | with_reducible apply CoreRes.bind_keeps
      | with_reducible refine CoreKeeps.of_ok (CoreRes.bind_keeps ?_) (by assumption)
      | with_reducible refine CoreKeeps.of_trap (CoreRes.bind_keeps ?_) (by assumption)
      | with_reducible refine CoreKeeps.of_stall (CoreRes.bind_keeps ?_) (by assumption)
      | with_reducible apply Loading.bind_keeps
      | with_reducible refine LoadKeeps.of_going (Loading.bind_keeps ?_) (by assumption)
      | with_reducible refine LoadKeeps.of_failed (Loading.bind_keeps ?_) (by assumption)
      | with_reducible refine LoadKeeps.of_waits (Loading.bind_keeps ?_) (by assumption)
      | with_reducible apply l1Read_keeps
      | with_reducible refine CoreKeeps.of_ok (l1Read_keeps ?_) (by assumption)
      | with_reducible refine CoreKeeps.of_trap (l1Read_keeps ?_) (by assumption)
      | with_reducible refine CoreKeeps.of_stall (l1Read_keeps ?_) (by assumption)
      | split
      | intro _ _ _
      | intro _ _
      | intro _

theorem l1dRead_keeps {s₀ : State} {c a n : Nat} {s : State}
    (hk : Keeps s₀ s) : CoreKeeps s₀ (l1dRead c a n s) := by
  unfold l1dRead
  try dsimp only
  repeat' first
    | with_reducible assumption
    | with_reducible refine CoreKeeps.ok ?_
    | with_reducible refine CoreKeeps.trap ?_
    | with_reducible refine CoreKeeps.stall ?_
    | dsimp only
    | with_reducible apply CoreRes.bind_keeps
    | with_reducible refine CoreKeeps.of_ok (CoreRes.bind_keeps ?_) (by assumption)
    | with_reducible refine CoreKeeps.of_trap (CoreRes.bind_keeps ?_) (by assumption)
    | with_reducible refine CoreKeeps.of_stall (CoreRes.bind_keeps ?_) (by assumption)
    | with_reducible apply Loading.bind_keeps
    | with_reducible refine LoadKeeps.of_going (Loading.bind_keeps ?_) (by assumption)
    | with_reducible refine LoadKeeps.of_failed (Loading.bind_keeps ?_) (by assumption)
    | with_reducible refine LoadKeeps.of_waits (Loading.bind_keeps ?_) (by assumption)
    | with_reducible apply l1dWords_keeps
    | with_reducible refine CoreKeeps.of_ok (l1dWords_keeps ?_) (by assumption)
    | with_reducible refine CoreKeeps.of_trap (l1dWords_keeps ?_) (by assumption)
    | with_reducible refine CoreKeeps.of_stall (l1dWords_keeps ?_) (by assumption)
    | with_reducible apply OptKeeps.getD
    | split
    | intro _ _ _
    | intro _ _
    | intro _

theorem l1dStore_keeps {s₀ : State} {c a : Nat} {data : List Byte} {s : State}
    (hk : Keeps s₀ s) : Keeps s₀ (l1dStore c a data s) := by
  unfold l1dStore
  try dsimp only
  repeat' first
    | with_reducible assumption
    | dsimp only
    | with_reducible apply setL1_keeps
    | with_reducible apply Keeps.when
    | with_reducible apply Keeps.foldl
    | with_reducible apply Keeps.foldl_snd
    | split
    | intro _ _ _
    | intro _ _
    | intro _
    | (simp only [keeps_mk]; first | refine KeepsParts.of ?_)

theorem dataWrite_keeps {s₀ : State} {c a : Nat} {data : List Byte} {s : State}
    (hk : Keeps s₀ s) : CoreKeeps s₀ (dataWrite c a data s) := by
  unfold dataWrite
  try dsimp only
  repeat' first
    | with_reducible assumption
    | with_reducible refine CoreKeeps.ok ?_
    | with_reducible refine CoreKeeps.trap ?_
    | with_reducible refine CoreKeeps.stall ?_
    | dsimp only
    | with_reducible apply CoreRes.bind_keeps
    | with_reducible refine CoreKeeps.of_ok (CoreRes.bind_keeps ?_) (by assumption)
    | with_reducible refine CoreKeeps.of_trap (CoreRes.bind_keeps ?_) (by assumption)
    | with_reducible refine CoreKeeps.of_stall (CoreRes.bind_keeps ?_) (by assumption)
    | with_reducible apply Loading.bind_keeps
    | with_reducible refine LoadKeeps.of_going (Loading.bind_keeps ?_) (by assumption)
    | with_reducible refine LoadKeeps.of_failed (Loading.bind_keeps ?_) (by assumption)
    | with_reducible refine LoadKeeps.of_waits (Loading.bind_keeps ?_) (by assumption)
    | with_reducible apply l1dStore_keeps
    | with_reducible apply l2Write_keeps
    | with_reducible refine CoreKeeps.of_ok (l2Write_keeps ?_) (by assumption)
    | with_reducible refine CoreKeeps.of_trap (l2Write_keeps ?_) (by assumption)
    | with_reducible refine CoreKeeps.of_stall (l2Write_keeps ?_) (by assumption)
    | split
    | intro _ _ _
    | intro _ _
    | intro _

theorem setToPost_keeps {s₀ : State} {c : Nat} {l : List (Nat × Packet)} {s : State}
    (hk : Keeps s₀ s) : Keeps s₀ (setToPost c l s) := by
  unfold setToPost
  try dsimp only
  repeat' first
    | with_reducible assumption
    | dsimp only
    | with_reducible apply State.setCore_keeps
    | split
    | intro _ _ _
    | intro _ _
    | intro _
    | (simp only [keeps_mk]; first | refine KeepsParts.of ?_)

theorem storeError_keeps {s₀ : State} {c a : Nat} {s : State}
    (hk : Keeps s₀ s) : Keeps s₀ (storeError c a s) := by
  unfold storeError
  try dsimp only
  repeat' first
    | with_reducible assumption
    | dsimp only
    | with_reducible apply State.setCore_keeps
    | split
    | intro _ _ _
    | intro _ _
    | intro _
    | (simp only [keeps_mk]; first | refine KeepsParts.of ?_)

theorem corePump_keeps {s₀ : State} {x0 : Nat} {x1 : Nat} {s : State}
    (hk : Keeps s₀ s) : Keeps s₀ (corePump x0 x1 s) := by
  induction x0 generalizing x1 s with
  | zero =>
    simp only [corePump]
    repeat' first
      | with_reducible assumption
      | with_reducible apply ih
      | dsimp only
      | with_reducible apply niRequest_keeps
      | with_reducible apply setToPost_keeps
      | split
      | intro _ _ _
      | intro _ _
      | intro _
      | (simp only [keeps_mk]; first | refine KeepsParts.of ?_)
  | succ n ih =>
    simp only [corePump]
    repeat' first
      | with_reducible assumption
      | with_reducible apply ih
      | dsimp only
      | with_reducible apply niRequest_keeps
      | with_reducible apply setToPost_keeps
      | split
      | intro _ _ _
      | intro _ _
      | intro _
      | (simp only [keeps_mk]; first | refine KeepsParts.of ?_)

theorem post_keeps {s₀ : State} {c : Nat} {l : List (Nat × Packet)} {s : State}
    (hk : Keeps s₀ s) : Keeps s₀ (post c l s) := by
  unfold post
  try dsimp only
  repeat' first
    | with_reducible assumption
    | dsimp only
    | with_reducible apply corePump_keeps
    | with_reducible apply setToPost_keeps
    | split
    | intro _ _ _
    | intro _ _
    | intro _

theorem regStores_keeps {s₀ : State} {c : Nat} {l : List (Nat × Nat × Word)} {s : State}
    (hk : Keeps s₀ s) : Keeps s₀ (regStores c l s) := by
  unfold regStores
  try dsimp only
  repeat' first
    | with_reducible assumption
    | dsimp only
    | with_reducible apply post_keeps
    | with_reducible apply storeError_keeps
    | with_reducible apply Keeps.foldl
    | with_reducible apply Keeps.foldl_snd
    | split
    | intro _ _ _
    | intro _ _
    | intro _
    | (simp only [keeps_mk]; first | refine KeepsParts.of ?_)

theorem memStore_keeps {s₀ : State} {c a dst dport addr : Nat} {l : List Byte} {s : State}
    (hk : Keeps s₀ s) : Keeps s₀ (memStore c a dst dport addr l s) := by
  unfold memStore
  try dsimp only
  repeat' first
    | with_reducible assumption
    | dsimp only
    | with_reducible apply post_keeps
    | split
    | intro _ _ _
    | intro _ _
    | intro _
    | (simp only [keeps_mk]; first | refine KeepsParts.of ?_)

theorem timeoutCount_keeps {s₀ : State} {n : Nat} {s : State}
    (hk : Keeps s₀ s) : Keeps s₀ (timeoutCount n s) := by
  unfold timeoutCount
  try dsimp only
  repeat' first
    | with_reducible assumption
    | dsimp only
    | with_reducible apply State.count_keeps
    | with_reducible apply State.irq_keeps
    | split
    | intro _ _ _
    | intro _ _
    | intro _

theorem wireTimeout_keeps {s₀ : State} {n k : Nat} {s : State}
    (hk : Keeps s₀ s) : Keeps s₀ (wireTimeout n k s) := by
  unfold wireTimeout
  try dsimp only
  repeat' first
    | with_reducible assumption
    | dsimp only
    | with_reducible apply State.setOutReqs_keeps
    | with_reducible apply timeoutCount_keeps
    | with_reducible apply wireReply_keeps
    | split
    | intro _ _ _
    | intro _ _
    | intro _
    | (simp only [keeps_mk]; first | refine KeepsParts.of ?_)

theorem wireCut_keeps {s₀ : State} {k n : Nat} {s : State}
    (hk : Keeps s₀ s) : Keeps s₀ (wireCut k n s) := by
  unfold wireCut
  try dsimp only
  repeat' first
    | with_reducible assumption
    | dsimp only
    | with_reducible apply State.setWire_keeps
    | with_reducible apply Keeps.when
    | split
    | intro _ _ _
    | intro _ _
    | intro _
    | (simp only [keeps_mk]; first | refine KeepsParts.of ?_)

theorem coreAsk_keeps {s₀ : State} {c k : Nat} {ps : List Packet} {s : State}
    (hk : Keeps s₀ s) : CoreKeeps s₀ (coreAsk c k ps s) := by
  unfold coreAsk
  try dsimp only
  repeat' first
    | with_reducible assumption
    | with_reducible refine CoreKeeps.ok ?_
    | with_reducible refine CoreKeeps.trap ?_
    | with_reducible refine CoreKeeps.stall ?_
    | dsimp only
    | with_reducible apply stall_keeps
    | with_reducible refine wireAsk_keeps (by assumption) ?_
    | with_reducible apply wireAsk_keeps_snd
    | split
    | intro _ _ _
    | intro _ _
    | intro _
    | (simp only [keeps_mk]; first | refine KeepsParts.of ?_)

theorem memLoad_keeps {s₀ : State} {c k : Nat} {m : Option Nat} {b n : Nat} {a : Word} {s : State}
    (hk : Keeps s₀ s) : CoreKeeps s₀ (memLoad c k m b n a s) := by
  unfold memLoad
  try dsimp only
  repeat' first
    | with_reducible assumption
    | with_reducible refine CoreKeeps.ok ?_
    | with_reducible refine CoreKeeps.trap ?_
    | with_reducible refine CoreKeeps.stall ?_
    | dsimp only
    | with_reducible apply CoreRes.bind_keeps
    | with_reducible refine CoreKeeps.of_ok (CoreRes.bind_keeps ?_) (by assumption)
    | with_reducible refine CoreKeeps.of_trap (CoreRes.bind_keeps ?_) (by assumption)
    | with_reducible refine CoreKeeps.of_stall (CoreRes.bind_keeps ?_) (by assumption)
    | with_reducible apply Loading.bind_keeps
    | with_reducible refine LoadKeeps.of_going (Loading.bind_keeps ?_) (by assumption)
    | with_reducible refine LoadKeeps.of_failed (Loading.bind_keeps ?_) (by assumption)
    | with_reducible refine LoadKeeps.of_waits (Loading.bind_keeps ?_) (by assumption)
    | with_reducible apply coreAsk_keeps
    | with_reducible refine CoreKeeps.of_ok (coreAsk_keeps ?_) (by assumption)
    | with_reducible refine CoreKeeps.of_trap (coreAsk_keeps ?_) (by assumption)
    | with_reducible refine CoreKeeps.of_stall (coreAsk_keeps ?_) (by assumption)
    | split
    | intro _ _ _
    | intro _ _
    | intro _

theorem regAsk_keeps {s₀ : State} {c k addr : Nat} {a : Word} {s : State}
    (hk : Keeps s₀ s) : CoreKeeps s₀ (regAsk c k addr a s) := by
  unfold regAsk
  try dsimp only
  repeat' first
    | with_reducible assumption
    | with_reducible refine CoreKeeps.ok ?_
    | with_reducible refine CoreKeeps.trap ?_
    | with_reducible refine CoreKeeps.stall ?_
    | dsimp only
    | with_reducible apply CoreRes.bind_keeps
    | with_reducible refine CoreKeeps.of_ok (CoreRes.bind_keeps ?_) (by assumption)
    | with_reducible refine CoreKeeps.of_trap (CoreRes.bind_keeps ?_) (by assumption)
    | with_reducible refine CoreKeeps.of_stall (CoreRes.bind_keeps ?_) (by assumption)
    | with_reducible apply Loading.bind_keeps
    | with_reducible refine LoadKeeps.of_going (Loading.bind_keeps ?_) (by assumption)
    | with_reducible refine LoadKeeps.of_failed (Loading.bind_keeps ?_) (by assumption)
    | with_reducible refine LoadKeeps.of_waits (Loading.bind_keeps ?_) (by assumption)
    | with_reducible apply coreAsk_keeps
    | with_reducible refine CoreKeeps.of_ok (coreAsk_keeps ?_) (by assumption)
    | with_reducible refine CoreKeeps.of_trap (coreAsk_keeps ?_) (by assumption)
    | with_reducible refine CoreKeeps.of_stall (coreAsk_keeps ?_) (by assumption)
    | split
    | intro _ _ _
    | intro _ _
    | intro _
    | (simp only [keeps_mk]; first | refine KeepsParts.of ?_)

theorem ownReg_keeps {s₀ : State} {c addr : Nat} {a : Word} {bad : Bool} {s : State}
    (hk : Keeps s₀ s) : CoreKeeps s₀ (ownReg c addr a bad s) := by
  unfold ownReg
  try dsimp only
  repeat' first
    | with_reducible assumption
    | with_reducible refine CoreKeeps.ok ?_
    | with_reducible refine CoreKeeps.trap ?_
    | with_reducible refine CoreKeeps.stall ?_
    | dsimp only
    | with_reducible refine readReg_keeps (by assumption) ?_
    | with_reducible apply readReg_keeps_snd
    | with_reducible apply stall_keeps
    | split
    | intro _ _ _
    | intro _ _
    | intro _
    | (simp only [keeps_mk]; first | refine KeepsParts.of ?_)

theorem ownAccess_keeps {s₀ : State} {α : Type} {m b n : Nat} {act : State → CoreRes α} {s : State} (hact : ∀ t, Keeps s₀ t → CoreKeeps s₀ (act t))
    (hk : Keeps s₀ s) : CoreKeeps s₀ (ownAccess m b n act s) := by
  unfold ownAccess
  try dsimp only
  repeat' first
    | with_reducible assumption
    | with_reducible refine CoreKeeps.ok ?_
    | with_reducible refine CoreKeeps.trap ?_
    | with_reducible refine CoreKeeps.stall ?_
    | with_reducible apply hact
    | dsimp only
    | with_reducible apply State.count_keeps
    | with_reducible apply countWaits_keeps
    | with_reducible apply setWant_keeps
    | with_reducible apply stall_keeps
    | with_reducible apply Keeps.foldl
    | with_reducible apply Keeps.foldl_snd
    | split
    | intro _ _ _
    | intro _ _
    | intro _

theorem ownPartial_keeps {s₀ : State} {m w : Nat} {bs : List (Nat × Byte)} {s : State}
    (hk : Keeps s₀ s) : CoreKeeps s₀ (ownPartial m w bs s) := by
  unfold ownPartial
  try dsimp only
  repeat' first
    | with_reducible assumption
    | with_reducible refine CoreKeeps.ok ?_
    | with_reducible refine CoreKeeps.trap ?_
    | with_reducible refine CoreKeeps.stall ?_
    | dsimp only
    | with_reducible apply State.setShelf_keeps
    | with_reducible refine shelfRead_keeps (by assumption) ?_
    | with_reducible apply shelfRead_keeps_snd
    | with_reducible apply shelfWrite_keeps
    | with_reducible apply stall_keeps
    | split
    | intro _ _ _
    | intro _ _
    | intro _
    | (simp only [keeps_mk]; first | refine KeepsParts.of ?_)

theorem regLoads_keeps {s₀ : State} {one : Nat → State → CoreRes (Word × Bool)} {addr k : Nat} {s : State}
    (hf : ∀ a t, Keeps s₀ t → CoreKeeps s₀ (one a t)) (hk : Keeps s₀ s) : CoreKeeps s₀ (regLoads one addr k s) := by
  induction k generalizing addr s with
  | zero => exact .ok hk
  | succ k ih => exact CoreRes.bind_keeps (hf _ _ hk) fun _ _ h1 => CoreRes.bind_keeps (ih h1) fun _ _ h2 => .ok h2

theorem loadBytes_keeps {s₀ : State} {c : Nat} {q : Luck} {a : Word} {n : Nat} {p : Place} {s : State}
    (hk : Keeps s₀ s) : CoreKeeps s₀ (loadBytes c q a n p s) := by
  unfold loadBytes
  try dsimp only
  repeat' first
    | with_reducible assumption
    | with_reducible refine CoreKeeps.ok ?_
    | with_reducible refine CoreKeeps.trap ?_
    | with_reducible refine CoreKeeps.stall ?_
    | dsimp only
    | with_reducible apply l1dRead_keeps
    | with_reducible refine CoreKeeps.of_ok (l1dRead_keeps ?_) (by assumption)
    | with_reducible refine CoreKeeps.of_trap (l1dRead_keeps ?_) (by assumption)
    | with_reducible refine CoreKeeps.of_stall (l1dRead_keeps ?_) (by assumption)
    | with_reducible apply memLoad_keeps
    | with_reducible refine CoreKeeps.of_ok (memLoad_keeps ?_) (by assumption)
    | with_reducible refine CoreKeeps.of_trap (memLoad_keeps ?_) (by assumption)
    | with_reducible refine CoreKeeps.of_stall (memLoad_keeps ?_) (by assumption)
    | with_reducible apply ownAccess_keeps
    | with_reducible refine CoreKeeps.of_ok (ownAccess_keeps ?_) (by assumption)
    | with_reducible refine CoreKeeps.of_trap (ownAccess_keeps ?_) (by assumption)
    | with_reducible refine CoreKeeps.of_stall (ownAccess_keeps ?_) (by assumption)
    | with_reducible apply ownReg_keeps
    | with_reducible refine CoreKeeps.of_ok (ownReg_keeps ?_) (by assumption)
    | with_reducible refine CoreKeeps.of_trap (ownReg_keeps ?_) (by assumption)
    | with_reducible refine CoreKeeps.of_stall (ownReg_keeps ?_) (by assumption)
    | with_reducible refine ramRead_keeps (by assumption) ?_
    | with_reducible apply ramRead_keeps_snd
    | with_reducible apply regAsk_keeps
    | with_reducible refine CoreKeeps.of_ok (regAsk_keeps ?_) (by assumption)
    | with_reducible refine CoreKeeps.of_trap (regAsk_keeps ?_) (by assumption)
    | with_reducible refine CoreKeeps.of_stall (regAsk_keeps ?_) (by assumption)
    | with_reducible apply regLoads_keeps
    | with_reducible refine CoreKeeps.of_ok (regLoads_keeps ?_) (by assumption)
    | with_reducible refine CoreKeeps.of_trap (regLoads_keeps ?_) (by assumption)
    | with_reducible refine CoreKeeps.of_stall (regLoads_keeps ?_) (by assumption)
    | with_reducible refine shelfReadBytes_keeps (by assumption) ?_
    | with_reducible apply shelfReadBytes_keeps_snd
    | split
    | intro _ _ _
    | intro _ _
    | intro _
    | (simp only [keeps_mk]; first | refine KeepsParts.of ?_)

theorem coreLoad_keeps {s₀ : State} {c : Nat} {q : Luck} {a : Word} {n : Nat} {s : State}
    (hk : Keeps s₀ s) : CoreKeeps s₀ (coreLoad c q a n s) := by
  unfold coreLoad
  try dsimp only
  repeat' first
    | with_reducible assumption
    | with_reducible refine CoreKeeps.ok ?_
    | with_reducible refine CoreKeeps.trap ?_
    | with_reducible refine CoreKeeps.stall ?_
    | dsimp only
    | with_reducible apply CoreRes.bind_keeps
    | with_reducible refine CoreKeeps.of_ok (CoreRes.bind_keeps ?_) (by assumption)
    | with_reducible refine CoreKeeps.of_trap (CoreRes.bind_keeps ?_) (by assumption)
    | with_reducible refine CoreKeeps.of_stall (CoreRes.bind_keeps ?_) (by assumption)
    | with_reducible apply Loading.bind_keeps
    | with_reducible refine LoadKeeps.of_going (Loading.bind_keeps ?_) (by assumption)
    | with_reducible refine LoadKeeps.of_failed (Loading.bind_keeps ?_) (by assumption)
    | with_reducible refine LoadKeeps.of_waits (Loading.bind_keeps ?_) (by assumption)
    | with_reducible apply State.load_keeps
    | with_reducible apply loadBytes_keeps
    | with_reducible refine CoreKeeps.of_ok (loadBytes_keeps ?_) (by assumption)
    | with_reducible refine CoreKeeps.of_trap (loadBytes_keeps ?_) (by assumption)
    | with_reducible refine CoreKeeps.of_stall (loadBytes_keeps ?_) (by assumption)
    | split
    | intro _ _ _
    | intro _ _
    | intro _
    | (simp only [keeps_mk]; first | refine KeepsParts.of ?_)

theorem storeBytes_keeps {s₀ : State} {c : Nat} {a : Word} {l : List Byte} {p : Place} {s : State}
    (hk : Keeps s₀ s) : CoreKeeps s₀ (storeBytes c a l p s) := by
  unfold storeBytes
  try dsimp only
  repeat' first
    | with_reducible assumption
    | with_reducible refine CoreKeeps.ok ?_
    | with_reducible refine CoreKeeps.trap ?_
    | with_reducible refine CoreKeeps.stall ?_
    | dsimp only
    | with_reducible apply dataWrite_keeps
    | with_reducible refine CoreKeeps.of_ok (dataWrite_keeps ?_) (by assumption)
    | with_reducible refine CoreKeeps.of_trap (dataWrite_keeps ?_) (by assumption)
    | with_reducible refine CoreKeeps.of_stall (dataWrite_keeps ?_) (by assumption)
    | with_reducible apply memStore_keeps
    | with_reducible apply ownAccess_keeps
    | with_reducible refine CoreKeeps.of_ok (ownAccess_keeps ?_) (by assumption)
    | with_reducible refine CoreKeeps.of_trap (ownAccess_keeps ?_) (by assumption)
    | with_reducible refine CoreKeeps.of_stall (ownAccess_keeps ?_) (by assumption)
    | with_reducible apply ownPartial_keeps
    | with_reducible refine CoreKeeps.of_ok (ownPartial_keeps ?_) (by assumption)
    | with_reducible refine CoreKeeps.of_trap (ownPartial_keeps ?_) (by assumption)
    | with_reducible refine CoreKeeps.of_stall (ownPartial_keeps ?_) (by assumption)
    | with_reducible apply ramWrite_keeps
    | with_reducible apply regStores_keeps
    | with_reducible apply shelfWriteBytes_keeps
    | with_reducible apply stall_keeps
    | with_reducible apply storeError_keeps
    | with_reducible refine writeReg_keeps (by assumption) ?_
    | with_reducible apply writeReg_keeps_snd
    | split
    | intro _ _ _
    | intro _ _
    | intro _
    | (simp only [keeps_mk]; first | refine KeepsParts.of ?_)

theorem coreStore_keeps {s₀ : State} {c : Nat} {a : Word} {n v : Nat} {s : State}
    (hk : Keeps s₀ s) : CoreKeeps s₀ (coreStore c a n v s) := by
  unfold coreStore
  try dsimp only
  repeat' first
    | with_reducible assumption
    | with_reducible refine CoreKeeps.ok ?_
    | with_reducible refine CoreKeeps.trap ?_
    | with_reducible refine CoreKeeps.stall ?_
    | dsimp only
    | with_reducible apply storeBytes_keeps
    | with_reducible refine CoreKeeps.of_ok (storeBytes_keeps ?_) (by assumption)
    | with_reducible refine CoreKeeps.of_trap (storeBytes_keeps ?_) (by assumption)
    | with_reducible refine CoreKeeps.of_stall (storeBytes_keeps ?_) (by assumption)
    | split
    | intro _ _ _
    | intro _ _
    | intro _
    | (simp only [keeps_mk]; first | refine KeepsParts.of ?_)

theorem l1iRead_keeps {s₀ : State} {c a : Nat} {s : State}
    (hk : Keeps s₀ s) : CoreKeeps s₀ (l1iRead c a s) := by
  unfold l1iRead
  try dsimp only
  repeat' first
    | with_reducible assumption
    | with_reducible refine CoreKeeps.ok ?_
    | with_reducible refine CoreKeeps.trap ?_
    | with_reducible refine CoreKeeps.stall ?_
    | dsimp only
    | with_reducible apply CoreRes.bind_keeps
    | with_reducible refine CoreKeeps.of_ok (CoreRes.bind_keeps ?_) (by assumption)
    | with_reducible refine CoreKeeps.of_trap (CoreRes.bind_keeps ?_) (by assumption)
    | with_reducible refine CoreKeeps.of_stall (CoreRes.bind_keeps ?_) (by assumption)
    | with_reducible apply Loading.bind_keeps
    | with_reducible refine LoadKeeps.of_going (Loading.bind_keeps ?_) (by assumption)
    | with_reducible refine LoadKeeps.of_failed (Loading.bind_keeps ?_) (by assumption)
    | with_reducible refine LoadKeeps.of_waits (Loading.bind_keeps ?_) (by assumption)
    | with_reducible apply l1Read_keeps
    | with_reducible refine CoreKeeps.of_ok (l1Read_keeps ?_) (by assumption)
    | with_reducible refine CoreKeeps.of_trap (l1Read_keeps ?_) (by assumption)
    | with_reducible refine CoreKeeps.of_stall (l1Read_keeps ?_) (by assumption)
    | with_reducible apply setL1_keeps
    | split
    | intro _ _ _
    | intro _ _
    | intro _

theorem fetchAt_keeps {s₀ : State} {c : Nat} {p : Option Place} {pc : Word} {s : State}
    (hk : Keeps s₀ s) : CoreKeeps s₀ (fetchAt c p pc s) := by
  unfold fetchAt
  try dsimp only
  repeat' first
    | with_reducible assumption
    | with_reducible refine CoreKeeps.ok ?_
    | with_reducible refine CoreKeeps.trap ?_
    | with_reducible refine CoreKeeps.stall ?_
    | dsimp only
    | with_reducible apply CoreRes.bind_keeps
    | with_reducible refine CoreKeeps.of_ok (CoreRes.bind_keeps ?_) (by assumption)
    | with_reducible refine CoreKeeps.of_trap (CoreRes.bind_keeps ?_) (by assumption)
    | with_reducible refine CoreKeeps.of_stall (CoreRes.bind_keeps ?_) (by assumption)
    | with_reducible apply Loading.bind_keeps
    | with_reducible refine LoadKeeps.of_going (Loading.bind_keeps ?_) (by assumption)
    | with_reducible refine LoadKeeps.of_failed (Loading.bind_keeps ?_) (by assumption)
    | with_reducible refine LoadKeeps.of_waits (Loading.bind_keeps ?_) (by assumption)
    | with_reducible apply l1iRead_keeps
    | with_reducible refine CoreKeeps.of_ok (l1iRead_keeps ?_) (by assumption)
    | with_reducible refine CoreKeeps.of_trap (l1iRead_keeps ?_) (by assumption)
    | with_reducible refine CoreKeeps.of_stall (l1iRead_keeps ?_) (by assumption)
    | with_reducible apply memLoad_keeps
    | with_reducible refine CoreKeeps.of_ok (memLoad_keeps ?_) (by assumption)
    | with_reducible refine CoreKeeps.of_trap (memLoad_keeps ?_) (by assumption)
    | with_reducible refine CoreKeeps.of_stall (memLoad_keeps ?_) (by assumption)
    | with_reducible refine ramRead_keeps (by assumption) ?_
    | with_reducible apply ramRead_keeps_snd
    | with_reducible apply regAsk_keeps
    | with_reducible refine CoreKeeps.of_ok (regAsk_keeps ?_) (by assumption)
    | with_reducible refine CoreKeeps.of_trap (regAsk_keeps ?_) (by assumption)
    | with_reducible refine CoreKeeps.of_stall (regAsk_keeps ?_) (by assumption)
    | split
    | intro _ _ _
    | intro _ _
    | intro _
    | (simp only [keeps_mk]; first | refine KeepsParts.of ?_)

theorem fetch_keeps {s₀ : State} {c : Nat} {s : State}
    (hk : Keeps s₀ s) : CoreKeeps s₀ (fetch c s) := by
  unfold fetch
  try dsimp only
  repeat' first
    | with_reducible assumption
    | with_reducible refine CoreKeeps.ok ?_
    | with_reducible refine CoreKeeps.trap ?_
    | with_reducible refine CoreKeeps.stall ?_
    | dsimp only
    | with_reducible apply CoreRes.bind_keeps
    | with_reducible refine CoreKeeps.of_ok (CoreRes.bind_keeps ?_) (by assumption)
    | with_reducible refine CoreKeeps.of_trap (CoreRes.bind_keeps ?_) (by assumption)
    | with_reducible refine CoreKeeps.of_stall (CoreRes.bind_keeps ?_) (by assumption)
    | with_reducible apply Loading.bind_keeps
    | with_reducible refine LoadKeeps.of_going (Loading.bind_keeps ?_) (by assumption)
    | with_reducible refine LoadKeeps.of_failed (Loading.bind_keeps ?_) (by assumption)
    | with_reducible refine LoadKeeps.of_waits (Loading.bind_keeps ?_) (by assumption)
    | with_reducible apply fetchAt_keeps
    | with_reducible refine CoreKeeps.of_ok (fetchAt_keeps ?_) (by assumption)
    | with_reducible refine CoreKeeps.of_trap (fetchAt_keeps ?_) (by assumption)
    | with_reducible refine CoreKeeps.of_stall (fetchAt_keeps ?_) (by assumption)
    | split
    | intro _ _ _
    | intro _ _
    | intro _

theorem engineTouch_keeps {s₀ : State} {c : Nat} {x0 : Word} {x1 : Nat} {s : State}
    (hk : Keeps s₀ s) : CoreKeeps s₀ (engineTouch c x0 x1 s) := by
  induction x1 generalizing c x0 s with
  | zero =>
    simp only [engineTouch]
    repeat' first
      | with_reducible assumption
      | with_reducible refine CoreKeeps.ok ?_
      | with_reducible refine CoreKeeps.trap ?_
      | with_reducible refine CoreKeeps.stall ?_
      | with_reducible refine CoreKeeps.of_ok (ih ?_) (by assumption)
      | with_reducible refine CoreKeeps.of_trap (ih ?_) (by assumption)
      | with_reducible refine CoreKeeps.of_stall (ih ?_) (by assumption)
      | with_reducible apply ih
      | dsimp only
      | with_reducible apply CoreRes.bind_keeps
      | with_reducible refine CoreKeeps.of_ok (CoreRes.bind_keeps ?_) (by assumption)
      | with_reducible refine CoreKeeps.of_trap (CoreRes.bind_keeps ?_) (by assumption)
      | with_reducible refine CoreKeeps.of_stall (CoreRes.bind_keeps ?_) (by assumption)
      | with_reducible apply Loading.bind_keeps
      | with_reducible refine LoadKeeps.of_going (Loading.bind_keeps ?_) (by assumption)
      | with_reducible refine LoadKeeps.of_failed (Loading.bind_keeps ?_) (by assumption)
      | with_reducible refine LoadKeeps.of_waits (Loading.bind_keeps ?_) (by assumption)
      | with_reducible apply l2Get_keeps
      | with_reducible refine CoreKeeps.of_ok (l2Get_keeps ?_) (by assumption)
      | with_reducible refine CoreKeeps.of_trap (l2Get_keeps ?_) (by assumption)
      | with_reducible refine CoreKeeps.of_stall (l2Get_keeps ?_) (by assumption)
      | split
      | intro _ _ _
      | intro _ _
      | intro _
      | (simp only [keeps_mk]; first | refine KeepsParts.of ?_)
  | succ n ih =>
    simp only [engineTouch]
    repeat' first
      | with_reducible assumption
      | with_reducible refine CoreKeeps.ok ?_
      | with_reducible refine CoreKeeps.trap ?_
      | with_reducible refine CoreKeeps.stall ?_
      | with_reducible refine CoreKeeps.of_ok (ih ?_) (by assumption)
      | with_reducible refine CoreKeeps.of_trap (ih ?_) (by assumption)
      | with_reducible refine CoreKeeps.of_stall (ih ?_) (by assumption)
      | with_reducible apply ih
      | dsimp only
      | with_reducible apply CoreRes.bind_keeps
      | with_reducible refine CoreKeeps.of_ok (CoreRes.bind_keeps ?_) (by assumption)
      | with_reducible refine CoreKeeps.of_trap (CoreRes.bind_keeps ?_) (by assumption)
      | with_reducible refine CoreKeeps.of_stall (CoreRes.bind_keeps ?_) (by assumption)
      | with_reducible apply Loading.bind_keeps
      | with_reducible refine LoadKeeps.of_going (Loading.bind_keeps ?_) (by assumption)
      | with_reducible refine LoadKeeps.of_failed (Loading.bind_keeps ?_) (by assumption)
      | with_reducible refine LoadKeeps.of_waits (Loading.bind_keeps ?_) (by assumption)
      | with_reducible apply l2Get_keeps
      | with_reducible refine CoreKeeps.of_ok (l2Get_keeps ?_) (by assumption)
      | with_reducible refine CoreKeeps.of_trap (l2Get_keeps ?_) (by assumption)
      | with_reducible refine CoreKeeps.of_stall (l2Get_keeps ?_) (by assumption)
      | split
      | intro _ _ _
      | intro _ _
      | intro _
      | (simp only [keeps_mk]; first | refine KeepsParts.of ?_)

theorem linePoisoned_keeps {s₀ : State} {line g : Nat} {s : State}
    (hk : Keeps s₀ s) : CoreKeeps s₀ (linePoisoned line g s) := by
  unfold linePoisoned
  try dsimp only
  repeat' first
    | with_reducible assumption
    | with_reducible refine CoreKeeps.ok ?_
    | with_reducible refine CoreKeeps.trap ?_
    | with_reducible refine CoreKeeps.stall ?_
    | dsimp only
    | with_reducible apply CoreRes.bind_keeps
    | with_reducible refine CoreKeeps.of_ok (CoreRes.bind_keeps ?_) (by assumption)
    | with_reducible refine CoreKeeps.of_trap (CoreRes.bind_keeps ?_) (by assumption)
    | with_reducible refine CoreKeeps.of_stall (CoreRes.bind_keeps ?_) (by assumption)
    | with_reducible apply Loading.bind_keeps
    | with_reducible refine LoadKeeps.of_going (Loading.bind_keeps ?_) (by assumption)
    | with_reducible refine LoadKeeps.of_failed (Loading.bind_keeps ?_) (by assumption)
    | with_reducible refine LoadKeeps.of_waits (Loading.bind_keeps ?_) (by assumption)
    | with_reducible apply l2Get_keeps
    | with_reducible refine CoreKeeps.of_ok (l2Get_keeps ?_) (by assumption)
    | with_reducible refine CoreKeeps.of_trap (l2Get_keeps ?_) (by assumption)
    | with_reducible refine CoreKeeps.of_stall (l2Get_keeps ?_) (by assumption)
    | with_reducible refine l2Group_keeps (by assumption) ?_
    | with_reducible apply l2Group_keeps_snd
    | split
    | intro _ _ _
    | intro _ _
    | intro _

theorem engineWrite_keeps {s₀ : State} {c k : Nat} {spill : Bool} {a : Word} {v : Word} {s : State}
    (hk : Keeps s₀ s) : CoreKeeps s₀ (engineWrite c k spill a v s) := by
  unfold engineWrite
  try dsimp only
  repeat' first
    | with_reducible assumption
    | with_reducible refine CoreKeeps.ok ?_
    | with_reducible refine CoreKeeps.trap ?_
    | with_reducible refine CoreKeeps.stall ?_
    | dsimp only
    | with_reducible apply CoreRes.bind_keeps
    | with_reducible refine CoreKeeps.of_ok (CoreRes.bind_keeps ?_) (by assumption)
    | with_reducible refine CoreKeeps.of_trap (CoreRes.bind_keeps ?_) (by assumption)
    | with_reducible refine CoreKeeps.of_stall (CoreRes.bind_keeps ?_) (by assumption)
    | with_reducible apply Loading.bind_keeps
    | with_reducible refine LoadKeeps.of_going (Loading.bind_keeps ?_) (by assumption)
    | with_reducible refine LoadKeeps.of_failed (Loading.bind_keeps ?_) (by assumption)
    | with_reducible refine LoadKeeps.of_waits (Loading.bind_keeps ?_) (by assumption)
    | with_reducible apply coreAsk_keeps
    | with_reducible refine CoreKeeps.of_ok (coreAsk_keeps ?_) (by assumption)
    | with_reducible refine CoreKeeps.of_trap (coreAsk_keeps ?_) (by assumption)
    | with_reducible refine CoreKeeps.of_stall (coreAsk_keeps ?_) (by assumption)
    | with_reducible apply dataWrite_keeps
    | with_reducible refine CoreKeeps.of_ok (dataWrite_keeps ?_) (by assumption)
    | with_reducible refine CoreKeeps.of_trap (dataWrite_keeps ?_) (by assumption)
    | with_reducible refine CoreKeeps.of_stall (dataWrite_keeps ?_) (by assumption)
    | with_reducible apply linePoisoned_keeps
    | with_reducible refine CoreKeeps.of_ok (linePoisoned_keeps ?_) (by assumption)
    | with_reducible refine CoreKeeps.of_trap (linePoisoned_keeps ?_) (by assumption)
    | with_reducible refine CoreKeeps.of_stall (linePoisoned_keeps ?_) (by assumption)
    | split
    | intro _ _ _
    | intro _ _
    | intro _
    | (simp only [keeps_mk]; first | refine KeepsParts.of ?_)

theorem engineStores_keeps {s₀ : State} {c k : Nat} {spill : Bool} {x0 : Word} {x1 : List Word} {s : State}
    (hk : Keeps s₀ s) : CoreKeeps s₀ (engineStores c k spill x0 x1 s) := by
  induction x1 generalizing c k spill x0 s with
  | nil =>
    simp only [engineStores]
    repeat' first
      | with_reducible assumption
      | with_reducible refine CoreKeeps.ok ?_
      | with_reducible refine CoreKeeps.trap ?_
      | with_reducible refine CoreKeeps.stall ?_
      | with_reducible refine CoreKeeps.of_ok (ih ?_) (by assumption)
      | with_reducible refine CoreKeeps.of_trap (ih ?_) (by assumption)
      | with_reducible refine CoreKeeps.of_stall (ih ?_) (by assumption)
      | with_reducible apply ih
      | dsimp only
      | with_reducible apply CoreRes.bind_keeps
      | with_reducible refine CoreKeeps.of_ok (CoreRes.bind_keeps ?_) (by assumption)
      | with_reducible refine CoreKeeps.of_trap (CoreRes.bind_keeps ?_) (by assumption)
      | with_reducible refine CoreKeeps.of_stall (CoreRes.bind_keeps ?_) (by assumption)
      | with_reducible apply Loading.bind_keeps
      | with_reducible refine LoadKeeps.of_going (Loading.bind_keeps ?_) (by assumption)
      | with_reducible refine LoadKeeps.of_failed (Loading.bind_keeps ?_) (by assumption)
      | with_reducible refine LoadKeeps.of_waits (Loading.bind_keeps ?_) (by assumption)
      | with_reducible apply engineWrite_keeps
      | with_reducible refine CoreKeeps.of_ok (engineWrite_keeps ?_) (by assumption)
      | with_reducible refine CoreKeeps.of_trap (engineWrite_keeps ?_) (by assumption)
      | with_reducible refine CoreKeeps.of_stall (engineWrite_keeps ?_) (by assumption)
      | split
      | intro _ _ _
      | intro _ _
      | intro _
  | cons a l ih =>
    simp only [engineStores]
    repeat' first
      | with_reducible assumption
      | with_reducible refine CoreKeeps.ok ?_
      | with_reducible refine CoreKeeps.trap ?_
      | with_reducible refine CoreKeeps.stall ?_
      | with_reducible refine CoreKeeps.of_ok (ih ?_) (by assumption)
      | with_reducible refine CoreKeeps.of_trap (ih ?_) (by assumption)
      | with_reducible refine CoreKeeps.of_stall (ih ?_) (by assumption)
      | with_reducible apply ih
      | dsimp only
      | with_reducible apply CoreRes.bind_keeps
      | with_reducible refine CoreKeeps.of_ok (CoreRes.bind_keeps ?_) (by assumption)
      | with_reducible refine CoreKeeps.of_trap (CoreRes.bind_keeps ?_) (by assumption)
      | with_reducible refine CoreKeeps.of_stall (CoreRes.bind_keeps ?_) (by assumption)
      | with_reducible apply Loading.bind_keeps
      | with_reducible refine LoadKeeps.of_going (Loading.bind_keeps ?_) (by assumption)
      | with_reducible refine LoadKeeps.of_failed (Loading.bind_keeps ?_) (by assumption)
      | with_reducible refine LoadKeeps.of_waits (Loading.bind_keeps ?_) (by assumption)
      | with_reducible apply engineWrite_keeps
      | with_reducible refine CoreKeeps.of_ok (engineWrite_keeps ?_) (by assumption)
      | with_reducible refine CoreKeeps.of_trap (engineWrite_keeps ?_) (by assumption)
      | with_reducible refine CoreKeeps.of_stall (engineWrite_keeps ?_) (by assumption)
      | split
      | intro _ _ _
      | intro _ _
      | intro _

theorem engineWrites_keeps {s₀ : State} {c k : Nat} {spill : Bool} {a : Word} {l : List Word} {s : State}
    (hk : Keeps s₀ s) : CoreKeeps s₀ (engineWrites c k spill a l s) := by
  unfold engineWrites
  try dsimp only
  repeat' first
    | with_reducible assumption
    | with_reducible refine CoreKeeps.ok ?_
    | with_reducible refine CoreKeeps.trap ?_
    | with_reducible refine CoreKeeps.stall ?_
    | dsimp only
    | with_reducible apply CoreRes.bind_keeps
    | with_reducible refine CoreKeeps.of_ok (CoreRes.bind_keeps ?_) (by assumption)
    | with_reducible refine CoreKeeps.of_trap (CoreRes.bind_keeps ?_) (by assumption)
    | with_reducible refine CoreKeeps.of_stall (CoreRes.bind_keeps ?_) (by assumption)
    | with_reducible apply Loading.bind_keeps
    | with_reducible refine LoadKeeps.of_going (Loading.bind_keeps ?_) (by assumption)
    | with_reducible refine LoadKeeps.of_failed (Loading.bind_keeps ?_) (by assumption)
    | with_reducible refine LoadKeeps.of_waits (Loading.bind_keeps ?_) (by assumption)
    | with_reducible apply engineStores_keeps
    | with_reducible refine CoreKeeps.of_ok (engineStores_keeps ?_) (by assumption)
    | with_reducible refine CoreKeeps.of_trap (engineStores_keeps ?_) (by assumption)
    | with_reducible refine CoreKeeps.of_stall (engineStores_keeps ?_) (by assumption)
    | with_reducible apply engineTouch_keeps
    | with_reducible refine CoreKeeps.of_ok (engineTouch_keeps ?_) (by assumption)
    | with_reducible refine CoreKeeps.of_trap (engineTouch_keeps ?_) (by assumption)
    | with_reducible refine CoreKeeps.of_stall (engineTouch_keeps ?_) (by assumption)
    | split
    | intro _ _ _
    | intro _ _
    | intro _

theorem engineRead_keeps {s₀ : State} {c k : Nat} {a : Word} {s : State}
    (hk : Keeps s₀ s) : CoreKeeps s₀ (engineRead c k a s) := by
  unfold engineRead
  try dsimp only
  repeat' first
    | with_reducible assumption
    | with_reducible refine CoreKeeps.ok ?_
    | with_reducible refine CoreKeeps.trap ?_
    | with_reducible refine CoreKeeps.stall ?_
    | dsimp only
    | with_reducible apply CoreRes.bind_keeps
    | with_reducible refine CoreKeeps.of_ok (CoreRes.bind_keeps ?_) (by assumption)
    | with_reducible refine CoreKeeps.of_trap (CoreRes.bind_keeps ?_) (by assumption)
    | with_reducible refine CoreKeeps.of_stall (CoreRes.bind_keeps ?_) (by assumption)
    | with_reducible apply Loading.bind_keeps
    | with_reducible refine LoadKeeps.of_going (Loading.bind_keeps ?_) (by assumption)
    | with_reducible refine LoadKeeps.of_failed (Loading.bind_keeps ?_) (by assumption)
    | with_reducible refine LoadKeeps.of_waits (Loading.bind_keeps ?_) (by assumption)
    | with_reducible apply State.load_keeps
    | with_reducible apply l1dRead_keeps
    | with_reducible refine CoreKeeps.of_ok (l1dRead_keeps ?_) (by assumption)
    | with_reducible refine CoreKeeps.of_trap (l1dRead_keeps ?_) (by assumption)
    | with_reducible refine CoreKeeps.of_stall (l1dRead_keeps ?_) (by assumption)
    | with_reducible apply memLoad_keeps
    | with_reducible refine CoreKeeps.of_ok (memLoad_keeps ?_) (by assumption)
    | with_reducible refine CoreKeeps.of_trap (memLoad_keeps ?_) (by assumption)
    | with_reducible refine CoreKeeps.of_stall (memLoad_keeps ?_) (by assumption)
    | split
    | intro _ _ _
    | intro _ _
    | intro _
    | (simp only [keeps_mk]; first | refine KeepsParts.of ?_)

theorem engineReads_keeps {s₀ : State} {c k : Nat} {x0 : Word} {x1 : Nat} {s : State}
    (hk : Keeps s₀ s) : CoreKeeps s₀ (engineReads c k x0 x1 s) := by
  induction x1 generalizing c k x0 s with
  | zero =>
    simp only [engineReads]
    repeat' first
      | with_reducible assumption
      | with_reducible refine CoreKeeps.ok ?_
      | with_reducible refine CoreKeeps.trap ?_
      | with_reducible refine CoreKeeps.stall ?_
      | with_reducible refine CoreKeeps.of_ok (ih ?_) (by assumption)
      | with_reducible refine CoreKeeps.of_trap (ih ?_) (by assumption)
      | with_reducible refine CoreKeeps.of_stall (ih ?_) (by assumption)
      | with_reducible apply ih
      | dsimp only
      | with_reducible apply CoreRes.bind_keeps
      | with_reducible refine CoreKeeps.of_ok (CoreRes.bind_keeps ?_) (by assumption)
      | with_reducible refine CoreKeeps.of_trap (CoreRes.bind_keeps ?_) (by assumption)
      | with_reducible refine CoreKeeps.of_stall (CoreRes.bind_keeps ?_) (by assumption)
      | with_reducible apply Loading.bind_keeps
      | with_reducible refine LoadKeeps.of_going (Loading.bind_keeps ?_) (by assumption)
      | with_reducible refine LoadKeeps.of_failed (Loading.bind_keeps ?_) (by assumption)
      | with_reducible refine LoadKeeps.of_waits (Loading.bind_keeps ?_) (by assumption)
      | with_reducible apply engineRead_keeps
      | with_reducible refine CoreKeeps.of_ok (engineRead_keeps ?_) (by assumption)
      | with_reducible refine CoreKeeps.of_trap (engineRead_keeps ?_) (by assumption)
      | with_reducible refine CoreKeeps.of_stall (engineRead_keeps ?_) (by assumption)
      | split
      | intro _ _ _
      | intro _ _
      | intro _
  | succ n ih =>
    simp only [engineReads]
    repeat' first
      | with_reducible assumption
      | with_reducible refine CoreKeeps.ok ?_
      | with_reducible refine CoreKeeps.trap ?_
      | with_reducible refine CoreKeeps.stall ?_
      | with_reducible refine CoreKeeps.of_ok (ih ?_) (by assumption)
      | with_reducible refine CoreKeeps.of_trap (ih ?_) (by assumption)
      | with_reducible refine CoreKeeps.of_stall (ih ?_) (by assumption)
      | with_reducible apply ih
      | dsimp only
      | with_reducible apply CoreRes.bind_keeps
      | with_reducible refine CoreKeeps.of_ok (CoreRes.bind_keeps ?_) (by assumption)
      | with_reducible refine CoreKeeps.of_trap (CoreRes.bind_keeps ?_) (by assumption)
      | with_reducible refine CoreKeeps.of_stall (CoreRes.bind_keeps ?_) (by assumption)
      | with_reducible apply Loading.bind_keeps
      | with_reducible refine LoadKeeps.of_going (Loading.bind_keeps ?_) (by assumption)
      | with_reducible refine LoadKeeps.of_failed (Loading.bind_keeps ?_) (by assumption)
      | with_reducible refine LoadKeeps.of_waits (Loading.bind_keeps ?_) (by assumption)
      | with_reducible apply engineRead_keeps
      | with_reducible refine CoreKeeps.of_ok (engineRead_keeps ?_) (by assumption)
      | with_reducible refine CoreKeeps.of_trap (engineRead_keeps ?_) (by assumption)
      | with_reducible refine CoreKeeps.of_stall (engineRead_keeps ?_) (by assumption)
      | split
      | intro _ _ _
      | intro _ _
      | intro _

theorem engineTurn_keeps {s₀ : State} {c : Nat} {op : Bool × Nat} {s : State}
    (hk : Keeps s₀ s) : Keeps s₀ (engineTurn c op s) := by
  unfold engineTurn
  try dsimp only
  repeat' first
    | with_reducible assumption
    | dsimp only
    | with_reducible apply State.setWire_keeps
    | with_reducible apply wireEnd_keeps
    | with_reducible apply wireRewind_keeps
    | split
    | intro _ _ _
    | intro _ _
    | intro _
    | (simp only [keeps_mk]; first | refine KeepsParts.of ?_)

theorem spillStore_keeps {s₀ : State} {c : Nat} {s : State}
    (hk : Keeps s₀ s) : SpillKeeps s₀ (spillStore c s) := by
  unfold spillStore
  try dsimp only
  repeat' first
    | with_reducible assumption
    | with_reducible refine SpillKeeps.done ?_
    | with_reducible refine SpillKeeps.stuck ?_
    | with_reducible refine SpillKeeps.waits ?_
    | dsimp only
    | with_reducible apply State.setCore_keeps
    | with_reducible apply engineTurn_keeps
    | with_reducible apply engineWrites_keeps
    | with_reducible refine CoreKeeps.of_ok (engineWrites_keeps ?_) (by assumption)
    | with_reducible refine CoreKeeps.of_trap (engineWrites_keeps ?_) (by assumption)
    | with_reducible refine CoreKeeps.of_stall (engineWrites_keeps ?_) (by assumption)
    | with_reducible apply stall_keeps
    | with_reducible apply wireEnd_keeps
    | split
    | intro _ _ _
    | intro _ _
    | intro _
    | (simp only [keeps_mk]; first | refine KeepsParts.of ?_)

theorem takeSpill_keeps {s₀ : State} {c : Nat} {s : State}
    (hk : Keeps s₀ s) : Keeps s₀ (takeSpill c s) := by
  unfold takeSpill
  try dsimp only
  repeat' first
    | with_reducible assumption
    | dsimp only
    | with_reducible apply State.setCore_keeps
    | with_reducible apply coreHalt_keeps
    | with_reducible apply wireEnd_keeps
    | split
    | intro _ _ _
    | intro _ _
    | intro _
    | (simp only [keeps_mk]; first | refine KeepsParts.of ?_)

theorem spillStop_keeps {s₀ : State} {c : Nat} {fault : Bool} {s : State}
    (hk : Keeps s₀ s) : Keeps s₀ (spillStop c fault s) := by
  unfold spillStop
  try dsimp only
  repeat' first
    | with_reducible assumption
    | dsimp only
    | with_reducible apply State.setCore_keeps
    | with_reducible apply takeSpill_keeps
    | split
    | intro _ _ _
    | intro _ _
    | intro _
    | (simp only [keeps_mk]; first | refine KeepsParts.of ?_)

theorem spillOnce_keeps {s₀ : State} {c : Nat} {s : State}
    (hk : Keeps s₀ s) : Keeps s₀ (spillOnce c s) := by
  unfold spillOnce
  try dsimp only
  repeat' first
    | with_reducible assumption
    | dsimp only
    | with_reducible apply spillStop_keeps
    | with_reducible apply spillStore_keeps
    | with_reducible refine SpillKeeps.of_done (spillStore_keeps ?_) (by assumption)
    | with_reducible refine SpillKeeps.of_stuck (spillStore_keeps ?_) (by assumption)
    | with_reducible refine SpillKeeps.of_waits (spillStore_keeps ?_) (by assumption)
    | split
    | intro _ _ _
    | intro _ _
    | intro _
    | (simp only [keeps_mk]; first | refine KeepsParts.of ?_)

theorem fillFrame_keeps {s₀ : State} {c : Nat} {s : State}
    (hk : Keeps s₀ s) : CoreKeeps s₀ (fillFrame c s) := by
  unfold fillFrame
  try dsimp only
  repeat' first
    | with_reducible assumption
    | with_reducible refine CoreKeeps.ok ?_
    | with_reducible refine CoreKeeps.trap ?_
    | with_reducible refine CoreKeeps.stall ?_
    | dsimp only
    | with_reducible apply State.setCore_keeps
    | with_reducible apply engineReads_keeps
    | with_reducible refine CoreKeeps.of_ok (engineReads_keeps ?_) (by assumption)
    | with_reducible refine CoreKeeps.of_trap (engineReads_keeps ?_) (by assumption)
    | with_reducible refine CoreKeeps.of_stall (engineReads_keeps ?_) (by assumption)
    | with_reducible apply engineTurn_keeps
    | with_reducible apply stall_keeps
    | with_reducible apply wireEnd_keeps
    | with_reducible apply OptKeeps.getD
    | with_reducible apply Keeps.foldl
    | with_reducible apply Keeps.foldl_snd
    | split
    | intro _ _ _
    | intro _ _
    | intro _
    | (simp only [keeps_mk]; first | refine KeepsParts.of ?_)

end Sys2Proof.Machine
end

