-- ==== Sys2Proof/Laws/KeepsIfa.lean ====
section
/-! SUPPORT. What the operations of Machine/Ifa.lean keep (Laws/Keeps.lean). -/

namespace Sys2Proof.Machine

open Sys2Proof

theorem setReg_keeps {s₀ : State} {c n : Nat} {d : Word} {s : State}
    (hk : Keeps s₀ s) : Keeps s₀ (setReg c n d s) := by
  unfold setReg
  try dsimp only
  repeat' first
    | with_reducible assumption
    | dsimp only
    | with_reducible apply State.setCore_keeps
    | split
    | intro _ _ _
    | intro _ _
    | intro _

theorem setVec_keeps {s₀ : State} {c n : Nat} {d : BitVec 128} {s : State}
    (hk : Keeps s₀ s) : Keeps s₀ (setVec c n d s) := by
  unfold setVec
  try dsimp only
  repeat' first
    | with_reducible assumption
    | dsimp only
    | with_reducible apply State.setCore_keeps
    | split
    | intro _ _ _
    | intro _ _
    | intro _
    | (simp only [keeps_mk]; first | refine KeepsParts.of ?_)

theorem setPc_keeps {s₀ : State} {c : Nat} {pc : Word} {s : State}
    (hk : Keeps s₀ s) : Keeps s₀ (setPc c pc s) := by
  unfold setPc
  try dsimp only
  repeat' first
    | with_reducible assumption
    | dsimp only
    | with_reducible apply State.setCore_keeps
    | split
    | intro _ _ _
    | intro _ _
    | intro _
    | (simp only [keeps_mk]; first | refine KeepsParts.of ?_)

theorem goOn_keeps {s₀ : State} {c : Nat} {s : State}
    (hk : Keeps s₀ s) : CoreKeeps s₀ (goOn c s) := by
  unfold goOn
  try dsimp only
  repeat' first
    | with_reducible assumption
    | with_reducible refine CoreKeeps.ok ?_
    | with_reducible refine CoreKeeps.trap ?_
    | with_reducible refine CoreKeeps.stall ?_
    | dsimp only
    | with_reducible apply setPc_keeps
    | split
    | intro _ _ _
    | intro _ _
    | intro _

theorem result_keeps {s₀ : State} {c n : Nat} {d : Word} {s : State}
    (hk : Keeps s₀ s) : CoreKeeps s₀ (result c n d s) := by
  unfold result
  try dsimp only
  repeat' first
    | with_reducible assumption
    | with_reducible refine CoreKeeps.ok ?_
    | with_reducible refine CoreKeeps.trap ?_
    | with_reducible refine CoreKeeps.stall ?_
    | dsimp only
    | with_reducible apply goOn_keeps
    | with_reducible refine CoreKeeps.of_ok (goOn_keeps ?_) (by assumption)
    | with_reducible refine CoreKeeps.of_trap (goOn_keeps ?_) (by assumption)
    | with_reducible refine CoreKeeps.of_stall (goOn_keeps ?_) (by assumption)
    | with_reducible apply setReg_keeps
    | split
    | intro _ _ _
    | intro _ _
    | intro _

theorem goTo_keeps {s₀ : State} {c : Nat} {pc : Word} {s : State}
    (hk : Keeps s₀ s) : CoreKeeps s₀ (goTo c pc s) := by
  unfold goTo
  try dsimp only
  repeat' first
    | with_reducible assumption
    | with_reducible refine CoreKeeps.ok ?_
    | with_reducible refine CoreKeeps.trap ?_
    | with_reducible refine CoreKeeps.stall ?_
    | dsimp only
    | with_reducible apply setPc_keeps
    | split
    | intro _ _ _
    | intro _ _
    | intro _

theorem toTarget_keeps {s₀ : State} {t : Word} {act : CoreRes Unit} {s : State} (hact : CoreKeeps s₀ act)
    (hk : Keeps s₀ s) : CoreKeeps s₀ (toTarget t act s) := by
  unfold toTarget
  try dsimp only
  repeat' first
    | with_reducible assumption
    | with_reducible refine CoreKeeps.ok ?_
    | with_reducible refine CoreKeeps.trap ?_
    | with_reducible refine CoreKeeps.stall ?_
    | with_reducible apply hact
    | dsimp only
    | split
    | intro _ _ _
    | intro _ _
    | intro _

theorem callWin_keeps {s₀ : State} {c : Nat} {t : Word} {s : State}
    (hk : Keeps s₀ s) : CoreKeeps s₀ (callWin c t s) := by
  unfold callWin
  try dsimp only
  repeat' first
    | with_reducible assumption
    | with_reducible refine CoreKeeps.ok ?_
    | with_reducible refine CoreKeeps.trap ?_
    | with_reducible refine CoreKeeps.stall ?_
    | dsimp only
    | with_reducible apply State.setCore_keeps
    | with_reducible apply coreHalt_keeps
    | with_reducible apply stall_keeps
    | with_reducible apply wireEnd_keeps
    | split
    | intro _ _ _
    | intro _ _
    | intro _
    | (simp only [keeps_mk]; first | refine KeepsParts.of ?_)

theorem fillFrames_keeps {s₀ : State} {c : Nat} {x0 : Nat} {s : State}
    (hk : Keeps s₀ s) : CoreKeeps s₀ (fillFrames c x0 s) := by
  induction x0 generalizing c s with
  | zero =>
    simp only [fillFrames]
    repeat' first
      | with_reducible assumption
      | with_reducible refine CoreKeeps.ok ?_
      | with_reducible refine CoreKeeps.trap ?_
      | with_reducible refine CoreKeeps.stall ?_
      | with_reducible refine CoreKeeps.of_ok (ih ?_) (by assumption)
      | with_reducible refine CoreKeeps.of_trap (ih ?_) (by assumption)
      | with_reducible refine CoreKeeps.of_stall (ih ?_) (by assumption)
      | with_reducible apply ih
      | dsimp only
      | with_reducible apply CoreRes.bind_keeps
      | with_reducible refine CoreKeeps.of_ok (CoreRes.bind_keeps ?_) (by assumption)
      | with_reducible refine CoreKeeps.of_trap (CoreRes.bind_keeps ?_) (by assumption)
      | with_reducible refine CoreKeeps.of_stall (CoreRes.bind_keeps ?_) (by assumption)
      | with_reducible apply Loading.bind_keeps
      | with_reducible refine LoadKeeps.of_going (Loading.bind_keeps ?_) (by assumption)
      | with_reducible refine LoadKeeps.of_failed (Loading.bind_keeps ?_) (by assumption)
      | with_reducible refine LoadKeeps.of_waits (Loading.bind_keeps ?_) (by assumption)
      | with_reducible apply fillFrame_keeps
      | with_reducible refine CoreKeeps.of_ok (fillFrame_keeps ?_) (by assumption)
      | with_reducible refine CoreKeeps.of_trap (fillFrame_keeps ?_) (by assumption)
      | with_reducible refine CoreKeeps.of_stall (fillFrame_keeps ?_) (by assumption)
      | split
      | intro _ _ _
      | intro _ _
      | intro _
  | succ n ih =>
    simp only [fillFrames]
    repeat' first
      | with_reducible assumption
      | with_reducible refine CoreKeeps.ok ?_
      | with_reducible refine CoreKeeps.trap ?_
      | with_reducible refine CoreKeeps.stall ?_
      | with_reducible refine CoreKeeps.of_ok (ih ?_) (by assumption)
      | with_reducible refine CoreKeeps.of_trap (ih ?_) (by assumption)
      | with_reducible refine CoreKeeps.of_stall (ih ?_) (by assumption)
      | with_reducible apply ih
      | dsimp only
      | with_reducible apply CoreRes.bind_keeps
      | with_reducible refine CoreKeeps.of_ok (CoreRes.bind_keeps ?_) (by assumption)
      | with_reducible refine CoreKeeps.of_trap (CoreRes.bind_keeps ?_) (by assumption)
      | with_reducible refine CoreKeeps.of_stall (CoreRes.bind_keeps ?_) (by assumption)
      | with_reducible apply Loading.bind_keeps
      | with_reducible refine LoadKeeps.of_going (Loading.bind_keeps ?_) (by assumption)
      | with_reducible refine LoadKeeps.of_failed (Loading.bind_keeps ?_) (by assumption)
      | with_reducible refine LoadKeeps.of_waits (Loading.bind_keeps ?_) (by assumption)
      | with_reducible apply fillFrame_keeps
      | with_reducible refine CoreKeeps.of_ok (fillFrame_keeps ?_) (by assumption)
      | with_reducible refine CoreKeeps.of_trap (fillFrame_keeps ?_) (by assumption)
      | with_reducible refine CoreKeeps.of_stall (fillFrame_keeps ?_) (by assumption)
      | split
      | intro _ _ _
      | intro _ _
      | intro _

theorem retWin_keeps {s₀ : State} {c : Nat} {s : State}
    (hk : Keeps s₀ s) : CoreKeeps s₀ (retWin c s) := by
  unfold retWin
  try dsimp only
  repeat' first
    | with_reducible assumption
    | with_reducible refine CoreKeeps.ok ?_
    | with_reducible refine CoreKeeps.trap ?_
    | with_reducible refine CoreKeeps.stall ?_
    | dsimp only
    | with_reducible apply CoreRes.bind_keeps
    | with_reducible refine CoreKeeps.of_ok (CoreRes.bind_keeps ?_) (by assumption)
    | with_reducible refine CoreKeeps.of_trap (CoreRes.bind_keeps ?_) (by assumption)
    | with_reducible refine CoreKeeps.of_stall (CoreRes.bind_keeps ?_) (by assumption)
    | with_reducible apply Loading.bind_keeps
    | with_reducible refine LoadKeeps.of_going (Loading.bind_keeps ?_) (by assumption)
    | with_reducible refine LoadKeeps.of_failed (Loading.bind_keeps ?_) (by assumption)
    | with_reducible refine LoadKeeps.of_waits (Loading.bind_keeps ?_) (by assumption)
    | with_reducible apply State.setCore_keeps
    | with_reducible apply fillFrames_keeps
    | with_reducible refine CoreKeeps.of_ok (fillFrames_keeps ?_) (by assumption)
    | with_reducible refine CoreKeeps.of_trap (fillFrames_keeps ?_) (by assumption)
    | with_reducible refine CoreKeeps.of_stall (fillFrames_keeps ?_) (by assumption)
    | with_reducible apply toTarget_keeps
    | with_reducible refine CoreKeeps.of_ok (toTarget_keeps ?_) (by assumption)
    | with_reducible refine CoreKeeps.of_trap (toTarget_keeps ?_) (by assumption)
    | with_reducible refine CoreKeeps.of_stall (toTarget_keeps ?_) (by assumption)
    | split
    | intro _ _ _
    | intro _ _
    | intro _
    | (simp only [keeps_mk]; first | refine KeepsParts.of ?_)

theorem returnExc_keeps {s₀ : State} {c : Nat} {s : State}
    (hk : Keeps s₀ s) : CoreKeeps s₀ (returnExc c s) := by
  unfold returnExc
  try dsimp only
  repeat' first
    | with_reducible assumption
    | with_reducible refine CoreKeeps.ok ?_
    | with_reducible refine CoreKeeps.trap ?_
    | with_reducible refine CoreKeeps.stall ?_
    | dsimp only
    | with_reducible apply CoreRes.bind_keeps
    | with_reducible refine CoreKeeps.of_ok (CoreRes.bind_keeps ?_) (by assumption)
    | with_reducible refine CoreKeeps.of_trap (CoreRes.bind_keeps ?_) (by assumption)
    | with_reducible refine CoreKeeps.of_stall (CoreRes.bind_keeps ?_) (by assumption)
    | with_reducible apply Loading.bind_keeps
    | with_reducible refine LoadKeeps.of_going (Loading.bind_keeps ?_) (by assumption)
    | with_reducible refine LoadKeeps.of_failed (Loading.bind_keeps ?_) (by assumption)
    | with_reducible refine LoadKeeps.of_waits (Loading.bind_keeps ?_) (by assumption)
    | with_reducible apply State.setCore_keeps
    | with_reducible apply fillFrame_keeps
    | with_reducible refine CoreKeeps.of_ok (fillFrame_keeps ?_) (by assumption)
    | with_reducible refine CoreKeeps.of_trap (fillFrame_keeps ?_) (by assumption)
    | with_reducible refine CoreKeeps.of_stall (fillFrame_keeps ?_) (by assumption)
    | split
    | intro _ _ _
    | intro _ _
    | intro _
    | (simp only [keeps_mk]; first | refine KeepsParts.of ?_)

theorem lsmRun_keeps {s₀ : State} {c : Nat} {q : Luck} {load : Bool} {base : Nat} {mask : BitVec 24} {n : Nat} {s : State}
    (hk : Keeps s₀ s) : CoreKeeps s₀ (lsmRun c q load base mask n s) := by
  induction n generalizing s with
  | zero =>
    rw [lsmRun]
    dsimp only
    split
    · exact goOn_keeps (State.setCore_keeps hk)
    · exact .ok hk
  | succ n ih =>
    rw [lsmRun]
    dsimp only
    split
    · exact goOn_keeps (State.setCore_keeps hk)
    · split
      · exact CoreRes.bind_keeps (coreLoad_keeps hk) fun _ _ ht =>
          ih (State.setCore_keeps (setReg_keeps (wireCut_keeps ht)))
      · split
        · exact CoreRes.bind_keeps (coreStore_keeps hk) fun _ _ ht => ih (State.setCore_keeps ht)
        · exact .stall hk

theorem spillAll_keeps {s₀ : State} {c : Nat} {x0 : Nat} {s : State}
    (hk : Keeps s₀ s) : SpillKeeps s₀ (spillAll c x0 s) := by
  induction x0 generalizing c s with
  | zero =>
    simp only [spillAll]
    repeat' first
      | with_reducible assumption
      | with_reducible refine SpillKeeps.done ?_
      | with_reducible refine SpillKeeps.stuck ?_
      | with_reducible refine SpillKeeps.waits ?_
      | with_reducible refine SpillKeeps.of_done (ih ?_) (by assumption)
      | with_reducible refine SpillKeeps.of_stuck (ih ?_) (by assumption)
      | with_reducible refine SpillKeeps.of_waits (ih ?_) (by assumption)
      | with_reducible apply ih
      | dsimp only
      | with_reducible apply spillStore_keeps
      | with_reducible refine SpillKeeps.of_done (spillStore_keeps ?_) (by assumption)
      | with_reducible refine SpillKeeps.of_stuck (spillStore_keeps ?_) (by assumption)
      | with_reducible refine SpillKeeps.of_waits (spillStore_keeps ?_) (by assumption)
      | split
      | intro _ _ _
      | intro _ _
      | intro _
      | (simp only [keeps_mk]; first | refine KeepsParts.of ?_)
  | succ n ih =>
    simp only [spillAll]
    repeat' first
      | with_reducible assumption
      | with_reducible refine SpillKeeps.done ?_
      | with_reducible refine SpillKeeps.stuck ?_
      | with_reducible refine SpillKeeps.waits ?_
      | with_reducible refine SpillKeeps.of_done (ih ?_) (by assumption)
      | with_reducible refine SpillKeeps.of_stuck (ih ?_) (by assumption)
      | with_reducible refine SpillKeeps.of_waits (ih ?_) (by assumption)
      | with_reducible apply ih
      | dsimp only
      | with_reducible apply spillStore_keeps
      | with_reducible refine SpillKeeps.of_done (spillStore_keeps ?_) (by assumption)
      | with_reducible refine SpillKeeps.of_stuck (spillStore_keeps ?_) (by assumption)
      | with_reducible refine SpillKeeps.of_waits (spillStore_keeps ?_) (by assumption)
      | split
      | intro _ _ _
      | intro _ _
      | intro _
      | (simp only [keeps_mk]; first | refine KeepsParts.of ?_)

theorem areaAligned_keeps {s₀ : State} {a : Word} {act : CoreRes Unit} {s : State} (hact : CoreKeeps s₀ act)
    (hk : Keeps s₀ s) : CoreKeeps s₀ (areaAligned a act s) := by
  unfold areaAligned
  try dsimp only
  repeat' first
    | with_reducible assumption
    | with_reducible refine CoreKeeps.ok ?_
    | with_reducible refine CoreKeeps.trap ?_
    | with_reducible refine CoreKeeps.stall ?_
    | with_reducible apply hact
    | dsimp only
    | split
    | intro _ _ _
    | intro _ _
    | intro _

theorem uncommitted_keeps {s₀ : State} {c : Nat} {s : State} {r : CoreRes Unit} (hr : CoreKeeps s₀ r) :
    CoreKeeps s₀ (uncommitted c s r) := by
  cases hr with
  | ok h => exact .ok h
  | trap h => exact .trap (State.setCore_keeps h)
  | stall h => exact .stall h

theorem saveArea1_keeps {s₀ : State} {c : Nat} {hi : Bool} {ra : Nat} {s : State}
    (hk : Keeps s₀ s) : CoreKeeps s₀ (saveArea1 c hi ra s) := by
  unfold saveArea1
  try dsimp only
  repeat' first
    | with_reducible assumption
    | with_reducible refine CoreKeeps.ok ?_
    | with_reducible refine CoreKeeps.trap ?_
    | with_reducible refine CoreKeeps.stall ?_
    | dsimp only
    | with_reducible apply CoreRes.bind_keeps
    | with_reducible refine CoreKeeps.of_ok (CoreRes.bind_keeps ?_) (by assumption)
    | with_reducible refine CoreKeeps.of_trap (CoreRes.bind_keeps ?_) (by assumption)
    | with_reducible refine CoreKeeps.of_stall (CoreRes.bind_keeps ?_) (by assumption)
    | with_reducible apply Loading.bind_keeps
    | with_reducible refine LoadKeeps.of_going (Loading.bind_keeps ?_) (by assumption)
    | with_reducible refine LoadKeeps.of_failed (Loading.bind_keeps ?_) (by assumption)
    | with_reducible refine LoadKeeps.of_waits (Loading.bind_keeps ?_) (by assumption)
    | with_reducible apply State.setCore_keeps
    | with_reducible apply engineRead_keeps
    | with_reducible refine CoreKeeps.of_ok (engineRead_keeps ?_) (by assumption)
    | with_reducible refine CoreKeeps.of_trap (engineRead_keeps ?_) (by assumption)
    | with_reducible refine CoreKeeps.of_stall (engineRead_keeps ?_) (by assumption)
    | with_reducible apply engineWrites_keeps
    | with_reducible refine CoreKeeps.of_ok (engineWrites_keeps ?_) (by assumption)
    | with_reducible refine CoreKeeps.of_trap (engineWrites_keeps ?_) (by assumption)
    | with_reducible refine CoreKeeps.of_stall (engineWrites_keeps ?_) (by assumption)
    | with_reducible apply uncommitted_keeps
    | with_reducible refine CoreKeeps.of_ok (uncommitted_keeps ?_) (by assumption)
    | with_reducible refine CoreKeeps.of_trap (uncommitted_keeps ?_) (by assumption)
    | with_reducible refine CoreKeeps.of_stall (uncommitted_keeps ?_) (by assumption)
    | split
    | intro _ _ _
    | intro _ _
    | intro _
    | (simp only [keeps_mk]; first | refine KeepsParts.of ?_)

theorem saveCtx_keeps {s₀ : State} {c : Nat} {hi : Bool} {ra : Nat} {s : State} (hk : Keeps s₀ s) :
    CoreKeeps s₀ (saveCtx c hi ra s) := by
  have h0 : SpillKeeps s₀ (if hi then .done s else spillAll c 15 s) := by
    split
    · exact .done hk
    · exact spillAll_keeps hk
  unfold saveCtx
  dsimp only
  split
  · exact .trap hk
  · split
    · exact .trap hk
    · split <;> rename_i e <;> rw [e] at h0 <;> cases h0 <;> rename_i h1
      · exact .stall h1
      · exact .ok (spillStop_keeps (wireEnd_keeps h1))
      · exact saveArea1_keeps h1

theorem loadHi_keeps {s₀ : State} {c ra : Nat} {a : Word} {l : List Word} {s : State}
    (hk : Keeps s₀ s) : CoreKeeps s₀ (loadHi c ra a l s) := by
  unfold loadHi
  try dsimp only
  repeat' first
    | with_reducible assumption
    | with_reducible refine CoreKeeps.ok ?_
    | with_reducible refine CoreKeeps.trap ?_
    | with_reducible refine CoreKeeps.stall ?_
    | dsimp only
    | with_reducible apply CoreRes.bind_keeps
    | with_reducible refine CoreKeeps.of_ok (CoreRes.bind_keeps ?_) (by assumption)
    | with_reducible refine CoreKeeps.of_trap (CoreRes.bind_keeps ?_) (by assumption)
    | with_reducible refine CoreKeeps.of_stall (CoreRes.bind_keeps ?_) (by assumption)
    | with_reducible apply Loading.bind_keeps
    | with_reducible refine LoadKeeps.of_going (Loading.bind_keeps ?_) (by assumption)
    | with_reducible refine LoadKeeps.of_failed (Loading.bind_keeps ?_) (by assumption)
    | with_reducible refine LoadKeeps.of_waits (Loading.bind_keeps ?_) (by assumption)
    | with_reducible apply State.setCore_keeps
    | with_reducible apply engineWrite_keeps
    | with_reducible refine CoreKeeps.of_ok (engineWrite_keeps ?_) (by assumption)
    | with_reducible refine CoreKeeps.of_trap (engineWrite_keeps ?_) (by assumption)
    | with_reducible refine CoreKeeps.of_stall (engineWrite_keeps ?_) (by assumption)
    | with_reducible apply OptKeeps.getD
    | with_reducible apply Keeps.foldl
    | with_reducible apply Keeps.foldl_snd
    | split
    | intro _ _ _
    | intro _ _
    | intro _
    | (simp only [keeps_mk]; first | refine KeepsParts.of ?_)

theorem loadLo_keeps {s₀ : State} {c : Nat} {a : Word} {l : List Word} {s : State}
    (hk : Keeps s₀ s) : CoreKeeps s₀ (loadLo c a l s) := by
  unfold loadLo
  try dsimp only
  repeat' first
    | with_reducible assumption
    | with_reducible refine CoreKeeps.ok ?_
    | with_reducible refine CoreKeeps.trap ?_
    | with_reducible refine CoreKeeps.stall ?_
    | dsimp only
    | with_reducible apply CoreRes.bind_keeps
    | with_reducible refine CoreKeeps.of_ok (CoreRes.bind_keeps ?_) (by assumption)
    | with_reducible refine CoreKeeps.of_trap (CoreRes.bind_keeps ?_) (by assumption)
    | with_reducible refine CoreKeeps.of_stall (CoreRes.bind_keeps ?_) (by assumption)
    | with_reducible apply Loading.bind_keeps
    | with_reducible refine LoadKeeps.of_going (Loading.bind_keeps ?_) (by assumption)
    | with_reducible refine LoadKeeps.of_failed (Loading.bind_keeps ?_) (by assumption)
    | with_reducible refine LoadKeeps.of_waits (Loading.bind_keeps ?_) (by assumption)
    | with_reducible apply State.setCore_keeps
    | with_reducible apply engineWrite_keeps
    | with_reducible refine CoreKeeps.of_ok (engineWrite_keeps ?_) (by assumption)
    | with_reducible refine CoreKeeps.of_trap (engineWrite_keeps ?_) (by assumption)
    | with_reducible refine CoreKeeps.of_stall (engineWrite_keeps ?_) (by assumption)
    | split
    | intro _ _ _
    | intro _ _
    | intro _

theorem loadCtx_keeps {s₀ : State} {c : Nat} {hi : Bool} {ra : Nat} {s : State}
    (hk : Keeps s₀ s) : CoreKeeps s₀ (loadCtx c hi ra s) := by
  unfold loadCtx
  try dsimp only
  repeat' first
    | with_reducible assumption
    | with_reducible refine CoreKeeps.ok ?_
    | with_reducible refine CoreKeeps.trap ?_
    | with_reducible refine CoreKeeps.stall ?_
    | dsimp only
    | with_reducible apply CoreRes.bind_keeps
    | with_reducible refine CoreKeeps.of_ok (CoreRes.bind_keeps ?_) (by assumption)
    | with_reducible refine CoreKeeps.of_trap (CoreRes.bind_keeps ?_) (by assumption)
    | with_reducible refine CoreKeeps.of_stall (CoreRes.bind_keeps ?_) (by assumption)
    | with_reducible apply Loading.bind_keeps
    | with_reducible refine LoadKeeps.of_going (Loading.bind_keeps ?_) (by assumption)
    | with_reducible refine LoadKeeps.of_failed (Loading.bind_keeps ?_) (by assumption)
    | with_reducible refine LoadKeeps.of_waits (Loading.bind_keeps ?_) (by assumption)
    | with_reducible apply areaAligned_keeps
    | with_reducible refine CoreKeeps.of_ok (areaAligned_keeps ?_) (by assumption)
    | with_reducible refine CoreKeeps.of_trap (areaAligned_keeps ?_) (by assumption)
    | with_reducible refine CoreKeeps.of_stall (areaAligned_keeps ?_) (by assumption)
    | with_reducible apply engineReads_keeps
    | with_reducible refine CoreKeeps.of_ok (engineReads_keeps ?_) (by assumption)
    | with_reducible refine CoreKeeps.of_trap (engineReads_keeps ?_) (by assumption)
    | with_reducible refine CoreKeeps.of_stall (engineReads_keeps ?_) (by assumption)
    | with_reducible apply loadHi_keeps
    | with_reducible refine CoreKeeps.of_ok (loadHi_keeps ?_) (by assumption)
    | with_reducible refine CoreKeeps.of_trap (loadHi_keeps ?_) (by assumption)
    | with_reducible refine CoreKeeps.of_stall (loadHi_keeps ?_) (by assumption)
    | with_reducible apply loadLo_keeps
    | with_reducible refine CoreKeeps.of_ok (loadLo_keeps ?_) (by assumption)
    | with_reducible refine CoreKeeps.of_trap (loadLo_keeps ?_) (by assumption)
    | with_reducible refine CoreKeeps.of_stall (loadLo_keeps ?_) (by assumption)
    | with_reducible apply uncommitted_keeps
    | with_reducible refine CoreKeeps.of_ok (uncommitted_keeps ?_) (by assumption)
    | with_reducible refine CoreKeeps.of_trap (uncommitted_keeps ?_) (by assumption)
    | with_reducible refine CoreKeeps.of_stall (uncommitted_keeps ?_) (by assumption)
    | with_reducible apply OptKeeps.getD
    | split
    | intro _ _ _
    | intro _ _
    | intro _

theorem cacheAct_keeps {s₀ : State} {c : Nat} {k : CacheOp} {line : Nat} {s : State}
    (hk : Keeps s₀ s) : CoreKeeps s₀ (cacheAct c k line s) := by
  unfold cacheAct
  try dsimp only
  repeat' first
    | with_reducible assumption
    | with_reducible refine CoreKeeps.ok ?_
    | with_reducible refine CoreKeeps.trap ?_
    | with_reducible refine CoreKeeps.stall ?_
    | dsimp only
    | with_reducible apply goOn_keeps
    | with_reducible refine CoreKeeps.of_ok (goOn_keeps ?_) (by assumption)
    | with_reducible refine CoreKeeps.of_trap (goOn_keeps ?_) (by assumption)
    | with_reducible refine CoreKeeps.of_stall (goOn_keeps ?_) (by assumption)
    | with_reducible apply l2Flush_keeps
    | with_reducible apply setL1_keeps
    | with_reducible apply setL2_keeps
    | with_reducible apply stall_keeps
    | split
    | intro _ _ _
    | intro _ _
    | intro _
    | (simp only [keeps_mk]; first | refine KeepsParts.of ?_)

theorem cacheExec_keeps {s₀ : State} {c : Nat} {k : CacheOp} {a : Word} {s : State}
    (hk : Keeps s₀ s) : CoreKeeps s₀ (cacheExec c k a s) := by
  unfold cacheExec
  try dsimp only
  repeat' first
    | with_reducible assumption
    | with_reducible refine CoreKeeps.ok ?_
    | with_reducible refine CoreKeeps.trap ?_
    | with_reducible refine CoreKeeps.stall ?_
    | dsimp only
    | with_reducible apply cacheAct_keeps
    | with_reducible refine CoreKeeps.of_ok (cacheAct_keeps ?_) (by assumption)
    | with_reducible refine CoreKeeps.of_trap (cacheAct_keeps ?_) (by assumption)
    | with_reducible refine CoreKeeps.of_stall (cacheAct_keeps ?_) (by assumption)
    | with_reducible apply goOn_keeps
    | with_reducible refine CoreKeeps.of_ok (goOn_keeps ?_) (by assumption)
    | with_reducible refine CoreKeeps.of_trap (goOn_keeps ?_) (by assumption)
    | with_reducible refine CoreKeeps.of_stall (goOn_keeps ?_) (by assumption)
    | split
    | intro _ _ _
    | intro _ _
    | intro _
    | (simp only [keeps_mk]; first | refine KeepsParts.of ?_)

theorem fabricWrites_keeps {s₀ : State} {c : Nat} {l : List (Nat × Word)} {s : State}
    (hk : Keeps s₀ s) : CoreKeeps s₀ (fabricWrites c l s) := by
  unfold fabricWrites
  try dsimp only
  repeat' first
    | with_reducible assumption
    | with_reducible refine CoreKeeps.ok ?_
    | with_reducible refine CoreKeeps.trap ?_
    | with_reducible refine CoreKeeps.stall ?_
    | dsimp only
    | with_reducible apply regStores_keeps
    | with_reducible apply stall_keeps
    | with_reducible refine writeReg_keeps (by assumption) ?_
    | with_reducible apply writeReg_keeps_snd
    | with_reducible apply Keeps.foldl
    | with_reducible apply Keeps.foldl_snd
    | split
    | intro _ _ _
    | intro _ _
    | intro _

theorem fabricRead_keeps {s₀ : State} {c : Nat} {q : Luck} {addr : Nat} {s : State}
    (hk : Keeps s₀ s) : CoreKeeps s₀ (fabricRead c q addr s) := by
  unfold fabricRead
  try dsimp only
  repeat' first
    | with_reducible assumption
    | with_reducible refine CoreKeeps.ok ?_
    | with_reducible refine CoreKeeps.trap ?_
    | with_reducible refine CoreKeeps.stall ?_
    | dsimp only
    | with_reducible apply ownReg_keeps
    | with_reducible refine CoreKeeps.of_ok (ownReg_keeps ?_) (by assumption)
    | with_reducible refine CoreKeeps.of_trap (ownReg_keeps ?_) (by assumption)
    | with_reducible refine CoreKeeps.of_stall (ownReg_keeps ?_) (by assumption)
    | with_reducible apply regAsk_keeps
    | with_reducible refine CoreKeeps.of_ok (regAsk_keeps ?_) (by assumption)
    | with_reducible refine CoreKeeps.of_trap (regAsk_keeps ?_) (by assumption)
    | with_reducible refine CoreKeeps.of_stall (regAsk_keeps ?_) (by assumption)
    | split
    | intro _ _ _
    | intro _ _
    | intro _

theorem qgetExec_keeps {s₀ : State} {c : Nat} {q : Luck} {rd rs m k : Nat} {s : State}
    (hk : Keeps s₀ s) : CoreKeeps s₀ (qgetExec c q rd rs m k s) := by
  unfold qgetExec
  try dsimp only
  repeat' first
    | with_reducible assumption
    | with_reducible refine CoreKeeps.ok ?_
    | with_reducible refine CoreKeeps.trap ?_
    | with_reducible refine CoreKeeps.stall ?_
    | dsimp only
    | with_reducible apply CoreRes.bind_keeps
    | with_reducible refine CoreKeeps.of_ok (CoreRes.bind_keeps ?_) (by assumption)
    | with_reducible refine CoreKeeps.of_trap (CoreRes.bind_keeps ?_) (by assumption)
    | with_reducible refine CoreKeeps.of_stall (CoreRes.bind_keeps ?_) (by assumption)
    | with_reducible apply Loading.bind_keeps
    | with_reducible refine LoadKeeps.of_going (Loading.bind_keeps ?_) (by assumption)
    | with_reducible refine LoadKeeps.of_failed (Loading.bind_keeps ?_) (by assumption)
    | with_reducible refine LoadKeeps.of_waits (Loading.bind_keeps ?_) (by assumption)
    | with_reducible apply fabricRead_keeps
    | with_reducible refine CoreKeeps.of_ok (fabricRead_keeps ?_) (by assumption)
    | with_reducible refine CoreKeeps.of_trap (fabricRead_keeps ?_) (by assumption)
    | with_reducible refine CoreKeeps.of_stall (fabricRead_keeps ?_) (by assumption)
    | with_reducible apply goOn_keeps
    | with_reducible refine CoreKeeps.of_ok (goOn_keeps ?_) (by assumption)
    | with_reducible refine CoreKeeps.of_trap (goOn_keeps ?_) (by assumption)
    | with_reducible refine CoreKeeps.of_stall (goOn_keeps ?_) (by assumption)
    | with_reducible apply setReg_keeps
    | split
    | intro _ _ _
    | intro _ _
    | intro _

theorem wfbRead_keeps {s₀ : State} {c m ch : Nat} {s : State}
    (hk : Keeps s₀ s) : CoreKeeps s₀ (wfbRead c m ch s) := by
  unfold wfbRead
  try dsimp only
  repeat' first
    | with_reducible assumption
    | with_reducible refine CoreKeeps.ok ?_
    | with_reducible refine CoreKeeps.trap ?_
    | with_reducible refine CoreKeeps.stall ?_
    | dsimp only
    | with_reducible apply CoreRes.bind_keeps
    | with_reducible refine CoreKeeps.of_ok (CoreRes.bind_keeps ?_) (by assumption)
    | with_reducible refine CoreKeeps.of_trap (CoreRes.bind_keeps ?_) (by assumption)
    | with_reducible refine CoreKeeps.of_stall (CoreRes.bind_keeps ?_) (by assumption)
    | with_reducible apply Loading.bind_keeps
    | with_reducible refine LoadKeeps.of_going (Loading.bind_keeps ?_) (by assumption)
    | with_reducible refine LoadKeeps.of_failed (Loading.bind_keeps ?_) (by assumption)
    | with_reducible refine LoadKeeps.of_waits (Loading.bind_keeps ?_) (by assumption)
    | with_reducible apply regAsk_keeps
    | with_reducible refine CoreKeeps.of_ok (regAsk_keeps ?_) (by assumption)
    | with_reducible refine CoreKeeps.of_trap (regAsk_keeps ?_) (by assumption)
    | with_reducible refine CoreKeeps.of_stall (regAsk_keeps ?_) (by assumption)
    | split
    | intro _ _ _
    | intro _ _
    | intro _

theorem wfbExec_keeps {s₀ : State} {c rd : Nat} {seq : Word} {m ch : Nat} {s : State}
    (hk : Keeps s₀ s) : CoreKeeps s₀ (wfbExec c rd seq m ch s) := by
  unfold wfbExec
  try dsimp only
  repeat' first
    | with_reducible assumption
    | with_reducible refine CoreKeeps.ok ?_
    | with_reducible refine CoreKeeps.trap ?_
    | with_reducible refine CoreKeeps.stall ?_
    | dsimp only
    | with_reducible apply CoreRes.bind_keeps
    | with_reducible refine CoreKeeps.of_ok (CoreRes.bind_keeps ?_) (by assumption)
    | with_reducible refine CoreKeeps.of_trap (CoreRes.bind_keeps ?_) (by assumption)
    | with_reducible refine CoreKeeps.of_stall (CoreRes.bind_keeps ?_) (by assumption)
    | with_reducible apply Loading.bind_keeps
    | with_reducible refine LoadKeeps.of_going (Loading.bind_keeps ?_) (by assumption)
    | with_reducible refine LoadKeeps.of_failed (Loading.bind_keeps ?_) (by assumption)
    | with_reducible refine LoadKeeps.of_waits (Loading.bind_keeps ?_) (by assumption)
    | with_reducible apply State.setCore_keeps
    | with_reducible apply result_keeps
    | with_reducible refine CoreKeeps.of_ok (result_keeps ?_) (by assumption)
    | with_reducible refine CoreKeeps.of_trap (result_keeps ?_) (by assumption)
    | with_reducible refine CoreKeeps.of_stall (result_keeps ?_) (by assumption)
    | with_reducible apply wfbRead_keeps
    | with_reducible refine CoreKeeps.of_ok (wfbRead_keeps ?_) (by assumption)
    | with_reducible refine CoreKeeps.of_trap (wfbRead_keeps ?_) (by assumption)
    | with_reducible refine CoreKeeps.of_stall (wfbRead_keeps ?_) (by assumption)
    | split
    | intro _ _ _
    | intro _ _
    | intro _
    | (simp only [keeps_mk]; first | refine KeepsParts.of ?_)

theorem vmemExec_keeps {s₀ : State} {c : Nat} {q : Luck} {st : Bool} {v ra : Nat} {off : BitVec 16} {s : State}
    (hk : Keeps s₀ s) : CoreKeeps s₀ (vmemExec c q st v ra off s) := by
  unfold vmemExec
  try dsimp only
  repeat' first
    | with_reducible assumption
    | with_reducible refine CoreKeeps.ok ?_
    | with_reducible refine CoreKeeps.trap ?_
    | with_reducible refine CoreKeeps.stall ?_
    | dsimp only
    | with_reducible apply CoreRes.bind_keeps
    | with_reducible refine CoreKeeps.of_ok (CoreRes.bind_keeps ?_) (by assumption)
    | with_reducible refine CoreKeeps.of_trap (CoreRes.bind_keeps ?_) (by assumption)
    | with_reducible refine CoreKeeps.of_stall (CoreRes.bind_keeps ?_) (by assumption)
    | with_reducible apply Loading.bind_keeps
    | with_reducible refine LoadKeeps.of_going (Loading.bind_keeps ?_) (by assumption)
    | with_reducible refine LoadKeeps.of_failed (Loading.bind_keeps ?_) (by assumption)
    | with_reducible refine LoadKeeps.of_waits (Loading.bind_keeps ?_) (by assumption)
    | with_reducible apply coreLoad_keeps
    | with_reducible refine CoreKeeps.of_ok (coreLoad_keeps ?_) (by assumption)
    | with_reducible refine CoreKeeps.of_trap (coreLoad_keeps ?_) (by assumption)
    | with_reducible refine CoreKeeps.of_stall (coreLoad_keeps ?_) (by assumption)
    | with_reducible apply coreStore_keeps
    | with_reducible refine CoreKeeps.of_ok (coreStore_keeps ?_) (by assumption)
    | with_reducible refine CoreKeeps.of_trap (coreStore_keeps ?_) (by assumption)
    | with_reducible refine CoreKeeps.of_stall (coreStore_keeps ?_) (by assumption)
    | with_reducible apply goOn_keeps
    | with_reducible refine CoreKeeps.of_ok (goOn_keeps ?_) (by assumption)
    | with_reducible refine CoreKeeps.of_trap (goOn_keeps ?_) (by assumption)
    | with_reducible refine CoreKeeps.of_stall (goOn_keeps ?_) (by assumption)
    | with_reducible apply setVec_keeps
    | split
    | intro _ _ _
    | intro _ _
    | intro _

theorem mtcExec_keeps {s₀ : State} {c rs idx : Nat} {s : State}
    (hk : Keeps s₀ s) : CoreKeeps s₀ (mtcExec c rs idx s) := by
  unfold mtcExec
  try dsimp only
  repeat' first
    | with_reducible assumption
    | with_reducible refine CoreKeeps.ok ?_
    | with_reducible refine CoreKeeps.trap ?_
    | with_reducible refine CoreKeeps.stall ?_
    | dsimp only
    | with_reducible apply ctlWrite_keeps
    | with_reducible apply goOn_keeps
    | with_reducible refine CoreKeeps.of_ok (goOn_keeps ?_) (by assumption)
    | with_reducible refine CoreKeeps.of_trap (goOn_keeps ?_) (by assumption)
    | with_reducible refine CoreKeeps.of_stall (goOn_keeps ?_) (by assumption)
    | with_reducible apply spillOnce_keeps
    | with_reducible apply Keeps.when
    | split
    | intro _ _ _
    | intro _ _
    | intro _
    | (simp only [keeps_mk]; first | refine KeepsParts.of ?_)

theorem ifaAct_keeps {s₀ : State} {c : Nat} {q : Luck} {s : State} {i : Ifa}
    (hk : Keeps s₀ s) : CoreKeeps s₀ (ifaAct c q s i) := by
  cases i <;> simp only [ifaAct] <;> repeat' first
    | with_reducible assumption
    | with_reducible refine CoreKeeps.ok ?_
    | with_reducible refine CoreKeeps.trap ?_
    | with_reducible refine CoreKeeps.stall ?_
    | dsimp only
    | with_reducible apply CoreRes.bind_keeps
    | with_reducible refine CoreKeeps.of_ok (CoreRes.bind_keeps ?_) (by assumption)
    | with_reducible refine CoreKeeps.of_trap (CoreRes.bind_keeps ?_) (by assumption)
    | with_reducible refine CoreKeeps.of_stall (CoreRes.bind_keeps ?_) (by assumption)
    | with_reducible apply Loading.bind_keeps
    | with_reducible refine LoadKeeps.of_going (Loading.bind_keeps ?_) (by assumption)
    | with_reducible refine LoadKeeps.of_failed (Loading.bind_keeps ?_) (by assumption)
    | with_reducible refine LoadKeeps.of_waits (Loading.bind_keeps ?_) (by assumption)
    | with_reducible apply State.load_keeps
    | with_reducible apply State.setCore_keeps
    | with_reducible apply cacheExec_keeps
    | with_reducible refine CoreKeeps.of_ok (cacheExec_keeps ?_) (by assumption)
    | with_reducible refine CoreKeeps.of_trap (cacheExec_keeps ?_) (by assumption)
    | with_reducible refine CoreKeeps.of_stall (cacheExec_keeps ?_) (by assumption)
    | with_reducible apply callWin_keeps
    | with_reducible refine CoreKeeps.of_ok (callWin_keeps ?_) (by assumption)
    | with_reducible refine CoreKeeps.of_trap (callWin_keeps ?_) (by assumption)
    | with_reducible refine CoreKeeps.of_stall (callWin_keeps ?_) (by assumption)
    | with_reducible apply coreHalt_keeps
    | with_reducible apply coreLoad_keeps
    | with_reducible refine CoreKeeps.of_ok (coreLoad_keeps ?_) (by assumption)
    | with_reducible refine CoreKeeps.of_trap (coreLoad_keeps ?_) (by assumption)
    | with_reducible refine CoreKeeps.of_stall (coreLoad_keeps ?_) (by assumption)
    | with_reducible apply coreStore_keeps
    | with_reducible refine CoreKeeps.of_ok (coreStore_keeps ?_) (by assumption)
    | with_reducible refine CoreKeeps.of_trap (coreStore_keeps ?_) (by assumption)
    | with_reducible refine CoreKeeps.of_stall (coreStore_keeps ?_) (by assumption)
    | with_reducible refine ctlRead_keeps (by assumption) ?_
    | with_reducible apply ctlRead_keeps_snd
    | with_reducible apply fabricWrites_keeps
    | with_reducible refine CoreKeeps.of_ok (fabricWrites_keeps ?_) (by assumption)
    | with_reducible refine CoreKeeps.of_trap (fabricWrites_keeps ?_) (by assumption)
    | with_reducible refine CoreKeeps.of_stall (fabricWrites_keeps ?_) (by assumption)
    | with_reducible apply goOn_keeps
    | with_reducible refine CoreKeeps.of_ok (goOn_keeps ?_) (by assumption)
    | with_reducible refine CoreKeeps.of_trap (goOn_keeps ?_) (by assumption)
    | with_reducible refine CoreKeeps.of_stall (goOn_keeps ?_) (by assumption)
    | with_reducible apply goTo_keeps
    | with_reducible refine CoreKeeps.of_ok (goTo_keeps ?_) (by assumption)
    | with_reducible refine CoreKeeps.of_trap (goTo_keeps ?_) (by assumption)
    | with_reducible refine CoreKeeps.of_stall (goTo_keeps ?_) (by assumption)
    | with_reducible apply loadCtx_keeps
    | with_reducible refine CoreKeeps.of_ok (loadCtx_keeps ?_) (by assumption)
    | with_reducible refine CoreKeeps.of_trap (loadCtx_keeps ?_) (by assumption)
    | with_reducible refine CoreKeeps.of_stall (loadCtx_keeps ?_) (by assumption)
    | with_reducible apply lsmRun_keeps
    | with_reducible refine CoreKeeps.of_ok (lsmRun_keeps ?_) (by assumption)
    | with_reducible refine CoreKeeps.of_trap (lsmRun_keeps ?_) (by assumption)
    | with_reducible refine CoreKeeps.of_stall (lsmRun_keeps ?_) (by assumption)
    | with_reducible apply mtcExec_keeps
    | with_reducible refine CoreKeeps.of_ok (mtcExec_keeps ?_) (by assumption)
    | with_reducible refine CoreKeeps.of_trap (mtcExec_keeps ?_) (by assumption)
    | with_reducible refine CoreKeeps.of_stall (mtcExec_keeps ?_) (by assumption)
    | with_reducible apply qgetExec_keeps
    | with_reducible refine CoreKeeps.of_ok (qgetExec_keeps ?_) (by assumption)
    | with_reducible refine CoreKeeps.of_trap (qgetExec_keeps ?_) (by assumption)
    | with_reducible refine CoreKeeps.of_stall (qgetExec_keeps ?_) (by assumption)
    | with_reducible apply regStores_keeps
    | with_reducible apply result_keeps
    | with_reducible refine CoreKeeps.of_ok (result_keeps ?_) (by assumption)
    | with_reducible refine CoreKeeps.of_trap (result_keeps ?_) (by assumption)
    | with_reducible refine CoreKeeps.of_stall (result_keeps ?_) (by assumption)
    | with_reducible apply retWin_keeps
    | with_reducible refine CoreKeeps.of_ok (retWin_keeps ?_) (by assumption)
    | with_reducible refine CoreKeeps.of_trap (retWin_keeps ?_) (by assumption)
    | with_reducible refine CoreKeeps.of_stall (retWin_keeps ?_) (by assumption)
    | with_reducible apply returnExc_keeps
    | with_reducible refine CoreKeeps.of_ok (returnExc_keeps ?_) (by assumption)
    | with_reducible refine CoreKeeps.of_trap (returnExc_keeps ?_) (by assumption)
    | with_reducible refine CoreKeeps.of_stall (returnExc_keeps ?_) (by assumption)
    | with_reducible apply saveCtx_keeps
    | with_reducible refine CoreKeeps.of_ok (saveCtx_keeps ?_) (by assumption)
    | with_reducible refine CoreKeeps.of_trap (saveCtx_keeps ?_) (by assumption)
    | with_reducible refine CoreKeeps.of_stall (saveCtx_keeps ?_) (by assumption)
    | with_reducible apply setReg_keeps
    | with_reducible apply setVec_keeps
    | with_reducible apply stall_keeps
    | with_reducible apply toTarget_keeps
    | with_reducible refine CoreKeeps.of_ok (toTarget_keeps ?_) (by assumption)
    | with_reducible refine CoreKeeps.of_trap (toTarget_keeps ?_) (by assumption)
    | with_reducible refine CoreKeeps.of_stall (toTarget_keeps ?_) (by assumption)
    | with_reducible apply vmemExec_keeps
    | with_reducible refine CoreKeeps.of_ok (vmemExec_keeps ?_) (by assumption)
    | with_reducible refine CoreKeeps.of_trap (vmemExec_keeps ?_) (by assumption)
    | with_reducible refine CoreKeeps.of_stall (vmemExec_keeps ?_) (by assumption)
    | with_reducible apply wfbExec_keeps
    | with_reducible refine CoreKeeps.of_ok (wfbExec_keeps ?_) (by assumption)
    | with_reducible refine CoreKeeps.of_trap (wfbExec_keeps ?_) (by assumption)
    | with_reducible refine CoreKeeps.of_stall (wfbExec_keeps ?_) (by assumption)
    | with_reducible apply Keeps.when
    | split
    | intro _ _ _
    | intro _ _
    | intro _
    | (simp only [keeps_mk]; first | refine KeepsParts.of ?_)

theorem ifaExec_keeps {s₀ : State} {c : Nat} {q : Luck} {i : Ifa} {s : State}
    (hk : Keeps s₀ s) : CoreKeeps s₀ (ifaExec c q i s) := by
  unfold ifaExec
  try dsimp only
  repeat' first
    | with_reducible assumption
    | with_reducible refine CoreKeeps.ok ?_
    | with_reducible refine CoreKeeps.trap ?_
    | with_reducible refine CoreKeeps.stall ?_
    | dsimp only
    | with_reducible apply ifaAct_keeps
    | with_reducible refine CoreKeeps.of_ok (ifaAct_keeps ?_) (by assumption)
    | with_reducible refine CoreKeeps.of_trap (ifaAct_keeps ?_) (by assumption)
    | with_reducible refine CoreKeeps.of_stall (ifaAct_keeps ?_) (by assumption)
    | split
    | intro _ _ _
    | intro _ _
    | intro _

theorem settle_keeps {s₀ : State} {c : Nat} {r : CoreRes Unit} (hr : CoreKeeps s₀ r) : Keeps s₀ (settle c r) := by
  unfold settle
  cases hr with
  | ok h => exact haltDue_keeps (wireEnd_keeps h)
  | stall h => exact h
  | trap h =>
    dsimp only
    split
    · exact Keeps.when h fun _ ht => wireEnd_keeps ht
    · exact haltDue_keeps (raise_keeps (wireEnd_keeps h))

theorem tryInstr_keeps {s₀ : State} {c : Nat} {q : Luck} {pick : Word → Option Ifa} {s : State}
    (hk : Keeps s₀ s) : CoreKeeps s₀ (tryInstr c q pick s) := by
  unfold tryInstr
  try dsimp only
  repeat' first
    | with_reducible assumption
    | with_reducible refine CoreKeeps.ok ?_
    | with_reducible refine CoreKeeps.trap ?_
    | with_reducible refine CoreKeeps.stall ?_
    | dsimp only
    | with_reducible apply CoreRes.bind_keeps
    | with_reducible refine CoreKeeps.of_ok (CoreRes.bind_keeps ?_) (by assumption)
    | with_reducible refine CoreKeeps.of_trap (CoreRes.bind_keeps ?_) (by assumption)
    | with_reducible refine CoreKeeps.of_stall (CoreRes.bind_keeps ?_) (by assumption)
    | with_reducible apply Loading.bind_keeps
    | with_reducible refine LoadKeeps.of_going (Loading.bind_keeps ?_) (by assumption)
    | with_reducible refine LoadKeeps.of_failed (Loading.bind_keeps ?_) (by assumption)
    | with_reducible refine LoadKeeps.of_waits (Loading.bind_keeps ?_) (by assumption)
    | with_reducible apply fetch_keeps
    | with_reducible refine CoreKeeps.of_ok (fetch_keeps ?_) (by assumption)
    | with_reducible refine CoreKeeps.of_trap (fetch_keeps ?_) (by assumption)
    | with_reducible refine CoreKeeps.of_stall (fetch_keeps ?_) (by assumption)
    | with_reducible apply ifaExec_keeps
    | with_reducible refine CoreKeeps.of_ok (ifaExec_keeps ?_) (by assumption)
    | with_reducible refine CoreKeeps.of_trap (ifaExec_keeps ?_) (by assumption)
    | with_reducible refine CoreKeeps.of_stall (ifaExec_keeps ?_) (by assumption)
    | with_reducible apply wireRewind_keeps
    | with_reducible apply wireTimeout_keeps
    | with_reducible apply Keeps.when
    | split
    | intro _ _ _
    | intro _ _
    | intro _
    | (simp only [keeps_mk]; first | refine KeepsParts.of ?_)

theorem oneInstr_keeps {s₀ : State} {c : Nat} {q : Luck} {pick : Word → Option Ifa} {s : State} (hk : Keeps s₀ s) :
    Keeps s₀ (oneInstr c q pick s) := by
  have h0 : Keeps s₀ (corePump 8 c s) := corePump_keeps hk
  unfold oneInstr
  dsimp only
  split
  · exact h0
  · exact settle_keeps (tryInstr_keeps h0)

theorem atBoundary_keeps {s₀ : State} {c : Nat} {act : State → State} {s : State} (hact : ∀  t, Keeps s₀ t → Keeps s₀ (act  t))
    (hk : Keeps s₀ s) : Keeps s₀ (atBoundary c act s) := by
  unfold atBoundary
  try dsimp only
  repeat' first
    | with_reducible assumption
    | with_reducible apply hact
    | dsimp only
    | with_reducible apply State.setCore_keeps
    | with_reducible apply takeSpill_keeps
    | split
    | intro _ _ _
    | intro _ _
    | intro _
    | (simp only [keeps_mk]; first | refine KeepsParts.of ?_)

theorem ifaRun_keeps {s₀ : State} {c : Nat} {q : Luck} {i : Ifa} {s : State}
    (hk : Keeps s₀ s) : Keeps s₀ (ifaRun c q i s) := by
  unfold ifaRun
  try dsimp only
  repeat' first
    | with_reducible assumption
    | dsimp only
    | with_reducible apply atBoundary_keeps
    | with_reducible apply oneInstr_keeps
    | split
    | intro _ _ _
    | intro _ _
    | intro _

end Sys2Proof.Machine
end

