-- ==== Sys2Proof/Laws/KeepsCores.lean ====
section
/-! SUPPORT. What the operations of Machine/Cores.lean keep (Laws/Keeps.lean). -/

namespace Sys2Proof.Machine

open Sys2Proof

theorem interruptEntry_keeps {s₀ : State} {c : Nat} {s : State}
    (hk : Keeps s₀ s) : Keeps s₀ (interruptEntry c s) := by
  unfold interruptEntry
  try dsimp only
  repeat' first
    | with_reducible assumption
    | dsimp only
    | with_reducible apply State.irq_keeps
    | with_reducible apply State.setCore_keeps
    | with_reducible apply takeSpill_keeps
    | with_reducible apply wireEnd_keeps
    | split
    | intro _ _ _
    | intro _ _
    | intro _
    | (simp only [keeps_mk]; first | refine KeepsParts.of ?_)

theorem fastInterrupt_keeps {s₀ : State} {c : Nat} {s : State}
    (hk : Keeps s₀ s) : Keeps s₀ (fastInterrupt c s) := by
  unfold fastInterrupt
  try dsimp only
  repeat' first
    | with_reducible assumption
    | dsimp only
    | with_reducible apply fastEntry_keeps
    | with_reducible apply takeSpill_keeps
    | with_reducible apply wireEnd_keeps
    | split
    | intro _ _ _
    | intro _ _
    | intro _

theorem busError_keeps {s₀ : State} {c : Nat} {s : State}
    (hk : Keeps s₀ s) : Keeps s₀ (busError c s) := by
  unfold busError
  try dsimp only
  repeat' first
    | with_reducible assumption
    | dsimp only
    | with_reducible apply State.setCore_keeps
    | with_reducible apply takeSpill_keeps
    | with_reducible apply wireEnd_keeps
    | split
    | intro _ _ _
    | intro _ _
    | intro _
    | (simp only [keeps_mk]; first | refine KeepsParts.of ?_)

theorem timecmpMatch_keeps {s₀ : State} {c : Nat} {s : State}
    (hk : Keeps s₀ s) : Keeps s₀ (timecmpMatch c s) := by
  unfold timecmpMatch
  try dsimp only
  repeat' first
    | with_reducible assumption
    | dsimp only
    | with_reducible apply State.setCore_keeps
    | with_reducible apply Keeps.when
    | split
    | intro _ _ _
    | intro _ _
    | intro _
    | (simp only [keeps_mk]; first | refine KeepsParts.of ?_)

theorem wfbReturn_keeps {s₀ : State} {c : Nat} {s : State} (hk : Keeps s₀ s) : Keeps s₀ (wfbReturn c s) := by
  unfold wfbReturn
  dsimp only
  split
  · exact hk
  · split
    · have hr : ∀ m ch, CoreKeeps s₀ (wfbRead c m ch (wireRewind c s)) := fun m ch => wfbRead_keeps (wireRewind_keeps hk)
      split <;> rename_i e
      · exact CoreKeeps.of_stall (hr _ _) e
      · exact settle_keeps (.trap (State.setCore_keeps (CoreKeeps.of_trap (hr _ _) e)))
      · split
        · exact settle_keeps (result_keeps (State.setCore_keeps (CoreKeeps.of_ok (hr _ _) e)))
        · exact wireEnd_keeps (CoreKeeps.of_ok (hr _ _) e)
    · exact hk

theorem spillEngine_keeps {s₀ : State} {c : Nat} {s : State}
    (hk : Keeps s₀ s) : Keeps s₀ (spillEngine c s) := by
  unfold spillEngine
  try dsimp only
  repeat' first
    | with_reducible assumption
    | dsimp only
    | with_reducible apply spillOnce_keeps
    | with_reducible apply Keeps.when
    | split
    | intro _ _ _
    | intro _ _
    | intro _

theorem fillAhead_keeps {s₀ : State} {c : Nat} {s : State}
    (hk : Keeps s₀ s) : Keeps s₀ (fillAhead c s) := by
  unfold fillAhead
  try dsimp only
  repeat' first
    | with_reducible assumption
    | dsimp only
    | with_reducible apply State.setCore_keeps
    | with_reducible apply fillFrame_keeps
    | with_reducible refine CoreKeeps.of_ok (fillFrame_keeps ?_) (by assumption)
    | with_reducible refine CoreKeeps.of_trap (fillFrame_keeps ?_) (by assumption)
    | with_reducible refine CoreKeeps.of_stall (fillFrame_keeps ?_) (by assumption)
    | with_reducible apply stall_keeps
    | split
    | intro _ _ _
    | intro _ _
    | intro _
    | (simp only [keeps_mk]; first | refine KeepsParts.of ?_)

theorem spillResume_keeps {s₀ : State} {c : Nat} {s : State}
    (hk : Keeps s₀ s) : Keeps s₀ (spillResume c s) := by
  unfold spillResume
  try dsimp only
  repeat' first
    | with_reducible assumption
    | dsimp only
    | with_reducible apply ctlWrite_keeps
    | with_reducible apply spillOnce_keeps
    | with_reducible apply Keeps.when
    | split
    | intro _ _ _
    | intro _ _
    | intro _

theorem stepCore_keeps {s₀ : State} {c : Nat} {q : Luck} {s : State} (hk : Keeps s₀ s) : Keeps s₀ (stepCore c q s) := by
  unfold stepCore
  dsimp only
  split
  · exact hk
  · split
    · exact takeSpill_keeps (State.setCore_keeps hk)
    · have h0 : Keeps s₀ (corePump 8 c ((s.when (s.core c).wfb.isSome (wireEnd c)).setCore c { s.core c with wfi := false, wfb := none })) :=
        corePump_keeps (State.setCore_keeps (Keeps.when hk fun _ h => wireEnd_keeps h))
      generalize corePump 8 c ((s.when (s.core c).wfb.isSome (wireEnd c)).setCore c { s.core c with wfi := false, wfb := none }) = t at h0 ⊢
      split
      · exact h0
      · have hr : CoreKeeps s₀ (tryInstr c q decodeIfa t) := tryInstr_keeps h0
        split
        · rename_i e
          exact CoreKeeps.of_stall hr e
        · exact Keeps.put (State.setCore_keeps (settle_keeps hr))

end Sys2Proof.Machine
end

