-- ==== Sys2Proof/Laws/KeepsEndpoints.lean ====
section
/-! SUPPORT. What the operations of Machine/Endpoints.lean keep (Laws/Keeps.lean). -/

namespace Sys2Proof.Machine

open Sys2Proof

theorem arrive_keeps {s₀ : State} {p : Packet} {act : State → State} {s : State} (hact : ∀  t, Keeps s₀ t → Keeps s₀ (act  t))
    (hk : Keeps s₀ s) : Keeps s₀ (arrive p act s) := by
  unfold arrive
  try dsimp only
  repeat' first
    | with_reducible assumption
    | with_reducible apply hact
    | dsimp only
    | with_reducible apply takeInbox_keeps
    | split
    | intro _ _ _
    | intro _ _
    | intro _

theorem summitWords_keeps {s₀ : State} {m : Nat} {p : Packet} {x0 : Nat} {x1 : List Word} {s : State}
    (hk : Keeps s₀ s) : Keeps s₀ (summitWords m p x0 x1 s) := by
  induction x1 generalizing m p x0 s with
  | nil =>
    simp only [summitWords]
    repeat' first
      | with_reducible assumption
      | with_reducible apply ih
      | dsimp only
      | with_reducible apply shelfWrite_keeps
      | with_reducible apply summitBank_keeps
      | split
      | intro _ _ _
      | intro _ _
      | intro _
  | cons a l ih =>
    simp only [summitWords]
    repeat' first
      | with_reducible assumption
      | with_reducible apply ih
      | dsimp only
      | with_reducible apply shelfWrite_keeps
      | with_reducible apply summitBank_keeps
      | split
      | intro _ _ _
      | intro _ _
      | intro _

theorem summitWrite_keeps {s₀ : State} {p : Packet} {s : State}
    (hk : Keeps s₀ s) : Keeps s₀ (summitWrite p s) := by
  unfold summitWrite
  try dsimp only
  repeat' first
    | with_reducible assumption
    | dsimp only
    | with_reducible apply arrive_keeps
    | with_reducible apply summitWords_keeps
    | with_reducible apply Keeps.when
    | split
    | intro _ _ _
    | intro _ _
    | intro _

theorem summitBell_keeps {s₀ : State} {p : Packet} {s : State}
    (hk : Keeps s₀ s) : Keeps s₀ (summitBell p s) := by
  unfold summitBell
  try dsimp only
  repeat' first
    | with_reducible assumption
    | dsimp only
    | with_reducible apply arrive_keeps
    | with_reducible apply ringBell_keeps
    | with_reducible apply Keeps.when
    | split
    | intro _ _ _
    | intro _ _
    | intro _
    | (simp only [keeps_mk]; first | refine KeepsParts.of ?_)

theorem memRequest_keeps {s₀ : State} {typ : Nat} {p : Packet} {s : State}
    (hk : Keeps s₀ s) : Keeps s₀ (memRequest typ p s) := by
  unfold memRequest
  try dsimp only
  repeat' first
    | with_reducible assumption
    | dsimp only
    | with_reducible apply hbmArrive_keeps
    | with_reducible apply niSend_keeps
    | with_reducible apply shelfArrive_keeps
    | with_reducible apply takeInbox_keeps
    | split
    | intro _ _ _
    | intro _ _
    | intro _
    | (simp only [keeps_mk]; first | refine KeepsParts.of ?_)

theorem bulkWrite_keeps {s₀ : State} {p : Packet} {s : State}
    (hk : Keeps s₀ s) : Keeps s₀ (bulkWrite p s) := by
  unfold bulkWrite
  try dsimp only
  repeat' first
    | with_reducible assumption
    | dsimp only
    | with_reducible apply discardAt_keeps
    | with_reducible apply hbmArrive_keeps
    | with_reducible apply takeInbox_keeps
    | split
    | intro _ _ _
    | intro _ _
    | intro _
    | (simp only [keeps_mk]; first | refine KeepsParts.of ?_)

theorem regReadArrive_keeps {s₀ : State} {p : Packet} {bad : Bool} {s : State}
    (hk : Keeps s₀ s) : Keeps s₀ (regReadArrive p bad s) := by
  unfold regReadArrive
  try dsimp only
  repeat' first
    | with_reducible assumption
    | dsimp only
    | with_reducible apply arrive_keeps
    | with_reducible apply niSend_keeps
    | with_reducible refine readReg_keeps (by assumption) ?_
    | with_reducible apply readReg_keeps_snd
    | split
    | intro _ _ _
    | intro _ _
    | intro _
    | (simp only [keeps_mk]; first | refine KeepsParts.of ?_)

theorem mgmtRefused_keeps {s₀ : State} {p : Packet} {s : State}
    (hk : Keeps s₀ s) : Keeps s₀ (mgmtRefused p s) := by
  unfold mgmtRefused
  try dsimp only
  repeat' first
    | with_reducible assumption
    | dsimp only
    | with_reducible apply State.setOutReqs_keeps
    | with_reducible apply Keeps.when
    | split
    | intro _ _ _
    | intro _ _
    | intro _
    | (simp only [keeps_mk]; first | refine KeepsParts.of ?_)

theorem regWriteArrive_keeps {s₀ : State} {p : Packet} {s : State}
    (hk : Keeps s₀ s) : Keeps s₀ (regWriteArrive p s) := by
  unfold regWriteArrive
  try dsimp only
  repeat' first
    | with_reducible assumption
    | dsimp only
    | with_reducible apply arrive_keeps
    | with_reducible apply mgmtRefused_keeps
    | with_reducible apply niSend_keeps
    | with_reducible refine writeReg_keeps (by assumption) ?_
    | with_reducible apply writeReg_keeps_snd
    | split
    | intro _ _ _
    | intro _ _
    | intro _
    | (simp only [keeps_mk]; first | refine KeepsParts.of ?_)

theorem postedWrite_keeps {s₀ : State} {p : Packet} {s : State}
    (hk : Keeps s₀ s) : Keeps s₀ (postedWrite p s) := by
  unfold postedWrite
  try dsimp only
  repeat' first
    | with_reducible assumption
    | dsimp only
    | with_reducible apply arrive_keeps
    | with_reducible apply discardAt_keeps
    | with_reducible refine writeReg_keeps (by assumption) ?_
    | with_reducible apply writeReg_keeps_snd
    | split
    | intro _ _ _
    | intro _ _
    | intro _

theorem sendCompletion_keeps {s₀ : State} {e tag : Nat} {data : List Byte} {ep : Bool} {s : State}
    (hk : Keeps s₀ s) : Keeps s₀ (sendCompletion e tag data ep s) := by
  unfold sendCompletion
  try dsimp only
  repeat' first
    | with_reducible assumption
    | dsimp only
    | with_reducible apply State.count_keeps
    | with_reducible apply Keeps.emit
    | with_reducible apply Keeps.when
    | split
    | intro _ _ _
    | intro _ _
    | intro _

theorem bar2Send_keeps_snd {s₀ : State} {x0 : Nat} {x1 : Bar2Read} {s : State}
    (hk : Keeps s₀ s) : Keeps s₀ (bar2Send x0 x1 s).2 := by
  induction x0 generalizing x1 s with
  | zero =>
    simp only [bar2Send]
    repeat' first
      | with_reducible assumption
      | with_reducible apply ih
      | dsimp only
      | with_reducible apply Keeps.emit
      | with_reducible apply sendCompletion_keeps
      | split
      | intro _ _ _
      | intro _ _
      | intro _
      | (simp only [keeps_mk]; first | refine KeepsParts.of ?_)
  | succ n ih =>
    simp only [bar2Send]
    repeat' first
      | with_reducible assumption
      | with_reducible apply ih
      | dsimp only
      | with_reducible apply Keeps.emit
      | with_reducible apply sendCompletion_keeps
      | split
      | intro _ _ _
      | intro _ _
      | intro _
      | (simp only [keeps_mk]; first | refine KeepsParts.of ?_)

theorem bar2Send_keeps {s₀ : State} {x0 : Nat} {x1 : Bar2Read} {s : State} {y₁ t₁} (e₁ : bar2Send x0 x1 s = (y₁, t₁))
    (hk : Keeps s₀ s) : Keeps s₀ t₁ := by
  have k := bar2Send_keeps_snd (s₀ := s₀) (x0 := x0) (x1 := x1) (s := s) hk
  rw [e₁] at k
  exact k

theorem bar2Answer_keeps {s₀ : State} {e tag k : Nat} {a : VnReply} {s : State}
    (hk : Keeps s₀ s) : Keeps s₀ (bar2Answer e tag k a s) := by
  unfold bar2Answer
  try dsimp only
  repeat' first
    | with_reducible assumption
    | dsimp only
    | with_reducible refine bar2Send_keeps (by assumption) ?_
    | with_reducible apply bar2Send_keeps_snd
    | with_reducible apply setHost_keeps
    | split
    | intro _ _ _
    | intro _ _
    | intro _
    | (simp only [keeps_mk]; first | refine KeepsParts.of ?_)

theorem requester_keeps {s₀ : State} {o : TagOwner} {read : Bool} {a : VnReply} {s : State}
    (hk : Keeps s₀ s) : Keeps s₀ (requester o read a s) := by
  unfold requester
  try dsimp only
  repeat' first
    | with_reducible assumption
    | dsimp only
    | with_reducible apply Keeps.emit
    | with_reducible apply badReq_keeps
    | with_reducible apply bar2Answer_keeps
    | with_reducible apply l2Filled_keeps
    | with_reducible apply loaderAnswer_keeps
    | with_reducible apply mgmtAnswer_keeps
    | with_reducible apply sendCompletion_keeps
    | with_reducible apply storeError_keeps
    | with_reducible apply wireReply_keeps
    | with_reducible apply Keeps.when
    | split
    | intro _ _ _
    | intro _ _
    | intro _
    | (simp only [keeps_mk]; first | refine KeepsParts.of ?_)

theorem tagFreed_keeps {s₀ : State} {n : Nat} {o : TagOwner} {s : State}
    (hk : Keeps s₀ s) : Keeps s₀ (tagFreed n o s) := by
  unfold tagFreed
  try dsimp only
  repeat' first
    | with_reducible assumption
    | dsimp only
    | with_reducible apply bar2Pump_keeps
    | with_reducible apply corePump_keeps
    | with_reducible apply l2Pump_keeps
    | with_reducible apply loaderPump_keeps
    | with_reducible apply mgmtPump_keeps
    | with_reducible apply windowPump_keeps
    | with_reducible apply xrxPump_keeps
    | with_reducible apply Keeps.when
    | with_reducible apply Keeps.each
    | split
    | intro _ _ _
    | intro _ _
    | intro _
    | (simp only [keeps_mk]; first | refine KeepsParts.of ?_)

theorem completeReq_keeps {s₀ : State} {typ : Nat} {p : Packet} {s : State}
    (hk : Keeps s₀ s) : Keeps s₀ (completeReq typ p s) := by
  unfold completeReq
  try dsimp only
  repeat' first
    | with_reducible assumption
    | dsimp only
    | with_reducible apply State.setOutReqs_keeps
    | with_reducible apply arrive_keeps
    | with_reducible apply requester_keeps
    | with_reducible apply tagFreed_keeps
    | split
    | intro _ _ _
    | intro _ _
    | intro _
    | (simp only [keeps_mk]; first | refine KeepsParts.of ?_)

theorem requestTimeout_keeps {s₀ : State} {n tag : Nat} {read : Bool} {size : Nat} {s : State}
    (hk : Keeps s₀ s) : Keeps s₀ (requestTimeout n tag read size s) := by
  unfold requestTimeout
  try dsimp only
  repeat' first
    | with_reducible assumption
    | dsimp only
    | with_reducible apply State.setOutReqs_keeps
    | with_reducible apply requester_keeps
    | with_reducible apply tagFreed_keeps
    | with_reducible apply timeoutCount_keeps
    | split
    | intro _ _ _
    | intro _ _
    | intro _
    | (simp only [keeps_mk]; first | refine KeepsParts.of ?_)

theorem streamArrive_keeps {s₀ : State} {p : Packet} {s : State}
    (hk : Keeps s₀ s) : Keeps s₀ (streamArrive p s) := by
  unfold streamArrive
  try dsimp only
  repeat' first
    | with_reducible assumption
    | dsimp only
    | with_reducible apply State.setInbox_keeps
    | with_reducible refine streamWords_keeps (by assumption) ?_
    | with_reducible apply streamWords_keeps_snd
    | with_reducible apply takeInbox_keeps
    | split
    | intro _ _ _
    | intro _ _
    | intro _
    | (simp only [keeps_mk]; first | refine KeepsParts.of ?_)

theorem reportEnter_keeps {s₀ : State} {p : Packet} {s : State}
    (hk : Keeps s₀ s) : Keeps s₀ (reportEnter p s) := by
  unfold reportEnter
  try dsimp only
  repeat' first
    | with_reducible assumption
    | dsimp only
    | with_reducible apply arrive_keeps
    | with_reducible apply reportArrive_keeps
    | with_reducible apply Keeps.when
    | split
    | intro _ _ _
    | intro _ _
    | intro _

theorem packetTaken_keeps {s₀ : State} {vn typ : Nat} {p : Packet} {s : State}
    (hk : Keeps s₀ s) : Keeps s₀ (packetTaken vn typ p s) := by
  unfold packetTaken
  try dsimp only
  repeat' first
    | with_reducible assumption
    | dsimp only
    | with_reducible apply arrive_keeps
    | with_reducible apply Keeps.when
    | dsimp only [id]
    | split
    | intro _ _ _
    | intro _ _
    | intro _

end Sys2Proof.Machine
end

