-- ==== Sys2Proof/Laws/KeepsTick.lean ====
section
/-! SUPPORT. What the operations of Machine/Tick.lean keep (Laws/Keeps.lean). -/

namespace Sys2Proof.Machine

open Sys2Proof

theorem tickTb_keeps {s₀ : State} {s0 : State}
    (hk : Keeps s₀ s0) : Keeps s₀ (tickTb s0) := by
  unfold tickTb
  try dsimp only
  repeat' first
    | with_reducible assumption
    | dsimp only
    | with_reducible apply State.noteShift_keeps
    | split
    | intro _ _ _
    | intro _ _
    | intro _
    | (simp only [keeps_mk]; first | refine KeepsParts.of ?_)

theorem tickPhc_keeps {s₀ : State} {c : Nat} {s : State}
    (hk : Keeps s₀ s) : Keeps s₀ (tickPhc c s) := by
  unfold tickPhc
  try dsimp only
  repeat' first
    | with_reducible assumption
    | dsimp only
    | with_reducible apply setPhc_keeps
    | split
    | intro _ _ _
    | intro _ _
    | intro _
    | (simp only [keeps_mk]; first | refine KeepsParts.of ?_)

theorem tick_keeps {s₀ : State} {s : State}
    (hk : Keeps s₀ s) : Keeps s₀ (tick s) := by
  unfold tick
  try dsimp only
  repeat' first
    | with_reducible assumption
    | dsimp only
    | with_reducible apply ackEvents_keeps
    | with_reducible apply bitCycle_keeps
    | with_reducible apply colCycle_keeps
    | with_reducible apply encEdge_keeps
    | with_reducible apply mirrorSend_keeps
    | with_reducible apply seqHeld_keeps
    | with_reducible apply shelfClearStep_keeps
    | with_reducible apply stepCore_keeps
    | with_reducible apply tempoCycle_keeps
    | with_reducible apply tickPhc_keeps
    | with_reducible apply tickTb_keeps
    | with_reducible apply treeEnter_keeps
    | with_reducible apply xrxPump_keeps
    | with_reducible apply Keeps.each
    | split
    | intro _ _ _
    | intro _ _
    | intro _
    | (simp only [keeps_mk]; first | refine KeepsParts.of ?_)

end Sys2Proof.Machine
end

