-- ==== Sys2Proof/Laws/KeepsMeanings.lean ====
section
/-! SUPPORT. What the meaning of each command keeps (Laws/Keeps.lean). -/

namespace Sys2Proof.Machine

open Sys2Proof

theorem execEncoderTransition_keeps {s₀ : State} {n : Fin 16} {a b : InputSample} {s : State} {u : State} (hk : Keeps s₀ s)
    (h : execEncoderTransition n a b s = .next u) : Keeps s₀ u := by
  unfold execEncoderTransition at h
  injection h with h
  subst h
  repeat' first
    | with_reducible assumption
    | with_reducible apply encoderTransition_keeps
    | split
    | intro _ _ _
    | intro _ _
    | dsimp only

theorem execZEdge_keeps {s₀ : State} {n : Fin 16} {z : InputSample} {s : State} {u : State} (hk : Keeps s₀ s)
    (h : execZEdge n z s = .next u) : Keeps s₀ u := by
  unfold execZEdge at h
  injection h with h
  subst h
  repeat' first
    | with_reducible assumption
    | with_reducible apply zEdge_keeps
    | split
    | intro _ _ _
    | intro _ _
    | dsimp only

theorem execEncLoad_keeps {s₀ : State} {n : Fin 16} {s : State} {u : State} (hk : Keeps s₀ s)
    (h : execEncLoad n s = .next u) : Keeps s₀ u := by
  unfold execEncLoad at h
  injection h with h
  subst h
  repeat' first
    | with_reducible assumption
    | with_reducible apply encLoad_keeps
    | split
    | intro _ _ _
    | intro _ _
    | dsimp only

theorem execEncPosWrite_keeps {s₀ : State} {n : Fin 16} {v : Word} {s : State} {u : State} (hk : Keeps s₀ s)
    (h : execEncPosWrite n v s = .next u) : Keeps s₀ u := by
  unfold execEncPosWrite at h
  injection h with h
  subst h
  repeat' first
    | with_reducible assumption
    | with_reducible apply encPosWrite_keeps
    | split
    | intro _ _ _
    | intro _ _
    | dsimp only

theorem execEncEnable_keeps {s₀ : State} {n : Fin 16} {v : Word} {s : State} {u : State} (hk : Keeps s₀ s)
    (h : execEncEnable n v s = .next u) : Keeps s₀ u := by
  unfold execEncEnable at h
  injection h with h
  subst h
  repeat' first
    | with_reducible assumption
    | with_reducible apply encCtlWrite_keeps
    | split
    | intro _ _ _
    | intro _ _
    | dsimp only

theorem execSnapCapture_keeps {s₀ : State} {s : State} {u : State} (hk : Keeps s₀ s)
    (h : execSnapCapture s = .next u) : Keeps s₀ u := by
  unfold execSnapCapture at h
  injection h with h
  subst h
  repeat' first
    | with_reducible assumption
    | with_reducible apply snapCapture_keeps
    | split
    | intro _ _ _
    | intro _ _
    | dsimp only

theorem execPendedBeatDue_keeps {s₀ : State} {c : Fin 64} {s : State} {u : State} (hk : Keeps s₀ s)
    (h : execPendedBeatDue c s = .next u) : Keeps s₀ u := by
  unfold execPendedBeatDue at h
  injection h with h
  subst h
  repeat' first
    | with_reducible assumption
    | with_reducible apply pendedBeat_keeps
    | split
    | intro _ _ _
    | intro _ _
    | dsimp only

theorem execTimeBeat_keeps {s₀ : State} {c : Fin 64} {s : State} {u : State} (hk : Keeps s₀ s)
    (h : execTimeBeat c s = .next u) : Keeps s₀ u := by
  unfold execTimeBeat at h
  injection h with h
  subst h
  repeat' first
    | with_reducible assumption
    | with_reducible apply timeBeat_keeps
    | split
    | intro _ _ _
    | intro _ _
    | dsimp only

theorem execSchedPush_keeps {s₀ : State} {c : Fin 64} {v : Word} {s : State} {u : State} (hk : Keeps s₀ s)
    (h : execSchedPush c v s = .next u) : Keeps s₀ u := by
  unfold execSchedPush at h
  injection h with h
  subst h
  repeat' first
    | with_reducible assumption
    | with_reducible apply arg3Write_keeps
    | split
    | intro _ _ _
    | intro _ _
    | dsimp only

theorem execSchedEntryDue_keeps {s₀ : State} {c : Fin 64} {s : State} {u : State} (hk : Keeps s₀ s)
    (h : execSchedEntryDue c s = .next u) : Keeps s₀ u := by
  unfold execSchedEntryDue at h
  injection h with h
  subst h
  repeat' first
    | with_reducible assumption
    | with_reducible apply schedFire_keeps
    | split
    | intro _ _ _
    | intro _ _
    | dsimp only

theorem execBcCtlWrite_keeps {s₀ : State} {c : Fin 64} {v : Word} {s : State} {u : State} (hk : Keeps s₀ s)
    (h : execBcCtlWrite c v s = .next u) : Keeps s₀ u := by
  unfold execBcCtlWrite at h
  injection h with h
  subst h
  repeat' first
    | with_reducible assumption
    | with_reducible apply bcCtlWrite_keeps
    | split
    | intro _ _ _
    | intro _ _
    | dsimp only

theorem execLateBeatEmit_keeps {s₀ : State} {c : Fin 64} {s : State} {u : State} (hk : Keeps s₀ s)
    (h : execLateBeatEmit c s = .next u) : Keeps s₀ u := by
  unfold execLateBeatEmit at h
  injection h with h
  subst h
  repeat' first
    | with_reducible assumption
    | with_reducible apply lateEmit_keeps
    | split
    | intro _ _ _
    | intro _ _
    | dsimp only

theorem execBeatTreeEntry_keeps {s₀ : State} {s : State} {u : State} (hk : Keeps s₀ s)
    (h : execBeatTreeEntry s = .next u) : Keeps s₀ u := by
  unfold execBeatTreeEntry at h
  injection h with h
  subst h
  repeat' first
    | with_reducible assumption
    | with_reducible apply treeEnter_keeps
    | split
    | intro _ _ _
    | intro _ _
    | dsimp only

theorem execBeatOutputEdge_keeps {s₀ : State} {o : Fin 64} {s : State} {u : State} (hk : Keeps s₀ s)
    (h : execBeatOutputEdge o s = .next u) : Keeps s₀ u := by
  unfold execBeatOutputEdge at h
  injection h with h
  subst h
  repeat' first
    | with_reducible assumption
    | with_reducible apply boEdge_keeps
    | split
    | intro _ _ _
    | intro _ _
    | dsimp only

theorem execPulseEnd_keeps {s₀ : State} {o : Fin 64} {s : State} {u : State} (hk : Keeps s₀ s)
    (h : execPulseEnd o s = .next u) : Keeps s₀ u := by
  unfold execPulseEnd at h
  injection h with h
  subst h
  repeat' first
    | with_reducible assumption
    | with_reducible apply boPulseEnd_keeps
    | split
    | intro _ _ _
    | intro _ _
    | dsimp only

theorem execBoCtlWrite_keeps {s₀ : State} {o : Fin 64} {v : Word} {s : State} {u : State} (hk : Keeps s₀ s)
    (h : execBoCtlWrite o v s = .next u) : Keeps s₀ u := by
  unfold execBoCtlWrite at h
  injection h with h
  subst h
  repeat' first
    | with_reducible assumption
    | with_reducible apply boCtlWrite_keeps
    | split
    | intro _ _ _
    | intro _ _
    | dsimp only

theorem execInputLevelChange_keeps {s₀ : State} {n : Fin 16} {a b z : InputSample} {s : State} {u : State} (hk : Keeps s₀ s)
    (h : execInputLevelChange n a b z s = .next u) : Keeps s₀ u := by
  unfold execInputLevelChange at h
  injection h with h
  subst h
  repeat' first
    | with_reducible assumption
    | with_reducible apply inputLevels_keeps
    | split
    | intro _ _ _
    | intro _ _
    | dsimp only

theorem execAnnounceSend_keeps {s₀ : State} {p : Fin 4} {s : State} {u : State} (hk : Keeps s₀ s)
    (h : execAnnounceSend p s = .next u) : Keeps s₀ u := by
  unfold execAnnounceSend at h
  injection h with h
  subst h
  repeat' first
    | with_reducible assumption
    | with_reducible apply announceSend_keeps
    | split
    | intro _ _ _
    | intro _ _
    | dsimp only

theorem execAnnounce_keeps {s₀ : State} {p : Fin 4} {id rootId : BitVec 14} {rootPri : Fin 16} {parent : Bool} {depth : Fin 8} {rootSeq : Byte} {lead : Word} {s : State} {u : State} (hk : Keeps s₀ s)
    (h : execAnnounce p id rootId rootPri parent depth rootSeq lead s = .next u) : Keeps s₀ u := by
  unfold execAnnounce at h
  injection h with h
  subst h
  repeat' first
    | with_reducible assumption
    | with_reducible apply announceRecv_keeps
    | split
    | intro _ _ _
    | intro _ _
    | dsimp only

theorem execSyncSend_keeps {s₀ : State} {p : Fin 4} {frac : BitVec 6} {s : State} {u : State} (hk : Keeps s₀ s)
    (h : execSyncSend p frac s = .next u) : Keeps s₀ u := by
  unfold execSyncSend at h
  injection h with h
  subst h
  repeat' first
    | with_reducible assumption
    | with_reducible apply syncSend_keeps
    | split
    | intro _ _ _
    | intro _ _
    | dsimp only

theorem execSync_keeps {s₀ : State} {p : Fin 4} {ts : Time70} {age : BitVec 16} {s : State} {u : State} (hk : Keeps s₀ s)
    (h : execSync p ts age s = .next u) : Keeps s₀ u := by
  unfold execSync at h
  injection h with h
  subst h
  repeat' first
    | with_reducible assumption
    | with_reducible apply syncRecv_keeps
    | split
    | intro _ _ _
    | intro _ _
    | dsimp only

theorem execPhaseSlewStep_keeps {s₀ : State} {s : State} {u : State} (hk : Keeps s₀ s)
    (h : execPhaseSlewStep s = .next u) : Keeps s₀ u := by
  unfold execPhaseSlewStep at h
  injection h with h
  subst h
  repeat' first
    | with_reducible assumption
    | with_reducible apply phaseSlew_keeps
    | split
    | intro _ _ _
    | intro _ _
    | dsimp only

theorem execDreqSend_keeps {s₀ : State} {p : Fin 4} {frac : BitVec 6} {s : State} {u : State} (hk : Keeps s₀ s)
    (h : execDreqSend p frac s = .next u) : Keeps s₀ u := by
  unfold execDreqSend at h
  injection h with h
  subst h
  repeat' first
    | with_reducible assumption
    | with_reducible apply dreqSend_keeps
    | split
    | intro _ _ _
    | intro _ _
    | dsimp only

theorem execDreq_keeps {s₀ : State} {p : Fin 4} {seq : BitVec 16} {age : BitVec 16} {frac : BitVec 6} {s : State} {u : State} (hk : Keeps s₀ s)
    (h : execDreq p seq age frac s = .next u) : Keeps s₀ u := by
  unfold execDreq at h
  injection h with h
  subst h
  repeat' first
    | with_reducible assumption
    | with_reducible apply dreqRecv_keeps
    | split
    | intro _ _ _
    | intro _ _
    | dsimp only

theorem execDresp_keeps {s₀ : State} {p : Fin 4} {seq : BitVec 16} {t2 t3 : Time70} {age : BitVec 16} {s : State} {u : State} (hk : Keeps s₀ s)
    (h : execDresp p seq t2 t3 age s = .next u) : Keeps s₀ u := by
  unfold execDresp at h
  injection h with h
  subst h
  repeat' first
    | with_reducible assumption
    | with_reducible apply drespRecv_keeps
    | split
    | intro _ _ _
    | intro _ _
    | dsimp only

theorem execPosSend_keeps {s₀ : State} {c : Fin 16} {s : State} {u : State} (hk : Keeps s₀ s)
    (h : execPosSend c s = .next u) : Keeps s₀ u := by
  unfold execPosSend at h
  injection h with h
  subst h
  repeat' first
    | with_reducible assumption
    | with_reducible apply posSend_keeps
    | split
    | intro _ _ _
    | intro _ _
    | dsimp only

theorem execPos_keeps {s₀ : State} {p : Fin 4} {origin : BitVec 14} {c : Fin 16} {loadSeq : Byte} {pn tn : Pos48} {vel : Word} {ts : Pos48} {s : State} {u : State} (hk : Keeps s₀ s)
    (h : execPos p origin c loadSeq pn tn vel ts s = .next u) : Keeps s₀ u := by
  unfold execPos at h
  injection h with h
  subst h
  repeat' first
    | with_reducible assumption
    | with_reducible apply posRecv_keeps
    | split
    | intro _ _ _
    | intro _ _
    | dsimp only

theorem execSampleEffect_keeps {s₀ : State} {c : Fin 16} {s : State} {u : State} (hk : Keeps s₀ s)
    (h : execSampleEffect c s = .next u) : Keeps s₀ u := by
  unfold execSampleEffect at h
  injection h with h
  subst h
  repeat' first
    | with_reducible assumption
    | with_reducible apply sampleEffect_keeps
    | split
    | intro _ _ _
    | intro _ _
    | dsimp only

theorem execFollowerTransition_keeps {s₀ : State} {n : Fin 16} {s : State} {u : State} (hk : Keeps s₀ s)
    (h : execFollowerTransition n s = .next u) : Keeps s₀ u := by
  unfold execFollowerTransition at h
  injection h with h
  subst h
  repeat' first
    | with_reducible assumption
    | with_reducible apply followerTransition_keeps
    | split
    | intro _ _ _
    | intro _ _
    | dsimp only

theorem execStale_keeps {s₀ : State} {n : Fin 16} {s : State} {u : State} (hk : Keeps s₀ s)
    (h : execStale n s = .next u) : Keeps s₀ u := by
  unfold execStale at h
  injection h with h
  subst h
  repeat' first
    | with_reducible assumption
    | with_reducible apply staleNow_keeps
    | split
    | intro _ _ _
    | intro _ _
    | dsimp only

theorem execBeatFrame_keeps {s₀ : State} {p : Fin 4} {origin : BitVec 14} {ch : Fin 64} {act : Fin 16} {tfrac : Fin 8} {seq : BitVec 16} {pos time : Pos48} {s : State} {u : State} (hk : Keeps s₀ s)
    (h : execBeatFrame p origin ch act tfrac seq pos time s = .next u) : Keeps s₀ u := by
  unfold execBeatFrame at h
  injection h with h
  subst h
  repeat' first
    | with_reducible assumption
    | with_reducible apply beatRecv_keeps
    | split
    | intro _ _ _
    | intro _ _
    | dsimp only

theorem execSchedFrame_keeps {s₀ : State} {p : Fin 4} {origin : BitVec 14} {tsq : Fin 16} {byTime : Bool} {act : Fin 16} {value : Dword} {s : State} {u : State} (hk : Keeps s₀ s)
    (h : execSchedFrame p origin tsq byTime act value s = .next u) : Keeps s₀ u := by
  unfold execSchedFrame at h
  injection h with h
  subst h
  repeat' first
    | with_reducible assumption
    | with_reducible apply schedRecv_keeps
    | split
    | intro _ _ _
    | intro _ _
    | dsimp only

theorem execTempoFrameDiscard_keeps {s₀ : State} {p : Fin 4} {noise : PortNoise} {s : State} {u : State} (hk : Keeps s₀ s)
    (h : execTempoFrameDiscard p noise s = .next u) : Keeps s₀ u := by
  unfold execTempoFrameDiscard at h
  injection h with h
  subst h
  repeat' first
    | with_reducible assumption
    | with_reducible apply tempoDiscard_keeps
    | split
    | intro _ _ _
    | intro _ _
    | dsimp only

theorem execLinkDown_keeps {s₀ : State} {p : Fin 4} {s : State} {u : State} (hk : Keeps s₀ s)
    (h : execLinkDown p s = .next u) : Keeps s₀ u := by
  unfold execLinkDown at h
  injection h with h
  subst h
  repeat' first
    | with_reducible assumption
    | with_reducible apply tempoLinkDown_keeps
    | split
    | intro _ _ _
    | intro _ _
    | dsimp only

theorem execLinkUp_keeps {s₀ : State} {p : Fin 4} {s : State} {u : State} (hk : Keeps s₀ s)
    (h : execLinkUp p s = .next u) : Keeps s₀ u := by
  unfold execLinkUp at h
  injection h with h
  subst h
  repeat' first
    | with_reducible assumption
    | with_reducible apply tempoLinkUp_keeps
    | split
    | intro _ _ _
    | intro _ _
    | dsimp only

theorem execRootLost_keeps {s₀ : State} {s : State} {u : State} (hk : Keeps s₀ s)
    (h : execRootLost s = .next u) : Keeps s₀ u := by
  unfold execRootLost at h
  injection h with h
  subst h
  repeat' first
    | with_reducible assumption
    | with_reducible apply rootLost_keeps
    | split
    | intro _ _ _
    | intro _ _
    | dsimp only

theorem execShelfClear_keeps {s₀ : State} {m : Fin 64} {s : State} {u : State} (hk : Keeps s₀ s)
    (h : execShelfClear m s = .next u) : Keeps s₀ u := by
  unfold execShelfClear at h
  injection h with h
  subst h
  repeat' first
    | with_reducible assumption
    | with_reducible apply shelfClear_keeps
    | split
    | intro _ _ _
    | intro _ _
    | dsimp only

theorem execShelfClearDone_keeps {s₀ : State} {m : Fin 64} {s : State} {u : State} (hk : Keeps s₀ s)
    (h : execShelfClearDone m s = .next u) : Keeps s₀ u := by
  unfold execShelfClearDone at h
  injection h with h
  subst h
  repeat' first
    | with_reducible assumption
    | with_reducible apply shelfClearDone_keeps
    | split
    | intro _ _ _
    | intro _ _
    | dsimp only

theorem execScrubDue_keeps {s₀ : State} {m : Fin 64} {s : State} {u : State} (hk : Keeps s₀ s)
    (h : execScrubDue m s = .next u) : Keeps s₀ u := by
  unfold execScrubDue at h
  injection h with h
  subst h
  repeat' first
    | with_reducible assumption
    | with_reducible apply scrubDue_keeps
    | split
    | intro _ _ _
    | intro _ _
    | dsimp only

theorem execRepairRequest_keeps {s₀ : State} {m : Fin 64} {s : State} {u : State} (hk : Keeps s₀ s)
    (h : execRepairRequest m s = .next u) : Keeps s₀ u := by
  unfold execRepairRequest at h
  injection h with h
  subst h
  repeat' first
    | with_reducible assumption
    | with_reducible apply repairRequest_keeps
    | split
    | intro _ _ _
    | intro _ _
    | dsimp only

theorem execCelogRead_keeps {s₀ : State} {m : Fin 64} {s : State} {u : State} (hk : Keeps s₀ s)
    (h : execCelogRead m s = .next u) : Keeps s₀ u := by
  unfold execCelogRead at h
  injection h with h
  subst h
  repeat' first
    | with_reducible assumption
    | with_reducible apply ceRead_keeps
    | split
    | intro _ _ _
    | intro _ _
    | dsimp only

theorem execBmCfgWrite_keeps {s₀ : State} {m : Fin 64} {k : Fin 24} {v : Word} {s : State} {u : State} (hk : Keeps s₀ s)
    (h : execBmCfgWrite m k v s = .next u) : Keeps s₀ u := by
  unfold execBmCfgWrite at h
  injection h with h
  subst h
  repeat' first
    | with_reducible assumption
    | with_reducible apply bmCfgWrite_keeps
    | split
    | intro _ _ _
    | intro _ _
    | dsimp only

theorem execBmAccess_keeps {s₀ : State} {m : Fin 64} {v : Word} {s : State} {u : State} (hk : Keeps s₀ s)
    (h : execBmAccess m v s = .next u) : Keeps s₀ u := by
  unfold execBmAccess at h
  injection h with h
  subst h
  repeat' first
    | with_reducible assumption
    | with_reducible apply bmAccess_keeps
    | split
    | intro _ _ _
    | intro _ _
    | dsimp only

theorem execBmAccessDone_keeps {s₀ : State} {m : Fin 64} {s : State} {u : State} (hk : Keeps s₀ s)
    (h : execBmAccessDone m s = .next u) : Keeps s₀ u := by
  unfold execBmAccessDone at h
  injection h with h
  subst h
  repeat' first
    | with_reducible assumption
    | with_reducible apply bmAccessDone_keeps
    | split
    | intro _ _ _
    | intro _ _
    | dsimp only

theorem execHbmMapWrite_keeps {s₀ : State} {v : Word} {s : State} {u : State} (hk : Keeps s₀ s)
    (h : execHbmMapWrite v s = .next u) : Keeps s₀ u := by
  unfold execHbmMapWrite at h
  injection h with h
  subst h
  repeat' first
    | with_reducible assumption
    | with_reducible apply hbmMapWrite_keeps
    | split
    | intro _ _ _
    | intro _ _
    | dsimp only

theorem execHbmAdmit_keeps {s₀ : State} {c : Fin 32} {s : State} {u : State} (hk : Keeps s₀ s)
    (h : execHbmAdmit c s = .next u) : Keeps s₀ u := by
  unfold execHbmAdmit at h
  injection h with h
  subst h
  repeat' first
    | with_reducible assumption
    | with_reducible apply hbmAdmit_keeps
    | split
    | intro _ _ _
    | intro _ _
    | dsimp only

theorem execHbmComplete_keeps {s₀ : State} {c : Fin 32} {i : Fin 64} {od : List (Fin 3)} {s : State} {u : State} (hk : Keeps s₀ s)
    (h : execHbmComplete c i od s = .next u) : Keeps s₀ u := by
  unfold execHbmComplete at h
  injection h with h
  subst h
  repeat' first
    | with_reducible assumption
    | with_reducible apply hbmComplete_keeps
    | split
    | intro _ _ _
    | intro _ _
    | dsimp only

theorem execHbmLockedReread_keeps {s₀ : State} {r : LockedRead} {s : State} {u : State} (hk : Keeps s₀ s)
    (h : execHbmLockedReread r s = .next u) : Keeps s₀ u := by
  unfold execHbmLockedReread at h
  injection h with h
  subst h
  repeat' first
    | with_reducible assumption
    | with_reducible apply hbmReread_keeps
    | split
    | intro _ _ _
    | intro _ _
    | dsimp only

theorem execHbmSelfrefWake_keeps {s₀ : State} {c : Fin 32} {s : State} {u : State} (hk : Keeps s₀ s)
    (h : execHbmSelfrefWake c s = .next u) : Keeps s₀ u := by
  unfold execHbmSelfrefWake at h
  injection h with h
  subst h
  repeat' first
    | with_reducible assumption
    | with_reducible apply hbmSelfRefWake_keeps
    | split
    | intro _ _ _
    | intro _ _
    | dsimp only

theorem execSelfRefreshExit_keeps {s₀ : State} {stack : Fin 2} {s : State} {u : State} (hk : Keeps s₀ s)
    (h : execSelfRefreshExit stack s = .next u) : Keeps s₀ u := by
  unfold execSelfRefreshExit at h
  injection h with h
  subst h
  repeat' first
    | with_reducible assumption
    | with_reducible apply hbmSelfRefExit_keeps
    | split
    | intro _ _ _
    | intro _ _
    | dsimp only

theorem execHbmInit_keeps {s₀ : State} {c : Fin 32} {s : State} {u : State} (hk : Keeps s₀ s)
    (h : execHbmInit c s = .next u) : Keeps s₀ u := by
  unfold execHbmInit at h
  injection h with h
  subst h
  repeat' first
    | with_reducible assumption
    | with_reducible apply hbmInit_keeps
    | split
    | intro _ _ _
    | intro _ _
    | dsimp only

theorem execHbmInitDone_keeps {s₀ : State} {c : Fin 32} {s : State} {u : State} (hk : Keeps s₀ s)
    (h : execHbmInitDone c s = .next u) : Keeps s₀ u := by
  unfold execHbmInitDone at h
  injection h with h
  subst h
  repeat' first
    | with_reducible assumption
    | with_reducible apply hbmInitDone_keeps
    | split
    | intro _ _ _
    | intro _ _
    | dsimp only

theorem execHbmScrubDue_keeps {s₀ : State} {c : Fin 32} {s : State} {u : State} (hk : Keeps s₀ s)
    (h : execHbmScrubDue c s = .next u) : Keeps s₀ u := by
  unfold execHbmScrubDue at h
  injection h with h
  subst h
  repeat' first
    | with_reducible assumption
    | with_reducible apply hbmScrubDue_keeps
    | split
    | intro _ _ _
    | intro _ _
    | dsimp only

theorem execHbmTrainingDone_keeps {s₀ : State} {stack : Fin 2} {s : State} {u : State} (hk : Keeps s₀ s)
    (h : execHbmTrainingDone stack s = .next u) : Keeps s₀ u := by
  unfold execHbmTrainingDone at h
  injection h with h
  subst h
  repeat' first
    | with_reducible assumption
    | with_reducible apply hbmTrained_keeps
    | split
    | intro _ _ _
    | intro _ _
    | dsimp only

theorem execInject_keeps {s₀ : State} {n : Fin 96} {v : Fin 5} {s : State} {u : State} (hk : Keeps s₀ s)
    (h : execInject n v s = .next u) : Keeps s₀ u := by
  unfold execInject at h
  injection h with h
  subst h
  repeat' first
    | with_reducible assumption
    | with_reducible apply inject_keeps
    | split
    | intro _ _ _
    | intro _ _
    | dsimp only

theorem execFlitForward_keeps {s₀ : State} {r : Fin 96} {inp : Fin 7} {v : Fin 5} {err : BitVec 512} {chk : BitVec 36} {s : State} {u : State} (hk : Keeps s₀ s)
    (h : execFlitForward r inp v err chk s = .next u) : Keeps s₀ u := by
  unfold execFlitForward at h
  injection h with h
  subst h
  repeat' first
    | with_reducible assumption
    | with_reducible apply flitForward_keeps
    | split
    | intro _ _ _
    | intro _ _
    | dsimp only

theorem execPacketDiscard_keeps {s₀ : State} {p : Packet} {s : State} {u : State} (hk : Keeps s₀ s)
    (h : execPacketDiscard p s = .next u) : Keeps s₀ u := by
  unfold execPacketDiscard at h
  injection h with h
  subst h
  repeat' first
    | with_reducible assumption
    | with_reducible apply packetDiscard_keeps
    | split
    | intro _ _ _
    | intro _ _
    | dsimp only

theorem execLateResponse_keeps {s₀ : State} {p : Packet} {s : State} {u : State} (hk : Keeps s₀ s)
    (h : execLateResponse p s = .next u) : Keeps s₀ u := by
  unfold execLateResponse at h
  split at h <;> (injection h with h; subst h)
  all_goals repeat' first
    | with_reducible assumption
    | with_reducible apply lateResponse_keeps
    | split
    | intro _ _ _
    | intro _ _
    | dsimp only

theorem execStall_keeps {s₀ : State} {n : Fin 96} {v : Fin 5} {s : State} {u : State} (hk : Keeps s₀ s)
    (h : execStall n v s = .next u) : Keeps s₀ u := by
  unfold execStall at h
  injection h with h
  subst h
  repeat' first
    | with_reducible assumption
    | with_reducible apply stall_keeps
    | split
    | intro _ _ _
    | intro _ _
    | dsimp only

theorem execTokenAdd_keeps {s₀ : State} {n : Fin 96} {v : Fin 5} {s : State} {u : State} (hk : Keeps s₀ s)
    (h : execTokenAdd n v s = .next u) : Keeps s₀ u := by
  unfold execTokenAdd at h
  injection h with h
  subst h
  repeat' first
    | with_reducible assumption
    | with_reducible apply tokenAdd_keeps
    | split
    | intro _ _ _
    | intro _ _
    | dsimp only

theorem execRgCfgWrite_keeps {s₀ : State} {n : Fin 96} {v : Fin 5} {w : Word} {s : State} {u : State} (hk : Keeps s₀ s)
    (h : execRgCfgWrite n v w s = .next u) : Keeps s₀ u := by
  unfold execRgCfgWrite at h
  injection h with h
  subst h
  repeat' first
    | with_reducible assumption
    | with_reducible apply rgCfgWrite_keeps
    | split
    | intro _ _ _
    | intro _ _
    | dsimp only

theorem execActivation_keeps {s₀ : State} {v : Word} {s : State} {u : State} (hk : Keeps s₀ s)
    (h : execActivation v s = .next u) : Keeps s₀ u := by
  unfold execActivation at h
  injection h with h
  subst h
  repeat' first
    | with_reducible assumption
    | with_reducible apply activation_keeps
    | split
    | intro _ _ _
    | intro _ _
    | dsimp only

theorem execActivationSwap_keeps {s₀ : State} {s : State} {u : State} (hk : Keeps s₀ s)
    (h : execActivationSwap s = .next u) : Keeps s₀ u := by
  unfold execActivationSwap at h
  injection h with h
  subst h
  repeat' first
    | with_reducible assumption
    | with_reducible apply activationSwap_keeps
    | split
    | intro _ _ _
    | intro _ _
    | dsimp only

theorem execActivationAbort_keeps {s₀ : State} {s : State} {u : State} (hk : Keeps s₀ s)
    (h : execActivationAbort s = .next u) : Keeps s₀ u := by
  unfold execActivationAbort at h
  injection h with h
  subst h
  repeat' first
    | with_reducible assumption
    | with_reducible apply activationAbort_keeps
    | split
    | intro _ _ _
    | intro _ _
    | dsimp only

theorem execFiring_keeps {s₀ : State} {m : Fin 64} {t : Fin 256} {s : State} {u : State} (hk : Keeps s₀ s)
    (h : execFiring m t s = .next u) : Keeps s₀ u := by
  unfold execFiring at h
  injection h with h
  subst h
  repeat' first
    | with_reducible assumption
    | with_reducible apply firing_keeps
    | split
    | intro _ _ _
    | intro _ _
    | dsimp only

theorem execMarkerFiring_keeps {s₀ : State} {m : Fin 64} {t : Fin 256} {s : State} {u : State} (hk : Keeps s₀ s)
    (h : execMarkerFiring m t s = .next u) : Keeps s₀ u := by
  unfold execMarkerFiring at h
  injection h with h
  subst h
  repeat' first
    | with_reducible assumption
    | with_reducible apply markerFiring_keeps
    | split
    | intro _ _ _
    | intro _ _
    | dsimp only

theorem execResultWriteback_keeps {s₀ : State} {m : Fin 64} {ty tx : Fin 16} {s : State} {u : State} (hk : Keeps s₀ s)
    (h : execResultWriteback m ty tx s = .next u) : Keeps s₀ u := by
  unfold execResultWriteback at h
  injection h with h
  subst h
  repeat' first
    | with_reducible assumption
    | with_reducible apply resultWriteback_keeps
    | split
    | intro _ _ _
    | intro _ _
    | dsimp only

theorem execWordHop_keeps {s₀ : State} {m : Fin 64} {t : Fin 256} {g : Fin 28} {s : State} {u : State} (hk : Keeps s₀ s)
    (h : execWordHop m t g s = .next u) : Keeps s₀ u := by
  unfold execWordHop at h
  injection h with h
  subst h
  repeat' first
    | with_reducible assumption
    | with_reducible apply wordHop_keeps
    | split
    | intro _ _ _
    | intro _ _
    | dsimp only

theorem execColQueueDelivery_keeps {s₀ : State} {m : Fin 64} {face : Fin 4} {place : Fin 16} {track : Fin 4} {bad : Bool} {s : State} {u : State} (hk : Keeps s₀ s)
    (h : execColQueueDelivery m face place track bad s = .next u) : Keeps s₀ u := by
  unfold execColQueueDelivery at h
  injection h with h
  subst h
  repeat' first
    | with_reducible assumption
    | with_reducible apply colDelivery_keeps
    | split
    | intro _ _ _
    | intro _ _
    | dsimp only

theorem execHwclr_keeps {s₀ : State} {m : Fin 64} {face : Fin 4} {s : State} {u : State} (hk : Keeps s₀ s)
    (h : execHwclr m face s = .next u) : Keeps s₀ u := by
  unfold execHwclr at h
  injection h with h
  subst h
  repeat' first
    | with_reducible assumption
    | with_reducible apply hwClr_keeps
    | split
    | intro _ _ _
    | intro _ _
    | dsimp only

theorem execFeedDelivery_keeps {s₀ : State} {p : Fin 32} {f : Fin 8} {laneBad feedBad : Bool} {s : State} {u : State} (hk : Keeps s₀ s)
    (h : execFeedDelivery p f laneBad feedBad s = .next u) : Keeps s₀ u := by
  unfold execFeedDelivery at h
  injection h with h
  subst h
  repeat' first
    | with_reducible assumption
    | with_reducible apply feedDelivery_keeps
    | split
    | intro _ _ _
    | intro _ _
    | dsimp only

theorem execFeedCtlWrite_keeps {s₀ : State} {p : Fin 32} {v : Word} {s : State} {u : State} (hk : Keeps s₀ s)
    (h : execFeedCtlWrite p v s = .next u) : Keeps s₀ u := by
  unfold execFeedCtlWrite at h
  injection h with h
  subst h
  repeat' first
    | with_reducible assumption
    | with_reducible apply feedCtlWrite_keeps
    | split
    | intro _ _ _
    | intro _ _
    | dsimp only

theorem execFeedSelChange_keeps {s₀ : State} {p : Fin 32} {f : Fin 8} {s : State} {u : State} (hk : Keeps s₀ s)
    (h : execFeedSelChange p f s = .next u) : Keeps s₀ u := by
  unfold execFeedSelChange at h
  injection h with h
  subst h
  repeat' first
    | with_reducible assumption
    | with_reducible apply feedSelChange_keeps
    | split
    | intro _ _ _
    | intro _ _
    | dsimp only

theorem execQueueWrite_keeps {s₀ : State} {m : Fin 64} {q : Fin 32} {s : State} {u : State} (hk : Keeps s₀ s)
    (h : execQueueWrite m q s = .next u) : Keeps s₀ u := by
  unfold execQueueWrite at h
  injection h with h
  subst h
  repeat' first
    | with_reducible assumption
    | with_reducible apply queueTap_keeps
    | split
    | intro _ _ _
    | intro _ _
    | dsimp only

theorem execCairnCommit_keeps {s₀ : State} {r : QueueRef} {s : State} {u : State} (hk : Keeps s₀ s)
    (h : execCairnCommit r s = .next u) : Keeps s₀ u := by
  unfold execCairnCommit at h
  split at h <;> (injection h with h; subst h)
  all_goals repeat' first
    | with_reducible assumption
    | with_reducible apply cairnCommit_keeps
    | with_reducible apply laneCommit_keeps
    | split
    | intro _ _ _
    | intro _ _
    | dsimp only

theorem execQueueRead_keeps {s₀ : State} {m : Fin 64} {q : Fin 32} {bad : Bool} {s : State} {u : State} (hk : Keeps s₀ s)
    (h : execQueueRead m q bad s = .next u) : Keeps s₀ u := by
  unfold execQueueRead at h
  injection h with h
  subst h
  repeat' first
    | with_reducible assumption
    | with_reducible apply queueRead_keeps
    | split
    | intro _ _ _
    | intro _ _
    | dsimp only

theorem execSqCtlWrite_keeps {s₀ : State} {m : Fin 64} {q : Fin 32} {v : Word} {s : State} {u : State} (hk : Keeps s₀ s)
    (h : execSqCtlWrite m q v s = .next u) : Keeps s₀ u := by
  unfold execSqCtlWrite at h
  injection h with h
  subst h
  repeat' first
    | with_reducible assumption
    | with_reducible apply sqCtlWrite_keeps
    | split
    | intro _ _ _
    | intro _ _
    | dsimp only

theorem execSqBindWrite_keeps {s₀ : State} {m : Fin 64} {q : Fin 32} {v : Word} {s : State} {u : State} (hk : Keeps s₀ s)
    (h : execSqBindWrite m q v s = .next u) : Keeps s₀ u := by
  unfold execSqBindWrite at h
  injection h with h
  subst h
  repeat' first
    | with_reducible assumption
    | with_reducible apply sqBindWrite_keeps
    | split
    | intro _ _ _
    | intro _ _
    | dsimp only

theorem execSqQuotaWrite_keeps {s₀ : State} {m : Fin 64} {q : Fin 32} {v : Word} {s : State} {u : State} (hk : Keeps s₀ s)
    (h : execSqQuotaWrite m q v s = .next u) : Keeps s₀ u := by
  unfold execSqQuotaWrite at h
  injection h with h
  subst h
  repeat' first
    | with_reducible assumption
    | with_reducible apply sqQuotaWrite_keeps
    | split
    | intro _ _ _
    | intro _ _
    | dsimp only

theorem execQueueClear_keeps {s₀ : State} {m : Fin 64} {q : Fin 32} {v : Word} {s : State} {u : State} (hk : Keeps s₀ s)
    (h : execQueueClear m q v s = .next u) : Keeps s₀ u := by
  unfold execQueueClear at h
  injection h with h
  subst h
  repeat' first
    | with_reducible assumption
    | with_reducible apply sqCtlWrite_keeps
    | split
    | intro _ _ _
    | intro _ _
    | dsimp only

theorem execMark_keeps {s₀ : State} {m : Fin 64} {q : Fin 32} {s : State} {u : State} (hk : Keeps s₀ s)
    (h : execMark m q s = .next u) : Keeps s₀ u := by
  unfold execMark at h
  injection h with h
  subst h
  repeat' first
    | with_reducible assumption
    | with_reducible apply qMark_keeps
    | split
    | intro _ _ _
    | intro _ _
    | dsimp only

theorem execRewind_keeps {s₀ : State} {m : Fin 64} {q : Fin 32} {s : State} {u : State} (hk : Keeps s₀ s)
    (h : execRewind m q s = .next u) : Keeps s₀ u := by
  unfold execRewind at h
  injection h with h
  subst h
  repeat' first
    | with_reducible assumption
    | with_reducible apply qRewind_keeps
    | split
    | intro _ _ _
    | intro _ _
    | dsimp only

theorem execReleaseRead_keeps {s₀ : State} {m : Fin 64} {q : Fin 32} {s : State} {u : State} (hk : Keeps s₀ s)
    (h : execReleaseRead m q s = .next u) : Keeps s₀ u := by
  unfold execReleaseRead at h
  injection h with h
  subst h
  repeat' first
    | with_reducible assumption
    | with_reducible apply qReleaseRead_keeps
    | split
    | intro _ _ _
    | intro _ _
    | dsimp only

theorem execReleaseMark_keeps {s₀ : State} {m : Fin 64} {q : Fin 32} {s : State} {u : State} (hk : Keeps s₀ s)
    (h : execReleaseMark m q s = .next u) : Keeps s₀ u := by
  unfold execReleaseMark at h
  injection h with h
  subst h
  repeat' first
    | with_reducible assumption
    | with_reducible apply qReleaseMark_keeps
    | split
    | intro _ _ _
    | intro _ _
    | dsimp only

theorem execReleasePkt_keeps {s₀ : State} {m : Fin 64} {q : Fin 32} {s : State} {u : State} (hk : Keeps s₀ s)
    (h : execReleasePkt m q s = .next u) : Keeps s₀ u := by
  unfold execReleasePkt at h
  injection h with h
  subst h
  repeat' first
    | with_reducible assumption
    | with_reducible apply qReleasePkt_keeps
    | split
    | intro _ _ _
    | intro _ _
    | dsimp only

theorem execTailTimeout_keeps {s₀ : State} {r : QueueRef} {s : State} {u : State} (hk : Keeps s₀ s)
    (h : execTailTimeout r s = .next u) : Keeps s₀ u := by
  unfold execTailTimeout at h
  split at h <;> (injection h with h; subst h)
  all_goals repeat' first
    | with_reducible assumption
    | with_reducible apply laneTimeout_keeps
    | with_reducible apply tailTimeout_keeps
    | split
    | intro _ _ _
    | intro _ _
    | dsimp only

theorem execForceEnd_keeps {s₀ : State} {r : QueueRef} {s : State} {u : State} (hk : Keeps s₀ s)
    (h : execForceEnd r s = .next u) : Keeps s₀ u := by
  unfold execForceEnd at h
  split at h <;> (injection h with h; subst h)
  all_goals repeat' first
    | with_reducible assumption
    | with_reducible apply forceEnd_keeps
    | with_reducible apply laneForce_keeps
    | with_reducible apply laneRefresh_keeps
    | split
    | intro _ _ _
    | intro _ _
    | dsimp only

theorem execPut_keeps {s₀ : State} {m : Fin 64} {q : Fin 32} {v : Word} {s : State} {u : State} (hk : Keeps s₀ s)
    (h : execPut m q v s = .next u) : Keeps s₀ u := by
  unfold execPut at h
  injection h with h
  subst h
  repeat' first
    | with_reducible assumption
    | with_reducible apply queuePut_keeps
    | split
    | intro _ _ _
    | intro _ _
    | dsimp only

theorem execGet_keeps {s₀ : State} {m : Fin 64} {q : Fin 32} {bad : Bool} {s : State} {u : State} (hk : Keeps s₀ s)
    (h : execGet m q bad s = .next u) : Keeps s₀ u := by
  unfold execGet at h
  injection h with h
  subst h
  repeat' first
    | with_reducible assumption
    | with_reducible apply queueGet_keeps_snd
    | split
    | intro _ _ _
    | intro _ _
    | dsimp only

theorem execStreamSend_keeps {s₀ : State} {m : Fin 64} {q : Fin 32} {bad : List (Fin 128)} {s : State} {u : State} (hk : Keeps s₀ s)
    (h : execStreamSend m q bad s = .next u) : Keeps s₀ u := by
  unfold execStreamSend at h
  injection h with h
  subst h
  repeat' first
    | with_reducible assumption
    | with_reducible apply streamSend_keeps
    | split
    | intro _ _ _
    | intro _ _
    | dsimp only

theorem execLaneQueueWrite_keeps {s₀ : State} {l : Fin 256} {w : SWord} {s : State} {u : State} (hk : Keeps s₀ s)
    (h : execLaneQueueWrite l w s = .next u) : Keeps s₀ u := by
  unfold execLaneQueueWrite at h
  injection h with h
  subst h
  repeat' first
    | with_reducible assumption
    | with_reducible apply laneWrite_keeps
    | split
    | intro _ _ _
    | intro _ _
    | dsimp only

theorem execScrubWriteback_keeps {s₀ : State} {m : Fin 64} {s : State} {u : State} (hk : Keeps s₀ s)
    (h : execScrubWriteback m s = .next u) : Keeps s₀ u := by
  unfold execScrubWriteback at h
  injection h with h
  subst h
  repeat' first
    | with_reducible assumption
    | with_reducible apply scrubWriteback_keeps
    | split
    | intro _ _ _
    | intro _ _
    | dsimp only

theorem execShelfPortRequest_keeps {s₀ : State} {m : Fin 64} {p : Fin 4} {s : State} {u : State} (hk : Keeps s₀ s)
    (h : execShelfPortRequest m p s = .next u) : Keeps s₀ u := by
  unfold execShelfPortRequest at h
  injection h with h
  subst h
  repeat' first
    | with_reducible assumption
    | with_reducible apply shelfPortRequest_keeps
    | split
    | intro _ _ _
    | intro _ _
    | dsimp only

theorem execShelfPortWrite_keeps {s₀ : State} {m : Fin 64} {p : Fin 4} {s : State} {u : State} (hk : Keeps s₀ s)
    (h : execShelfPortWrite m p s = .next u) : Keeps s₀ u := by
  unfold execShelfPortWrite at h
  injection h with h
  subst h
  repeat' first
    | with_reducible assumption
    | with_reducible apply shelfPortWrite_keeps
    | split
    | intro _ _ _
    | intro _ _
    | dsimp only

theorem execShelfPortResponse_keeps {s₀ : State} {m : Fin 64} {p : Fin 4} {s : State} {u : State} (hk : Keeps s₀ s)
    (h : execShelfPortResponse m p s = .next u) : Keeps s₀ u := by
  unfold execShelfPortResponse at h
  injection h with h
  subst h
  repeat' first
    | with_reducible assumption
    | with_reducible apply shelfPortResponse_keeps
    | split
    | intro _ _ _
    | intro _ _
    | dsimp only

theorem execShelfPortConfigWrite_keeps {s₀ : State} {m : Fin 64} {p : Fin 4} {reg : Fin 5} {v : Word} {s : State} {u : State} (hk : Keeps s₀ s)
    (h : execShelfPortConfigWrite m p reg v s = .next u) : Keeps s₀ u := by
  unfold execShelfPortConfigWrite at h
  injection h with h
  subst h
  repeat' first
    | with_reducible assumption
    | with_reducible apply shpWrite_keeps
    | split
    | intro _ _ _
    | intro _ _
    | dsimp only

theorem execSlotParityError_keeps {s₀ : State} {m : Fin 64} {t : Fin 256} {flip : Option (Fin 320)} {s : State} {u : State} (hk : Keeps s₀ s)
    (h : execSlotParityError m t flip s = .next u) : Keeps s₀ u := by
  unfold execSlotParityError at h
  injection h with h
  subst h
  repeat' first
    | with_reducible assumption
    | with_reducible apply slotParityError_keeps
    | split
    | intro _ _ _
    | intro _ _
    | dsimp only

theorem execLoad_keeps {s₀ : State} {m : Fin 64} {v : Word} {s : State} {u : State} (hk : Keeps s₀ s)
    (h : execLoad m v s = .next u) : Keeps s₀ u := by
  unfold execLoad at h
  injection h with h
  subst h
  repeat' first
    | with_reducible assumption
    | with_reducible apply ldCtlWrite_keeps
    | split
    | intro _ _ _
    | intro _ _
    | dsimp only

theorem execLoadDone_keeps {s₀ : State} {m : Fin 64} {slot : Fin 16} {s : State} {u : State} (hk : Keeps s₀ s)
    (h : execLoadDone m slot s = .next u) : Keeps s₀ u := by
  unfold execLoadDone at h
  injection h with h
  subst h
  repeat' first
    | with_reducible assumption
    | with_reducible apply loadDone_keeps
    | split
    | intro _ _ _
    | intro _ _
    | dsimp only

theorem execShelfGrant_keeps {s₀ : State} {m : Fin 64} {bank : Fin 16} {s : State} {u : State} (hk : Keeps s₀ s)
    (h : execShelfGrant m bank s = .next u) : Keeps s₀ u := by
  unfold execShelfGrant at h
  injection h with h
  subst h
  repeat' first
    | with_reducible assumption
    | with_reducible apply shelfCycle_keeps
    | split
    | intro _ _ _
    | intro _ _
    | dsimp only

theorem execVerify_keeps {s₀ : State} {m : Fin 64} {v : Word} {s : State} {u : State} (hk : Keeps s₀ s)
    (h : execVerify m v s = .next u) : Keeps s₀ u := by
  unfold execVerify at h
  injection h with h
  subst h
  repeat' first
    | with_reducible assumption
    | with_reducible apply ldCtlWrite_keeps
    | split
    | intro _ _ _
    | intro _ _
    | dsimp only

theorem execVerifyDone_keeps {s₀ : State} {m : Fin 64} {s : State} {u : State} (hk : Keeps s₀ s)
    (h : execVerifyDone m s = .next u) : Keeps s₀ u := by
  unfold execVerifyDone at h
  injection h with h
  subst h
  repeat' first
    | with_reducible assumption
    | with_reducible apply verifyDone_keeps
    | split
    | intro _ _ _
    | intro _ _
    | dsimp only

theorem execCountTrigger_keeps {s₀ : State} {m : Fin 64} {s : State} {u : State} (hk : Keeps s₀ s)
    (h : execCountTrigger m s = .next u) : Keeps s₀ u := by
  unfold execCountTrigger at h
  injection h with h
  subst h
  repeat' first
    | with_reducible assumption
    | with_reducible apply countTrigger_keeps
    | split
    | intro _ _ _
    | intro _ _
    | dsimp only

theorem execQueueTrigger_keeps {s₀ : State} {m : Fin 64} {s : State} {u : State} (hk : Keeps s₀ s)
    (h : execQueueTrigger m s = .next u) : Keeps s₀ u := by
  unfold execQueueTrigger at h
  injection h with h
  subst h
  repeat' first
    | with_reducible assumption
    | with_reducible apply queueTrigger_keeps
    | split
    | intro _ _ _
    | intro _ _
    | dsimp only

theorem execFlagTrigger_keeps {s₀ : State} {m : Fin 64} {s : State} {u : State} (hk : Keeps s₀ s)
    (h : execFlagTrigger m s = .next u) : Keeps s₀ u := by
  unfold execFlagTrigger at h
  injection h with h
  subst h
  repeat' first
    | with_reducible assumption
    | with_reducible apply flagTrigger_keeps
    | split
    | intro _ _ _
    | intro _ _
    | dsimp only

theorem execGo_keeps {s₀ : State} {m : Fin 64} {s : State} {u : State} (hk : Keeps s₀ s)
    (h : execGo m s = .next u) : Keeps s₀ u := by
  unfold execGo at h
  injection h with h
  subst h
  repeat' first
    | with_reducible assumption
    | with_reducible apply seqGo_keeps
    | split
    | intro _ _ _
    | intro _ _
    | dsimp only

theorem execCleanSwitchHold_keeps {s₀ : State} {m : Fin 64} {s : State} {u : State} (hk : Keeps s₀ s)
    (h : execCleanSwitchHold m s = .next u) : Keeps s₀ u := by
  unfold execCleanSwitchHold at h
  injection h with h
  subst h
  repeat' first
    | with_reducible assumption
    | with_reducible apply cleanHold_keeps
    | split
    | intro _ _ _
    | intro _ _
    | dsimp only

theorem execBoundaryTimeout_keeps {s₀ : State} {m : Fin 64} {s : State} {u : State} (hk : Keeps s₀ s)
    (h : execBoundaryTimeout m s = .next u) : Keeps s₀ u := by
  unfold execBoundaryTimeout at h
  injection h with h
  subst h
  repeat' first
    | with_reducible assumption
    | with_reducible apply boundaryTimeout_keeps
    | split
    | intro _ _ _
    | intro _ _
    | dsimp only

theorem execSwitchEdge_keeps {s₀ : State} {m : Fin 64} {last : List (Fin 256)} {s : State} {u : State} (hk : Keeps s₀ s)
    (h : execSwitchEdge m last s = .next u) : Keeps s₀ u := by
  unfold execSwitchEdge at h
  injection h with h
  subst h
  repeat' first
    | with_reducible assumption
    | with_reducible apply switchEdge_keeps
    | split
    | intro _ _ _
    | intro _ _
    | dsimp only

theorem execSeqRun_keeps {s₀ : State} {m : Fin 64} {v : Word} {s : State} {u : State} (hk : Keeps s₀ s)
    (h : execSeqRun m v s = .next u) : Keeps s₀ u := by
  unfold execSeqRun at h
  injection h with h
  subst h
  repeat' first
    | with_reducible assumption
    | with_reducible apply seqCtlWrite_keeps
    | split
    | intro _ _ _
    | intro _ _
    | dsimp only

theorem execSeqHalt_keeps {s₀ : State} {m : Fin 64} {v : Word} {s : State} {u : State} (hk : Keeps s₀ s)
    (h : execSeqHalt m v s = .next u) : Keeps s₀ u := by
  unfold execSeqHalt at h
  injection h with h
  subst h
  repeat' first
    | with_reducible assumption
    | with_reducible apply seqCtlWrite_keeps
    | split
    | intro _ _ _
    | intro _ _
    | dsimp only

theorem execForce_keeps {s₀ : State} {m : Fin 64} {slot : Fin 16} {clean : Bool} {s : State} {u : State} (hk : Keeps s₀ s)
    (h : execForce m slot clean s = .next u) : Keeps s₀ u := by
  unfold execForce at h
  injection h with h
  subst h
  repeat' first
    | with_reducible assumption
    | with_reducible apply seqForce_keeps
    | split
    | intro _ _ _
    | intro _ _
    | dsimp only

theorem execReportForm_keeps {s₀ : State} {m : Fin 64} {bad : List (Fin 18)} {s : State} {u : State} (hk : Keeps s₀ s)
    (h : execReportForm m bad s = .next u) : Keeps s₀ u := by
  unfold execReportForm at h
  injection h with h
  subst h
  repeat' first
    | with_reducible assumption
    | with_reducible apply reportForm_keeps
    | split
    | intro _ _ _
    | intro _ _
    | dsimp only

theorem execCollectorSelect_keeps {s₀ : State} {bad : List (Fin 20)} {s : State} {u : State} (hk : Keeps s₀ s)
    (h : execCollectorSelect bad s = .next u) : Keeps s₀ u := by
  unfold execCollectorSelect at h
  injection h with h
  subst h
  repeat' first
    | with_reducible assumption
    | with_reducible apply colSelect_keeps
    | split
    | intro _ _ _
    | intro _ _
    | dsimp only

theorem execIrqMsg_keeps {s₀ : State} {c : Fin 68} {line : Fin 32} {s : State} {u : State} (hk : Keeps s₀ s)
    (h : execIrqMsg c line s = .next u) : Keeps s₀ u := by
  unfold execIrqMsg at h
  injection h with h
  subst h
  repeat' first
    | with_reducible assumption
    | with_reducible apply irqMessage_keeps
    | split
    | intro _ _ _
    | intro _ _
    | dsimp only

theorem execCallerRun_keeps {s₀ : State} {m : Fin 64} {s : State} {u : State} (hk : Keeps s₀ s)
    (h : execCallerRun m s = .next u) : Keeps s₀ u := by
  unfold execCallerRun at h
  injection h with h
  subst h
  repeat' first
    | with_reducible assumption
    | with_reducible apply callerRun_keeps
    | split
    | intro _ _ _
    | intro _ _
    | dsimp only

theorem execCallerHaltreq_keeps {s₀ : State} {m : Fin 64} {s : State} {u : State} (hk : Keeps s₀ s)
    (h : execCallerHaltreq m s = .next u) : Keeps s₀ u := by
  unfold execCallerHaltreq at h
  injection h with h
  subst h
  repeat' first
    | with_reducible assumption
    | with_reducible apply haltRequest_keeps
    | split
    | intro _ _ _
    | intro _ _
    | dsimp only

theorem execCallerResume_keeps {s₀ : State} {m : Fin 64} {s : State} {u : State} (hk : Keeps s₀ s)
    (h : execCallerResume m s = .next u) : Keeps s₀ u := by
  unfold execCallerResume at h
  injection h with h
  subst h
  repeat' first
    | with_reducible assumption
    | with_reducible apply coreResume_keeps
    | split
    | intro _ _ _
    | intro _ _
    | dsimp only

theorem execLeadHaltreq_keeps {s₀ : State} {i : Fin 4} {s : State} {u : State} (hk : Keeps s₀ s)
    (h : execLeadHaltreq i s = .next u) : Keeps s₀ u := by
  unfold execLeadHaltreq at h
  injection h with h
  subst h
  repeat' first
    | with_reducible assumption
    | with_reducible apply haltRequest_keeps
    | split
    | intro _ _ _
    | intro _ _
    | dsimp only

theorem execLeadResume_keeps {s₀ : State} {i : Fin 4} {s : State} {u : State} (hk : Keeps s₀ s)
    (h : execLeadResume i s = .next u) : Keeps s₀ u := by
  unfold execLeadResume at h
  injection h with h
  subst h
  repeat' first
    | with_reducible assumption
    | with_reducible apply coreResume_keeps
    | split
    | intro _ _ _
    | intro _ _
    | dsimp only

theorem execLeadRestart_keeps {s₀ : State} {i : Fin 4} {s : State} {u : State} (hk : Keeps s₀ s)
    (h : execLeadRestart i s = .next u) : Keeps s₀ u := by
  unfold execLeadRestart at h
  injection h with h
  subst h
  repeat' first
    | with_reducible assumption
    | with_reducible apply leadRestart_keeps
    | split
    | intro _ _ _
    | intro _ _
    | dsimp only

theorem execDbgDataWrite_keeps {s₀ : State} {c : Fin 68} {v : Word} {s : State} {u : State} (hk : Keeps s₀ s)
    (h : execDbgDataWrite c v s = .next u) : Keeps s₀ u := by
  unfold execDbgDataWrite at h
  injection h with h
  subst h
  repeat' first
    | with_reducible assumption
    | with_reducible apply dbgWrite_keeps
    | split
    | intro _ _ _
    | intro _ _
    | dsimp only

theorem execTileWindowWrite_keeps {s₀ : State} {m : Fin 64} {v : Word} {lost : Bool} {s : State} {u : State} (hk : Keeps s₀ s)
    (h : execTileWindowWrite m v lost s = .next u) : Keeps s₀ u := by
  unfold execTileWindowWrite at h
  injection h with h
  subst h
  repeat' first
    | with_reducible assumption
    | with_reducible apply tdbgWrite_keeps
    | split
    | intro _ _ _
    | intro _ _
    | dsimp only

theorem execSummitSend_keeps {s₀ : State} {c : Fin 68} {s : State} {u : State} (hk : Keeps s₀ s)
    (h : execSummitSend c s = .next u) : Keeps s₀ u := by
  unfold execSummitSend at h
  injection h with h
  subst h
  repeat' first
    | with_reducible assumption
    | with_reducible apply summitSend_keeps
    | split
    | intro _ _ _
    | intro _ _
    | dsimp only

theorem execGate_keeps {s₀ : State} {m : Fin 64} {gate : Bool} {s : State} {u : State} (hk : Keeps s₀ s)
    (h : execGate m gate s = .next u) : Keeps s₀ u := by
  unfold execGate at h
  injection h with h
  subst h
  repeat' first
    | with_reducible assumption
    | with_reducible apply gateWrite_keeps
    | split
    | intro _ _ _
    | intro _ _
    | dsimp only

theorem execGateClose_keeps {s₀ : State} {m : Fin 64} {s : State} {u : State} (hk : Keeps s₀ s)
    (h : execGateClose m s = .next u) : Keeps s₀ u := by
  unfold execGateClose at h
  injection h with h
  subst h
  repeat' first
    | with_reducible assumption
    | with_reducible apply gateClose_keeps
    | split
    | intro _ _ _
    | intro _ _
    | dsimp only

theorem execGated_keeps {s₀ : State} {m : Fin 64} {s : State} {u : State} (hk : Keeps s₀ s)
    (h : execGated m s = .next u) : Keeps s₀ u := by
  unfold execGated at h
  injection h with h
  subst h
  repeat' first
    | with_reducible assumption
    | with_reducible apply gated_keeps
    | split
    | intro _ _ _
    | intro _ _
    | dsimp only

theorem execWake_keeps {s₀ : State} {m : Fin 64} {s : State} {u : State} (hk : Keeps s₀ s)
    (h : execWake m s = .next u) : Keeps s₀ u := by
  unfold execWake at h
  injection h with h
  subst h
  repeat' first
    | with_reducible assumption
    | with_reducible apply wakeStart_keeps
    | split
    | intro _ _ _
    | intro _ _
    | dsimp only

theorem execWakeReloadDone_keeps {s₀ : State} {m : Fin 64} {s : State} {u : State} (hk : Keeps s₀ s)
    (h : execWakeReloadDone m s = .next u) : Keeps s₀ u := by
  unfold execWakeReloadDone at h
  injection h with h
  subst h
  repeat' first
    | with_reducible assumption
    | with_reducible apply wakeReload_keeps
    | split
    | intro _ _ _
    | intro _ _
    | dsimp only

theorem execWakeActive_keeps {s₀ : State} {m : Fin 64} {s : State} {u : State} (hk : Keeps s₀ s)
    (h : execWakeActive m s = .next u) : Keeps s₀ u := by
  unfold execWakeActive at h
  injection h with h
  subst h
  repeat' first
    | with_reducible assumption
    | with_reducible apply wakeActive_keeps
    | split
    | intro _ _ _
    | intro _ _
    | dsimp only

theorem execCallerWakeCopy_keeps {s₀ : State} {m : Fin 64} {s : State} {u : State} (hk : Keeps s₀ s)
    (h : execCallerWakeCopy m s = .next u) : Keeps s₀ u := by
  unfold execCallerWakeCopy at h
  injection h with h
  subst h
  repeat' first
    | with_reducible assumption
    | with_reducible apply callerWakeCopy_keeps
    | split
    | intro _ _ _
    | intro _ _
    | dsimp only

theorem execMclkWrite_keeps {s₀ : State} {m : Fin 64} {v : Word} {s : State} {u : State} (hk : Keeps s₀ s)
    (h : execMclkWrite m v s = .next u) : Keeps s₀ u := by
  unfold execMclkWrite at h
  injection h with h
  subst h
  repeat' first
    | with_reducible assumption
    | with_reducible apply mclkWrite_keeps
    | split
    | intro _ _ _
    | intro _ _
    | dsimp only

theorem execClockSwitchDone_keeps {s₀ : State} {m : Fin 64} {s : State} {u : State} (hk : Keeps s₀ s)
    (h : execClockSwitchDone m s = .next u) : Keeps s₀ u := by
  unfold execClockSwitchDone at h
  injection h with h
  subst h
  repeat' first
    | with_reducible assumption
    | with_reducible apply clockSwitchDone_keeps
    | split
    | intro _ _ _
    | intro _ _
    | dsimp only

theorem execFpllWrite_keeps {s₀ : State} {k : Fin 4} {v : Word} {s : State} {u : State} (hk : Keeps s₀ s)
    (h : execFpllWrite k v s = .next u) : Keeps s₀ u := by
  unfold execFpllWrite at h
  injection h with h
  subst h
  repeat' first
    | with_reducible assumption
    | with_reducible apply fpllWrite_keeps
    | split
    | intro _ _ _
    | intro _ _
    | dsimp only

theorem execPllLock_keeps {s₀ : State} {k : Fin 4} {s : State} {u : State} (hk : Keeps s₀ s)
    (h : execPllLock k s = .next u) : Keeps s₀ u := by
  unfold execPllLock at h
  injection h with h
  subst h
  repeat' first
    | with_reducible assumption
    | with_reducible apply pllLock_keeps
    | split
    | intro _ _ _
    | intro _ _
    | dsimp only

theorem execPllLockLoss_keeps {s₀ : State} {k : Fin 4} {s : State} {u : State} (hk : Keeps s₀ s)
    (h : execPllLockLoss k s = .next u) : Keeps s₀ u := by
  unfold execPllLockLoss at h
  injection h with h
  subst h
  repeat' first
    | with_reducible assumption
    | with_reducible apply pllLockLoss_keeps
    | split
    | intro _ _ _
    | intro _ _
    | dsimp only

theorem execWarningStart_keeps {s₀ : State} {a b : BitVec 10} {s : State} {u : State} (hk : Keeps s₀ s)
    (h : execWarningStart a b s = .next u) : Keeps s₀ u := by
  unfold execWarningStart at h
  injection h with h
  subst h
  repeat' first
    | with_reducible assumption
    | with_reducible apply warningStart_keeps
    | split
    | intro _ _ _
    | intro _ _
    | dsimp only

theorem execWarningEnd_keeps {s₀ : State} {low mv : BitVec 10} {s : State} {u : State} (hk : Keeps s₀ s)
    (h : execWarningEnd low mv s = .next u) : Keeps s₀ u := by
  unfold execWarningEnd at h
  injection h with h
  subst h
  repeat' first
    | with_reducible assumption
    | with_reducible apply warningEnd_keeps
    | split
    | intro _ _ _
    | intro _ _
    | dsimp only

theorem execPairEnable_keeps {s₀ : State} {v : Word} {s : State} {u : State} (hk : Keeps s₀ s)
    (h : execPairEnable v s = .next u) : Keeps s₀ u := by
  unfold execPairEnable at h
  injection h with h
  subst h
  repeat' first
    | with_reducible assumption
    | with_reducible apply pairCfgWrite_keeps
    | split
    | intro _ _ _
    | intro _ _
    | dsimp only

theorem execHelloSend_keeps {s₀ : State} {s : State} {u : State} (hk : Keeps s₀ s)
    (h : execHelloSend s = .next u) : Keeps s₀ u := by
  unfold execHelloSend at h
  injection h with h
  subst h
  repeat' first
    | with_reducible assumption
    | with_reducible apply helloSend_keeps
    | split
    | intro _ _ _
    | intro _ _
    | dsimp only

theorem execHello_keeps {s₀ : State} {pairId : BitVec 10} {tmpId : BitVec 14} {st : Fin 6} {pref : Bool} {digest : BitVec 384} {epoch : Word} {s : State} {u : State} (hk : Keeps s₀ s)
    (h : execHello pairId tmpId st pref digest epoch s = .next u) : Keeps s₀ u := by
  unfold execHello at h
  injection h with h
  subst h
  repeat' first
    | with_reducible assumption
    | with_reducible apply helloRecv_keeps
    | split
    | intro _ _ _
    | intro _ _
    | dsimp only

theorem execHelloTimeout_keeps {s₀ : State} {arbHigh : Bool} {s : State} {u : State} (hk : Keeps s₀ s)
    (h : execHelloTimeout arbHigh s = .next u) : Keeps s₀ u := by
  unfold execHelloTimeout at h
  injection h with h
  subst h
  repeat' first
    | with_reducible assumption
    | with_reducible apply helloTimeout_keeps
    | split
    | intro _ _ _
    | intro _ _
    | dsimp only

theorem execHeartbeatSend_keeps {s₀ : State} {s : State} {u : State} (hk : Keeps s₀ s)
    (h : execHeartbeatSend s = .next u) : Keeps s₀ u := by
  unfold execHeartbeatSend at h
  injection h with h
  subst h
  repeat' first
    | with_reducible assumption
    | with_reducible apply heartbeatSend_keeps
    | split
    | intro _ _ _
    | intro _ _
    | dsimp only

theorem execHeartbeat_keeps {s₀ : State} {st : Fin 6} {ready : Bool} {s : State} {u : State} (hk : Keeps s₀ s)
    (h : execHeartbeat st ready s = .next u) : Keeps s₀ u := by
  unfold execHeartbeat at h
  injection h with h
  subst h
  repeat' first
    | with_reducible assumption
    | with_reducible apply heartbeatRecv_keeps
    | split
    | intro _ _ _
    | intro _ _
    | dsimp only

theorem execHeartbeatLoss_keeps {s₀ : State} {arbHigh : Bool} {s : State} {u : State} (hk : Keeps s₀ s)
    (h : execHeartbeatLoss arbHigh s = .next u) : Keeps s₀ u := by
  unfold execHeartbeatLoss at h
  injection h with h
  subst h
  repeat' first
    | with_reducible assumption
    | with_reducible apply heartbeatLoss_keeps
    | split
    | intro _ _ _
    | intro _ _
    | dsimp only

theorem execArbTimeout_keeps {s₀ : State} {s : State} {u : State} (hk : Keeps s₀ s)
    (h : execArbTimeout s = .next u) : Keeps s₀ u := by
  unfold execArbTimeout at h
  injection h with h
  subst h
  repeat' first
    | with_reducible assumption
    | with_reducible apply arbTimeout_keeps
    | split
    | intro _ _ _
    | intro _ _
    | dsimp only

theorem execPairClaim_keeps {s₀ : State} {p : Fin 4} {origin : BitVec 14} {arg : Dword} {s : State} {u : State} (hk : Keeps s₀ s)
    (h : execPairClaim p origin arg s = .next u) : Keeps s₀ u := by
  unfold execPairClaim at h
  injection h with h
  subst h
  repeat' first
    | with_reducible assumption
    | with_reducible apply claimRecv_keeps
    | split
    | intro _ _ _
    | intro _ _
    | dsimp only

theorem execPairGrant_keeps {s₀ : State} {p : Fin 4} {origin : BitVec 14} {arg : Dword} {s : State} {u : State} (hk : Keeps s₀ s)
    (h : execPairGrant p origin arg s = .next u) : Keeps s₀ u := by
  unfold execPairGrant at h
  injection h with h
  subst h
  repeat' first
    | with_reducible assumption
    | with_reducible apply grantRecv_keeps
    | split
    | intro _ _ _
    | intro _ _
    | dsimp only

theorem execMwr_keeps {s₀ : State} {m : Fin 64} {w : BitVec 18} {words : List (Word × Bool)} {epoch : Word} {s : State} {u : State} (hk : Keeps s₀ s)
    (h : execMwr m w words epoch s = .next u) : Keeps s₀ u := by
  unfold execMwr at h
  injection h with h
  subst h
  repeat' first
    | with_reducible assumption
    | with_reducible apply mwrRecv_keeps
    | split
    | intro _ _ _
    | intro _ _
    | dsimp only

theorem execEpochEnd_keeps {s₀ : State} {e : EpochEnd} {s : State} {u : State} (hk : Keeps s₀ s)
    (h : execEpochEnd e s = .next u) : Keeps s₀ u := by
  unfold execEpochEnd at h
  injection h with h
  subst h
  repeat' first
    | with_reducible assumption
    | with_reducible apply epochEndRecv_keeps
    | split
    | intro _ _ _
    | intro _ _
    | dsimp only

theorem execCommit_keeps {s₀ : State} {s : State} {u : State} (hk : Keeps s₀ s)
    (h : execCommit s = .next u) : Keeps s₀ u := by
  unfold execCommit at h
  injection h with h
  subst h
  repeat' first
    | with_reducible assumption
    | with_reducible apply commit_keeps
    | split
    | intro _ _ _
    | intro _ _
    | dsimp only

theorem execDigestClose_keeps {s₀ : State} {line : Word} {s : State} {u : State} (hk : Keeps s₀ s)
    (h : execDigestClose line s = .next u) : Keeps s₀ u := by
  unfold execDigestClose at h
  injection h with h
  subst h
  repeat' first
    | with_reducible assumption
    | with_reducible apply digestClose_keeps
    | split
    | intro _ _ _
    | intro _ _
    | dsimp only

theorem execTakeoverBeat_keeps {s₀ : State} {s : State} {u : State} (hk : Keeps s₀ s)
    (h : execTakeoverBeat s = .next u) : Keeps s₀ u := by
  unfold execTakeoverBeat at h
  injection h with h
  subst h
  repeat' first
    | with_reducible assumption
    | with_reducible apply takeoverBeat_keeps
    | split
    | intro _ _ _
    | intro _ _
    | dsimp only

theorem execSwap_keeps {s₀ : State} {received : Bool} {s : State} {u : State} (hk : Keeps s₀ s)
    (h : execSwap received s = .next u) : Keeps s₀ u := by
  unfold execSwap at h
  injection h with h
  subst h
  repeat' first
    | with_reducible assumption
    | with_reducible apply swap_keeps
    | split
    | intro _ _ _
    | intro _ _
    | dsimp only

theorem execTakeover_keeps {s₀ : State} {s : State} {u : State} (hk : Keeps s₀ s)
    (h : execTakeover s = .next u) : Keeps s₀ u := by
  unfold execTakeover at h
  injection h with h
  subst h
  repeat' first
    | with_reducible assumption
    | with_reducible apply takeover_keeps
    | split
    | intro _ _ _
    | intro _ _
    | dsimp only

theorem execStepdown_keeps {s₀ : State} {s : State} {u : State} (hk : Keeps s₀ s)
    (h : execStepdown s = .next u) : Keeps s₀ u := by
  unfold execStepdown at h
  injection h with h
  subst h
  repeat' first
    | with_reducible assumption
    | with_reducible apply stepdown_keeps
    | split
    | intro _ _ _
    | intro _ _
    | dsimp only

theorem execResync_keeps {s₀ : State} {s : State} {u : State} (hk : Keeps s₀ s)
    (h : execResync s = .next u) : Keeps s₀ u := by
  unfold execResync at h
  injection h with h
  subst h
  repeat' first
    | with_reducible assumption
    | with_reducible apply resync_keeps
    | split
    | intro _ _ _
    | intro _ _
    | dsimp only

theorem execStepdownRecord_keeps {s₀ : State} {s : State} {u : State} (hk : Keeps s₀ s)
    (h : execStepdownRecord s = .next u) : Keeps s₀ u := by
  unfold execStepdownRecord at h
  injection h with h
  subst h
  repeat' first
    | with_reducible assumption
    | with_reducible apply stepdown_keeps
    | split
    | intro _ _ _
    | intro _ _
    | dsimp only

theorem execResyncReq_keeps {s₀ : State} {s : State} {u : State} (hk : Keeps s₀ s)
    (h : execResyncReq s = .next u) : Keeps s₀ u := by
  unfold execResyncReq at h
  injection h with h
  subst h
  repeat' first
    | with_reducible assumption
    | with_reducible apply resyncReqRecv_keeps
    | split
    | intro _ _ _
    | intro _ _
    | dsimp only

theorem execResyncDone_keeps {s₀ : State} {s : State} {u : State} (hk : Keeps s₀ s)
    (h : execResyncDone s = .next u) : Keeps s₀ u := by
  unfold execResyncDone at h
  injection h with h
  subst h
  repeat' first
    | with_reducible assumption
    | with_reducible apply resyncDoneRecv_keeps
    | split
    | intro _ _ _
    | intro _ _
    | dsimp only

theorem execCkptPost_keeps {s₀ : State} {k : Fin 68} {s : State} {u : State} (hk : Keeps s₀ s)
    (h : execCkptPost k s = .next u) : Keeps s₀ u := by
  unfold execCkptPost at h
  injection h with h
  subst h
  repeat' first
    | with_reducible assumption
    | with_reducible apply ckptPost_keeps
    | split
    | intro _ _ _
    | intro _ _
    | dsimp only

theorem execCkptDone_keeps {s₀ : State} {k : Fin 68} {s : State} {u : State} (hk : Keeps s₀ s)
    (h : execCkptDone k s = .next u) : Keeps s₀ u := by
  unfold execCkptDone at h
  injection h with h
  subst h
  repeat' first
    | with_reducible assumption
    | with_reducible apply ckptDone_keeps
    | split
    | intro _ _ _
    | intro _ _
    | dsimp only

theorem execPairLinkDown_keeps {s₀ : State} {s : State} {u : State} (hk : Keeps s₀ s)
    (h : execPairLinkDown s = .next u) : Keeps s₀ u := by
  unfold execPairLinkDown at h
  injection h with h
  subst h
  repeat' first
    | with_reducible assumption
    | with_reducible apply pairLinkDown_keeps
    | split
    | intro _ _ _
    | intro _ _
    | dsimp only

theorem execPairLinkUp_keeps {s₀ : State} {s : State} {u : State} (hk : Keeps s₀ s)
    (h : execPairLinkUp s = .next u) : Keeps s₀ u := by
  unfold execPairLinkUp at h
  injection h with h
  subst h
  repeat' first
    | with_reducible assumption
    | with_reducible apply pairLinkUp_keeps
    | split
    | intro _ _ _
    | intro _ _
    | dsimp only

theorem execCellRetransmit_keeps {s₀ : State} {again : Bool} {s : State} {u : State} (hk : Keeps s₀ s)
    (h : execCellRetransmit again s = .next u) : Keeps s₀ u := by
  unfold execCellRetransmit at h
  injection h with h
  subst h
  repeat' first
    | with_reducible assumption
    | with_reducible apply cellRetransmit_keeps
    | split
    | intro _ _ _
    | intro _ _
    | dsimp only

theorem execGrpCtlWrite_keeps {s₀ : State} {g : Fin 32} {v : Word} {s : State} {u : State} (hk : Keeps s₀ s)
    (h : execGrpCtlWrite g v s = .next u) : Keeps s₀ u := by
  unfold execGrpCtlWrite at h
  injection h with h
  subst h
  repeat' first
    | with_reducible assumption
    | with_reducible apply grpCtlWrite_keeps
    | split
    | intro _ _ _
    | intro _ _
    | dsimp only

theorem execLowPower_keeps {s₀ : State} {g : Fin 32} {s : State} {u : State} (hk : Keeps s₀ s)
    (h : execLowPower g s = .next u) : Keeps s₀ u := by
  unfold execLowPower at h
  injection h with h
  subst h
  repeat' first
    | with_reducible assumption
    | with_reducible apply lowPower_keeps
    | split
    | intro _ _ _
    | intro _ _
    | dsimp only

theorem execGroupWake_keeps {s₀ : State} {g : Fin 32} {s : State} {u : State} (hk : Keeps s₀ s)
    (h : execGroupWake g s = .next u) : Keeps s₀ u := by
  unfold execGroupWake at h
  injection h with h
  subst h
  repeat' first
    | with_reducible assumption
    | with_reducible apply groupWake_keeps
    | split
    | intro _ _ _
    | intro _ _
    | dsimp only

theorem execLaneReady_keeps {s₀ : State} {g : Fin 32} {f : Fin 8} {s : State} {u : State} (hk : Keeps s₀ s)
    (h : execLaneReady g f s = .next u) : Keeps s₀ u := by
  unfold execLaneReady at h
  injection h with h
  subst h
  repeat' first
    | with_reducible assumption
    | with_reducible apply laneReady_keeps
    | split
    | intro _ _ _
    | intro _ _
    | dsimp only

theorem execLaneLos_keeps {s₀ : State} {g : Fin 32} {f : Fin 8} {s : State} {u : State} (hk : Keeps s₀ s)
    (h : execLaneLos g f s = .next u) : Keeps s₀ u := by
  unfold execLaneLos at h
  injection h with h
  subst h
  repeat' first
    | with_reducible assumption
    | with_reducible apply laneLos_keeps
    | split
    | intro _ _ _
    | intro _ _
    | dsimp only

theorem execSignalDetect_keeps {s₀ : State} {g : Fin 32} {f : Fin 8} {seen : LaneSignal} {s : State} {u : State} (hk : Keeps s₀ s)
    (h : execSignalDetect g f seen s = .next u) : Keeps s₀ u := by
  unfold execSignalDetect at h
  injection h with h
  subst h
  repeat' first
    | with_reducible assumption
    | with_reducible apply signalDetect_keeps
    | split
    | intro _ _ _
    | intro _ _
    | dsimp only

theorem execCxpStreamPacket_keeps {s₀ : State} {g : Fin 32} {j : Fin 8} {id tag : Byte} {crcBad : Bool} {missing : Option (BitVec 16)} {items : List CxpItem} {s : State} {u : State} (hk : Keeps s₀ s)
    (h : execCxpStreamPacket g j id tag crcBad missing items s = .next u) : Keeps s₀ u := by
  unfold execCxpStreamPacket at h
  injection h with h
  subst h
  repeat' first
    | with_reducible assumption
    | with_reducible apply cxpStream_keeps
    | split
    | intro _ _ _
    | intro _ _
    | dsimp only

theorem execCxpLinkWrite_keeps {s₀ : State} {g : Fin 32} {j : Fin 8} {v : Word} {s : State} {u : State} (hk : Keeps s₀ s)
    (h : execCxpLinkWrite g j v s = .next u) : Keeps s₀ u := by
  unfold execCxpLinkWrite at h
  injection h with h
  subst h
  repeat' first
    | with_reducible assumption
    | with_reducible apply cxpLinkWrite_keeps
    | split
    | intro _ _ _
    | intro _ _
    | dsimp only

theorem execCxpSpeedChange_keeps {s₀ : State} {g : Fin 32} {j : Fin 8} {speed : Fin 8} {s : State} {u : State} (hk : Keeps s₀ s)
    (h : execCxpSpeedChange g j speed s = .next u) : Keeps s₀ u := by
  unfold execCxpSpeedChange at h
  injection h with h
  subst h
  repeat' first
    | with_reducible assumption
    | with_reducible apply Keeps.put
    | with_reducible apply linksRefresh_keeps
    | with_reducible apply speedChange_keeps
    | with_reducible apply Keeps.when
    | split
    | intro _ _ _
    | intro _ _
    | dsimp only

theorem execSpeedChangeDone_keeps {s₀ : State} {g : Fin 32} {j : Fin 8} {s : State} {u : State} (hk : Keeps s₀ s)
    (h : execSpeedChangeDone g j s = .next u) : Keeps s₀ u := by
  unfold execSpeedChangeDone at h
  injection h with h
  subst h
  repeat' first
    | with_reducible assumption
    | with_reducible apply speedChangeDone_keeps
    | split
    | intro _ _ _
    | intro _ _
    | dsimp only

theorem execCxpControlSend_keeps {s₀ : State} {g : Fin 32} {v : Word} {s : State} {u : State} (hk : Keeps s₀ s)
    (h : execCxpControlSend g v s = .next u) : Keeps s₀ u := by
  unfold execCxpControlSend at h
  injection h with h
  subst h
  repeat' first
    | with_reducible assumption
    | with_reducible apply ccCtlWrite_keeps
    | split
    | intro _ _ _
    | intro _ _
    | dsimp only

theorem execCxpControlSent_keeps {s₀ : State} {g : Fin 32} {s : State} {u : State} (hk : Keeps s₀ s)
    (h : execCxpControlSent g s = .next u) : Keeps s₀ u := by
  unfold execCxpControlSent at h
  injection h with h
  subst h
  repeat' first
    | with_reducible assumption
    | with_reducible apply ccSent_keeps
    | split
    | intro _ _ _
    | intro _ _
    | dsimp only

theorem execCxpControlReceive_keeps {s₀ : State} {g : Fin 32} {j : Fin 8} {kind : Fin 4} {good : Bool} {payload : List Word} {s : State} {u : State} (hk : Keeps s₀ s)
    (h : execCxpControlReceive g j kind good payload s = .next u) : Keeps s₀ u := by
  unfold execCxpControlReceive at h
  injection h with h
  subst h
  repeat' first
    | with_reducible assumption
    | with_reducible apply ccReceive_keeps
    | split
    | intro _ _ _
    | intro _ _
    | dsimp only

theorem execTriggerPacket_keeps {s₀ : State} {g : Fin 32} {j : Fin 8} {s : State} {u : State} (hk : Keeps s₀ s)
    (h : execTriggerPacket g j s = .next u) : Keeps s₀ u := by
  unfold execTriggerPacket at h
  injection h with h
  subst h
  repeat' first
    | with_reducible assumption
    | with_reducible apply triggerPacket_keeps
    | split
    | intro _ _ _
    | intro _ _
    | dsimp only

theorem execEthCtlWrite_keeps {s₀ : State} {c : Fin 8} {v : Word} {s : State} {u : State} (hk : Keeps s₀ s)
    (h : execEthCtlWrite c v s = .next u) : Keeps s₀ u := by
  unfold execEthCtlWrite at h
  injection h with h
  subst h
  repeat' first
    | with_reducible assumption
    | with_reducible apply ethCtlWrite_keeps
    | split
    | intro _ _ _
    | intro _ _
    | dsimp only

theorem execEthFrameReceive_keeps {s₀ : State} {c : Fin 8} {p : Fin 4} {check : FrameCheck} {udp : Option (BitVec 16 × Word)} {image : Bool} {bytes : List Byte} {s : State} {u : State} (hk : Keeps s₀ s)
    (h : execEthFrameReceive c p check udp image bytes s = .next u) : Keeps s₀ u := by
  unfold execEthFrameReceive at h
  injection h with h
  subst h
  repeat' first
    | with_reducible assumption
    | with_reducible apply ethReceive_keeps
    | split
    | intro _ _ _
    | intro _ _
    | dsimp only

theorem execGvspPacket_keeps {s₀ : State} {c : Fin 8} {j : Fin 4} {id : Word} {resend : Bool} {body : GvspBody} {s : State} {u : State} (hk : Keeps s₀ s)
    (h : execGvspPacket c j id resend body s = .next u) : Keeps s₀ u := by
  unfold execGvspPacket at h
  injection h with h
  subst h
  repeat' first
    | with_reducible assumption
    | with_reducible apply gvspPacket_keeps
    | split
    | intro _ _ _
    | intro _ _
    | dsimp only

theorem execXtxSend_keeps {s₀ : State} {c : Fin 8} {s : State} {u : State} (hk : Keeps s₀ s)
    (h : execXtxSend c s = .next u) : Keeps s₀ u := by
  unfold execXtxSend at h
  injection h with h
  subst h
  repeat' first
    | with_reducible assumption
    | with_reducible apply xtxSend_keeps
    | split
    | intro _ _ _
    | intro _ _
    | dsimp only

theorem execReportDatagram_keeps {s₀ : State} {c : Fin 8} {s : State} {u : State} (hk : Keeps s₀ s)
    (h : execReportDatagram c s = .next u) : Keeps s₀ u := by
  unfold execReportDatagram at h
  injection h with h
  subst h
  repeat' first
    | with_reducible assumption
    | with_reducible apply reportDatagram_keeps
    | split
    | intro _ _ _
    | intro _ _
    | dsimp only

theorem execDatagramHoldExpiry_keeps {s₀ : State} {c : Fin 8} {s : State} {u : State} (hk : Keeps s₀ s)
    (h : execDatagramHoldExpiry c s = .next u) : Keeps s₀ u := by
  unfold execDatagramHoldExpiry at h
  injection h with h
  subst h
  repeat' first
    | with_reducible assumption
    | with_reducible apply datagramHold_keeps
    | split
    | intro _ _ _
    | intro _ _
    | dsimp only

theorem execEthLinkChange_keeps {s₀ : State} {c : Fin 8} {p : Fin 4} {up : Bool} {s : State} {u : State} (hk : Keeps s₀ s)
    (h : execEthLinkChange c p up s = .next u) : Keeps s₀ u := by
  unfold execEthLinkChange at h
  injection h with h
  subst h
  repeat' first
    | with_reducible assumption
    | with_reducible apply ethLinkChange_keeps
    | split
    | intro _ _ _
    | intro _ _
    | dsimp only

theorem execPhcStep_keeps {s₀ : State} {c : Fin 8} {v : Word} {s : State} {u : State} (hk : Keeps s₀ s)
    (h : execPhcStep c v s = .next u) : Keeps s₀ u := by
  unfold execPhcStep at h
  injection h with h
  subst h
  repeat' first
    | with_reducible assumption
    | with_reducible apply phcStep_keeps
    | split
    | intro _ _ _
    | intro _ _
    | dsimp only

theorem execPhcLoad_keeps {s₀ : State} {c : Fin 8} {s : State} {u : State} (hk : Keeps s₀ s)
    (h : execPhcLoad c s = .next u) : Keeps s₀ u := by
  unfold execPhcLoad at h
  injection h with h
  subst h
  repeat' first
    | with_reducible assumption
    | with_reducible apply phcLoad_keeps
    | split
    | intro _ _ _
    | intro _ _
    | dsimp only

theorem execPhcRead_keeps {s₀ : State} {c : Fin 8} {s : State} {u : State} (hk : Keeps s₀ s)
    (h : execPhcRead c s = .next u) : Keeps s₀ u := by
  unfold execPhcRead at h
  injection h with h
  subst h
  repeat' first
    | with_reducible assumption
    | with_reducible apply phcRead_keeps_snd
    | split
    | intro _ _ _
    | intro _ _
    | dsimp only

theorem execReleaseAt_keeps {s₀ : State} {p : Fin 4} {origin : BitVec 14} {group : Byte} {tpc : Fin 16} {pos : Pos48} {s : State} {u : State} (hk : Keeps s₀ s)
    (h : execReleaseAt p origin group tpc pos s = .next u) : Keeps s₀ u := by
  unfold execReleaseAt at h
  injection h with h
  subst h
  repeat' first
    | with_reducible assumption
    | with_reducible apply releaseAtRecv_keeps
    | split
    | intro _ _ _
    | intro _ _
    | dsimp only

theorem execReleaseAtSend_keeps {s₀ : State} {s : State} {u : State} (hk : Keeps s₀ s)
    (h : execReleaseAtSend s = .next u) : Keeps s₀ u := by
  unfold execReleaseAtSend at h
  injection h with h
  subst h
  repeat' first
    | with_reducible assumption
    | with_reducible apply releaseAtSend_keeps
    | split
    | intro _ _ _
    | intro _ _
    | dsimp only

theorem execRelease_keeps {s₀ : State} {s : State} {u : State} (hk : Keeps s₀ s)
    (h : execRelease s = .next u) : Keeps s₀ u := by
  unfold execRelease at h
  injection h with h
  subst h
  repeat' first
    | with_reducible assumption
    | with_reducible apply releaseAtPos_keeps
    | split
    | intro _ _ _
    | intro _ _
    | dsimp only

theorem execCfgRelWrite_keeps {s₀ : State} {v : Word} {s : State} {u : State} (hk : Keeps s₀ s)
    (h : execCfgRelWrite v s = .next u) : Keeps s₀ u := by
  unfold execCfgRelWrite at h
  injection h with h
  subst h
  repeat' first
    | with_reducible assumption
    | with_reducible apply cfgRelWrite_keeps
    | split
    | intro _ _ _
    | intro _ _
    | dsimp only

theorem execLoadWindowWrite_keeps {s₀ : State} {j : Fin 512} {v : Word} {s : State} {u : State} (hk : Keeps s₀ s)
    (h : execLoadWindowWrite j v s = .next u) : Keeps s₀ u := by
  unfold execLoadWindowWrite at h
  injection h with h
  subst h
  repeat' first
    | with_reducible assumption
    | with_reducible apply loadWindow_keeps
    | split
    | intro _ _ _
    | intro _ _
    | dsimp only

theorem execPowerOn_keeps {s₀ : State} {vaux hot : Bool} {s : State} {u : State} (hk : Keeps s₀ s)
    (h : execPowerOn vaux hot s = .next u) : Keeps s₀ u := by
  unfold execPowerOn at h
  injection h with h
  subst h
  repeat' first
    | with_reducible assumption
    | with_reducible apply powerOn_keeps
    | split
    | intro _ _ _
    | intro _ _
    | dsimp only

theorem execResetNLow_keeps {s₀ : State} {ns : Nat} {taken : Bool} {s : State} {u : State} (hk : Keeps s₀ s)
    (h : execResetNLow ns taken s = .next u) : Keeps s₀ u := by
  unfold execResetNLow at h
  injection h with h
  subst h
  repeat' first
    | with_reducible assumption
    | with_reducible apply resetN_keeps
    | split
    | intro _ _ _
    | intro _ _
    | dsimp only

theorem execCold_keeps {s₀ : State} {v : Word} {s : State} {u : State} (hk : Keeps s₀ s)
    (h : execCold v s = .next u) : Keeps s₀ u := by
  unfold execCold at h
  injection h with h
  subst h
  repeat' first
    | with_reducible assumption
    | with_reducible apply rstCtlWrite_keeps
    | split
    | intro _ _ _
    | intro _ _
    | dsimp only

theorem execWarm_keeps {s₀ : State} {v : Word} {s : State} {u : State} (hk : Keeps s₀ s)
    (h : execWarm v s = .next u) : Keeps s₀ u := by
  unfold execWarm at h
  injection h with h
  subst h
  repeat' first
    | with_reducible assumption
    | with_reducible apply rstCtlWrite_keeps
    | split
    | intro _ _ _
    | intro _ _
    | dsimp only

theorem execWarmDeferredStart_keeps {s₀ : State} {s : State} {u : State} (hk : Keeps s₀ s)
    (h : execWarmDeferredStart s = .next u) : Keeps s₀ u := by
  unfold execWarmDeferredStart at h
  injection h with h
  subst h
  repeat' first
    | with_reducible assumption
    | with_reducible apply warmDeferred_keeps
    | split
    | intro _ _ _
    | intro _ _
    | dsimp only

theorem execWarmDrainDone_keeps {s₀ : State} {s : State} {u : State} (hk : Keeps s₀ s)
    (h : execWarmDrainDone s = .next u) : Keeps s₀ u := by
  unfold execWarmDrainDone at h
  injection h with h
  subst h
  repeat' first
    | with_reducible assumption
    | with_reducible apply warmDrainDone_keeps
    | split
    | intro _ _ _
    | intro _ _
    | dsimp only

theorem execWriteBackDone_keeps {s₀ : State} {s : State} {u : State} (hk : Keeps s₀ s)
    (h : execWriteBackDone s = .next u) : Keeps s₀ u := by
  unfold execWriteBackDone at h
  injection h with h
  subst h
  repeat' first
    | with_reducible assumption
    | with_reducible apply warmWrittenBack_keeps
    | split
    | intro _ _ _
    | intro _ _
    | dsimp only

theorem execClearDone_keeps {s₀ : State} {s : State} {u : State} (hk : Keeps s₀ s)
    (h : execClearDone s = .next u) : Keeps s₀ u := by
  unfold execClearDone at h
  injection h with h
  subst h
  repeat' first
    | with_reducible assumption
    | with_reducible apply warmClear_keeps
    | split
    | intro _ _ _
    | intro _ _
    | dsimp only

theorem execWarmResumeDone_keeps {s₀ : State} {s : State} {u : State} (hk : Keeps s₀ s)
    (h : execWarmResumeDone s = .next u) : Keeps s₀ u := by
  unfold execWarmResumeDone at h
  injection h with h
  subst h
  repeat' first
    | with_reducible assumption
    | with_reducible apply warmResume_keeps
    | split
    | intro _ _ _
    | intro _ _
    | dsimp only

theorem execMassifReset_keeps {s₀ : State} {m : Fin 64} {s : State} {u : State} (hk : Keeps s₀ s)
    (h : execMassifReset m s = .next u) : Keeps s₀ u := by
  unfold execMassifReset at h
  injection h with h
  subst h
  repeat' first
    | with_reducible assumption
    | with_reducible apply massifReset_keeps
    | split
    | intro _ _ _
    | intro _ _
    | dsimp only

theorem execMassifResetDone_keeps {s₀ : State} {m : Fin 64} {s : State} {u : State} (hk : Keeps s₀ s)
    (h : execMassifResetDone m s = .next u) : Keeps s₀ u := by
  unfold execMassifResetDone at h
  injection h with h
  subst h
  repeat' first
    | with_reducible assumption
    | with_reducible apply massifResetDone_keeps
    | split
    | intro _ _ _
    | intro _ _
    | dsimp only

theorem execCallerReset_keeps {s₀ : State} {m : Fin 64} {s : State} {u : State} (hk : Keeps s₀ s)
    (h : execCallerReset m s = .next u) : Keeps s₀ u := by
  unfold execCallerReset at h
  injection h with h
  subst h
  repeat' first
    | with_reducible assumption
    | with_reducible apply callerReset_keeps
    | split
    | intro _ _ _
    | intro _ _
    | dsimp only

theorem execLaneGroupReset_keeps {s₀ : State} {g : Fin 32} {s : State} {u : State} (hk : Keeps s₀ s)
    (h : execLaneGroupReset g s = .next u) : Keeps s₀ u := by
  unfold execLaneGroupReset at h
  injection h with h
  subst h
  repeat' first
    | with_reducible assumption
    | with_reducible apply laneGroupReset_keeps
    | split
    | intro _ _ _
    | intro _ _
    | dsimp only

theorem execLaneGroupResetDone_keeps {s₀ : State} {g : Fin 32} {s : State} {u : State} (hk : Keeps s₀ s)
    (h : execLaneGroupResetDone g s = .next u) : Keeps s₀ u := by
  unfold execLaneGroupResetDone at h
  injection h with h
  subst h
  repeat' first
    | with_reducible assumption
    | with_reducible apply laneGroupResetDone_keeps
    | split
    | intro _ _ _
    | intro _ _
    | dsimp only

theorem execBrownoutReset_keeps {s₀ : State} {a b : BitVec 10} {s : State} {u : State} (hk : Keeps s₀ s)
    (h : execBrownoutReset a b s = .next u) : Keeps s₀ u := by
  unfold execBrownoutReset at h
  injection h with h
  subst h
  repeat' first
    | with_reducible assumption
    | with_reducible apply brownoutReset_keeps
    | split
    | intro _ _ _
    | intro _ _
    | dsimp only

theorem execThermtrip_keeps {s₀ : State} {s : State} {u : State} (hk : Keeps s₀ s)
    (h : execThermtrip s = .next u) : Keeps s₀ u := by
  unfold execThermtrip at h
  injection h with h
  subst h
  repeat' first
    | with_reducible assumption
    | with_reducible apply thermTrip_keeps
    | split
    | intro _ _ _
    | intro _ _
    | dsimp only

theorem execHbmRailLoss_keeps {s₀ : State} {s : State} {u : State} (hk : Keeps s₀ s)
    (h : execHbmRailLoss s = .next u) : Keeps s₀ u := by
  unfold execHbmRailLoss at h
  injection h with h
  subst h
  repeat' first
    | with_reducible assumption
    | with_reducible apply hbmContentsLost_keeps
    | split
    | intro _ _ _
    | intro _ _
    | dsimp only

theorem execLaneRailLoss_keeps {s₀ : State} {s : State} {u : State} (hk : Keeps s₀ s)
    (h : execLaneRailLoss s = .next u) : Keeps s₀ u := by
  unfold execLaneRailLoss at h
  injection h with h
  subst h
  repeat' first
    | with_reducible assumption
    | with_reducible apply laneRailLoss_keeps
    | split
    | intro _ _ _
    | intro _ _
    | dsimp only

theorem execPowerDown_keeps {s₀ : State} {s : State} {u : State} (hk : Keeps s₀ s)
    (h : execPowerDown s = .next u) : Keeps s₀ u := by
  unfold execPowerDown at h
  injection h with h
  subst h
  repeat' first
    | with_reducible assumption
    | with_reducible apply powerDown_keeps
    | split
    | intro _ _ _
    | intro _ _
    | dsimp only

theorem execRestEnter_keeps {s₀ : State} {s : State} {u : State} (hk : Keeps s₀ s)
    (h : execRestEnter s = .next u) : Keeps s₀ u := by
  unfold execRestEnter at h
  injection h with h
  subst h
  repeat' first
    | with_reducible assumption
    | with_reducible apply restEnter_keeps
    | split
    | intro _ _ _
    | intro _ _
    | dsimp only

theorem execRestEntryProceed_keeps {s₀ : State} {s : State} {u : State} (hk : Keeps s₀ s)
    (h : execRestEntryProceed s = .next u) : Keeps s₀ u := by
  unfold execRestEntryProceed at h
  injection h with h
  subst h
  repeat' first
    | with_reducible assumption
    | with_reducible apply restProceed_keeps
    | split
    | intro _ _ _
    | intro _ _
    | dsimp only

theorem execRestTimeout_keeps {s₀ : State} {s : State} {u : State} (hk : Keeps s₀ s)
    (h : execRestTimeout s = .next u) : Keeps s₀ u := by
  unfold execRestTimeout at h
  injection h with h
  subst h
  repeat' first
    | with_reducible assumption
    | with_reducible apply restTimeout_keeps
    | split
    | intro _ _ _
    | intro _ _
    | dsimp only

theorem execRestExit_keeps {s₀ : State} {s : State} {u : State} (hk : Keeps s₀ s)
    (h : execRestExit s = .next u) : Keeps s₀ u := by
  unfold execRestExit at h
  injection h with h
  subst h
  repeat' first
    | with_reducible assumption
    | with_reducible apply restExit_keeps
    | split
    | intro _ _ _
    | intro _ _
    | dsimp only

theorem execRestExitDone_keeps {s₀ : State} {s : State} {u : State} (hk : Keeps s₀ s)
    (h : execRestExitDone s = .next u) : Keeps s₀ u := by
  unfold execRestExitDone at h
  injection h with h
  subst h
  repeat' first
    | with_reducible assumption
    | with_reducible apply restExitDone_keeps
    | split
    | intro _ _ _
    | intro _ _
    | dsimp only

theorem execBeatDelivery_keeps {s₀ : State} {s : State} {u : State} (hk : Keeps s₀ s)
    (h : execBeatDelivery s = .next u) : Keeps s₀ u := by
  unfold execBeatDelivery at h
  injection h with h
  subst h
  repeat' first
    | with_reducible assumption
    | with_reducible apply beatDelivery_keeps
    | split
    | intro _ _ _
    | intro _ _
    | dsimp only

theorem execPcieLinkUp_keeps {s₀ : State} {e : Fin 2} {gen : Fin 8} {width : Fin 32} {s : State} {u : State} (hk : Keeps s₀ s)
    (h : execPcieLinkUp e gen width s = .next u) : Keeps s₀ u := by
  unfold execPcieLinkUp at h
  injection h with h
  subst h
  repeat' first
    | with_reducible assumption
    | with_reducible apply pcieLinkUp_keeps
    | split
    | intro _ _ _
    | intro _ _
    | dsimp only

theorem execEndpointReset_keeps {s₀ : State} {e : Fin 2} {kind : EndpointReset} {s : State} {u : State} (hk : Keeps s₀ s)
    (h : execEndpointReset e kind s = .next u) : Keeps s₀ u := by
  unfold execEndpointReset at h
  injection h with h
  subst h
  repeat' first
    | with_reducible assumption
    | with_reducible apply endpointReset_keeps
    | split
    | intro _ _ _
    | intro _ _
    | dsimp only

theorem execBar0Request_keeps {s₀ : State} {e : Fin 2} {tag : BitVec 10} {write : Bool} {addr : BitVec 26} {d : Word} {ep bad : Bool} {s : State} {u : State} (hk : Keeps s₀ s)
    (h : execBar0Request e tag write addr d ep bad s = .next u) : Keeps s₀ u := by
  unfold execBar0Request at h
  injection h with h
  subst h
  repeat' first
    | with_reducible assumption
    | with_reducible apply bar0Request_keeps
    | split
    | intro _ _ _
    | intro _ _
    | dsimp only

theorem execBar2Request_keeps {s₀ : State} {e : Fin 2} {tag : BitVec 10} {write : Bool} {addr : BitVec 35} {bytes : List (Byte × Bool)} {ep : Bool} {s : State} {u : State} (hk : Keeps s₀ s)
    (h : execBar2Request e tag write addr bytes ep s = .next u) : Keeps s₀ u := by
  unfold execBar2Request at h
  injection h with h
  subst h
  repeat' first
    | with_reducible assumption
    | with_reducible apply bar2Request_keeps
    | split
    | intro _ _ _
    | intro _ _
    | dsimp only

theorem execMsixMessage_keeps {s₀ : State} {e : Fin 2} {v : Fin 256} {_masked : Unit} {s : State} {u : State} (hk : Keeps s₀ s)
    (h : execMsixMessage e v _masked s = .next u) : Keeps s₀ u := by
  unfold execMsixMessage at h
  injection h with h
  subst h
  repeat' first
    | with_reducible assumption
    | with_reducible apply msixMessage_keeps
    | split
    | intro _ _ _
    | intro _ _
    | dsimp only

theorem execMsixUnmask_keeps {s₀ : State} {e : Fin 2} {a : MsixAccess} {s : State} {u : State} (hk : Keeps s₀ s)
    (h : execMsixUnmask e a s = .next u) : Keeps s₀ u := by
  unfold execMsixUnmask at h
  injection h with h
  subst h
  repeat' first
    | with_reducible assumption
    | with_reducible apply msixAccess_keeps
    | split
    | intro _ _ _
    | intro _ _
    | dsimp only

theorem execDmaTailWrite_keeps {s₀ : State} {e : Fin 2} {c : Fin 16} {v : Word} {s : State} {u : State} (hk : Keeps s₀ s)
    (h : execDmaTailWrite e c v s = .next u) : Keeps s₀ u := by
  unfold execDmaTailWrite at h
  injection h with h
  subst h
  repeat' first
    | with_reducible assumption
    | with_reducible apply dmaTailWrite_keeps
    | split
    | intro _ _ _
    | intro _ _
    | dsimp only

theorem execDmaDescriptor_keeps {s₀ : State} {e : Fin 2} {c : Fin 16} {err : Fin 4} {bytes : List Byte} {data : List (Byte × Bool)} {s : State} {u : State} (hk : Keeps s₀ s)
    (h : execDmaDescriptor e c err bytes data s = .next u) : Keeps s₀ u := by
  unfold execDmaDescriptor at h
  injection h with h
  subst h
  repeat' first
    | with_reducible assumption
    | with_reducible apply dmaDescriptor_keeps
    | split
    | intro _ _ _
    | intro _ _
    | dsimp only

theorem execDmaEnable_keeps {s₀ : State} {e : Fin 2} {c : Fin 16} {v : Word} {s : State} {u : State} (hk : Keeps s₀ s)
    (h : execDmaEnable e c v s = .next u) : Keeps s₀ u := by
  unfold execDmaEnable at h
  injection h with h
  subst h
  repeat' first
    | with_reducible assumption
    | with_reducible apply dmaCtlWrite_keeps
    | split
    | intro _ _ _
    | intro _ _
    | dsimp only

theorem execDmaBufferHold_keeps {s₀ : State} {e : Fin 2} {c : Fin 16} {s : State} {u : State} (hk : Keeps s₀ s)
    (h : execDmaBufferHold e c s = .next u) : Keeps s₀ u := by
  unfold execDmaBufferHold at h
  injection h with h
  subst h
  repeat' first
    | with_reducible assumption
    | with_reducible apply dmaHold_keeps
    | split
    | intro _ _ _
    | intro _ _
    | dsimp only

theorem execCollectorOutput_keeps {s₀ : State} {bytes : List Byte} {bad : List (Fin 20)} {s : State} {u : State} (hk : Keeps s₀ s)
    (h : execCollectorOutput bytes bad s = .next u) : Keeps s₀ u := by
  unfold execCollectorOutput at h
  injection h with h
  subst h
  repeat' first
    | with_reducible assumption
    | with_reducible apply collectorOutput_keeps
    | split
    | intro _ _ _
    | intro _ _
    | dsimp only

theorem execRdsr_keeps {s₀ : State} {s : State} {u : State} (hk : Keeps s₀ s)
    (h : execRdsr s = .next u) : Keeps s₀ u := by
  unfold execRdsr at h
  injection h with h
  subst h
  repeat' first
    | with_reducible assumption
    | with_reducible apply Keeps.emit
    | split
    | intro _ _ _
    | intro _ _
    | dsimp only

theorem execMgmtWrite_keeps {s₀ : State} {a : Word} {words : List Word} {s : State} {u : State} (hk : Keeps s₀ s)
    (h : execMgmtWrite a words s = .next u) : Keeps s₀ u := by
  unfold execMgmtWrite at h
  injection h with h
  subst h
  repeat' first
    | with_reducible assumption
    | with_reducible apply mgmtWrite_keeps
    | split
    | intro _ _ _
    | intro _ _
    | dsimp only

theorem execMgmtRead_keeps {s₀ : State} {a : Word} {waits : Bool} {s : State} {u : State} (hk : Keeps s₀ s)
    (h : execMgmtRead a waits s = .next u) : Keeps s₀ u := by
  unfold execMgmtRead at h
  injection h with h
  subst h
  repeat' first
    | with_reducible assumption
    | with_reducible apply mgmtRead_keeps
    | split
    | intro _ _ _
    | intro _ _
    | dsimp only

theorem execMgmtUnknown_keeps {s₀ : State} {s : State} {u : State} (hk : Keeps s₀ s)
    (h : execMgmtUnknown s = .next u) : Keeps s₀ u := by
  unfold execMgmtUnknown at h
  injection h with h
  subst h
  repeat' first
    | with_reducible assumption
    | with_reducible apply mgmtUnknown_keeps
    | split
    | intro _ _ _
    | intro _ _
    | dsimp only

theorem execClaim_keeps {s₀ : State} {who : Fin 71} {s : State} {u : State} (hk : Keeps s₀ s)
    (h : execClaim who s = .next u) : Keeps s₀ u := by
  unfold execClaim at h
  injection h with h
  subst h
  repeat' first
    | with_reducible assumption
    | with_reducible apply mbxClaim_keeps
    | split
    | intro _ _ _
    | intro _ _
    | dsimp only

theorem execMbxRelease_keeps {s₀ : State} {who : Fin 71} {s : State} {u : State} (hk : Keeps s₀ s)
    (h : execMbxRelease who s = .next u) : Keeps s₀ u := by
  unfold execMbxRelease at h
  injection h with h
  subst h
  repeat' first
    | with_reducible assumption
    | with_reducible apply mbxRelease_keeps
    | split
    | intro _ _ _
    | intro _ _
    | dsimp only

theorem execSettingsRead_keeps {s₀ : State} {who : Fin 71} {s : State} {u : State} (hk : Keeps s₀ s)
    (h : execSettingsRead who s = .next u) : Keeps s₀ u := by
  unfold execSettingsRead at h
  injection h with h
  subst h
  repeat' first
    | with_reducible assumption
    | with_reducible apply cmdWrite_keeps
    | split
    | intro _ _ _
    | intro _ _
    | dsimp only

theorem execStore_keeps {s₀ : State} {who : Fin 71} {s : State} {u : State} (hk : Keeps s₀ s)
    (h : execStore who s = .next u) : Keeps s₀ u := by
  unfold execStore at h
  injection h with h
  subst h
  repeat' first
    | with_reducible assumption
    | with_reducible apply cmdWrite_keeps
    | split
    | intro _ _ _
    | intro _ _
    | dsimp only

theorem execRepairCommit_keeps {s₀ : State} {who : Fin 71} {s : State} {u : State} (hk : Keeps s₀ s)
    (h : execRepairCommit who s = .next u) : Keeps s₀ u := by
  unfold execRepairCommit at h
  injection h with h
  subst h
  repeat' first
    | with_reducible assumption
    | with_reducible apply cmdWrite_keeps
    | split
    | intro _ _ _
    | intro _ _
    | dsimp only

theorem execColdReset_keeps {s₀ : State} {who : Fin 71} {s : State} {u : State} (hk : Keeps s₀ s)
    (h : execColdReset who s = .next u) : Keeps s₀ u := by
  unfold execColdReset at h
  injection h with h
  subst h
  repeat' first
    | with_reducible assumption
    | with_reducible apply cmdWrite_keeps
    | split
    | intro _ _ _
    | intro _ _
    | dsimp only

theorem execImageAuth_keeps {s₀ : State} {who : Fin 71} {s : State} {u : State} (hk : Keeps s₀ s)
    (h : execImageAuth who s = .next u) : Keeps s₀ u := by
  unfold execImageAuth at h
  injection h with h
  subst h
  repeat' first
    | with_reducible assumption
    | with_reducible apply cmdWrite_keeps
    | split
    | intro _ _ _
    | intro _ _
    | dsimp only

theorem execMassifReload_keeps {s₀ : State} {who : Fin 71} {s : State} {u : State} (hk : Keeps s₀ s)
    (h : execMassifReload who s = .next u) : Keeps s₀ u := by
  unfold execMassifReload at h
  injection h with h
  subst h
  repeat' first
    | with_reducible assumption
    | with_reducible apply cmdWrite_keeps
    | split
    | intro _ _ _
    | intro _ _
    | dsimp only

theorem execAttest_keeps {s₀ : State} {who : Fin 71} {s : State} {u : State} (hk : Keeps s₀ s)
    (h : execAttest who s = .next u) : Keeps s₀ u := by
  unfold execAttest at h
  injection h with h
  subst h
  repeat' first
    | with_reducible assumption
    | with_reducible apply cmdWrite_keeps
    | split
    | intro _ _ _
    | intro _ _
    | dsimp only

theorem execKeyRevoke_keeps {s₀ : State} {who : Fin 71} {s : State} {u : State} (hk : Keeps s₀ s)
    (h : execKeyRevoke who s = .next u) : Keeps s₀ u := by
  unfold execKeyRevoke at h
  injection h with h
  subst h
  repeat' first
    | with_reducible assumption
    | with_reducible apply cmdWrite_keeps
    | split
    | intro _ _ _
    | intro _ _
    | dsimp only

theorem execRollbackAdvance_keeps {s₀ : State} {who : Fin 71} {s : State} {u : State} (hk : Keeps s₀ s)
    (h : execRollbackAdvance who s = .next u) : Keeps s₀ u := by
  unfold execRollbackAdvance at h
  injection h with h
  subst h
  repeat' first
    | with_reducible assumption
    | with_reducible apply cmdWrite_keeps
    | split
    | intro _ _ _
    | intro _ _
    | dsimp only

theorem execZeroise_keeps {s₀ : State} {who : Fin 71} {s : State} {u : State} (hk : Keeps s₀ s)
    (h : execZeroise who s = .next u) : Keeps s₀ u := by
  unfold execZeroise at h
  injection h with h
  subst h
  repeat' first
    | with_reducible assumption
    | with_reducible apply cmdWrite_keeps
    | split
    | intro _ _ _
    | intro _ _
    | dsimp only

theorem execBadCmd_keeps {s₀ : State} {who : Fin 71} {code : Byte} {s : State} {u : State} (hk : Keeps s₀ s)
    (h : execBadCmd who code s = .next u) : Keeps s₀ u := by
  unfold execBadCmd at h
  injection h with h
  subst h
  repeat' first
    | with_reducible assumption
    | with_reducible apply cmdWrite_keeps
    | with_reducible apply Keeps.when
    | split
    | intro _ _ _
    | intro _ _
    | dsimp only

theorem execSelfRepairCommit_keeps {s₀ : State} {m : Fin 64} {bank : Fin 16} {prow : Byte} {s : State} {u : State} (hk : Keeps s₀ s)
    (h : execSelfRepairCommit m bank prow s = .next u) : Keeps s₀ u := by
  unfold execSelfRepairCommit at h
  injection h with h
  subst h
  repeat' first
    | with_reducible assumption
    | with_reducible apply selfCommit_keeps
    | split
    | intro _ _ _
    | intro _ _
    | dsimp only

theorem execRegisterWrite_keeps {s₀ : State} {who : Fin 72} {addr : BitVec 26} {v : Word} {s : State} {u : State} (hk : Keeps s₀ s)
    (h : execRegisterWrite who addr v s = .next u) : Keeps s₀ u := by
  unfold execRegisterWrite at h
  injection h with h
  subst h
  repeat' first
    | with_reducible assumption
    | with_reducible apply writeReg_keeps_snd
    | split
    | intro _ _ _
    | intro _ _
    | dsimp only

theorem execLockSet_keeps {s₀ : State} {addr : BitVec 26} {s : State} {u : State} (hk : Keeps s₀ s)
    (h : execLockSet addr s = .next u) : Keeps s₀ u := by
  unfold execLockSet at h
  injection h with h
  subst h
  repeat' first
    | with_reducible assumption
    | with_reducible apply lockSet_keeps
    | with_reducible apply Keeps.when
    | split
    | intro _ _ _
    | intro _ _
    | dsimp only

theorem execIrqForce_keeps {s₀ : State} {addr : BitVec 26} {v : Word} {s : State} {u : State} (hk : Keeps s₀ s)
    (h : execIrqForce addr v s = .next u) : Keeps s₀ u := by
  unfold execIrqForce at h
  injection h with h
  subst h
  repeat' first
    | with_reducible assumption
    | with_reducible apply irqForce_keeps
    | with_reducible apply Keeps.when
    | split
    | intro _ _ _
    | intro _ _
    | dsimp only

theorem execImageLoad_keeps {s₀ : State} {who : Option (Fin 71)} {flash : Option (List Byte)} {s : State} {u : State} (hk : Keeps s₀ s)
    (h : execImageLoad who flash s = .next u) : Keeps s₀ u := by
  unfold execImageLoad at h
  split at h <;> (injection h with h; subst h)
  all_goals repeat' first
    | with_reducible assumption
    | with_reducible apply cmdWrite_keeps
    | with_reducible apply loadAuth_keeps
    | split
    | intro _ _ _
    | intro _ _
    | dsimp only

theorem execCommandComplete_keeps {s₀ : State} {flash : Option (List Byte)} {crcOk abort : Bool} {s : State} {u : State} (hk : Keeps s₀ s)
    (h : execCommandComplete flash crcOk abort s = .next u) : Keeps s₀ u := by
  unfold execCommandComplete at h
  injection h with h
  subst h
  repeat' first
    | with_reducible assumption
    | with_reducible apply commandComplete_keeps
    | split
    | intro _ _ _
    | intro _ _
    | dsimp only

theorem execBoot_keeps {s₀ : State} {container : Option (List Byte)} {s : State} {u : State} (hk : Keeps s₀ s)
    (h : execBoot container s = .next u) : Keeps s₀ u := by
  unfold execBoot at h
  injection h with h
  subst h
  repeat' first
    | with_reducible assumption
    | with_reducible apply boot_keeps
    | split
    | intro _ _ _
    | intro _ _
    | dsimp only

theorem execIfaAdd_keeps {s₀ : State} {c : Fin 68} {rd ra rb : Fin 32} {s : State} {u : State} (hk : Keeps s₀ s)
    (h : execIfaAdd c rd ra rb s = .next u) : Keeps s₀ u := by
  unfold execIfaAdd at h
  injection h with h
  subst h
  repeat' first
    | with_reducible assumption
    | with_reducible apply ifaRun_keeps
    | split
    | intro _ _ _
    | intro _ _
    | dsimp only

theorem execIfaSub_keeps {s₀ : State} {c : Fin 68} {rd ra rb : Fin 32} {s : State} {u : State} (hk : Keeps s₀ s)
    (h : execIfaSub c rd ra rb s = .next u) : Keeps s₀ u := by
  unfold execIfaSub at h
  injection h with h
  subst h
  repeat' first
    | with_reducible assumption
    | with_reducible apply ifaRun_keeps
    | split
    | intro _ _ _
    | intro _ _
    | dsimp only

theorem execIfaAnd_keeps {s₀ : State} {c : Fin 68} {rd ra rb : Fin 32} {s : State} {u : State} (hk : Keeps s₀ s)
    (h : execIfaAnd c rd ra rb s = .next u) : Keeps s₀ u := by
  unfold execIfaAnd at h
  injection h with h
  subst h
  repeat' first
    | with_reducible assumption
    | with_reducible apply ifaRun_keeps
    | split
    | intro _ _ _
    | intro _ _
    | dsimp only

theorem execIfaOr_keeps {s₀ : State} {c : Fin 68} {rd ra rb : Fin 32} {s : State} {u : State} (hk : Keeps s₀ s)
    (h : execIfaOr c rd ra rb s = .next u) : Keeps s₀ u := by
  unfold execIfaOr at h
  injection h with h
  subst h
  repeat' first
    | with_reducible assumption
    | with_reducible apply ifaRun_keeps
    | split
    | intro _ _ _
    | intro _ _
    | dsimp only

theorem execIfaXor_keeps {s₀ : State} {c : Fin 68} {rd ra rb : Fin 32} {s : State} {u : State} (hk : Keeps s₀ s)
    (h : execIfaXor c rd ra rb s = .next u) : Keeps s₀ u := by
  unfold execIfaXor at h
  injection h with h
  subst h
  repeat' first
    | with_reducible assumption
    | with_reducible apply ifaRun_keeps
    | split
    | intro _ _ _
    | intro _ _
    | dsimp only

theorem execIfaAndn_keeps {s₀ : State} {c : Fin 68} {rd ra rb : Fin 32} {s : State} {u : State} (hk : Keeps s₀ s)
    (h : execIfaAndn c rd ra rb s = .next u) : Keeps s₀ u := by
  unfold execIfaAndn at h
  injection h with h
  subst h
  repeat' first
    | with_reducible assumption
    | with_reducible apply ifaRun_keeps
    | split
    | intro _ _ _
    | intro _ _
    | dsimp only

theorem execIfaShl_keeps {s₀ : State} {c : Fin 68} {rd ra rb : Fin 32} {s : State} {u : State} (hk : Keeps s₀ s)
    (h : execIfaShl c rd ra rb s = .next u) : Keeps s₀ u := by
  unfold execIfaShl at h
  injection h with h
  subst h
  repeat' first
    | with_reducible assumption
    | with_reducible apply ifaRun_keeps
    | split
    | intro _ _ _
    | intro _ _
    | dsimp only

theorem execIfaShr_keeps {s₀ : State} {c : Fin 68} {rd ra rb : Fin 32} {s : State} {u : State} (hk : Keeps s₀ s)
    (h : execIfaShr c rd ra rb s = .next u) : Keeps s₀ u := by
  unfold execIfaShr at h
  injection h with h
  subst h
  repeat' first
    | with_reducible assumption
    | with_reducible apply ifaRun_keeps
    | split
    | intro _ _ _
    | intro _ _
    | dsimp only

theorem execIfaSra_keeps {s₀ : State} {c : Fin 68} {rd ra rb : Fin 32} {s : State} {u : State} (hk : Keeps s₀ s)
    (h : execIfaSra c rd ra rb s = .next u) : Keeps s₀ u := by
  unfold execIfaSra at h
  injection h with h
  subst h
  repeat' first
    | with_reducible assumption
    | with_reducible apply ifaRun_keeps
    | split
    | intro _ _ _
    | intro _ _
    | dsimp only

theorem execIfaRol_keeps {s₀ : State} {c : Fin 68} {rd ra rb : Fin 32} {s : State} {u : State} (hk : Keeps s₀ s)
    (h : execIfaRol c rd ra rb s = .next u) : Keeps s₀ u := by
  unfold execIfaRol at h
  injection h with h
  subst h
  repeat' first
    | with_reducible assumption
    | with_reducible apply ifaRun_keeps
    | split
    | intro _ _ _
    | intro _ _
    | dsimp only

theorem execIfaSlt_keeps {s₀ : State} {c : Fin 68} {rd ra rb : Fin 32} {s : State} {u : State} (hk : Keeps s₀ s)
    (h : execIfaSlt c rd ra rb s = .next u) : Keeps s₀ u := by
  unfold execIfaSlt at h
  injection h with h
  subst h
  repeat' first
    | with_reducible assumption
    | with_reducible apply ifaRun_keeps
    | split
    | intro _ _ _
    | intro _ _
    | dsimp only

theorem execIfaSltu_keeps {s₀ : State} {c : Fin 68} {rd ra rb : Fin 32} {s : State} {u : State} (hk : Keeps s₀ s)
    (h : execIfaSltu c rd ra rb s = .next u) : Keeps s₀ u := by
  unfold execIfaSltu at h
  injection h with h
  subst h
  repeat' first
    | with_reducible assumption
    | with_reducible apply ifaRun_keeps
    | split
    | intro _ _ _
    | intro _ _
    | dsimp only

theorem execIfaMin_keeps {s₀ : State} {c : Fin 68} {rd ra rb : Fin 32} {s : State} {u : State} (hk : Keeps s₀ s)
    (h : execIfaMin c rd ra rb s = .next u) : Keeps s₀ u := by
  unfold execIfaMin at h
  injection h with h
  subst h
  repeat' first
    | with_reducible assumption
    | with_reducible apply ifaRun_keeps
    | split
    | intro _ _ _
    | intro _ _
    | dsimp only

theorem execIfaMax_keeps {s₀ : State} {c : Fin 68} {rd ra rb : Fin 32} {s : State} {u : State} (hk : Keeps s₀ s)
    (h : execIfaMax c rd ra rb s = .next u) : Keeps s₀ u := by
  unfold execIfaMax at h
  injection h with h
  subst h
  repeat' first
    | with_reducible assumption
    | with_reducible apply ifaRun_keeps
    | split
    | intro _ _ _
    | intro _ _
    | dsimp only

theorem execIfaMinu_keeps {s₀ : State} {c : Fin 68} {rd ra rb : Fin 32} {s : State} {u : State} (hk : Keeps s₀ s)
    (h : execIfaMinu c rd ra rb s = .next u) : Keeps s₀ u := by
  unfold execIfaMinu at h
  injection h with h
  subst h
  repeat' first
    | with_reducible assumption
    | with_reducible apply ifaRun_keeps
    | split
    | intro _ _ _
    | intro _ _
    | dsimp only

theorem execIfaMaxu_keeps {s₀ : State} {c : Fin 68} {rd ra rb : Fin 32} {s : State} {u : State} (hk : Keeps s₀ s)
    (h : execIfaMaxu c rd ra rb s = .next u) : Keeps s₀ u := by
  unfold execIfaMaxu at h
  injection h with h
  subst h
  repeat' first
    | with_reducible assumption
    | with_reducible apply ifaRun_keeps
    | split
    | intro _ _ _
    | intro _ _
    | dsimp only

theorem execIfaMul_keeps {s₀ : State} {c : Fin 68} {rd ra rb : Fin 32} {s : State} {u : State} (hk : Keeps s₀ s)
    (h : execIfaMul c rd ra rb s = .next u) : Keeps s₀ u := by
  unfold execIfaMul at h
  injection h with h
  subst h
  repeat' first
    | with_reducible assumption
    | with_reducible apply ifaRun_keeps
    | split
    | intro _ _ _
    | intro _ _
    | dsimp only

theorem execIfaMulh_keeps {s₀ : State} {c : Fin 68} {rd ra rb : Fin 32} {s : State} {u : State} (hk : Keeps s₀ s)
    (h : execIfaMulh c rd ra rb s = .next u) : Keeps s₀ u := by
  unfold execIfaMulh at h
  injection h with h
  subst h
  repeat' first
    | with_reducible assumption
    | with_reducible apply ifaRun_keeps
    | split
    | intro _ _ _
    | intro _ _
    | dsimp only

theorem execIfaMulhu_keeps {s₀ : State} {c : Fin 68} {rd ra rb : Fin 32} {s : State} {u : State} (hk : Keeps s₀ s)
    (h : execIfaMulhu c rd ra rb s = .next u) : Keeps s₀ u := by
  unfold execIfaMulhu at h
  injection h with h
  subst h
  repeat' first
    | with_reducible assumption
    | with_reducible apply ifaRun_keeps
    | split
    | intro _ _ _
    | intro _ _
    | dsimp only

theorem execIfaDiv_keeps {s₀ : State} {c : Fin 68} {rd ra rb : Fin 32} {s : State} {u : State} (hk : Keeps s₀ s)
    (h : execIfaDiv c rd ra rb s = .next u) : Keeps s₀ u := by
  unfold execIfaDiv at h
  injection h with h
  subst h
  repeat' first
    | with_reducible assumption
    | with_reducible apply ifaRun_keeps
    | split
    | intro _ _ _
    | intro _ _
    | dsimp only

theorem execIfaDivu_keeps {s₀ : State} {c : Fin 68} {rd ra rb : Fin 32} {s : State} {u : State} (hk : Keeps s₀ s)
    (h : execIfaDivu c rd ra rb s = .next u) : Keeps s₀ u := by
  unfold execIfaDivu at h
  injection h with h
  subst h
  repeat' first
    | with_reducible assumption
    | with_reducible apply ifaRun_keeps
    | split
    | intro _ _ _
    | intro _ _
    | dsimp only

theorem execIfaRem_keeps {s₀ : State} {c : Fin 68} {rd ra rb : Fin 32} {s : State} {u : State} (hk : Keeps s₀ s)
    (h : execIfaRem c rd ra rb s = .next u) : Keeps s₀ u := by
  unfold execIfaRem at h
  injection h with h
  subst h
  repeat' first
    | with_reducible assumption
    | with_reducible apply ifaRun_keeps
    | split
    | intro _ _ _
    | intro _ _
    | dsimp only

theorem execIfaRemu_keeps {s₀ : State} {c : Fin 68} {rd ra rb : Fin 32} {s : State} {u : State} (hk : Keeps s₀ s)
    (h : execIfaRemu c rd ra rb s = .next u) : Keeps s₀ u := by
  unfold execIfaRemu at h
  injection h with h
  subst h
  repeat' first
    | with_reducible assumption
    | with_reducible apply ifaRun_keeps
    | split
    | intro _ _ _
    | intro _ _
    | dsimp only

theorem execIfaClz_keeps {s₀ : State} {c : Fin 68} {rd ra : Fin 32} {s : State} {u : State} (hk : Keeps s₀ s)
    (h : execIfaClz c rd ra s = .next u) : Keeps s₀ u := by
  unfold execIfaClz at h
  injection h with h
  subst h
  repeat' first
    | with_reducible assumption
    | with_reducible apply ifaRun_keeps
    | split
    | intro _ _ _
    | intro _ _
    | dsimp only

theorem execIfaPopc_keeps {s₀ : State} {c : Fin 68} {rd ra : Fin 32} {s : State} {u : State} (hk : Keeps s₀ s)
    (h : execIfaPopc c rd ra s = .next u) : Keeps s₀ u := by
  unfold execIfaPopc at h
  injection h with h
  subst h
  repeat' first
    | with_reducible assumption
    | with_reducible apply ifaRun_keeps
    | split
    | intro _ _ _
    | intro _ _
    | dsimp only

theorem execIfaAddi_keeps {s₀ : State} {c : Fin 68} {rd ra : Fin 32} {i : BitVec 16} {s : State} {u : State} (hk : Keeps s₀ s)
    (h : execIfaAddi c rd ra i s = .next u) : Keeps s₀ u := by
  unfold execIfaAddi at h
  injection h with h
  subst h
  repeat' first
    | with_reducible assumption
    | with_reducible apply ifaRun_keeps
    | split
    | intro _ _ _
    | intro _ _
    | dsimp only

theorem execIfaAndi_keeps {s₀ : State} {c : Fin 68} {rd ra : Fin 32} {i : BitVec 16} {s : State} {u : State} (hk : Keeps s₀ s)
    (h : execIfaAndi c rd ra i s = .next u) : Keeps s₀ u := by
  unfold execIfaAndi at h
  injection h with h
  subst h
  repeat' first
    | with_reducible assumption
    | with_reducible apply ifaRun_keeps
    | split
    | intro _ _ _
    | intro _ _
    | dsimp only

theorem execIfaOri_keeps {s₀ : State} {c : Fin 68} {rd ra : Fin 32} {i : BitVec 16} {s : State} {u : State} (hk : Keeps s₀ s)
    (h : execIfaOri c rd ra i s = .next u) : Keeps s₀ u := by
  unfold execIfaOri at h
  injection h with h
  subst h
  repeat' first
    | with_reducible assumption
    | with_reducible apply ifaRun_keeps
    | split
    | intro _ _ _
    | intro _ _
    | dsimp only

theorem execIfaXori_keeps {s₀ : State} {c : Fin 68} {rd ra : Fin 32} {i : BitVec 16} {s : State} {u : State} (hk : Keeps s₀ s)
    (h : execIfaXori c rd ra i s = .next u) : Keeps s₀ u := by
  unfold execIfaXori at h
  injection h with h
  subst h
  repeat' first
    | with_reducible assumption
    | with_reducible apply ifaRun_keeps
    | split
    | intro _ _ _
    | intro _ _
    | dsimp only

theorem execIfaSlti_keeps {s₀ : State} {c : Fin 68} {rd ra : Fin 32} {i : BitVec 16} {s : State} {u : State} (hk : Keeps s₀ s)
    (h : execIfaSlti c rd ra i s = .next u) : Keeps s₀ u := by
  unfold execIfaSlti at h
  injection h with h
  subst h
  repeat' first
    | with_reducible assumption
    | with_reducible apply ifaRun_keeps
    | split
    | intro _ _ _
    | intro _ _
    | dsimp only

theorem execIfaSltui_keeps {s₀ : State} {c : Fin 68} {rd ra : Fin 32} {i : BitVec 16} {s : State} {u : State} (hk : Keeps s₀ s)
    (h : execIfaSltui c rd ra i s = .next u) : Keeps s₀ u := by
  unfold execIfaSltui at h
  injection h with h
  subst h
  repeat' first
    | with_reducible assumption
    | with_reducible apply ifaRun_keeps
    | split
    | intro _ _ _
    | intro _ _
    | dsimp only

theorem execIfaLui_keeps {s₀ : State} {c : Fin 68} {rd : Fin 32} {i : BitVec 16} {s : State} {u : State} (hk : Keeps s₀ s)
    (h : execIfaLui c rd i s = .next u) : Keeps s₀ u := by
  unfold execIfaLui at h
  injection h with h
  subst h
  repeat' first
    | with_reducible assumption
    | with_reducible apply ifaRun_keeps
    | split
    | intro _ _ _
    | intro _ _
    | dsimp only

theorem execIfaShli_keeps {s₀ : State} {c : Fin 68} {rd ra n : Fin 32} {s : State} {u : State} (hk : Keeps s₀ s)
    (h : execIfaShli c rd ra n s = .next u) : Keeps s₀ u := by
  unfold execIfaShli at h
  injection h with h
  subst h
  repeat' first
    | with_reducible assumption
    | with_reducible apply ifaRun_keeps
    | split
    | intro _ _ _
    | intro _ _
    | dsimp only

theorem execIfaShri_keeps {s₀ : State} {c : Fin 68} {rd ra n : Fin 32} {s : State} {u : State} (hk : Keeps s₀ s)
    (h : execIfaShri c rd ra n s = .next u) : Keeps s₀ u := by
  unfold execIfaShri at h
  injection h with h
  subst h
  repeat' first
    | with_reducible assumption
    | with_reducible apply ifaRun_keeps
    | split
    | intro _ _ _
    | intro _ _
    | dsimp only

theorem execIfaSrai_keeps {s₀ : State} {c : Fin 68} {rd ra n : Fin 32} {s : State} {u : State} (hk : Keeps s₀ s)
    (h : execIfaSrai c rd ra n s = .next u) : Keeps s₀ u := by
  unfold execIfaSrai at h
  injection h with h
  subst h
  repeat' first
    | with_reducible assumption
    | with_reducible apply ifaRun_keeps
    | split
    | intro _ _ _
    | intro _ _
    | dsimp only

theorem execIfaRoli_keeps {s₀ : State} {c : Fin 68} {rd ra n : Fin 32} {s : State} {u : State} (hk : Keeps s₀ s)
    (h : execIfaRoli c rd ra n s = .next u) : Keeps s₀ u := by
  unfold execIfaRoli at h
  injection h with h
  subst h
  repeat' first
    | with_reducible assumption
    | with_reducible apply ifaRun_keeps
    | split
    | intro _ _ _
    | intro _ _
    | dsimp only

theorem execIfaLw_keeps {s₀ : State} {c : Fin 68} {rd ra : Fin 32} {i : BitVec 16} {tmo bad : Bool} {s : State} {u : State} (hk : Keeps s₀ s)
    (h : execIfaLw c rd ra i tmo bad s = .next u) : Keeps s₀ u := by
  unfold execIfaLw at h
  injection h with h
  subst h
  repeat' first
    | with_reducible assumption
    | with_reducible apply State.load_keeps
    | with_reducible apply ifaRun_keeps
    | split
    | intro _ _ _
    | intro _ _
    | dsimp only

theorem execIfaLh_keeps {s₀ : State} {c : Fin 68} {rd ra : Fin 32} {i : BitVec 16} {tmo bad : Bool} {s : State} {u : State} (hk : Keeps s₀ s)
    (h : execIfaLh c rd ra i tmo bad s = .next u) : Keeps s₀ u := by
  unfold execIfaLh at h
  injection h with h
  subst h
  repeat' first
    | with_reducible assumption
    | with_reducible apply State.load_keeps
    | with_reducible apply ifaRun_keeps
    | split
    | intro _ _ _
    | intro _ _
    | dsimp only

theorem execIfaLhu_keeps {s₀ : State} {c : Fin 68} {rd ra : Fin 32} {i : BitVec 16} {tmo bad : Bool} {s : State} {u : State} (hk : Keeps s₀ s)
    (h : execIfaLhu c rd ra i tmo bad s = .next u) : Keeps s₀ u := by
  unfold execIfaLhu at h
  injection h with h
  subst h
  repeat' first
    | with_reducible assumption
    | with_reducible apply State.load_keeps
    | with_reducible apply ifaRun_keeps
    | split
    | intro _ _ _
    | intro _ _
    | dsimp only

theorem execIfaLb_keeps {s₀ : State} {c : Fin 68} {rd ra : Fin 32} {i : BitVec 16} {tmo bad : Bool} {s : State} {u : State} (hk : Keeps s₀ s)
    (h : execIfaLb c rd ra i tmo bad s = .next u) : Keeps s₀ u := by
  unfold execIfaLb at h
  injection h with h
  subst h
  repeat' first
    | with_reducible assumption
    | with_reducible apply State.load_keeps
    | with_reducible apply ifaRun_keeps
    | split
    | intro _ _ _
    | intro _ _
    | dsimp only

theorem execIfaLbu_keeps {s₀ : State} {c : Fin 68} {rd ra : Fin 32} {i : BitVec 16} {tmo bad : Bool} {s : State} {u : State} (hk : Keeps s₀ s)
    (h : execIfaLbu c rd ra i tmo bad s = .next u) : Keeps s₀ u := by
  unfold execIfaLbu at h
  injection h with h
  subst h
  repeat' first
    | with_reducible assumption
    | with_reducible apply State.load_keeps
    | with_reducible apply ifaRun_keeps
    | split
    | intro _ _ _
    | intro _ _
    | dsimp only

theorem execIfaSw_keeps {s₀ : State} {c : Fin 68} {rs ra : Fin 32} {i : BitVec 16} {s : State} {u : State} (hk : Keeps s₀ s)
    (h : execIfaSw c rs ra i s = .next u) : Keeps s₀ u := by
  unfold execIfaSw at h
  injection h with h
  subst h
  repeat' first
    | with_reducible assumption
    | with_reducible apply ifaRun_keeps
    | split
    | intro _ _ _
    | intro _ _
    | dsimp only

theorem execIfaSh_keeps {s₀ : State} {c : Fin 68} {rs ra : Fin 32} {i : BitVec 16} {s : State} {u : State} (hk : Keeps s₀ s)
    (h : execIfaSh c rs ra i s = .next u) : Keeps s₀ u := by
  unfold execIfaSh at h
  injection h with h
  subst h
  repeat' first
    | with_reducible assumption
    | with_reducible apply ifaRun_keeps
    | split
    | intro _ _ _
    | intro _ _
    | dsimp only

theorem execIfaSb_keeps {s₀ : State} {c : Fin 68} {rs ra : Fin 32} {i : BitVec 16} {s : State} {u : State} (hk : Keeps s₀ s)
    (h : execIfaSb c rs ra i s = .next u) : Keeps s₀ u := by
  unfold execIfaSb at h
  injection h with h
  subst h
  repeat' first
    | with_reducible assumption
    | with_reducible apply ifaRun_keeps
    | split
    | intro _ _ _
    | intro _ _
    | dsimp only

theorem execIfaStm_keeps {s₀ : State} {c : Fin 68} {base : Fin 8} {mask : BitVec 24} {n : Fin 25} {s : State} {u : State} (hk : Keeps s₀ s)
    (h : execIfaStm c base mask n s = .next u) : Keeps s₀ u := by
  unfold execIfaStm at h
  injection h with h
  subst h
  repeat' first
    | with_reducible assumption
    | with_reducible apply ifaRun_keeps
    | split
    | intro _ _ _
    | intro _ _
    | dsimp only

theorem execIfaLdm_keeps {s₀ : State} {c : Fin 68} {base : Fin 8} {mask : BitVec 24} {n : Fin 25} {tmo bad : Bool} {s : State} {u : State} (hk : Keeps s₀ s)
    (h : execIfaLdm c base mask n tmo bad s = .next u) : Keeps s₀ u := by
  unfold execIfaLdm at h
  injection h with h
  subst h
  repeat' first
    | with_reducible assumption
    | with_reducible apply ifaRun_keeps
    | split
    | intro _ _ _
    | intro _ _
    | dsimp only

theorem execIfaBeq_keeps {s₀ : State} {c : Fin 68} {ra rb : Fin 32} {off : BitVec 16} {s : State} {u : State} (hk : Keeps s₀ s)
    (h : execIfaBeq c ra rb off s = .next u) : Keeps s₀ u := by
  unfold execIfaBeq at h
  injection h with h
  subst h
  repeat' first
    | with_reducible assumption
    | with_reducible apply ifaRun_keeps
    | split
    | intro _ _ _
    | intro _ _
    | dsimp only

theorem execIfaBne_keeps {s₀ : State} {c : Fin 68} {ra rb : Fin 32} {off : BitVec 16} {s : State} {u : State} (hk : Keeps s₀ s)
    (h : execIfaBne c ra rb off s = .next u) : Keeps s₀ u := by
  unfold execIfaBne at h
  injection h with h
  subst h
  repeat' first
    | with_reducible assumption
    | with_reducible apply ifaRun_keeps
    | split
    | intro _ _ _
    | intro _ _
    | dsimp only

theorem execIfaBlt_keeps {s₀ : State} {c : Fin 68} {ra rb : Fin 32} {off : BitVec 16} {s : State} {u : State} (hk : Keeps s₀ s)
    (h : execIfaBlt c ra rb off s = .next u) : Keeps s₀ u := by
  unfold execIfaBlt at h
  injection h with h
  subst h
  repeat' first
    | with_reducible assumption
    | with_reducible apply ifaRun_keeps
    | split
    | intro _ _ _
    | intro _ _
    | dsimp only

theorem execIfaBge_keeps {s₀ : State} {c : Fin 68} {ra rb : Fin 32} {off : BitVec 16} {s : State} {u : State} (hk : Keeps s₀ s)
    (h : execIfaBge c ra rb off s = .next u) : Keeps s₀ u := by
  unfold execIfaBge at h
  injection h with h
  subst h
  repeat' first
    | with_reducible assumption
    | with_reducible apply ifaRun_keeps
    | split
    | intro _ _ _
    | intro _ _
    | dsimp only

theorem execIfaBltu_keeps {s₀ : State} {c : Fin 68} {ra rb : Fin 32} {off : BitVec 16} {s : State} {u : State} (hk : Keeps s₀ s)
    (h : execIfaBltu c ra rb off s = .next u) : Keeps s₀ u := by
  unfold execIfaBltu at h
  injection h with h
  subst h
  repeat' first
    | with_reducible assumption
    | with_reducible apply ifaRun_keeps
    | split
    | intro _ _ _
    | intro _ _
    | dsimp only

theorem execIfaBgeu_keeps {s₀ : State} {c : Fin 68} {ra rb : Fin 32} {off : BitVec 16} {s : State} {u : State} (hk : Keeps s₀ s)
    (h : execIfaBgeu c ra rb off s = .next u) : Keeps s₀ u := by
  unfold execIfaBgeu at h
  injection h with h
  subst h
  repeat' first
    | with_reducible assumption
    | with_reducible apply ifaRun_keeps
    | split
    | intro _ _ _
    | intro _ _
    | dsimp only

theorem execIfaBres_keeps {s₀ : State} {c : Fin 68} {off : BitVec 16} {s : State} {u : State} (hk : Keeps s₀ s)
    (h : execIfaBres c off s = .next u) : Keeps s₀ u := by
  unfold execIfaBres at h
  injection h with h
  subst h
  repeat' first
    | with_reducible assumption
    | with_reducible apply ifaRun_keeps
    | split
    | intro _ _ _
    | intro _ _
    | dsimp only

theorem execIfaJ_keeps {s₀ : State} {c : Fin 68} {off : BitVec 26} {s : State} {u : State} (hk : Keeps s₀ s)
    (h : execIfaJ c off s = .next u) : Keeps s₀ u := by
  unfold execIfaJ at h
  injection h with h
  subst h
  repeat' first
    | with_reducible assumption
    | with_reducible apply ifaRun_keeps
    | split
    | intro _ _ _
    | intro _ _
    | dsimp only

theorem execIfaCall_keeps {s₀ : State} {c : Fin 68} {off : BitVec 26} {s : State} {u : State} (hk : Keeps s₀ s)
    (h : execIfaCall c off s = .next u) : Keeps s₀ u := by
  unfold execIfaCall at h
  injection h with h
  subst h
  repeat' first
    | with_reducible assumption
    | with_reducible apply ifaRun_keeps
    | split
    | intro _ _ _
    | intro _ _
    | dsimp only

theorem execIfaCallw_keeps {s₀ : State} {c : Fin 68} {off : BitVec 26} {s : State} {u : State} (hk : Keeps s₀ s)
    (h : execIfaCallw c off s = .next u) : Keeps s₀ u := by
  unfold execIfaCallw at h
  injection h with h
  subst h
  repeat' first
    | with_reducible assumption
    | with_reducible apply ifaRun_keeps
    | split
    | intro _ _ _
    | intro _ _
    | dsimp only

theorem execIfaJr_keeps {s₀ : State} {c : Fin 68} {ra : Fin 32} {s : State} {u : State} (hk : Keeps s₀ s)
    (h : execIfaJr c ra s = .next u) : Keeps s₀ u := by
  unfold execIfaJr at h
  injection h with h
  subst h
  repeat' first
    | with_reducible assumption
    | with_reducible apply ifaRun_keeps
    | split
    | intro _ _ _
    | intro _ _
    | dsimp only

theorem execIfaCallr_keeps {s₀ : State} {c : Fin 68} {ra : Fin 32} {s : State} {u : State} (hk : Keeps s₀ s)
    (h : execIfaCallr c ra s = .next u) : Keeps s₀ u := by
  unfold execIfaCallr at h
  injection h with h
  subst h
  repeat' first
    | with_reducible assumption
    | with_reducible apply ifaRun_keeps
    | split
    | intro _ _ _
    | intro _ _
    | dsimp only

theorem execIfaCallwr_keeps {s₀ : State} {c : Fin 68} {ra : Fin 32} {s : State} {u : State} (hk : Keeps s₀ s)
    (h : execIfaCallwr c ra s = .next u) : Keeps s₀ u := by
  unfold execIfaCallwr at h
  injection h with h
  subst h
  repeat' first
    | with_reducible assumption
    | with_reducible apply ifaRun_keeps
    | split
    | intro _ _ _
    | intro _ _
    | dsimp only

theorem execIfaRetw_keeps {s₀ : State} {c : Fin 68} {s : State} {u : State} (hk : Keeps s₀ s)
    (h : execIfaRetw c s = .next u) : Keeps s₀ u := by
  unfold execIfaRetw at h
  injection h with h
  subst h
  repeat' first
    | with_reducible assumption
    | with_reducible apply ifaRun_keeps
    | split
    | intro _ _ _
    | intro _ _
    | dsimp only

theorem execIfaRfe_keeps {s₀ : State} {c : Fin 68} {s : State} {u : State} (hk : Keeps s₀ s)
    (h : execIfaRfe c s = .next u) : Keeps s₀ u := by
  unfold execIfaRfe at h
  injection h with h
  subst h
  repeat' first
    | with_reducible assumption
    | with_reducible apply ifaRun_keeps
    | split
    | intro _ _ _
    | intro _ _
    | dsimp only

theorem execIfaRff_keeps {s₀ : State} {c : Fin 68} {s : State} {u : State} (hk : Keeps s₀ s)
    (h : execIfaRff c s = .next u) : Keeps s₀ u := by
  unfold execIfaRff at h
  injection h with h
  subst h
  repeat' first
    | with_reducible assumption
    | with_reducible apply ifaRun_keeps
    | split
    | intro _ _ _
    | intro _ _
    | dsimp only

theorem execIfaHalt_keeps {s₀ : State} {c : Fin 68} {s : State} {u : State} (hk : Keeps s₀ s)
    (h : execIfaHalt c s = .next u) : Keeps s₀ u := by
  unfold execIfaHalt at h
  injection h with h
  subst h
  repeat' first
    | with_reducible assumption
    | with_reducible apply ifaRun_keeps
    | split
    | intro _ _ _
    | intro _ _
    | dsimp only

theorem execIfaWfi_keeps {s₀ : State} {c : Fin 68} {s : State} {u : State} (hk : Keeps s₀ s)
    (h : execIfaWfi c s = .next u) : Keeps s₀ u := by
  unfold execIfaWfi at h
  injection h with h
  subst h
  repeat' first
    | with_reducible assumption
    | with_reducible apply ifaRun_keeps
    | split
    | intro _ _ _
    | intro _ _
    | dsimp only

theorem execIfaFence_keeps {s₀ : State} {c : Fin 68} {s : State} {u : State} (hk : Keeps s₀ s)
    (h : execIfaFence c s = .next u) : Keeps s₀ u := by
  unfold execIfaFence at h
  injection h with h
  subst h
  repeat' first
    | with_reducible assumption
    | with_reducible apply ifaRun_keeps
    | split
    | intro _ _ _
    | intro _ _
    | dsimp only

theorem execIfaSyscall_keeps {s₀ : State} {c : Fin 68} {code : BitVec 10} {s : State} {u : State} (hk : Keeps s₀ s)
    (h : execIfaSyscall c code s = .next u) : Keeps s₀ u := by
  unfold execIfaSyscall at h
  injection h with h
  subst h
  repeat' first
    | with_reducible assumption
    | with_reducible apply ifaRun_keeps
    | split
    | intro _ _ _
    | intro _ _
    | dsimp only

theorem execIfaBreak_keeps {s₀ : State} {c : Fin 68} {code : BitVec 10} {s : State} {u : State} (hk : Keeps s₀ s)
    (h : execIfaBreak c code s = .next u) : Keeps s₀ u := by
  unfold execIfaBreak at h
  injection h with h
  subst h
  repeat' first
    | with_reducible assumption
    | with_reducible apply ifaRun_keeps
    | split
    | intro _ _ _
    | intro _ _
    | dsimp only

theorem execIfaSavectxLo_keeps {s₀ : State} {c : Fin 68} {ra : Fin 32} {s : State} {u : State} (hk : Keeps s₀ s)
    (h : execIfaSavectxLo c ra s = .next u) : Keeps s₀ u := by
  unfold execIfaSavectxLo at h
  injection h with h
  subst h
  repeat' first
    | with_reducible assumption
    | with_reducible apply ifaRun_keeps
    | split
    | intro _ _ _
    | intro _ _
    | dsimp only

theorem execIfaSavectxHi_keeps {s₀ : State} {c : Fin 68} {ra : Fin 32} {s : State} {u : State} (hk : Keeps s₀ s)
    (h : execIfaSavectxHi c ra s = .next u) : Keeps s₀ u := by
  unfold execIfaSavectxHi at h
  injection h with h
  subst h
  repeat' first
    | with_reducible assumption
    | with_reducible apply ifaRun_keeps
    | split
    | intro _ _ _
    | intro _ _
    | dsimp only

theorem execIfaLoadctxLo_keeps {s₀ : State} {c : Fin 68} {ra : Fin 32} {s : State} {u : State} (hk : Keeps s₀ s)
    (h : execIfaLoadctxLo c ra s = .next u) : Keeps s₀ u := by
  unfold execIfaLoadctxLo at h
  injection h with h
  subst h
  repeat' first
    | with_reducible assumption
    | with_reducible apply ifaRun_keeps
    | split
    | intro _ _ _
    | intro _ _
    | dsimp only

theorem execIfaLoadctxHi_keeps {s₀ : State} {c : Fin 68} {ra : Fin 32} {s : State} {u : State} (hk : Keeps s₀ s)
    (h : execIfaLoadctxHi c ra s = .next u) : Keeps s₀ u := by
  unfold execIfaLoadctxHi at h
  injection h with h
  subst h
  repeat' first
    | with_reducible assumption
    | with_reducible apply ifaRun_keeps
    | split
    | intro _ _ _
    | intro _ _
    | dsimp only

theorem execIfaIcinv_keeps {s₀ : State} {c : Fin 68} {ra : Fin 32} {s : State} {u : State} (hk : Keeps s₀ s)
    (h : execIfaIcinv c ra s = .next u) : Keeps s₀ u := by
  unfold execIfaIcinv at h
  injection h with h
  subst h
  repeat' first
    | with_reducible assumption
    | with_reducible apply ifaRun_keeps
    | split
    | intro _ _ _
    | intro _ _
    | dsimp only

theorem execIfaDcinv_keeps {s₀ : State} {c : Fin 68} {ra : Fin 32} {s : State} {u : State} (hk : Keeps s₀ s)
    (h : execIfaDcinv c ra s = .next u) : Keeps s₀ u := by
  unfold execIfaDcinv at h
  injection h with h
  subst h
  repeat' first
    | with_reducible assumption
    | with_reducible apply ifaRun_keeps
    | split
    | intro _ _ _
    | intro _ _
    | dsimp only

theorem execIfaL2flush_keeps {s₀ : State} {c : Fin 68} {ra : Fin 32} {s : State} {u : State} (hk : Keeps s₀ s)
    (h : execIfaL2flush c ra s = .next u) : Keeps s₀ u := by
  unfold execIfaL2flush at h
  injection h with h
  subst h
  repeat' first
    | with_reducible assumption
    | with_reducible apply ifaRun_keeps
    | split
    | intro _ _ _
    | intro _ _
    | dsimp only

theorem execIfaL2inv_keeps {s₀ : State} {c : Fin 68} {ra : Fin 32} {s : State} {u : State} (hk : Keeps s₀ s)
    (h : execIfaL2inv c ra s = .next u) : Keeps s₀ u := by
  unfold execIfaL2inv at h
  injection h with h
  subst h
  repeat' first
    | with_reducible assumption
    | with_reducible apply ifaRun_keeps
    | split
    | intro _ _ _
    | intro _ _
    | dsimp only

theorem execIfaL2flinv_keeps {s₀ : State} {c : Fin 68} {ra : Fin 32} {s : State} {u : State} (hk : Keeps s₀ s)
    (h : execIfaL2flinv c ra s = .next u) : Keeps s₀ u := by
  unfold execIfaL2flinv at h
  injection h with h
  subst h
  repeat' first
    | with_reducible assumption
    | with_reducible apply ifaRun_keeps
    | split
    | intro _ _ _
    | intro _ _
    | dsimp only

theorem execIfaMfc_keeps {s₀ : State} {c : Fin 68} {rd : Fin 32} {idx : BitVec 12} {s : State} {u : State} (hk : Keeps s₀ s)
    (h : execIfaMfc c rd idx s = .next u) : Keeps s₀ u := by
  unfold execIfaMfc at h
  injection h with h
  subst h
  repeat' first
    | with_reducible assumption
    | with_reducible apply ifaRun_keeps
    | split
    | intro _ _ _
    | intro _ _
    | dsimp only

theorem execIfaMtc_keeps {s₀ : State} {c : Fin 68} {rs : Fin 32} {idx : BitVec 12} {s : State} {u : State} (hk : Keeps s₀ s)
    (h : execIfaMtc c rs idx s = .next u) : Keeps s₀ u := by
  unfold execIfaMtc at h
  injection h with h
  subst h
  repeat' first
    | with_reducible assumption
    | with_reducible apply ifaRun_keeps
    | split
    | intro _ _ _
    | intro _ _
    | dsimp only

theorem execIfaVadd_keeps {s₀ : State} {c : Fin 68} {vd va vb : Fin 8} {dm : Fin 3} {sgn sat : Bool} {s : State} {u : State} (hk : Keeps s₀ s)
    (h : execIfaVadd c vd va vb dm sgn sat s = .next u) : Keeps s₀ u := by
  unfold execIfaVadd at h
  injection h with h
  subst h
  repeat' first
    | with_reducible assumption
    | with_reducible apply ifaRun_keeps
    | split
    | intro _ _ _
    | intro _ _
    | dsimp only

theorem execIfaVsub_keeps {s₀ : State} {c : Fin 68} {vd va vb : Fin 8} {dm : Fin 3} {sgn sat : Bool} {s : State} {u : State} (hk : Keeps s₀ s)
    (h : execIfaVsub c vd va vb dm sgn sat s = .next u) : Keeps s₀ u := by
  unfold execIfaVsub at h
  injection h with h
  subst h
  repeat' first
    | with_reducible assumption
    | with_reducible apply ifaRun_keeps
    | split
    | intro _ _ _
    | intro _ _
    | dsimp only

theorem execIfaVmul_keeps {s₀ : State} {c : Fin 68} {vd va vb : Fin 8} {dm : Fin 3} {sgn sat : Bool} {s : State} {u : State} (hk : Keeps s₀ s)
    (h : execIfaVmul c vd va vb dm sgn sat s = .next u) : Keeps s₀ u := by
  unfold execIfaVmul at h
  injection h with h
  subst h
  repeat' first
    | with_reducible assumption
    | with_reducible apply ifaRun_keeps
    | split
    | intro _ _ _
    | intro _ _
    | dsimp only

theorem execIfaVmin_keeps {s₀ : State} {c : Fin 68} {vd va vb : Fin 8} {dm : Fin 3} {sgn : Bool} {s : State} {u : State} (hk : Keeps s₀ s)
    (h : execIfaVmin c vd va vb dm sgn s = .next u) : Keeps s₀ u := by
  unfold execIfaVmin at h
  injection h with h
  subst h
  repeat' first
    | with_reducible assumption
    | with_reducible apply ifaRun_keeps
    | split
    | intro _ _ _
    | intro _ _
    | dsimp only

theorem execIfaVmax_keeps {s₀ : State} {c : Fin 68} {vd va vb : Fin 8} {dm : Fin 3} {sgn : Bool} {s : State} {u : State} (hk : Keeps s₀ s)
    (h : execIfaVmax c vd va vb dm sgn s = .next u) : Keeps s₀ u := by
  unfold execIfaVmax at h
  injection h with h
  subst h
  repeat' first
    | with_reducible assumption
    | with_reducible apply ifaRun_keeps
    | split
    | intro _ _ _
    | intro _ _
    | dsimp only

theorem execIfaVabsd_keeps {s₀ : State} {c : Fin 68} {vd va vb : Fin 8} {dm : Fin 3} {sgn : Bool} {s : State} {u : State} (hk : Keeps s₀ s)
    (h : execIfaVabsd c vd va vb dm sgn s = .next u) : Keeps s₀ u := by
  unfold execIfaVabsd at h
  injection h with h
  subst h
  repeat' first
    | with_reducible assumption
    | with_reducible apply ifaRun_keeps
    | split
    | intro _ _ _
    | intro _ _
    | dsimp only

theorem execIfaVcmplt_keeps {s₀ : State} {c : Fin 68} {vd va vb : Fin 8} {dm : Fin 3} {sgn : Bool} {s : State} {u : State} (hk : Keeps s₀ s)
    (h : execIfaVcmplt c vd va vb dm sgn s = .next u) : Keeps s₀ u := by
  unfold execIfaVcmplt at h
  injection h with h
  subst h
  repeat' first
    | with_reducible assumption
    | with_reducible apply ifaRun_keeps
    | split
    | intro _ _ _
    | intro _ _
    | dsimp only

theorem execIfaVand_keeps {s₀ : State} {c : Fin 68} {vd va vb : Fin 8} {s : State} {u : State} (hk : Keeps s₀ s)
    (h : execIfaVand c vd va vb s = .next u) : Keeps s₀ u := by
  unfold execIfaVand at h
  injection h with h
  subst h
  repeat' first
    | with_reducible assumption
    | with_reducible apply ifaRun_keeps
    | split
    | intro _ _ _
    | intro _ _
    | dsimp only

theorem execIfaVor_keeps {s₀ : State} {c : Fin 68} {vd va vb : Fin 8} {s : State} {u : State} (hk : Keeps s₀ s)
    (h : execIfaVor c vd va vb s = .next u) : Keeps s₀ u := by
  unfold execIfaVor at h
  injection h with h
  subst h
  repeat' first
    | with_reducible assumption
    | with_reducible apply ifaRun_keeps
    | split
    | intro _ _ _
    | intro _ _
    | dsimp only

theorem execIfaVxor_keeps {s₀ : State} {c : Fin 68} {vd va vb : Fin 8} {s : State} {u : State} (hk : Keeps s₀ s)
    (h : execIfaVxor c vd va vb s = .next u) : Keeps s₀ u := by
  unfold execIfaVxor at h
  injection h with h
  subst h
  repeat' first
    | with_reducible assumption
    | with_reducible apply ifaRun_keeps
    | split
    | intro _ _ _
    | intro _ _
    | dsimp only

theorem execIfaVcmpeq_keeps {s₀ : State} {c : Fin 68} {vd va vb : Fin 8} {dm : Fin 3} {s : State} {u : State} (hk : Keeps s₀ s)
    (h : execIfaVcmpeq c vd va vb dm s = .next u) : Keeps s₀ u := by
  unfold execIfaVcmpeq at h
  injection h with h
  subst h
  repeat' first
    | with_reducible assumption
    | with_reducible apply ifaRun_keeps
    | split
    | intro _ _ _
    | intro _ _
    | dsimp only

theorem execIfaVshl_keeps {s₀ : State} {c : Fin 68} {vd va : Fin 8} {r : Fin 32} {dm : Fin 3} {sgn sat : Bool} {s : State} {u : State} (hk : Keeps s₀ s)
    (h : execIfaVshl c vd va r dm sgn sat s = .next u) : Keeps s₀ u := by
  unfold execIfaVshl at h
  injection h with h
  subst h
  repeat' first
    | with_reducible assumption
    | with_reducible apply ifaRun_keeps
    | split
    | intro _ _ _
    | intro _ _
    | dsimp only

theorem execIfaVshr_keeps {s₀ : State} {c : Fin 68} {vd va : Fin 8} {r : Fin 32} {dm : Fin 3} {sgn : Bool} {s : State} {u : State} (hk : Keeps s₀ s)
    (h : execIfaVshr c vd va r dm sgn s = .next u) : Keeps s₀ u := by
  unfold execIfaVshr at h
  injection h with h
  subst h
  repeat' first
    | with_reducible assumption
    | with_reducible apply ifaRun_keeps
    | split
    | intro _ _ _
    | intro _ _
    | dsimp only

theorem execIfaVsplat_keeps {s₀ : State} {c : Fin 68} {vd : Fin 8} {r : Fin 32} {dm : Fin 3} {s : State} {u : State} (hk : Keeps s₀ s)
    (h : execIfaVsplat c vd r dm s = .next u) : Keeps s₀ u := by
  unfold execIfaVsplat at h
  injection h with h
  subst h
  repeat' first
    | with_reducible assumption
    | with_reducible apply ifaRun_keeps
    | split
    | intro _ _ _
    | intro _ _
    | dsimp only

theorem execIfaVext_keeps {s₀ : State} {c : Fin 68} {va : Fin 8} {r : Fin 32} {dm : Fin 3} {sgn : Bool} {idx : Fin 16} {s : State} {u : State} (hk : Keeps s₀ s)
    (h : execIfaVext c va r dm sgn idx s = .next u) : Keeps s₀ u := by
  unfold execIfaVext at h
  injection h with h
  subst h
  repeat' first
    | with_reducible assumption
    | with_reducible apply atBoundary_keeps
    | with_reducible apply oneInstr_keeps
    | split
    | intro _ _ _
    | intro _ _
    | dsimp only

theorem execIfaVins_keeps {s₀ : State} {c : Fin 68} {vd : Fin 8} {r : Fin 32} {dm : Fin 3} {idx : Fin 16} {s : State} {u : State} (hk : Keeps s₀ s)
    (h : execIfaVins c vd r dm idx s = .next u) : Keeps s₀ u := by
  unfold execIfaVins at h
  injection h with h
  subst h
  repeat' first
    | with_reducible assumption
    | with_reducible apply atBoundary_keeps
    | with_reducible apply oneInstr_keeps
    | split
    | intro _ _ _
    | intro _ _
    | dsimp only

theorem execIfaVld_keeps {s₀ : State} {c : Fin 68} {v : Fin 8} {ra : Fin 32} {off : BitVec 16} {tmo bad : Bool} {s : State} {u : State} (hk : Keeps s₀ s)
    (h : execIfaVld c v ra off tmo bad s = .next u) : Keeps s₀ u := by
  unfold execIfaVld at h
  injection h with h
  subst h
  repeat' first
    | with_reducible assumption
    | with_reducible apply ifaRun_keeps
    | split
    | intro _ _ _
    | intro _ _
    | dsimp only

theorem execIfaVst_keeps {s₀ : State} {c : Fin 68} {v : Fin 8} {ra : Fin 32} {off : BitVec 16} {s : State} {u : State} (hk : Keeps s₀ s)
    (h : execIfaVst c v ra off s = .next u) : Keeps s₀ u := by
  unfold execIfaVst at h
  injection h with h
  subst h
  repeat' first
    | with_reducible assumption
    | with_reducible apply ifaRun_keeps
    | split
    | intro _ _ _
    | intro _ _
    | dsimp only

theorem execIfaFsw_keeps {s₀ : State} {c : Fin 68} {rm : Fin 32} {slot : Fin 16} {clean : Bool} {s : State} {u : State} (hk : Keeps s₀ s)
    (h : execIfaFsw c rm slot clean s = .next u) : Keeps s₀ u := by
  unfold execIfaFsw at h
  injection h with h
  subst h
  repeat' first
    | with_reducible assumption
    | with_reducible apply ifaRun_keeps
    | split
    | intro _ _ _
    | intro _ _
    | dsimp only

theorem execIfaFswGo_keeps {s₀ : State} {c : Fin 68} {rm : Fin 32} {s : State} {u : State} (hk : Keeps s₀ s)
    (h : execIfaFswGo c rm s = .next u) : Keeps s₀ u := by
  unfold execIfaFswGo at h
  injection h with h
  subst h
  repeat' first
    | with_reducible assumption
    | with_reducible apply ifaRun_keeps
    | split
    | intro _ _ _
    | intro _ _
    | dsimp only

theorem execIfaFld_keeps {s₀ : State} {c : Fin 68} {rm : Fin 32} {slot : Fin 16} {verify hbm : Bool} {s : State} {u : State} (hk : Keeps s₀ s)
    (h : execIfaFld c rm slot verify hbm s = .next u) : Keeps s₀ u := by
  unfold execIfaFld at h
  injection h with h
  subst h
  repeat' first
    | with_reducible assumption
    | with_reducible apply ifaRun_keeps
    | split
    | intro _ _ _
    | intro _ _
    | dsimp only

theorem execIfaQput_keeps {s₀ : State} {c : Fin 68} {rd rm q : Fin 32} {epm : BitVec 3} {s : State} {u : State} (hk : Keeps s₀ s)
    (h : execIfaQput c rd rm q epm s = .next u) : Keeps s₀ u := by
  unfold execIfaQput at h
  injection h with h
  subst h
  repeat' first
    | with_reducible assumption
    | with_reducible apply ifaRun_keeps
    | split
    | intro _ _ _
    | intro _ _
    | dsimp only

theorem execIfaQget_keeps {s₀ : State} {c : Fin 68} {rd rs rm q : Fin 32} {tmo bad : Bool} {s : State} {u : State} (hk : Keeps s₀ s)
    (h : execIfaQget c rd rs rm q tmo bad s = .next u) : Keeps s₀ u := by
  unfold execIfaQget at h
  injection h with h
  subst h
  repeat' first
    | with_reducible assumption
    | with_reducible apply ifaRun_keeps
    | split
    | intro _ _ _
    | intro _ _
    | dsimp only

theorem execIfaQcmd_keeps {s₀ : State} {c : Fin 68} {rm q : Fin 32} {op : Fin 5} {s : State} {u : State} (hk : Keeps s₀ s)
    (h : execIfaQcmd c rm q op s = .next u) : Keeps s₀ u := by
  unfold execIfaQcmd at h
  injection h with h
  subst h
  repeat' first
    | with_reducible assumption
    | with_reducible apply ifaRun_keeps
    | split
    | intro _ _ _
    | intro _ _
    | dsimp only

theorem execIfaBsch_keeps {s₀ : State} {c : Fin 68} {act lo hi : Fin 32} {ch : Fin 64} {s : State} {u : State} (hk : Keeps s₀ s)
    (h : execIfaBsch c act lo hi ch s = .next u) : Keeps s₀ u := by
  unfold execIfaBsch at h
  injection h with h
  subst h
  repeat' first
    | with_reducible assumption
    | with_reducible apply ifaRun_keeps
    | split
    | intro _ _ _
    | intro _ _
    | dsimp only

theorem execIfaWfb_keeps {s₀ : State} {c : Fin 68} {rd seq rm : Fin 32} {ch : Fin 64} {tmo : Bool} {s : State} {u : State} (hk : Keeps s₀ s)
    (h : execIfaWfb c rd seq rm ch tmo s = .next u) : Keeps s₀ u := by
  unfold execIfaWfb at h
  injection h with h
  subst h
  repeat' first
    | with_reducible assumption
    | with_reducible apply ifaRun_keeps
    | split
    | intro _ _ _
    | intro _ _
    | dsimp only

theorem execIllegalInstruction_keeps {s₀ : State} {c : Fin 68} {w : Word} {s : State} {u : State} (hk : Keeps s₀ s)
    (h : execIllegalInstruction c w s = .next u) : Keeps s₀ u := by
  unfold execIllegalInstruction at h
  injection h with h
  subst h
  repeat' first
    | with_reducible assumption
    | with_reducible apply atBoundary_keeps
    | with_reducible apply oneInstr_keeps
    | with_reducible apply Keeps.when
    | split
    | intro _ _ _
    | intro _ _
    | dsimp only

theorem execInterruptEntry_keeps {s₀ : State} {c : Fin 68} {s : State} {u : State} (hk : Keeps s₀ s)
    (h : execInterruptEntry c s = .next u) : Keeps s₀ u := by
  unfold execInterruptEntry at h
  injection h with h
  subst h
  repeat' first
    | with_reducible assumption
    | with_reducible apply interruptEntry_keeps
    | split
    | intro _ _ _
    | intro _ _
    | dsimp only

theorem execFastInterrupt_keeps {s₀ : State} {c : Fin 68} {s : State} {u : State} (hk : Keeps s₀ s)
    (h : execFastInterrupt c s = .next u) : Keeps s₀ u := by
  unfold execFastInterrupt at h
  injection h with h
  subst h
  repeat' first
    | with_reducible assumption
    | with_reducible apply fastInterrupt_keeps
    | split
    | intro _ _ _
    | intro _ _
    | dsimp only

theorem execTimecmpMatch_keeps {s₀ : State} {c : Fin 68} {s : State} {u : State} (hk : Keeps s₀ s)
    (h : execTimecmpMatch c s = .next u) : Keeps s₀ u := by
  unfold execTimecmpMatch at h
  injection h with h
  subst h
  repeat' first
    | with_reducible assumption
    | with_reducible apply timecmpMatch_keeps
    | split
    | intro _ _ _
    | intro _ _
    | dsimp only

theorem execBusErr_keeps {s₀ : State} {c : Fin 68} {s : State} {u : State} (hk : Keeps s₀ s)
    (h : execBusErr c s = .next u) : Keeps s₀ u := by
  unfold execBusErr at h
  injection h with h
  subst h
  repeat' first
    | with_reducible assumption
    | with_reducible apply busError_keeps
    | split
    | intro _ _ _
    | intro _ _
    | dsimp only

theorem execSpill_keeps {s₀ : State} {i : Fin 4} {s : State} {u : State} (hk : Keeps s₀ s)
    (h : execSpill i s = .next u) : Keeps s₀ u := by
  unfold execSpill at h
  injection h with h
  subst h
  repeat' first
    | with_reducible assumption
    | with_reducible apply spillEngine_keeps
    | split
    | intro _ _ _
    | intro _ _
    | dsimp only

theorem execFill_keeps {s₀ : State} {i : Fin 4} {s : State} {u : State} (hk : Keeps s₀ s)
    (h : execFill i s = .next u) : Keeps s₀ u := by
  unfold execFill at h
  injection h with h
  subst h
  repeat' first
    | with_reducible assumption
    | with_reducible apply fillAhead_keeps
    | split
    | intro _ _ _
    | intro _ _
    | dsimp only

theorem execSpillResume_keeps {s₀ : State} {i : Fin 4} {s : State} {u : State} (hk : Keeps s₀ s)
    (h : execSpillResume i s = .next u) : Keeps s₀ u := by
  unfold execSpillResume at h
  injection h with h
  subst h
  repeat' first
    | with_reducible assumption
    | with_reducible apply spillResume_keeps
    | split
    | intro _ _ _
    | intro _ _
    | dsimp only

theorem execWfbReturn_keeps {s₀ : State} {c : Fin 68} {s : State} {u : State} (hk : Keeps s₀ s)
    (h : execWfbReturn c s = .next u) : Keeps s₀ u := by
  unfold execWfbReturn at h
  injection h with h
  subst h
  repeat' first
    | with_reducible assumption
    | with_reducible apply wfbReturn_keeps
    | split
    | intro _ _ _
    | intro _ _
    | dsimp only

theorem execCallerStep_keeps {s₀ : State} {m : Fin 64} {tmo bad : Bool} {s : State} {u : State} (hk : Keeps s₀ s)
    (h : execCallerStep m tmo bad s = .next u) : Keeps s₀ u := by
  unfold execCallerStep at h
  injection h with h
  subst h
  repeat' first
    | with_reducible assumption
    | with_reducible apply stepCore_keeps
    | with_reducible apply stepRequest_keeps
    | split
    | intro _ _ _
    | intro _ _
    | dsimp only

theorem execLeadStep_keeps {s₀ : State} {i : Fin 4} {tmo bad : Bool} {s : State} {u : State} (hk : Keeps s₀ s)
    (h : execLeadStep i tmo bad s = .next u) : Keeps s₀ u := by
  unfold execLeadStep at h
  injection h with h
  subst h
  repeat' first
    | with_reducible assumption
    | with_reducible apply stepCore_keeps
    | with_reducible apply stepRequest_keeps
    | split
    | intro _ _ _
    | intro _ _
    | dsimp only

theorem execSummitWr_keeps {s₀ : State} {p : Packet} {s : State} {u : State} (hk : Keeps s₀ s)
    (h : execSummitWr p s = .next u) : Keeps s₀ u := by
  unfold execSummitWr at h
  injection h with h
  subst h
  repeat' first
    | with_reducible assumption
    | with_reducible apply summitWrite_keeps
    | split
    | intro _ _ _
    | intro _ _
    | dsimp only

theorem execSummitBell_keeps {s₀ : State} {p : Packet} {s : State} {u : State} (hk : Keeps s₀ s)
    (h : execSummitBell p s = .next u) : Keeps s₀ u := by
  unfold execSummitBell at h
  injection h with h
  subst h
  repeat' first
    | with_reducible assumption
    | with_reducible apply summitBell_keeps
    | split
    | intro _ _ _
    | intro _ _
    | dsimp only

theorem execMemRd_keeps {s₀ : State} {p : Packet} {s : State} {u : State} (hk : Keeps s₀ s)
    (h : execMemRd p s = .next u) : Keeps s₀ u := by
  unfold execMemRd at h
  injection h with h
  subst h
  repeat' first
    | with_reducible assumption
    | with_reducible apply memRequest_keeps
    | split
    | intro _ _ _
    | intro _ _
    | dsimp only

theorem execMemWr_keeps {s₀ : State} {p : Packet} {s : State} {u : State} (hk : Keeps s₀ s)
    (h : execMemWr p s = .next u) : Keeps s₀ u := by
  unfold execMemWr at h
  injection h with h
  subst h
  repeat' first
    | with_reducible assumption
    | with_reducible apply memRequest_keeps
    | split
    | intro _ _ _
    | intro _ _
    | dsimp only

theorem execRegRd_keeps {s₀ : State} {p : Packet} {bad : Bool} {s : State} {u : State} (hk : Keeps s₀ s)
    (h : execRegRd p bad s = .next u) : Keeps s₀ u := by
  unfold execRegRd at h
  injection h with h
  subst h
  repeat' first
    | with_reducible assumption
    | with_reducible apply regReadArrive_keeps
    | split
    | intro _ _ _
    | intro _ _
    | dsimp only

theorem execRegWr_keeps {s₀ : State} {p : Packet} {s : State} {u : State} (hk : Keeps s₀ s)
    (h : execRegWr p s = .next u) : Keeps s₀ u := by
  unfold execRegWr at h
  injection h with h
  subst h
  repeat' first
    | with_reducible assumption
    | with_reducible apply regWriteArrive_keeps
    | split
    | intro _ _ _
    | intro _ _
    | dsimp only

theorem execMemRdresp_keeps {s₀ : State} {p : Packet} {s : State} {u : State} (hk : Keeps s₀ s)
    (h : execMemRdresp p s = .next u) : Keeps s₀ u := by
  unfold execMemRdresp at h
  injection h with h
  subst h
  repeat' first
    | with_reducible assumption
    | with_reducible apply completeReq_keeps
    | split
    | intro _ _ _
    | intro _ _
    | dsimp only

theorem execMemWrack_keeps {s₀ : State} {p : Packet} {s : State} {u : State} (hk : Keeps s₀ s)
    (h : execMemWrack p s = .next u) : Keeps s₀ u := by
  unfold execMemWrack at h
  injection h with h
  subst h
  repeat' first
    | with_reducible assumption
    | with_reducible apply completeReq_keeps
    | split
    | intro _ _ _
    | intro _ _
    | dsimp only

theorem execRegRdresp_keeps {s₀ : State} {p : Packet} {s : State} {u : State} (hk : Keeps s₀ s)
    (h : execRegRdresp p s = .next u) : Keeps s₀ u := by
  unfold execRegRdresp at h
  injection h with h
  subst h
  repeat' first
    | with_reducible assumption
    | with_reducible apply completeReq_keeps
    | split
    | intro _ _ _
    | intro _ _
    | dsimp only

theorem execRegWrack_keeps {s₀ : State} {p : Packet} {s : State} {u : State} (hk : Keeps s₀ s)
    (h : execRegWrack p s = .next u) : Keeps s₀ u := by
  unfold execRegWrack at h
  injection h with h
  subst h
  repeat' first
    | with_reducible assumption
    | with_reducible apply completeReq_keeps
    | split
    | intro _ _ _
    | intro _ _
    | dsimp only

theorem execStream_keeps {s₀ : State} {p : Packet} {s : State} {u : State} (hk : Keeps s₀ s)
    (h : execStream p s = .next u) : Keeps s₀ u := by
  unfold execStream at h
  injection h with h
  subst h
  repeat' first
    | with_reducible assumption
    | with_reducible apply streamArrive_keeps
    | split
    | intro _ _ _
    | intro _ _
    | dsimp only

theorem execReport_keeps {s₀ : State} {p : Packet} {s : State} {u : State} (hk : Keeps s₀ s)
    (h : execReport p s = .next u) : Keeps s₀ u := by
  unfold execReport at h
  injection h with h
  subst h
  repeat' first
    | with_reducible assumption
    | with_reducible apply reportEnter_keeps
    | split
    | intro _ _ _
    | intro _ _
    | dsimp only

theorem execBulkWr_keeps {s₀ : State} {p : Packet} {s : State} {u : State} (hk : Keeps s₀ s)
    (h : execBulkWr p s = .next u) : Keeps s₀ u := by
  unfold execBulkWr at h
  injection h with h
  subst h
  repeat' first
    | with_reducible assumption
    | with_reducible apply bulkWrite_keeps
    | split
    | intro _ _ _
    | intro _ _
    | dsimp only

theorem execMirror_keeps {s₀ : State} {p : Packet} {s : State} {u : State} (hk : Keeps s₀ s)
    (h : execMirror p s = .next u) : Keeps s₀ u := by
  unfold execMirror at h
  injection h with h
  subst h
  repeat' first
    | with_reducible assumption
    | with_reducible apply packetTaken_keeps
    | split
    | intro _ _ _
    | intro _ _
    | dsimp only

theorem execErrRecord_keeps {s₀ : State} {p : Packet} {s : State} {u : State} (hk : Keeps s₀ s)
    (h : execErrRecord p s = .next u) : Keeps s₀ u := by
  unfold execErrRecord at h
  injection h with h
  subst h
  repeat' first
    | with_reducible assumption
    | with_reducible apply packetTaken_keeps
    | split
    | intro _ _ _
    | intro _ _
    | dsimp only

theorem execPostedWr_keeps {s₀ : State} {p : Packet} {s : State} {u : State} (hk : Keeps s₀ s)
    (h : execPostedWr p s = .next u) : Keeps s₀ u := by
  unfold execPostedWr at h
  injection h with h
  subst h
  repeat' first
    | with_reducible assumption
    | with_reducible apply postedWrite_keeps
    | split
    | intro _ _ _
    | intro _ _
    | dsimp only

theorem execRequestTimeout_keeps {s₀ : State} {n : Fin 96} {tag : Fin 64} {read : Bool} {size : Byte} {s : State} {u : State} (hk : Keeps s₀ s)
    (h : execRequestTimeout n tag read size s = .next u) : Keeps s₀ u := by
  unfold execRequestTimeout at h
  injection h with h
  subst h
  repeat' first
    | with_reducible assumption
    | with_reducible apply requestTimeout_keeps
    | split
    | intro _ _ _
    | intro _ _
    | dsimp only

end Sys2Proof.Machine
end

