-- ==== Sys2Proof/Laws/State.lean ====
section
/-! SUPPORT. The small lemmas of State: what each update of the register file leaves of every other part, and what each
update of another part leaves of the registers. -/

namespace Sys2Proof.Machine

open Sys2Proof

/-! ### Reading a field after writing one -/

theorem State.get_put_self (s : State) (f : Fld) (v : Nat) : (s.put f v).get f = v % 2 ^ f.w := RegFile.get_put_self s.regs f v

theorem State.get_put_ne (s : State) {f g : Fld} (v : Nat) (h : g.key ≠ f.key) : (s.put f v).get g = s.get g :=
  RegFile.get_put_ne s.regs v h

theorem State.flag_put_ne (s : State) {f g : Fld} (v : Nat) (h : g.key ≠ f.key) : (s.put f v).flag g = s.flag g := by
  simp [State.flag, State.get_put_ne s v h]

@[simp] theorem State.when_true (s : State) (f : State → State) : s.when true f = f s := rfl
@[simp] theorem State.when_false (s : State) (f : State → State) : s.when false f = s := rfl
@[simp] theorem State.nextFree_fst (s : State) : s.nextFree.1 = s.freeCtr := rfl

/-- A fold of actions that leave every state as it is. -/
theorem State.each_id (s : State) (n : Nat) (f : Nat → State → State) (h : ∀ i, i < n → f i s = s) : s.each n f = s := by
  unfold State.each
  have : ∀ l : List Nat, (∀ i ∈ l, i < n) → l.foldl (fun t i => f i t) s = s := by
    intro l
    induction l with
    | nil => exact fun _ => rfl
    | cons i l ih =>
      intro hl
      rw [List.foldl_cons, h i (hl i (List.mem_cons_self ..))]
      exact ih fun j hj => hl j (List.mem_cons_of_mem _ hj)
  exact this _ fun i hi => List.mem_range.1 hi


/-! ### put -/

@[simp] theorem State.put_tb (s : State) (f : Fld) (v : Nat) : (s.put f v).tb = s.tb := rfl
@[simp] theorem State.put_cycle (s : State) (f : Fld) (v : Nat) : (s.put f v).cycle = s.cycle := rfl
@[simp] theorem State.put_was (s : State) (f : Fld) (v : Nat) : (s.put f v).was = s.was := rfl
@[simp] theorem State.put_pos (s : State) (f : Fld) (v : Nat) : (s.put f v).pos = s.pos := rfl
@[simp] theorem State.put_phc (s : State) (f : Fld) (v : Nat) : (s.put f v).phc = s.phc := rfl
@[simp] theorem State.put_tempo (s : State) (f : Fld) (v : Nat) : (s.put f v).tempo = s.tempo := rfl
@[simp] theorem State.put_fab (s : State) (f : Fld) (v : Nat) : (s.put f v).fab = s.fab := rfl
@[simp] theorem State.put_col (s : State) (f : Fld) (v : Nat) : (s.put f v).col = s.col := rfl
@[simp] theorem State.put_mem (s : State) (f : Fld) (v : Nat) : (s.put f v).mem = s.mem := rfl
@[simp] theorem State.put_ridge (s : State) (f : Fld) (v : Nat) : (s.put f v).ridge = s.ridge := rfl
@[simp] theorem State.put_power (s : State) (f : Fld) (v : Nat) : (s.put f v).power = s.power := rfl
@[simp] theorem State.put_pair (s : State) (f : Fld) (v : Nat) : (s.put f v).pair = s.pair := rfl
@[simp] theorem State.put_lanes (s : State) (f : Fld) (v : Nat) : (s.put f v).lanes = s.lanes := rfl
@[simp] theorem State.put_cores (s : State) (f : Fld) (v : Nat) : (s.put f v).cores = s.cores := rfl
@[simp] theorem State.put_host (s : State) (f : Fld) (v : Nat) : (s.put f v).host = s.host := rfl
@[simp] theorem State.put_out (s : State) (f : Fld) (v : Nat) : (s.put f v).out = s.out := rfl
@[simp] theorem State.put_freeCtr (s : State) (f : Fld) (v : Nat) : (s.put f v).freeCtr = s.freeCtr := rfl
@[simp] theorem State.put_pending (s : State) (f : Fld) (v : Nat) : (s.put f v).pending = s.pending := rfl

/-! ### putB -/

@[simp] theorem State.putB_tb (s : State) (f : Fld) (b : Bool) : (s.putB f b).tb = s.tb := rfl
@[simp] theorem State.putB_cycle (s : State) (f : Fld) (b : Bool) : (s.putB f b).cycle = s.cycle := rfl
@[simp] theorem State.putB_was (s : State) (f : Fld) (b : Bool) : (s.putB f b).was = s.was := rfl
@[simp] theorem State.putB_pos (s : State) (f : Fld) (b : Bool) : (s.putB f b).pos = s.pos := rfl
@[simp] theorem State.putB_phc (s : State) (f : Fld) (b : Bool) : (s.putB f b).phc = s.phc := rfl
@[simp] theorem State.putB_tempo (s : State) (f : Fld) (b : Bool) : (s.putB f b).tempo = s.tempo := rfl
@[simp] theorem State.putB_fab (s : State) (f : Fld) (b : Bool) : (s.putB f b).fab = s.fab := rfl
@[simp] theorem State.putB_col (s : State) (f : Fld) (b : Bool) : (s.putB f b).col = s.col := rfl
@[simp] theorem State.putB_mem (s : State) (f : Fld) (b : Bool) : (s.putB f b).mem = s.mem := rfl
@[simp] theorem State.putB_ridge (s : State) (f : Fld) (b : Bool) : (s.putB f b).ridge = s.ridge := rfl
@[simp] theorem State.putB_power (s : State) (f : Fld) (b : Bool) : (s.putB f b).power = s.power := rfl
@[simp] theorem State.putB_pair (s : State) (f : Fld) (b : Bool) : (s.putB f b).pair = s.pair := rfl
@[simp] theorem State.putB_lanes (s : State) (f : Fld) (b : Bool) : (s.putB f b).lanes = s.lanes := rfl
@[simp] theorem State.putB_cores (s : State) (f : Fld) (b : Bool) : (s.putB f b).cores = s.cores := rfl
@[simp] theorem State.putB_host (s : State) (f : Fld) (b : Bool) : (s.putB f b).host = s.host := rfl
@[simp] theorem State.putB_out (s : State) (f : Fld) (b : Bool) : (s.putB f b).out = s.out := rfl
@[simp] theorem State.putB_freeCtr (s : State) (f : Fld) (b : Bool) : (s.putB f b).freeCtr = s.freeCtr := rfl
@[simp] theorem State.putB_pending (s : State) (f : Fld) (b : Bool) : (s.putB f b).pending = s.pending := rfl

/-! ### load -/

@[simp] theorem State.load_tb (s : State) (f : Fld) (v : Word) : (s.load f v).tb = s.tb := rfl
@[simp] theorem State.load_cycle (s : State) (f : Fld) (v : Word) : (s.load f v).cycle = s.cycle := rfl
@[simp] theorem State.load_was (s : State) (f : Fld) (v : Word) : (s.load f v).was = s.was := rfl
@[simp] theorem State.load_pos (s : State) (f : Fld) (v : Word) : (s.load f v).pos = s.pos := rfl
@[simp] theorem State.load_phc (s : State) (f : Fld) (v : Word) : (s.load f v).phc = s.phc := rfl
@[simp] theorem State.load_tempo (s : State) (f : Fld) (v : Word) : (s.load f v).tempo = s.tempo := rfl
@[simp] theorem State.load_fab (s : State) (f : Fld) (v : Word) : (s.load f v).fab = s.fab := rfl
@[simp] theorem State.load_col (s : State) (f : Fld) (v : Word) : (s.load f v).col = s.col := rfl
@[simp] theorem State.load_mem (s : State) (f : Fld) (v : Word) : (s.load f v).mem = s.mem := rfl
@[simp] theorem State.load_ridge (s : State) (f : Fld) (v : Word) : (s.load f v).ridge = s.ridge := rfl
@[simp] theorem State.load_power (s : State) (f : Fld) (v : Word) : (s.load f v).power = s.power := rfl
@[simp] theorem State.load_pair (s : State) (f : Fld) (v : Word) : (s.load f v).pair = s.pair := rfl
@[simp] theorem State.load_lanes (s : State) (f : Fld) (v : Word) : (s.load f v).lanes = s.lanes := rfl
@[simp] theorem State.load_cores (s : State) (f : Fld) (v : Word) : (s.load f v).cores = s.cores := rfl
@[simp] theorem State.load_host (s : State) (f : Fld) (v : Word) : (s.load f v).host = s.host := rfl
@[simp] theorem State.load_out (s : State) (f : Fld) (v : Word) : (s.load f v).out = s.out := rfl
@[simp] theorem State.load_freeCtr (s : State) (f : Fld) (v : Word) : (s.load f v).freeCtr = s.freeCtr := rfl
@[simp] theorem State.load_pending (s : State) (f : Fld) (v : Word) : (s.load f v).pending = s.pending := rfl

/-! ### count -/

@[simp] theorem State.count_tb (s : State) (f : Fld) (n : Nat) : (s.count f n).tb = s.tb := rfl
@[simp] theorem State.count_cycle (s : State) (f : Fld) (n : Nat) : (s.count f n).cycle = s.cycle := rfl
@[simp] theorem State.count_was (s : State) (f : Fld) (n : Nat) : (s.count f n).was = s.was := rfl
@[simp] theorem State.count_pos (s : State) (f : Fld) (n : Nat) : (s.count f n).pos = s.pos := rfl
@[simp] theorem State.count_phc (s : State) (f : Fld) (n : Nat) : (s.count f n).phc = s.phc := rfl
@[simp] theorem State.count_tempo (s : State) (f : Fld) (n : Nat) : (s.count f n).tempo = s.tempo := rfl
@[simp] theorem State.count_fab (s : State) (f : Fld) (n : Nat) : (s.count f n).fab = s.fab := rfl
@[simp] theorem State.count_col (s : State) (f : Fld) (n : Nat) : (s.count f n).col = s.col := rfl
@[simp] theorem State.count_mem (s : State) (f : Fld) (n : Nat) : (s.count f n).mem = s.mem := rfl
@[simp] theorem State.count_ridge (s : State) (f : Fld) (n : Nat) : (s.count f n).ridge = s.ridge := rfl
@[simp] theorem State.count_power (s : State) (f : Fld) (n : Nat) : (s.count f n).power = s.power := rfl
@[simp] theorem State.count_pair (s : State) (f : Fld) (n : Nat) : (s.count f n).pair = s.pair := rfl
@[simp] theorem State.count_lanes (s : State) (f : Fld) (n : Nat) : (s.count f n).lanes = s.lanes := rfl
@[simp] theorem State.count_cores (s : State) (f : Fld) (n : Nat) : (s.count f n).cores = s.cores := rfl
@[simp] theorem State.count_host (s : State) (f : Fld) (n : Nat) : (s.count f n).host = s.host := rfl
@[simp] theorem State.count_out (s : State) (f : Fld) (n : Nat) : (s.count f n).out = s.out := rfl
@[simp] theorem State.count_freeCtr (s : State) (f : Fld) (n : Nat) : (s.count f n).freeCtr = s.freeCtr := rfl
@[simp] theorem State.count_pending (s : State) (f : Fld) (n : Nat) : (s.count f n).pending = s.pending := rfl

/-! ### irq -/

@[simp] theorem State.irq_tb (s : State) (base i : Nat) : (s.irq base i).tb = s.tb := rfl
@[simp] theorem State.irq_cycle (s : State) (base i : Nat) : (s.irq base i).cycle = s.cycle := rfl
@[simp] theorem State.irq_was (s : State) (base i : Nat) : (s.irq base i).was = s.was := rfl
@[simp] theorem State.irq_pos (s : State) (base i : Nat) : (s.irq base i).pos = s.pos := rfl
@[simp] theorem State.irq_phc (s : State) (base i : Nat) : (s.irq base i).phc = s.phc := rfl
@[simp] theorem State.irq_tempo (s : State) (base i : Nat) : (s.irq base i).tempo = s.tempo := rfl
@[simp] theorem State.irq_fab (s : State) (base i : Nat) : (s.irq base i).fab = s.fab := rfl
@[simp] theorem State.irq_col (s : State) (base i : Nat) : (s.irq base i).col = s.col := rfl
@[simp] theorem State.irq_mem (s : State) (base i : Nat) : (s.irq base i).mem = s.mem := rfl
@[simp] theorem State.irq_ridge (s : State) (base i : Nat) : (s.irq base i).ridge = s.ridge := rfl
@[simp] theorem State.irq_power (s : State) (base i : Nat) : (s.irq base i).power = s.power := rfl
@[simp] theorem State.irq_pair (s : State) (base i : Nat) : (s.irq base i).pair = s.pair := rfl
@[simp] theorem State.irq_lanes (s : State) (base i : Nat) : (s.irq base i).lanes = s.lanes := rfl
@[simp] theorem State.irq_cores (s : State) (base i : Nat) : (s.irq base i).cores = s.cores := rfl
@[simp] theorem State.irq_host (s : State) (base i : Nat) : (s.irq base i).host = s.host := rfl
@[simp] theorem State.irq_out (s : State) (base i : Nat) : (s.irq base i).out = s.out := rfl
@[simp] theorem State.irq_freeCtr (s : State) (base i : Nat) : (s.irq base i).freeCtr = s.freeCtr := rfl
@[simp] theorem State.irq_pending (s : State) (base i : Nat) : (s.irq base i).pending = s.pending := rfl

/-! ### put2 -/

@[simp] theorem State.put2_tb (s : State) (lo hi : Fld) (v : Nat) : (s.put2 lo hi v).tb = s.tb := rfl
@[simp] theorem State.put2_cycle (s : State) (lo hi : Fld) (v : Nat) : (s.put2 lo hi v).cycle = s.cycle := rfl
@[simp] theorem State.put2_was (s : State) (lo hi : Fld) (v : Nat) : (s.put2 lo hi v).was = s.was := rfl
@[simp] theorem State.put2_pos (s : State) (lo hi : Fld) (v : Nat) : (s.put2 lo hi v).pos = s.pos := rfl
@[simp] theorem State.put2_phc (s : State) (lo hi : Fld) (v : Nat) : (s.put2 lo hi v).phc = s.phc := rfl
@[simp] theorem State.put2_tempo (s : State) (lo hi : Fld) (v : Nat) : (s.put2 lo hi v).tempo = s.tempo := rfl
@[simp] theorem State.put2_fab (s : State) (lo hi : Fld) (v : Nat) : (s.put2 lo hi v).fab = s.fab := rfl
@[simp] theorem State.put2_col (s : State) (lo hi : Fld) (v : Nat) : (s.put2 lo hi v).col = s.col := rfl
@[simp] theorem State.put2_mem (s : State) (lo hi : Fld) (v : Nat) : (s.put2 lo hi v).mem = s.mem := rfl
@[simp] theorem State.put2_ridge (s : State) (lo hi : Fld) (v : Nat) : (s.put2 lo hi v).ridge = s.ridge := rfl
@[simp] theorem State.put2_power (s : State) (lo hi : Fld) (v : Nat) : (s.put2 lo hi v).power = s.power := rfl
@[simp] theorem State.put2_pair (s : State) (lo hi : Fld) (v : Nat) : (s.put2 lo hi v).pair = s.pair := rfl
@[simp] theorem State.put2_lanes (s : State) (lo hi : Fld) (v : Nat) : (s.put2 lo hi v).lanes = s.lanes := rfl
@[simp] theorem State.put2_cores (s : State) (lo hi : Fld) (v : Nat) : (s.put2 lo hi v).cores = s.cores := rfl
@[simp] theorem State.put2_host (s : State) (lo hi : Fld) (v : Nat) : (s.put2 lo hi v).host = s.host := rfl
@[simp] theorem State.put2_out (s : State) (lo hi : Fld) (v : Nat) : (s.put2 lo hi v).out = s.out := rfl
@[simp] theorem State.put2_freeCtr (s : State) (lo hi : Fld) (v : Nat) : (s.put2 lo hi v).freeCtr = s.freeCtr := rfl
@[simp] theorem State.put2_pending (s : State) (lo hi : Fld) (v : Nat) : (s.put2 lo hi v).pending = s.pending := rfl

/-! ### setIrq -/

@[simp] theorem State.setIrq_tb (s : State) (f : Fld) (base i : Nat) : (s.setIrq f base i).tb = s.tb := by
  unfold State.setIrq
  cases s.flag f <;> rfl
@[simp] theorem State.setIrq_cycle (s : State) (f : Fld) (base i : Nat) : (s.setIrq f base i).cycle = s.cycle := by
  unfold State.setIrq
  cases s.flag f <;> rfl
@[simp] theorem State.setIrq_was (s : State) (f : Fld) (base i : Nat) : (s.setIrq f base i).was = s.was := by
  unfold State.setIrq
  cases s.flag f <;> rfl
@[simp] theorem State.setIrq_pos (s : State) (f : Fld) (base i : Nat) : (s.setIrq f base i).pos = s.pos := by
  unfold State.setIrq
  cases s.flag f <;> rfl
@[simp] theorem State.setIrq_phc (s : State) (f : Fld) (base i : Nat) : (s.setIrq f base i).phc = s.phc := by
  unfold State.setIrq
  cases s.flag f <;> rfl
@[simp] theorem State.setIrq_tempo (s : State) (f : Fld) (base i : Nat) : (s.setIrq f base i).tempo = s.tempo := by
  unfold State.setIrq
  cases s.flag f <;> rfl
@[simp] theorem State.setIrq_fab (s : State) (f : Fld) (base i : Nat) : (s.setIrq f base i).fab = s.fab := by
  unfold State.setIrq
  cases s.flag f <;> rfl
@[simp] theorem State.setIrq_col (s : State) (f : Fld) (base i : Nat) : (s.setIrq f base i).col = s.col := by
  unfold State.setIrq
  cases s.flag f <;> rfl
@[simp] theorem State.setIrq_mem (s : State) (f : Fld) (base i : Nat) : (s.setIrq f base i).mem = s.mem := by
  unfold State.setIrq
  cases s.flag f <;> rfl
@[simp] theorem State.setIrq_ridge (s : State) (f : Fld) (base i : Nat) : (s.setIrq f base i).ridge = s.ridge := by
  unfold State.setIrq
  cases s.flag f <;> rfl
@[simp] theorem State.setIrq_power (s : State) (f : Fld) (base i : Nat) : (s.setIrq f base i).power = s.power := by
  unfold State.setIrq
  cases s.flag f <;> rfl
@[simp] theorem State.setIrq_pair (s : State) (f : Fld) (base i : Nat) : (s.setIrq f base i).pair = s.pair := by
  unfold State.setIrq
  cases s.flag f <;> rfl
@[simp] theorem State.setIrq_lanes (s : State) (f : Fld) (base i : Nat) : (s.setIrq f base i).lanes = s.lanes := by
  unfold State.setIrq
  cases s.flag f <;> rfl
@[simp] theorem State.setIrq_cores (s : State) (f : Fld) (base i : Nat) : (s.setIrq f base i).cores = s.cores := by
  unfold State.setIrq
  cases s.flag f <;> rfl
@[simp] theorem State.setIrq_host (s : State) (f : Fld) (base i : Nat) : (s.setIrq f base i).host = s.host := by
  unfold State.setIrq
  cases s.flag f <;> rfl
@[simp] theorem State.setIrq_out (s : State) (f : Fld) (base i : Nat) : (s.setIrq f base i).out = s.out := by
  unfold State.setIrq
  cases s.flag f <;> rfl
@[simp] theorem State.setIrq_freeCtr (s : State) (f : Fld) (base i : Nat) : (s.setIrq f base i).freeCtr = s.freeCtr := by
  unfold State.setIrq
  cases s.flag f <;> rfl
@[simp] theorem State.setIrq_pending (s : State) (f : Fld) (base i : Nat) : (s.setIrq f base i).pending = s.pending := by
  unfold State.setIrq
  cases s.flag f <;> rfl

/-! ### emit and nextFree -/

@[simp] theorem State.emit_regs (s : State) (e : Emit) : (s.emit e).regs = s.regs := rfl
@[simp] theorem State.nextFree_regs (s : State) : s.nextFree.2.regs = s.regs := rfl
@[simp] theorem State.emit_tb (s : State) (e : Emit) : (s.emit e).tb = s.tb := rfl
@[simp] theorem State.nextFree_tb (s : State) : s.nextFree.2.tb = s.tb := rfl
@[simp] theorem State.emit_cycle (s : State) (e : Emit) : (s.emit e).cycle = s.cycle := rfl
@[simp] theorem State.nextFree_cycle (s : State) : s.nextFree.2.cycle = s.cycle := rfl
@[simp] theorem State.emit_was (s : State) (e : Emit) : (s.emit e).was = s.was := rfl
@[simp] theorem State.nextFree_was (s : State) : s.nextFree.2.was = s.was := rfl
@[simp] theorem State.emit_pos (s : State) (e : Emit) : (s.emit e).pos = s.pos := rfl
@[simp] theorem State.nextFree_pos (s : State) : s.nextFree.2.pos = s.pos := rfl
@[simp] theorem State.emit_phc (s : State) (e : Emit) : (s.emit e).phc = s.phc := rfl
@[simp] theorem State.nextFree_phc (s : State) : s.nextFree.2.phc = s.phc := rfl
@[simp] theorem State.emit_tempo (s : State) (e : Emit) : (s.emit e).tempo = s.tempo := rfl
@[simp] theorem State.nextFree_tempo (s : State) : s.nextFree.2.tempo = s.tempo := rfl
@[simp] theorem State.emit_fab (s : State) (e : Emit) : (s.emit e).fab = s.fab := rfl
@[simp] theorem State.nextFree_fab (s : State) : s.nextFree.2.fab = s.fab := rfl
@[simp] theorem State.emit_col (s : State) (e : Emit) : (s.emit e).col = s.col := rfl
@[simp] theorem State.nextFree_col (s : State) : s.nextFree.2.col = s.col := rfl
@[simp] theorem State.emit_mem (s : State) (e : Emit) : (s.emit e).mem = s.mem := rfl
@[simp] theorem State.nextFree_mem (s : State) : s.nextFree.2.mem = s.mem := rfl
@[simp] theorem State.emit_ridge (s : State) (e : Emit) : (s.emit e).ridge = s.ridge := rfl
@[simp] theorem State.nextFree_ridge (s : State) : s.nextFree.2.ridge = s.ridge := rfl
@[simp] theorem State.emit_power (s : State) (e : Emit) : (s.emit e).power = s.power := rfl
@[simp] theorem State.nextFree_power (s : State) : s.nextFree.2.power = s.power := rfl
@[simp] theorem State.emit_pair (s : State) (e : Emit) : (s.emit e).pair = s.pair := rfl
@[simp] theorem State.nextFree_pair (s : State) : s.nextFree.2.pair = s.pair := rfl
@[simp] theorem State.emit_lanes (s : State) (e : Emit) : (s.emit e).lanes = s.lanes := rfl
@[simp] theorem State.nextFree_lanes (s : State) : s.nextFree.2.lanes = s.lanes := rfl
@[simp] theorem State.emit_cores (s : State) (e : Emit) : (s.emit e).cores = s.cores := rfl
@[simp] theorem State.nextFree_cores (s : State) : s.nextFree.2.cores = s.cores := rfl
@[simp] theorem State.emit_host (s : State) (e : Emit) : (s.emit e).host = s.host := rfl
@[simp] theorem State.nextFree_host (s : State) : s.nextFree.2.host = s.host := rfl
@[simp] theorem State.nextFree_out (s : State) : s.nextFree.2.out = s.out := rfl
@[simp] theorem State.emit_freeCtr (s : State) (e : Emit) : (s.emit e).freeCtr = s.freeCtr := rfl
@[simp] theorem State.emit_pending (s : State) (e : Emit) : (s.emit e).pending = s.pending := rfl
@[simp] theorem State.nextFree_pending (s : State) : s.nextFree.2.pending = s.pending := rfl
@[simp] theorem State.emit_out (s : State) (e : Emit) : (s.emit e).out = e :: s.out := rfl
@[simp] theorem State.nextFree_freeCtr (s : State) : s.nextFree.2.freeCtr = s.freeCtr + 1 := rfl
@[simp] theorem State.get_emit (s : State) (e : Emit) (f : Fld) : (s.emit e).get f = s.get f := rfl
@[simp] theorem State.get_nextFree (s : State) (f : Fld) : s.nextFree.2.get f = s.get f := rfl

/-! ### Updates of the other parts -/

@[simp] theorem State.setEnc_get (s : State) (n : Nat) (e : EncCh) (f : Fld) : (State.setEnc s n e).get f = s.get f := rfl
@[simp] theorem State.setEnc_tb (s : State) (n : Nat) (e : EncCh) : (State.setEnc s n e).tb = s.tb := rfl
@[simp] theorem State.setEnc_cycle (s : State) (n : Nat) (e : EncCh) : (State.setEnc s n e).cycle = s.cycle := rfl
@[simp] theorem State.setEnc_was (s : State) (n : Nat) (e : EncCh) : (State.setEnc s n e).was = s.was := rfl
@[simp] theorem State.setEnc_phc (s : State) (n : Nat) (e : EncCh) : (State.setEnc s n e).phc = s.phc := rfl
@[simp] theorem State.setEnc_tempo (s : State) (n : Nat) (e : EncCh) : (State.setEnc s n e).tempo = s.tempo := rfl
@[simp] theorem State.setEnc_fab (s : State) (n : Nat) (e : EncCh) : (State.setEnc s n e).fab = s.fab := rfl
@[simp] theorem State.setEnc_col (s : State) (n : Nat) (e : EncCh) : (State.setEnc s n e).col = s.col := rfl
@[simp] theorem State.setEnc_mem (s : State) (n : Nat) (e : EncCh) : (State.setEnc s n e).mem = s.mem := rfl
@[simp] theorem State.setEnc_ridge (s : State) (n : Nat) (e : EncCh) : (State.setEnc s n e).ridge = s.ridge := rfl
@[simp] theorem State.setEnc_power (s : State) (n : Nat) (e : EncCh) : (State.setEnc s n e).power = s.power := rfl
@[simp] theorem State.setEnc_pair (s : State) (n : Nat) (e : EncCh) : (State.setEnc s n e).pair = s.pair := rfl
@[simp] theorem State.setEnc_lanes (s : State) (n : Nat) (e : EncCh) : (State.setEnc s n e).lanes = s.lanes := rfl
@[simp] theorem State.setEnc_cores (s : State) (n : Nat) (e : EncCh) : (State.setEnc s n e).cores = s.cores := rfl
@[simp] theorem State.setEnc_host (s : State) (n : Nat) (e : EncCh) : (State.setEnc s n e).host = s.host := rfl
@[simp] theorem State.setEnc_out (s : State) (n : Nat) (e : EncCh) : (State.setEnc s n e).out = s.out := rfl
@[simp] theorem State.setEnc_freeCtr (s : State) (n : Nat) (e : EncCh) : (State.setEnc s n e).freeCtr = s.freeCtr := rfl
@[simp] theorem State.setEnc_pending (s : State) (n : Nat) (e : EncCh) : (State.setEnc s n e).pending = s.pending := rfl
@[simp] theorem State.setBc_get (s : State) (c : Nat) (b : BeatCh) (f : Fld) : (State.setBc s c b).get f = s.get f := rfl
@[simp] theorem State.setBc_tb (s : State) (c : Nat) (b : BeatCh) : (State.setBc s c b).tb = s.tb := rfl
@[simp] theorem State.setBc_cycle (s : State) (c : Nat) (b : BeatCh) : (State.setBc s c b).cycle = s.cycle := rfl
@[simp] theorem State.setBc_was (s : State) (c : Nat) (b : BeatCh) : (State.setBc s c b).was = s.was := rfl
@[simp] theorem State.setBc_phc (s : State) (c : Nat) (b : BeatCh) : (State.setBc s c b).phc = s.phc := rfl
@[simp] theorem State.setBc_tempo (s : State) (c : Nat) (b : BeatCh) : (State.setBc s c b).tempo = s.tempo := rfl
@[simp] theorem State.setBc_fab (s : State) (c : Nat) (b : BeatCh) : (State.setBc s c b).fab = s.fab := rfl
@[simp] theorem State.setBc_col (s : State) (c : Nat) (b : BeatCh) : (State.setBc s c b).col = s.col := rfl
@[simp] theorem State.setBc_mem (s : State) (c : Nat) (b : BeatCh) : (State.setBc s c b).mem = s.mem := rfl
@[simp] theorem State.setBc_ridge (s : State) (c : Nat) (b : BeatCh) : (State.setBc s c b).ridge = s.ridge := rfl
@[simp] theorem State.setBc_power (s : State) (c : Nat) (b : BeatCh) : (State.setBc s c b).power = s.power := rfl
@[simp] theorem State.setBc_pair (s : State) (c : Nat) (b : BeatCh) : (State.setBc s c b).pair = s.pair := rfl
@[simp] theorem State.setBc_lanes (s : State) (c : Nat) (b : BeatCh) : (State.setBc s c b).lanes = s.lanes := rfl
@[simp] theorem State.setBc_cores (s : State) (c : Nat) (b : BeatCh) : (State.setBc s c b).cores = s.cores := rfl
@[simp] theorem State.setBc_host (s : State) (c : Nat) (b : BeatCh) : (State.setBc s c b).host = s.host := rfl
@[simp] theorem State.setBc_out (s : State) (c : Nat) (b : BeatCh) : (State.setBc s c b).out = s.out := rfl
@[simp] theorem State.setBc_freeCtr (s : State) (c : Nat) (b : BeatCh) : (State.setBc s c b).freeCtr = s.freeCtr := rfl
@[simp] theorem State.setBc_pending (s : State) (c : Nat) (b : BeatCh) : (State.setBc s c b).pending = s.pending := rfl
@[simp] theorem State.setBo_get (s : State) (o : Nat) (b : BeatOut) (f : Fld) : (State.setBo s o b).get f = s.get f := rfl
@[simp] theorem State.setBo_tb (s : State) (o : Nat) (b : BeatOut) : (State.setBo s o b).tb = s.tb := rfl
@[simp] theorem State.setBo_cycle (s : State) (o : Nat) (b : BeatOut) : (State.setBo s o b).cycle = s.cycle := rfl
@[simp] theorem State.setBo_was (s : State) (o : Nat) (b : BeatOut) : (State.setBo s o b).was = s.was := rfl
@[simp] theorem State.setBo_phc (s : State) (o : Nat) (b : BeatOut) : (State.setBo s o b).phc = s.phc := rfl
@[simp] theorem State.setBo_tempo (s : State) (o : Nat) (b : BeatOut) : (State.setBo s o b).tempo = s.tempo := rfl
@[simp] theorem State.setBo_fab (s : State) (o : Nat) (b : BeatOut) : (State.setBo s o b).fab = s.fab := rfl
@[simp] theorem State.setBo_col (s : State) (o : Nat) (b : BeatOut) : (State.setBo s o b).col = s.col := rfl
@[simp] theorem State.setBo_mem (s : State) (o : Nat) (b : BeatOut) : (State.setBo s o b).mem = s.mem := rfl
@[simp] theorem State.setBo_ridge (s : State) (o : Nat) (b : BeatOut) : (State.setBo s o b).ridge = s.ridge := rfl
@[simp] theorem State.setBo_power (s : State) (o : Nat) (b : BeatOut) : (State.setBo s o b).power = s.power := rfl
@[simp] theorem State.setBo_pair (s : State) (o : Nat) (b : BeatOut) : (State.setBo s o b).pair = s.pair := rfl
@[simp] theorem State.setBo_lanes (s : State) (o : Nat) (b : BeatOut) : (State.setBo s o b).lanes = s.lanes := rfl
@[simp] theorem State.setBo_cores (s : State) (o : Nat) (b : BeatOut) : (State.setBo s o b).cores = s.cores := rfl
@[simp] theorem State.setBo_host (s : State) (o : Nat) (b : BeatOut) : (State.setBo s o b).host = s.host := rfl
@[simp] theorem State.setBo_out (s : State) (o : Nat) (b : BeatOut) : (State.setBo s o b).out = s.out := rfl
@[simp] theorem State.setBo_freeCtr (s : State) (o : Nat) (b : BeatOut) : (State.setBo s o b).freeCtr = s.freeCtr := rfl
@[simp] theorem State.setBo_pending (s : State) (o : Nat) (b : BeatOut) : (State.setBo s o b).pending = s.pending := rfl
@[simp] theorem State.setTport_get (s : State) (p : Nat) (t : TempoPort) (f : Fld) : (State.setTport s p t).get f = s.get f := rfl
@[simp] theorem State.setTport_tb (s : State) (p : Nat) (t : TempoPort) : (State.setTport s p t).tb = s.tb := rfl
@[simp] theorem State.setTport_cycle (s : State) (p : Nat) (t : TempoPort) : (State.setTport s p t).cycle = s.cycle := rfl
@[simp] theorem State.setTport_was (s : State) (p : Nat) (t : TempoPort) : (State.setTport s p t).was = s.was := rfl
@[simp] theorem State.setTport_pos (s : State) (p : Nat) (t : TempoPort) : (State.setTport s p t).pos = s.pos := rfl
@[simp] theorem State.setTport_phc (s : State) (p : Nat) (t : TempoPort) : (State.setTport s p t).phc = s.phc := rfl
@[simp] theorem State.setTport_fab (s : State) (p : Nat) (t : TempoPort) : (State.setTport s p t).fab = s.fab := rfl
@[simp] theorem State.setTport_col (s : State) (p : Nat) (t : TempoPort) : (State.setTport s p t).col = s.col := rfl
@[simp] theorem State.setTport_mem (s : State) (p : Nat) (t : TempoPort) : (State.setTport s p t).mem = s.mem := rfl
@[simp] theorem State.setTport_ridge (s : State) (p : Nat) (t : TempoPort) : (State.setTport s p t).ridge = s.ridge := rfl
@[simp] theorem State.setTport_power (s : State) (p : Nat) (t : TempoPort) : (State.setTport s p t).power = s.power := rfl
@[simp] theorem State.setTport_pair (s : State) (p : Nat) (t : TempoPort) : (State.setTport s p t).pair = s.pair := rfl
@[simp] theorem State.setTport_lanes (s : State) (p : Nat) (t : TempoPort) : (State.setTport s p t).lanes = s.lanes := rfl
@[simp] theorem State.setTport_cores (s : State) (p : Nat) (t : TempoPort) : (State.setTport s p t).cores = s.cores := rfl
@[simp] theorem State.setTport_host (s : State) (p : Nat) (t : TempoPort) : (State.setTport s p t).host = s.host := rfl
@[simp] theorem State.setTport_out (s : State) (p : Nat) (t : TempoPort) : (State.setTport s p t).out = s.out := rfl
@[simp] theorem State.setTport_freeCtr (s : State) (p : Nat) (t : TempoPort) : (State.setTport s p t).freeCtr = s.freeCtr := rfl
@[simp] theorem State.setTport_pending (s : State) (p : Nat) (t : TempoPort) : (State.setTport s p t).pending = s.pending := rfl
@[simp] theorem State.setTpc_get (s : State) (c : Nat) (t : TpcState) (f : Fld) : (State.setTpc s c t).get f = s.get f := rfl
@[simp] theorem State.setTpc_tb (s : State) (c : Nat) (t : TpcState) : (State.setTpc s c t).tb = s.tb := rfl
@[simp] theorem State.setTpc_cycle (s : State) (c : Nat) (t : TpcState) : (State.setTpc s c t).cycle = s.cycle := rfl
@[simp] theorem State.setTpc_was (s : State) (c : Nat) (t : TpcState) : (State.setTpc s c t).was = s.was := rfl
@[simp] theorem State.setTpc_pos (s : State) (c : Nat) (t : TpcState) : (State.setTpc s c t).pos = s.pos := rfl
@[simp] theorem State.setTpc_phc (s : State) (c : Nat) (t : TpcState) : (State.setTpc s c t).phc = s.phc := rfl
@[simp] theorem State.setTpc_fab (s : State) (c : Nat) (t : TpcState) : (State.setTpc s c t).fab = s.fab := rfl
@[simp] theorem State.setTpc_col (s : State) (c : Nat) (t : TpcState) : (State.setTpc s c t).col = s.col := rfl
@[simp] theorem State.setTpc_mem (s : State) (c : Nat) (t : TpcState) : (State.setTpc s c t).mem = s.mem := rfl
@[simp] theorem State.setTpc_ridge (s : State) (c : Nat) (t : TpcState) : (State.setTpc s c t).ridge = s.ridge := rfl
@[simp] theorem State.setTpc_power (s : State) (c : Nat) (t : TpcState) : (State.setTpc s c t).power = s.power := rfl
@[simp] theorem State.setTpc_pair (s : State) (c : Nat) (t : TpcState) : (State.setTpc s c t).pair = s.pair := rfl
@[simp] theorem State.setTpc_lanes (s : State) (c : Nat) (t : TpcState) : (State.setTpc s c t).lanes = s.lanes := rfl
@[simp] theorem State.setTpc_cores (s : State) (c : Nat) (t : TpcState) : (State.setTpc s c t).cores = s.cores := rfl
@[simp] theorem State.setTpc_host (s : State) (c : Nat) (t : TpcState) : (State.setTpc s c t).host = s.host := rfl
@[simp] theorem State.setTpc_out (s : State) (c : Nat) (t : TpcState) : (State.setTpc s c t).out = s.out := rfl
@[simp] theorem State.setTpc_freeCtr (s : State) (c : Nat) (t : TpcState) : (State.setTpc s c t).freeCtr = s.freeCtr := rfl
@[simp] theorem State.setTpc_pending (s : State) (c : Nat) (t : TpcState) : (State.setTpc s c t).pending = s.pending := rfl
@[simp] theorem State.noteShift_get (n : Int) (s : State) (f : Fld) : (State.noteShift n s).get f = s.get f := rfl
@[simp] theorem State.noteShift_tb (n : Int) (s : State) : (State.noteShift n s).tb = s.tb := rfl
@[simp] theorem State.noteShift_cycle (n : Int) (s : State) : (State.noteShift n s).cycle = s.cycle := rfl
@[simp] theorem State.noteShift_was (n : Int) (s : State) : (State.noteShift n s).was = s.was := rfl
@[simp] theorem State.noteShift_pos (n : Int) (s : State) : (State.noteShift n s).pos = s.pos := rfl
@[simp] theorem State.noteShift_phc (n : Int) (s : State) : (State.noteShift n s).phc = s.phc := rfl
@[simp] theorem State.noteShift_fab (n : Int) (s : State) : (State.noteShift n s).fab = s.fab := rfl
@[simp] theorem State.noteShift_col (n : Int) (s : State) : (State.noteShift n s).col = s.col := rfl
@[simp] theorem State.noteShift_mem (n : Int) (s : State) : (State.noteShift n s).mem = s.mem := rfl
@[simp] theorem State.noteShift_ridge (n : Int) (s : State) : (State.noteShift n s).ridge = s.ridge := rfl
@[simp] theorem State.noteShift_power (n : Int) (s : State) : (State.noteShift n s).power = s.power := rfl
@[simp] theorem State.noteShift_pair (n : Int) (s : State) : (State.noteShift n s).pair = s.pair := rfl
@[simp] theorem State.noteShift_lanes (n : Int) (s : State) : (State.noteShift n s).lanes = s.lanes := rfl
@[simp] theorem State.noteShift_cores (n : Int) (s : State) : (State.noteShift n s).cores = s.cores := rfl
@[simp] theorem State.noteShift_host (n : Int) (s : State) : (State.noteShift n s).host = s.host := rfl
@[simp] theorem State.noteShift_out (n : Int) (s : State) : (State.noteShift n s).out = s.out := rfl
@[simp] theorem State.noteShift_freeCtr (n : Int) (s : State) : (State.noteShift n s).freeCtr = s.freeCtr := rfl
@[simp] theorem State.noteShift_pending (n : Int) (s : State) : (State.noteShift n s).pending = s.pending := rfl
@[simp] theorem State.noOffset_get (s : State) (f : Fld) : (State.noOffset s).get f = s.get f := rfl
@[simp] theorem State.noOffset_tb (s : State) : (State.noOffset s).tb = s.tb := rfl
@[simp] theorem State.noOffset_cycle (s : State) : (State.noOffset s).cycle = s.cycle := rfl
@[simp] theorem State.noOffset_was (s : State) : (State.noOffset s).was = s.was := rfl
@[simp] theorem State.noOffset_pos (s : State) : (State.noOffset s).pos = s.pos := rfl
@[simp] theorem State.noOffset_phc (s : State) : (State.noOffset s).phc = s.phc := rfl
@[simp] theorem State.noOffset_fab (s : State) : (State.noOffset s).fab = s.fab := rfl
@[simp] theorem State.noOffset_col (s : State) : (State.noOffset s).col = s.col := rfl
@[simp] theorem State.noOffset_mem (s : State) : (State.noOffset s).mem = s.mem := rfl
@[simp] theorem State.noOffset_ridge (s : State) : (State.noOffset s).ridge = s.ridge := rfl
@[simp] theorem State.noOffset_power (s : State) : (State.noOffset s).power = s.power := rfl
@[simp] theorem State.noOffset_pair (s : State) : (State.noOffset s).pair = s.pair := rfl
@[simp] theorem State.noOffset_lanes (s : State) : (State.noOffset s).lanes = s.lanes := rfl
@[simp] theorem State.noOffset_cores (s : State) : (State.noOffset s).cores = s.cores := rfl
@[simp] theorem State.noOffset_host (s : State) : (State.noOffset s).host = s.host := rfl
@[simp] theorem State.noOffset_out (s : State) : (State.noOffset s).out = s.out := rfl
@[simp] theorem State.noOffset_freeCtr (s : State) : (State.noOffset s).freeCtr = s.freeCtr := rfl
@[simp] theorem State.noOffset_pending (s : State) : (State.noOffset s).pending = s.pending := rfl
@[simp] theorem State.setNiQueue_get (s : State) (n v : Nat) (l : List Packet) (f : Fld) : (State.setNiQueue s n v l).get f = s.get f := rfl
@[simp] theorem State.setNiQueue_tb (s : State) (n v : Nat) (l : List Packet) : (State.setNiQueue s n v l).tb = s.tb := rfl
@[simp] theorem State.setNiQueue_cycle (s : State) (n v : Nat) (l : List Packet) : (State.setNiQueue s n v l).cycle = s.cycle := rfl
@[simp] theorem State.setNiQueue_was (s : State) (n v : Nat) (l : List Packet) : (State.setNiQueue s n v l).was = s.was := rfl
@[simp] theorem State.setNiQueue_pos (s : State) (n v : Nat) (l : List Packet) : (State.setNiQueue s n v l).pos = s.pos := rfl
@[simp] theorem State.setNiQueue_phc (s : State) (n v : Nat) (l : List Packet) : (State.setNiQueue s n v l).phc = s.phc := rfl
@[simp] theorem State.setNiQueue_tempo (s : State) (n v : Nat) (l : List Packet) : (State.setNiQueue s n v l).tempo = s.tempo := rfl
@[simp] theorem State.setNiQueue_fab (s : State) (n v : Nat) (l : List Packet) : (State.setNiQueue s n v l).fab = s.fab := rfl
@[simp] theorem State.setNiQueue_col (s : State) (n v : Nat) (l : List Packet) : (State.setNiQueue s n v l).col = s.col := rfl
@[simp] theorem State.setNiQueue_mem (s : State) (n v : Nat) (l : List Packet) : (State.setNiQueue s n v l).mem = s.mem := rfl
@[simp] theorem State.setNiQueue_power (s : State) (n v : Nat) (l : List Packet) : (State.setNiQueue s n v l).power = s.power := rfl
@[simp] theorem State.setNiQueue_pair (s : State) (n v : Nat) (l : List Packet) : (State.setNiQueue s n v l).pair = s.pair := rfl
@[simp] theorem State.setNiQueue_lanes (s : State) (n v : Nat) (l : List Packet) : (State.setNiQueue s n v l).lanes = s.lanes := rfl
@[simp] theorem State.setNiQueue_cores (s : State) (n v : Nat) (l : List Packet) : (State.setNiQueue s n v l).cores = s.cores := rfl
@[simp] theorem State.setNiQueue_host (s : State) (n v : Nat) (l : List Packet) : (State.setNiQueue s n v l).host = s.host := rfl
@[simp] theorem State.setNiQueue_out (s : State) (n v : Nat) (l : List Packet) : (State.setNiQueue s n v l).out = s.out := rfl
@[simp] theorem State.setNiQueue_freeCtr (s : State) (n v : Nat) (l : List Packet) : (State.setNiQueue s n v l).freeCtr = s.freeCtr := rfl
@[simp] theorem State.setNiQueue_pending (s : State) (n v : Nat) (l : List Packet) : (State.setNiQueue s n v l).pending = s.pending := rfl
@[simp] theorem State.setInbox_get (s : State) (n : Nat) (l : List Packet) (f : Fld) : (State.setInbox s n l).get f = s.get f := rfl
@[simp] theorem State.setInbox_tb (s : State) (n : Nat) (l : List Packet) : (State.setInbox s n l).tb = s.tb := rfl
@[simp] theorem State.setInbox_cycle (s : State) (n : Nat) (l : List Packet) : (State.setInbox s n l).cycle = s.cycle := rfl
@[simp] theorem State.setInbox_was (s : State) (n : Nat) (l : List Packet) : (State.setInbox s n l).was = s.was := rfl
@[simp] theorem State.setInbox_pos (s : State) (n : Nat) (l : List Packet) : (State.setInbox s n l).pos = s.pos := rfl
@[simp] theorem State.setInbox_phc (s : State) (n : Nat) (l : List Packet) : (State.setInbox s n l).phc = s.phc := rfl
@[simp] theorem State.setInbox_tempo (s : State) (n : Nat) (l : List Packet) : (State.setInbox s n l).tempo = s.tempo := rfl
@[simp] theorem State.setInbox_fab (s : State) (n : Nat) (l : List Packet) : (State.setInbox s n l).fab = s.fab := rfl
@[simp] theorem State.setInbox_col (s : State) (n : Nat) (l : List Packet) : (State.setInbox s n l).col = s.col := rfl
@[simp] theorem State.setInbox_mem (s : State) (n : Nat) (l : List Packet) : (State.setInbox s n l).mem = s.mem := rfl
@[simp] theorem State.setInbox_power (s : State) (n : Nat) (l : List Packet) : (State.setInbox s n l).power = s.power := rfl
@[simp] theorem State.setInbox_pair (s : State) (n : Nat) (l : List Packet) : (State.setInbox s n l).pair = s.pair := rfl
@[simp] theorem State.setInbox_lanes (s : State) (n : Nat) (l : List Packet) : (State.setInbox s n l).lanes = s.lanes := rfl
@[simp] theorem State.setInbox_cores (s : State) (n : Nat) (l : List Packet) : (State.setInbox s n l).cores = s.cores := rfl
@[simp] theorem State.setInbox_host (s : State) (n : Nat) (l : List Packet) : (State.setInbox s n l).host = s.host := rfl
@[simp] theorem State.setInbox_out (s : State) (n : Nat) (l : List Packet) : (State.setInbox s n l).out = s.out := rfl
@[simp] theorem State.setInbox_freeCtr (s : State) (n : Nat) (l : List Packet) : (State.setInbox s n l).freeCtr = s.freeCtr := rfl
@[simp] theorem State.setInbox_pending (s : State) (n : Nat) (l : List Packet) : (State.setInbox s n l).pending = s.pending := rfl
@[simp] theorem State.setWakeBuf_get (s : State) (m : Nat) (l : List Packet) (f : Fld) : (State.setWakeBuf s m l).get f = s.get f := rfl
@[simp] theorem State.setWakeBuf_tb (s : State) (m : Nat) (l : List Packet) : (State.setWakeBuf s m l).tb = s.tb := rfl
@[simp] theorem State.setWakeBuf_cycle (s : State) (m : Nat) (l : List Packet) : (State.setWakeBuf s m l).cycle = s.cycle := rfl
@[simp] theorem State.setWakeBuf_was (s : State) (m : Nat) (l : List Packet) : (State.setWakeBuf s m l).was = s.was := rfl
@[simp] theorem State.setWakeBuf_pos (s : State) (m : Nat) (l : List Packet) : (State.setWakeBuf s m l).pos = s.pos := rfl
@[simp] theorem State.setWakeBuf_phc (s : State) (m : Nat) (l : List Packet) : (State.setWakeBuf s m l).phc = s.phc := rfl
@[simp] theorem State.setWakeBuf_tempo (s : State) (m : Nat) (l : List Packet) : (State.setWakeBuf s m l).tempo = s.tempo := rfl
@[simp] theorem State.setWakeBuf_fab (s : State) (m : Nat) (l : List Packet) : (State.setWakeBuf s m l).fab = s.fab := rfl
@[simp] theorem State.setWakeBuf_col (s : State) (m : Nat) (l : List Packet) : (State.setWakeBuf s m l).col = s.col := rfl
@[simp] theorem State.setWakeBuf_mem (s : State) (m : Nat) (l : List Packet) : (State.setWakeBuf s m l).mem = s.mem := rfl
@[simp] theorem State.setWakeBuf_power (s : State) (m : Nat) (l : List Packet) : (State.setWakeBuf s m l).power = s.power := rfl
@[simp] theorem State.setWakeBuf_pair (s : State) (m : Nat) (l : List Packet) : (State.setWakeBuf s m l).pair = s.pair := rfl
@[simp] theorem State.setWakeBuf_lanes (s : State) (m : Nat) (l : List Packet) : (State.setWakeBuf s m l).lanes = s.lanes := rfl
@[simp] theorem State.setWakeBuf_cores (s : State) (m : Nat) (l : List Packet) : (State.setWakeBuf s m l).cores = s.cores := rfl
@[simp] theorem State.setWakeBuf_host (s : State) (m : Nat) (l : List Packet) : (State.setWakeBuf s m l).host = s.host := rfl
@[simp] theorem State.setWakeBuf_out (s : State) (m : Nat) (l : List Packet) : (State.setWakeBuf s m l).out = s.out := rfl
@[simp] theorem State.setWakeBuf_freeCtr (s : State) (m : Nat) (l : List Packet) : (State.setWakeBuf s m l).freeCtr = s.freeCtr := rfl
@[simp] theorem State.setWakeBuf_pending (s : State) (m : Nat) (l : List Packet) : (State.setWakeBuf s m l).pending = s.pending := rfl
@[simp] theorem State.setWire_get (s : State) (k : Nat) (w : Wire) (f : Fld) : (State.setWire s k w).get f = s.get f := rfl
@[simp] theorem State.setWire_tb (s : State) (k : Nat) (w : Wire) : (State.setWire s k w).tb = s.tb := rfl
@[simp] theorem State.setWire_cycle (s : State) (k : Nat) (w : Wire) : (State.setWire s k w).cycle = s.cycle := rfl
@[simp] theorem State.setWire_was (s : State) (k : Nat) (w : Wire) : (State.setWire s k w).was = s.was := rfl
@[simp] theorem State.setWire_pos (s : State) (k : Nat) (w : Wire) : (State.setWire s k w).pos = s.pos := rfl
@[simp] theorem State.setWire_phc (s : State) (k : Nat) (w : Wire) : (State.setWire s k w).phc = s.phc := rfl
@[simp] theorem State.setWire_tempo (s : State) (k : Nat) (w : Wire) : (State.setWire s k w).tempo = s.tempo := rfl
@[simp] theorem State.setWire_fab (s : State) (k : Nat) (w : Wire) : (State.setWire s k w).fab = s.fab := rfl
@[simp] theorem State.setWire_col (s : State) (k : Nat) (w : Wire) : (State.setWire s k w).col = s.col := rfl
@[simp] theorem State.setWire_mem (s : State) (k : Nat) (w : Wire) : (State.setWire s k w).mem = s.mem := rfl
@[simp] theorem State.setWire_power (s : State) (k : Nat) (w : Wire) : (State.setWire s k w).power = s.power := rfl
@[simp] theorem State.setWire_pair (s : State) (k : Nat) (w : Wire) : (State.setWire s k w).pair = s.pair := rfl
@[simp] theorem State.setWire_lanes (s : State) (k : Nat) (w : Wire) : (State.setWire s k w).lanes = s.lanes := rfl
@[simp] theorem State.setWire_cores (s : State) (k : Nat) (w : Wire) : (State.setWire s k w).cores = s.cores := rfl
@[simp] theorem State.setWire_host (s : State) (k : Nat) (w : Wire) : (State.setWire s k w).host = s.host := rfl
@[simp] theorem State.setWire_out (s : State) (k : Nat) (w : Wire) : (State.setWire s k w).out = s.out := rfl
@[simp] theorem State.setWire_freeCtr (s : State) (k : Nat) (w : Wire) : (State.setWire s k w).freeCtr = s.freeCtr := rfl
@[simp] theorem State.setWire_pending (s : State) (k : Nat) (w : Wire) : (State.setWire s k w).pending = s.pending := rfl
@[simp] theorem State.setShelf_get (s : State) (m : Nat) (h : Shelf) (f : Fld) : (State.setShelf s m h).get f = s.get f := rfl
@[simp] theorem State.setShelf_tb (s : State) (m : Nat) (h : Shelf) : (State.setShelf s m h).tb = s.tb := rfl
@[simp] theorem State.setShelf_cycle (s : State) (m : Nat) (h : Shelf) : (State.setShelf s m h).cycle = s.cycle := rfl
@[simp] theorem State.setShelf_was (s : State) (m : Nat) (h : Shelf) : (State.setShelf s m h).was = s.was := rfl
@[simp] theorem State.setShelf_pos (s : State) (m : Nat) (h : Shelf) : (State.setShelf s m h).pos = s.pos := rfl
@[simp] theorem State.setShelf_phc (s : State) (m : Nat) (h : Shelf) : (State.setShelf s m h).phc = s.phc := rfl
@[simp] theorem State.setShelf_tempo (s : State) (m : Nat) (h : Shelf) : (State.setShelf s m h).tempo = s.tempo := rfl
@[simp] theorem State.setShelf_fab (s : State) (m : Nat) (h : Shelf) : (State.setShelf s m h).fab = s.fab := rfl
@[simp] theorem State.setShelf_col (s : State) (m : Nat) (h : Shelf) : (State.setShelf s m h).col = s.col := rfl
@[simp] theorem State.setShelf_ridge (s : State) (m : Nat) (h : Shelf) : (State.setShelf s m h).ridge = s.ridge := rfl
@[simp] theorem State.setShelf_power (s : State) (m : Nat) (h : Shelf) : (State.setShelf s m h).power = s.power := rfl
@[simp] theorem State.setShelf_pair (s : State) (m : Nat) (h : Shelf) : (State.setShelf s m h).pair = s.pair := rfl
@[simp] theorem State.setShelf_lanes (s : State) (m : Nat) (h : Shelf) : (State.setShelf s m h).lanes = s.lanes := rfl
@[simp] theorem State.setShelf_cores (s : State) (m : Nat) (h : Shelf) : (State.setShelf s m h).cores = s.cores := rfl
@[simp] theorem State.setShelf_host (s : State) (m : Nat) (h : Shelf) : (State.setShelf s m h).host = s.host := rfl
@[simp] theorem State.setShelf_out (s : State) (m : Nat) (h : Shelf) : (State.setShelf s m h).out = s.out := rfl
@[simp] theorem State.setShelf_freeCtr (s : State) (m : Nat) (h : Shelf) : (State.setShelf s m h).freeCtr = s.freeCtr := rfl
@[simp] theorem State.setShelf_pending (s : State) (m : Nat) (h : Shelf) : (State.setShelf s m h).pending = s.pending := rfl
@[simp] theorem State.setShelfCell_get (s : State) (m w : Nat) (v : BitVec 40) (f : Fld) : (State.setShelfCell s m w v).get f = s.get f := rfl
@[simp] theorem State.setShelfCell_tb (s : State) (m w : Nat) (v : BitVec 40) : (State.setShelfCell s m w v).tb = s.tb := rfl
@[simp] theorem State.setShelfCell_cycle (s : State) (m w : Nat) (v : BitVec 40) : (State.setShelfCell s m w v).cycle = s.cycle := rfl
@[simp] theorem State.setShelfCell_was (s : State) (m w : Nat) (v : BitVec 40) : (State.setShelfCell s m w v).was = s.was := rfl
@[simp] theorem State.setShelfCell_pos (s : State) (m w : Nat) (v : BitVec 40) : (State.setShelfCell s m w v).pos = s.pos := rfl
@[simp] theorem State.setShelfCell_phc (s : State) (m w : Nat) (v : BitVec 40) : (State.setShelfCell s m w v).phc = s.phc := rfl
@[simp] theorem State.setShelfCell_tempo (s : State) (m w : Nat) (v : BitVec 40) : (State.setShelfCell s m w v).tempo = s.tempo := rfl
@[simp] theorem State.setShelfCell_fab (s : State) (m w : Nat) (v : BitVec 40) : (State.setShelfCell s m w v).fab = s.fab := rfl
@[simp] theorem State.setShelfCell_col (s : State) (m w : Nat) (v : BitVec 40) : (State.setShelfCell s m w v).col = s.col := rfl
@[simp] theorem State.setShelfCell_ridge (s : State) (m w : Nat) (v : BitVec 40) : (State.setShelfCell s m w v).ridge = s.ridge := rfl
@[simp] theorem State.setShelfCell_power (s : State) (m w : Nat) (v : BitVec 40) : (State.setShelfCell s m w v).power = s.power := rfl
@[simp] theorem State.setShelfCell_pair (s : State) (m w : Nat) (v : BitVec 40) : (State.setShelfCell s m w v).pair = s.pair := rfl
@[simp] theorem State.setShelfCell_lanes (s : State) (m w : Nat) (v : BitVec 40) : (State.setShelfCell s m w v).lanes = s.lanes := rfl
@[simp] theorem State.setShelfCell_cores (s : State) (m w : Nat) (v : BitVec 40) : (State.setShelfCell s m w v).cores = s.cores := rfl
@[simp] theorem State.setShelfCell_host (s : State) (m w : Nat) (v : BitVec 40) : (State.setShelfCell s m w v).host = s.host := rfl
@[simp] theorem State.setShelfCell_out (s : State) (m w : Nat) (v : BitVec 40) : (State.setShelfCell s m w v).out = s.out := rfl
@[simp] theorem State.setShelfCell_freeCtr (s : State) (m w : Nat) (v : BitVec 40) : (State.setShelfCell s m w v).freeCtr = s.freeCtr := rfl
@[simp] theorem State.setShelfCell_pending (s : State) (m w : Nat) (v : BitVec 40) : (State.setShelfCell s m w v).pending = s.pending := rfl
@[simp] theorem State.setHbmCell_get (s : State) (c g : Nat) (v : BitVec 72) (f : Fld) : (State.setHbmCell s c g v).get f = s.get f := rfl
@[simp] theorem State.setHbmCell_tb (s : State) (c g : Nat) (v : BitVec 72) : (State.setHbmCell s c g v).tb = s.tb := rfl
@[simp] theorem State.setHbmCell_cycle (s : State) (c g : Nat) (v : BitVec 72) : (State.setHbmCell s c g v).cycle = s.cycle := rfl
@[simp] theorem State.setHbmCell_was (s : State) (c g : Nat) (v : BitVec 72) : (State.setHbmCell s c g v).was = s.was := rfl
@[simp] theorem State.setHbmCell_pos (s : State) (c g : Nat) (v : BitVec 72) : (State.setHbmCell s c g v).pos = s.pos := rfl
@[simp] theorem State.setHbmCell_phc (s : State) (c g : Nat) (v : BitVec 72) : (State.setHbmCell s c g v).phc = s.phc := rfl
@[simp] theorem State.setHbmCell_tempo (s : State) (c g : Nat) (v : BitVec 72) : (State.setHbmCell s c g v).tempo = s.tempo := rfl
@[simp] theorem State.setHbmCell_fab (s : State) (c g : Nat) (v : BitVec 72) : (State.setHbmCell s c g v).fab = s.fab := rfl
@[simp] theorem State.setHbmCell_col (s : State) (c g : Nat) (v : BitVec 72) : (State.setHbmCell s c g v).col = s.col := rfl
@[simp] theorem State.setHbmCell_ridge (s : State) (c g : Nat) (v : BitVec 72) : (State.setHbmCell s c g v).ridge = s.ridge := rfl
@[simp] theorem State.setHbmCell_power (s : State) (c g : Nat) (v : BitVec 72) : (State.setHbmCell s c g v).power = s.power := rfl
@[simp] theorem State.setHbmCell_pair (s : State) (c g : Nat) (v : BitVec 72) : (State.setHbmCell s c g v).pair = s.pair := rfl
@[simp] theorem State.setHbmCell_lanes (s : State) (c g : Nat) (v : BitVec 72) : (State.setHbmCell s c g v).lanes = s.lanes := rfl
@[simp] theorem State.setHbmCell_cores (s : State) (c g : Nat) (v : BitVec 72) : (State.setHbmCell s c g v).cores = s.cores := rfl
@[simp] theorem State.setHbmCell_host (s : State) (c g : Nat) (v : BitVec 72) : (State.setHbmCell s c g v).host = s.host := rfl
@[simp] theorem State.setHbmCell_out (s : State) (c g : Nat) (v : BitVec 72) : (State.setHbmCell s c g v).out = s.out := rfl
@[simp] theorem State.setHbmCell_freeCtr (s : State) (c g : Nat) (v : BitVec 72) : (State.setHbmCell s c g v).freeCtr = s.freeCtr := rfl
@[simp] theorem State.setHbmCell_pending (s : State) (c g : Nat) (v : BitVec 72) : (State.setHbmCell s c g v).pending = s.pending := rfl
@[simp] theorem State.setChan_get (s : State) (c : Nat) (h : HbmChannel) (f : Fld) : (State.setChan s c h).get f = s.get f := rfl
@[simp] theorem State.setChan_tb (s : State) (c : Nat) (h : HbmChannel) : (State.setChan s c h).tb = s.tb := rfl
@[simp] theorem State.setChan_cycle (s : State) (c : Nat) (h : HbmChannel) : (State.setChan s c h).cycle = s.cycle := rfl
@[simp] theorem State.setChan_was (s : State) (c : Nat) (h : HbmChannel) : (State.setChan s c h).was = s.was := rfl
@[simp] theorem State.setChan_pos (s : State) (c : Nat) (h : HbmChannel) : (State.setChan s c h).pos = s.pos := rfl
@[simp] theorem State.setChan_phc (s : State) (c : Nat) (h : HbmChannel) : (State.setChan s c h).phc = s.phc := rfl
@[simp] theorem State.setChan_tempo (s : State) (c : Nat) (h : HbmChannel) : (State.setChan s c h).tempo = s.tempo := rfl
@[simp] theorem State.setChan_fab (s : State) (c : Nat) (h : HbmChannel) : (State.setChan s c h).fab = s.fab := rfl
@[simp] theorem State.setChan_col (s : State) (c : Nat) (h : HbmChannel) : (State.setChan s c h).col = s.col := rfl
@[simp] theorem State.setChan_ridge (s : State) (c : Nat) (h : HbmChannel) : (State.setChan s c h).ridge = s.ridge := rfl
@[simp] theorem State.setChan_power (s : State) (c : Nat) (h : HbmChannel) : (State.setChan s c h).power = s.power := rfl
@[simp] theorem State.setChan_pair (s : State) (c : Nat) (h : HbmChannel) : (State.setChan s c h).pair = s.pair := rfl
@[simp] theorem State.setChan_lanes (s : State) (c : Nat) (h : HbmChannel) : (State.setChan s c h).lanes = s.lanes := rfl
@[simp] theorem State.setChan_cores (s : State) (c : Nat) (h : HbmChannel) : (State.setChan s c h).cores = s.cores := rfl
@[simp] theorem State.setChan_host (s : State) (c : Nat) (h : HbmChannel) : (State.setChan s c h).host = s.host := rfl
@[simp] theorem State.setChan_out (s : State) (c : Nat) (h : HbmChannel) : (State.setChan s c h).out = s.out := rfl
@[simp] theorem State.setChan_freeCtr (s : State) (c : Nat) (h : HbmChannel) : (State.setChan s c h).freeCtr = s.freeCtr := rfl
@[simp] theorem State.setChan_pending (s : State) (c : Nat) (h : HbmChannel) : (State.setChan s c h).pending = s.pending := rfl
@[simp] theorem State.setBmRow_get (s : State) (m k r : Nat) (v : BitVec 72) (f : Fld) : (State.setBmRow s m k r v).get f = s.get f := rfl
@[simp] theorem State.setBmRow_tb (s : State) (m k r : Nat) (v : BitVec 72) : (State.setBmRow s m k r v).tb = s.tb := rfl
@[simp] theorem State.setBmRow_cycle (s : State) (m k r : Nat) (v : BitVec 72) : (State.setBmRow s m k r v).cycle = s.cycle := rfl
@[simp] theorem State.setBmRow_was (s : State) (m k r : Nat) (v : BitVec 72) : (State.setBmRow s m k r v).was = s.was := rfl
@[simp] theorem State.setBmRow_pos (s : State) (m k r : Nat) (v : BitVec 72) : (State.setBmRow s m k r v).pos = s.pos := rfl
@[simp] theorem State.setBmRow_phc (s : State) (m k r : Nat) (v : BitVec 72) : (State.setBmRow s m k r v).phc = s.phc := rfl
@[simp] theorem State.setBmRow_tempo (s : State) (m k r : Nat) (v : BitVec 72) : (State.setBmRow s m k r v).tempo = s.tempo := rfl
@[simp] theorem State.setBmRow_fab (s : State) (m k r : Nat) (v : BitVec 72) : (State.setBmRow s m k r v).fab = s.fab := rfl
@[simp] theorem State.setBmRow_col (s : State) (m k r : Nat) (v : BitVec 72) : (State.setBmRow s m k r v).col = s.col := rfl
@[simp] theorem State.setBmRow_ridge (s : State) (m k r : Nat) (v : BitVec 72) : (State.setBmRow s m k r v).ridge = s.ridge := rfl
@[simp] theorem State.setBmRow_power (s : State) (m k r : Nat) (v : BitVec 72) : (State.setBmRow s m k r v).power = s.power := rfl
@[simp] theorem State.setBmRow_pair (s : State) (m k r : Nat) (v : BitVec 72) : (State.setBmRow s m k r v).pair = s.pair := rfl
@[simp] theorem State.setBmRow_lanes (s : State) (m k r : Nat) (v : BitVec 72) : (State.setBmRow s m k r v).lanes = s.lanes := rfl
@[simp] theorem State.setBmRow_cores (s : State) (m k r : Nat) (v : BitVec 72) : (State.setBmRow s m k r v).cores = s.cores := rfl
@[simp] theorem State.setBmRow_host (s : State) (m k r : Nat) (v : BitVec 72) : (State.setBmRow s m k r v).host = s.host := rfl
@[simp] theorem State.setBmRow_out (s : State) (m k r : Nat) (v : BitVec 72) : (State.setBmRow s m k r v).out = s.out := rfl
@[simp] theorem State.setBmRow_freeCtr (s : State) (m k r : Nat) (v : BitVec 72) : (State.setBmRow s m k r v).freeCtr = s.freeCtr := rfl
@[simp] theorem State.setBmRow_pending (s : State) (m k r : Nat) (v : BitVec 72) : (State.setBmRow s m k r v).pending = s.pending := rfl
@[simp] theorem shelfClearGroup_get (m k : Nat) (s : State) (f : Fld) : (shelfClearGroup m k s).get f = s.get f := rfl
@[simp] theorem shelfClearGroup_tb (m k : Nat) (s : State) : (shelfClearGroup m k s).tb = s.tb := rfl
@[simp] theorem shelfClearGroup_cycle (m k : Nat) (s : State) : (shelfClearGroup m k s).cycle = s.cycle := rfl
@[simp] theorem shelfClearGroup_was (m k : Nat) (s : State) : (shelfClearGroup m k s).was = s.was := rfl
@[simp] theorem shelfClearGroup_pos (m k : Nat) (s : State) : (shelfClearGroup m k s).pos = s.pos := rfl
@[simp] theorem shelfClearGroup_phc (m k : Nat) (s : State) : (shelfClearGroup m k s).phc = s.phc := rfl
@[simp] theorem shelfClearGroup_tempo (m k : Nat) (s : State) : (shelfClearGroup m k s).tempo = s.tempo := rfl
@[simp] theorem shelfClearGroup_fab (m k : Nat) (s : State) : (shelfClearGroup m k s).fab = s.fab := rfl
@[simp] theorem shelfClearGroup_col (m k : Nat) (s : State) : (shelfClearGroup m k s).col = s.col := rfl
@[simp] theorem shelfClearGroup_ridge (m k : Nat) (s : State) : (shelfClearGroup m k s).ridge = s.ridge := rfl
@[simp] theorem shelfClearGroup_power (m k : Nat) (s : State) : (shelfClearGroup m k s).power = s.power := rfl
@[simp] theorem shelfClearGroup_pair (m k : Nat) (s : State) : (shelfClearGroup m k s).pair = s.pair := rfl
@[simp] theorem shelfClearGroup_lanes (m k : Nat) (s : State) : (shelfClearGroup m k s).lanes = s.lanes := rfl
@[simp] theorem shelfClearGroup_cores (m k : Nat) (s : State) : (shelfClearGroup m k s).cores = s.cores := rfl
@[simp] theorem shelfClearGroup_host (m k : Nat) (s : State) : (shelfClearGroup m k s).host = s.host := rfl
@[simp] theorem shelfClearGroup_out (m k : Nat) (s : State) : (shelfClearGroup m k s).out = s.out := rfl
@[simp] theorem shelfClearGroup_freeCtr (m k : Nat) (s : State) : (shelfClearGroup m k s).freeCtr = s.freeCtr := rfl
@[simp] theorem shelfClearGroup_pending (m k : Nat) (s : State) : (shelfClearGroup m k s).pending = s.pending := rfl
@[simp] theorem State.setRbuf_get (s : State) (n port v : Nat) (l : List Flit) (f : Fld) : (State.setRbuf s n port v l).get f = s.get f := rfl
@[simp] theorem State.setRbuf_tb (s : State) (n port v : Nat) (l : List Flit) : (State.setRbuf s n port v l).tb = s.tb := rfl
@[simp] theorem State.setRbuf_cycle (s : State) (n port v : Nat) (l : List Flit) : (State.setRbuf s n port v l).cycle = s.cycle := rfl
@[simp] theorem State.setRbuf_was (s : State) (n port v : Nat) (l : List Flit) : (State.setRbuf s n port v l).was = s.was := rfl
@[simp] theorem State.setRbuf_pos (s : State) (n port v : Nat) (l : List Flit) : (State.setRbuf s n port v l).pos = s.pos := rfl
@[simp] theorem State.setRbuf_phc (s : State) (n port v : Nat) (l : List Flit) : (State.setRbuf s n port v l).phc = s.phc := rfl
@[simp] theorem State.setRbuf_tempo (s : State) (n port v : Nat) (l : List Flit) : (State.setRbuf s n port v l).tempo = s.tempo := rfl
@[simp] theorem State.setRbuf_fab (s : State) (n port v : Nat) (l : List Flit) : (State.setRbuf s n port v l).fab = s.fab := rfl
@[simp] theorem State.setRbuf_col (s : State) (n port v : Nat) (l : List Flit) : (State.setRbuf s n port v l).col = s.col := rfl
@[simp] theorem State.setRbuf_mem (s : State) (n port v : Nat) (l : List Flit) : (State.setRbuf s n port v l).mem = s.mem := rfl
@[simp] theorem State.setRbuf_power (s : State) (n port v : Nat) (l : List Flit) : (State.setRbuf s n port v l).power = s.power := rfl
@[simp] theorem State.setRbuf_pair (s : State) (n port v : Nat) (l : List Flit) : (State.setRbuf s n port v l).pair = s.pair := rfl
@[simp] theorem State.setRbuf_lanes (s : State) (n port v : Nat) (l : List Flit) : (State.setRbuf s n port v l).lanes = s.lanes := rfl
@[simp] theorem State.setRbuf_cores (s : State) (n port v : Nat) (l : List Flit) : (State.setRbuf s n port v l).cores = s.cores := rfl
@[simp] theorem State.setRbuf_host (s : State) (n port v : Nat) (l : List Flit) : (State.setRbuf s n port v l).host = s.host := rfl
@[simp] theorem State.setRbuf_out (s : State) (n port v : Nat) (l : List Flit) : (State.setRbuf s n port v l).out = s.out := rfl
@[simp] theorem State.setRbuf_freeCtr (s : State) (n port v : Nat) (l : List Flit) : (State.setRbuf s n port v l).freeCtr = s.freeCtr := rfl
@[simp] theorem State.setRbuf_pending (s : State) (n port v : Nat) (l : List Flit) : (State.setRbuf s n port v l).pending = s.pending := rfl
@[simp] theorem State.setLock_get (s : State) (n out v : Nat) (o : Option (Nat × Nat)) (f : Fld) : (State.setLock s n out v o).get f = s.get f := rfl
@[simp] theorem State.setLock_tb (s : State) (n out v : Nat) (o : Option (Nat × Nat)) : (State.setLock s n out v o).tb = s.tb := rfl
@[simp] theorem State.setLock_cycle (s : State) (n out v : Nat) (o : Option (Nat × Nat)) : (State.setLock s n out v o).cycle = s.cycle := rfl
@[simp] theorem State.setLock_was (s : State) (n out v : Nat) (o : Option (Nat × Nat)) : (State.setLock s n out v o).was = s.was := rfl
@[simp] theorem State.setLock_pos (s : State) (n out v : Nat) (o : Option (Nat × Nat)) : (State.setLock s n out v o).pos = s.pos := rfl
@[simp] theorem State.setLock_phc (s : State) (n out v : Nat) (o : Option (Nat × Nat)) : (State.setLock s n out v o).phc = s.phc := rfl
@[simp] theorem State.setLock_tempo (s : State) (n out v : Nat) (o : Option (Nat × Nat)) : (State.setLock s n out v o).tempo = s.tempo := rfl
@[simp] theorem State.setLock_fab (s : State) (n out v : Nat) (o : Option (Nat × Nat)) : (State.setLock s n out v o).fab = s.fab := rfl
@[simp] theorem State.setLock_col (s : State) (n out v : Nat) (o : Option (Nat × Nat)) : (State.setLock s n out v o).col = s.col := rfl
@[simp] theorem State.setLock_mem (s : State) (n out v : Nat) (o : Option (Nat × Nat)) : (State.setLock s n out v o).mem = s.mem := rfl
@[simp] theorem State.setLock_power (s : State) (n out v : Nat) (o : Option (Nat × Nat)) : (State.setLock s n out v o).power = s.power := rfl
@[simp] theorem State.setLock_pair (s : State) (n out v : Nat) (o : Option (Nat × Nat)) : (State.setLock s n out v o).pair = s.pair := rfl
@[simp] theorem State.setLock_lanes (s : State) (n out v : Nat) (o : Option (Nat × Nat)) : (State.setLock s n out v o).lanes = s.lanes := rfl
@[simp] theorem State.setLock_cores (s : State) (n out v : Nat) (o : Option (Nat × Nat)) : (State.setLock s n out v o).cores = s.cores := rfl
@[simp] theorem State.setLock_host (s : State) (n out v : Nat) (o : Option (Nat × Nat)) : (State.setLock s n out v o).host = s.host := rfl
@[simp] theorem State.setLock_out (s : State) (n out v : Nat) (o : Option (Nat × Nat)) : (State.setLock s n out v o).out = s.out := rfl
@[simp] theorem State.setLock_freeCtr (s : State) (n out v : Nat) (o : Option (Nat × Nat)) : (State.setLock s n out v o).freeCtr = s.freeCtr := rfl
@[simp] theorem State.setLock_pending (s : State) (n out v : Nat) (o : Option (Nat × Nat)) : (State.setLock s n out v o).pending = s.pending := rfl
@[simp] theorem State.setMassif_get (s : State) (m : Nat) (x : Massif) (f : Fld) : (State.setMassif s m x).get f = s.get f := rfl
@[simp] theorem State.setMassif_tb (s : State) (m : Nat) (x : Massif) : (State.setMassif s m x).tb = s.tb := rfl
@[simp] theorem State.setMassif_cycle (s : State) (m : Nat) (x : Massif) : (State.setMassif s m x).cycle = s.cycle := rfl
@[simp] theorem State.setMassif_was (s : State) (m : Nat) (x : Massif) : (State.setMassif s m x).was = s.was := rfl
@[simp] theorem State.setMassif_pos (s : State) (m : Nat) (x : Massif) : (State.setMassif s m x).pos = s.pos := rfl
@[simp] theorem State.setMassif_phc (s : State) (m : Nat) (x : Massif) : (State.setMassif s m x).phc = s.phc := rfl
@[simp] theorem State.setMassif_tempo (s : State) (m : Nat) (x : Massif) : (State.setMassif s m x).tempo = s.tempo := rfl
@[simp] theorem State.setMassif_col (s : State) (m : Nat) (x : Massif) : (State.setMassif s m x).col = s.col := rfl
@[simp] theorem State.setMassif_mem (s : State) (m : Nat) (x : Massif) : (State.setMassif s m x).mem = s.mem := rfl
@[simp] theorem State.setMassif_ridge (s : State) (m : Nat) (x : Massif) : (State.setMassif s m x).ridge = s.ridge := rfl
@[simp] theorem State.setMassif_power (s : State) (m : Nat) (x : Massif) : (State.setMassif s m x).power = s.power := rfl
@[simp] theorem State.setMassif_pair (s : State) (m : Nat) (x : Massif) : (State.setMassif s m x).pair = s.pair := rfl
@[simp] theorem State.setMassif_lanes (s : State) (m : Nat) (x : Massif) : (State.setMassif s m x).lanes = s.lanes := rfl
@[simp] theorem State.setMassif_cores (s : State) (m : Nat) (x : Massif) : (State.setMassif s m x).cores = s.cores := rfl
@[simp] theorem State.setMassif_host (s : State) (m : Nat) (x : Massif) : (State.setMassif s m x).host = s.host := rfl
@[simp] theorem State.setMassif_out (s : State) (m : Nat) (x : Massif) : (State.setMassif s m x).out = s.out := rfl
@[simp] theorem State.setMassif_freeCtr (s : State) (m : Nat) (x : Massif) : (State.setMassif s m x).freeCtr = s.freeCtr := rfl
@[simp] theorem State.setMassif_pending (s : State) (m : Nat) (x : Massif) : (State.setMassif s m x).pending = s.pending := rfl
@[simp] theorem State.setTile_get (s : State) (m t : Nat) (x : Tile) (f : Fld) : (State.setTile s m t x).get f = s.get f := rfl
@[simp] theorem State.setTile_tb (s : State) (m t : Nat) (x : Tile) : (State.setTile s m t x).tb = s.tb := rfl
@[simp] theorem State.setTile_cycle (s : State) (m t : Nat) (x : Tile) : (State.setTile s m t x).cycle = s.cycle := rfl
@[simp] theorem State.setTile_was (s : State) (m t : Nat) (x : Tile) : (State.setTile s m t x).was = s.was := rfl
@[simp] theorem State.setTile_pos (s : State) (m t : Nat) (x : Tile) : (State.setTile s m t x).pos = s.pos := rfl
@[simp] theorem State.setTile_phc (s : State) (m t : Nat) (x : Tile) : (State.setTile s m t x).phc = s.phc := rfl
@[simp] theorem State.setTile_tempo (s : State) (m t : Nat) (x : Tile) : (State.setTile s m t x).tempo = s.tempo := rfl
@[simp] theorem State.setTile_col (s : State) (m t : Nat) (x : Tile) : (State.setTile s m t x).col = s.col := rfl
@[simp] theorem State.setTile_mem (s : State) (m t : Nat) (x : Tile) : (State.setTile s m t x).mem = s.mem := rfl
@[simp] theorem State.setTile_ridge (s : State) (m t : Nat) (x : Tile) : (State.setTile s m t x).ridge = s.ridge := rfl
@[simp] theorem State.setTile_power (s : State) (m t : Nat) (x : Tile) : (State.setTile s m t x).power = s.power := rfl
@[simp] theorem State.setTile_pair (s : State) (m t : Nat) (x : Tile) : (State.setTile s m t x).pair = s.pair := rfl
@[simp] theorem State.setTile_lanes (s : State) (m t : Nat) (x : Tile) : (State.setTile s m t x).lanes = s.lanes := rfl
@[simp] theorem State.setTile_cores (s : State) (m t : Nat) (x : Tile) : (State.setTile s m t x).cores = s.cores := rfl
@[simp] theorem State.setTile_host (s : State) (m t : Nat) (x : Tile) : (State.setTile s m t x).host = s.host := rfl
@[simp] theorem State.setTile_out (s : State) (m t : Nat) (x : Tile) : (State.setTile s m t x).out = s.out := rfl
@[simp] theorem State.setTile_freeCtr (s : State) (m t : Nat) (x : Tile) : (State.setTile s m t x).freeCtr = s.freeCtr := rfl
@[simp] theorem State.setTile_pending (s : State) (m t : Nat) (x : Tile) : (State.setTile s m t x).pending = s.pending := rfl
@[simp] theorem State.setStage_get (s : State) (m t g : Nat) (x : Stage) (f : Fld) : (State.setStage s m t g x).get f = s.get f := rfl
@[simp] theorem State.setStage_tb (s : State) (m t g : Nat) (x : Stage) : (State.setStage s m t g x).tb = s.tb := rfl
@[simp] theorem State.setStage_cycle (s : State) (m t g : Nat) (x : Stage) : (State.setStage s m t g x).cycle = s.cycle := rfl
@[simp] theorem State.setStage_was (s : State) (m t g : Nat) (x : Stage) : (State.setStage s m t g x).was = s.was := rfl
@[simp] theorem State.setStage_pos (s : State) (m t g : Nat) (x : Stage) : (State.setStage s m t g x).pos = s.pos := rfl
@[simp] theorem State.setStage_phc (s : State) (m t g : Nat) (x : Stage) : (State.setStage s m t g x).phc = s.phc := rfl
@[simp] theorem State.setStage_tempo (s : State) (m t g : Nat) (x : Stage) : (State.setStage s m t g x).tempo = s.tempo := rfl
@[simp] theorem State.setStage_col (s : State) (m t g : Nat) (x : Stage) : (State.setStage s m t g x).col = s.col := rfl
@[simp] theorem State.setStage_mem (s : State) (m t g : Nat) (x : Stage) : (State.setStage s m t g x).mem = s.mem := rfl
@[simp] theorem State.setStage_ridge (s : State) (m t g : Nat) (x : Stage) : (State.setStage s m t g x).ridge = s.ridge := rfl
@[simp] theorem State.setStage_power (s : State) (m t g : Nat) (x : Stage) : (State.setStage s m t g x).power = s.power := rfl
@[simp] theorem State.setStage_pair (s : State) (m t g : Nat) (x : Stage) : (State.setStage s m t g x).pair = s.pair := rfl
@[simp] theorem State.setStage_lanes (s : State) (m t g : Nat) (x : Stage) : (State.setStage s m t g x).lanes = s.lanes := rfl
@[simp] theorem State.setStage_cores (s : State) (m t g : Nat) (x : Stage) : (State.setStage s m t g x).cores = s.cores := rfl
@[simp] theorem State.setStage_host (s : State) (m t g : Nat) (x : Stage) : (State.setStage s m t g x).host = s.host := rfl
@[simp] theorem State.setStage_out (s : State) (m t g : Nat) (x : Stage) : (State.setStage s m t g x).out = s.out := rfl
@[simp] theorem State.setStage_freeCtr (s : State) (m t g : Nat) (x : Stage) : (State.setStage s m t g x).freeCtr = s.freeCtr := rfl
@[simp] theorem State.setStage_pending (s : State) (m t g : Nat) (x : Stage) : (State.setStage s m t g x).pending = s.pending := rfl
@[simp] theorem State.setSlotBits_get (s : State) (m i t : Nat) (v : BitVec 320) (f : Fld) : (State.setSlotBits s m i t v).get f = s.get f := rfl
@[simp] theorem State.setSlotBits_tb (s : State) (m i t : Nat) (v : BitVec 320) : (State.setSlotBits s m i t v).tb = s.tb := rfl
@[simp] theorem State.setSlotBits_cycle (s : State) (m i t : Nat) (v : BitVec 320) : (State.setSlotBits s m i t v).cycle = s.cycle := rfl
@[simp] theorem State.setSlotBits_was (s : State) (m i t : Nat) (v : BitVec 320) : (State.setSlotBits s m i t v).was = s.was := rfl
@[simp] theorem State.setSlotBits_pos (s : State) (m i t : Nat) (v : BitVec 320) : (State.setSlotBits s m i t v).pos = s.pos := rfl
@[simp] theorem State.setSlotBits_phc (s : State) (m i t : Nat) (v : BitVec 320) : (State.setSlotBits s m i t v).phc = s.phc := rfl
@[simp] theorem State.setSlotBits_tempo (s : State) (m i t : Nat) (v : BitVec 320) : (State.setSlotBits s m i t v).tempo = s.tempo := rfl
@[simp] theorem State.setSlotBits_col (s : State) (m i t : Nat) (v : BitVec 320) : (State.setSlotBits s m i t v).col = s.col := rfl
@[simp] theorem State.setSlotBits_mem (s : State) (m i t : Nat) (v : BitVec 320) : (State.setSlotBits s m i t v).mem = s.mem := rfl
@[simp] theorem State.setSlotBits_ridge (s : State) (m i t : Nat) (v : BitVec 320) : (State.setSlotBits s m i t v).ridge = s.ridge := rfl
@[simp] theorem State.setSlotBits_power (s : State) (m i t : Nat) (v : BitVec 320) : (State.setSlotBits s m i t v).power = s.power := rfl
@[simp] theorem State.setSlotBits_pair (s : State) (m i t : Nat) (v : BitVec 320) : (State.setSlotBits s m i t v).pair = s.pair := rfl
@[simp] theorem State.setSlotBits_lanes (s : State) (m i t : Nat) (v : BitVec 320) : (State.setSlotBits s m i t v).lanes = s.lanes := rfl
@[simp] theorem State.setSlotBits_cores (s : State) (m i t : Nat) (v : BitVec 320) : (State.setSlotBits s m i t v).cores = s.cores := rfl
@[simp] theorem State.setSlotBits_host (s : State) (m i t : Nat) (v : BitVec 320) : (State.setSlotBits s m i t v).host = s.host := rfl
@[simp] theorem State.setSlotBits_out (s : State) (m i t : Nat) (v : BitVec 320) : (State.setSlotBits s m i t v).out = s.out := rfl
@[simp] theorem State.setSlotBits_freeCtr (s : State) (m i t : Nat) (v : BitVec 320) : (State.setSlotBits s m i t v).freeCtr = s.freeCtr := rfl
@[simp] theorem State.setSlotBits_pending (s : State) (m i t : Nat) (v : BitVec 320) : (State.setSlotBits s m i t v).pending = s.pending := rfl
@[simp] theorem State.setColq_get (s : State) (k : Nat) (x : Stage) (f : Fld) : (State.setColq s k x).get f = s.get f := rfl
@[simp] theorem State.setColq_tb (s : State) (k : Nat) (x : Stage) : (State.setColq s k x).tb = s.tb := rfl
@[simp] theorem State.setColq_cycle (s : State) (k : Nat) (x : Stage) : (State.setColq s k x).cycle = s.cycle := rfl
@[simp] theorem State.setColq_was (s : State) (k : Nat) (x : Stage) : (State.setColq s k x).was = s.was := rfl
@[simp] theorem State.setColq_pos (s : State) (k : Nat) (x : Stage) : (State.setColq s k x).pos = s.pos := rfl
@[simp] theorem State.setColq_phc (s : State) (k : Nat) (x : Stage) : (State.setColq s k x).phc = s.phc := rfl
@[simp] theorem State.setColq_tempo (s : State) (k : Nat) (x : Stage) : (State.setColq s k x).tempo = s.tempo := rfl
@[simp] theorem State.setColq_col (s : State) (k : Nat) (x : Stage) : (State.setColq s k x).col = s.col := rfl
@[simp] theorem State.setColq_mem (s : State) (k : Nat) (x : Stage) : (State.setColq s k x).mem = s.mem := rfl
@[simp] theorem State.setColq_ridge (s : State) (k : Nat) (x : Stage) : (State.setColq s k x).ridge = s.ridge := rfl
@[simp] theorem State.setColq_power (s : State) (k : Nat) (x : Stage) : (State.setColq s k x).power = s.power := rfl
@[simp] theorem State.setColq_pair (s : State) (k : Nat) (x : Stage) : (State.setColq s k x).pair = s.pair := rfl
@[simp] theorem State.setColq_lanes (s : State) (k : Nat) (x : Stage) : (State.setColq s k x).lanes = s.lanes := rfl
@[simp] theorem State.setColq_cores (s : State) (k : Nat) (x : Stage) : (State.setColq s k x).cores = s.cores := rfl
@[simp] theorem State.setColq_host (s : State) (k : Nat) (x : Stage) : (State.setColq s k x).host = s.host := rfl
@[simp] theorem State.setColq_out (s : State) (k : Nat) (x : Stage) : (State.setColq s k x).out = s.out := rfl
@[simp] theorem State.setColq_freeCtr (s : State) (k : Nat) (x : Stage) : (State.setColq s k x).freeCtr = s.freeCtr := rfl
@[simp] theorem State.setColq_pending (s : State) (k : Nat) (x : Stage) : (State.setColq s k x).pending = s.pending := rfl
@[simp] theorem State.setFeedq_get (s : State) (p f : Nat) (x : Stage) (g : Fld) : (State.setFeedq s p f x).get g = s.get g := rfl
@[simp] theorem State.setFeedq_tb (s : State) (p f : Nat) (x : Stage) : (State.setFeedq s p f x).tb = s.tb := rfl
@[simp] theorem State.setFeedq_cycle (s : State) (p f : Nat) (x : Stage) : (State.setFeedq s p f x).cycle = s.cycle := rfl
@[simp] theorem State.setFeedq_was (s : State) (p f : Nat) (x : Stage) : (State.setFeedq s p f x).was = s.was := rfl
@[simp] theorem State.setFeedq_pos (s : State) (p f : Nat) (x : Stage) : (State.setFeedq s p f x).pos = s.pos := rfl
@[simp] theorem State.setFeedq_phc (s : State) (p f : Nat) (x : Stage) : (State.setFeedq s p f x).phc = s.phc := rfl
@[simp] theorem State.setFeedq_tempo (s : State) (p f : Nat) (x : Stage) : (State.setFeedq s p f x).tempo = s.tempo := rfl
@[simp] theorem State.setFeedq_col (s : State) (p f : Nat) (x : Stage) : (State.setFeedq s p f x).col = s.col := rfl
@[simp] theorem State.setFeedq_mem (s : State) (p f : Nat) (x : Stage) : (State.setFeedq s p f x).mem = s.mem := rfl
@[simp] theorem State.setFeedq_ridge (s : State) (p f : Nat) (x : Stage) : (State.setFeedq s p f x).ridge = s.ridge := rfl
@[simp] theorem State.setFeedq_power (s : State) (p f : Nat) (x : Stage) : (State.setFeedq s p f x).power = s.power := rfl
@[simp] theorem State.setFeedq_pair (s : State) (p f : Nat) (x : Stage) : (State.setFeedq s p f x).pair = s.pair := rfl
@[simp] theorem State.setFeedq_lanes (s : State) (p f : Nat) (x : Stage) : (State.setFeedq s p f x).lanes = s.lanes := rfl
@[simp] theorem State.setFeedq_cores (s : State) (p f : Nat) (x : Stage) : (State.setFeedq s p f x).cores = s.cores := rfl
@[simp] theorem State.setFeedq_host (s : State) (p f : Nat) (x : Stage) : (State.setFeedq s p f x).host = s.host := rfl
@[simp] theorem State.setFeedq_out (s : State) (p f : Nat) (x : Stage) : (State.setFeedq s p f x).out = s.out := rfl
@[simp] theorem State.setFeedq_freeCtr (s : State) (p f : Nat) (x : Stage) : (State.setFeedq s p f x).freeCtr = s.freeCtr := rfl
@[simp] theorem State.setFeedq_pending (s : State) (p f : Nat) (x : Stage) : (State.setFeedq s p f x).pending = s.pending := rfl
@[simp] theorem State.setFeedTrack_get (s : State) (p f : Nat) (x : FeedTrack) (g : Fld) : (State.setFeedTrack s p f x).get g = s.get g := rfl
@[simp] theorem State.setFeedTrack_tb (s : State) (p f : Nat) (x : FeedTrack) : (State.setFeedTrack s p f x).tb = s.tb := rfl
@[simp] theorem State.setFeedTrack_cycle (s : State) (p f : Nat) (x : FeedTrack) : (State.setFeedTrack s p f x).cycle = s.cycle := rfl
@[simp] theorem State.setFeedTrack_was (s : State) (p f : Nat) (x : FeedTrack) : (State.setFeedTrack s p f x).was = s.was := rfl
@[simp] theorem State.setFeedTrack_pos (s : State) (p f : Nat) (x : FeedTrack) : (State.setFeedTrack s p f x).pos = s.pos := rfl
@[simp] theorem State.setFeedTrack_phc (s : State) (p f : Nat) (x : FeedTrack) : (State.setFeedTrack s p f x).phc = s.phc := rfl
@[simp] theorem State.setFeedTrack_tempo (s : State) (p f : Nat) (x : FeedTrack) : (State.setFeedTrack s p f x).tempo = s.tempo := rfl
@[simp] theorem State.setFeedTrack_col (s : State) (p f : Nat) (x : FeedTrack) : (State.setFeedTrack s p f x).col = s.col := rfl
@[simp] theorem State.setFeedTrack_mem (s : State) (p f : Nat) (x : FeedTrack) : (State.setFeedTrack s p f x).mem = s.mem := rfl
@[simp] theorem State.setFeedTrack_ridge (s : State) (p f : Nat) (x : FeedTrack) : (State.setFeedTrack s p f x).ridge = s.ridge := rfl
@[simp] theorem State.setFeedTrack_power (s : State) (p f : Nat) (x : FeedTrack) : (State.setFeedTrack s p f x).power = s.power := rfl
@[simp] theorem State.setFeedTrack_pair (s : State) (p f : Nat) (x : FeedTrack) : (State.setFeedTrack s p f x).pair = s.pair := rfl
@[simp] theorem State.setFeedTrack_lanes (s : State) (p f : Nat) (x : FeedTrack) : (State.setFeedTrack s p f x).lanes = s.lanes := rfl
@[simp] theorem State.setFeedTrack_cores (s : State) (p f : Nat) (x : FeedTrack) : (State.setFeedTrack s p f x).cores = s.cores := rfl
@[simp] theorem State.setFeedTrack_host (s : State) (p f : Nat) (x : FeedTrack) : (State.setFeedTrack s p f x).host = s.host := rfl
@[simp] theorem State.setFeedTrack_out (s : State) (p f : Nat) (x : FeedTrack) : (State.setFeedTrack s p f x).out = s.out := rfl
@[simp] theorem State.setFeedTrack_freeCtr (s : State) (p f : Nat) (x : FeedTrack) : (State.setFeedTrack s p f x).freeCtr = s.freeCtr := rfl
@[simp] theorem State.setFeedTrack_pending (s : State) (p f : Nat) (x : FeedTrack) : (State.setFeedTrack s p f x).pending = s.pending := rfl
@[simp] theorem State.setLane_get (s : State) (l : Nat) (x : LaneQueue) (f : Fld) : (State.setLane s l x).get f = s.get f := rfl
@[simp] theorem State.setLane_tb (s : State) (l : Nat) (x : LaneQueue) : (State.setLane s l x).tb = s.tb := rfl
@[simp] theorem State.setLane_cycle (s : State) (l : Nat) (x : LaneQueue) : (State.setLane s l x).cycle = s.cycle := rfl
@[simp] theorem State.setLane_was (s : State) (l : Nat) (x : LaneQueue) : (State.setLane s l x).was = s.was := rfl
@[simp] theorem State.setLane_pos (s : State) (l : Nat) (x : LaneQueue) : (State.setLane s l x).pos = s.pos := rfl
@[simp] theorem State.setLane_phc (s : State) (l : Nat) (x : LaneQueue) : (State.setLane s l x).phc = s.phc := rfl
@[simp] theorem State.setLane_tempo (s : State) (l : Nat) (x : LaneQueue) : (State.setLane s l x).tempo = s.tempo := rfl
@[simp] theorem State.setLane_col (s : State) (l : Nat) (x : LaneQueue) : (State.setLane s l x).col = s.col := rfl
@[simp] theorem State.setLane_mem (s : State) (l : Nat) (x : LaneQueue) : (State.setLane s l x).mem = s.mem := rfl
@[simp] theorem State.setLane_ridge (s : State) (l : Nat) (x : LaneQueue) : (State.setLane s l x).ridge = s.ridge := rfl
@[simp] theorem State.setLane_power (s : State) (l : Nat) (x : LaneQueue) : (State.setLane s l x).power = s.power := rfl
@[simp] theorem State.setLane_pair (s : State) (l : Nat) (x : LaneQueue) : (State.setLane s l x).pair = s.pair := rfl
@[simp] theorem State.setLane_lanes (s : State) (l : Nat) (x : LaneQueue) : (State.setLane s l x).lanes = s.lanes := rfl
@[simp] theorem State.setLane_cores (s : State) (l : Nat) (x : LaneQueue) : (State.setLane s l x).cores = s.cores := rfl
@[simp] theorem State.setLane_host (s : State) (l : Nat) (x : LaneQueue) : (State.setLane s l x).host = s.host := rfl
@[simp] theorem State.setLane_out (s : State) (l : Nat) (x : LaneQueue) : (State.setLane s l x).out = s.out := rfl
@[simp] theorem State.setLane_freeCtr (s : State) (l : Nat) (x : LaneQueue) : (State.setLane s l x).freeCtr = s.freeCtr := rfl
@[simp] theorem State.setLane_pending (s : State) (l : Nat) (x : LaneQueue) : (State.setLane s l x).pending = s.pending := rfl
@[simp] theorem State.setQueue_get (s : State) (m q : Nat) (x : Queue) (f : Fld) : (State.setQueue s m q x).get f = s.get f := rfl
@[simp] theorem State.setQueue_tb (s : State) (m q : Nat) (x : Queue) : (State.setQueue s m q x).tb = s.tb := rfl
@[simp] theorem State.setQueue_cycle (s : State) (m q : Nat) (x : Queue) : (State.setQueue s m q x).cycle = s.cycle := rfl
@[simp] theorem State.setQueue_was (s : State) (m q : Nat) (x : Queue) : (State.setQueue s m q x).was = s.was := rfl
@[simp] theorem State.setQueue_pos (s : State) (m q : Nat) (x : Queue) : (State.setQueue s m q x).pos = s.pos := rfl
@[simp] theorem State.setQueue_phc (s : State) (m q : Nat) (x : Queue) : (State.setQueue s m q x).phc = s.phc := rfl
@[simp] theorem State.setQueue_tempo (s : State) (m q : Nat) (x : Queue) : (State.setQueue s m q x).tempo = s.tempo := rfl
@[simp] theorem State.setQueue_col (s : State) (m q : Nat) (x : Queue) : (State.setQueue s m q x).col = s.col := rfl
@[simp] theorem State.setQueue_mem (s : State) (m q : Nat) (x : Queue) : (State.setQueue s m q x).mem = s.mem := rfl
@[simp] theorem State.setQueue_ridge (s : State) (m q : Nat) (x : Queue) : (State.setQueue s m q x).ridge = s.ridge := rfl
@[simp] theorem State.setQueue_power (s : State) (m q : Nat) (x : Queue) : (State.setQueue s m q x).power = s.power := rfl
@[simp] theorem State.setQueue_pair (s : State) (m q : Nat) (x : Queue) : (State.setQueue s m q x).pair = s.pair := rfl
@[simp] theorem State.setQueue_lanes (s : State) (m q : Nat) (x : Queue) : (State.setQueue s m q x).lanes = s.lanes := rfl
@[simp] theorem State.setQueue_cores (s : State) (m q : Nat) (x : Queue) : (State.setQueue s m q x).cores = s.cores := rfl
@[simp] theorem State.setQueue_host (s : State) (m q : Nat) (x : Queue) : (State.setQueue s m q x).host = s.host := rfl
@[simp] theorem State.setQueue_out (s : State) (m q : Nat) (x : Queue) : (State.setQueue s m q x).out = s.out := rfl
@[simp] theorem State.setQueue_freeCtr (s : State) (m q : Nat) (x : Queue) : (State.setQueue s m q x).freeCtr = s.freeCtr := rfl
@[simp] theorem State.setQueue_pending (s : State) (m q : Nat) (x : Queue) : (State.setQueue s m q x).pending = s.pending := rfl
@[simp] theorem setLoader_get (m : Nat) (o : Option LoadOp) (s : State) (f : Fld) : (setLoader m o s).get f = s.get f := rfl
@[simp] theorem setLoader_tb (m : Nat) (o : Option LoadOp) (s : State) : (setLoader m o s).tb = s.tb := rfl
@[simp] theorem setLoader_cycle (m : Nat) (o : Option LoadOp) (s : State) : (setLoader m o s).cycle = s.cycle := rfl
@[simp] theorem setLoader_was (m : Nat) (o : Option LoadOp) (s : State) : (setLoader m o s).was = s.was := rfl
@[simp] theorem setLoader_pos (m : Nat) (o : Option LoadOp) (s : State) : (setLoader m o s).pos = s.pos := rfl
@[simp] theorem setLoader_phc (m : Nat) (o : Option LoadOp) (s : State) : (setLoader m o s).phc = s.phc := rfl
@[simp] theorem setLoader_tempo (m : Nat) (o : Option LoadOp) (s : State) : (setLoader m o s).tempo = s.tempo := rfl
@[simp] theorem setLoader_col (m : Nat) (o : Option LoadOp) (s : State) : (setLoader m o s).col = s.col := rfl
@[simp] theorem setLoader_mem (m : Nat) (o : Option LoadOp) (s : State) : (setLoader m o s).mem = s.mem := rfl
@[simp] theorem setLoader_ridge (m : Nat) (o : Option LoadOp) (s : State) : (setLoader m o s).ridge = s.ridge := rfl
@[simp] theorem setLoader_power (m : Nat) (o : Option LoadOp) (s : State) : (setLoader m o s).power = s.power := rfl
@[simp] theorem setLoader_pair (m : Nat) (o : Option LoadOp) (s : State) : (setLoader m o s).pair = s.pair := rfl
@[simp] theorem setLoader_lanes (m : Nat) (o : Option LoadOp) (s : State) : (setLoader m o s).lanes = s.lanes := rfl
@[simp] theorem setLoader_cores (m : Nat) (o : Option LoadOp) (s : State) : (setLoader m o s).cores = s.cores := rfl
@[simp] theorem setLoader_host (m : Nat) (o : Option LoadOp) (s : State) : (setLoader m o s).host = s.host := rfl
@[simp] theorem setLoader_out (m : Nat) (o : Option LoadOp) (s : State) : (setLoader m o s).out = s.out := rfl
@[simp] theorem setLoader_freeCtr (m : Nat) (o : Option LoadOp) (s : State) : (setLoader m o s).freeCtr = s.freeCtr := rfl
@[simp] theorem setLoader_pending (m : Nat) (o : Option LoadOp) (s : State) : (setLoader m o s).pending = s.pending := rfl
@[simp] theorem segsFlush_get (m : Nat) (s : State) (f : Fld) : (segsFlush m s).get f = s.get f := rfl
@[simp] theorem segsFlush_tb (m : Nat) (s : State) : (segsFlush m s).tb = s.tb := rfl
@[simp] theorem segsFlush_cycle (m : Nat) (s : State) : (segsFlush m s).cycle = s.cycle := rfl
@[simp] theorem segsFlush_was (m : Nat) (s : State) : (segsFlush m s).was = s.was := rfl
@[simp] theorem segsFlush_pos (m : Nat) (s : State) : (segsFlush m s).pos = s.pos := rfl
@[simp] theorem segsFlush_phc (m : Nat) (s : State) : (segsFlush m s).phc = s.phc := rfl
@[simp] theorem segsFlush_tempo (m : Nat) (s : State) : (segsFlush m s).tempo = s.tempo := rfl
@[simp] theorem segsFlush_col (m : Nat) (s : State) : (segsFlush m s).col = s.col := rfl
@[simp] theorem segsFlush_mem (m : Nat) (s : State) : (segsFlush m s).mem = s.mem := rfl
@[simp] theorem segsFlush_ridge (m : Nat) (s : State) : (segsFlush m s).ridge = s.ridge := rfl
@[simp] theorem segsFlush_power (m : Nat) (s : State) : (segsFlush m s).power = s.power := rfl
@[simp] theorem segsFlush_pair (m : Nat) (s : State) : (segsFlush m s).pair = s.pair := rfl
@[simp] theorem segsFlush_lanes (m : Nat) (s : State) : (segsFlush m s).lanes = s.lanes := rfl
@[simp] theorem segsFlush_cores (m : Nat) (s : State) : (segsFlush m s).cores = s.cores := rfl
@[simp] theorem segsFlush_host (m : Nat) (s : State) : (segsFlush m s).host = s.host := rfl
@[simp] theorem segsFlush_out (m : Nat) (s : State) : (segsFlush m s).out = s.out := rfl
@[simp] theorem segsFlush_freeCtr (m : Nat) (s : State) : (segsFlush m s).freeCtr = s.freeCtr := rfl
@[simp] theorem segsFlush_pending (m : Nat) (s : State) : (segsFlush m s).pending = s.pending := rfl
@[simp] theorem inputsFresh_get (m : Nat) (s : State) (f : Fld) : (inputsFresh m s).get f = s.get f := rfl
@[simp] theorem inputsFresh_tb (m : Nat) (s : State) : (inputsFresh m s).tb = s.tb := rfl
@[simp] theorem inputsFresh_cycle (m : Nat) (s : State) : (inputsFresh m s).cycle = s.cycle := rfl
@[simp] theorem inputsFresh_was (m : Nat) (s : State) : (inputsFresh m s).was = s.was := rfl
@[simp] theorem inputsFresh_pos (m : Nat) (s : State) : (inputsFresh m s).pos = s.pos := rfl
@[simp] theorem inputsFresh_phc (m : Nat) (s : State) : (inputsFresh m s).phc = s.phc := rfl
@[simp] theorem inputsFresh_tempo (m : Nat) (s : State) : (inputsFresh m s).tempo = s.tempo := rfl
@[simp] theorem inputsFresh_col (m : Nat) (s : State) : (inputsFresh m s).col = s.col := rfl
@[simp] theorem inputsFresh_mem (m : Nat) (s : State) : (inputsFresh m s).mem = s.mem := rfl
@[simp] theorem inputsFresh_ridge (m : Nat) (s : State) : (inputsFresh m s).ridge = s.ridge := rfl
@[simp] theorem inputsFresh_power (m : Nat) (s : State) : (inputsFresh m s).power = s.power := rfl
@[simp] theorem inputsFresh_pair (m : Nat) (s : State) : (inputsFresh m s).pair = s.pair := rfl
@[simp] theorem inputsFresh_lanes (m : Nat) (s : State) : (inputsFresh m s).lanes = s.lanes := rfl
@[simp] theorem inputsFresh_cores (m : Nat) (s : State) : (inputsFresh m s).cores = s.cores := rfl
@[simp] theorem inputsFresh_host (m : Nat) (s : State) : (inputsFresh m s).host = s.host := rfl
@[simp] theorem inputsFresh_out (m : Nat) (s : State) : (inputsFresh m s).out = s.out := rfl
@[simp] theorem inputsFresh_freeCtr (m : Nat) (s : State) : (inputsFresh m s).freeCtr = s.freeCtr := rfl
@[simp] theorem inputsFresh_pending (m : Nat) (s : State) : (inputsFresh m s).pending = s.pending := rfl
@[simp] theorem setCredits_get (m n : Nat) (s : State) (f : Fld) : (setCredits m n s).get f = s.get f := rfl
@[simp] theorem setCredits_tb (m n : Nat) (s : State) : (setCredits m n s).tb = s.tb := rfl
@[simp] theorem setCredits_cycle (m n : Nat) (s : State) : (setCredits m n s).cycle = s.cycle := rfl
@[simp] theorem setCredits_was (m n : Nat) (s : State) : (setCredits m n s).was = s.was := rfl
@[simp] theorem setCredits_pos (m n : Nat) (s : State) : (setCredits m n s).pos = s.pos := rfl
@[simp] theorem setCredits_phc (m n : Nat) (s : State) : (setCredits m n s).phc = s.phc := rfl
@[simp] theorem setCredits_tempo (m n : Nat) (s : State) : (setCredits m n s).tempo = s.tempo := rfl
@[simp] theorem setCredits_fab (m n : Nat) (s : State) : (setCredits m n s).fab = s.fab := rfl
@[simp] theorem setCredits_mem (m n : Nat) (s : State) : (setCredits m n s).mem = s.mem := rfl
@[simp] theorem setCredits_ridge (m n : Nat) (s : State) : (setCredits m n s).ridge = s.ridge := rfl
@[simp] theorem setCredits_power (m n : Nat) (s : State) : (setCredits m n s).power = s.power := rfl
@[simp] theorem setCredits_pair (m n : Nat) (s : State) : (setCredits m n s).pair = s.pair := rfl
@[simp] theorem setCredits_lanes (m n : Nat) (s : State) : (setCredits m n s).lanes = s.lanes := rfl
@[simp] theorem setCredits_cores (m n : Nat) (s : State) : (setCredits m n s).cores = s.cores := rfl
@[simp] theorem setCredits_host (m n : Nat) (s : State) : (setCredits m n s).host = s.host := rfl
@[simp] theorem setCredits_out (m n : Nat) (s : State) : (setCredits m n s).out = s.out := rfl
@[simp] theorem setCredits_freeCtr (m n : Nat) (s : State) : (setCredits m n s).freeCtr = s.freeCtr := rfl
@[simp] theorem setCredits_pending (m n : Nat) (s : State) : (setCredits m n s).pending = s.pending := rfl
@[simp] theorem State.setCore_get (s : State) (c : Nat) (x : Core) (f : Fld) : (State.setCore s c x).get f = s.get f := rfl
@[simp] theorem State.setCore_tb (s : State) (c : Nat) (x : Core) : (State.setCore s c x).tb = s.tb := rfl
@[simp] theorem State.setCore_cycle (s : State) (c : Nat) (x : Core) : (State.setCore s c x).cycle = s.cycle := rfl
@[simp] theorem State.setCore_was (s : State) (c : Nat) (x : Core) : (State.setCore s c x).was = s.was := rfl
@[simp] theorem State.setCore_pos (s : State) (c : Nat) (x : Core) : (State.setCore s c x).pos = s.pos := rfl
@[simp] theorem State.setCore_phc (s : State) (c : Nat) (x : Core) : (State.setCore s c x).phc = s.phc := rfl
@[simp] theorem State.setCore_tempo (s : State) (c : Nat) (x : Core) : (State.setCore s c x).tempo = s.tempo := rfl
@[simp] theorem State.setCore_fab (s : State) (c : Nat) (x : Core) : (State.setCore s c x).fab = s.fab := rfl
@[simp] theorem State.setCore_col (s : State) (c : Nat) (x : Core) : (State.setCore s c x).col = s.col := rfl
@[simp] theorem State.setCore_mem (s : State) (c : Nat) (x : Core) : (State.setCore s c x).mem = s.mem := rfl
@[simp] theorem State.setCore_ridge (s : State) (c : Nat) (x : Core) : (State.setCore s c x).ridge = s.ridge := rfl
@[simp] theorem State.setCore_power (s : State) (c : Nat) (x : Core) : (State.setCore s c x).power = s.power := rfl
@[simp] theorem State.setCore_pair (s : State) (c : Nat) (x : Core) : (State.setCore s c x).pair = s.pair := rfl
@[simp] theorem State.setCore_lanes (s : State) (c : Nat) (x : Core) : (State.setCore s c x).lanes = s.lanes := rfl
@[simp] theorem State.setCore_host (s : State) (c : Nat) (x : Core) : (State.setCore s c x).host = s.host := rfl
@[simp] theorem State.setCore_out (s : State) (c : Nat) (x : Core) : (State.setCore s c x).out = s.out := rfl
@[simp] theorem State.setCore_freeCtr (s : State) (c : Nat) (x : Core) : (State.setCore s c x).freeCtr = s.freeCtr := rfl
@[simp] theorem State.setCore_pending (s : State) (c : Nat) (x : Core) : (State.setCore s c x).pending = s.pending := rfl
@[simp] theorem clearTiles_get (m : Nat) (s : State) (f : Fld) : (clearTiles m s).get f = s.get f := rfl
@[simp] theorem clearTiles_tb (m : Nat) (s : State) : (clearTiles m s).tb = s.tb := rfl
@[simp] theorem clearTiles_cycle (m : Nat) (s : State) : (clearTiles m s).cycle = s.cycle := rfl
@[simp] theorem clearTiles_was (m : Nat) (s : State) : (clearTiles m s).was = s.was := rfl
@[simp] theorem clearTiles_pos (m : Nat) (s : State) : (clearTiles m s).pos = s.pos := rfl
@[simp] theorem clearTiles_phc (m : Nat) (s : State) : (clearTiles m s).phc = s.phc := rfl
@[simp] theorem clearTiles_tempo (m : Nat) (s : State) : (clearTiles m s).tempo = s.tempo := rfl
@[simp] theorem clearTiles_col (m : Nat) (s : State) : (clearTiles m s).col = s.col := rfl
@[simp] theorem clearTiles_mem (m : Nat) (s : State) : (clearTiles m s).mem = s.mem := rfl
@[simp] theorem clearTiles_ridge (m : Nat) (s : State) : (clearTiles m s).ridge = s.ridge := rfl
@[simp] theorem clearTiles_power (m : Nat) (s : State) : (clearTiles m s).power = s.power := rfl
@[simp] theorem clearTiles_pair (m : Nat) (s : State) : (clearTiles m s).pair = s.pair := rfl
@[simp] theorem clearTiles_lanes (m : Nat) (s : State) : (clearTiles m s).lanes = s.lanes := rfl
@[simp] theorem clearTiles_cores (m : Nat) (s : State) : (clearTiles m s).cores = s.cores := rfl
@[simp] theorem clearTiles_host (m : Nat) (s : State) : (clearTiles m s).host = s.host := rfl
@[simp] theorem clearTiles_out (m : Nat) (s : State) : (clearTiles m s).out = s.out := rfl
@[simp] theorem clearTiles_freeCtr (m : Nat) (s : State) : (clearTiles m s).freeCtr = s.freeCtr := rfl
@[simp] theorem clearTiles_pending (m : Nat) (s : State) : (clearTiles m s).pending = s.pending := rfl
@[simp] theorem clearCallerRam_get (m : Nat) (s : State) (f : Fld) : (clearCallerRam m s).get f = s.get f := rfl
@[simp] theorem clearCallerRam_tb (m : Nat) (s : State) : (clearCallerRam m s).tb = s.tb := rfl
@[simp] theorem clearCallerRam_cycle (m : Nat) (s : State) : (clearCallerRam m s).cycle = s.cycle := rfl
@[simp] theorem clearCallerRam_was (m : Nat) (s : State) : (clearCallerRam m s).was = s.was := rfl
@[simp] theorem clearCallerRam_pos (m : Nat) (s : State) : (clearCallerRam m s).pos = s.pos := rfl
@[simp] theorem clearCallerRam_phc (m : Nat) (s : State) : (clearCallerRam m s).phc = s.phc := rfl
@[simp] theorem clearCallerRam_tempo (m : Nat) (s : State) : (clearCallerRam m s).tempo = s.tempo := rfl
@[simp] theorem clearCallerRam_fab (m : Nat) (s : State) : (clearCallerRam m s).fab = s.fab := rfl
@[simp] theorem clearCallerRam_col (m : Nat) (s : State) : (clearCallerRam m s).col = s.col := rfl
@[simp] theorem clearCallerRam_mem (m : Nat) (s : State) : (clearCallerRam m s).mem = s.mem := rfl
@[simp] theorem clearCallerRam_ridge (m : Nat) (s : State) : (clearCallerRam m s).ridge = s.ridge := rfl
@[simp] theorem clearCallerRam_power (m : Nat) (s : State) : (clearCallerRam m s).power = s.power := rfl
@[simp] theorem clearCallerRam_pair (m : Nat) (s : State) : (clearCallerRam m s).pair = s.pair := rfl
@[simp] theorem clearCallerRam_lanes (m : Nat) (s : State) : (clearCallerRam m s).lanes = s.lanes := rfl
@[simp] theorem clearCallerRam_host (m : Nat) (s : State) : (clearCallerRam m s).host = s.host := rfl
@[simp] theorem clearCallerRam_out (m : Nat) (s : State) : (clearCallerRam m s).out = s.out := rfl
@[simp] theorem clearCallerRam_freeCtr (m : Nat) (s : State) : (clearCallerRam m s).freeCtr = s.freeCtr := rfl
@[simp] theorem clearCallerRam_pending (m : Nat) (s : State) : (clearCallerRam m s).pending = s.pending := rfl
@[simp] theorem setRamCell_get (m w : Nat) (v : BitVec 39) (s : State) (f : Fld) : (setRamCell m w v s).get f = s.get f := rfl
@[simp] theorem setRamCell_tb (m w : Nat) (v : BitVec 39) (s : State) : (setRamCell m w v s).tb = s.tb := rfl
@[simp] theorem setRamCell_cycle (m w : Nat) (v : BitVec 39) (s : State) : (setRamCell m w v s).cycle = s.cycle := rfl
@[simp] theorem setRamCell_was (m w : Nat) (v : BitVec 39) (s : State) : (setRamCell m w v s).was = s.was := rfl
@[simp] theorem setRamCell_pos (m w : Nat) (v : BitVec 39) (s : State) : (setRamCell m w v s).pos = s.pos := rfl
@[simp] theorem setRamCell_phc (m w : Nat) (v : BitVec 39) (s : State) : (setRamCell m w v s).phc = s.phc := rfl
@[simp] theorem setRamCell_tempo (m w : Nat) (v : BitVec 39) (s : State) : (setRamCell m w v s).tempo = s.tempo := rfl
@[simp] theorem setRamCell_fab (m w : Nat) (v : BitVec 39) (s : State) : (setRamCell m w v s).fab = s.fab := rfl
@[simp] theorem setRamCell_col (m w : Nat) (v : BitVec 39) (s : State) : (setRamCell m w v s).col = s.col := rfl
@[simp] theorem setRamCell_mem (m w : Nat) (v : BitVec 39) (s : State) : (setRamCell m w v s).mem = s.mem := rfl
@[simp] theorem setRamCell_ridge (m w : Nat) (v : BitVec 39) (s : State) : (setRamCell m w v s).ridge = s.ridge := rfl
@[simp] theorem setRamCell_power (m w : Nat) (v : BitVec 39) (s : State) : (setRamCell m w v s).power = s.power := rfl
@[simp] theorem setRamCell_pair (m w : Nat) (v : BitVec 39) (s : State) : (setRamCell m w v s).pair = s.pair := rfl
@[simp] theorem setRamCell_lanes (m w : Nat) (v : BitVec 39) (s : State) : (setRamCell m w v s).lanes = s.lanes := rfl
@[simp] theorem setRamCell_host (m w : Nat) (v : BitVec 39) (s : State) : (setRamCell m w v s).host = s.host := rfl
@[simp] theorem setRamCell_out (m w : Nat) (v : BitVec 39) (s : State) : (setRamCell m w v s).out = s.out := rfl
@[simp] theorem setRamCell_freeCtr (m w : Nat) (v : BitVec 39) (s : State) : (setRamCell m w v s).freeCtr = s.freeCtr := rfl
@[simp] theorem setRamCell_pending (m w : Nat) (v : BitVec 39) (s : State) : (setRamCell m w v s).pending = s.pending := rfl
@[simp] theorem setPair_get (f : Pair → Pair) (s : State) (g : Fld) : (setPair f s).get g = s.get g := rfl
@[simp] theorem setPair_tb (f : Pair → Pair) (s : State) : (setPair f s).tb = s.tb := rfl
@[simp] theorem setPair_cycle (f : Pair → Pair) (s : State) : (setPair f s).cycle = s.cycle := rfl
@[simp] theorem setPair_was (f : Pair → Pair) (s : State) : (setPair f s).was = s.was := rfl
@[simp] theorem setPair_pos (f : Pair → Pair) (s : State) : (setPair f s).pos = s.pos := rfl
@[simp] theorem setPair_phc (f : Pair → Pair) (s : State) : (setPair f s).phc = s.phc := rfl
@[simp] theorem setPair_tempo (f : Pair → Pair) (s : State) : (setPair f s).tempo = s.tempo := rfl
@[simp] theorem setPair_fab (f : Pair → Pair) (s : State) : (setPair f s).fab = s.fab := rfl
@[simp] theorem setPair_col (f : Pair → Pair) (s : State) : (setPair f s).col = s.col := rfl
@[simp] theorem setPair_mem (f : Pair → Pair) (s : State) : (setPair f s).mem = s.mem := rfl
@[simp] theorem setPair_ridge (f : Pair → Pair) (s : State) : (setPair f s).ridge = s.ridge := rfl
@[simp] theorem setPair_power (f : Pair → Pair) (s : State) : (setPair f s).power = s.power := rfl
@[simp] theorem setPair_lanes (f : Pair → Pair) (s : State) : (setPair f s).lanes = s.lanes := rfl
@[simp] theorem setPair_cores (f : Pair → Pair) (s : State) : (setPair f s).cores = s.cores := rfl
@[simp] theorem setPair_host (f : Pair → Pair) (s : State) : (setPair f s).host = s.host := rfl
@[simp] theorem setPair_out (f : Pair → Pair) (s : State) : (setPair f s).out = s.out := rfl
@[simp] theorem setPair_freeCtr (f : Pair → Pair) (s : State) : (setPair f s).freeCtr = s.freeCtr := rfl
@[simp] theorem setPair_pending (f : Pair → Pair) (s : State) : (setPair f s).pending = s.pending := rfl
@[simp] theorem State.setCxp_get (s : State) (g j : Nat) (x : CxpLink) (f : Fld) : (State.setCxp s g j x).get f = s.get f := rfl
@[simp] theorem State.setCxp_tb (s : State) (g j : Nat) (x : CxpLink) : (State.setCxp s g j x).tb = s.tb := rfl
@[simp] theorem State.setCxp_cycle (s : State) (g j : Nat) (x : CxpLink) : (State.setCxp s g j x).cycle = s.cycle := rfl
@[simp] theorem State.setCxp_was (s : State) (g j : Nat) (x : CxpLink) : (State.setCxp s g j x).was = s.was := rfl
@[simp] theorem State.setCxp_pos (s : State) (g j : Nat) (x : CxpLink) : (State.setCxp s g j x).pos = s.pos := rfl
@[simp] theorem State.setCxp_phc (s : State) (g j : Nat) (x : CxpLink) : (State.setCxp s g j x).phc = s.phc := rfl
@[simp] theorem State.setCxp_tempo (s : State) (g j : Nat) (x : CxpLink) : (State.setCxp s g j x).tempo = s.tempo := rfl
@[simp] theorem State.setCxp_fab (s : State) (g j : Nat) (x : CxpLink) : (State.setCxp s g j x).fab = s.fab := rfl
@[simp] theorem State.setCxp_col (s : State) (g j : Nat) (x : CxpLink) : (State.setCxp s g j x).col = s.col := rfl
@[simp] theorem State.setCxp_mem (s : State) (g j : Nat) (x : CxpLink) : (State.setCxp s g j x).mem = s.mem := rfl
@[simp] theorem State.setCxp_ridge (s : State) (g j : Nat) (x : CxpLink) : (State.setCxp s g j x).ridge = s.ridge := rfl
@[simp] theorem State.setCxp_power (s : State) (g j : Nat) (x : CxpLink) : (State.setCxp s g j x).power = s.power := rfl
@[simp] theorem State.setCxp_pair (s : State) (g j : Nat) (x : CxpLink) : (State.setCxp s g j x).pair = s.pair := rfl
@[simp] theorem State.setCxp_cores (s : State) (g j : Nat) (x : CxpLink) : (State.setCxp s g j x).cores = s.cores := rfl
@[simp] theorem State.setCxp_host (s : State) (g j : Nat) (x : CxpLink) : (State.setCxp s g j x).host = s.host := rfl
@[simp] theorem State.setCxp_out (s : State) (g j : Nat) (x : CxpLink) : (State.setCxp s g j x).out = s.out := rfl
@[simp] theorem State.setCxp_freeCtr (s : State) (g j : Nat) (x : CxpLink) : (State.setCxp s g j x).freeCtr = s.freeCtr := rfl
@[simp] theorem State.setCxp_pending (s : State) (g j : Nat) (x : CxpLink) : (State.setCxp s g j x).pending = s.pending := rfl
@[simp] theorem State.setGv_get (s : State) (c j : Nat) (x : GvSrc) (f : Fld) : (State.setGv s c j x).get f = s.get f := rfl
@[simp] theorem State.setGv_tb (s : State) (c j : Nat) (x : GvSrc) : (State.setGv s c j x).tb = s.tb := rfl
@[simp] theorem State.setGv_cycle (s : State) (c j : Nat) (x : GvSrc) : (State.setGv s c j x).cycle = s.cycle := rfl
@[simp] theorem State.setGv_was (s : State) (c j : Nat) (x : GvSrc) : (State.setGv s c j x).was = s.was := rfl
@[simp] theorem State.setGv_pos (s : State) (c j : Nat) (x : GvSrc) : (State.setGv s c j x).pos = s.pos := rfl
@[simp] theorem State.setGv_phc (s : State) (c j : Nat) (x : GvSrc) : (State.setGv s c j x).phc = s.phc := rfl
@[simp] theorem State.setGv_tempo (s : State) (c j : Nat) (x : GvSrc) : (State.setGv s c j x).tempo = s.tempo := rfl
@[simp] theorem State.setGv_fab (s : State) (c j : Nat) (x : GvSrc) : (State.setGv s c j x).fab = s.fab := rfl
@[simp] theorem State.setGv_col (s : State) (c j : Nat) (x : GvSrc) : (State.setGv s c j x).col = s.col := rfl
@[simp] theorem State.setGv_mem (s : State) (c j : Nat) (x : GvSrc) : (State.setGv s c j x).mem = s.mem := rfl
@[simp] theorem State.setGv_ridge (s : State) (c j : Nat) (x : GvSrc) : (State.setGv s c j x).ridge = s.ridge := rfl
@[simp] theorem State.setGv_power (s : State) (c j : Nat) (x : GvSrc) : (State.setGv s c j x).power = s.power := rfl
@[simp] theorem State.setGv_pair (s : State) (c j : Nat) (x : GvSrc) : (State.setGv s c j x).pair = s.pair := rfl
@[simp] theorem State.setGv_cores (s : State) (c j : Nat) (x : GvSrc) : (State.setGv s c j x).cores = s.cores := rfl
@[simp] theorem State.setGv_host (s : State) (c j : Nat) (x : GvSrc) : (State.setGv s c j x).host = s.host := rfl
@[simp] theorem State.setGv_out (s : State) (c j : Nat) (x : GvSrc) : (State.setGv s c j x).out = s.out := rfl
@[simp] theorem State.setGv_freeCtr (s : State) (c j : Nat) (x : GvSrc) : (State.setGv s c j x).freeCtr = s.freeCtr := rfl
@[simp] theorem State.setGv_pending (s : State) (c j : Nat) (x : GvSrc) : (State.setGv s c j x).pending = s.pending := rfl
@[simp] theorem State.setEthCl_get (s : State) (c : Nat) (x : EthCl) (f : Fld) : (State.setEthCl s c x).get f = s.get f := rfl
@[simp] theorem State.setEthCl_tb (s : State) (c : Nat) (x : EthCl) : (State.setEthCl s c x).tb = s.tb := rfl
@[simp] theorem State.setEthCl_cycle (s : State) (c : Nat) (x : EthCl) : (State.setEthCl s c x).cycle = s.cycle := rfl
@[simp] theorem State.setEthCl_was (s : State) (c : Nat) (x : EthCl) : (State.setEthCl s c x).was = s.was := rfl
@[simp] theorem State.setEthCl_pos (s : State) (c : Nat) (x : EthCl) : (State.setEthCl s c x).pos = s.pos := rfl
@[simp] theorem State.setEthCl_phc (s : State) (c : Nat) (x : EthCl) : (State.setEthCl s c x).phc = s.phc := rfl
@[simp] theorem State.setEthCl_tempo (s : State) (c : Nat) (x : EthCl) : (State.setEthCl s c x).tempo = s.tempo := rfl
@[simp] theorem State.setEthCl_fab (s : State) (c : Nat) (x : EthCl) : (State.setEthCl s c x).fab = s.fab := rfl
@[simp] theorem State.setEthCl_col (s : State) (c : Nat) (x : EthCl) : (State.setEthCl s c x).col = s.col := rfl
@[simp] theorem State.setEthCl_mem (s : State) (c : Nat) (x : EthCl) : (State.setEthCl s c x).mem = s.mem := rfl
@[simp] theorem State.setEthCl_ridge (s : State) (c : Nat) (x : EthCl) : (State.setEthCl s c x).ridge = s.ridge := rfl
@[simp] theorem State.setEthCl_power (s : State) (c : Nat) (x : EthCl) : (State.setEthCl s c x).power = s.power := rfl
@[simp] theorem State.setEthCl_pair (s : State) (c : Nat) (x : EthCl) : (State.setEthCl s c x).pair = s.pair := rfl
@[simp] theorem State.setEthCl_cores (s : State) (c : Nat) (x : EthCl) : (State.setEthCl s c x).cores = s.cores := rfl
@[simp] theorem State.setEthCl_host (s : State) (c : Nat) (x : EthCl) : (State.setEthCl s c x).host = s.host := rfl
@[simp] theorem State.setEthCl_out (s : State) (c : Nat) (x : EthCl) : (State.setEthCl s c x).out = s.out := rfl
@[simp] theorem State.setEthCl_freeCtr (s : State) (c : Nat) (x : EthCl) : (State.setEthCl s c x).freeCtr = s.freeCtr := rfl
@[simp] theorem State.setEthCl_pending (s : State) (c : Nat) (x : EthCl) : (State.setEthCl s c x).pending = s.pending := rfl
@[simp] theorem setPhc_get (c : Nat) (x : Phc) (s : State) (f : Fld) : (setPhc c x s).get f = s.get f := rfl
@[simp] theorem setPhc_tb (c : Nat) (x : Phc) (s : State) : (setPhc c x s).tb = s.tb := rfl
@[simp] theorem setPhc_cycle (c : Nat) (x : Phc) (s : State) : (setPhc c x s).cycle = s.cycle := rfl
@[simp] theorem setPhc_was (c : Nat) (x : Phc) (s : State) : (setPhc c x s).was = s.was := rfl
@[simp] theorem setPhc_pos (c : Nat) (x : Phc) (s : State) : (setPhc c x s).pos = s.pos := rfl
@[simp] theorem setPhc_tempo (c : Nat) (x : Phc) (s : State) : (setPhc c x s).tempo = s.tempo := rfl
@[simp] theorem setPhc_fab (c : Nat) (x : Phc) (s : State) : (setPhc c x s).fab = s.fab := rfl
@[simp] theorem setPhc_col (c : Nat) (x : Phc) (s : State) : (setPhc c x s).col = s.col := rfl
@[simp] theorem setPhc_mem (c : Nat) (x : Phc) (s : State) : (setPhc c x s).mem = s.mem := rfl
@[simp] theorem setPhc_ridge (c : Nat) (x : Phc) (s : State) : (setPhc c x s).ridge = s.ridge := rfl
@[simp] theorem setPhc_power (c : Nat) (x : Phc) (s : State) : (setPhc c x s).power = s.power := rfl
@[simp] theorem setPhc_pair (c : Nat) (x : Phc) (s : State) : (setPhc c x s).pair = s.pair := rfl
@[simp] theorem setPhc_lanes (c : Nat) (x : Phc) (s : State) : (setPhc c x s).lanes = s.lanes := rfl
@[simp] theorem setPhc_cores (c : Nat) (x : Phc) (s : State) : (setPhc c x s).cores = s.cores := rfl
@[simp] theorem setPhc_host (c : Nat) (x : Phc) (s : State) : (setPhc c x s).host = s.host := rfl
@[simp] theorem setPhc_out (c : Nat) (x : Phc) (s : State) : (setPhc c x s).out = s.out := rfl
@[simp] theorem setPhc_freeCtr (c : Nat) (x : Phc) (s : State) : (setPhc c x s).freeCtr = s.freeCtr := rfl
@[simp] theorem setPhc_pending (c : Nat) (x : Phc) (s : State) : (setPhc c x s).pending = s.pending := rfl
@[simp] theorem setNvmCopy_get (page copy : Nat) (x : NvmCopy) (s : State) (f : Fld) : (setNvmCopy page copy x s).get f = s.get f := rfl
@[simp] theorem setNvmCopy_tb (page copy : Nat) (x : NvmCopy) (s : State) : (setNvmCopy page copy x s).tb = s.tb := rfl
@[simp] theorem setNvmCopy_cycle (page copy : Nat) (x : NvmCopy) (s : State) : (setNvmCopy page copy x s).cycle = s.cycle := rfl
@[simp] theorem setNvmCopy_was (page copy : Nat) (x : NvmCopy) (s : State) : (setNvmCopy page copy x s).was = s.was := rfl
@[simp] theorem setNvmCopy_pos (page copy : Nat) (x : NvmCopy) (s : State) : (setNvmCopy page copy x s).pos = s.pos := rfl
@[simp] theorem setNvmCopy_phc (page copy : Nat) (x : NvmCopy) (s : State) : (setNvmCopy page copy x s).phc = s.phc := rfl
@[simp] theorem setNvmCopy_tempo (page copy : Nat) (x : NvmCopy) (s : State) : (setNvmCopy page copy x s).tempo = s.tempo := rfl
@[simp] theorem setNvmCopy_fab (page copy : Nat) (x : NvmCopy) (s : State) : (setNvmCopy page copy x s).fab = s.fab := rfl
@[simp] theorem setNvmCopy_col (page copy : Nat) (x : NvmCopy) (s : State) : (setNvmCopy page copy x s).col = s.col := rfl
@[simp] theorem setNvmCopy_mem (page copy : Nat) (x : NvmCopy) (s : State) : (setNvmCopy page copy x s).mem = s.mem := rfl
@[simp] theorem setNvmCopy_ridge (page copy : Nat) (x : NvmCopy) (s : State) : (setNvmCopy page copy x s).ridge = s.ridge := rfl
@[simp] theorem setNvmCopy_power (page copy : Nat) (x : NvmCopy) (s : State) : (setNvmCopy page copy x s).power = s.power := rfl
@[simp] theorem setNvmCopy_pair (page copy : Nat) (x : NvmCopy) (s : State) : (setNvmCopy page copy x s).pair = s.pair := rfl
@[simp] theorem setNvmCopy_lanes (page copy : Nat) (x : NvmCopy) (s : State) : (setNvmCopy page copy x s).lanes = s.lanes := rfl
@[simp] theorem setNvmCopy_cores (page copy : Nat) (x : NvmCopy) (s : State) : (setNvmCopy page copy x s).cores = s.cores := rfl
@[simp] theorem setNvmCopy_out (page copy : Nat) (x : NvmCopy) (s : State) : (setNvmCopy page copy x s).out = s.out := rfl
@[simp] theorem setNvmCopy_freeCtr (page copy : Nat) (x : NvmCopy) (s : State) : (setNvmCopy page copy x s).freeCtr = s.freeCtr := rfl
@[simp] theorem setNvmCopy_pending (page copy : Nat) (x : NvmCopy) (s : State) : (setNvmCopy page copy x s).pending = s.pending := rfl
@[simp] theorem setL2_get (line : Nat) (l : Option L2Line) (s : State) (f : Fld) : (setL2 line l s).get f = s.get f := rfl
@[simp] theorem setL2_tb (line : Nat) (l : Option L2Line) (s : State) : (setL2 line l s).tb = s.tb := rfl
@[simp] theorem setL2_cycle (line : Nat) (l : Option L2Line) (s : State) : (setL2 line l s).cycle = s.cycle := rfl
@[simp] theorem setL2_was (line : Nat) (l : Option L2Line) (s : State) : (setL2 line l s).was = s.was := rfl
@[simp] theorem setL2_pos (line : Nat) (l : Option L2Line) (s : State) : (setL2 line l s).pos = s.pos := rfl
@[simp] theorem setL2_phc (line : Nat) (l : Option L2Line) (s : State) : (setL2 line l s).phc = s.phc := rfl
@[simp] theorem setL2_tempo (line : Nat) (l : Option L2Line) (s : State) : (setL2 line l s).tempo = s.tempo := rfl
@[simp] theorem setL2_fab (line : Nat) (l : Option L2Line) (s : State) : (setL2 line l s).fab = s.fab := rfl
@[simp] theorem setL2_col (line : Nat) (l : Option L2Line) (s : State) : (setL2 line l s).col = s.col := rfl
@[simp] theorem setL2_mem (line : Nat) (l : Option L2Line) (s : State) : (setL2 line l s).mem = s.mem := rfl
@[simp] theorem setL2_ridge (line : Nat) (l : Option L2Line) (s : State) : (setL2 line l s).ridge = s.ridge := rfl
@[simp] theorem setL2_power (line : Nat) (l : Option L2Line) (s : State) : (setL2 line l s).power = s.power := rfl
@[simp] theorem setL2_pair (line : Nat) (l : Option L2Line) (s : State) : (setL2 line l s).pair = s.pair := rfl
@[simp] theorem setL2_lanes (line : Nat) (l : Option L2Line) (s : State) : (setL2 line l s).lanes = s.lanes := rfl
@[simp] theorem setL2_host (line : Nat) (l : Option L2Line) (s : State) : (setL2 line l s).host = s.host := rfl
@[simp] theorem setL2_out (line : Nat) (l : Option L2Line) (s : State) : (setL2 line l s).out = s.out := rfl
@[simp] theorem setL2_freeCtr (line : Nat) (l : Option L2Line) (s : State) : (setL2 line l s).freeCtr = s.freeCtr := rfl
@[simp] theorem setL2_pending (line : Nat) (l : Option L2Line) (s : State) : (setL2 line l s).pending = s.pending := rfl
@[simp] theorem setLoads_get (f : Loads → Loads) (s : State) (g : Fld) : (setLoads f s).get g = s.get g := rfl
@[simp] theorem setLoads_tb (f : Loads → Loads) (s : State) : (setLoads f s).tb = s.tb := rfl
@[simp] theorem setLoads_cycle (f : Loads → Loads) (s : State) : (setLoads f s).cycle = s.cycle := rfl
@[simp] theorem setLoads_was (f : Loads → Loads) (s : State) : (setLoads f s).was = s.was := rfl
@[simp] theorem setLoads_pos (f : Loads → Loads) (s : State) : (setLoads f s).pos = s.pos := rfl
@[simp] theorem setLoads_phc (f : Loads → Loads) (s : State) : (setLoads f s).phc = s.phc := rfl
@[simp] theorem setLoads_tempo (f : Loads → Loads) (s : State) : (setLoads f s).tempo = s.tempo := rfl
@[simp] theorem setLoads_fab (f : Loads → Loads) (s : State) : (setLoads f s).fab = s.fab := rfl
@[simp] theorem setLoads_col (f : Loads → Loads) (s : State) : (setLoads f s).col = s.col := rfl
@[simp] theorem setLoads_mem (f : Loads → Loads) (s : State) : (setLoads f s).mem = s.mem := rfl
@[simp] theorem setLoads_ridge (f : Loads → Loads) (s : State) : (setLoads f s).ridge = s.ridge := rfl
@[simp] theorem setLoads_power (f : Loads → Loads) (s : State) : (setLoads f s).power = s.power := rfl
@[simp] theorem setLoads_pair (f : Loads → Loads) (s : State) : (setLoads f s).pair = s.pair := rfl
@[simp] theorem setLoads_lanes (f : Loads → Loads) (s : State) : (setLoads f s).lanes = s.lanes := rfl
@[simp] theorem setLoads_cores (f : Loads → Loads) (s : State) : (setLoads f s).cores = s.cores := rfl
@[simp] theorem setLoads_out (f : Loads → Loads) (s : State) : (setLoads f s).out = s.out := rfl
@[simp] theorem setLoads_freeCtr (f : Loads → Loads) (s : State) : (setLoads f s).freeCtr = s.freeCtr := rfl
@[simp] theorem setLoads_pending (f : Loads → Loads) (s : State) : (setLoads f s).pending = s.pending := rfl
@[simp] theorem setPower_get (f : Power → Power) (s : State) (g : Fld) : (setPower f s).get g = s.get g := rfl
@[simp] theorem setPower_tb (f : Power → Power) (s : State) : (setPower f s).tb = s.tb := rfl
@[simp] theorem setPower_cycle (f : Power → Power) (s : State) : (setPower f s).cycle = s.cycle := rfl
@[simp] theorem setPower_was (f : Power → Power) (s : State) : (setPower f s).was = s.was := rfl
@[simp] theorem setPower_pos (f : Power → Power) (s : State) : (setPower f s).pos = s.pos := rfl
@[simp] theorem setPower_phc (f : Power → Power) (s : State) : (setPower f s).phc = s.phc := rfl
@[simp] theorem setPower_tempo (f : Power → Power) (s : State) : (setPower f s).tempo = s.tempo := rfl
@[simp] theorem setPower_fab (f : Power → Power) (s : State) : (setPower f s).fab = s.fab := rfl
@[simp] theorem setPower_col (f : Power → Power) (s : State) : (setPower f s).col = s.col := rfl
@[simp] theorem setPower_mem (f : Power → Power) (s : State) : (setPower f s).mem = s.mem := rfl
@[simp] theorem setPower_ridge (f : Power → Power) (s : State) : (setPower f s).ridge = s.ridge := rfl
@[simp] theorem setPower_pair (f : Power → Power) (s : State) : (setPower f s).pair = s.pair := rfl
@[simp] theorem setPower_lanes (f : Power → Power) (s : State) : (setPower f s).lanes = s.lanes := rfl
@[simp] theorem setPower_cores (f : Power → Power) (s : State) : (setPower f s).cores = s.cores := rfl
@[simp] theorem setPower_host (f : Power → Power) (s : State) : (setPower f s).host = s.host := rfl
@[simp] theorem setPower_out (f : Power → Power) (s : State) : (setPower f s).out = s.out := rfl
@[simp] theorem setPower_freeCtr (f : Power → Power) (s : State) : (setPower f s).freeCtr = s.freeCtr := rfl
@[simp] theorem setPower_pending (f : Power → Power) (s : State) : (setPower f s).pending = s.pending := rfl
@[simp] theorem setHost_get (f : HostIf → HostIf) (s : State) (g : Fld) : (setHost f s).get g = s.get g := rfl
@[simp] theorem setHost_tb (f : HostIf → HostIf) (s : State) : (setHost f s).tb = s.tb := rfl
@[simp] theorem setHost_cycle (f : HostIf → HostIf) (s : State) : (setHost f s).cycle = s.cycle := rfl
@[simp] theorem setHost_was (f : HostIf → HostIf) (s : State) : (setHost f s).was = s.was := rfl
@[simp] theorem setHost_pos (f : HostIf → HostIf) (s : State) : (setHost f s).pos = s.pos := rfl
@[simp] theorem setHost_phc (f : HostIf → HostIf) (s : State) : (setHost f s).phc = s.phc := rfl
@[simp] theorem setHost_tempo (f : HostIf → HostIf) (s : State) : (setHost f s).tempo = s.tempo := rfl
@[simp] theorem setHost_fab (f : HostIf → HostIf) (s : State) : (setHost f s).fab = s.fab := rfl
@[simp] theorem setHost_col (f : HostIf → HostIf) (s : State) : (setHost f s).col = s.col := rfl
@[simp] theorem setHost_mem (f : HostIf → HostIf) (s : State) : (setHost f s).mem = s.mem := rfl
@[simp] theorem setHost_ridge (f : HostIf → HostIf) (s : State) : (setHost f s).ridge = s.ridge := rfl
@[simp] theorem setHost_power (f : HostIf → HostIf) (s : State) : (setHost f s).power = s.power := rfl
@[simp] theorem setHost_pair (f : HostIf → HostIf) (s : State) : (setHost f s).pair = s.pair := rfl
@[simp] theorem setHost_lanes (f : HostIf → HostIf) (s : State) : (setHost f s).lanes = s.lanes := rfl
@[simp] theorem setHost_cores (f : HostIf → HostIf) (s : State) : (setHost f s).cores = s.cores := rfl
@[simp] theorem setHost_out (f : HostIf → HostIf) (s : State) : (setHost f s).out = s.out := rfl
@[simp] theorem setHost_freeCtr (f : HostIf → HostIf) (s : State) : (setHost f s).freeCtr = s.freeCtr := rfl
@[simp] theorem setHost_pending (f : HostIf → HostIf) (s : State) : (setHost f s).pending = s.pending := rfl

end Sys2Proof.Machine
end

