-- ==== Sys2Proof/Laws/Wire.lean ====
section
/-! SUPPORT. Operations whose answers have come (R222, R310): what a read or a write over VN1 gives a core, its spill
engine and its context saves, and that it changes nothing but how far the operation has got. -/

namespace Sys2Proof.Machine

open Sys2Proof

/-- The operation of `k` has met `n` more answers. -/
def metAnswers (k n : Nat) (s : State) : State := s.setWire k { s.wire k with cur := (s.wire k).cur + n }

@[simp] theorem wire_setWire (s : State) (k : Nat) (w : Wire) : (s.setWire k w).wire k = w := by
  simp [State.wire, State.setWire, SMap.get_set_self]

theorem setWire_setWire (s : State) (k : Nat) (w x : Wire) : (s.setWire k w).setWire k x = s.setWire k x := by
  simp [State.setWire, SMap.set_set]

@[simp] theorem core_setWire (s : State) (k c : Nat) (w : Wire) : (s.setWire k w).core c = s.core c := rfl
@[simp] theorem get_setWire (s : State) (k : Nat) (w : Wire) (f : Fld) : (s.setWire k w).get f = s.get f := rfl

@[simp] theorem wire_setCore (s : State) (k c : Nat) (x : Core) : (s.setCore c x).wire k = s.wire k := rfl
@[simp] theorem core_metAnswers (k n c : Nat) (s : State) : (metAnswers k n s).core c = s.core c := rfl
@[simp] theorem get_metAnswers (k n : Nat) (s : State) (f : Fld) : (metAnswers k n s).get f = s.get f := rfl
@[simp] theorem l2_metAnswers (k n : Nat) (s : State) : (metAnswers k n s).cores = s.cores := rfl

theorem metAnswers_add (k m n : Nat) (s : State) : metAnswers k n (metAnswers k m s) = metAnswers k (m + n) s := by
  simp [metAnswers, setWire_setWire, Nat.add_assoc]

@[simp] theorem metAnswers_waits (k n : Nat) (s : State) : (metAnswers k n s).waits k = s.waits k := by
  simp [State.waits, metAnswers]

/-- An operation that is over leaves nothing of how far it had got. -/
theorem wireEnd_metAnswers {k n : Nat} {s : State} (h : s.waits k = true) : wireEnd k (metAnswers k n s) = wireEnd k s := by
  simp only [wireEnd, metAnswers_waits, h, State.when, if_true]
  simp [metAnswers, setWire_setWire]

theorem ends_metAnswers {c n : Nat} {s : State} (h : s.waits c = true) : ends c (metAnswers c n s) = ends c s := by
  rw [ends, wireEnd_metAnswers h, ends]

theorem setCore_metAnswers (k n c : Nat) (s : State) (x : Core) :
    (metAnswers k n s).setCore c x = metAnswers k n (s.setCore c x) := rfl

@[simp] theorem waits_setCore (s : State) (k c : Nat) (x : Core) : (s.setCore c x).waits k = s.waits k := rfl

/-- Answers yet to be met stand among the requests. -/
theorem Answered.waits {k : Nat} {rs : List VnReply} {s : State} (h : Answered k rs s) (hr : rs ≠ []) : s.waits k = true := by
  unfold Answered at h
  cases hq : (s.wire k).reqs with
  | nil => rw [hq] at h; cases rs <;> simp_all
  | cons a l => simp [State.waits, hq]

theorem Answered.length {k : Nat} {rs : List VnReply} {s : State} (h : Answered k rs s) (hr : rs ≠ []) :
    (s.wire k).cur + rs.length = (s.wire k).reqs.length := by
  have e := congrArg List.length h
  simp only [List.length_drop, List.length_map] at e
  have : 0 < rs.length := by cases rs <;> simp_all
  omega

theorem Answered.setCore {k : Nat} {rs : List VnReply} {s : State} (h : Answered k rs s) (c : Nat) (x : Core) :
    Answered k rs (s.setCore c x) := h

theorem Answered.met {k : Nat} {l rs : List VnReply} {s : State} (h : Answered k (l ++ rs) s) :
    Answered k rs (metAnswers k l.length s) := by
  unfold Answered at h ⊢
  simp only [metAnswers, wire_setWire, ← List.drop_drop, h, List.map_append]
  simp

theorem Answered.next {k : Nat} {x : VnReply} {rs : List VnReply} {s : State} (h : Answered k (x :: rs) s) :
    Answered k rs (metAnswers k 1 s) := Answered.met (l := [x]) h

/-- Requests that were issued before are not issued again. -/
theorem wireIssue_done (k : Nat) : ∀ (i : Nat) (ps : List Packet) (s : State), i + ps.length ≤ (s.wire k).reqs.length →
    wireIssue k i ps s = s
  | _, [], _, _ => rfl
  | i, p :: l, s, h => by
    simp only [List.length_cons] at h
    simp only [wireIssue]
    rw [if_pos (by omega)]
    exact wireIssue_done k (i + 1) l s (by omega)

/-- An operation meets the answers that have come. -/
theorem wireAsk_done {k : Nat} {ps : List Packet} {l rs : List VnReply} {s : State} (h : Answered k (l ++ rs) s)
    (hl : l.length = ps.length) (hn : l ≠ []) : wireAsk k ps s = (some l, metAnswers k l.length s) := by
  have e := h.length (by simp [hn])
  simp only [List.length_append] at e
  have hi : wireIssue k (s.wire k).cur ps s = s := wireIssue_done _ _ _ _ (by omega)
  unfold Answered at h
  have hg : (((s.wire k).reqs.drop (s.wire k).cur).take ps.length).filterMap id = l := by
    rw [h, ← hl, List.map_append, List.take_left' (by simp)]
    simp
  simp only [wireAsk, hi, hg, hl, metAnswers, BEq.rfl, if_true]

theorem coreAsk_done {c k : Nat} {ps : List Packet} {l rs : List VnReply} {s : State} (h : Answered k (l ++ rs) s)
    (hl : l.length = ps.length) (hn : l ≠ []) : coreAsk c k ps s = .ok l (metAnswers k l.length s) := by
  have e := h.length (by simp [hn])
  have : 0 < l.length := List.length_pos_iff.2 hn
  have h1 : ¬ (s.wire k).reqs.length ≤ (s.wire k).cur := by simp only [List.length_append] at e; omega
  have h2 : ((s.wire k).reqs.length ≤ (s.wire k).cur && postedCount s c != 0) = false := by simp [h1]
  simp only [coreAsk]
  rw [h2, wireAsk_done h hl hn]
  rfl

/-! ### Accesses of one packet (R220) -/

/-- An aligned access of at most 256 bytes is one packet. -/
theorem memParts_one {a n : Nat} (hn : 0 < n) (h : a % 256 + n ≤ 256) : memParts a n = [(0, n)] := by
  have e : (a + n + 255) / 256 - a / 256 = 1 := by omega
  have e2 : max a (256 * (a / 256)) = a := by omega
  have e3 : min (a + n) (256 * (a / 256 + 1)) = a + n := by omega
  simp [memParts, e, e2, e3]

/-- The bytes of a read that was answered. -/
theorem memLoad_done {c k : Nat} {m : Option Nat} {b n : Nat} {a : Word} {bs : List Byte} {rs : List VnReply} {s : State}
    (hn : 0 < n) (hb : b % 256 + n ≤ 256) (h : Answered k (readReply bs :: rs) s) :
    memLoad c k m b n a s = .ok (bs.map fun x => (x, false)) (metAnswers k 1 s) := by
  have hp : (readRequests s m (coreRouter c) (corePort c) b n).length = [readReply bs].length := by
    simp [readRequests, memParts_one hn hb]
  have := coreAsk_done (c := c) (l := [readReply bs]) (rs := rs) h hp.symm (by simp)
  simp only [memLoad, this, CoreRes.bind]
  simp [readRequests, memParts_one hn hb, refusedReply, readReply, replyBytes]

/-! ### The spill engine and the context saves -/

theorem InShelves.met {c n k j : Nat} {a : Word} {s : State} (h : InShelves c n a s) : InShelves c n a (metAnswers k j s) := h

theorem InShelves.next {c n : Nat} {a : Word} {s : State} (h : InShelves c (n + 1) a s) : InShelves c n (a + 4) s := by
  obtain ⟨h1, h2, h3, h4, h5⟩ := h
  have e : (a + 4).toNat = a.toNat + 4 := by
    rw [BitVec.toNat_add, show (4 : Word).toNat = 4 from rfl]; omega
  exact ⟨h1, by omega, by omega, by omega, h5⟩

/-- The place of the first of the words. -/
theorem InShelves.place {c n : Nat} {a : Word} {s : State} (h : InShelves c (n + 1) a s) {k : AccKind} :
    ∃ m b, b % 4 = 0 ∧ placeOf s c k a = some (.shelf m b) := by
  obtain ⟨h1, h2, h3, h4, h5⟩ := h
  refine ⟨(a.toNat - 0xF4000000) / 2 ^ 20, a.toNat % 2 ^ 20, by omega, ?_⟩
  have hl : isLead c = true := by simp [isLead, h1]
  have e1 : a.toNat / 2 ^ 28 = 15 := by omega
  have e2 : ¬ a.toNat < 0xF4000000 := by omega
  have e3 : a.toNat < 0xF8000000 := by omega
  simp only [placeOf, hl, if_true, leadPlace, e1, h5]
  simp [e2, e3]

theorem leBytes_length (n v : Nat) : (leBytes n v).length = n := by simp [leBytes]

/-- A word read by the engine. -/
theorem engineRead_done {c k n : Nat} {a v : Word} {bs : List Byte} {rs : List VnReply} {s : State}
    (h : InShelves c (n + 1) a s) (ha : Answered k (readReply bs :: rs) s) (hv : BitVec.ofNat 32 (leNat bs) = v) :
    engineRead c k a s = .ok v (metAnswers k 1 s) := by
  obtain ⟨m, b, hb, hp⟩ := h.place (k := .load)
  simp only [engineRead, hp, memLoad_done (by omega : 0 < 4) (by omega : b % 256 + 4 ≤ 256) ha, CoreRes.bind]
  simp [Function.comp_def, hv]

/-- Words read by the engine, one after the other. -/
theorem engineReads_done {c k : Nat} {l : List (List Byte)} {rs : List VnReply} {a : Word} {s : State} (hn : l ≠ [])
    (h : InShelves c l.length a s) (ha : Answered k (l.map readReply ++ rs) s) :
    engineReads c k a l.length s = .ok (l.map fun bs => BitVec.ofNat 32 (leNat bs)) (metAnswers k l.length s) := by
  induction l generalizing a s with
  | nil => exact absurd rfl hn
  | cons bs l ih =>
    rw [List.length_cons, engineReads, engineRead_done h ha rfl]
    simp only [CoreRes.bind]
    cases l with
    | nil => simp [engineReads]
    | cons b2 l =>
      rw [ih (by simp) h.next.met (Answered.next ha)]
      simp only [metAnswers_add, Nat.add_comm]
      rfl

/-- A word written by the engine. -/
theorem engineWrite_done {c k n : Nat} {spill : Bool} {a v : Word} {rs : List VnReply} {s : State}
    (h : InShelves c (n + 1) a s) (ha : Answered k (wroteReply :: rs) s) :
    engineWrite c k spill a v s = .ok () (metAnswers k 1 s) := by
  obtain ⟨m, b, hb, hp⟩ := h.place (k := .store)
  have hl : [wroteReply].length = (writeRequests s (some m) (coreRouter c) (corePort c) b
      ((leBytes 4 v.toNat).map fun x => (x, false))).length := by
    simp [writeRequests, leBytes_length, memParts_one (by omega : 0 < 4) (by omega : b % 256 + 4 ≤ 256)]
  have := coreAsk_done (c := c) (l := [wroteReply]) (rs := rs) ha hl (by simp)
  simp only [engineWrite, hp, this, CoreRes.bind]
  simp [refusedReply, wroteReply]

theorem engineStores_done {c k : Nat} {spill : Bool} {l : List Word} {rs : List VnReply} {a : Word} {s : State} (hn : l ≠ [])
    (h : InShelves c l.length a s) (ha : Answered k (List.replicate l.length wroteReply ++ rs) s) :
    engineStores c k spill a l s = .ok () (metAnswers k l.length s) := by
  induction l generalizing a s with
  | nil => exact absurd rfl hn
  | cons v l ih =>
    rw [engineStores, engineWrite_done h ha]
    simp only [CoreRes.bind]
    cases l with
    | nil => simp [engineStores]
    | cons w l =>
      rw [ih (by simp) h.next.met (Answered.next ha), metAnswers_add, Nat.add_comm]
      rfl

/-- Words that lie in the shelves need no line of the L2. -/
theorem engineTouch_shelves {c : Nat} : ∀ {n : Nat} {a : Word} {s : State}, InShelves c n a s → engineTouch c a n s = .ok () s
  | 0, _, _, _ => rfl
  | n + 1, a, s, h => by
    obtain ⟨m, b, _, hp⟩ := h.place (k := .store)
    simp only [engineTouch, hp]
    exact engineTouch_shelves h.next

/-- Words written by the engine. -/
theorem engineWrites_done {c k : Nat} {spill : Bool} {l : List Word} {rs : List VnReply} {a : Word} {s : State} (hn : l ≠ [])
    (h : InShelves c l.length a s) (ha : Answered k (List.replicate l.length wroteReply ++ rs) s) :
    engineWrites c k spill a l s = .ok () (metAnswers k l.length s) := by
  simp only [engineWrites, engineTouch_shelves h, CoreRes.bind, engineStores_done hn h ha]

end Sys2Proof.Machine
end

