-- ==== Sys2Proof/WellFormed.lean ====
section
/-! DEFINITION. Which operands a command can carry: packets whose header and payload have the form of R219–R221,
and lists whose length the spec fixes. Operands of bounded types need no check. -/

namespace Sys2Proof

/-- Every header field fits its place, and SRC and DST name routers (R219). -/
def Packet.headerFits (p : Packet) : Bool :=
  decide (p.dst < 96) && decide (p.src < 96) && decide (p.dport < 8) && decide (p.sport < 8) && decide (p.tag < 256)
    && decide (p.addr < 2 ^ 35) && decide (p.size < 256) && decide (p.status < 4) && decide (p.spmask < 2 ^ 12)

/-- Bytes, or words, of a packet's payload by its type (R220). A response that fails may carry none. -/
def Packet.payloadFits (p : Packet) : Bool :=
  match p.vn, p.typ with
  | 0, _ => p.words.length == p.size + 1
  | 1, 1 | 3, 2 => p.data.length == p.size + 1
  | 2, 0 => p.data.length == p.size + 1 || p.status != 0
  | 3, 0 | 3, 3 => p.stream.length == p.size + 1
  | 3, 1 => p.words.length == p.size + 5
  | _, _ => true

/-- The packet's type is none of the reserved ones of its network (R221). -/
def Packet.typeListed (p : Packet) : Bool :=
  match p.vn with
  | 0 => decide (p.typ < 2)
  | 1 | 2 | 3 => decide (p.typ < 4)
  | 4 => decide (p.typ < 3)
  | _ => false

/-- A memory access has 1 to 256 bytes and crosses no aligned 256-byte boundary (R220). -/
def Packet.accessFits (p : Packet) : Bool :=
  match p.vn, p.typ with
  | 1, 0 | 1, 1 | 3, 2 => decide (p.addr % 256 + p.size < 256)
  | _, _ => true

/-- R219–R221. -/
def Packet.wellFormed (p : Packet) : Bool := p.headerFits && p.typeListed && p.payloadFits && p.accessFits

namespace Instr

/-- The packet that a command carries. -/
def packet : Instr → Option Packet
  | .summitWr p | .summitBell p | .memRd p | .memWr p | .regRd p _ | .regWr p | .memRdresp p | .memWrack p
  | .regRdresp p | .regWrack p | .stream p | .report p | .bulkWr p | .mirror p | .errRecord p | .postedWr p
  | .packetDiscard p | .lateResponse p => some p
  | _ => none

/-- The lists of a command have lengths that the spec gives: an MWR record 1 to 16 words (R285), a management WRITE at
least one word (R387), a host write or read at least one byte (R381), a DMA descriptor 32 bytes (R384), the
descriptor that opens a COLLECTOR buffer 32 bytes or none (R385). -/
def listsFit : Instr → Bool
  | .mwr _ _ words _ => decide (0 < words.length) && decide (words.length ≤ 16)
  | .mgmtWrite _ words => !words.isEmpty
  | .bar2Request _ _ _ _ bytes _ => !bytes.isEmpty
  | .dmaDescriptor _ _ _ bytes _ => bytes.length == 32
  | .collectorOutput bytes _ => bytes.isEmpty || bytes.length == 32
  | _ => true

/-- A command as the spec's senders form it. -/
def wellFormed (i : Instr) : Bool :=
  listsFit i && match packet i with
    | some p => p.wellFormed
    | none => true

end Instr
end Sys2Proof
end

