-- ==== Sys2Proof/Tests/Slice0.lean ====
section
/-! SUPPORT. The author's own tests: ill-formed commands that the check refuses, small checks against the tables and worked
examples of the spec, and for each statement with hypotheses a witness that meets them. -/

namespace Sys2Proof.Tests

set_option Elab.async false

open Sys2Proof Sys2Proof.Machine

/-- A state with register fields set. -/
def withFields (l : List (Fld × Nat)) (s : State) : State := l.foldl (fun t p => t.put p.1 p.2) s

/-- The device in operation: reset, with the load released. -/
def live : State := withFields [(F.CFG_STAT_STATE, 3), (F.CMD_STAT_READY, 1)] State.reset

/-- The value of an outcome of a core, if it has one. -/
def okValue {α : Type} : CoreRes α → Option α
  | .ok v _ => some v
  | _ => none

/-- The state that it leaves. -/
def okState {α : Type} (r : CoreRes α) (s : State) : State := match r with
  | .ok _ t => t
  | _ => s

theorem ok_of_okValue {α : Type} {r : CoreRes α} {v : α} {s : State} (h : okValue r = some v) : r = .ok v (okState r s) := by
  cases r <;> simp_all [okValue, okState]

/-- Core `c` about to fetch for an instruction that it tries. -/
def tried (c : Nat) (tmo : Bool) (s : State) : State :=
  wireRewind c ((if midInstr s c then s else awake c s).when tmo (wireTimeout (coreRouter c) c))

/-- The state after the fetch of core `c`. -/
def fetched (c : Nat) (s : State) : State := okState (fetch c (tried c false s)) s

/-- The checks of `AtInstr`. -/
def ready (c : Nat) (s : State) : Bool :=
  coreRuns s c && (s.core c).toPost.isEmpty && (midInstr s c || (!(s.core c).spillDue && boundaryFree s c))
    && (okValue (fetch c (tried c false s))).isSome

theorem atInstr_of {c : Nat} {s : State} (h : ready c s = true) : AtInstr c s (fetched c s) := by
  simp only [ready, Bool.and_eq_true, Bool.or_eq_true, Bool.not_eq_true', List.isEmpty_iff] at h
  obtain ⟨⟨⟨h1, h2⟩, h3⟩, h4⟩ := h
  obtain ⟨w, hw⟩ := Option.isSome_iff_exists.mp h4
  refine ⟨h1, h2, fun hm => ?_, w, ok_of_okValue hw⟩
  rcases h3 with h3 | h3
  · simp_all
  · exact h3

/-- Caller 0 runs at address 0 of its RAM; Lead Caller 0 runs at address 0 of its window 0, mapped to HBM and cached. -/
def caller : State := live.put (F.CL_STAT_RUNNING 0) 1

/-- Lead Caller 0 has been released and runs from address 0 of its window 0, whose first line its instruction cache holds. -/
def lead : State :=
  let s := leadStart 0 (withFields [(F.HBM_CTL_EN, 1), (F.HBM_STAT_READY0, 1), (F.HBM_STAT_READY1, 1), (F.L2_CTL_EN, 1)] live)
  { s with cores := { s.cores with l1i := [(l1Key 64 0, some (List.replicate 16 (ramStored 0 false)))] } }

/-- The operation of requester `k` has had these answers. -/
def withReplies (k : Nat) (l : List VnReply) (s : State) : State := s.setWire k { reqs := l.map some }

/-- Core `c` of a state changed. -/
def withCore (c : Nat) (f : Core → Core) (s : State) : State := s.setCore c (f (s.core c))

/-- The trap that an outcome of a core is, if it is one. -/
def trapOf {α : Type} : CoreRes α → Option (Cause × Word)
  | .trap k a _ => some (k, a)
  | _ => none

/-- The state that a trap or a wait leaves. -/
def trapState {α : Type} (r : CoreRes α) (s : State) : State := match r with
  | .trap _ _ t => t
  | .stall t => t
  | _ => s

theorem trap_of_trapOf {α : Type} {r : CoreRes α} {k : Cause} {a : Word} {s : State} (h : trapOf r = some (k, a)) :
    r = .trap k a (trapState r s) := by
  cases r <;> simp_all [trapOf, trapState]

/-- The checks of `MayUse`, `MayEnter`. -/
def usable (c : Nat) (s : State) (fields dests : List Nat) : Bool :=
  fields.all (fun n => fieldExists (isLead c) n) && (!(s.core c).bit pswUSER || dests.all fun n => decide (n < 26))

theorem mayUse_of {c : Nat} {s : State} {fields dests : List Nat} (h : usable c s fields dests = true) :
    MayUse c s fields dests := by
  simp only [usable, Bool.and_eq_true, Bool.or_eq_true, Bool.not_eq_true', List.all_eq_true, decide_eq_true_eq] at h
  refine ⟨h.1, fun hu n hn => ?_⟩
  rcases h.2 with h2 | h2
  · simp_all
  · exact h2 n hn

def enterable (c : Nat) (s : State) : Bool :=
  let x := s.core c
  !x.bit pswEXL && !x.bit pswFM && !x.bit pswRSV && (!isLead c || framesFree x != 0)

theorem mayEnter_of {c : Nat} {s : State} (h : enterable c s = true) : MayEnter c s := by
  simp only [enterable, Bool.and_eq_true, Bool.or_eq_true, Bool.not_eq_true', bne_iff_ne] at h
  obtain ⟨⟨⟨h1, h2⟩, h3⟩, h4⟩ := h
  refine ⟨h1, h2, h3, fun hl => ?_⟩
  rcases h4 with h4 | h4
  · simp_all
  · exact h4
/-! ### Witnesses: the cores -/

/-- A Caller and a Lead Caller at an instruction, with their highest register fields. -/
theorem witness_register_arithmetic : (AtInstr 0 caller (fetched 0 caller) ∧ MayUse 0 (fetched 0 caller) [31, 25, 0] [31])
    ∧ (AtInstr 64 lead (fetched 64 lead) ∧ MayUse 64 (fetched 64 lead) [31, 24, 0] [31]) :=
  ⟨⟨atInstr_of (by decide +kernel), mayUse_of (by decide +kernel)⟩, atInstr_of (by decide +kernel), mayUse_of (by decide +kernel)⟩

/-- The most negative number and −1. -/
def dividing : State := withCore 0 (fun x => { x with k := [(0, 0x80000000), (1, 0xFFFFFFFF)] }) caller
theorem witness_multiply_divide : AtInstr 0 dividing (fetched 0 dividing) ∧ MayUse 0 (fetched 0 dividing) [2, 0, 1] [2]
    ∧ regOf (fetched 0 dividing) 0 0 = 0x80000000 ∧ regOf (fetched 0 dividing) 0 1 = 0xFFFFFFFF :=
  ⟨atInstr_of (by decide +kernel), mayUse_of (by decide +kernel), by decide +kernel, by decide +kernel⟩

theorem witness_immediates_and_jumps : AtInstr 0 caller (fetched 0 caller) ∧ MayUse 0 (fetched 0 caller) [31, 30] [31]
    ∧ (regOf (fetched 0 caller) 0 0).toNat % 4 = 0 :=
  ⟨atInstr_of (by decide +kernel), mayUse_of (by decide +kernel), by decide +kernel⟩

theorem witness_vectors : AtInstr 64 lead (fetched 64 lead) ∧ MayUse 64 (fetched 64 lead) [31] [31] ∧ 15 < vecLanes 2 :=
  ⟨atInstr_of (by decide +kernel), mayUse_of (by decide +kernel), by decide +kernel⟩

/-- A word as a read answers it. -/
def wordReply (v : Word) : VnReply := readReply (leBytes 4 v.toNat)
/-- The frame that the engine fills. -/
def frameWords : List Word := (List.replicate 10 0).set 9 0xF7A50000
/-- An operation of the spill engine of Lead Caller 0 has had these answers. -/
def withTurn (op : Bool × Nat) (l : List VnReply) (s : State) : State := s.setWire 192 { reqs := l.map some, op := some op }
/-- A Lead Caller whose frame below the window must be filled from shelf 0, and has been read. -/
def filling : State :=
  withTurn (false, 0xF4000000) (frameWords.map wordReply) (withCore 64 (fun x => { x with spillPtr := 0xF4000028, fillNext := true }) lead)
/-- In reserve mode, with the engine stopped; and with no free frame. -/
def reserved (stopped : Bool) : State := withCore 64 (fun x => { x with psw := 0x20, stopped := stopped, bot := 3 }) lead
def full : State := withCore 64 (fun x => { x with bot := 2 }) lead
theorem witness_windowed_calls :
    AtInstr 64 filling (fetched 64 filling)
    ∧ fillFrames 64 (fillsDue ((fetched 64 filling).core 64)) (fetched 64 filling)
        = .ok () (okState (fillFrames 64 (fillsDue ((fetched 64 filling).core 64)) (fetched 64 filling)) State.reset)
    ∧ 0 < fillsDue ((fetched 64 filling).core 64)
    ∧ AtInstr 64 (reserved true) (fetched 64 (reserved true)) ∧ AtInstr 64 (reserved false) (fetched 64 (reserved false))
    ∧ AtInstr 64 full (fetched 64 full) ∧ framesFree ((fetched 64 full).core 64) = 0
    ∧ MayUse 64 (fetched 64 full) [24] [] ∧ (regOf (fetched 64 full) 64 24).toNat % 4 = 0 :=
  ⟨atInstr_of (by decide +kernel), ok_of_okValue (by decide +kernel), by decide +kernel, atInstr_of (by decide +kernel),
    atInstr_of (by decide +kernel), atInstr_of (by decide +kernel), by decide +kernel, mayUse_of (by decide +kernel), by decide +kernel⟩

/-- A load and a store of local RAM, and of an address that is mapped to nothing (k1). -/
def loading : State := withCore 0 (fun x => { x with k := [(1, 0x00020000)] }) caller
theorem witness_loads_and_stores :
    AtInstr 0 loading (fetched 0 loading) ∧ MayUse 0 (fetched 0 loading) [2, 1, 0] [2] ∧ MayEnter 0 (fetched 0 loading)
    ∧ coreLoad 0 {} 0 4 (fetched 0 loading) = .ok 0 (okState (coreLoad 0 {} 0 4 (fetched 0 loading)) State.reset)
    ∧ coreLoad 0 {} 0 1 (fetched 0 loading) = .ok 0 (okState (coreLoad 0 {} 0 1 (fetched 0 loading)) State.reset)
    ∧ coreLoad 0 {} 0 2 (fetched 0 loading) = .ok 0 (okState (coreLoad 0 {} 0 2 (fetched 0 loading)) State.reset)
    ∧ (let r := coreLoad 0 {} 0x20000 4 (fetched 0 loading)
       r = .trap .access 0x20000 (trapState r State.reset) ∧ MayEnter 0 (trapState r State.reset))
    ∧ (∀ n ∈ [1, 2, 4], coreStore 0 0 n 0xFFFFFFFF (fetched 0 loading)
        = .ok () (okState (coreStore 0 0 n 0xFFFFFFFF (fetched 0 loading)) State.reset))
    ∧ (let r := coreStore 0 0x20000 4 0 (fetched 0 loading)
       r = .trap .access 0x20000 (trapState r State.reset) ∧ MayEnter 0 (trapState r State.reset)) := by
  refine ⟨atInstr_of (by decide +kernel), mayUse_of (by decide +kernel), mayEnter_of (by decide +kernel),
    ok_of_okValue (by decide +kernel), ok_of_okValue (by decide +kernel), ok_of_okValue (by decide +kernel),
    ⟨trap_of_trapOf (by decide +kernel), mayEnter_of (by decide +kernel)⟩, ?_,
    trap_of_trapOf (by decide +kernel), mayEnter_of (by decide +kernel)⟩
  intro n hn
  rcases List.mem_cons.mp hn with rfl | hn
  · exact ok_of_okValue (by decide +kernel)
  · rcases List.mem_cons.mp hn with rfl | hn
    · exact ok_of_okValue (by decide +kernel)
    · obtain rfl := List.mem_singleton.mp hn
      exact ok_of_okValue (by decide +kernel)

/-- A vector of a line that the data cache and the L2 hold; and of shelf 63, with the answer there. -/
def vectored : State :=
  let s := withReplies 64 [readReply (List.replicate 16 1)] lead
  { s with cores := { s.cores with
      l1d := [(l1Key 64 0, some (List.replicate 16 (ramStored 0 false)))]
      l2 := [(0, some ⟨List.replicate 8 (hbmStored 0 false), false⟩)] } }
theorem witness_vector_accesses :
    AtInstr 64 vectored (fetched 64 vectored)
    ∧ coreLoad 64 {} 0x10 16 (fetched 64 vectored) = .ok 0 (okState (coreLoad 64 {} 0x10 16 (fetched 64 vectored)) State.reset)
    ∧ coreStore 64 0x10 16 5 (fetched 64 vectored)
        = .ok () (okState (coreStore 64 0x10 16 5 (fetched 64 vectored)) State.reset)
    ∧ (let r := coreLoad 64 {} 0xF7FFFFF0 16 (fetched 64 vectored)
       r = .ok 0x01010101010101010101010101010101 (okState r State.reset))
    ∧ (let r := coreLoad 64 {} 0x10000000 16 (fetched 64 lead)
       r = .trap .access 0x10000000 (trapState r State.reset) ∧ MayEnter 64 (trapState r State.reset)) :=
  ⟨atInstr_of (by decide +kernel), ok_of_okValue (by decide +kernel), ok_of_okValue (by decide +kernel),
    ok_of_okValue (by decide +kernel), trap_of_trapOf (by decide +kernel), mayEnter_of (by decide +kernel)⟩

/-- A request for which Caller 0 waits times out: the load takes zeros and P. -/
def asked : State :=
  ((caller.put F.RQ_TIMEOUT_CYCLES 1).setWire 0 { reqs := [none] }).setOutReqs 0 [⟨0, .wire 0 0 0, false⟩]
theorem witness_timed_out : Tries 0 true asked (okState (fetch 0 (tried 0 true asked)) State.reset)
    ∧ ((okState (fetch 0 (tried 0 true asked)) State.reset).wire 0).reqs = [some { status := 3, poison := true }] := by
  refine ⟨⟨by decide +kernel, by decide +kernel, fun h => absurd h (by decide +kernel), 0, ok_of_okValue (by decide +kernel)⟩, by decide +kernel⟩

/-- A base in k0 that is aligned, and one in k1 that is not; transfer 23 of 24. -/
def moving : State := withCore 0 (fun x => { x with k := [(1, 2)] }) caller
theorem witness_multiple_transfers :
    AtInstr 0 moving (fetched 0 moving) ∧ MayEnter 0 (fetched 0 moving)
    ∧ (regOf (fetched 0 moving) 0 1).toNat % 4 ≠ 0 ∧ (regOf (fetched 0 moving) 0 0).toNat % 4 = 0
    ∧ (0x800000 : BitVec 24) &&& ~~~((fetched 0 moving).core 0).lsm ≠ 0 ∧ (0 : BitVec 24) &&& ~~~((fetched 0 moving).core 0).lsm = 0
    ∧ ((fetched 0 moving).core 0).lsm = 0 ∧ ((fetched 0 moving).core 0).toPost = []
    ∧ coreStore 0 0 4 0 (fetched 0 moving) = .ok () (okState (coreStore 0 0 4 0 (fetched 0 moving)) State.reset)
    ∧ coreLoad 0 { n := 24 } 0 4 (fetched 0 moving) = .ok 0 (okState (coreLoad 0 { n := 24 } 0 4 (fetched 0 moving)) State.reset)
    ∧ (ramRead 0 0 (fetched 0 moving)).2.1 = false :=
  ⟨atInstr_of (by decide +kernel), mayEnter_of (by decide +kernel), by decide +kernel, by decide +kernel, by decide +kernel,
    by decide +kernel, by decide +kernel, by decide +kernel, ok_of_okValue (by decide +kernel), ok_of_okValue (by decide +kernel),
    by decide +kernel⟩

/-- In the fast-interrupt bank, for RFF; and a Lead Caller that returns to a frame that has been spilled, for RFE. -/
def fast : State := withCore 0 (fun x => { x with psw := 0x10 }) caller
def returning : State := withCore 64 (fun x => { x with epsw := 0xE00 }) filling
theorem witness_system_instructions :
    AtInstr 0 caller (fetched 0 caller) ∧ MayEnter 0 (fetched 0 caller) ∧ ((fetched 0 caller).core 0).bit pswUSER = false
    ∧ AtInstr 0 fast (fetched 0 fast) ∧ ((fetched 0 fast).core 0).bit pswFM = true
    ∧ ctlExists false 0x000 = true ∧ ctlExists true 0x042 = true
    ∧ AtInstr 64 returning (fetched 64 returning)
    ∧ (let t := fetched 64 returning
       let x := t.core 64
       x.bit pswUSER = false ∧ x.bit pswRSV = false ∧ x.cwp = x.bot ∧ (restorePsw true x.epsw x).cwp = (x.cwp + 14) % 15
       ∧ fillFrame 64 t = .ok () (okState (fillFrame 64 t) State.reset)
       ∧ ((okState (fillFrame 64 t) State.reset).core 64).epsw = x.epsw) :=
  ⟨atInstr_of (by decide +kernel), mayEnter_of (by decide +kernel), by decide +kernel, atInstr_of (by decide +kernel), by decide +kernel,
    by decide +kernel, by decide +kernel, atInstr_of (by decide +kernel), by decide +kernel, by decide +kernel, by decide +kernel,
    by decide +kernel, ok_of_okValue (by decide +kernel), by decide +kernel⟩
theorem witness_resume : AtInstr 64 (withCore 64 (fun x => { x with k := [(1, 1)] }) lead)
      (fetched 64 (withCore 64 (fun x => { x with k := [(1, 1)] }) lead))
    ∧ (regOf (fetched 64 (withCore 64 (fun x => { x with k := [(1, 1)] }) lead)) 64 1).getLsbD 0 = true :=
  ⟨atInstr_of (by decide +kernel), by decide +kernel⟩

/-- The free list starts at `free`; k7 names a save area; the core has had these answers. -/
def saving (free k : Word) (l : List VnReply) : State :=
  withReplies 64 l (withCore 64 (fun x => { x with ctxFree := free, k := [(7, k)], spillPtr := 0xF4001000 }) lead)
/-- The answers of a save to an area of shelf 0: the next area, and 36 writes. -/
def saveReplies : List VnReply := wordReply 0xF4000400 :: List.replicate 36 wroteReply
/-- A save area that carries a tag. -/
def areaWords (tag : Word) : List Word := (List.replicate 36 0).set 1 tag
def restoreReplies (tag : Word) : List VnReply := (areaWords tag).map wordReply ++ [wroteReply]
theorem witness_context_saves :
    (let s := saving 0xF4000000 0 saveReplies
     let t := fetched 64 s
     let r := engineRead 64 64 0xF4000000 t
     AtInstr 64 s t ∧ (t.core 64).ctxFree = 0xF4000000 ∧ r = .ok 0xF4000400 (okState r State.reset)
     ∧ (∀ hi : Bool, let w := engineWrites 64 64 false 0xF4000000 (saveArea hi ((t.core 64).k.get 7 0) (t.core 64)) (okState r State.reset)
        w = .ok () (okState w State.reset)))
    ∧ (AtInstr 64 (saving 0 2 []) (fetched 64 (saving 0 2 [])) ∧ MayEnter 64 (fetched 64 (saving 0 2 []))
      ∧ ((fetched 64 (saving 0 2 [])).core 64).ctxFree = 0 ∧ (((fetched 64 (saving 0 2 [])).core 64).k.get 7 0).toNat % 16 ≠ 0
      ∧ ((fetched 64 (saving 2 0 [])).core 64).ctxFree.toNat % 16 ≠ 0) := by
  refine ⟨⟨atInstr_of (by decide +kernel), by decide +kernel, ok_of_okValue (by decide +kernel), ?_⟩,
    atInstr_of (by decide +kernel), mayEnter_of (by decide +kernel), by decide +kernel, by decide +kernel, by decide +kernel⟩
  intro hi
  cases hi
  · exact ok_of_okValue (by decide +kernel)
  · exact ok_of_okValue (by decide +kernel)
/-- The frames below the window: none; two that wait for their stores; and two without room. -/
def framed (lim : Word) : State :=
  withCore 64 (fun x => { x with bot := 13, spillPtr := 0xF4001000, spillLim := lim, ctxFree := 0xF4000000 }) lead
theorem witness_spill_before_save :
    (match spillAll 64 15 (fetched 64 lead) with
      | .done _ => true
      | _ => false) = true
    ∧ (match spillAll 64 15 (fetched 64 (framed 0xF4002000)) with
      | .waits _ => true
      | _ => false) = true
    ∧ (match spillAll 64 15 (fetched 64 (framed 0)) with
      | .stuck full _ => !full
      | _ => false) = true
    ∧ spillRoom ((fetched 64 (framed 0)).core 64) = false ∧ spillRoom ((fetched 64 lead).core 64) = true := by decide +kernel
theorem witness_area (tag : Word) (h : tag = 0x0000C700 ∨ tag = 0x0000C701) :
    let s := saving 0 0xF4000400 (restoreReplies tag)
    let r := engineReads 64 64 0xF4000400 36 (fetched 64 s)
    AtInstr 64 s (fetched 64 s) ∧ r = .ok (areaWords tag) (okState r State.reset) ∧ (areaWords tag).getD 1 0 = tag
      ∧ (let w := engineWrite 64 64 false 0xF4000400 0 (okState r State.reset); w = .ok () (okState w State.reset)) := by
  rcases h with rfl | rfl <;>
    exact ⟨atInstr_of (by decide +kernel), ok_of_okValue (by decide +kernel), by decide +kernel, ok_of_okValue (by decide +kernel)⟩

/-- Lines of window 0, cached, one of them modified; of window 1, not enabled; and of window 2, uncached. -/
def cached : State :=
  let s := withCore 64 (fun x => { x with ldWin := [(0, 0x1D00), (2, 0x502)] }) lead
  { s with cores := { s.cores with l2 := [(1, some ⟨List.replicate 8 (hbmStored 0 false), true⟩)] } }
/-- Line 2 is on its way to HBM. -/
def writing : State := cached.setOutReqs 84 [⟨0, .l2Back 2, false⟩]
theorem witness_cache_maintenance :
    AtInstr 64 cached (fetched 64 cached) ∧ MayUse 64 (fetched 64 cached) [24] [] ∧ MayEnter 64 (fetched 64 cached)
    ∧ (∀ b ∈ [0x40, 0x80], (match placeOf (fetched 64 cached) 64 .maintain (BitVec.ofNat 32 b) with
        | some (.hbm a true) => a == b
        | _ => false) = true)
    ∧ (placeOf (fetched 64 cached) 64 .maintain 0x10000000).isNone = true
    ∧ l2Writes (l2Flush 1 (fetched 64 cached)) 1 = true
    ∧ l2Writes (fetched 64 cached) 2 = false ∧ ((fetched 64 cached).cores.l2.get 2 none).any (·.dirty) = false
    ∧ AtInstr 64 writing (fetched 64 writing) ∧ l2Writes (fetched 64 writing) 2 = true
    ∧ (match placeOf (fetched 64 cached) 64 .maintain 0x20000040 with
        | some (.hbm b false) => b == 0x20000040
        | _ => false) = true :=
  ⟨atInstr_of (by decide +kernel), mayUse_of (by decide +kernel), mayEnter_of (by decide +kernel), by decide +kernel, by decide +kernel,
    by decide +kernel, by decide +kernel, by decide +kernel, atInstr_of (by decide +kernel), by decide +kernel, by decide +kernel⟩

/-- QGET of queue 31. -/
theorem witness_fabric_control :
    AtInstr 0 caller (fetched 0 caller) ∧ MayUse 0 (fetched 0 caller) [7, 6, 5] [7, 6]
    ∧ (let r := fabricRead 0 {} (F.SQ_GET_D 0 31).addr (fetched 0 caller)
       ((okValue r).map (·.2)) = some false ∧ (okValue (fabricRead 0 {} (F.SQ_GETSB_VEPM 0 31).addr (okState r State.reset))).isSome = true)
    ∧ AtInstr 64 lead (fetched 64 lead) ∧ ((fetched 64 lead).core 64).bit pswUSER = false :=
  ⟨atInstr_of (by decide +kernel), mayUse_of (by decide +kernel), by decide +kernel, atInstr_of (by decide +kernel), by decide +kernel⟩

/-- A reserved word, a control register that a Caller lacks, and a core in user mode. -/
def user : State := withCore 64 (fun x => { x with psw := 4, ldWin := [(0, 0x1F00)] }) lead
theorem witness_illegal_and_privileged :
    AtInstr 0 caller (fetched 0 caller) ∧ MayEnter 0 (fetched 0 caller) ∧ (decodeIfa 0).isNone = true
    ∧ ctlExists false 0x042 = false ∧ AtInstr 64 user (fetched 64 user) ∧ MayEnter 64 (fetched 64 user)
    ∧ ((fetched 64 user).core 64).bit pswUSER = true ∧ MayUse 64 (fetched 64 user) [31, 26, 0] [] :=
  ⟨atInstr_of (by decide +kernel), mayEnter_of (by decide +kernel), by decide +kernel, by decide +kernel, atInstr_of (by decide +kernel),
    mayEnter_of (by decide +kernel), by decide +kernel, mayUse_of (by decide +kernel)⟩

/-- A normal and a fast interrupt on line 47 of Caller 63, a bus error, TIMECMP reached with the line masked by IE, and a
wait for beat on channel 63. -/
def interrupted (psw : Word) (fast : Dword) : State :=
  withCore 63 (fun x => { x with psw := psw, irqEn := 1 <<< 47, irqFast := fast, remote := 1 <<< 31 }) (live.put (F.CL_STAT_RUNNING 63) 1)
def waiting : State :=
  let s := withCore 63 (fun x => { x with irqEn := 1 <<< 48, timecmp := 0, busErr := some 4, wfb := some (1, 7, 63, 63) })
    (live.put (F.CL_STAT_RUNNING 63) 1)
  { s with pos := { s.pos with stub := [(63, some ⟨63, 0, 0, 0, 8, 0, 0⟩)] } }
theorem witness_core_events :
    (let s := interrupted 1 0
     coreRuns s 63 = true ∧ midInstr s 63 = false ∧ (s.core 63).spillDue = false ∧ (s.core 63).busErr = none
       ∧ fastPending s 63 = false ∧ normalPending s 63 = some 47 ∧ entryWaits 63 (s.core 63) = false)
    ∧ fastPending (interrupted 2 (1 <<< 47)) 63 = true
    ∧ coreRuns waiting 63 = true ∧ midInstr waiting 63 = false ∧ (waiting.core 63).busErr = some 4
    ∧ entryWaits 63 (waiting.core 63) = false ∧ (waiting.core 63).irqEn.getLsbD 48 = true
    ∧ (waiting.core 63).timecmp.toNat ≤ waiting.tb.toNat ∧ fastPending waiting 63 = false ∧ normalPending waiting 63 = none := by
  decide +kernel
/-- A Lead Caller whose read of STUB_SEQ has been answered. -/
def leadWaits : State := withReplies 64 [{ word := 9 }] (withCore 64 (fun x => { x with wfb := some (1, 7, 63, 62) }) lead)
theorem witness_wait_for_beat :
    (let s := withCore 63 (fun x => { x with busErr := none }) waiting
     coreRuns s 63 = true ∧ (s.core 63).spillDue = false ∧ (s.core 63).busErr = none ∧ fastPending s 63 = false
       ∧ normalPending s 63 = none ∧ (s.core 63).wfb = some (1, 7, 63, 63) ∧ stubSeq s 63 = 8)
    ∧ (coreRuns leadWaits 64 = true ∧ (leadWaits.core 64).spillDue = false ∧ (leadWaits.core 64).busErr = none
       ∧ fastPending leadWaits 64 = false ∧ normalPending leadWaits 64 = none ∧ (leadWaits.core 64).wfb = some (1, 7, 63, 62))
    ∧ (let r := wfbRead 64 63 62 (wireRewind 64 leadWaits); r = .ok 9 (okState r State.reset)) :=
  ⟨by decide +kernel, by decide +kernel, ok_of_okValue (by decide +kernel)⟩

/-- The spill engine of Lead Caller 0 has stored a frame. -/
def spilling : State :=
  withTurn (true, 0xF4000000) (List.replicate 10 wroteReply)
    (withCore 64 (fun x => { x with bot := 2, spillPtr := 0xF4000000, spillLim := 0xF4000028 }) lead)
theorem witness_spill_engine :
    (let y := spilling.core 64
     let r := engineWrites 64 192 true y.spillPtr (frameRecord y y.bot) (engineTurn 64 (true, y.spillPtr.toNat) spilling)
     leadLive spilling 64 = true ∧ y.stopped = false ∧ framesFree y < 2 ∧ y.spillPtr.toNat + 40 ≤ y.spillLim.toNat
       ∧ r = .ok () (okState r State.reset))
    ∧ (let y := filling.core 64
       leadLive filling 64 = true ∧ y.fillNext = true ∧ y.stopped = false ∧ 2 ≤ framesFree y ∧ y.cwp = y.bot
         ∧ fillFrame 64 filling = .ok () (okState (fillFrame 64 filling) State.reset)) :=
  ⟨⟨by decide +kernel, by decide +kernel, by decide +kernel, by decide +kernel, ok_of_okValue (by decide +kernel)⟩,
    by decide +kernel, by decide +kernel, by decide +kernel, by decide +kernel, by decide +kernel, ok_of_okValue (by decide +kernel)⟩

/-- A halted Caller and a halted Lead Caller, both at a word of zeros but for the Caller's, an ADD. -/
def halted : State :=
  { (withFields [(F.CL_STAT_HALTED 0, 1)] live) with cores := { live.cores with ram := [(0, ramStored 0x04000000 false)] } }
theorem witness_single_step :
    halted.loadHold = false ∧ halted.power.warmPhase = 0 ∧ halted.flag (fHalted 0) = true ∧ halted.massifUp 0 = true
    ∧ (halted.core 0).spillDue = false ∧ (halted.core 0).toPost = []
    ∧ (let t := halted.setCore 0 { halted.core 0 with stepReq := true, wfi := false, wfb := none }
       let f := fetch 0 (wireRewind 0 t)
       f = .ok 0x04000000 (okState f State.reset) ∧ decodeIfa 0x04000000 = some (.alu .add 0 0 0)
       ∧ (let r := ifaExec 0 {} (.alu .add 0 0 0) (okState f State.reset)
          r = .ok () (okState r State.reset))
       ∧ MayUse 0 (okState f State.reset) [0, 0, 0] [0]) :=
  ⟨by decide +kernel, by decide +kernel, by decide +kernel, by decide +kernel, by decide +kernel, by decide +kernel,
    ok_of_okValue (by decide +kernel), rfl, ok_of_okValue (by decide +kernel), mayUse_of (by decide +kernel)⟩

theorem witness_register_fields : (31 : Nat) < 32 ∧ wReg true {} 15 ≠ .none ∧ wReg false {} 0 ≠ .none := by decide +kernel

/-! ### Witnesses: instructions that complete -/

/-- k1 names the last sixteen bytes of shelf 63; the core has had these answers. -/
def away (l : List VnReply) : State := withReplies 64 l (withCore 64 (fun x => { x with k := [(1, 0xF7FFFFF0)] }) lead)
theorem witness_far_accesses :
    (∀ n ∈ [1, 2, 4, 16], ∀ l ∈ [[], [readReply (List.replicate n 1)]],
      let t := fetched 64 (away l)
      ready 64 (away l) = true ∧ usable 64 t [24, 1] [24] = true ∧ AtShelf 64 63 0xFFFF0 n (regOf t 64 1) t ∧ Answered 64 l t
        ∧ postedCount t 64 = 0)
    ∧ (fetched 0 loading).core 0 = loading.core 0 ∧ (ramRead 0 0 (fetched 0 loading)).2.1 = false := by
  unfold AtShelf Answered
  decide +kernel

theorem witness_returns : AtInstr 64 full (fetched 64 full) ∧ fillsDue ((fetched 64 full).core 64) = 0
    ∧ (((fetched 64 full).core 64).links.get ((fetched 64 full).core 64).cwp 0).toNat % 4 = 0 :=
  ⟨atInstr_of (by decide +kernel), by decide +kernel, by decide +kernel⟩

theorem witness_context_saves_complete :
    let s := saving 0xF4000000 0 saveReplies
    AtInstr 64 s (fetched 64 s) ∧ ((fetched 64 s).core 64).bit pswUSER = false
      ∧ InShelves 64 36 ((fetched 64 s).core 64).ctxFree (fetched 64 s) ∧ Answered 64 saveReplies (fetched 64 s)
      ∧ ((fetched 64 s).core 64).bot = ((fetched 64 s).core 64).cwp :=
  ⟨atInstr_of (by decide +kernel), by decide +kernel, by unfold InShelves; decide +kernel, by unfold Answered; decide +kernel,
    by decide +kernel⟩
theorem witness_area_complete (tag : Word) (h : tag = 0x0000C700 ∨ tag = 0x0000C701) :
    let t := fetched 64 (saving 0 0xF4000400 (restoreReplies tag))
    InShelves 64 36 ((t.core 64).k.get 7 0) t ∧ Answered 64 (restoreReplies tag) t ∧ (areaWords tag).length = 36 := by
  rcases h with rfl | rfl <;>
    exact ⟨by unfold InShelves; decide +kernel, by unfold Answered; decide +kernel, by decide +kernel⟩

/-- Queue 31 of massif 0 is read by the Caller and holds a word. -/
def getting : State :=
  (withFields [(F.SQ_CTL_EN 0 31, 1), (F.SQ_CTL_RSINK 0 31, 3)] caller).setQueue 0 31 { words := [{ w := ⟨5, true, false, true⟩, stamp := 0 }] }
theorem witness_gets :
    AtInstr 0 caller (fetched 0 caller) ∧ AtInstr 0 getting (fetched 0 getting) ∧ MayUse 0 (fetched 0 getting) [7, 6, 5] [7, 6]
    ∧ (fetched 0 getting).massifUp 0 = true ∧ accessWaits (fetched 0 getting) 8 (F.SQ_GET_D 0 31).addr = false
    ∧ unread (fetched 0 caller) 0 31 = [] ∧ unread (fetched 0 getting) 0 31 = [{ w := ⟨5, true, false, true⟩, stamp := 0 }]
    ∧ (fetched 0 getting).flag (F.SQ_CTL_EN 0 31) = true ∧ (fetched 0 getting).get (F.SQ_CTL_RSINK 0 31) = 3 :=
  ⟨atInstr_of (by decide +kernel), atInstr_of (by decide +kernel), mayUse_of (by decide +kernel), by decide +kernel, by decide +kernel,
    by decide +kernel, by decide +kernel, by decide +kernel, by decide +kernel⟩
theorem witness_lead_gets :
    let s := withReplies 64 [{ word := 5 }, { word := 1 }] lead
    AtInstr 64 s (fetched 64 s) ∧ MayUse 64 (fetched 64 s) [7, 6, 5] [7, 6] ∧ ((fetched 64 s).core 64).bit pswUSER = false
      ∧ Answered 64 [{ word := 5 }, { word := 1 }] (fetched 64 s)
      ∧ (let u := withReplies 64 [{ word := 9 }] lead; AtInstr 64 u (fetched 64 u) ∧ Answered 64 [{ word := 9 }] (fetched 64 u)) :=
  ⟨atInstr_of (by decide +kernel), mayUse_of (by decide +kernel), by decide +kernel, by unfold Answered; decide +kernel,
    atInstr_of (by decide +kernel), by unfold Answered; decide +kernel⟩

theorem witness_engine_completes :
    InShelves 64 10 (spilling.core 64).spillPtr spilling ∧ (spilling.wire 192).op = some (true, (spilling.core 64).spillPtr.toNat)
    ∧ Answered 192 (List.replicate 10 wroteReply) (wireRewind 192 spilling)
    ∧ InShelves 64 10 ((filling.core 64).spillPtr - 40) filling
    ∧ (filling.wire 192).op = some (false, ((filling.core 64).spillPtr - 40).toNat)
    ∧ Answered 192 (frameWords.map wordReply) (wireRewind 192 filling)
    ∧ frameWords.length = 10 ∧ frameWords.getD 9 0 >>> 16 = 0xF7A5 := by
  unfold InShelves Answered
  decide +kernel

/-! ### Witnesses: the position block and Tempo -/

/-- Encoder 15 counts in mode 0, with TB at 1,000. -/
def counting : State := withFields [(F.ENC_CTL_EN 15, 1), (F.ENC_CTL_ZMODE 15, 3), (F.ENC_CTL_ZGATE 15, 1), (F.ENC_STAT_A 15, 1), (F.ENC_STAT_B 15, 1)]
  { live with tb := 1000, cycle := 1000 }
/-- The cycle of `counting` holds a Z load. -/
def zLoaded : State := (counting.put (F.ENC_STAT_B 15) 0).setEnc 15 { cyc := { cycle := 1000, zLoad := true } }
/-- A software load of the cycle waits for its edge, with the counts of the cycle behind it. -/
def softLoaded (l : List Bool) : State := counting.setEnc 15 { soft := some 7, held := l }
theorem witness_encoder_counting :
    counting.get (F.ENC_CTL_FILT 15) < 1 ∧ 0 ≤ counting.get (F.ENC_CTL_FILT 15) ∧ counting.flag (F.ENC_CTL_EN 15) = true
    ∧ counting.follows 15 = false ∧ live.flag (F.ENC_CTL_EN 15) = false ∧ counting.flag (F.ENC_STAT_A 15) ≠ false
    ∧ counting.flag (F.ENC_STAT_B 15) ≠ (false && encBank counting 15) ∧ encBank counting 15 = true
    ∧ decodeCount (counting.get (F.ENC_CTL_MODE 15)) true true false true ≠ none
    ∧ decodeCount 1 true true true false = none
    ∧ (counting.enc 15).soft = none ∧ ((softLoaded []).enc 15).soft = some 7
    ∧ (encCycle counting 15).zLoad = false ∧ (encCycle counting 15).zCopy = false
    ∧ (zLoaded.enc 15).soft = none ∧ (encCycle zLoaded 15).zLoad = true
    ∧ zLoaded.flag (F.ENC_CTL_EN 15) = true
    ∧ (∀ c < 64, counting.flag (F.BC_CTL_EN c) = true → (counting.bc c).enc ≠ 15) := by decide +kernel
/-- The same levels in a bank without supply. -/
theorem test_unpowered_bank_reads_zero :
    ((encoderTransition 15 ⟨true, 1⟩ ⟨true, 1⟩ { counting with power := { banksOff := [3] } }).flag (F.ENC_STAT_A 15)) = false := by
  decide +kernel
/-- A count of the cycle of a Z load stays in the copy, and out of the position. -/
theorem test_z_load_replaces_count :
    (let t := encoderTransition 15 ⟨false, 1⟩ ⟨false, 1⟩ zLoaded
     t.encPos 15 = zLoaded.encPos 15 ∧ t.get (F.ENC_ZLATCH_LO_VALUE 15) = 0xFFFFFFFF) := by decide +kernel
theorem witness_position_loads :
    (counting.enc 15).soft = none ∧ counting.follows 15 = false
    ∧ ((softLoaded []).enc 15).soft = some 7 ∧ ((softLoaded []).enc 15).held = [] ∧ (softLoaded []).follows 15 = false
    ∧ (encCycle (softLoaded [true]) 15).zLoad = false ∧ ((softLoaded [true]).enc 15).held = [true]
    ∧ (let s := ((softLoaded []).put (F.BC_CTL_EN 63) 1).setBc 63 { enc := 15 }
       s.flag (F.BC_CTL_EN 63) = true ∧ (s.bc 63).kind = 0 ∧ (s.bc 63).enc = 15)
    ∧ counting.flag (F.ENC_STAT_Z 15) = false ∧ (true && encBank counting 15) = true
    ∧ (counting.flag (F.ENC_CTL_ZGATE 15) = true → counting.flag (F.ENC_STAT_A 15) = true ∧ counting.flag (F.ENC_STAT_B 15) = true)
    ∧ counting.get (F.ENC_CTL_ZMODE 15) = 3 ∧ (counting.enc 15).zArmed = true
    ∧ ((counting.setEnc 15 { zArmed := false }).enc 15).zArmed = false
    ∧ (live.get (F.ENC_CTL_ZMODE 15) = 0 ∧ (counting.put (F.ENC_CTL_ZMODE 15) 2).get (F.ENC_CTL_ZMODE 15) = 2) := by decide +kernel
/-- A software load takes effect at the edge, with the count of its cycle on top (R24). -/
theorem test_soft_load_edge :
    (let t := encEdge 15 (softLoaded [true]); t.encPos 15 = 8 ∧ (t.enc 15).soft = none) := by decide +kernel

/-- Beat channel 63 in each of its kinds, at TB 1,000. -/
def channel (kind : Nat) (b : BeatCh) : State :=
  (withFields [(F.BC_CTL_EN 63, 1), (F.BC_CTL_KIND 63, kind)] { live with tb := 1000, cycle := 1000 }).setBc 63 { b with kind := kind }
def entry : SchedEnt := ⟨false, 5, 1, 0, some 8000, false⟩
theorem witness_beat_channels :
    (let b := (channel 0 { pend := some 8000 }).bc 63
     b.pend = some 8000 ∧ 8000 / 8 ≤ (channel 0 {}).tb.toNat ∧ (channel 0 {}).cycle = 1000 ∧ b.held = [] ∧ spaced b 1000 = true
       ∧ spaced { b with lastEmit := some 999 } 1000 = false)
    ∧ (let b := (channel 2 { time := 1000, period := 10 }).bc 63
       b.kind = 2 ∧ b.time.toNat = 1000 ∧ b.period ≠ 0)
    ∧ (let b := (channel 2 { time := 1000 }).bc 63
       b.period = 0 ∧ b.held = [] ∧ spaced b 1000 = true)
    ∧ (withFields [(F.BC_CTL_KIND 63, 3)] live).get (F.BC_CTL_KIND 63) = 3
    ∧ ((channel 3 { sched := [entry] }).bc 63).lastFire ≠ some 1000
    ∧ takeDue 1000 [entry] = some (entry, false, 8000, []) ∧ entry.byTime = false
    ∧ (let b := (channel 0 { held := [⟨0, 0, 8000⟩], lastEmit := some 992 }).bc 63
       spaced b 1000 = true ∧ isSingle b = false ∧ b.kind ≠ 3)
    ∧ 16 ≤ ((channel 3 { sched := List.replicate 16 entry }).bc 63).sched.length
    ∧ (State.loadAll live 4 (bcCtlFields 63)).flag (F.BC_CTL_EN 63) = true := by decide +kernel
theorem witness_beat_tree : ∃ w ws, ({ live.pos with treeWait := [⟨5, false, ⟨63, 0, 0, 0, 0, 0, 0⟩⟩] } : Position).treeWait = w :: ws
    ∧ live.pos.treeLast ≠ some live.cycle := ⟨_, _, rfl, by decide⟩
/-- Beat output 63 with an edge to drive and a pulse that runs, ending in the present cycle. -/
def pulsing : State := ({ live with tb := 1000, cycle := 1000 } : State).setBo 63 { edges := [8009], pulseEnd := some 8009 }
theorem witness_beat_outputs :
    (pulsing.bo 63).edges = [8009] ∧ 8009 < 8 * pulsing.tb.toNat + 10 ∧ (pulsing.bo 63).pulseEnd = some 8009
    ∧ pulsing.get (F.BO_CTL_MODE 63) ≠ 1 ∧ (pulsing.put (F.BO_CTL_MODE 63) 1).get (F.BO_CTL_MODE 63) = 1
    ∧ (channel 0 {}).flag (F.BC_CTL_TREE 63) = false := by decide +kernel

/-- Tempo port 3 in service as the upstream port of a locked device, which has heard two ANNOUNCE frames. -/
def domain : State :=
  (withFields [(F.TMP_CFG_EN, 1), (F.TP_CTL_EN 3, 1), (F.TP_STAT_LINK 3, 1), (F.TP_STAT_ROLE 3, 1), (F.TMP_STAT_UPVALID, 1), (F.TMP_STAT_UPPORT, 3),
    (F.TMP_STAT_STATE, 2), (F.TMP_ID_ID, 9), (F.TMP_CFG_ROOTPRI, 15)]
    { live with tb := 400000, cycle := 400000 }).setTport 3 { announces := 2, nbrId := 5, nbrDepth := 6, rootId := 5, rootPri := 0, measured := true, dreqT1 := some (0, 0) }
def alone : State := domain.setTport 3 {}
theorem witness_tempo_tree :
    portOn domain 3 = true ∧ domain.flag (F.TP_CTL_MODE 3) = false ∧ isTap domain 3 = false ∧ isFeed domain 3 = false
    ∧ (16383 : Nat) ≠ domain.get F.TMP_ID_ID ∧ (255 : Nat) ≠ domain.tempo.rootSeq
    ∧ domain.flag F.TMP_STAT_UPVALID = true ∧ domain.get F.TMP_STAT_UPPORT = 3
    ∧ domain.flag (F.TP_STAT_LINK 3) = true ∧ (domain.put (F.TP_STAT_LINK 3) 0).flag (F.TP_STAT_LINK 3) = false
    ∧ 2 ≤ (domain.tport 3).announces ∧ domain.get F.TMP_STAT_STATE ≠ 4 ∧ domain.get F.TMP_STAT_STATE ≠ 0
    ∧ 300000 + domain.tempo.rootSeqAt ≤ domain.cycle ∧ isTapDevice domain = false ∧ domain.flag F.TMP_STAT_NOPOS = false
    ∧ (let s := withFields [(F.TMP_STAT_STATE, 0), (F.TMP_STAT_TOO_DEEP, 1)] domain
       s.get F.TMP_STAT_STATE = 0 ∧ s.flag F.TMP_STAT_TOO_DEEP = true ∧ seqStale s 3 = true)
    ∧ (let s := domain.put F.TMP_STAT_UPVALID 0
       portOn s 2 = false ∧ isFeed s 2 = false ∧ portOn s 3 = true ∧ s.flag F.TMP_STAT_UPVALID = false)
    ∧ frameOk [0] = false ∧ (domain.tport 3).busy = 0 ∧ (domain.tport 3).waiting = []
    ∧ ((domain.setTport 3 { busy := 5 }).tport 3).busy ≠ 0 ∧ nextFrame [.ctrl 0 0 0] = some (.ctrl 0 0 0) := by decide +kernel
/-- The check value of the CRC of R257 over the digits 1 to 9. -/
theorem test_crc16 : crc16 [0x31, 0x32, 0x33, 0x34, 0x35, 0x36, 0x37, 0x38, 0x39] = 0x29B1 := by decide +kernel
theorem witness_elections :
    domain.flag F.TMP_CFG_EN = true ∧ v1Up domain = none ∧ isTapDevice domain = false
    ∧ chooseUp domain (candidates domain) = some ⟨0, 5, 6, 5, 3⟩
    ∧ chooseUp alone (candidates alone) = none
    ∧ betterRoot ⟨0, 4, 0, 0, 0⟩ ⟨0, 5, 6, 5, 3⟩ = true ∧ betterRoot ⟨15, 9, 0, 0, 0⟩ ⟨0, 5, 6, 5, 3⟩ = false
    ∧ (let s := domain.setTport 3 { domain.tport 3 with nbrDepth := 7 }
       chooseUp s (candidates s) = some ⟨0, 5, 7, 5, 3⟩) := by decide +kernel
theorem witness_tempo_clock :
    linkUp domain 3 = true ∧ domain.get (F.TP_STAT_ROLE 3) = 1 ∧ (domain.put (F.TP_STAT_ROLE 3) 2).get (F.TP_STAT_ROLE 3) = 2
    ∧ isFeed (domain.put (F.TP_STAT_ROLE 3) 2) 3 = false ∧ linkUp (domain.put (F.TP_STAT_ROLE 3) 2) 3 = true
    ∧ (domain.tport 3).dreqT1 = some (0, 0) ∧ portOn domain 3 = true ∧ isFeed domain 3 = false
    ∧ (domain.tport 3).measured = true ∧ isTap domain 3 = false ∧ domain.flag F.TMP_STAT_UPVALID = true
    ∧ domain.get F.TMP_STAT_UPPORT = 3 ∧ (∀ e ∈ domain.tempo.shifts, e.1 ≤ domain.cycle)
    ∧ ((domain.stampBefore 63 - portStamp domain 3 (64 * 400000 + 64001)).toInt < -(64 * (domain.get F.TMP_STEPLIM_NS : Int)))
    ∧ (-(64 * (domain.get F.TMP_STEPLIM_NS : Int)) ≤ (domain.stampBefore 63 - portStamp domain 3 (64 * 400000 + 64000)).toInt)
    ∧ ({ domain.tempo with owed := -1 } : Tempo).owed ≠ 0 ∧ domain.tempo.slewWait = 0
    ∧ ({ domain.tempo with slewWait := 1 } : Tempo).slewWait ≠ 0 ∧ domain.get F.TMP_STAT_STATE ≠ 4 :=  by decide +kernel
/-- The device publishes encoder 0 on position channel 15, encoder 15 follows that channel. -/
def publishing : State :=
  let s := withFields [(F.TMP_PUB_EN 15, 1), (F.TMP_FOLLOW_EN 15, 1), (F.TMP_FOLLOW_TPC 15, 15), (F.ENC_CTL_EN 15, 1)] domain
  (s.setEnc 0 { stamp := some 5000, hist := [5000, 4000, 3000, 2000, 1000] }).setTpc 15
    { pending := [⟨4, 0, 7, 300000, 0, 300000⟩], cur := some ⟨4, 0, 7, 300000, 0, 300000⟩ }
theorem witness_tempo_positions :
    publishing.flag (F.TMP_PUB_EN 15) = true ∧ mayPublish publishing = true
    ∧ (publishing.enc (publishing.get (F.TMP_PUB_ENC 15))).stamp = some 5000
    ∧ (velocity (publishing.enc (publishing.get (F.TMP_PUB_ENC 15)))).isSome = true
    ∧ takesFlooded publishing 3 (.pos 4 15 0 7 300000 0 300000) = true ∧ (4 : Nat) ≠ publishing.get F.TMP_ID_ID
    ∧ 300000 + leadNow publishing ≤ publishing.tb.toNat
    ∧ publishing.follows 15 = true ∧ publishing.flag (F.TMP_FOLLOW_STALE 15) = false ∧ (publishing.enc 15).stamp ≠ some 400000
    ∧ followX ⟨4, 0, 7, 300000, 0, 300000⟩ 400000 ≠ publishing.encPos 15
    ∧ (publishing.tpc 15).effAt + 2 * max 1 (publishing.get (F.TMP_PUB_INT 15)) * 1000 < publishing.cycle ∧ publishing.flag (F.TP_CTL_MODE 3) = false
    ∧ takesFlooded publishing 3 (.beat 4 63 0 0 0 7 0) = true ∧ takesFlooded publishing 3 (.sched 4 15 true 0 0) = true := by
  decide +kernel

/-! ### Witnesses: the fabric -/

/-- Massif 63 runs with slot 0, which gives tile 255 the bits `v`; the tile's state is `x`. -/
def fabric (v : BitVec 320) (x : Tile) : State :=
  ((withFields [(F.SLOT_VALID_BITS 63, 1)] live).setSlotBits 63 0 255 v).setTile 63 255 x
/-- ADD of port A and the immediate to OX; its predicate is AE, or bit 0 of C, a register. -/
def addSlot (pred : Nat) (mpol : Nat) : BitVec 320 := BitVec.ofNat 320 (3 * 2 ^ 32 + 3 * 2 ^ 46 + 4 * 2 ^ 50 + 2 ^ 68 + pred * 2 ^ 70 + mpol * 2 ^ 77)
def wordA (m : Bool) : Tile := { fa := some ⟨5, false, false, m⟩ }
theorem witness_tile_firing :
    (let s := fabric (addSlot 0 0) (wordA false)
     let v := s.active 63 255
     let x := s.tile 63 255
     runs s 63 = true ∧ slotOp v 255 = 3 ∧ namedPorts s 63 255 v = [0] ∧ (portHead x 0).isSome = true ∧ markerPort s 63 255 v x = none
       ∧ interlocked s 63 255 v x = false ∧ pipeFree 3 (slotMode v) x = true ∧ (predicate s 63 255 v x (readSource v x 4).1) = (true, false)
       ∧ hasRoom s 63 255 v x ⟨(readSource v x 0).1, (readSource v x 3).1, (readSource v x 4).1, true, false, false, none⟩ = true)
    ∧ (let s := fabric (addSlot 5 0) (wordA false)
       let v := s.active 63 255
       (predicate s 63 255 v (s.tile 63 255) (readSource v (s.tile 63 255) 4).1) = (false, false) ∧ slotPass v = false)
    ∧ (let s := fabric (addSlot 5 0) { wordA false with u := [(0, ⟨1, true⟩)] }
       let v := s.active 63 255
       (predicate s 63 255 v (s.tile 63 255) (readSource v (s.tile 63 255) 4).1) = (true, true))
    ∧ (∀ mpol < 2, let s := fabric (addSlot 0 mpol) (wordA true)
       let v := s.active 63 255
       markerPort s 63 255 v (s.tile 63 255) = some 0 ∧ slotMpol v = mpol ∧ slotXo v = true) := by decide +kernel
theorem witness_tile_operations : slotDm (addSlot 0 0) ≠ 3 ∧ slotAccmode (addSlot 0 0) = 0 ∧ slotAccsel (addSlot 0 0) = 0
    ∧ slotSat (addSlot 0 0) = false ∧ slotMode (addSlot 0 0) = 0 := by decide +kernel
def opnd : Opnd := ⟨5, false, true, true⟩
theorem witness_result_writeback :
    (let s := fabric (addSlot 0 0) { pipe := [⟨opnd, opnd, opnd, true, true, false, none⟩] }
     runs s 63 = true ∧ (s.tile 63 255).pipe ≠ [] ∧ slotOp (s.active 63 255) 255 < 0x1C)
    ∧ (let v : BitVec 320 := BitVec.ofNat 320 (0x31 * 2 ^ 32)
       slotOp v 3 = 0x31 ∧ bmPort 3 (slotBmsel v) = some (0, 0) ∧ live.get (F.BM_CFG_ASPECT 63 0) ≠ 3) := by decide +kernel

/-- A word in the first loop-back stage of tile 255, whose port A takes it; `x` is the tile's state. -/
def hopping (x : Tile) : State := (fabric (BitVec.ofNat 320 (13 * 2 ^ 168)) x).setStage 63 255 24 { words := [⟨1, true, false, false⟩] }
theorem witness_word_hop :
    (let s := hopping {}
     (s.stage 63 255 24).words = [⟨1, true, false, false⟩] ∧ (s.stage 63 255 24).taken = [] ∧ runs s 63 = true
       ∧ stageDests s 63 255 24 = [.port 255 0] ∧ destRoom s 63 (boundaryQueue 63 255 24) (.port 255 0) = true)
    ∧ destRoom (hopping (wordA false)) 63 none (.port 255 0) = false := by decide +kernel
/-- A word in the last col queue of the western face, for port A of its tile. -/
theorem witness_col_delivery :
    (let t := tileAt 3 15
     let s := (((withFields [(F.SLOT_VALID_BITS 63, 1)] live).setSlotBits 63 0 t (BitVec.ofNat 320 (4 * 2 ^ 168))).setColq (colKey 63 3 15 0)
       { words := [⟨1, true, false, false⟩] })
     (s.colq (colKey 63 3 15 0)).words = [⟨1, true, false, false⟩] ∧ (s.colq (colKey 63 3 15 0)).taken = [] ∧ runs s 63 = true
       ∧ inputHeld s 63 ((3 * 16 + 15) * 4 + 0) = false ∧ landSingle (s.active 63 t) t (opposite 3) 0 = [.port t 0]
       ∧ destRoom s 63 none (.port t 0) = true) := by decide +kernel
theorem witness_feeds :
    (let s := withFields [(F.FEED_CTL_EN 31, 1), (F.FEED_CTL_TRACKEN 31, 0x80), (F.FEED_STAT_PENDING 31, 0x80)] live
     let t := s.setLane 7 { words := [⟨1, true, false, false⟩] }
     (t.feedq 31 7).words = [] ∧ (t.lane (8 * (t.feedTrack 31 7).sel + 7)).words = [⟨1, true, false, false⟩]
       ∧ feedTakes t (8 * (t.feedTrack 31 7).sel + 7) 31 = true ∧ (∀ i < 32, feedTakes t (8 * (t.feedTrack 31 7).sel + 7) i = true → i = 31)
       ∧ (t.get (F.FEED_STAT_PENDING 31)).testBit 7 = true ∧ (t.feedTrack 31 7).boundary = true
       ∧ (t.lane (8 * t.get (F.FEED_CTL_SEL 31) + 7)).boundary = true) := by decide +kernel

/-- The loader of massif 63 at rest; busy with a LOAD of `n` blocks so far, or with a VERIFY. -/
def loader (o : Option LoadOp) : State := setLoader 63 o (withFields [(F.LD_STAT_BUSY 63, if o.isSome then 1 else 0)] live)
def got (n : Nat) : SMap (List (Byte × Bool)) := (List.range n).map fun k => (k, List.replicate 64 (0, false))
def partLoad (n : Nat) : LoadOp := { verify := false, slot := 1, hbm := true, addr := 0, next := n, got := got n }
def verifying : LoadOp := { verify := true, slot := 1, hbm := false, addr := 0 }
def waking : LoadOp := { verify := false, slot := 15, hbm := false, addr := 0, wake := true, next := 161, got := got 161 }
theorem witness_figure_loader :
    (loader none).flag (F.LD_STAT_BUSY 63) = false ∧ (loader (some (partLoad 0))).flag (F.LD_STAT_BUSY 63) = true
    ∧ slotBusy (loader none) 63 1 = false ∧ slotBusy (loader none) 63 0 = true
    ∧ (2 ^ 20 - 10304) % 64 = 0 ∧ 2 ^ 20 - 10304 + 10304 ≤ 2 ^ 20
    ∧ (loader (some verifying)).fab.loaders.get 63 none = some verifying ∧ (loader (some (partLoad 1))).fab.loaders.get 63 none = some (partLoad 1)
    ∧ (∀ k < 161, (partLoad 161).got.get k [] ≠ []) ∧ (partLoad 160).got.get 160 [] = [] ∧ (partLoad 161).slot = (1 : Fin 16) ∧ (partLoad 161).slot ≠ (2 : Fin 16) ∧ 160 < (partLoad 161).next
    ∧ (partLoad 0).gen ≠ 1 ∧ 0 < (partLoad 1).next ∧ (partLoad 1).hbm = true
    ∧ (loader (some waking)).fab.loaders.get 63 none = some waking ∧ waking.wake = true ∧ entryRead waking = true ∧ waking.slot < 16
    ∧ slotParityOk 0 = true ∧ (∀ k < 256, (loader none).slotBits 63 1 k = 0)
    ∧ slotParityOk (((loader none).setSlotBits 63 1 255 1).slotBits 63 1 255) = false := by decide +kernel
/-- An entry of zeros has no header: code 4. -/
theorem witness_entry_fault : (match entryCheck (boundAsAtStart 63 waking (loader (some waking))) 63 (entryBytes waking) with
    | .inl r => r == (4, none)
    | .inr _ => false) = true := by decide +kernel
/-- An entry with the header of the spec and an image of zeros is right. -/
def header : List Byte := ([0x1C, 0x9F, 1, 0, 0, 0, 0, 0, 0, 0, 0, 0, 0x9A, 0xDE, 0x1D, 0x27] ++ List.replicate 48 0 : List Nat).map (BitVec.ofNat 8)
def zeros (n : Nat) : List Byte := List.replicate n 0
def figEntry (n : Nat) : List (Byte × Bool) := (header ++ zeros n).map fun b => (b, false)
/-- `crcByte` folded over `n` zeros, the value forced at each. -/
def force (k : Nat → Nat) : Nat → Nat
  | 0 => k 0
  | n + 1 => k (n + 1)
theorem force_eq (k : Nat → Nat) (n : Nat) : force k n = k n := by cases n <;> rfl
def crcZeros : Nat → Nat → Nat
  | 0, c => c
  | n + 1, c => force (crcZeros n) (crcByte c 0)
theorem crcZeros_eq (n c : Nat) : crcZeros n c = (zeros n).foldl crcByte c := by
  induction n generalizing c with
  | zero => rfl
  | succ n ih => rw [crcZeros, force_eq, zeros, List.replicate_succ, List.foldl_cons, ← zeros, ← ih]
theorem crcZeros_all : crcZeros 10240 4294967295 = 3638698341 := by decide +kernel
theorem leNat_zeros (n : Nat) : leNat (zeros n) = 0 := by
  induction n with
  | zero => rfl
  | succ n ih => rw [zeros, List.replicate_succ, leNat, List.foldr_cons, ← leNat, ← zeros, ih]; rfl
theorem imageSlot_zeros (n t : Nat) : imageSlot (zeros n) t = 0 := by
  rw [imageSlot, leField, zeros, List.drop_replicate, List.take_replicate, ← zeros, leNat_zeros]; rfl
theorem no_fault_of_zeros : imageFault live 63 (fun _ => 0) = none := by decide +kernel
theorem entry_right (n : Nat) (h : crcZeros n 4294967295 = 3638698341) :
    entryCheck live 63 (figEntry n) = .inr (header ++ zeros n) := by
  have hb : (figEntry n).map (·.1) = header ++ zeros n := by simp [figEntry, Function.comp_def]
  have hp : (figEntry n).any (·.2) = false := by simp [figEntry]
  have hl : header.length = 64 := by decide +kernel
  have h64 : (header ++ zeros n).take 64 = header := by rw [← hl, List.take_left]
  have hd : (header ++ zeros n).drop 64 = zeros n := by rw [← hl, List.drop_left]
  have hc : leField (header ++ zeros n) 0x0C 4 = 0x271DDE9A := by
    rw [leField, List.drop_append_of_le_length (by rw [hl]; decide), List.take_append_of_le_length (by rw [List.length_drop, hl]; decide)]
    decide +kernel
  have hq : ((figEntry n).take 64).any (·.2) = false := by
    rw [List.any_eq_false] at hp ⊢; exact fun x hx => hp x (List.mem_of_mem_take hx)
  have hr : crc32 (zeros n) = 0x271DDE9A := by rw [crc32, ← crcZeros_eq, h]; decide
  have hm : (fun t => ((List.range 256).map fun t => imageSlot (zeros n) t).getD t 0) = fun _ => (0 : BitVec 320) := by
    funext t; simp only [imageSlot_zeros, List.getD]
    cases h : (List.map (fun _ => (0 : BitVec 320)) (List.range 256))[t]? with
    | none => rfl
    | some v => obtain ⟨_, _, hv⟩ := List.mem_map.mp (List.mem_of_getElem? h); exact hv.symm
  simp only [entryCheck, hb, hp, hq, h64, hd, hc, hr, Nat.add_zero, hm, no_fault_of_zeros, show headerOk header = true by decide +kernel]
  simp
/-- A LOAD that has read such an entry. -/
def rightLoad : LoadOp :=
  { partLoad 161 with got := (got 161).set 0 (header.map fun b => (b, false)) [] }
theorem flatMap_replicate {α β : Type} (x : β) (n : Nat) (f : α → List β) (l : List α) (h : ∀ k ∈ l, f k = List.replicate n x) :
    l.flatMap f = List.replicate (n * l.length) x := by
  induction l with
  | nil => simp
  | cons a l ih =>
    rw [List.flatMap_cons, h a List.mem_cons_self, ih fun k hk => h k (List.mem_cons_of_mem a hk), List.replicate_append_replicate]
    congr 1
    rw [List.length_cons, Nat.mul_succ, Nat.add_comm]
theorem rightLoad_bytes : entryBytes rightLoad = figEntry 10240 := by
  have h0 : rightLoad.got.get 0 [] = header.map fun b => (b, false) := by decide +kernel
  have h1 : ∀ k < 160, rightLoad.got.get (k + 1) [] = List.replicate 64 (0, false) := by decide +kernel
  rw [entryBytes, show entryBlocks = 160 + 1 from rfl, List.range_succ_eq_map, List.flatMap_cons, h0, List.flatMap_map,
    flatMap_replicate ((0 : Byte), false) 64 (fun k => rightLoad.got.get (k + 1) []) (List.range 160) fun k hk => h1 k (List.mem_range.mp hk)]
  rw [figEntry, zeros, List.map_append, List.map_replicate, List.length_range]
theorem witness_entry_right :
    entryCheck (boundAsAtStart 63 rightLoad live) 63 (entryBytes rightLoad) = .inr (header ++ zeros 10240) := by
  rw [rightLoad_bytes]
  exact entry_right 10240 crcZeros_all
theorem witness_upset_and_wake :
    runs (fabric 0 {}) 63 = true ∧ clocked (fabric 0 {}) 63 = true ∧ slotParityOk ((fabric 0 {}).slotBits 63 0 255 ^^^ (1#320 <<< 319)) = false
    ∧ ((fabric 0 {}).put (F.SEQ_CTL_PARITY_ACT 63) 1).flag (F.SEQ_CTL_PARITY_ACT 63) = true
    ∧ live.get (F.PWR_STAT_STATE 63) = 0
    ∧ ((live.setMassif 63 { wakeSlots := [15] }).massif 63).wakeSlots = [15] ∧ ((live.setMassif 63 {}).massif 63).wakeBeat = none
    ∧ live.massifUp 63 = true ∧ (live.massif 63).clockHold = false ∧ (live.massif 63).wakeSlots = [] := by
  decide +kernel

/-- The sequencer of massif 63 waits on a step with trigger `trig` and the other bits `bits`. -/
def sequencing (trig bits : Nat) : State :=
  (withFields [(F.SLOT_VALID_BITS 63, 0x8000), (F.SEQ_STAT_RUNNING 63, 1), (F.SEQ_CTL_RUN 63, 1)] live).setMassif 63
    { step := BitVec.ofNat 64 (trig * 2 ^ 12 + bits) }
theorem witness_sequencer :
    (∀ trig < 5, seqWaits (sequencing trig 15) 63 trig = true) ∧ stepNosw ((sequencing 3 15).massif 63).step = false
    ∧ ((sequencing 3 15).get (F.SLOT_VALID_BITS 63)).testBit 15 = true ∧ ((sequencing 3 14).get (F.SLOT_VALID_BITS 63)).testBit 14 = false
    ∧ stepBits ((sequencing 3 15).massif 63).step 0 4 = 15 ∧ queueCond (sequencing 2 (15 + 2 ^ 37)) 63 ((sequencing 2 (15 + 2 ^ 37)).massif 63).step = true
    ∧ stepBits ((sequencing 3 (15 + 2 ^ 15)).massif 63).step 15 1 = 1 ∧ badStep (stepEntry (sequencing 3 15) 63 0) = false
    ∧ (sequencing 3 15).flag (F.MASSIF_STAT_STOPPED 63) = false := by decide +kernel
theorem witness_sequencer_cycles :
    (let b : BeatRec := ⟨63, 0, 0, 0, 0, 0, 0⟩
     let s := sequencing 0 (15 + 63 * 2 ^ 32)
     let x := s.massif 63
     let t := s.setMassif 63 { x with curAt := some (0, true) }
     let w := s.setMassif 63 { x with switch := some ⟨15, false, false, false, false⟩ }
     seqWaits t 63 0 = false ∧ stepAwaited t 63 = some x.step ∧ beatSatisfies x.step b = true
       ∧ seqWaits w 63 0 = false ∧ (stepAwaited w 63).isSome = true ∧ x.overrun = false ∧ x.heldBeat = none
       ∧ (s.setMassif 63 { x with heldBeat := some b }).flag (F.SEQ_STAT_RUNNING 63) = true
       ∧ stepAwaited (s.setMassif 63 { x with curAt := some (0, false) }) 63 = none)
    ∧ (let s := sequencing 1 (15 + 2 ^ 5)
       stepNosw (s.massif 63).step = true ∧ (s.massif 63).overrun = false ∧ (s.massif 63).heldBeat = none ∧ seqWaits s 63 1 = true)
    ∧ (let s := live.setMassif 63 { clockHold := true }
       seqUp s 63 = false ∧ live.get F.REST_STAT_STATE ≠ 2 ∧ pairState live = pOff)
    ∧ (let s := withFields [(F.PWR_STAT_STATE 63, 3)] (sequencing 0 (15 + 63 * 2 ^ 32))
       s.get (F.PWR_STAT_STATE 63) = 3 ∧ s.flag (F.SEQ_STAT_RUNNING 63) = true ∧ stepTrig (s.massif 63).step = 0
         ∧ stepArg (s.massif 63).step 0 6 = 63)
    ∧ (let s := withFields [(F.REST_STAT_STATE, 2), (F.REST_CFG_WAKEBEAT, 1), (F.REST_CFG_WAKECH, 63)] live
       s.get F.REST_STAT_STATE = 2 ∧ s.flag F.REST_CFG_WAKEBEAT = true ∧ s.get F.REST_CFG_WAKECH = 63 ∧ pairState s = pOff)
    ∧ opMemory (slotOp ((fabric (addSlot 0 0) {}).active 63 255) 255) = false
    ∧ (let s := withFields [(F.MASSIF_STAT_STOPPED 63, 1)] ((fabric 0 {}).setMassif 63 { stopAt := some 0 })
       (s.massif 63).stopAt = some s.cycle ∧ clocked s 63 = true ∧ s.flag (F.MASSIF_STAT_STOPPED 63) = true) := by decide +kernel
theorem witness_lane_settle :
    let s := (withFields [(F.FEED_CTL_EN 31, 1), (F.FEED_CTL_TRACKEN 31, 0x80)] live).setLane 7 { words := [⟨1, true, false, false⟩], taken := [31] }
    (s.lane 7).taken ≠ [] ∧ (∀ j < 32, feedTakes s 7 j = true → j ∈ (s.lane 7).taken)
      ∧ (let u := s.setLane 7 { words := [⟨1, true, false, false⟩], taken := [30] }
         feedTakes u 7 31 = true ∧ 31 ∉ (u.lane 7).taken)
      ∧ 0 < queueCredits s (feedMassif 31) (256 + 8 * 31 + 7) 0
      ∧ (s.get (F.FEED_STAT_PENDING 31)).testBit 7 = false := by decide +kernel
theorem witness_bmw : bmMet live 63 0 0 1023 0 = [] := by decide +kernel
theorem witness_switches :
    (let w : Switch := ⟨15, true, true, true, false⟩
     let s := live.setMassif 63 { switch := some w, midPacket := [0] }
     (s.massif 63).switch = some w ∧ w.clean = true ∧ w.boundary = true ∧ w.held = false ∧ seqUp s 63 = true ∧ (s.massif 63).midPacket ≠ []
       ∧ w.forced = true ∧ w.slot < 16)
    ∧ (let b : BeatRec := ⟨63, 0, 0, 0, 0, 0, 0⟩
       beatSatisfies ((sequencing 0 (15 + 63 * 2 ^ 32)).massif 63).step b = true ∧ beatSatisfies ((sequencing 0 15).massif 63).step b = false)
    ∧ (let s : State := { live with cycle := 6, pos := { live.pos with treeFly := [(0, ⟨63, 0, 0, 0, 0, 0, 0⟩)] } }
       s.pos.treeFly = [(0, ⟨63, 0, 0, 0, 0, 0, 0⟩)] ∧ 0 + 6 ≤ s.cycle ∧ ¬ 1 + 6 ≤ s.cycle ∧ s.get F.REST_STAT_STATE ≠ 2 ∧ pairState s = pOff
         ∧ beatsKept s 63 = false ∧ (s.massif 63).beats = []
         ∧ beatsKept (s.setMassif 63 { clockHold := true }) 63 = true) := by decide +kernel

/-! ### Witnesses: queues and memories -/

/-- Queue 31 of massif 63 enabled with write source `src`, sink `sink` and release mode `rel`, holding `l` of 16 words quota. -/
def queueing (src sink rel quota : Nat) (x : Queue) : State :=
  (withFields [(F.SLOT_VALID_BITS 63, 1), (F.SQ_CTL_EN 63 31, 1), (F.SQ_CTL_WSRC 63 31, src), (F.SQ_CTL_RSINK 63 31, sink),
    (F.SQ_CTL_RELMODE 63 31, rel), (F.SQ_QUOTA_GRAN 63 31, quota), (F.SQ_BIND_WEN 63 31, 1), (F.SQ_BIND_REN 63 31, 1),
    (F.SQ_WP_VALUE 63 31, x.words.length)] live).setQueue 63 31 x
def qword (e : Bool) : QWord := ⟨⟨7, e, false, false⟩, 0, false⟩
theorem witness_queue_writes :
    (let s := queueing 2 0 0 1 {}
     s.get (F.SQ_CTL_WSRC 63 31) = 2 ∧ s.flag (F.SQ_CTL_EN 63 31) = true ∧ 2 ≤ freeWords s 63 31 ∧ (s.queue 63 31).force = false
       ∧ (s.queue 63 31).cairn = none ∧ (s.queue 63 31).forcedCairn = false ∧ s.flag (F.SQ_CTL_FULL 63 31) = false)
    ∧ freeWords (queueing 2 0 0 1 { words := List.replicate 15 (qword false) }) 63 31 = 1
    ∧ freeWords (queueing 2 0 0 1 { words := List.replicate 16 (qword false) }) 63 31 = 0
    ∧ ((queueing 2 0 0 1 {}).put (F.SQ_CTL_FULL 63 31) 1).flag (F.SQ_CTL_FULL 63 31) = true
    ∧ (let s := (queueing 0 0 0 1 {}).setStage 63 (0) 0 { words := [⟨7, false, false, false⟩] }
       (s.stage 63 (s.get (F.SQ_BIND_WTILE 63 31)) (4 * s.get (F.SQ_BIND_WDIR 63 31) + s.get (F.SQ_BIND_WTRK 63 31))).words ≠ []
         ∧ clocked s 63 = true ∧ s.flag (F.SQ_BIND_WEN 63 31) = true ∧ s.get (F.SQ_CTL_WSRC 63 31) = 0 ∧ Dest.queue 31 ∉ (s.stage 63 0 0).taken)
    ∧ unread (queueing 2 0 0 1 { words := [qword false] }) 63 31 ≠ []
    ∧ ((live.put (F.SQ_TAIL_CYCLES 63 31) 1).get (F.SQ_TAIL_CYCLES 63 31)) ≠ 0
    ∧ live.flag (F.GRP_CTL_LP 31) = false ∧ (live.put (F.GRP_CTL_LP 31) 1).flag (F.GRP_CTL_LP 31) = true
    ∧ ((live.put (F.LRQ_TAIL_CYCLES 31 7) 1).get (F.LRQ_TAIL_CYCLES 31 7)) ≠ 0
    ∧ ((live.setLane 255 { words := List.replicate 4094 ⟨0, false, false, false⟩ }).lane 255).words.length + 2 ≤ 4096
    ∧ 4096 < ((live.setLane 255 { words := List.replicate 4095 ⟨0, false, false, false⟩ }).lane 255).words.length + 2 := by decide +kernel
theorem witness_forced_end : (let x := ((queueing 2 0 0 1 { words := [qword true, qword false], force := true, cairn := some ⟨1, 1⟩ }).queue 63 31)
    x.force = true ∧ x.words = [qword true] ++ [qword false] ∧ (qword false).w.e = false ∧ x.cairn = some ⟨1, 1⟩)
    ∧ (let y : LaneQueue := { words := [⟨7, true, false, false⟩, ⟨7, false, false, false⟩], force := true }
       y.force = true ∧ y.words = [⟨7, true, false, false⟩] ++ [⟨7, false, false, false⟩]) := by decide +kernel
theorem witness_queue_reads :
    (let s := queueing 2 0 0 1 { words := [qword false, qword true] }
     unread s 63 31 = [qword false, qword true] ∧ runs s 63 = true ∧ s.flag (F.SQ_BIND_REN 63 31) = true ∧ readConflict s 63 31 = false
       ∧ inputHeld s 63 (512 + 31) = false ∧ segReady s 63 (readSeg s 63 31).1 (readSeg s 63 31).2 = true ∧ sinksRun s 63 = true
       ∧ s.get (F.SQ_RP_VALUE 63 31) + 1 - s.get (F.SQ_RL_VALUE 63 31) ≤ (s.queue 63 31).words.length
       ∧ packetReady (unread s 63 31) 128 = some [qword false, qword true])
    ∧ (queueing 2 3 0 1 {}).get (F.SQ_CTL_RSINK 63 31) = 3 ∧ (queueing 2 1 0 1 {}).get (F.SQ_CTL_RSINK 63 31) = 1
    ∧ packetReady [] 128 = none
    ∧ (let s := (queueing 2 0 1 1 { words := [qword true] }).put (F.SQ_RP_VALUE 63 31) 1
       s.get (F.SQ_CTL_RELMODE 63 31) = 1 ∧ ((s.queue 63 31).words.findIdx? fun w => w.w.e) = some 0 ∧ 0 < readIndex s 63 31
       ∧ s.flag (F.SQ_STAT_MARK_VALID 63 31) = false ∧ (s.put (F.SQ_STAT_MARK_VALID 63 31) 1).flag (F.SQ_STAT_MARK_VALID 63 31) = true) := by
  decide +kernel
/-- A field set in a written word. -/
def inWord (l : List (Fld × Nat)) : Word := BitVec.ofNat 32 (l.foldl (fun acc p => acc + p.2 * 2 ^ p.1.lo) 0)
theorem witness_queue_configuration :
    (let s := queueing 2 0 0 1 {}
     keeps s (inWord [(F.SQ_CTL_EN 63 31, 1), (F.SQ_CTL_WSRC 63 31, 2)]) (sqLocked 63 31) = true
       ∧ keeps s (inWord [(F.SQ_CTL_EN 63 31, 1), (F.SQ_CTL_WSRC 63 31, 1)]) (sqLocked 63 31) = false
       ∧ keeps s (inWord [(F.SQ_BIND_WEN 63 31, 1), (F.SQ_BIND_REN 63 31, 1)]) (sqBindFields 63 31) = true ∧ keeps s 0 (sqBindFields 63 31) = false)
    ∧ (let v := inWord [(F.SQ_CTL_EN 63 31, 1), (F.SQ_CTL_RSINK 63 31, 2), (F.SQ_CTL_RELMODE 63 31, 2)]
       (F.SQ_CTL_EN 63 31).of v.toNat = 1 ∧ (F.SQ_CTL_RSINK 63 31).of v.toNat = 2 ∧ (F.SQ_CTL_RELMODE 63 31).of v.toNat = 2 ∧ v.getLsbD 10 = false)
    ∧ tapColumn 3 = true ∧ tapColumn 255 = false ∧ (F.SQ_BIND_WEN 63 31).of (inWord [(F.SQ_BIND_WEN 63 31, 1)]).toNat = 1
    ∧ (F.SQ_QUOTA_GRAN 63 31).of 0 = 0 ∧ (F.SQ_QUOTA_RSV 63 31).of (inWord [(F.SQ_QUOTA_RSV 63 31, 1)]).toNat = 1 := by decide +kernel

theorem witness_secded : (2 ^ 32 - 1 < 2 ^ 32) ∧ (2 ^ 64 - 1 < 2 ^ 64) := by decide
/-- The last word of shelf 63 holds a single error, and the scrubber is due there; a word with two errors. -/
def scrubbing (upset : BitVec 40) (h : Shelf) : State :=
  ((withFields [(F.SCRUB_CTL_EN 63, 1), (F.SCRUB_PTR_WORD 63, 262143)] live).setShelfCell 63 262143 (shelfStored 5 false ^^^ upset)).setShelf 63 h
theorem witness_shelf_words :
    storedValid (live.shelfCell 63 262143) = false ∧ storedValid ((scrubbing 0 {}).shelfCell 63 262143) = true
    ∧ (scrubbing 0 {}).flag (F.SCRUB_CTL_EN 63) = true ∧ ((scrubbing 0 {}).massif 63).clockHold = false ∧ (scrubbing 0 {}).get F.REST_STAT_STATE ≠ 2
    ∧ (scrubbing 0 {}).get (F.SCRUB_PTR_WORD 63) = 262143
    ∧ (live.put (F.SH_STAT_CLEARING 63) 1).flag (F.SH_STAT_CLEARING 63) = true ∧ (live.shelf 63).clearK = 0
    ∧ (let d := fun (u : BitVec 40) => classify code39 (storedData (shelfStored 5 false ^^^ u)) (storedCheck (shelfStored 5 false ^^^ u))
       d 0 = .clean ∧ (match d 1 with
        | .single _ => true
        | _ => false) = true ∧ d 3 = .bad)
    ∧ ((scrubbing 0 { repair := [262143], celog := [⟨0, 0, 0, false⟩] }).shelf 63).repair = [262143] := by decide +kernel
/-- Port 3 of shelf 63 in READ, or WRITE, mode; its taps are on segments 0 and 1 of tile 0. -/
def porting (mode : Nat) (w : SWord) (l : List ShelfPortReq) : State :=
  ((setPortReqs 63 3 l ((withFields [(F.SLOT_VALID_BITS 63, 1), (F.SHP_CTL_EN 63 3, 1), (F.SHP_CTL_MODE 63 3, mode), (F.SHP_BIND_QEN 63 3, 1),
    (F.SHP_BIND_DEN 63 3, 1), (F.SHP_BIND_DTRK 63 3, 1), (F.SHP_BIND_REN 63 3, 1)] live))).setStage 63 0 0 { words := [w] }).setStage 63 0 1 { words := [w] }
theorem witness_shelf_ports :
    (let s := porting 0 ⟨4, true, false, false⟩ []
     runs s 63 = true ∧ clocked s 63 = true ∧ s.flag (F.SHP_CTL_EN 63 3) = true ∧ reqHead s 63 3 = some ⟨4, true, false, false⟩ ∧ portWrites s 63 3 = false
       ∧ (portReqs s 63 3).length < 8)
    ∧ reqHead (porting 0 ⟨4, true, false, true⟩ []) 63 3 = some ⟨4, true, false, true⟩
    ∧ reqHead (porting 0 ⟨4, true, true, false⟩ []) 63 3 = some ⟨4, true, true, false⟩
    ∧ (let s := porting 1 ⟨4, true, false, false⟩ []
       portWrites s 63 3 = true ∧ dataHead s 63 3 = some ⟨4, true, false, false⟩)
    ∧ (let s := porting 0 ⟨4, true, false, false⟩ [⟨15, false, some ⟨1, true, false, false⟩, none⟩]
       segSource (s.active 63 (respSeg s 63 3).1) (respSeg s 63 3).2 = none ∧ inputHeld s 63 (544 + 3) = false
       ∧ segReady s 63 (respSeg s 63 3).1 (respSeg s 63 3).2 = true)
    ∧ (let s := setPortReqs 63 0 [⟨15, false, none, none⟩] (setPortReqs 63 1 [⟨31, false, none, none⟩] (fabric 0 {}))
       portWants s 63 0 = some (0, ⟨15, false, none, none⟩) ∧ (15 : Nat) % 16 = 15 ∧ portWants s 63 1 = some (0, ⟨31, false, none, none⟩))
    ∧ (let s := scrubbing 0 { scrubReq := some 262143 }
       (∀ q < 4, portWants s 63 q = none) ∧ bulkWants s 63 15 = none ∧ (s.shelf 63).scrubReq = some 262143 ∧ 262143 % 16 = 15) := by decide +kernel
theorem witness_block_memories :
    ((live.put (F.BM_USE_BITS 63) (2 ^ 23)).get (F.BM_USE_BITS 63)).testBit 23 = true ∧ (live.get (F.BM_USE_BITS 63)).testBit 23 = false
    ∧ live.flag (F.BM_ACC_CTL_BUSY 63) = false ∧ live.get (F.BM_ACC_ADDR_MEM 63) < 24 ∧ bmAccPort live 63 0 false = some 0
    ∧ (3 : Nat) % aspectDepth 0 ≠ 2047 % aspectDepth 0 ∧ ([0, 1, 2, 3].map aspectDepth) = [2048, 4096, 8192, 1024] := by decide +kernel
/-- The scrubber's write-back of the last word waits, in its own cycle or while port 0 wants the bank. -/
theorem witness_scrubber :
    (let s := scrubbing 1 { scrubRead := some ⟨262143, shelfStored 5 false⟩ }
     (s.shelf 63).scrubRead = some ⟨262143, shelfStored 5 false⟩ ∧ storedValid (s.shelfCell 63 262143) = true
       ∧ (∀ q < 4, portWants s 63 q = none) ∧ Machine.loader s 63 = none ∧ (s.shelf 63).bulk = []
       ∧ (∀ b < 16, callerWants s 63 b = false)
       ∧ (let t := setPortReqs 63 0 [⟨15, false, none, none⟩] (s.setTile 63 0 {})
          portWants (t.put (F.SLOT_VALID_BITS 63) 1) 63 0 = some (0, ⟨15, false, none, none⟩) ∧ 262143 % 16 = 15))
    ∧ (let s := scrubbing 1 { scrubReq := some 262143 }
       classify code39 (storedData (s.shelfCell 63 262143)) (storedCheck (s.shelfCell 63 262143)) ≠ .clean
         ∧ (s.shelf 63).scrubReq = some 262143 ∧ scrubRuns s 63 = true)
    ∧ (let s := setLoader 63 (some { verify := false, slot := 1, hbm := false, addr := 0 }) (live.put (F.SLOT_VALID_BITS 63) 1)
       (∀ q < 4, portWants s 63 q = none) ∧ (Machine.loader s 63).isSome = true ∧ (loaderWants s 63).isSome = true ∧ (s.shelf 63).ldWait ≠ some s.cycle)
    ∧ (let s := (live.put (F.CL_STAT_RUNNING 63) 1).setShelf 63 { want := [15] }
       (∀ q < 4, portWants s 63 q = none) ∧ loaderWants s 63 = none ∧ callerWants s 63 15 = true)
    ∧ (let s := live.setShelf 63 { bulk := [⟨{ dst := 63, dport := 0, src := 0, sport := 0, vn := 1, typ := 0 }, [15], [], none⟩] }
       (∀ q < 4, portWants s 63 q = none) ∧ loaderWants s 63 = none ∧ callerWants s 63 15 = false ∧ (bulkWants s 63 15).isSome = true) := by
  decide +kernel
theorem witness_block_memory_meeting :
    let w : BmWrote := ⟨0, 2047, 9, false⟩
    let s := { live with mem := { live.mem with bmWrote := [((63 * 24 + 23) * 2 + 1, [w])] } }
    bmMet s 63 23 0 2047 0 = [w] ∧ w.cycle = s.cycle ∧ w.binc = false ∧ bmMet s 63 23 1 2047 0 = [] ∧ bmMet s 63 23 0 0 0 = [] := by
  decide +kernel
theorem witness_block_memory_access :
    let x : BmAcc := ⟨23, 5, true, 7, 0⟩
    let s := fun (x : BmAcc) => { live with mem := { live.mem with bmAcc := [(63, some x)] } }
    (s x).mem.bmAcc.get 63 none = some x ∧ x.write = true ∧ (s { x with write := false }).mem.bmAcc.get 63 none = some { x with write := false } := by
  decide +kernel
theorem witness_queue_gap :
    (let s := queueing 2 0 0 1 { words := [qword true], cairn := some ⟨1, 1⟩ }
     let s1 := queueStore 63 31 (cairnWord 1 1 31) (s.setQueue 63 31 { s.queue 63 31 with cairn := none })
     (s.queue 63 31).cairn = some ⟨1, 1⟩ ∧ 2 ≤ freeWords s 63 31 ∧ 2 ≤ freeWords s1 63 31)
    ∧ (let s := queueing 2 0 0 1 { words := List.replicate 15 (qword false), forcedCairn := true }
       freeWords s 63 31 = 1 ∧ (s.queue 63 31).forcedCairn = true ∧ s.flag (F.SQ_CTL_FULL 63 31) = false)
    ∧ (unread (queueing 2 0 0 1 { words := [qword false] }) 63 31)[0]? = some (qword false)
    ∧ (qword false).bad = false ∧ ({ qword false with bad := true }).bad = true := by decide +kernel

/-! ### Witnesses: HBM, the network and power -/

/-- A packet from endpoint 0 of router 63. -/
def pk (dst dport vn typ : Nat) : Packet := { dst := dst, dport := dport, src := 63, sport := 0, vn := vn, typ := typ }
/-- The HBM serves. -/
def memory : State := withFields [(F.HBM_CTL_EN, 1), (F.HBM_STAT_READY0, 1), (F.HBM_STAT_READY1, 1)] live
/-- A write of eight bytes of HBM. -/
def hwrite : Packet := { pk 95 1 1 1 with size := 7, data := List.replicate 8 (0xA5, true) }
theorem witness_hbm_channels :
    (let s := memory.setChan 31 { waiting := [(0, [hwrite])] }
     s.flag F.HBM_CTL_EN = true ∧ hbmReady s 31 = true ∧ s.flag (F.HBM_CH_STAT_SELFREF 31) = false ∧ s.flag (F.HSCRUB_CTL_INIT 31) = false
       ∧ (s.chan 31).admitted.length < 64 ∧ (hbmTurn s 31).map (·.1) = some 0 ∧ (s.chan 31).waiting.get 0 [] = [hwrite])
    ∧ hbmTurn memory 31 = none ∧ live.flag F.HBM_CTL_EN = false
    ∧ (let s := memory.setChan 31 { admitted := (List.range 63).map (fun i => (0, { pk 95 1 1 0 with src := i })) ++ [(0, hwrite)] }
       ((s.chan 31).admitted[63]?).map (·.2) = some hwrite ∧ mayComplete (s.chan 31) s 63 hwrite = true
         ∧ (0 : Nat) ∈ blockList (hwrite.addr % 2 ^ 35) (hwrite.size + 1)
         ∧ ((s.chan 31).admitted[0]?).isSome = true ∧ mayComplete (s.chan 31) s 0 { pk 95 1 1 0 with src := 0 } = true)
    ∧ (let q := { hwrite with vn := 3, typ := 2 }
       let s := memory.setChan 31 { admitted := [(1, q)] }
       (s.chan 31).admitted[0]? = some (1, q) ∧ mayComplete (s.chan 31) s 0 q = true ∧ q.vn = 3)
    ∧ (let s := (memory.setChan 31 { locked := [134217727] }).setHbmCell 31 134217727 (hbmStored 5 false ^^^ 3)
       (s.chan 31).locked = [134217727]
         ∧ classify code72 (groupData (s.hbmCell 31 134217727)) (groupCheck (s.hbmCell 31 134217727)) = .bad)
    ∧ (let s := (memory.put (F.HBM_CH_STAT_SELFREF 31) 1).setChan 31 { waiting := [(0, [hwrite])], waking := true }
       s.power.warmPhase = 0 ∧ (s.chan 31).waiting.any (fun e => !e.2.isEmpty) = true ∧ s.flag (F.HBM_CH_STAT_SELFREF 31) = true
         ∧ ((List.range 32).any fun k => k / 16 == 1 && s.flag (F.HBM_CH_STAT_SELFREF k) && (s.chan k).waking) = true)
    ∧ ((List.range 32).any fun k => k / 16 == 1 && memory.flag (F.HBM_CH_STAT_SELFREF k) && (memory.chan k).waking) = false
    ∧ hbmReady live 31 = false ∧ (memory.put (F.HSCRUB_CTL_INIT 31) 1).flag (F.HSCRUB_CTL_INIT 31) = true
    ∧ memory.fresh (F.HSCRUB_CTL_INIT 31) = 0 ∧ memory.flag (F.HBM_CH_STAT_SELFREF 31) = false
    ∧ (let s := memory.put (F.HSCRUB_CTL_EN 31) 1
       s.flag (F.HSCRUB_CTL_EN 31) = true ∧ (s.chan 31).scrubWait = none ∧ ((s.setChan 31 { scrubWait := some 0 }).chan 31).scrubWait ≠ none)
    ∧ live.flag F.CMD_STAT_READY = true ∧ live.power.hbmRailLost = false ∧ live.power.trained.contains 1 = false := by decide +kernel

/-- Packets of one flit on VN1 at massif router 63 and its edge router: one waits at the NI, one in the buffer of input 6. -/
def travelling (p : Packet) : State := ((live.setNiQueue 95 1 [p]).setRbuf 63 6 1 [⟨1, p, 0, 0, 0⟩]).setRbuf 95 5 1 [⟨1, p, 0, 0, 0⟩]
def asking (n : Nat) (p : Packet) : State := live.setInbox n [p]
theorem witness_ridge_network :
    (let s := travelling (pk 0 0 1 0)
     s.niQueue 95 1 = [pk 0 0 1 0] ∧ vnStopped s 1 = false ∧ warmHolds s (pk 0 0 1 0) = false
       ∧ (s.rbuf 95 0 1).length < bufDepth 1 ∧ niReady s 95 0 = false ∧ s.ridge.rrNi.get 95 0 = 0 ∧ s.sendingOf 95 1 = none
       ∧ { s with ridge := { s.ridge with sending := [(95 * 8 + 1, some (7, 1))] } }.sendingOf 95 1 = some (7, 1)
       ∧ ¬ (niReady s 95 0 = false ∧ ∃ d < 4, (0 + d) % 4 + 1 = 2 ∧ ∀ i < d, niReady s 95 ((0 + i) % 4 + 1) = false)
       ∧ (takeToken 95 1 s).isSome = true
       ∧ s.get (F.RG_CFG_BURST 95 1) ≠ 0 ∧ s.get (F.RG_CFG_PERIOD 95 1) = 0
       ∧ s.rbuf 63 6 1 = [⟨1, pk 0 0 1 0, 0, 0, 0⟩] ∧ s.lockOf 63 (routePort s 63 1 0) 1 = none ∧ routePort s 63 1 0 ≠ 0
       ∧ hasCredit s 63 (routePort s 63 1 0) 1 = true)
    ∧ (let s := withFields [(F.RG_CFG_BURST 95 1, 2), (F.RG_CFG_PERIOD 95 1, 3), (F.RG_STAT_TOKENS 95 1, 1)] live
       0 < s.get (F.RG_STAT_TOKENS 95 1) ∧ s.get (F.RG_STAT_TOKENS 95 1) < s.get (F.RG_CFG_BURST 95 1)
         ∧ s.get (F.RG_CFG_PERIOD 95 1) ≠ 0 ∧ takeToken 95 1 (s.put (F.RG_STAT_TOKENS 95 1) 0) = none
         ∧ takeToken 95 1 (s.put (F.RG_CFG_BURST 95 1) 0) = none)
    ∧ (let s := travelling (pk 95 1 1 0)
       routePort s 95 1 95 = 0 ∧ niTakes s (pk 95 1 1 0) = true ∧ s.lockOf 95 0 1 = none)
    ∧ ((travelling (pk 0 0 1 0)).setLock 63 4 1 (some (2, 5))).lockOf 63 4 1 = some (2, 5)
    ∧ here (asking 70 (pk 70 2 1 3)) (pk 70 2 1 3) = true ∧ endpointExists 70 2 = false
    ∧ here (asking 70 (pk 70 2 4 1)) (pk 70 2 4 1) = true
    ∧ here (asking 63 (pk 63 0 2 0)) (pk 63 0 2 0) = true ∧ matchReq (asking 63 (pk 63 0 2 0)) (pk 63 0 2 0) = none
    ∧ here live (pk 63 0 2 0) = false ∧ (∀ i < 7, live.rbuf 63 i 4 = [])
    ∧ (let s := live.put F.RT_ACTSTAT_BUSY 1
       s.flag F.RT_ACTSTAT_BUSY = true ∧ drained s = true
       ∧ drained { travelling (pk 0 0 1 0) with ridge := { (travelling (pk 0 0 1 0)).ridge with stopped := 1 } } = false)
    ∧ (0x108 : Word).getLsbD 8 = true ∧ (0x108 : Word).toNat % 16 = 8
    ∧ (badEntry (live.put (F.RT_SHADOW4_ENTRIES 0 0) 0x22222221) 8).isSome = true := by decide +kernel
/-- The eight entries of a table word are the XY routes. -/
def digits (w r j : Nat) : Bool := (List.range 8).all fun k => bitsOf w (4 * k) 4 == xyPort r (8 * j + k)
theorem power_on_routes : ∀ r < 64, ∀ j < 12, digits (xyRouteWord r j) r j = true := by decide +kernel
/-- The shadow tables of power-on obey the order of each network. -/
theorem witness_routes_obey_their_order (mask : Nat) : badEntry State.reset mask = none := by
  simp only [badEntry, List.findSome?_eq_none_iff]
  intro r hr v hv
  split
  · simp only [Option.map_eq_none_iff, List.find?_eq_none, Bool.not_eq_true', Bool.not_eq_false]
    intro d hd
    have hd' : d < 96 := List.mem_range.mp hd
    have ht : tableEntry State.reset false r v d = xyPort r d := by
      have h := power_on_routes r (List.mem_range.mp hr) (d / 8) (by omega)
      simp only [digits, List.all_eq_true, beq_iff_eq] at h
      have h := h (d % 8) (List.mem_range.mpr (by omega))
      rw [Nat.div_add_mod] at h
      rw [← h]
      simp only [List.mem_cons, List.not_mem_nil, or_false] at hv
      rcases hv with rfl | rfl | rfl | rfl <;> rfl
    have ho : orderOf (State.reset.get F.RT_ORDER_SH_MODE) v = 0 := by
      simp only [List.mem_cons, List.not_mem_nil, or_false] at hv
      rcases hv with rfl | rfl | rfl | rfl <;> rfl
    simp [ht, ho, entryOk]
  · rfl

/-- The requester at endpoint `o` awaits a response with tag 63. -/
def awaiting (o : TagOwner) (p : Packet) : State := (asking 63 p).setOutReqs 63 [⟨63, o, false⟩]
def reply (typ : Nat) : Packet := { pk 63 0 2 typ with tag := 63 }
theorem witness_packets :
    (let p : Packet := { pk 63 0 0 0 with addr := 0xFFFC0, words := List.replicate 16 7 }
     here (asking 63 p) p = true ∧ p.words.length ≤ 16)
    ∧ (let p := pk 84 2 0 1
       here (asking 84 p) p = true ∧ bellCore p = some 66)
    ∧ here (asking 63 (pk 63 0 1 1)) (pk 63 0 1 1) = true
    ∧ here (asking 95 (pk 95 1 1 0)) (pk 95 1 1 0) = true ∧ channelAt 95 1 = some 31 ∧ endpointExists 95 1 = true
    ∧ here (asking 63 (pk 63 4 1 0)) (pk 63 4 1 0) = true ∧ endpointExists 63 4 = true ∧ channelAt 63 4 = none
    ∧ here (asking 95 (pk 95 0 3 2)) (pk 95 0 3 2) = true ∧ channelAt 95 0 = some 30
    ∧ here (asking 63 (pk 63 0 3 2)) (pk 63 0 3 2) = true ∧ channelAt 63 0 = none
    ∧ (∀ t ∈ [2, 3], let p := { pk 63 3 1 t with addr := (F.SQ_CTL_EN 63 31).addr }
       here (asking 63 p) p = true ∧ regServes (asking 63 p) 63 = true)
    ∧ servingRouter (F.SQ_CTL_EN 63 31).addr = some 63 ∧ servingRouter 0x0FFFF000 ≠ some 63
    ∧ here (asking 63 (pk 63 3 4 2)) (pk 63 3 4 2) = true
    ∧ (∀ t < 4, here (awaiting (.endpoint 0) (reply t)) (reply t) = true
       ∧ matchReq (awaiting (.endpoint 0) (reply t)) (reply t) = some ⟨63, .endpoint 0, false⟩)
    ∧ matchReq (awaiting (.bar0 1 5 false) (reply 2)) (reply 2) = some ⟨63, .bar0 1 5 false, false⟩
    ∧ matchReq (awaiting (.bar2 1 5 false 3) (reply 0)) (reply 0) = some ⟨63, .bar2 1 5 false 3, false⟩
    ∧ here (awaiting (.wire 64 0 0) (reply 0)) (reply 0) = true ∧ matchReq (awaiting (.wire 64 0 0) (reply 0)) (reply 0) = some ⟨63, .wire 64 0 0, false⟩
    ∧ (let s := (awaiting (.endpoint 0) (reply 0)).put F.RQ_TIMEOUT_CYCLES 1
       s.get F.RQ_TIMEOUT_CYCLES ≠ 0 ∧ (s.outReqs 63).find? (fun x => x.tag == 63 && !x.expired) = some ⟨63, .endpoint 0, false⟩)
    ∧ (let p := { pk 63 1 3 0 with addr := 31, stream := [⟨1, true, false, false⟩] }
       let s := (queueing 1 0 0 1 {}).setInbox 63 [p]
       here s p = true ∧ s.get (F.PWR_STAT_STATE 63) ≤ 2
         ∧ s.get (F.SQ_CTL_WSRC 63 31) = 1
         ∧ (streamWords 63 31 p.stream s).1 = [])
    ∧ here (asking 92 (pk 92 2 3 1)) (pk 92 2 3 1) = true ∧ here (asking 91 (pk 91 2 3 3)) (pk 91 2 3 3) = true
    ∧ here (asking 91 (pk 91 2 4 1)) (pk 91 2 4 1) = true := by decide +kernel

/-- Core 67 and Caller 63 halted, with a register selected. -/
def debugging (reg cidx : Nat) : State := withFields [(fHalted 67, 1), (fHalted 63, 1), (F.DBG_SEL_REG 63, reg), (F.DBG_SEL_CIDX 63, cidx)] live
def tileWindow (item : Nat) : State := withFields [(F.TDBG_SEL_TILE 63, 255), (F.TDBG_SEL_ITEM 63, item)] live
/-- Source 0 is routed to line 31 of Lead Caller 3 and raised. -/
def raised : State :=
  withFields [(F.DIST_CTL_EN, 1), (F.DIST_ROUTE_ENTRIES 0, 1 + 8 * 31 + 256 * 3), (F.IRQ_STAT_BITS ((sourcePage 0).getD 0), 1),
    (F.IRQ_EN_BITS ((sourcePage 0).getD 0), 1)] live
theorem witness_interrupt_messages :
    (let s := live.setInbox 84 [irqPacket 67 31 true]
     ((s.inbox (coreRouter 67)).find? fun p => irqFor 67 31 p && here s p) = some (irqPacket 67 31 true))
    ∧ (((raised.inbox (coreRouter 67)).find? fun p => irqFor 67 31 p && here raised p) = none ∧ raised.flag F.DIST_CTL_EN = true
       ∧ irqUnderWay raised 67 31 = false ∧ remoteOr raised 67 31 ≠ remoteLine raised 67 31)
    ∧ irqUnderWay (raised.setNiQueue distRouter 4 [irqPacket 67 31 true]) 67 31 = true
    ∧ live.flag F.DIST_CTL_EN = false ∧ remoteOr raised 67 30 = remoteLine raised 67 30 := by decide +kernel
theorem witness_core_control :
    live.flag F.DIST_CTL_EN = false
    ∧ (let s := live.put F.DIST_CTL_EN 1
       s.flag F.DIST_CTL_EN = true ∧ isLead 67 = true ∧ s.massifUp 63 = true ∧ (s.put (F.PWR_STAT_STATE 63) 3).massifUp 63 = false)
    ∧ live.flag (F.CL_CTL_RUN 63) = false ∧ (live.putB (F.CL_CTL_RUN 63) true).flag (F.CL_CTL_RUN 63) = true
    ∧ live.flag (fRunning 67) = false ∧ live.loadHold = false ∧ (live.put (fRunning 67) 1).flag (fRunning 67) = true
    ∧ (live.put (fRunning 63) 1).flag (fRunning 63) = true ∧ (debugging 0 0).flag (fHalted 63) = true ∧ (debugging 0 0).flag (fHalted 67) = true
    ∧ live.flag (fHalted 63) = false
    ∧ (match dbgSel (debugging 31 0) 63 with
        | .field n => n == 31
        | _ => false) = true
    ∧ (match dbgSel (debugging 23 0) 63 with
        | .w _ => true
        | _ => false) = true
    ∧ (match dbgSel (debugging 64 0) 63 with
        | .ctl n => n == 0
        | _ => false) = true
    ∧ midInstr ((live.put (fRunning 63) 1).setWire 63 { reqs := [none] }) 63 = true ∧ midInstr (live.put (fRunning 63) 1) 63 = false
    ∧ midInstr ((live.put (fRunning 67) 1).setWire 67 { reqs := [none] }) 67 = true ∧ midInstr (live.put (fRunning 67) 1) 67 = false
    ∧ (let f : Firing := ⟨⟨5, false, true, true⟩, ⟨5, false, true, true⟩, ⟨5, false, true, true⟩, true, false, false, none⟩
       let s := (tileWindow 7).setTile 63 255 { pipe := [f] }
       let s := (s.put (F.SLOT_VALID_BITS 63) 1).setSlotBits 63 0 255 (BitVec.ofNat 320 (3 * 2 ^ 32 + 15 * 2 ^ 60))
       itemFired s 63 255 7 = true ∧ tdbgRefused s 63 = false)
    ∧ tdbgRefused ((tileWindow 0).put (F.SEQ_STAT_RUNNING 63) 1) 63 = true ∧ tdbgRefused (tileWindow 7) 63 = false
    ∧ (tileWindow 7).get (F.TDBG_SEL_ITEM 63) < 8 ∧ (tileWindow 9).get (F.TDBG_SEL_ITEM 63) = 9
    ∧ (let p : Packet := { dst := 63, dport := 0, src := 63, sport := 2, vn := 0, typ := 0, size := 11, words := List.replicate 12 0 }
       packetOk p = true ∧ packetOk { p with size := 12 } = false)
    ∧ sumQueued live 63 < 2 ∧ 2 ≤ sumQueued (live.setNiQueue 63 0 [pk 0 0 0 0, pk 0 0 0 0]) 63 := by decide +kernel

theorem witness_power_and_clocks :
    (live.massif 63).held = false ∧ live.get (F.PWR_STAT_STATE 63) = 0
    ∧ (∀ k < 5, (live.put (F.PWR_STAT_STATE 63) k).get (F.PWR_STAT_STATE 63) = k)
    ∧ waitFor (live.put (F.PWR_STAT_STATE 63) 1) 63 = 0 ∧ waitFor (live.put (F.CL_STAT_RUNNING 63) 1) 63 = 4
    ∧ (live.massif 63).resetHold = false ∧ live.outReqs 63 = [] ∧ (asking 63 (pk 63 0 0 0)).outReqs 63 = []
    ∧ ((asking 63 (pk 63 0 0 0)).inbox 63).all servedAsleep = true
    ∧ (live.setMassif 63 { live.massif 63 with held := true } |>.massif 63).held = true
    ∧ (let s := live.setMassif 63 { callerCopy := true }
       s.massifUp 63 = true ∧ (s.massif 63).callerCopy = true ∧ (s.massif 63).wakeBeat = none ∧ (s.massif 63).wakeSlots = []
         ∧ (List.range 16).any (aboveCaller s 63) = false
         ∧ (List.range 16).any (aboveCaller (setLoader 63 (some { verify := false, slot := 1, hbm := false, addr := 0 }) s) 63) = true)
    ∧ clockStopped live 63 = false ∧ (live.massif 63).beats = []
    ∧ clockStopped (withFields [(F.REST_STAT_STATE, 1), (F.FPLL_LOCK 0, 0)] live) 63 = true
    ∧ (let s := withFields [(F.FPLL_FREQ 3, 0x190), (F.FPLL_LOCK 3, 1)] live
       let v := inWord [(F.MCLK_SEL 63, 3)]
       s.flag (F.MCLK_SWITCHING 63) = false ∧ (F.MCLK_SEL 63).of v.toNat = 3 ∧ s.flag (F.FPLL_LOCK 3) = true
         ∧ (F.MCLK_SEL 63).of v.toNat ≠ s.get (F.MCLK_SEL 63))
    ∧ (live.put (F.MCLK_SWITCHING 63) 1).flag (F.MCLK_SWITCHING 63) = true ∧ live.get (F.FPLL_USERS 3) = 0
    ∧ (live.put (F.FPLL_USERS 3) 1).get (F.FPLL_USERS 3) ≠ 0 ∧ (F.FPLL_FREQ 3).of (inWord [(F.FPLL_FREQ 3, 0x190)]).toNat = 0x190
    ∧ (F.FPLL_FREQ 3).of (inWord [(F.FPLL_FREQ 3, 0x04F)]).toNat = 0x04F ∧ (live.put (F.FPLL_FREQ 3) 0x50).get (F.FPLL_FREQ 3) ≠ 0
    ∧ live.flag (F.FPLL_LOCK 3) = false
    ∧ live.flag F.BO_STAT_WARN = false ∧ 0 < live.get F.BO_WARN_MV ∧ (live.put F.BO_CTL_THROTTLE_ON_WARN 1).flag F.BO_CTL_THROTTLE_ON_WARN = true
    ∧ (live.put F.BO_STAT_WARN 1).flag F.BO_STAT_WARN = true ∧ live.get F.BO_WARN_MV + live.get F.BO_HYST_MV ≤ (0x3FF : BitVec 10).toNat
    ∧ recovered { live with cycle := 100000000, power := { live.power with warnAt := some 1 } } = true ∧ recovered live = false := by
  decide +kernel
/-- A PLL at 2 GHz fits a massif clock divided by 3, and by 1 does not. -/
theorem witness_clock_fits : (let s := live.put (F.FPLL_FREQ 3) 0x190
      fabricMax * ((F.MCLK_DIV 63).of 0 + 1) < s.get (F.FPLL_FREQ 3) ∧ s.get (F.FPLL_FREQ 3) ≤ fabricMax * ((F.MCLK_DIV 63).of 0x200 + 1)) := by
  unfold fabricMax
  cases Config.grade2 <;> decide +kernel
theorem witness_hbm_order :
    (let r := { pk 95 1 1 0 with size := 7 }
     ordered hwrite r = true ∧ mayComplete { admitted := [(0, hwrite), (0, r)] } memory 1 r = false ∧ r.src = hwrite.src ∧ r.sport = hwrite.sport
       ∧ overlaps hwrite r = true ∧ memReads r = true ∧ memReads hwrite = false)
    ∧ (let b := 2 ^ 23 - 1
       let h : HbmChannel := { locked := [(hbmMap memory (64 * b)).2 / 8] }
       let q := { hwrite with addr := 64 * b }
       b ∈ blockList (q.addr % 2 ^ 35) (q.size + 1) ∧ blockLocked h ((hbmMap memory (64 * b)).2 / 64) = true)
    ∧ (let s := withFields [(F.HSCRUB_CTL_EN 31, 1)] memory
       (s.setChan 31 { scrubWait := some 0 }).flag (F.HSCRUB_CTL_EN 31) = true) := by decide +kernel
/-- At the port of massif router 63 the head of input 6 has its turn; two of its data bits, or one, are upset. -/
theorem witness_flits :
    (let s := travelling (pk 0 0 1 0)
     let out := routePort s 63 1 0
     flitReady s 63 out 1 6 = true ∧ linkChoice s 63 out = some (1, 6) ∧ niReady s 95 1 = true ∧ niReady s 95 2 = false
       ∧ (∀ v < 5, ∀ i < 7, (v, i) ≠ (1, 6) → flitReady s 63 out v i = false) ∧ niReady s 95 0 = false ∧ s.ridge.rrNi.get 95 0 = 0)
    ∧ (let f : Flit := ⟨1, { pk 0 0 1 1 with size := 63, data := List.replicate 64 (0, true) }, 1, 3 <<< 384, 0⟩
       quarterCheck f 3 = .bad ∧ (∀ q < 3, quarterCheck f q = .clean) ∧ bearsData f.pkt = true)
    ∧ (let f : Flit := ⟨1, pk 0 0 1 0, 0, 3, 0⟩
       quarterCheck f 0 = .bad ∧ (∀ q < 4, q ≠ 0 → quarterCheck f q = .clean) ∧ f.idx = 0)
    ∧ (∀ q < 4, quarterCheck ⟨1, pk 0 0 1 0, 0, 0, 0⟩ q = .clean)
    ∧ (let p := { pk 0 0 1 1 with size := 63, data := List.replicate 64 (0, true) }
       let x : Flit := ⟨1, p, 1, 3 <<< 384, 0⟩
       let s := (live.setRbuf 0 6 1 [{ x with err := 0 }]).setLock 0 0 1 (some (6, 1))
       linkChoice s 0 0 = some (1, 6) ∧ routePort s 0 1 0 = 0 ∧ x.idx + 1 = packetFlits (poisonQuarter p 1 3)
         ∧ (flitRead 0 x s).1 = some (poisonQuarter (upsetPacket x) 1 3) ∧ poisonQuarter (upsetPacket x) 1 3 ≠ p) := by decide +kernel
theorem witness_answers :
    (let s := live.put (F.GRP_CTL_LP 17) 1
     groupSleeps s (pk 72 1 1 0) = true ∧ groupSleeps live (pk 72 1 1 0) = false ∧ channelAt 72 1 = none ∧ endpointExists 72 1 = true)
    ∧ (let s := setHost (fun h => { h with bar2Reads := [⟨1, 5, 4, 3, []⟩] }) (awaiting (.bar2 1 5 false 3) (reply 0))
       (s.host.bar2Reads.find? fun x => x.e == 1 && x.tag == 5) = some ⟨1, 5, 4, 3, []⟩)
    ∧ servingRouter (F.CFG_STAT_STATE).addr ≠ none := by decide +kernel
theorem witness_clock_edge :
    let b : BeatRec := ⟨63, 0, 0, 0, 0, 0, 0⟩
    let s := (withFields [(F.SLOT_VALID_BITS 63, 0x8000), (F.SEQ_STAT_RUNNING 63, 1), (F.SEQ_CTL_RUN 63, 1), (F.MCLK_SWITCHING 63, 1)] live).setMassif 63
      { step := BitVec.ofNat 64 (15 + 63 * 2 ^ 32), clockHold := true, beats := [b] }
    let e := (s.setMassif 63 { s.massif 63 with clockHold := false }).put (F.MCLK_SWITCHING 63) 0
    beatsKept e 63 = false ∧ beatsKept (e.setMassif 63 { e.massif 63 with wakeSlots := [1] }) 63 = true
    ∧ s.flag (F.MCLK_SWITCHING 63) = true ∧ (s.massif 63).beats = [b] ∧ stepNosw (s.massif 63).step = false
      ∧ (let e := (s.setMassif 63 { s.massif 63 with clockHold := false, beats := [] }).put (F.MCLK_SWITCHING 63) 0
         seqWaits e 63 0 = true ∧ beatSatisfies (e.massif 63).step b = true ∧ b.ch ≠ e.get F.PAIR_EPOCH_CH
           ∧ beatSatisfies (e.massif 63).step { b with ch := 62 } = false)
      ∧ (s.get (F.SLOT_VALID_BITS 63)).testBit 15 = true := by decide +kernel

/-! ### Witnesses: the pair, the lane groups and Ethernet -/

/-- A member of a pair in state `k`, with the link up and the partner ready. -/
def member (k : Nat) (p : Pair) : State :=
  { withFields [(F.PAIR_CFG_EN, 1), (F.PAIR_CFG_CMP, 1), (F.PAIR_STAT_STATE, k), (F.PAIR_STAT_LINK, 1), (F.PAIR_STAT_PARTNER_READY, 1)] live with pair := p }
theorem witness_pair_roles :
    (∀ k < 6, pairState (member k {}) = k) ∧ pairState live = pOff ∧ live.loadHold = false
    ∧ (0 : BitVec 10).toNat = (member pHello {}).get F.PAIR_CFG_PAIRID
    ∧ (List.range 12).map (fun i => bitsOf (0 : BitVec 384).toNat (32 * i) 32) = imageDigest (member pHello {})
    ∧ (List.range 12).map (fun i => bitsOf (2 ^ 383) (32 * i) 32) ≠ imageDigest (member pHello {})
    ∧ epochsApart (0xFFFFFFFF : Word).toNat (epochNow (member pHello {})) = false
    ∧ (1023 : BitVec 10).toNat ≠ (member pHello {}).get F.PAIR_CFG_PAIRID
    ∧ (member pHello {}).flag F.PAIR_STAT_LINK = true ∧ (member pHello {}).flag F.PAIR_CFG_ROLE_PREF = false
    ∧ (let s := { member pHello {} with cycle := 1000000 * live.get F.PAIR_HELLOTO_MS }
       s.pair.helloAt + 1000000 * s.get F.PAIR_HELLOTO_MS ≤ s.cycle)
    ∧ (∀ k ∈ [pActive, pStandby], let s := { member k {} with cycle := 1000 * live.get F.PAIR_HB_LOSS }
       s.power.warmPhase = 0 ∧ s.pair.lost = false ∧ s.pair.lastHb + s.get F.PAIR_HB_LOSS * 1000 ≤ s.cycle ∧ arbByPin s = true)
    ∧ (let s := { member pStandby { claimAt := some 0 } with cycle := 1000 * live.get F.PAIR_ARBTO_US }
       s.pair.claimAt = some 0 ∧ 0 + s.get F.PAIR_ARBTO_US * 1000 ≤ s.cycle ∧ live.pair.claimAt = none)
    ∧ bitsOf (0 : Dword).toNat 0 16 = live.get F.PAIR_CFG_PAIRID ∧ bitsOf (0 : Dword).toNat 16 16 = live.get F.TMP_ID_ID
    ∧ bitsOf (0x3FFF0000 : Dword).toNat 0 16 = live.get F.PAIR_CFG_PAIRID ∧ bitsOf (0x3FFF0000 : Dword).toNat 16 16 ≠ live.get F.TMP_ID_ID
    ∧ (let s := { member pSyncing { plan := .takeover, planAt := 5, planEpoch := 5 } with cycle := 6 }
       s.pair.plan = .takeover ∧ s.pair.planEpoch ≠ epochNow s ∧ s.pair.planAt < s.cycle ∧ s.pair.commit = none)
    ∧ (member pActive {}).txIdle 31 = false ∧ (member pActive {}).pair.lost = false
    ∧ (member pActive {}).flag F.PAIR_STAT_PARTNER_READY = true ∧ live.pair.plan ≠ .takeover := by decide +kernel

/-- An epoch's end that brings nothing. -/
def ended : EpochEnd := ⟨7, [], [], [], 0, []⟩
theorem witness_pair_records :
    (∀ e ∈ [7, 8], let s := member pStandby { arrived := [ended], staged := [⟨63, 262143, [(9, true)], e⟩] }
       s.pair.arrived = [ended] ∧ s.pair.committed = none ∧ ended.queues = [] ∧ ended.seqs = [] ∧ ended.ckpts = [] ∧ ended.digests = []
         ∧ s.pair.staged = [⟨(63 : Fin 64), (262143 : BitVec 18).toNat, [(9, true)], e⟩])
    ∧ (let s := member pActive { beats := [(0, 0)] }
       s.pair.beats.find? (fun x => x.1 == ((0xFFFFFFFF : Word).toNat + 1) % 2 ^ 32) = some (0, 0) ∧ s.flag F.PAIR_CFG_CMP = true
         ∧ s.pair.closed.any (fun x => x.1 == (0xFFFFFFFF : Word).toNat) = false
         ∧ reached (s.encPos (s.bc (s.get F.PAIR_EPOCH_CH)).enc + BitVec.ofNat 48 (s.get F.PAIR_CMP_LAG)) (0 + BitVec.ofNat 48 (s.get F.PAIR_CMP_LAG)) = true)
    ∧ (let s := (member pActive {}).put (F.CKPT_LEN_BYTES 67) 4096
       s.flag (F.CKPT_CTL_BUSY 67) = false ∧ 4 ≤ s.get (F.CKPT_LEN_BYTES 67) ∧ s.get (F.CKPT_LEN_BYTES 67) ≤ 4096 ∧ s.get (F.CKPT_LEN_BYTES 67) % 4 = 0)
    ∧ (live.put (F.CKPT_CTL_BUSY 67) 1).flag (F.CKPT_CTL_BUSY 67) = true
    ∧ (let s := withFields [(F.PAIR_CFG_EN, 1), (F.GRP_CTL_PROTO 31, 4), (F.GRP_CTL_EN 31, 1)] live
       s.flag F.PAIR_CFG_EN = true ∧ s.get (F.GRP_CTL_PROTO 31) = 4 ∧ s.flag (F.GRP_CTL_EN 31) = true ∧ s.flag (F.GRP_CTL_LP 31) = false ∧ s.loadHold = false
         ∧ s.flag F.PAIR_STAT_LINK = false)
    ∧ (member pActive { retries := 15 }).pair.retries = 15 ∧ (member pActive { retries := 14 }).pair.retries < 15 := by decide +kernel

/-- Group 31 carries CXP, and its link 7 is enabled. -/
def cxp : State := withFields [(F.GRP_CTL_PROTO 31, 1), (F.GRP_CTL_EN 31, 1), (F.CXP_LINK_EN 31 7, 1)] live
theorem witness_lane_groups :
    ((F.GRP_CTL_PROTO 31).of (inWord [(F.GRP_CTL_PROTO 31, 2)]).toNat ≠ live.get (F.GRP_CTL_PROTO 31) ∧ protoAllowed 31 2 = false)
    ∧ ((F.GRP_CTL_PROTO 31).of (inWord [(F.GRP_CTL_PROTO 31, 1), (F.GRP_CTL_EN 31, 1), (F.GRP_CTL_LP 31, 1)]).toNat = 1 ∧ protoAllowed 31 1 = true
      ∧ live.flag (F.GRP_CTL_EN 31) = false ∧ live.get (F.GRP_CTL_PROTO 31) ≠ 3 ∧ live.flag (F.GRP_CTL_LP 31) = false
      ∧ (F.GRP_CTL_LP 31).of (inWord [(F.GRP_CTL_PROTO 31, 1), (F.GRP_CTL_EN 31, 1), (F.GRP_CTL_LP 31, 1)]).toNat = 1)
    ∧ (let s := (live.put (F.GRP_CTL_LP 31) 1).setInbox (laneRouter 31) [pk (laneRouter 31) 1 1 0]
       s.flag (F.GRP_CTL_LP 31) = true ∧ (s.inbox (laneRouter 31)).any (fun p => p.dport == 31 % 2) = true)
    ∧ cxp.flag (F.GRP_CTL_EN 31) = true ∧ cxp.get (F.GRP_CTL_PROTO 31) ≠ 0 ∧ cxp.flag (F.GRP_CTL_LP 31) = false
    ∧ (cxp.put (F.LN_STAT_READY 31 7) 1).flag (F.LN_STAT_READY 31 7) = true ∧ cxp.flag (F.LN_STAT_READY 31 7) = false
    ∧ groupUp cxp 31 1 = true ∧ groupUp live 31 1 = false ∧ cxp.flag (F.CXP_LINK_EN 31 7) = true ∧ cxp.flag (F.CXP_STAT_SPDCHG 31 7) = false
    ∧ (0 : Byte).toNat = cxp.get (F.CXP_LINK_STREAMID 31 7) ∧ (255 : Byte).toNat ≠ cxp.get (F.CXP_LINK_STREAMID 31 7)
    ∧ cxp.get (F.CXP_LINK_SIZE 31 7) = 0 ∧ cxp.get (F.CXP_LINK_PACK 31 7) = 0 ∧ cxp.get (F.CXP_LINEW_WORDS 31 7) = 0
    ∧ (cxp.cxp 31 7).src = {} ∧ (cxp.cxp 31 7).nextTag = none ∧ (cxp.cxp 31 7).ahead = [] ∧ cxp.lanes.acks = [] ∧ (cxp.cxp 31 7).trig = []
    ∧ keeps cxp (inWord [(F.CXP_LINK_SIZE 31 7, 1)]) [F.CXP_LINK_SIZE 31 7, F.CXP_LINK_VER 31 7, F.CXP_LINK_PACK 31 7, F.CXP_LINK_CRCACT 31 7,
        F.CXP_LINK_STREAMID 31 7] = false
    ∧ live.flag (F.CXP_LINK_EN 31 7) = false ∧ (F.CXP_LINK_EN 31 7).of (inWord [(F.CXP_LINK_EN 31 7, 1), (F.CXP_LINK_SIZE 31 7, 1)]).toNat = 1
    ∧ 7 % 2 ^ (F.CXP_LINK_SIZE 31 7).of (inWord [(F.CXP_LINK_EN 31 7, 1), (F.CXP_LINK_SIZE 31 7, 1)]).toNat ≠ 0
    ∧ (F.CXP_LINK_EN 31 7).of 0 = 0 ∧ cxp.get (F.CXP_LINK_SPEED 31 7) ≠ 7 ∧ (cxp.put (F.CXP_LINK_SPEED 31 7) 7).get (F.CXP_LINK_SPEED 31 7) = 7
    ∧ (let s := withFields [(F.CXP_STAT_SPDCHG 31 7, 1), (F.LN_STAT_READY 31 7, 1)] cxp
       s.flag (F.CXP_STAT_SPDCHG 31 7) = true ∧ (∀ i < 2 ^ s.get (F.CXP_LINK_SIZE 31 7), s.flag (F.LN_STAT_READY 31 (7 + i)) = true))
    ∧ cxp.flag (F.CXP_CCCTL_BUSY 31) = false ∧ cxp.txIdle 31 = false
    ∧ (let v := inWord [(F.CXP_CCCTL_LINK 31, 7), (F.CXP_CCCTL_LEN 31, 64)]
       (cxp.loadAll (v ||| 0x10000) [F.CXP_CCCTL_LINK 31, F.CXP_CCCTL_LEN 31]).get (F.CXP_CCCTL_LEN 31) = 64)
    ∧ (cxp.put (F.CXP_CCCTL_BUSY 31) 1).flag (F.CXP_CCCTL_BUSY 31) = true
    ∧ (let s := cxp.put (F.CXP_RXPTR_HEAD 31) 3
       (s.get (F.CXP_RXPTR_HEAD 31) + 1) % 4 = s.get (F.CXP_RXPTR_TAIL 31))
    ∧ (let s := withFields [(F.CXP_RXPTR_HEAD 31, 3), (F.CXP_RXPTR_TAIL 31, 2)] cxp
       (s.get (F.CXP_RXPTR_HEAD 31) + 1) % 4 ≠ s.get (F.CXP_RXPTR_TAIL 31) ∧ s.get (F.CXP_RXPTR_HEAD 31) < 4)
    ∧ (let s := cxp.setCxp 31 7 { trig := [(9, true)] }
       (s.cxp 31 7).trig = [(9, true)] ∧ s.tb8 ≤ 9) := by decide +kernel

theorem witness_no_line_broken : live.flag (F.GRP_CTL_LP 0) = false ∧ ∀ f < 8, linesBreak 0 f live = live := by decide +kernel

/-- Cluster 7 has its ports up, with rings of two slots, and its GVSP source 3 enabled. -/
def cluster : State := withFields [(F.GRP_CTL_PROTO 25, 2), (F.GRP_CTL_EN 25, 1), (F.ETH_CTL_MODE 7, 3), (F.ETH_CTL_PORTEN 7, 15), (F.ETH_STAT_LINK 7, 15),
  (F.XRX_RING_SLOTS 7, 2), (F.XTX_RING_SLOTS 7, 2), (F.XTX_PTR_TAIL 7, 1), (F.GV_EN 7 3, 1), (F.GV_UDPPORT 7 3, 99)] live
def small (n : Nat) : Report := ⟨0, 0, 0, 0, List.replicate n 0⟩
theorem witness_ethernet_clusters :
    live.get (F.ETH_CTL_PORTEN 7) = 0 ∧ cluster.get (F.ETH_CTL_PORTEN 7) ≠ 0
    ∧ keeps cluster 0 [F.ETH_CTL_MODE 7, F.ETH_CTL_FEC 7, F.ETH_CTL_PORTEN 7] = false ∧ (∀ p < 4, portUp cluster 7 p = true) ∧ portUp live 7 3 = false
    ∧ gvMatch cluster 7 (cluster.get (F.GV_PORT 7 3)) (some (99, 5)) = some 3
    ∧ ringOk (cluster.get (F.XRX_RING_SLOTS 7)) = true ∧ (cluster.ethCl 7).rx = []
    ∧ (cluster.get (F.XRX_PTR_HEAD 7) + 0 + 1) % cluster.get (F.XRX_RING_SLOTS 7) ≠ cluster.get (F.XRX_PTR_TAIL 7)
    ∧ (let s := cluster.put (F.XRX_PTR_TAIL 7) 1
       (s.get (F.XRX_PTR_HEAD 7) + (s.ethCl 7).rx.length + 1) % s.get (F.XRX_RING_SLOTS 7) = s.get (F.XRX_PTR_TAIL 7))
    ∧ (cluster.get (F.ETH_CTL_MODE 7) ≠ 1 ∧ (F.ETH_CTL_MODE 7).of (inWord [(F.ETH_CTL_MODE 7, 1)]).toNat ≠ cluster.get (F.ETH_CTL_MODE 7)
       ∧ cluster.get (F.GRP_CTL_PROTO (clusterGroup 7)) = 2)
    ∧ (let s := (cluster.setEthCl 7 { steered := [3] }).setGv 7 3 { inBlock := true, lineItems := 4, expected := some 0xFFFFFFFF }
       let x := s.gv 7 3
       (s.ethCl 7).steered = [3] ∧ s.flag (F.GV_EN 7 3) = true ∧ x.src = {} ∧ x.place = 0 ∧ x.inBlock = true ∧ x.format = .mono8
         ∧ x.lineItems = 4 ∧ x.expected = some (0xFFFFFFFF : Word).toNat ∧ s.get (F.GV_LOG2N 7 3) = 0
         ∧ x.expected.any ((0 : Word).toNat < ·) = true ∧ (s.put (F.GV_EN 7 3) 0).flag (F.GV_EN 7 3) = false)
    ∧ (let x : GvSrc := { expected := some 0 }
       x.src = {} ∧ x.inBlock = false ∧ x.expected = some 0 ∧ x.pktBytes = none ∧ 0 < (1 : Word).toNat)
    ∧ 3 ∉ (cluster.ethCl 7).steered
    ∧ groupUp live (clusterGroup 7) 2 = false
    ∧ ringOk (cluster.get (F.XTX_RING_SLOTS 7)) = true ∧ cluster.get (F.XTX_PTR_HEAD 7) ≠ cluster.get (F.XTX_PTR_TAIL 7)
    ∧ cluster.get (F.XTX_PTR_HEAD 7) < cluster.get (F.XTX_RING_SLOTS 7) ∧ cluster.txIdle (clusterGroup 7) = false
    ∧ ringOk (live.get (F.XTX_RING_SLOTS 7)) = false
    ∧ (let s := (withFields [(F.COL_CTL_SINK, 2), (F.COL_CTL_ETHCL, 7), (F.ETH_TXU_MAXLEN_BYTES 7, 88)] cluster).setEthCl 7 { reports := [small 16], firstAt := some 0 }
       s.get F.COL_CTL_SINK = 2 ∧ s.get F.COL_CTL_ETHCL = 7 ∧ maxLen s 7 < datagramBytes (s.ethCl 7).reports + reportBytes (small 16)
         ∧ (s.ethCl 7).reports ≠ [] ∧ portUp s 7 (s.get (F.ETH_TXU_PORT 7)) = true ∧ s.txIdle (clusterGroup 7) = false
         ∧ (s.ethCl 7).firstAt = some 0 ∧ (xtxWaits s 7 (s.get (F.ETH_TXU_PORT 7)) && (s.ethCl 7).lastReport.contains (s.get (F.ETH_TXU_PORT 7))) = false ∧ datagramBytes [] + reportBytes (small 1) ≤ maxLen s 7)
    ∧ (let s := { cluster with cycle := cluster.get (F.ETH_TXU_HOLD_NS 7) }
       0 + s.get (F.ETH_TXU_HOLD_NS 7) ≤ s.cycle ∧ cluster.cycle < 0 + (cluster.put (F.ETH_TXU_HOLD_NS 7) 5).get (F.ETH_TXU_HOLD_NS 7))
    ∧ (cluster.get (F.ETH_STAT_LINK 7)).testBit 3 = true ∧ (live.get (F.ETH_STAT_LINK 7)).testBit 3 = false
    ∧ (0 : Int) ≤ 1000000000 * ((({ sec := 1 } : Phc).sec : Nat) : Int) + 0 + (0xFFFFFFFF : Word).toInt := by decide +kernel

/-- A pair member whose Tempo port 3 faces its parent. -/
def tempoMember (k : Nat) (root : Bool) : State :=
  withFields [(F.TMP_CFG_EN, 1), (F.TP_CTL_EN 3, 1), (F.TP_STAT_LINK 3, 1), (F.TP_STAT_ROLE 3, 1), (F.TMP_STAT_STATE, if root then 4 else 2)] (member k {})
theorem witness_pair_arbitration :
    (∀ root, let s := tempoMember pStandby root
      (∀ c ∈ [0x20, 0x21], takesFlooded s 3 (.ctrl 16383 c 0) = true) ∧ (16383 : Nat) ≠ s.get F.TMP_ID_ID ∧ (s.get F.TMP_STAT_STATE = 4 ↔ root = true)
        ∧ (s.pair.grants.any fun x => x.1 == 0) = false ∧ s.get F.PAIR_CFG_PAIRID = 0 ∧ s.get F.TMP_ID_ID = 0)
    ∧ takesFlooded live 3 (.ctrl 16383 0x20 0) = false
    ∧ (let s := member pStandby { lost := true, lastHb := 0 }
       s.pair.lost = true ∧ s.pair.sampled = false ∧ s.pair.lastHb + s.get F.PAIR_HB_LOSS * 1000 > s.cycle
         ∧ ({ s with cycle := 100000000 } : State).cycle ≥ s.get F.PAIR_HB_LOSS * 1000)
    ∧ (let s := (member pStandby {}).put F.PAIR_STAT_LINK 0
       s.flag F.PAIR_STAT_LINK = false ∧ s.pair.lost = false)
    ∧ (member pHello { helloSeen := true }).pair.helloSeen = true ∧ (member pHello {}).pair.helloSeen = false
    ∧ (member pActive {}).pair.lost = false ∧ (member pActive {}).power.warmPhase = 0
    ∧ (let s := member pStandby { plan := .takeover, planAt := 5, commit := some ended }
       s.pair.commit.isSome = true ∧ s.pair.plan = .takeover) := by decide +kernel
theorem witness_commits :
    (let s := member pStandby { arrived := [ended], committed := some 6, staged := [⟨63, 262143, [(9, true)], 7⟩] }
     s.pair.arrived = [ended] ∧ s.pair.commit = none ∧ commitWrites s = false ∧ ended.epoch = (6 + 1) % 2 ^ 32
       ∧ s.pair.staged = [⟨(63 : Fin 64), (262143 : BitVec 18).toNat, [(9, true)], ended.epoch⟩])
    ∧ (let s := member pStandby { commit := some ended, staged := [⟨63, 262143, [(9, true)], 8⟩] }
       s.pair.commit = some ended ∧ commitWrites s = false ∧ behind 7 8 = true ∧ behind 7 7 = false)
    ∧ (let b : ShelfBulk := ⟨{ pk 63 0 3 2 with src := pairRouter }, [0], [], none⟩
       commitWrites ((member pStandby {}).setShelf 63 { bulk := [b] }) = true)
    ∧ (let s := member pActive { beats := [(0, 0)] }
       let lag := BitVec.ofNat 48 (s.get F.PAIR_CMP_LAG)
       posDue (epochDir s) (s.encPos (s.bc (s.get F.PAIR_EPOCH_CH)).enc) (if epochDir s = 1 then 0 - lag else 0 + lag) = false ∨ lag = 0)
    ∧ (let s := withFields [(F.CKPT_CTL_BUSY 63, 1), (F.CKPT_LEN_BYTES 63, 4)] live
       let ps := fun (s : State) => readRequests s (some 63) pairRouter 2 (ckptAddr s 63) 4
       let t := withReplies (ckptKey 63) [wordReply 5] s
       s.flag (F.CKPT_CTL_BUSY 63) = true ∧ (wireAsk (ckptKey 63) (ps s) (wireRewind (ckptKey 63) s)).1 = none
         ∧ (wireAsk (ckptKey 63) (ps t) (wireRewind (ckptKey 63) t)).1 = some [wordReply 5])
    ∧ (let c : CkptRec := ⟨63, 0, [(5, false)]⟩
       let s := member pActive { ckpts := [c] }
       s.pair.broken = false ∧ mirrorBytes s ≤ 2 ^ 20 * s.get F.PAIR_MBUF_SZ_MIB
         ∧ 2 ^ 20 * (s.put F.PAIR_MBUF_SZ_MIB 0).get F.PAIR_MBUF_SZ_MIB < mirrorBytes (s.put F.PAIR_MBUF_SZ_MIB 0)) := by decide +kernel

theorem witness_lane_group_changes :
    (live.put (F.LN_STAT_READY 31 7) 1).flag (F.LN_STAT_READY 31 7) = true
    ∧ (let s := { cxp with lanes := { cxp.lanes with trained := [255] } }
       8 * 31 + 7 ∈ s.lanes.trained ∧ (s.put (F.LN_CTL_ADAPT 31 7) 0).flag (F.LN_CTL_ADAPT 31 7) = false)
    ∧ (let v := inWord [(F.CXP_LINK_EN 31 7, 1)]
       live.flag (F.CXP_LINK_EN 31 7) = false ∧ (F.CXP_LINK_EN 31 7).of v.toNat = 1 ∧ 7 % 2 ^ (F.CXP_LINK_SIZE 31 7).of v.toNat = 0
         ∧ linkOverlap live 31 7 (2 ^ (F.CXP_LINK_SIZE 31 7).of v.toNat) = false
         ∧ linkOverlap ((cxp.put (F.CXP_LINK_EN 31 6) 1).put (F.CXP_LINK_SIZE 31 6) 1) 31 7 1 = true)
    ∧ live.get (F.GRP_CTL_PROTO 0) ≠ 3 ∧ (live.put (F.GRP_CTL_PROTO 16) 3).get (F.GRP_CTL_PROTO 16) = 3 := by decide +kernel

/-- The cluster with the memory that its rings lie in; the requester at key `k` has had these answers. -/
def ringed (k : Nat) (l : List VnReply) : State :=
  withReplies k l (withFields [(F.HBM_CTL_EN, 1), (F.HBM_STAT_READY0, 1), (F.HBM_STAT_READY1, 1)] cluster)
/-- The answers of a descriptor of `n` bytes, and of the frame. -/
def txReplies (n : Nat) : List VnReply := [readReply (leBytes 16 n), readReply (List.replicate n 7)]
theorem witness_ethernet_rings :
    (let s := ringed (txKey 7) []
     xtxHead s 7 = some 0 ∧ (wireAsk (txKey 7) (readRequests s none (ethRouter 7) (ethPort 7) 0 16) (wireRewind (txKey 7) s)).1 = none)
    ∧ (let s := ringed (txKey 7) (txReplies 64)
       let d := wireAsk (txKey 7) (readRequests s none (ethRouter 7) (ethPort 7) 0 16) (wireRewind (txKey 7) s)
       let f := wireAsk (txKey 7) (readRequests d.2 none (ethRouter 7) (ethPort 7) 16 64) d.2
       xtxHead s 7 = some 0 ∧ d.1 = some [readReply (leBytes 16 64)] ∧ descWord [readReply (leBytes 16 64)] = 64
         ∧ f.1 = some [readReply (List.replicate 64 7)] ∧ (f.2.wire (txKey 7)).op = none ∧ portUp f.2 7 0 = true
         ∧ f.2.txIdle (clusterGroup 7) = false ∧ (f.2.ethCl 7).reports = [] ∧ (64 : Nat).testBit 20 = false)
    ∧ (let s := ringed (txKey 7) (txReplies 64 |>.take 1)
       let d := wireAsk (txKey 7) (readRequests s none (ethRouter 7) (ethPort 7) 0 16) (wireRewind (txKey 7) s)
       d.1.isSome = true ∧ (wireAsk (txKey 7) (readRequests d.2 none (ethRouter 7) (ethPort 7) 16 64) d.2).1 = none)
    ∧ (let s := fun l => (ringed (rxKey 7) l).setEthCl 7 { rx := [⟨3, List.replicate 60 7, 0, 0⟩] }
       let asks := fun (s : State) =>
         wireAsk (rxKey 7) (writeRequests s none (ethRouter 7) (ethPort 7) 0 (rxSlot ⟨3, List.replicate 60 7, 0, 0⟩)) (wireRewind (rxKey 7) s)
       (asks (s [])).1 = none ∧ (asks (s [wroteReply])).1.isSome = true)
    ∧ portUp (cluster.put (F.ETH_STAT_LINK 7) 0) 7 0 = false ∧ xtxHead live 7 = none
    ∧ portExists cluster 7 3 = true ∧ portExists live 7 3 = false := by decide +kernel

/-! ### Witnesses: resets, Rest and the release of a load -/

/-- A command of the SMC is under way. -/
def commanded (r : SmcRun) (s : State) : State := { s.put F.CMD_STAT_BUSY 1 with host := { s.host with smc := some r } }
def powered (p : Power) (l : List (Fld × Nat)) : State := { withFields l live with power := p }
theorem witness_device_resets :
    live.power.off = false ∧ (powered { off := true } []).power.off = true ∧ live.host.smc = none
    ∧ (commanded { code := 2 } live).host.smc ≠ none
    ∧ F.RST_CTL_KEY.of (inWord [(F.RST_CTL_KEY, 0xC4)]).toNat = 0xC4 ∧ F.RST_CTL_KEY.of (0 : Word).toNat ≠ 0xC4
    ∧ (0 : BitVec 10).toNat < live.get F.BO_RESET_MV ∧ ¬ (1023 : BitVec 10).toNat < live.get F.BO_RESET_MV
    ∧ (live.put (F.LN_STAT_READY 31 7) 1).flag (F.LN_STAT_READY 31 7) = true := by decide +kernel
/-- A flit of a stopped source is still in the network. -/
def draining : State :=
  { (travelling { pk 0 0 1 1 with sport := 1 }) with power := { warmPhase := 1, warmAt := 0 } }
theorem witness_warm_and_block_resets :
    F.RST_CTL_KEY.of (inWord [(F.RST_CTL_KEY, 0xC4)]).toNat = 0xC4 ∧ F.RST_CTL_KEY.of (0 : Word).toNat ≠ 0xC4
    ∧ live.flag F.RST_STAT_WARM_BUSY = false ∧ live.flag F.RST_STAT_DEFERRED = false ∧ live.power.warmAfterRest = false
    ∧ live.flag F.CMD_STAT_BUSY = false ∧ (live.put F.CMD_STAT_BUSY 1).flag F.CMD_STAT_BUSY = true
    ∧ (∀ k < 4, (live.put F.REST_STAT_STATE k).get F.REST_STAT_STATE = k)
    ∧ (live.put F.RST_STAT_DEFERRED 1).flag F.RST_STAT_DEFERRED = true ∧ (powered { warmAfterRest := true } []).power.warmAfterRest = true
    ∧ (∀ k < 5, (powered { warmPhase := k, trained := [1] } []).power.warmPhase = k)
    ∧ warmLeft (powered { warmPhase := 1 } []) = false
    ∧ ¬ draining.power.warmAt + draining.get F.RST_DRAINLIM_NS ≤ draining.cycle
    ∧ (let s := { draining with cycle := live.get F.RST_DRAINLIM_NS }
       s.power.warmAt + s.get F.RST_DRAINLIM_NS ≤ s.cycle)
    ∧ (powered { trained := [1] } []).power.trained.contains 1 = true
    ∧ State.reset.loadHold = true ∧ live.loadHold = false ∧ live.host.loads.starts = [] ∧ (live.put F.PAIR_CFG_EN 1).flag F.PAIR_CFG_EN = true
    ∧ (live.massif 63).held = false ∧ ((live.setMassif 63 { held := true }).massif 63).held = true
    ∧ (live.massif 63).resetHold = false ∧ ((live.setMassif 63 { resetHold := true }).massif 63).resetHold = true
    ∧ (live.put (F.GRP_CTL_PROTO 31) 3).get (F.GRP_CTL_PROTO 31) = 3 ∧ live.get (F.GRP_CTL_PROTO 31) ≠ 3
    ∧ (live.fresh F.RST_LG_BITS).testBit 31 = false ∧ (({ live with was := some live.regs }.put F.RST_LG_BITS (2 ^ 31)).fresh F.RST_LG_BITS).testBit 31 = true := by decide +kernel
theorem witness_warm_left : warmLeft draining = true := by decide +kernel
/-- A modified line of the L2. -/
def modified (s : State) : State :=
  { s with cores := { s.cores with l2 := [(5, some ⟨List.replicate 8 (hbmStored 0 false), true⟩)] } }
theorem witness_write_back :
    (let s := powered { warmPhase := 2 } []
     s.power.warmPhase = 2 ∧ l2Busy (l2WriteBack s) = false ∧ l2Busy (l2WriteBack (modified s)) = true) := by decide +kernel

/-- Every massif is gated. -/
def gatedAll : State := withFields ((List.range 64).map fun k => (F.PWR_STAT_STATE k, 3)) live
theorem witness_rest :
    live.flag F.CMD_STAT_BUSY = false ∧ live.flag F.RST_STAT_WARM_BUSY = false ∧ live.flag F.RST_STAT_DEFERRED = false ∧ live.loadHold = false
    ∧ State.reset.loadHold = true ∧ live.get F.REST_STAT_STATE = 0 ∧ live.get (F.PWR_STAT_STATE 63) = 0
    ∧ (live.massif 63).held = false
    ∧ (∀ k < 4, (live.put F.REST_STAT_STATE k).get F.REST_STAT_STATE = k) ∧ live.power.warmPhase = 0
    ∧ (∀ i < 4, live.flag (fRunning (64 + i)) = false) ∧ (powered { trained := [1] } []).power.trained.contains 1 = true
    ∧ (cxp.get (F.GRP_CTL_PROTO 31) = 1) ∧ (live.put F.REST_CFG_SCRUB 0).flag F.REST_CFG_SCRUB = false
    ∧ (let s := { powered { restAsked := [63] } [(F.REST_STAT_STATE, 1), (F.PWR_STAT_STATE 63, 1)] with cycle := live.get F.REST_TO_US * 1000 }
       s.power.restAt + s.get F.REST_TO_US * 1000 ≤ s.cycle ∧ s.power.restAsked = [63] ∧ s.get (F.PWR_STAT_STATE 63) = 1)
    ∧ ¬ (0 + (live.put F.REST_TO_US 1).get F.REST_TO_US * 1000 ≤ live.cycle)
    ∧ ((live.put F.REST_WAKEMASK_HI_BITS (2 ^ 31)).get F.REST_WAKEMASK_HI_BITS).testBit (63 % 32) = true
    ∧ ((live.put F.REST_WAKEMASK_LO_BITS 0).get F.REST_WAKEMASK_LO_BITS).testBit 31 = false
    ∧ (powered { restWoken := [63] } []).massifUp 63 = true ∧ (powered { restWoken := [63] } [(F.PWR_STAT_STATE 63, 4)]).massifUp 63 = false
    ∧ (∀ k < 4, (withFields ((List.range 4).map fun i => (F.FPLL_LOCK i, 1)) live).flag (F.FPLL_LOCK k) = true) ∧ (powered { warmAfterRest := true } []).power.warmAfterRest = true := by decide +kernel
theorem witness_all_gated : (∀ k < 64, gatedAll.get (F.PWR_STAT_STATE k) = 3)
    ∧ l2Busy (l2WriteBack gatedAll) = false ∧ l2Busy (l2WriteBack (modified gatedAll)) = true := by decide +kernel

/-- A load that waits for its release at position 0 of encoder 15, which follows channel 15 of the Tempo. -/
def releasing (x : Staged) (l : List (Fld × Nat)) : State :=
  let s := withFields ([(F.CFG_STAT_STATE, 2), (F.CFG_REL_ENC, 15), (F.CFG_REL_MODE, 1), (F.CFG_REL_GROUP, 255), (F.TMP_FOLLOW_EN 15, 1), (F.TMP_FOLLOW_TPC 15, 15),
    (F.TMP_CFG_EN, 1), (F.SLOT_VALID_BITS 63, 1)] ++ l) live
  { s with host := { s.host with loads := { s.host.loads with staged := some x } } }
def image : ImgInfo := ⟨5, List.replicate 12 9, 0, 0⟩
theorem witness_load_release :
    (let s := releasing { info := image, runs := [63], callers := [63], starts := [3] } []
     mayPublish s = true ∧ mayPublish live = false
       ∧ s.flag F.CFG_REL_MODE = true ∧ s.get F.CFG_REL_GROUP = (255 : Byte).toNat ∧ s.get F.CFG_REL_ENC = 15 ∧ s.flag (F.TMP_FOLLOW_EN 15) = true
       ∧ s.get (F.TMP_FOLLOW_TPC 15) = 15 ∧ s.get F.CFG_STAT_STATE = 2
       ∧ reached (s.encPos 15) (BitVec.ofNat 48 (s.get2 F.CFG_REL_POS_LO_VALUE F.CFG_REL_POS_HI_VALUE)) = true
       ∧ (let t := s.put2 F.CFG_REL_POS_LO_VALUE F.CFG_REL_POS_HI_VALUE (1 : Pos48).toNat
          reached (t.encPos 15) (BitVec.ofNat 48 (t.get2 F.CFG_REL_POS_LO_VALUE F.CFG_REL_POS_HI_VALUE)) = false)
       ∧ s.host.loads.staged = some { info := image, runs := [63], callers := [63], starts := [3] }
       ∧ (s.get (F.SLOT_VALID_BITS 63)).testBit (s.get (F.SEQ_CTL_INIT_SLOT 63)) = true
       ∧ badStep (stepEntry s 63 (s.get (F.SEQ_CTL_INIT_STEP 63) % 2 ^ 6)) = false)
    ∧ (releasing { info := image, massif := some 63 } [(F.CFG_STAT_MRARMED, 1)]).flag F.CFG_STAT_MRARMED = true
    ∧ live.host.loads.staged = none ∧ live.flag F.CFG_REL_MODE = false ∧ live.flag F.CFG_STAT_MRARMED = false ∧ live.get F.CFG_STAT_STATE = 3
    ∧ F.CFG_REL_MODE.of (inWord [(F.CFG_REL_MODE, 1)]).toNat = 1 ∧ F.CFG_REL_MODE.of (0 : Word).toNat = 0
    ∧ memory.flag F.HBM_CTL_EN = true ∧ live.flag F.HBM_CTL_EN = false ∧ memory.flag F.CMD_STAT_BUSY = false := by decide +kernel
theorem witness_massif_reset_done :
    (∀ k ∈ [0, 3], let s := (live.put (F.PWR_STAT_STATE 63) k).setMassif 63 { resetHold := true, withheld := [(3, 2)] }
      (s.massif 63).resetHold = true ∧ (s.massif 63).withheld ≠ [] ∧ s.get (F.PWR_STAT_STATE 63) = k ∧ (s.massif 63).held = false ∧ s.loadHold = false)
    ∧ (powered { banksOff := [2] } []).power.banksOff = [2] := by decide +kernel
theorem witness_load_window :
    memory.host.winWait = [] ∧ (freeTag memory smcRouter).isSome = true
    ∧ (freeTag ((memory.put (F.NI_OUTST_LIMIT smcRouter) 1).setOutReqs smcRouter [⟨0, .endpoint 2, false⟩]) smcRouter) = none
    ∧ memory.get F.CFG_STAT_STATE = 3 := by decide +kernel

/-! ### Witnesses: reports, the host and the SMC -/

/-- A report of massif 63, stamped `n`. -/
def report (n : Nat) : Report := ⟨BitVec.ofNat 32 (2 ^ 8 * 63), 0, BitVec.ofNat 48 n, 0, [7]⟩
/-- The collector is enabled, and inputs 0 and 63 hold reports stamped 9 and 5; `l` fields. -/
def collecting (l : List (Fld × Nat)) (c : Collector) : State :=
  { withFields ((F.COL_CTL_EN, 1) :: l) live with col := { c with inputs := [(0, [report 9]), (63, [report 5])] } }
def ordered (outq : List Report) : State := collecting [(F.COL_CTL_ORDER, 1), (F.COL_INEN_LO_BITS, 1), (F.COL_INEN_HI_BITS, 2 ^ 31)] { outq := outq, lastStamp := some 100 }
theorem witness_reports :
    (let s := { queueing 2 2 0 1 { words := [qword true] } with col := { rr := [(63, 31)] } }
     sinksRun s 63 = true ∧ 0 < credits s 63 ∧ s.flag (F.SQ_CTL_EN 63 31) = true ∧ s.get (F.SQ_CTL_RSINK 63 31) = 2 ∧ s.col.rr.get 63 0 = 31
       ∧ unread s 63 31 = [qword true] ∧ (qword true).w.e = true ∧ s.flag (F.SQ_AUX_STAMPSRC 63 31) = false)
    ∧ sinksRun (live.put (F.MASSIF_STAT_STOPPED 63) 1) 63 = false ∧ live.col.pointer < 64 ∧ live.flag F.COL_CTL_ORDER = false ∧ (∀ q < 32, reportReady live 63 q = false) ∧ colPick live = none
    ∧ (∀ k < 64, inputEnabled live k = true → colInput live k = [])
    ∧ (let s := ordered []
       s.flag F.COL_CTL_ORDER = true ∧ (∀ k < 64, inputEnabled s k = true → colInput s k ≠ []) ∧ inputEnabled s 63 = true ∧ colInput s 63 = [report 5]
         ∧ (∀ k < 64, k ≠ 63 → inputEnabled s k = true →
           stampLess (headStamp s 63) (headStamp s k) = true ∧ stampLess (headStamp s k) (headStamp s 63) = false)
         ∧ s.flag F.COL_CTL_EN = true ∧ s.col.outq.length < 256 ∧ colPick s = some 63
         ∧ s.col.lastStamp.any (stampLess (reportParity [19] (report 5)).stamp) = true) := by decide +kernel
theorem witness_collector_output :
    live.loadHold = false ∧ live.power.warmPhase = 0 ∧ State.reset.loadHold = true ∧ live.pair.hold = [] ∧ live.col.outq = []
    ∧ live.pairQuiet = false ∧ (member pStandby {}).pairQuiet = true
    ∧ (let s := { (withFields [(F.COL_CTL_SINK, 2), (F.COL_CTL_ETHCL, 7), (F.ETH_TXU_EN 7, 1), (F.ETH_TXU_MAXLEN_BYTES 7, 88)] live) with col := { outq := [report 5] } }
       s.col.outq = [report 5] ∧ pairState s = pOff ∧ s.get F.COL_CTL_SINK = 2 ∧ s.flag (F.ETH_TXU_EN (s.get F.COL_CTL_ETHCL)) = true
         ∧ datagramBytes (s.ethCl (s.get F.COL_CTL_ETHCL)).reports + reportBytes (report 5) ≤ maxLen s (s.get F.COL_CTL_ETHCL)
         ∧ (sinkTakes (report 5) [] s).1 = true)
    ∧ (sinkTakes (report 5) [] live).1 = false
    ∧ (let s := { (withFields [(F.COL_CTL_SINK, 2), (F.COL_CTL_ETHCL, 7), (F.ETH_TXU_EN 7, 1), (F.ETH_TXU_MAXLEN_BYTES 7, 88), (F.PAIR_STAT_STATE, pActive)] live) with pair := { hold := [(0, report 5)] } }
       pairState s = pActive ∧ s.pair.hold = [(0, report 5)] ∧ (sinkTakes (report 5) [] s).1 = true) := by decide +kernel
/-- The arbiter last stood at input 63, so that input 0 is nearer than 63; and at 1, so that 63 is. -/
theorem witness_round_robin : ∀ p ∈ [0, 1],
    (let s := collecting [] { pointer := p }
     let i := if p = 0 then 0 else 63
     s.flag F.COL_CTL_EN = true ∧ s.flag F.COL_CTL_ORDER = false ∧ s.col.outq.length < 256 ∧ s.col.pointer < 64 ∧ inputEnabled s i = true
       ∧ (colInput s i).length = 1 ∧ (∀ k < 64, inputEnabled s k = true ∧ colInput s k ≠ [] →
         (i + 64 - s.col.pointer) % 64 ≤ (k + 64 - s.col.pointer) % 64)) := by decide +kernel

/-- Endpoint 1 is linked, and its DMA channel 15 has one descriptor to do, in direction `dir`. -/
def hosting (dir : Nat) (l : List (Fld × Nat)) (h : HostIf) : State :=
  { withFields ([(F.PCI_CTL_EN 1, 1), (F.PCI_STAT_LINKUP 1, 1), (F.DMA_CTL_EN 1 15, 1), (F.DMA_CTL_DIR 1 15, dir), (F.DMA_TAIL_INDEX 1 15, 1),
    (F.DIST_CTL_EN, 1)] ++ l) memory with host := h }
/-- A descriptor: 8 bytes at device address 2³⁵ − 8, and one whose length is 0. -/
def desc (len : Byte) : List Byte := List.replicate 8 0 ++ [0xF8, 0xFF, 0xFF, 0xFF, 7, 0, 0, 0, len, 0, 0, 0] ++ List.replicate 12 0
/-- DMA channel 15 of endpoint 1 works on a descriptor of eight bytes. -/
def working (fromHost : Bool) (err : Nat) : DmaWork := ⟨0, 2 ^ 35 - 8, 8, true, fromHost, List.replicate 8 (5, false), err⟩
theorem witness_host_endpoints :
    (let s := withFields [(F.GRP_CTL_PROTO 16, 3)] live
     s.get (F.GRP_CTL_PROTO 16) = 3 ∧ s.flag F.CMD_STAT_READY = true ∧ s.flag (F.PCI_STAT_LINKUP 1) = false ∧ s.flag (F.PCI_STAT_PERST 1) = false
       ∧ s.listens 16 = false ∧ s.listens 17 = false ∧ live.get (F.GRP_CTL_PROTO 16) ≠ 3)
    ∧ (hosting 0 [] {}).flag (F.PCI_STAT_LINKUP 1) = true ∧ (hosting 0 [] {}).listens 16 = false ∧ (hosting 0 [] {}).listens 17 = false
    ∧ (fn (hosting 0 [] {}) 1).d3hot = false ∧ (fn (hosting 0 [] { fn := [(1, { d3hot := true })] }) 1).d3hot = true
    ∧ (live.put F.MBX_OWN_OWNER 2).get F.MBX_OWN_OWNER = 2
    ∧ (0x3FFFFFD : BitVec 26).toNat % 4 ≠ 0 ∧ servingRouter (0x3FFFFFC : BitVec 26).toNat = none ∧ (servingRouter (0x1000 : BitVec 26).toNat).isSome = true
    ∧ (freeTag live 72).isSome = true ∧ live.outReqs 72 = [] ∧ bar2Waits live 1 = false
    ∧ (let s := (live.put (F.NI_OUTST_LIMIT 72) 1).setOutReqs 72 [⟨0, .bar2 1 5 true 0, false⟩]
       freeTag s 72 = none ∧ bar2Waits s 1 = true)
    ∧ (setHost (fun h => { h with bar2Parts := [(1, [⟨.bar2 1 5 true 0, pk 95 1 1 1⟩])] }) memory).host.bar2Parts.get 1 [] ≠ []
    ∧ memory.flag F.HBM_CTL_EN = true ∧ live.flag F.HBM_CTL_EN = false ∧ (live.put F.CFG_STAT_STATE 2).get F.CFG_STAT_STATE = 2
    ∧ memory.get F.CFG_STAT_STATE ≠ 1 ∧ memory.get F.CFG_STAT_STATE ≠ 2 ∧ (0x7FFFFFFFF : BitVec 35).toNat % 256 + 1 ≤ 256 := by decide +kernel
theorem witness_msix :
    (let s := hosting 0 [(F.DIST_CTL_HALTVEC, 255)] { haltMsi := [(1, true)], fn := [(1, { enable := true, busMaster := true })], msixTab := [(511, { control := 0 })] }
     s.host.haltMsi.get 1 false = true ∧ s.get F.DIST_CTL_HALTVEC = 255 ∧ s.host.msixOr.get (1 * 256 + 255) false = false ∧ s.flag F.DIST_CTL_EN = true
       ∧ (fn s 1).enable = true ∧ (fn s 1).mask = false ∧ (fn s 1).busMaster = true ∧ (fn s 1).d3hot = false
       ∧ (msixEntry s 1 255).control.getLsbD 0 = false)
    ∧ (msixEntry (hosting 0 [] {}) 1 255).control.getLsbD 0 = true ∧ live.flag F.DIST_CTL_EN = false
    ∧ (0xFFC : BitVec 13).toNat < 0x1000 := by decide +kernel
theorem witness_dma :
    (∀ dir < 3, let s := hosting dir [] {}
       s.flag (F.DMA_CTL_EN 1 15) = true ∧ s.get (F.DMA_HEAD_INDEX 1 15) ≠ s.get (F.DMA_TAIL_INDEX 1 15) ∧ s.flag (F.DMA_STAT_STOPPED 1 15) = false
         ∧ s.loadHold = false ∧ s.power.warmPhase = 0 ∧ s.get (F.DMA_CTL_DIR 1 15) = dir ∧ (dmaChan s 1 15).work = none ∧ (dmaChan s 1 15).buf = none)
    ∧ live.flag (F.DMA_CTL_EN 1 15) = false
    ∧ (let x := descOf (desc 8)
       (desc 8).length = 32 ∧ leField (desc 8) 28 4 = 0 ∧ x.len = 8 ∧ x.devAddr.toNat < 2 ^ 35 ∧ x.devAddr.toNat + x.len ≤ 2 ^ 35)
    ∧ (descOf (desc 0)).len = 0 ∧ 2 ^ 35 < (descOf (desc 9)).devAddr.toNat + (descOf (desc 9)).len ∧ 80 ≤ (descOf (desc 80)).len
    ∧ (dmaChan (hosting 0 [] { dma := [(31, { work := some (working false 0) })] }) 1 15).work = some (working false 0)
    ∧ (let s := { hosting 2 [(F.COL_CTL_SINK, 1), (F.COL_CTL_SINKCH, 15)] { dma := [(31, { buf := some ⟨0, 16, true⟩, used := 8, firstAt := some 0 })] } with
         col := { outq := [report 5] }, cycle := live.get (F.DMA_HOLD_NS 1 15) }
       dmaNamed s 1 15 = true ∧ dmaNamed live 1 15 = false
         ∧ (dmaChan s 1 15).buf = some ⟨0, 16, true⟩ ∧ s.col.outq = [report 5] ∧ 16 < (dmaChan s 1 15).used + reportBytes (report 5)
         ∧ (dmaChan s 1 15).firstAt = some 0 ∧ 0 + s.get (F.DMA_HOLD_NS 1 15) ≤ s.cycle ∧ 0 < live.get (F.DMA_HOLD_NS 1 15))
    ∧ (2 : Fin 4) ≠ 0 := by decide +kernel
/-- Requests of a descriptor under way, before and after their answers. -/
theorem witness_dma_work :
    (let s := hosting 0 [] {}
     let ps := readRequests s none 72 2 (2 ^ 35 - 8) 8
     (wireAsk (dmaKey 1 15) ps (wireRewind (dmaKey 1 15) s)).1.isNone = true
       ∧ (wireAsk (dmaKey 1 15) ps (wireRewind (dmaKey 1 15) (withReplies (dmaKey 1 15) [{ bytes := List.replicate 8 (5, true) }] s))).1.isSome = true)
    ∧ (let s := hosting 1 [] {}
       let ps := writeRequests s none 72 2 (2 ^ 35 - 8) (working true 3).data
       (wireAsk (dmaKey 1 15) ps (wireRewind (dmaKey 1 15) (withReplies (dmaKey 1 15) [{}] s))).1.isSome = true
         ∧ (working true 3).fromHost = true ∧ (working true 3).err ≠ 0 ∧ (working true 3).err < 16) := by decide +kernel

/-- Row 255 of bank 15 of shelf 63 waits for its repair. -/
def repairing : State := { live with mem := { live.mem with repairDue := [((63 * 16 + 15) * 256 + 255, 0)] } }
/-- No witness can show an image that authenticates: the checks of R413 rest on the cryptography that Config leaves open. -/
theorem witness_mailbox_commands :
    live.flag F.CMD_STAT_BUSY = false ∧ (live.put F.CMD_STAT_BUSY 1).flag F.CMD_STAT_BUSY = true ∧ live.get F.MBX_OWN_OWNER = 0
    ∧ (live.put F.MBX_OWN_OWNER 71).get F.MBX_OWN_OWNER = 71 ∧ smcListed 0xFF = false ∧ smcListed 0x01 = true
    ∧ (let r : SmcRun := { code := 0x11 }
       (commanded r live).host.smc = some r ∧ refuseImage r live = none ∧ sourceReady r live = true ∧ srcArg r = 0
         ∧ refuseImage r (live.put F.CFG_STAT_MRARMED 1) = some 6)
    ∧ (commanded { code := 0x10 } live).host.smc = some { code := 0x10 }
    ∧ repairing.mem.repairDue = ((63 * 16 + 15) * 256 + 255, 0) :: [] ∧ live.mem.repairDue = []
    ∧ live.host.loads.bootDue = true ∧ live.power.off = false ∧ (setHost (fun h => { h with loads := { bootDue := false } }) live).host.loads.bootDue = false
    ∧ pageWord { live with host := { live.host with nvm := [(32, { writes := 1, data := [(0, 0xFFFFFFFF)] })] } } 16 0 = 0xFFFFFFFF
    ∧ (live.put (F.PCI_CTL_EN 1) 1).flag (F.PCI_CTL_EN 1) = true
    ∧ (live.put F.BOOT_CFG_AUTO 1).flag F.BOOT_CFG_AUTO = true ∧ (live.put F.BOOT_CFG_AUTO 0).flag F.BOOT_CFG_AUTO = false := by decide +kernel
theorem witness_image_load_waits :
    (let r : SmcRun := { code := 0x11, args := [0, 1] }
     let s := commanded r memory
     refuseImage r s = none ∧ sourceReady r s = true ∧ sourceReady r { s with power := { warmPhase := 1 } } = false
       ∧ sourceReady r (setHost (fun h => { h with winWait := [pk 95 1 1 1] }) s) = false
       ∧ (match (authImage (sourceOf r none) (wireRewind smcKey s)).1 with
         | .waits => true
         | _ => false) = true) := by decide +kernel
theorem witness_map_has_no_such_row : inMap repairing ((63 * 16 + 15) * 256 + 255) = false := by decide +kernel

/-- A repair entry of that row; the same with a reserved bit set; and a repair map in which each entry is valid. -/
def fullMap : State := { live with host := { live.host with nvm := [(16, { gen := 1, writes := 1, data := (List.range 256).map fun i => (i, 0x80000000) })] } }
theorem witness_command_completion :
    (let r : SmcRun := { code := 0x01, args := [4096] }
     let s := commanded r live
     s.host.smc = some r ∧ r.settled = none ∧ r.self = false ∧ s.flag F.NVM_STAT_SUSPENDED = false ∧ (r.args.getD 0 0).toNat = 4096)
    ∧ (live.put F.NVM_STAT_SUSPENDED 1).flag F.NVM_STAT_SUSPENDED = true
    ∧ entryOkFormat 0x80000000 = true ∧ entryOkFormat 0xBF0F00FF = true ∧ entryOkFormat 0xC0000000 = false
    ∧ entryRow 0xBF0F00FF = (63 * 16 + 15) * 256 + 255 ∧ entryValid (pageWord live 8 255) = false
    ∧ (let s := live.put F.KEY_STAT_EFILLED 9
       keyFilled s 0 3 = true ∧ keyFilled s 0 0 = true ∧ keyFilled s 0 1 = false)
    ∧ (let s := { live with host := { live.host with nvm := [(8, { gen := 1, writes := 1, data := [(12, 0xA5)] })] } }
       keyRevoked s 0 0 = true ∧ keyRevoked s 0 1 = false)
    ∧ (let s := withFields [(F.ROLLBACK_LO_VALUE, 5), (F.CFG_VERSION_LO_VALUE, 7)] live
       s.get2 F.ROLLBACK_LO_VALUE F.ROLLBACK_HI_VALUE = 5 ∧ s.get2 F.CFG_VERSION_LO_VALUE F.CFG_VERSION_HI_VALUE = 7)
    ∧ srcArg { code := 0x10, args := [0, 0, 64] } = 0 ∧ srcAddr { code := 0x10, args := [0, 0, 64] } % 64 = 0
    ∧ 1 < srcArg { code := 0x10, args := [0, 2] } ∧ srcAddr { code := 0x10, args := [0, 0, 63] } % 64 ≠ 0 := by decide +kernel
theorem witness_command_waits :
    (let s := { commanded { code := 0x10 } live with power := { warmPhase := 1 } }
     s.power.warmPhase ≠ 0 ∧ live.power.warmPhase = 0 ∧ srcArg { code := 0x10 } = 0 ∧ srcAddr { code := 0x10 } % 64 = 0
       ∧ ({ code := 0x10 } : SmcRun).authed = none)
    ∧ (live.put F.CFG_STAT_MRARMED 1).flag F.CFG_STAT_MRARMED = true ∧ (live.put F.CFG_STAT_STATE 2).get F.CFG_STAT_STATE = 2 := by decide +kernel
theorem witness_full_map : ∀ i < 256, entryValid (pageWord fullMap 8 i) = true := by decide +kernel
/-- A header with `n` sections, the first of type RIDGE and empty. -/
def imgHeader (n : Byte) : List Byte := ((List.replicate 336 (0 : Byte)).set 12 n).set 256 2
/-- A load of an image without sections goes on; one that the source no longer answers fails; one whose activation must
wait for another waits. -/
def applied (n : Byte) (flash : Option (List Byte)) (s : State) : Loading :=
  let l := sectsOf (imgHeader n)
  applySections (.flash 0 flash) false ((List.range l.length).zip l) { s := s }
theorem witness_load_applied :
    (match applied 0 none live with
      | .going a => a.g.keys.isEmpty
      | _ => false) = true
    ∧ (match applied 1 none live with
      | .failed k _ => k == 13
      | _ => false) = true
    ∧ (match applied 1 (some []) (live.put F.RT_ACTSTAT_BUSY 1) with
      | .waits _ => true
      | _ => false) = true := by decide +kernel
/-- The same of one section: the run of massif 63's MASSIF_RELOAD. -/
theorem witness_reload_applied :
    (match applySection (.flash 0 none) false (sectAt (imgHeader 1) 0) { s := live } with
      | .failed k _ => k == 13
      | _ => false) = true
    ∧ (match applySection (.flash 0 (some [])) false (sectAt (imgHeader 1) 0) { s := live.put F.RT_ACTSTAT_BUSY 1 } with
      | .waits _ => true
      | _ => false) = true
    ∧ ({ code := 0x12, authed := some (⟨5, [], 0, 0⟩, imgHeader 1) } : SmcRun).authed = some (⟨5, [], 0, 0⟩, imgHeader 1) := by decide +kernel

/-- Pages, and a lock that is set on the page of sequencer 63. -/
theorem witness_management_and_registers :
    live.host.mgmtWait = [] ∧ mgmtOut live = false ∧ mgmtOut (live.setOutReqs 91 [⟨0, .mgmt true, false⟩]) = true ∧ (servingRouter (0x1000 : Word).toNat).isSome = true ∧ servingRouter (0xFFFFFFFF : Word).toNat = none
    ∧ live.flag F.CMD_STAT_READY = true ∧ (freeTag live 91).isSome = true ∧ State.reset.flag F.CMD_STAT_READY = false
    ∧ (pageAt 0x2000).isSome = true ∧ (pageAt 0x3FFF000).isNone = true ∧ (0x2044 + 4 * 7 : Nat) < 2 ^ 26
    ∧ ((pageAt 0x3030000).map fun p => hasRwl p.1 0x3030000 0x040) = some true
    ∧ (live.put (F.LOCK_SET 0x3030000) 1).flag (F.LOCK_SET 0x3030000) = true
    ∧ live.flag F.CMD_STAT_BUSY = false ∧ live.get F.MBX_OWN_OWNER = 0 ∧ (live.put F.MBX_OWN_OWNER 71).get F.MBX_OWN_OWNER = 71
    ∧ accessWaits live (71 : Fin 72) 0x2044 = false
    ∧ accessWaits (live.setInbox 91 [{ pk 91 3 1 3 with addr := 0x2044 }]) (71 : Fin 72) 0x2044 = true
    ∧ (let a : VnReply := { word := 7 }
       a.status = 0 ∧ a.poison = false) := by decide +kernel

/-- Steps that complete: with a command in front, and with an empty queue, which ticks. -/
theorem witness_steps : State.reset.canonical = true
    ∧ (match step (live.withCommand .mgmtUnknown) with
      | .next t => t.pending.isEmpty
      | _ => false) = true
    ∧ (match step live with
      | .next t => t.tb == 1
      | _ => false) = true
    ∧ live.power.off = false ∧ live.tempo.tbSkew = 0 ∧ (powered { off := true } []).power.off = true := by decide +kernel

/-! ### Worked examples of the spec -/

/-- An outcome's next state, tested. -/
def after (r : Host.Outcome State Fault Refusal) (f : State → Bool) : Bool := match r with
  | .next t => f t
  | _ => false

/-- R194–R196: the shelf word 0x0000_0001 has check byte 0x43, and 0x7C as poison. -/
theorem test_secded : checkBits code39 1 = 0x43 ∧ poisonBits code39 1 = 0x7C := by decide +kernel
/-- R102: the slot of the flat-field tile, with its parity. -/
def flatField : BitVec 320 := BitVec.ofNat 320
  (0x00004261 * 2 ^ 32 + 0x380810 * 2 ^ 64 + 2 ^ 104 + 0x44 * 2 ^ 168 + 0b001110 * 2 ^ 90)
theorem test_flat_field_slot : slotOp flatField 0 = 0x21 ∧ slotDm flatField = 1 ∧ slotSat flatField = true ∧ slotSh flatField = 14
    ∧ slotEmode flatField = 1 ∧ slotXo flatField = true ∧ portCode flatField 0 = 4 ∧ portCode flatField 1 = 4 ∧ segSource flatField (4 * 1 + 0) = some 0
    ∧ slotParityOk flatField = true ∧ slotParityOk (flatField ^^^ 1) = false := by decide +kernel
/-- The multiplier arithmetic of the flat-field gain stage: the low lane rounds, the high lane saturates. -/
theorem test_flat_field_gain :
    (let r := plainOp 0x21 flatField ⟨⟨0xEA600BB9, false, true, false⟩, ⟨0x50005000, false, true, false⟩, ⟨0, false, true, false⟩, true, false, false, none⟩ false
     r.x = some 0xFFFF0EA7 ∧ r.sat = true) := by decide +kernel
/-- R22: the sequence (A, B) = 00, 10, 11, 01, 00 counts up in mode 0, and its reverse down. -/
theorem test_quadrature : decodeCount 0 false false true false = some true ∧ decodeCount 0 true false true true = some true
    ∧ decodeCount 0 true true false true = some true ∧ decodeCount 0 false true false false = some true
    ∧ decodeCount 0 false false false true = some false ∧ decodeCount 3 false true true true = some false := by decide +kernel
/-- R183: address 0x0_1234_5678 lies in channel 20 at offset 0x0091_A278, interleaved. -/
theorem test_hbm_map : hbmMap (live.put F.HBM_MAP_MODE 0) 0x12345678 = (20, 0x0091A278) := by decide +kernel
/-- R226: massif 0 reaches ES0 by port 5 and EW0 by port 6; massif 9 goes west first. -/
theorem test_routes : xyPort 0 64 = 5 ∧ xyPort 0 80 = 6 ∧ xyPort 9 0 = 4 ∧ xyPort 8 0 = 3 ∧ xyPort 0 9 = 2 := by decide +kernel
/-- R261: the exchange whose delay is 103.125 ns, and the SYNC whose offset is then +12.375 ns, in 1/64 ns; each frame has
come 31/64 ns before the end of its cycle. -/
def child (l : List (Fld × Nat)) (tb : Nat) (t : TempoPort) : State :=
  ({ withFields ([(F.TMP_CFG_EN, 1), (F.TP_CTL_EN 3, 1), (F.TMP_STAT_UPVALID, 1), (F.TMP_STAT_UPPORT, 3)] ++ l) live with tb := BitVec.ofNat 64 tb }).setTport 3 t
theorem test_tempo_delay : after (exec (.dresp 3 7 (BitVec.ofNat 70 (64 * 5000090 + 48)) (BitVec.ofNat 70 (64 * 5000700)) 31)
      (child [] 5000815 { dreqT1 := some (7, BitVec.ofNat 70 (64 * 5000000)) }))
    (fun t => t.get (F.TP_DELAY_VALUE 3) == 103 * 64 + 8 && (t.tport 3).measured) = true := by decide +kernel
theorem test_tempo_offset : after (exec (.sync 3 (BitVec.ofNat 70 (64 * 5008000)) 31)
      (child [(F.TP_DELAY_VALUE 3, 103 * 64 + 8)] 5008115 { measured := true }))
    (fun t => t.get F.TMP_OFFSET_VALUE == 792 && decide (t.tempo.owed = -792)) = true := by decide +kernel
/-- R335, R336, R339: ADD k1, k2, k3; ADDI with −1; a nonzero field that must be zero; the word of zeros. -/
theorem test_ifa_words : decodeIfa (0x01 * 2 ^ 26 + 1 * 2 ^ 21 + 2 * 2 ^ 16 + 3 * 2 ^ 11) = some (.alu .add 1 2 3)
    ∧ decodeIfa (0x02 * 2 ^ 26 + 1 * 2 ^ 21 + 2 * 2 ^ 16 + 0xFFFF) = some (.imm .addi 1 2 0xFFFF)
    ∧ decodeIfa (0x24 * 2 ^ 26 + 1 * 2 ^ 21 + 1 * 2 ^ 16) = none ∧ decodeIfa 0 = none := by decide +kernel

/-! ### Ill-formed commands -/

/-- A register read, well formed; each of the others breaks one check. -/
theorem test_well_formed : (Instr.regRd (pk 95 3 1 2) false).wellFormed = true := by decide +kernel
theorem test_header_refused : (Instr.regRd (pk 96 3 1 2) false).wellFormed = false := by decide +kernel
theorem test_type_refused : (Instr.postedWr (pk 95 3 4 3)).wellFormed = false := by decide +kernel
theorem test_payload_refused : (Instr.memWr { pk 95 1 1 1 with size := 1, data := [(0, true)] }).wellFormed = false := by decide +kernel
theorem test_access_refused : (Instr.memRd { pk 95 1 1 0 with addr := 255, size := 1 }).wellFormed = false := by decide +kernel
theorem test_lists_refused : (Instr.mwr 0 0 [] 0).wellFormed = false ∧ (Instr.mgmtWrite 0 []).wellFormed = false
    ∧ (Instr.bar2Request 0 0 false 0 [] false).wellFormed = false ∧ (Instr.dmaDescriptor 0 0 0 [] []).wellFormed = false
    ∧ (Instr.collectorOutput [0] []).wellFormed = false := by decide +kernel
end Sys2Proof.Tests
end

/-! Slot parity (R102, R111): the model's fold over a field against a count of ones over the slot, the count when one bit
changes, and the obligation O27. -/

namespace Sys2Proof.Machine

open Sys2Proof

/-! ### Counting the ones below a bound -/

/-- Two predicates that agree but at `p` have counts that differ as their values at `p` do. -/
theorem countP_range_change_one {A B : Nat → Bool} {p : Nat} (hne : ∀ i, i ≠ p → A i = B i) {n : Nat} (hp : p < n) :
    (List.range n).countP A + (B p).toNat = (List.range n).countP B + (A p).toNat := by
  induction n with
  | zero => omega
  | succ n ih =>
    simp only [List.range_succ, List.countP_append, List.countP_singleton, Bool.toNat, Bool.cond_eq_ite] at ih ⊢
    rcases Nat.lt_succ_iff_lt_or_eq.mp hp with hlt | rfl
    · have hn : A n = B n := hne n (by omega)
      have := ih hlt
      rw [hn]
      omega
    · have hbelow : (List.range p).countP A = (List.range p).countP B :=
        List.countP_congr fun i hi => by rw [hne i (by have := List.mem_range.mp hi; omega)]
      omega

/-- The ones of an interval, counted from its low end. -/
theorem countP_range_interval (f : Nat → Bool) {lo last w n : Nat} (hlast : last + 1 = lo + w) (hn : lo + w ≤ n) :
    (List.range n).countP (fun i => decide (lo ≤ i ∧ i ≤ last) && f i) = (List.range w).countP fun i => f (lo + i) := by
  obtain ⟨k, rfl⟩ := Nat.exists_eq_add_of_le hn
  have hbelow : (List.range lo).countP (fun i => decide (lo ≤ i ∧ i ≤ last) && f i) = 0 := by
    simp only [List.countP_eq_zero, List.mem_range]
    intro i hi
    simp [Nat.not_le.mpr hi]
  have habove : (List.range k).countP (fun i => decide (lo ≤ lo + w + i ∧ lo + w + i ≤ last) && f (lo + w + i)) = 0 := by
    simp only [List.countP_eq_zero]
    intro i _
    simp [show ¬ lo + w + i ≤ last by omega]
  have hwithin : (List.range w).countP (fun i => decide (lo ≤ lo + i ∧ lo + i ≤ last) && f (lo + i))
      = (List.range w).countP fun i => f (lo + i) :=
    List.countP_congr fun i hi => by
      have := List.mem_range.mp hi
      simp [show lo + i ≤ last by omega]
  simp only [List.range_add, List.countP_append, List.countP_map, Function.comp_def]
  omega

/-! ### The model's parity as a count -/

/-- The fold is the parity of the number of ones. -/
theorem parityOf_eq_countP (w x : Nat) : parityOf w x = decide ((List.range w).countP x.testBit % 2 = 1) := by
  induction w with
  | zero => rfl
  | succ w ih =>
    have hfold : parityOf (w + 1) x = (parityOf w x != x.testBit w) := by simp [parityOf, List.range_succ]
    rw [hfold, ih, List.range_succ, List.countP_append, List.countP_singleton, Bool.eq_iff_iff]
    cases x.testBit w with
    | false => simp
    | true => simp; omega

theorem testBit_slotField (v : BitVec 320) (lo : Nat) {w i : Nat} (hi : i < w) :
    (slotField v lo w).testBit i = v.getLsbD (lo + i) := by
  simp [slotField, bitsOf, Nat.testBit_mod_two_pow, Nat.testBit_div_two_pow, hi, BitVec.getLsbD, Nat.add_comm]

/-- Whether slot bit `i` is one of the bits `g.1` to `g.2.1` or the parity bit `g.2.2`. -/
def inParityGroup (g : Nat × Nat × Nat) (i : Nat) : Bool := decide (g.1 ≤ i ∧ i ≤ g.2.1) || i == g.2.2

/-- The number of ones in a group, its parity bit among them. -/
def groupOnes (v : BitVec 320) (g : Nat × Nat × Nat) : Nat := (List.range 320).countP fun i => inParityGroup g i && v.getLsbD i

/-- The groups of R102 as first bit, last bit and parity bit. -/
def parityTable : List (Nat × Nat × Nat) :=
  [(0, 31, 90), (32, 63, 91), (64, 89, 92), (96, 127, 93), (128, 159, 94), (160, 191, 95), (192, 223, 252),
    (224, 251, 253), (256, 287, 254), (288, 319, 255)]

/-- A group of the model, by first bit and width, as first and last bit. -/
def groupSpan (g : Nat × Nat × Nat) : Nat × Nat × Nat := (g.1, g.1 + g.2.1 - 1, g.2.2)

theorem inParityGroup_groupSpan (lo w p i : Nat) :
    inParityGroup (groupSpan (lo, w, p)) i = (decide (lo ≤ i ∧ i ≤ lo + w - 1) || i == p) := rfl

theorem parityTable_eq_map_parityGroup : parityTable = (List.range 10).map fun k => groupSpan (parityGroup k) := rfl

/-- The groups of the model lie in the slot, none is empty and none covers its own parity bit. -/
theorem parityGroup_wf : ∀ k < 10, 0 < (parityGroup k).2.1 ∧ (parityGroup k).1 + (parityGroup k).2.1 ≤ 320
    ∧ (parityGroup k).2.2 < 320
    ∧ ¬ ((parityGroup k).1 ≤ (parityGroup k).2.2 ∧ (parityGroup k).2.2 < (parityGroup k).1 + (parityGroup k).2.1) := by
  decide

/-- The ones of a group are those of its field and its parity bit. -/
theorem groupOnes_groupSpan (v : BitVec 320) {lo w p : Nat} (hw : 0 < w) (hlo : lo + w ≤ 320) (hp : p < 320)
    (hout : ¬ (lo ≤ p ∧ p < lo + w)) :
    groupOnes v (groupSpan (lo, w, p)) = (List.range w).countP (slotField v lo w).testBit + (v.getLsbD p).toNat := by
  have hlast : lo + w - 1 + 1 = lo + w := by omega
  have hparityOut : decide (lo ≤ p ∧ p ≤ lo + w - 1) = false := decide_eq_false (by omega)
  have hfield : (List.range w).countP (slotField v lo w).testBit = (List.range w).countP fun i => v.getLsbD (lo + i) :=
    List.countP_congr fun i hi => by rw [testBit_slotField v lo (List.mem_range.mp hi)]
  have hchange := countP_range_change_one (A := fun i => inParityGroup (groupSpan (lo, w, p)) i && v.getLsbD i)
    (B := fun i => decide (lo ≤ i ∧ i ≤ lo + w - 1) && v.getLsbD i)
    (fun i hi => by simp only [inParityGroup_groupSpan, beq_false_of_ne hi, Bool.or_false]) hp
  rw [countP_range_interval v.getLsbD hlast hlo] at hchange
  simpa [groupOnes, inParityGroup_groupSpan, hparityOut, hfield] using hchange

/-- The check of one group holds exactly when the group has an even number of ones. -/
theorem parityOf_slotField_eq_iff (v : BitVec 320) {lo w p : Nat} (hw : 0 < w) (hlo : lo + w ≤ 320) (hp : p < 320)
    (hout : ¬ (lo ≤ p ∧ p < lo + w)) :
    parityOf w (slotField v lo w) = v.getLsbD p ↔ groupOnes v (groupSpan (lo, w, p)) % 2 = 0 := by
  rw [groupOnes_groupSpan v hw hlo hp hout, parityOf_eq_countP]
  cases v.getLsbD p with
  | false => simp
  | true => simp; omega

/-- R102: the slot is correct exactly when every group has an even number of ones. -/
theorem slotParityOk_iff (v : BitVec 320) : slotParityOk v = true ↔ ∀ g ∈ parityTable, groupOnes v g % 2 = 0 := by
  simp only [slotParityOk, parityTable_eq_map_parityGroup, List.all_eq_true, List.forall_mem_map, List.mem_range, beq_iff_eq]
  refine forall₂_congr fun k hk => ?_
  obtain ⟨hw, hlo, hp, hout⟩ := parityGroup_wf k hk
  exact parityOf_slotField_eq_iff v hw hlo hp hout

/-! ### The slot of zeros, and an upset -/

theorem groupOnes_zero (g : Nat × Nat × Nat) : groupOnes 0 g = 0 := by simp [groupOnes]

theorem slotParityOk_zero : slotParityOk 0 = true := by
  rw [slotParityOk_iff]
  intro g _
  rw [groupOnes_zero]

/-- Every bit of a slot is in a group. -/
theorem exists_parityGroup_of_lt {b : Nat} (hb : b < 320) : ∃ g ∈ parityTable, inParityGroup g b = true := by
  simp only [parityTable, inParityGroup, List.mem_cons, exists_eq_or_imp, Bool.or_eq_true, decide_eq_true_eq, beq_iff_eq]
  omega

theorem getLsbD_upset (v : BitVec 320) {b : Nat} (hb : b < 320) (i : Nat) :
    (v ^^^ (1#320 <<< b)).getLsbD i = (v.getLsbD i ^^ (i == b)) := by
  rcases Nat.lt_trichotomy i b with h | rfl | h
  · simp [h, beq_false_of_ne (Nat.ne_of_lt h)]
  · simp [hb]
  · simp [beq_false_of_ne (Nat.ne_of_gt h), Nat.not_lt.mpr (Nat.le_of_lt h), show i - b ≠ 0 by omega]

/-- An upset of a bit of a group turns the parity of the group. -/
theorem groupOnes_upset_mod_two (v : BitVec 320) {g : Nat × Nat × Nat} {b : Nat} (hb : b < 320)
    (hg : inParityGroup g b = true) : groupOnes (v ^^^ (1#320 <<< b)) g % 2 = (groupOnes v g + 1) % 2 := by
  have hchange := countP_range_change_one (A := fun i => inParityGroup g i && (v ^^^ (1#320 <<< b)).getLsbD i)
    (B := fun i => inParityGroup g i && v.getLsbD i) (fun i hi => by simp [getLsbD_upset v hb, beq_false_of_ne hi]) hb
  simp only [hg, getLsbD_upset v hb b, Bool.true_and, beq_self_eq_true, Bool.xor_true] at hchange
  have hflip : (!v.getLsbD b).toNat + (v.getLsbD b).toNat = 1 := by cases v.getLsbD b <;> rfl
  unfold groupOnes
  omega

/-- R111: an upset of any one bit of a correct slot is found. -/
theorem slotParityOk_upset {v : BitVec 320} (hv : slotParityOk v = true) {b : Nat} (hb : b < 320) :
    slotParityOk (v ^^^ (1#320 <<< b)) = false := by
  obtain ⟨g, hmem, hg⟩ := exists_parityGroup_of_lt hb
  have heven := (slotParityOk_iff v).mp hv g hmem
  have hturned := groupOnes_upset_mod_two v hb hg
  refine Bool.eq_false_iff.mpr fun hok => ?_
  have := (slotParityOk_iff _).mp hok g hmem
  omega

/-- Settles O27: the model's check is the evenness of each group's count, and an upset turns the count of the group
that its bit lies in. -/
theorem slotParity : Obligations.SlotParity :=
  ⟨slotParityOk_iff, slotParityOk_zero, fun _ b hv => slotParityOk_upset hv b.isLt⟩

end Sys2Proof.Machine

/-! The collector's round robin (R155): which input the scan from the pointer meets first, what the selection leaves, and the
obligation O58. -/

namespace Sys2Proof.Machine

open Sys2Proof

/-! ### Inputs and their scan -/

/-- Input `k` is enabled and holds a report. -/
def InputReady (s : State) (k : Nat) : Prop := inputEnabled s k = true ∧ colInput s k ≠ []

/-- Inputs that the scan passes from the pointer to input `k`, modulo 64. -/
def scanDistance (s : State) (k : Nat) : Nat := (k + 64 - s.col.pointer) % 64

theorem mem_inputsReady {s : State} {k : Nat} : k ∈ inputsReady s ↔ k < 64 ∧ InputReady s k := by
  simp [inputsReady, InputReady]

theorem scanDistance_lt (s : State) (k : Nat) : scanDistance s k < 64 := Nat.mod_lt _ (by decide)

/-- The input that the scan meets after `d` others is the one at distance `d`. -/
theorem scanDistance_scanned {s : State} (hptr : s.col.pointer < 64) {d : Nat} (hd : d < 64) :
    scanDistance s ((s.col.pointer + d) % 64) = d := by
  unfold scanDistance
  omega

theorem scanned_scanDistance {s : State} (hptr : s.col.pointer < 64) {k : Nat} (hk : k < 64) :
    (s.col.pointer + scanDistance s k) % 64 = k := by
  unfold scanDistance
  omega

/-- R155: with ORDER = 0 the collector picks the ready input that is nearest at or after its pointer. -/
theorem colPick_of_nearest {s : State} {i : Nat} (horder : s.flag F.COL_CTL_ORDER = false) (hptr : s.col.pointer < 64)
    (hi : i < 64) (hready : InputReady s i) (hnear : ∀ k < 64, InputReady s k → scanDistance s i ≤ scanDistance s k) :
    colPick s = some i := by
  have hfirst : (List.range 64).find? ((inputsReady s).contains ∘ fun d => (s.col.pointer + d) % 64)
      = some (scanDistance s i) := by
    simp only [List.find?_range_eq_some, Function.comp_apply, List.contains_eq_mem, List.mem_range,
      Bool.not_eq_true', decide_eq_true_eq, decide_eq_false_iff_not, mem_inputsReady]
    refine ⟨?_, scanDistance_lt s i, fun d hd ⟨hlt, hk⟩ => ?_⟩
    · rw [scanned_scanDistance hptr hi]
      exact ⟨hi, hready⟩
    · have hle := hnear _ hlt hk
      rw [scanDistance_scanned hptr (Nat.lt_trans hd (scanDistance_lt s i))] at hle
      exact Nat.not_le.mpr hd hle
  simp only [colPick, horder, Bool.false_eq_true, if_false, List.find?_map, hfirst, Option.map_some,
    scanned_scanDistance hptr hi]

/-! ### The selection -/

theorem exec_collectorSelect (bad : List (Fin 20)) (s : State) :
    exec (.collectorSelect bad) s = .next (colSelect (bad.map (·.val)) s) := rfl

/-- R153, R155: outside the registers, a selection with ORDER = 0 moves the head report of the picked input to the output
queue, gives its credit back, and steps the pointer past the input. -/
theorem colSelect_of_pick {s : State} {i : Nat} {r0 : Report} {rest : List Report} (bad : List Nat)
    (hen : s.flag F.COL_CTL_EN = true) (horder : s.flag F.COL_CTL_ORDER = false) (hroom : s.col.outq.length < 256)
    (hpick : colPick s = some i) (hin : colInput s i = r0 :: rest) :
    ∃ regs, colSelect bad s = { s with
      regs := regs
      col := { s.col with
        inputs := s.col.inputs.set i rest []
        outq := s.col.outq ++ [reportParity bad r0]
        pointer := (i + 1) % 64
        lastStamp := some (reportParity bad r0).stamp
        credits := s.col.credits.set i (credits s i + 1) 32 } } := by
  simp only [colSelect, hen, hroom, decide_true, Bool.and_self, if_true, hpick, hin, horder, Bool.false_and,
    Bool.false_eq_true, if_false, State.when_false]
  exact ⟨_, rfl⟩

/-- Settles O58: the nearest ready input is the one picked, and the selection writes nothing but the collector and
registers. -/
theorem roundRobin : Obligations.RoundRobin := by
  refine ⟨rfl, ?_⟩
  intro i r rest s ready dist hen horder hroom hptr henabled hin hnear
  have hready : InputReady s i := ⟨henabled, by simp [hin]⟩
  have hpick : colPick s = some i.val := colPick_of_nearest horder hptr i.isLt hready hnear
  obtain ⟨regs, hselect⟩ := colSelect_of_pick [] hen horder hroom hpick hin
  refine ⟨_, exec_collectorSelect [] s, ?_⟩
  rw [List.map_nil, hselect]
  exact ⟨rfl, SMap.get_set_self _ _ _ _, rfl, fun k _ hne => SMap.get_set_ne _ _ _ _ hne, rfl⟩

end Sys2Proof.Machine

/-! Multiplication, division and bit counts of the cores (R339, R340): a register form that completes with the result of
its operation, what each of these operations computes, and the obligation O2. -/

namespace Sys2Proof.Machine

open Sys2Proof

/-! ### Register forms that may be used (R303, R305) -/

/-- No named field is missing, in the spelling of `Ifa.illegal`. -/
theorem MayUse.no_missing_field {c : Nat} {s : State} {fields dests : List Nat} (h : MayUse c s fields dests) :
    fields.any (fun n => !fieldExists (isLead c) n) = false := by
  obtain ⟨hexists, _⟩ := h
  simpa using hexists

/-- No destination is refused, in the spelling of `Ifa.priv`. -/
theorem MayUse.no_refused_dest {c : Nat} {s : State} {fields dests : List Nat} (h : MayUse c s fields dests) :
    ((s.core c).bit pswUSER && dests.any fieldPriv) = false := by
  obtain ⟨_, hdests⟩ := h
  cases huser : (s.core c).bit pswUSER with
  | false => rfl
  | true => simpa [fieldPriv] using hdests huser

/-- A form with one source leaves the second field zero, and field 0 exists on every core. -/
theorem MayUse.second_source_zero {c rd ra rb : Nat} {s : State} (h : MayUse c s [rd, ra, rb] [rd]) :
    MayUse c s [rd, ra, 0] [rd] := by
  obtain ⟨hexists, hdests⟩ := h
  simp only [List.forall_mem_cons] at hexists
  obtain ⟨hrd, hra, _⟩ := hexists
  have hzero : fieldExists (isLead c) 0 = true := by simp [fieldExists]
  exact ⟨by simp [hrd, hra, hzero], hdests⟩

/-- A register form that may be used completes with the result of its operation. -/
theorem ifaRun_alu {c rd ra rb : Nat} {s s1 : State} (f : AluOp) (hat : AtInstr c s s1)
    (huse : MayUse c s1 [rd, ra, rb] [rd]) :
    ifaRun c {} (.alu f rd ra rb) s = ends c (nextPc c (setReg c rd (alu f (regOf s1 c ra) (regOf s1 c rb)) s1)) :=
  go_at hat (by rw [illegal_alu, huse.no_missing_field]) (by rw [priv_alu, huse.no_refused_dest]) rfl

/-- A command that runs a register form gives the value of its operation. -/
theorem exec_of_alu {i : Instr} {f : AluOp} {c rd ra rb : Nat} {s s1 : State} {v : Word}
    (hi : exec i s = .next (ifaRun c {} (.alu f rd ra rb) s)) (hat : AtInstr c s s1)
    (huse : MayUse c s1 [rd, ra, rb] [rd]) (hv : alu f (regOf s1 c ra) (regOf s1 c rb) = v) :
    exec i s = .next (ends c (nextPc c (setReg c rd v s1))) := by
  rw [hi, ifaRun_alu f hat huse, hv]

/-! ### What the operations compute (R339, R340) -/

/-- The low word of the truncated quotient is the library's signed quotient, the one that does not fit included. -/
theorem ofInt_tdiv_eq_sdiv (a b : Word) : BitVec.ofInt 32 (a.toInt.tdiv b.toInt) = a.sdiv b :=
  BitVec.eq_of_toInt_eq (by rw [BitVec.toInt_ofInt, BitVec.toInt_sdiv])

theorem ofInt_tmod_eq_srem (a b : Word) : BitVec.ofInt 32 (a.toInt.tmod b.toInt) = a.srem b := by
  rw [← BitVec.toInt_srem, BitVec.ofInt_toInt]

theorem alu_div (a b : Word) : alu .div a b = if b = 0 then 0xFFFFFFFF else a.sdiv b := by
  simp only [alu, divS, beq_iff_eq, ofInt_tdiv_eq_sdiv]

theorem alu_divu (a b : Word) : alu .divu a b = if b = 0 then 0xFFFFFFFF else a / b := by
  simp only [alu, beq_iff_eq, BitVec.udiv_def]

theorem alu_rem (a b : Word) : alu .rem a b = if b = 0 then a else a.srem b := by
  simp only [alu, remS, beq_iff_eq, ofInt_tmod_eq_srem]

theorem alu_remu (a b : Word) : alu .remu a b = if b = 0 then a else a % b := by
  simp only [alu, beq_iff_eq, BitVec.umod_def]

theorem alu_popc (a b : Word) : alu .popc a b = BitVec.ofNat 32 ((List.range 32).countP fun i => a.getLsbD i) := by
  rw [List.countP_eq_length_filter]
  rfl

/-- R340: the quotient that does not fit is the dividend. -/
theorem alu_div_overflow : alu .div 0x80000000 0xFFFFFFFF = 0x80000000 := by decide

theorem alu_rem_overflow : alu .rem 0x80000000 0xFFFFFFFF = 0 := by decide

/-- Settles O2: each command runs the register form of its operation, whose value is that of the table of R339; CLZ and
POPC have one source. -/
theorem multiplyDivideCount : Obligations.MultiplyDivideCount := by
  intro c rd ra rb s s1 hat huse x y gives
  have hone : MayUse c s1 [rd, ra, 0] [rd] := huse.second_source_zero
  refine ⟨?mul, ?mulh, ?mulhu, ?div, ?divu, ?rem, ?remu, ?overflow, ?clz, ?popc⟩
  case mul => exact exec_of_alu (f := .mul) rfl hat huse rfl
  case mulh => exact exec_of_alu (f := .mulh) rfl hat huse rfl
  case mulhu => exact exec_of_alu (f := .mulhu) rfl hat huse rfl
  case div => exact exec_of_alu rfl hat huse (alu_div x y)
  case divu => exact exec_of_alu rfl hat huse (alu_divu x y)
  case rem => exact exec_of_alu rfl hat huse (alu_rem x y)
  case remu => exact exec_of_alu rfl hat huse (alu_remu x y)
  case overflow =>
    intro hx hy
    have hdiv : alu .div x y = 0x80000000 := by rw [hx, hy, alu_div_overflow]
    have hrem : alu .rem x y = 0 := by rw [hx, hy, alu_rem_overflow]
    exact ⟨exec_of_alu rfl hat huse hdiv, exec_of_alu rfl hat huse hrem⟩
  case clz => exact exec_of_alu (f := .clz) rfl hat hone rfl
  case popc => exact exec_of_alu rfl hat hone (alu_popc x _)

end Sys2Proof.Machine
